-- ==== Sys2Proof/Word.lean ====
section
/-! DEFINITION. The word types of Falyr (R3, R10) and the numbered tables the state is built from. -/

namespace Sys2Proof

/-- A scalar register, a queue entry, a special register, a doubleword (R10). -/
abbrev Word := BitVec 64

/-- One byte of memory. -/
abbrev Byte := BitVec 8

/-- A vector register: 32 lanes of 32 bits (R10). -/
abbrev VecWord := BitVec 1024

/-- A mask register (R10). -/
abbrev MaskWord := BitVec 128

/-- Core numbers of one device: die × 256 + row × 16 + column (R6). -/
abbrev CoreId := Fin 2048

/-- Compute dies of one device (R6). -/
abbrev DieId := Fin 8

/-- Clusters of one device, die × 8 + cluster (R6). -/
abbrev ClusterId := Fin 64

/-- Hardware contexts C0 to C3 of a core (R10). -/
abbrev CtxId := Fin 4

/-- Actor slots of a core (R117). -/
abbrev SlotId := Fin 16

/-- A table of numbered things, listed by rising number. What an unlisted number stands for is said
where the table is read. -/
abbrev Tab (α : Type) := List (Nat × α)

end Sys2Proof
end

