-- ==== Sys2Proof/Config.lean ====
section
/-! DEFINITION. What the manual fixes as a figure of the device, and the free values: constants with
no body, so that nothing can be proved about the value they take. -/

namespace Sys2Proof.Config

/-- G, the bound on clock disagreement of logical time, in ns (R256). -/
def guardNs : Nat := 4096

/-- Lines are 128 bytes, sixteen words of 8 bytes (R232, R242). -/
def lineBytes : Nat := 128

/-- The first physical address past the device's HBM (R230). -/
def hbmEnd : Nat := 0xC000000000

/-- Bytes of one die's HBM stack: 96 GiB (R230). -/
def dieBytes : Nat := 0x1800000000

/-- Bytes of a core's scratchpad (R8, R22). -/
def spadBytes : Nat := 0x80000

/-- Bytes of the operand window (R221): 48 slots of 4 KiB. -/
def opndBytes : Nat := 0x30000

/-- First address of the local scratchpad window (R22). -/
def lswBase : Nat := 0x00FF000000000000

/-- First address of the remote scratchpad window (R221). -/
def rswBase : Nat := 0x00FE000000000000

/-- First address of the operand window (R221); translated memory ends below it. -/
def opwBase : Nat := 0x00FC000000000000

/-- Messages a core's mailbox store holds (R125). -/
def storeSlots : Nat := 1024

/-- Entries of the send unit (R137). -/
def sendEntries : Nat := 8

/-- Copies in flight per core (R293). -/
def copyEntries : Nat := 128

/-- Unacknowledged posted stores per core (R283). -/
def postedMax : Nat := 32

/-- Core cycles of mutual blocking at which QLOCK is raised (R18). -/
def qlockCycles : Nat := 4096

/-- Requests a home slice's queue holds (R251). -/
def sliceQueue : Nat := 64

/-- Network cycles after a NACK before the requester sends again (R251). -/
def nackCycles : Nat := 32

/-- FREE VALUE (assumption 3). The n-th value that the manual leaves open, 64 bits. -/
opaque freeWord : Nat → BitVec 64

/-- FREE VALUE (assumption 7). The physical page Sartar maps for a kernel-domain page that the
cluster TLB does not hold at the moment, by page number VA[55:16] (R344). -/
opaque kernelPage : Nat → BitVec 36

/-- FREE VALUE (assumption 8). The actor slot, counted from 1, in which the translation service actor of a cluster
lives (R7, R238): the manual names the core only. -/
opaque translationSlot : Nat → Fin 15

/-- FREE VALUE (assumption 101). The handler entry and the save area of the translation service actor of a cluster, which
Sartar sets up (R393). -/
opaque translationEntry : Nat → BitVec 64
opaque translationArea : Nat → BitVec 64

/-- FREE VALUE (assumption 14). The 64 KiB page of kernel memory that holds the save area (R344) of actor i of
launch n: a launch record names none. -/
opaque savePage : (n i : Nat) → BitVec 40

/-- FREE VALUE (assumption 15). The domain whose translations the front end asks for first to find the block that packet
i of the queue at an address names (R147): the manual names the domain inside the block alone. -/
opaque launchDomain : (queue i : Nat) → BitVec 16

/-- FREE VALUE (assumption 9). Byte i of the ML-DSA-87 signature that Onyx makes over a seal record
with a key handle at a counter value (R320): the signature is hedged, so the manual fixes no bytes. -/
opaque signatureByte : (handle counter i : Nat) → BitVec 8

/-- FREE VALUE (assumption 10). The Sartar entry address and the measurement handle that Onyx hands to
a kernel core, by die (R394). -/
opaque bootEntry : Nat → BitVec 64
opaque bootMeasure : Nat → BitVec 64

/-- FREE VALUE (assumption 10). The Sartar image: where it is loaded in the memory of die 0, its size, and its bytes (R393). -/
opaque sartarBase : Nat
opaque sartarSize : Nat
opaque sartarByte : Nat → BitVec 8

/-- FREE VALUE (assumption 10). Byte i of measurement register n once Onyx has measured the Sartar
image (R393, R403). -/
opaque measurementByte : (n i : Nat) → BitVec 8

/-- FREE VALUE (assumption 6). What Sartar sets up at bring-up (R206, R383, R349): the base of the gate
table, the base of the system-call area, and for each ring number the kernel address of its descriptor
and the descriptor. -/
opaque gateTableBase : BitVec 64
opaque callBase : BitVec 64
opaque ringAddr : Nat → BitVec 64
opaque ringDescriptor : Nat → BitVec 256

/-- FREE VALUE (assumption 22). The power in W that Sartar reserves for kernel-only islands (R158). -/
opaque islandPower : Nat

/-- FREE VALUE (assumption 84). The bit of a line in the signatures of a chunk (R262): the manual gives their width
alone. -/
opaque sigBit : Nat → Fin 2048

/-- FREE VALUE (assumption 6). What the kernel configures and the manual gives no step for: the id of this
device (R376), the other devices of its scale-up domain, and the HDM ranges as base, length and virtual
function (R381). -/
opaque deviceId : BitVec 12
opaque deviceIds : List (BitVec 12)
opaque hdmRanges : List (Nat × Nat × Nat)

end Sys2Proof.Config
end

