-- ==== Sys2Proof/Syntax.lean ====
section
/-! DEFINITION. The steps of Falyr as data: one constructor of Instr for each row of the opcode table.
Rows NOP to QSTAT are encoded instructions and carry their decoded operands (R37 to R51).
The later rows are steps of the device, which no instruction word encodes: their constructors have no
operand, and what such a step acts on (a message, a coherence request, the number of a core or a die)
stands in the Arg that comes with it. -/

namespace Sys2Proof

/-! ### Operand forms -/

/-- Element types, in the order of their codes 0 to 12 (R43, R64, R67). -/
inductive Ty where
  | i8 | i16 | i32 | i64 | n8 | n16 | n32 | n64 | f16 | bf16 | f32 | f64 | m8
  deriving DecidableEq, Repr

/-- A 6-bit register field (R38): codes 0–31 a register, 32–39 a queue, 63 the immediate. Codes 40–62
name nothing and are refused by the decoder. -/
inductive Opnd where
  | r (n : Fin 32)
  | q (n : Fin 8)
  | imm
  deriving DecidableEq, Repr

/-- The immediate words of a 64-, 96- or 128-bit form (R33). -/
inductive Imm where
  | none
  | w32 (x : BitVec 32)
  | w64 (x : BitVec 64)
  deriving DecidableEq, Repr

/-- Clamps of format A (R43). -/
inductive Clamp where
  | none | relu | sat01 | sat11
  deriving DecidableEq, Repr

/-- Rounding modes of conversions (R66, R70). -/
inductive Rounding where
  | rne | rz | rd | ru
  deriving DecidableEq, Repr

/-- Negate and absolute-value modifiers of one source (R43). -/
structure SrcMod where
  neg : Bool
  abs : Bool
  deriving DecidableEq, Repr

/-- The fields of format A (R43), less OP and FN, which the constructor stands for. -/
structure FmtA where
  d : Opnd
  a : Opnd
  b : Opnd
  c : Opnd
  ma : SrcMod
  mb : SrcMod
  mc : SrcMod
  clamp : Clamp
  dscale : BitVec 4
  k : Fin 8
  z : Bool
  t : Ty
  imm : Imm
  deriving DecidableEq, Repr

/-- Coherence policies (R45, R241). -/
inductive Pol where
  | own | thru | lease | track
  deriving DecidableEq, Repr

/-- Orders of a memory instruction (R45, R273). -/
inductive MemOrd where
  | none | acq | rel | ar
  deriving DecidableEq, Repr

/-- Access sizes of format M (R45). -/
inductive Sz where
  | s1 | s2 | s4 | s8 | s16
  deriving DecidableEq, Repr

/-- Address modes of format M (R45). -/
inductive AddrMode where
  | base | scaled | strided | vindex
  deriving DecidableEq, Repr

/-- The byte offset: OFF16, or OFF32 in the 96-bit form (R45). -/
inductive Off where
  | off16 (x : BitVec 16)
  | off32 (x : BitVec 32)
  deriving DecidableEq, Repr

/-- The fields of format M (R45), less OP and FN. IDX is none for code 63. -/
structure FmtM where
  d : Fin 32
  base : Fin 32
  idx : Option (Fin 32)
  pol : Pol
  ord : MemOrd
  sys : Bool
  sz : Sz
  k : Fin 8
  z : Bool
  am : AddrMode
  off : Off
  deriving DecidableEq, Repr

/-- Branch conditions 0 to 9 (R48). -/
inductive Cond where
  | always | eq | ne | lt | ge | ltn | gen | z | nz | bit
  deriving DecidableEq, Repr

/-- The count of LOOP: a register, a queue, or IMM16 when A = 63 (R102). -/
inductive LoopCount where
  | reg (n : Fin 32)
  | queue (n : Fin 8)
  | imm16 (x : BitVec 16)
  deriving DecidableEq, Repr

/-- The gate named by GCALL (R209). -/
inductive GateName where
  | imm16 (x : BitVec 16)
  | reg (n : Fin 32)
  | imm32 (x : BitVec 32)
  deriving DecidableEq, Repr

/-- Special registers (R24). -/
inductive Spr where
  | core | self | domain | ddepth | origin
  | tbase | lclk | cycle | fflags
  | clkgs | clkef | clkseq
  | l0start | l0end | l0count | l1start | l1end | l1count
  | lease
  | tvec | tpc | tcause | tval | tslot
  | tl0start | tl0end | tl0count | tl1start | tl1end | tl1count
  | budget | msghdr | frame
  deriving DecidableEq, Repr

/-- The six loop registers, which WRS writes by a row of their own (R29). -/
inductive LoopReg where
  | start0 | end0 | count0 | start1 | end1 | count1
  deriving DecidableEq, Repr

/-- The narrow interchange formats (R78). -/
inductive Packed where
  | e4m3 | e5m2 | e3m2 | e2m3 | e2m1
  deriving DecidableEq, Repr

/-- What FN of VCVT names (R51). The type field T is the other side. -/
inductive VcvtFn where
  | toPlain (dst : Ty) (rm : Rounding)
  | toPacked (p : Packed)
  | toE5m2Inf
  | fromPacked (p : Packed)
  deriving DecidableEq, Repr

/-! ### Messages -/

/-- Where a message comes from, so that its answer finds its way back (R137, R405). -/
inductive MsgSrc where
  | sendUnit (core : CoreId) (entry : Fin 8)
  | engine (core : CoreId) (port : Fin 32) (opc asker slot : Nat)
  | frontEnd (die : DieId)
  | completion (die : DieId) (launch : Nat)
  | drain (core : CoreId) (acc : Fin 4)
  | remote (device : BitVec 12)
  | ring (n : Nat)
  | outside
  deriving DecidableEq, Repr

/-- A message (R130): destination endpoint, header parts, payload, and what travels with it unseen:
the sender's current domain (R198), its device when remote (R377), the LCLK stamp (R200). -/
structure Msg where
  dst : Word
  sender : BitVec 48
  tag : BitVec 8
  seq : BitVec 5
  payload : List Word
  domain : BitVec 16
  stamp : Option Nat
  src : MsgSrc
  deriving DecidableEq, Repr

/-- A receiver's answer: accepted, refused with a status (MOVED carries the new endpoint), or full
and held (R131, R137). -/
inductive Answer where
  | accepted
  | status (v : BitVec 8)
  | moved (endpoint : Word)
  | full
  deriving DecidableEq, Repr

/-! ### Coherence messages (R248) -/

/-- A home that serves requests: a home slice's die, or a remote-data cache (R233, R370). -/
inductive HomeUnit where
  | slice (die : DieId)
  | rdc (die : DieId)
  deriving DecidableEq, Repr

/-- Functions of AMO (R285). -/
inductive AmoFn where
  | add | and | or | xor | min | max | minn | maxn | swap | cas | fadd32
  deriving DecidableEq, Repr

/-- An operation performed at the home as one atomic step (R243, R304): an AMO of a size at a byte
offset of the line, or a barrier operation at an offset; an arrival carries who it is made for, as its
report would name them. -/
inductive HomeOp where
  | amo (fn : AmoFn) (size : Nat) (off : Nat) (op : Word) (new : Word)
  | binit (off : Nat) (count : BitVec 32)
  | arrive (off : Nat) (gen : BitVec 16) (poison : Bool) (addr : Word) (domain : BitVec 16)
    (core slot path detail : Nat)
  deriving DecidableEq, Repr

/-- Who waits for the answer to a request: the memory operation of a context, a prefetch, a posted
store, a remote-data cache, an engine, an engine's far read or write, the completion of a copy, a gather
or a collective member, or nobody. -/
inductive Waiter where
  | ctx (core : CoreId) (x : CtxId)
  | prefetch (core : CoreId)
  | posted (core : CoreId) (id : Nat)
  | rdc (die : DieId)
  | engine
  | reader (id : Nat)
  | writer (id : Nat)
  | copy (core : CoreId) (entry : Fin 128)
  | gather (cluster : ClusterId) (id : Nat)
  | member (die : DieId) (id : Nat)
  | nobody
  deriving DecidableEq, Repr

/-- What a DATA response grants (R248). -/
inductive Grant where
  | value | leased | tracked | owned
  deriving DecidableEq, Repr

/-- The kinds of request, as the rows name them (R248). -/
inductive ReqKind where
  | rdu | rdl | rdt | rdx | upg | wt | amo | wb | erd | ewr
  deriving DecidableEq, Repr

/-- One coherence message. Line is the physical address divided by 128; mask and data are the words
of the line it names and carries; reqr is the requester id of R246 at the unit. -/
structure Proto where
  unit : HomeUnit
  reqr : Nat
  line : Nat
  mask : BitVec 16
  data : BitVec 1024
  wmask : BitVec 128
  lclk : Nat
  lease : Nat
  wts : Nat
  rts : Nat
  pol : Pol
  op : Option HomeOp
  old : Word
  grant : Grant
  flags : BitVec 5
  kind : ReqKind
  waiter : Waiter
  deriving DecidableEq, Repr

/-- Who waits for physical time before a store is performed (R259). -/
inductive StoreWait where
  | ctx (core : CoreId) (x : CtxId)
  | home (unit : HomeUnit) (line : Nat)
  deriving DecidableEq, Repr

/-- An access of the host to device memory (R279, R381). -/
inductive HostOp where
  | read
  | readShared
  | readOwn
  | write (data : List Byte)
  | evict (data : List Byte)
  deriving DecidableEq, Repr

/-- A peer's access to this device's memory (R379). -/
inductive PeerOp where
  | load (n : Nat)
  | store (data : List Byte)
  | posted (data : List Byte)
  deriving DecidableEq, Repr

/-- What a peer answers (R379). -/
inductive PeerAnswer where
  | data (bs : List (BitVec 8))
  | done
  | denied
  deriving DecidableEq, Repr

/-- What a device step acts on (Event). Numbers are of cores, contexts, slots, dies, queues, lines and
launches, in the order the step's meaning says. -/
inductive Arg where
  | none
  | nums (a b c : Nat)
  | msg (m : Msg)
  | proto (p : Proto)
  | sector (core : CoreId) (window : Bool) (off : Nat) (data : List (BitVec 8)) (cls num : Nat)
  | answer (core : CoreId) (entry : Fin 8) (a : Answer)
  | abroad (id : Nat) (a : Answer)
  | wait (w : StoreWait)
  | cxl (die : DieId) (line : Nat) (data : BitVec 1024)
  | host (vf addr len : Nat) (op : HostOp)
  | peer (device : BitVec 12) (addr : Nat) (op : PeerOp)
  | peerAnswer (id : Nat) (a : PeerAnswer)
  | boot (die : DieId) (entry measure : Word)
  | inspect (obj sub : Nat) (select : Word) (core : CoreId) (buffer limit : Nat)
  | key (slot : Fin 4096) (domain : BitVec 16) (scrubbed : Bool)
  | ranges (vf : Nat) (l : List (Nat × Nat))
  | contribution (die : DieId) (group rank opc type seq : Nat) (data : List Byte)
  deriving DecidableEq, Repr

/-! ### The steps -/

/-- One step of Falyr: a row of the opcode table. -/
inductive Instr where
  -- scalar integer (R84 to R90)
  | nop
  | fillWord
  | add (o : FmtA) | sub (o : FmtA) | and (o : FmtA) | or (o : FmtA) | xor (o : FmtA)
  | andn (o : FmtA) | orn (o : FmtA) | shl (o : FmtA) | shr (o : FmtA) | sar (o : FmtA)
  | rol (o : FmtA) | ror (o : FmtA) | min (o : FmtA) | max (o : FmtA) | slt (o : FmtA)
  | seq (o : FmtA) | sne (o : FmtA) | clz (o : FmtA) | ctz (o : FmtA) | popc (o : FmtA)
  | brev (o : FmtA) | bswap (o : FmtA) | sext (o : FmtA) | zext (o : FmtA)
  | mul (o : FmtA) | mulh (o : FmtA) | div (o : FmtA) | rem (o : FmtA) | madd (o : FmtA)
  | ext (o : FmtA) | ins (o : FmtA) | sel (o : FmtA)
  | movi (d : Opnd) (imm : Imm)
  | lea (d : Opnd) (off : BitVec 32)
  -- scalar floating point (R91 to R94)
  | fadd (o : FmtA) | fsub (o : FmtA) | fmul (o : FmtA) | fdiv (o : FmtA) | fsqrt (o : FmtA)
  | fmin (o : FmtA) | fmax (o : FmtA) | ffma (o : FmtA)
  | fcmpEq (o : FmtA) | fcmpLt (o : FmtA) | fcmpLe (o : FmtA) | fcmpUn (o : FmtA)
  | fcvt (src : Ty) (rm : Rounding) (o : FmtA)
  | fclass (o : FmtA)
  -- control (R95 to R105)
  | b (cond : Cond) (ra rb : Fin 32) (off : BitVec 32)
  | call (off : BitVec 32)
  | br (rd ra : Fin 32) (off : BitVec 32)
  | bq (cond : Cond) (qa : Fin 8) (rb : Fin 32) (off : BitVec 32)
  | loop (n : Fin 2) (count : LoopCount) (off : BitVec 32)
  | lbrk (n : Fin 2)
  -- scalar memory, atomics, fences (R107, R280 to R292)
  | ldSignExtending (m : FmtM) | ldZeroExtending (m : FmtM)
  | st (m : FmtM) | stf (m : FmtM)
  | amoAdd (m : FmtM) | amoAnd (m : FmtM) | amoOr (m : FmtM) | amoXor (m : FmtM)
  | amoMin (m : FmtM) | amoMax (m : FmtM) | amoMinn (m : FmtM) | amoMaxn (m : FmtM)
  | amoSwap (m : FmtM) | amoCas (m : FmtM) | amoFadd32 (m : FmtM)
  | fenceSys
  | xfence (p c : BitVec 6)
  | pref (m : FmtM) | lpin (m : FmtM) | unpin (m : FmtM) | waita (m : FmtM)
  -- vector integer (R169 to R172)
  | vadd (o : FmtA) | vsub (o : FmtA) | vand (o : FmtA) | vor (o : FmtA) | vxor (o : FmtA)
  | vshl (o : FmtA) | vshr (o : FmtA) | vsar (o : FmtA) | vmin (o : FmtA) | vmax (o : FmtA)
  | vabsd (o : FmtA) | vmul (o : FmtA) | vmulh (o : FmtA) | vmadd (o : FmtA) | vdot4 (o : FmtA)
  -- vector floating point (R173 to R176)
  | vfadd (o : FmtA) | vfsub (o : FmtA) | vfmul (o : FmtA) | vfmin (o : FmtA) | vfmax (o : FmtA)
  | vffma (o : FmtA) | vrcp (o : FmtA) | vrsq (o : FmtA) | vexp2 (o : FmtA) | vlog2 (o : FmtA)
  | vtanh (o : FmtA) | vdiv (o : FmtA) | vsqrt (o : FmtA) | vscac (o : FmtA)
  -- vector comparison, selection, conversion, reduction, rearrangement (R177 to R186)
  | vcmpEq (o : FmtA) | vcmpNe (o : FmtA) | vcmpLt (o : FmtA) | vcmpLe (o : FmtA)
  | vcmpGt (o : FmtA) | vcmpGe (o : FmtA) | vcmpUn (o : FmtA)
  | vsel (o : FmtA)
  | vcvt (fn : VcvtFn) (o : FmtA)
  | vredSum (o : FmtA) | vredMax (o : FmtA) | vredMin (o : FmtA) | vredAnd (o : FmtA)
  | vredOr (o : FmtA)
  | vperm (o : FmtA)
  | vshufRot (o : FmtA) | vshufSlup (o : FmtA) | vshufSldn (o : FmtA) | vshufIlv (o : FmtA)
  | vshufDilv (o : FmtA)
  | vbcast (o : FmtA) | vmov (o : FmtA) | vlaneIns (o : FmtA) | vlaneExt (o : FmtA)
  -- vector memory (R187 to R192)
  | vld (m : FmtM) | vst (m : FmtM) | vldx (m : FmtM) | vstx (m : FmtM) | vsto (m : FmtM)
  -- masks and queues (R193 to R196)
  | kand (o : FmtA) | kor (o : FmtA) | kxor (o : FmtA) | knot (o : FmtA) | kandn (o : FmtA)
  | kmov (o : FmtA) | kfirst (o : FmtA) | kall (o : FmtA) | knone (o : FmtA)
  | kpop (o : FmtA) | kany (o : FmtA) | kallq (o : FmtA) | ktoq (o : FmtA) | kfromq (o : FmtA)
  -- messages, actors, gates (R197 to R216)
  | send (rd : Fin 32) (a : Opnd) (tag : BitVec 8) (rb : Fin 32) (len : Fin 8) (imm : Imm)
  | sendt (rd : Fin 32) (a : Opnd) (tag : BitVec 8) (rb : Fin 32) (len : Fin 8) (imm : Imm)
  | done
  | mbstat (rd : Fin 32) (a : Opnd) (imm : Imm)
  | actctlEnable (rd : Fin 32) (a b : Opnd) (imm : Imm)
  | actctlDisable (rd : Fin 32) (a b : Opnd) (imm : Imm)
  | actctlWeight (rd : Fin 32) (a b : Opnd) (imm : Imm)
  | actctlClass (rd : Fin 32) (a b : Opnd) (imm : Imm)
  | actctlState (rd : Fin 32) (a b : Opnd) (imm : Imm)
  | gcall (g : GateName)
  | gateDescriptorFetch
  | gret
  | ginfo (rd : Fin 32) (a : Opnd) (w : Fin 4) (imm : Imm)
  -- engines, barriers, special registers (R108 to R115, R332 to R341)
  | cpy (rd ra : Fin 32) | cpyt (rd ra : Fin 32)
  | cseal (rd : Fin 32)
  | cwait (rd : Fin 32) (a : Opnd) (imm : Imm)
  | cstat (rd ra : Fin 32)
  | sclaim (rd : Fin 32) (a : Opnd) (count : BitVec 6) (imm : Imm)
  | srel (rd : Fin 32) (a : Opnd) (count : BitVec 6) (imm : Imm)
  | aread (vd rc : Fin 32) (acc : Fin 4) (a : Opnd)
  | astat (rd : Fin 32) (acc : Fin 4)
  | binit (rd : Fin 32) (a b : Opnd) (imm : Imm)
  | barr (rd : Fin 32) (a b : Opnd)
  | bwait (rd : Fin 32) (a b : Opnd) (timeout : BitVec 16) (imm : Imm)
  | bstat (rd : Fin 32) (a : Opnd) (w : Fin 2)
  | rds (d : Opnd) (r : Spr)
  | wrs (r : Spr) (a : Opnd) (imm : Imm)
  | wrsFflags (a : Opnd) (imm : Imm)
  | wrsLoopRegister (r : LoopReg) (a : Opnd) (imm : Imm)
  | wrsTcause (a : Opnd) (imm : Imm)
  | trap (n : BitVec 16) | brk (n : BitVec 16)
  | tret
  | clkrq (rd : Fin 32) (a b : Opnd) (imm : Imm)
  | qstat (rd : Fin 32)
  -- steps of cores and messages
  | qlock
  | faultTokenFreed
  | messageArrival
  | sendUnitRetry
  | remoteSendTimeout
  | activationBind
  | contextSwitch
  | overflowQueueDrain
  | periodStart
  | budgetExhaustion
  | gracePeriodEnd
  | spinelCommit
  -- guard control (R129)
  | rights | share
  | unshare | capload
  | caprevoke | sendright
  | admitEntry | kill
  | gateinv | allot
  | collgrp | peerwin
  | qrepair | unfreeze
  | resolve
  -- the system actor (R354, R394, R156)
  | preempt | resume
  | evict | restore
  | inspect | create
  | destroy | clear
  | boot
  | launchRecord
  -- launches, queues, clocks (R155 to R164, R396 to R401)
  | launch
  | nopPacket
  | reservedPacketType
  | launchCompletion
  | lostpost
  | doorbell
  | queueSleep
  | reGrant
  | thermalTrip
  | grantEffect
  | quadClockStop
  | quadRestart
  -- cluster TLB (R239)
  | fill | absent
  | invva | invdom
  | invall
  -- coherence (R248 to R261)
  | rdu | rdl | rdt | rdx | upg
  | wt | amoMessage | wb | erd | ewr
  | inv | rcr | rcw
  | data | ack | invack | rdata
  | wbpend | nack | nackResend
  | leaseEnd
  | storeWaitEnd
  | timelost | timelostFault | quartzResync
  | quartzFailover
  -- host and fabric (R376 to R382, R390)
  | snpinv | snpdata
  | snpcur
  | cxlCacheCompletion
  | hostCxlMemAccess
  | peerAccess
  | peerTimeout
  | linkReplay
  | portFailure
  -- engines (R299 to R320)
  | copyStart
  | copySector
  | copyCompletion
  | barrierArrival
  | fenceMarkerReturn
  | mma | azero | adrain
  | matrixCommandStart
  | kStep
  | drainNotification
  | matrixCommandEnd
  | gather
  | gatherStart
  | gatherCompletion
  | collectiveSum | collectiveMax
  | collectiveMin | allgather
  | collectiveTimeout
  | sealOpen | sealAdd
  | sealClose
  | ringEntryWrite
  -- management, resets, trusted interfaces (R367, R384 to R386, R393 to R403)
  | getready
  | setcap
  | getpower
  | cxlInspect
  | measure
  | coldReset
  | warmReset
  | tdispLock | tdispStart | tdispStop
  | leaveRun | keyUpdateExpiry
  | waitaDeadline
  | bwaitTimeout
  | clusterTlbEviction
  | waitaWakeInterval
  | messageAnswer
  | peerAcknowledgement
  | fatalError
  | keySlotLoad
  | keyUpdate
  | queueWakeUp
  deriving DecidableEq, Repr

/-- A device step with what it acts on. -/
structure Event where
  row : Instr
  arg : Arg
  deriving DecidableEq, Repr

end Sys2Proof
end

