-- ==== Sys2Proof/WellFormed.lean ====
section
/-! DEFINITION. The static checks on an instruction: every use of an operand, a type, a modifier or a
length that the formats (R37 to R49) or an instruction's entry forbid, each under a name of its own.
An instruction that fails a check is ILLEGAL (R53, R61). Device steps have no encoding and no
static check. -/

namespace Sys2Proof

/-- The static checks, by the field they look at. -/
inductive IllForm where
  | dest | sourceA | sourceB | sourceC
  | type | modifier | scaleClamp | mask | zeroing
  | length | immediateAbsent | immediateUnused | bitField
  | conversion | condition | loopCount | loopOffset | fenceMask
  | addressMode | index | size | pair | order | scope | policy
  | payload | capReg | barrierReg | gateId | spr | writeRow | actctlRow
  deriving DecidableEq, Repr

/-! ### Small predicates -/

namespace Ty

/-- Types 0 to 7 (R43). -/
def isInt : Ty → Bool
  | .i8 | .i16 | .i32 | .i64 | .n8 | .n16 | .n32 | .n64 => true
  | _ => false

/-- The i types. -/
def isSigned : Ty → Bool
  | .i8 | .i16 | .i32 | .i64 => true
  | _ => false

/-- The types of vector arithmetic (R173). -/
def isVecFloat : Ty → Bool
  | .f16 | .bf16 | .f32 => true
  | _ => false

/-- The types of scalar arithmetic (R91). -/
def isScalarFloat : Ty → Bool
  | .f32 | .f64 => true
  | _ => false

/-- Width in bits (R64). -/
def width : Ty → Nat
  | .i8 | .n8 | .m8 => 8
  | .i16 | .n16 | .f16 | .bf16 => 16
  | .i32 | .n32 | .f32 => 32
  | .i64 | .n64 | .f64 => 64

/-- Elements of the type in a vector register (R13, R167). -/
def count (t : Ty) : Nat := 1024 / t.width

end Ty

/-- Bytes of an access (R45). -/
def Sz.bytes : Sz → Nat
  | .s1 => 1
  | .s2 => 2
  | .s4 => 4
  | .s8 => 8
  | .s16 => 16

/-- Read-only special registers (R24, R29). -/
def Spr.readOnly : Spr → Bool
  | .core | .self | .domain | .ddepth | .origin | .tbase | .lclk | .cycle | .clkgs | .clkef
  | .clkseq | .budget | .msghdr | .frame => true
  | _ => false

/-- Registers that have a WRS row of their own (R29, R109). -/
def Spr.ownRow : Spr → Bool
  | .fflags | .tcause | .l0start | .l0end | .l0count | .l1start | .l1end | .l1count => true
  | _ => false

/-! ### Format A (R43, R44) -/

/-- What a source field of an entry may hold (R84, R166). -/
inductive SrcKind where
  | unused
  | scalar
  | scalarReg
  | vec
  | vecReg
  | control
  | fwdQueue
  | retQueue
  | maskReg
  deriving DecidableEq, Repr

/-- What the destination field of an entry may hold. -/
inductive DstKind where
  | unused
  | scalar
  | insert
  | vec
  | maskReg
  | retQueue
  deriving DecidableEq, Repr

/-- Which modifier bits an entry allows on the sources it reads (R44). -/
inductive ModKind where
  | none
  | negate
  | float
  | byType
  | convert
  deriving DecidableEq, Repr

/-- Whether DSCALE and CLAMP are allowed: never, for a float T, or by the target of a conversion. -/
inductive ScaleKind where
  | none
  | float
  | byType
  | convert
  deriving DecidableEq, Repr

/-- Whether K and Z are allowed. -/
inductive MaskKind where
  | none
  | merge
  | noZero
  deriving DecidableEq, Repr

/-- Which types an entry allows. -/
inductive TypeKind where
  | int
  | scalarFloat
  | vecFloat
  | intOrVecFloat
  | classes
  | any
  | zero
  | word
  | bytes
  deriving DecidableEq, Repr

/-- The static part of a format A entry. -/
structure ShapeA where
  d : DstKind
  a : SrcKind
  b : SrcKind
  c : SrcKind
  ty : TypeKind
  mods : ModKind
  scale : ScaleKind
  mask : MaskKind
  l64 : Bool
  l96 : Bool
  l128 : Bool
  deriving DecidableEq, Repr

def SrcKind.ok : SrcKind → Opnd → Bool
  | .unused, .r n => n.val == 0
  | .scalar, .r _ => true
  | .scalar, .q n => 4 ≤ n.val
  | .scalar, .imm => true
  | .scalarReg, .r _ => true
  | .scalarReg, .q n => 4 ≤ n.val
  | .vec, .r _ => true
  | .vec, .q n => n.val < 4
  | .vec, .imm => true
  | .vecReg, .r _ => true
  | .control, .q n => n.val < 4
  | .control, .imm => true
  | .fwdQueue, .q n => n.val < 4
  | .retQueue, .q n => 4 ≤ n.val
  | .maskReg, .r n => n.val < 8
  | _, _ => false

def DstKind.ok : DstKind → Opnd → Bool
  | .unused, .r n => n.val == 0
  | .scalar, .r _ => true
  | .scalar, .q n => n.val < 4
  | .insert, .r n => n.val != 0
  | .vec, .r _ => true
  | .maskReg, .r n => n.val != 0 && n.val < 8
  | .retQueue, .q n => 4 ≤ n.val
  | _, _ => false

def TypeKind.ok : TypeKind → Ty → Bool
  | .int, t => t.isInt
  | .scalarFloat, t => t.isScalarFloat
  | .vecFloat, t => t.isVecFloat
  | .intOrVecFloat, t => t.isInt || t.isVecFloat
  | .classes, t => t.isVecFloat || t == .f64 || t == .m8
  | .any, _ => true
  | .zero, t => t == .i8
  | .word, t => t == .i64 || t == .n64
  | .bytes, t => t == .i8 || t == .n8

/-- The modifiers of one source (R44, R39). -/
def ModKind.ok (k : ModKind) (used : Bool) (t : Ty) (m : SrcMod) : Bool :=
  match k with
  | .none => !m.neg && !m.abs
  | .negate => !m.abs && (used || !m.neg)
  | .float | .convert => used || (!m.neg && !m.abs)
  | .byType => (used || (!m.neg && !m.abs)) && (!t.isInt || !m.abs)

def ScaleKind.ok (k : ScaleKind) (t : Ty) (clamp : Clamp) (dscale : BitVec 4) : Bool :=
  (clamp == .none && dscale == 0) ||
  (match k with
   | .none => false
   | .float | .convert => true
   | .byType => !t.isInt)

def MaskKind.ok (m : MaskKind) (k : Fin 8) (z : Bool) : Bool :=
  match m with
  | .none => k.val == 0 && !z
  | .merge => true
  | .noZero => !z

/-- The first check of a list that fails. -/
def firstFail : List (Bool × IllForm) → Option IllForm
  | [] => none
  | (ok, e) :: r => if ok then firstFail r else some e

/-- The three sources of a format A instruction that are the immediate (R40). -/
def FmtA.usesImm (o : FmtA) : Bool := o.a == .imm || o.b == .imm || o.c == .imm

/-- The immediate rules of R40 for a form whose fields hold the immediate or not. -/
def immChecks (uses : Bool) (imm : Imm) : List (Bool × IllForm) :=
  match imm with
  | .none => [(!uses, .immediateAbsent)]
  | _ => [(uses, .immediateUnused)]

/-- The lengths of R50. -/
def lengthOk (l64 l96 l128 : Bool) : Imm → Bool
  | .none => l64
  | .w32 _ => l96
  | .w64 _ => l128

/-- The checks of R39, R40, R43 and R44 that every format A instruction shares. -/
def ShapeA.checks (s : ShapeA) (o : FmtA) : List (Bool × IllForm) :=
  [ (lengthOk s.l64 s.l96 s.l128 o.imm, .length),
    (s.d.ok o.d, .dest), (s.a.ok o.a, .sourceA), (s.b.ok o.b, .sourceB), (s.c.ok o.c, .sourceC),
    (s.ty.ok o.t, .type),
    (s.mods.ok (s.a != .unused) o.t o.ma && s.mods.ok (s.b != .unused) o.t o.mb &&
     s.mods.ok (s.c != .unused) o.t o.mc, .modifier),
    (s.scale.ok o.t o.clamp o.dscale, .scaleClamp),
    (s.mask.ok o.k o.z, .mask),
    (!(o.z && o.k.val == 0), .zeroing) ]

/-! Shapes that several entries share. -/

/-- R84, R85: two scalar sources. -/
def shapeInt2 : ShapeA :=
  { d := .scalar, a := .scalar, b := .scalar, c := .unused, ty := .int, mods := .negate,
    scale := .none, mask := .none, l64 := true, l96 := true, l128 := true }
def shapeInt1 : ShapeA := { shapeInt2 with b := .unused }
def shapeInt3 : ShapeA := { shapeInt2 with c := .scalar }
/-- R87. -/
def shapeExt : ShapeA :=
  { shapeInt1 with a := .scalarReg, ty := .word, mods := .none, l64 := false, l128 := false }
def shapeIns : ShapeA := { shapeExt with d := .insert }
/-- R88. -/
def shapeSel : ShapeA := { shapeInt3 with ty := .zero, mods := .none }
/-- R91 to R94. -/
def shapeFloat2 : ShapeA := { shapeInt2 with ty := .scalarFloat, mods := .float, scale := .float }
def shapeFloat1 : ShapeA := { shapeFloat2 with b := .unused }
def shapeFloat3 : ShapeA := { shapeFloat2 with c := .scalar }
def shapeFcmp : ShapeA := { shapeFloat2 with scale := .none }
def shapeFcvt : ShapeA := { shapeFloat1 with ty := .any, mods := .convert, scale := .byType }
def shapeFclass : ShapeA := { shapeFloat1 with ty := .classes, mods := .none, scale := .none }
/-- R169 to R172. -/
def shapeVint2 : ShapeA :=
  { shapeInt2 with d := .vec, a := .vec, b := .vec, mask := .merge }
def shapeVint3 : ShapeA := { shapeVint2 with c := .vec }
def shapeVdot4 : ShapeA := { shapeVint3 with ty := .bytes }
/-- R173 to R176. -/
def shapeVfloat2 : ShapeA := { shapeVint2 with ty := .vecFloat, mods := .float, scale := .float }
def shapeVfloat1 : ShapeA := { shapeVfloat2 with b := .unused }
def shapeVfloat3 : ShapeA := { shapeVfloat2 with c := .vec }
def shapeVscac : ShapeA := { shapeVfloat2 with c := .control }
/-- R177 to R180. -/
def shapeVcmp : ShapeA := { shapeVint2 with d := .maskReg, ty := .intOrVecFloat, mods := .byType }
def shapeVsel : ShapeA := { shapeVint2 with c := .maskReg, ty := .any, mods := .none }
def shapeVcvt : ShapeA :=
  { shapeVfloat1 with ty := .any, mods := .convert, scale := .convert, l96 := false, l128 := false }
/-- R181. -/
def shapeVred : ShapeA :=
  { d := .retQueue, a := .vecReg, b := .unused, c := .unused, ty := .intOrVecFloat, mods := .byType,
    scale := .byType, mask := .noZero, l64 := true, l96 := false, l128 := false }
def shapeVredInt : ShapeA := { shapeVred with ty := .int }
/-- R182 to R186. -/
def shapeVperm : ShapeA :=
  { shapeVint2 with ty := .any, mods := .none, l96 := false, l128 := false }
def shapeVrot : ShapeA := { shapeVperm with b := .control, l96 := true }
def shapeVslide : ShapeA := { shapeVperm with c := .control, l96 := true }
def shapeVilv : ShapeA := { shapeVperm with l96 := true }
def shapeVbcast : ShapeA := { shapeVperm with b := .vec, l96 := true, l128 := true }
def shapeVmov : ShapeA := { shapeVperm with b := .unused }
def shapeVlaneIns : ShapeA :=
  { shapeVperm with a := .control, b := .control, mask := .none, l96 := true }
def shapeVlaneExt : ShapeA := { shapeVlaneIns with d := .retQueue, a := .vecReg }
/-- R193 to R196. -/
def shapeKop2 : ShapeA :=
  { d := .maskReg, a := .maskReg, b := .maskReg, c := .unused, ty := .any, mods := .none,
    scale := .none, mask := .none, l64 := true, l96 := false, l128 := false }
def shapeKop1 : ShapeA := { shapeKop2 with b := .unused }
def shapeKset : ShapeA := { shapeKop1 with a := .unused }
def shapeKfromq : ShapeA := { shapeKset with c := .fwdQueue }
def shapeKq : ShapeA := { shapeKop1 with d := .unused, c := .retQueue }

/-- The format A shape of an instruction and its fields, for every format A row but MOVI and LEA,
whose fields the constructors give by themselves. -/
def Instr.shapeA : Instr → Option (ShapeA × FmtA)
  | .add o | .sub o | .and o | .or o | .xor o | .andn o | .orn o | .shl o | .shr o | .sar o
  | .rol o | .ror o | .min o | .max o | .slt o | .seq o | .sne o
  | .mul o | .mulh o | .div o | .rem o => some (shapeInt2, o)
  | .clz o | .ctz o | .popc o | .brev o | .bswap o | .sext o | .zext o => some (shapeInt1, o)
  | .madd o => some (shapeInt3, o)
  | .ext o => some (shapeExt, o)
  | .ins o => some (shapeIns, o)
  | .sel o => some (shapeSel, o)
  | .fadd o | .fsub o | .fmul o | .fdiv o | .fmin o | .fmax o => some (shapeFloat2, o)
  | .fsqrt o => some (shapeFloat1, o)
  | .ffma o => some (shapeFloat3, o)
  | .fcmpEq o | .fcmpLt o | .fcmpLe o | .fcmpUn o => some (shapeFcmp, o)
  | .fcvt _ _ o => some (shapeFcvt, o)
  | .fclass o => some (shapeFclass, o)
  | .vadd o | .vsub o | .vand o | .vor o | .vxor o | .vshl o | .vshr o | .vsar o | .vmin o
  | .vmax o | .vabsd o | .vmul o | .vmulh o => some (shapeVint2, o)
  | .vmadd o => some (shapeVint3, o)
  | .vdot4 o => some (shapeVdot4, o)
  | .vfadd o | .vfsub o | .vfmul o | .vfmin o | .vfmax o | .vdiv o => some (shapeVfloat2, o)
  | .vrcp o | .vrsq o | .vexp2 o | .vlog2 o | .vtanh o | .vsqrt o => some (shapeVfloat1, o)
  | .vffma o => some (shapeVfloat3, o)
  | .vscac o => some (shapeVscac, o)
  | .vcmpEq o | .vcmpNe o | .vcmpLt o | .vcmpLe o | .vcmpGt o | .vcmpGe o | .vcmpUn o =>
    some (shapeVcmp, o)
  | .vsel o => some (shapeVsel, o)
  | .vcvt _ o => some (shapeVcvt, o)
  | .vredSum o | .vredMax o | .vredMin o => some (shapeVred, o)
  | .vredAnd o | .vredOr o => some (shapeVredInt, o)
  | .vperm o => some (shapeVperm, o)
  | .vshufRot o => some (shapeVrot, o)
  | .vshufSlup o | .vshufSldn o => some (shapeVslide, o)
  | .vshufIlv o | .vshufDilv o => some (shapeVilv, o)
  | .vbcast o => some (shapeVbcast, o)
  | .vmov o => some (shapeVmov, o)
  | .vlaneIns o => some (shapeVlaneIns, o)
  | .vlaneExt o => some (shapeVlaneExt, o)
  | .kand o | .kor o | .kxor o | .kandn o => some (shapeKop2, o)
  | .knot o | .kmov o => some (shapeKop1, o)
  | .kfirst o | .kfromq o => some (shapeKfromq, o)
  | .kall o | .knone o => some (shapeKset, o)
  | .kpop o | .kany o | .kallq o | .ktoq o => some (shapeKq, o)
  | _ => none

/-- The bit field of EXT and INS (R41, R87): POS [5:0], WIDTH [14:8], every other bit zero. -/
def bitfOk : Imm → Bool
  | .w32 x =>
    let v := x.toNat
    let pos := v % 64
    let width := v / 256 % 128
    v == pos + 256 * width && width != 0 && pos + width ≤ 64
  | _ => false

/-- The type written by VCVT when it is a plain one (R179). -/
def VcvtFn.target (fn : VcvtFn) (t : Ty) : Option Ty :=
  match fn with
  | .toPlain d _ => some d
  | .toPacked _ | .toE5m2Inf => none
  | .fromPacked _ => some t

/-- R51 and R179: the checks of VCVT beyond its shape. -/
def vcvtOk (fn : VcvtFn) (o : FmtA) : Bool :=
  (match fn with
   | .toPlain d rm => d != .m8 || rm == .rne
   | .toPacked _ | .toE5m2Inf => o.t.isVecFloat
   | .fromPacked _ => o.t.isVecFloat && (match o.a with | .r _ => true | _ => false)) &&
  (match fn with
   | .toPlain _ _ => !(o.t.isInt && o.ma.abs)
   | _ => true) &&
  ((o.clamp == .none && o.dscale == 0) ||
   (match fn.target o.t with
    | some d => !d.isInt
    | none => false))

/-- R93, R51: the checks of FCVT beyond its shape. -/
def fcvtOk (src : Ty) (rm : Rounding) (o : FmtA) : Bool :=
  (o.t != .m8 || rm == .rne) && !(src.isInt && o.ma.abs)

/-- R184: the index of VBCAST belongs to a vector source alone. -/
def vbcastOk (o : FmtA) : Bool :=
  match o.a, o.b with
  | .r _, .q _ | .r _, .imm => true
  | .r _, .r _ => false
  | _, .r n => n.val == 0
  | _, _ => false

/-! ### Format M (R45, R46, R281, R187 to R191) -/

/-- What D of a format M entry may hold. -/
inductive DataKind where
  | any
  | zero
  | even
  deriving DecidableEq, Repr

/-- Which address modes an entry allows. -/
inductive AmKind where
  | scalar
  | vector
  | indexed
  deriving DecidableEq, Repr

/-- Which orders an entry allows. -/
inductive OrdKind where
  | none
  | acq
  | rel
  | any
  deriving DecidableEq, Repr

/-- The static part of a format M entry. -/
structure ShapeM where
  d : DataKind
  am : AmKind
  minSz : Nat
  maxSz : Nat
  ord : OrdKind
  sys : Bool
  pol : Option Pol
  mask : MaskKind
  deriving DecidableEq, Repr

def shapeLd : ShapeM :=
  { d := .any, am := .scalar, minSz := 1, maxSz := 16, ord := .acq, sys := true, pol := none,
    mask := .none }
def shapeSt : ShapeM := { shapeLd with ord := .rel }
def shapeStf : ShapeM := { shapeLd with maxSz := 8, ord := .none, sys := false }
def shapeAmo : ShapeM :=
  { shapeLd with minSz := 4, maxSz := 8, ord := .any, pol := some .thru }
def shapeCas : ShapeM := { shapeAmo with d := .even }
def shapeFadd32 : ShapeM := { shapeAmo with maxSz := 4 }
def shapePref : ShapeM := { shapeStf with d := .zero }
def shapePin : ShapeM := { shapeStf with maxSz := 1, pol := some .own }
def shapeWaita : ShapeM := { shapeLd with d := .even, maxSz := 8 }
def shapeVld : ShapeM :=
  { shapeLd with am := .vector, maxSz := 8, ord := .any, mask := .merge }
def shapeVst : ShapeM := { shapeVld with mask := .noZero }
/-- VLDX and VSTX take every ORD and SYS, as VLD and VST do: R190's syntax names neither, and R55 and R192 speak of vector
memory instructions in general (assumption 104). -/
def shapeVldx : ShapeM := { shapeVld with am := .indexed, minSz := 4 }
def shapeVstx : ShapeM := { shapeVldx with mask := .noZero }
def shapeVsto : ShapeM :=
  { shapeVst with am := .scalar, ord := .none, sys := false, pol := some .own }

/-- The format M shape of an instruction and its fields. -/
def Instr.shapeM : Instr → Option (ShapeM × FmtM)
  | .ldSignExtending m | .ldZeroExtending m => some (shapeLd, m)
  | .st m => some (shapeSt, m)
  | .stf m => some (shapeStf, m)
  | .amoAdd m | .amoAnd m | .amoOr m | .amoXor m | .amoMin m | .amoMax m | .amoMinn m
  | .amoMaxn m | .amoSwap m => some (shapeAmo, m)
  | .amoCas m => some (shapeCas, m)
  | .amoFadd32 m => some (shapeFadd32, m)
  | .pref m => some (shapePref, m)
  | .lpin m | .unpin m => some (shapePin, m)
  | .waita m => some (shapeWaita, m)
  | .vld m => some (shapeVld, m)
  | .vst m => some (shapeVst, m)
  | .vldx m => some (shapeVldx, m)
  | .vstx m => some (shapeVstx, m)
  | .vsto m => some (shapeVsto, m)
  | _ => none

/-- An even register from s2 to s30 (R46, R286, R289). -/
def evenPair (d : Fin 32) : Bool := d.val % 2 == 0 && d.val != 0

def ShapeM.checks (s : ShapeM) (m : FmtM) : List (Bool × IllForm) :=
  [ (match s.d with
     | .any => true
     | .zero => m.d.val == 0
     | .even => evenPair m.d, if s.d = .even then .pair else .dest),
    (match s.am, m.am with
     | .scalar, .base | .scalar, .scaled => true
     | .vector, .base | .vector, .scaled | .vector, .strided => true
     | .indexed, .vindex => true
     | _, _ => false, .addressMode),
    (if m.am = .base then m.idx.isNone else m.idx.isSome, .index),
    (s.minSz ≤ m.sz.bytes && m.sz.bytes ≤ s.maxSz, .size),
    (m.sz != .s16 || evenPair m.d, .pair),
    (match s.ord, m.ord with
     | _, .none => true
     | .acq, .acq | .rel, .rel | .any, _ => true
     | _, _ => false, .order),
    (s.sys || !m.sys, .scope),
    (match s.pol with | none => true | some p => m.pol == p, .policy),
    (s.mask.ok m.k m.z, .mask),
    (!(m.z && m.k.val == 0), .zeroing) ]

/-! ### Formats B and S -/

/-- R48, R95, R98: a condition on its test registers. -/
def condOk (cond : Cond) (aZero bZero : Bool) : Bool :=
  match cond with
  | .always => aZero && bZero
  | .z | .nz => bZero
  | _ => true

/-- s0–s31, q4–q7, or the immediate: an operand of format S. -/
def scalarOk : Opnd → Bool := SrcKind.ok .scalar

/-- s0–s31 or q4–q7. -/
def scalarRegOk : Opnd → Bool := SrcKind.ok .scalarReg

/-- s1–s31 or q4–q7: the address of a barrier (R340). -/
def barrierOk (a : Opnd) : Bool := scalarRegOk a && a != .r 0

/-- Checks of a format S instruction with operands A and B. -/
def checksS (a b : Opnd) (imm : Imm) (l128 : Bool) : List (Bool × IllForm) :=
  [(scalarOk a, .sourceA), (scalarOk b, .sourceB), (lengthOk true true l128 imm, .length)] ++
  immChecks (a == .imm || b == .imm) imm

/-- The value of an immediate word read as a 64-bit integer (R40). -/
def Imm.word : Imm → Word
  | .none => 0
  | .w32 x => x.signExtend 64
  | .w64 x => x

/-- The row of the opcode table that an ACTCTL word belongs to, by its operation code when the
operation word is the immediate (R205): 0 ENABLE to 4 STATE. An operation word in a register, or an
unassigned code, is read under the first row; the operation itself is read when it executes. -/
def actctlRow (b : Opnd) (imm : Imm) : Nat :=
  if b = .imm then (let c := imm.word.toNat % 16; if c ≤ 4 then c else 0) else 0

/-- R197: the payload registers. -/
def payloadOk (rb : Fin 32) (len : Fin 8) : Bool :=
  if len.val = 0 then rb.val == 0 else rb.val != 0 && rb.val + len.val ≤ 32

/-- The checks of the formats B and S and of the rows with operands of their own. -/
def Instr.ownChecks : Instr → List (Bool × IllForm)
  | .ext o | .ins o => [(bitfOk o.imm, .bitField)]
  | .movi d imm => [(DstKind.ok .scalar d, .dest), (imm != .none, .length)]
  | .lea d _ => [(DstKind.ok .scalar d, .dest)]
  | .fcvt src rm o => [(fcvtOk src rm o, .conversion)]
  | .vcvt fn o => [(vcvtOk fn o, .conversion)]
  | .vbcast o => [(vbcastOk o, .sourceB)]
  | .b cond ra rb _ => [(condOk cond (ra.val == 0) (rb.val == 0), .condition)]
  | .bq cond qa rb _ =>
    [(4 ≤ qa.val, .sourceA), (condOk cond true (rb.val == 0), .condition)]
  | .loop _ count off =>
    [(match count with | .queue n => 4 ≤ n.val | _ => true, .loopCount), (3 ≤ off.toInt, .loopOffset)]
  | .xfence p c => [(p != 0 && c != 0, .fenceMask)]
  | .send _ a _ rb len imm | .sendt _ a _ rb len imm =>
    checksS a (.r 0) imm true ++ [(payloadOk rb len, .payload)]
  | .mbstat _ a imm => checksS a (.r 0) imm true
  | .actctlEnable _ ra rb imm => checksS ra rb imm true ++ [(actctlRow rb imm == 0, .actctlRow)]
  | .actctlDisable _ ra rb imm => checksS ra rb imm true ++ [(actctlRow rb imm == 1, .actctlRow)]
  | .actctlWeight _ ra rb imm => checksS ra rb imm true ++ [(actctlRow rb imm == 2, .actctlRow)]
  | .actctlClass _ ra rb imm => checksS ra rb imm true ++ [(actctlRow rb imm == 3, .actctlRow)]
  | .actctlState _ ra rb imm => checksS ra rb imm true ++ [(actctlRow rb imm == 4, .actctlRow)]
  | .gcall g =>
    [(match g with
      | .imm16 _ => true
      | .reg n => n.val != 0
      | .imm32 x => x.toNat < 65536, .gateId)]
  | .ginfo _ a _ imm => checksS a (.r 0) imm false
  | .cpy _ ra | .cpyt _ ra => [(1 ≤ ra.val && ra.val ≤ 28, .capReg)]
  | .cwait _ a imm => checksS a (.r 0) imm false
  | .sclaim _ a _ imm | .srel _ a _ imm => checksS a (.r 0) imm false
  | .aread vd _ _ a => [(vd.val % 2 == 0, .pair), (scalarRegOk a, .sourceA)]
  | .binit _ ra rb imm => [(barrierOk ra, .barrierReg)] ++ checksS ra rb imm true
  | .barr _ a rb => [(barrierOk a, .barrierReg), (scalarRegOk rb, .sourceB)]
  | .bwait _ ra rb _ imm => [(barrierOk ra, .barrierReg)] ++ checksS ra rb imm false
  | .bstat _ a _ => [(barrierOk a, .barrierReg)]
  | .rds d _ => [(DstKind.ok .scalar d, .dest)]
  | .wrs r a imm =>
    [(!r.readOnly, .spr), (!r.ownRow, .writeRow)] ++ checksS a (.r 0) imm true
  | .wrsFflags a imm | .wrsLoopRegister _ a imm | .wrsTcause a imm => checksS a (.r 0) imm true
  | .clkrq _ ra rb imm => checksS ra rb imm false
  | _ => []

/-- Every static check of an instruction, in one list. Of R40's rules, the immediate must stand where
a field names it and nowhere else; EXT and INS give it a fixed role (R41). -/
def Instr.checks (i : Instr) : List (Bool × IllForm) :=
  (match i.shapeA with
   | some (s, o) =>
     s.checks o ++
     (match i with | .ext _ | .ins _ => [] | _ => immChecks o.usesImm o.imm)
   | none => []) ++
  (match i.shapeM with | some (s, m) => s.checks m | none => []) ++
  i.ownChecks

/-- The first static check an instruction fails. -/
def Instr.illFormed (i : Instr) : Option IllForm := firstFail i.checks

/-- No static check fails. -/
def Instr.wellFormed (i : Instr) : Bool := i.illFormed.isNone

end Sys2Proof
end

