-- ==== Sys2Proof/Decode.lean ====
section
/-! DEFINITION. The decoder: total on any words, refusing by name (R33 to R53), and the encoder, from
the same maps. -/

namespace Sys2Proof

/-- Why the decoder refuses: each is a breach of R33 to R52, and raises ILLEGAL at dispatch (R53).
Truncated is the decoder's own: fewer words than LEN asks for were given to it. -/
inductive Reject where
  | truncated
  | fillWord
  | nopWord
  | opcode
  | function
  | length
  | reserved
  | operand
  | illFormed (e : IllForm)
  deriving DecidableEq, Repr

/-! ### Bit fields -/

/-- Fields of given widths, least significant first. -/
def splitBits : List Nat → Nat → List Nat
  | [], _ => []
  | w :: ws, n => n % 2 ^ w :: splitBits ws (n / 2 ^ w)

/-- The number whose fields are the given values, least significant first. -/
def joinBits : List (Nat × Nat) → Nat
  | [] => 0
  | (w, v) :: r => v + 2 ^ w * joinBits r

/-- Widths of LEN, OP, D, A, B (R37). -/
def headWidths : List Nat := [2, 8, 6, 6, 6]

/-- R43, less the head: C, NA AA NB AB NC AC, CLAMP, DSCALE, K, Z, T, FN, reserved. -/
def widthsA : List Nat := headWidths ++ [6, 1, 1, 1, 1, 1, 1, 2, 4, 3, 1, 4, 6, 4]

/-- R45, less the head (BASE stands at A, IDX at B): POL, ORD, SYS, SZ, K, Z, AM, OFF16, FN. -/
def widthsM : List Nat := headWidths ++ [2, 2, 1, 3, 3, 1, 2, 16, 6]

/-- R47, less the head: COND, OFF32. -/
def widthsB : List Nat := headWidths ++ [4, 32]

/-- R49, less the head: C, IMM16, FN, reserved. -/
def widthsS : List Nat := headWidths ++ [6, 16, 10, 4]

/-! ### Codes of the fields -/

/-- A Nat below n as a Fin. -/
def finOf (n v : Nat) : Option (Fin n) := if h : v < n then some ⟨v, h⟩ else none

/-- A register field (R38). -/
def opndOf (v : Nat) : Option Opnd :=
  if h : v < 32 then some (.r ⟨v, h⟩)
  else if h : v - 32 < 8 then some (.q ⟨v - 32, h⟩)
  else if v = 63 then some .imm
  else none

def Opnd.code : Opnd → Nat
  | .r n => n.val
  | .q n => 32 + n.val
  | .imm => 63

/-- The element types by code (R43); codes 13 to 15 name none. -/
def tyCodes : List Ty :=
  [.i8, .i16, .i32, .i64, .n8, .n16, .n32, .n64, .f16, .bf16, .f32, .f64, .m8]

def clampCodes : List Clamp := [.none, .relu, .sat01, .sat11]
def roundingCodes : List Rounding := [.rne, .rz, .rd, .ru]
def polCodes : List Pol := [.own, .thru, .lease, .track]
def ordCodes : List MemOrd := [.none, .acq, .rel, .ar]
def szCodes : List Sz := [.s1, .s2, .s4, .s8, .s16]
def amCodes : List AddrMode := [.base, .scaled, .strided, .vindex]
def condCodes : List Cond := [.always, .eq, .ne, .lt, .ge, .ltn, .gen, .z, .nz, .bit]

def Ty.code : Ty → Nat
  | .i8 => 0 | .i16 => 1 | .i32 => 2 | .i64 => 3 | .n8 => 4 | .n16 => 5 | .n32 => 6 | .n64 => 7
  | .f16 => 8 | .bf16 => 9 | .f32 => 10 | .f64 => 11 | .m8 => 12

def Clamp.code : Clamp → Nat
  | .none => 0 | .relu => 1 | .sat01 => 2 | .sat11 => 3

def Rounding.code : Rounding → Nat
  | .rne => 0 | .rz => 1 | .rd => 2 | .ru => 3

def Pol.code : Pol → Nat
  | .own => 0 | .thru => 1 | .lease => 2 | .track => 3

def MemOrd.code : MemOrd → Nat
  | .none => 0 | .acq => 1 | .rel => 2 | .ar => 3

def Sz.code : Sz → Nat
  | .s1 => 0 | .s2 => 1 | .s4 => 2 | .s8 => 3 | .s16 => 4

def AddrMode.code : AddrMode → Nat
  | .base => 0 | .scaled => 1 | .strided => 2 | .vindex => 3

def Cond.code : Cond → Nat
  | .always => 0 | .eq => 1 | .ne => 2 | .lt => 3 | .ge => 4 | .ltn => 5 | .gen => 6 | .z => 7
  | .nz => 8 | .bit => 9

/-- The special registers and their indices (R24). -/
def sprCodes : List (Nat × Spr) :=
  [(0x000, .core), (0x001, .self), (0x002, .domain), (0x003, .ddepth), (0x004, .origin),
   (0x010, .tbase), (0x011, .lclk), (0x012, .cycle), (0x013, .fflags), (0x020, .clkgs),
   (0x021, .clkef), (0x022, .clkseq), (0x030, .l0start), (0x031, .l0end), (0x032, .l0count),
   (0x033, .l1start)] ++
  [(0x034, .l1end), (0x035, .l1count), (0x040, .lease), (0x050, .tvec), (0x051, .tpc),
   (0x052, .tcause), (0x053, .tval), (0x054, .tslot), (0x055, .tl0start), (0x056, .tl0end),
   (0x057, .tl0count), (0x058, .tl1start), (0x059, .tl1end), (0x05A, .tl1count),
   (0x060, .budget), (0x070, .msghdr), (0x080, .frame)]

def Spr.code : Spr → Nat
  | .core => 0x000 | .self => 0x001 | .domain => 0x002 | .ddepth => 0x003 | .origin => 0x004
  | .tbase => 0x010 | .lclk => 0x011 | .cycle => 0x012 | .fflags => 0x013 | .clkgs => 0x020
  | .clkef => 0x021 | .clkseq => 0x022 | .l0start => 0x030 | .l0end => 0x031 | .l0count => 0x032
  | .l1start => 0x033 | .l1end => 0x034 | .l1count => 0x035 | .lease => 0x040 | .tvec => 0x050
  | .tpc => 0x051 | .tcause => 0x052 | .tval => 0x053 | .tslot => 0x054 | .tl0start => 0x055
  | .tl0end => 0x056 | .tl0count => 0x057 | .tl1start => 0x058 | .tl1end => 0x059
  | .tl1count => 0x05A | .budget => 0x060 | .msghdr => 0x070 | .frame => 0x080

/-- The loop registers as special registers (R24). -/
def LoopReg.spr : LoopReg → Spr
  | .start0 => .l0start | .end0 => .l0end | .count0 => .l0count
  | .start1 => .l1start | .end1 => .l1end | .count1 => .l1count

/-- FN of VCVT (R51); 28, 44, 60 and 63 name nothing. -/
def vcvtOf (fn : Nat) : Option VcvtFn :=
  match fn with
  | 12 => some (.toPlain .m8 .rne)
  | 13 => some (.toPacked .e4m3)
  | 14 => some (.toPacked .e5m2)
  | 15 => some .toE5m2Inf
  | 29 => some (.toPacked .e3m2)
  | 30 => some (.toPacked .e2m3)
  | 31 => some (.toPacked .e2m1)
  | 45 => some (.fromPacked .e4m3)
  | 46 => some (.fromPacked .e5m2)
  | 47 => some (.fromPacked .e3m2)
  | 61 => some (.fromPacked .e2m3)
  | 62 => some (.fromPacked .e2m1)
  | _ =>
    if fn % 16 < 12 then do
      let d ← tyCodes[fn % 16]?
      let rm ← roundingCodes[fn / 16]?
      pure (.toPlain d rm)
    else none

def VcvtFn.code : VcvtFn → Nat
  | .toPlain d rm => d.code + 16 * rm.code
  | .toPacked .e4m3 => 13 | .toPacked .e5m2 => 14 | .toE5m2Inf => 15
  | .toPacked .e3m2 => 29 | .toPacked .e2m3 => 30 | .toPacked .e2m1 => 31
  | .fromPacked .e4m3 => 45 | .fromPacked .e5m2 => 46 | .fromPacked .e3m2 => 47
  | .fromPacked .e2m3 => 61 | .fromPacked .e2m1 => 62

/-! ### The opcode map -/

/-- R50: the format A rows, FN in order from 0; FCVT and VCVT, whose FN is a field, are read apart. -/
def mapA : List (Nat × List (FmtA → Instr)) :=
   [(0x01, [.add, .sub, .and, .or, .xor, .andn, .orn, .shl, .shr, .sar, .rol, .ror, .min,
      .max, .slt, .seq, .sne, .clz, .ctz, .popc, .brev, .bswap, .sext, .zext]),
    (0x02, [.mul, .mulh, .div, .rem, .madd]),
    (0x03, [.ext, .ins]),
    (0x04, [.sel]),
    (0x10, [.fadd, .fsub, .fmul, .fdiv, .fsqrt, .fmin, .fmax]),
    (0x11, [.ffma]),
    (0x12, [.fcmpEq, .fcmpLt, .fcmpLe, .fcmpUn]),
    (0x14, [.fclass])] ++
   [(0x40, [.vadd, .vsub, .vand, .vor, .vxor, .vshl, .vshr, .vsar, .vmin, .vmax, .vabsd]),
    (0x41, [.vmul, .vmulh, .vmadd, .vdot4]),
    (0x42, [.vfadd, .vfsub, .vfmul, .vfmin, .vfmax]),
    (0x43, [.vffma]),
    (0x44, [.vrcp, .vrsq, .vexp2, .vlog2, .vtanh, .vdiv, .vsqrt]),
    (0x45, [.vcmpEq, .vcmpNe, .vcmpLt, .vcmpLe, .vcmpGt, .vcmpGe, .vcmpUn]),
    (0x46, [.vsel]),
    (0x48, [.vscac])] ++
   [(0x49, [.vredSum, .vredMax, .vredMin, .vredAnd, .vredOr]),
    (0x4A, [.vperm]),
    (0x4B, [.vshufRot, .vshufSlup, .vshufSldn, .vshufIlv, .vshufDilv]),
    (0x4C, [.vbcast]),
    (0x4D, [.vmov]),
    (0x4E, [.vlaneIns, .vlaneExt]),
    (0x58, [.kand, .kor, .kxor, .knot, .kandn, .kmov]),
    (0x59, [.kfirst, .kall, .knone])] ++
   [(0x5A, [.kpop, .kany, .kallq, .ktoq]),
    (0x5B, [.kfromq])]

/-- R50: the format M rows. -/
def mapM : List (Nat × List (FmtM → Instr)) :=
   [(0x30, [.ldSignExtending, .ldZeroExtending]),
    (0x31, [.st]),
    (0x32, [.stf]),
    (0x33, [.amoAdd, .amoAnd, .amoOr, .amoXor, .amoMin, .amoMax, .amoMinn, .amoMaxn,
      .amoSwap, .amoCas, .amoFadd32]),
    (0x36, [.pref]),
    (0x37, [.lpin, .unpin]),
    (0x38, [.waita]),
    (0x50, [.vld])] ++
   [(0x51, [.vst]),
    (0x52, [.vldx]),
    (0x53, [.vstx]),
    (0x54, [.vsto])]

/-- R50 read the other way: OP, FN and fields of a format A row. -/
def codeA : Instr → Option (Nat × Nat × FmtA)
  | .add o => some (0x01, 0, o)
  | .sub o => some (0x01, 1, o)
  | .and o => some (0x01, 2, o)
  | .or o => some (0x01, 3, o)
  | .xor o => some (0x01, 4, o)
  | .andn o => some (0x01, 5, o)
  | .orn o => some (0x01, 6, o)
  | .shl o => some (0x01, 7, o)
  | .shr o => some (0x01, 8, o)
  | .sar o => some (0x01, 9, o)
  | .rol o => some (0x01, 10, o)
  | .ror o => some (0x01, 11, o)
  | .min o => some (0x01, 12, o)
  | .max o => some (0x01, 13, o)
  | .slt o => some (0x01, 14, o)
  | .seq o => some (0x01, 15, o)
  | .sne o => some (0x01, 16, o)
  | .clz o => some (0x01, 17, o)
  | .ctz o => some (0x01, 18, o)
  | .popc o => some (0x01, 19, o)
  | .brev o => some (0x01, 20, o)
  | .bswap o => some (0x01, 21, o)
  | .sext o => some (0x01, 22, o)
  | .zext o => some (0x01, 23, o)
  | .mul o => some (0x02, 0, o)
  | .mulh o => some (0x02, 1, o)
  | .div o => some (0x02, 2, o)
  | .rem o => some (0x02, 3, o)
  | .madd o => some (0x02, 4, o)
  | .ext o => some (0x03, 0, o)
  | .ins o => some (0x03, 1, o)
  | .sel o => some (0x04, 0, o)
  | .fadd o => some (0x10, 0, o)
  | .fsub o => some (0x10, 1, o)
  | .fmul o => some (0x10, 2, o)
  | .fdiv o => some (0x10, 3, o)
  | .fsqrt o => some (0x10, 4, o)
  | .fmin o => some (0x10, 5, o)
  | .fmax o => some (0x10, 6, o)
  | .ffma o => some (0x11, 0, o)
  | .fcmpEq o => some (0x12, 0, o)
  | .fcmpLt o => some (0x12, 1, o)
  | .fcmpLe o => some (0x12, 2, o)
  | .fcmpUn o => some (0x12, 3, o)
  | .fclass o => some (0x14, 0, o)
  | .vadd o => some (0x40, 0, o)
  | .vsub o => some (0x40, 1, o)
  | .vand o => some (0x40, 2, o)
  | .vor o => some (0x40, 3, o)
  | .vxor o => some (0x40, 4, o)
  | .vshl o => some (0x40, 5, o)
  | .vshr o => some (0x40, 6, o)
  | .vsar o => some (0x40, 7, o)
  | .vmin o => some (0x40, 8, o)
  | .vmax o => some (0x40, 9, o)
  | .vabsd o => some (0x40, 10, o)
  | .vmul o => some (0x41, 0, o)
  | .vmulh o => some (0x41, 1, o)
  | .vmadd o => some (0x41, 2, o)
  | .vdot4 o => some (0x41, 3, o)
  | .vfadd o => some (0x42, 0, o)
  | .vfsub o => some (0x42, 1, o)
  | .vfmul o => some (0x42, 2, o)
  | .vfmin o => some (0x42, 3, o)
  | .vfmax o => some (0x42, 4, o)
  | .vffma o => some (0x43, 0, o)
  | .vrcp o => some (0x44, 0, o)
  | .vrsq o => some (0x44, 1, o)
  | .vexp2 o => some (0x44, 2, o)
  | .vlog2 o => some (0x44, 3, o)
  | .vtanh o => some (0x44, 4, o)
  | .vdiv o => some (0x44, 5, o)
  | .vsqrt o => some (0x44, 6, o)
  | .vcmpEq o => some (0x45, 0, o)
  | .vcmpNe o => some (0x45, 1, o)
  | .vcmpLt o => some (0x45, 2, o)
  | .vcmpLe o => some (0x45, 3, o)
  | .vcmpGt o => some (0x45, 4, o)
  | .vcmpGe o => some (0x45, 5, o)
  | .vcmpUn o => some (0x45, 6, o)
  | .vsel o => some (0x46, 0, o)
  | .vscac o => some (0x48, 0, o)
  | .vredSum o => some (0x49, 0, o)
  | .vredMax o => some (0x49, 1, o)
  | .vredMin o => some (0x49, 2, o)
  | .vredAnd o => some (0x49, 3, o)
  | .vredOr o => some (0x49, 4, o)
  | .vperm o => some (0x4A, 0, o)
  | .vshufRot o => some (0x4B, 0, o)
  | .vshufSlup o => some (0x4B, 1, o)
  | .vshufSldn o => some (0x4B, 2, o)
  | .vshufIlv o => some (0x4B, 3, o)
  | .vshufDilv o => some (0x4B, 4, o)
  | .vbcast o => some (0x4C, 0, o)
  | .vmov o => some (0x4D, 0, o)
  | .vlaneIns o => some (0x4E, 0, o)
  | .vlaneExt o => some (0x4E, 1, o)
  | .kand o => some (0x58, 0, o)
  | .kor o => some (0x58, 1, o)
  | .kxor o => some (0x58, 2, o)
  | .knot o => some (0x58, 3, o)
  | .kandn o => some (0x58, 4, o)
  | .kmov o => some (0x58, 5, o)
  | .kfirst o => some (0x59, 0, o)
  | .kall o => some (0x59, 1, o)
  | .knone o => some (0x59, 2, o)
  | .kpop o => some (0x5A, 0, o)
  | .kany o => some (0x5A, 1, o)
  | .kallq o => some (0x5A, 2, o)
  | .ktoq o => some (0x5A, 3, o)
  | .kfromq o => some (0x5B, 0, o)
  | _ => none

/-- OP, FN and fields of a format M row. -/
def codeM : Instr → Option (Nat × Nat × FmtM)
  | .ldSignExtending o => some (0x30, 0, o)
  | .ldZeroExtending o => some (0x30, 1, o)
  | .st o => some (0x31, 0, o)
  | .stf o => some (0x32, 0, o)
  | .amoAdd o => some (0x33, 0, o)
  | .amoAnd o => some (0x33, 1, o)
  | .amoOr o => some (0x33, 2, o)
  | .amoXor o => some (0x33, 3, o)
  | .amoMin o => some (0x33, 4, o)
  | .amoMax o => some (0x33, 5, o)
  | .amoMinn o => some (0x33, 6, o)
  | .amoMaxn o => some (0x33, 7, o)
  | .amoSwap o => some (0x33, 8, o)
  | .amoCas o => some (0x33, 9, o)
  | .amoFadd32 o => some (0x33, 10, o)
  | .pref o => some (0x36, 0, o)
  | .lpin o => some (0x37, 0, o)
  | .unpin o => some (0x37, 1, o)
  | .waita o => some (0x38, 0, o)
  | .vld o => some (0x50, 0, o)
  | .vst o => some (0x51, 0, o)
  | .vldx o => some (0x52, 0, o)
  | .vstx o => some (0x53, 0, o)
  | .vsto o => some (0x54, 0, o)
  | _ => none

/-- The row an OP and an FN name in a map. -/
def rowOf {α : Type} (map : List (Nat × List α)) (op fn : Nat) : Option α := do
  let row ← map.lookup op
  row[fn]?

/-- Formats by opcode (R50). -/
inductive Format where
  | a | m | b | s
  deriving DecidableEq, Repr

def formatOf (op : Nat) : Option Format :=
  if (mapA.lookup op).isSome || op == 0x05 || op == 0x06 || op == 0x13 || op == 0x47 then some .a
  else if (mapM.lookup op).isSome then some .m
  else if op == 0x20 || op == 0x21 || op == 0x22 || op == 0x26 then some .b
  else if op == 0x24 || op == 0x25 || op == 0x34 || op == 0x35 || (0x80 ≤ op && op ≤ 0x82) ||
    op == 0x85 || (0x90 ≤ op && op ≤ 0x92) || (0xA0 ≤ op && op ≤ 0xAB) ||
    (0xC0 ≤ op && op ≤ 0xC6) then some .s
  else none

/-! ### Reading the fields -/

/-- The fields of format A, and FN. A reserved bit of [63:60] or a code that names nothing refuses. -/
def fieldsA (w : Nat) (imm : Imm) : Except Reject (Nat × FmtA) :=
  match splitBits widthsA w with
  | [_, _, d, a, b, c, na, aa, nb, ab, nc, ac, clamp, dscale, k, z, t, fn, rsv] =>
    if rsv ≠ 0 then .error .reserved
    else
      match opndOf d, opndOf a, opndOf b, opndOf c, clampCodes[clamp]?, finOf 8 k, tyCodes[t]? with
      | some d, some a, some b, some c, some clamp, some k, some t =>
        .ok (fn, { d, a, b, c,
                   ma := { neg := na == 1, abs := aa == 1 },
                   mb := { neg := nb == 1, abs := ab == 1 },
                   mc := { neg := nc == 1, abs := ac == 1 },
                   clamp, dscale := BitVec.ofNat 4 dscale, k, z := z == 1, t, imm })
      | _, _, _, _, _, _, _ => .error .operand
  | _ => .error .truncated

/-- The offset of format M (R45): OFF32 replaces OFF16, which must then be zero. -/
def offOf (off16 : Nat) : Imm → Except Reject Off
  | .none => .ok (.off16 (BitVec.ofNat 16 off16))
  | .w32 x => if off16 = 0 then .ok (.off32 x) else .error .reserved
  | .w64 _ => .error .length

/-- IDX of format M (R45, R46): a register, or 63 for none. -/
def idxOf (v : Nat) : Option (Option (Fin 32)) :=
  if h : v < 32 then some (some ⟨v, h⟩) else if v = 63 then some none else none

/-- The fields of format M, and FN. -/
def fieldsM (w : Nat) (imm : Imm) : Except Reject (Nat × FmtM) :=
  match splitBits widthsM w with
  | [_, _, d, base, idx, pol, ord, sys, sz, k, z, am, off16, fn] =>
    match offOf off16 imm with
    | .error e => .error e
    | .ok off =>
      match finOf 32 d, finOf 32 base, idxOf idx, polCodes[pol]?, ordCodes[ord]?, szCodes[sz]?,
        finOf 8 k, amCodes[am]? with
      | some d, some base, some idx, some pol, some ord, some sz, some k, some am =>
        .ok (fn, { d, base, idx, pol, ord, sys := sys == 1, sz, k, z := z == 1, am, off })
      | _, _, _, _, _, _, _, _ => .error .operand
  | _ => .error .truncated

/-- A format A word (R43, R50). MOVI and LEA use no field but D (R89, R90). -/
def decodeA (op w : Nat) (imm : Imm) : Except Reject Instr :=
  match fieldsA w imm with
  | .error e => .error e
  | .ok (fn, o) =>
    if op = 0x05 ∨ op = 0x06 then
      if fn ≠ 0 then .error .function
      else if o ≠ { d := o.d, a := .r 0, b := .r 0, c := .r 0, ma := ⟨false, false⟩,
                    mb := ⟨false, false⟩, mc := ⟨false, false⟩, clamp := .none, dscale := 0, k := 0,
                    z := false, t := .i8, imm } then .error .operand
      else if op = 0x05 then .ok (.movi o.d imm)
      else
        match imm with
        | .w32 x => .ok (.lea o.d x)
        | _ => .error .length
    else if op = 0x13 then
      match tyCodes[fn / 4]?, roundingCodes[fn % 4]? with
      | some src, some rm => .ok (.fcvt src rm o)
      | _, _ => .error .function
    else if op = 0x47 then
      match vcvtOf fn with
      | some f => .ok (.vcvt f o)
      | none => .error .function
    else
      match rowOf mapA op fn with
      | some f => .ok (f o)
      | none => .error .function

/-- A format M word. -/
def decodeM (op w : Nat) (imm : Imm) : Except Reject Instr :=
  match fieldsM w imm with
  | .error e => .error e
  | .ok (fn, m) =>
    match rowOf mapM op fn with
    | some f => .ok (f m)
    | none => .error .function

/-- A format B word (R47, R48), 64 bits only. -/
def decodeB (op w : Nat) (imm : Imm) : Except Reject Instr :=
  match imm, splitBits widthsB w with
  | .none, [_, _, d, a, b, cond, off] =>
    let off := BitVec.ofNat 32 off
    if op = 0x20 then
      match condCodes[cond]?, finOf 32 a, finOf 32 b with
      | some c, some ra, some rb => if d = 0 then .ok (.b c ra rb off) else .error .reserved
      | _, _, _ => .error .operand
    else if op = 0x21 then
      match finOf 32 d, finOf 32 a with
      | some rd, some ra => if b = 0 ∧ cond = 0 then .ok (.br rd ra off) else .error .reserved
      | _, _ => .error .operand
    else if op = 0x22 then
      if d = 31 ∧ a = 0 ∧ b = 0 ∧ cond = 0 then .ok (.call off) else .error .reserved
    else
      match condCodes[cond]?, opndOf a, finOf 32 b with
      | some c, some (.q n), some rb => if d = 0 then .ok (.bq c n rb off) else .error .reserved
      | _, _, _ => .error .operand
  | .none, _ => .error .truncated
  | _, _ => .error .length

/-- The fields of format S (R49). -/
structure FmtS where
  d : Nat
  a : Nat
  b : Nat
  c : Nat
  imm16 : Nat
  fn : Nat
  imm : Imm
  deriving DecidableEq, Repr

/-- An instruction of format S from its fields: none where a code names nothing, or where a field
that the entry does not use is not zero (R39). The guard of each row lists those fields. -/
def decodeRowS (op : Nat) (f : FmtS) : Option Instr :=
  match op with
  | 0x24 =>
    if f.b = 0 ∧ f.c = 0 ∧ f.fn = 0 then do
      let n ← finOf 2 f.d
      let count ←
        (match opndOf f.a with
         | some (.r r) => if f.imm16 = 0 then some (LoopCount.reg r) else none
         | some (.q q) => if f.imm16 = 0 then some (LoopCount.queue q) else none
         | some .imm => some (LoopCount.imm16 (BitVec.ofNat 16 f.imm16))
         | none => none)
      match f.imm with
      | .w32 x => some (.loop n count x)
      | _ => none
    else none
  | 0x25 =>
    if f.a = 0 ∧ f.b = 0 ∧ f.c = 0 ∧ f.imm16 = 0 ∧ f.imm = .none then do
      some (.lbrk (← finOf 2 f.d))
    else none
  | 0x34 =>
    if f.d = 0 ∧ f.a = 0 ∧ f.b = 0 ∧ f.c = 0 ∧ f.imm16 = 0 ∧ f.imm = .none then some .fenceSys
    else none
  | 0x35 =>
    if f.d = 0 ∧ f.c = 0 ∧ f.imm16 = 0 ∧ f.imm = .none then
      some (.xfence (BitVec.ofNat 6 f.a) (BitVec.ofNat 6 f.b))
    else none
  | 0x80 =>
    if f.c = 0 ∧ f.imm16 < 2048 then do
      let rd ← finOf 32 f.d
      let a ← opndOf f.a
      let rb ← finOf 32 f.b
      let tag := BitVec.ofNat 8 (f.imm16 % 256)
      let len ← finOf 8 (f.imm16 / 256)
      if f.fn = 0 then some (.send rd a tag rb len f.imm) else some (.sendt rd a tag rb len f.imm)
    else none
  | 0x81 =>
    if f.d = 0 ∧ f.a = 0 ∧ f.b = 0 ∧ f.c = 0 ∧ f.imm16 = 0 ∧ f.imm = .none then some .done else none
  | 0x82 =>
    if f.b = 0 ∧ f.c = 0 ∧ f.imm16 = 0 then do
      some (.mbstat (← finOf 32 f.d) (← opndOf f.a) f.imm)
    else none
  | 0x85 =>
    if f.c = 0 ∧ f.imm16 = 0 then do
      let rd ← finOf 32 f.d
      let a ← opndOf f.a
      let b ← opndOf f.b
      match actctlRow b f.imm with
      | 0 => some (.actctlEnable rd a b f.imm)
      | 1 => some (.actctlDisable rd a b f.imm)
      | 2 => some (.actctlWeight rd a b f.imm)
      | 3 => some (.actctlClass rd a b f.imm)
      | _ => some (.actctlState rd a b f.imm)
    else none
  | 0x90 =>
    if f.d = 0 ∧ f.b = 0 ∧ f.c = 0 then
      match f.imm with
      | .none =>
        if f.a = 0 then some (.gcall (.imm16 (BitVec.ofNat 16 f.imm16)))
        else if f.imm16 = 0 then do some (.gcall (.reg (← finOf 32 f.a)))
        else none
      | .w32 x => if f.a = 63 ∧ f.imm16 = 0 then some (.gcall (.imm32 x)) else none
      | .w64 _ => none
    else none
  | 0x91 =>
    if f.d = 0 ∧ f.a = 0 ∧ f.b = 0 ∧ f.c = 0 ∧ f.imm16 = 0 ∧ f.imm = .none then some .gret else none
  | 0x92 =>
    if f.b = 0 ∧ f.c = 0 then do
      some (.ginfo (← finOf 32 f.d) (← opndOf f.a) (← finOf 4 f.imm16) f.imm)
    else none
  | 0xA0 =>
    if f.b = 0 ∧ f.c = 0 ∧ f.imm16 = 0 ∧ f.imm = .none then do
      let rd ← finOf 32 f.d
      let ra ← finOf 32 f.a
      if f.fn = 0 then some (.cpy rd ra) else some (.cpyt rd ra)
    else none
  | 0xA1 =>
    if f.a = 0 ∧ f.b = 0 ∧ f.c = 0 ∧ f.imm16 = 0 ∧ f.imm = .none then do
      some (.cseal (← finOf 32 f.d))
    else none
  | 0xA2 =>
    if f.b = 0 ∧ f.c = 0 ∧ f.imm16 = 0 then do
      some (.cwait (← finOf 32 f.d) (← opndOf f.a) f.imm)
    else none
  | 0xA3 =>
    if f.b = 0 ∧ f.c = 0 ∧ f.imm16 = 0 ∧ f.imm = .none then do
      some (.cstat (← finOf 32 f.d) (← finOf 32 f.a))
    else none
  | 0xA4 =>
    if f.b = 0 ∧ f.c = 0 ∧ f.imm16 < 64 then do
      some (.sclaim (← finOf 32 f.d) (← opndOf f.a) (BitVec.ofNat 6 f.imm16) f.imm)
    else none
  | 0xA5 =>
    if f.b = 0 ∧ f.c = 0 ∧ f.imm16 < 64 then do
      some (.srel (← finOf 32 f.d) (← opndOf f.a) (BitVec.ofNat 6 f.imm16) f.imm)
    else none
  | 0xA6 =>
    if f.b = 0 ∧ f.imm = .none then do
      some (.aread (← finOf 32 f.d) (← finOf 32 f.c) (← finOf 4 f.imm16) (← opndOf f.a))
    else none
  | 0xA7 =>
    if f.a = 0 ∧ f.b = 0 ∧ f.c = 0 ∧ f.imm = .none then do
      some (.astat (← finOf 32 f.d) (← finOf 4 f.imm16))
    else none
  | 0xA8 =>
    if f.c = 0 ∧ f.imm16 = 0 then do
      some (.binit (← finOf 32 f.d) (← opndOf f.a) (← opndOf f.b) f.imm)
    else none
  | 0xA9 =>
    if f.c = 0 ∧ f.imm16 = 0 ∧ f.imm = .none then do
      some (.barr (← finOf 32 f.d) (← opndOf f.a) (← opndOf f.b))
    else none
  | 0xAA =>
    if f.c = 0 then do
      some (.bwait (← finOf 32 f.d) (← opndOf f.a) (← opndOf f.b) (BitVec.ofNat 16 f.imm16) f.imm)
    else none
  | 0xAB =>
    if f.b = 0 ∧ f.c = 0 ∧ f.imm = .none then do
      some (.bstat (← finOf 32 f.d) (← opndOf f.a) (← finOf 2 f.imm16))
    else none
  | 0xC0 =>
    if f.a = 0 ∧ f.b = 0 ∧ f.c = 0 ∧ f.imm = .none then do
      some (.rds (← opndOf f.d) (← sprCodes.lookup f.imm16))
    else none
  | 0xC1 =>
    if f.d = 0 ∧ f.b = 0 ∧ f.c = 0 then do
      let a ← opndOf f.a
      let r ← sprCodes.lookup f.imm16
      match r with
      | .fflags => some (.wrsFflags a f.imm)
      | .tcause => some (.wrsTcause a f.imm)
      | .l0start => some (.wrsLoopRegister .start0 a f.imm)
      | .l0end => some (.wrsLoopRegister .end0 a f.imm)
      | .l0count => some (.wrsLoopRegister .count0 a f.imm)
      | .l1start => some (.wrsLoopRegister .start1 a f.imm)
      | .l1end => some (.wrsLoopRegister .end1 a f.imm)
      | .l1count => some (.wrsLoopRegister .count1 a f.imm)
      | r => some (.wrs r a f.imm)
    else none
  | 0xC2 =>
    if f.d = 0 ∧ f.a = 0 ∧ f.b = 0 ∧ f.c = 0 ∧ f.imm = .none then
      some (.trap (BitVec.ofNat 16 f.imm16))
    else none
  | 0xC3 =>
    if f.d = 0 ∧ f.a = 0 ∧ f.b = 0 ∧ f.c = 0 ∧ f.imm16 = 0 ∧ f.imm = .none then some .tret else none
  | 0xC4 =>
    if f.d = 0 ∧ f.a = 0 ∧ f.b = 0 ∧ f.c = 0 ∧ f.imm = .none then
      some (.brk (BitVec.ofNat 16 f.imm16))
    else none
  | 0xC5 =>
    if f.c = 0 ∧ f.imm16 = 0 then do
      some (.clkrq (← finOf 32 f.d) (← opndOf f.a) (← opndOf f.b) f.imm)
    else none
  | 0xC6 =>
    if f.a = 0 ∧ f.b = 0 ∧ f.c = 0 ∧ f.imm16 = 0 ∧ f.imm = .none then do
      some (.qstat (← finOf 32 f.d))
    else none
  | _ => none

/-- A format S word. FN is 0, but for SENDT and CPYT, whose FN is 1 (R50). -/
def decodeS (op w : Nat) (imm : Imm) : Except Reject Instr :=
  match splitBits widthsS w with
  | [_, _, d, a, b, c, imm16, fn, rsv] =>
    if rsv ≠ 0 then .error .reserved
    else if 1 < fn ∨ (fn = 1 ∧ op ≠ 0x80 ∧ op ≠ 0xA0) then .error .function
    else
      match decodeRowS op { d, a, b, c, imm16, fn, imm } with
      | some i => .ok i
      | none => .error .operand
  | _ => .error .truncated

/-- An instruction from its first doubleword and its immediate: its fields, then its static checks.
NOP is the zero doubleword with no immediate (R36). -/
def decodeDword (w : Nat) (imm : Imm) : Except Reject Instr :=
  let op := w / 4 % 256
  let read :=
    if op = 0 then (if w = 0 ∧ imm = .none then .ok .nop else .error .nopWord)
    else
      match formatOf op with
      | some .a => decodeA op w imm
      | some .m => decodeM op w imm
      | some .b => decodeB op w imm
      | some .s => decodeS op w imm
      | none => .error .opcode
  match read with
  | .error e => .error e
  | .ok i =>
    match i.illFormed with
    | some e => .error (.illFormed e)
    | none => .ok i

/-- THE DECODER. From the words at an address, the instruction that stands there and its length in
bytes (R33, R34). Words past the instruction are not looked at. -/
def decode (ws : List (BitVec 32)) : Except Reject (Instr × Nat) :=
  match ws with
  | [] => .error .truncated
  | w0 :: rest =>
    if w0.toNat % 4 = 3 then
      if w0 = 0xFFFFFFFF then .ok (.fillWord, 4) else .error .fillWord
    else
      match w0.toNat % 4, rest with
      | 0, w1 :: _ => (decodeDword (w0.toNat + 2 ^ 32 * w1.toNat) .none).map (·, 8)
      | 1, w1 :: w2 :: _ => (decodeDword (w0.toNat + 2 ^ 32 * w1.toNat) (.w32 w2)).map (·, 12)
      | 2, w1 :: w2 :: w3 :: _ =>
        (decodeDword (w0.toNat + 2 ^ 32 * w1.toNat) (.w64 (w3 ++ w2))).map (·, 16)
      | _, _ => .error .truncated

/-- Words from bytes, lowest address first, little-endian (R33). Bytes short of a word are dropped. -/
def wordsOf : List Byte → List (BitVec 32)
  | b0 :: b1 :: b2 :: b3 :: r => (b3 ++ b2 ++ b1 ++ b0 : BitVec 32) :: wordsOf r
  | _ => []

/-- Bytes of words, lowest address first (R33). -/
def bytesOf : List (BitVec 32) → List Byte
  | [] => []
  | w :: r =>
    w.extractLsb' 0 8 :: w.extractLsb' 8 8 :: w.extractLsb' 16 8 :: w.extractLsb' 24 8 :: bytesOf r

/-- The bytes of the instruction that the opcode table numbers w with nbits bits: bits from nbits up
are zero, to the longest instruction. -/
def tableBytes (nbits w : Nat) : List Byte :=
  let v := w % 2 ^ nbits
  bytesOf [BitVec.ofNat 32 v, BitVec.ofNat 32 (v / 2 ^ 32), BitVec.ofNat 32 (v / 2 ^ 64),
    BitVec.ofNat 32 (v / 2 ^ 96)]

/-- The instruction the decoder reads from the opcode table's numbering of its bits. -/
def decodeTableWord (nbits w : Nat) : Option Instr :=
  match decode (wordsOf (tableBytes nbits w)) with
  | .ok (i, _) => some i
  | .error _ => none

/-! ### The encoder -/

/-- LEN of an immediate (R33). -/
def Imm.len : Imm → Nat
  | .none => 0
  | .w32 _ => 1
  | .w64 _ => 2

def bit (x : Bool) : Nat := if x then 1 else 0

def packA (op fn : Nat) (o : FmtA) : Nat :=
  joinBits [(2, o.imm.len), (8, op), (6, o.d.code), (6, o.a.code), (6, o.b.code), (6, o.c.code),
    (1, bit o.ma.neg), (1, bit o.ma.abs), (1, bit o.mb.neg), (1, bit o.mb.abs), (1, bit o.mc.neg),
    (1, bit o.mc.abs), (2, o.clamp.code), (4, o.dscale.toNat), (3, o.k.val), (1, bit o.z),
    (4, o.t.code), (6, fn), (4, 0)]

def Off.imm : Off → Imm
  | .off16 _ => .none
  | .off32 x => .w32 x

def Off.low : Off → Nat
  | .off16 x => x.toNat
  | .off32 _ => 0

def idxCode : Option (Fin 32) → Nat
  | some n => n.val
  | none => 63

def packM (op fn : Nat) (m : FmtM) : Nat :=
  joinBits [(2, m.off.imm.len), (8, op), (6, m.d.val), (6, m.base.val), (6, idxCode m.idx),
    (2, m.pol.code), (2, m.ord.code), (1, bit m.sys), (3, m.sz.code), (3, m.k.val), (1, bit m.z),
    (2, m.am.code), (16, m.off.low), (6, fn)]

def packB (op d a b cond : Nat) (off : BitVec 32) : Nat :=
  joinBits [(2, 0), (8, op), (6, d), (6, a), (6, b), (4, cond), (32, off.toNat)]

def packS (op : Nat) (f : FmtS) : Nat :=
  joinBits [(2, f.imm.len), (8, op), (6, f.d), (6, f.a), (6, f.b), (6, f.c), (16, f.imm16),
    (10, f.fn), (4, 0)]

/-- Format A fields of MOVI and LEA. -/
def onlyD (d : Opnd) (imm : Imm) : FmtA :=
  { d, a := .r 0, b := .r 0, c := .r 0, ma := ⟨false, false⟩, mb := ⟨false, false⟩,
    mc := ⟨false, false⟩, clamp := .none, dscale := 0, k := 0, z := false, t := .i8, imm }

def LoopCount.code : LoopCount → Nat
  | .reg n => n.val
  | .queue n => 32 + n.val
  | .imm16 _ => 63

def LoopCount.imm16Field : LoopCount → Nat
  | .imm16 x => x.toNat
  | _ => 0

/-- Opcode and fields of a format S row. -/
def codeS : Instr → Option (Nat × FmtS)
  | .loop n count off => some (0x24, ⟨n.val, count.code, 0, 0, count.imm16Field, 0, .w32 off⟩)
  | .lbrk n => some (0x25, ⟨n.val, 0, 0, 0, 0, 0, .none⟩)
  | .fenceSys => some (0x34, ⟨0, 0, 0, 0, 0, 0, .none⟩)
  | .xfence p c => some (0x35, ⟨0, p.toNat, c.toNat, 0, 0, 0, .none⟩)
  | .send rd ra tag rb len imm =>
    some (0x80, ⟨rd.val, ra.code, rb.val, 0, tag.toNat + 256 * len.val, 0, imm⟩)
  | .sendt rd ra tag rb len imm =>
    some (0x80, ⟨rd.val, ra.code, rb.val, 0, tag.toNat + 256 * len.val, 1, imm⟩)
  | .done => some (0x81, ⟨0, 0, 0, 0, 0, 0, .none⟩)
  | .mbstat rd ra imm => some (0x82, ⟨rd.val, ra.code, 0, 0, 0, 0, imm⟩)
  | .actctlEnable rd ra rb imm | .actctlDisable rd ra rb imm | .actctlWeight rd ra rb imm
  | .actctlClass rd ra rb imm | .actctlState rd ra rb imm =>
    some (0x85, ⟨rd.val, ra.code, rb.code, 0, 0, 0, imm⟩)
  | .gcall (.imm16 x) => some (0x90, ⟨0, 0, 0, 0, x.toNat, 0, .none⟩)
  | .gcall (.reg n) => some (0x90, ⟨0, n.val, 0, 0, 0, 0, .none⟩)
  | .gcall (.imm32 x) => some (0x90, ⟨0, 63, 0, 0, 0, 0, .w32 x⟩)
  | .gret => some (0x91, ⟨0, 0, 0, 0, 0, 0, .none⟩)
  | .ginfo rd ra w imm => some (0x92, ⟨rd.val, ra.code, 0, 0, w.val, 0, imm⟩)
  | .cpy rd ra => some (0xA0, ⟨rd.val, ra.val, 0, 0, 0, 0, .none⟩)
  | .cpyt rd ra => some (0xA0, ⟨rd.val, ra.val, 0, 0, 0, 1, .none⟩)
  | .cseal rd => some (0xA1, ⟨rd.val, 0, 0, 0, 0, 0, .none⟩)
  | .cwait rd ra imm => some (0xA2, ⟨rd.val, ra.code, 0, 0, 0, 0, imm⟩)
  | .cstat rd ra => some (0xA3, ⟨rd.val, ra.val, 0, 0, 0, 0, .none⟩)
  | .sclaim rd ra count imm => some (0xA4, ⟨rd.val, ra.code, 0, 0, count.toNat, 0, imm⟩)
  | .srel rd ra count imm => some (0xA5, ⟨rd.val, ra.code, 0, 0, count.toNat, 0, imm⟩)
  | .aread vd rc acc ra => some (0xA6, ⟨vd.val, ra.code, 0, rc.val, acc.val, 0, .none⟩)
  | .astat rd acc => some (0xA7, ⟨rd.val, 0, 0, 0, acc.val, 0, .none⟩)
  | .binit rd ra rb imm => some (0xA8, ⟨rd.val, ra.code, rb.code, 0, 0, 0, imm⟩)
  | .barr rd ra rb => some (0xA9, ⟨rd.val, ra.code, rb.code, 0, 0, 0, .none⟩)
  | .bwait rd ra rb timeout imm => some (0xAA, ⟨rd.val, ra.code, rb.code, 0, timeout.toNat, 0, imm⟩)
  | .bstat rd ra w => some (0xAB, ⟨rd.val, ra.code, 0, 0, w.val, 0, .none⟩)
  | .rds d r => some (0xC0, ⟨d.code, 0, 0, 0, r.code, 0, .none⟩)
  | .wrs r ra imm => some (0xC1, ⟨0, ra.code, 0, 0, r.code, 0, imm⟩)
  | .wrsFflags ra imm => some (0xC1, ⟨0, ra.code, 0, 0, Spr.fflags.code, 0, imm⟩)
  | .wrsLoopRegister r ra imm => some (0xC1, ⟨0, ra.code, 0, 0, r.spr.code, 0, imm⟩)
  | .wrsTcause ra imm => some (0xC1, ⟨0, ra.code, 0, 0, Spr.tcause.code, 0, imm⟩)
  | .trap n => some (0xC2, ⟨0, 0, 0, 0, n.toNat, 0, .none⟩)
  | .tret => some (0xC3, ⟨0, 0, 0, 0, 0, 0, .none⟩)
  | .brk n => some (0xC4, ⟨0, 0, 0, 0, n.toNat, 0, .none⟩)
  | .clkrq rd ra rb imm => some (0xC5, ⟨rd.val, ra.code, rb.code, 0, 0, 0, imm⟩)
  | .qstat rd => some (0xC6, ⟨rd.val, 0, 0, 0, 0, 0, .none⟩)
  | _ => none

/-- The first doubleword and the immediate of an instruction that has more than one word. -/
def encodeDword (i : Instr) : Option (Nat × Imm) :=
  match i with
  | .nop => some (0, .none)
  | .movi d imm => some (packA 0x05 0 (onlyD d imm), imm)
  | .lea d off => some (packA 0x06 0 (onlyD d (.w32 off)), .w32 off)
  | .fcvt src rm o => some (packA 0x13 (4 * src.code + rm.code) o, o.imm)
  | .vcvt fn o => some (packA 0x47 fn.code o, o.imm)
  | .b cond ra rb off => some (packB 0x20 0 ra.val rb.val cond.code off, .none)
  | .br rd ra off => some (packB 0x21 rd.val ra.val 0 0 off, .none)
  | .call off => some (packB 0x22 31 0 0 0 off, .none)
  | .bq cond qa rb off => some (packB 0x26 0 (32 + qa.val) rb.val cond.code off, .none)
  | i =>
    match codeA i, codeM i, codeS i with
    | some (op, fn, o), _, _ => some (packA op fn o, o.imm)
    | _, some (op, fn, m), _ => some (packM op fn m, m.off.imm)
    | _, _, some (op, f) => some (packS op f, f.imm)
    | _, _, _ => none

/-- THE ENCODER. The words of an instruction, lowest address first; none for a device step, which has
no encoding. -/
def encode (i : Instr) : Option (List (BitVec 32)) :=
  match i with
  | .fillWord => some [0xFFFFFFFF]
  | i =>
    match encodeDword i with
    | none => none
    | some (w, imm) =>
      let head := [BitVec.ofNat 32 w, BitVec.ofNat 32 (w / 2 ^ 32)]
      match imm with
      | .none => some head
      | .w32 x => some (head ++ [x])
      | .w64 x => some (head ++ [x.extractLsb' 0 32, x.extractLsb' 32 32])

/-- Length of an instruction in bytes (R33, R34). -/
def Instr.lengthBytes (i : Instr) : Nat :=
  match encode i with
  | some ws => 4 * ws.length
  | none => 0

end Sys2Proof
end

