-- ==== Sys2Proof/Machine/State.lean ====
section
/-! DEFINITION. The state of one Falyr device as plain data: the contexts, cores, clusters and dies, the
package units, and the model's own agenda of what moves next. Also the reasons a step stops, and the
state after reset. -/

namespace Sys2Proof.Machine

/-! ### Reasons to stop -/

/-- Faults: a step that no behaviour of the device continues. There is one. -/
inductive Fault where
  /-- Raised by the meaning of an event that names a queue, a launch, a virtual function, a session, a
  gather, a peer request or a clock change that does not exist at that moment: the device has no such
  event. Safe: nothing can be proved of a run past it. -/
  | noSuchThing
  deriving DecidableEq, Repr

/-- Refusals: no meaning for the instruction. -/
inductive Refusal where
  /-- Answered by an arm of exec whose instruction has no meaning yet. Safe: it proves nothing. -/
  | notModelled (mnemonic : String)
  deriving DecidableEq, Repr

/-! ### Memory -/

/-- Bytes by address: addresses strictly rising, no entry 0, which is what an unlisted byte reads as
(assumption 5). -/
abbrev Memory := List Host.Cell

/-- What a byte that nothing has written reads as. DESIGN CHOICE (assumption 5). -/
def unlistedByte : Byte := 0

/-- The canonical form from an address on: rising addresses at or above lo, no unlisted value. -/
def Memory.wfFrom : Nat → Memory → Bool
  | _, [] => true
  | lo, (a, b) :: r => lo ≤ a && b != unlistedByte && Memory.wfFrom (a + 1) r

/-- The canonical form. -/
def Memory.wf (m : Memory) : Bool := Memory.wfFrom 0 m

/-! ### One context -/

/-- The six loop registers, or their trap copies (R24, R28). -/
structure Loops where
  start0 : Word
  end0 : Word
  count0 : Word
  start1 : Word
  end1 : Word
  count1 : Word
  deriving DecidableEq, Repr

/-- A branch whose delay slot is next (R99): its destination and whether it is taken, the register of
its link, and the branch's address when a branch (and not a TRET) put the slot there (R100). The length
of the slot, which the link and a branch not taken need, is known once the slot is fetched: from then on
the slot is resolved, its link is written, and dest is where the program goes on. A taken B or BQ may
disarm loops (R105). -/
structure SlotPend where
  dest : Word
  taken : Bool
  link : Fin 32
  branch : Option Word
  resolved : Bool
  disarm : Bool
  deriving DecidableEq, Repr

/-- Copy batches of an activation (R302): numbers are copy issue numbers. -/
structure Batches where
  next : Nat
  openSet : List Nat
  unfinished : List (List Nat)
  failed : Nat
  deriving DecidableEq, Repr

/-- What a GCALL puts away and a GRET takes back (R211): the registers of the zero rows. -/
structure LevelRecord where
  regs : Vector Word 32
  vregs : Vector VecWord 32
  kregs : Vector MaskWord 8
  queues : Vector (List Word) 8
  loops : Loops
  tloops : Loops
  tvec : Word
  tpc : Word
  tcause : Word
  tval : Word
  tslot : Word
  fflags : BitVec 5
  lease : Word
  batches : Batches
  deriving DecidableEq, Repr

/-- A domain-stack entry (R214, R216) with its level record and the windows of its gate (R207). -/
structure Level where
  gate : BitVec 16
  caller : BitVec 16
  callee : BitVec 16
  ret : Word
  tbase : Word
  budget : Word
  ns : Nat
  nv : Nat
  saved : LevelRecord
  deriving DecidableEq, Repr

/-- The activation bound to a context: its actor slot, the mailbox and the message that started it
(R133), whether it is a drain (R311), and the time of a remote start (R378). -/
structure Activation where
  slot : SlotId
  mbox : Nat
  msg : Msg
  drain : Bool
  deriving DecidableEq, Repr

/-- Why the S pipe of a context does not go on. A context that waits issues its instruction again
when the condition has passed. -/
inductive Wait where
  /-- It runs. -/
  | run
  /-- It waits to pop: entries wanted of each queue q4–q7 (R16, R17). -/
  | pop (need : List (Fin 8 × Nat))
  /-- It waits to push to q0–q3 (R17). -/
  | push (q : Fin 8)
  /-- It waits for every dispatched V-pipe instruction (R21). -/
  | vIdle
  /-- It waits for the writers of a mask register (R21). -/
  | vMask (k : Fin 8)
  /-- It waits for the V pipe to stop: empty, or its oldest instruction blocked on a queue (R347). -/
  | vSettle
  /-- It waits for the V pipe to have data for an earlier store (R21). -/
  | vStore
  /-- FENCE.SYS waits for the V pipe to have data for an earlier store: a stall (R291), and a wait on the V pipe for
  QLOCK (R18; assumption 80). -/
  | vFence
  /-- The V dispatch queue is full (R20). -/
  | vFull
  /-- A memory access is in flight: a stall (R136). -/
  | memory
  /-- A translation miss (R238). -/
  | translation
  /-- A SEND waits for room or for its answer (R137, R138). -/
  | send
  /-- WAITA, BWAIT: a wake event or the deadline (R289, R340). -/
  | wake
  /-- CWAIT, CSEAL: a batch must finish (R302, R334). -/
  | batch
  /-- A gate descriptor is being fetched (R206). -/
  | gate (id : Nat)
  /-- A gate transition has been made: the core may issue from another context first (R136). -/
  | gateMove
  /-- A message of a SENDT has gone to its core, whose first answer it takes: a stall (R136, R138). -/
  | tried
  /-- Fence markers are out (R276). -/
  | markers
  /-- A stall until something else moves: STF slots, copy entries, slot zeroing (R283, R333, R306). -/
  | stall
  /-- DONE of a chunk waits for its commit or its held messages (R201, R263). -/
  | commit
  deriving DecidableEq, Repr

/-- Home kinds of a translation (R230). -/
inductive HomeKind where
  | thisDie
  | otherDie
  | host
  | peer
  deriving DecidableEq, Repr

/-- Where an access lands: a scratchpad byte of a core, an operand byte, or translated memory with its
physical address, home kind, key slot and the policy left after POLMASK (R221, R237). -/
inductive Place where
  | spad (core : CoreId) (off : Nat)
  | operand (off : Nat)
  | memory (pa : Nat) (home : HomeKind) (key : Nat) (pol : Pol)
  deriving DecidableEq, Repr

/-- What an access does. -/
inductive AccessKind where
  | load
  | store (data : Word)
  | posted (data : Word)
  /-- A plain store to host memory that its activation does not wait for (R278). -/
  | async (data : Word)
  | amo (fn : AmoFn) (op : Word) (new : Word)
  | pin (up : Bool)
  | barrier (op : HomeOp)
  deriving DecidableEq, Repr

/-- One naturally aligned access of up to 8 bytes, checked and placed. -/
structure Access where
  addr : Word
  size : Nat
  place : Place
  kind : AccessKind
  deriving DecidableEq, Repr

/-- A V-pipe instruction dispatched and not completed (R20, R345): its address, and for a vector
memory instruction what was settled at dispatch: the base, the stride, the mask, and for a load or an
AREAD the data already read, 128 bytes a register; for a store the places checked, in element order. -/
structure VEntry where
  pc : Word
  instr : Instr
  base : Word
  stride : Word
  mask : MaskWord
  data : List VecWord
  accs : List Access
  deriving DecidableEq, Repr

/-- A V-pipe instruction that a frame recorded as dispatched and not completed, to be dispatched again (R345, R348): its
address, and for a vector memory instruction the base it was resolved with, and the stride; for an AREAD the row it read. -/
structure Redo where
  pc : Word
  base : Word
  stride : Word
  data : List VecWord
  deriving DecidableEq, Repr

/-- What becomes of the values once every access is performed: the continuation of a memory
instruction, one constructor a form. A vector load puts the elements it read into its V-pipe entry. -/
inductive MemFin where
  | load (d : Fin 32) (size : Nat) (signed : Bool)
  | pair (d : Fin 32)
  | store
  | amo (d : Fin 32) (size : Nat)
  | pin (d : Fin 32)
  | waita (d : Fin 32) (size : Nat)
  | vload (active : List Nat) (size : Nat)
  | vstore
  | binit (d : Fin 32) (count : BitVec 32)
  | barr (d : Fin 32) (gen : BitVec 16)
  | bstat (d : Fin 32)
  | bwait
  deriving DecidableEq, Repr

/-- A memory operation of a context: accesses still to perform, in order, the values of those done,
what then, its length, its .acq.sys or .rel.sys (R278), whether it belongs to the V pipe, and whether its head
access is out at a home, a peer or the host, or waits for physical time (R259). -/
structure MemOp where
  todo : List Access
  vals : List Word
  fin : MemFin
  len : Nat
  acq : Bool
  vpipe : Bool
  out : Bool
  storeAt : Option Nat
  flags : BitVec 5
  deriving DecidableEq, Repr

/-- What ends the wait of a WAITA (R289): the copy that served its last load, the scratchpad word
watched, or the next 1 µs mark. -/
inductive Watch where
  | spad (core : CoreId) (word : Nat)
  | tracked (line w : Nat)
  | owned (line w : Nat)
  | leased (rts : Nat)
  | interval (next : Nat)
  | host (line : Nat)
  deriving DecidableEq, Repr

/-- What has been ordered of an activation and takes place at its next instruction boundary (R347,
R355, R356, R135, R385, R218), or a fault of an access that was out (R343). -/
inductive Stop where
  | preempt (reply : Word)
  | budget
  | evict
  | tdisp
  | kill (domain : BitVec 16)
  | fault (cause : Nat) (addr : Word) (kind pol : Nat)
  deriving DecidableEq, Repr

/-- Work a chunk holds until it commits (R201, R262). -/
inductive Held where
  | message (m : Msg)
  | copy (w0 w1 w2 w3 : Word)
  deriving DecidableEq, Repr

/-- A buffered global line of a chunk (R262): its bytes and which of them were written, the key slot of its page, and the
addresses of the STFs among its stores (R284). -/
structure Buffered where
  line : Nat
  data : BitVec 1024
  bytes : BitVec 128
  key : Nat
  stfs : List Word
  deriving DecidableEq, Repr

/-- The chunk of an ATOMIC activation (R262 to R267): its read set by line with the words loaded, its buffered lines, its
log and held work, the stale barrier arrivals that its commit reports (address and domain), and the dies on which its commit
holds reservations. -/
structure Chunk where
  active : Bool
  serial : Bool
  t0 : Nat
  reads : List (Nat × BitVec 16)
  writes : List Buffered
  log : List (Nat × List Byte)
  held : List Held
  stales : List (Word × BitVec 16)
  reserved : List Nat
  attempts : Nat
  dieToken : Bool
  deviceToken : Bool
  manyDies : Bool
  committing : Bool
  deriving DecidableEq, Repr

/-- The registers and state of one hardware context (R10, R11). Skip says that the instruction at pc is
fetched for its length only, past a LOOP of count 0 (R102). -/
structure Ctx where
  act : Option Activation
  regs : Vector Word 32
  vregs : Vector VecWord 32
  kregs : Vector MaskWord 8
  queues : Vector (List Word) 8
  pc : Word
  slot : Option SlotPend
  skip : Bool
  loops : Loops
  tloops : Loops
  tvec : Word
  tpc : Word
  tcause : Word
  tval : Word
  tslot : Word
  fflags : BitVec 5
  lease : Word
  self : Word
  domain : BitVec 16
  origin : BitVec 16
  msghdr : Word
  frame : Word
  clkgs : BitVec 32
  clkseq : BitVec 32
  stack : List Level
  vq : List VEntry
  redo : List Redo
  wait : Wait
  blocked : Nat
  issued : Nat
  op : Option MemOp
  batches : Batches
  deadline : Option Nat
  watch : Option Watch
  stops : List Stop
  sendrec : Option (Fin 8 × Option (BitVec 64))
  markers : Nat
  markerTime : Nat
  fenceTime : Nat
  chunk : Chunk
  acqSys : Bool
  graceEnd : Option Nat
  deriving DecidableEq, Repr

/-! ### Actors -/

/-- Slot states (R118). -/
inductive SlotState where
  | free | idle | active | suspended | evicted | moved | dying
  deriving DecidableEq, Repr

/-- A region of an actor (R121), with the alignment it was placed at, as a logarithm (R122). -/
structure Region where
  base : Nat
  size : Nat
  stack : Bool
  align : Nat
  deriving DecidableEq, Repr

/-- A waiting message and its place in the core's order of acceptance (R126, R133). -/
structure Stored where
  msg : Msg
  order : Nat
  deriving DecidableEq, Repr

/-- A mailbox: its type descriptor (R124), EN, and its messages, oldest first. -/
structure Mailbox where
  desc0 : Word
  desc1 : Word
  enabled : Bool
  waiting : List Stored
  running : Bool
  deriving DecidableEq, Repr

/-- What a suspended activation waits for (R132, R343, R355). -/
inductive Cause where
  | fault (token : Nat)
  | untaken
  | preempt
  | budget
  | evict
  | tdisp
  deriving DecidableEq, Repr

/-- A saved context (R343 to R348): what the frame holds, as data. -/
structure Saved where
  ctx : Ctx
  heldCtx : CtxId
  reason : Nat
  cause : Nat
  waits : Cause
  faddr : Word
  finfo : Word
  lclk : Nat
  time : Nat
  order : Nat
  resumable : Bool
  deriving DecidableEq, Repr

/-- The overflow queue of an evicted actor (R143, R146): where it lies, its quota, its messages. -/
structure Overflow where
  addr : Word
  quota : Nat
  msgs : List (Msg × Nat)
  deriving DecidableEq, Repr

/-- An EVICT request that waits for what must end first (R356). It is held until no drain to the actor is in progress (R311), and
has begun from then on. -/
structure EvictReq where
  begun : Bool
  accmask : BitVec 4
  image : Word
  overflow : Word
  quota : Nat
  reply : Word
  deriving DecidableEq, Repr

/-- An actor slot (R117, R118). Actor numbers the actors of the device in the order of their creation, 0 for a system
actor and a slot without one; it goes where the actor goes. Former is the domain of
the slot's last actor, whose endpoints R324 names. The image of an evicted actor with the alignments of its regions. -/
structure Slot where
  actor : Nat
  former : BitVec 16
  state : SlotState
  domain : BitVec 16
  cls : Nat
  weight : Nat
  quota : Nat
  tvec : Word
  regions : List Region
  mboxes : List Mailbox
  launch : Option Nat
  area : Word
  saved : Option Saved
  seq : BitVec 5
  overflow : Option Overflow
  image : Option (Word × List Nat)
  evicting : Option EvictReq
  movedTo : Word
  deriving DecidableEq, Repr

/-! ### The guard, the send unit, the L1 -/

/-- A share entry (R123, R129). -/
structure Share where
  slot : SlotId
  region : Nat
  domain : BitVec 16
  write : Bool
  deriving DecidableEq, Repr

/-- A send-rights entry (R129). -/
structure SendRight where
  domain : BitVec 16
  pattern : Word
  mask : Word
  deriving DecidableEq, Repr

/-- An admit entry (R129, R377). -/
structure Admit where
  domain : BitVec 16
  device : BitVec 12
  slots : BitVec 16
  deriving DecidableEq, Repr

/-- A cached gate descriptor (R206, R207). -/
structure GateEntry where
  id : Nat
  desc : BitVec 512
  deriving DecidableEq, Repr

/-- The core guard (R9, R116, R129). Withdrawn are the domains whose rights record the kernel has
withdrawn, killed those it has killed on this core (R218). Gates stand most recently used first; counts are the open
levels a gate (R208). -/
structure Guard where
  rights : List (BitVec 16)
  withdrawn : List (BitVec 16)
  killed : List (BitVec 16)
  shares : Tab Share
  caps : List Word
  sendRights : Tab SendRight
  admits : Tab Admit
  gates : List GateEntry
  gateCounts : Tab Nat
  deriving DecidableEq, Repr

/-- A domain's time on a core (R134): P in µs, A and the rest of this period in ns, and the number of
the period it stands in. -/
structure Budget where
  domain : BitVec 16
  period : Nat
  allot : Nat
  left : Nat
  index : Nat
  deriving DecidableEq, Repr

/-- State of a send-unit entry (R137, R138): on its way, held for retry after a full answer, or not yet
tried because an earlier message to the same core is still in flight. -/
inductive SendState where
  | flying
  | held
  | behind
  deriving DecidableEq, Repr

/-- A message in the send unit (R137): whose it is, whether SENDT or a committed chunk sent it, its place
among the unit's messages, and when it was taken and last tried. -/
structure SendEntry where
  msg : Msg
  slot : SlotId
  actor : Nat
  try1 : Bool
  chunk : Bool
  state : SendState
  order : Nat
  since : Nat
  tried : Nat
  deriving DecidableEq, Repr

/-- An L1 line (R232, R244, R256). Of its valid words some are owned, some are held under a lease, and the rest are
tracked; former says that a read recall of owned words left them so (O). Wts and rts are those of its owned words,
trackWts that of its tracked words, copyWts and copyRts those of its lease. -/
structure L1Line where
  valid : BitVec 16
  owned : BitVec 16
  written : BitVec 16
  leased : BitVec 16
  former : Bool
  data : BitVec 1024
  wts : Nat
  rts : Nat
  trackWts : Nat
  copyWts : Nat
  copyRts : Nat
  use : Nat
  deriving DecidableEq, Repr

/-- An entry of a TLB (R236). -/
structure TlbEntry where
  dtag : BitVec 16
  key : BitVec 12
  ppn : BitVec 36
  vpn : BitVec 40
  size : BitVec 2
  polmask : BitVec 4
  r : Bool
  w : Bool
  x : Bool
  dup : Bool
  home : BitVec 2
  deriving DecidableEq, Repr

/-- Who asked for a translation that missed (R238): a context, or an engine's request. -/
inductive MissWaiter where
  | ctx (core : CoreId) (x : CtxId)
  | copy (core : CoreId) (entry : Fin 128)
  | matrix (core : CoreId) (id : Nat)
  | gather (cluster : ClusterId) (id : Nat)
  | collective (die : DieId) (id : Nat)
  | seal (die : DieId) (id : Nat)
  | front (die : DieId) (queue : Nat)
  deriving DecidableEq, Repr

/-- One who waits for a translation: who, and the access that missed. -/
structure MissWait where
  who : MissWaiter
  addr : Word
  kind : Nat
  pol : Nat
  deriving DecidableEq, Repr

/-- A miss-table entry (R238): a domain, a 64 KiB page, and who waits for it. -/
structure Miss where
  domain : BitVec 16
  page : Nat
  waiters : List MissWait
  deriving DecidableEq, Repr

/-! ### Engines -/

/-- Path classes (R49, R293). -/
inductive PathClass where
  | core | copy | matrix | gather | collective | seal
  deriving DecidableEq, Repr

/-- State of a copy entry (R299, R336). One that stands still at a fault keeps its token, 0 while it waits for one, and the
faulting access. -/
inductive CopyState where
  | queued
  | running
  | missing
  | stopped (token : Nat) (addr : Word) (kind : Nat)
  | sent
  | ended
  deriving DecidableEq, Repr

/-- A copy entry (R297 to R302). Its translation pins are of the 64 KiB units its source and its
destination stand in, with the entries that translate them (R360). Actor is the number of the actor that issued it;
killed says that its domain has been killed since (R294); its last sector's engine writes are numbered from ewFrom up
to ewTo (R299). -/
structure Copy where
  num : Nat
  actor : Nat
  killed : Bool
  ewFrom : Nat
  ewTo : Nat
  w0 : Word
  w1 : Word
  w2 : Word
  w3 : Word
  domain : BitVec 16
  slot : SlotId
  state : CopyState
  prog : Nat
  status : Nat
  srcPin : Option (Nat × TlbEntry)
  dstPin : Option (Nat × TlbEntry)
  deriving DecidableEq, Repr

/-- Where a command stands towards its barrier (R305) and its fence markers (R277). -/
inductive CmdWait where
  | fresh
  | missing
  | waiting
  | stopped (token : Nat)
  | satisfied (t : Nat)
  | stale
  | poisoned
  | bad
  deriving DecidableEq, Repr

/-- A command in an engine's queue: its payload, the domain that travels with it, its sender with the number of its actor, where it
stands, the markers still out, and its place in time. -/
structure Command where
  payload : List Word
  domain : BitVec 16
  core : CoreId
  slot : SlotId
  actor : Nat
  id : Nat
  wait : CmdWait
  markers : Nat
  started : Bool
  arrived : Nat
  deriving DecidableEq, Repr

/-- The MMA under way: its K steps done (R310). -/
structure Running where
  cmd : Command
  step : Nat
  deriving DecidableEq, Repr

/-- A drain under way (R311): its accumulator, the next row to deliver, whether a row's activation is out,
whether it is lost, and the K steps of its command. -/
structure Drain where
  cmd : Command
  acc : Fin 4
  row : Nat
  out : Bool
  lost : Bool
  steps : Nat
  deriving DecidableEq, Repr

/-- An accumulator (R308): element (i, j) at 64 i + j, unlisted elements 0. -/
structure Accum where
  owner : BitVec 16
  data : Tab (BitVec 32)
  steps : Nat
  nsteps : Nat
  deriving DecidableEq, Repr

/-- The matrix unit of a core (R306 to R313). -/
structure Matrix where
  queue : List Command
  running : Option Running
  drains : List Drain
  accs : Vector Accum 4
  deriving DecidableEq, Repr

/-- A claimed operand slot (R306): the slot, number and domain of the actor that claimed it. -/
structure Claim where
  actor : Nat
  slot : SlotId
  domain : BitVec 16
  deriving DecidableEq, Repr

/-- A gather under way (R314): its descriptor, the row and byte reached, the index of that row once it has
been read, and its state. -/
structure Gather where
  cmd : Command
  table : Word
  dcore : CoreId
  opw : Bool
  wide : Bool
  rowBytes : Nat
  rows : Nat
  list : Word
  doff : Nat
  n : Nat
  done0 : Word
  done1 : Word
  row : Nat
  byte : Nat
  index : Option Nat
  state : CopyState
  status : Nat
  deriving DecidableEq, Repr

/-! ### Coherence -/

/-- Home states (R245). -/
inductive HomeSt where
  | u | sh | ow | sp | hInv | hFwd | hWb | hSpl
  deriving DecidableEq, Repr

/-- What a home awaits from a requester (R251, R253). -/
inductive Await where
  | inv (n : Nat)
  | rcr (n : Nat)
  | rcw (n : Nat)
  | wb (n : Nat) (write : Bool)
  | up
  deriving DecidableEq, Repr

/-- An owner of words of a line: its requester id and the order of its grant (R246, R247). -/
structure Owner where
  id : Nat
  since : Nat
  deriving DecidableEq, Repr

/-- A directory entry (R246), with what its home has under way (R251, R259). -/
structure DirLine where
  wts : Nat
  rts : Nat
  pins : Nat
  st : HomeSt
  wmap : Vector (Fin 5) 16
  owners : Vector (Option Owner) 4
  sharers : List Nat
  cur : Option Proto
  awaiting : List Await
  performAt : Option Nat
  use : Nat
  deriving DecidableEq, Repr

/-- Who holds a line reserved, and whether to write it (R264): a reservation to write has one holder. -/
structure Reservation where
  holders : List (CoreId × SlotId)
  write : Bool
  deriving DecidableEq, Repr

/-- The grant a remote-data cache holds of a word (R370). -/
inductive RdcGrant where
  | none | leased | tracked | owned
  deriving DecidableEq, Repr

/-- CXL.cache states (R382). -/
inductive Mesi where
  | i | s | e | m
  deriving DecidableEq, Repr

/-- Requests a remote-data cache has out on CXL.cache (R382). -/
inductive CxlKind where
  | rdShared | rdOwn | rdCurr | wrCur
  deriving DecidableEq, Repr

/-- A line of a remote-data cache (R370 to R373, R382, R390): wts and rts are those of its leased words;
its directory entry holds those of the words it tracks or owns. Granted is the highest rts it has
handed out. -/
structure RdcLine where
  dir : DirLine
  grants : Vector RdcGrant 16
  data : BitVec 1024
  wts : Nat
  rts : Nat
  granted : Nat
  mesi : Mesi
  cxl : Option CxlKind
  deriving DecidableEq, Repr

/-- A waiter on a barrier's 16 bytes (R305). -/
inductive BarWaiter where
  | ctx (core : CoreId) (x : CtxId)
  | matrix (core : CoreId) (id : Nat)
  | gather (cluster : ClusterId) (id : Nat)
  | collective (die : DieId) (id : Nat)
  deriving DecidableEq, Repr

/-- A registered barrier waiter: physical address, expected generation, target phase, and its end
once judged: status and logical time. -/
structure BarWait where
  pa : Nat
  gen : BitVec 16
  phase : BitVec 32
  who : BarWaiter
  judged : Option (Nat × Nat)
  deriving DecidableEq, Repr

/-! ### A core -/

/-- A store not yet performed that its activation has gone on from: an STF (R272, R283), or a plain store to host memory
(R278). Its number, its context while the activation lasts, its actor by the slot it had and by number, the launch it counts
for, the words it touches, and the key slot that its home checks (R284). A plain store of .own holds its bytes (offset,
size, data) until the words come. -/
structure Posted where
  id : Nat
  ctx : Option CtxId
  slot : SlotId
  actor : Nat
  launch : Option Nat
  domain : BitVec 16
  line : Nat
  mask : BitVec 16
  addr : Word
  key : Nat
  stf : Bool
  own : Option (Nat × Nat × Word)
  deriving DecidableEq, Repr

/-- A scratchpad bank word whose SECDED check finds an error (R226, R229): banks 0 to 31 hold data, 32 to 39 parity. Hard
says that more than one bit is wrong, which the code alone cannot correct. -/
structure BankErr where
  bank : Nat
  row : Nat
  hard : Bool
  deriving DecidableEq, Repr

/-- A block of an instruction cache (R35, R232): its name, the translation it was fetched through, its 32 bytes. -/
structure CodeBlock where
  block : Nat
  entry : TlbEntry
  data : List Byte
  deriving DecidableEq, Repr

/-- What waits for a fault token to be resolved (R353). -/
inductive TokenWaiter where
  | slot (core : CoreId) (slot : SlotId)
  | copy (core : CoreId) (entry : Fin 128)
  | gather (cluster : ClusterId) (id : Nat)
  | matrix (core : CoreId) (id : Nat)
  | gatherCmd (cluster : ClusterId) (id : Nat)
  | collective (die : DieId) (id : Nat)
  deriving DecidableEq, Repr

/-- The entry of a fault or a report (R350), less its TIME, its TOKEN and its COUNT. -/
structure Entry where
  detail : Nat
  addr : Word
  domain : BitVec 16
  core : Nat
  slot : Nat
  path : Nat
  kind : Nat
  status : Nat
  cause : Nat
  deriving DecidableEq, Repr

/-- A fault raised at a core that waits for a free token (R352): whose it is, and its entry. -/
structure FaultWait where
  who : TokenWaiter
  entry : Entry
  deriving DecidableEq, Repr

/-- A core (R6, R9). Its instruction cache stands most recently used first. -/
structure Core where
  ctxs : Vector Ctx 4
  cur : CtxId
  lclk : Nat
  cycle : Nat
  phase : Nat
  tick : Nat
  spad : Memory
  spadErrs : List BankErr
  opnd : Memory
  claims : Tab Claim
  slots : Vector Slot 16
  storeUsed : Nat
  acceptCount : Nat
  guard : Guard
  budgets : List Budget
  sends : Vector (Option SendEntry) 8
  l1 : Tab L1Line
  icache : List CodeBlock
  utlb : List TlbEntry
  posted : List Posted
  postedCount : Nat
  copies : Vector (Option Copy) 128
  fifo : List (Fin 128)
  copyCount : Nat
  failedCopies : List Nat
  matrix : Matrix
  timelost : Option Nat
  stopped : Bool
  restartBy : Option Nat
  faultQueue : List FaultWait
  deriving DecidableEq, Repr

/-! ### Clusters and dies -/

/-- A cluster (R235 to R239, R314). Filled are the translations it was given that have been neither replaced nor
invalidated since, those that its TLB has evicted too: what is mapped (R234, R362). -/
structure Cluster where
  tlb : List TlbEntry
  filled : List TlbEntry
  misses : Tab Miss
  gatherQueue : List Command
  gathers : List Gather
  owedReplies : List (Msg × BitVec 16 × Nat × Nat)
  deriving DecidableEq, Repr

/-- A collective group (R316): members in rank order, as core and device, and the timeout in µs. -/
structure Group where
  members : List (Nat × Nat)
  timeout : Nat
  deriving DecidableEq, Repr

/-- A SHA-384 computation (R320): the chaining words, the bytes not yet a block, and the length. -/
structure Hash where
  h : List Word
  rest : List Byte
  length : Nat
  deriving DecidableEq, Repr

/-- A seal session (R319), with the number of the actor that opened it; the record's destination as physical pieces. -/
structure Session where
  key : BitVec 32
  domain : BitVec 16
  core : CoreId
  slot : SlotId
  actor : Nat
  launch : Nat
  usertag : Word
  dest : List (Nat × Nat)
  reply : Word
  hash : Hash
  deriving DecidableEq, Repr

/-- An open fault token (R352): domain, cause, page, ring index of its latest entry, waiters. -/
structure Token where
  domain : BitVec 16
  cause : Nat
  page : Nat
  index : Nat
  waiters : List TokenWaiter
  deriving DecidableEq, Repr

/-- An actor table entry as the front end or the system actor has read it (R148): regions as sizes and
alignments' logarithms, mailbox descriptors, and initial messages as mailbox, tag and payload. -/
structure PlanActor where
  slot : Nat
  fixed : Bool
  core : Nat
  pclass : Nat
  cls : Nat
  weight : Nat
  tvec : Word
  stack : Option Nat
  regions : List (Nat × Nat)
  mboxes : List (Word × Word)
  inits : List (Nat × Nat × List Word)
  deriving DecidableEq, Repr

/-- A launch block with its tables as the front end has read them (R147 to R150); map entries as base,
length, weight and placement class. -/
structure Plan where
  domain : BitVec 16
  block : Word
  table : Word
  complete : Word
  control : Word
  usertag : Word
  lattol : Nat
  pweight : Nat
  mul : BitVec 32
  floor : BitVec 32
  hold : BitVec 6
  actors : List PlanActor
  map : List (Nat × Nat × Nat × Nat)
  deriving DecidableEq, Repr

/-- A command queue (R396 to R401), known by the kernel address of its descriptor: the physical address of
its doorbell word, its read index, its STATE, since when it has found nothing, by when it polls again once its
doorbell has been stored to, whether its read index is still to be published, the plan of the launch at its head
and whether that is HELD, and for each page its placement has asked after, the dies that hold it. -/
structure Queue where
  desc : BitVec 256
  bellPa : Nat
  ri : Nat
  state : Nat
  idleSince : Nat
  waking : Option Nat
  owed : Bool
  plan : Option Plan
  held : Bool
  homes : Tab Nat
  deriving DecidableEq, Repr

/-- A Garnet record (R368) as its 256 bits. -/
abbrev Record := BitVec 256

/-- A Garnet (R368, R369): newest record first, at most 4,096. -/
structure Garnet where
  records : List Record
  frozen : Bool
  deriving DecidableEq, Repr

/-- A member of a collective operation that has come to its end: its result is still to be written, or its
completion to be made (R317, R318). -/
structure Member where
  cmd : Command
  rank : Nat
  dst : Word
  done0 : Word
  done1 : Word
  result : List Byte
  written : Bool
  status : Nat
  state : CopyState
  deriving DecidableEq, Repr

/-- A die: its home slices (R250, R254), the lines reserved there (R264), its remote-data cache (R370), Spinel (R263), engines, the
pages that the ADD at the head of the seal queue has pinned (R319), tokens, Garnet and front end. -/
structure Die where
  home : Tab DirLine
  reserved : Tab Reservation
  sliceQueues : Tab (List Proto)
  mts : Tab Nat
  rdc : Tab RdcLine
  rdcQueue : List Proto
  rdcGone : Nat
  tick : Nat
  token : Option (CoreId × SlotId)
  groups : Tab Group
  collQueue : List Command
  members : List Member
  sealQueue : List Command
  sealPins : List (Nat × TlbEntry)
  sessions : Tab Session
  faultTokens : Tab Token
  garnet : Garnet
  queues : Tab Queue
  deriving DecidableEq, Repr

/-! ### The package -/

/-- A ring entry on its way to its ring (R349 to R351). -/
structure RingWait where
  ring : Nat
  entry : BitVec 256
  deriving DecidableEq, Repr

/-- A ring (R349): the kernel address of its descriptor, whose RIDX the consumer publishes there, and
what the hardware keeps of it: whether a doorbell is in flight, and the WIDX last told. -/
structure Ring where
  addr : Nat
  base : Nat
  logn : Nat
  weight : Nat
  lost : Nat
  widx : Nat
  doorbell : Word
  bell : Bool
  told : Nat
  deriving DecidableEq, Repr

/-- What the front end keeps of one actor of a launch (R156): where it is placed, its entry, the address
of that entry, and whether it has been created and destroyed. -/
structure LaunchActor where
  core : CoreId
  slot : SlotId
  plan : PlanActor
  entry : Word
  created : Bool
  destroyed : Bool
  deriving DecidableEq, Repr

/-- How far a launch has come (R155, R157). -/
inductive LaunchState where
  | creating
  | running
  | failing (status : Nat)
  | completed
  deriving DecidableEq, Repr

/-- A launch (R147 to R157) with its clock request and grant (R158 to R164). -/
structure Launch where
  die : DieId
  domain : BitVec 16
  block : Word
  complete : Word
  control : Word
  usertag : Word
  lattol : Nat
  pweight : Nat
  mul : BitVec 32
  floor : BitVec 32
  hold : BitVec 6
  grant : BitVec 32
  seq : Nat
  effective : BitVec 32
  effectiveSeq : Nat
  actors : List LaunchActor
  state : LaunchState
  status : Nat
  endedAt : Option Nat
  deriving DecidableEq, Repr

/-- A clock change announced or computed and not yet in effect (R164). -/
structure Change where
  launch : Nat
  grant : BitVec 32
  seq : Nat
  at_ : Nat
  down : Bool
  announce : Option Msg
  deriving DecidableEq, Repr

/-- TDISP states (R384). -/
inductive TdispState where
  | unlocked | locked | run | error
  deriving DecidableEq, Repr

/-- A virtual function (R384). -/
structure Vf where
  state : TdispState
  domains : List (BitVec 16)
  interval : Nat
  renewed : Nat
  deriving DecidableEq, Repr

/-- A peer window (R379). -/
structure PeerWindow where
  device : BitVec 12
  r : Bool
  w : Bool
  key : Nat
  base : Nat
  length : Nat
  deriving DecidableEq, Repr

/-- A request out to a peer device (R379): of a context, of a posted store, or of an engine's far read or
write. -/
structure PeerRequest where
  core : CoreId
  ctx : Option CtxId
  slot : SlotId
  domain : BitVec 16
  addr : Nat
  size : Nat
  write : Option Word
  posted : Option Nat
  reader : Option Nat
  writer : Option Nat
  since : Nat
  deriving DecidableEq, Repr

/-- A message that no send unit holds, on its way to another device (R312, R377): whether it has been refused as full, since when it
has had no answer, and when it was last tried, if it has been. -/
structure Abroad where
  msg : Msg
  held : Bool
  since : Nat
  tried : Option Nat
  deriving DecidableEq, Repr

/-- Words of a host or peer line that an engine has asked for (R255, R382): those wanted, and those that
have come. -/
structure FarRead where
  who : MissWaiter
  line : Nat
  need : BitVec 16
  got : BitVec 16
  data : BitVec 1024
  denied : Bool
  deriving DecidableEq, Repr

/-- Writes of an engine to a host or peer line that are not yet acknowledged (R278): whose they are and under what domain, their address, their
class, their place among the engine writes, and how many acknowledgements are still out. -/
structure FarWrite where
  who : MissWaiter
  domain : BitVec 16
  addr : Word
  cls : Nat
  num : Nat
  left : Nat
  denied : Bool
  deriving DecidableEq, Repr

/-- An HDM range (R381): base, length, virtual function. -/
structure Hdm where
  base : Nat
  length : Nat
  vf : Nat
  deriving DecidableEq, Repr

/-- One member's part in a collective operation (R316, R317); one of another device came over the fabric (R380) and
ends there. -/
structure Contribution where
  rank : Nat
  cmd : Command
  die : DieId
  dst : Word
  done0 : Word
  done1 : Word
  data : List Byte
  remote : Bool
  deriving DecidableEq, Repr

/-- A collective operation that not every member has joined (R316, R318). -/
structure Collective where
  group : Nat
  seq : Nat
  parts : List Contribution
  deadline : Nat
  deriving DecidableEq, Repr

/-- What the device has said to the world outside: snoops and answers to the host, CXL.cache requests,
peer requests, remote messages, answers to management commands. -/
inductive Out where
  | snoop (line : Nat) (write : Bool)
  | hostData (addr : Nat) (data : List Byte)
  | hostAck (addr : Nat)
  | snoopReply (die : DieId) (line : Nat) (kind : Nat) (data : Option (BitVec 1024))
  | cxl (die : DieId) (line : Nat) (kind : CxlKind) (data : BitVec 1024) (bytes : BitVec 128)
  | evict (die : DieId) (line : Nat) (dirty : Option (BitVec 1024))
  | peer (id : Nat) (req : PeerRequest)
  | peerReply (device : BitVec 12) (addr : Nat) (answer : PeerAnswer)
  | remote (m : Msg)
  | abroad (id : Nat) (m : Msg)
  | remoteAnswer (m : Msg) (a : Answer)
  | management (opcode : Nat) (status : Nat) (data : List Word)
  | hostWrite (addr : Nat) (data : List Byte)
  | contribution (group rank opc type seq : Nat) (data : List Byte)
  deriving DecidableEq, Repr

/-- A step of the device caused and not yet taken, with the agents it goes between. Steps between one
pair of agents are taken in order (R139, R248). -/
structure Flight where
  src : Nat
  dst : Nat
  ev : Event
  deriving DecidableEq, Repr

/-- The model's inputs: which agent moves next, or what the world outside does (assumption 1). -/
inductive Turn where
  | event (e : Event)
  | issue (core : CoreId)
  | vpipe (core : CoreId) (x : CtxId)
  | deliver (n : Nat)
  | time (ns : Nat)
  deriving DecidableEq, Repr

/-- Onyx (R320, R321, R386, R393). -/
structure Onyx where
  keys : List (Nat × Option Nat)
  destroyed : List Nat
  counters : Tab Nat
  measurements : Tab (List Byte)
  deriving DecidableEq, Repr

/-- The clock arbiter (R158 to R164, R402): cap and reserved power in W, changes to come, and whether a
re-grant is due. -/
structure Arbiter where
  cap : Nat
  reserved : Nat
  changes : List Change
  due : Bool
  deriving DecidableEq, Repr

/-- A write of the kernel to some bytes of a device line that cannot be performed yet: words of it are on their way, the host
holds them, or a commit has reserved the line (R253, R264, R381). -/
structure LateWrite where
  line : Nat
  data : BitVec 1024
  mask : BitVec 128
  deriving DecidableEq, Repr

/-- THE STATE of one device. Beside the parts the manual names: the reporting port's place in its round
(R351), the messages refused as full that no send unit holds (R137, R312), the kernel writes still to be performed, oldest
first, the one Quartz count that every core has
(assumption 86), the count of engine writes
sent and the highest logical time of those performed, by path class (R276). -/
structure State where
  cores : Tab Core
  clusters : Tab Cluster
  dies : Tab Die
  hbm : Memory
  quartz : Nat
  boot : Nat
  ready : BitVec 64
  device : BitVec 12
  devices : List (BitVec 12)
  gateBase : Nat
  callBase : Option Nat
  launches : Tab Launch
  launchCount : Nat
  actorCount : Nat
  arbiter : Arbiter
  rings : Tab Ring
  ringWaits : List RingWait
  portRing : Nat
  portDone : Nat
  backlog : List Msg
  unmaps : List Nat
  lateWrites : List LateWrite
  ewCount : Nat
  ewTimes : Vector Nat 6
  garnetA : Garnet
  garnetB : Garnet
  onyx : Onyx
  vfs : Tab Vf
  windows : Tab PeerWindow
  peers : Tab PeerRequest
  peerCount : Nat
  failedPorts : List Nat
  abroad : Tab Abroad
  abroadCount : Nat
  farReads : Tab FarRead
  farWrites : Tab FarWrite
  farCount : Nat
  hdm : List Hdm
  bars : List BarWait
  collectives : List Collective
  deviceToken : Option (CoreId × SlotId)
  standby : Bool
  outbox : List Out
  pending : List Flight
  agenda : List Turn
  focus : CoreId
  arg : Arg
  fresh : Nat
  deriving DecidableEq, Repr

/-! ### Reset -/

def Loops.zero : Loops := ⟨0, 0, 0, 0, 0, 0⟩

def Batches.empty : Batches := ⟨1, [], [], 0⟩

def Chunk.none : Chunk :=
  { active := false, serial := false, t0 := 0, reads := [], writes := [], log := [], held := [],
    stales := [], reserved := [], attempts := 0, dieToken := false, deviceToken := false, manyDies := false, committing := false }

/-- Mask registers at reset and at an activation's start: zero, but k0, all ones (R14, R31, R32). -/
def kregsZero : Vector MaskWord 8 := (Vector.replicate 8 0).set 0 (BitVec.allOnes 128)

/-- LEASE at reset (R24). -/
def leaseReset : Word := 2048

/-- CLKGS and CLKEF at reset (R24): matrix 1,200, vector 1,500, network 1,600, memory 1,200 MHz. -/
def clkReset : BitVec 32 := 0x18201E18

/-- A context after cold reset (R32): every register zero but k0, LEASE and CLKGS (R24). Its pc is 0
(assumption 4). -/
def Ctx.reset : Ctx :=
  { act := none, regs := Vector.replicate 32 0, vregs := Vector.replicate 32 0, kregs := kregsZero,
    queues := Vector.replicate 8 [], pc := 0, slot := none, skip := false, loops := .zero, tloops := .zero,
    tvec := 0, tpc := 0, tcause := 0, tval := 0, tslot := 0, fflags := 0, lease := leaseReset,
    self := 0, domain := 0, origin := 0, msghdr := 0, frame := 0, clkgs := clkReset, clkseq := 0,
    stack := [], vq := [], redo := [], wait := .run, blocked := 0, issued := 0, op := none, batches := .empty,
    deadline := none, watch := none, stops := [], sendrec := none, markers := 0, markerTime := 0, fenceTime := 0, chunk := .none,
    acqSys := false, graceEnd := none }

/-- A free slot (R117, R118). -/
def Slot.free : Slot :=
  { actor := 0, former := 0xFFFF, state := .free, domain := 0xFFFF, cls := 0, weight := 0, quota := 0, tvec := 0, regions := [],
    mboxes := [], launch := none, area := 0, saved := none, seq := 0, overflow := none, image := none,
    evicting := none, movedTo := 0 }

/-- A system-actor mailbox with room for 256 messages (R124) and any tag: mb0 takes launch records and
BOOT, mb1 the requests of R354. The lengths of mb1 follow the request's tag (R354). -/
def sysMailbox (entry : Word) : Mailbox :=
  { desc0 := entry, desc1 := 0x88000, enabled := true, waiting := [], running := false }

/-- The system actor of a core (R117, R394): slot 0, domain 0, class 0, with its 16 KiB at 0x7C000
(R122). -/
def Slot.system : Slot :=
  { Slot.free with
    state := .idle, domain := 0, cls := 0, weight := 1, quota := 1,
    regions := [{ base := 0x7C000, size := 0x4000, stack := false, align := 6 }],
    mboxes := [sysMailbox 0, sysMailbox 0] }

def Guard.empty : Guard :=
  { rights := [], withdrawn := [], killed := [], shares := [], caps := [], sendRights := [], admits := [],
    gates := [], gateCounts := [] }

/-- A free accumulator (R308). -/
def Accum.free : Accum := { owner := 0xFFFF, data := [], steps := 0, nsteps := 0 }

def Matrix.reset : Matrix :=
  { queue := [], running := none, drains := [], accs := Vector.replicate 4 .free }

/-- A core after cold reset. Its issuing context is C0 (assumption 4). -/
def Core.reset : Core :=
  { ctxs := Vector.replicate 4 .reset, cur := 0, lclk := 0, cycle := 0, phase := 0, tick := 0,
    spad := [], spadErrs := [], opnd := [], claims := [],
    slots := (Vector.replicate 16 Slot.free).set 0 Slot.system, storeUsed := 0, acceptCount := 0,
    guard := .empty, budgets := [], sends := Vector.replicate 8 none, l1 := [], icache := [],
    utlb := [], posted := [], postedCount := 0, copies := Vector.replicate 128 none, fifo := [],
    copyCount := 0, failedCopies := [], matrix := .reset, timelost := none, stopped := false, restartBy := none,
    faultQueue := [] }

def Cluster.reset : Cluster :=
  { tlb := [], filled := [], misses := [], gatherQueue := [], gathers := [], owedReplies := [] }

def Garnet.empty : Garnet := { records := [], frozen := false }

/-- A die after cold reset: nothing cached, no token, no queue. -/
def Die.reset : Die :=
  { home := [], reserved := [], sliceQueues := [], mts := [], rdc := [], rdcQueue := [], rdcGone := 0, tick := 0, token := none,
    groups := [], collQueue := [], members := [], sealQueue := [], sealPins := [], sessions := [], faultTokens := [],
    garnet := .empty, queues := [] }

/-- A directory entry that nothing has touched, filled from memory at memory time mts (R246, R254). -/
def DirLine.fresh (mts : Nat) : DirLine :=
  { wts := mts, rts := mts, pins := 0, st := .u, wmap := Vector.replicate 16 0,
    owners := Vector.replicate 4 none, sharers := [], cur := none, awaiting := [], performAt := none,
    use := 0 }

/-- A remote-data cache line that holds nothing. -/
def RdcLine.fresh : RdcLine :=
  { dir := .fresh 0, grants := Vector.replicate 16 .none, data := 0, wts := 0, rts := 0, granted := 0,
    mesi := .i, cxl := none }

def Onyx.reset : Onyx := { keys := [], destroyed := [], counters := [], measurements := [] }

/-- The arbiter before bring-up: the default cap and reserved power (R8, R158). -/
def Arbiter.reset : Arbiter := { cap := 3000, reserved := 460, changes := [], due := false }

/-- THE MACHINE AFTER COLD RESET (R32): nothing runs, nothing is placed, memory lists nothing. Bring-up
(R393) starts when the agenda, or time passing, lets it. -/
def State.reset : State :=
  { cores := [], clusters := [], dies := [], hbm := [], quartz := 0, boot := 0, ready := 0,
    device := 0, devices := [], gateBase := 0, callBase := none, launches := [], launchCount := 0, actorCount := 0,
    arbiter := .reset, rings := [], ringWaits := [], portRing := 0, portDone := 0,
    backlog := [], unmaps := [], lateWrites := [], ewCount := 0, ewTimes := Vector.replicate 6 0, garnetA := .empty, garnetB := .empty,
    onyx := .reset, vfs := [], windows := [], peers := [], peerCount := 0, failedPorts := [], abroad := [], abroadCount := 0, farReads := [], farWrites := [],
    farCount := 0, hdm := [], bars := [],
    collectives := [], deviceToken := none, standby := false, outbox := [], pending := [],
    agenda := [], focus := 0, arg := .none, fresh := 0 }

end Sys2Proof.Machine
end

