-- ==== Sys2Proof/Machine/Access.lean ====
section
/-! DEFINITION. Reading and writing the parts of the state: tables, memory bytes, cores, contexts, slots,
dies, clusters; little-endian words; the queue of flights; free values. -/

namespace Sys2Proof.Machine

/-! ### Tables -/

/-- The value of a number in a table. -/
def tabGet {α : Type} : Tab α → Nat → Option α
  | [], _ => none
  | (k, v) :: r, n => if n = k then some v else tabGet r n

/-- The table with a number set, numbers kept rising. -/
def tabSet {α : Type} : Tab α → Nat → α → Tab α
  | [], n, v => [(n, v)]
  | (k, w) :: r, n, v =>
    if n < k then (n, v) :: (k, w) :: r
    else if n = k then (n, v) :: r
    else (k, w) :: tabSet r n v

/-- The table without a number. -/
def tabDel {α : Type} (t : Tab α) (n : Nat) : Tab α := t.filter (fun p => p.1 != n)

/-- The lowest number below a bound that a table does not list. -/
def tabFree {α : Type} (t : Tab α) (bound : Nat) : Option Nat :=
  (List.range bound).find? (fun n => (tabGet t n).isNone)

/-- Every listed value changed. -/
def tabMap {α : Type} (f : Nat → α → α) (t : Tab α) : Tab α := t.map (fun p => (p.1, f p.1 p.2))

/-! ### Memory bytes -/

/-- The byte at an address. -/
def Memory.get : Memory → Nat → Byte
  | [], _ => unlistedByte
  | (k, v) :: r, a => if a = k then v else if a < k then unlistedByte else Memory.get r a

/-- Put a byte before a canonical rest: nothing is listed at the unlisted value. -/
def Memory.cons (a : Nat) (b : Byte) (m : Memory) : Memory :=
  if b = unlistedByte then m else (a, b) :: m

/-- The memory with one byte written; the canonical form is kept. -/
def Memory.set : Memory → Nat → Byte → Memory
  | [], a, b => Memory.cons a b []
  | (k, v) :: r, a, b =>
    if a < k then Memory.cons a b ((k, v) :: r)
    else if a = k then Memory.cons a b r
    else (k, v) :: Memory.set r a b

/-- n bytes from an address up. -/
def Memory.bytes (m : Memory) (a n : Nat) : List Byte := (List.range n).map (fun i => m.get (a + i))

/-- Bytes written from an address up. -/
def Memory.setBytes : Memory → Nat → List Byte → Memory
  | m, _, [] => m
  | m, a, b :: r => Memory.setBytes (m.set a b) (a + 1) r

/-- n bytes from an address set to zero. -/
def Memory.clear (m : Memory) (a n : Nat) : Memory :=
  m.filter (fun p => p.1 < a || a + n ≤ p.1)

/-! ### Little-endian values (R3) -/

/-- The number of some bytes, lowest first. -/
def leNat : List Byte → Nat
  | [] => 0
  | b :: r => b.toNat + 256 * leNat r

/-- n bytes of a number, lowest first. -/
def leBytes : Nat → Nat → List Byte
  | 0, _ => []
  | n + 1, v => BitVec.ofNat 8 v :: leBytes n (v / 256)

def leWord (bs : List Byte) : Word := BitVec.ofNat 64 (leNat bs)

/-- The 64-bit words of some bytes. -/
def leWords : Nat → List Byte → List Word
  | 0, _ => []
  | n + 1, bs => leWord (bs.take 8) :: leWords n (bs.drop 8)

def wordBytes (w : Word) : List Byte := leBytes 8 w.toNat

/-- Bits hi to lo of a word, as a number (R62). -/
def bitsOf {n : Nat} (w : BitVec n) (hi lo : Nat) : Nat := w.toNat / 2 ^ lo % 2 ^ (hi - lo + 1)

/-- Bit n of a word. -/
def bitOf {n : Nat} (w : BitVec n) (i : Nat) : Bool := w.getLsbD i

/-- A number as a word (R62: values are exact until they are wrapped). -/
def word (n : Nat) : Word := BitVec.ofNat 64 n

/-- An integer as a word, wrapped. -/
def wordInt (i : Int) : Word := BitVec.ofInt 64 i

/-! ### Cores, contexts, slots -/

/-- The nominal vector clock, which is the core clock, in steps of 50 MHz (R8, R24). -/
def nominalClock : Nat := 30

/-- A core that nothing has touched: as reset left it, but that CYCLE has counted since (R24, R165). -/
def Core.untouched (ns : Nat) : Core :=
  { Core.reset with cycle := ns * nominalClock / 20, phase := ns * nominalClock % 20 }

def State.core (s : State) (c : CoreId) : Core := (tabGet s.cores c.val).getD (.untouched s.quartz)

def State.setCore (s : State) (c : CoreId) (k : Core) : State :=
  { s with cores := tabSet s.cores c.val k }

def State.mapCore (s : State) (c : CoreId) (f : Core → Core) : State := s.setCore c (f (s.core c))

def State.die (s : State) (d : DieId) : Die := (tabGet s.dies d.val).getD .reset

def State.mapDie (s : State) (d : DieId) (f : Die → Die) : State :=
  { s with dies := tabSet s.dies d.val (f (s.die d)) }

def State.cluster (s : State) (g : ClusterId) : Cluster := (tabGet s.clusters g.val).getD .reset

def State.mapCluster (s : State) (g : ClusterId) (f : Cluster → Cluster) : State :=
  { s with clusters := tabSet s.clusters g.val (f (s.cluster g)) }

def State.ctx (s : State) (c : CoreId) (x : CtxId) : Ctx := (s.core c).ctxs[x]

def Core.mapCtx (k : Core) (x : CtxId) (f : Ctx → Ctx) : Core :=
  { k with ctxs := k.ctxs.set x (f k.ctxs[x]) }

def State.mapCtx (s : State) (c : CoreId) (x : CtxId) (f : Ctx → Ctx) : State :=
  s.mapCore c (·.mapCtx x f)

def State.slot (s : State) (c : CoreId) (n : SlotId) : Slot := (s.core c).slots[n]

def State.mapSlot (s : State) (c : CoreId) (n : SlotId) (f : Slot → Slot) : State :=
  s.mapCore c (fun k => { k with slots := k.slots.set n (f k.slots[n]) })

/-- The context whose instruction executes: the issuing context of the core in focus (R136). -/
def State.hereX (s : State) : CtxId := (s.core s.focus).cur

def State.here (s : State) : Ctx := s.ctx s.focus s.hereX

def State.mapHere (s : State) (f : Ctx → Ctx) : State := s.mapCtx s.focus s.hereX f

/-- The launch of the actor whose activation a context holds. -/
def State.launchOf (s : State) (c : CoreId) (y : Ctx) : Option Nat := y.act.bind (fun a => (s.slot c a.slot).launch)

/-- The core in focus. -/
def State.hereCore (s : State) : Core := s.core s.focus

/-! ### Numbering (R6, R7) -/

/-- The die of a core. -/
def dieOf (c : CoreId) : DieId := ⟨c.val / 256, by omega⟩

/-- A core from any number, modulo the device. -/
def coreOf (n : Nat) : CoreId := ⟨n % 2048, by omega⟩

def dieNum (n : Nat) : DieId := ⟨n % 8, by omega⟩

def slotOf (n : Nat) : SlotId := ⟨n % 16, by omega⟩

def ctxOf (n : Nat) : CtxId := ⟨n % 4, by omega⟩

/-- The cluster of a core: 32 cores, two mesh rows. -/
def clusterOf (c : CoreId) : ClusterId := ⟨c.val / 32, by omega⟩

/-- The die of a cluster. -/
def clusterDie (g : ClusterId) : DieId := ⟨g.val / 8, by omega⟩

/-- The kernel core of a die. -/
def kernelCore (d : DieId) : CoreId := ⟨d.val * 256, by omega⟩

def isKernelCore (c : CoreId) : Bool := c.val % 256 == 0

/-- The core of a cluster's translation service actor. -/
def serviceCore (g : ClusterId) : CoreId := ⟨g.val * 32 + 1, by omega⟩

/-- The core that fronts a cluster's gather engine. -/
def gatherCore (g : ClusterId) : CoreId := ⟨g.val * 32, by omega⟩

/-- The quad of a core within its die (R161). -/
def quadOf (c : CoreId) : Nat := (c.val % 256 / 16 / 2) * 8 + c.val % 16 / 2

/-- The cores of a quad of a die. -/
def quadCores (d : DieId) (q : Nat) : List CoreId :=
  [0, 1, 16, 17].map (fun i => coreOf (d.val * 256 + (2 * (q % 64 / 8)) * 16 + 2 * (q % 8) + i))

/-- Endpoint of a port of a core of this device (R127). -/
def endpointOf (core port mbox : Nat) : Word :=
  word (0xFFF * 2 ^ 36 + core % 2048 * 2 ^ 25 + port % 32 * 2 ^ 20 + mbox % 8 * 2 ^ 17)

/-- CORE (R25). -/
def State.coreReg (s : State) (c : CoreId) : Word := word (s.device.toNat * 2 ^ 32 + c.val)

/-! ### Free values and flights -/

/-- The next free value (assumption 3), 64 bits, and the state that will not give it again. -/
def State.takeFree (s : State) : Word × State :=
  (Config.freeWord s.fresh, { s with fresh := s.fresh + 1 })

/-- A step caused, to be taken later (R248, R137). -/
def State.send (s : State) (src dst : Nat) (row : Instr) (arg : Arg) : State :=
  { s with pending := s.pending ++ [{ src, dst, ev := { row, arg } }] }

def State.tell (s : State) (o : Out) : State := { s with outbox := s.outbox ++ [o] }

/-- Agent numbers of flights: cores, then units of dies, the package, and whoever reads from afar. -/
def agentCore (c : CoreId) : Nat := c.val
def agentRdc (d : DieId) : Nat := 2056 + d.val
def agentFront (d : DieId) : Nat := 2064 + d.val
def agentPackage : Nat := 2072
def agentReader (id : Nat) : Nat := 131072 + id

/-! ### Registers -/

/-- A scalar register as an operand: s0 reads as zero (R12). -/
def Ctx.reg (x : Ctx) (n : Fin 32) : Word := if n.val = 0 then 0 else x.regs[n]

/-- A scalar register written: a write to s0 is discarded (R12). -/
def Ctx.setReg (x : Ctx) (n : Fin 32) (v : Word) : Ctx :=
  if n.val = 0 then x else { x with regs := x.regs.set n v }

/-- A vector register. -/
def Ctx.vreg (x : Ctx) (n : Fin 32) : VecWord := x.vregs[n]

def Ctx.setVreg (x : Ctx) (n : Fin 32) (v : VecWord) : Ctx := { x with vregs := x.vregs.set n v }

/-- A mask register: k0 reads as all ones (R14). -/
def Ctx.mask (x : Ctx) (n : Fin 8) : MaskWord :=
  if n.val = 0 then BitVec.allOnes 128 else x.kregs[n]

/-- A mask register written; no instruction names k0 (R14). -/
def Ctx.setMask (x : Ctx) (n : Fin 8) (v : MaskWord) : Ctx :=
  if n.val = 0 then x else { x with kregs := x.kregs.set n v }

/-- Depth of the domain stack (R24). -/
def Ctx.ddepth (x : Ctx) : Nat := x.stack.length

/-- The queue of a context. -/
def Ctx.queue (x : Ctx) (n : Fin 8) : List Word := x.queues[n]

def Ctx.setQueue (x : Ctx) (n : Fin 8) (q : List Word) : Ctx := { x with queues := x.queues.set n q }

/-- Append an entry (R16). -/
def Ctx.push (x : Ctx) (n : Fin 8) (v : Word) : Ctx := x.setQueue n (x.queue n ++ [v])

/-- Entries a queue holds at most (R10). -/
def queueRoom : Nat := 8

/-! ### FFLAGS -/

/-- Sticky flags raised by an operation (R26). -/
def Ctx.raise (x : Ctx) (f : BitVec 5) : Ctx := { x with fflags := x.fflags ||| f }

end Sys2Proof.Machine
end

