-- ==== Sys2Proof/Machine/Flags.lean ====
section
/-! DEFINITION. Exact numbers, their single rounding, and every flag of FFLAGS (R64 to R83): integers of
a type, the IEEE formats, M8, the interchange formats, DSCALE and CLAMP, comparison and
conversion. -/

namespace Sys2Proof.Machine

/-! ### Flags (R26, R69) -/

def flagNX : BitVec 5 := 0b00001
def flagUF : BitVec 5 := 0b00010
def flagOF : BitVec 5 := 0b00100
def flagDZ : BitVec 5 := 0b01000
def flagNV : BitVec 5 := 0b10000

def flagIf (c : Bool) (f : BitVec 5) : BitVec 5 := if c then f else 0

/-! ### Integers (R64, R65) -/

/-- The low bits of a number as a value of an integer type: signed for i, unsigned for n (R12). -/
def intOf (t : Ty) (n : Nat) : Int :=
  let w := t.width
  let v := n % 2 ^ w
  if t.isSigned && 2 ^ (w - 1) ≤ v then (v : Int) - (2 ^ w : Nat) else v

/-- wrap(x, T) as the w low bits (R62). -/
def wrapBits (w : Nat) (x : Int) : Nat := (x % ((2 ^ w : Nat) : Int)).toNat

/-- Least and greatest values of an integer type (R64). -/
def intMin (t : Ty) : Int := if t.isSigned then -((2 ^ (t.width - 1) : Nat) : Int) else 0

def intMax (t : Ty) : Int :=
  if t.isSigned then ((2 ^ (t.width - 1) : Nat) : Int) - 1 else ((2 ^ t.width : Nat) : Int) - 1

/-- sx(x, w) as 64 bits (R62). -/
def sx64 (w n : Nat) : Word :=
  let v := n % 2 ^ w
  if 2 ^ (w - 1) ≤ v then BitVec.ofInt 64 ((v : Int) - (2 ^ w : Nat)) else BitVec.ofNat 64 v

/-- zx(x, w) as 64 bits (R62). -/
def zx64 (w n : Nat) : Word := BitVec.ofNat 64 (n % 2 ^ w)

/-- The bits of a result of type T written to 64 bits: sign-extended for i types, zero-extended for n
types, zero above the value for float types (R12). -/
def extend (t : Ty) (bits : Nat) : Word :=
  if t.isSigned then sx64 t.width bits else zx64 t.width bits

/-! ### Exact real numbers -/

/-- A number as the formats hold it: NaN (signalling or quiet), an infinity, or ± m × 2^e, where m = 0
gives the signed zeros. -/
inductive Num where
  | nan (signalling : Bool)
  | inf (neg : Bool)
  | fin (neg : Bool) (m : Nat) (e : Int)
  deriving DecidableEq, Repr

namespace Num

def isNan : Num → Bool
  | .nan _ => true
  | _ => false

def isSignalling : Num → Bool
  | .nan s => s
  | _ => false

def isInf : Num → Bool
  | .inf _ => true
  | _ => false

def isZero : Num → Bool
  | .fin _ m _ => m == 0
  | _ => false

def isNeg : Num → Bool
  | .nan _ => false
  | .inf n => n
  | .fin n _ _ => n

def neg : Num → Num
  | .nan s => .nan s
  | .inf n => .inf (!n)
  | .fin n m e => .fin (!n) m e

def abs : Num → Num
  | .nan s => .nan s
  | .inf _ => .inf false
  | .fin _ m e => .fin false m e

/-- × 2^k; zeros, infinities and NaN are unchanged (R71). -/
def scale (k : Int) : Num → Num
  | .fin n m e => .fin n m (e + k)
  | x => x

/-- An integer exactly. -/
def ofInt (i : Int) : Num := .fin (i < 0) i.natAbs 0

end Num

/-- ± m × 2^e brought to exponent e' ≤ e, as an integer. -/
def alignTo (neg : Bool) (m : Nat) (e e' : Int) : Int :=
  let v : Int := (m * 2 ^ (e - e').toNat : Nat)
  if neg then -v else v

/-- Order of two finite numbers: −1, 0 or 1. Zeros of either sign are equal. -/
def cmpFin (n1 : Bool) (m1 : Nat) (e1 : Int) (n2 : Bool) (m2 : Nat) (e2 : Int) : Int :=
  let e := min e1 e2
  let a := alignTo n1 m1 e1 e
  let b := alignTo n2 m2 e2 e
  if a < b then -1 else if a = b then 0 else 1

/-- a < b for numbers that are not NaN. -/
def Num.lt : Num → Num → Bool
  | .inf n, .inf m => n && !m
  | .inf n, .fin _ _ _ => n
  | .fin _ _ _, .inf m => !m
  | .fin n1 m1 e1, .fin n2 m2 e2 => cmpFin n1 m1 e1 n2 m2 e2 < 0
  | _, _ => false

/-- a = b for numbers that are not NaN; +0 equals −0 (R92). -/
def Num.eqv : Num → Num → Bool
  | .inf n, .inf m => n == m
  | .fin n1 m1 e1, .fin n2 m2 e2 => cmpFin n1 m1 e1 n2 m2 e2 == 0
  | _, _ => false

/-! ### Formats (R67, R78) -/

/-- A binary format: exponent bits, fraction bits, bias, code of its largest finite magnitude, whether
it has infinities at the top exponent, and the NaN it produces, if any. -/
structure Fmt where
  eb : Nat
  fb : Nat
  bias : Nat
  maxCode : Nat
  hasInf : Bool
  nanCode : Option Nat
  deriving DecidableEq, Repr

def fmtF16 : Fmt := ⟨5, 10, 15, 0x7BFF, true, some 0x7E00⟩
def fmtBf16 : Fmt := ⟨8, 7, 127, 0x7F7F, true, some 0x7FC0⟩
def fmtF32 : Fmt := ⟨8, 23, 127, 0x7F7FFFFF, true, some 0x7FC00000⟩
def fmtF64 : Fmt := ⟨11, 52, 1023, 0x7FEFFFFFFFFFFFFF, true, some 0x7FF8000000000000⟩
def fmtE5m2 : Fmt := ⟨5, 2, 15, 0x7B, true, some 0x7E⟩
def fmtE4m3 : Fmt := ⟨4, 3, 7, 0x7E, false, some 0x7F⟩
def fmtE3m2 : Fmt := ⟨3, 2, 3, 0x1F, false, none⟩
def fmtE2m3 : Fmt := ⟨2, 3, 1, 0x1F, false, none⟩
def fmtE2m1 : Fmt := ⟨2, 1, 1, 0x07, false, none⟩

/-- The IEEE format of a type; f32 stands for the types that have none. -/
def fmtOf : Ty → Fmt
  | .f16 => fmtF16
  | .bf16 => fmtBf16
  | .f64 => fmtF64
  | _ => fmtF32

def packedFmt : Packed → Fmt
  | .e4m3 => fmtE4m3
  | .e5m2 => fmtE5m2
  | .e3m2 => fmtE3m2
  | .e2m3 => fmtE2m3
  | .e2m1 => fmtE2m1

/-- Bits of a value with its sign. -/
def Fmt.bits (f : Fmt) : Nat := f.eb + f.fb + 1

/-- The number of a code (R67, R78). -/
def Fmt.decode (f : Fmt) (code : Nat) : Num :=
  let neg := code / 2 ^ (f.eb + f.fb) % 2 == 1
  let mag := code % 2 ^ (f.eb + f.fb)
  let ex := mag / 2 ^ f.fb
  let fr := mag % 2 ^ f.fb
  if f.hasInf && ex == 2 ^ f.eb - 1 then
    if fr == 0 then .inf neg else .nan (fr < 2 ^ (f.fb - 1))
  else if f.nanCode == some mag then .nan false
  else if ex == 0 then .fin neg fr (1 - (f.bias : Int) - f.fb)
  else .fin neg (2 ^ f.fb + fr) ((ex : Int) - f.bias - f.fb)

/-- A magnitude rounded once to an integer of units 2^u: the integer, and whether it was exact. -/
def roundUnits (rm : Rounding) (neg : Bool) (m : Nat) (e u : Int) : Nat × Bool :=
  if u ≤ e then (m * 2 ^ (e - u).toNat, true)
  else
    let sh := (u - e).toNat
    let q := m / 2 ^ sh
    let r := m % 2 ^ sh
    let half := 2 ^ (sh - 1)
    let up :=
      match rm with
      | .rne => half < r || (r == half && q % 2 == 1)
      | .rz => false
      | .rd => neg && r != 0
      | .ru => !neg && r != 0
    (if up then q + 1 else q, r == 0)

/-- A non-zero magnitude m × 2^e rounded once to a format (R68, R70): its code without sign, and the
flags. UF is judged after rounding with an unbounded exponent. -/
def Fmt.roundMag (f : Fmt) (rm : Rounding) (neg : Bool) (m : Nat) (e : Int) : Nat × BitVec 5 :=
  let top : Int := e + Nat.log2 m
  let emin : Int := 1 - f.bias
  let u : Int := max (top - f.fb) (emin - f.fb)
  let (r, exact) := roundUnits rm neg m e u
  let code := ((u + f.fb + f.bias - 1).toNat) * 2 ^ f.fb + r
  let tiny :=
    top < emin &&
      (let (r', _) := roundUnits rm neg m e (top - f.fb)
       !(top = emin - 1 && r' = 2 ^ (f.fb + 1)))
  if f.maxCode < code then
    let inf := f.maxCode + 1
    let up :=
      match rm with
      | .rne => true
      | .rz => false
      | .rd => neg
      | .ru => !neg
    (if up then inf else f.maxCode, flagOF ||| flagNX)
  else (code, flagIf (!exact) flagNX ||| flagIf (tiny && !exact) flagUF)

/-- A number as a code of a format: rounded once; NaN is the format's NaN (R68, R70). -/
def Fmt.encode (f : Fmt) (rm : Rounding) (x : Num) : Nat × BitVec 5 :=
  let sign (neg : Bool) (c : Nat) := if neg then 2 ^ (f.eb + f.fb) + c else c
  match x with
  | .nan _ => (f.nanCode.getD 0, 0)
  | .inf n => (sign n (f.maxCode + 1), 0)
  | .fin n 0 _ => (sign n 0, 0)
  | .fin n (m + 1) e =>
    let (c, fl) := f.roundMag rm n (m + 1) e
    (sign n c, fl)

/-! ### M8 (R72 to R76) -/

/-- The magnitude of an M8 payload 1–127 in units of 2⁻¹¹. -/
def m8Units (p : Nat) : Nat :=
  let n := Nat.log2 p
  let tail := p % 2 ^ n
  if n = 0 then 2 ^ 22
  else if n = 1 then (if tail = 1 then 2 ^ 21 else 1)
  else
    let z := 6 - n
    let h := tail / 2 ^ (n - 1) % 2
    let b := tail / 2 ^ (n - 2) % 2
    let fr := tail % 2 ^ (n - 2)
    let e : Int := if h = 1 then 2 * (z : Int) + b else -(2 * (z : Int) + 2) + b
    (2 ^ (n - 2) + fr) * 2 ^ (e + 11 - (n - 2 : Nat)).toNat

/-- The number of an M8 code (R72). -/
def m8Decode (code : Nat) : Num :=
  let p := code % 128
  let s := code / 128 % 2 == 1
  if p = 0 then (if s then .nan false else .fin false 0 0) else .fin s (m8Units p) (-11)

/-- Whether an M8 payload counts as having an even last fraction bit, and its E as even (R74). -/
def m8LastZero (p : Nat) : Bool :=
  let n := Nat.log2 p
  p = 0 || n ≤ 2 || p % 2 = 0

def m8EvenE (p : Nat) : Bool := p = 0 || Nat.log2 (m8Units p) % 2 == 1

/-- The candidates at or below, and above, num / den units of 2⁻¹¹: payloads by search (R74). -/
def m8Near (num den : Nat) : Nat × Nat :=
  (List.range 128).foldl (fun (lo, hi) p =>
    if p = 0 then (lo, hi)
    else
      let v := m8Units p
      let lo' := if v * den ≤ num && (lo = 0 || m8Units lo < v) then p else lo
      let hi' := if num < v * den && (hi = 0 || v < m8Units hi) then p else hi
      (lo', hi')) (0, 0)

/-- A number to M8 by the nearest rule (R74, R75). -/
def m8Encode (x : Num) : Nat × BitVec 5 :=
  match x with
  | .nan s => (0x80, flagIf s flagNV)
  | .inf n => (if n then 0x81 else 0x01, flagOF ||| flagNX)
  | .fin n m e =>
    if m = 0 then (0, 0)
    else
      let num := m * 2 ^ (e + 11).toNat
      let den := 2 ^ (-(e + 11)).toNat
      if 2 ^ 22 * den < num then (if n then 0x81 else 0x01, flagOF ||| flagNX)
      else
        let (lo, hi) := m8Near num den
        let vlo := if lo = 0 then 0 else m8Units lo
        if vlo * den = num then (if n then 128 + lo else lo, 0)
        else
          let vhi := m8Units hi
          let twice := 2 * num
          let mid := (vlo + vhi) * den
          let p :=
            if twice < mid then lo
            else if mid < twice then hi
            else if m8LastZero lo && m8LastZero hi then (if m8EvenE lo then lo else hi)
            else if m8LastZero lo then lo else hi
          let fl := flagNX ||| flagIf (num < den) flagUF
          (if p = 0 then 0 else if n then 128 + p else p, fl)

/-! ### Types as numbers -/

/-- The number a type's bits stand for (R64, R67, R72). -/
def numOf (t : Ty) (bits : Nat) : Num :=
  match t with
  | .f16 | .bf16 | .f32 | .f64 => (fmtOf t).decode (bits % 2 ^ t.width)
  | .m8 => m8Decode (bits % 256)
  | t => .ofInt (intOf t bits)

/-- The default NaN of a type (R67, R72). -/
def defaultNan : Ty → Nat
  | .m8 => 0x80
  | t => (fmtOf t).nanCode.getD 0

/-- The code of 1 and of −1 in a type, for the clamps. -/
def oneCode (t : Ty) : Nat :=
  match t with
  | .m8 => 0x60
  | t => (fmtOf t).bias * 2 ^ (fmtOf t).fb

def signBit (t : Ty) : Nat := 2 ^ (t.width - 1)

/-- CLAMP on a rounded value (R71). -/
def clampBits (t : Ty) (c : Clamp) (bits : Nat) : Nat :=
  let v := numOf t bits
  if v.isNan then bits
  else
    let one := Num.fin false 1 0
    match c with
    | .none => bits
    | .relu => if v.isNeg then 0 else bits
    | .sat01 => if v.isNeg && !v.isZero then 0 else if one.lt v then oneCode t else bits
    | .sat11 =>
      if one.lt v then oneCode t else if v.lt one.neg then signBit t + oneCode t else bits

/-- DSCALE as an integer (R43). -/
def dscaleInt (d : BitVec 4) : Int := d.toInt

/-- Steps 3 to 5 of R44 for a float type: scale the exact result, round it once to nearest even, and
clamp. -/
def finishFloat (t : Ty) (dscale : BitVec 4) (clamp : Clamp) (x : Num) (fl : BitVec 5) :
    Nat × BitVec 5 :=
  let (b, fr) := (fmtOf t).encode .rne (x.scale (dscaleInt dscale))
  (clampBits t clamp b, fl ||| fr)

/-- Abs and negate of a source (R44). -/
def SrcMod.apply (m : SrcMod) (x : Num) : Num :=
  let y := if m.abs then x.abs else x
  if m.neg then y.neg else y

/-! ### Exact operations, with the flags of the operation itself (R68, R69) -/

/-- NV for a signalling operand. -/
def nvOf (xs : List Num) : BitVec 5 := flagIf (xs.any Num.isSignalling) flagNV

/-- The exact sum of finite numbers: zero takes the sign − only when every operand is −0 (R68). -/
def sumFin (xs : List (Bool × Nat × Int)) : Num :=
  let e := xs.foldl (fun a x => min a x.2.2) (xs.head?.elim 0 (·.2.2))
  let v := xs.foldl (fun a x => a + alignTo x.1 x.2.1 x.2.2 e) (0 : Int)
  if v = 0 then .fin (!xs.isEmpty && xs.all (·.1) && xs.all (fun x => x.2.1 == 0)) 0 0
  else .fin (v < 0) v.natAbs e

/-- The exact sum of numbers: NaN operands, then opposite infinities (NV), then the sum. -/
def sumNum (xs : List Num) : Num × BitVec 5 :=
  let nv := nvOf xs
  let clash := xs.contains (.inf false) && xs.contains (.inf true)
  if clash then (.nan false, nv ||| flagNV)
  else if xs.any Num.isNan then (.nan false, nv)
  else if xs.contains (.inf false) then (.inf false, nv)
  else if xs.contains (.inf true) then (.inf true, nv)
  else (sumFin (xs.filterMap (fun x => match x with | .fin n m e => some (n, m, e) | _ => none)), nv)

/-- The exact product of numbers: 0 × ∞ is NaN with NV, whatever else stands there. -/
def mulNum (xs : List Num) : Num × BitVec 5 :=
  let nv := nvOf xs
  let sign := xs.foldl (fun a x => a != x.isNeg) false
  if xs.any Num.isInf && xs.any Num.isZero then (.nan false, nv ||| flagNV)
  else if xs.any Num.isNan then (.nan false, nv)
  else if xs.any Num.isInf then (.inf sign, nv)
  else
    (xs.foldl (fun a x =>
      match a, x with
      | .fin _ m e, .fin _ m' e' => .fin sign (m * m') (e + e')
      | a, _ => a) (.fin sign 1 0), nv)

def fAdd (a b : Num) : Num × BitVec 5 := sumNum [a, b]

def fSub (a b : Num) : Num × BitVec 5 := sumNum [a, b.neg]

def fMul (a b : Num) : Num × BitVec 5 := mulNum [a, b]

/-- The exact product of factors, plus c: an invalid product raises NV whatever c holds (R69). -/
def fMulAdd (factors : List Num) (c : Num) : Num × BitVec 5 :=
  let (p, f) := mulNum factors
  let (r, g) := sumNum [p, c]
  (r, f ||| g)

/-- Quotient bits kept by a division or a root before the sticky bit: more than twice any format's
precision, so that the one rounding sees the exact result's side. -/
def guardBits : Nat := 140

/-- The exact quotient, or its first bits with a last bit 1 for the rest, which rounds as the quotient
does. -/
def fDiv (a b : Num) : Num × BitVec 5 :=
  let nv := nvOf [a, b]
  let s := a.isNeg != b.isNeg
  if a.isNan || b.isNan then (.nan false, nv)
  else
    match a, b with
    | .inf _, .inf _ => (.nan false, flagNV)
    | .inf _, _ => (.inf s, 0)
    | _, .inf _ => (.fin s 0 0, 0)
    | .fin _ m e, .fin _ m' e' =>
      if m' = 0 then (if m = 0 then (.nan false, flagNV) else (.inf s, flagDZ))
      else if m = 0 then (.fin s 0 0, 0)
      else
        let sh := guardBits + Nat.log2 m'
        let q := m * 2 ^ sh / m'
        let r := m * 2 ^ sh % m'
        (.fin s (2 * q + (if r = 0 then 0 else 1)) (e - e' - sh - 1), 0)
    | _, _ => (.nan false, nv)

/-- ⌊√n⌋, bit by bit from 2^k down. -/
def isqrtFrom : Nat → Nat → Nat → Nat
  | 0, _, acc => acc
  | k + 1, n, acc =>
    let t := acc + 2 ^ k
    isqrtFrom k n (if t * t ≤ n then t else acc)

def isqrt (n : Nat) : Nat := isqrtFrom (Nat.log2 n / 2 + 1) n 0

/-- The root of m × 2^e, with a sticky last bit. -/
def sqrtFin (m : Nat) (e : Int) : Num :=
  let sh : Nat := 2 * guardBits + (e % 2).toNat
  let n := m * 2 ^ sh
  let q := isqrt n
  .fin false (2 * q + (if q * q = n then 0 else 1)) ((e - sh) / 2 - 1)

def fSqrt (a : Num) : Num × BitVec 5 :=
  match a with
  | .nan s => (.nan false, flagIf s flagNV)
  | .inf n => if n then (.nan false, flagNV) else (.inf false, 0)
  | .fin n m e =>
    if m = 0 then (.fin n 0 0, 0) else if n then (.nan false, flagNV) else (sqrtFin m e, 0)

/-- IEEE minimum: −0 below +0, any NaN gives NaN (R91). -/
def fMin (a b : Num) : Num × BitVec 5 :=
  if a.isNan || b.isNan then (.nan false, nvOf [a, b])
  else if a.lt b || (a.eqv b && a.isNeg) then (a, 0) else (b, 0)

def fMax (a b : Num) : Num × BitVec 5 :=
  if a.isNan || b.isNan then (.nan false, nvOf [a, b])
  else if b.lt a || (a.eqv b && !a.isNeg) then (a, 0) else (b, 0)

/-- 1/a (R175). -/
def fRcp (a : Num) : Num × BitVec 5 := fDiv (.fin false 1 0) a

/-- 1/√a (R175): the root of 2^2k / m for an even exponent. -/
def fRsq (a : Num) : Num × BitVec 5 :=
  match a with
  | .nan s => (.nan false, flagIf s flagNV)
  | .inf n => if n then (.nan false, flagNV) else (.fin false 0 0, 0)
  | .fin n m e =>
    if m = 0 then (.inf n, flagDZ)
    else if n then (.nan false, flagNV)
    else
      let m' := m * 2 ^ (e % 2).toNat
      let e' := e - e % 2
      let k := guardBits + Nat.log2 m'
      let q := isqrt (2 ^ (2 * k) / m')
      (.fin false (2 * q + (if q * q * m' = 2 ^ (2 * k) then 0 else 1)) (-(e' / 2) - k - 1), 0)

/-! ### Comparisons (R92, R177) -/

/-- Result and NV of a comparison: quiet relations raise NV for a signalling NaN, ordered ones for any
NaN. -/
def cmpEq (a b : Num) : Bool × BitVec 5 := (a.eqv b, nvOf [a, b])

def cmpNe (a b : Num) : Bool × BitVec 5 := (!a.eqv b, nvOf [a, b])

def nvAny (a b : Num) : BitVec 5 := flagIf (a.isNan || b.isNan) flagNV

def cmpLt (a b : Num) : Bool × BitVec 5 := (a.lt b, nvAny a b)

def cmpLe (a b : Num) : Bool × BitVec 5 := (a.lt b || a.eqv b, nvAny a b)

def cmpUn (a b : Num) : Bool × BitVec 5 := (a.isNan || b.isNan, nvOf [a, b])

/-! ### Conversions (R66, R70, R74 to R76, R79, R93) -/

/-- A number to an integer type: round, then saturate (R66). -/
def toInt (t : Ty) (rm : Rounding) (x : Num) : Nat × BitVec 5 :=
  let w := t.width
  match x with
  | .nan _ => (0, flagNV)
  | .inf n => (wrapBits w (if n then intMin t else intMax t), flagNV)
  | .fin n m e =>
    let (r, exact) := roundUnits rm n m e 0
    let v : Int := if n then -(r : Int) else r
    if v < intMin t then (wrapBits w (intMin t), flagNV)
    else if intMax t < v then (wrapBits w (intMax t), flagNV)
    else (wrapBits w v, flagIf (!exact) flagNX)

/-- A number to a plain type, with DSCALE before and CLAMP after the rounding where the target has
them (R71, R93). -/
def convertTo (t : Ty) (rm : Rounding) (dscale : BitVec 4) (clamp : Clamp) (x : Num) :
    Nat × BitVec 5 :=
  match t with
  | .f16 | .bf16 | .f32 | .f64 =>
    let (b, fl) := (fmtOf t).encode rm (x.scale (dscaleInt dscale))
    (clampBits t clamp b, nvOf [x] ||| fl)
  | .m8 =>
    let (b, fl) := m8Encode (x.scale (dscaleInt dscale))
    (clampBits .m8 clamp b, fl)
  | t => toInt t rm x

/-- The source of a conversion: an integer is negated exactly, so that 0 stays +0 (R93, R179). -/
def convertSource (src : Ty) (m : SrcMod) (bits : Nat) : Num :=
  if src.isInt then .ofInt (if m.neg then -intOf src bits else intOf src bits)
  else SrcMod.apply m (numOf src bits)

/-- A plain value of one type to another (R93): integer to integer saturates without a flag. -/
def convert (src dst : Ty) (rm : Rounding) (dscale : BitVec 4) (clamp : Clamp) (m : SrcMod)
    (bits : Nat) : Nat × BitVec 5 :=
  let x := convertSource src m bits
  let (b, fl) := convertTo dst rm dscale clamp x
  if src.isInt && dst.isInt then (b, 0) else (b, fl)

/-- A number to an interchange format: nearest even, saturating unless E5M2 keeps infinity (R79). -/
def toPacked (p : Packed) (keepInf : Bool) (x : Num) : Nat × BitVec 5 :=
  let f := packedFmt p
  let sign (neg : Bool) (c : Nat) := if neg then 2 ^ (f.eb + f.fb) + c else c
  match x with
  | .nan s =>
    match f.nanCode with
    | some c => (c, flagIf s flagNV)
    | none => (0, flagNV)
  | .inf n => (sign n (if keepInf then f.maxCode + 1 else f.maxCode), flagOF ||| flagNX)
  | .fin n m e =>
    if m = 0 then (sign n 0, 0)
    else
      let (c, fl) := f.roundMag .rne n m e
      (sign n (if f.maxCode < c && !keepInf then f.maxCode else c), fl)

/-- An interchange code to a float type, exactly (R79). -/
def fromPacked (p : Packed) (t : Ty) (code : Nat) : Nat :=
  let f := packedFmt p
  ((fmtOf t).encode .rne (f.decode (code % 2 ^ f.bits))).1

/-- A NaN as a quiet one: no conversion out of an interchange format signals (R79). -/
def Num.quiet : Num → Num
  | .nan _ => .nan false
  | x => x

/-- FCLASS (R94): one bit of ten. -/
def classify (t : Ty) (bits : Nat) : Nat :=
  match numOf t bits with
  | .nan s => if s then 2 ^ 8 else 2 ^ 9
  | .inf n => if n then 1 else 2 ^ 7
  | .fin n m e =>
    if m = 0 then (if n then 2 ^ 3 else 2 ^ 4)
    else
      let normal := t == .m8 || (1 - ((fmtOf t).bias : Int)) ≤ e + Nat.log2 m
      if normal then (if n then 2 else 2 ^ 6) else (if n then 2 ^ 2 else 2 ^ 5)

/-- An immediate read as a float or m8 type (R40): from f32 in the 96-bit form, from f64 in the
128-bit form, rounded once, no flag; a signalling NaN stays one. -/
def immFloat (t : Ty) (imm : Imm) : Nat :=
  let x :=
    match imm with
    | .none => Num.fin false 0 0
    | .w32 v => fmtF32.decode v.toNat
    | .w64 v => fmtF64.decode v.toNat
  match t with
  | .m8 => (m8Encode x).1
  | t =>
    if x.isSignalling then (2 ^ (fmtOf t).eb - 1) * 2 ^ (fmtOf t).fb + 1
    else ((fmtOf t).encode .rne x).1

/-- The bits of an immediate read in a type (R40): the low bits for an integer type. -/
def immBits (t : Ty) (imm : Imm) : Nat :=
  if t.isInt then imm.word.toNat % 2 ^ t.width else immFloat t imm

end Sys2Proof.Machine
end

