-- ==== Sys2Proof/Machine/Home.lean ====
section
/-! DEFINITION. Lines and where their words are: the L1 of a core, the remote-data cache of a die, the
home slice; recalls and invalidations; reading and writing memory at the home; scratchpad bytes; the
waiters on barriers; logical time. -/

namespace Sys2Proof.Machine

/-! ### Words and bytes of a line (R232, R242) -/

/-- The bits of the words of a mask. -/
def wordBits (m : BitVec 16) : BitVec 1024 :=
  (List.range 16).foldl (fun a i =>
    if m.getLsbD i then a ||| BitVec.ofNat 1024 ((2 ^ 64 - 1) * 2 ^ (64 * i)) else a) 0

/-- The bits of the bytes of a mask. -/
def byteBits (m : BitVec 128) : BitVec 1024 :=
  (List.range 128).foldl (fun a i =>
    if m.getLsbD i then a ||| BitVec.ofNat 1024 (255 * 2 ^ (8 * i)) else a) 0

/-- New bits where the mask is set. -/
def mergeBits (old new m : BitVec 1024) : BitVec 1024 := (old &&& ~~~m) ||| (new &&& m)

def lineWord (d : BitVec 1024) (w : Nat) : Word := d.extractLsb' (64 * w) 64

/-- n bytes of a line from an offset, as a number. -/
def lineField (d : BitVec 1024) (off n : Nat) : Nat := d.toNat / 2 ^ (8 * off) % 2 ^ (8 * n)

/-- A value of n bytes put at an offset of an empty line. -/
def lineOf (off n v : Nat) : BitVec 1024 := BitVec.ofNat 1024 (v % 2 ^ (8 * n) * 2 ^ (8 * off))

/-- The words that n bytes from an offset touch. -/
def wordMask (off n : Nat) : BitVec 16 :=
  BitVec.ofNat 16 ((2 ^ ((off % 8 + n + 7) / 8) - 1) * 2 ^ (off / 8))

/-- The n bytes from an offset. -/
def byteMask (off n : Nat) : BitVec 128 := BitVec.ofNat 128 ((2 ^ n - 1) * 2 ^ off)

/-- The bytes of the words of a mask. -/
def bytesOfWords (m : BitVec 16) : BitVec 128 :=
  (List.range 16).foldl (fun a i =>
    if m.getLsbD i then a ||| BitVec.ofNat 128 (255 * 2 ^ (8 * i)) else a) 0

/-- The words in which some bytes of a line lie. -/
def wordsOfBytes (m : BitVec 128) : BitVec 16 :=
  (List.range 16).foldl (fun a w => if m &&& byteMask (8 * w) 8 != 0 then a ||| BitVec.ofNat 16 (2 ^ w) else a) 0

/-- Different numbers of a list. -/
def distinct (l : List Nat) : List Nat :=
  l.foldl (fun a n => if a.contains n then a else a ++ [n]) []

def maskCount (m : BitVec 16) : Nat := ((List.range 16).filter (fun i => m.getLsbD i)).length

def allWords : BitVec 16 := BitVec.allOnes 16

/-! ### Line numbers (R230, R231) -/

/-- Lines of host memory are numbered from here on; below it a line is a device address over 128. -/
def hostBase : Nat := 2 ^ 45

def hostLine (pa : Nat) : Nat := pa / 128 + hostBase

/-- Lines of peer memory, for posted stores alone, are numbered past those of the host. -/
def peerLine (pa : Nat) : Nat := pa / 128 + 2 * hostBase

/-- The line number of an address by its home kind. -/
def placeLine (pa : Nat) : HomeKind → Nat
  | .host => hostLine pa
  | .peer => peerLine pa
  | _ => pa / 128

def isHostLine (line : Nat) : Bool := hostBase ≤ line

/-- The die that holds a device line. -/
def lineDie (line : Nat) : DieId := dieNum (line * 128 / Config.dieBytes)

/-- The home slice of a device line within its die (R231). -/
def sliceOf (line : Nat) : Nat :=
  let b (i : Nat) := line * 128 / 2 ^ i % 2
  let x (i : Nat) := (b (7 + i) + b (12 + i) + b (17 + i)) % 2
  x 0 + 2 * x 1 + 4 * x 2 + 8 * x 3 + 16 * ((b 11 + b 16) % 2)

/-- The agent number of the home slice of a line. -/
def agentSlice (line : Nat) : Nat := 65536 + (lineDie line).val * 32 + sliceOf line

/-- The L2 set of a line (R407). -/
def l2Set (line : Nat) : Nat := line / 32 % 1024

/-- Where a core's requests for a line go: the home slice of its own die, or its die's remote-data
cache (R233, R370). -/
def unitOf (c : CoreId) (line : Nat) : HomeUnit :=
  if !isHostLine line && lineDie line = dieOf c then .slice (dieOf c) else .rdc (dieOf c)

/-! ### Garnet (R368) -/

/-- A record of Garnet. -/
def garnetRecord (time event source core domain data : Nat) : Record :=
  BitVec.ofNat 256 (data % 2 ^ 128 * 2 ^ 128 + domain % 2 ^ 16 * 2 ^ 112 + core % 2 ^ 11 * 2 ^ 101 +
    source % 2 ^ 8 * 2 ^ 88 + event % 2 ^ 8 * 2 ^ 64 + time % 2 ^ 64)

def Garnet.add (g : Garnet) (r : Record) : Garnet :=
  if g.frozen then g else { g with records := (r :: g.records).take 4096 }

/-- A record on Garnet n: 0–7 the dies, 8 IO-A, 9 IO-B (R365). -/
def State.garnet (s : State) (n : Nat) (event source core domain data : Nat) : State :=
  let r := garnetRecord s.quartz event source core domain data
  if n < 8 then s.mapDie (dieNum n) (fun d => { d with garnet := d.garnet.add r })
  else if n = 8 then { s with garnetA := s.garnetA.add r }
  else { s with garnetB := s.garnetB.add r }

/-! ### Scratchpad bytes -/

/-- The words that some scratchpad bytes touch. -/
def spadWords (off size : Nat) : List Nat := (List.range ((off % 8 + size + 7) / 8)).map (fun i => off / 8 + i)

/-- The error of a bank word: none, one bit, or more (R229). -/
def Core.bankErr (k : Core) (bank row : Nat) : Option Bool :=
  (k.spadErrs.find? (fun e => e.bank == bank && e.row == row)).map (·.hard)

/-- The bank words that a rebuild of a data word reads (R228): the other data words of its group, and the parity word. -/
def rebuildBanks (w : Nat) : List Nat :=
  let g := w % 32 / 4
  ((List.range 4).map (4 * g + ·)).filter (· != w % 32) ++ [32 + g]

/-- Can a data word be rebuilt (R229)? -/
def Core.canRebuild (k : Core) (w : Nat) : Bool := (rebuildBanks w).all (fun b => k.bankErr b (w / 32) != some true)

/-- Is a word of a scratchpad lost: an error that can be neither corrected nor rebuilt? -/
def Core.wordLost (k : Core) (w : Nat) : Bool := k.bankErr (w % 32) (w / 32) == some true && !k.canRebuild w

/-- A bank word without its error. -/
def Core.clearBank (k : Core) (bank row : Nat) : Core :=
  { k with spadErrs := k.spadErrs.filter (fun e => !(e.bank == bank && e.row == row)) }

/-- A data word without its error. -/
def Core.clearErr (k : Core) (w : Nat) : Core := k.clearBank (w % 32) (w / 32)

/-- A bank word corrected and written back, with a corrected-error record of its bank and address (R229, R368). A parity
word's address is that of the first word of its group. -/
def State.correctBank (s : State) (c : CoreId) (bank row : Nat) : State :=
  let first := if bank < 32 then bank else 4 * (bank - 32)
  (s.mapCore c (·.clearBank bank row)).garnet (dieOf c).val 6 0 c.val 0xFFFF (bank + 8 * (32 * row + first) * 2 ^ 64)

/-- A data word is read: one with an error that can be corrected or rebuilt is; a rebuild reads the other words of its set,
which are corrected too (R229). -/
def State.scrubWord (s : State) (c : CoreId) (w : Nat) : State :=
  if (s.core c).wordLost w then s
  else
    let row := w / 32
    match (s.core c).bankErr (w % 32) row with
    | none => s
    | some hard =>
      let others := if hard then (rebuildBanks w).filter (fun b => ((s.core c).bankErr b row).isSome) else []
      (others ++ [w % 32]).foldl (fun s b => s.correctBank c b row) s

/-- Scratchpad bytes are read. -/
def State.spadScrub (s : State) (c : CoreId) (off size : Nat) : State :=
  (spadWords off size).foldl (fun s w => s.scrubWord c w) s

/-- Is a word written whole by a write of some bytes? -/
def wholeWord (off size w : Nat) : Bool := off ≤ 8 * w && 8 * w + 8 ≤ off + size

/-- The words that a write does not write whole, each of which it reads first (R227). -/
def partWords (off size : Nat) : List Nat := (spadWords off size).filter (fun w => !wholeWord off size w)

/-- A write to a scratchpad, by any path: the bytes, and the wake event of every WAITA that watches one
of their words (R289). A word written whole loses its error, and any other is read first (R227, R229). -/
def State.spadWrite (s : State) (c : CoreId) (off : Nat) (bs : List Byte) : State :=
  let whole := (spadWords off bs.length).filter (wholeWord off bs.length)
  let s := (partWords off bs.length).foldl (fun s w => s.scrubWord c w) s
  let s := s.mapCore c (fun k => whole.foldl Core.clearErr { k with spad := k.spad.setBytes off bs })
  let hit : Option Watch → Bool
    | some (.spad c' w) => c' == c && off / 8 ≤ w && w * 8 < off + bs.length
    | _ => false
  let wake (x : Ctx) : Ctx := if hit x.watch then { x with watch := none } else x
  if s.cores.any (fun p => p.2.ctxs.toList.any (fun x => hit x.watch)) then
    { s with cores := tabMap (fun _ k => { k with ctxs := k.ctxs.map wake }) s.cores }
  else s

/-! ### Waiters on barriers (R305) -/

/-- The 16 bytes of a barrier as two doublewords. -/
def State.barrierWords (s : State) (pa : Nat) : Word × Word :=
  (leWord (s.hbm.bytes pa 8), leWord (s.hbm.bytes (pa + 8) 8))

/-- One evaluation: 1 STALE, 2 POISONED, 0 satisfied, none when it goes on waiting. -/
def judge (d0 d1 : Word) (g : BitVec 16) (p : BitVec 32) : Option Nat :=
  if bitsOf d0 47 32 ≠ g.toNat then some 1
  else if bitOf d0 48 then some 2
  else if (bitsOf d1 63 32 + 2 ^ 32 - p.toNat) % 2 ^ 32 < 2 ^ 31 then some 0
  else none

def State.judgeWaiter (s : State) (t : Nat) (b : BarWait) : BarWait :=
  match b.judged with
  | some _ => b
  | none =>
    let (d0, d1) := s.barrierWords b.pa
    { b with judged := (judge d0 d1 b.gen b.phase).map (·, t) }

/-- Every waiter on a line evaluated after a write performed at the home at logical time t. -/
def State.evalWaiters (s : State) (line t : Nat) : State :=
  { s with bars := s.bars.map (fun b => if b.pa / 128 = line then s.judgeWaiter t b else b) }

/-- A waiter starts waiting, and is evaluated at once. -/
def State.addWaiter (s : State) (b : BarWait) (t : Nat) : State :=
  { s with bars := s.bars.filter (fun o => o.who != b.who) ++ [s.judgeWaiter t b] }

def State.dropWaiter (s : State) (w : BarWaiter) : State :=
  { s with bars := s.bars.filter (fun o => o.who != w) }

def State.waiterEnd (s : State) (w : BarWaiter) : Option (Nat × Nat) :=
  (s.bars.find? (fun o => o.who == w)).bind (·.judged)

/-! ### Lines at the home -/

def State.hbmLine (s : State) (line : Nat) : BitVec 1024 :=
  BitVec.ofNat 1024 (leNat (s.hbm.bytes (128 * line) 128))

/-- LATTOL of a queue, in µs (R396). -/
def Queue.lattol (q : Queue) : Nat := bitsOf q.desc 63 48

/-- A store to the doorbell of a queue: one that sleeps polls again within LATTOL µs; on any other, and on one that a
store has called already, it has no effect (R401). -/
def Queue.ring (now : Nat) (q : Queue) : Queue :=
  if q.state = 1 && q.waking.isNone then { q with waking := some (now + q.lattol * 1000) } else q

/-- A store to some bytes of a line wakes every queue that sleeps and whose doorbell stands there (R401). -/
def State.ringBells (s : State) (line : Nat) (m : BitVec 128) : State :=
  let hit (q : Queue) : Bool := q.state == 1 && q.bellPa / 128 == line && m &&& byteMask (q.bellPa % 128) 8 != 0
  if s.dies.any (fun d => d.2.queues.any (fun q => hit q.2)) then
    let ring (q : Nat × Queue) : Nat × Queue := if hit q.2 then (q.1, q.2.ring s.quartz) else q
    { s with dies := tabMap (fun _ d => { d with queues := d.queues.map ring }) s.dies }
  else s

/-- Bytes of a line written in memory at the home, and its waiters evaluated. -/
def State.putHbm (s : State) (line : Nat) (d : BitVec 1024) (m : BitVec 128) (t : Nat) : State :=
  let hbm := (List.range 128).foldl (fun h i =>
    if m.getLsbD i then h.set (128 * line + i) (d.extractLsb' (8 * i) 8) else h) s.hbm
  { s with hbm }.evalWaiters line t

/-- The directory entry of a line at a slice or a remote-data cache. -/
def State.dir (s : State) (u : HomeUnit) (line : Nat) : DirLine :=
  match u with
  | .slice d => (tabGet (s.die d).home line).getD
      (.fresh ((tabGet (s.die d).mts (sliceOf line)).getD 0))
  | .rdc d => ((tabGet (s.die d).rdc line).getD .fresh).dir

/-- The line as a remote-data cache holds it. One that it does not hold stands behind every lease granted for lines
that have left it (R373). -/
def State.rdcLine (s : State) (d : DieId) (line : Nat) : RdcLine :=
  (tabGet (s.die d).rdc line).getD
    { RdcLine.fresh with granted := if isHostLine line then 0 else (s.die d).rdcGone }

def State.mapRdc (s : State) (d : DieId) (line : Nat) (f : RdcLine → RdcLine) : State :=
  s.mapDie d (fun k => { k with rdc := tabSet k.rdc line (f (s.rdcLine d line)) })

def State.setDir (s : State) (u : HomeUnit) (line : Nat) (e : DirLine) : State :=
  match u with
  | .slice d => s.mapDie d (fun k => { k with home := tabSet k.home line e })
  | .rdc d => s.mapRdc d line (fun r => { r with dir := e })

/-- The data of a line as its unit holds it. -/
def State.unitLine (s : State) (u : HomeUnit) (line : Nat) : BitVec 1024 :=
  match u with
  | .slice _ => s.hbmLine line
  | .rdc d => (s.rdcLine d line).data

def State.putUnit (s : State) (u : HomeUnit) (line : Nat) (d : BitVec 1024) (m : BitVec 128)
    (t : Nat) : State :=
  match u with
  | .slice _ => s.putHbm line d m t
  | .rdc e => s.mapRdc e line (fun r => { r with data := mergeBits r.data d (byteBits m) })

/-- Words owned by index i (1 to 4). -/
def DirLine.ownerMask (e : DirLine) (i : Nat) : BitVec 16 :=
  (List.range 16).foldl (fun a w =>
    if (e.wmap[w]?.map (·.val)).getD 0 = i then a ||| BitVec.ofNat 16 (2 ^ w) else a) 0

/-- Words held at the home. -/
def DirLine.homeMask (e : DirLine) : BitVec 16 := e.ownerMask 0

/-- The requester of an owner index. -/
def DirLine.owner (e : DirLine) (i : Nat) : Option Owner := (e.owners[i - 1]?).join

/-- The owner indices that hold some word of a mask. -/
def DirLine.ownersOf (e : DirLine) (m : BitVec 16) : List Nat :=
  [1, 2, 3, 4].filter (fun i => e.ownerMask i &&& m != 0)

/-- STATE of a stable line (R245). -/
def DirLine.settle (e : DirLine) : DirLine :=
  let st : HomeSt :=
    if [1, 2, 3, 4].any (fun i => e.ownerMask i == allWords) then .ow
    else if e.homeMask != allWords then .sp
    else if e.sharers.isEmpty then .u else .sh
  { e with st }

/-- Words return to the home; an owner left with none is forgotten. -/
def DirLine.release (e : DirLine) (m : BitVec 16) : DirLine :=
  let e := { e with wmap := Vector.ofFn (fun w => if m.getLsbD w.val then 0 else e.wmap[w]) }
  { e with owners := Vector.ofFn (fun i => if e.ownerMask (i.val + 1) = 0 then none else e.owners[i]) }

def DirLine.addSharer (e : DirLine) (r : Nat) : DirLine :=
  if e.sharers.contains r then e else { e with sharers := e.sharers ++ [r] }

def DirLine.dropSharer (e : DirLine) (r : Nat) : DirLine :=
  { e with sharers := e.sharers.filter (· != r) }

/-- A mask granted to a requester: at the index it has already, else the lowest free one (R389). -/
def DirLine.grant (e : DirLine) (r turn : Nat) (m : BitVec 16) : DirLine :=
  let have? := (List.range 4).find? (fun i => (e.owner (i + 1)).any (·.id == r))
  let free := (List.range 4).find? (fun i => (e.owner (i + 1)).isNone)
  match have? <|> free with
  | none => e
  | some i =>
    let e := { e with wmap := Vector.ofFn (fun w =>
      if m.getLsbD w.val then Fin.ofNat 5 (i + 1) else e.wmap[w]) }
    { e with owners := Vector.ofFn (fun j =>
        if j.val = i then some ((e.owners[j]).getD { id := r, since := turn })
        else if e.ownerMask (j.val + 1) = 0 then none else e.owners[j]) }

/-! ### The L1 (R244, R249) -/

/-- The wake event of every WAITA of the core that watches a line (R289). -/
def Core.wakeLine (k : Core) (line : Nat) : Core :=
  let hit : Option Watch → Bool
    | some (.tracked l _) | some (.owned l _) | some (.host l) => l == line
    | _ => false
  if k.ctxs.toList.any (fun x => hit x.watch) then
    { k with ctxs := k.ctxs.map (fun x => if hit x.watch then { x with watch := none } else x) }
  else k

/-- A line kept, or forgotten when no word of it is valid. -/
def Core.l1Put (k : Core) (line : Nat) (l : L1Line) : Core :=
  { k with l1 := if l.valid = 0 then tabDel k.l1 line else tabSet k.l1 line l }

/-- The words of a line that are tracked. -/
def L1Line.tracked (l : L1Line) : BitVec 16 := l.valid &&& ~~~l.owned &&& ~~~l.leased

/-- The line without its tracked words. -/
def L1Line.untrack (l : L1Line) : L1Line := { l with valid := l.valid &&& (l.owned ||| l.leased), former := false }

/-- INV: tracked words are dropped; leased ones stay. -/
def Core.l1Inv (k : Core) (line : Nat) : Core :=
  match tabGet k.l1 line with
  | none => k.wakeLine line
  | some l => (k.l1Put line l.untrack).wakeLine line

/-- RCR and RCW of owned words: the core after it, and the line as it was. Words recalled for read stay as a tracked
copy; a line that a recall for write leaves with no owned word holds nothing any more (R249). None when the words are
not here: they are in a write-back already sent, or their grant is still on its way. -/
def Core.l1Recall (k : Core) (line : Nat) (m : BitVec 16) (write : Bool) : Option (Core × L1Line) :=
  match tabGet k.l1 line with
  | none => none
  | some l =>
    if l.owned &&& m ≠ m then none
    else
      let owned := l.owned &&& ~~~m
      let l' : L1Line :=
        if write then { l with valid := if owned = 0 then 0 else l.valid &&& ~~~m, owned,
                               written := l.written &&& ~~~m }
        else
          { l with owned, written := l.written &&& ~~~m, former := true,
                   trackWts := if l.tracked = 0 then l.wts else max l.wts l.trackWts }
      some ((k.l1Put line l').wakeLine line, l)

/-- The answer of a core of a die to a recall taken at once. -/
def State.coreRecall (s : State) (c : CoreId) (line : Nat) (m : BitVec 16) (write : Bool) :
    Option (State × L1Line) :=
  ((s.core c).l1Recall line m write).map (fun p => (s.setCore c p.1, p.2))

def dieCore (d : DieId) (i : Nat) : CoreId := coreOf (d.val * 256 + i % 256)

/-- An invalidation that passes a tracked grant still on its way from a unit, to an agent or to any: the grant
serves its load once, and no copy is kept. -/
def State.voidGrants (s : State) (src : Nat) (dst : Option Nat) (line : Nat) : State :=
  let void (f : Flight) : Flight :=
    match f.ev.arg with
    | .proto p =>
      if f.src = src && dst.all (· == f.dst) && p.line = line && p.grant = .tracked then
        { f with ev := { f.ev with arg := .proto { p with grant := .value } } }
      else f
    | _ => f
  { s with pending := s.pending.map void }

/-- Is a grant of some of the words of a mask on its way to an agent? A recall that overtakes it waits. -/
def State.grantComing (s : State) (dst line : Nat) (m : BitVec 16) : Bool :=
  s.pending.any (fun f =>
    match f.ev.row, f.ev.arg with
    | .data, .proto p => f.dst == dst && p.line == line && p.grant == .owned && p.mask &&& m != 0
    | _, _ => false)

/-! ### Recalls and invalidations taken at once at a remote-data cache (R372, R373) -/

/-- INV of the die's tracked copies but those of one requester: the highest LCLK of the answers. -/
def State.rdcInv (s : State) (d : DieId) (line : Nat) (but : Option Nat) : State × Nat :=
  let e := s.dir (.rdc d) line
  let gone := e.sharers.filter (fun r => some r != but)
  let (s, hi) := gone.foldl (fun (s, hi) r =>
    let c := dieCore d r
    (s.setCore c ((s.core c).l1Inv line), max hi (s.core c).lclk)) (s, 0)
  ((s.setDir (.rdc d) line
    { e with sharers := e.sharers.filter (fun r => some r == but), rts := max e.rts hi }.settle).voidGrants
      (agentRdc d) none line, hi)

/-- One of the die's owners recalled: its words, wts and rts merged into the line. A host line that it
wrote is modified. -/
def State.rdcRecallOne (s : State) (d : DieId) (line i : Nat) (m : BitVec 16) (write : Bool) :
    Option State :=
  let e := s.dir (.rdc d) line
  let w := e.ownerMask i &&& m
  match e.owner i with
  | none => some s
  | some o =>
    match s.coreRecall (dieCore d o.id) line w write with
    | none => none
    | some (s, l) =>
      let e := e.release w
      let e := if write then e else e.addSharer o.id
      let e := { e with wts := max e.wts l.wts, rts := max e.rts l.rts }
      some (s.mapRdc d line (fun r =>
        { r with dir := e.settle, data := mergeBits r.data l.data (wordBits w),
                 mesi := if r.mesi = .e && l.written &&& w != 0 then .m else r.mesi }))

/-- The die's owners of some words recalled. None when a write-back or a grant of them is on its way. -/
def State.rdcRecall (s : State) (d : DieId) (line : Nat) (m : BitVec 16) (write : Bool) :
    Option State :=
  ((s.dir (.rdc d) line).ownersOf m).foldl
    (fun s i => s.bind (·.rdcRecallOne d line i m write)) (some s)

/-- The grants of some words changed. -/
def RdcLine.setGrant (r : RdcLine) (m : BitVec 16) (g : RdcGrant) : RdcLine :=
  { r with grants := Vector.ofFn (fun w => if m.getLsbD w.val then g else r.grants[w]) }

/-- The words whose grant satisfies a test. -/
def RdcLine.grantMask (r : RdcLine) (p : RdcGrant → Bool) : BitVec 16 :=
  (List.range 16).foldl (fun a w =>
    if (r.grants[w]?).any p then a ||| BitVec.ofNat 16 (2 ^ w) else a) 0

/-- The words that the cache owns from the home. -/
def RdcLine.owned (r : RdcLine) : BitVec 16 := r.grantMask (· == .owned)

/-- INV at a remote-data cache: its die's copies first, then its own tracked words. The answer's LCLK, which counts the
cores that it has invalidated before (R371, R372). -/
def State.rdcTakeInv (s : State) (d : DieId) (line : Nat) : State × Nat :=
  if (tabGet (s.die d).rdc line).isNone then (s, (s.die d).rdcGone) else
  let (s, hi) := s.rdcInv d line none
  let r := s.rdcLine d line
  (s.mapRdc d line (fun r => r.setGrant (r.grantMask (· == .tracked)) .none), max hi (max r.granted r.dir.rts))

/-- RCR and RCW at a remote-data cache: the merged words, wts, and the rts of the answer (R372). -/
def State.rdcTakeRecall (s : State) (d : DieId) (line : Nat) (m : BitVec 16) (write : Bool) :
    Option (State × BitVec 1024 × Nat × Nat) :=
  if (s.rdcLine d line).owned &&& m ≠ m then none
  else
    match s.rdcRecall d line m write with
    | none => none
    | some s =>
      let (s, hi) := if write then s.rdcInv d line none else (s, 0)
      let r := s.rdcLine d line
      let s := s.mapRdc d line (fun r => r.setGrant m (if write then .none else .tracked))
      some (s, r.data, r.dir.wts, max (max r.dir.rts r.granted) hi)

/-! ### Recalls and invalidations taken at once at a home slice (R250, R254) -/

/-- One owner of a device line recalled. None when its words, or its answer, are on their way, or the
host owns them. -/
def State.sliceRecallOne (s : State) (d : DieId) (line i : Nat) (m : BitVec 16) (write : Bool) :
    Option State :=
  let e := s.dir (.slice d) line
  let w := e.ownerMask i &&& m
  match e.owner i with
  | none => some s
  | some o =>
    let got : Option (State × BitVec 1024 × Nat × Nat) :=
      if o.id < 256 then
        (s.coreRecall (dieCore d o.id) line w write).map (fun p => (p.1, p.2.data, p.2.wts, p.2.rts))
      else if o.id < 264 then s.rdcTakeRecall (dieNum (o.id - 256)) line w write
      else none
    match got with
    | none => none
    | some (s, data, wts, rts) =>
      let e := e.release w
      let e := if write then e else e.addSharer o.id
      let e := { e with wts := max e.wts wts, rts := max e.rts rts }.settle
      some ((s.setDir (.slice d) line e).putHbm line data (bytesOfWords w) (max e.wts wts))

def State.sliceRecall (s : State) (d : DieId) (line : Nat) (m : BitVec 16) (write : Bool) :
    Option State :=
  ((s.dir (.slice d) line).ownersOf m).foldl
    (fun s i => s.bind (·.sliceRecallOne d line i m write)) (some s)

/-- Every tracked copy of a device line that the slice holds invalidated. None while the host holds one, whose answer must come
first (R381). -/
def State.sliceInv (s : State) (d : DieId) (line : Nat) : Option State :=
  let e := s.dir (.slice d) line
  if (tabGet (s.die d).home line).isNone then some s
  else if e.sharers.contains 264 then none
  else
    let (s, hi) := e.sharers.foldl (fun (s, hi) r =>
      if r < 256 then
        let c := dieCore d r
        (s.setCore c ((s.core c).l1Inv line), max hi (s.core c).lclk)
      else
        let (s, h) := s.rdcTakeInv (dieNum (r - 256)) line
        (s, max hi h)) (s, e.rts)
    some ((s.setDir (.slice d) line { e with sharers := [], rts := hi }.settle).voidGrants (agentSlice line) none line)

/-! ### The ways of the L2 (R231, R254, R407) -/

/-- A use of a line by its slice, which holds it from then on. -/
def State.l2Use (s : State) (d : DieId) (line : Nat) : State :=
  let n := (s.die d).tick + 1
  (s.mapDie d (fun k => { k with tick := n })).setDir (.slice d) line { s.dir (.slice d) line with use := n }

/-- The lines that stand in the L2 set of a line. -/
def State.l2Ways (s : State) (d : DieId) (line : Nat) : Tab DirLine :=
  (s.die d).home.filter (fun p => sliceOf p.1 == sliceOf line && l2Set p.1 == l2Set line)

/-- Does a reservation keep an access that does not pass through the slice's queue from a device line (R264)? -/
def State.lineHeld (s : State) (line : Nat) (write : Bool) : Bool :=
  (tabGet (s.die (lineDie line)).reserved line).any (fun r => write || r.write)

/-- The line that leaves the set of a line next: the least recently used one that is neither pinned, nor reserved by a
commit, nor in a transient state. -/
def State.l2Victim (s : State) (d : DieId) (line : Nat) : Option Nat :=
  match (s.l2Ways d line).filter (fun p => p.2.pins == 0 && p.2.cur.isNone && !s.lineHeld p.1 true) with
  | [] => none
  | f :: r => some (r.foldl (fun v q => if q.2.use < v.2.use then q else v) f).1

/-- The memory time of a slice raised (R254). -/
def State.raiseMts (s : State) (d : DieId) (line t : Nat) : State :=
  s.mapDie d (fun k => { k with
    mts := tabSet k.mts (sliceOf line) (max t ((tabGet k.mts (sliceOf line)).getD 0)) })

/-- A line takes a way of its set, if need be that of the line that leaves it, whose owners are recalled and whose
tracked copies are invalidated first (R254, R407). None while that cannot be done at once. -/
def State.l2Room (s : State) (d : DieId) (line : Nat) : Option State :=
  if (tabGet (s.die d).home line).isSome || (s.l2Ways d line).length < 16 then some (s.l2Use d line)
  else
    (s.l2Victim d line).bind (fun v =>
      ((s.sliceRecall d v allWords true).bind (·.sliceInv d v)).map (fun s =>
        let rts := (s.dir (.slice d) v).rts
        ((s.mapDie d (fun k => { k with home := tabDel k.home v })).raiseMts d v rts).l2Use d line))

/-- Is every way of the set of a line that has none pinned or reserved (R407)? -/
def State.l2Full (s : State) (d : DieId) (line : Nat) : Bool :=
  (tabGet (s.die d).home line).isNone && 16 ≤ (s.l2Ways d line).length &&
    (s.l2Ways d line).all (fun p => p.2.pins != 0 || s.lineHeld p.1 true)

/-- A read of a line at the home at logical time t (R256). Without a way for the line it is memory's time that rises. -/
def State.readAt (s : State) (line t : Nat) : State :=
  let d := lineDie line
  match s.l2Room d line with
  | some s =>
    let e := s.dir (.slice d) line
    s.setDir (.slice d) line { e with rts := max e.rts t }
  | none => s.raiseMts d line t

/-! ### Memory at the home, as fetch and the kernel's own tables use it (R35, R255) -/

/-- A line that holds a way of the L2, with the owners of some words recalled for read, when that can be done at
once. -/
def State.readyLine (s : State) (line : Nat) (m : BitVec 16) : Option State :=
  let d := lineDie line
  if (s.dir (.slice d) line).cur.isSome then none
  else (s.l2Room d line).bind (fun s => s.sliceRecall d line m false)

/-- Coherent read of n bytes of device memory: none when an owner's words are on their way. -/
def State.readHome (s : State) (pa n : Nat) : Option (State × List Byte) :=
  let s? := (List.range ((pa % 128 + n + 127) / 128)).foldl (fun (s : Option State) i =>
    s.bind (fun s =>
      let line := pa / 128 + i
      let lo := if i = 0 then pa % 128 else 0
      let hi := min 128 (pa + n - line * 128)
      s.readyLine line (wordMask lo (hi - lo)))) (some s)
  s?.map (fun s => (s, s.hbm.bytes pa n))

/-- A write of at most a line at the home, when it can be performed at once: owners of the touched words recalled, tracked
copies invalidated, at the time max(wts, rts + 1) (R255). It waits for a commit that has reserved the line (R264). A line whose
set has no way to free is written in memory, whose time rises with it (assumption 98). -/
def State.writeNow (s : State) (line : Nat) (d : BitVec 1024) (m : BitVec 128) : Option State :=
  let die := lineDie line
  let words := wordsOfBytes m
  let put (s : State) (t : Nat) : State := (s.putHbm line d m t).ringBells line m
  if s.lineHeld line true || (s.dir (.slice die) line).cur.isSome then none
  else if s.l2Full die line then
    let t := (s.dir (.slice die) line).rts + 1
    some (put (s.raiseMts die line t) t)
  else
    (((s.l2Room die line).bind (·.sliceRecall die line words true)).bind (·.sliceInv die line)).map (fun s =>
      let e := s.dir (.slice die) line
      let t := max e.wts (e.rts + 1)
      put (s.setDir (.slice die) line { e with wts := t, rts := t }) t)

/-- A write of the kernel to at most a line: performed at once, or after those of the line before it, when it can be. -/
def State.writeLine (s : State) (line : Nat) (d : BitVec 1024) (m : BitVec 128) : State :=
  match if s.lateWrites.any (·.line == line) then none else s.writeNow line d m with
  | some s => s
  | none => { s with lateWrites := s.lateWrites ++ [{ line, data := d, mask := m }] }

/-- The parts of a range of bytes by lines: line, bytes and mask. -/
def lineWrites (pa : Nat) (bs : List Byte) : List (Nat × BitVec 1024 × BitVec 128) :=
  (List.range ((pa % 128 + bs.length + 127) / 128)).map (fun i =>
    let line := pa / 128 + i
    let lo := if i = 0 then pa % 128 else 0
    let hi := min 128 (pa + bs.length - line * 128)
    (line, lineOf lo (hi - lo) (leNat ((bs.drop (line * 128 + lo - pa)).take (hi - lo))), byteMask lo (hi - lo)))

/-- Bytes of device memory written by the kernel. -/
def State.writeHome (s : State) (pa : Nat) (bs : List Byte) : State :=
  (lineWrites pa bs).foldl (fun s p => s.writeLine p.1 p.2.1 p.2.2) s

/-- What the kernel's writes that are still to be performed make of bytes read at an address. -/
def State.withLate (s : State) (pa : Nat) (bs : List Byte) : List Byte :=
  s.lateWrites.foldl (fun bs w => bs.zipIdx.map (fun b =>
    let a := pa + b.2
    if a / 128 = w.line && w.mask.getLsbD (a % 128) then w.data.extractLsb' (8 * (a % 128)) 8 else b.1)) bs

/-- The latest value of n bytes of device memory, changing nothing: what INSPECT and the kernel's own
reads see (R366). -/
def State.peek (s : State) (pa n : Nat) : List Byte :=
  s.withLate pa (match s.readHome pa n with
    | some (_, bs) => bs
    | none => s.hbm.bytes pa n)

/-! ### Kernel memory (R344, R206) -/

/-- Does a TLB entry cover an address for a domain? -/
def TlbEntry.covers (e : TlbEntry) (domain : BitVec 16) (va : Nat) : Bool :=
  let low := match e.size.toNat with | 0 => 0 | 1 => 5 | _ => 14
  e.dtag == domain && e.vpn.toNat / 2 ^ low == va / 65536 / 2 ^ low

/-- The physical address an entry gives. -/
def TlbEntry.pa (e : TlbEntry) (va : Nat) : Nat :=
  let bits := match e.size.toNat with | 0 => 16 | 1 => 21 | _ => 30
  e.ppn.toNat * 65536 + va % 2 ^ bits

/-- The physical address of a kernel-domain address, as the core of a cluster reaches it: the cluster
TLB's entry, or the page Sartar keeps (assumption 7). Within the device. -/
def State.kernelPa (s : State) (c : CoreId) (va : Nat) : Nat :=
  let va := va % 2 ^ 56
  match (s.cluster (clusterOf c)).tlb.find? (·.covers 0 va) with
  | some e => e.pa va % Config.hbmEnd
  | none => ((Config.kernelPage (va / 65536)).toNat * 65536 + va % 65536) % Config.hbmEnd

/-- Bytes of kernel memory written by kernel-domain core stores, a page at a time. -/
def State.kernelWrite (s : State) (c : CoreId) (va : Nat) (bs : List Byte) : State :=
  (List.range ((va % 65536 + bs.length + 65535) / 65536)).foldl (fun s i =>
    let lo := if i = 0 then va else (va / 65536 + i) * 65536
    let n := min ((va / 65536 + i + 1) * 65536) (va + bs.length) - lo
    s.writeHome (s.kernelPa c lo) ((bs.drop (lo - va)).take n)) s

def State.kernelRead (s : State) (c : CoreId) (va n : Nat) : List Byte :=
  (List.range ((va % 65536 + n + 65535) / 65536)).flatMap (fun i =>
    let lo := if i = 0 then va else (va / 65536 + i) * 65536
    s.peek (s.kernelPa c lo) (min ((va / 65536 + i + 1) * 65536) (va + n) - lo))

/-- Is a key slot loaded (R237, R386)? -/
def State.keyLoaded (s : State) (key : Nat) : Bool :=
  key == 0 || s.onyx.keys.any (fun p => p.1 == key)

/-- Can a frame or level record at a kernel address not be written (R344): a page of it that the cluster TLB translates
grants no write? -/
def State.frameFails (s : State) (c : CoreId) (va : Nat) : Bool :=
  let bad (a : Nat) : Bool :=
    match (s.cluster (clusterOf c)).tlb.find? (·.covers 0 (a % 2 ^ 56)) with
    | some e => !e.w || e.dup || !s.keyLoaded e.key.toNat
    | none => false
  bad va || bad (va + 6143)

/-! ### Logical time (R256) -/

/-- GTB − G, not below 0. -/
def State.floorTime (s : State) : Nat := s.quartz - Config.guardNs

/-- LCLK as an access of the core finds it. Every core has the one count of Quartz (assumption 86). -/
def State.lclkNow (s : State) (c : CoreId) : Nat := max (s.core c).lclk s.floorTime

def State.raiseClk (s : State) (c : CoreId) (t : Nat) : State :=
  s.mapCore c (fun k => { k with lclk := max k.lclk t })

/-- May a store at logical time t be performed now (R259)? -/
def State.timeCame (s : State) (t : Nat) : Bool := t ≤ s.quartz + Config.guardNs

end Sys2Proof.Machine
end

