-- ==== Sys2Proof/Machine/Frame.lean ====
section
/-! DEFINITION. Words and images that mirror a context: TSLOT, QSTAT, GINFO, the registers at handler
entry (R31), the context frame as bytes (R345, R346) and the context read back from them (R348). -/

namespace Sys2Proof

/-- The header of a message (R130). -/
def Msg.header (m : Msg) : Word :=
  BitVec.ofNat 64 (m.sender.toNat * 2 ^ 16 + m.tag.toNat * 2 ^ 8 + m.payload.length % 8 * 2 ^ 5 +
    m.seq.toNat)

/-- A payload dword, or 0. -/
def Msg.dword (m : Msg) (i : Nat) : Word := m.payload[i]?.getD 0

end Sys2Proof

namespace Sys2Proof.Machine

/-! ### Words -/

/-- The ADDR field of R28 and R110: bits [55:2]. -/
def addrField (w : Word) : Word := w &&& 0x00FFFFFFFFFFFFFC

/-- TSLOT of a pending slot (R28). A slot not yet fetched, of a branch not taken, is given the length
of 8 bytes (assumption 12). -/
def slotWord (pc : Word) : Option SlotPend → Word
  | none => 0
  | some p => 0x8000000000000000 ||| addrField (if p.resolved || p.taken then p.dest else pc + 8)

/-- LnCOUNT as it may be written: an armed loop with a count of 0 is disarmed (R29). -/
def countField (w : Word) : Word :=
  let c := w &&& 0xFFFFFFFF
  if bitOf w 63 && c != 0 then c ||| 0x8000000000000000 else c

/-- TLnCOUNT as it is written: ARM and COUNT, whatever they are (R28). -/
def countBits (w : Word) : Word := w &&& 0x80000000FFFFFFFF

/-- The occupancies of the eight queues (R111). -/
def qstatWord (x : Ctx) : Word :=
  word ((List.range 8).foldl (fun a i => a + (x.queue (Fin.ofNat 8 i)).length * 16 ^ i) 0)

/-- GINFO word w of a level (R216); spilled says whether it lies in the save area. -/
def ginfoWord (l : Level) (spilled : Bool) (w : Nat) : Word :=
  match w with
  | 0 => word ((if spilled then 2 ^ 48 else 0) + l.callee.toNat * 2 ^ 32 + l.gate.toNat * 2 ^ 16 +
      l.caller.toNat)
  | 1 => l.ret
  | 2 => l.tbase
  | _ => l.budget

/-- What is left of the origin's allotment on a core, in ns; none without an allotment (R134). -/
def Core.left (k : Core) (d : BitVec 16) : Option Nat :=
  (k.budgets.find? (·.domain == d)).map (·.left)

/-- BUDGET (R24, R134). -/
def Core.budgetWord (k : Core) (x : Ctx) : Word :=
  match x.act with
  | none => 0
  | some _ => ((k.left x.origin).map word).getD (BitVec.allOnes 64)

/-! ### Handler entry (R24, R31) -/

/-- The DATA registers of a row given to a drain activation, or none. -/
abbrev DrainRow := Option (VecWord × VecWord)

/-- s30 at entry: just past the stack region (R31). -/
def Slot.stackTop (sl : Slot) : Word :=
  match sl.regions.find? (·.stack) with
  | some r => word (Config.lswBase + r.base + r.size)
  | none => 0

/-- A context at handler entry, on core c in slot n with message m of mailbox mb: every register of R31
and the activation-start column of R24. clkgs and clkseq are those of the launch. -/
def Ctx.entry (c : CoreId) (n : SlotId) (sl : Slot) (mb : Nat) (m : Msg) (row : DrainRow)
    (clkgs : BitVec 32) (clkseq : BitVec 32) : Ctx :=
  let desc := sl.mboxes[mb]?
  let drain := row.isSome
  let s1to8 : List Word :=
    if drain then [m.header, m.dword 0, m.dword 1] else m.header :: (List.range 7).map m.dword
  { Ctx.reset with
    act := some { slot := n, mbox := mb, msg := m, drain },
    regs := Vector.ofFn (fun i =>
      if i.val = 30 then sl.stackTop
      else if i.val = 0 then 0 else s1to8[i.val - 1]?.getD 0),
    vregs := Vector.ofFn (fun i =>
      match row with
      | some (a, b) => if i.val = 0 then a else if i.val = 1 then b else 0
      | none => 0),
    pc := addrField ((desc.map (·.desc0)).getD 0),
    tvec := addrField sl.tvec, self := endpointOf c.val n.val mb,
    domain := sl.domain, origin := sl.domain, msghdr := m.header, frame := sl.area,
    clkgs, clkseq }

/-! ### The frame (R345, R346) -/

def loopBytes (l : Loops) : List Byte :=
  [l.start0, l.end0, l.count0, l.start1, l.end1, l.count1].flatMap wordBytes

def pad (n : Nat) (bs : List Byte) : List Byte := (bs ++ List.replicate (n - bs.length) 0).take n

/-- FHDR (R346). -/
def frameHeader (v : Saved) : Word :=
  word (v.ctx.domain.toNat * 2 ^ 48 + v.ctx.origin.toNat * 2 ^ 32 + v.ctx.ddepth * 2 ^ 26 +
    v.heldCtx.val * 2 ^ 24 + v.ctx.redo.length * 2 ^ 16 + v.cause % 256 * 2 ^ 8 + v.reason % 16 * 2 ^ 4
    + 1)

/-- Dword 0 of the copy batches (R345). -/
def batchWord (b : Batches) : Word :=
  word (b.next % 2 ^ 32 + b.unfinished.length % 256 * 2 ^ 32 + b.failed % 256 * 2 ^ 40 +
    b.openSet.length % 2 ^ 16 * 2 ^ 48)

def sendrecWord : Option (Fin 8 × Option (BitVec 64)) → Word
  | none => 0
  | some (e, none) => word (e.val + 1)
  | some (e, some v) => word (e.val + 1 + v.toNat % 256 * 2 ^ 8 + 2 ^ 16)

def chunkWord (k : Chunk) : Word :=
  word (k.attempts % 8 + (if k.serial then 8 else 0) + (if k.dieToken then 16 else 0) +
    (if k.deviceToken then 32 else 0))

/-- The 6,144 bytes of a frame. -/
def frameBytes (v : Saved) : List Byte :=
  let x := v.ctx
  let head := [frameHeader v, addrField x.pc, slotWord x.pc x.slot, v.faddr, v.finfo, word v.lclk,
    word v.time, word (x.deadline.getD 0)].flatMap wordBytes
  let regs := (List.range 32).flatMap (fun i => wordBytes (x.reg (Fin.ofNat 32 i)))
  let masks := (List.range 8).flatMap (fun i => leBytes 16 (x.mask (Fin.ofNat 8 i)).toNat)
  let queues := (List.range 8).flatMap (fun i =>
    pad 64 ((x.queue (Fin.ofNat 8 i)).flatMap wordBytes))
  let special := [qstatWord x, x.fflags.zeroExtend 64, x.lease, x.tvec, x.tpc, x.tcause, x.tval,
    x.tslot].flatMap wordBytes
  let rest := [batchWord x.batches, 0, sendrecWord x.sendrec, chunkWord x.chunk].flatMap wordBytes
  let levels := (x.stack.take 8).flatMap (fun l =>
    (List.range 4).flatMap (fun w => wordBytes (ginfoWord l false w)))
  let vq := x.redo.flatMap (fun e => wordBytes e.pc ++ wordBytes e.base)
  let vregs := (List.range 32).flatMap (fun i => leBytes 128 (x.vreg (Fin.ofNat 32 i)).toNat)
  head ++ regs ++ masks ++ queues ++ special ++ loopBytes x.loops ++ loopBytes x.tloops ++ rest ++
    List.replicate 128 0 ++ pad 256 levels ++ pad 512 vq ++ vregs

/-- Is an instruction an AREAD, whose row was read with its step count (R313)? -/
def isAread : Instr → Bool
  | .aread _ _ _ _ => true
  | _ => false

/-- A context as it is saved (R347): what was blocked counts as not yet executed, and each V-pipe instruction that has
not completed will be dispatched again. Translations, and data already read, are not kept. -/
def Ctx.atSave (y : Ctx) : Ctx :=
  { y with
    op := none, wait := .run, watch := none, stops := [], markers := 0, vq := [],
    redo := y.vq.map (fun e => { pc := e.pc, base := e.base, stride := e.stride, data := if isAread e.instr then e.data else [] }) ++ y.redo }

/-- A SENDREC word read back (R345): the record as it was kept when the word still says so. -/
def sendrecOf (old : Option (Fin 8 × Option (BitVec 64))) (w : Word) : Option (Fin 8 × Option (BitVec 64)) :=
  if sendrecWord old = w then old
  else if bitsOf w 3 0 = 0 then none
  else some (Fin.ofNat 8 (bitsOf w 3 0 - 1), if bitOf w 16 then some (word (bitsOf w 15 8)) else none)

/-- A domain-stack level with its four GINFO words read back (R216, R345). -/
def Level.load (l : Level) (w : Nat → Word) : Level :=
  { l with
    caller := (w 0).extractLsb' 0 16, gate := (w 0).extractLsb' 16 16, callee := (w 0).extractLsb' 32 16,
    ret := addrField (w 1), tbase := w 2, budget := w 3 }

/-- A pending slot read back from SLOTPEND: the slot as it was kept when the word still says so; else a slot that goes
to TARGET, with the link that is still to be written. -/
def slotOfWord (pc : Word) (old : Option SlotPend) (w : Word) : Option SlotPend :=
  if slotWord pc old = w then old
  else if bitOf w 63 then
    some { dest := addrField w, taken := true, link := (old.map (·.link)).getD 0, branch := old.bind (·.branch),
           resolved := (old.map (·.resolved)).getD true, disarm := false }
  else none

/-- The fields of a frame loaded over a saved context (R348): what the bytes hold replaces what was saved. What the
frame only counts or names (the copies of a batch, the lines of a chunk, the windows of a level, the stride and
the mask of a V-pipe entry) keeps its saved form (assumption 79), and so does the skip of a LOOP of count 0, which no field
holds (assumption 105). -/
def Ctx.loadFrame (x : Ctx) (bs : List Byte) : Ctx :=
  let w (off : Nat) : Word := leWord ((bs.drop off).take 8)
  let slot := w 0x10
  let loops (o : Nat) : Loops :=
    { start0 := addrField (w o), end0 := addrField (w (o + 8)), count0 := countBits (w (o + 16)),
      start1 := addrField (w (o + 24)), end1 := addrField (w (o + 32)),
      count1 := countBits (w (o + 40)) }
  let pc := addrField (w 8)
  let k := w 0x478
  let occ := w 0x3C0
  { x with
    pc,
    slot := if pc = x.pc then slotOfWord pc x.slot slot else slotOfWord pc (x.slot.map (fun p => { p with resolved := true })) slot,
    skip := x.skip && pc == x.pc,
    deadline := if w 0x38 = 0 then none else some (w 0x38).toNat,
    regs := Vector.ofFn (fun i => w (0x40 + 8 * i.val)),
    kregs := Vector.ofFn (fun i => BitVec.ofNat 128 (leNat ((bs.drop (0x140 + 16 * i.val)).take 16))),
    queues := Vector.ofFn (fun i =>
      leWords (min 8 (bitsOf occ (4 * i.val + 3) (4 * i.val))) (bs.drop (0x1C0 + 64 * i.val))),
    fflags := (w 0x3C8).truncate 5,
    lease := w 0x3D0, tvec := addrField (w 0x3D8), tpc := addrField (w 0x3E0),
    tcause := w 0x3E8 &&& 0xFF, tval := w 0x3F0, tslot := w 0x3F8 &&& 0x80FFFFFFFFFFFFFC,
    loops := loops 0x400, tloops := loops 0x430,
    vregs := Vector.ofFn (fun i =>
      BitVec.ofNat 1024 (leNat ((bs.drop (0x800 + 128 * i.val)).take 128))),
    batches := { x.batches with next := bitsOf (w 0x460) 31 0, failed := bitsOf (w 0x460) 47 40 },
    sendrec := sendrecOf x.sendrec (w 0x470),
    chunk := { x.chunk with attempts := bitsOf k 2 0, serial := bitOf k 3, dieToken := bitOf k 4, deviceToken := bitOf k 5 },
    stack := x.stack.zipIdx.map (fun p => if p.2 < 8 then p.1.load (fun i => w (0x500 + 32 * p.2 + 8 * i)) else p.1),
    redo := x.redo.zipIdx.map (fun p =>
      { p.1 with pc := addrField (w (0x600 + 16 * p.2)), base := w (0x608 + 16 * p.2) }) }

/-- The context a restore loads: as it was saved when the frame still says so, else as the frame's
bytes say. -/
def Saved.restore (v : Saved) (bs : List Byte) : Ctx :=
  if bs = frameBytes v then v.ctx else v.ctx.loadFrame bs

/-! ### Level records (R211) -/

/-- What a GCALL puts away (R211). -/
def Ctx.record (y : Ctx) : LevelRecord :=
  { regs := y.regs, vregs := y.vregs, kregs := y.kregs, queues := y.queues, loops := y.loops,
    tloops := y.tloops, tvec := y.tvec, tpc := y.tpc, tcause := y.tcause, tval := y.tval,
    tslot := y.tslot, fflags := y.fflags, lease := y.lease, batches := y.batches }

/-- The registers of a level record in a context. -/
def LevelRecord.toCtx (r : LevelRecord) : Ctx :=
  { Ctx.reset with
    regs := r.regs, vregs := r.vregs, kregs := r.kregs, queues := r.queues, loops := r.loops,
    tloops := r.tloops, tvec := r.tvec, tpc := r.tpc, tcause := r.tcause, tval := r.tval,
    tslot := r.tslot, fflags := r.fflags, lease := r.lease, batches := r.batches }

/-- Level L of a stack as its record in the save area has it: the record follows the frame (R344, R357). -/
def State.levelRecord (s : State) (c : CoreId) (y : Ctx) (level : Nat) (l : Level) : Level :=
  { l with saved := (l.saved.toCtx.loadFrame (s.kernelRead c (y.frame.toNat + 6144 * level) 6144)).record }

end Sys2Proof.Machine
end

