-- ==== Sys2Proof/Machine/Ops.lean ====
section
/-! DEFINITION. The shared operations: completing an instruction (R104, R105), waiting, Garnet and the
fault rings, taking a local trap and returning from it (R113, R115), saving a context, delivering a
fault (R343), leaving a domain level (R217, R218), ending an activation (R142). -/

namespace Sys2Proof.Machine

/-- What a step answers when it goes on. -/
abbrev Result := Host.Outcome State Fault Refusal

/-! ### Completing an instruction -/

/-- An armed loop's end check: its new COUNT register, and whether it jumps back (R104). COUNT has 32 bits (R28). -/
def loopCheck (count : Word) : Word × Bool :=
  let c := (bitsOf count 31 0 + 0xFFFFFFFF) % 2 ^ 32
  if c = 0 then (0, false) else (word c ||| 0x8000000000000000, true)

/-- The end checks of the instruction at pc: loop 1 first, loop 0 only if loop 1 does not jump; and
where they jump to (R104). -/
def Ctx.loopEnds (x : Ctx) : Ctx × Option Word :=
  let at1 := bitOf x.loops.count1 63 && x.loops.end1 == x.pc
  let (c1, j1) := if at1 then loopCheck x.loops.count1 else (x.loops.count1, false)
  let x1 := { x with loops := { x.loops with count1 := c1 } }
  if j1 then (x1, some x.loops.start1)
  else
    let at0 := bitOf x.loops.count0 63 && x.loops.end0 == x.pc
    let (c0, j0) := if at0 then loopCheck x.loops.count0 else (x.loops.count0, false)
    ({ x1 with loops := { x1.loops with count0 := c0 } }, if j0 then some x.loops.start0 else none)

/-- The end checks, then fall as the next address. -/
def Ctx.endCheck (x : Ctx) (fall : Word) : Ctx :=
  let (y, j) := x.loopEnds
  { y with pc := j.getD fall }

/-- The instruction of len bytes at pc completes: a delay slot of a taken branch goes to the target
with no end check (R105), anything else makes its end check. -/
def Ctx.retire (x : Ctx) (len : Nat) : Ctx :=
  let fall := x.pc + word len
  match x.slot with
  | none => x.endCheck fall
  | some p =>
    let x := { x with slot := none }
    if p.dest ≠ fall then { x with pc := p.dest } else x.endCheck fall

/-- The slot of a branch, len bytes long, is fetched: the link is written, a branch to its own
fall-through counts as not taken (R99), and a taken B or BQ that leaves a loop's body disarms the loop
(R105). -/
def Ctx.resolveSlot (x : Ctx) (len : Nat) : Ctx :=
  match x.slot with
  | none => x
  | some p =>
    if p.resolved then x
    else
      let after := x.pc + word len
      let taken := p.taken && p.dest != after
      let leaves (s e : Word) : Bool :=
        taken && p.disarm && p.branch.any (fun b => s ≤ b && b ≤ e) && !(s ≤ p.dest && p.dest ≤ e)
      let off (c : Word) : Word := c &&& 0x7FFFFFFFFFFFFFFF
      let l := x.loops
      let x := if p.link.val = 0 then x else x.setReg p.link after
      { x with
        slot := some { p with dest := if taken then p.dest else after, resolved := true },
        loops := { l with
          count0 := if leaves l.start0 l.end0 then off l.count0 else l.count0,
          count1 := if leaves l.start1 l.end1 then off l.count1 else l.count1 } }

/-- The instruction of the issuing context completes. -/
def State.retire (s : State) (len : Nat) : State := s.mapHere (·.retire len)

def done (s : State) (len : Nat) : Result := .next (s.retire len)

/-- The issuing context stops short: the instruction is issued again later, with no effect so far. -/
def waitFor (s : State) (w : Wait) : Result := .next (s.mapHere (fun x => { x with wait := w }))

/-- Lengths by form (R33, R41). -/
def lenImm : Imm → Nat
  | .none => 8
  | .w32 _ => 12
  | .w64 _ => 16

def lenOff : Off → Nat
  | .off16 _ => 8
  | .off32 _ => 12

/-! ### The V pipe seen from the S pipe -/

/-- Has every V-pipe instruction completed (R21)? -/
def Ctx.vIdle (x : Ctx) : Bool := x.vq.isEmpty && x.op.isNone

/-- A store among V-pipe instructions: it holds back later accesses (R21). -/
def isVStore : Instr → Bool
  | .vst _ | .vstx _ | .vsto _ => true
  | _ => false

/-- May the activation make an access now: none of its own is under way or held back (R21, R271)? -/
def Ctx.memFree (x : Ctx) : Bool := x.op.isNone && !(x.vq.any (fun e => isVStore e.instr))

/-- The wait of an access that cannot be made yet (R21, R271); none when it can. -/
def Ctx.memWait (x : Ctx) : Option Wait :=
  if x.op.isSome then some .memory
  else if x.memFree then none
  else some .vStore

/-! ### Ring entries (R349, R350) -/

def Entry.bits (e : Entry) (time token count : Nat) : BitVec 256 :=
  BitVec.ofNat 256 (time % 2 ^ 64 * 2 ^ 192 + token % 2 ^ 16 * 2 ^ 176 + e.detail % 2 ^ 48 * 2 ^ 128 +
    e.addr.toNat * 2 ^ 64 + e.domain.toNat * 2 ^ 48 + count % 2 ^ 16 * 2 ^ 32 +
    e.core % 2 ^ 11 * 2 ^ 21 + e.slot % 16 * 2 ^ 17 + e.path % 8 * 2 ^ 14 + e.kind % 4 * 2 ^ 12 +
    e.status % 16 * 2 ^ 8 + e.cause % 256)

/-- Ring numbers: 0–7 the retryable rings, then the terminal rings by domain, then the VF rings. -/
def terminalRing (d : BitVec 16) : Nat := 0x10000 + d.toNat
def vfRing (v : Nat) : Nat := 0x20000 + v % 0x10000

/-- An entry handed to the reporting port (R351). -/
def State.ring (s : State) (ring : Nat) (e : BitVec 256) : State :=
  { s with ringWaits := s.ringWaits ++ [{ ring, entry := e }] }

/-- Garnet source of a path (R368). -/
def pathSource (path : Nat) : Nat := if path < 6 then path else 0

/-- A terminal entry or a report: the terminal ring of its domain, the VF ring of the function the
domain is bound to (R349), and Garnet of the die. -/
def State.report (s : State) (die : DieId) (e : Entry) : State :=
  let b := e.bits s.quartz 0 1
  let s := s.ring (terminalRing e.domain) b
  let s := s.vfs.foldl (fun s v => if v.2.domains.contains e.domain then s.ring (vfRing v.1) b else s) s
  s.garnet die.val 2 (pathSource e.path) e.core e.domain.toNat (b.toNat % 2 ^ 128)

/-- The page of a fault: 64 KiB (R352). -/
def pageOf (a : Word) : Nat := a.toNat / 65536

/-- COUNT of an entry raised by one, saturating (R350). -/
def bumpCount (e : BitVec 256) : BitVec 256 :=
  let c := bitsOf e 47 32
  if c = 0xFFFF then e else e + BitVec.ofNat 256 (2 ^ 32)

/-- A retryable or machine-check fault takes a token of its die, or joins an open one (R352). None
while no token is free. -/
def State.takeToken (s : State) (die : DieId) (e : Entry) (w : TokenWaiter) : Option (State × Nat) :=
  let d := s.die die
  let ring := die.val
  let open? := if e.cause = 3 then none else
    d.faultTokens.find? (fun p =>
      p.2.domain == e.domain && p.2.cause == e.cause && p.2.page == pageOf e.addr)
  let setTok (s : State) (n : Nat) (t : Token) : State :=
    s.mapDie die (fun d => { d with faultTokens := tabSet d.faultTokens n t })
  let garnet (s : State) (n : Nat) : State :=
    let s := if e.cause = 3 then
      s.garnet die.val 7 (pathSource e.path) e.core e.domain.toNat (e.addr.toNat / 8 % 32 + e.addr.toNat * 2 ^ 64) else s
    s.garnet die.val 2 (pathSource e.path) e.core e.domain.toNat
      ((e.bits s.quartz n 1).toNat % 2 ^ 128)
  match open? with
  | some (n, t) =>
    let s := garnet (setTok s n { t with waiters := t.waiters ++ [w] }) n
    let mine (r : RingWait) : Bool := r.ring == ring && bitsOf r.entry 191 176 == n
    if s.ringWaits.any mine then
      some ({ s with ringWaits := s.ringWaits.map (fun r =>
        if mine r then { r with entry := bumpCount r.entry } else r) }, n)
    else
      match tabGet s.rings ring with
      | none => some (s.ring ring (e.bits s.quartz n 1), n)
      | some r =>
        let ridx := leNat (s.kernelRead (kernelCore die) (r.addr + 20) 4)
        if t.index < ridx then some (s.ring ring (e.bits s.quartz n 1), n)
        else
          let a := r.base + t.index % 2 ^ r.logn * 32
          let old := BitVec.ofNat 256 (leNat (s.kernelRead (kernelCore die) a 32))
          some (s.kernelWrite (kernelCore die) a (leBytes 32 (bumpCount old).toNat), n)
  | none =>
    match (List.range 1024).find? (fun i => (tabGet d.faultTokens (i + 1)).isNone) with
    | none => none
    | some i =>
      let n := i + 1
      let s := setTok s n { domain := e.domain, cause := e.cause, page := pageOf e.addr, index := 0,
                            waiters := [w] }
      some ((garnet s n).ring ring (e.bits s.quartz n 1), n)

/-- A retryable or machine-check fault raised at a core: its token, or 0 while none is free or an older fault of the core
waits for one, for entries of a core stand in the order in which it raised them (R351, R352). -/
def State.raiseToken (s : State) (c : CoreId) (e : Entry) (w : TokenWaiter) : State × Nat :=
  match if (s.core c).faultQueue.isEmpty then s.takeToken (dieOf c) e w else none with
  | some r => r
  | none => (s.mapCore c (fun k => { k with faultQueue := k.faultQueue ++ [{ who := w, entry := e }] }), 0)

/-- Waiters of every token, and of every fault that waits for one, kept, renamed or taken out. A token with no waiter
stays open until it is resolved. -/
def State.mapWaiters (s : State) (f : TokenWaiter → Option TokenWaiter) : State :=
  let token (_ : Nat) (t : Token) : Token := { t with waiters := t.waiters.filterMap f }
  let wait (w : FaultWait) : Option FaultWait := (f w.who).map (fun v => { w with who := v })
  { s with
    dies := tabMap (fun _ d => { d with faultTokens := tabMap token d.faultTokens }) s.dies,
    cores := tabMap (fun _ k => { k with faultQueue := k.faultQueue.filterMap wait }) s.cores }

/-- A waiter leaves every token, and every queue of faults that wait for one. -/
def State.leaveTokens (s : State) (w : TokenWaiter) : State :=
  s.mapWaiters (fun v => if v = w then none else some v)

/-! ### Messages that no activation sends (R405) -/

/-- Do two messages come from one sender, so that one of them to the same core waits behind the other (R137, R312)? -/
def sameSender (a b : Msg) : Bool :=
  match a.src, b.src with
  | .engine c p _ _ _, .engine d q _ _ _ => c == d && p == q
  | .frontEnd d, .frontEnd e | .frontEnd d, .completion e _ | .completion d _, .frontEnd e
  | .completion d _, .completion e _ => d == e
  | .drain c _, .drain d _ => c == d
  | .ring n, .ring m => n == m
  | _, _ => false

/-- Do two messages go one way: one sender, and one core of one device? -/
def sameWay (a b : Msg) : Bool := sameSender a b && bitsOf a.dst 47 25 == bitsOf b.dst 47 25

/-- A message that no send unit holds goes to another device, behind an earlier one of the same way that is still out
(R137, R377). -/
def State.postAbroad (s : State) (m : Msg) : State :=
  let m := { m with sender := s.device ++ m.sender.extractLsb' 0 36, stamp := none }
  let id := s.abroadCount
  let behind := s.abroad.any (fun p => sameWay p.2.msg m)
  let a : Abroad := { msg := m, held := behind, since := s.quartz, tried := if behind then none else some s.quartz }
  let s := { s with abroadCount := id + 1, abroad := tabSet s.abroad id a }
  if behind then s else s.tell (.abroad id m)

/-- A message on its way from an agent to its core, here or on another device. -/
def State.post (s : State) (src : Nat) (m : Msg) : State :=
  let dev := bitsOf m.dst 47 36
  if dev ≠ 0xFFF && dev ≠ s.device.toNat then s.postAbroad m
  else s.send src (agentCore (coreOf (bitsOf m.dst 35 25))) .messageArrival (.msg m)

/-- Agents of engines: class (R49) and unit. -/
def agentEngine (cls unit : Nat) : Nat := 4096 + cls * 4096 + unit % 4096

/-- Low 48 bits of an endpoint (R130). -/
def senderOf (core port mbox : Nat) : BitVec 48 := (endpointOf core port mbox).truncate 48

/-- A message of the front end or the package: from slot 0 of a die's kernel core, SEQ 0 (R405). -/
def frontMsg (die : DieId) (dst : Word) (tag : Nat) (payload : List Word) (domain : BitVec 16) : Msg :=
  { dst := dst &&& 0xFFFFFFFE0000, sender := senderOf (kernelCore die).val 0 0,
    tag := BitVec.ofNat 8 tag, seq := 0, payload, domain, stamp := none, src := .frontEnd die }

/-- An engine's reply (R325), or none when the command asked for none. -/
def State.engineReply (s : State) (core : CoreId) (port cls unit : Nat) (opc asker slot : Nat) (cmd1 : Word)
    (domain : BitVec 16) (status value : Nat) (detail : Word) : State :=
  if cmd1 &&& 0xFFFFFFFFFFFF = 0 then s
  else
    let d0 := word (value % 2 ^ 32 * 2 ^ 32 + bitsOf cmd1 63 48 * 2 ^ 16 + (port - 15) * 2 ^ 8 + status)
    s.post (agentEngine cls unit)
      { dst := cmd1 &&& 0xFFFFFFFE0000, sender := senderOf core.val port 0,
        tag := BitVec.ofNat 8 (0x60 + port), seq := 0, payload := [d0, detail, word s.quartz], domain,
        stamp := none, src := .engine core (Fin.ofNat 32 port) opc asker slot }

/-! ### Engine writes (R255, R275) -/

def Proto.empty : Proto :=
  { unit := .slice 0, reqr := 0, line := 0, mask := 0, data := 0, wmask := 0, lclk := 0, lease := 0,
    wts := 0, rts := 0, pol := .thru, op := none, old := 0, grant := .value, flags := 0, kind := .rdu,
    waiter := .nobody }

/-- The words that n bytes from an address touch: for each, where its part begins, and how long it is. -/
def wordParts (a n : Nat) : List (Nat × Nat) :=
  (List.range ((a % 8 + n + 7) / 8)).map (fun i =>
    let lo := max a ((a / 8 + i) * 8)
    (lo, min ((a / 8 + i + 1) * 8) (a + n) - lo))

/-- An engine write to device memory leaves on its path: an EWR for each word, numbered in lclk, its class
in lease (R255, R276). -/
def State.engineWrite (s : State) (cls unit : Nat) (pa : Nat) (bs : List Byte) : State :=
  (wordParts pa bs.length).foldl (fun s w =>
    let line := w.1 / 128
    let off := w.1 % 128
    let p := { Proto.empty with
      unit := .slice (lineDie line), reqr := 265, line, mask := wordMask off w.2,
      data := lineOf off w.2 (leNat ((bs.drop (w.1 - pa)).take w.2)), wmask := byteMask off w.2, lclk := s.ewCount,
      lease := cls, kind := .ewr, waiter := .engine }
    { s with ewCount := s.ewCount + 1 }.send (agentEngine cls unit) (agentSlice line) .ewr (.proto p)) s

/-- An engine write to a scratchpad, or to an operand window, leaves on its path (R275). -/
def State.engineStore (s : State) (cls unit : Nat) (t : CoreId) (window : Bool) (off : Nat) (bs : List Byte) : State :=
  { s with ewCount := s.ewCount + 1 }.send (agentEngine cls unit) (agentCore t) .ewr (.sector t window off bs cls s.ewCount)

/-- Is an engine write, of a class and a number that a test picks, on its way, queued at its home, or under way
there? -/
def State.ewrOut (s : State) (pick : Nat → Nat → Bool) : Bool :=
  let hit (p : Proto) : Bool := p.kind == .ewr && p.reqr == 265 && pick p.lease p.lclk
  s.pending.any (fun f =>
    match f.ev.arg with
    | .proto p => hit p
    | .sector _ _ _ _ cls num => pick cls num
    | _ => false) ||
  s.dies.any (fun d => d.2.sliceQueues.any (fun q => q.2.any hit) || d.2.home.any (fun l => l.2.cur.any hit))

/-- Has every write sent by the classes of a mask before number n been performed (R276)? -/
def State.markersBack (s : State) (mask : BitVec 6) (n : Nat) : Bool :=
  !s.ewrOut (fun cls num => mask.getLsbD cls && num < n) &&
  !(s.farWrites.any (fun p => mask.getLsbD p.2.cls && p.2.num < n && p.2.left != 0))

/-- An engine write of a class, numbered n, has been performed at logical time t: the marker of a fence that followed it
brings the time back (R276). -/
def State.wrote (s : State) (cls n t : Nat) : State :=
  let hit (y : Ctx) : Bool := y.markers != 64 && (BitVec.ofNat 6 y.markers).getLsbD cls && n < y.markerTime
  let note (y : Ctx) : Ctx := if hit y then { y with fenceTime := max y.fenceTime t } else y
  { s with
    ewTimes := Vector.ofFn (fun i => if i.val = cls then max t s.ewTimes[i] else s.ewTimes[i]),
    cores := if s.cores.any (fun p => p.2.ctxs.toList.any hit) then
        tabMap (fun _ k => { k with ctxs := k.ctxs.map note }) s.cores
      else s.cores }

/-- The highest logical time of any write of the classes of a mask performed so far (R276). -/
def State.markerTime (s : State) (mask : BitVec 6) : Nat :=
  (List.range 6).foldl (fun t i => if mask.getLsbD i then max t (s.ewTimes[i]?.getD 0) else t) 0

/-! ### Seal sessions abandoned (R320 to R322, R324) -/

/-- The 4,800 bytes of a seal record (R320). -/
def sealRecord (v : Session) (status counter : Nat) (device : BitVec 12) : List Byte :=
  let head := [word (status + 256), word v.hash.length, word counter,
    word (v.launch % 2 ^ 32 + v.domain.toNat * 2 ^ 32 + device.toNat * 2 ^ 48), v.usertag,
    v.key.zeroExtend 64].flatMap wordBytes
  head ++ v.hash.digest ++
    (List.range 4627).map (fun i => Config.signatureByte v.key.toNat counter i) ++ List.replicate 77 0

/-- A session ends: its key's counter rises, the signed record leaves on path H, and the reply (R320,
R321). The record's destination was placed when the session opened. -/
def State.closeSession (s : State) (die : DieId) (id : Nat) (v : Session) (abandoned : Bool)
    (cmd1 : Word) : State :=
  let counter := ((tabGet s.onyx.counters v.key.toNat).getD 0) + 1
  let s := { s with onyx := { s.onyx with counters := tabSet s.onyx.counters v.key.toNat counter } }
  let st := if abandoned then 1 else 0
  let rec_ := sealRecord v st counter s.device
  let s := (v.dest.foldl (fun (a : State × List Byte) d =>
    (a.1.engineWrite 5 die.val d.1 (a.2.take d.2), a.2.drop d.2)) (s, rec_)).1
  let s := s.mapDie die (fun d => { d with sessions := tabDel d.sessions id })
  let s := if abandoned then
    s.garnet 8 9 9 (kernelCore die).val v.domain.toNat (v.key.toNat + v.hash.length % 2 ^ 64 * 2 ^ 64)
    else s
  s.engineReply (kernelCore die) 19 5 die.val 1 v.core.val v.slot.val cmd1 v.domain (if abandoned then 30 else 0) id
    (word v.hash.length)

/-- Is a session one that the actor of a slot opened? -/
def State.openedBy (s : State) (c : CoreId) (n : SlotId) (v : Session) : Bool :=
  v.actor == (s.slot c n).actor && (v.actor != 0 || (v.core == c && v.slot == n))

/-- Someone no longer waits for a translation (R238), nor for words asked for from afar. -/
def State.leaveMisses (s : State) (g : ClusterId) (w : MissWaiter) : State :=
  let s := { s with farReads := s.farReads.filter (fun f => f.2.who != w) }
  if (s.cluster g).misses.any (fun p => p.2.waiters.any (·.who == w)) then
    s.mapCluster g (fun k => { k with misses := tabMap (fun _ m =>
      { m with waiters := m.waiters.filter (·.who != w) }) k.misses })
  else s

/-- Every session that a test picks is abandoned: queued ADDs and CLOSEs are answered ABANDONED, and what the first of them had
asked for is forgotten. -/
def State.abandonSessions (s : State) (pick : DieId → Session → Bool) : State :=
  (List.range 8).foldl (fun s d =>
    let die := dieNum d
    (s.die die).sessions.foldl (fun s p =>
      if pick die p.2 then
        let names (q : Command) : Bool := q.domain == p.2.domain &&
          bitsOf (q.payload[0]?.getD 0) 7 0 != 1 && bitsOf (q.payload[5]?.getD 0) 5 0 == p.1
        let gone := (s.die die).sealQueue.filter names
        let s := s.mapDie die (fun k => { k with
          sealQueue := k.sealQueue.filter (fun q => !names q),
          sealPins := if k.sealQueue.head?.any names then [] else k.sealPins })
        let s := gone.foldl (fun s q =>
          (s.leaveMisses (clusterOf (kernelCore die)) (.seal die q.id)).engineReply (kernelCore die) 19 5 d (bitsOf (q.payload[0]?.getD 0) 7 0) q.core.val q.slot.val
            (q.payload[1]?.getD 0) q.domain 30 p.1
            (word p.2.hash.length)) s
        s.closeSession die p.1 p.2 true p.2.reply
      else s) s) s

/-! ### Atomic chunks (R262 to R267) -/

/-- The scratchpad log undone, newest first; a sector is named by core × 2¹⁹ + offset. -/
def State.undoLog (s : State) (log : List (Nat × List Byte)) : State :=
  log.foldl (fun s e => s.spadWrite (coreOf (e.1 / Config.spadBytes)) (e.1 % Config.spadBytes) e.2) s

/-- The reservations and tokens of a slot's commit or serial run returned (R263, R267). -/
def State.freeSerial (s : State) (c : CoreId) (n : SlotId) : State :=
  let mine (o : Option (CoreId × SlotId)) : Bool := o == some (c, n)
  let left (t : Tab Reservation) : Tab Reservation :=
    (tabMap (fun _ r => { r with holders := r.holders.filter (· != (c, n)) }) t).filter (fun p => !p.2.holders.isEmpty)
  { s with
    deviceToken := if mine s.deviceToken then none else s.deviceToken,
    dies := tabMap (fun _ d => { d with
      token := if mine d.token then none else d.token,
      reserved := if d.reserved.isEmpty then d.reserved else left d.reserved }) s.dies }

/-- The same for the activation of a context. -/
def State.releaseSerial (s : State) (c : CoreId) (x : CtxId) : State :=
  let y := s.ctx c x
  match y.act, y.chunk.serial || !y.chunk.reserved.isEmpty with
  | some a, true =>
    (s.freeSerial c a.slot).mapCtx c x (fun y =>
      { y with chunk := { y.chunk with dieToken := false, deviceToken := false, reserved := [] } })
  | _, _ => s

/-- The grant in effect of the launch of an actor, CLKGS and CLKSEQ (R24). An actor of no launch has the nominal clocks and
sequence number 0 (assumption 87). -/
def State.slotGrant (s : State) (sl : Slot) : BitVec 32 × BitVec 32 :=
  match sl.launch.bind (tabGet s.launches) with
  | some l => (l.effective, BitVec.ofNat 32 l.effectiveSeq)
  | none => (clkReset, 0)

/-- The context of an activation loaded again as at handler entry (R265), that of a remote message as R378 has it. What has been
ordered of the activation stays ordered, and a grace period runs on. -/
def State.entryAgain (s : State) (c : CoreId) (x : CtxId) : Ctx :=
  let y := s.ctx c x
  match y.act with
  | none => y
  | some a =>
    let sl := s.slot c a.slot
    let g := s.slotGrant sl
    let remote : Bool := match a.msg.src with | .remote _ => true | _ => false
    let ordered (t : Stop) : Bool := match t with | .fault _ _ _ _ => false | _ => true
    { Ctx.entry c a.slot sl a.mbox a.msg none g.1 g.2 with
      issued := y.issued, blocked := y.blocked, acqSys := remote, graceEnd := y.graceEnd,
      stops := y.stops.filter ordered }

/-- Has a chunk touched lines homed on more than one die (R267)? -/
def Chunk.spansDies (k : Chunk) : Bool :=
  match (k.reads.map (·.1) ++ k.writes.map (·.line)).map lineDie with
  | [] => false
  | d :: r => r.any (· != d)

/-- An optimistic chunk aborts: its log is undone, its buffered and held work discarded, and the
activation starts again in serial mode (R266). -/
def State.abortChunk (s : State) (c : CoreId) (x : CtxId) : State :=
  let k := (s.ctx c x).chunk
  if k.active && !k.serial then
    let s := (s.releaseSerial c x).undoLog k.log
    let y := s.entryAgain c x
    s.mapCtx c x (fun _ => { y with chunk := { Chunk.none with
      active := true, serial := true, attempts := k.attempts, manyDies := k.manyDies || k.spansDies } })
  else s

/-! ### Ending an activation (R142) -/

/-- Messages that a slot holds in the core's store. -/
def Slot.stored (sl : Slot) : Nat := sl.mboxes.foldl (fun n m => n + m.waiting.length) 0

/-- Open gate levels of a context leave the guard's counts (R208). -/
def Guard.leave (g : Guard) (ls : List Level) : Guard :=
  ls.foldl (fun g l =>
    let n := (tabGet g.gateCounts l.gate.toNat).getD 0
    { g with gateCounts := if n ≤ 1 then tabDel g.gateCounts l.gate.toNat
        else tabSet g.gateCounts l.gate.toNat (n - 1) }) g

/-! ### Operand slots (R306, R307) -/

/-- Fields that every command has in common: dwords 0, 4 and 5. -/
def Command.dword (c : Command) (i : Nat) : Word := c.payload[i]?.getD 0
def Command.opc (c : Command) : Nat := bitsOf (c.dword 0) 7 0

/-- Fields of a matrix command (R327). -/
def Command.steps (c : Command) : Nat := bitsOf (c.dword 0) 29 22
def Command.acc (c : Command) : Fin 4 := Fin.ofNat 4 (bitsOf (c.dword 0) 21 20)
def Command.fmt (c : Command) : Nat := bitsOf (c.dword 0) 19 16
def Command.adds (c : Command) : Bool := bitsOf (c.dword 0) 15 14 == 1
def Command.isMma (c : Command) : Bool := c.opc == 1

/-- The A slot and the B slot of a step (R307). -/
def Command.slotA (c : Command) (i : Nat) : Nat := bitsOf (c.dword 3) 5 0 + i * bitsOf (c.dword 3) 11 6
def Command.slotB (c : Command) (i : Nat) : Nat := bitsOf (c.dword 3) 17 12 + i * bitsOf (c.dword 3) 23 18

/-- The slots a command names. -/
def Command.slots (c : Command) : List Nat :=
  if c.isMma then (List.range c.steps).flatMap (fun i => [c.slotA i, c.slotB i]) else []

/-- LEN of a copy (R297). -/
def Copy.len (v : Copy) : Nat := bitsOf v.w2 31 0

/-- Does an address lie in the operand window? -/
def inOperand (a : Word) : Bool :=
  Config.opwBase ≤ a.toNat && a.toNat < Config.opwBase + Config.opndBytes

/-- Does a copy in flight on the core still write an operand slot? -/
def Copy.writesSlot (v : Copy) (n : Nat) : Bool :=
  let lo := Config.opwBase + 4096 * n
  v.state != .ended && inOperand v.w1 && v.w1.toNat + v.prog < lo + 4096 && lo < v.w1.toNat + v.len

/-- Does a gather in flight still write an operand slot of a core? -/
def Gather.writesSlot (g : Gather) (c : CoreId) (n : Nat) : Bool :=
  g.opw && g.dcore == c && g.doff < 4096 * n + 4096 && 4096 * n < g.doff + g.n * g.rowBytes

/-- Is an engine write to some bytes of a core's scratchpad or operand window on its way? -/
def State.storeOut (s : State) (c : CoreId) (window : Bool) (lo hi : Nat) : Bool :=
  s.pending.any (fun f =>
    match f.ev.arg with
    | .sector t w off bs _ _ => t == c && w == window && off < hi && lo < off + bs.length
    | _ => false)

/-- Is an operand slot named by a queued or running command, or still written by a copy or a gather? -/
def State.slotInUse (s : State) (c : CoreId) (n : Nat) : Bool :=
  let x := (s.core c).matrix
  x.queue.any (·.slots.contains n) || x.running.any (·.cmd.slots.contains n) ||
  (s.core c).copies.toList.any (fun v => v.any (·.writesSlot n)) ||
  (s.cluster (clusterOf c)).gathers.any (·.writesSlot c n) || s.storeOut c true (4096 * n) (4096 * n + 4096)

/-- A slot zeroed. -/
def Core.zeroSlot (k : Core) (n : Nat) : Core :=
  { k with opnd := k.opnd.clear (4096 * n) 4096 }

/-- Is an actor that once was of a core there no more? -/
def Core.actorGone (k : Core) (a : Nat) : Bool := a != 0 && !k.slots.toList.any (·.actor == a)

/-- The slots claimed by actors that have been destroyed are zeroed and released, each as soon as no command names it
and nothing writes it (R306). -/
def State.releaseClaims (s : State) (c : CoreId) : State :=
  let k := s.core c
  let loose := (k.claims.filter (fun p => k.actorGone p.2.actor && !s.slotInUse c p.1)).map (·.1)
  if loose.isEmpty then s
  else s.mapCore c (fun k => loose.foldl (fun k n => Core.zeroSlot { k with claims := tabDel k.claims n } n) k)

/-- The regions of a slot zeroed and freed, with the shares that name them (R119, R123). -/
def State.freePlace (s : State) (c : CoreId) (n : SlotId) : State :=
  let s := (s.slot c n).regions.foldl (fun s r =>
    s.spadWrite c r.base (List.replicate r.size 0)) s
  let s := s.mapCore c (fun k =>
    { k with guard := { k.guard with shares := k.guard.shares.filter (fun p => p.2.slot != n) } })
  s.mapSlot c n (fun sl => { sl with regions := [] })

def Drain.lose (d : Drain) : Drain := { d with lost := true, out := false }

def Matrix.mapDrains (x : Matrix) (f : Drain → Drain) : Matrix := { x with drains := x.drains.map f }

/-- Is a drain to the actor of a slot in progress (R311)? -/
def Core.drainsTo (k : Core) (n : SlotId) : Bool := k.matrix.drains.any (fun d => bitsOf (d.cmd.dword 6) 24 20 == n.val)

/-- The slot of an actor becomes FREE (R119): its messages, frame and overflow queue are discarded,
its place and the slots it claimed freed, its sessions abandoned, its launch told. -/
def State.freeSlot (s : State) (c : CoreId) (n : SlotId) : State :=
  let sl := s.slot c n
  let s := s.freePlace c n
  let s := s.leaveTokens (.slot c n)
  let s := s.abandonSessions (fun _ => s.openedBy c n)
  let s := s.mapCore c (fun k =>
    { k with storeUsed := k.storeUsed - (if sl.state = .evicted then 0 else sl.stored), slots := k.slots.set n { Slot.free with former := sl.domain },
             guard := match sl.saved with | some v => k.guard.leave v.ctx.stack | none => k.guard,
             matrix := k.matrix.mapDrains (fun d =>
               if bitsOf (d.cmd.payload[6]?.getD 0) 24 20 = n.val then d.lose else d) })
  let s := s.releaseClaims c
  match sl.launch with
  | none => s
  | some l =>
    match tabGet s.launches l with
    | none => s
    | some r =>
      let actors := r.actors.map (fun a =>
        if a.core == c && a.slot == n then { a with destroyed := true } else a)
      let ended := if actors.all (fun a => a.destroyed || !a.created) && r.state != .creating then some s.quartz else r.endedAt
      { s with launches := tabSet s.launches l { r with actors, endedAt := ended } }

/-- Where the frame of a saved context stands: in its actor's save area, or in the image of an evicted actor (R357). -/
def State.frameAt (s : State) (c : CoreId) (n : SlotId) (v : Saved) : Nat :=
  match (s.slot c n).state, (s.slot c n).image with
  | .evicted, some (a, _) => a.toNat + 0x200
  | _, _ => v.ctx.frame.toNat

/-- The first doubleword of an evicted actor's image rewritten (R357, R364). -/
def State.imageHead (s : State) (c : CoreId) (n : SlotId) (f : Word → Word) : State :=
  match (s.slot c n).state, (s.slot c n).image with
  | .evicted, some (a, _) => s.kernelWrite c a.toNat (wordBytes (f (leWord (s.kernelRead c a.toNat 8))))
  | _, _ => s

/-- FINFO of a saved context rewritten in its frame. -/
def State.writeFinfo (s : State) (c : CoreId) (n : SlotId) (v : Saved) : State :=
  s.kernelWrite c (s.frameAt c n v + 0x20) (wordBytes v.finfo)

/-- The message of an ATOMIC mailbox released from its slot (R126). -/
def Mailbox.release (m : Mailbox) : Mailbox :=
  if m.running then { m with running := false, waiting := m.waiting.tail } else m

/-- The message of an activation of an ATOMIC mailbox leaves its slot: its chunk has committed or its run has ended (R126). -/
def State.releaseMsg (s : State) (c : CoreId) (a : Activation) : State :=
  let sl := s.slot c a.slot
  let held := (sl.mboxes[a.mbox]?.map (·.running)).getD false
  let s := s.mapSlot c a.slot (fun sl => { sl with mboxes := sl.mboxes.modify a.mbox Mailbox.release })
  if held && sl.state != .evicted then s.mapCore c (fun k => { k with storeUsed := k.storeUsed - 1 }) else s

/-- The actor of a slot after its activation has ended: IDLE, or FREE when it was DYING; the atomic
message leaves its slot. An evicted actor stays evicted, and its image says IDLE. -/
def State.leaveSlot (s : State) (c : CoreId) (a : Activation) : State :=
  let s := (s.releaseMsg c a).mapSlot c a.slot (fun sl => { sl with
    saved := none, state := if sl.state = .dying || sl.state = .evicted then sl.state else .idle })
  let s := s.imageHead c a.slot (fun w => (w &&& ~~~0xF0) ||| 0x10)
  if (s.slot c a.slot).state = .dying then s.freeSlot c a.slot else s

/-- A drain activation has ended: the next row follows, or the drain is lost (R311). -/
def State.drainStep (s : State) (c : CoreId) (m : Msg) (terminal : Bool) : State :=
  match m.src with
  | .drain _ a =>
    let next (d : Drain) : Drain := if terminal then d.lose else { d with out := false, row := d.row + 1 }
    s.mapCore c (fun k => { k with matrix := k.matrix.mapDrains (fun d => if d.acc = a then next d else d) })
  | _ => s

/-! ### Replies of the kernel's ports, and requests that cannot be served any more (R129, R354) -/

/-- A reply to a kernel request, from a port or the system actor of a core (R129, R239, R354). Its SENDER is the port,
mailbox 0 (of the system actor mailbox 1), its SEQ and domain are 0 (assumption 93). -/
def State.kernelReply (s : State) (c : CoreId) (port tag : Nat) (ep : Word) (payload : List Word) : State :=
  s.post (agentEngine 6 c.val)
    { dst := ep &&& 0xFFFFFFFE0000, sender := senderOf c.val port (if port = 0 then 1 else 0),
      tag := BitVec.ofNat 8 tag, seq := 0, payload, domain := 0, stamp := none, src := .engine c (Fin.ofNat 32 port) 0 c.val 0 }

/-- Replies of the system actor (R354). -/
def State.sysReply (s : State) (c : CoreId) (ep : Word) (status detail : Nat) : State :=
  s.kernelReply c 0 0x5F ep [word status, word detail]

/-- The pre-emptions ordered of an activation that is no longer there to be pre-empted are answered BADSTATE (R355). -/
def State.refusePreempts (s : State) (c : CoreId) (l : List Stop) : State :=
  l.foldl (fun s t =>
    match t with
    | .preempt r => s.sysReply c r 13 0
    | _ => s) s

/-! ### The posted stores of an activation (R272, R283) -/

/-- Does a posted store of a core belong to the present activation of a slot, wherever it was made? -/
def State.madeIn (s : State) (c : CoreId) (n : SlotId) (at_ : Nat) (q : Posted) : Bool :=
  let a := (s.slot c n).actor
  q.ctx.isSome && (if a = 0 then at_ == c.val && q.actor == 0 && q.slot == n else q.actor == a)

/-- The posted stores of the present activation of a slot that are not yet performed. -/
def State.postedOf (s : State) (c : CoreId) (n : SlotId) : List Posted :=
  s.cores.flatMap (fun p => p.2.posted.filter (s.madeIn c n p.1))

/-- The posted stores of the issuing activation that are not yet performed. -/
def State.myPosted (s : State) : List Posted :=
  match s.here.act with
  | none => []
  | some a => s.postedOf s.focus a.slot

/-- Those that are STFs. -/
def State.myStfs (s : State) : List Posted := s.myPosted.filter (·.stf)

/-- Is a plain store to host memory of the issuing activation still out (R278)? -/
def State.hostOut (s : State) : Bool := s.myPosted.any (!·.stf)

/-- They outlive their activation. -/
def State.leavePosted (s : State) (c : CoreId) (n : SlotId) : State :=
  { s with cores := tabMap (fun i k =>
      { k with posted := k.posted.map (fun q => if s.madeIn c n i q then { q with ctx := none } else q) }) s.cores }

/-! ### The end of an activation -/

/-- The activation bound to a context ends: its context is freed, its registers and queues discarded
(R142). Terminal says how. -/
def State.endActivation (s : State) (c : CoreId) (x : CtxId) (terminal : Bool) : State :=
  let y := s.ctx c x
  let s := (s.releaseSerial c x).refusePreempts c y.stops
  let s := (s.dropWaiter (.ctx c x)).leaveMisses (clusterOf c) (.ctx c x)
  let s := s.mapCore c (fun k =>
    { k with guard := k.guard.leave y.stack, ctxs := k.ctxs.set x { Ctx.reset with issued := y.issued } })
  match y.act with
  | none => s
  | some a =>
    let s := s.leavePosted c a.slot
    let s := if a.drain then s.drainStep c a.msg terminal else s
    s.leaveSlot c a

/-! ### Faults (R342, R343) -/

/-- Classes of R342. -/
def isRetryable (cause : Nat) : Bool := cause == 1 || cause == 2 || cause == 3

/-- What a fault names: its cause, the address, the access kind and the policy (R345, R350). -/
structure FaultInfo where
  cause : Nat
  addr : Word
  kind : Nat
  pol : Nat

def polCode : Pol → Nat
  | .own => 0
  | .thru => 1
  | .lease => 2
  | .track => 3

def finfoWord (f : FaultInfo) (token : Nat) : Word :=
  word (token % 2 ^ 16 + f.kind % 4 * 2 ^ 16 + f.pol % 4 * 2 ^ 18)

/-- The entry of a core's fault. -/
def coreEntry (c : CoreId) (y : Ctx) (f : FaultInfo) : Entry :=
  { detail := 0, addr := f.addr, domain := y.domain, core := c.val,
    slot := (y.act.map (·.slot.val)).getD 0, path := 0, kind := f.kind, status := 0, cause := f.cause }

/-- The report of a frame or level record that could not be written: to the retryable ring of the die, and Garnet
(R343, R344). -/
def State.reportFrame (s : State) (c : CoreId) (x : CtxId) : State :=
  let y := s.ctx c x
  let b := (coreEntry c y { cause := 36, addr := y.frame, kind := 1, pol := 0 }).bits s.quartz 0 1
  (s.ring (dieOf c).val b).garnet (dieOf c).val 2 0 c.val y.domain.toNat (b.toNat % 2 ^ 128)

/-- The activation is terminated because its frame or level record could not be written (R142, R344). -/
def State.frameLost (s : State) (c : CoreId) (x : CtxId) : State :=
  let y := s.ctx c x
  let s := s.reportFrame c x
  let s := if y.chunk.active && !y.chunk.serial then s.undoLog y.chunk.log else s
  let s := match y.act with
    | some a => s.abandonSessions (fun _ => s.openedBy c a.slot)
    | none => s
  s.endActivation c x true

/-! ### Saving a context (R344, R347) -/

/-- The saved form of a context, and its frame in kernel memory. Requests of the S pipe that were
blocked are saved as not yet executed. -/
def State.saveFrame (s : State) (c : CoreId) (x : CtxId) (reason cause : Nat) (waits : Cause)
    (faddr finfo : Word) (resumable : Bool) : State × Saved :=
  let s := s.abortChunk c x
  let y := s.ctx c x
  let k := s.core c
  let v : Saved :=
    { ctx := y.atSave, heldCtx := x, reason,
      cause, waits, faddr, finfo, lclk := k.lclk, time := s.quartz, order := k.acceptCount, resumable }
  let s := s.mapCore c (fun k => { k with acceptCount := k.acceptCount + 1 })
  (s.kernelWrite c y.frame.toNat (frameBytes v), v)

/-! ### Leaving a level (R215, R217, R218) -/

/-- The registers of a level record put back, the window kept or zeroed, s23 the status (R215, R217,
R218). -/
def Ctx.popLevel (x : Ctx) (l : Level) (rest : List Level) (keep : Bool) (status : Word) : Ctx :=
  let r := l.saved
  let win (i : Nat) : Bool := 16 ≤ i && i < 16 + l.ns
  let winV (i : Nat) : Bool := 24 ≤ i && i < 24 + l.nv
  { x with
    regs := Vector.ofFn (fun i =>
      if i.val = 23 then status
      else if win i.val then (if keep then x.regs[i] else 0) else r.regs[i]),
    vregs := Vector.ofFn (fun i =>
      if winV i.val then (if keep then x.vregs[i] else 0) else r.vregs[i]),
    kregs := r.kregs, queues := r.queues, loops := r.loops, tloops := r.tloops, tvec := r.tvec,
    tpc := r.tpc, tcause := r.tcause, tval := r.tval, tslot := r.tslot, fflags := r.fflags,
    lease := r.lease, batches := r.batches, domain := l.caller, stack := rest, pc := l.ret,
    slot := none, skip := false, vq := [], redo := [], op := none, wait := .run, watch := none, deadline := none,
    sendrec := none, markers := 0 }

/-- The levels from the top down to and including one are left. -/
def State.unwind (s : State) (c : CoreId) (x : CtxId) (n : Nat) (status : Word) : State :=
  let y := s.ctx c x
  let gone := y.stack.take n
  match gone.getLast? with
  | none => s
  | some l =>
    let l := s.levelRecord c y (y.stack.length + 1 - gone.length) l
    let s := (s.dropWaiter (.ctx c x)).leaveMisses (clusterOf c) (.ctx c x)
    s.mapCore c (fun k => { k with
      guard := k.guard.leave gone,
      ctxs := k.ctxs.set x (y.popLevel l (y.stack.drop n) false status) })

/-! ### Kills of a saved activation (R218, R219, R364) -/

/-- The activation of a slot, bound or saved, changed. -/
def State.mapActivation (s : State) (c : CoreId) (n : SlotId) (f : Ctx → Ctx) : State :=
  let mine (y : Ctx) : Bool := y.act.any (·.slot == n)
  let s := s.mapCore c (fun k => { k with ctxs := k.ctxs.map (fun y => if mine y then f y else y) })
  s.mapSlot c n (fun sl => { sl with saved := sl.saved.map (fun v => { v with ctx := f v.ctx }) })

/-- Is a domain killed at a core (R218)? -/
def State.killed (s : State) (c : CoreId) (d : BitVec 16) : Bool := (s.core c).guard.killed.contains d

/-- A saved context that no longer waits for a fault to be resolved: it is resumable, and its blocked instruction issues
again. -/
def Saved.faultOver (v : Saved) : Saved :=
  match v.waits with
  | .fault _ => { v with waits := .untaken, resumable := true, cause := 0, faddr := 0, finfo := 0 }
  | _ => v

/-- What a set of dead domains does to a context. -/
inductive KillEnd where
  | none
  | unwind (levels : Nat)
  | terminate
  | grace

/-- The lowest level whose callee is dead decides: its caller goes on when it is live. The stack stands
newest first; the count is of levels to leave. -/
def killDepth (dead : BitVec 16 → Bool) : List Level → Nat → Option (Nat × Level) → Option (Nat × Level)
  | [], _, found => found
  | l :: r, i, found => killDepth dead r (i + 1) (if dead l.callee then some (i + 1, l) else found)

/-- What a kill does to a context (R218). The origin of an activation in its grace period is dead, whatever killed it (R119,
R219). -/
def killEnd (dead : BitVec 16 → Bool) (y : Ctx) : KillEnd :=
  let gone (d : BitVec 16) : Bool := dead d || (y.graceEnd.isSome && d == y.origin)
  match killDepth dead y.stack 0 .none with
  | some (n, l) => if gone l.caller then .terminate else .unwind n
  | .none => if dead y.origin then (if y.stack.isEmpty then .terminate else .grace) else .none

/-- The dead domains of a core, and one more. -/
def State.dead (s : State) (c : CoreId) (also : BitVec 16) (d : BitVec 16) : Bool :=
  d == also || s.killed c d

/-- The grace period of an activation of a dead origin, counted from the kill; its slot is DYING. -/
def State.giveGrace (s : State) (c : CoreId) (n : SlotId) : State :=
  (s.mapActivation c n (fun y => { y with graceEnd := some (y.graceEnd.getD (s.quartz + 100000)) })).mapSlot
    c n (fun sl => { sl with state := .dying })

/-- A saved context leaves some levels, as a bound one does. -/
def State.unwindSaved (s : State) (c : CoreId) (n : SlotId) (levels : Nat) (status : Word) : State :=
  match (s.slot c n).saved with
  | none => s
  | some v =>
    let gone := v.ctx.stack.take levels
    match gone.getLast? with
    | none => s
    | some l =>
      let l := s.levelRecord c v.ctx (v.ctx.stack.length + 1 - gone.length) l
      let y := v.ctx.popLevel l (v.ctx.stack.drop levels) false status
      let v := { v with ctx := y }.faultOver
      let s := s.leaveTokens (.slot c n)
      let s := s.mapCore c (fun k => { k with guard := k.guard.leave gone })
      let s := s.mapSlot c n (fun sl => { sl with saved := some v })
      (s.kernelWrite c (s.frameAt c n v) (frameBytes v)).imageHead c n (fun w =>
        if v.resumable then w ||| 0x80 else w)

/-- A saved activation is terminated: its frame is discarded. -/
def State.endSaved (s : State) (c : CoreId) (n : SlotId) : State :=
  match (s.slot c n).saved with
  | none => s
  | some v =>
    let s := s.leaveTokens (.slot c n)
    let s := s.abandonSessions (fun _ => s.openedBy c n)
    let s := s.freeSerial c n
    let s := s.mapCore c (fun k => { k with
      guard := k.guard.leave v.ctx.stack })
    match v.ctx.act with
    | none => s
    | some a =>
      let s := if a.drain then s.drainStep c a.msg true else s
      s.leaveSlot c a

/-- A kill applied to a saved activation's frame. It leaves its token's waiters (R364): one that runs on in its grace period
issues its faulting instruction again. -/
def State.killSaved (s : State) (c : CoreId) (n : SlotId) (domain : BitVec 16) : State :=
  match (s.slot c n).saved with
  | none => s
  | some v =>
    let dead := s.dead c domain
    let grace (s : State) : State :=
      match (s.slot c n).saved with
      | some v =>
        if dead v.ctx.origin && !v.ctx.stack.isEmpty then
          ((s.leaveTokens (.slot c n)).mapSlot c n (fun sl => { sl with saved := some v.faultOver })).giveGrace c n
        else s
      | none => s
    match killEnd dead v.ctx with
    | .none => s
    | .grace => grace s
    | .terminate => s.endSaved c n
    | .unwind l => grace (s.unwindSaved c n l (BitVec.ofInt 64 (-2)))

/-- A halted activation: only DESTROY or a kill ends it (R355, R385). An evicted one's image says so too. -/
def State.haltSaved (s : State) (c : CoreId) (n : SlotId) : State :=
  ((s.leaveTokens (.slot c n)).mapSlot c n (fun sl => { sl with saved := sl.saved.map (fun v =>
    { v with waits := .tdisp, resumable := false, reason := 6 }) })).imageHead c n (· &&& ~~~0x80)

/-- What else had been ordered of an activation when it was saved: a pre-emption comes too late (R355); a TDISP halt and
kills meet the saved activation (R364, R385). -/
def State.stopsSaved (s : State) (c : CoreId) (n : SlotId) (l : List Stop) : State :=
  l.foldl (fun s t =>
    match t with
    | .kill d => s.killSaved c n d
    | _ => s) (if l.contains .tdisp then (s.refusePreempts c l).haltSaved c n else s.refusePreempts c l)

/-! ### Suspension -/

/-- The context is saved, its slot suspended and the context freed (R343, R355); or its frame cannot be written. -/
def State.suspend (s : State) (c : CoreId) (x : CtxId) (reason cause : Nat) (waits : Cause)
    (faddr finfo : Word) : State :=
  match (s.ctx c x).act with
  | none => s
  | some a =>
    if s.frameFails c (s.ctx c x).frame.toNat then s.frameLost c x else
    let stops := (s.ctx c x).stops
    let (s, v) := s.saveFrame c x reason cause waits faddr finfo false
    let s := (s.dropWaiter (.ctx c x)).leaveMisses (clusterOf c) (.ctx c x)
    let s := s.mapSlot c a.slot (fun sl => { sl with
      saved := some v, state := if sl.state = .active then .suspended else sl.state })
    let s := s.mapCore c (fun k => { k with ctxs := k.ctxs.set x { Ctx.reset with issued := v.ctx.issued } })
    s.stopsSaved c a.slot stops

/-! ### Delivery -/

/-- A retryable or machine-check fault: the frame, the suspension, and the token; or the wait at the
core while no token is free (R343, R352, R363). The frame is written before the entry (R344). -/
def State.deliverRetryable (s : State) (c : CoreId) (x : CtxId) (f : FaultInfo) : State :=
  let y := s.ctx c x
  let n : SlotId := (y.act.map (·.slot)).getD 0
  if s.frameFails c y.frame.toNat then s.frameLost c x else
  let (s, t) := s.raiseToken c (coreEntry c y f) (.slot c n)
  s.suspend c x 1 f.cause (.fault t) f.addr (finfoWord f t)

/-- A terminal fault: at depth 0 the frame, the entry and the end of the activation; inside a gate the
entry that names the callee and the return to the caller with GFAULT (R343, R217). A serial run gives back its reservations and
token (R267). -/
def State.deliverTerminal (s : State) (c : CoreId) (x : CtxId) (f : FaultInfo) : State :=
  let y := s.ctx c x
  let n : SlotId := (y.act.map (·.slot)).getD 0
  let s := s.report (dieOf c) (coreEntry c y f)
  let s := s.abandonSessions (fun _ => s.openedBy c n)
  if y.stack.isEmpty then
    let s := if y.chunk.active && !y.chunk.serial then s.undoLog y.chunk.log else s
    let s := s.mapCtx c x (fun y => { y with chunk := { y.chunk with active := y.chunk.serial } })
    let s := if s.frameFails c y.frame.toNat then s.reportFrame c x
      else (s.saveFrame c x 5 f.cause .untaken f.addr (finfoWord f 0) false).1
    s.endActivation c x true
  else (s.releaseSerial c x).unwind c x 1 (BitVec.ofInt 64 (-7))

/-- Any fault of an instruction of a context. A save waits until the V pipe has stopped (R347). -/
def State.deliver (s : State) (c : CoreId) (x : CtxId) (f : FaultInfo) : State :=
  if isRetryable f.cause then s.deliverRetryable c x f else s.deliverTerminal c x f

/-! ### Taking a local trap (R112, R113) -/

/-- Causes of R112. -/
def causeIllegal : Nat := 1
def causeFetchx : Nat := 2
def causeSlot : Nat := 3
def causeAlign : Nat := 4
def causeTrapi : Nat := 5
def causeBrk : Nat := 6
def causeQlock : Nat := 7

/-- TRAP ENTRY (R113): DOUBLE inside trap code, NOVEC without a vector (as faults of an execution with POL 0 at the address in
TVAL, assumption 89), else the saved registers, the
copied and disarmed loops, and the jump to TVEC. The trap is recorded in Garnet (R368). -/
def State.enterTrap (s : State) (c : CoreId) (x : CtxId) (code : Nat) (value tpc tslot : Word) : State :=
  let y := s.ctx c x
  let s := s.garnet (dieOf c).val 1 0 c.val y.domain.toNat (code + value.toNat * 2 ^ 64)
  if y.tcause ≠ 0 then s.deliver c x ⟨19, value, 2, 0⟩
  else if y.tvec = 0 then s.deliver c x ⟨20, value, 2, 0⟩
  else s.mapCtx c x (fun y => { y with
    tpc := addrField tpc, tcause := word code, tval := value, tslot := tslot, tloops := y.loops,
    loops := { y.loops with count0 := y.loops.count0 &&& 0x7FFFFFFFFFFFFFFF,
                            count1 := y.loops.count1 &&& 0x7FFFFFFFFFFFFFFF },
    pc := y.tvec, slot := none, skip := false, wait := .run })

/-- A trap of the instruction at pc before it completes: TPC its address, TSLOT its delay slot (R101).
It waits for the V pipe (R21). -/
def State.trapAt (s : State) (c : CoreId) (x : CtxId) (code : Nat) (value : Word) : State :=
  let y := s.ctx c x
  if y.vIdle then s.enterTrap c x code value y.pc (slotWord y.pc y.slot)
  else s.mapCtx c x (fun y => { y with wait := .vIdle })

/-- A trap of the issuing instruction. -/
def trap (s : State) (code : Nat) (value : Word) : Result := .next (s.trapAt s.focus s.hereX code value)

/-- A trap taken once its instruction has completed: TRAP and BRK (R101, R114). -/
def trapAfter (s : State) (len code : Nat) (value : Word) : Result :=
  if s.here.vIdle then
    let s := s.retire len
    .next (s.enterTrap s.focus s.hereX code value s.here.pc 0)
  else waitFor s .vIdle

/-- RETURN FROM A TRAP (R115): the loops come back, TCAUSE clears, and the instruction at TPC follows,
as a delay slot when PEND is set. -/
def Ctx.trapReturn (x : Ctx) : Ctx :=
  { x with
    loops := x.tloops, tcause := 0, pc := x.tpc,
    slot := if bitOf x.tslot 63 then
        some { dest := addrField x.tslot, taken := true, link := 0, branch := none, resolved := true, disarm := false }
      else none }

/-- An encoding or use that is forbidden: the local trap ILLEGAL with the first doubleword (R53). The
words of the instruction are read again where it was fetched from. -/
def illegal (s : State) (first : Word) : Result := trap s causeIllegal first

end Sys2Proof.Machine
end

