-- ==== Sys2Proof/Machine/Operands.lean ====
section
/-! DEFINITION. Operand forms: reading the sources of an instruction with their pops (R16, R40, R84),
writing its destination (R12, R16), elements of vector registers and masks (R13, R14, R167), addresses
of format M (R46, R107), dispatch to the V pipe (R19, R20), and the arguments of device steps. -/

namespace Sys2Proof.Machine

/-! ### Sources and destinations of the S pipe -/

/-- One source: a register, an entry popped, or the immediate. None when its queue is empty (R16). -/
def Ctx.takeOne (x : Ctx) (imm : Word) : Opnd → Option (Word × Ctx)
  | .r n => some (x.reg n, x)
  | .q n =>
    match x.queue n with
    | [] => none
    | v :: r => some (v, x.setQueue n r)
  | .imm => some (imm, x)

/-- The sources in order, all pops together (R16). -/
def Ctx.take (x : Ctx) (imm : Word) : List Opnd → Option (List Word × Ctx)
  | [] => some ([], x)
  | o :: r =>
    match x.takeOne imm o with
    | none => none
    | some (v, x) =>
      match x.take imm r with
      | none => none
      | some (vs, x) => some (v :: vs, x)

/-- Source i of those read. -/
def nth (vs : List Word) (i : Nat) : Word := vs[i]?.getD 0

/-- Entries that some sources pop, by queue. -/
def popNeeds (ops : List Opnd) : List (Fin 8 × Nat) :=
  (List.range 8).filterMap (fun n =>
    let q : Fin 8 := Fin.ofNat 8 n
    let k := (ops.filter (· == .q q)).length
    if k = 0 then none else some (q, k))

/-- A result written: to a register, or pushed (R12, R16). -/
def Ctx.put (x : Ctx) (d : Opnd) (v : Word) : Ctx :=
  match d with
  | .r n => x.setReg n v
  | .q n => x.push n v
  | .imm => x

/-- The queue that a destination pushes to when it is full (R17). -/
def Ctx.fullQueue (x : Ctx) : Opnd → Option (Fin 8)
  | .q n => if queueRoom ≤ (x.queue n).length then some n else none
  | _ => none

/-- An S-pipe instruction of len bytes with sources, a destination and flags (R84, R91): it waits for
room and entries, then all of it takes place. -/
def scalarOp (len : Nat) (d : Opnd) (ops : List Opnd) (imm : Word) (f : List Word → Word × BitVec 5)
    (s : State) : Result :=
  let x := s.here
  match x.fullQueue d with
  | some q => waitFor s (.push q)
  | none =>
    match x.take imm ops with
    | none => waitFor s (.pop (popNeeds ops))
    | some (vs, x') =>
      let (v, fl) := f vs
      .next (s.mapHere (fun _ => ((x'.raise fl).put d v).retire len))

/-- An S-pipe instruction with one operand A and a register result, for which g gives the next state
from the context after the pop. -/
def withOperands (ops : List Opnd) (imm : Word) (s : State) (g : List Word → State → Result) : Result :=
  match s.here.take imm ops with
  | none => waitFor s (.pop (popNeeds ops))
  | some (vs, x) => g vs (s.mapHere (fun _ => x))

/-- The same, for a step that may still wait: pops are taken only when it goes on. -/
def peekOperands (ops : List Opnd) (imm : Word) (s : State)
    (g : List Word → (State → State) → Result) : Result :=
  match s.here.take imm ops with
  | none => waitFor s (.pop (popNeeds ops))
  | some (vs, x) => g vs (fun s => s.mapHere (fun y => { y with queues := x.queues }))

def FmtA.len (o : FmtA) : Nat := lenImm o.imm

/-- The immediate of a format A instruction as bits of its type (R40). -/
def FmtA.immWord (o : FmtA) (t : Ty) : Word := word (immBits t o.imm)

/-- Sources of an integer type as exact integers, negated where NA, NB or NC says so (R84). -/
def intSources (t : Ty) (ms : List SrcMod) (vs : List Word) : List Int :=
  (vs.zip ms).map (fun p =>
    let v := if p.2.neg then (0 : Word) - p.1 else p.1
    intOf t v.toNat)

/-- An integer instruction of R84: f on exact values, the result wrapped and extended. -/
def intOp (o : FmtA) (ops : List Opnd) (f : List Int → Int) (s : State) : Result :=
  scalarOp (FmtA.len o) o.d ops (FmtA.immWord o o.t)
    (fun vs => (extend o.t (wrapBits o.t.width (f (intSources o.t [o.ma, o.mb, o.mc] vs))), 0)) s

/-- A floating-point instruction of R91: the exact value, scaled, rounded once and clamped. -/
def floatOp (o : FmtA) (ops : List Opnd) (f : List Num → Num × BitVec 5) (s : State) : Result :=
  scalarOp (FmtA.len o) o.d ops (FmtA.immWord o o.t)
    (fun vs =>
      let xs := (vs.zip [o.ma, o.mb, o.mc]).map (fun p => SrcMod.apply p.2 (numOf o.t p.1.toNat))
      let (v, fl) := f xs
      let (b, fl) := finishFloat o.t o.dscale o.clamp v fl
      (word b, fl)) s

/-! ### Vector registers, elements and masks -/

/-- Element e of w bits (R13). -/
def elem (v : VecWord) (w e : Nat) : Nat := v.toNat / 2 ^ (w * e) % 2 ^ w

/-- A vector register from its elements. -/
def ofElems (w n : Nat) (f : Nat → Nat) : VecWord :=
  BitVec.ofNat 1024 ((List.range n).foldr (fun e a => f e % 2 ^ w + 2 ^ w * a) 0)

/-- A mask from its bits, zero above the count (R14). -/
def ofBits (n : Nat) (f : Nat → Bool) : MaskWord :=
  BitVec.ofNat 128 ((List.range n).foldr (fun e a => (if f e then 1 else 0) + 2 * a) 0)

/-- Elements of a result under a mask: merged with the old ones, or zeroed (R167). -/
def maskElems (w n : Nat) (old : VecWord) (k : MaskWord) (z : Bool) (f : Nat → Nat) : VecWord :=
  ofElems w n (fun e => if k.getLsbD e then f e else if z then 0 else elem old w e)

/-- A V-pipe source by element: a vector register, an entry popped, or the immediate (R16, R168). -/
def Ctx.vsource (x : Ctx) (t : Ty) (imm : Word) : Opnd → Option ((Nat → Nat) × Ctx)
  | .r n => some (elem (x.vreg n) t.width, x)
  | .q n =>
    match x.queue n with
    | [] => none
    | v :: r => some (fun _ => v.toNat % 2 ^ t.width, x.setQueue n r)
  | .imm => some (fun _ => imm.toNat % 2 ^ t.width, x)

def Ctx.vsources (x : Ctx) (t : Ty) (imm : Word) : List Opnd → Option (List (Nat → Nat) × Ctx)
  | [] => some ([], x)
  | o :: r =>
    match x.vsource t imm o with
    | none => none
    | some (v, x) =>
      match x.vsources t imm r with
      | none => none
      | some (vs, x) => some (v :: vs, x)

/-- A V-pipe instruction dispatched (R20). -/
def Ctx.enqueue (x : Ctx) (e : VEntry) : Ctx := { x with vq := x.vq ++ [e] }

/-- A V-pipe instruction of the S pipe's program order: it takes place at once when the V pipe is empty
and its queues are ready, else it is dispatched; a 33rd stalls (R20). The effect is none while it is
blocked on a queue. -/
def vDispatch (i : Instr) (len : Nat) (eff : Ctx → Option Ctx) (s : State) : Result :=
  let x := s.here
  if 32 ≤ x.vq.length then waitFor s .vFull
  else
    let append : Result := .next (s.mapHere (fun x => (x.enqueue ⟨x.pc, i, 0, 0, 0, [], []⟩).retire len))
    if x.vq.isEmpty && x.op.isNone then
      match eff x with
      | some x' => .next (s.mapHere (fun _ => x'.retire len))
      | none => append
    else append

/-! ### Addresses of format M -/

def Off.word : Off → Word
  | .off16 x => x.signExtend 64
  | .off32 x => x.signExtend 64

def FmtM.len (m : FmtM) : Nat := lenOff m.off

/-- ea of R107 and R280, modulo 2^64; scale is the access size. -/
def FmtM.ea (m : FmtM) (x : Ctx) (scale : Nat) : Word :=
  let idx := match m.am, m.idx with
    | .scaled, some n => x.reg n * word scale
    | _, _ => 0
  x.reg m.base + idx + Off.word m.off

/-! ### Format S -/

/-- The immediate of a format S operand. -/
def immS (imm : Imm) : Word := imm.word

/-! ### Arguments of device steps -/

/-- No such step: what it names does not exist. -/
def noSuch : Result := .fault .noSuchThing

def withMsg (s : State) (f : CoreId → Msg → Result) : Result :=
  match s.arg with
  | .msg m => f (coreOf (bitsOf m.dst 35 25)) m
  | _ => noSuch

def withProto (s : State) (f : Proto → Result) : Result :=
  match s.arg with
  | .proto p => f p
  | _ => noSuch

def withNums (s : State) (f : Nat → Nat → Nat → Result) : Result :=
  match s.arg with
  | .nums a b c => f a b c
  | _ => noSuch

def withCore (s : State) (f : CoreId → Result) : Result := withNums s (fun a _ _ => f (coreOf a))

def withCtx (s : State) (f : CoreId → CtxId → Result) : Result :=
  withNums s (fun a b _ => f (coreOf a) (ctxOf b))

/-- The step takes place, or nothing does. -/
@[inline] def stepIf (s : State) (c : Bool) (t : State) : Result := .next (if c then t else s)

end Sys2Proof.Machine
end

