-- ==== Sys2Proof/Machine/Control.lean ====
section
/-! DEFINITION. Branches, hardware loops, special registers and local traps (R95 to R115). -/

namespace Sys2Proof.Machine

/-- The first doubleword of an instruction (R33): TVAL of ILLEGAL (R53). -/
def firstDword (i : Instr) : Word :=
  match encode i with
  | some (a :: b :: _) => word (a.toNat + 2 ^ 32 * b.toNat)
  | some [a] => word a.toNat
  | _ => 0

/-- A use that the instruction's entry forbids (R53). -/
def illegalUse (s : State) (i : Instr) : Result := illegal s (firstDword i)

/-- An optimistic chunk aborts at once where the instruction may not run in one (R266). -/
def noChunk (s : State) (r : Result) : Result :=
  if s.here.chunk.active && !s.here.chunk.serial then .next (s.abortChunk s.focus s.hereX) else r

/-! ### Branches -/

/-- Does the instruction at pc stand at the end of an armed loop? -/
def Ctx.atLoopEnd (x : Ctx) : Bool :=
  (bitOf x.loops.count0 63 && x.loops.end0 == x.pc) ||
  (bitOf x.loops.count1 63 && x.loops.end1 == x.pc)

/-- A branch completes: its link is written and its slot is next (R99). The link is right for a slot of 8 bytes; the
fetch of the slot, which tells its length, puts it right for any other (assumption 12). -/
def Ctx.branch (x : Ctx) (taken : Bool) (dest : Word) (link : Fin 32) (disarm : Bool) : Ctx :=
  { x.setReg link (x.pc + 16) with
    pc := x.pc + 8,
    slot := some { dest, taken, link, branch := some x.pc, resolved := false, disarm } }

/-- A branch at the end of an armed loop is ILLEGAL (R105). -/
def branchOp (i : Instr) (s : State) (f : Ctx → Ctx) : Result :=
  if s.here.atLoopEnd then illegalUse s i else .next (s.mapHere f)

/-- A condition on a and b (R48). -/
def condHolds (cond : Cond) (a b : Word) : Bool :=
  match cond with
  | .always => true
  | .eq => a == b
  | .ne => a != b
  | .lt => a.slt b
  | .ge => !a.slt b
  | .ltn => a.ult b
  | .gen => !a.ult b
  | .z => a == 0
  | .nz => a != 0
  | .bit => bitOf a (b.toNat % 64)

def relTarget (x : Ctx) (off : BitVec 32) : Word := x.pc + off.signExtend 64 * 4

def execB (cond : Cond) (ra rb : Fin 32) (off : BitVec 32) (s : State) : Result :=
  branchOp (.b cond ra rb off) s (fun x =>
    x.branch (condHolds cond (x.reg ra) (x.reg rb)) (relTarget x off) 0 true)

def execCall (off : BitVec 32) (s : State) : Result :=
  branchOp (.call off) s (fun x => x.branch true (relTarget x off) 31 false)

def execBr (rd ra : Fin 32) (off : BitVec 32) (s : State) : Result :=
  if s.here.atLoopEnd then illegalUse s (.br rd ra off)
  else
    let dest := s.here.reg ra + off.signExtend 64 * 4
    if dest &&& 0xFF00000000000003 ≠ 0 then trap s causeAlign dest
    else .next (s.mapHere (fun x => x.branch true dest rd false))

def execBq (cond : Cond) (qa : Fin 8) (rb : Fin 32) (off : BitVec 32) (s : State) : Result :=
  if s.here.atLoopEnd then illegalUse s (.bq cond qa rb off)
  else
    match s.here.queue qa with
    | [] => waitFor s (.pop [(qa, 1)])
    | v :: r =>
      .next (s.mapHere (fun x =>
        (x.setQueue qa r).branch (condHolds cond v (x.reg rb)) (relTarget x off) 0 true))

/-! ### Loops -/

/-- Loop n armed or not, with its registers (R102). -/
def Loops.set (l : Loops) (n : Fin 2) (start fin count : Word) : Loops :=
  if n.val = 0 then { l with start0 := start, end0 := fin, count0 := count }
  else { l with start1 := start, end1 := fin, count1 := count }

/-- LOOP (R102). With a count of 0 the end check of another loop that ends at the LOOP itself decides the next PC before the
rule's own (assumption 88). That the instruction at LnEND is to be passed is kept beside the frame, through a fault of the
fetch there or a stop before it (assumption 105). -/
def execLoop (n : Fin 2) (count : LoopCount) (off : BitVec 32) (s : State) : Result :=
  let op : Opnd := match count with | .reg r => .r r | .queue q => .q q | .imm16 _ => .imm
  let imm : Word := match count with | .imm16 v => v.zeroExtend 64 | _ => 0
  withOperands [op] imm s (fun vs s =>
    let v := nth vs 0
    let cnt := if v.toInt ≤ 0 then 0 else min v.toNat 0xFFFFFFFF
    .next (s.mapHere (fun x =>
      let fin := addrField (x.pc + off.signExtend 64 * 4)
      let l := x.loops.set n (addrField (x.pc + 12)) fin
        (if cnt = 0 then 0 else word cnt ||| 0x8000000000000000)
      if cnt = 0 then
        let (y, j) := { x with loops := l }.loopEnds
        { y with pc := j.getD fin, skip := j.isNone }
      else { x with loops := l }.retire 12)))

def execLbrk (n : Fin 2) (s : State) : Result :=
  let off (c : Word) : Word := c &&& 0x7FFFFFFFFFFFFFFF
  done (s.mapHere (fun x => { x with loops :=
    if n.val = 0 then { x.loops with count0 := off x.loops.count0 }
    else { x.loops with count1 := off x.loops.count1 } })) 8

/-! ### Special registers (R24, R108, R109) -/

/-- CLKEF (R161): in the matrix and vector domains the largest grant in effect of a launch resident on the
core's quad, in the network and memory domains of one resident on its die; nominal where there is none. -/
def State.clkef (s : State) (c : CoreId) : BitVec 32 :=
  let resident (l : Launch) : Bool := l.effectiveSeq != 0 && l.state != .completed
  let on (near : CoreId → Bool) (i : Nat) : Option Nat :=
    s.launches.foldl (fun a p =>
      if resident p.2 && p.2.actors.any (fun v => !v.destroyed && dieOf v.core == dieOf c && near v.core) then
        some (max (a.getD 0) (bitsOf p.2.effective (8 * i + 7) (8 * i)))
      else a) none
  let field (i : Nat) : Nat :=
    (on (fun v => 1 < i || quadOf v == quadOf c) i).getD (bitsOf clkReset (8 * i + 7) (8 * i))
  BitVec.ofNat 32 ((List.range 4).foldl (fun a i => a + field i * 2 ^ (8 * i)) 0)

/-- Does the activation belong to no launch and to the kernel domain (R24)? -/
def State.kernelClock (s : State) : Bool :=
  match s.here.act with
  | some a => s.here.origin == 0 && (s.slot s.focus a.slot).launch.isNone
  | none => false

/-- The value of a special register. -/
def State.special (s : State) (r : Spr) : Word :=
  let x := s.here
  let k := s.hereCore
  match r with
  | .core => s.coreReg s.focus
  | .self => x.self
  | .domain => x.domain.zeroExtend 64
  | .ddepth => word x.ddepth
  | .origin => x.origin.zeroExtend 64
  | .tbase => word s.quartz
  | .lclk => word k.lclk
  | .cycle => word k.cycle
  | .fflags => x.fflags.zeroExtend 64
  | .clkgs => if s.kernelClock then (s.clkef s.focus).zeroExtend 64 else x.clkgs.zeroExtend 64
  | .clkef => (s.clkef s.focus).zeroExtend 64
  | .clkseq => if s.kernelClock then 0 else x.clkseq.zeroExtend 64
  | .l0start => x.loops.start0
  | .l0end => x.loops.end0
  | .l0count => x.loops.count0
  | .l1start => x.loops.start1
  | .l1end => x.loops.end1
  | .l1count => x.loops.count1
  | .lease => x.lease
  | .tvec => x.tvec
  | .tpc => x.tpc
  | .tcause => x.tcause
  | .tval => x.tval
  | .tslot => x.tslot
  | .tl0start => x.tloops.start0
  | .tl0end => x.tloops.end0
  | .tl0count => x.tloops.count0
  | .tl1start => x.tloops.start1
  | .tl1end => x.tloops.end1
  | .tl1count => x.tloops.count1
  | .budget => k.budgetWord x
  | .msghdr => x.msghdr
  | .frame => x.frame

def execRds (d : Opnd) (r : Spr) (s : State) : Result :=
  if r = .fflags && !s.here.vIdle then waitFor s .vIdle
  else if r = .lclk && !s.here.memFree then waitFor s (s.here.memWait.getD .memory)
  else scalarOp 8 d [] 0 (fun _ => (s.special r, 0)) s

/-- LEASE as it takes a value (R29). -/
def leaseField (v : Word) : Word := word (min (max v.toNat 256) 16384)

/-- The registers that the general WRS row writes; the others are read-only or have a row of their own
(R24, R29, R109). -/
def Ctx.writeSpecial (x : Ctx) (r : Spr) (v : Word) : Ctx :=
  match r with
  | .lease => { x with lease := leaseField v }
  | .tvec => { x with tvec := addrField v }
  | .tpc => { x with tpc := addrField v }
  | .tval => { x with tval := v }
  | .tslot => { x with tslot := v &&& 0x80FFFFFFFFFFFFFC }
  | .tl0start => { x with tloops := { x.tloops with start0 := addrField v } }
  | .tl0end => { x with tloops := { x.tloops with end0 := addrField v } }
  | .tl0count => { x with tloops := { x.tloops with count0 := countBits v } }
  | .tl1start => { x with tloops := { x.tloops with start1 := addrField v } }
  | .tl1end => { x with tloops := { x.tloops with end1 := addrField v } }
  | .tl1count => { x with tloops := { x.tloops with count1 := countBits v } }
  | _ => x

def execWrs (r : Spr) (a : Opnd) (imm : Imm) (s : State) : Result :=
  withOperands [a] (immS imm) s (fun vs s =>
    done (s.mapHere (·.writeSpecial r (nth vs 0))) (lenImm imm))

def execWrsFflags (a : Opnd) (imm : Imm) (s : State) : Result :=
  if !s.here.vIdle then waitFor s .vIdle
  else withOperands [a] (immS imm) s (fun vs s =>
    done (s.mapHere (fun x => { x with fflags := (nth vs 0).truncate 5 })) (lenImm imm))

def Loops.write (l : Loops) (r : LoopReg) (v : Word) : Loops :=
  match r with
  | .start0 => { l with start0 := addrField v }
  | .end0 => { l with end0 := addrField v }
  | .count0 => { l with count0 := countField v }
  | .start1 => { l with start1 := addrField v }
  | .end1 => { l with end1 := addrField v }
  | .count1 => { l with count1 := countField v }

/-- The write takes effect for the next instruction: the WRS makes its own end check before (R29). -/
def execWrsLoopRegister (r : LoopReg) (a : Opnd) (imm : Imm) (s : State) : Result :=
  withOperands [a] (immS imm) s (fun vs s =>
    .next ((s.retire (lenImm imm)).mapHere (fun x => { x with loops := x.loops.write r (nth vs 0) })))

def execWrsTcause (a : Opnd) (imm : Imm) (s : State) : Result :=
  withOperands [a] (immS imm) s (fun vs s =>
    done (s.mapHere (fun x => { x with tcause := nth vs 0 &&& 0xFF })) (lenImm imm))

def execQstat (rd : Fin 32) (s : State) : Result :=
  done (s.mapHere (fun x => x.setReg rd (qstatWord x))) 8

/-! ### Traps (R114, R115) -/

def execTrap (n : BitVec 16) (s : State) : Result :=
  noChunk s (trapAfter s 8 causeTrapi (n.zeroExtend 64))

def execBrk (n : BitVec 16) (s : State) : Result :=
  noChunk s (trapAfter s 8 causeBrk (n.zeroExtend 64))

def execTret (s : State) : Result :=
  if s.here.tcause = 0 then illegalUse s .tret else .next (s.mapHere (·.trapReturn))

end Sys2Proof.Machine
end

