-- ==== Sys2Proof/Machine/Special.lean ====
section
/-! DEFINITION. VEXP2, VLOG2 and VTANH (R175): the exact value to more bits than any rounding of f16,
bf16 or f32 can need, with a last bit that says the rest is not zero (assumption 11). The exact cases
are treated by themselves. -/

namespace Sys2Proof.Machine

/-- Fraction bits of the fixed-point values below. -/
def fixBits : Nat := 400

/-- 1 in fixed point. -/
def fixOne : Nat := 2 ^ fixBits

/-- Σ z^(2k+1) / (2k+1), from a term index on: atanh of a z of at most 1/3. -/
def atanhFrom : Nat → Nat → Nat → Nat → Nat
  | 0, _, _, _ => 0
  | n + 1, pow, zz, k => pow / (2 * k + 1) + atanhFrom n (pow * zz / fixOne) zz (k + 1)

def atanhFix (z : Nat) : Nat := atanhFrom 140 z (z * z / fixOne) 0

/-- ln 2 = 2 atanh(1/3). -/
def ln2Fix : Nat := 2 * atanhFix (fixOne / 3)

/-- Σ x^k / k!, from a term on. -/
def expFrom : Nat → Nat → Nat → Nat → Nat
  | 0, _, _, _ => 0
  | n + 1, term, x, k => term + expFrom n (term * x / fixOne / (k + 1)) x (k + 1)

/-- e^x for x below 1. -/
def expFix (x : Nat) : Nat := expFrom 90 fixOne x 0

/-- A value v × 2^(−fixBits) × 2^e that is not exact: a last bit 1 stands for the rest. -/
def sticky (neg : Bool) (v : Nat) (e : Int) : Num := .fin neg (2 * v + 1) (e - fixBits - 1)

/-- ± m × 2^e in fixed point, towards −∞: the whole part and the fraction. -/
def splitFix (neg : Bool) (m : Nat) (e : Int) : Int × Nat :=
  let v : Int := if 0 ≤ e + fixBits then ((m * 2 ^ (e + fixBits).toNat : Nat) : Int)
    else ((m / 2 ^ (-(e + fixBits)).toNat : Nat) : Int)
  let v := if neg then -v else v
  (v / (fixOne : Int), (v % (fixOne : Int)).toNat)

/-- 2^a. A magnitude of 2^12 or more is taken as 2^12: the result is beyond every format either way. -/
def fExp2 (a : Num) : Num × BitVec 5 :=
  match a with
  | .nan s => (.nan false, flagIf s flagNV)
  | .inf n => (if n then .fin false 0 0 else .inf false, 0)
  | .fin n m e =>
    if m = 0 then (.fin false 1 0, 0)
    else if 12 ≤ e + Nat.log2 m then (.fin false 1 (if n then -4096 else 4096), 0)
    else
      let (w, f) := splitFix n m e
      if f = 0 then (.fin false 1 w, 0)
      else (sticky false (expFix (f * ln2Fix / fixOne)) w, 0)

/-- log₂ a: exact for a power of two; else whole part and 2 atanh((y − 1)/(y + 1)) / ln 2 of the
significand y. -/
def fLog2 (a : Num) : Num × BitVec 5 :=
  match a with
  | .nan s => (.nan false, flagIf s flagNV)
  | .inf n => if n then (.nan false, flagNV) else (.inf false, 0)
  | .fin n m e =>
    if m = 0 then (.inf true, flagDZ)
    else if n then (.nan false, flagNV)
    else
      let l := Nat.log2 m
      let w : Int := e + l
      if m = 2 ^ l then (.fin (w < 0) w.natAbs 0, 0)
      else
        let y := m * 2 ^ (fixBits - l)
        let z := (y - fixOne) * fixOne / (y + fixOne)
        let f := 2 * atanhFix z * fixOne / ln2Fix
        let v : Int := w * (fixOne : Int) + (f : Int)
        (if 0 ≤ v then sticky false v.toNat 0 else sticky true (v.natAbs - 1) 0, 0)

/-- x squared n times. -/
def squareTimes : Nat → Nat → Nat
  | 0, x => x
  | n + 1, x => squareTimes n (x * x / fixOne)

/-- tanh a. Below 2^−60 in magnitude it lies just under a; above 2^6, just under 1. -/
def fTanh (a : Num) : Num × BitVec 5 :=
  match a with
  | .nan s => (.nan false, flagIf s flagNV)
  | .inf n => (.fin n 1 0, 0)
  | .fin n m e =>
    if m = 0 then (.fin n 0 0, 0)
    else
      let top := e + Nat.log2 m
      if top < -60 then (.fin n (m * 2 ^ 90 - 1) (e - 90), 0)
      else if 6 ≤ top then (.fin n (2 ^ 90 - 1) (-90), 0)
      else
        let (w, f) := splitFix false m (e - 7)
        let x := squareTimes 8 (expFix (w.toNat * fixOne + f))
        let q := (x - fixOne) * fixOne / (x + fixOne)
        (sticky n q 0, 0)

end Sys2Proof.Machine
end

