-- ==== Sys2Proof/Machine/Vector.lean ====
section
/-! DEFINITION. Vector, mask and queue instructions (R166 to R186, R193 to R196), one meaning each. An
effect acts on a context alone and is none while a queue holds it up; the meaning dispatches it to the
V pipe, and vEffect is what the V pipe performs when its turn comes. -/

namespace Sys2Proof

/-- The number of a vector register field. -/
def Opnd.vnum : Opnd → Fin 32
  | .r n => n
  | _ => 0

/-- The number of a mask register field. -/
def Opnd.knum : Opnd → Fin 8
  | .r n => Fin.ofNat 8 n.val
  | _ => 0

/-- The number of a queue field. -/
def Opnd.qnum : Opnd → Fin 8
  | .q n => n
  | _ => 0

end Sys2Proof

namespace Sys2Proof.Machine

/-- What a V-pipe instruction does to its context, once its queues are ready. -/
abbrev Effect := Ctx → Option Ctx

/-- A vector source, or zero where the entry has fewer. -/
def vsrc (vs : List (Nat → Nat)) (i e : Nat) : Nat := (vs[i]?.getD (fun _ => 0)) e

/-- The sources popped and read, then what is done with them. -/
def withSources (o : FmtA) (ops : List Opnd) (g : List (Nat → Nat) → Ctx → Option Ctx) : Effect :=
  fun x => (x.vsources o.t (FmtA.immWord o o.t) ops).bind (fun p => g p.1 p.2)

/-- The result elements written under the mask (R62, R167). -/
def Ctx.writeElems (x : Ctx) (o : FmtA) (f : Nat → Nat) : Ctx :=
  let d := o.d.vnum
  x.setVreg d (maskElems o.t.width o.t.count (x.vreg d) (x.mask o.k) o.z f)

/-- The elements of a type that a mask picks. -/
def Ctx.activeElems (x : Ctx) (k : Fin 8) (n : Nat) : List Nat :=
  (List.range n).filter (fun e => (x.mask k).getLsbD e)

/-- The flags raised by active elements (R69). -/
def flagsOver (es : List Nat) (f : Nat → BitVec 5) : BitVec 5 := es.foldl (fun a e => a ||| f e) 0

/-! ### Integer elements (R169 to R172) -/

/-- The value of an element of an integer source, negated where asked (R169). -/
def elemInt (t : Ty) (m : SrcMod) (v : Nat) : Int :=
  intOf t (if m.neg then (2 ^ t.width - v % 2 ^ t.width) % 2 ^ t.width else v)

/-- An integer element instruction: f on exact values, wrapped. -/
def vintEffect (o : FmtA) (ops : List Opnd) (f : Int → Int → Int → Int) : Effect :=
  withSources o ops (fun vs x => some (x.writeElems o (fun e =>
    wrapBits o.t.width (f (elemInt o.t o.ma (vsrc vs 0 e)) (elemInt o.t o.mb (vsrc vs 1 e))
      (elemInt o.t o.mc (vsrc vs 2 e))))))

/-- Bits of an exact value of a type, unsigned. -/
def ubits (t : Ty) (i : Int) : Nat := wrapBits t.width i

/-- Bits of an exact value of a type, signed. -/
def sbits (t : Ty) (i : Int) : Int :=
  let v := ubits t i
  if 2 ^ (t.width - 1) ≤ v then (v : Int) - (2 ^ t.width : Nat) else v

def effVadd (o : FmtA) : Effect := vintEffect o [o.a, o.b] (fun a b _ => a + b)
def effVsub (o : FmtA) : Effect := vintEffect o [o.a, o.b] (fun a b _ => a - b)
def effVand (o : FmtA) : Effect :=
  vintEffect o [o.a, o.b] (fun a b _ => (ubits o.t a &&& ubits o.t b : Nat))
def effVor (o : FmtA) : Effect :=
  vintEffect o [o.a, o.b] (fun a b _ => (ubits o.t a ||| ubits o.t b : Nat))
def effVxor (o : FmtA) : Effect :=
  vintEffect o [o.a, o.b] (fun a b _ => (ubits o.t a ^^^ ubits o.t b : Nat))
def effVshl (o : FmtA) : Effect :=
  vintEffect o [o.a, o.b] (fun a b _ => (ubits o.t a * 2 ^ (ubits o.t b % o.t.width) : Nat))
def effVshr (o : FmtA) : Effect :=
  vintEffect o [o.a, o.b] (fun a b _ => (ubits o.t a / 2 ^ (ubits o.t b % o.t.width) : Nat))
def effVsar (o : FmtA) : Effect :=
  vintEffect o [o.a, o.b] (fun a b _ => sbits o.t a / (2 ^ (ubits o.t b % o.t.width) : Nat))
def effVmin (o : FmtA) : Effect := vintEffect o [o.a, o.b] (fun a b _ => min a b)
def effVmax (o : FmtA) : Effect := vintEffect o [o.a, o.b] (fun a b _ => max a b)
def effVabsd (o : FmtA) : Effect := vintEffect o [o.a, o.b] (fun a b _ => ((a - b).natAbs : Int))
def effVmul (o : FmtA) : Effect := vintEffect o [o.a, o.b] (fun a b _ => a * b)
def effVmulh (o : FmtA) : Effect :=
  vintEffect o [o.a, o.b] (fun a b _ => a * b / (2 ^ o.t.width : Nat))
def effVmadd (o : FmtA) : Effect := vintEffect o [o.a, o.b, o.c] (fun a b c => a * b + c)

/-- The 32-bit lanes of C of VDOT4, popped after A and B (R172). -/
def Ctx.laneSource (x : Ctx) (imm : Imm) (c : Opnd) : Option ((Nat → Nat) × Ctx) :=
  x.vsource .i32 imm.word c

def effVdot4 (o : FmtA) : Effect := fun x =>
  (x.vsources o.t (FmtA.immWord o o.t) [o.a, o.b]).bind (fun p =>
    (p.2.laneSource o.imm o.c).map (fun q =>
      let x := q.2
      let d := o.d.vnum
      let lane (l : Nat) : Nat :=
        let s := (List.range 4).foldl (fun s j =>
          s + elemInt o.t o.ma (vsrc p.1 0 (4 * l + j)) * elemInt o.t o.mb (vsrc p.1 1 (4 * l + j)))
          (0 : Int)
        wrapBits 32 (elemInt .i32 o.mc (q.1 l) + s)
      x.setVreg d (maskElems 32 32 (x.vreg d) (x.mask o.k) o.z lane)))

/-! ### Floating-point elements (R173 to R176) -/

/-- A float element instruction: the exact value of each active element, scaled, rounded once and
clamped, its flags raised (R173). The last argument of f is the element of D (R83). -/
def vfloatWith (o : FmtA) (ops : List Opnd) (f : Num → Num → Num → Num → Num × BitVec 5) : Effect :=
  withSources o ops (fun vs x =>
    let old := x.vreg o.d.vnum
    let res (e : Nat) : Nat × BitVec 5 :=
      let num (m : SrcMod) (i : Nat) : Num := SrcMod.apply m (numOf o.t (vsrc vs i e))
      let (v, fl) := f (num o.ma 0) (num o.mb 1) (num o.mc 2) (numOf o.t (elem old o.t.width e))
      finishFloat o.t o.dscale o.clamp v fl
    let fl := flagsOver (x.activeElems o.k o.t.count) (fun e => (res e).2)
    some ((x.raise fl).writeElems o (fun e => (res e).1)))

def vfloatEffect (o : FmtA) (ops : List Opnd) (f : Num → Num → Num → Num × BitVec 5) : Effect :=
  vfloatWith o ops (fun a b c _ => f a b c)

def effVfadd (o : FmtA) : Effect := vfloatEffect o [o.a, o.b] (fun a b _ => fAdd a b)
def effVfsub (o : FmtA) : Effect := vfloatEffect o [o.a, o.b] (fun a b _ => fSub a b)
def effVfmul (o : FmtA) : Effect := vfloatEffect o [o.a, o.b] (fun a b _ => fMul a b)
def effVfmin (o : FmtA) : Effect := vfloatEffect o [o.a, o.b] (fun a b _ => fMin a b)
def effVfmax (o : FmtA) : Effect := vfloatEffect o [o.a, o.b] (fun a b _ => fMax a b)
def effVffma (o : FmtA) : Effect := vfloatEffect o [o.a, o.b, o.c] (fun a b c => fMulAdd [a, b] c)
def effVrcp (o : FmtA) : Effect := vfloatEffect o [o.a] (fun a _ _ => fRcp a)
def effVrsq (o : FmtA) : Effect := vfloatEffect o [o.a] (fun a _ _ => fRsq a)
def effVexp2 (o : FmtA) : Effect := vfloatEffect o [o.a] (fun a _ _ => fExp2 a)
def effVlog2 (o : FmtA) : Effect := vfloatEffect o [o.a] (fun a _ _ => fLog2 a)
def effVtanh (o : FmtA) : Effect := vfloatEffect o [o.a] (fun a _ _ => fTanh a)
def effVdiv (o : FmtA) : Effect := vfloatEffect o [o.a, o.b] (fun a b _ => fDiv a b)
def effVsqrt (o : FmtA) : Effect := vfloatEffect o [o.a] (fun a _ _ => fSqrt a)

/-- d + a × b × q with one rounding (R83, R176). -/
def effVscac (o : FmtA) : Effect :=
  vfloatWith o [o.a, o.b, o.c] (fun a b q d => fMulAdd [a, b, q] d)

/-! ### Comparison, selection, conversion (R177 to R180) -/

/-- A comparison of elements into a mask: merged or cleared where inactive, zero above (R177). -/
def vcmpEffect (o : FmtA) (fi : Int → Int → Bool) (ff : Num → Num → Bool × BitVec 5) : Effect :=
  withSources o [o.a, o.b] (fun vs x =>
    let n := o.t.count
    let d := o.d.knum
    let res (e : Nat) : Bool × BitVec 5 :=
      if o.t.isInt then
        (fi (elemInt o.t o.ma (vsrc vs 0 e)) (elemInt o.t o.mb (vsrc vs 1 e)), 0)
      else
        ff (SrcMod.apply o.ma (numOf o.t (vsrc vs 0 e))) (SrcMod.apply o.mb (numOf o.t (vsrc vs 1 e)))
    let k := x.mask o.k
    let old := x.mask d
    let fl := flagsOver (x.activeElems o.k n) (fun e => (res e).2)
    some ((x.raise fl).setMask d (ofBits n (fun e =>
      if k.getLsbD e then (res e).1 else if o.z then false else old.getLsbD e))))

def effVcmpEq (o : FmtA) : Effect := vcmpEffect o (fun a b => a == b) cmpEq
def effVcmpNe (o : FmtA) : Effect := vcmpEffect o (fun a b => a != b) cmpNe
def effVcmpLt (o : FmtA) : Effect := vcmpEffect o (fun a b => a < b) cmpLt
def effVcmpLe (o : FmtA) : Effect := vcmpEffect o (fun a b => a ≤ b) cmpLe
def effVcmpGt (o : FmtA) : Effect := vcmpEffect o (fun a b => b < a) (fun a b => cmpLt b a)
def effVcmpGe (o : FmtA) : Effect := vcmpEffect o (fun a b => b ≤ a) (fun a b => cmpLe b a)
/-- Of an integer type, which R177 admits and R44 does not settle, no element is unordered (assumption 103). -/
def effVcmpUn (o : FmtA) : Effect := vcmpEffect o (fun _ _ => false) cmpUn

def effVsel (o : FmtA) : Effect :=
  withSources o [o.a, o.b] (fun vs x =>
    let c := x.mask o.c.knum
    some (x.writeElems o (fun e => if c.getLsbD e then vsrc vs 0 e else vsrc vs 1 e)))

/-- Packed elements a lane, and bits of each (R80). -/
def packedShape : Packed → Nat × Nat
  | .e4m3 | .e5m2 => (4, 8)
  | .e3m2 | .e2m3 => (5, 6)
  | .e2m1 => (8, 4)

/-- Packed element e of a register (R80). -/
def packedElem (p : Packed) (v : VecWord) (e : Nat) : Nat :=
  let (per, w) := packedShape p
  v.toNat / 2 ^ (32 * (e / per) + w * (e % per)) % 2 ^ w

/-- A register from n packed elements: the bits left over and the lanes beyond are zero (R80). -/
def ofPacked (p : Packed) (n : Nat) (f : Nat → Nat) : VecWord :=
  let (per, w) := packedShape p
  BitVec.ofNat 1024 ((List.range n).foldl (fun a e =>
    a + f e % 2 ^ w * 2 ^ (32 * (e / per) + w * (e % per))) 0)

/-- A conversion to a packed format: the mask governs packed elements (R80). -/
def vcvtPacked (o : FmtA) (p : Packed) (keepInf : Bool) : Effect :=
  withSources o [o.a] (fun vs x =>
    let n := o.t.count
    let d := o.d.vnum
    let old := x.vreg d
    let k := x.mask o.k
    let res (e : Nat) := toPacked p keepInf (SrcMod.apply o.ma (numOf o.t (vsrc vs 0 e)))
    let fl := flagsOver (x.activeElems o.k n) (fun e => (res e).2)
    some ((x.raise fl).setVreg d (ofPacked p n (fun e =>
      if k.getLsbD e then (res e).1 else if o.z then 0 else packedElem p old e))))

/-- A conversion between plain types: element e with element e, the wider type's count of them, and
zero above them when the target is the narrower (R180). -/
def vcvtPlain (o : FmtA) (dst : Ty) (rm : Rounding) : Effect :=
  withSources o [o.a] (fun vs x =>
    let n := 1024 / max o.t.width dst.width
    let d := o.d.vnum
    let res (e : Nat) := convert o.t dst rm o.dscale o.clamp o.ma (vsrc vs 0 e)
    let fl := flagsOver (x.activeElems o.k n) (fun e => (res e).2)
    some ((x.raise fl).setVreg d
      (maskElems dst.width n (x.vreg d) (x.mask o.k) o.z (fun e => (res e).1))))

/-- A conversion out of a packed format, exact before DSCALE (R79, R179). -/
def vcvtUnpack (o : FmtA) (p : Packed) : Effect := fun x =>
  let v := x.vreg o.a.vnum
  let res (e : Nat) : Nat × BitVec 5 :=
    convertTo o.t .rne o.dscale o.clamp
      (SrcMod.apply o.ma ((packedFmt p).decode (packedElem p v e)).quiet)
  let fl := flagsOver (x.activeElems o.k o.t.count) (fun e => (res e).2)
  some ((x.raise fl).writeElems o (fun e => (res e).1))

def effVcvt (fn : VcvtFn) (o : FmtA) : Effect :=
  match fn with
  | .toPlain d rm => vcvtPlain o d rm
  | .toPacked p => vcvtPacked o p false
  | .toE5m2Inf => vcvtPacked o .e5m2 true
  | .fromPacked p => vcvtUnpack o p

/-! ### Reductions (R181) -/

/-- Entries pushed to a queue of the V pipe, together, once they fit (R16, R195). -/
def Ctx.pushAll (x : Ctx) (q : Fin 8) (vs : List Word) : Option Ctx :=
  if queueRoom < (x.queue q).length + vs.length then none
  else some (x.setQueue q (x.queue q ++ vs))

/-- A reduction over the active elements, pushed. CLAMP applies to the infinity of a float MAX or MIN with no active element
too (R181 clamps the result; assumption 109). -/
def vredEffect (o : FmtA) (fi : List Int → Int) (ff : List Num → Num × BitVec 5) : Effect := fun x =>
  let v := x.vreg o.a.vnum
  let es := (x.activeElems o.k o.t.count).map (elem v o.t.width)
  if o.t.isInt then
    x.pushAll o.d.qnum [extend o.t (wrapBits o.t.width (fi (es.map (elemInt o.t o.ma))))]
  else
    let (r, fl) := ff (es.map (fun e => SrcMod.apply o.ma (numOf o.t e)))
    let (b, fl) := finishFloat o.t o.dscale o.clamp r fl
    (x.raise fl).pushAll o.d.qnum [word b]

/-- A fold of FMAX or FMIN, from the value for no element. -/
def foldNum (f : Num → Num → Num × BitVec 5) (z : Num) (xs : List Num) : Num × BitVec 5 :=
  (xs.foldl (fun a x => (f a x).1) z, nvOf xs)

def effVredSum (o : FmtA) : Effect := vredEffect o (fun xs => xs.foldl (· + ·) 0) sumNum
def effVredMax (o : FmtA) : Effect :=
  vredEffect o (fun xs => xs.foldl max (intMin o.t)) (foldNum fMax (.inf true))
def effVredMin (o : FmtA) : Effect :=
  vredEffect o (fun xs => xs.foldl min (intMax o.t)) (foldNum fMin (.inf false))
def effVredAnd (o : FmtA) : Effect :=
  vredEffect o (fun xs => (xs.foldl (fun a x => a &&& ubits o.t x) (2 ^ o.t.width - 1) : Nat)) sumNum
def effVredOr (o : FmtA) : Effect :=
  vredEffect o (fun xs => (xs.foldl (fun a x => a ||| ubits o.t x) 0 : Nat)) sumNum

/-! ### Rearrangement (R182 to R186) -/

def effVperm (o : FmtA) : Effect :=
  withSources o [o.a, o.b] (fun vs x =>
    some (x.writeElems o (fun e => vsrc vs 0 (vsrc vs 1 e % o.t.count))))

/-- A control operand: the whole entry, or the immediate, unsigned (R168). -/
def Ctx.control (x : Ctx) (imm : Imm) : Opnd → Option (Nat × Ctx)
  | .q n =>
    match x.queue n with
    | [] => none
    | v :: r => some (v.toNat, x.setQueue n r)
  | _ => some (imm.word.toNat, x)

/-- Sources, then a control operand. -/
def withControl (o : FmtA) (ops : List Opnd) (c : Opnd)
    (g : List (Nat → Nat) → Nat → Ctx → Option Ctx) : Effect :=
  withSources o ops (fun vs x => (x.control o.imm c).bind (fun p => g vs p.1 p.2))

/-- Element i of A and then B (R183). -/
def catElem (vs : List (Nat → Nat)) (n i : Nat) : Nat :=
  if i < n then vsrc vs 0 i else vsrc vs 1 (i - n)

def effVshufRot (o : FmtA) : Effect :=
  withControl o [o.a] o.b (fun vs c x =>
    some (x.writeElems o (fun e => vsrc vs 0 ((e + c) % o.t.count))))

def effVshufSlup (o : FmtA) : Effect :=
  withControl o [o.a, o.b] o.c (fun vs c x =>
    let n := o.t.count
    let c := min c n
    some (x.writeElems o (fun e => if c ≤ e then vsrc vs 0 (e - c) else vsrc vs 1 (n - c + e))))

def effVshufSldn (o : FmtA) : Effect :=
  withControl o [o.a, o.b] o.c (fun vs c x =>
    let n := o.t.count
    some (x.writeElems o (fun e => catElem vs n (e + min c n))))

def effVshufIlv (o : FmtA) : Effect :=
  withSources o [o.a, o.b] (fun vs x =>
    some (x.writeElems o (fun e => vsrc vs (e % 2) (e / 2))))

def effVshufDilv (o : FmtA) : Effect :=
  withSources o [o.a, o.b] (fun vs x =>
    some (x.writeElems o (fun e => catElem vs o.t.count (2 * e))))

def effVbcast (o : FmtA) : Effect :=
  match o.a with
  | .r _ =>
    withControl o [o.a] o.b (fun vs i x =>
      some (x.writeElems o (fun _ => vsrc vs 0 (i % o.t.count))))
  | _ => withSources o [o.a] (fun vs x => some (x.writeElems o (vsrc vs 0)))

def effVmov (o : FmtA) : Effect :=
  withSources o [o.a] (fun vs x => some (x.writeElems o (vsrc vs 0)))

def effVlaneIns (o : FmtA) : Effect :=
  withControl o [o.a] o.b (fun vs i x =>
    let n := o.t.count
    let d := o.d.vnum
    let old := x.vreg d
    some (x.setVreg d (ofElems o.t.width n (fun e =>
      if e = i % n then vsrc vs 0 e else elem old o.t.width e))))

def effVlaneExt (o : FmtA) : Effect :=
  withControl o [o.a] o.b (fun vs i x =>
    x.pushAll o.d.qnum [extend o.t (vsrc vs 0 (i % o.t.count))])

/-! ### Masks (R193 to R196) -/

/-- A mask computed bit by bit, zero above n. -/
def maskEffect (o : FmtA) (f : Bool → Bool → Bool) : Effect := fun x =>
  let a := x.mask o.a.knum
  let b := x.mask o.b.knum
  some (x.setMask o.d.knum (ofBits o.t.count (fun e => f (a.getLsbD e) (b.getLsbD e))))

def effKand (o : FmtA) : Effect := maskEffect o (fun a b => a && b)
def effKor (o : FmtA) : Effect := maskEffect o (fun a b => a || b)
def effKxor (o : FmtA) : Effect := maskEffect o (fun a b => a != b)
def effKnot (o : FmtA) : Effect := maskEffect o (fun a _ => !a)
def effKandn (o : FmtA) : Effect := maskEffect o (fun a b => a && !b)
def effKmov (o : FmtA) : Effect := maskEffect o (fun a _ => a)

def effKfirst (o : FmtA) : Effect := fun x =>
  (x.control o.imm o.c).map (fun p =>
    p.2.setMask o.d.knum (ofBits o.t.count (fun e => e < p.1)))

def effKall (o : FmtA) : Effect := fun x =>
  some (x.setMask o.d.knum (ofBits o.t.count (fun _ => true)))

def effKnone (o : FmtA) : Effect := fun x => some (x.setMask o.d.knum 0)

/-- The bits of a mask below n, as a number. -/
def Ctx.maskNat (x : Ctx) (o : FmtA) : Nat := (x.mask o.a.knum).toNat % 2 ^ o.t.count

def effKpop (o : FmtA) : Effect := fun x =>
  x.pushAll o.c.qnum [word ((List.range o.t.count).filter (fun e => (x.mask o.a.knum).getLsbD e)).length]

def effKany (o : FmtA) : Effect := fun x =>
  x.pushAll o.c.qnum [if x.maskNat o ≠ 0 then 1 else 0]

def effKallq (o : FmtA) : Effect := fun x =>
  x.pushAll o.c.qnum [if x.maskNat o = 2 ^ o.t.count - 1 then 1 else 0]

def effKtoq (o : FmtA) : Effect := fun x =>
  let m := x.maskNat o
  x.pushAll o.c.qnum (if o.t.count = 128 then [word m, word (m / 2 ^ 64)] else [word m])

def effKfromq (o : FmtA) : Effect := fun x =>
  let q := o.c.qnum
  let n := o.t.count
  match n == 128, x.queue q with
  | true, a :: b :: r =>
    some ((x.setQueue q r).setMask o.d.knum (BitVec.ofNat 128 (a.toNat + 2 ^ 64 * b.toNat)))
  | false, a :: r => some ((x.setQueue q r).setMask o.d.knum (BitVec.ofNat 128 (a.toNat % 2 ^ n)))
  | _, _ => none

/-! ### The meanings -/

def execVadd (o : FmtA) (s : State) : Result :=
  vDispatch (.vadd o) (FmtA.len o) (effVadd o) s
def execVsub (o : FmtA) (s : State) : Result :=
  vDispatch (.vsub o) (FmtA.len o) (effVsub o) s
def execVand (o : FmtA) (s : State) : Result :=
  vDispatch (.vand o) (FmtA.len o) (effVand o) s
def execVor (o : FmtA) (s : State) : Result :=
  vDispatch (.vor o) (FmtA.len o) (effVor o) s
def execVxor (o : FmtA) (s : State) : Result :=
  vDispatch (.vxor o) (FmtA.len o) (effVxor o) s
def execVshl (o : FmtA) (s : State) : Result :=
  vDispatch (.vshl o) (FmtA.len o) (effVshl o) s
def execVshr (o : FmtA) (s : State) : Result :=
  vDispatch (.vshr o) (FmtA.len o) (effVshr o) s
def execVsar (o : FmtA) (s : State) : Result :=
  vDispatch (.vsar o) (FmtA.len o) (effVsar o) s
def execVmin (o : FmtA) (s : State) : Result :=
  vDispatch (.vmin o) (FmtA.len o) (effVmin o) s
def execVmax (o : FmtA) (s : State) : Result :=
  vDispatch (.vmax o) (FmtA.len o) (effVmax o) s
def execVabsd (o : FmtA) (s : State) : Result :=
  vDispatch (.vabsd o) (FmtA.len o) (effVabsd o) s
def execVmul (o : FmtA) (s : State) : Result :=
  vDispatch (.vmul o) (FmtA.len o) (effVmul o) s
def execVmulh (o : FmtA) (s : State) : Result :=
  vDispatch (.vmulh o) (FmtA.len o) (effVmulh o) s
def execVmadd (o : FmtA) (s : State) : Result :=
  vDispatch (.vmadd o) (FmtA.len o) (effVmadd o) s
def execVdot4 (o : FmtA) (s : State) : Result :=
  vDispatch (.vdot4 o) (FmtA.len o) (effVdot4 o) s
def execVfadd (o : FmtA) (s : State) : Result :=
  vDispatch (.vfadd o) (FmtA.len o) (effVfadd o) s
def execVfsub (o : FmtA) (s : State) : Result :=
  vDispatch (.vfsub o) (FmtA.len o) (effVfsub o) s
def execVfmul (o : FmtA) (s : State) : Result :=
  vDispatch (.vfmul o) (FmtA.len o) (effVfmul o) s
def execVfmin (o : FmtA) (s : State) : Result :=
  vDispatch (.vfmin o) (FmtA.len o) (effVfmin o) s
def execVfmax (o : FmtA) (s : State) : Result :=
  vDispatch (.vfmax o) (FmtA.len o) (effVfmax o) s
def execVffma (o : FmtA) (s : State) : Result :=
  vDispatch (.vffma o) (FmtA.len o) (effVffma o) s
def execVrcp (o : FmtA) (s : State) : Result :=
  vDispatch (.vrcp o) (FmtA.len o) (effVrcp o) s
def execVrsq (o : FmtA) (s : State) : Result :=
  vDispatch (.vrsq o) (FmtA.len o) (effVrsq o) s
def execVexp2 (o : FmtA) (s : State) : Result :=
  vDispatch (.vexp2 o) (FmtA.len o) (effVexp2 o) s
def execVlog2 (o : FmtA) (s : State) : Result :=
  vDispatch (.vlog2 o) (FmtA.len o) (effVlog2 o) s
def execVtanh (o : FmtA) (s : State) : Result :=
  vDispatch (.vtanh o) (FmtA.len o) (effVtanh o) s
def execVdiv (o : FmtA) (s : State) : Result :=
  vDispatch (.vdiv o) (FmtA.len o) (effVdiv o) s
def execVsqrt (o : FmtA) (s : State) : Result :=
  vDispatch (.vsqrt o) (FmtA.len o) (effVsqrt o) s
def execVscac (o : FmtA) (s : State) : Result :=
  vDispatch (.vscac o) (FmtA.len o) (effVscac o) s
def execVcmpEq (o : FmtA) (s : State) : Result :=
  vDispatch (.vcmpEq o) (FmtA.len o) (effVcmpEq o) s
def execVcmpNe (o : FmtA) (s : State) : Result :=
  vDispatch (.vcmpNe o) (FmtA.len o) (effVcmpNe o) s
def execVcmpLt (o : FmtA) (s : State) : Result :=
  vDispatch (.vcmpLt o) (FmtA.len o) (effVcmpLt o) s
def execVcmpLe (o : FmtA) (s : State) : Result :=
  vDispatch (.vcmpLe o) (FmtA.len o) (effVcmpLe o) s
def execVcmpGt (o : FmtA) (s : State) : Result :=
  vDispatch (.vcmpGt o) (FmtA.len o) (effVcmpGt o) s
def execVcmpGe (o : FmtA) (s : State) : Result :=
  vDispatch (.vcmpGe o) (FmtA.len o) (effVcmpGe o) s
def execVcmpUn (o : FmtA) (s : State) : Result :=
  vDispatch (.vcmpUn o) (FmtA.len o) (effVcmpUn o) s
def execVsel (o : FmtA) (s : State) : Result :=
  vDispatch (.vsel o) (FmtA.len o) (effVsel o) s
def execVcvt (fn : VcvtFn) (o : FmtA) (s : State) : Result :=
  vDispatch (.vcvt fn o) (FmtA.len o) (effVcvt fn o) s
def execVredSum (o : FmtA) (s : State) : Result :=
  vDispatch (.vredSum o) (FmtA.len o) (effVredSum o) s
def execVredMax (o : FmtA) (s : State) : Result :=
  vDispatch (.vredMax o) (FmtA.len o) (effVredMax o) s
def execVredMin (o : FmtA) (s : State) : Result :=
  vDispatch (.vredMin o) (FmtA.len o) (effVredMin o) s
def execVredAnd (o : FmtA) (s : State) : Result :=
  vDispatch (.vredAnd o) (FmtA.len o) (effVredAnd o) s
def execVredOr (o : FmtA) (s : State) : Result :=
  vDispatch (.vredOr o) (FmtA.len o) (effVredOr o) s
def execVperm (o : FmtA) (s : State) : Result :=
  vDispatch (.vperm o) (FmtA.len o) (effVperm o) s
def execVshufRot (o : FmtA) (s : State) : Result :=
  vDispatch (.vshufRot o) (FmtA.len o) (effVshufRot o) s
def execVshufSlup (o : FmtA) (s : State) : Result :=
  vDispatch (.vshufSlup o) (FmtA.len o) (effVshufSlup o) s
def execVshufSldn (o : FmtA) (s : State) : Result :=
  vDispatch (.vshufSldn o) (FmtA.len o) (effVshufSldn o) s
def execVshufIlv (o : FmtA) (s : State) : Result :=
  vDispatch (.vshufIlv o) (FmtA.len o) (effVshufIlv o) s
def execVshufDilv (o : FmtA) (s : State) : Result :=
  vDispatch (.vshufDilv o) (FmtA.len o) (effVshufDilv o) s
def execVbcast (o : FmtA) (s : State) : Result :=
  vDispatch (.vbcast o) (FmtA.len o) (effVbcast o) s
def execVmov (o : FmtA) (s : State) : Result :=
  vDispatch (.vmov o) (FmtA.len o) (effVmov o) s
def execVlaneIns (o : FmtA) (s : State) : Result :=
  vDispatch (.vlaneIns o) (FmtA.len o) (effVlaneIns o) s
def execVlaneExt (o : FmtA) (s : State) : Result :=
  vDispatch (.vlaneExt o) (FmtA.len o) (effVlaneExt o) s
def execKand (o : FmtA) (s : State) : Result :=
  vDispatch (.kand o) (FmtA.len o) (effKand o) s
def execKor (o : FmtA) (s : State) : Result :=
  vDispatch (.kor o) (FmtA.len o) (effKor o) s
def execKxor (o : FmtA) (s : State) : Result :=
  vDispatch (.kxor o) (FmtA.len o) (effKxor o) s
def execKnot (o : FmtA) (s : State) : Result :=
  vDispatch (.knot o) (FmtA.len o) (effKnot o) s
def execKandn (o : FmtA) (s : State) : Result :=
  vDispatch (.kandn o) (FmtA.len o) (effKandn o) s
def execKmov (o : FmtA) (s : State) : Result :=
  vDispatch (.kmov o) (FmtA.len o) (effKmov o) s
def execKfirst (o : FmtA) (s : State) : Result :=
  vDispatch (.kfirst o) (FmtA.len o) (effKfirst o) s
def execKall (o : FmtA) (s : State) : Result :=
  vDispatch (.kall o) (FmtA.len o) (effKall o) s
def execKnone (o : FmtA) (s : State) : Result :=
  vDispatch (.knone o) (FmtA.len o) (effKnone o) s
def execKpop (o : FmtA) (s : State) : Result :=
  vDispatch (.kpop o) (FmtA.len o) (effKpop o) s
def execKany (o : FmtA) (s : State) : Result :=
  vDispatch (.kany o) (FmtA.len o) (effKany o) s
def execKallq (o : FmtA) (s : State) : Result :=
  vDispatch (.kallq o) (FmtA.len o) (effKallq o) s
def execKtoq (o : FmtA) (s : State) : Result :=
  vDispatch (.ktoq o) (FmtA.len o) (effKtoq o) s
def execKfromq (o : FmtA) (s : State) : Result :=
  vDispatch (.kfromq o) (FmtA.len o) (effKfromq o) s

/-- What the V pipe performs for an instruction whose turn has come; the vector memory instructions,
AREAD and everything else are none here. -/
def vEffect : Instr → Option Effect
  | .vadd o => some (effVadd o)
  | .vsub o => some (effVsub o)
  | .vand o => some (effVand o)
  | .vor o => some (effVor o)
  | .vxor o => some (effVxor o)
  | .vshl o => some (effVshl o)
  | .vshr o => some (effVshr o)
  | .vsar o => some (effVsar o)
  | .vmin o => some (effVmin o)
  | .vmax o => some (effVmax o)
  | .vabsd o => some (effVabsd o)
  | .vmul o => some (effVmul o)
  | .vmulh o => some (effVmulh o)
  | .vmadd o => some (effVmadd o)
  | .vdot4 o => some (effVdot4 o)
  | .vfadd o => some (effVfadd o)
  | .vfsub o => some (effVfsub o)
  | .vfmul o => some (effVfmul o)
  | .vfmin o => some (effVfmin o)
  | .vfmax o => some (effVfmax o)
  | .vffma o => some (effVffma o)
  | .vrcp o => some (effVrcp o)
  | .vrsq o => some (effVrsq o)
  | .vexp2 o => some (effVexp2 o)
  | .vlog2 o => some (effVlog2 o)
  | .vtanh o => some (effVtanh o)
  | .vdiv o => some (effVdiv o)
  | .vsqrt o => some (effVsqrt o)
  | .vscac o => some (effVscac o)
  | .vcmpEq o => some (effVcmpEq o)
  | .vcmpNe o => some (effVcmpNe o)
  | .vcmpLt o => some (effVcmpLt o)
  | .vcmpLe o => some (effVcmpLe o)
  | .vcmpGt o => some (effVcmpGt o)
  | .vcmpGe o => some (effVcmpGe o)
  | .vcmpUn o => some (effVcmpUn o)
  | .vsel o => some (effVsel o)
  | .vcvt fn o => some (effVcvt fn o)
  | .vredSum o => some (effVredSum o)
  | .vredMax o => some (effVredMax o)
  | .vredMin o => some (effVredMin o)
  | .vredAnd o => some (effVredAnd o)
  | .vredOr o => some (effVredOr o)
  | .vperm o => some (effVperm o)
  | .vshufRot o => some (effVshufRot o)
  | .vshufSlup o => some (effVshufSlup o)
  | .vshufSldn o => some (effVshufSldn o)
  | .vshufIlv o => some (effVshufIlv o)
  | .vshufDilv o => some (effVshufDilv o)
  | .vbcast o => some (effVbcast o)
  | .vmov o => some (effVmov o)
  | .vlaneIns o => some (effVlaneIns o)
  | .vlaneExt o => some (effVlaneExt o)
  | .kand o => some (effKand o)
  | .kor o => some (effKor o)
  | .kxor o => some (effKxor o)
  | .knot o => some (effKnot o)
  | .kandn o => some (effKandn o)
  | .kmov o => some (effKmov o)
  | .kfirst o => some (effKfirst o)
  | .kall o => some (effKall o)
  | .knone o => some (effKnone o)
  | .kpop o => some (effKpop o)
  | .kany o => some (effKany o)
  | .kallq o => some (effKallq o)
  | .ktoq o => some (effKtoq o)
  | .kfromq o => some (effKfromq o)
  | _ => none

end Sys2Proof.Machine
end

