-- ==== Sys2Proof/Machine/Perform.lean ====
section
/-! DEFINITION. Performing the accesses of a context: at a scratchpad, in the L1 under the four policies
(R241, R242, R249, R256), at the home by message, at a peer; AMO and barrier functions; what a memory
instruction does when its last access is performed. -/

namespace Sys2Proof.Machine

/-! ### Functions of AMO (R285, R286) -/

/-- A value of some bytes read signed. -/
def signedOf (size n : Nat) : Int := intOf (if size = 4 then .i32 else .i64) n

/-- The new value and the flags of an AMO; none when nothing is stored (CAS). -/
def amoNew (fn : AmoFn) (size old op new : Nat) : Option Nat × BitVec 5 :=
  let w := 2 ^ (8 * size)
  let old := old % w
  let op := op % w
  let pick (c : Bool) : Option Nat × BitVec 5 := (some (if c then old else op), 0)
  match fn with
  | .add => (some ((old + op) % w), 0)
  | .and => (some (old &&& op), 0)
  | .or => (some (old ||| op), 0)
  | .xor => (some (old ^^^ op), 0)
  | .min => pick (signedOf size old ≤ signedOf size op)
  | .max => pick (signedOf size op ≤ signedOf size old)
  | .minn => pick (old ≤ op)
  | .maxn => pick (op ≤ old)
  | .swap => (some op, 0)
  | .cas => (if old = op then some (new % w) else none, 0)
  | .fadd32 =>
    let (v, fl) := fAdd (fmtF32.decode old) (fmtF32.decode op)
    let (b, fr) := fmtF32.encode .rne v
    (some b, fl ||| fr)

/-! ### Barrier operations (R303, R304, R340) -/

/-- BINIT: the two dwords after it; the first is its result. -/
def barrierInit (d0 d1 : Word) (count : BitVec 32) : Word × Word :=
  let gen := (bitsOf d0 47 32 + 1) % 65536
  let n := count.toNat
  (word (bitsOf d0 63 49 * 2 ^ 49 + gen * 2 ^ 32 + n), word (bitsOf d1 63 32 * 2 ^ 32 + n))

/-- An arrival with generation g: the two dwords after it, and the phase it belongs to; none when it is
stale. -/
def barrierArrive (d0 d1 : Word) (g : BitVec 16) (poison : Bool) : Option (Word × Word × Word) :=
  if bitsOf d0 47 32 ≠ g.toNat then none
  else
    let d0 := if poison then d0 ||| 0x1000000000000 else d0
    let rem := bitsOf d0 31 0
    let phase := (bitsOf d1 63 32 + 1) % 2 ^ 32
    let count := bitsOf d1 31 0
    let high := bitsOf d0 63 32 * 2 ^ 32
    if rem ≤ 1 then some (word (high + count), word (phase * 2 ^ 32 + count), word phase)
    else some (word (high + rem - 1), d1, word phase)

/-- The report of a stale arrival. -/
def State.reportStale (s : State) (die : DieId) (addr : Word) (domain : BitVec 16)
    (core slot path detail : Nat) : State :=
  s.report die { detail, addr, domain, core, slot, path, kind := 3, status := 0, cause := 32 }

/-! ### Requests of a core (R248) -/

def unitAgent (line : Nat) : HomeUnit → Nat
  | .slice _ => agentSlice line
  | .rdc d => agentRdc d

/-- The row of a kind of request. -/
def requestRow : ReqKind → Instr
  | .rdu => .rdu | .rdl => .rdl | .rdt => .rdt | .rdx => .rdx | .upg => .upg | .wt => .wt
  | .amo => .amoMessage | .wb => .wb | .erd => .erd | .ewr => .ewr

/-- A request leaves the core for the unit that serves the line. -/
def State.request (s : State) (c : CoreId) (p : Proto) : State :=
  let u := unitOf c p.line
  s.send (agentCore c) (unitAgent p.line u) (requestRow p.kind)
    (.proto { p with unit := u, reqr := c.val % 256 })

/-! ### The L1 (R232, R244, R388) -/

def L1Line.empty : L1Line :=
  { valid := 0, owned := 0, written := 0, leased := 0, former := false, data := 0, wts := 0, rts := 0, trackWts := 0,
    copyWts := 0, copyRts := 0, use := 0 }

def State.l1Line (s : State) (c : CoreId) (line : Nat) : L1Line :=
  (tabGet (s.core c).l1 line).getD .empty

/-- A use of a line. -/
def State.l1Use (s : State) (c : CoreId) (line : Nat) (l : L1Line) : State :=
  s.mapCore c (fun k =>
    let k := k.l1Put line { l with use := k.tick + 1 }
    { k with tick := k.tick + 1 })

/-- Every load, store and prefetch is a use of its line, where the line is held (R388). -/
def State.l1Touch (s : State) (c : CoreId) (line : Nat) : State :=
  match tabGet (s.core c).l1 line with
  | none => s
  | some l => s.l1Use c line l

/-- L1 EVICTION: owned words are written back, the rest is silent (R249). -/
def State.l1Evict (s : State) (c : CoreId) (line : Nat) : State :=
  let l := s.l1Line c line
  let s := if l.owned = 0 then s else
    s.request c { Proto.empty with
      line, mask := l.owned, data := l.data, wmask := bytesOfWords l.written, wts := l.wts,
      rts := l.rts, kind := .wb }
  s.mapCore c (fun k => Core.wakeLine { k with l1 := tabDel k.l1 line } line)

/-- The lines that the chunks of a core buffer: they stay in the cache until their commit (R262). -/
def Core.buffered (k : Core) : List Nat := k.ctxs.toList.flatMap (fun y => y.chunk.writes.map (·.line))

/-- A way for a line: the least recently used line of its set leaves when four others stand there. Lines that chunks
buffer stay; beside four of them one line stands in the fill buffer (assumption 84). -/
def State.l1Room (s : State) (c : CoreId) (line : Nat) : State :=
  let k := s.core c
  let ways := distinct ((k.l1.map (·.1) ++ k.buffered).filter (fun l => l % 128 == line % 128))
  if ways.length < 4 || ways.contains line then s
  else
    match k.l1.filter (fun p => p.1 % 128 == line % 128 && !k.buffered.contains p.1) with
    | [] => s
    | p :: r => s.l1Evict c (r.foldl (fun v q => if q.2.use < v.2.use then q else v) p).1

/-- A DATA or ACK fills the L1 (R249, R247, R258). The words that may be held are those of mask; those
whose bytes stand in wmask came with it. -/
def State.l1Fill (s : State) (c : CoreId) (p : Proto) : State :=
  match p.grant with
  | .value => s
  | .owned =>
    let s := s.l1Room c p.line
    let l := s.l1Line c p.line
    let owned := l.owned ||| p.mask
    let l' : L1Line :=
      { l with
        data := mergeBits l.data p.data (byteBits p.wmask), owned,
        valid := l.valid ||| owned, leased := l.leased &&& ~~~owned,
        wts := if l.owned = 0 then p.wts else max l.wts p.wts,
        rts := if l.owned = 0 then p.rts else max l.rts p.rts }
    if p.old = 1 && l'.tracked != 0 then (s.l1Use c p.line l'.untrack).mapCore c (·.wakeLine p.line)
    else s.l1Use c p.line l'
  | g =>
    let s := s.l1Room c p.line
    let l := s.l1Line c p.line
    let take := p.mask &&& ~~~l.owned
    let new := p.wmask != 0
    let held := if new then take else l.valid &&& take
    let l' : L1Line :=
      { l with
        data := if new then mergeBits l.data p.data (wordBits take) else l.data,
        valid := l.owned ||| held, former := false }
    s.l1Use c p.line
      (if g = .leased then { l' with leased := held, copyWts := p.wts, copyRts := p.rts }
       else { l' with leased := 0, trackWts := p.wts })

/-- No copy of the line is kept but owned words (R243, R249). -/
def State.l1Forget (s : State) (c : CoreId) (line : Nat) : State :=
  s.mapCore c (fun k =>
    match tabGet k.l1 line with
    | none => k
    | some l => (k.l1Put line { l with valid := l.owned, leased := 0, former := false }).wakeLine line)

/-- Every leased copy of a core that a test picks is discarded (R260, R261, R278). -/
def Core.dropLeases (k : Core) (pick : L1Line → Bool) : Core :=
  let cut (l : L1Line) : L1Line :=
    if l.leased != 0 && pick l then { l with valid := l.valid &&& ~~~l.leased, leased := 0 } else l
  { k with l1 := (tabMap (fun _ l => cut l) k.l1).filter (fun p => p.2.valid != 0) }

/-- A core's logical clock after its clock, or its timebase, has come back (R260). -/
def State.resyncCore (s : State) (c : CoreId) : State :=
  s.mapCore c (fun k =>
    let t := max k.lclk s.quartz
    Core.dropLeases { k with lclk := t } (fun l => l.copyRts < t))

/-- The stopped cores of a quad run again (R162, R260). -/
def State.restartQuad (s : State) (d : DieId) (q : Nat) : State :=
  ((quadCores d q).filter (fun c => (s.core c).stopped)).foldl (fun s c =>
    (s.mapCore c (fun k => { k with stopped := false, restartBy := none })).resyncCore c) s

/-! ### One access -/

/-- What comes of an access: its value, at once; its request is out; or it waits, for logical time t to
come within GTB + G, or for the end of TIMELOST (R259, R261). -/
inductive Took where
  | value (s : State) (v : Word)
  | out (s : State)
  | later (s : State) (t : Nat)

/-- A load from the words of a copy: t, and the value (R256). -/
def State.loadCopy (s : State) (c : CoreId) (line off size : Nat) (l : L1Line) : Took :=
  let v := word (lineField l.data off size)
  if isHostLine line then .value (s.l1Use c line l) v
  else
    let w := wordMask off size
    let own := l.owned &&& w != 0
    let wts := if own then l.wts else if l.leased &&& w != 0 then l.copyWts else l.trackWts
    let t := max (s.core c).lclk wts
    .value ((s.l1Use c line (if own then { l with rts := max l.rts t } else l)).raiseClk c t) v

/-- A store to owned words (R256, R259). -/
def State.storeOwned (s : State) (c : CoreId) (line off size : Nat) (l : L1Line) (d : Word) : Took :=
  let stored (s : State) : State := (s.mapCore c (·.wakeLine line)).ringBells line (byteMask off size)
  let l' := { l with
    data := mergeBits l.data (lineOf off size d.toNat) (byteBits (byteMask off size)),
    written := l.written ||| wordMask off size }
  if isHostLine line then
    let dirty (r : RdcLine) : RdcLine := { r with mesi := if r.mesi = .e then .m else r.mesi }
    .value ((stored (s.l1Use c line l')).mapRdc (dieOf c) line dirty) 0
  else
    let t := max (s.core c).lclk (l.rts + 1)
    if s.timeCame t && (s.core c).timelost.isNone then
      .value (stored ((s.l1Use c line { l' with wts := t, rts := t }).raiseClk c t)) 0
    else .later s t

/-- LPIN and UNPIN at the home (R234, R288). None while the line can take no way of its set. -/
def State.pinLine (s : State) (line : Nat) (up : Bool) : Option (State × Word) :=
  let d := lineDie line
  let e := s.dir (.slice d) line
  if up then
    if e.pins = 255 || (e.pins = 0 && 12 ≤ ((s.l2Ways d line).filter (fun p => 0 < p.2.pins)).length) then
      some (s, BitVec.allOnes 64)
    else
      (s.l2Room d line).map (fun s =>
        let e := s.dir (.slice d) line
        (s.setDir (.slice d) line { e with pins := e.pins + 1 }, word (e.pins + 1)))
  else if e.pins = 0 then some (s, 0)
  else
    let s := s.l2Use d line
    some (s.setDir (.slice d) line { s.dir (.slice d) line with pins := e.pins - 1 }, word (e.pins - 1))

/-- The report of a posted store that its home or a peer discards (R284, R379). -/
def State.reportPosted (s : State) (c : CoreId) (p : Posted) : State :=
  s.report (dieOf c) { detail := 0, addr := p.addr, domain := p.domain, core := c.val, slot := p.slot.val, path := 0,
                       kind := 1, status := 0, cause := 33 }

/-- An access of the policy to a line of the device or the host (R241, R249, R268, R283). -/
def State.lineAccess (s : State) (c : CoreId) (x : CtxId) (addr : Word) (line off size key : Nat)
    (pol : Pol) (k : AccessKind) : Took :=
  let host := isHostLine line
  let s := if host then s else s.raiseClk c (s.lclkNow c)
  let s := match k with
    | .pin _ => s
    | _ => s.l1Touch c line
  let y := s.ctx c x
  let m := wordMask off size
  let l := s.l1Line c line
  let own := l.owned &&& m = m
  let have_ := l.valid &&& m = m
  let tracked := l.tracked &&& m = m
  let lost := (s.core c).timelost.isSome && !host
  let lclk := if host then 0 else (s.core c).lclk
  let p : Proto := { Proto.empty with
    line, mask := m, lclk, lease := y.lease.toNat, pol, waiter := .ctx c x }
  let upgrade : ReqKind := if l.owned = 0 && tracked then .upg else .rdx
  -- a store that the activation goes on from: an STF, or a plain store to host memory
  let post (stf : Bool) (d : Word) : Took :=
    if own then s.storeOwned c line off size l d
    else if lost then .later s 0
    else
      let take := !stf && pol == .own
      let gone := if take then 0 else m &&& ~~~l.owned
      let id := (s.core c).postedCount
      let slot : SlotId := (y.act.map (·.slot)).getD 0
      let s := s.mapCore c (fun k =>
        { k with
          l1 := if l.valid = 0 then k.l1
            else (k.l1Put line { l with valid := l.valid &&& ~~~gone, leased := l.leased &&& ~~~gone }).l1,
          postedCount := id + 1,
          posted := k.posted ++ [{ id, ctx := some x, slot, actor := (s.slot c slot).actor,
                                   launch := s.launchOf c y, domain := y.domain, line, mask := m, addr,
                                   key := if host then 0 else key, stf, own := if take then some (off, size, d) else none }] })
      let p := { p with waiter := .posted c id }
      .value (s.request c (if take then { p with kind := upgrade, grant := .owned } else { p with
        kind := .wt, pol := if host || pol = .own then .thru else pol, data := lineOf off size d.toNat,
        wmask := byteMask off size })) 0
  match k with
  | .load =>
    if own then s.loadCopy c line off size l
    else
      match pol with
      | .own => .out (s.request c { p with kind := upgrade, grant := .value })
      | .thru => .out (s.request c { p with kind := .rdu })
      | .lease =>
        if tracked || (have_ && max lclk l.copyWts ≤ l.copyRts) then s.loadCopy c line off size l
        else if host then .out (s.request c { p with kind := .rdt })
        else if lost then .later s 0
        else .out (s.request c { p with
          kind := .rdl, wts := l.copyWts, wmask := if have_ then BitVec.allOnes 128 else 0,
          old := if y.acqSys then 1 else 0 })
      | .track =>
        if tracked then s.loadCopy c line off size l
        else .out (s.request c { p with kind := .rdt })
  | .store d =>
    if own then s.storeOwned c line off size l d
    else if lost then .later s 0
    else if pol = .own then .out (s.request c { p with kind := upgrade, grant := .owned })
    else .out (s.request c { p with
      kind := .wt, pol := if host then .thru else pol, data := lineOf off size d.toNat,
      wmask := byteMask off size })
  | .posted d => post true d
  | .async d => post false d
  | .amo fn op new =>
    if lost then .later s 0
    else .out (s.request c { p with kind := .amo, op := some (.amo fn size off op new) })
  | .pin up =>
    match s.pinLine line up with
    | some (s, v) => .value s v
    | none => .later s 0
  | .barrier op =>
    if lost then .later s 0
    else .out (s.request c { p with kind := .amo, op := some op, mask := wordMask off 16 })

/-- An access to a peer's memory goes out over the fabric (R269, R379). -/
def State.peerAccessOut (s : State) (c : CoreId) (x : CtxId) (addr : Word) (pa size : Nat)
    (k : AccessKind) : Took :=
  let y := s.ctx c x
  let id := s.peerCount
  let slot : SlotId := (y.act.map (·.slot)).getD 0
  let req : PeerRequest :=
    { core := c, ctx := some x, slot, domain := y.domain, addr := pa, size, write := none,
      posted := none, reader := none, writer := none, since := s.quartz }
  let go (s : State) (r : PeerRequest) : State :=
    State.tell { s with peerCount := id + 1, peers := tabSet s.peers id r } (.peer id r)
  match k with
  | .store d => .out (go s { req with write := some d })
  | .posted d =>
    let n := (s.core c).postedCount
    let s := s.mapCore c (fun k => { k with
      postedCount := n + 1,
      posted := k.posted ++ [{ id := n, ctx := some x, slot, actor := (s.slot c slot).actor, launch := s.launchOf c y, domain := y.domain, line := peerLine pa,
                               mask := wordMask (pa % 128) size, addr, key := 0, stf := true, own := none }] })
    .value (go s { req with ctx := none, write := some d, posted := some n }) 0
  | _ => .out (go s req)

/-- The AMO of a scratchpad word: the old value, and the word written (R286). -/
def State.spadAmo (s : State) (t : CoreId) (off size : Nat) (fn : AmoFn) (op new : Word) :
    State × Word × BitVec 5 :=
  let s := s.spadScrub t off size
  let old := leNat ((s.core t).spad.bytes off size)
  let (v, fl) := amoNew fn size old op.toNat new.toNat
  (match v with
   | some n => s.spadWrite t off (leBytes size n)
   | none => s, word old, fl)

/-- The bytes an optimistic chunk has written over a value read (R262). -/
def Chunk.overlay (k : Chunk) (line off size : Nat) (v : Word) : Word :=
  match k.writes.find? (·.line == line) with
  | .none => v
  | some b =>
    let data := mergeBits (lineOf off size v.toNat) b.data (byteBits b.bytes)
    word (lineField data off size)

/-- A write buffered by an optimistic chunk, under the key slot of its page; the addresses of STFs are kept. -/
def Chunk.buffer (k : Chunk) (line off size key : Nat) (stfs : List Word) (v : Word) : Chunk :=
  let d := lineOf off size v.toNat
  let m := byteMask off size
  match k.writes.find? (·.line == line) with
  | .none => { k with writes := k.writes ++ [{ line, data := d, bytes := m, key, stfs }] }
  | some _ => { k with writes := k.writes.map (fun b =>
      if b.line = line then { b with data := mergeBits b.data d (byteBits m), bytes := b.bytes ||| m, key, stfs := b.stfs ++ stfs }
      else b) }

/-- Does the context run an optimistic chunk? -/
def Ctx.optimistic (y : Ctx) : Bool := y.chunk.active && !y.chunk.serial

/-- The flags an access raised, kept until the instruction completes (R286). -/
def State.opFlags (s : State) (c : CoreId) (x : CtxId) (fl : BitVec 5) : State :=
  s.mapCtx c x (fun y => { y with op := y.op.map (fun o => { o with flags := o.flags ||| fl }) })

/-- The value of an access that has been performed, as the activation sees it: in an optimistic chunk
buffered bytes come first, and an AMO is a load and a buffered write (R262). -/
def State.gotValue (s : State) (c : CoreId) (x : CtxId) (a : Access) (v : Word) : State × Word :=
  let y := s.ctx c x
  match a.place with
  | .memory pa home key _ =>
    if y.optimistic && (home = .thisDie || home = .otherDie) then
      let line := pa / 128
      let old := y.chunk.overlay line (pa % 128) a.size v
      match a.kind with
      | .amo fn op new =>
        let (n, fl) := amoNew fn a.size old.toNat op.toNat new.toNat
        let s := s.opFlags c x fl
        (match n with
         | some n => ((s.l1Touch c line).l1Room c line).mapCtx c x (fun y =>
             { y with chunk := y.chunk.buffer line (pa % 128) a.size key [] (word n) })
         | none => s, old)
      | .pin _ => (s, v)
      | _ => (s, old)
    else (s, v)
  | _ => (s, v)

/-- The sector of a scratchpad write, as the log of a chunk names it (R262). -/
def sectorOf (t : CoreId) (off : Nat) : Nat := t.val * Config.spadBytes + off / 64 * 64

/-- An optimistic chunk logs what a sector held before its first write to it. -/
def State.logSector (s : State) (c : CoreId) (x : CtxId) (t : CoreId) (off : Nat) : State :=
  let k := (s.ctx c x).chunk
  let n := sectorOf t off
  if (s.ctx c x).optimistic && !k.log.any (·.1 == n) then
    let old := (s.core t).spad.bytes (off / 64 * 64) 64
    s.mapCtx c x (fun y => { y with chunk := { k with log := (n, old) :: k.log } })
  else s

/-- An access of a context, begun. -/
def State.access (s : State) (c : CoreId) (x : CtxId) (a : Access) : Took :=
  match a.place with
  | .spad t off =>
    match a.kind with
    | .store d | .posted d | .async d =>
      .value ((s.logSector c x t off).spadWrite t off (leBytes a.size d.toNat)) 0
    | .amo fn op new =>
      let (s, v, fl) := (s.logSector c x t off).spadAmo t off a.size fn op new
      .value (s.opFlags c x fl) v
    | _ => .value (s.spadScrub t off a.size) (leWord ((s.core t).spad.bytes off a.size))
  | .operand off =>
    match a.kind with
    | .store d =>
      .value (s.mapCore c (fun k => { k with opnd := k.opnd.setBytes off (leBytes a.size d.toNat) })) 0
    | _ => .value s 0
  | .memory pa .peer _ _ => s.peerAccessOut c x a.addr pa a.size a.kind
  | .memory pa home key pol =>
    let line := if home = .host then hostLine pa else pa / 128
    let keep (stfs : List Word) (d : Word) : Took := .value (((s.l1Touch c line).l1Room c line).mapCtx c x (fun y =>
      { y with chunk := y.chunk.buffer line (pa % 128) a.size key stfs d })) 0
    if (s.ctx c x).optimistic && home != .host then
      match a.kind with
      | .store d => keep [] d
      | .posted d => keep [a.addr] d
      | .amo _ _ _ => s.lineAccess c x a.addr line (pa % 128) a.size key .thru .load
      | k => s.lineAccess c x a.addr line (pa % 128) a.size key pol k
    else s.lineAccess c x a.addr line (pa % 128) a.size key pol a.kind

/-! ### The end of a memory instruction -/

/-- The effects of an acquire at system scope (R278). -/
def State.acquireSys (s : State) (c : CoreId) (x : CtxId) : State :=
  (s.mapCore c (·.dropLeases (fun _ => true))).mapCtx c x (fun y => { y with acqSys := true })

/-- The elements a vector load read, put at their places. -/
def placeElems (size : Nat) (active : List Nat) (vals : List Word) : VecWord :=
  BitVec.ofNat 1024 ((active.zip vals).foldl
    (fun a p => a + p.2.toNat % 2 ^ (8 * size) * 2 ^ (8 * size * p.1)) 0)

/-- Is an instruction a vector load? -/
def isVLoad : Instr → Bool
  | .vld _ | .vldx _ => true
  | _ => false

/-- The data of a vector load reach its V-pipe entry. -/
def fillEntry (v : VecWord) : List VEntry → List VEntry
  | [] => []
  | e :: r => if isVLoad e.instr && e.data.isEmpty then { e with data := [v] } :: r else e :: fillEntry v r

/-- What WAITA watches after a load that returned the comparand (R289). None when the copy that served it is gone
already: it looks again. -/
def State.watchOf (s : State) (c : CoreId) (a : Access) : Option Watch :=
  let interval : Watch := .interval ((s.quartz / 1000 + 1) * 1000)
  match a.place with
  | .spad t off => some (.spad t (off / 8))
  | .memory pa home _ pol =>
    let line := if home = .host then hostLine pa else pa / 128
    let w := pa % 128 / 8
    let l := s.l1Line c line
    match home, pol with
    | .peer, _ | _, .thru => some interval
    | .host, _ => if l.valid.getLsbD w then some (.host line) else none
    | _, .own => if l.owned.getLsbD w then some (.owned line w) else none
    | _, .track => if (l.owned ||| l.tracked).getLsbD w then some (.tracked line w) else none
    | _, .lease =>
      if l.leased.getLsbD w then some (.leased l.copyRts)
      else if l.valid.getLsbD w then some (.tracked line w) else none
  | .operand _ => some interval

/-- The context's instruction of len bytes has completed: a V-pipe operation leaves the S pipe alone. -/
def Ctx.opDone (y : Ctx) (o : MemOp) : Ctx :=
  let y := { y with op := none, fflags := y.fflags ||| o.flags }
  if o.vpipe then y else { y.retire o.len with wait := .run }

/-- Values 64 bits wide, zero-extended from a size. -/
def zxBytes (size : Nat) (v : Word) : Word := zx64 (8 * size) v.toNat

/-- The 16 bytes of a barrier buffered by an optimistic chunk; the access is that of the second dword. -/
def Ctx.bufferBarrier (y : Ctx) (a : Access) (w0 w1 : Word) : Ctx :=
  match a.place with
  | .memory pa _ key _ =>
    { y with chunk := (y.chunk.buffer (pa / 128) (pa % 128 - 8) 8 key [] w0).buffer (pa / 128) (pa % 128) 8 key [] w1 }
  | _ => y

/-- A memory instruction whose accesses have all been performed: its result. A stale arrival of an optimistic chunk is
reported when it commits (R340). -/
def State.finishOp (s : State) (c : CoreId) (x : CtxId) (o : MemOp) (last : Option Access) : State :=
  let v := o.vals[0]?.getD 0
  let put (f : Ctx → Ctx) : State := s.mapCtx c x (fun y => (f y).opDone o)
  let acq (s : State) : State := if o.acq then s.acquireSys c x else s
  match o.fin with
  | .load d size signed =>
    acq (put (·.setReg d (if signed then sx64 (8 * size) v.toNat else zxBytes size v)))
  | .pair d =>
    acq (put (fun y => (y.setReg d v).setReg (Fin.ofNat 32 (d.val + 1)) (o.vals[1]?.getD 0)))
  | .store | .vstore => acq (put id)
  | .amo d size => acq (put (·.setReg d (zxBytes size v)))
  | .pin d | .bstat d => put (·.setReg d v)
  | .binit d count =>
    match o.vals, last with
    | [d0, d1], some a =>
      let (w0, w1) := barrierInit d0 d1 count
      put (fun y => (y.bufferBarrier a w0 w1).setReg d w0)
    | _, _ => put (·.setReg d v)
  | .barr d gen =>
    match o.vals, last with
    | [d0, d1], some a =>
      match barrierArrive d0 d1 gen false with
      | some (w0, w1, ph) => put (fun y => (y.bufferBarrier a w0 w1).setReg d ph)
      | none =>
        put (fun y => { (y.setReg d (BitVec.allOnes 64)) with
          chunk := { y.chunk with stales := y.chunk.stales ++ [(a.addr - 8, y.domain)] } })
    | _, _ => put (·.setReg d v)
  | .bwait => put id
  | .waita d size =>
    let y := s.ctx c x
    let d1 : Fin 32 := Fin.ofNat 32 (d.val + 1)
    let v := zxBytes size v
    let stop (r : Word) : State :=
      acq (put (fun y => { ((y.setReg d v).setReg d1 r) with deadline := none }))
    if v ≠ zxBytes size (y.reg d) then stop 0
    else if y.deadline.all (· ≤ s.quartz) then stop 1
    else s.mapCtx c x (fun y => { y with op := none, wait := .wake, watch := last.bind (s.watchOf c) })
  | .vload active size =>
    acq (s.mapCtx c x (fun y =>
      { y.opDone o with vq := fillEntry (placeElems size active o.vals) y.vq }))

/-- The accesses of the operation of a context performed as far as they can be now. -/
def State.runOp : Nat → State → CoreId → CtxId → Option Access → State
  | 0, s, _, _, _ => s
  | n + 1, s, c, x, last =>
    match (s.ctx c x).op with
    | none => s
    | some o =>
      match o.todo with
      | [] => s.finishOp c x o last
      | a :: r =>
        let held (s : State) (f : MemOp → MemOp) : State := s.mapCtx c x (fun y =>
          { y with op := y.op.map f, wait := if o.vpipe then y.wait else .memory })
        match s.access c x a with
        | .value s v =>
          let (s, v) := s.gotValue c x a v
          runOp n (s.mapCtx c x (fun y => { y with op := y.op.map (fun o =>
            { o with todo := r, vals := o.vals ++ [v], out := false, storeAt := none }) })) c x (some a)
        | .out s => held s (fun o => { o with out := true, storeAt := none })
        | .later s t => held s (fun o => { o with out := true, storeAt := some t })

/-- Room for every access of an operation, and its end. -/
def MemOp.fuel (o : MemOp) : Nat := o.todo.length + 1

def State.go (s : State) (c : CoreId) (x : CtxId) : State :=
  match (s.ctx c x).op with
  | none => s
  | some o => s.runOp o.fuel c x none

/-- An operation begun. -/
def State.begin (s : State) (c : CoreId) (x : CtxId) (o : MemOp) : State :=
  (s.mapCtx c x (fun y => { y with op := some o })).go c x

/-- The value of the access that was out has come: the rest follows. -/
def State.answered (s : State) (c : CoreId) (x : CtxId) (v : Word) : State :=
  match (s.ctx c x).op with
  | none => s
  | some o =>
    match o.todo with
    | [] => s
    | a :: r =>
      let (s, v) := s.gotValue c x a v
      let s := s.mapCtx c x (fun y => { y with op := y.op.map (fun o =>
        { o with todo := r, vals := o.vals ++ [v], out := false, storeAt := none }) })
      s.runOp (r.length + 1) c x (some a)

/-- The access that was out is tried again. -/
def State.retryOp (s : State) (c : CoreId) (x : CtxId) : State :=
  (s.mapCtx c x (fun y => { y with op := y.op.map (fun o =>
    { o with out := false, storeAt := none }) })).go c x

/-- Is the access that a context has out one of this line? -/
def State.waitsFor (s : State) (c : CoreId) (x : CtxId) (line : Nat) : Option Access :=
  match (s.ctx c x).op with
  | some o =>
    match o.out, o.storeAt, o.todo with
    | true, none, a :: _ =>
      match a.place with
      | .memory pa home _ _ =>
        if placeLine pa home = line then some a else none
      | _ => none
    | _, _, _ => none
  | none => none

/-- The offset of an access in its line. -/
def Access.lineOff (a : Access) : Nat :=
  match a.place with
  | .memory pa _ _ _ => pa % 128
  | .spad _ off | .operand off => off % 128

end Sys2Proof.Machine
end

