-- ==== Sys2Proof/Machine/Coherence.lean ====
section
/-! DEFINITION. The coherence messages (R248 to R259, R370 to R373, R382, R390): the home slices, the
remote-data caches, the requesters' answers and what reaches them. -/

namespace Sys2Proof.Machine

/-! ### What a request needs first (R247, R250) -/

def isRead : ReqKind → Bool
  | .rdu | .rdl | .rdt | .erd => true
  | _ => false

def isGrant : ReqKind → Bool
  | .rdx | .upg => true
  | _ => false

/-- A request as the home serves it: a UPG whose requester is no sharer is an RDX (R252). -/
def DirLine.asServed (e : DirLine) (p : Proto) : Proto :=
  if p.kind = .upg && !e.sharers.contains p.reqr then { p with kind := .rdx } else p

/-- The owner whose every word is recalled when a grant would make a fifth: the one with the fewest
words, granted earliest among equals (R247). -/
def DirLine.fifth (e : DirLine) (p : Proto) : Option Nat :=
  let left (i : Nat) : BitVec 16 := e.ownerMask i &&& ~~~p.mask
  let own := [1, 2, 3, 4].any (fun i => (e.owner i).any (·.id == p.reqr))
  if own || !([1, 2, 3, 4].all (fun i => left i != 0)) then none
  else
    let since (i : Nat) : Nat := ((e.owner i).map (·.since)).getD 0
    let less (i j : Nat) : Bool :=
      let a := maskCount (e.ownerMask i)
      let b := maskCount (e.ownerMask j)
      a < b || (a == b && since i < since j)
    some ([2, 3, 4].foldl (fun v i => if less i v then i else v) 1)

/-- The words to recall from each owner: requester id and words. -/
def DirLine.recalls (e : DirLine) (p : Proto) : List (Nat × BitVec 16) :=
  let fifth := if isGrant p.kind then e.fifth p else none
  [1, 2, 3, 4].filterMap (fun i =>
    match e.owner i with
    | none => none
    | some o =>
      let w := if fifth = some i then e.ownerMask i else e.ownerMask i &&& p.mask
      if w = 0 then none else some (o.id, w))

/-- Does the writer of a WT keep a copy: a .track or .lease store, but no posted one (R241, R283)? -/
def keepsCopy (p : Proto) : Bool :=
  (p.pol == .track || p.pol == .lease) && (match p.waiter with | .posted _ _ => false | _ => true)

/-- The sharers to invalidate (R243, R250). -/
def DirLine.invs (e : DirLine) (p : Proto) : List Nat :=
  let home := e.homeMask &&& p.mask != 0
  let others := e.sharers.filter (· != p.reqr)
  match p.kind with
  | .rdx => if home then (if e.st = .sp then others else e.sharers) else []
  | .upg => if home then others else []
  | .wt => if home then (if keepsCopy p then others else e.sharers) else []
  | .ewr => if home then e.sharers else []
  | .amo => e.sharers
  | _ => []

/-- The transient state of a request under way (R245, R250). -/
def transient (p : Proto) (recalls : Bool) : HomeSt :=
  if isRead p.kind then .hFwd
  else if isGrant p.kind then (if recalls then .hSpl else .hInv)
  else if recalls then .hFwd else .hInv

/-! ### Messages of a home slice -/

/-- A forward to a requester id of a slice: a core of its die, a remote-data cache, or the host, whom a
back-invalidation snoop reaches (R381). -/
def State.forward (s : State) (d : DieId) (n : Nat) (row : Instr) (write : Bool) (line : Nat)
    (m : BitVec 16) : State :=
  let p := { Proto.empty with unit := .slice d, reqr := n, line, mask := m }
  if n < 256 then s.send (agentSlice line) (agentCore (dieCore d n)) row (.proto p)
  else if n < 264 then s.send (agentSlice line) (agentRdc (dieNum (n - 256))) row (.proto p)
  else s.tell (.snoop line write)

/-- A response to the requester of p. -/
def State.respond (s : State) (row : Instr) (p : Proto) : State :=
  match p.unit with
  | .rdc d => s.send (agentRdc d) (agentCore (dieCore d p.reqr)) row (.proto p)
  | .slice d =>
    let src := agentSlice p.line
    if p.reqr < 256 then s.send src (agentCore (dieCore d p.reqr)) row (.proto p)
    else if p.reqr < 264 then s.send src (agentRdc (dieNum (p.reqr - 256))) row (.proto p)
    else if row = .nack then s.send src agentPackage row (.proto p)
    else if p.reqr = 264 then
      -- for the host, wts and rts of its request are the address and the length it asked for
      s.tell (if p.kind = .ewr then .hostAck p.wts
        else .hostData p.wts (leBytes p.rts (lineField p.data (p.wts % 128) p.rts)))
    else
      match p.waiter with
      | .reader id => s.send src (agentReader id) row (.proto p)
      | .copy _ _ | .gather _ _ | .member _ _ => s.send src agentPackage .barrierArrival (.proto { p with reqr := 266 })
      | _ => s

/-- A DATA with words of the line. -/
def answer (p : Proto) (grant : Grant) (m : BitVec 16) (data : BitVec 1024) (wmask : BitVec 128)
    (wts rts t : Nat) : Proto :=
  if p.reqr = 264 then { p with data }
  else { p with grant, mask := m, data, wmask, wts, rts, lclk := t, old := 0 }

/-! ### Performing at the home (R250, R256, R258) -/

/-- A barrier or AMO function performed on memory: the value returned and the flags (R285, R304). -/
def State.homeOp (s : State) (line t : Nat) (op : HomeOp) : State × Word × BitVec 5 :=
  let put (s : State) (off n v : Nat) : State :=
    (s.putHbm line (lineOf off n v) (byteMask off n) t).ringBells line (byteMask off n)
  let pair (s : State) (off : Nat) (a b : Word) : State := put s off 16 (a.toNat + 2 ^ 64 * b.toNat)
  match op with
  | .amo fn size off op new =>
    let old := leNat (s.hbm.bytes (128 * line + off) size)
    let (v, fl) := amoNew fn size old op.toNat new.toNat
    (match v with
     | some n => put s off size n
     | none => s, word old, fl)
  | .binit off count =>
    let (d0, d1) := s.barrierWords (128 * line + off)
    let (a, b) := barrierInit d0 d1 count
    (pair s off a b, a, 0)
  | .arrive off gen poison addr domain core slot path detail =>
    let (d0, d1) := s.barrierWords (128 * line + off)
    match barrierArrive d0 d1 gen poison with
    | none =>
      (s.reportStale (lineDie line) addr domain core slot path detail, BitVec.allOnes 64, 0)
    | some (a, b, ph) =>
      let s := if poison then s.garnet (lineDie line).val 3 (pathSource path) core domain.toNat addr.toNat else s
      (pair s off a b, ph, 0)

/-- Whose request a message is, followed through a remote-data cache. -/
def State.origin (s : State) (p : Proto) : Waiter :=
  match p.waiter with
  | .rdc d => (((s.rdcLine d p.line).dir.cur).map (·.waiter)).getD (.rdc d)
  | w => w

/-- The posted store that a WT is, when the key slot of its page is not loaded (R284). -/
def State.lockedStf (s : State) (p : Proto) : Option (CoreId × Posted) :=
  match s.origin p with
  | .posted c id => ((s.core c).posted.find? (fun q => q.id == id && !s.keyLoaded q.key)).map (fun q => (c, q))
  | _ => none

/-- A WT or AMO written at logical time t, and its ACK. An STF whose key slot is not loaded is discarded and reported. -/
def State.writeAt (s : State) (d : DieId) (p : Proto) (t : Nat) : State :=
  let u := HomeUnit.slice d
  let e := { s.dir u p.line with cur := none, awaiting := [], performAt := none }
  match s.lockedStf p with
  | some (c, q) => ((s.setDir u p.line e.settle).reportPosted c q).respond .ack (answer p .value 0 0 0 0 0 0)
  | none =>
  let keep := p.kind = .wt && keepsCopy p
  let e := { e with wts := t, rts := t }
  let e := if keep && p.pol = .track then e.addSharer p.reqr else e
  let s := s.setDir u p.line e.settle
  let (s, old, fl) := match p.op with
    | some op => s.homeOp p.line t op
    | none => ((s.putHbm p.line p.data p.wmask t).ringBells p.line p.wmask, 0, 0)
  let grant : Grant := if !keep then .value else if p.pol = .track then .tracked else .leased
  let a := answer p grant e.homeMask (s.hbmLine p.line) (bytesOfWords e.homeMask) t t t
  s.respond .ack { a with old, flags := fl }

/-- A request of a slice whose invalidations and recalls are done. -/
def State.homePerform (s : State) (d : DieId) (p : Proto) : State :=
  let u := HomeUnit.slice d
  let e := { s.dir u p.line with cur := none, awaiting := [] }
  let data := s.hbmLine p.line
  let bytes := bytesOfWords p.mask
  let held := e.homeMask
  match p.kind with
  | .rdu =>
    let t := max p.lclk e.wts
    let e := { e with rts := max e.rts t }.settle
    (s.setDir u p.line e).respond .data (answer p .value p.mask data bytes e.wts e.rts t)
  | .erd => (s.setDir u p.line e.settle).respond .data (answer p .value p.mask data bytes e.wts e.rts 0)
  | .rdl =>
    let t := max p.lclk e.wts
    let same := p.wmask != 0 && p.wts = e.wts
    let e := { e with rts := max e.rts (t + p.lease) }.settle
    (s.setDir u p.line e).respond .data
      (answer p .leased held data (if same then 0 else bytesOfWords held) e.wts e.rts t)
  | .rdt =>
    let t := max p.lclk e.wts
    let e := ({ e with rts := max e.rts t }.addSharer p.reqr).settle
    (s.setDir u p.line e).respond .data
      (answer p .tracked held data (bytesOfWords held) e.wts e.rts t)
  | .rdx | .upg =>
    let home := p.old != 0
    let bytes := if p.kind = .upg then 0 else bytes
    let e := if home then { e with sharers := if p.kind = .upg then e.sharers.filter (· != p.reqr)
                                              else [] } else e
    let e := (e.grant p.reqr (s.die d).tick p.mask).settle
    let a := answer p .owned p.mask data bytes e.wts e.rts 0
    (s.setDir u p.line e).respond .data { a with old := if home then 1 else 0 }
  | .wt | .amo =>
    let t := max p.lclk (e.rts + 1)
    if s.timeCame t then (s.setDir u p.line e).writeAt d p t
    else s.setDir u p.line { e with cur := some p, performAt := some t }
  | .ewr =>
    let t := max e.wts (e.rts + 1)
    let s := s.setDir u p.line { e with wts := t, rts := t }.settle
    let s := (s.putHbm p.line p.data p.wmask t).ringBells p.line p.wmask
    (if p.reqr = 265 then s.wrote p.lease p.lclk t else s).respond .ack p
  | .wb => s.setDir u p.line e.settle

/-- A request in a stable state: the forwards it needs, or its performance (R250). A grant notes in old whether it
takes words that no one owns (R247). -/
def State.homeServe (s : State) (d : DieId) (p : Proto) : State :=
  let u := HomeUnit.slice d
  let e := s.dir u p.line
  let p := e.asServed p
  let p := if isGrant p.kind then { p with old := if e.homeMask &&& p.mask != 0 then 1 else 0 } else p
  let invs := e.invs p
  let recalls := e.recalls p
  if invs.isEmpty && recalls.isEmpty then s.homePerform d p
  else
    let write := !isRead p.kind
    let s := s.setDir u p.line { e with
      cur := some p, st := transient p (!recalls.isEmpty),
      awaiting := invs.map Await.inv ++ recalls.map (fun r => if write then .rcw r.1 else .rcr r.1) }
    let s := invs.foldl (fun s n => s.forward d n .inv true p.line 0xFFFF) s
    recalls.foldl (fun s r => s.forward d r.1 (if write then .rcw else .rcr) write p.line r.2) s

/-! ### The slice's L2 and queue (R251, R254, R264, R407) -/

/-- Does a reservation hold a request back (R264)? A write-back never waits for one, nor does the load of .own of a
reserved read line. -/
def State.barred (s : State) (d : DieId) (p : Proto) : Bool :=
  match tabGet (s.die d).reserved p.line with
  | none => false
  | some r =>
    let by_ (h : CoreId × SlotId) : Bool := match s.origin p with
      | .ctx c x => c == h.1 && (s.ctx c x).act.any (·.slot == h.2)
      | .posted c id => (s.core c).posted.any (fun q => q.id == id && s.madeIn h.1 h.2 c.val q)
      | _ => false
    !r.holders.all by_ && p.kind != .wb && (r.write || !(isRead p.kind || (isGrant p.kind && p.grant == .value)))

/-- The queue of a slice. -/
def State.sliceQueue (s : State) (d : DieId) (n : Nat) : List Proto :=
  (tabGet (s.die d).sliceQueues n).getD []

def State.setSliceQueue (s : State) (d : DieId) (n : Nat) (q : List Proto) : State :=
  s.mapDie d (fun k => { k with
    sliceQueues := if q.isEmpty then tabDel k.sliceQueues n else tabSet k.sliceQueues n q })

/-- A write-back is taken: its words come home (R250, R253). -/
def State.takeWb (s : State) (d : DieId) (p : Proto) : State :=
  let s := s.l2Use d p.line
  let u := HomeUnit.slice d
  let e := s.dir u p.line
  let mine := [1, 2, 3, 4].foldl (fun m i =>
    if (e.owner i).any (·.id == p.reqr) then m ||| e.ownerMask i else m) (0 : BitVec 16)
  let m := mine &&& p.mask
  let e := { e.release m with wts := max e.wts p.wts, rts := max e.rts p.rts }
  let e := if e.cur.isSome then e else e.settle
  (s.setDir u p.line e).putHbm p.line p.data (p.wmask &&& bytesOfWords m) (max e.wts p.wts)

/-- The host is asked for its words of a line that are to come home, or for a write, once it owns none, to give up its copy
(R381). -/
def State.askHost (s : State) (d : DieId) (line : Nat) (write : Bool) : State :=
  let u := HomeUnit.slice d
  let e := s.dir u line
  let p := { Proto.empty with unit := u, reqr := 265, line, mask := allWords, kind := .erd }
  if e.cur.isSome then s
  else if [1, 2, 3, 4].any (fun i => (e.owner i).any (·.id == 264)) then s.homeServe d p
  else if write && e.sharers.contains 264 then
    (s.setDir u line { e with cur := some { p with kind := .wb }, st := .hInv, awaiting := [.inv 264] }).forward d 264 .inv
      true line allWords
  else s

/-- The line whose way another needs, asked back from the host where the host owns it (R254, R381). -/
def State.clearWay (s : State) (d : DieId) (line : Nat) : State :=
  if (tabGet (s.die d).home line).isSome || (s.l2Ways d line).length < 16 then s
  else ((s.l2Victim d line).map (s.askHost d · true)).getD s

/-- A request is served now, with an L2 way for its line, when that can be done. -/
def State.serveNow (s : State) (d : DieId) (p : Proto) : Option State :=
  let e := s.dir (.slice d) p.line
  if e.cur.isSome || s.barred d p then none
  else if p.kind = .wb then some (s.takeWb d p)
  else (s.l2Room d p.line).map (·.homeServe d p)

/-- An awaited answer has come: the request goes on when it was the last. -/
def State.answeredHome (s : State) (d : DieId) (line : Nat) (a : Await) : State :=
  let u := HomeUnit.slice d
  let e := s.dir u line
  let e := { e with awaiting := e.awaiting.filter (· != a) }
  let s := s.setDir u line e
  match e.cur with
  | none => s
  | some p => if e.awaiting.isEmpty then s.homePerform d p else s

/-- Does a home await a write-back of a requester, and for a recall for write? -/
def DirLine.awaitsWb (e : DirLine) (n : Nat) : Option Await :=
  e.awaiting.find? (fun a => a == .wb n true || a == .wb n false)

/-- A request reaches its slice: it is served, waits its turn, or is answered NACK (R251). -/
def State.arriveSlice (s : State) (d : DieId) (p : Proto) : State :=
  let e := s.dir (.slice d) p.line
  let n := sliceOf p.line
  let q := s.sliceQueue d n
  match p.kind, e.awaitsWb p.reqr with
  | .wb, some a => (s.takeWb d p).answeredHome d p.line a
  | _, _ =>
    let wait (s : State) : State :=
      if Config.sliceQueue ≤ q.length then s.respond .nack p
      else (s.clearWay d p.line).setSliceQueue d n (q ++ [p])
    if q.any (·.line == p.line) then wait s
    else (s.serveNow d p).getD (wait s)

/-- The first request of a queue that can be served, and the rest; requests for one line keep their
order. -/
def State.firstServed (s : State) (d : DieId) : List Proto → List Proto → Option (State × List Proto)
  | _, [] => none
  | before, p :: r =>
    let blocked := before.any (·.line == p.line)
    match (if blocked then none else s.serveNow d p) with
    | some s => some (s, before ++ r)
    | none => firstServed s d (before ++ [p]) r

/-- Queued requests served as long as one can be; the ways that the rest need are asked for (R407). -/
def State.drainSlice : Nat → State → DieId → Nat → State
  | 0, s, _, _ => s
  | k + 1, s, d, n =>
    match s.firstServed d [] (s.sliceQueue d n) with
    | none => (s.sliceQueue d n).foldl (fun s p => s.clearWay d p.line) s
    | some (s, q) => drainSlice k (s.setSliceQueue d n q) d n

/-! ### The remote-data cache (R370 to R373) -/

/-- The words of a line that the cache may serve: tracked or owned, and not with one of its cores. -/
def RdcLine.served (r : RdcLine) : BitVec 16 :=
  r.grantMask (fun g => g == .tracked || g == .owned)

/-- Lines a remote-data cache holds (R233). -/
def rdcLines : Nat := 262144

/-- RDC EVICTION (R373, R382): its die's owners recalled and copies invalidated, then the words it owns
written back. What it has granted of the line stays in the cache's memory of lines gone, for a later INV. -/
def State.rdcEvict (s : State) (d : DieId) (line : Nat) : Option State :=
  (s.rdcRecall d line 0xFFFF true).map (fun s =>
    let (s, _) := s.rdcInv d line none
    let r := s.rdcLine d line
    let s :=
      if isHostLine line then
        if r.mesi = .i then s else s.tell (.evict d line (if r.mesi = .m then some r.data else none))
      else if r.owned = 0 then s
      else s.send (agentRdc d) (agentSlice line) .wb (.proto { Proto.empty with
        unit := .slice (lineDie line), reqr := 256 + d.val, line, mask := r.owned, data := r.data,
        wmask := bytesOfWords r.owned, wts := r.dir.wts, rts := max r.dir.rts r.granted, kind := .wb })
    s.mapDie d (fun k => { k with
      rdc := tabDel k.rdc line,
      rdcGone := if isHostLine line then k.rdcGone else max k.rdcGone (max r.granted r.dir.rts) }))

/-- Room for a line: when the cache is full its least recently used line that has nothing under way is
evicted (its replacement is the model's choice, assumption 13). -/
def State.rdcRoom (s : State) (d : DieId) (line : Nat) : Option State :=
  let t := (s.die d).rdc
  if (tabGet t line).isSome || t.length < rdcLines then some s
  else
    match t.filter (fun p => p.2.dir.cur.isNone) with
    | [] => none
    | p :: r => s.rdcEvict d (r.foldl (fun v q => if q.2.dir.use < v.2.dir.use then q else v) p).1

/-- A request forwarded to the home, or to the host's CXL.cache, and awaited. -/
def State.rdcHold (s : State) (d : DieId) (p : Proto) : State :=
  let e := s.dir (.rdc d) p.line
  s.setDir (.rdc d) p.line { e with cur := some p, awaiting := [.up] }

/-- A request sent on to the home as requester 256 + d. -/
def State.rdcForward (s : State) (d : DieId) (p : Proto) (kind : ReqKind) : State :=
  let h := lineDie p.line
  let r := s.rdcLine d p.line
  let held := r.grantMask (· == .leased) &&& p.mask = p.mask
  (s.rdcHold d p).send (agentRdc d) (agentSlice p.line) (requestRow kind) (.proto { p with
    unit := .slice h, reqr := 256 + d.val, kind, waiter := .rdc d,
    wts := if kind = .rdl then r.wts else p.wts,
    wmask := if kind = .rdl then (if held then BitVec.allOnes 128 else 0) else p.wmask })

/-- A request on the host's CXL.cache (R382). -/
def State.rdcCxl (s : State) (d : DieId) (p : Proto) (k : CxlKind) : State :=
  ((s.rdcHold d p).mapRdc d p.line (fun r => { r with cxl := some k, granted := 0 })).tell
    (.cxl d p.line k p.data p.wmask)

/-- Words granted to a core of the die (R247, R371): the die's other owners recalled, its tracked copies
invalidated when words held by the cache are taken. None while a recall cannot be done at once. -/
def State.rdcGrant (s : State) (d : DieId) (p : Proto) : Option State :=
  let u := HomeUnit.rdc d
  let p := (s.dir u p.line).asServed p
  let wanted := (s.dir u p.line).recalls p
  let home := (s.dir u p.line).homeMask &&& p.mask != 0
  let s? := wanted.foldl (fun (s : Option State) w =>
    s.bind (fun s =>
      match [1, 2, 3, 4].find? (fun i => ((s.dir u p.line).owner i).any (·.id == w.1)) with
      | none => some s
      | some i => s.rdcRecallOne d p.line i w.2 true)) (some s)
  s?.map (fun s =>
    let keep := if p.kind = .upg then some p.reqr else none
    let s := if home then (s.rdcInv d p.line keep).1 else s
    let r := s.rdcLine d p.line
    let e := r.dir
    let e := if home then e.dropSharer p.reqr else e
    let e := (e.grant p.reqr (s.die d).tick p.mask).settle
    let bytes := if p.kind = .upg then 0 else bytesOfWords p.mask
    let a := answer p .owned p.mask r.data bytes e.wts (max e.rts r.granted) 0
    (s.setDir u p.line e).respond .data { a with old := if home then 1 else 0 })

/-- A request for a line of another die. -/
def State.rdcServeDevice (s : State) (d : DieId) (p : Proto) : Option State :=
  let u := HomeUnit.rdc d
  let r := s.rdcLine d p.line
  let m := p.mask
  let served := r.served
  let leased := r.grantMask (· == .leased)
  match p.kind with
  | .rdl =>
    if served &&& m = m then
      (s.rdcRecall d p.line m false).map (fun s =>
        let r := s.rdcLine d p.line
        let t := max p.lclk r.dir.wts
        let rts := t + p.lease
        let held := r.served &&& r.dir.homeMask
        (s.mapRdc d p.line (fun r => { r with
          granted := max r.granted rts, dir := { r.dir with rts := max r.dir.rts rts } })).respond .data
            (answer p .leased held r.data (bytesOfWords held) r.dir.wts rts t))
    else if p.old = 0 && leased &&& m = m && max p.lclk r.wts ≤ r.rts then
      some (s.respond .data
        (answer p .leased leased r.data (bytesOfWords leased) r.wts r.rts (max p.lclk r.wts)))
    else (s.rdcRecall d p.line m false).map (·.rdcForward d p .rdl)
  | .rdt =>
    if served &&& m = m then
      (s.rdcRecall d p.line m false).map (fun s =>
        let r := s.rdcLine d p.line
        let t := max p.lclk r.dir.wts
        let held := r.served &&& r.dir.homeMask
        let e := ({ r.dir with rts := max r.dir.rts t }.addSharer p.reqr).settle
        (s.setDir u p.line e).respond .data
          (answer p .tracked held r.data (bytesOfWords held) e.wts e.rts t))
    else (s.rdcRecall d p.line m false).map (·.rdcForward d p .rdt)
  | .rdx | .upg =>
    if r.owned &&& m = m then s.rdcGrant d p
    else some (s.rdcForward d p (if served &&& m = m then .upg else .rdx))
  | .rdu => (s.rdcRecall d p.line m false).map (·.rdcForward d p .rdu)
  | .wt | .amo =>
    -- the store takes its time above what the cores that lose their copies have read (R251, R257), and, where the home
    -- sends this cache no INV, above what it has granted of the words it serves (R372)
    (s.rdcRecall d p.line m true).map (fun s =>
      let keeps := p.kind = .wt && keepsCopy p
      let (s, hi) := s.rdcInv d p.line (if keeps then some p.reqr else none)
      let r := s.rdcLine d p.line
      let hi := if keeps && r.served != 0 then max hi (max r.granted r.dir.rts) else hi
      s.rdcForward d { p with lclk := max p.lclk (hi + 1) } p.kind)
  | _ => some s

/-- A request for a line of host memory (R268, R382). -/
def State.rdcServeHost (s : State) (d : DieId) (p : Proto) : Option State :=
  let u := HomeUnit.rdc d
  let r := s.rdcLine d p.line
  let m := p.mask
  let owned := r.mesi = .e || r.mesi = .m
  match p.kind with
  | .rdt | .rdl =>
    if r.mesi = .i then some (s.rdcCxl d p .rdShared)
    else (s.rdcRecall d p.line m false).map (fun s =>
      let r := s.rdcLine d p.line
      let held := r.dir.homeMask
      (s.setDir u p.line (r.dir.addSharer p.reqr).settle).respond .data
        (answer p .tracked held r.data (bytesOfWords held) 0 0 0))
  | .rdx | .upg => if owned then s.rdcGrant d p else some (s.rdcCxl d p .rdOwn)
  | .rdu =>
    if r.mesi = .i then some (s.rdcCxl d p .rdCurr)
    else (s.rdcRecall d p.line m false).map (fun s =>
      s.respond .data (answer p .value m (s.rdcLine d p.line).data (bytesOfWords m) 0 0 0))
  | .wt =>
    if owned then
      (s.rdcRecall d p.line m true).map (fun s =>
        let s := (s.rdcInv d p.line none).1.ringBells p.line p.wmask
        (s.mapRdc d p.line (fun r => { r with
          data := mergeBits r.data p.data (byteBits p.wmask), mesi := .m })).respond .ack
            { p with lclk := 0, grant := .value })
    else
      let s := (s.rdcInv d p.line none).1
      some ((s.mapRdc d p.line (fun r => { r with mesi := .i })).rdcCxl d p .wrCur)
  | .amo =>
    if owned then
      (s.rdcRecall d p.line m true).map (fun s =>
        let s := (s.rdcInv d p.line none).1
        match p.op with
        | some (.amo fn size off op new) =>
          let old := lineField (s.rdcLine d p.line).data off size
          let (v, fl) := amoNew fn size old op.toNat new.toNat
          let s := match v with
            | some n => (s.ringBells p.line (byteMask off size)).mapRdc d p.line (fun r => { r with
                data := mergeBits r.data (lineOf off size n) (byteBits (byteMask off size)), mesi := .m })
            | none => s
          s.respond .ack { p with lclk := 0, grant := .value, old := word old, flags := fl }
        | _ => s.respond .ack { p with lclk := 0, grant := .value })
    else some (s.rdcCxl d p .rdOwn)
  | _ => some s

/-- A request in a stable state of the cache's entry. -/
def State.rdcServe (s : State) (d : DieId) (p : Proto) : Option State :=
  if (s.dir (.rdc d) p.line).cur.isSome then none
  else
    (s.rdcRoom d p.line).bind (fun s =>
      let n := (s.die d).tick + 1
      let s := s.mapDie d (fun k => { k with tick := n })
      let s := s.mapRdc d p.line (fun r => { r with dir := { r.dir with use := n } })
      if isHostLine p.line then s.rdcServeHost d p else s.rdcServeDevice d p)

/-- A core's write-back reaches the cache (R373). -/
def State.rdcTakeWb (s : State) (d : DieId) (p : Proto) : State :=
  let e := s.dir (.rdc d) p.line
  let mine := [1, 2, 3, 4].foldl (fun m i =>
    if (e.owner i).any (·.id == p.reqr) then m ||| e.ownerMask i else m) (0 : BitVec 16)
  let m := mine &&& p.mask
  let e := { e.release m with wts := max e.wts p.wts, rts := max e.rts p.rts }
  s.mapRdc d p.line (fun r => { r with
    dir := e.settle, data := mergeBits r.data p.data (byteBits (p.wmask &&& bytesOfWords m)),
    mesi := if r.mesi = .e && p.wmask != 0 then .m else r.mesi })

/-- A core's request reaches its die's cache: served, or it waits its turn (R251, R370). -/
def State.arriveRdc (s : State) (d : DieId) (p : Proto) : State :=
  if p.kind = .wb then s.rdcTakeWb d p
  else
    let q := (s.die d).rdcQueue
    let wait (s : State) : State :=
      if Config.sliceQueue ≤ q.length then s.respond .nack p
      else s.mapDie d (fun k => { k with rdcQueue := q ++ [p] })
    if q.any (·.line == p.line) then wait s else (s.rdcServe d p).getD (wait s)

def State.firstRdc (s : State) (d : DieId) : List Proto → List Proto → Option (State × List Proto)
  | _, [] => none
  | before, p :: r =>
    match if before.any (·.line == p.line) then none else s.rdcServe d p with
    | some s => some (s, before ++ r)
    | none => firstRdc s d (before ++ [p]) r

def State.drainRdc : Nat → State → DieId → State
  | 0, s, _ => s
  | k + 1, s, d =>
    match s.firstRdc d [] (s.die d).rdcQueue with
    | none => s
    | some (s, q) => drainRdc k (s.mapDie d (fun k => { k with rdcQueue := q })) d

/-- Every queue of the device served as far as it can be: what follows each step. -/
def State.drainQueues (s : State) : State :=
  s.dies.foldl (fun s p =>
    let d := dieNum p.1
    let s := (s.die d).sliceQueues.foldl (fun s q => s.drainSlice q.2.length d q.1) s
    s.drainRdc (s.die d).rdcQueue.length d) s

/-- The home's answer to a request that a cache had sent on: its own grant changes, and the core's
request is served from it (R371). -/
def State.rdcAnswer (s : State) (d : DieId) (p : Proto) (ack : Bool) : State :=
  let u := HomeUnit.rdc d
  match (s.dir u p.line).cur with
  | none => s
  | some q =>
    let s := s.setDir u p.line { s.dir u p.line with cur := none, awaiting := [] }
    let row : Instr := if ack then .ack else .data
    let back : Proto := { p with unit := u, reqr := q.reqr, waiter := q.waiter, kind := q.kind }
    let r := s.rdcLine d p.line
    let leased := r.grantMask (· == .leased)
    let merged := mergeBits r.data p.data (wordBits (p.mask &&& ~~~r.owned) &&& byteBits p.wmask)
    match p.grant with
    | .value =>
      let s := if ack && q.kind = .wt then
        s.setDir u p.line ((s.dir u p.line).dropSharer q.reqr).settle else s
      s.respond row back
    | .leased =>
      let m := (if p.wmask = 0 then leased &&& p.mask else p.mask) &&& ~~~r.served
      let s := s.mapRdc d p.line (fun t => { (t.setGrant leased .none).setGrant m .leased with
        data := merged,
        wts := if m = 0 then t.wts else p.wts,
        rts := if m = 0 then t.rts else p.rts,
        dir := if ack then { t.dir with wts := max t.dir.wts p.wts, rts := max t.dir.rts p.rts }
          else t.dir })
      let held := m ||| (p.mask &&& r.served)
      s.respond row { back with mask := held, data := merged, wmask := bytesOfWords held }
    | .tracked =>
      let m := p.mask &&& ~~~r.owned
      let lost := (leased ||| r.served) &&& ~~~r.owned &&& ~~~p.mask
      let s := s.mapRdc d p.line (fun t => { (t.setGrant lost .none).setGrant m .tracked with
        data := merged,
        dir := ({ t.dir with wts := max t.dir.wts p.wts, rts := max t.dir.rts p.rts }.addSharer
          q.reqr).settle })
      s.respond row { back with mask := m }
    | .owned =>
      let s := if p.old = 1 then
          let (s, _) := s.rdcInv d p.line none
          s.mapRdc d p.line (fun t => t.setGrant (t.grantMask (· == .tracked) &&& ~~~p.mask) .none)
        else s
      let s := s.mapRdc d p.line (fun t => { t.setGrant p.mask .owned with
        data := mergeBits t.data p.data (byteBits p.wmask),
        dir := { t.dir with wts := max t.dir.wts p.wts, rts := max t.dir.rts p.rts } })
      let q := if p.old = 1 && q.kind = .upg then { q with kind := .rdx } else q
      (s.rdcServe d q).getD (s.mapDie d (fun k => { k with rdcQueue := q :: k.rdcQueue }))

/-! ### Requests: the rows (R248, R250) -/

def homeRequest (kind : ReqKind) (s : State) : Result :=
  withProto s (fun p =>
    let p := { p with kind }
    match p.unit with
    | .slice d => .next (s.arriveSlice d p)
    | .rdc d => .next (s.arriveRdc d p))

def execRdu (s : State) : Result := homeRequest .rdu s
def execRdl (s : State) : Result := homeRequest .rdl s
def execRdt (s : State) : Result := homeRequest .rdt s
def execRdx (s : State) : Result := homeRequest .rdx s
def execUpg (s : State) : Result := homeRequest .upg s
def execWt (s : State) : Result := homeRequest .wt s
def execAmoMessage (s : State) : Result := homeRequest .amo s
def execWb (s : State) : Result := homeRequest .wb s
def execErd (s : State) : Result := homeRequest .erd s

/-- EWR: a word at its home, or the part of a sector that lies in a scratchpad or an operand window. -/
def execEwr (s : State) : Result :=
  match s.arg with
  | .sector t true off bs _ _ =>
    .next ((s.mapCore t (fun k => { k with opnd := k.opnd.setBytes off bs })).releaseClaims t)
  | .sector t false off bs _ _ => .next (s.spadWrite t off bs)
  | _ => homeRequest .ewr s

/-! ### Forwards: the rows (R249, R372) -/

/-- The forwards of a slice, at the core or the cache they name. -/
def withForward (s : State) (core : DieId → CoreId → Proto → Result)
    (rdc : DieId → DieId → Proto → Result) : Result :=
  withProto s (fun p =>
    match p.unit with
    | .slice d => if p.reqr < 256 then core d (dieCore d p.reqr) p else rdc d (dieNum (p.reqr - 256)) p
    | .rdc _ => noSuch)

def execInv (s : State) : Result :=
  withForward s
    (fun _ c p =>
      let s := s.voidGrants (agentSlice p.line) (some (agentCore c)) p.line
      .next ((s.setCore c ((s.core c).l1Inv p.line)).send (agentCore c) (agentSlice p.line) .invack
        (.proto { p with lclk := (s.core c).lclk })))
    (fun _ r p =>
      let s := s.voidGrants (agentSlice p.line) (some (agentRdc r)) p.line
      let (s, t) := s.rdcTakeInv r p.line
      .next (s.send (agentRdc r) (agentSlice p.line) .invack (.proto { p with lclk := t })))

/-- RCR or RCW: RDATA, or WBPEND when the words are in a write-back already sent. One that overtakes the grant of its
words waits for it; a cache whose core's write-back or grant is on its way answers once it has come. -/
def recallForward (write : Bool) (s : State) : Result :=
  withForward s
    (fun _ c p =>
      match (s.core c).l1Recall p.line p.mask write with
      | some (k, l) =>
        .next ((s.setCore c k).send (agentCore c) (agentSlice p.line) .rdata
          (.proto { p with data := l.data, wts := l.wts, rts := l.rts, wmask := bytesOfWords p.mask }))
      | none =>
        if s.grantComing (agentCore c) p.line p.mask then .next s
        else .next (s.send (agentCore c) (agentSlice p.line) .wbpend (.proto p)))
    (fun _ r p =>
      if (s.rdcLine r p.line).owned &&& p.mask ≠ p.mask then
        if s.grantComing (agentRdc r) p.line p.mask then .next s
        else .next (s.send (agentRdc r) (agentSlice p.line) .wbpend (.proto p))
      else
        match s.rdcTakeRecall r p.line p.mask write with
        | none => .next s
        | some (s, data, wts, rts) =>
          .next (s.send (agentRdc r) (agentSlice p.line) .rdata
            (.proto { p with data, wts, rts, wmask := bytesOfWords p.mask })))

def execRcr (s : State) : Result := recallForward false s
def execRcw (s : State) : Result := recallForward true s

/-! ### Answers at the home: the rows (R251, R253) -/

/-- An answer at a slice. -/
def withAnswer (s : State) (f : DieId → DirLine → Proto → Result) : Result :=
  withProto s (fun p =>
    match p.unit with
    | .slice d => f d (s.dir (.slice d) p.line) p
    | .rdc _ => noSuch)

/-- An answer as the home takes it: the host's has logical time 0 (R381). -/
def hostAnswer (p : Proto) : Proto := if p.reqr = 264 then { p with lclk := 0, wts := 0, rts := 0 } else p

def execInvack (s : State) : Result :=
  withAnswer s (fun d e p =>
    let p := hostAnswer p
    if e.awaiting.contains (.inv p.reqr) then
      let e := { e.dropSharer p.reqr with rts := max e.rts p.lclk }
      .next ((s.setDir (.slice d) p.line e).answeredHome d p.line (.inv p.reqr))
    else .next s)

def execRdata (s : State) : Result :=
  withAnswer s (fun d e p =>
    let p := hostAnswer p
    match e.awaiting.find? (fun a => a == .rcr p.reqr || a == .rcw p.reqr) with
    | none => .next s
    | some a =>
      let e := { e.release p.mask with wts := max e.wts p.wts, rts := max e.rts p.rts }
      let e := if a = .rcr p.reqr then e.addSharer p.reqr else e
      .next (((s.setDir (.slice d) p.line e).putHbm p.line p.data (bytesOfWords p.mask) e.wts).answeredHome
        d p.line a))

/-- WBPEND: the write-back is awaited, or has come and waits in the queue (R253). -/
def execWbpend (s : State) : Result :=
  withAnswer s (fun d e p =>
    match e.awaiting.find? (fun a => a == .rcr p.reqr || a == .rcw p.reqr) with
    | none => .next s
    | some a =>
      let n := sliceOf p.line
      let q := s.sliceQueue d n
      let here (w : Proto) : Bool := w.kind == .wb && w.line == p.line && w.reqr == p.reqr
      match q.find? here with
      | some w => .next (((s.setSliceQueue d n (q.filter (!here ·))).takeWb d w).answeredHome d p.line a)
      | none => .next (s.setDir (.slice d) p.line { e with
          st := .hWb, awaiting := e.awaiting.filter (· != a) ++ [.wb p.reqr (a == .rcw p.reqr)] }))

/-! ### Far accesses of engines -/

def FarRead.take (f : FarRead) (m : BitVec 16) (data : BitVec 1024) : FarRead :=
  { f with got := f.got ||| m, data := mergeBits f.data data (wordBits m) }

/-- Words of a host or peer line come for an engine. -/
def State.farData (s : State) (id : Nat) (m : BitVec 16) (data : BitVec 1024) : State :=
  let reads := tabMap (fun i f => if i = id then f.take m data else f) s.farReads
  { s with farReads := reads }

/-- A far read is denied by the peer (R379). -/
def State.farDenied (s : State) (id : Nat) : State :=
  let reads := tabMap (fun i f => if i = id then { f with denied := true } else f) s.farReads
  { s with farReads := reads }

/-- One acknowledgement of a far write; a write that was denied stays until its engine learns of it. -/
def State.farDone (s : State) (id : Nat) (denied : Bool) : State :=
  let one (f : FarWrite) : FarWrite := { f with left := f.left - 1, denied := f.denied || denied }
  let writes := tabMap (fun i f => if i = id then one f else f) s.farWrites
  { s with farWrites := writes.filter (fun p => p.2.left != 0 || p.2.denied) }

/-! ### Responses at the requester: the rows (R249, R251) -/

/-- A store that its activation has gone on from is performed: a plain one of .own on the words that have come (R278). -/
def State.postedDone (s : State) (c : CoreId) (id : Nat) (p : Proto) : State :=
  let q := (s.core c).posted.find? (fun q => q.id == id)
  let s := match p.grant, q.bind (·.own) with
    | .owned, some (off, size, d) =>
      let s := s.l1Fill c p
      (match s.storeOwned c p.line off size (s.l1Line c p.line) d with
       | .value s _ | .out s | .later s _ => s)
    | .owned, none => s.l1Fill c p
    | _, _ => s
  s.mapCore c (fun k => Core.wakeLine { k with posted := k.posted.filter (fun q => q.id != id) } p.line)

def execData (s : State) : Result :=
  withProto s (fun p =>
    match p.waiter with
    | .ctx c x =>
      let s := s.l1Fill c p
      let s := if isHostLine p.line then s else s.raiseClk c p.lclk
      match s.waitsFor c x p.line with
      | none => .next s
      | some a =>
        if p.grant = .value then .next (s.answered c x (word (lineField p.data a.lineOff a.size)))
        else .next (s.retryOp c x)
    | .prefetch c => .next (s.l1Fill c p)
    | .posted c id => .next (s.postedDone c id p)
    | .rdc d => .next (s.rdcAnswer d p false)
    | .reader id => .next (s.farData id p.mask p.data)
    | _ => .next s)

/-- The clock of a core raised, and that of the core on which an actor now is (R283). -/
def State.raiseActor (s : State) (c : CoreId) (actor : Nat) (t : Nat) : State :=
  let there := s.cores.filter (fun p => actor != 0 && p.1 != c.val && p.2.slots.toList.any (·.actor == actor))
  there.foldl (fun s p => s.raiseClk (coreOf p.1) t) (s.raiseClk c t)

def execAck (s : State) : Result :=
  withProto s (fun p =>
    match p.waiter with
    | .ctx c x =>
      let s := if p.grant = .value then s.l1Forget c p.line else s.l1Fill c p
      let s := s.mapCore c (·.wakeLine p.line)
      let s := if isHostLine p.line then s else s.raiseClk c p.lclk
      match s.waitsFor c x p.line with
      | none => .next s
      | some _ => .next ((s.opFlags c x p.flags).answered c x p.old)
    | .posted c id =>
      let actor := (((s.core c).posted.find? (fun q => q.id == id)).map (·.actor)).getD 0
      let s := s.postedDone c id p
      .next (if isHostLine p.line then s else s.raiseActor c actor p.lclk)
    | .rdc d => .next (s.rdcAnswer d p true)
    | .writer id => .next (s.farDone id false)
    | _ => .next s)

/-- NACK: the request will be sent again. -/
def execNack (s : State) : Result :=
  withProto s (fun p =>
    let src := match p.unit with
      | .rdc d => agentCore (dieCore d p.reqr)
      | .slice d =>
        if p.reqr < 256 then agentCore (dieCore d p.reqr)
        else if p.reqr < 264 then agentRdc (dieNum (p.reqr - 256)) else agentPackage
    .next (s.send src (unitAgent p.line p.unit) .nackResend (.proto p)))

def execNackResend (s : State) : Result :=
  withProto s (fun p =>
    match p.unit with
    | .slice d => .next (s.arriveSlice d p)
    | .rdc d => .next (s.arriveRdc d p))

/-! ### Time (R258, R259) -/

/-- A lease of a core has run out: nothing moves but the WAITAs that watched it (R249, R289). -/
def execLeaseEnd (s : State) : Result :=
  withCore s (fun c =>
    let past : Option Watch → Bool
      | some (.leased rts) => rts < s.floorTime
      | _ => false
    stepIf s ((s.core c).ctxs.toList.any (fun y => past y.watch))
      (s.mapCore c (fun k => { k with ctxs := k.ctxs.map (fun y =>
        if past y.watch then { y with watch := none } else y) })))

/-- A store that waited for physical time is performed (R259). -/
def execStoreWaitEnd (s : State) : Result :=
  match s.arg with
  | .wait (.ctx c x) =>
    let come := match (s.ctx c x).op with
      | some o => o.storeAt.any s.timeCame && (s.core c).timelost.isNone
      | none => false
    stepIf s come (s.retryOp c x)
  | .wait (.home (.slice d) line) =>
    let e := s.dir (.slice d) line
    match e.performAt, e.cur with
    | some t, some p => stepIf s (s.timeCame t) (s.writeAt d p t)
    | _, _ => .next s
  | _ => noSuch

/-! ### CXL.cache (R382, R390) -/

/-- The completion of a cache's request on CXL.cache. When a snoop came while it was out, a load is
served from its data once and nothing is kept; anything else asks again. -/
def execCxlCacheCompletion (s : State) : Result :=
  match s.arg with
  | .cxl d line data =>
    let u := HomeUnit.rdc d
    let r := s.rdcLine d line
    match r.cxl, r.dir.cur with
    | some k, some p =>
      let free := (s.setDir u line { r.dir with cur := none, awaiting := [] }).mapRdc d line
        (fun r => { r with cxl := none, granted := 0 })
      let once (s : State) : State :=
        s.respond .data { answer p .value p.mask data (bytesOfWords p.mask) 0 0 0 with unit := u }
      let keep (st : Mesi) : Result :=
        let s := free.mapRdc d line (fun r => { r with mesi := st, data })
        .next ((s.rdcServe d p).getD s)
      match k with
      | .wrCur => .next ((free.ringBells line p.wmask).respond .ack { p with lclk := 0, grant := .value })
      | .rdCurr => .next (once free)
      | .rdShared => if r.granted = 1 then .next (once free) else keep .s
      | .rdOwn =>
        if r.granted = 1 then
          if isGrant p.kind && p.grant = .value then .next (once free) else .next (free.rdcCxl d p .rdOwn)
        else keep .e
    | _, _ => noSuch
  | _ => noSuch

/-- Snoop responses of R382, as they are told to the host: 0 RspIHitI, 1 RspIHitSE, 2 RspIFwdM,
3 RspSHitSE, 4 RspSFwdM, 5 RspVFwdV. One whose recalls cannot be done at once waits on its way. -/
def snoop (row : Instr) (s : State) (f : DieId → Nat → RdcLine → State → Option State) : Result :=
  match s.arg with
  | .cxl d line _ =>
    let r := s.rdcLine d line
    if r.cxl.isSome then
      let (s, _) := s.rdcInv d line none
      .next ((s.mapRdc d line (fun r => { r with mesi := .i, granted := 1 })).tell
        (.snoopReply d line 0 none))
    else if r.mesi = .i then .next (s.tell (.snoopReply d line 0 none))
    else .next ((f d line r s).getD (s.send agentPackage (agentRdc d) row s.arg))
  | _ => noSuch

/-- SnpInv: every copy of the die goes; modified data go with the answer. -/
def execSnpinv (s : State) : Result :=
  snoop .snpinv s (fun d line _ s =>
    (s.rdcRecall d line 0xFFFF true).map (fun s =>
      let (s, _) := s.rdcInv d line none
      let r := s.rdcLine d line
      let mod := r.mesi = .m
      (s.mapRdc d line (fun r => { r with mesi := .i })).tell
        (.snoopReply d line (if mod then 2 else 1) (if mod then some r.data else none))))

def execSnpdata (s : State) : Result :=
  snoop .snpdata s (fun d line _ s =>
    (s.rdcRecall d line 0xFFFF false).map (fun s =>
      let r := s.rdcLine d line
      let mod := r.mesi = .m
      (s.mapRdc d line (fun r => { r with mesi := .s })).tell
        (.snoopReply d line (if mod then 4 else 3) (if mod then some r.data else none))))

def execSnpcur (s : State) : Result :=
  snoop .snpcur s (fun d line _ s =>
    (s.rdcRecall d line 0xFFFF false).map (fun s =>
      let r := s.rdcLine d line
      let mod := r.mesi = .m
      s.tell (.snoopReply d line (if mod then 5 else 3) (if mod then some r.data else none))))

end Sys2Proof.Machine
end

