-- ==== Sys2Proof/Machine/Translate.lean ====
section
/-! DEFINITION. The windows of the address space (R22, R221 to R225), translation and its rights (R235 to
R238, R383), and the miss that is sent to the translation service. -/

namespace Sys2Proof.Machine

/-- Who makes an access: the core, slot and number of the actor, the domain it is checked against, and whether a gate's
callee or an engine makes it, so that case 2 of R223 applies. -/
structure Who where
  core : CoreId
  slot : SlotId
  actor : Nat
  domain : BitVec 16
  deep : Bool
  deriving DecidableEq, Repr

/-- Access kinds as faults and misses name them (R345, R238). -/
def kindRead : Nat := 0
def kindWrite : Nat := 1
def kindExec : Nat := 2
def kindRmw : Nat := 3

/-- Causes of R342. -/
def causePage : Nat := 1
def causeDupw : Nat := 2
def causeMcheck : Nat := 3
def causeProt : Nat := 16
def causeSpperm : Nat := 17
def causeCap : Nat := 18

/-- Where an access lands, a miss, or the cause it faults with. -/
inductive Placed where
  | at (p : Place) (e : Option TlbEntry)
  | miss
  | fault (cause : Nat)
  deriving DecidableEq, Repr

/-! ### Scratchpad regions (R22, R223 to R225) -/

/-- Is the actor of a slot the one that makes an access (R223, R224)? Of several actors that a slot has held, only it; it goes
where the actor goes. -/
def Who.holds (w : Who) (target : CoreId) (n : SlotId) (sl : Slot) : Bool :=
  sl.actor == w.actor && (w.actor != 0 || (target == w.core && n == w.slot))

/-- Does an actor's region admit bytes off to off + size − 1 to someone? -/
def regionAdmits (k : Core) (w : Who) (target : CoreId) (n : SlotId) (sl : Slot) (i : Nat) (r : Region)
    (off size : Nat) (write : Bool) : Bool :=
  r.base ≤ off && off + size ≤ r.base + r.size &&
  ((w.holds target n sl && w.domain == sl.domain) ||
   (w.deep && w.domain == sl.domain && !r.stack) ||
   k.guard.shares.any (fun p =>
     p.2.slot == n && p.2.region == i && p.2.domain == w.domain && (p.2.write || !write)))

/-- May someone reach bytes of a core's scratchpad? -/
def State.spadAdmits (s : State) (w : Who) (target : CoreId) (off size : Nat) (write : Bool) : Bool :=
  let k := s.core target
  (List.range 16).any (fun i =>
    let n := slotOf i
    let sl := k.slots[n]
    sl.regions.zipIdx.any (fun p => regionAdmits k w target n sl p.2 p.1 off size write))

/-- Does an access of a kind to some scratchpad bytes read a word that can be neither corrected nor rebuilt (R227, R229)? -/
def State.spadBad (s : State) (t : CoreId) (off size kind : Nat) : Bool :=
  (if kind == kindRead || kind == kindRmw then spadWords off size else partWords off size).any
    (fun w => (s.core t).wordLost w)

def State.placeSpad (s : State) (w : Who) (target : CoreId) (off size kind : Nat) : Placed :=
  if s.spadAdmits w target off size (kind != kindRead) then
    if s.spadBad target off size kind then .fault causeMcheck
    else .at (.spad target off) none
  else .fault causeSpperm

/-! ### Translated memory (R235, R237) -/

/-- The entry of a cluster's TLB that matches. -/
def State.tlbFind (s : State) (g : ClusterId) (domain : BitVec 16) (va : Nat) : Option TlbEntry :=
  (s.cluster g).tlb.find? (·.covers domain va)

def homeOfField (n : Nat) : HomeKind :=
  match n with | 0 => .thisDie | 1 => .otherDie | 2 => .host | _ => .peer

/-- Is a policy allowed by an entry? A peer page takes .thru alone (R236). -/
def TlbEntry.allows (e : TlbEntry) (p : Pol) : Bool :=
  e.polmask.getLsbD (polCode p) && e.home != 3

/-- The slot of an actor in the system-call area, and the area (R383); until bring-up there is none. -/
def State.callArea (s : State) (w : Who) (pa size : Nat) : Bool :=
  match s.callBase with
  | none => true
  | some b =>
    let mine := b + (w.core.val * 16 + w.slot.val) * 64
    pa + size ≤ b || b + 0x200000 ≤ pa || (mine ≤ pa && pa + size ≤ mine + 64)

/-- A translated access under its entry: a write to a read-duplicated page first (R240), then the rights
and the key (R237), then the system-call area. Memory holds bytes in clear: what was written under one loaded key slot reads
under another as it was written (R8 gives no value; assumption 102). Kind 4 is that of an STF, whose key the home alone
checks (R284). -/
def State.placeEntry (s : State) (w : Who) (e : TlbEntry) (va size kind : Nat) (pol : Pol) : Placed :=
  let posted := kind == 4
  let writes := kind == kindWrite || kind == kindRmw || posted
  let right :=
    if kind == kindRead then e.r else if kind == kindWrite || posted then e.w
    else if kind == kindExec then e.x else e.r && e.w
  let home := homeOfField e.home.toNat
  let pa := e.pa va
  if writes && e.dup then .fault causeDupw
  else if !right || (!posted && !s.keyLoaded e.key.toNat) then .fault causeProt
  else if home = .host && !s.callArea w pa size then .fault causeProt
  else .at (.memory pa home e.key.toNat (if e.allows pol then pol else .thru)) (some e)

/-- Where an access of size bytes lands, translated at a cluster (R221, R280). The operand window is
reached by VSTO and engines alone, which place it themselves. -/
def State.placeIn (s : State) (g : ClusterId) (w : Who) (addr : Word) (size kind : Nat) (pol : Pol) :
    Placed :=
  let a := addr.toNat
  if a < Config.opwBase then
    match s.tlbFind g w.domain a with
    | none => .miss
    | some e => s.placeEntry w e a size kind pol
  else if Config.lswBase ≤ a && a < Config.lswBase + Config.spadBytes then
    s.placeSpad w w.core (a - Config.lswBase) size kind
  else if Config.rswBase ≤ a && a < Config.rswBase + 2048 * Config.spadBytes then
    s.placeSpad w (coreOf ((a - Config.rswBase) / Config.spadBytes))
      ((a - Config.rswBase) % Config.spadBytes) size kind
  else .fault causeProt

/-- Where an access of a core lands: CAP without a rights record of its domain (R9, R129; assumption 18), else as
decoded. -/
def State.placeOf (s : State) (w : Who) (addr : Word) (size kind : Nat) (pol : Pol) : Placed :=
  if w.domain != 0 && (s.core w.core).guard.withdrawn.contains w.domain then .fault causeCap
  else s.placeIn (clusterOf w.core) w addr size kind pol

/-- A micro-TLB takes the entry it was missing from its cluster TLB (R235). -/
def State.microFill (s : State) (c : CoreId) (e : Option TlbEntry) : State :=
  match e with
  | none => s
  | some e =>
    if (s.core c).utlb.contains e then s
    else s.mapCore c (fun k => { k with utlb := (e :: k.utlb).take 48 })

/-! ### A miss (R238) -/

/-- Path classes by code. -/
def pathCode : PathClass → Nat
  | .core => 0 | .copy => 1 | .matrix => 2 | .gather => 3 | .collective => 4 | .seal => 5

/-- The slot of the translation service actor of a cluster (assumption 8). -/
def serviceSlot (g : ClusterId) : Nat := 1 + (Config.translationSlot g.val).val

/-- The miss of a core, or of an engine at a core, is recorded for its waiter, or joins the entry of its
page; a new entry is told to the translation service. When the table is full the waiter tries again
later. Before bring-up has set the service up nobody is told: the waiters ask again then (assumption 101). -/
def State.recordMissAt (s : State) (at_ : CoreId) (w : Who) (addr : Word) (kind : Nat) (pol : Pol)
    (path : PathClass) (who : MissWaiter) : State :=
  let g := clusterOf at_
  let page := pageOf addr
  let t := (s.cluster g).misses
  let put (s : State) (n : Nat) (m : Miss) : State :=
    s.mapCluster g (fun k => { k with misses := tabSet k.misses n m })
  let wait : MissWait := { who, addr, kind, pol := polCode pol }
  match t.find? (fun p => p.2.domain == w.domain && p.2.page == page) with
  | some (n, m) =>
    if m.waiters.any (·.who == who) then s else put s n { m with waiters := m.waiters ++ [wait] }
  | none =>
    match tabFree t 64 with
    | none => s
    | some n =>
      let dst := endpointOf (serviceCore g).val (serviceSlot g) 0
      let s := put s n { domain := w.domain, page, waiters := [wait] }
      s.post (agentFront (clusterDie g)) (frontMsg (clusterDie g) dst 0x4D
        [addr, word (w.domain.toNat + kind * 2 ^ 16 + polCode pol * 2 ^ 18),
         word (at_.val + pathCode path * 2 ^ 11), word n] 0)

def State.recordMiss (s : State) (w : Who) (addr : Word) (kind : Nat) (pol : Pol) (path : PathClass)
    (who : MissWaiter) : State := s.recordMissAt w.core w addr kind pol path who

/-- The issuing context as someone who makes an access. -/
def State.who (s : State) : Who :=
  let y := s.here
  let n : SlotId := (y.act.map (·.slot)).getD 0
  { core := s.focus, slot := n, actor := (s.slot s.focus n).actor, domain := y.domain, deep := !y.stack.isEmpty }

/-! ### Faults of the issuing instruction -/

/-- Has the V pipe stopped: empty, or its oldest instruction blocked on a queue (R347)? -/
def Ctx.vStopped (y : Ctx) : Bool :=
  y.op.isNone &&
  (match y.vq with
   | [] => true
   | e :: _ =>
     match vEffect e.instr with
     | some f => (f y).isNone
     | none => false)

/-- A fault of the issuing instruction, once the V pipe has stopped. -/
def raise (s : State) (f : FaultInfo) : Result :=
  if s.here.vStopped then .next (s.deliver s.focus s.hereX f) else waitFor s .vSettle

/-- A translation miss of the issuing instruction: the activation blocks (R238). -/
def missHere (s : State) (addr : Word) (kind : Nat) (pol : Pol) : Result :=
  waitFor (s.recordMiss s.who addr kind pol .core (.ctx s.focus s.hereX)) .translation

end Sys2Proof.Machine
end

