-- ==== Sys2Proof/Machine/Memory.lean ====
section
/-! DEFINITION. Memory, atomic and fence instructions of the S pipe (R107, R270 to R292), vector memory
instructions (R187 to R192), barrier instructions (R340) and the device steps that end their waits. -/

namespace Sys2Proof.Machine

/-! ### Address checks (R280) -/

/-- An access an instruction wants: its bytes, the kind its rights are checked for, what it does, and
the alignment asked of its address. -/
structure Want where
  addr : Word
  size : Nat
  kind : Nat
  what : AccessKind
  deriving DecidableEq, Repr

/-- The kind of an STF: a write whose key is left to the home (R284). -/
def kindPosted : Nat := 4

/-- What the checks of an instruction's accesses come to. -/
inductive Checked where
  | ok (as : List Access) (es : List (Option TlbEntry))
  | align (addr : Word)
  | miss (addr : Word) (kind : Nat)
  | fault (f : FaultInfo)

/-- The kind of place that an address names by its window alone, wherever it lies there (R222). -/
def windowOf (a : Word) : Option Place :=
  if Config.lswBase ≤ a.toNat && a.toNat < Config.lswBase + Config.spadBytes ||
      Config.rswBase ≤ a.toNat && a.toNat < Config.rswBase + 2048 * Config.spadBytes then some (.spad 0 0)
  else if inOperand a then some (.operand 0) else none

/-- One address checked (R280, R188): alignment, then its window. Some forms refuse some places, or a whole window, with
PROT. -/
def State.check (s : State) (w : Who) (pol : Pol) (bad : Place → Bool) (a : Want) : Checked :=
  if a.addr.toNat % a.size ≠ 0 then .align a.addr
  else if (windowOf a.addr).any bad then .fault ⟨causeProt, a.addr, a.kind % 4 + a.kind / 4, polCode pol⟩
  else
    let info (cause : Nat) : FaultInfo := ⟨cause, a.addr, a.kind % 4 + a.kind / 4, polCode pol⟩
    match s.placeOf w a.addr a.size a.kind pol with
    | .miss => .miss a.addr (a.kind % 4 + a.kind / 4)
    | .fault c => .fault (info c)
    | .at p e =>
      if bad p then .fault (info causeProt)
      else .ok [{ addr := a.addr, size := a.size, place := p, kind := a.what }] [e]

/-- All of them, in order; the first that fails decides. -/
def State.checkAll (s : State) (w : Who) (pol : Pol) (bad : Place → Bool) : List Want → Checked
  | [] => .ok [] []
  | a :: r =>
    match s.check w pol bad a with
    | .ok as es =>
      match s.checkAll w pol bad r with
      | .ok bs fs => .ok (as ++ bs) (es ++ fs)
      | c => c
    | c => c

/-! ### Waits for posted stores (R272, R273, R283) -/

/-- Does an access wait for a posted store: one of a word that it touches? A count of pins is no word of it (R288). -/
def Access.meets (a : Access) (p : Posted) : Bool :=
  match a.place, a.kind with
  | _, .pin _ => false
  | .memory pa home _ _, _ =>
    p.line == placeLine pa home && p.mask &&& wordMask (pa % 128) a.size != 0
  | _, _ => false

def Access.isSystem (a : Access) : Bool :=
  match a.place with
  | .memory _ .host _ _ | .memory _ .peer _ _ => true
  | _ => false

/-- Does a release hold: at system scope, or on anything but host and peer memory (R273, R278)? -/
def releases (o : MemOrd) (sys : Bool) (as : List Access) : Bool :=
  (o == .rel || o == .ar) && (sys || !as.all Access.isSystem) && !as.isEmpty

/-- Does an access wait for a store that its activation has gone on from: one of a word that it touches (R283), or, as a
release, an earlier one: at system scope any, else an STF (R273, R278)? -/
def State.postedHolds (s : State) (o : MemOrd) (sys : Bool) (as : List Access) : Bool :=
  s.myPosted.any (fun p => as.any (·.meets p)) ||
    (releases o sys as && !(if sys then s.myPosted else s.myStfs).isEmpty)

/-- The accesses of an instruction as they are begun: a plain store to host memory is performed when it may be, and the
activation goes on (R278; assumption 96). With an acquire it is waited for. -/
def letGo (acq : Bool) (as : List Access) : List Access :=
  if acq then as
  else as.map (fun a =>
    match a.place, a.kind with
    | .memory _ .host _ _, .store d => { a with kind := .async d }
    | _, _ => a)

/-- Is an access one of translated memory? -/
def Access.translated (a : Access) : Bool :=
  match a.place with
  | .memory _ _ _ _ => true
  | _ => false

/-- Does an acquire at system scope take effect (R278)? On a scratchpad address it adds its waits only (R22, R281). -/
def acquires (o : MemOrd) (sys : Bool) (as : List Access) : Bool :=
  (o == .acq || o == .ar) && sys && as.any Access.translated

/-! ### Atomic chunks (R262, R264, R266, R267) -/

def Access.reads (a : Access) : Bool :=
  match a.kind with
  | .store _ | .posted _ | .async _ | .pin _ => false
  | _ => true

def Access.writes (a : Access) : Bool :=
  match a.kind with
  | .load | .pin _ => false
  | _ => true

/-- The device line of an access. -/
def Access.deviceLine (a : Access) : Option Nat :=
  match a.place with
  | .memory pa .thisDie _ _ | .memory pa .otherDie _ _ => some (pa / 128)
  | _ => none

/-- What follows of a chunk's accesses: they are made, or the chunk has ended. -/
inductive ChunkStep where
  | go (s : State)
  | stop (s : State)

/-- A serial run starts again under the device's token (R267). -/
def State.restartSerial (s : State) (c : CoreId) (x : CtxId) : State :=
  let y := s.ctx c x
  let s := s.releaseSerial c x
  let s := s.mapCore c (fun k => { k with guard := k.guard.leave y.stack })
  let z := s.entryAgain c x
  s.mapCtx c x (fun _ => { z with chunk := { Chunk.none with
    active := true, serial := true, attempts := y.chunk.attempts, manyDies := true } })

/-- A commit or a serial run reserves a line (R264). -/
def State.reserve (s : State) (c : CoreId) (n : SlotId) (line : Nat) (write : Bool) : State :=
  s.mapDie (lineDie line) (fun d =>
    let r : Reservation := (tabGet d.reserved line).getD { holders := [], write := false }
    let r' : Reservation := { holders := (c, n) :: r.holders.filter (· != (c, n)), write := r.write || write }
    { d with reserved := tabSet d.reserved line r' })

/-- A line and some of its words in a read set. -/
def addRead (l : List (Nat × BitVec 16)) (line : Nat) (m : BitVec 16) : List (Nat × BitVec 16) :=
  if l.any (·.1 == line) then l.map (fun p => if p.1 = line then (line, p.2 ||| m) else p) else l ++ [(line, m)]

/-- The read set after an access. -/
def Access.readInto (a : Access) (l : List (Nat × BitVec 16)) : List (Nat × BitVec 16) :=
  match a.place with
  | .memory pa .thisDie _ _ | .memory pa .otherDie _ _ =>
    if a.reads then addRead l (pa / 128) (wordMask (pa % 128) a.size) else l
  | _ => l

/-- Do some lines to write overflow the ways of an L1 set, beside those that the core's chunks buffer already (R262)? -/
def Core.waysFull (k : Core) (lines : List Nat) : Bool :=
  let all := distinct (k.buffered ++ lines)
  lines.any (fun l => 4 < (all.filter (fun o => o % 128 == l % 128)).length)

/-- The accesses of a chunk recorded, or reserved. -/
def State.chunkAccess (s : State) (c : CoreId) (x : CtxId) (as : List Access) : ChunkStep :=
  let y := s.ctx c x
  let k := y.chunk
  if !k.active then .go s
  else if k.serial then
    let n : SlotId := (y.act.map (·.slot)).getD 0
    let far := as.any (fun a => a.deviceLine.any (fun l => lineDie l != dieOf c))
    if far && !k.deviceToken then .stop (s.restartSerial c x)
    else .go (as.foldl (fun s a =>
      match a.deviceLine with
      | some l => s.reserve c n l a.writes
      | none => s) s)
  else
    let reads := as.foldl (fun l a => a.readInto l) k.reads
    let writes := distinct (k.writes.map (·.line) ++ (as.filter Access.writes).filterMap Access.deviceLine)
    let sectors := distinct (k.log.map (·.1) ++ (as.filter Access.writes).filterMap (fun a =>
      match a.place with
      | .spad t off => some (sectorOf t off)
      | _ => none))
    if as.any Access.isSystem || 512 < reads.length || 256 < writes.length || (s.core c).waysFull writes ||
        256 < sectors.length then
      .stop ((s.mapCtx c x (fun y => { y with chunk := { k with reads } })).abortChunk c x)
    else .go (s.mapCtx c x (fun y => { y with chunk := { k with reads } }))

/-! ### A memory instruction of the S pipe -/

/-- What a memory instruction is besides its accesses. -/
structure MemForm where
  pol : Pol
  ord : MemOrd
  sys : Bool
  len : Nat
  bad : Place → Bool
  fin : MemFin

/-- The accesses of the issuing instruction checked (R280), then g with the places. -/
def withPlaces (s : State) (pol : Pol) (bad : Place → Bool) (ws : List Want)
    (g : State → List Access → Result) : Result :=
  match s.checkAll s.who pol bad ws with
  | .align ea => trap s causeAlign ea
  | .miss ea k => missHere s ea k pol
  | .fault f => raise s f
  | .ok as es => g (es.foldl (fun s e => s.microFill s.focus e) s) as

/-- Accesses whose places are settled: what they wait for, the chunk, then their performance; go is what
the instruction does besides. -/
def memoryGo (f : MemForm) (go : State → State) (s : State) (as : List Access) : Result :=
  if s.postedHolds f.ord f.sys as then waitFor s .stall
  else
    match s.chunkAccess s.focus s.hereX as with
    | .stop s => .next s
    | .go s =>
      .next ((go s).begin s.focus s.hereX
        { todo := letGo (acquires f.ord f.sys as) as, vals := [], fin := f.fin, len := f.len, acq := acquires f.ord f.sys as,
          vpipe := false, out := false, storeAt := none, flags := 0 })

/-- The common skeleton of LD, ST, AMO, LPIN and their like. -/
def memory (f : MemForm) (ws : List Want) (s : State) : Result :=
  match s.here.memWait with
  | some w => waitFor s w
  | none => withPlaces s f.pol f.bad ws (memoryGo f id)

def FmtM.size (m : FmtM) : Nat := m.sz.bytes

/-- The address of a scalar form. -/
def FmtM.addr (m : FmtM) (x : Ctx) : Word := FmtM.ea m x m.sz.bytes

def FmtM.form (m : FmtM) (fin : MemFin) : MemForm :=
  { pol := m.pol, ord := m.ord, sys := m.sys, len := FmtM.len m, bad := fun _ => false, fin }

/-- The register after D. -/
def nextReg (d : Fin 32) : Fin 32 := Fin.ofNat 32 (d.val + 1)

/-- A 16-byte access is aligned to 16, and is two accesses (R280, R282). -/
def withSixteen (m : FmtM) (s : State) (r : Result) : Result :=
  let ea := FmtM.addr m s.here
  if m.sz = .s16 && ea.toNat % 16 != 0 && s.here.memWait.isNone then trap s causeAlign ea else r

/-- LD (R107, R282). -/
def loadOp (m : FmtM) (signed : Bool) (s : State) : Result :=
  let ea := FmtM.addr m s.here
  withSixteen m s
    (if m.sz = .s16 then
      memory (FmtM.form m (.pair m.d)) [⟨ea, 8, kindRead, .load⟩, ⟨ea + 8, 8, kindRead, .load⟩] s
    else
      memory (FmtM.form m (.load m.d (FmtM.size m) signed)) [⟨ea, FmtM.size m, kindRead, .load⟩] s)

def execLdSignExtending (m : FmtM) (s : State) : Result := loadOp m true s
def execLdZeroExtending (m : FmtM) (s : State) : Result := loadOp m false s

/-- ST (R107, R282). -/
def execSt (m : FmtM) (s : State) : Result :=
  let x := s.here
  let ea := FmtM.addr m x
  withSixteen m s
    (if m.sz = .s16 then
      memory (FmtM.form m .store)
        [⟨ea, 8, kindWrite, .store (x.reg m.d)⟩, ⟨ea + 8, 8, kindWrite, .store (x.reg (nextReg m.d))⟩] s
    else
      memory (FmtM.form m .store) [⟨ea, FmtM.size m, kindWrite, .store (x.reg m.d)⟩] s)

/-- Is an access made in the L1 on words the core owns? -/
def State.ownsWords (s : State) (c : CoreId) (a : Access) : Bool :=
  match a.place with
  | .memory pa home _ _ =>
    let m := wordMask (pa % 128) a.size
    (s.l1Line c (placeLine pa home)).owned &&& m == m
  | _ => true

/-- STF (R283): checked here, then posted; its home checks the key (R284). -/
def execStf (m : FmtM) (s : State) : Result :=
  let f := FmtM.form m .store
  let ea := FmtM.addr m s.here
  let w : Want := ⟨ea, FmtM.size m, kindPosted, .posted (s.here.reg m.d)⟩
  match s.here.memWait with
  | some w => waitFor s w
  | none =>
    withPlaces s m.pol f.bad [w] (fun s as =>
      let owned := as.all (s.ownsWords s.focus)
      if !owned && !s.here.optimistic && Config.postedMax ≤ (s.hereCore.posted.filter (·.stf)).length then
        waitFor s .stall
      else memoryGo f id s as)

/-! ### AMO (R285, R286) -/

def isPeerOrOperand : Place → Bool
  | .memory _ .peer _ _ | .operand _ => true
  | _ => false

def amoOp (fn : AmoFn) (m : FmtM) (s : State) : Result :=
  let x := s.here
  memory { FmtM.form m (.amo m.d (FmtM.size m)) with pol := .thru, bad := isPeerOrOperand }
    [⟨FmtM.addr m x, FmtM.size m, kindRmw, .amo fn (x.reg m.d) (x.reg (nextReg m.d))⟩] s

def execAmoAdd (m : FmtM) (s : State) : Result := amoOp .add m s
def execAmoAnd (m : FmtM) (s : State) : Result := amoOp .and m s
def execAmoOr (m : FmtM) (s : State) : Result := amoOp .or m s
def execAmoXor (m : FmtM) (s : State) : Result := amoOp .xor m s
def execAmoMin (m : FmtM) (s : State) : Result := amoOp .min m s
def execAmoMax (m : FmtM) (s : State) : Result := amoOp .max m s
def execAmoMinn (m : FmtM) (s : State) : Result := amoOp .minn m s
def execAmoMaxn (m : FmtM) (s : State) : Result := amoOp .maxn m s
def execAmoSwap (m : FmtM) (s : State) : Result := amoOp .swap m s
def execAmoCas (m : FmtM) (s : State) : Result := amoOp .cas m s
def execAmoFadd32 (m : FmtM) (s : State) : Result := amoOp .fadd32 m s

/-! ### PREF, LPIN, UNPIN (R287, R288) -/

/-- The request of the prefetch column of R241, where the core has no such copy already. -/
def State.prefetch (s : State) (c : CoreId) (x : CtxId) (pa size : Nat) (home : HomeKind) (pol : Pol) :
    State :=
  let line := placeLine pa home
  let s := s.l1Touch c line
  let m := wordMask (pa % 128) size
  let l := s.l1Line c line
  let own := l.owned &&& m = m
  let have_ := l.valid &&& m = m
  let tracked := (l.owned ||| l.tracked) &&& m = m
  let lclk := if home = .host then 0 else s.lclkNow c
  let p : Proto := { Proto.empty with
    line, mask := m, lclk, lease := (s.ctx c x).lease.toNat, pol, waiter := .prefetch c }
  if own then s
  else
    match pol with
    | .thru => s
    | .own => s.request c { p with kind := if l.owned = 0 && tracked then .upg else .rdx }
    | .track => if tracked then s else s.request c { p with kind := .rdt }
    | .lease =>
      if tracked || (have_ && max lclk l.copyWts ≤ l.copyRts) then s
      else if home = .host then s.request c { p with kind := .rdt }
      else if (s.core c).timelost.isSome then s
      else s.request c { p with
        kind := .rdl, wts := l.copyWts, wmask := if have_ then BitVec.allOnes 128 else 0,
        old := if (s.ctx c x).acqSys then 1 else 0 }

def execPref (m : FmtM) (s : State) : Result :=
  let ea := FmtM.addr m s.here
  let quiet := done s (FmtM.len m)
  if s.here.chunk.active || ea.toNat % FmtM.size m != 0 || Config.opwBase ≤ ea.toNat then quiet
  else
    match s.placeOf s.who ea (FmtM.size m) kindRead m.pol with
    | .at (.memory pa home _ pol) e =>
      if home = .peer || m.pol = .thru then quiet
      else
        let s := s.microFill s.focus e
        done (s.prefetch s.focus s.hereX pa (FmtM.size m) home pol) (FmtM.len m)
    | _ => quiet

/-- LPIN and UNPIN: a host line is left alone, and anything but a line of the device or the host is
PROT. -/
def pinOp (m : FmtM) (up : Bool) (s : State) : Result :=
  let bad : Place → Bool
    | .memory _ .peer _ _ | .spad _ _ | .operand _ => true
    | _ => false
  let f := { FmtM.form m (.pin m.d) with bad }
  match s.here.memWait with
  | some w => waitFor s w
  | none =>
    withPlaces s m.pol bad [⟨FmtM.addr m s.here, 1, kindRead, .pin up⟩] (fun s as =>
      if as.any Access.isSystem then
        done (s.mapHere (·.setReg m.d (BitVec.allOnes 64))) (FmtM.len m)
      else memoryGo f id s as)

def execLpin (m : FmtM) (s : State) : Result := pinOp m true s
def execUnpin (m : FmtM) (s : State) : Result := pinOp m false s

/-! ### WAITA (R289, R290) -/

/-- WAITA's deadline is set when it is first dispatched, before its address is translated, and kept until it ends. -/
def execWaita (m : FmtM) (s : State) : Result :=
  noChunk s
    (match s.here.memWait with
     | some w => waitFor s w
     | none =>
       let f := FmtM.form m (.waita m.d (FmtM.size m))
       let ea := FmtM.addr m s.here
       let far := min (s.quartz + (s.here.reg (nextReg m.d)).toNat) (2 ^ 64 - 1)
       let s := if ea.toNat % FmtM.size m = 0 then s.mapHere (fun y => { y with deadline := some (y.deadline.getD far) })
         else s
       withPlaces s m.pol f.bad [⟨ea, FmtM.size m, kindRead, .load⟩]
         (memoryGo f (fun s => s.mapHere (fun y => { y with watch := none }))))

/-- The deadline of a waiting WAITA passes: it looks once more. -/
def execWaitaDeadline (s : State) : Result :=
  withCtx s (fun c x =>
    let y := s.ctx c x
    stepIf s (y.wait == .wake && y.watch.isSome && y.deadline.any (· ≤ s.quartz))
      (s.mapCtx c x (fun y => { y with watch := none })))

/-- The next 1 µs mark passes for a WAITA that watches nothing else. -/
def execWaitaWakeInterval (s : State) : Result :=
  withCtx s (fun c x =>
    let past : Bool := match (s.ctx c x).watch with
      | some (.interval t) => t ≤ s.quartz
      | _ => false
    stepIf s past (s.mapCtx c x (fun y => { y with watch := none })))

/-! ### Fences (R276, R291, R292) -/

/-- FENCE.SYS: every earlier access is performed, then the effects of R278. -/
def execFenceSys (s : State) : Result :=
  noChunk s
    (match s.here.memWait with
     | some .vStore => waitFor s .vFence
     | some w => waitFor s w
     | none =>
       if !s.myPosted.isEmpty then waitFor s .stall
       else done (s.acquireSys s.focus s.hereX) 8)

/-- XFENCE: the posted stores, then the markers (R276). Markers hold the producer mask while they are
out, and 64 once they are back; fenceTime is TE, as far as the writes they followed have been performed. -/
def execXfence (p _c : BitVec 6) (s : State) : Result :=
  let y := s.here
  let engines := p &&& 0x3E
  let finish (s : State) (te : Nat) : Result :=
    done ((s.raiseClk s.focus te).mapHere (fun y => { y with markers := 0 })) 8
  if p.getLsbD 0 && !s.myStfs.isEmpty then waitFor s .markers
  else if engines = 0 then finish s 0
  else if y.markers = 64 then finish s y.fenceTime
  else if y.markers ≠ 0 then waitFor s .markers
  else if s.markersBack engines s.ewCount then finish s (s.markerTime engines)
  else
    waitFor (s.mapHere (fun y => { y with
      markers := engines.toNat, markerTime := s.ewCount, fenceTime := s.markerTime engines })) .markers

/-- The markers of a context's XFENCE have returned. -/
def execFenceMarkerReturn (s : State) : Result :=
  withCtx s (fun c x =>
    let y := s.ctx c x
    stepIf s (y.markers != 0 && y.markers != 64 &&
        s.markersBack (BitVec.ofNat 6 y.markers) y.markerTime)
      (s.mapCtx c x (fun y => { y with markers := 64 })))

/-! ### Vector memory (R187 to R192) -/

/-- Does a V-pipe instruction write a mask register (R21)? -/
def writesMask (k : Fin 8) : Instr → Bool
  | .vcmpEq o | .vcmpNe o | .vcmpLt o | .vcmpLe o | .vcmpGt o | .vcmpGe o | .vcmpUn o
  | .kand o | .kor o | .kxor o | .knot o | .kandn o | .kmov o | .kfirst o | .kall o | .knone o
  | .kfromq o => o.d.knum == k
  | _ => false

/-- The stride register of a vector memory instruction. -/
def FmtM.stride (m : FmtM) (x : Ctx) : Word := match m.idx with | some n => x.reg n | none => 0

/-- The element addresses from a base and a stride (R187). -/
def FmtM.eaFrom (m : FmtM) (x : Ctx) (b stride : Word) (e : Nat) : Word :=
  let size := m.sz.bytes
  let off := Off.word m.off
  match m.am, m.idx with
  | .scaled, some _ => b + stride * word size + off + word (e * size)
  | .strided, some _ => b + stride * word e + off
  | .vindex, some n =>
    let v := x.vreg n
    let i : Word := if size = 4 then BitVec.signExtend 64 (BitVec.ofNat 32 (elem v 32 e))
      else word (elem v 64 e)
    b + i + off
  | _, _ => b + off + word (e * size)

/-- The element addresses as the instruction finds its registers (R187). -/
def FmtM.eaElem (m : FmtM) (x : Ctx) (e : Nat) : Word := FmtM.eaFrom m x (x.reg m.base) (FmtM.stride m x) e

def FmtM.elems (m : FmtM) : Nat := 128 / m.sz.bytes

/-- The active elements. -/
def FmtM.active (m : FmtM) (x : Ctx) : List Nat := x.activeElems m.k (FmtM.elems m)

/-- Do the waits of a vector memory instruction hold it back: the mask's writers, the index, the room of
the V pipe, and, for a load, the order of accesses (R20, R21, R190, R271)? -/
def FmtM.vWait (m : FmtM) (x : Ctx) (indexed load : Bool) : Option Wait :=
  if m.k.val ≠ 0 && x.vq.any (fun e => writesMask m.k e.instr) then some (.vMask m.k)
  else if indexed && !x.vIdle then some .vIdle
  else if 32 ≤ x.vq.length then some .vFull
  else if load then x.memWait
  else none

/-- A vector memory instruction as it is dispatched: its address, its base and its stride. -/
def FmtM.first (m : FmtM) (x : Ctx) : Redo := { pc := x.pc, base := x.reg m.base, stride := FmtM.stride m x, data := [] }

/-- The V-pipe entry of a vector memory instruction. -/
def FmtM.entry (m : FmtM) (x : Ctx) (i : Instr) (r : Redo) (data : List VecWord) (accs : List Access) : VEntry :=
  { pc := r.pc, instr := i, base := r.base, stride := r.stride, mask := x.mask m.k, data, accs }

/-- A vector load checked, dispatched, and begun; next is what the S pipe does besides. -/
def vectorLoadAt (i : Instr) (m : FmtM) (indexed : Bool) (r : Redo) (next : Ctx → Ctx) (s : State) : Result :=
  let x := s.here
  match FmtM.vWait m x indexed true with
  | some w => waitFor s w
  | none =>
    let es := FmtM.active m x
    let dispatch (s : State) (data : List VecWord) : State :=
      s.mapHere (fun y => next (y.enqueue (FmtM.entry m y i r data [])))
    if es.isEmpty then .next (dispatch s [0])
    else
      let ws := es.map (fun e => (⟨FmtM.eaFrom m x r.base r.stride e, FmtM.size m, kindRead, .load⟩ : Want))
      withPlaces s m.pol (fun _ => false) ws (fun s as =>
        if s.postedHolds m.ord m.sys as then waitFor s .stall
        else
          match s.chunkAccess s.focus s.hereX as with
          | .stop s => .next s
          | .go s =>
            .next ((dispatch s []).begin s.focus s.hereX
              { todo := as, vals := [], fin := .vload es (FmtM.size m), len := FmtM.len m,
                acq := acquires m.ord m.sys as, vpipe := true, out := false, storeAt := none,
                flags := 0 }))

/-- A vector store checked and dispatched; the accesses follow when the V pipe has the data. -/
def vectorStoreAt (i : Instr) (m : FmtM) (indexed : Bool) (r : Redo) (next : Ctx → Ctx) (s : State) : Result :=
  let x := s.here
  match FmtM.vWait m x indexed false with
  | some w => waitFor s w
  | none =>
    let ws := (FmtM.active m x).map (fun e =>
      (⟨FmtM.eaFrom m x r.base r.stride e, FmtM.size m, kindWrite, .store 0⟩ : Want))
    withPlaces s m.pol (fun _ => false) ws (fun s as =>
      if s.postedHolds m.ord m.sys as then waitFor s .stall
      else .next (s.mapHere (fun y => next (y.enqueue (FmtM.entry m y i r [] as)))))

/-- VLD and VLDX. -/
def vectorLoad (i : Instr) (m : FmtM) (indexed : Bool) (s : State) : Result :=
  vectorLoadAt i m indexed (FmtM.first m s.here) (·.retire (FmtM.len m)) s

/-- VST and VSTX. -/
def vectorStore (i : Instr) (m : FmtM) (indexed : Bool) (s : State) : Result :=
  vectorStoreAt i m indexed (FmtM.first m s.here) (·.retire (FmtM.len m)) s

def execVld (m : FmtM) (s : State) : Result := vectorLoad (.vld m) m false s
def execVst (m : FmtM) (s : State) : Result := vectorStore (.vst m) m false s
def execVldx (m : FmtM) (s : State) : Result := vectorLoad (.vldx m) m true s
def execVstx (m : FmtM) (s : State) : Result := vectorStore (.vstx m) m true s

/-- Is an operand slot claimed by the executing actor (R191, R306)? -/
def State.claimedHere (s : State) (n : Nat) : Bool :=
  match tabGet s.hereCore.claims n, s.here.act with
  | some cl, some a => cl.actor == (s.slot s.focus a.slot).actor
  | _, _ => false

/-- A VSTO checked and dispatched (R191). -/
def operandStoreAt (m : FmtM) (r : Redo) (next : Ctx → Ctx) (s : State) : Result :=
  let x := s.here
  match FmtM.vWait m x false false with
  | some w => waitFor s w
  | none =>
    let es := FmtM.active m x
    let a := FmtM.eaFrom m x r.base r.stride 0
    let off := a.toNat - Config.opwBase
    let dispatch (as : List Access) : Result :=
      .next (s.mapHere (fun y => next (y.enqueue (FmtM.entry m y (.vsto m) r [] as))))
    if es.isEmpty then dispatch []
    else if a.toNat % 64 ≠ 0 then trap s causeAlign a
    else if a.toNat < Config.opwBase || Config.opndBytes ≤ off || 3968 < off % 4096 ||
        !s.claimedHere (off / 4096) then
      raise s ⟨causeProt, a, kindWrite, 0⟩
    else dispatch (es.map (fun e =>
      { addr := a + word (e * FmtM.size m), size := FmtM.size m,
        place := .operand (off + e * FmtM.size m), kind := .store 0 }))

def execVsto (m : FmtM) (s : State) : Result :=
  operandStoreAt m (FmtM.first m s.here) (·.retire (FmtM.len m)) s

/-- A recorded V-pipe instruction dispatched again (R348): a vector memory instruction with its base, and every check; an
AREAD with the row it read, for its step count was read with it (R313; assumption 79). -/
def redoHere (i : Instr) (r : Redo) (s : State) : Result :=
  let next (y : Ctx) : Ctx := { y with redo := y.redo.tail }
  match i with
  | .vld m => vectorLoadAt i m false r next s
  | .vldx m => vectorLoadAt i m true r next s
  | .vst m => vectorStoreAt i m false r next s
  | .vstx m => vectorStoreAt i m true r next s
  | .vsto m => operandStoreAt m r next s
  | .aread _ _ _ _ =>
    if 32 ≤ s.here.vq.length then waitFor s .vFull
    else .next (s.mapHere (fun y => next (y.enqueue ⟨r.pc, i, 0, 0, 0, r.data, []⟩)))
  | i =>
    .next (s.mapHere (fun y =>
      next (if (vEffect i).isSome then y.enqueue ⟨r.pc, i, 0, 0, 0, [], []⟩ else y)))

/-! ### The V pipe's turn (R19 to R21) -/

/-- The register of a vector memory instruction and its element size. -/
def vmemReg : Instr → Option (FmtM × Bool)
  | .vld m | .vldx m => some (m, true)
  | .vst m | .vstx m | .vsto m => some (m, false)
  | _ => none

/-- The first register of the row of an AREAD. -/
def areadReg : Instr → Option (Fin 32)
  | .aread vd _ _ _ => some vd
  | _ => none

/-- The row of an AREAD comes to its registers (R338). -/
def Ctx.loadRow (x : Ctx) (vd : Fin 32) (row : List VecWord) : Ctx :=
  (x.setVreg vd (row[0]?.getD 0)).setVreg (nextReg vd) (row[1]?.getD 0)

/-- A vector load's data come to its register under the mask (R188). -/
def Ctx.loadVector (x : Ctx) (m : FmtM) (k : MaskWord) (v : VecWord) : Ctx :=
  let w := 8 * m.sz.bytes
  x.setVreg m.d (maskElems w (FmtM.elems m) (x.vreg m.d) k m.z (elem v w))

/-- The data of a store by element. -/
def storeData (m : FmtM) (v : VecWord) (k : MaskWord) (as : List Access) : List Access :=
  let es := (List.range (FmtM.elems m)).filter (fun e => k.getLsbD e)
  (es.zip as).map (fun p => { p.2 with kind := .store (word (elem v (8 * m.sz.bytes) p.1)) })

/-- The oldest instruction of a context's V pipe goes on, if it can. -/
def State.vStep (s : State) (c : CoreId) (x : CtxId) : State :=
  let y := s.ctx c x
  match y.vq with
  | [] => s
  | e :: r =>
    let pop (f : Ctx → Ctx) : State := s.mapCtx c x (fun y => { (f y) with vq := r, blocked := 0 })
    match vmemReg e.instr with
    | some (m, true) =>
      match e.data with
      | v :: _ => pop (·.loadVector m e.mask v)
      | [] => s
    | some (m, false) =>
      if y.op.isSome then s
      else
        match s.chunkAccess c x e.accs with
        | .stop s => s
        | .go s =>
          (s.mapCtx c x (fun y => { y with vq := r, blocked := 0 })).begin c x
            { todo := letGo (acquires m.ord m.sys e.accs) (storeData m (y.vreg m.d) e.mask e.accs), vals := [], fin := .vstore, len := 0,
              acq := acquires m.ord m.sys e.accs, vpipe := true, out := false, storeAt := none, flags := 0 }
    | none =>
      match areadReg e.instr, vEffect e.instr with
      | some vd, _ => pop (·.loadRow vd e.data)
      | none, some f =>
        match f y with
        | some z => s.mapCtx c x (fun _ => { z with vq := r, blocked := 0 })
        | none => s
      | none, none => s

/-! ### Barrier instructions (R340) -/

/-- Only device memory holds a barrier. -/
def notDevice : Place → Bool
  | .memory _ .thisDie _ _ | .memory _ .otherDie _ _ => false
  | _ => true

def barrierForm (len : Nat) (fin : MemFin) : MemForm :=
  { pol := .thru, ord := .none, sys := false, len, bad := notDevice, fin }

/-- The physical address of an access. -/
def Access.pa (a : Access) : Nat :=
  match a.place with
  | .memory pa _ _ _ => pa
  | .spad _ off | .operand off => off

/-- BINIT and BARR: one atomic operation at the home; in an optimistic chunk two loads and buffered
writes. -/
def barrierOp (ops : List Opnd) (imm : Word) (len : Nat) (fin : List Word → MemFin)
    (op : List Word → State → Access → HomeOp) (s : State) : Result :=
  match s.here.memWait with
  | some w => waitFor s w
  | none =>
    peekOperands ops imm s (fun vs take =>
      let ea := nth vs 0
      if ea.toNat % 16 ≠ 0 then trap s causeAlign ea
      else
        let want (a : Word) : Want := ⟨a, 8, kindRmw, .load⟩
        withPlaces s .thru notDevice [want ea, want (ea + 8)] (fun s as =>
          match as with
          | a :: _ =>
            let as := if s.here.optimistic then as
              else [{ a with kind := .barrier (op vs s a), size := 16 }]
            if s.here.optimistic then
              -- the chunk records both a load and a write of the line
              match s.chunkAccess s.focus s.hereX
                  (as.map (fun b => { b with kind := .amo .add 0 0 })) with
              | .stop s => .next s
              | .go s => memoryGo (barrierForm len (fin vs)) (fun s => take (s.l1Room s.focus (a.pa / 128))) s as
            else memoryGo (barrierForm len (fin vs)) take s as
          | [] => .next s))

def execBinit (rd : Fin 32) (a b : Opnd) (imm : Imm) (s : State) : Result :=
  barrierOp [a, b] (immS imm) (lenImm imm)
    (fun vs => .binit rd ((nth vs 1).truncate 32))
    (fun vs _ acc => .binit (acc.pa % 128) ((nth vs 1).truncate 32)) s

def execBarr (rd : Fin 32) (a b : Opnd) (s : State) : Result :=
  barrierOp [a, b] 0 8
    (fun vs => .barr rd ((nth vs 1).truncate 16))
    (fun vs s acc =>
      .arrive (acc.pa % 128) ((nth vs 1).truncate 16) false (nth vs 0) s.here.domain s.focus.val
        (s.who.slot.val) 0 0) s

/-- Is a line reserved for a write by others than the activation of a slot (R264)? -/
def State.heldByOthers (s : State) (c : CoreId) (n : SlotId) (line : Nat) : Bool :=
  (tabGet (s.die (lineDie line)).reserved line).any (fun r => r.write && !r.holders.all (· == (c, n)))

/-- The last evaluation of a BWAIT is a core load at the home (R340). -/
def State.loadAtHome (s : State) (c : CoreId) (line : Nat) : State :=
  let t := max (s.lclkNow c) (s.dir (.slice (lineDie line)) line).wts
  (s.readAt line t).raiseClk c t

def execBwait (rd : Fin 32) (a b : Opnd) (timeout : BitVec 16) (imm : Imm) (s : State) : Result :=
  noChunk s
    (match s.here.memWait with
     | some w => waitFor s w
     | none =>
       peekOperands [a, b] (immS imm) s (fun vs take =>
         let ea := nth vs 0
         let g := nth vs 1
         if ea.toNat % 16 ≠ 0 then trap s causeAlign ea
         else
           withPlaces s .thru notDevice [⟨ea, 8, kindRead, .load⟩] (fun s as =>
             match as with
             | [] => .next s
             | acc :: _ =>
               let me : BarWaiter := .ctx s.focus s.hereX
               let far := if timeout = 0 then none else some (s.quartz + timeout.toNat * 1000)
               let limit := s.here.deadline <|> far
               let s := match s.waiterEnd me with
                 | some _ => s
                 | none => s.addWaiter
                     { pa := acc.pa, gen := g.truncate 16, phase := (g >>> 16).truncate 32, who := me,
                       judged := none } s.hereCore.lclk
               match s.chunkAccess s.focus s.hereX [acc] with
               | .stop s => .next (s.dropWaiter me)
               | .go s =>
                 let stop (s : State) (r : Nat) : Result :=
                   done ((((take s).dropWaiter me).mapHere (fun y =>
                     { (y.setReg rd (word r)) with deadline := none })).loadAtHome s.focus
                       (acc.pa / 128)) (lenImm imm)
                 let over_ := match s.waiterEnd me with
                   | some (st, t) => some (s.raiseClk s.focus t, st)
                   | none => if limit.any (· ≤ s.quartz) then some (s, 3) else none
                 match over_ with
                 | some (t, r) =>
                   if s.heldByOthers s.focus s.who.slot (acc.pa / 128) then waitFor s .stall else stop t r
                 | none => waitFor (s.mapHere (fun y => { y with deadline := limit })) .wake)))

/-- The timeout of a waiting BWAIT passes: its waiter ends, and it returns 3. -/
def execBwaitTimeout (s : State) : Result :=
  withCtx s (fun c x =>
    let me : BarWaiter := .ctx c x
    let y := s.ctx c x
    stepIf s (y.wait == .wake && y.deadline.any (· ≤ s.quartz) &&
        s.bars.any (fun b => b.who == me && b.judged.isNone))
      { s with bars := s.bars.map (fun b => if b.who = me then { b with judged := some (3, 0) } else b) })

def execBstat (rd : Fin 32) (a : Opnd) (w : Fin 2) (s : State) : Result :=
  match s.here.memWait with
  | some w => waitFor s w
  | none =>
    peekOperands [a] 0 s (fun vs take =>
      let ea := nth vs 0
      if ea.toNat % 16 ≠ 0 then trap s causeAlign ea
      else
        withPlaces s .thru notDevice [⟨ea + word (8 * w.val), 8, kindRead, .load⟩]
          (memoryGo (barrierForm 8 (.bstat rd)) take))

end Sys2Proof.Machine
end

