-- ==== Sys2Proof/Machine/Message.lean ====
section
/-! DEFINITION. Messages: the sender's guard (R127, R128), the send unit (R137, R138), the receiver's
checks (R131, R405), answers, SEND, SENDT, MBSTAT and ACTCTL (R197 to R205), and the overflow queue of an
actor that has come back (R146). -/

namespace Sys2Proof

/-- Parts of a destination endpoint (R127). -/
def Msg.device (m : Msg) : Nat := Machine.bitsOf m.dst 47 36
def Msg.core (m : Msg) : Nat := Machine.bitsOf m.dst 35 25
def Msg.port (m : Msg) : Nat := Machine.bitsOf m.dst 24 20
def Msg.mbox (m : Msg) : Nat := Machine.bitsOf m.dst 19 17

end Sys2Proof

namespace Sys2Proof.Machine

/-! ### Statuses of R131 -/

def stBusy : Word := 1
def stBadport : Word := 2
def stBadep : Word := 3
def stNoright : Word := 4
def stNoactor : Word := 5

/-! ### The sender's guard (R127, R128, R377) -/

/-- Does DEVICE name this device (R376)? -/
def State.isHere (s : State) (dev : Nat) : Bool := dev == 0xFFF || dev == s.device.toNat

/-- Is a group member, which is configured by its device's id, one of this device (R316, R376)? -/
def State.memberHere (s : State) (dev : Nat) : Bool := dev == s.device.toNat

/-- Is an endpoint well formed (R127)? -/
def State.goodEndpoint (s : State) (ep : Word) : Bool :=
  let dev := bitsOf ep 47 36
  ep &&& 0xFFFF00000001FFFF == 0 && (s.isHere dev || s.devices.any (fun d => d.toNat == dev))

/-- Do the send rights of a domain allow an endpoint (R129)? -/
def Guard.maySend (g : Guard) (domain : BitVec 16) (ep : Word) : Bool :=
  domain == 0 ||
  g.sendRights.any (fun p => p.2.domain == domain && (ep ^^^ p.2.pattern) &&& p.2.mask == 0)

/-- The sender's guard: 0, or the status it refuses with. -/
def State.guardSend (s : State) (c : CoreId) (domain : BitVec 16) (ep : Word) : Word :=
  let port := bitsOf ep 24 20
  let core := bitsOf ep 35 25
  if !s.goodEndpoint ep then stBadep
  else if port ≤ 15 then
    (if (s.core c).guard.maySend domain ep then 0 else stNoright)
  else if !s.isHere (bitsOf ep 47 36) then stBadport
  else
    match port with
    | 16 => 0
    | 17 => if core % 32 = 0 then 0 else stBadport
    | 18 | 19 => if core % 256 = 0 then 0 else stBadport
    | 20 => if domain ≠ 0 then stNoright else if core % 32 = 1 then 0 else stBadport
    | 21 => if domain ≠ 0 then stNoright else 0
    | _ => stBadport

/-! ### Where a message goes -/

/-- The row that serves a message when it reaches its core: a command of an engine, of the cluster TLB
or of guard control has its own; anything else is an arrival (R131, R129, R239, R327 to R331). -/
def arrivalRow (m : Msg) : Instr :=
  let opc := bitsOf (m.dword 0) 7 0
  let op := bitsOf (m.dword 2) 3 0
  match m.port with
  | 16 => match opc with | 1 => .mma | 2 => .azero | 3 => .adrain | _ => .messageArrival
  | 17 => match opc with | 1 => .gather | _ => .messageArrival
  | 18 =>
    match opc with
    | 1 => .collectiveSum | 2 => .collectiveMax | 3 => .collectiveMin | 4 => .allgather
    | _ => .messageArrival
  | 19 => match opc with | 1 => .sealOpen | 2 => .sealAdd | 3 => .sealClose | _ => .messageArrival
  | 20 =>
    if m.tag ≠ 0x46 then .messageArrival
    else
      match op with
      | 0 => .fill | 1 => .absent | 2 => .invva | 3 => .invdom | 4 => .invall | _ => .messageArrival
  | 21 =>
    match m.tag.toNat with
    | 0xA0 => .rights | 0xA1 => .share | 0xA2 => .unshare | 0xA3 => .capload | 0xA4 => .caprevoke
    | 0xA5 => .sendright | 0xA6 => .admitEntry | 0xA7 => .kill | 0xA8 => .gateinv | 0xA9 => .allot
    | 0xAA => .collgrp | 0xAB => .peerwin | 0xAC => .qrepair | 0xAD => .unfreeze | 0x5A => .resolve
    | _ => .messageArrival
  | _ => .messageArrival

/-- A message leaves its core, towards a core of this device or over the fabric. -/
def State.launchMsg (s : State) (c : CoreId) (m : Msg) : State :=
  if s.isHere m.device then s.send (agentCore c) (agentCore (coreOf m.core)) (arrivalRow m) (.msg m)
  else s.tell (.remote { m with
    sender := (s.device ++ m.sender.extractLsb' 0 36 : BitVec 48), stamp := none })

/-! ### The send unit (R137) -/

/-- The destination core of a message, device and core. -/
def State.target (s : State) (m : Msg) : Nat :=
  if s.isHere m.device then m.core else 2048 * (m.device + 1) + m.core

/-- The messages in flight to the core of a message. -/
def State.toward (s : State) (c : CoreId) (m : Msg) : List SendEntry :=
  (s.core c).sends.toList.filterMap (fun e =>
    match e with
    | some e => if s.target e.msg = s.target m then some e else none
    | none => none)

/-- The lowest free entry. -/
def Core.freeSend (k : Core) : Option (Fin 8) :=
  ((List.range 8).map (Fin.ofNat 8)).find? (fun e => k.sends[e].isNone)

/-- Messages in flight. -/
def Core.inFlight (k : Core) : Nat := (k.sends.toList.filter Option.isSome).length

def Core.setSend (k : Core) (e : Fin 8) (v : Option SendEntry) : Core :=
  { k with sends := k.sends.set e v }

/-- The send unit takes a message into an entry: it leaves at once, or waits behind an earlier one to
the same core. SEQ advances (R130). -/
def State.takeSend (s : State) (c : CoreId) (e : Fin 8) (n : SlotId) (m : Msg) (try1 chunk : Bool) :
    State :=
  let m := { m with src := .sendUnit c e }
  let others := s.toward c m
  let order := (s.core c).sends.toList.foldl (fun a x =>
    match x with
    | some x => max a (x.order + 1)
    | none => a) 0
  let first := others.isEmpty
  let entry : SendEntry :=
    { msg := m, slot := n, actor := (s.slot c n).actor, try1, chunk, state := if first then .flying else .behind, order,
      since := s.quartz, tried := s.quartz }
  let s := (s.mapCore c (·.setSend e (some entry))).mapSlot c n (fun sl => { sl with seq := sl.seq + 1 })
  if first then s.launchMsg c m else s

/-- The oldest message to a core that is still in flight goes out, if it has not been tried. -/
def State.nextSend (s : State) (c : CoreId) (m : Msg) : State :=
  match (s.toward c m) with
  | [] => s
  | f :: r =>
    let f := r.foldl (fun a x => if x.order < a.order then x else a) f
    if f.state = .behind then
      let go (x : Option SendEntry) : Option SendEntry :=
        x.map (fun x => if x.order = f.order then { x with state := .flying, since := s.quartz, tried := s.quartz } else x)
      (s.mapCore c (fun k => { k with sends := k.sends.map go })).launchMsg c f.msg
    else s

/-- A refused message that no activation hears of: a REFUSED report (R342). -/
def State.reportRefused (s : State) (die : DieId) (domain : BitVec 16) (core slot path : Nat) : State :=
  s.report die { detail := 0, addr := 0, domain, core, slot, path, kind := 0, status := 0, cause := 35 }

/-- The REFUSED report of an engine command: it names the command's sender, and on path M the command tag
and the opcode (R350). -/
def State.reportCommand (s : State) (die : DieId) (domain : BitVec 16) (port tag opc core slot : Nat) : State :=
  s.report die
    { detail := if port = 16 then tag + opc * 2 ^ 16 else 0, addr := 0, domain, core, slot,
      path := port - 14, kind := 0, status := 0, cause := 35 }

/-- Where an actor that a core knew in a slot is now: there, or where it has been restored. -/
def State.whereIs (s : State) (c : CoreId) (n : SlotId) (actor : Nat) : Option (CoreId × SlotId) :=
  if (s.slot c n).actor = actor then some (c, n)
  else if actor = 0 then none
  else
    s.cores.findSome? (fun p =>
      (((List.range 16).map slotOf).find? (fun i => p.2.slots[i].actor == actor)).map (fun i => (coreOf p.1, i)))

/-- The SEND of an activation has its answer, bound or saved: a saved one finds it in the SENDREC of its frame, which
is kept current (R201, R345; assumption 110). -/
def State.answerSend (s : State) (c : CoreId) (n : SlotId) (e : Fin 8) (v : Word) : State :=
  let s := s.mapActivation c n (fun y =>
    if y.sendrec = some (e, none) then { y with sendrec := some (e, some v) } else y)
  match (s.slot c n).saved with
  | none => s
  | some w => s.kernelWrite c (s.frameAt c n w + 0x470) (wordBytes (sendrecWord w.ctx.sendrec))

/-- A message in flight ends with a status: its entry is free, its activation has its answer wherever its actor is by now, and the
next message to that core goes (R138, R201). Withdrawn, it gives its sequence number back. -/
def State.endSend (s : State) (c : CoreId) (e : Fin 8) (v : Word) (withdrawn : Bool) : State :=
  match (s.core c).sends[e] with
  | none => s
  | some x =>
    let s := s.mapCore c (·.setSend e none)
    let s :=
      match s.whereIs c x.slot x.actor with
      | none => s
      | some (d, n) =>
        let s := if withdrawn then s.mapSlot d n (fun sl => { sl with seq := sl.seq - 1 }) else s
        if x.chunk then s
        else s.answerSend d n e v
    let s := if x.chunk && v != 0 then s.reportRefused (dieOf c) x.msg.domain c.val x.slot.val 0 else s
    s.nextSend c x.msg

/-- The value of an answer (R199). -/
def answerWord : Answer → Word
  | .accepted | .full => 0
  | .status v => v.zeroExtend 64
  | .moved ep => (ep &&& 0xFFFFFFFE0000) ||| 10

/-! ### Answers to a sender -/

/-- Is a refused engine reply dropped without a report: refused with NOACTOR at an endpoint of a killed domain, whose
actors are gone (R324)? -/
def State.replyDropped (s : State) (m : Msg) (a : Answer) : Bool :=
  let c := coreOf m.core
  let sl := s.slot c (slotOf m.port)
  a == .status 5 && s.isHere m.device && s.killed c (if sl.state = .free then sl.former else sl.domain)

/-- What the end of a message that no send unit holds leaves behind: a refused engine reply and a refused completion are
reported (R157, R312, R324), a refused drain notification ends the drain (R311), and a doorbell is no longer in flight (R349). -/
def State.sentEnd (s : State) (m : Msg) (a : Answer) : State :=
  let refused : Bool := match a with | .status _ | .moved _ => true | _ => false
  match m.src with
  | .engine f port opc asker slot =>
    if refused && 16 ≤ port.val && port.val ≤ 19 && !s.replyDropped m a then
      s.reportCommand (dieOf f) m.domain port.val (bitsOf (m.dword 0) 31 16) opc asker slot
    else s
  | .drain f acc =>
    if refused then
      s.mapCore f (fun k => { k with matrix := k.matrix.mapDrains (fun d =>
        if d.acc = acc then d.lose else d) })
    else s
  | .completion d l =>
    if refused then
      s.reportRefused d (((tabGet s.launches l).map (·.domain)).getD 0) (kernelCore d).val 0 0
    else s
  | .ring n => { s with rings := s.rings.map (fun p => if p.1 = n then (p.1, { p.2 with bell := false }) else p) }
  | _ => s

/-- The receiver's answer to a message. One that no send unit holds waits in the backlog while it is refused as full. -/
def State.answerTo (s : State) (c : CoreId) (m : Msg) (a : Answer) : State :=
  match m.src with
  | .sendUnit f e => s.send (agentCore c) (agentCore f) .messageAnswer (.answer f e a)
  | .remote _ => s.tell (.remoteAnswer m a)
  | _ => if a = .full then { s with backlog := s.backlog ++ [m] } else s.sentEnd m a

/-- The next message of a way to another device goes out (R137). -/
def State.nextAbroad (s : State) (m : Msg) : State :=
  match s.abroad.find? (fun p => sameWay p.2.msg m) with
  | some (id, x) =>
    if x.tried.isSome then s
    else
      let y : Abroad := { x with held := false, since := s.quartz, tried := some s.quartz }
      State.tell { s with abroad := tabSet s.abroad id y } (.abroad id x.msg)
  | none => s

/-- A message to another device comes to its end. -/
def State.endAbroad (s : State) (id : Nat) (x : Abroad) (a : Answer) : State :=
  ({ s with abroad := tabDel s.abroad id }.sentEnd x.msg a).nextAbroad x.msg

/-- MESSAGE ANSWER: the receiver's answer reaches the sending core (R138), or, for a message that no send unit holds, comes
from another device (R377). -/
def execMessageAnswer (s : State) : Result :=
  match s.arg with
  | .answer c e a =>
    match (s.core c).sends[e] with
    | none => .next s
    | some x =>
      match a with
      | .full =>
        if x.try1 then .next (s.endSend c e stBusy true)
        else .next (s.mapCore c (·.setSend e (some { x with
          state := .held, since := s.quartz, tried := s.quartz })))
      | a => .next (s.endSend c e (answerWord a) false)
  | .abroad id a =>
    match tabGet s.abroad id with
    | none => .next s
    | some x =>
      match a with
      | .full =>
        let y : Abroad := { x with held := true, since := s.quartz, tried := some s.quartz }
        .next { s with abroad := tabSet s.abroad id y }
      | a => .next (s.endAbroad id x a)
  | _ => noSuch

/-- REMOTE SEND TIMEOUT: no answer from another device for 10 ms: the message is withdrawn (R377). It is one of a core's
send unit, or, from number 2048 on, one that no send unit holds. -/
def execRemoteSendTimeout (s : State) : Result :=
  withNums s (fun a b _ =>
    if 2048 ≤ a then
      match tabGet s.abroad b with
      | none => noSuch
      | some x => stepIf s (x.tried.isSome && x.since + 10000000 ≤ s.quartz) (s.endAbroad b x (.status 5))
    else
      let c := coreOf a
      let e : Fin 8 := Fin.ofNat 8 b
      match (s.core c).sends[e] with
      | none => noSuch
      | some x =>
        stepIf s (!s.isHere x.msg.device && x.state != .behind && x.since + 10000000 ≤ s.quartz) (s.endSend c e stNoactor true))

/-! ### The receiver's checks (R131) -/

/-- The payload length of a request to a system actor's mailbox (R156, R354, R394); none when any
length will do. -/
def systemLen (mb : Nat) (tag : BitVec 8) : Option Nat :=
  match mb, tag.toNat with
  | 0, 0x42 => some 2
  | 0, 0x4C => some 4
  | 1, 0x55 => some 2
  | 1, 0x56 => some 2
  | 1, 0x57 => some 5
  | 1, 0x58 => some 4
  | 1, 0x59 => some 5
  | 1, 0x50 => some 4
  | 1, 0x51 => some 2
  | 1, 0x53 => some 2
  | _, _ => none

/-- Does a guard hold a capability for a domain (R296)? -/
def Guard.holds (g : Guard) (domain : BitVec 16) (cap : Word) : Bool :=
  let kind := bitsOf cap 47 44
  bitsOf cap 63 48 == domain.toNat && 1 ≤ kind && kind ≤ 5 && g.caps.contains cap

/-- Is a sender admitted (check 4)? -/
def Guard.admitted (g : Guard) (m : Msg) (n : SlotId) : Bool :=
  let from_ (dev : BitVec 12) : Bool :=
    g.admits.any (fun p => p.2.domain == m.domain && p.2.device == dev && p.2.slots.getLsbD n.val)
  match m.src with
  | .sendUnit _ _ => m.domain == 0 || from_ 0xFFF
  | .remote d => from_ d
  | _ => true

/-- Fields of a mailbox descriptor (R124). -/
def Mailbox.plen (b : Mailbox) : Nat := bitsOf b.desc1 2 0
def Mailbox.hmask (b : Mailbox) : Nat := bitsOf b.desc1 9 3
def Mailbox.atomic (b : Mailbox) : Bool := bitOf b.desc1 13
def Mailbox.drains (b : Mailbox) : Bool := bitOf b.desc1 14
def Mailbox.logcap (b : Mailbox) : Nat := bitsOf b.desc1 19 16
def Mailbox.tagOf (b : Mailbox) : Nat := bitsOf b.desc1 39 32

/-- Full under R125? -/
def fullFor (k : Core) (b : Mailbox) (domain : BitVec 16) : Bool :=
  let free := Config.storeSlots - k.storeUsed
  2 ^ b.logcap ≤ b.waiting.length || (if domain = 0 then free == 0 else free ≤ 16)

/-- Checks 1 to 8 for a message to an actor. -/
def State.judgeArrival (s : State) (c : CoreId) (m : Msg) : Answer :=
  let k := s.core c
  let n := slotOf m.port
  let sl := k.slots[n]
  let remote : Bool := match m.src with | .remote _ => true | _ => false
  if sl.state = .free || sl.state = .dying then .status 5
  else if sl.state = .moved then .moved (sl.movedTo ||| word (m.mbox * 2 ^ 17))
  else
    match sl.mboxes[m.mbox]? with
    | none => .status 6
    | some b =>
      let len := m.payload.length
      let plen := if n.val = 0 then (systemLen m.mbox m.tag).getD (if len = 0 then 1 else len) else b.plen
      let caps := (List.range 7).all (fun i =>
        !(b.hmask.testBit i) || k.guard.holds m.domain (m.dword i))
      if !k.guard.admitted m n then .status 4
      else if len ≠ plen then .status 7
      else if b.tagOf ≠ 0 && m.tag.toNat ≠ b.tagOf then .status 8
      else if (remote && b.hmask ≠ 0) || !caps then .status 9
      else
        match sl.state, sl.overflow with
        | .evicted, some o => if o.quota ≤ o.msgs.length then .full else .accepted
        | .evicted, none => .full
        | _, some _ => .full
        | _, none => if fullFor k b m.domain then .full else .accepted

/-- A message in the form of a store slot: header and payload, 64 bytes. -/
def Msg.image (m : Msg) : List Byte :=
  wordBytes m.header ++ (List.range 7).flatMap (fun i => wordBytes (m.dword i))

/-- The latency tolerance of a quad, in ns: the least of the launches with an actor there (R162). -/
def State.quadLattol (s : State) (c : CoreId) : Nat :=
  let at_ (v : CoreId) : List Nat := (s.core v).slots.toList.filterMap (fun sl =>
    if sl.state = .free then none else (sl.launch.bind (tabGet s.launches)).map (fun l => l.lattol * 1000))
  ((quadCores (dieOf c) (quadOf c)).flatMap at_).min?.getD 0

/-- A message for a slot is accepted on a core: a quad whose clock is stopped restarts, at once with a tolerance of 0
and for the system actor, else no later than the tolerance allows (R162). -/
def State.wakeQuad (s : State) (c : CoreId) (n : SlotId) : State :=
  let t := s.quadLattol c
  if !(s.core c).stopped then s
  else if n.val = 0 || t = 0 then s.restartQuad (dieOf c) (quadOf c)
  else s.mapCore c (fun k => { k with restartBy := some (min (k.restartBy.getD (s.quartz + t)) (s.quartz + t)) })

/-- An accepted message enters its mailbox, or the overflow queue of an evicted actor in kernel memory
(R143). -/
def State.acceptMsg (s : State) (c : CoreId) (m : Msg) : State :=
  let n := slotOf m.port
  let sl := s.slot c n
  match sl.state, sl.overflow with
  | .evicted, some o =>
    let entry := pad 128 (Msg.image m ++ wordBytes (word m.mbox))
    let s := s.kernelWrite c (o.addr.toNat + 128 * o.msgs.length) entry
    s.mapSlot c n (fun sl => { sl with overflow := some { o with msgs := o.msgs ++ [(m, m.mbox)] } })
  | _, _ =>
    let s := s.mapCore c (fun k =>
      { k with storeUsed := k.storeUsed + 1, acceptCount := k.acceptCount + 1 })
    let order := (s.core c).acceptCount
    (s.mapSlot c n (fun sl => { sl with mboxes := sl.mboxes.modify m.mbox (fun b =>
      { b with waiting := b.waiting ++ [{ msg := m, order }] }) })).wakeQuad c n

/-! ### Arrivals that no row of their own serves -/

/-- The reply of guard control: the endpoint is the last payload dword (R129). A message without one names
no endpoint. -/
def State.guardReply (s : State) (c : CoreId) (m : Msg) (status : Nat) (detail : Nat) : State :=
  if m.payload.isEmpty then s
  else s.kernelReply c 21 0x5D (m.payload.getLastD 0) [word status, word detail]

/-- The reply of the cluster TLB, to the sender (R239). -/
def State.tlbReply (s : State) (c : CoreId) (m : Msg) (status : Nat) : State :=
  s.kernelReply c 20 0x47 (m.sender.zeroExtend 64) [word status, word (bitsOf (m.dword 3) 63 16)]

/-- Path classes of the command ports, 2 to 5, and the unit of an engine's core. -/
def portClass (port : Nat) : Nat := port - 14

def portUnit (port : Nat) (c : CoreId) : Nat :=
  if port = 16 then c.val else if port = 17 then (clusterOf c).val else (dieOf c).val

/-- VALUE and DETAIL of the reply to a command that its engine refuses (R325): the sequence number and the rank of a
collective's member, the session and its bytes hashed of an ADD or CLOSE, and zeros. -/
def State.refusedFields (s : State) (c : CoreId) (m : Msg) : Nat × Word :=
  let d := s.die (dieOf c)
  match m.port with
  | 18 =>
    let rank := (tabGet d.groups (bitsOf (m.dword 0) 23 16)).bind (fun g =>
      g.members.findIdx? (fun v => s.memberHere v.1 && v.2 == bitsOf m.sender 35 25))
    (bitsOf (m.dword 0) 39 24 + rank.getD 0 * 2 ^ 16, 0)
  | 19 =>
    if bitsOf (m.dword 0) 7 0 = 1 then (0, 0)
    else
      let id := bitsOf (m.dword 5) 5 0
      match tabGet d.sessions id with
      | some v => (id, if v.domain = m.domain then word v.hash.length else 0)
      | none => (id, 0)
  | _ => (0, 0)

/-- The reply of an engine that refuses a command (R325). -/
def State.answerCmd (s : State) (c : CoreId) (m : Msg) (status : Nat) : State :=
  let f := s.refusedFields c m
  s.engineReply c m.port (portClass m.port) (portUnit m.port c) (bitsOf (m.dword 0) 7 0)
    (bitsOf m.sender 35 25) (bitsOf m.sender 24 20) (m.dword 1) m.domain status f.1 f.2

/-- The endpoint bits of a command's dword 1: all but its tag. -/
def replyEndpoint (m : Msg) : Word := m.dword 1 &&& 0x0000FFFFFFFFFFFF

/-- BADCMD of R323: answered when dword 1 holds a well-formed endpoint, else reported. An endpoint of 0 asks for no
reply, and gets none. -/
def State.badCommand (s : State) (c : CoreId) (m : Msg) : State :=
  if 2 ≤ m.payload.length && (replyEndpoint m == 0 || s.goodEndpoint (replyEndpoint m)) then s.answerCmd c m 17
  else s.reportCommand (dieOf c) m.domain m.port (bitsOf (m.dword 1) 63 48) (bitsOf (m.dword 0) 7 0)
    (bitsOf m.sender 35 25) (bitsOf m.sender 24 20)

/-- Does a command break R323: its LEN, its tag, or a reserved bit of its reply endpoint? -/
def brokenCommand (m : Msg) : Bool :=
  m.payload.length != 7 || m.tag.toNat != 0x50 + m.port || replyEndpoint m &&& 0x1FFFF != 0

/-- Does a guard pass an engine's capability (R296)? -/
def State.capPasses (s : State) (c : CoreId) (m : Msg) (kind object : Nat) : Bool :=
  let cap := m.dword 2
  bitsOf cap 63 48 == m.domain.toNat && bitsOf cap 47 44 == kind && bitsOf cap 35 0 == object &&
    (s.core c).guard.caps.contains cap

/-- Commands the queues of the matrix unit, a gather engine, a collective engine and the seal engine hold (R8, R293). -/
def matrixQueue : Nat := 16
def gatherQueueMax : Nat := 32
def collectiveQueueMax : Nat := 64
def sealQueueMax : Nat := 64

/-- Is the queue of the engine at a command port full (R199)? -/
def State.queueFull (s : State) (c : CoreId) (port : Nat) : Bool :=
  match port with
  | 16 => matrixQueue ≤ (s.core c).matrix.queue.length
  | 17 => gatherQueueMax ≤ (s.cluster (clusterOf c)).gatherQueue.length
  | 18 => collectiveQueueMax ≤ (s.die (dieOf c)).collQueue.length
  | 19 => sealQueueMax ≤ (s.die (dieOf c)).sealQueue.length
  | _ => false

/-- Does the capability of a command name its engine (R296), whatever its opcode? -/
def State.commandCap (s : State) (c : CoreId) (m : Msg) : Bool :=
  if m.port = 18 then s.capPasses c m 3 (bitsOf (m.dword 0) 23 16)
  else s.capPasses c m (m.port - 15) (if m.port = 19 then bitsOf (m.dword 2) 31 0 else portUnit m.port c)

/-- A message to an actor's mailbox, judged and answered (R131). -/
def State.arriveAt (s : State) (c : CoreId) (m : Msg) : State :=
  let a := s.judgeArrival c m
  let s := if a = .accepted then s.acceptMsg c m else s
  s.answerTo c m a

/-- Is a message held back by an earlier one of its way that has been refused as full (R137)? -/
def heldBack (earlier : List Msg) (m : Msg) : Bool := earlier.any (sameWay · m)

/-- A message of the backlog is tried again, once room has come. -/
def State.retryBacklog (s : State) (n : Nat) : Result :=
  match s.backlog[n]? with
  | none => noSuch
  | some m =>
    let c := coreOf m.core
    if heldBack (s.backlog.take n) m || s.judgeArrival c m == .full then .next s
    else .next ({ s with backlog := s.backlog.eraseIdx n }.arriveAt c m)

/-- MESSAGE ARRIVAL: the checks of R131 for an actor; a command with no opcode of its engine, which a full queue holds back
(R199), and an unknown request to the cluster TLB, the guard or a system actor, are accepted and answered so, the last of
them by a quad that runs (R162). From another device only
the ports of actors are reached (R377). With a number, a message of the backlog is tried again. -/
def execMessageArrival (s : State) : Result :=
  match s.arg with
  | .nums n _ _ => s.retryBacklog n
  | _ =>
  withMsg s (fun c m =>
    let remote : Bool := match m.src with | .remote _ => true | _ => false
    if m.port = 0 && m.mbox = 1 && m.payload.length != 0 && (systemLen 1 m.tag).isNone &&
        (s.core c).guard.admitted m 0 then
      .next (((s.wakeQuad c 0).answerTo c m .accepted).kernelReply c 0 0x5F (m.payload.getLastD 0) [12, 0])
    else if m.port ≤ 15 then
      .next (if heldBack s.backlog m then s.answerTo c m .full else s.arriveAt c m)
    else if remote || 22 ≤ m.port then .next (s.answerTo c m (.status 2))
    else if s.queueFull c m.port then .next (s.answerTo c m .full)
    else
      let s := s.answerTo c m .accepted
      if m.port ≤ 19 then
        .next (if brokenCommand m || s.commandCap c m then s.badCommand c m else s.answerCmd c m 16)
      else if m.port = 20 then .next (s.tlbReply c m 12)
      else .next (s.guardReply c m 12 0))

/-- SEND UNIT RETRY: a message goes out again: a slot has come free, or 2 µs have passed (R137, R377). It is one of a core's
send unit, or, from number 2048 on, one to another device that no send unit holds. -/
def execSendUnitRetry (s : State) : Result :=
  withNums s (fun a b _ =>
    if 2048 ≤ a then
      match tabGet s.abroad b with
      | none => noSuch
      | some x =>
        let y : Abroad := { x with held := false, tried := some s.quartz }
        stepIf s (x.tried.any (· + 2000 ≤ s.quartz))
          (State.tell { s with abroad := tabSet s.abroad b y } (.abroad b x.msg))
    else
      let c := coreOf a
      let e : Fin 8 := Fin.ofNat 8 b
      match (s.core c).sends[e] with
      | none => noSuch
      | some x =>
        let here := s.isHere x.msg.device
        let to_ := coreOf x.msg.core
        let room := here && (if x.msg.port ≤ 15 then s.judgeArrival to_ x.msg != .full else !s.queueFull to_ x.msg.port)
        let due := x.tried + 2000 ≤ s.quartz
        let again := (x.state = .held && (room || due)) || (x.state = .flying && !here && due)
        stepIf s again
          ((s.mapCore c (·.setSend e (some { x with state := .flying, tried := s.quartz }))).launchMsg c x.msg))

/-- OVERFLOW QUEUE DRAIN: the oldest message of a restored actor's overflow queue moves into its mailbox
when that has room (R146). -/
def execOverflowQueueDrain (s : State) : Result :=
  withNums s (fun a b _ =>
    let c := coreOf a
    let n := slotOf b
    let sl := s.slot c n
    match sl.state == .evicted, sl.overflow with
    | false, some o =>
      match o.msgs with
      | [] => .next (s.mapSlot c n (fun sl => { sl with overflow := none }))
      | (m, mb) :: r =>
        let rest : Option Overflow := if r.isEmpty then none else some { o with msgs := r }
        match sl.mboxes[mb]? with
        | none => .next (s.mapSlot c n (fun sl => { sl with overflow := rest }))
        | some q =>
          if fullFor (s.core c) q m.domain then .next s
          else
            let s := s.mapSlot c n (fun sl => { sl with overflow := none })
            let s := s.acceptMsg c { m with dst := endpointOf c.val n.val mb }
            .next (s.mapSlot c n (fun sl => { sl with overflow := rest }))
    | _, _ => .next s)

/-! ### SEND and SENDT (R197 to R201) -/

/-- The terminal fault CAP of a domain whose rights record has been withdrawn (R129, R342). -/
def State.withdrawn (s : State) : Bool :=
  s.here.domain != 0 && s.hereCore.guard.withdrawn.contains s.here.domain

/-- The message of a SEND. -/
def State.sendMsg (s : State) (ep : Word) (tag : BitVec 8) (payload : List Word) : Msg :=
  let y := s.here
  let seq := match y.act with | some a => (s.slot s.focus a.slot).seq | none => 0
  { dst := ep, sender := y.self.truncate 48, tag, seq, payload, domain := y.domain,
    stamp := some s.hereCore.lclk, src := .sendUnit s.focus 0 }

/-- Work that a chunk holds (R201, R262): eight pieces at most, a ninth overflows it. -/
def holdWork (s : State) (h : Held) (go : State → Result) : Result :=
  if 8 ≤ s.here.chunk.held.length then .next (s.abortChunk s.focus s.hereX)
  else go (s.mapHere (fun y => { y with chunk := { y.chunk with held := y.chunk.held ++ [h] } }))

/-- The payload registers. -/
def Ctx.payload (x : Ctx) (rb : Fin 32) (len : Nat) : List Word :=
  (List.range len).map (fun i => x.reg (Fin.ofNat 32 (rb.val + i)))

/-- SEND and SENDT (R198 to R201). SENDT answers BUSY while a message to the core is held for retry; one whose retry is on
its way does not count as held (assumption 91). -/
def sendOp (rd : Fin 32) (a : Opnd) (tag : BitVec 8) (rb : Fin 32) (len : Fin 8) (imm : Imm) (try1 : Bool)
    (s : State) : Result :=
  peekOperands [a] (immS imm) s (fun vs take =>
    let ep := nth vs 0
    let finish (s : State) (v : Word) : Result :=
      done ((take s).mapHere (fun y => { (y.setReg rd v) with sendrec := none })) (lenImm imm)
    match s.here.sendrec with
    | some (_, some v) => finish s v
    | some (_, none) => waitFor s (if try1 then .tried else .send)
    | none =>
      match s.here.memWait with
      | some w => waitFor s w
      | none =>
        if s.hostOut then waitFor s .stall
        else if s.withdrawn then raise s ⟨causeCap, 0, 0, 0⟩
        else
          let m := s.sendMsg ep tag (s.here.payload rb len.val)
          if s.here.optimistic then holdWork s (.message m) (fun s => finish s 0)
          else
            let st := s.guardSend s.focus s.here.domain ep
            let held := (s.toward s.focus m).any (fun e => e.state == .held)
            if st ≠ 0 then finish s st
            else
              match s.hereCore.freeSend, s.here.act with
              | some e, some act =>
                if try1 && held then finish s stBusy
                else
                  let s := s.mapHere (fun y => { y with sendrec := some (e, none) })
                  waitFor (s.takeSend s.focus e act.slot m try1 false) (if try1 then .tried else .send)
              | _, _ => if try1 then finish s stBusy else waitFor s .send)

def execSend (rd : Fin 32) (a : Opnd) (tag : BitVec 8) (rb : Fin 32) (len : Fin 8) (imm : Imm)
    (s : State) : Result := sendOp rd a tag rb len imm false s

def execSendt (rd : Fin 32) (a : Opnd) (tag : BitVec 8) (rb : Fin 32) (len : Fin 8) (imm : Imm)
    (s : State) : Result := sendOp rd a tag rb len imm true s

/-! ### MBSTAT (R203) -/

/-- The status word of a mailbox. -/
def mbstatWord (k : Core) (sl : Slot) (b : Mailbox) : Word :=
  word ((if sl.overflow.isSome then 2 ^ 56 else 0) + k.inFlight * 2 ^ 52 +
    (Config.storeSlots - k.storeUsed) * 2 ^ 41 + (if b.enabled then 2 ^ 15 else 0) +
    (if b.drains then 2 ^ 14 else 0) + (if b.atomic then 2 ^ 13 else 0) + b.logcap * 2 ^ 9 +
    b.waiting.length)

def execMbstat (rd : Fin 32) (a : Opnd) (imm : Imm) (s : State) : Result :=
  withOperands [a] (immS imm) s (fun vs s =>
    let n := (nth vs 0).toNat
    let v : Word :=
      match s.here.act with
      | none => 0x8000000000000000
      | some act =>
        let sl := s.slot s.focus act.slot
        match (if n ≤ 7 then sl.mboxes[n]? else none) with
        | none => 0x8000000000000000
        | some b => mbstatWord s.hereCore sl b
    done (s.mapHere (·.setReg rd v)) (lenImm imm))

/-! ### ACTCTL (R204, R205) -/

/-- Codes of R118. -/
def slotCode : SlotState → Nat
  | .free => 0 | .idle => 1 | .active => 2 | .suspended => 3 | .evicted => 4 | .moved => 5 | .dying => 6

/-- The value of STATE. -/
def State.slotWordOf (s : State) (c : CoreId) (n : SlotId) : Word :=
  let sl := s.slot c n
  let ens := sl.mboxes.zipIdx.foldl (fun a p => if p.1.enabled then a + 2 ^ p.2 else a) 0
  let bound := (s.core c).ctxs.toList.any (fun y => y.act.any (·.slot == n))
  word (slotCode sl.state * 2 ^ 8 + sl.quota % 256 * 2 ^ 16 + sl.weight % 16 * 2 ^ 24 +
    sl.cls % 4 * 2 ^ 28 + ens % 256 * 2 ^ 32 + (if bound then 2 ^ 40 else 0))

/-- ACTCTL: the checks of R204 in order, then the operation of R205. -/
def State.actctl (s : State) (ep w : Word) : State × Word :=
  let c := s.focus
  let port := bitsOf ep 24 20
  let mb := bitsOf ep 19 17
  let opc := bitsOf w 3 0
  let v := bitsOf w 15 8
  let n := slotOf port
  let sl := s.slot c n
  let valueOk : Bool :=
    match opc with
    | 0 | 1 | 4 => v == 0
    | 2 => 1 ≤ v && v ≤ 15
    | 3 => v ≤ 3
    | _ => false
  let present := sl.state != .free && sl.state != .dying && sl.state != .moved
  let enable (on : Bool) : State × Word :=
    (s.mapSlot c n (fun sl => { sl with mboxes := sl.mboxes.modify mb (fun b => { b with
      enabled := on, desc1 := if on then b.desc1 ||| 0x8000 else b.desc1 &&& ~~~0x8000 }) }), 0)
  if s.here.domain ≠ 0 then (s, stNoright)
  else if ep &&& 0xFFFF00000001FFFF ≠ 0 || bitsOf ep 47 36 ≠ 0xFFF || bitsOf ep 35 25 ≠ c.val then
    (s, stBadep)
  else if port = 0 || 15 < port then (s, stBadport)
  else if !valueOk || w &&& 0xFFFFFFFFFFFF00F0 ≠ 0 then (s, 12)
  else if opc = 4 then (s, s.slotWordOf c n)
  else if !present then (s, stNoactor)
  else if opc = 3 && v = 0 && sl.domain ≠ 0 then (s, 12)
  else
    match opc with
    | 0 => if sl.mboxes.length ≤ mb then (s, 6) else enable true
    | 1 => if sl.mboxes.length ≤ mb then (s, 6) else enable false
    | 2 => (s.mapSlot c n (fun sl => { sl with weight := v }), 0)
    | _ => (s.mapSlot c n (fun sl => { sl with cls := v }), 0)

def actctlOp (rd : Fin 32) (a b : Opnd) (imm : Imm) (s : State) : Result :=
  withOperands [a, b] (immS imm) s (fun vs s =>
    let (s, v) := s.actctl (nth vs 0) (nth vs 1)
    done (s.mapHere (·.setReg rd v)) (lenImm imm))

def execActctlEnable (rd : Fin 32) (a b : Opnd) (imm : Imm) (s : State) : Result := actctlOp rd a b imm s
def execActctlDisable (rd : Fin 32) (a b : Opnd) (imm : Imm) (s : State) : Result := actctlOp rd a b imm s
def execActctlWeight (rd : Fin 32) (a b : Opnd) (imm : Imm) (s : State) : Result := actctlOp rd a b imm s
def execActctlClass (rd : Fin 32) (a b : Opnd) (imm : Imm) (s : State) : Result := actctlOp rd a b imm s
def execActctlState (rd : Fin 32) (a b : Opnd) (imm : Imm) (s : State) : Result := actctlOp rd a b imm s

end Sys2Proof.Machine
end

