-- ==== Sys2Proof/Machine/Sched.lean ====
section
/-! DEFINITION. The activation scheduler (R132, R133), the switch between contexts (R136), budgets (R134,
R135), the queue deadlock trap (R18), the grace period (R219), DONE (R202) and the commit of atomic chunks
(R263 to R265), and the passing of time. -/

namespace Sys2Proof.Machine

/-! ### Who pays (R134, R219) -/

/-- The domain whose allotment an activation charges: its origin, or in a grace period the domain on
top. -/
def Ctx.payer (y : Ctx) : BitVec 16 := if y.graceEnd.isSome then y.domain else y.origin

/-- Is a domain's budget on a core exhausted? -/
def Core.exhausted (k : Core) (d : BitVec 16) : Bool := k.left d == some 0

/-! ### Readiness and choice (R132, R133) -/

/-- May a message start an activation of its slot? A launch record is served by the system actor itself
(R156). -/
def startable (n : SlotId) (mb : Nat) (b : Mailbox) (m : Stored) : Bool :=
  b.enabled && !b.running && (n.val ≠ 0 || (mb == 0 && b.desc0 != 0 && m.msg.tag != 0x4C))

/-- The mailbox and message that would start the next activation of a slot: the DRAIN mailbox first,
else the earliest accepted head. -/
def Slot.nextMsg (n : SlotId) (sl : Slot) : Option (Nat × Stored) :=
  let heads := sl.mboxes.zipIdx.filterMap (fun p =>
    match p.1.waiting with
    | m :: _ => if startable n p.2 p.1 m then some (p.2, p.1, m) else none
    | [] => none)
  match heads.find? (fun h => h.2.1.drains) with
  | some h => some (h.1, h.2.2)
  | none =>
    match heads with
    | [] => none
    | h :: r =>
      let best := r.foldl (fun a x => if x.2.2.order < a.2.2.order then x else a) h
      some (best.1, best.2.2)

/-- Has an EVICT of the actor of a slot begun (R311, R356)? -/
def Slot.leaving (sl : Slot) : Bool := sl.evicting.any (·.begun)

/-- May a slot start an activation? Once its EVICT has begun, only for the rows of a drain that is still to end (R311,
R356). -/
def Core.ready (k : Core) (n : SlotId) : Bool :=
  let sl := k.slots[n]
  let drain := (sl.nextMsg n).any (fun p => (sl.mboxes[p.1]?).any (·.drains))
  sl.state == .idle && (sl.nextMsg n).isSome && !k.exhausted sl.domain && (!sl.leaving || (k.drainsTo n && drain))

/-- Is a saved activation resumable (R132)? It also waits for the budget of the domain it charges: R132 names none for one
whose RESUME has arrived (assumption 99). -/
def Core.resumable (k : Core) (n : SlotId) : Bool :=
  let sl := k.slots[n]
  (sl.state == .suspended || sl.state == .dying) &&
    sl.saved.any (fun v => v.resumable && !k.exhausted v.ctx.payer && (!sl.leaving || v.ctx.act.any (·.drain)))

def allSlots : List SlotId := (List.range 16).map slotOf

/-- The lowest free context. -/
def Core.freeCtx (k : Core) : Option CtxId :=
  ((List.range 4).map ctxOf).find? (fun x => k.ctxs[x].act.isNone)

/-- What the scheduler binds next: a slot, whether it resumes, and whether a new round begins. -/
inductive Choice where
  | resume (n : SlotId)
  | start (n : SlotId) (round : Bool)
  deriving DecidableEq, Repr

/-- The choice within a class. -/
def Core.chooseIn (k : Core) (cls : Nat) : Option Choice :=
  let mine := allSlots.filter (fun n => k.slots[n].cls == cls)
  let back := mine.filter (k.resumable ·)
  match back with
  | n :: r =>
    let age (n : SlotId) : Nat := (k.slots[n].saved.map (·.order)).getD 0
    some (.resume (r.foldl (fun a x => if age x < age a then x else a) n))
  | [] =>
    let ready := mine.filter (k.ready ·)
    match ready.find? (fun n => 0 < k.slots[n].quota) with
    | some n => some (.start n false)
    | none => ready.head?.map (fun n => .start n true)

/-- The lowest class with something to bind. -/
def Core.choose (k : Core) : Option Choice :=
  (List.range 4).foldl (fun a cls => a <|> k.chooseIn cls) none

/-! ### Binding (R31, R133, R348, R378) -/

/-- A new round: every actor of a class receives its weight. -/
def Core.newRound (k : Core) (cls : Nat) : Core :=
  { k with slots := k.slots.map (fun sl =>
      if sl.state != .free && sl.state != .moved && sl.cls = cls then { sl with quota := sl.weight } else sl) }

/-- The row that a drain activation finds in v0 and v1 (R31, R311). -/
def Core.drainRow (k : Core) (b : Mailbox) (m : Msg) : DrainRow :=
  match b.drains, m.src with
  | true, .drain _ a =>
    let acc := k.matrix.accs[a]
    let i := (m.dword 0).toNat % 64
    let lane (j : Nat) : Nat := ((tabGet acc.data (64 * i + j)).getD 0).toNat
    some (ofElems 32 32 lane, ofElems 32 32 (fun j => lane (32 + j)))
  | _, _ => none

/-- A new activation of a slot, from the message its next mailbox holds. One of a domain whose interface is in
ERROR is saved at its first boundary (R385). -/
def State.startActivation (s : State) (c : CoreId) (x : CtxId) (n : SlotId) : State :=
  let sl := s.slot c n
  match sl.nextMsg n with
  | none => s
  | some (mb, st) =>
    match sl.mboxes[mb]? with
    | none => s
    | some b =>
      let m := st.msg
      let g := s.slotGrant sl
      let remote : Bool := match m.src with | .remote _ => true | _ => false
      let row := (s.core c).drainRow b m
      let atomic := b.atomic
      let s := s.mapSlot c n (fun sl => { sl with
        state := .active, quota := sl.quota - 1,
        mboxes := sl.mboxes.modify mb (fun b =>
          if atomic then { b with running := true } else { b with waiting := b.waiting.tail }) })
      let s := if atomic then s else s.mapCore c (fun k => { k with storeUsed := k.storeUsed - 1 })
      let s := s.raiseClk c (m.stamp.getD 0)
      let s := if remote then s.mapCore c (·.dropLeases (fun _ => true)) else s
      let y := Ctx.entry c n sl mb m row g.1 g.2
      let halted := s.vfs.any (fun v => v.2.state == .error && v.2.domains.contains sl.domain)
      let t0 := (s.core c).lclk
      s.mapCtx c x (fun _ => { y with
        acqSys := remote, issued := s.quartz, stops := if halted then [.tdisp] else [],
        chunk := { Chunk.none with active := atomic, t0 } })

/-- A saved activation bound again: every field of its frame (R348). -/
def State.resumeActivation (s : State) (c : CoreId) (x : CtxId) (n : SlotId) : State :=
  let sl := s.slot c n
  match sl.saved with
  | none => s
  | some v =>
    let y := v.restore (s.kernelRead c v.ctx.frame.toNat 6144)
    let g := s.slotGrant sl
    let s := s.mapSlot c n (fun sl => { sl with
      saved := none, state := if sl.state = .suspended then .active else sl.state })
    (s.raiseClk c v.lclk).mapCtx c x (fun _ => { y with
      clkgs := g.1, clkseq := g.2, issued := s.quartz, wait := .run })

/-! ### The issuing context (R136) -/

/-- Does a wait give up the core, or only stall the context? The wait of a save for the V pipe (R347) is in no list of
R136 and R21: it stalls. -/
def blocks : Wait → Bool
  | .run | .memory | .stall | .commit | .tried | .vFence | .vSettle => false
  | _ => true

/-- Has what a wait waits for come? -/
def State.waitOver (s : State) (c : CoreId) (x : CtxId) : Bool :=
  let y := s.ctx c x
  let k := s.core c
  match y.wait with
  | .run | .stall | .commit | .gateMove => true
  | .pop need => need.all (fun p => p.2 ≤ (y.queue p.1).length)
  | .push q => (y.queue q).length < queueRoom
  | .vIdle => y.vIdle
  | .vMask m => !(y.vq.any (fun e => writesMask m e.instr))
  | .vSettle => y.vStopped
  | .vStore | .vFence => y.op.isSome || y.memFree
  | .vFull => y.vq.length < 32
  | .memory => y.op.isNone
  | .gate _ | .batch => false
  | .translation => !(s.cluster (clusterOf c)).misses.any (fun p => p.2.waiters.any (·.who == .ctx c x))
  | .send | .tried =>
    match y.sendrec with
    | some (_, some _) => true
    | some (_, none) => false
    | none => k.freeSend.isSome
  | .wake =>
    match s.waiterEnd (.ctx c x) with
    | some _ => true
    | none => y.watch.isNone && !(s.bars.any (fun b => b.who == .ctx c x))
  | .markers =>
    if y.markers = 0 then
      match y.act with
      | some a => !(s.postedOf c a.slot).any (·.stf)
      | none => false
    else y.markers == 64

/-- May a context issue now? -/
def State.unblocked (s : State) (c : CoreId) (x : CtxId) : Bool :=
  (s.ctx c x).act.isSome && (!blocks (s.ctx c x).wait || s.waitOver c x)

/-- The class of the actor of a context. -/
def Core.classOf (k : Core) (x : CtxId) : Nat :=
  match k.ctxs[x].act with
  | some a => k.slots[a.slot].cls
  | none => 4

/-- The best unblocked context that a test allows: lowest class, then longest since it issued, then lowest number. -/
def State.bestCtx (s : State) (c : CoreId) (may : CtxId → Bool) : Option CtxId :=
  let k := s.core c
  let less (a b : CtxId) : Bool :=
    k.classOf a < k.classOf b || (k.classOf a == k.classOf b && k.ctxs[a].issued < k.ctxs[b].issued)
  ((List.range 4).map ctxOf).foldl (fun (best : Option CtxId) x =>
    if may x && s.unblocked c x then
      match best with
      | none => some x
      | some b => some (if less x b then x else b)
    else best) none

/-- Issue moves to a context, whose gate transition is over by then. -/
def State.switchTo (s : State) (c : CoreId) (x : CtxId) : State :=
  (s.mapCore c (fun k => { k with cur := x })).mapCtx c x (fun y =>
    if y.wait = .gateMove then { y with wait := .run } else y)

/-- CONTEXT SWITCH: when the issuing activation blocks or has ended, issue moves (R136). A gate transition gives up the
core to any other context that can go on. -/
def execContextSwitch (s : State) : Result :=
  withCore s (fun c =>
    let cur := (s.core c).cur
    if (s.ctx c cur).act.isSome && (s.ctx c cur).wait == .gateMove then
      match s.bestCtx c (· != cur) with
      | some x => .next (s.switchTo c x)
      | none => .next s
    else
      match s.unblocked c cur, s.bestCtx c (fun _ => true) with
      | false, some x => .next (s.switchTo c x)
      | _, _ => .next s)

/-- ACTIVATION BIND (R133). When the issuing activation has ended, issue moves to a waiting context before its own is bound
again (R136). -/
def execActivationBind (s : State) : Result :=
  withCore s (fun c =>
    let k := s.core c
    match k.freeCtx, (if k.stopped then none else k.choose) with
    | some x, some b =>
      let s := match (s.ctx c k.cur).act, s.bestCtx c (fun _ => true) with
        | none, some y => s.switchTo c y
        | _, _ => s
      match b with
      | .resume n => .next (s.resumeActivation c x n)
      | .start n round =>
        let s := if round then s.mapCore c (·.newRound k.slots[n].cls) else s
        .next (s.startActivation c x n)
    | _, _ => .next s)

/-! ### QLOCK (R18) -/

/-- Is the S pipe blocked on a queue or on the V pipe? -/
def Ctx.sBlocked (y : Ctx) : Bool :=
  match y.wait with
  | .pop _ | .push _ | .vIdle | .vMask _ | .vFull | .vStore | .vFence => true
  | _ => false

/-- Is the V pipe blocked on a queue? -/
def Ctx.vBlocked (y : Ctx) : Bool := !y.vq.isEmpty && y.vStopped

/-- QLOCK: both pipes have been blocked for 4,096 core cycles. -/
def execQlock (s : State) : Result :=
  withCtx s (fun c x =>
    let y := s.ctx c x
    let oldest : Word := (y.vq.head?.map (·.pc)).getD 0
    stepIf s (y.act.isSome && y.sBlocked && y.vBlocked && !s.waitOver c x &&
        Config.qlockCycles ≤ y.blocked)
      ((s.mapCtx c x (fun y => { y with
        vq := [], queues := Vector.replicate 8 [], blocked := 0, wait := .run })).enterTrap c x causeQlock
          oldest y.pc (slotWord y.pc y.slot)))

/-! ### Budgets (R134, R135) -/

/-- PERIOD START on a core: budgets whose period has begun are set to their allotment, and activations
suspended for them are resumable. -/
def execPeriodStart (s : State) : Result :=
  withCore s (fun c =>
    let k := s.core c
    let now (b : Budget) : Nat := s.quartz / (b.period * 1000)
    let past := k.budgets.filter (fun b => b.index < now b)
    let fresh (d : BitVec 16) : Bool := past.any (·.domain == d)
    stepIf s (!past.isEmpty)
      (s.mapCore c (fun k => { k with
        budgets := k.budgets.map (fun b =>
          if b.index < now b then { b with left := b.allot, index := now b } else b),
        slots := k.slots.map (fun sl => { sl with saved := sl.saved.map (fun v =>
          if v.waits = .budget && fresh v.ctx.payer then { v with resumable := true } else v) }) })))

/-- BUDGET EXHAUSTION: the activations that charge a domain without budget are pre-empted at their next
boundary. -/
def execBudgetExhaustion (s : State) : Result :=
  withCore s (fun c =>
    let k := s.core c
    let hit (y : Ctx) : Bool := y.act.isSome && k.exhausted y.payer && !y.stops.contains .budget
    stepIf s (k.ctxs.toList.any hit)
      (s.mapCore c (fun k => { k with
        ctxs := k.ctxs.map (fun y => if hit y then { y with stops := y.stops ++ [.budget] } else y) })))

/-! ### Grants that take effect (R163, R164) -/

/-- A launch of the table changed. -/
def State.mapLaunch (s : State) (n : Nat) (f : Launch → Launch) : State :=
  match tabGet s.launches n with
  | none => s
  | some l => { s with launches := tabSet s.launches n (f l) }

/-- A grant in effect: CLKGS and CLKSEQ of every activation of the launch's actors with it, and Garnet (R368). -/
def State.applyGrant (s : State) (n : Nat) (g : BitVec 32) (seq : Nat) : State :=
  let s := s.mapLaunch n (fun l => { l with effective := g, effectiveSeq := seq })
  let domain := ((tabGet s.launches n).map (·.domain.toNat)).getD 0xFFFF
  let s := s.garnet 8 4 10 0 domain (seq + g.toNat * 2 ^ 64)
  let core (k : Core) : Core :=
    { k with ctxs := k.ctxs.map (fun y =>
        if y.act.any (fun a => k.slots[a.slot].launch == some n) then
          { y with clkgs := g, clkseq := BitVec.ofNat 32 seq }
        else y) }
  { s with cores := tabMap (fun _ k => core k) s.cores }

/-- The first change of a grant whose time has come takes effect; one that was not announced before is announced. -/
def State.takeChange (s : State) : State :=
  match s.arbiter.changes.find? (fun c => c.at_ ≤ s.quartz) with
  | none => s
  | some c =>
    let s := { s with arbiter := { s.arbiter with changes := s.arbiter.changes.erase c } }
    let s := s.applyGrant c.launch c.grant c.seq
    match c.announce with
    | some m => s.post (agentFront (dieOf (coreOf (bitsOf m.sender 35 25)))) m
    | none => s

/-! ### The passing of time -/

/-- A core's part of some ns at a core clock in steps of 50 MHz: CYCLE at the rate in effect (R165), the count of
blocked cycles, and the charges. -/
def Core.pass (k : Core) (ns clock : Nat) : Core :=
  let run := if k.stopped then k.phase else k.phase + ns * clock
  let cycles := run / 20
  let bound (d : BitVec 16) : Nat :=
    (k.ctxs.toList.filter (fun y => y.act.isSome && y.payer == d)).length
  { k with
    cycle := k.cycle + cycles, phase := run % 20,
    ctxs := k.ctxs.map (fun y =>
      if y.sBlocked && y.vBlocked then { y with blocked := y.blocked + cycles } else { y with blocked := 0 }),
    budgets := k.budgets.map (fun b => { b with left := b.left - ns * bound b.domain }) }

def State.putQueue (s : State) (d : DieId) (addr : Nat) (q : Queue) : State :=
  s.mapDie d (fun k => { k with queues := tabSet k.queues addr q })

/-- A queue enters a STATE, which its descriptor shows. -/
def State.enterState (s : State) (d : DieId) (addr : Nat) (q : Queue) (st : Nat) : State :=
  (s.kernelWrite (kernelCore d) (addr + 1) [BitVec.ofNat 8 st]).putQueue d addr { q with state := st }

/-- A queue that slept polls again (R401). -/
def State.awake (s : State) (d : DieId) (addr : Nat) (q : Queue) : State :=
  s.enterState d addr { q with waking := none, idleSince := s.quartz } 0

/-- The queues that a doorbell has called and that still sleep, each with the time by which it polls again (R401). -/
def State.called (s : State) : List (DieId × Nat × Queue × Nat) :=
  s.dies.flatMap (fun k => k.2.queues.filterMap (fun p =>
    if p.2.state = 1 then p.2.waking.map (fun t => (dieNum k.1, p.1, p.2, t)) else none))

/-- The cores that nothing has touched yet beside one that something has, where the clock is not the nominal one. -/
def State.nearCores (s : State) : List CoreId :=
  s.cores.flatMap (fun p =>
    let c := coreOf p.1
    if bitsOf (s.clkef c) 15 8 = nominalClock then []
    else (quadCores (dieOf c) (quadOf c)).filter (fun v => (tabGet s.cores v.val).isNone))

/-- Quartz time passes, and on every core the cycles of its clock, which is in the vector domain (R8). Time stands
where a quad must restart (R162), a queue must be awake (R401) or a change of a grant takes effect (R164, R402). -/
def State.pass (s : State) (ns : Nat) : State :=
  let ns := s.cores.foldl (fun a p => match p.2.restartBy with | some t => min a (t - s.quartz) | none => a) ns
  let ns := s.called.foldl (fun a q => min a (q.2.2.2 - s.quartz)) ns
  let ns := s.arbiter.changes.foldl (fun a c => min a (c.at_ - s.quartz)) ns
  let s := s.nearCores.foldl (fun s c => s.setCore c (s.core c)) s
  let s := { s with
    quartz := s.quartz + ns,
    cores := tabMap (fun i k => k.pass ns (bitsOf (s.clkef (coreOf i)) 15 8)) s.cores }
  let s := (s.cores.filter (fun p => p.2.restartBy.any (· ≤ s.quartz))).foldl (fun s p =>
    s.restartQuad (dieOf (coreOf p.1)) (quadOf (coreOf p.1))) s
  let s := (s.called.filter (·.2.2.2 ≤ s.quartz)).foldl (fun s q => s.awake q.1 q.2.1 q.2.2.1) s
  s.arbiter.changes.foldl (fun s _ => s.takeChange) s

/-! ### The grace period (R219) -/

/-- An activation is terminated (R142): a terminal end that no fault caused. -/
def State.terminate (s : State) (c : CoreId) (x : CtxId) : State :=
  let y := s.ctx c x
  let s := if y.optimistic then s.undoLog y.chunk.log else s
  let s := match y.act with
    | some a => s.abandonSessions (fun _ => s.openedBy c a.slot)
    | none => s
  s.endActivation c x true

/-- GRACE PERIOD END: an activation of a dead origin is terminated, bound or suspended. -/
def execGracePeriodEnd (s : State) : Result :=
  withNums s (fun a b _ =>
    let c := coreOf a
    let n := slotOf b
    let past (y : Ctx) : Bool := y.act.any (·.slot == n) && y.graceEnd.any (· ≤ s.quartz)
    match ((List.range 4).map ctxOf).find? (fun x => past (s.ctx c x)) with
    | some x => .next (s.terminate c x)
    | none => stepIf s ((s.slot c n).saved.any (fun v => past v.ctx)) (s.endSaved c n))

/-! ### Copies in the FIFO (R297, R333) -/

/-- A request enters the copy FIFO: its entry, and its handle. -/
def State.enterCopy (s : State) (c : CoreId) (x : CtxId) (e : Fin 128) (domain : BitVec 16)
    (n : SlotId) (w0 w1 w2 w3 : Word) : State × Word :=
  let k := s.core c
  let num := if (k.copyCount + 1) % 2 ^ 32 = 0 then 1 else (k.copyCount + 1) % 2 ^ 32
  let copy : Copy :=
    { num, actor := (s.slot c n).actor, killed := false, ewFrom := 0, ewTo := 0, w0, w1, w2, w3, domain, slot := n, state := .queued, prog := 0, status := 0, srcPin := none,
      dstPin := none }
  let s := s.mapCore c (fun k => { k with
    copyCount := num, copies := k.copies.set e (some copy), fifo := k.fifo ++ [e] })
  (s.mapCtx c x (fun y => { y with batches := { y.batches with openSet := y.batches.openSet ++ [c.val * 2 ^ 32 + num] } }),
    word (num * 2 ^ 16 + e.val * 2 ^ 8))

/-- A copy entry that is free: never used, or ended. -/
def Core.freeCopy (k : Core) : Option (Fin 128) :=
  ((List.range 128).map (Fin.ofNat 128)).find? (fun e =>
    match k.copies[e] with
    | none => true
    | some v => v.state == .ended)

/-! ### The commit of a chunk (R263 to R265) -/

/-- Is a die held by the token of another run (R267)? -/
def State.tokenHeld (s : State) (c : CoreId) (n : SlotId) (d : DieId) : Bool :=
  let other (o : Option (CoreId × SlotId)) : Bool := o.isSome && o != some (c, n)
  other s.deviceToken || other (s.die d).token

/-- The lines of both sets of a chunk, and the dies that home them, in ascending order. -/
def Chunk.lines (k : Chunk) : List Nat := distinct (k.reads.map (·.1) ++ k.writes.map (·.line))

def Chunk.dies (k : Chunk) : List DieId :=
  ((List.range 8).map dieNum).filter (fun d => k.lines.any (fun l => lineDie l == d))

/-- The signature of some lines: a bit for each (R262). -/
def signature (ls : List Nat) : BitVec 2048 := ls.foldl (fun a l => a ||| BitVec.twoPow 2048 (Config.sigBit l).val) 0

def Chunk.rsig (k : Chunk) : BitVec 2048 := signature (k.reads.map (·.1))
def Chunk.wsig (k : Chunk) : BitVec 2048 := signature (k.writes.map (·.line))

/-- Do the signatures of a chunk meet those of another in conflict (R263)? -/
def Chunk.meets (k o : Chunk) : Bool := k.rsig &&& o.wsig != 0 || k.wsig &&& (o.rsig ||| o.wsig) != 0

/-- The chunks of other contexts whose commits hold reservations on a die. -/
def State.commitsOn (s : State) (c : CoreId) (x : CtxId) (d : DieId) : List Chunk :=
  s.cores.flatMap (fun p => ((p.2.ctxs.toList.zipIdx.filter (fun q =>
    q.1.chunk.reserved.contains d.val && !(p.1 == c.val && q.2 == x.val))).map (fun q => q.1.chunk)))

/-- The owners of some words of a line recalled, when that can be done at once. -/
def State.recallNow (s : State) (line : Nat) (m : BitVec 16) (write : Bool) : Option State :=
  let d := lineDie line
  if (s.dir (.slice d) line).cur.isSome then none else s.sliceRecall d line m write

/-- The owners of the words that a chunk touched of some lines recalled, so that the home's wts counts what they wrote and
its buffered words can be written there. None while an answer is on its way. -/
def State.settleChunk (s : State) (k : Chunk) (on : Nat → Bool) : Option State :=
  let s? := (k.reads.filter (fun p => on p.1)).foldl (fun (s : Option State) p =>
    s.bind (·.recallNow p.1 p.2 false)) (some s)
  (k.writes.filter (fun b => on b.line)).foldl (fun (s : Option State) b =>
    s.bind (·.recallNow b.line (wordsOfBytes b.bytes) true)) s?

/-- Some lines of a chunk asked back of the host, and a way for each, which its commit waits for (R381, R407). -/
def State.askBack (s : State) (k : Chunk) (on : Nat → Bool) : State :=
  (k.lines.filter on).foldl (fun s l =>
    (s.askHost (lineDie l) l (k.writes.any (·.line == l))).clearWay (lineDie l) l) s

/-- Has a line that a chunk read been written since the chunk began (R263)? -/
def State.readsStale (s : State) (k : Chunk) (on : Nat → Bool) : Bool :=
  k.reads.any (fun p => on p.1 && k.t0 < (s.dir (.slice (lineDie p.1)) p.1).wts)

/-- The lines of a chunk on a die, each with a way of its set (R407), reserved for its commit (R264). A line whose set has no
way to free has none (assumption 98). None while a way cannot be taken at once. -/
def State.reserveChunk (s : State) (c : CoreId) (x : CtxId) (n : SlotId) (d : DieId) : Option State :=
  let k := (s.ctx c x).chunk
  let s? := (k.lines.filter (fun l => lineDie l == d)).foldl (fun (s : Option State) l => s.bind (fun s =>
    (if s.l2Full d l then some s else s.l2Room d l).map (fun s => s.reserve c n l (k.writes.any (·.line == l))))) (some s)
  s?.map (fun s => s.mapCtx c x (fun y => { y with chunk := { y.chunk with reserved := y.chunk.reserved ++ [d.val] } }))

/-- The tracked copies of every line that a chunk writes invalidated, so that the homes' rts count what they have served
(R250, R251, R263). None while an answer is awaited. -/
def State.invChunk (s : State) (k : Chunk) : Option State :=
  k.writes.foldl (fun (s : Option State) b => s.bind (·.sliceInv (lineDie b.line) b.line)) (some s)

/-- One buffered line performed at the home at logical time t, as a store of its words there. Without a way for the line
it is memory's time that rises. -/
def State.commitWrite (s : State) (t : Nat) (b : Buffered) : State :=
  let d := lineDie b.line
  let s := match tabGet (s.die d).home b.line with
    | some e => s.setDir (.slice d) b.line { e with wts := t, rts := t }.settle
    | none => s.raiseMts d b.line t
  (s.putHbm b.line b.data b.bytes t).ringBells b.line b.bytes

/-- The chunk fails: its reservations are released, and it is tried again, or after the fourth attempt run in serial mode
(R263, R265). -/
def State.failChunk (s : State) (c : CoreId) (x : CtxId) : State :=
  let k := (s.ctx c x).chunk
  let s := (s.releaseSerial c x).undoLog k.log
  let y := s.entryAgain c x
  s.mapCtx c x (fun _ => { y with chunk := { Chunk.none with
    active := true, serial := 4 ≤ k.attempts + 1, t0 := (s.core c).lclk, attempts := k.attempts + 1,
    manyDies := k.spansDies } })

/-- A buffered line of a page whose key slot is not loaded is discarded, and its STFs reported (R284). -/
def State.discardWrite (s : State) (c : CoreId) (y : Ctx) (b : Buffered) : State :=
  b.stfs.foldl (fun s a => s.report (dieOf c) (coreEntry c y ⟨33, a, kindWrite, polCode .thru⟩)) s

/-- The chunk commits at logical time t: no part of it is seen before. Its stale arrivals are reported, its reservations and
its message are released (R126, R263, R340). -/
def State.commitChunk (s : State) (c : CoreId) (x : CtxId) (t : Nat) : State :=
  let y := s.ctx c x
  let k := y.chunk
  let s := k.writes.foldl (fun s b => if s.keyLoaded b.key then s.commitWrite t b else s.discardWrite c y b) s
  let s := k.reads.foldl (fun s p => s.readAt p.1 t) s
  let s := k.stales.foldl (fun s p =>
    s.reportStale (dieOf c) p.1 p.2 c.val ((y.act.map (·.slot.val)).getD 0) 0 0) s
  let s := s.releaseSerial c x
  let s := match y.act with | some a => s.releaseMsg c a | none => s
  (s.raiseClk c t).mapCtx c x (fun y => { y with chunk := { Chunk.none with committing := true, held := k.held } })

/-- SPINEL COMMIT: one move of a commit. The dies reserve in ascending order; when all have, the reads are looked at once
more, tracked copies of what is written are invalidated, and the chunk is performed (assumption 85). Nothing happens while a token, words on their way, TIMELOST or physical
time holds it up. -/
def execSpinelCommit (s : State) : Result :=
  withCtx s (fun c x =>
    let k := (s.ctx c x).chunk
    let n : SlotId := ((s.ctx c x).act.map (·.slot)).getD 0
    if !(k.active && k.committing && !k.serial) || s.tokenHeld c n (dieOf c) then .next s
    else
      match k.dies.find? (fun d => !k.reserved.contains d.val) with
      | some d =>
        let on (l : Nat) : Bool := lineDie l == d
        if s.tokenHeld c n d then .next s
        else if (s.commitsOn c x d).any k.meets then .next (s.failChunk c x)
        else
          match s.settleChunk k on with
          | none => .next (s.askBack k on)
          | some t =>
            if t.readsStale k on then .next (t.failChunk c x)
            else .next ((t.reserveChunk c x n d).getD (s.askBack k on))
      | none =>
        match (s.settleChunk k (fun _ => true)).bind (·.invChunk k) with
        | none => .next (s.askBack k (fun _ => true))
        | some s =>
          if s.readsStale k (fun _ => true) then .next (s.failChunk c x)
          else
            let rts := k.writes.foldl (fun t b => max t ((s.dir (.slice (lineDie b.line)) b.line).rts + 1)) 0
            let t := max (max (s.lclkNow c) k.t0) rts
            stepIf s (s.timeCame t && (s.core c).timelost.isNone) (s.commitChunk c x t))

/-- Held work sent in program order as far as there is room (R201, R263); what is left. -/
def State.sendHeld (s : State) (c : CoreId) (x : CtxId) (n : SlotId) : List Held → State × List Held
  | [] => (s, [])
  | .message m :: r =>
    let st := s.guardSend c m.domain m.dst
    if st ≠ 0 then
      (s.reportRefused (dieOf c) (s.slot c n).domain c.val n.val 0).sendHeld c x n r
    else
      match (s.core c).freeSend with
      | none => (s, .message m :: r)
      | some e =>
        (s.takeSend c e n { m with seq := (s.slot c n).seq, stamp := some (s.core c).lclk } false
          true).sendHeld c x n r
  | .copy w0 w1 w2 w3 :: r =>
    match (s.core c).freeCopy with
    | none => (s, .copy w0 w1 w2 w3 :: r)
    | some e => (s.enterCopy c x e (s.ctx c x).domain n w0 w1 w2 w3).1.sendHeld c x n r

/-- Has a committed chunk of the actor of a slot messages in flight, from any core it has been on (R201)? -/
def State.chunkSends (s : State) (c : CoreId) (n : SlotId) : Bool :=
  let a := (s.slot c n).actor
  s.cores.any (fun p => p.2.sends.toList.any (fun e => e.any (fun e =>
    e.chunk && (if a = 0 then p.1 == c.val && e.slot == n && e.actor == 0 else e.actor == a))))

/-! ### DONE (R202) -/

def execDone (s : State) : Result :=
  let y := s.here
  if !y.stack.isEmpty then illegalUse s .done
  else if !y.vIdle then waitFor s .vIdle
  else if s.hostOut then waitFor s .stall
  else if y.chunk.active && !y.chunk.serial then
    waitFor (s.mapHere (fun y => { y with chunk := { y.chunk with committing := true } })) .commit
  else
    match y.act with
    | none => .next s
    | some a =>
      let (s, rest) := s.sendHeld s.focus s.hereX a.slot y.chunk.held
      if !rest.isEmpty || s.chunkSends s.focus a.slot then
        waitFor (s.mapHere (fun y => { y with chunk := { y.chunk with held := rest } })) .commit
      else .next (s.endActivation s.focus s.hereX false)

end Sys2Proof.Machine
end

