-- ==== Sys2Proof/Machine/Gate.lean ====
section
/-! DEFINITION. Gates (R206 to R220): the descriptor and its cache, GCALL, GRET and GINFO. -/

namespace Sys2Proof.Machine

/-! ### Descriptors (R206, R207) -/

def gateEntryPc (d : BitVec 512) : Word := word (bitsOf d 55 2 * 4)
def gateCallee (d : BitVec 512) : BitVec 16 := d.extractLsb' 64 16
def gateRevoked (d : BitVec 512) : Bool := bitOf d 83
def gateAny (d : BitVec 512) : Bool := bitOf d 84
def gateNs (d : BitVec 512) : Nat := bitsOf d 88 85
def gateNv (d : BitVec 512) : Nat := bitsOf d 91 89
def gateMinBudget (d : BitVec 512) : Nat := bitsOf d 127 96
def gateTrapv (d : BitVec 512) : Word := word (bitsOf d 183 130 * 4)

/-- Is a domain among CALLERS? 0xFFFF marks an unused entry. -/
def gateCaller (d : BitVec 512) (c : BitVec 16) : Bool :=
  c != 0xFFFF && (List.range 8).any (fun i => bitsOf d (271 + 16 * i) (256 + 16 * i) == c.toNat)

/-- Does a descriptor break R207: a reserved field, ENTRY 0, CALLEE 0xFFFF, NS or NV out of range? -/
def gateBroken (d : BitVec 512) : Bool :=
  bitsOf d 1 0 != 0 || bitsOf d 63 56 != 0 || bitsOf d 82 80 != 0 || bitsOf d 95 92 != 0 ||
  bitsOf d 129 128 != 0 || bitsOf d 255 184 != 0 || bitsOf d 511 384 != 0 ||
  bitsOf d 55 2 == 0 || gateCallee d == 0xFFFF || 8 < gateNs d || 4 < gateNv d

/-- A descriptor used: it is the most recently used of the cache. -/
def Guard.useGate (g : Guard) (id : Nat) : Guard :=
  match g.gates.find? (·.id == id) with
  | none => g
  | some e => { g with gates := e :: g.gates.filter (·.id != id) }

/-- A descriptor cached: the least recently used of 64 is dropped. -/
def Guard.cacheGate (g : Guard) (id : Nat) (d : BitVec 512) : Guard :=
  { g with gates := { id, desc := d } :: (g.gates.filter (·.id != id)).take 63 }

/-- GATE DESCRIPTOR FETCH: the descriptor a context waits for is read from the gate table. -/
def execGateDescriptorFetch (s : State) : Result :=
  withCtx s (fun c x =>
    match (s.ctx c x).wait with
    | .gate id =>
      let d := BitVec.ofNat 512 (leNat (s.kernelRead c (s.gateBase + 64 * id) 64))
      .next ((s.mapCore c (fun k => { k with guard := k.guard.cacheGate id d })).mapCtx c x
        (fun y => { y with wait := .run }))
    | _ => .next s)

/-! ### GCALL (R209 to R211) -/

/-- The registers in the callee at entry (R211). -/
def Ctx.enterGate (y : Ctx) (d : BitVec 512) (l : Level) : Ctx :=
  let ns := gateNs d
  let nv := gateNv d
  { y with
    stack := l :: y.stack, domain := gateCallee d, pc := gateEntryPc d,
    regs := Vector.ofFn (fun i => if 16 ≤ i.val && i.val < 16 + ns then y.regs[i] else 0),
    vregs := Vector.ofFn (fun i => if 24 ≤ i.val && i.val < 24 + nv then y.vregs[i] else 0),
    kregs := kregsZero, queues := Vector.replicate 8 [], loops := .zero, tloops := .zero,
    tvec := gateTrapv d, tpc := 0, tcause := 0, tval := 0, tslot := 0, fflags := 0,
    lease := leaseReset, batches := .empty, wait := .gateMove }

/-- The level record of a level in the actor's save area, in the form of a frame (R211). -/
def State.writeLevel (s : State) (c : CoreId) (y : Ctx) (level : Nat) : State :=
  let v : Saved :=
    { ctx := y, heldCtx := 0, reason := 0, cause := 0, waits := .preempt, faddr := 0, finfo := 0,
      lclk := (s.core c).lclk, time := s.quartz, order := 0, resumable := false }
  s.kernelWrite c (y.frame.toNat + 6144 * level) (frameBytes v)

/-- Can the level record of a GCALL not be written (R342, R344)? -/
def State.levelFails (s : State) : Bool :=
  s.frameFails s.focus (s.here.frame.toNat + 6144 * (s.here.stack.length + 1))

/-- The gate that a GCALL names, and its length; none when the upper part of its register is not zero. -/
def gateNamed (g : GateName) (x : Ctx) : Option Nat × Nat :=
  match g with
  | .imm16 v => (some v.toNat, 8)
  | .imm32 v => (some (v.toNat % 65536), 12)
  | .reg n => (if (x.reg n).toNat < 65536 then some (x.reg n).toNat else none, 8)

/-- The status of a GCALL that fails its checks, or 0 (R210). -/
def State.gateStatus (s : State) (d : BitVec 512) : Int :=
  let y := s.here
  if gateBroken d then -6
  else if gateRevoked d then -1
  else if !gateAny d && !gateCaller d y.domain then -3
  else if 32 ≤ y.stack.length then -5
  else if (s.hereCore.budgetWord y).toNat < gateMinBudget d then -4
  else 0

/-- GCALL fails: s23 has the status, and the next instruction follows. -/
def gcallFails (s : State) (len : Nat) (st : Int) : Result :=
  done (s.mapHere (·.setReg 23 (wordInt st))) len

/-- One more open level of a gate (R208). -/
def Guard.enter (g : Guard) (id : Nat) : Guard :=
  { g with gateCounts := tabSet g.gateCounts id ((tabGet g.gateCounts id).getD 0 + 1) }

/-- GCALL passes: one step into the callee (R211). -/
def State.enterGate (s : State) (id len : Nat) (d : BitVec 512) : State :=
  let y := s.here
  let c := s.focus
  let l : Level :=
    { gate := BitVec.ofNat 16 id, caller := y.domain, callee := gateCallee d,
      ret := y.pc + word len, tbase := word s.quartz, budget := s.hereCore.budgetWord y,
      ns := gateNs d, nv := gateNv d, saved := y.record }
  let s := s.writeLevel c y (y.stack.length + 1)
  let s := s.mapCore c (fun k => { k with guard := k.guard.enter id })
  s.mapHere (fun y => y.enterGate d l)

def execGcall (g : GateName) (s : State) : Result :=
  noChunk s
    (if !s.here.vIdle then waitFor s .vIdle
     else
       match gateNamed g s.here with
       | (none, len) => gcallFails s len (-6)
       | (some id, len) =>
         if id = 0 || id = 0xFFFF then gcallFails s len (-6)
         else
           match s.hereCore.guard.gates.find? (·.id == id) with
           | none => waitFor s (.gate id)
           | some e =>
             let s := s.mapCore s.focus (fun k => { k with guard := k.guard.useGate id })
             let st := s.gateStatus e.desc
             if st ≠ 0 then gcallFails s len st
             else if s.levelFails then .next (s.frameLost s.focus s.hereX)
             else .next (s.enterGate id len e.desc))

/-! ### GRET (R215, R219) -/

def execGret (s : State) : Result :=
  let y := s.here
  match y.stack with
  | [] => illegalUse s .gret
  | l :: r =>
    if !y.vIdle then waitFor s .vIdle
    else if s.killed s.focus l.caller || (y.graceEnd.isSome && l.caller == y.origin) then .next (s.terminate s.focus s.hereX)
    else
      let l := s.levelRecord s.focus y y.stack.length l
      .next ((s.mapCore s.focus (fun k => { k with guard := k.guard.leave [l] })).mapHere
        (fun y => { y.popLevel l r true 0 with wait := .gateMove }))

/-! ### GINFO (R216) -/

def execGinfo (rd : Fin 32) (a : Opnd) (w : Fin 4) (imm : Imm) (s : State) : Result :=
  withOperands [a] (immS imm) s (fun vs s =>
    let y := s.here
    let level := (nth vs 0).toNat
    let depth := y.stack.length
    let v : Word :=
      if level = 0 || depth < level then 0
      else
        match y.stack[depth - level]? with
        | none => 0
        | some l =>
          if w.val = 1 && y.domain ≠ l.caller then 0 else ginfoWord l (8 ≤ depth - level) w.val
    done (s.mapHere (·.setReg rd v)) (lenImm imm))

end Sys2Proof.Machine
end

