-- ==== Sys2Proof/Machine/Fault.lean ====
section
/-! DEFINITION. Rings and the reporting port (R349 to R351), faults that wait for a token (R352), the
resolution of an activation's fault (R353), kills of a context (R218), and what has been ordered of an
activation and is taken at its next instruction boundary (R135, R343, R347, R355, R356, R385). -/

namespace Sys2Proof.Machine

/-! ### The reporting port (R349, R351) -/

/-- A ring as the hardware knows it; one that has never been used is as Sartar set it up. -/
def State.ringOf (s : State) (n : Nat) : Ring :=
  (tabGet s.rings n).getD
    (let d := Config.ringDescriptor n
     { addr := (Config.ringAddr n).toNat, base := bitsOf d 63 0, logn := bitsOf d 68 64,
       weight := max 1 (bitsOf d 79 72), lost := bitsOf d 111 80, widx := bitsOf d 159 128,
       doorbell := word (bitsOf d 255 192), bell := false, told := bitsOf d 159 128 })

def State.setRing (s : State) (n : Nat) (r : Ring) : State := { s with rings := tabSet s.rings n r }

/-- The die whose kernel memory a ring lies in: its own for a retryable ring, die 0 for the others. -/
def ringDie (n : Nat) : DieId := if n < 8 then dieNum n else 0

/-- RIDX, as its consumer has published it. -/
def State.ridx (s : State) (n : Nat) (r : Ring) : Nat :=
  leNat (s.kernelRead (kernelCore (ringDie n)) (r.addr + 20) 4)

def State.ringFull (s : State) (n : Nat) (r : Ring) : Bool :=
  (r.widx + 2 ^ 32 - s.ridx n r) % 2 ^ 32 == 2 ^ r.logn

/-- The first entry that waits for a ring, and the rest. -/
def takeFirst (n : Nat) : List RingWait → Option (RingWait × List RingWait)
  | [] => none
  | w :: r =>
    if w.ring = n then some (w, r)
    else (takeFirst n r).map (fun p => (p.1, w :: p.2))

/-- Can the port go on with a ring: an entry waits, and a full retryable ring does not hold it? -/
def State.ringReady (s : State) (n : Nat) : Bool :=
  s.ringWaits.any (·.ring == n) && !(n < 8 && s.ringFull n (s.ringOf n))

/-- One entry written, or dropped at a full terminal or VF ring and counted in LOST. -/
def State.writeEntry (s : State) (n : Nat) : State :=
  match takeFirst n s.ringWaits with
  | none => s
  | some (w, rest) =>
    let r := s.ringOf n
    let c := kernelCore (ringDie n)
    let s := { s with ringWaits := rest, portRing := n, portDone := s.portDone + 1 }
    if s.ringFull n r then
      let lost := min (r.lost + 1) (2 ^ 32 - 1)
      (s.kernelWrite c (r.addr + 10) (leBytes 4 lost)).setRing n { r with lost }
    else
      let s := s.kernelWrite c (r.base + r.widx % 2 ^ r.logn * 32) (leBytes 32 w.entry.toNat)
      let next := (r.widx + 1) % 2 ^ 32
      let s := s.kernelWrite c (r.addr + 16) (leBytes 4 next)
      let t := bitsOf w.entry 191 176
      let s := if n < 8 && t ≠ 0 then
        s.mapDie (dieNum n) (fun d => { d with faultTokens := d.faultTokens.map (fun p =>
          if p.1 = t then (p.1, { p.2 with index := r.widx }) else p) }) else s
      s.setRing n { r with widx := next }

/-- Is a doorbell of a ring owed? One at most is in flight. -/
def Ring.owes (r : Ring) : Bool := !r.bell && r.doorbell != 0 && r.told != r.widx

/-- The doorbell of a ring (R349). -/
def State.ringBell (s : State) (n : Nat) : State :=
  let r := s.ringOf n
  let m := { frontMsg 0 r.doorbell 0x52 [word r.widx] 0 with src := .ring n }
  (s.setRing n { r with bell := true, told := r.widx }).post agentPackage m

/-- The next ring of the round after the one the port stands at. -/
def State.nextRing (s : State) : Option Nat :=
  let ready := (distinct (s.ringWaits.map (·.ring))).filter s.ringReady
  let least (l : List Nat) : Option Nat :=
    match l with
    | [] => none
    | a :: r => some (r.foldl min a)
  least (ready.filter (fun n => s.portRing < n)) <|> least ready

/-- RING ENTRY WRITE: one move of the port. It stays with a ring for WEIGHT entries, tells its consumer,
and goes on to the next. -/
def execRingEntryWrite (s : State) : Result :=
  let r := s.ringOf s.portRing
  if s.ringReady s.portRing && s.portDone < r.weight then .next (s.writeEntry s.portRing)
  else if (tabGet s.rings s.portRing).isSome && r.owes then .next (s.ringBell s.portRing)
  else
    match s.nextRing with
    | some n => .next ({ s with portDone := 0 }.writeEntry n)
    | none =>
      match s.rings.find? (fun p => p.2.owes) with
      | some p => .next (s.ringBell p.1)
      | none => .next s

/-! ### Kills of one context (R218, R219) -/

/-- A kill taken by a bound activation at its boundary. -/
def State.killCtx (s : State) (c : CoreId) (x : CtxId) (domain : BitVec 16) : State :=
  let dead := s.dead c domain
  let grace (s : State) : State :=
    let y := s.ctx c x
    match y.act, dead y.origin && !y.stack.isEmpty with
    | some a, true => s.giveGrace c a.slot
    | _, _ => s
  match killEnd dead (s.ctx c x) with
  | .none => s
  | .grace => grace s
  | .terminate => s.terminate c x
  | .unwind n =>
    let s := s.unwind c x n (BitVec.ofInt 64 (-2))
    let y := s.ctx c x
    if dead y.origin && y.stack.isEmpty then s.terminate c x else grace s

/-- Would a kill end anything of an activation? -/
def killTouches (dead : BitVec 16 → Bool) (y : Ctx) : Bool :=
  match killEnd dead y with
  | .none => false
  | _ => true

/-! ### What is taken at a boundary -/

/-- The order in which several things ordered of one activation are taken (assumption 94). -/
def Stop.rank : Stop → Nat
  | .kill _ => 0
  | .fault _ _ _ _ => 1
  | .tdisp => 2
  | .evict => 3
  | .preempt _ => 4
  | .budget => 5

def firstStop : List Stop → Option Stop
  | [] => none
  | a :: r => some (r.foldl (fun b x => if x.rank < b.rank then x else b) a)

/-- May a context be stopped here: between instructions, never between a branch and its slot unless a
fault stands in the slot, with the V pipe stopped (R99, R347)? -/
def Ctx.atBoundary (y : Ctx) (t : Stop) : Bool :=
  y.vStopped && (y.slot.isNone || (match t with | .fault _ _ _ _ => true | _ => false))

/-- One thing ordered of an activation, taken. What else was ordered of one that is saved meets it there. -/
def State.takeStop (s : State) (c : CoreId) (x : CtxId) (t : Stop) : State :=
  let y := s.ctx c x
  let s := s.mapCtx c x (fun y => { y with stops := y.stops.filter (· != t), wait := .run })
  match t with
  | .kill d => s.killCtx c x d
  | .fault cause addr kind pol => s.deliver c x ⟨cause, addr, kind, pol⟩
  | .preempt r => (s.suspend c x 2 0 .preempt 0 0).sysReply c r 0 0
  | .budget => if (s.core c).exhausted y.payer then s.suspend c x 3 0 .budget 0 0 else s
  | .evict => s.suspend c x 4 0 .evict 0 0
  | .tdisp => s.suspend c x 6 0 .tdisp 0 0

/-- What has been ordered of a context, if it can be taken now. -/
def State.dueStop (s : State) (c : CoreId) (x : CtxId) : Option Stop :=
  match firstStop (s.ctx c x).stops with
  | some t => if (s.ctx c x).act.isSome && (s.ctx c x).atBoundary t then some t else none
  | none => none

/-! ### The resolution of an activation's fault (R353) -/

/-- RETRY: the activation is resumable. An evicted actor's image says so too (R364). -/
def State.retrySlot (s : State) (c : CoreId) (n : SlotId) : State :=
  (s.mapSlot c n (fun sl => { sl with
    saved := sl.saved.map (fun v => { v with resumable := true, waits := .untaken }) })).imageHead c n (· ||| 0x80)

/-- FAIL: a terminal fault with the cause given, of an activation that is suspended or in an image. A serial run gives back
its reservations and token (R267, R363). -/
def State.failSlot (s : State) (c : CoreId) (n : SlotId) (cause : Nat) : State :=
  match (s.slot c n).saved with
  | none => s
  | some v =>
    let f : FaultInfo := ⟨cause, v.faddr, bitsOf v.finfo 17 16, bitsOf v.finfo 19 18⟩
    let s := s.report (dieOf c) (coreEntry c v.ctx f)
    let s := s.abandonSessions (fun _ => s.openedBy c n)
    let s := s.freeSerial c n
    if v.ctx.stack.isEmpty then
      let w := { v with reason := 5, cause }
      let s := s.kernelWrite c v.ctx.frame.toNat (frameBytes w)
      match v.ctx.act with
      | none => s
      | some a =>
        let s := if a.drain then s.drainStep c a.msg true else s
        s.leaveSlot c a
    else
      let s := s.mapSlot c n (fun sl => { sl with saved := some { v with ctx := { v.ctx with
        chunk := { v.ctx.chunk with dieToken := false, deviceToken := false } } } })
      s.unwindSaved c n 1 (BitVec.ofInt 64 (-7))

end Sys2Proof.Machine
end

