-- ==== Sys2Proof/Machine/Engine.lean ====
section
/-! DEFINITION. How an engine reaches memory for a request (R224, R255, R294, R299): translation under the
request's domain with its pins (R360), reads and writes at the homes, at the host and at a peer, its
faults (R343, R352); the completion that a request names (R300, R304, R315); barrier waits and fence-from
masks of commands (R277, R305, R310). -/

namespace Sys2Proof.Machine

/-! ### A request -/

/-- An engine's request as it accesses memory: who it is checked as, the core the engine stands at, how
the request is known to the miss table, and its path. -/
structure Eng where
  who : Who
  at_ : CoreId
  id : MissWaiter
  path : PathClass
  unit : Nat

def Eng.cls (q : Eng) : Nat := pathCode q.path

/-- What comes of a read: the bytes; words still on their way; a miss; or a cause of R342. -/
inductive Reach where
  | got (s : State) (bs : List Byte)
  | wait (s : State)
  | miss (s : State)
  | fault (cause : Nat) (addr : Word) (kind : Nat)

/-- Translation pins: 64 KiB units with their entries (R360). -/
abbrev Pins := List (Nat × TlbEntry)

/-- A range cut at 64 KiB boundaries. -/
def pieces (addr : Word) (n : Nat) : List (Word × Nat) :=
  let a := addr.toNat
  (List.range ((a % 65536 + n + 65535) / 65536)).map (fun i =>
    let lo := if i = 0 then a else (a / 65536 + i) * 65536
    (word lo, min ((a / 65536 + i + 1) * 65536) (a + n) - lo))

/-- Where an engine's access lands: under a pin it holds, else through the cluster TLB. -/
def State.engPlace (s : State) (q : Eng) (pins : Pins) (addr : Word) (size kind : Nat) : Placed :=
  match pins.find? (·.1 == pageOf addr) with
  | some (_, e) => s.placeEntry q.who e addr.toNat size kind .thru
  | none => s.placeIn (clusterOf q.at_) q.who addr size kind .thru

/-- A miss of an engine is recorded; whether the table had room. -/
def State.engMiss (s : State) (q : Eng) (addr : Word) (kind : Nat) : State :=
  s.recordMissAt q.at_ q.who addr kind .thru q.path q.id

/-- Does the miss table hold a request? -/
def State.missing (s : State) (q : Eng) : Bool :=
  (s.cluster (clusterOf q.at_)).misses.any (fun p => p.2.waiters.any (·.who == q.id))

/-! ### Lines asked for: at a home slice, the host's and a peer's (R255, R268, R269, R382) -/

/-- The lines of a range with their words. -/
def farLines (home : HomeKind) (pa n : Nat) : List (Nat × BitVec 16) :=
  (List.range ((pa % 128 + n + 127) / 128)).map (fun i =>
    let lo := if i = 0 then pa % 128 else 0
    let hi := min 128 (pa + n - (pa / 128 + i) * 128)
    (placeLine pa home + i, wordMask lo (hi - lo)))

/-- A request to a peer for an engine. -/
def State.engPeer (s : State) (q : Eng) (addr size : Nat) (write : Option Word) (reader writer : Option Nat) :
    State :=
  let id := s.peerCount
  let r : PeerRequest :=
    { core := q.at_, ctx := none, slot := q.who.slot, domain := q.who.domain, addr, size, write,
      posted := none, reader, writer, since := s.quartz }
  State.tell { s with peerCount := id + 1, peers := tabSet s.peers id r } (.peer id r)

/-- The lowest word of a mask. -/
def firstWord (m : BitVec 16) : Nat := ((List.range 16).find? (fun w => m.getLsbD w)).getD 0

/-- The words of a line asked for: of a host line at the die's remote-data cache; else a word at a time at its home
(ERD, R255) or at the peer, but for a block of instructions, which is fetched as a unit (R35). -/
def State.farAsk (s : State) (q : Eng) (home : HomeKind) (line : Nat) (m : BitVec 16) : State :=
  let id := s.farCount
  let f : FarRead := { who := q.id, line, need := m, got := 0, data := 0, denied := false }
  let words : List (BitVec 16) := if q.path = .core then [m]
    else ((List.range 16).filter (m.getLsbD ·)).map (fun w => BitVec.ofNat 16 (2 ^ w))
  let s := { s with farCount := id + 1, farReads := tabSet s.farReads id f }
  match home with
  | .peer => words.foldl (fun s w =>
      s.engPeer q ((line - 2 * hostBase) * 128 + 8 * firstWord w) (8 * maskCount w) none (some id) none) s
  | .thisDie | .otherDie => words.foldl (fun s w =>
      s.send (agentEngine q.cls q.unit) (agentSlice line) .erd (.proto { Proto.empty with
        unit := .slice (lineDie line), reqr := 265, line, mask := w, kind := .erd, waiter := .reader id })) s
  | .host =>
    let u := HomeUnit.rdc (dieOf q.at_)
    s.send (agentEngine q.cls q.unit) (agentRdc (dieOf q.at_)) .rdu (.proto { Proto.empty with
      unit := u, line, mask := m, kind := .rdu, waiter := .reader id })

/-- A range: its bytes once every word has come. -/
def State.farRead (s : State) (q : Eng) (home : HomeKind) (addr : Word) (pa n : Nat) : Reach :=
  let parts := farLines home pa n
  let find (p : Nat × BitVec 16) : Option FarRead :=
    (s.farReads.find? (fun f => f.2.who == q.id && f.2.line == p.1 && f.2.need &&& p.2 == p.2)).map (·.2)
  if parts.any (fun p => (find p).any (·.denied)) then .fault causeProt addr kindRead
  else if parts.all (fun p => (find p).any (fun f => f.got &&& p.2 == p.2)) then
    let all := parts.flatMap (fun p => leBytes 128 (((find p).map (·.data.toNat)).getD 0))
    .got s ((all.drop (pa % 128)).take n)
  else
    .wait (parts.foldl (fun s p => if (find p).isSome then s else s.farAsk q home p.1 p.2) s)

/-- What a request had asked for from afar, and of the translation service, is forgotten. -/
def State.farClear (s : State) (q : Eng) : State :=
  s.leaveMisses (clusterOf q.at_) q.id

/-- A far write leaves on the request's path (R278, R382). -/
def State.farWrite (s : State) (q : Eng) (home : HomeKind) (addr : Word) (pa : Nat) (bs : List Byte) : State :=
  let id := s.farCount
  let parts := (List.range ((pa % 128 + bs.length + 127) / 128)).map (fun i =>
    let lo := if i = 0 then pa % 128 else 0
    let hi := min 128 (pa + bs.length - (pa / 128 + i) * 128)
    (placeLine pa home + i, lo, hi - lo, (bs.drop ((pa / 128 + i) * 128 + lo - pa)).take (hi - lo)))
  let words := (wordParts pa bs.length).map (fun w => (w.1, w.2, (bs.drop (w.1 - pa)).take w.2))
  let left := if home = .peer then words.length else parts.length
  let f : FarWrite := { who := q.id, domain := q.who.domain, addr, cls := q.cls, num := s.ewCount, left, denied := false }
  let s := { s with farCount := id + 1, ewCount := s.ewCount + 1,
                    farWrites := if left = 0 then s.farWrites else tabSet s.farWrites id f }
  if home = .peer then
    words.foldl (fun s p => s.engPeer q p.1 p.2.1 (some (leWord p.2.2)) none (some id)) s
  else
    let u := HomeUnit.rdc (dieOf q.at_)
    parts.foldl (fun s p =>
      s.send (agentEngine q.cls q.unit) (agentRdc (dieOf q.at_)) .wt (.proto { Proto.empty with
        unit := u, line := p.1, mask := wordMask p.2.1 p.2.2.1,
        data := lineOf p.2.1 p.2.2.1 (leNat p.2.2.2), wmask := byteMask p.2.1 p.2.2.1, kind := .wt,
        waiter := .writer id })) s

/-- Are far writes of a request still out? -/
def State.farPending (s : State) (q : Eng) : Bool :=
  s.farWrites.any (fun f => f.2.who == q.id && f.2.left != 0)

/-- The address of a far write of a request that was denied. -/
def State.farRefused (s : State) (q : Eng) : Option Word :=
  (s.farWrites.find? (fun f => f.2.who == q.id && f.2.denied)).map (·.2.addr)

/-- The request no longer asks after its far writes. -/
def State.farForget (s : State) (q : Eng) : State :=
  { s with farWrites := s.farWrites.filter (fun f => f.2.who != q.id || (f.2.left != 0 && !f.2.denied)) }

/-! ### Reading and writing -/

/-- The bytes of a place (ERD, R255), in clear whatever key slot they were written under (assumption 102). A block of instructions is read at once where it can be. -/
def State.readPlace (s : State) (q : Eng) (addr : Word) (p : Place) (n : Nat) : Reach :=
  match p with
  | .spad t off => .got (s.spadScrub t off n) ((s.core t).spad.bytes off n)
  | .operand _ => .fault causeProt addr kindRead
  | .memory pa .host _ _ => s.farRead q .host addr pa n
  | .memory pa .peer _ _ => s.farRead q .peer addr pa n
  | .memory pa home _ _ =>
    match if q.path = .core && !s.lineHeld (pa / 128) false then s.readHome pa n else none with
    | some (s, bs) => .got s bs
    | none => s.farRead q home addr pa n

/-- The bytes of a range read for a request, piece by piece. -/
def State.readPieces (s : State) (q : Eng) (pins : Pins) : List (Word × Nat) → Reach
  | [] => .got s []
  | (a, n) :: r =>
    match s.engPlace q pins a n kindRead with
    | .fault c => .fault c a kindRead
    | .miss => .miss (s.engMiss q a kindRead)
    | .at p _ =>
      match s.readPlace q a p n with
      | .got s bs =>
        match s.readPieces q pins r with
        | .got s cs => .got s (bs ++ cs)
        | o => o
      | o => o

def State.engRead (s : State) (q : Eng) (pins : Pins) (addr : Word) (n : Nat) : Reach :=
  s.readPieces q pins (pieces addr n)

/-- Where the pieces of a range lie, every piece checked. -/
inductive Dest where
  | ok (ps : List (Place × Nat))
  | miss (s : State)
  | fault (cause : Nat) (addr : Word) (kind : Nat)

def State.placePieces (s : State) (q : Eng) (pins : Pins) (kind : Nat) : List (Word × Nat) → Dest
  | [] => .ok []
  | (a, n) :: r =>
    match s.engPlace q pins a n kind with
    | .fault c => .fault c a kind
    | .miss => .miss (s.engMiss q a kind)
    | .at p _ =>
      match s.placePieces q pins kind r with
      | .ok ps => .ok ((p, n) :: ps)
      | o => o

def State.engDest (s : State) (q : Eng) (pins : Pins) (addr : Word) (n : Nat) : Dest :=
  s.placePieces q pins kindWrite (pieces addr n)

/-- Bytes written at an address and its place, on the request's path. -/
def State.writePlace (s : State) (q : Eng) (addr : Word) (p : Place) (bs : List Byte) : State :=
  match p with
  | .spad t off => s.engineStore q.cls q.unit t false off bs
  | .operand off => s.engineStore q.cls q.unit q.who.core true off bs
  | .memory pa .host _ _ => s.farWrite q .host addr pa bs
  | .memory pa .peer _ _ => s.farWrite q .peer addr pa bs
  | .memory pa _ _ _ => s.engineWrite q.cls q.unit pa bs

def State.engWrite (s : State) (q : Eng) (addr : Word) : List (Place × Nat) → List Byte → State
  | [], _ => s
  | (p, n) :: r, bs => (s.writePlace q addr p (bs.take n)).engWrite q (addr + word n) r (bs.drop n)

/-! ### Faults (R301, R343, R350) -/

/-- The status of R301 for a cause of R342. -/
def statusOf (cause : Nat) : Nat :=
  if cause = causeSpperm then 2 else if cause = causePage || cause = causeDupw then 4
  else if cause = causeMcheck then 5 else 1

/-- The entry of an engine's fault or report: the issuing actor, and the path. -/
def Eng.entry (q : Eng) (cause status : Nat) (addr : Word) (kind detail : Nat) : Entry :=
  { detail, addr, domain := q.who.domain, core := q.who.core.val, slot := q.who.slot.val, path := q.cls,
    kind, status, cause }

/-- A request of a copy or gather that fails is reported, by the statuses of R343, with the access that failed. -/
def State.reportFail (s : State) (q : Eng) (status : Nat) (addr : Word) (kind detail : Nat) : State :=
  if [1, 2, 3, 4, 5, 9].contains status then s.report (dieOf q.at_) (q.entry 37 status addr kind detail) else s

/-! ### Completions (R297, R300, R304, R315) -/

/-- The completion that a request names: its w2 and w3. -/
structure Target where
  w2 : Word
  w3 : Word

def Target.flag (t : Target) : Bool := bitOf t.w2 32
def Target.arrive (t : Target) : Bool := bitOf t.w2 33
def Target.value (t : Target) : Nat := bitsOf t.w2 63 40

/-- The arrival leaves for its barrier's home (R304). -/
def State.sendArrival (s : State) (q : Eng) (t : Target) (pa : Nat) (poison : Bool) (detail : Nat)
    (w : Waiter) : State :=
  let op := HomeOp.arrive (pa % 128) (BitVec.ofNat 16 t.value) poison t.w3 q.who.domain q.who.core.val
    q.who.slot.val q.cls detail
  let line := pa / 128
  s.send (agentEngine q.cls q.unit) (agentSlice line) .barrierArrival (.proto { Proto.empty with
    unit := .slice (lineDie line), reqr := 265, line, mask := wordMask (pa % 128) 16, op := some op,
    kind := .amo, waiter := w })

/-- The write of a flag word, 8 bytes in a scratchpad; none when it cannot be written. -/
def State.writeFlag (s : State) (q : Eng) (t : Target) (v : Word) : Option State :=
  match s.placeIn (clusterOf q.at_) q.who t.w3 8 kindWrite .thru with
  | .at (.spad c off) _ => some (s.spadWrite c off (wordBytes v))
  | _ => none

/-- How a completion goes on: it is made, with the status the request ends with; the arrival is on its
way; it waits; or a retryable fault stands in its way. -/
inductive Finish where
  | ended (s : State) (status : Nat)
  | sent (s : State)
  | wait (s : State)
  | miss (s : State)
  | stopped (cause : Nat) (addr : Word) (kind : Nat)

/-- The completion of a request that has come to its end with a status (R300). A failed one writes the
failure flag or makes a poisoned arrival. A flag that cannot be written makes the status BADFLAG, and a barrier that cannot be
reached makes it PROT. -/
def State.complete (s : State) (q : Eng) (t : Target) (status : Nat) (flagStatus detail : Nat) (w : Waiter) :
    Finish :=
  if t.flag then
    let v : Word := if status = 0 then word t.value else word (2 ^ 63 + flagStatus * 2 ^ 48 + t.value)
    match s.writeFlag q t v with
    | some s => .ended s status
    | none =>
      let s := s.report (dieOf q.at_) (q.entry 34 0 t.w3 kindWrite detail)
      .ended s 8
  else if t.arrive then
    match s.engPlace q [] t.w3 16 kindRmw with
    | .at (.memory pa .thisDie _ _) _ | .at (.memory pa .otherDie _ _) _ =>
      .sent (s.sendArrival q t pa (status != 0) detail w)
    | .miss => .miss (s.engMiss q t.w3 kindRmw)
    | .fault c => if isRetryable c then .stopped c t.w3 kindRmw else .ended s 1
    | _ => .ended s 1
  else .ended s status

/-- The check of a completion target's layout, as the row of w3 says (R297, R329). -/
def Target.broken (t : Target) : Bool :=
  let a := t.w3.toNat
  let spad := (Config.lswBase ≤ a && a < Config.lswBase + Config.spadBytes) ||
    (Config.rswBase ≤ a && a < Config.rswBase + 2048 * Config.spadBytes)
  if t.flag && t.arrive then true
  else if t.flag then a % 8 != 0 || !spad
  else if t.arrive then a % 16 != 0 || Config.opwBase ≤ a || bitsOf t.w2 63 56 != 0
  else t.w3 != 0

/-! ### Barrier waits and fence-from masks of commands (R277, R305, R310) -/

/-- The fence-from mask and the barrier of a command: dwords 0, 4 and 5. -/
def Command.fence (c : Command) : BitVec 6 := BitVec.ofNat 6 (bitsOf (c.dword 0) 13 9 * 2)
def Command.bar (c : Command) : Word := c.dword 4
def Command.gen (c : Command) : BitVec 16 := BitVec.ofNat 16 (bitsOf (c.dword 5) 15 0)
def Command.phase (c : Command) : BitVec 32 := BitVec.ofNat 32 (bitsOf (c.dword 5) 47 16)

/-- A command as someone who makes accesses: its sender (R224). -/
def Command.who (c : Command) : Who := { core := c.core, slot := c.slot, actor := c.actor, domain := c.domain, deep := true }

/-- A command as its queue takes it from its message. -/
def Command.ofMsg (m : Msg) (id : Nat) : Command :=
  { payload := m.payload, domain := m.domain, core := coreOf (bitsOf m.sender 35 25),
    slot := slotOf (bitsOf m.sender 24 20), actor := 0, id, wait := .fresh, markers := 0, started := false, arrived := 0 }

/-- A command of a message that arrives, with the actor that sent it (R224): the send unit knows it. -/
def State.command (s : State) (m : Msg) (id : Nat) : Command :=
  let c := Command.ofMsg m id
  { c with actor := match m.src with
      | .sendUnit f e => (((s.core f).sends[e]).map (·.actor)).getD (s.slot c.core c.slot).actor
      | _ => (s.slot c.core c.slot).actor }

/-- DETAIL of an entry about a command (R350). -/
def Command.detail (c : Command) (q : Eng) : Nat :=
  if q.path = .matrix then bitsOf (c.dword 1) 63 48 + c.opc * 2 ^ 16 else 0

/-- One move of a command towards the end of its barrier wait: its barrier is translated and its waiter
registered, then ends; a command that names no barrier is satisfied when it is accepted. Satisfied, the
fence markers are placed. A retryable fault of the translation makes it wait (R310), with a token; DETAIL names the command on
path M (R350). -/
def State.advance (s : State) (q : Eng) (c : Command) (w : BarWaiter) (tw : TokenWaiter) :
    State × Command :=
  let satisfied (t : Nat) : Command := { c with wait := .satisfied t, markers := s.ewCount }
  match c.wait with
  | .fresh =>
    if c.bar = 0 then (s, satisfied 0)
    else
      match s.engPlace q [] c.bar 16 kindRead with
      | .at (.memory pa .thisDie _ _) _ | .at (.memory pa .otherDie _ _) _ =>
        let t := (s.dir (.slice (lineDie (pa / 128))) (pa / 128)).wts
        (s.addWaiter { pa, gen := c.gen, phase := c.phase, who := w, judged := none } t,
          { c with wait := .waiting })
      | .miss =>
        let s := s.engMiss q c.bar kindRead
        (s, if s.missing q then { c with wait := .missing } else c)
      | .fault cause =>
        if isRetryable cause then
          let (s, n) := s.raiseToken q.at_ (q.entry cause 0 c.bar kindRead (c.detail q)) tw
          (s, { c with wait := .stopped n })
        else (s, { c with wait := .bad })
      | _ => (s, { c with wait := .bad })
  | .waiting =>
    match s.waiterEnd w with
    | none => (s, c)
    | some (0, t) => (s.dropWaiter w, satisfied t)
    | some (1, _) => (s.dropWaiter w, { c with wait := .stale })
    | some _ => (s.dropWaiter w, { c with wait := .poisoned })
  | _ => (s, c)

/-- The status a barrier wait has ended a command with, when it has. -/
def Command.cancelled (c : Command) : Option Nat :=
  match c.wait with
  | .stale => some 20
  | .poisoned => some 21
  | .bad => some 22
  | _ => none

/-- May a command start: its barrier satisfied, its markers back? -/
def State.commandReady (s : State) (c : Command) : Bool :=
  match c.wait with
  | .satisfied _ => s.markersBack c.fence c.markers
  | _ => false

/-- The logical time of the operation that satisfied a command's barrier (R374). -/
def Command.satisfiedAt (c : Command) : Nat :=
  match c.wait with
  | .satisfied t => t
  | _ => 0

/-- The checks common to every command's dwords 4 and 5. -/
def barrierBroken (m : Msg) : Bool :=
  m.dword 4 &&& 15 != 0 || bitsOf (m.dword 5) 63 48 != 0 || (m.dword 4 == 0 && m.dword 5 != 0)

/-- A number no command of a queue has. -/
def freshId (l : List Command) (also : List Nat) : Nat :=
  (l.map (·.id) ++ also).foldl (fun a n => max a (n + 1)) 1

end Sys2Proof.Machine
end

