-- ==== Sys2Proof/Machine/Copy.lean ====
section
/-! DEFINITION. The copy engine: CPY, CPYT, CSEAL, CWAIT and CSTAT (R297, R298, R302, R332 to R336), the
start, the sectors and the completion of a copy (R299 to R301, R359, R360), and arrivals of engines. -/

namespace Sys2Proof.Machine

/-! ### A request (R297, R298) -/

def Copy.rows (v : Copy) : Bool := bitOf v.w2 34
def Copy.pitch (v : Copy) : Nat := 2 ^ (6 + bitsOf v.w2 38 35)
def Copy.target (v : Copy) : Target := { w2 := v.w2, w3 := v.w3 }

/-- Is an address decoded by R221? -/
def isDecoded (a : Word) : Bool :=
  let n := a.toNat
  n < Config.opwBase + Config.opndBytes ||
  (Config.lswBase ≤ n && n < Config.lswBase + Config.spadBytes) ||
  (Config.rswBase ≤ n && n < Config.rswBase + 2048 * Config.spadBytes)

/-- Is a request refused at issue? -/
def copyBroken (w0 w1 w2 w3 : Word) : Bool :=
  let len := bitsOf w2 31 0
  let rows := bitOf w2 34
  Target.broken { w2, w3 } || bitOf w2 39 || (bitsOf w2 38 35 != 0 && !rows) ||
  (rows && (len % 64 != 0 || w0 &&& 63 != 0 || w1 &&& 63 != 0)) || inOperand w0 ||
  (inOperand w1 && Config.opwBase + Config.opndBytes < w1.toNat + len) ||
  !isDecoded w0 || !isDecoded w1

/-- A copy as it reaches memory: its issuing actor, under the domain recorded. -/
def Copy.eng (v : Copy) (c : CoreId) (e : Fin 128) : Eng :=
  { who := { core := c, slot := v.slot, actor := v.actor, domain := v.domain, deep := true }, at_ := c, id := .copy c e,
    path := .copy, unit := c.val }

/-- The handle of a copy (R333), as DETAIL names it. -/
def Copy.handle (v : Copy) (e : Fin 128) : Nat := v.num * 2 ^ 16 + e.val * 2 ^ 8

def stBadcopy : Word := 11

def copyOp (rd ra : Fin 32) (try1 : Bool) (s : State) : Result :=
  let y := s.here
  match y.memWait with
  | some w => waitFor s w
  | none =>
    let w (i : Nat) : Word := y.reg (Fin.ofNat 32 (ra.val + i))
    if s.hostOut then waitFor s .stall
    else if copyBroken (w 0) (w 1) (w 2) (w 3) then done (s.mapHere (·.setReg rd stBadcopy)) 8
    else if y.optimistic then
      holdWork s (.copy (w 0) (w 1) (w 2) (w 3)) (fun s => done (s.mapHere (·.setReg rd 0)) 8)
    else
      match s.hereCore.freeCopy, y.act with
      | some e, some a =>
        let (s, h) := s.enterCopy s.focus s.hereX e y.domain a.slot (w 0) (w 1) (w 2) (w 3)
        done (s.mapHere (·.setReg rd h)) 8
      | _, _ => if try1 then done (s.mapHere (·.setReg rd stBusy)) 8 else waitFor s .stall

def execCpy (rd ra : Fin 32) (s : State) : Result := copyOp rd ra false s
def execCpyt (rd ra : Fin 32) (s : State) : Result := copyOp rd ra true s

/-! ### Batches (R302) -/

/-- Is a copy of a number of a batch still in flight? -/
def State.copyLive (s : State) (n : Nat) : Bool :=
  (s.core (coreOf (n / 2 ^ 32))).copies.toList.any (fun v => v.any (fun v => v.num == n % 2 ^ 32 && v.state != .ended))

/-- Has a copy of a number of a batch failed? -/
def State.copyFailed (s : State) (n : Nat) : Bool :=
  (s.core (coreOf (n / 2 ^ 32))).failedCopies.contains (n % 2 ^ 32)

/-- The batches whose copies have all ended leave; those with a failed copy are counted. -/
def Batches.settle (b : Batches) (s : State) : Batches :=
  let done := b.unfinished.filter (fun l => !l.any (s.copyLive ·))
  let bad := done.filter (fun l => l.any (s.copyFailed ·))
  { b with unfinished := b.unfinished.filter (fun l => l.any (s.copyLive ·)), failed := b.failed + bad.length }

/-- The batches of an activation and of its levels settled; one that waited for a batch looks again. -/
def Ctx.settleBatches (y : Ctx) (s : State) : Ctx :=
  let t := { y with
    batches := y.batches.settle s,
    stack := y.stack.map (fun l => { l with saved := { l.saved with batches := l.saved.batches.settle s } }) }
  if t == y then y else if t.wait = .batch then { t with wait := .run } else t

/-- The copy batches that a frame and the level records after it hold follow those of the activation (R302, R345; assumption
110). -/
def State.keepBatches (s : State) (c : CoreId) (base : Nat) (framed : Bool) (old new : Ctx) : State :=
  let put (s : State) (a : Nat) (b d : Batches) : State :=
    if batchWord b = batchWord d then s else s.kernelWrite c (a + 0x460) (wordBytes (batchWord d))
  let s := if framed then put s base old.batches new.batches else s
  ((old.stack.zip new.stack).zipIdx).foldl (fun s p =>
    put s (base + 6144 * (new.stack.length - p.2)) p.1.1.saved.batches p.1.2.saved.batches) s

/-- Every activation learns of copies that have ended: batches travel with their activation (R302), so any core may
hold the one that issued them. -/
def State.settleBatches (s : State) : State :=
  let slot (sl : Slot) : Slot := match sl.saved with
    | some v => { sl with saved := some { v with ctx := v.ctx.settleBatches s } }
    | none => sl
  let t := { s with cores := tabMap (fun _ k => { k with
      ctxs := k.ctxs.map (fun y => if y.act.isSome then y.settleBatches s else y), slots := k.slots.map slot }) s.cores }
  s.cores.foldl (fun t p =>
    let c := coreOf p.1
    let t := ((List.range 4).map ctxOf).foldl (fun t x =>
      let y := p.2.ctxs[x]
      if y.act.isSome then t.keepBatches c y.frame.toNat false y (y.settleBatches s) else t) t
    ((List.range 16).map slotOf).foldl (fun t n =>
      match p.2.slots[n].saved with
      | some v => t.keepBatches c (s.frameAt c n v) true v.ctx (v.ctx.settleBatches s)
      | none => t) t) t

/-- A copy ends with a status: its entry keeps it, and its batch learns of it. -/
def State.endCopy (s : State) (c : CoreId) (e : Fin 128) (status : Nat) : State :=
  match (s.core c).copies[e] with
  | none => s
  | some v =>
    let q := v.eng c e
    let s := (s.farClear q).farForget q
    let ended : Copy := { v with state := .ended, status, srcPin := none, dstPin := none }
    let s := s.mapCore c (fun k => { k with
      copies := k.copies.set e (some ended), fifo := k.fifo.filter (· != e),
      failedCopies := if status = 0 then k.failedCopies else k.failedCopies ++ [v.num] })
    s.settleBatches.releaseClaims c

/-- Numbers of batches are those of the activation, from 1 (R302). -/
def execCseal (rd : Fin 32) (s : State) : Result :=
  let b := s.here.batches
  if b.openSet.isEmpty then done (s.mapHere (·.setReg rd 0)) 8
  else if 16 ≤ b.unfinished.length then waitFor s .batch
  else
    let b' : Batches := { b with next := b.next + 1, openSet := [], unfinished := b.unfinished ++ [b.openSet] }
    done (s.mapHere (fun y => { y with batches := b'.settle s }.setReg rd (word b.next))) 8

def execCwait (rd : Fin 32) (a : Opnd) (imm : Imm) (s : State) : Result :=
  noChunk s (peekOperands [a] (immS imm) s (fun vs take =>
    let b := s.here.batches
    if (nth vs 0).toNat < b.unfinished.length then waitFor s .batch
    else
      let b' : Batches := { b with failed := 0 }
      done ((take s).mapHere (fun y => { y with batches := b' }.setReg rd (word b.failed))) (lenImm imm)))

/-- The map of R336 for a handle, seen by an actor. -/
def Core.copyWord (k : Core) (actor : Nat) (h : Word) : Word :=
  let e : Fin 128 := Fin.ofNat 128 (bitsOf h 14 8)
  match k.copies[e] with
  | none => 0xC000000000000000
  | some v =>
    if bitsOf h 7 0 ≠ 0 || v.num ≠ bitsOf h 47 16 || v.actor ≠ actor then 0xC000000000000000
    else
      let st : Nat := match v.state with
        | .stopped _ _ _ => 1
        | .ended => 2
        | _ => 0
      word (st * 2 ^ 62 + (if st = 2 then v.status else 0) * 2 ^ 48 + v.prog % 2 ^ 32)

def execCstat (rd ra : Fin 32) (s : State) : Result :=
  let n : SlotId := (s.here.act.map (·.slot)).getD 0
  done (s.mapHere (·.setReg rd (s.hereCore.copyWord (s.slot s.focus n).actor (s.here.reg ra)))) 8

/-! ### Running (R299, R359, R360) -/

def State.setCopy (s : State) (c : CoreId) (e : Fin 128) (f : Copy → Copy) : State :=
  s.mapCore c (fun k => { k with copies := k.copies.set e (k.copies[e].map f) })

def entryOf (n : Nat) : Fin 128 := Fin.ofNat 128 n

/-- The domain of a request has been killed at its core (R294). -/
def State.killedEng (s : State) (q : Eng) : Bool := s.killed q.at_ q.who.domain

/-- COPY START: the oldest request in the FIFO begins. -/
def execCopyStart (s : State) : Result :=
  withCore s (fun c =>
    match (s.core c).fifo with
    | [] => .next s
    | e :: r =>
      .next ((s.mapCore c (fun k => { k with fifo := r })).setCopy c e (fun v =>
        if v.state = .queued then { v with state := .running } else v)))

/-- A copy fails: it writes no further sector, is reported (R343), and its completion follows with the
status (R300). -/
def State.failCopy (s : State) (c : CoreId) (e : Fin 128) (status : Nat) (addr : Word) (kind : Nat) : State :=
  match (s.core c).copies[e] with
  | none => s
  | some v =>
    let q := v.eng c e
    ((s.reportFail q status addr kind (v.handle e)).farClear q).setCopy c e (fun v =>
      { v with state := .running, status, srcPin := none, dstPin := none })

/-- A fault of a copy: a retryable one or a machine check stops it, with its token or waiting for one, and its pins go (R359,
R360); any other fails it. -/
def State.faultCopy (s : State) (c : CoreId) (e : Fin 128) (cause : Nat) (addr : Word) (kind : Nat) :
    State :=
  match (s.core c).copies[e] with
  | none => s
  | some v =>
    let q := v.eng c e
    if isRetryable cause then
      let (s, t) := s.raiseToken c (q.entry cause 0 addr kind (v.handle e)) (.copy c e)
      (s.farClear q).setCopy c e (fun v => { v with state := .stopped t addr kind, srcPin := none, dstPin := none })
    else s.failCopy c e (statusOf cause) addr kind

/-- The source address and the destination address of the next sector, and its bytes. -/
def Copy.sector (v : Copy) : Word × Word × Nat :=
  let d := v.w1 + word v.prog
  let n := min (64 - d.toNat % 64) (v.len - v.prog)
  let a := if v.rows then v.w0 + word (v.prog / 64 * v.pitch) else v.w0 + word v.prog
  (a, d, n)

/-- Pins of a copy. -/
def Copy.pins (v : Copy) : Pins := v.srcPin.toList ++ v.dstPin.toList

/-- The pin that an access leaves behind it: of its unit, when it is translated. -/
def State.pinOf (s : State) (q : Eng) (pins : Pins) (addr : Word) : Option (Nat × TlbEntry) :=
  if Config.opwBase ≤ addr.toNat then none
  else
    match pins.find? (·.1 == pageOf addr) with
    | some p => some p
    | none => (s.tlbFind (clusterOf q.at_) q.who.domain addr.toNat).map (pageOf addr, ·)

/-- A copy keeps the pins of the units that its next sector stands in, and none at its end (R360). -/
def Copy.unpin (v : Copy) : Copy :=
  let (a, d, _) := v.sector
  let keep (p : Option (Nat × TlbEntry)) (x : Word) : Option (Nat × TlbEntry) :=
    if v.len ≤ v.prog then none else p.filter (·.1 == pageOf x)
  { v with srcPin := keep v.srcPin a, dstPin := keep v.dstPin d }

/-- Where a sector of a copy is written; an operand slot must be claimed by the issuing actor. -/
inductive SectorDest where
  | ok (p : Place)
  | miss (s : State)
  | fault (cause : Nat)
  | slot

def State.sectorDest (s : State) (q : Eng) (actor : Nat) (pins : Pins) (d : Word) (n : Nat) : SectorDest :=
  if inOperand d then
    let off := d.toNat - Config.opwBase
    match tabGet (s.core q.who.core).claims (off / 4096) with
    | some k => if k.actor = actor then .ok (.operand off) else .slot
    | none => .slot
  else
    match s.engPlace q pins d n kindWrite with
    | .at p _ => .ok p
    | .miss => .miss (s.engMiss q d kindWrite)
    | .fault c => .fault c

/-- Is the last sector of a copy sent and not yet written (R299)? -/
def State.sectorOut (s : State) (q : Eng) (v : Copy) : Bool :=
  s.farPending q || s.ewrOut (fun _ n => v.ewFrom ≤ n && n < v.ewTo)

/-- One sector of a copy, once every lower one has been written. -/
def State.copySector (s : State) (c : CoreId) (e : Fin 128) (v : Copy) : State :=
  let q := v.eng c e
  if s.sectorOut q v then s else
  let (a, d, n) := v.sector
  let missed (s : State) : State :=
    if s.missing q then s.setCopy c e (fun v => { v with state := .missing }) else s
  match s.engRead q v.pins a n with
  | .wait s => s
  | .miss s => missed s
  | .fault cause a k => s.faultCopy c e cause a k
  | .got r bs =>
    match s.sectorDest q v.actor v.pins d n with
    | .miss s => missed s
    | .fault cause => s.faultCopy c e cause d kindWrite
    | .slot => s.failCopy c e 3 d kindWrite
    | .ok p =>
      let src := s.pinOf q v.pins (a + word (n - 1))
      let dst := s.pinOf q v.pins d
      let w := r.writePlace q d p bs
      (w.farClear q).setCopy c e (fun v =>
        ({ v with prog := v.prog + n, ewFrom := s.ewCount, ewTo := w.ewCount, srcPin := src, dstPin := dst } : Copy).unpin)

/-- Is the completion of a copy due: its last sector sent, or failed? -/
def Copy.atEnd (v : Copy) : Bool := v.state == .running && (v.status != 0 || v.len ≤ v.prog)

/-- The completion of a copy (R300). A flag waits for the host's and the peer's acknowledgements
(R278). -/
def State.copyFinish (s : State) (c : CoreId) (e : Fin 128) (v : Copy) : State :=
  let q := v.eng c e
  if v.target.flag && s.farPending q then s
  else
    match s.complete q v.target v.status v.status (v.handle e) (.copy c e) with
    | .ended s st =>
      let s := if st = 1 && (v.status = 0 || v.status = 6) then s.reportFail q 1 v.w3 kindRmw (v.handle e) else s
      s.endCopy c e st
    | .sent s => s.setCopy c e (fun v => { v with state := .sent, srcPin := none, dstPin := none })
    | .wait s => s
    | .miss s => if s.missing q then s.setCopy c e (fun v => { v with state := .missing }) else s
    | .stopped cause a k => s.faultCopy c e cause a k

/-- A copy at its end: one of whose far writes was denied fails, and its completion follows. -/
def State.copyEnd (s : State) (c : CoreId) (e : Fin 128) (v : Copy) : State :=
  match v.status, s.farRefused (v.eng c e) with
  | 0, some a => s.failCopy c e 1 a kindWrite
  | _, _ => s.copyFinish c e v

/-- A copy that a kill of its domain has yet to fail (R294). -/
def State.killedCopy (s : State) (c : CoreId) (v : Copy) (e : Fin 128) : Bool :=
  v.status == 0 && (v.killed || s.killedEng (v.eng c e)) && v.state != .ended && v.state != .sent

/-- COPY SECTOR. -/
def State.copyMove (s : State) (c : CoreId) (e : Fin 128) (v : Copy) : State :=
  if v.state != .running || v.atEnd then s
  else if s.killedCopy c v e then s.failCopy c e 6 0 0
  else s.copySector c e v

/-- COPY COMPLETION. -/
def execCopyCompletion (s : State) : Result :=
  withNums s (fun a b _ =>
    let c := coreOf a
    let e := entryOf b
    match (s.core c).copies[e] with
    | none => noSuch
    | some v => stepIf s v.atEnd (if s.killedCopy c v e then s.failCopy c e 6 0 0 else s.copyEnd c e v))

/-- The arrival of a copy has been made. -/
def State.copyArrived (s : State) (c : CoreId) (e : Fin 128) (stale : Bool) : State :=
  match (s.core c).copies[e] with
  | none => s
  | some v =>
    if v.state = .sent then s.endCopy c e (if v.status != 0 then v.status else if stale then 7 else 0) else s

/-- A kill of its domain reaches a copy (R294): one that stands still at a fault or a miss fails at once, any other at its
next sector. -/
def State.killCopy (s : State) (c : CoreId) (e : Fin 128) : State :=
  match (s.core c).copies[e] with
  | none => s
  | some v =>
    match v.state with
    | .stopped _ _ _ | .missing => (s.leaveTokens (.copy c e)).failCopy c e 6 0 0
    | .queued | .running => s.setCopy c e (fun v => { v with killed := true })
    | _ => s

/-- RETRY and FAIL of a stopped copy (R353, R359, R300). -/
def State.retryCopy (s : State) (c : CoreId) (e : Fin 128) : State :=
  s.setCopy c e (fun v => match v.state with
    | .stopped _ _ _ => { v with state := .running }
    | _ => v)

/-- A copy that stands still at an access is refused it: it fails; at its arrival, poisoned or not, it ends without one, with the
status of the cause (R300, R353). -/
def State.denyCopyAt (s : State) (c : CoreId) (e : Fin 128) (v : Copy) (cause : Nat) (addr : Word) (kind : Nat) : State :=
  if v.target.arrive && (v.status != 0 || v.len ≤ v.prog) then
    let s := if v.status = 0 || v.status = 6 then s.reportFail (v.eng c e) (statusOf cause) addr kind (v.handle e) else s
    s.endCopy c e (statusOf cause)
  else s.failCopy c e (statusOf cause) addr kind

def State.denyCopy (s : State) (c : CoreId) (e : Fin 128) (cause : Nat) : State :=
  match (s.core c).copies[e] with
  | none => s
  | some v =>
    match v.state with
    | .stopped _ addr kind => s.denyCopyAt c e v cause addr kind
    | _ => s

/-- The answer of the translation service to a copy that missed (R238, R239): it tries again, or takes the
fault. -/
def State.copyFilled (s : State) (c : CoreId) (e : Fin 128) : State :=
  s.setCopy c e (fun v => if v.state = .missing then { v with state := .running } else v)

def State.copyAbsent (s : State) (c : CoreId) (e : Fin 128) (cause : Nat) (addr : Word) (kind : Nat) : State :=
  match (s.core c).copies[e] with
  | none => s
  | some v =>
    if v.state != .missing then s
    else if isRetryable cause then (s.copyFilled c e).faultCopy c e cause addr kind
    else s.denyCopyAt c e v cause addr kind

end Sys2Proof.Machine
end

