-- ==== Sys2Proof/Machine/Matrix.lean ====
section
/-! DEFINITION. The matrix unit (R306 to R313, R327, R328, R391): slot claims, the commands MMA, AZERO and
ADRAIN, their start, their K steps (R81, R82), their drains and their end; SCLAIM, SREL, AREAD and ASTAT
(R337 to R339). -/

namespace Sys2Proof.Machine

/-! ### A command (R327) -/

def Command.drainEp (c : Command) : Word := word (bitsOf (c.dword 6) 47 0)
def Command.dtag (c : Command) : Nat := bitsOf (c.dword 6) 63 48
def Command.isAdrain (c : Command) : Bool := c.opc == 3

/-- Does a command take ownership of its accumulator when it starts (R308)? -/
def Command.takes (c : Command) : Bool := c.opc == 2 || (c.isMma && !c.adds)

/-- Is a command accepted only from the owner? -/
def Command.needsOwner (c : Command) : Bool := c.isAdrain || (c.isMma && c.adds)

/-- The unit, as it reaches memory for a command. -/
def Command.matrixEng (c : Command) (k : CoreId) : Eng :=
  { who := c.who, at_ := k, id := .matrix k c.id, path := .matrix, unit := k.val }

/-! ### The checks at the queue (R309, R328) -/

/-- Is the layout of R327 broken? -/
def matrixBroken (m : Msg) (c : Command) : Bool :=
  let d := c.dword 0
  bitsOf d 63 30 != 0 || c.opc == 0 || 3 < c.opc || 3 < c.fmt || 1 < bitsOf d 15 14 ||
  bitsOf (c.dword 3) 63 24 != 0 || barrierBroken m || c.slots.any (47 < ·) ||
  (!c.isMma && (c.steps != 0 || bitsOf d 15 14 != 0 || c.dword 3 != 0)) || (c.opc == 2 && c.fmt != 0)

/-- Is a drain endpoint a DRAIN mailbox of an actor of the core, in the command's domain? -/
def State.drainGood (s : State) (c : CoreId) (domain : BitVec 16) (ep : Word) : Bool :=
  let sl := s.slot c (slotOf (bitsOf ep 24 20))
  ep &&& 0x1FFFF == 0 && s.isHere (bitsOf ep 47 36) && bitsOf ep 35 25 == c.val && bitsOf ep 24 20 ≤ 15 &&
  sl.state != .free && sl.state != .dying && sl.state != .moved && sl.domain == domain &&
  (sl.mboxes[bitsOf ep 19 17]?).any (·.drains)

/-- The owner an accumulator will have once the queue has started (R328). -/
def Matrix.prospect (x : Matrix) (a : Fin 4) : BitVec 16 :=
  x.queue.foldl (fun o c => if c.acc = a && c.takes then c.domain else o) x.accs[a].owner

/-- The status a command is refused with, after the checks of R323. -/
def State.matrixRefusal (s : State) (c : CoreId) (m : Msg) (cmd : Command) : Option Nat :=
  if !s.capPasses c m 1 c.val then some 16
  else if matrixBroken m cmd then some 17
  else if cmd.drainEp != 0 && !s.drainGood c m.domain cmd.drainEp then some 18
  else if cmd.needsOwner && (s.core c).matrix.prospect cmd.acc != m.domain then some 19
  else none

def State.mapMatrix (s : State) (c : CoreId) (f : Matrix → Matrix) : State :=
  s.mapCore c (fun k => { k with matrix := f k.matrix })

/-- The numbers of the unit's commands. -/
def Matrix.ids (x : Matrix) : List Nat :=
  (x.running.map (·.cmd.id)).toList ++ x.drains.map (·.cmd.id)

/-- A matrix command reaches its unit: refused, held back by a full queue, or queued; its barrier wait
begins at once. -/
def matrixArrival (s : State) : Result :=
  withMsg s (fun c m =>
    let x := (s.core c).matrix
    if matrixQueue ≤ x.queue.length then .next (s.answerTo c m .full)
    else
      let s := s.answerTo c m .accepted
      let cmd := s.command m (freshId x.queue x.ids)
      match if brokenCommand m then some 17 else s.matrixRefusal c m cmd with
      | some st => .next (if brokenCommand m then s.badCommand c m else s.answerCmd c m st)
      | none =>
        let (s, cmd) := s.advance (cmd.matrixEng c) cmd (.matrix c cmd.id) (.matrix c cmd.id)
        .next (s.mapMatrix c (fun x => { x with queue := x.queue ++ [cmd] })))

def execMma (s : State) : Result := matrixArrival s
def execAzero (s : State) : Result := matrixArrival s
def execAdrain (s : State) : Result := matrixArrival s

/-! ### The start of the head (R310) -/

/-- Every queued command moved on in its barrier wait. -/
def State.advanceMatrix (s : State) (c : CoreId) : State :=
  let (s, q) := (s.core c).matrix.queue.foldl (fun (a : State × List Command) cmd =>
    let (s, cmd) := a.1.advance (cmd.matrixEng c) cmd (.matrix c cmd.id) (.matrix c cmd.id)
    (s, a.2 ++ [cmd])) (s, [])
  if (s.core c).matrix.queue = q then s else s.mapMatrix c (fun x => { x with queue := q })

/-- The reply of a command that has ended (R312, R325); the slots it held back are released (R306). -/
def State.matrixReply (s : State) (c : CoreId) (cmd : Command) (status steps rows : Nat) : State :=
  (s.engineReply c 16 2 c.val cmd.opc cmd.core.val cmd.slot.val (cmd.dword 1) cmd.domain status 0
    (word (steps + rows * 256))).releaseClaims c

/-- Are the slots of a command claimed by actors of its domain? -/
def State.slotsClaimed (s : State) (c : CoreId) (cmd : Command) : Bool :=
  cmd.slots.all (fun n => (tabGet (s.core c).claims n).any (·.domain == cmd.domain))

/-- An accumulator as a command finds it when it has started (R308, R309, R313, R391). -/
def Accum.start (a : Accum) (cmd : Command) : Accum :=
  if cmd.isAdrain then a
  else if cmd.takes then { owner := cmd.domain, data := [], steps := 0, nsteps := cmd.steps }
  else { a with steps := 0, nsteps := cmd.steps }

/-- The head command starts, or ends with ACCDOM or SLOT. -/
def State.startMatrix (s : State) (c : CoreId) (cmd : Command) (rest : List Command) : State :=
  let x := (s.core c).matrix
  let s := s.mapMatrix c (fun x => { x with queue := rest })
  if cmd.needsOwner && x.accs[cmd.acc].owner != cmd.domain then s.matrixReply c cmd 19 0 0
  else if !s.slotsClaimed c cmd then s.matrixReply c cmd 3 0 0
  else s.mapMatrix c (fun x => { x with
    running := some { cmd, step := 0 }, accs := x.accs.set cmd.acc (x.accs[cmd.acc].start cmd) })

/-- MATRIX COMMAND START: barrier waits move on, and the head starts when the unit is free, its
accumulator is not being drained, and its barrier and markers allow it. -/
def execMatrixCommandStart (s : State) : Result :=
  withCore s (fun c =>
    let s := s.advanceMatrix c
    let x := (s.core c).matrix
    match x.queue, x.running with
    | cmd :: rest, none =>
      stepIf s (s.commandReady cmd && !x.drains.any (·.acc == cmd.acc)) (s.startMatrix c cmd rest)
    | _, _ => .next s)

/-! ### A K step (R81, R82, R307) -/

/-- The types of the formats' operands. -/
def fmtTy (fmt : Nat) : Ty :=
  match fmt with
  | 0 => .m8
  | 2 => .bf16
  | 3 => .f16
  | _ => .i8

/-- K indices of a step, and of a group. -/
def stepK (fmt : Nat) : Nat := if fmt ≤ 1 then 64 else 32
def groupK (fmt : Nat) : Nat := if fmt ≤ 1 then 4 else 2

/-- The bits of A[i][k] and of B[k][j] in their slots. -/
def Core.elemA (k : Core) (fmt slot i x : Nat) : Nat :=
  if fmt ≤ 1 then leNat (k.opnd.bytes (4096 * slot + 64 * i + x) 1)
  else leNat (k.opnd.bytes (4096 * slot + 64 * i + 2 * x) 2)

def Core.elemB (k : Core) (fmt slot x j : Nat) : Nat :=
  if fmt ≤ 1 then leNat (k.opnd.bytes (4096 * slot + 64 * x + j) 1)
  else leNat (k.opnd.bytes (4096 * slot + 128 * x + 2 * j) 2)

/-- One group of a float format added to an f32. -/
def addGroup (acc : BitVec 32) (products : List Num) : BitVec 32 :=
  let (g, _) := fmtF32.encode .rne (sumNum products).1
  let (v, _) := fmtF32.encode .rne (fAdd (fmtF32.decode acc.toNat) (fmtF32.decode g)).1
  BitVec.ofNat 32 v

/-- An output after the groups of a step, in ascending order. -/
def stepOutput (k : Core) (fmt sa sb i j : Nat) (acc : BitVec 32) : BitVec 32 :=
  let g := groupK fmt
  (List.range (stepK fmt / g)).foldl (fun acc n =>
    let ks := (List.range g).map (fun x => n * g + x)
    if fmt = 1 then
      ks.foldl (fun acc x => acc + BitVec.ofInt 32
        (intOf .i8 (k.elemA fmt sa i x) * intOf .i8 (k.elemB fmt sb x j))) acc
    else
      addGroup acc (ks.map (fun x =>
        (mulNum [numOf (fmtTy fmt) (k.elemA fmt sa i x), numOf (fmtTy fmt) (k.elemB fmt sb x j)]).1))) acc

/-- The accumulator after a step of a command. -/
def Core.kStep (k : Core) (cmd : Command) (n : Nat) (a : Accum) : Accum :=
  let out (e : Nat) : BitVec 32 :=
    stepOutput k cmd.fmt (cmd.slotA n) (cmd.slotB n) (e / 64) (e % 64) ((tabGet a.data e).getD 0)
  { a with
    steps := n + 1,
    data := (List.range 4096).filterMap (fun e => if out e = 0 then none else some (e, out e)) }

/-- K STEP: the running command computes its next step. -/
def execKStep (s : State) : Result :=
  withCore s (fun c =>
    let k := s.core c
    match k.matrix.running with
    | none => .next s
    | some r =>
      let steps := if r.cmd.isMma then r.cmd.steps else 0
      stepIf s (r.step < steps) (s.mapMatrix c (fun x => { x with
        running := some { r with step := r.step + 1 },
        accs := x.accs.set r.cmd.acc (k.kStep r.cmd r.step x.accs[r.cmd.acc]) })))

/-! ### Drains (R311, R374, R405) -/

/-- The notification of a row. -/
def Drain.message (d : Drain) (c : CoreId) : Msg :=
  { dst := d.cmd.drainEp, sender := senderOf c.val 16 0, tag := 0, seq := BitVec.ofNat 5 d.row,
    payload := [word d.row, word d.cmd.dtag], domain := d.cmd.domain,
    stamp := some d.cmd.satisfiedAt, src := .drain c d.acc }

/-- DRAIN NOTIFICATION: the next row of a drain goes to its mailbox. -/
def execDrainNotification (s : State) : Result :=
  withNums s (fun a b _ =>
    let c := coreOf a
    let acc : Fin 4 := Fin.ofNat 4 b
    match (s.core c).matrix.drains.find? (·.acc == acc) with
    | none => noSuch
    | some d =>
      stepIf s (!d.out && !d.lost && d.row < 64)
        ((s.mapMatrix c (·.mapDrains (fun e => if e.acc = acc then { e with out := true } else e))).post
          (agentEngine 2 c.val) (d.message c)))

/-! ### The end of a command (R312) -/

/-- The running command has computed: it drains, or it replies. -/
def State.computed (s : State) (c : CoreId) (r : Running) : State :=
  let s := s.mapMatrix c (fun x => { x with running := none })
  if r.cmd.drainEp = 0 then s.matrixReply c r.cmd 0 r.step 0
  else
    let d : Drain := { cmd := r.cmd, acc := r.cmd.acc, row := 0, out := false, lost := false, steps := r.step }
    s.mapMatrix c (fun x => { x with drains := x.drains ++ [d] })

/-- MATRIX COMMAND END: a drain delivered or lost, a computation done, or a head cancelled by its
barrier. -/
def execMatrixCommandEnd (s : State) : Result :=
  withCore s (fun c =>
    let x := (s.core c).matrix
    match x.drains.find? (fun d => d.lost || 64 ≤ d.row) with
    | some d =>
      .next ((s.mapMatrix c (fun x => { x with drains := x.drains.filter (·.acc != d.acc) })).matrixReply c
        d.cmd (if d.lost then 23 else 0) d.steps d.row)
    | none =>
      match x.running with
      | some r =>
        let steps := if r.cmd.isMma then r.cmd.steps else 0
        stepIf s (steps ≤ r.step) (s.computed c r)
      | none =>
        match x.queue with
        | [] => .next s
        | cmd :: rest =>
          match cmd.cancelled with
          | none => .next s
          | some st =>
            .next ((s.mapMatrix c (fun x => { x with queue := rest })).matrixReply c cmd st 0 0))

/-! ### Kills, and answers to a command's barrier translation (R294, R239, R353) -/

/-- A kill cancels a domain's commands and frees its accumulators. -/
def State.killMatrix (s : State) (c : CoreId) (domain : BitVec 16) : State :=
  let x := (s.core c).matrix
  let mine (d : Command) : Bool := d.domain == domain
  let drop (s : State) (d : Command) : State :=
    ((s.dropWaiter (.matrix c d.id)).leaveTokens (.matrix c d.id)).leaveMisses (clusterOf c)
      (.matrix c d.id)
  let s := s.mapMatrix c (fun x => { x with
    queue := x.queue.filter (!mine ·),
    running := x.running.filter (fun r => !mine r.cmd),
    drains := x.drains.filter (fun d => !mine d.cmd),
    accs := x.accs.map (fun a => if a.owner = domain then .free else a) })
  let s := (x.queue.filter mine).foldl (fun s d => (drop s d).matrixReply c d 6 0 0) s
  let s := (x.running.toList.filter (fun r => mine r.cmd)).foldl (fun s r => s.matrixReply c r.cmd 6 r.step 0) s
  (x.drains.filter (fun d => mine d.cmd)).foldl (fun s d => s.matrixReply c d.cmd 6 d.steps d.row) s

def State.setMatrixWait (s : State) (c : CoreId) (id : Nat) (w : CmdWait) : State :=
  s.mapMatrix c (fun x => { x with queue := x.queue.map (fun d => if d.id = id then { d with wait := w } else d) })

/-- The answer of the translation service: the command tries again, or takes the fault. -/
def State.matrixAbsent (s : State) (c : CoreId) (id cause : Nat) : State :=
  if isRetryable cause then
    match (s.core c).matrix.queue.find? (·.id == id) with
    | none => s
    | some d =>
      let q := d.matrixEng c
      let (s, n) := s.raiseToken c (q.entry cause 0 d.bar kindRead (d.detail q)) (.matrix c id)
      s.setMatrixWait c id (.stopped n)
  else s.setMatrixWait c id .bad

/-! ### Slot claims: SCLAIM and SREL (R306, R337) -/

/-- The slots of a range. -/
def slotRange (f c : Nat) : List Nat := (List.range c).map (fun i => f + i)

/-- The common start of SCLAIM and SREL: NORIGHT inside a gate, SRANGE, then g with the range. -/
def slotOp (rd : Fin 32) (a : Opnd) (count : BitVec 6) (imm : Imm) (s : State)
    (g : Activation → List Nat → (Word → State → Result) → Result) : Result :=
  peekOperands [a] (immS imm) s (fun vs take =>
    let fin (v : Word) (s : State) : Result := done ((take s).mapHere (·.setReg rd v)) (lenImm imm)
    let f := (nth vs 0).toNat
    if s.here.ddepth ≠ 0 then fin 4 s
    else if count.toNat = 0 || 48 < f + count.toNat then fin 14 s
    else
      match s.here.act with
      | none => .next s
      | some act => g act (slotRange f count.toNat) fin)

def execSclaim (rd : Fin 32) (a : Opnd) (count : BitVec 6) (imm : Imm) (s : State) : Result :=
  slotOp rd a count imm s (fun act l fin =>
    let k := s.hereCore
    let c := s.focus
    let me := (s.slot c act.slot).actor
    let other (a : Claim) : Bool := a.actor != me && !k.actorGone a.actor
    if l.any (fun n => (tabGet k.claims n).any other) then fin 13 s
    else if l.any (fun n => (tabGet k.claims n).any (fun a => k.actorGone a.actor)) then waitFor s .stall
    else
      let claim : Claim := { actor := me, slot := act.slot, domain := (s.slot c act.slot).domain }
      fin 0 (s.mapCore c (fun k => l.foldl (fun k n => { k with claims := tabSet k.claims n claim }) k)))

def execSrel (rd : Fin 32) (a : Opnd) (count : BitVec 6) (imm : Imm) (s : State) : Result :=
  slotOp rd a count imm s (fun act l fin =>
    let k := s.hereCore
    let c := s.focus
    let mine := l.filter (fun n => (tabGet k.claims n).any (·.actor == (s.slot c act.slot).actor))
    if mine.any (s.slotInUse c) then waitFor s .stall
    else
      fin (word mine.length) (s.mapCore c (fun k => mine.foldl (fun k n =>
        Core.zeroSlot { k with claims := tabDel k.claims n } n) k)))

/-! ### AREAD and ASTAT (R308, R313, R338, R339) -/

/-- An accumulator as a domain sees it. -/
def Accum.seenBy (a : Accum) (domain : BitVec 16) : Accum := if a.owner = domain then a else .free

/-- The two registers of a row of an accumulator. -/
def Accum.row (v : Accum) (r : Nat) : List VecWord :=
  let lane (j : Nat) : Nat := ((tabGet v.data (64 * r + j)).getD 0).toNat
  [ofElems 32 32 lane, ofElems 32 32 (fun j => lane (32 + j))]

/-- AREAD: the row and the step count are read at dispatch; the row joins the V pipe in program order, as a VLD's data
does (R19, R338). -/
def execAread (vd rc : Fin 32) (acc : Fin 4) (a : Opnd) (s : State) : Result :=
  if 32 ≤ s.here.vq.length then waitFor s .vFull
  else
    withOperands [a] 0 s (fun vs s =>
      let r := (nth vs 0).toNat % 64
      let v := s.hereCore.matrix.accs[acc].seenBy s.here.domain
      let e : VEntry :=
        { pc := s.here.pc, instr := .aread vd rc acc a, base := 0, stride := 0, mask := 0, data := v.row r, accs := [] }
      done (s.mapHere (fun y => (y.enqueue e).setReg rc (word v.steps))) 8)

/-- STATE of an accumulator (R339), with the commands that are ready in their barrier and fence. -/
def Matrix.accState (x : Matrix) (ready : Command → Bool) (a : Fin 4) : Nat :=
  if x.drains.any (·.acc == a) then 4
  else if x.running.any (fun r => r.cmd.acc == a) then 3
  else if x.queue.any (fun c => c.acc == a && !ready c) then 2
  else 1

/-- The map of R339. -/
def Matrix.accWord (x : Matrix) (ready : Command → Bool) (a : Fin 4) (domain : BitVec 16) : Word :=
  let v := x.accs[a]
  if v.owner ≠ domain || v.owner = 0xFFFF then 0xFFFF000000000000
  else
    let row := ((x.drains.find? (·.acc == a)).map (fun d => min d.row 63)).getD 64
    word (v.owner.toNat * 2 ^ 48 + v.steps % 256 * 2 ^ 40 + v.nsteps % 256 * 2 ^ 32 +
      x.queue.length % 256 * 2 ^ 24 + row * 2 ^ 16 + x.accState ready a)

def execAstat (rd : Fin 32) (acc : Fin 4) (s : State) : Result :=
  done (s.mapHere (·.setReg rd (s.hereCore.matrix.accWord s.commandReady acc s.here.domain))) 8

end Sys2Proof.Machine
end

