-- ==== Sys2Proof/Machine/Gather.lean ====
section
/-! DEFINITION. The gather engine: its command and descriptor (R314, R329), its start, its rows (R299, R359)
and its end (R300, R315); COPY SECTOR, which copies and gathers share. -/

namespace Sys2Proof.Machine

/-! ### A command (R329) -/

/-- Gathers that run at once (R293). -/
def gatherRunMax : Nat := 8

/-- The engine of a cluster, as it reaches memory for a command. -/
def Command.gatherEng (c : Command) (g : ClusterId) : Eng :=
  { who := c.who, at_ := gatherCore g, id := .gather g c.id, path := .gather, unit := g.val }

/-- A global address (R22). -/
def isGlobal (a : Word) : Bool := a.toNat < Config.opwBase

/-- A remote scratchpad address. -/
def isRsw (a : Word) : Bool :=
  Config.rswBase ≤ a.toNat && a.toNat < Config.rswBase + 2048 * Config.spadBytes

/-- A local scratchpad address. -/
def isLsw (a : Word) : Bool :=
  Config.lswBase ≤ a.toNat && a.toNat < Config.lswBase + Config.spadBytes

/-- The dwords 3 to 6 that gather and collective commands share: a descriptor and a barrier. -/
def describedBroken (m : Msg) : Bool :=
  m.dword 3 &&& 63 != 0 || !isGlobal (m.dword 3) || barrierBroken m || m.dword 6 != 0

def gatherBroken (m : Msg) : Bool := bitsOf (m.dword 0) 63 14 != 0 || describedBroken m

/-- The numbers of an engine's commands. -/
def Cluster.ids (k : Cluster) : List Nat := k.gathers.map (·.cmd.id)

/-- GATHER: a command enters the queue after the checks of R296 and R323. -/
def execGather (s : State) : Result :=
  withMsg s (fun c m =>
    let g := clusterOf c
    let k := s.cluster g
    if gatherQueueMax ≤ k.gatherQueue.length then .next (s.answerTo c m .full)
    else
      let s := s.answerTo c m .accepted
      if brokenCommand m then .next (s.badCommand c m)
      else if !s.capPasses c m 2 g.val then .next (s.answerCmd c m 16)
      else if gatherBroken m then .next (s.answerCmd c m 17)
      else
        let cmd := s.command m (freshId k.gatherQueue k.ids)
        let (s, cmd) := s.advance (cmd.gatherEng g) cmd (.gather g cmd.id) (.gatherCmd g cmd.id)
        .next (s.mapCluster g (fun k => { k with gatherQueue := k.gatherQueue ++ [cmd] })))

/-! ### The start (R310, R329) -/

/-- The reply of a command that has ended (R325): the rows written. -/
def State.gatherReply (s : State) (g : ClusterId) (cmd : Command) (status rows : Nat) : State :=
  s.engineReply (gatherCore g) 17 3 g.val cmd.opc cmd.core.val cmd.slot.val (cmd.dword 1) cmd.domain status 0 (word rows)

/-- The gather that a descriptor describes. -/
def Gather.ofDescriptor (cmd : Command) (d : List Word) : Gather :=
  let w (i : Nat) : Word := d[i]?.getD 0
  { cmd, table := w 0, dcore := coreOf (bitsOf (w 1) 54 44), opw := bitOf (w 1) 43, wide := bitOf (w 1) 42,
    rowBytes := 8 * bitsOf (w 1) 41 32, rows := bitsOf (w 1) 31 0, list := w 2, doff := bitsOf (w 3) 34 16,
    n := bitsOf (w 3) 15 0, done0 := w 4, done1 := w 5, row := 0, byte := 0, index := none,
    state := .running, status := 0 }

def Gather.target (v : Gather) : Target := { w2 := v.done0, w3 := v.done1 }
def Gather.eng (v : Gather) (g : ClusterId) : Eng := v.cmd.gatherEng g
def Gather.indexBytes (v : Gather) : Nat := if v.wide then 8 else 4

/-- Is the completion of a descriptor broken: LEN, ROWS and PITCH zero, and the target's layout? -/
def doneBroken (w2 w3 : Word) : Bool :=
  bitsOf w2 31 0 != 0 || bitsOf w2 39 34 != 0 || Target.broken { w2, w3 }

/-- Is a descriptor broken, or its destination outside the engine's cluster? -/
def descriptorBroken (g : ClusterId) (d : List Word) (v : Gather) : Bool :=
  let w (i : Nat) : Word := d[i]?.getD 0
  !isGlobal v.table || v.table &&& 7 != 0 || bitsOf (w 1) 63 55 != 0 || bitsOf (w 1) 54 44 / 32 != g.val ||
  v.rowBytes == 0 || 4096 < v.rowBytes || !(isGlobal v.list || isRsw v.list) ||
  v.list.toNat % v.indexBytes != 0 || bitsOf (w 3) 63 35 != 0 || v.n == 0 ||
  (if v.opw then Config.opndBytes else Config.spadBytes) ≤ v.doff || doneBroken v.done0 v.done1 ||
  w 6 != 0 || w 7 != 0

def State.setGatherQueue (s : State) (g : ClusterId) (q : List Command) : State :=
  s.mapCluster g (fun k => { k with gatherQueue := q })

/-- A command of the queue changed. -/
def State.setGatherCmd (s : State) (g : ClusterId) (id : Nat) (f : Command → Command) : State :=
  s.mapCluster g (fun k => { k with
    gatherQueue := k.gatherQueue.map (fun c => if c.id = id then f c else c) })

/-- A retryable fault of a queued command: it stands still, with its token or waiting for one (R352). -/
def State.stopGatherCmd (s : State) (g : ClusterId) (cmd : Command) (cause : Nat) (addr : Word) : State :=
  let (s, n) := s.raiseToken (gatherCore g) ((cmd.gatherEng g).entry cause 0 addr kindRead 0) (.gatherCmd g cmd.id)
  s.setGatherCmd g cmd.id (fun c => { c with wait := .stopped n })

/-- A command whose descriptor cannot be read ends with PROT (R329), and is reported (R343). -/
def State.noDescriptor (s : State) (g : ClusterId) (cmd : Command) (addr : Word) : State :=
  let s := s.setGatherQueue g ((s.cluster g).gatherQueue.filter (·.id != cmd.id))
  (s.reportFail (cmd.gatherEng g) 1 addr kindRead 0).gatherReply g cmd 1 0

/-- The head command starts: its descriptor is read at the home. -/
def State.startGather (s : State) (g : ClusterId) (cmd : Command) (rest : List Command) : State :=
  let q := cmd.gatherEng g
  let a := cmd.dword 3
  match s.engRead q [] a 64 with
  | .wait s => s
  | .miss s => s.setGatherCmd g cmd.id (fun c => { c with started := true })
  | .fault cause a _ =>
    if isRetryable cause then (s.setGatherCmd g cmd.id (fun c => { c with started := true })).stopGatherCmd g cmd cause a
    else s.noDescriptor g cmd a
  | .got s bs =>
    let d := leWords 8 bs
    let v := Gather.ofDescriptor cmd d
    let s := (s.farClear q).setGatherQueue g rest
    if descriptorBroken g d v then s.gatherReply g cmd 17 0
    else s.mapCluster g (fun k => { k with gathers := k.gathers ++ [v] })

/-- Every queued command moved on in its barrier wait. -/
def State.advanceGather (s : State) (g : ClusterId) : State :=
  let (s, q) := (s.cluster g).gatherQueue.foldl (fun (a : State × List Command) cmd =>
    let (s, cmd) := a.1.advance (cmd.gatherEng g) cmd (.gather g cmd.id) (.gatherCmd g cmd.id)
    (s, a.2 ++ [cmd])) (s, [])
  if (s.cluster g).gatherQueue = q then s else s.setGatherQueue g q

/-- GATHER START: barrier waits move on; the head starts when fewer than eight gathers run and its barrier
and markers allow it, or leaves cancelled by its barrier. -/
def execGatherStart (s : State) : Result :=
  withNums s (fun a _ _ =>
    let g : ClusterId := Fin.ofNat 64 a
    let s := s.advanceGather g
    let k := s.cluster g
    match k.gatherQueue with
    | [] => .next s
    | cmd :: rest =>
      match cmd.cancelled with
      | some st => .next ((s.setGatherQueue g rest).gatherReply g cmd st 0)
      | none =>
        stepIf s (s.commandReady cmd && k.gathers.length < gatherRunMax && !s.missing (cmd.gatherEng g))
          (s.startGather g cmd rest))

/-! ### Running (R299, R314, R315, R359) -/

def State.gatherOf (s : State) (g : ClusterId) (id : Nat) : Option Gather :=
  (s.cluster g).gathers.find? (·.cmd.id == id)

def State.setGather (s : State) (g : ClusterId) (id : Nat) (f : Gather → Gather) : State :=
  s.mapCluster g (fun k => { k with gathers := k.gathers.map (fun v => if v.cmd.id = id then f v else v) })

/-- A gather fails: nothing more is written, it is reported, and its completion follows. -/
def State.failGather (s : State) (g : ClusterId) (v : Gather) (status : Nat) (addr : Word) (kind : Nat) : State :=
  let q := v.eng g
  ((s.reportFail q status addr kind 0).farClear q).setGather g v.cmd.id (fun v => { v with state := .running, status })

/-- A fault of a gather: a retryable one or a machine check stops it, with its token or waiting for one; any other fails
it. -/
def State.faultGather (s : State) (g : ClusterId) (v : Gather) (cause : Nat) (addr : Word) (kind : Nat) : State :=
  let q := v.eng g
  if isRetryable cause then
    let (s, t) := s.raiseToken q.at_ (q.entry cause 0 addr kind 0) (.gather g v.cmd.id)
    (s.farClear q).setGather g v.cmd.id (fun v => { v with state := .stopped t addr kind })
  else s.failGather g v (statusOf cause) addr kind

def State.missedGather (s : State) (g : ClusterId) (v : Gather) : State :=
  if s.missing (v.eng g) then s.setGather g v.cmd.id (fun v => { v with state := .missing }) else s

/-- The index of the row reached is read, signed, and checked. -/
def State.gatherIndex (s : State) (g : ClusterId) (v : Gather) : State :=
  let q := v.eng g
  let b := v.indexBytes
  match s.engRead q [] (v.list + word (v.row * b)) b with
  | .wait s => s
  | .miss s => s.missedGather g v
  | .fault cause a k => s.faultGather g v cause a k
  | .got s bs =>
    let i := leNat bs
    let s := s.farClear q
    if 2 ^ (8 * b - 1) ≤ i || v.rows ≤ i then s.failGather g v 9 (v.list + word (v.row * b)) kindRead
    else s.setGather g v.cmd.id (fun v => { v with index := some i })

/-- The offset of the next byte to write on the destination core, and the bytes of its sector. -/
def Gather.at_ (v : Gather) : Nat := v.doff + v.row * v.rowBytes + v.byte
def Gather.sector (v : Gather) : Nat := min (64 - v.at_ % 64) (v.rowBytes - v.byte)

/-- The address it has there. -/
def Gather.destAddr (v : Gather) : Word :=
  word (if v.opw then Config.opwBase + v.at_ else Config.rswBase + v.dcore.val * Config.spadBytes + v.at_)

/-- Where a sector of a gather is written: an operand slot claimed by an actor of its domain, checked when
the slot's first sector is written, or the scratchpad of the destination core. -/
def State.gatherDest (s : State) (g : ClusterId) (v : Gather) : SectorDest :=
  let off := v.at_
  let n := v.sector
  if v.opw then
    let claimed := (tabGet (s.core v.dcore).claims (off / 4096)).any (·.domain == v.cmd.domain)
    if Config.opndBytes < off + n || ((off % 4096 == 0 || (v.row == 0 && v.byte == 0)) && !claimed) then .slot
    else .ok (.operand off)
  else if Config.spadBytes < off + n then .fault causeSpperm
  else
    match s.engPlace (v.eng g) [] v.destAddr n kindWrite with
    | .at p _ => .ok p
    | .miss => .fault causeSpperm
    | .fault c => .fault c

/-- A sector written: the operand window is that of the destination core. -/
def State.gatherWrite (s : State) (g : ClusterId) (v : Gather) (p : Place) (bs : List Byte) : State :=
  match p with
  | .operand off => s.engineStore (v.eng g).cls (v.eng g).unit v.dcore true off bs
  | p => s.writePlace (v.eng g) v.destAddr p bs

/-- The row and byte after a sector. -/
def Gather.forward (v : Gather) : Gather :=
  let b := v.byte + v.sector
  if v.rowBytes ≤ b then { v with row := v.row + 1, byte := 0, index := none } else { v with byte := b }

/-- One sector of a gather from the row of an index. -/
def State.gatherSector (s : State) (g : ClusterId) (v : Gather) (i : Nat) : State :=
  let q := v.eng g
  match s.engRead q [] (v.table + word (i * v.rowBytes + v.byte)) v.sector with
  | .wait s => s
  | .miss s => s.missedGather g v
  | .fault cause a k => s.faultGather g v cause a k
  | .got r bs =>
    match s.gatherDest g v with
    | .miss s => s
    | .slot => s.failGather g v 3 v.destAddr kindWrite
    | .fault cause => s.faultGather g v cause v.destAddr kindWrite
    | .ok p => ((r.gatherWrite g v p bs).farClear q).setGather g v.cmd.id Gather.forward

/-- Is the completion of a gather due? -/
def Gather.atEnd (v : Gather) : Bool := v.state == .running && (v.status != 0 || v.n ≤ v.row)

def State.killedGather (s : State) (g : ClusterId) (v : Gather) : Bool :=
  v.status == 0 && s.killedEng (v.eng g) && v.state != .ended && v.state != .sent

def State.gatherMove (s : State) (g : ClusterId) (v : Gather) : State :=
  if v.state != .running || v.atEnd then s
  else if s.killedGather g v then s.failGather g v 6 0 0
  else
    match v.index with
    | none => s.gatherIndex g v
    | some i => s.gatherSector g v i

/-- COPY SECTOR: of a copy of a core, or, from number 2048 on, of a gather of a cluster. -/
def execCopySector (s : State) : Result :=
  withNums s (fun a b _ =>
    if a < 2048 then
      match (s.core (coreOf a)).copies[entryOf b] with
      | none => noSuch
      | some v => .next (s.copyMove (coreOf a) (entryOf b) v)
    else
      let g : ClusterId := Fin.ofNat 64 (a - 2048)
      match s.gatherOf g b with
      | none => noSuch
      | some v => .next (s.gatherMove g v))

/-! ### The end (R300, R315) -/

/-- A gather ends with a status: it leaves the engine, and the reply follows. -/
def State.endGather (s : State) (g : ClusterId) (v : Gather) (status : Nat) : State :=
  let q := v.eng g
  let s := ((s.farClear q).farForget q).mapCluster g (fun k => { k with
    gathers := k.gathers.filter (·.cmd.id != v.cmd.id) })
  (s.gatherReply g v.cmd status v.row).releaseClaims v.dcore

/-- The completion of a gather, as a copy's. -/
def State.gatherEnd (s : State) (g : ClusterId) (v : Gather) : State :=
  let q := v.eng g
  match s.complete q v.target v.status v.status 0 (.gather g v.cmd.id) with
  | .ended s st =>
    let s := if st = 1 && (v.status = 0 || v.status = 6) then s.reportFail q 1 v.done1 kindRmw 0 else s
    s.endGather g v st
  | .sent s => s.setGather g v.cmd.id (fun v => { v with state := .sent })
  | .wait s => s
  | .miss s => s.missedGather g v
  | .stopped cause a k => s.faultGather g v cause a k

/-- GATHER COMPLETION. -/
def execGatherCompletion (s : State) : Result :=
  withNums s (fun a b _ =>
    let g : ClusterId := Fin.ofNat 64 a
    match s.gatherOf g b with
    | none => noSuch
    | some v => stepIf s v.atEnd (if s.killedGather g v then s.failGather g v 6 0 0 else s.gatherEnd g v))

/-- The arrival of a gather has been made. -/
def State.gatherArrived (s : State) (g : ClusterId) (id : Nat) (stale : Bool) : State :=
  match s.gatherOf g id with
  | none => s
  | some v =>
    if v.state = .sent then s.endGather g v (if v.status != 0 then v.status else if stale then 7 else 0) else s

/-! ### Kills, and the answers of the kernel (R294, R239, R353) -/

/-- A kill at a cluster's engine. -/
def State.killGathers (s : State) (g : ClusterId) (domain : BitVec 16) : State :=
  let k := s.cluster g
  let s := (k.gatherQueue.filter (·.domain == domain)).foldl (fun s d =>
    (((s.dropWaiter (.gather g d.id)).leaveTokens (.gatherCmd g d.id)).farClear
      (d.gatherEng g)).gatherReply g d 6 0) s
  let s := s.setGatherQueue g (k.gatherQueue.filter (·.domain != domain))
  (k.gathers.filter (fun v => v.cmd.domain == domain && v.status == 0 && v.state != .sent)).foldl (fun s v =>
    (s.leaveTokens (.gather g v.cmd.id)).failGather g v 6 0 0) s

/-- RETRY of a stopped gather, and the answer to one that missed: it goes on. -/
def State.resumeGather (s : State) (g : ClusterId) (id : Nat) : State :=
  s.setGather g id (fun v => match v.state with
    | .stopped _ _ _ | .missing => { v with state := .running }
    | _ => v)

/-- A gather that stands still at an access is refused it, as a copy is (R300, R353). -/
def State.denyGatherAt (s : State) (g : ClusterId) (v : Gather) (cause : Nat) (addr : Word) (kind : Nat) : State :=
  if v.target.arrive && (v.status != 0 || v.n ≤ v.row) then
    let s := if v.status = 0 || v.status = 6 then s.reportFail (v.eng g) (statusOf cause) addr kind 0 else s
    s.endGather g v (statusOf cause)
  else s.failGather g v (statusOf cause) addr kind

/-- FAIL of a stopped gather. -/
def State.denyGather (s : State) (g : ClusterId) (id : Nat) (cause : Nat) : State :=
  match s.gatherOf g id with
  | none => s
  | some v =>
    match v.state with
    | .stopped _ addr kind => s.denyGatherAt g v cause addr kind
    | _ => s

/-- A queued command tries again: its barrier, or, once started, its descriptor. -/
def Command.again (c : Command) : Command := { c with wait := if c.started then .satisfied 0 else .fresh }

def State.retryGatherCmd (s : State) (g : ClusterId) (id : Nat) : State :=
  s.setGatherCmd g id (fun c => match c.wait with
    | .stopped _ | .missing => c.again
    | _ => c)

/-- A queued command is refused its barrier, or its descriptor (R310, R329). -/
def State.denyGatherCmd (s : State) (g : ClusterId) (id : Nat) : State :=
  match (s.cluster g).gatherQueue.find? (·.id == id) with
  | none => s
  | some cmd =>
    if cmd.started then s.noDescriptor g cmd (cmd.dword 3)
    else s.setGatherCmd g id (fun c => { c with wait := .bad })

/-- The answer ABSENT to a gather or to a queued command. -/
def State.gatherAbsent (s : State) (g : ClusterId) (id : Nat) (cause : Nat) (addr : Word) (kind : Nat) : State :=
  match s.gatherOf g id with
  | some v =>
    if v.state != .missing then s
    else if isRetryable cause then (s.resumeGather g id).faultGather g { v with state := .running } cause addr kind
    else s.denyGatherAt g v cause addr kind
  | none =>
    match (s.cluster g).gatherQueue.find? (·.id == id) with
    | none => s
    | some cmd =>
      if isRetryable cause then
        (s.retryGatherCmd g id).stopGatherCmd g cmd cause addr
      else s.denyGatherCmd g id

end Sys2Proof.Machine
end

