-- ==== Sys2Proof/Machine/Collective.lean ====
section
/-! DEFINITION. The collective engine (R316 to R318, R330): SUM, MAX, MIN and ALLGATHER, how a command
joins an operation, how every member of it ends, and the timeout; BARRIER ARRIVAL, which the engines share
(R304). -/

namespace Sys2Proof.Machine

/-! ### A command (R330) -/

def Command.collType (c : Command) : Nat := bitsOf (c.dword 0) 15 14
def Command.collGroup (c : Command) : Nat := bitsOf (c.dword 0) 23 16
def Command.collSeq (c : Command) : Nat := bitsOf (c.dword 0) 39 24

def Command.collEng (c : Command) (d : DieId) : Eng :=
  { who := c.who, at_ := kernelCore d, id := .collective d c.id, path := .collective, unit := d.val }

/-- The descriptor of a command, kept behind its payload once it has been read; word i of it. -/
def Command.described (c : Command) : Bool := 7 < c.payload.length
def Command.desc (c : Command) (i : Nat) : Word := c.dword (7 + i)

/-- Bytes of an element. -/
def Command.elemBytes (c : Command) : Nat :=
  if c.opc = 4 then 1 else if c.collType = 0 then 4 else 2

/-- Bytes a member contributes. -/
def Command.sourceBytes (c : Command) : Nat := bitsOf (c.desc 2) 31 0 * c.elemBytes

/-- Bytes that a member receives: those of every member together for ALLGATHER (R317). -/
def Command.resultBytes (c : Command) (members : Option Nat) : Nat :=
  if c.opc = 4 then c.sourceBytes * members.getD 0 else c.sourceBytes

def collectiveBroken (m : Msg) (c : Command) : Bool :=
  bitsOf (m.dword 0) 63 40 != 0 || 1 < c.collType || (c.opc == 4 && c.collType != 0) || describedBroken m

/-- Is a collective descriptor broken? -/
def Command.descBroken (c : Command) : Bool :=
  let at_ (a : Word) : Bool := isGlobal a || isLsw a || isRsw a
  !at_ (c.desc 0) || !at_ (c.desc 1) || bitsOf (c.desc 2) 63 32 != 0 || doneBroken (c.desc 3) (c.desc 4) ||
  c.desc 5 != 0 || c.desc 6 != 0 || c.desc 7 != 0

/-- The rank of a command's sender in a group: its place among the members (R316). -/
def State.rankOf (s : State) (g : Group) (c : Command) : Option Nat :=
  g.members.findIdx? (fun m => s.memberHere m.1 && m.2 == c.core.val)

/-- Numbers of a die's commands, wherever they stand. -/
def State.collIds (s : State) (d : DieId) : List Nat :=
  (s.die d).members.map (·.cmd.id) ++
  s.collectives.flatMap (fun o => (o.parts.filter (fun p => p.die == d && !p.remote)).map (·.cmd.id))

def State.setCollQueue (s : State) (d : DieId) (q : List Command) : State :=
  s.mapDie d (fun k => { k with collQueue := q })

def State.setCollCmd (s : State) (d : DieId) (id : Nat) (f : Command → Command) : State :=
  s.mapDie d (fun k => { k with collQueue := k.collQueue.map (fun c => if c.id = id then f c else c) })

def State.dropCollCmd (s : State) (d : DieId) (id : Nat) : State :=
  s.mapDie d (fun k => { k with collQueue := k.collQueue.filter (·.id != id) })

/-- The reply to a member: its sequence number and rank, and the bytes written (R325). -/
def State.collReply (s : State) (d : DieId) (c : Command) (rank status bytes : Nat) : State :=
  s.engineReply (kernelCore d) 18 4 d.val c.opc c.core.val c.slot.val (c.dword 1) c.domain status (c.collSeq + rank * 2 ^ 16) (word bytes)

/-- A command that ends before it has joined an operation. Once its descriptor has been read it is a member that has
failed, and its completion follows (R318); until then it makes none (R326). -/
def State.endCollCmd (s : State) (d : DieId) (c : Command) (status : Nat) : State :=
  let rank := ((tabGet (s.die d).groups c.collGroup).bind (s.rankOf · c)).getD 0
  let s := (s.dropCollCmd d c.id).farClear (c.collEng d)
  if c.described then
    s.mapDie d (fun k => { k with members := k.members ++ [
      { cmd := c, rank, dst := c.desc 1, done0 := c.desc 3, done1 := c.desc 4, result := [], written := false,
        status, state := .running }] })
  else s.collReply d c rank status 0

/-- A command reaches the queue: the checks of R296, R323 and R330. A group that is not configured, or of
which the sender is no member, is refused BADCMD. -/
def collectiveArrival (s : State) (c : CoreId) (m : Msg) : Result :=
  let d := dieOf c
  let k := s.die d
  if collectiveQueueMax ≤ k.collQueue.length then .next (s.answerTo c m .full)
  else
    let s := s.answerTo c m .accepted
    let cmd := s.command m (freshId k.collQueue (s.collIds d))
    if brokenCommand m then .next (s.badCommand c m)
    else if !s.capPasses c m 3 cmd.collGroup then .next (s.answerCmd c m 16)
    else if collectiveBroken m cmd then .next (s.answerCmd c m 17)
    else
      match (tabGet k.groups cmd.collGroup).bind (s.rankOf · cmd) with
      | none => .next (s.answerCmd c m 17)
      | some _ =>
        let (s, cmd) := s.advance (cmd.collEng d) cmd (.collective d cmd.id) (.collective d cmd.id)
        .next (s.setCollQueue d (k.collQueue ++ [cmd]))

/-! ### What an operation computes (R317) -/

/-- Type of the elements. -/
def collTy (ty : Nat) : Ty := if ty = 0 then .f32 else .bf16

/-- Element e of a member's data. -/
def elemOf (ty e : Nat) (data : List Byte) : Num :=
  let b := if ty = 0 then 4 else 2
  numOf (collTy ty) (leNat ((data.drop (b * e)).take b))

/-- One element of the result: SUM in f32 from the first member on, MAX and MIN by FMAX and FMIN. -/
def foldElem (op ty : Nat) (xs : List Num) : List Byte :=
  let fmt := fmtOf (collTy ty)
  let b := if ty = 0 then 4 else 2
  match xs with
  | [] => []
  | x :: r =>
    let step (a y : Num) : Num :=
      match op with
      | 1 => fmtF32.decode (fmtF32.encode .rne (fAdd a y).1).1
      | 2 => (fMax a y).1
      | _ => (fMin a y).1
    leBytes b (fmt.encode .rne (r.foldl step x)).1

/-- The bytes every member receives, from the members' data in rank order. -/
def collResult (op ty : Nat) (data : List (List Byte)) : List Byte :=
  if op = 4 then data.flatten
  else
    let b := if ty = 0 then 4 else 2
    let n := (data.headD []).length / b
    (List.range n).flatMap (fun e => foldElem op ty (data.map (elemOf ty e)))

/-! ### Joining an operation (R316, R318) -/

/-- A contribution that becomes a member with its end: a status, or the result. -/
def Contribution.member (p : Contribution) (status : Nat) (result : List Byte) : Member :=
  { cmd := p.cmd, rank := p.rank, dst := p.dst, done0 := p.done0, done1 := p.done1, result,
    written := false, status, state := .running }

/-- Contributions of this device end. -/
def State.endParts (s : State) (ps : List Contribution) (status : Nat) (result : List Byte) : State :=
  (ps.filter (!·.remote)).foldl (fun s p => s.mapDie p.die (fun k => { k with members := k.members ++ [p.member status result] })) s

/-- Contributions in rank order. -/
def byRank (n : Nat) (ps : List Contribution) : List Contribution :=
  (List.range n).flatMap (fun r => ps.filter (·.rank == r))

/-- Do all contributions agree in operation, type and count? -/
def partsAgree : List Contribution → Bool
  | [] => true
  | p :: r => r.all (fun q =>
      q.cmd.opc == p.cmd.opc && q.cmd.collType == p.cmd.collType && q.data.length == p.data.length)

/-- A contribution joins the operation of its sequence number that still lacks its rank, or begins one; the
last one ends the operation. -/
def State.join (s : State) (g : Group) (group : Nat) (p : Contribution) : State :=
  let mine (o : Collective) : Bool :=
    o.group == group && o.seq == p.cmd.collSeq && !o.parts.any (·.rank == p.rank)
  let fresh : Collective :=
    { group, seq := p.cmd.collSeq, parts := [], deadline := s.quartz + 1000 * g.timeout }
  let o := (s.collectives.find? mine).getD fresh
  let rest := if (s.collectives.find? mine).isSome then s.collectives.erase o else s.collectives
  let parts := byRank g.members.length (o.parts ++ [p])
  if parts.length < g.members.length then { s with collectives := rest ++ [{ o with parts }] }
  else
    let s := { s with collectives := rest }
    if partsAgree parts then
      s.endParts parts 0 (collResult p.cmd.opc p.cmd.collType (parts.map (·.data)))
    else s.endParts parts 24 []

/-- A contribution of this device, sent over the fabric to the members on other devices (R380). -/
def State.tellPart (s : State) (g : Group) (group : Nat) (p : Contribution) : State :=
  if g.members.all (fun m => s.memberHere m.1) then s
  else s.tell (.contribution group p.rank p.cmd.opc p.cmd.collType p.cmd.collSeq p.data)

/-- A contribution of a member on another device arrives over the fabric (R380): it joins like any other. None where
the group has no such member. -/
def State.joinRemote (s : State) (d : DieId) (group rank opc type seq : Nat) (data : List Byte) : Option State :=
  (tabGet (s.die d).groups group).bind (fun g =>
    if g.members[rank]?.any (fun m => !s.memberHere m.1) then
      let w0 := word (opc % 256 + type % 4 * 2 ^ 14 + group % 256 * 2 ^ 16 + seq % 65536 * 2 ^ 24)
      let cmd : Command :=
        { payload := [w0], domain := 0, core := kernelCore d, slot := 0, actor := 0, id := 0, wait := .satisfied 0, markers := 0,
          started := true, arrived := s.quartz }
      some (s.join g group { rank, cmd, die := d, dst := 0, done0 := 0, done1 := 0, data, remote := true })
    else none)

/-- A retryable fault of a queued command: it stands still, with its token or waiting for one (R352). -/
def State.stopCollCmd (s : State) (d : DieId) (c : Command) (cause : Nat) (addr : Word) : State :=
  let (s, n) := s.raiseToken (kernelCore d) ((c.collEng d).entry cause 0 addr kindRead 0) (.collective d c.id)
  s.setCollCmd d c.id (fun c => { c with wait := .stopped n })

/-- The status a command ends with when a read of it fails: PROT for its descriptor (R329). -/
def Command.readFailed (c : Command) (cause : Nat) : Nat := if c.described then statusOf cause else 1

/-- A read of a command that has started: what comes of it, or the bytes. -/
def State.collRead (s : State) (d : DieId) (c : Command) (addr : Word) (n : Nat)
    (g : State → List Byte → State) : State :=
  let start (s : State) : State := s.setCollCmd d c.id (fun c => { c with started := true })
  match s.engRead (c.collEng d) [] addr n with
  | .wait s => s
  | .miss s => start s
  | .fault cause a _ =>
    if isRetryable cause then (start s).stopCollCmd d c cause a else s.endCollCmd d c (c.readFailed cause)
  | .got s bs => g (s.farClear (c.collEng d)) bs

/-- A ready command reads its descriptor, then its source, and joins. -/
def State.contribute (s : State) (d : DieId) (c : Command) : State :=
  if !c.described then
    s.collRead d c (c.dword 3) 64 (fun s bs =>
      let c' := { c with payload := c.payload ++ leWords 8 bs, started := true }
      if c'.descBroken then s.endCollCmd d c 17 else s.setCollCmd d c.id (fun _ => c'))
  else
    s.collRead d c (c.desc 0) c.sourceBytes (fun s bs =>
      match tabGet (s.die d).groups c.collGroup with
      | none => s.endCollCmd d c 17
      | some g =>
        match s.rankOf g c with
        | none => s.endCollCmd d c 17
        | some rank =>
          let p : Contribution :=
            { rank, cmd := c, die := d, dst := c.desc 1, done0 := c.desc 3, done1 := c.desc 4, data := bs,
              remote := false }
          ((s.dropCollCmd d c.id).tellPart g c.collGroup p).join g c.collGroup p)

/-! ### The end of a member -/

def Member.target (v : Member) : Target := { w2 := v.done0, w3 := v.done1 }

def State.setMember (s : State) (d : DieId) (id : Nat) (f : Member → Member) : State :=
  s.mapDie d (fun k => { k with members := k.members.map (fun v => if v.cmd.id = id then f v else v) })

def State.missedMember (s : State) (d : DieId) (v : Member) : State :=
  if s.missing (v.cmd.collEng d) then s.setMember d v.cmd.id (fun v => { v with state := .missing }) else s

/-- A fault of a member. -/
def State.faultMember (s : State) (d : DieId) (v : Member) (cause : Nat) (addr : Word) (kind : Nat) : State :=
  let q := v.cmd.collEng d
  if isRetryable cause then
    let (s, t) := s.raiseToken q.at_ (q.entry cause 0 addr kind 0) (.collective d v.cmd.id)
    s.setMember d v.cmd.id (fun v => { v with state := .stopped t addr kind })
  else s.setMember d v.cmd.id (fun v => { v with state := .running, status := statusOf cause })

/-- A member leaves with its reply. -/
def State.endMember (s : State) (d : DieId) (v : Member) (status : Nat) : State :=
  let q := v.cmd.collEng d
  let s := ((s.farClear q).farForget q).mapDie d (fun k => { k with members := k.members.filter (·.cmd.id != v.cmd.id) })
  s.collReply d v.cmd v.rank status (if v.written then v.result.length else 0)

/-- The result is written to the destination. -/
def State.writeMember (s : State) (d : DieId) (v : Member) : State :=
  let q := v.cmd.collEng d
  match s.engDest q [] v.dst v.result.length with
  | .miss s => s.missedMember d v
  | .fault cause a k => s.faultMember d v cause a k
  | .ok ps => (s.engWrite q v.dst ps v.result).setMember d v.cmd.id (fun v => { v with written := true })

/-- The completion of a member: a failed one writes a failure flag with status 1, or arrives poisoned; its reply carries
the status it failed with (R318). -/
def State.completeMember (s : State) (d : DieId) (v : Member) : State :=
  let q := v.cmd.collEng d
  if v.status = 0 && (s.farRefused q).isSome then s.setMember d v.cmd.id (fun v => { v with status := 1 })
  else if v.target.flag && s.farPending q then s
  else
    match s.complete q v.target v.status 1 0 (.member d v.cmd.id) with
    | .ended s st => s.endMember d v (if v.status != 0 then v.status else st)
    | .sent s => s.setMember d v.cmd.id (fun v => { v with state := .sent })
    | .wait s => s
    | .miss s => s.missedMember d v
    | .stopped cause a k => s.faultMember d v cause a k

def State.memberMove (s : State) (d : DieId) (v : Member) : State :=
  if v.state != .running then s
  else if v.status == 0 && s.killedEng (v.cmd.collEng d) then
    s.setMember d v.cmd.id (fun v => { v with status := 6 })
  else if v.status == 0 && !v.written then s.writeMember d v
  else s.completeMember d v

/-- The arrival of a member has been made. -/
def State.memberArrived (s : State) (d : DieId) (id : Nat) (stale : Bool) : State :=
  match (s.die d).members.find? (·.cmd.id == id) with
  | none => s
  | some v =>
    if v.state = .sent then s.endMember d v (if v.status != 0 then v.status else if stale then 7 else 0) else s

/-! ### The rows -/

/-- A queued command, or a member, moves on. -/
def State.collMove (s : State) (d : DieId) (id : Nat) : Result :=
  match (s.die d).collQueue.find? (·.id == id) with
  | some c =>
    let (s, c) := s.advance (c.collEng d) c (.collective d id) (.collective d id)
    let s := if (s.die d).collQueue.contains c then s else s.setCollCmd d id (fun _ => c)
    match c.cancelled with
    | some st => .next (s.endCollCmd d c st)
    | none => stepIf s (s.commandReady c && !s.missing (c.collEng d)) (s.contribute d c)
  | none =>
    match (s.die d).members.find? (·.cmd.id == id) with
    | some v => .next (s.memberMove d v)
    | none => noSuch

/-- A collective row: the arrival of a command with its opcode, a move of one, or the arrival of a contribution of
another device. -/
def collectiveRow (s : State) : Result :=
  match s.arg with
  | .nums a b _ => s.collMove (dieNum a) b
  | .contribution d group rank opc type seq data =>
    match s.joinRemote d group rank opc type seq data with
    | some t => .next t
    | none => noSuch
  | _ => withMsg s (fun c m => collectiveArrival s c m)

def execCollectiveSum (s : State) : Result := collectiveRow s
def execCollectiveMax (s : State) : Result := collectiveRow s
def execCollectiveMin (s : State) : Result := collectiveRow s
def execAllgather (s : State) : Result := collectiveRow s

/-- COLLECTIVE TIMEOUT: every member that has contributed to an operation past its deadline ends with
TIMEOUT. -/
def execCollectiveTimeout (s : State) : Result :=
  withNums s (fun a b _ =>
    match s.collectives.find? (fun o => o.group == a && o.seq == b && o.deadline ≤ s.quartz) with
    | none => noSuch
    | some o => .next ({ s with collectives := s.collectives.erase o }.endParts o.parts 25 []))

/-! ### Kills and the answers of the kernel -/

/-- A kill at a die's engine: queued commands end, what its members have contributed is taken back and ends. -/
def State.killCollective (s : State) (d : DieId) (domain : BitVec 16) : State :=
  let mine (c : Command) : Bool := c.domain == domain
  let s := ((s.die d).collQueue.filter mine).foldl (fun s c =>
    ((s.dropWaiter (.collective d c.id)).leaveTokens (.collective d c.id)).endCollCmd d c 6) s
  let taken := s.collectives.flatMap (fun o => o.parts.filter (fun p => p.die == d && !p.remote && mine p.cmd))
  let rest := s.collectives.filterMap (fun o =>
    let ps := o.parts.filter (fun p => !(p.die == d && !p.remote && mine p.cmd))
    if ps.isEmpty then none else some { o with parts := ps })
  let s := { s with collectives := rest }.endParts taken 6 []
  ((s.die d).members.filter (fun v => mine v.cmd && v.status == 0 && v.state != .sent)).foldl (fun s v =>
    (s.leaveTokens (.collective d v.cmd.id)).setMember d v.cmd.id (fun v =>
      { v with state := .running, status := 6 })) s

/-- RETRY, and the answer FILL: a command or a member goes on. -/
def State.retryColl (s : State) (d : DieId) (id : Nat) : State :=
  let s := s.setCollCmd d id (fun c => match c.wait with
    | .stopped _ | .missing => c.again
    | _ => c)
  s.setMember d id (fun v => match v.state with
    | .stopped _ _ _ | .missing => { v with state := .running }
    | _ => v)

/-- FAIL (R353): a barrier refused, or a read or a write. -/
def State.denyColl (s : State) (d : DieId) (id : Nat) (cause : Nat) : State :=
  match (s.die d).collQueue.find? (·.id == id) with
  | some c =>
    if c.started then s.endCollCmd d c (c.readFailed cause)
    else s.setCollCmd d id (fun c => { c with wait := .bad })
  | none =>
    match (s.die d).members.find? (·.cmd.id == id) with
    | none => s
    | some v =>
      if v.status ≠ 0 then s.endMember d v v.status
      else if v.written then s.endMember d v (statusOf cause)
      else s.setMember d id (fun v => { v with state := .running, status := statusOf cause })

/-- The answer ABSENT. -/
def State.collAbsent (s : State) (d : DieId) (id : Nat) (cause : Nat) (addr : Word) (kind : Nat) : State :=
  if isRetryable cause then
    let s := s.retryColl d id
    match (s.die d).collQueue.find? (·.id == id) with
    | some c => s.stopCollCmd d c cause addr
    | none =>
      match (s.die d).members.find? (·.cmd.id == id) with
      | some v => s.faultMember d v cause addr kind
      | none => s
  else s.denyColl d id cause

/-! ### BARRIER ARRIVAL (R304) -/

/-- BARRIER ARRIVAL: an engine's arrival reaches the barrier's home, where it is served as an AMO is; its answer, from
requester 266, tells the copy, gather or member that made it whether it was stale. -/
def execBarrierArrival (s : State) : Result :=
  withProto s (fun p =>
    let stale := p.old == BitVec.allOnes 64
    match p.unit, p.reqr, p.waiter with
    | _, 266, .copy c e => .next (s.copyArrived c e stale)
    | _, 266, .gather g id => .next (s.gatherArrived g id stale)
    | _, 266, .member d id => .next (s.memberArrived d id stale)
    | .slice d, 265, _ => .next (s.arriveSlice d { p with kind := .amo })
    | _, _, _ => noSuch)

end Sys2Proof.Machine
end

