-- ==== Sys2Proof/Machine/Seal.lean ====
section
/-! DEFINITION. The seal engine (R319 to R322, R331): OPEN, ADD and CLOSE. Commands are executed in the order
in which the engine accepts them. -/

namespace Sys2Proof.Machine

/-- Sessions open at once (R293). -/
def sealSessions : Nat := 64

def Command.sealEng (c : Command) (d : DieId) : Eng :=
  { who := c.who, at_ := kernelCore d, id := .seal d c.id, path := .seal, unit := d.val }

/-- The key handle that a command's capability names, and the session that a command names. -/
def Command.sealKey (c : Command) : BitVec 32 := BitVec.ofNat 32 (bitsOf (c.dword 2) 31 0)
def Command.sealId (c : Command) : Nat := bitsOf (c.dword 5) 5 0

/-- Does a guard pass a SEAL capability (R295, R296)? -/
def State.sealCap (s : State) (c : CoreId) (m : Msg) : Bool :=
  s.capPasses c m 4 (bitsOf (m.dword 2) 31 0)

/-- Is the layout of R331 broken? -/
def sealBroken (m : Msg) : Bool :=
  let opc := bitsOf (m.dword 0) 7 0
  bitsOf (m.dword 0) 63 14 != 0 || m.dword 6 != 0 ||
  (opc == 1 && (bitsOf (m.dword 4) 63 32 != 0 || m.dword 5 != 0)) ||
  (opc == 2 && (bitsOf (m.dword 4) 63 32 != 0 || bitsOf (m.dword 5) 63 6 != 0)) ||
  (opc == 3 && (m.dword 3 != 0 || m.dword 4 != 0 || bitsOf (m.dword 5) 63 6 != 0))

/-- The reply to a command (R325). -/
def State.sealReply (s : State) (d : DieId) (c : Command) (status id : Nat) (hashed : Word) : State :=
  s.engineReply (kernelCore d) 19 5 d.val c.opc c.core.val c.slot.val (c.dword 1) c.domain status id hashed

/-- A command reaches the engine: its fence markers are placed when it is accepted (R277). -/
def sealArrival (s : State) (c : CoreId) (m : Msg) : Result :=
  let d := dieOf c
  let k := s.die d
  if sealQueueMax ≤ k.sealQueue.length then .next (s.answerTo c m .full)
  else
    let s := s.answerTo c m .accepted
    if brokenCommand m then .next (s.badCommand c m)
    else if !s.sealCap c m then .next (s.answerCmd c m 16)
    else if sealBroken m then .next (s.answerCmd c m 17)
    else
      let cmd := s.command m (freshId k.sealQueue [])
      let cmd := { cmd with wait := .satisfied 0, markers := s.ewCount }
      .next (s.mapDie d (fun k => { k with sealQueue := k.sealQueue ++ [cmd] }))

/-- The head command leaves the queue. -/
def State.dropSeal (s : State) (d : DieId) (c : Command) : State :=
  (s.mapDie d (fun k => { k with
    sealQueue := k.sealQueue.filter (·.id != c.id),
    sealPins := if k.sealQueue.head?.any (·.id == c.id) then [] else k.sealPins })).farClear (c.sealEng d)

/-- VALUE and DETAIL of the reply to a command that does nothing (R325): the session of an ADD or CLOSE, and its bytes hashed
when it is one of the command's domain. -/
def State.sealFields (s : State) (d : DieId) (c : Command) : Nat × Word :=
  if c.opc = 1 then (0, 0)
  else
    match tabGet (s.die d).sessions c.sealId with
    | some v => (c.sealId, if v.domain = c.domain then word v.hash.length else 0)
    | none => (c.sealId, 0)

def State.endSeal (s : State) (d : DieId) (c : Command) (status id : Nat) (hashed : Word) : State :=
  (s.dropSeal d c).sealReply d c status id hashed

/-! ### OPEN -/

/-- The launch of an actor, 0 for none (R147). -/
def Slot.launchNumber (sl : Slot) : Nat := sl.launch.getD 0

/-- Is every piece of a record's destination device memory? -/
def onDevice (ps : List (Place × Nat)) : Option (List (Nat × Nat)) :=
  ps.mapM (fun p => match p.1 with
    | .memory pa .thisDie _ _ | .memory pa .otherDie _ _ => some (pa, p.2)
    | _ => none)

def State.openSeal (s : State) (d : DieId) (c : Command) : State :=
  let sl := s.slot c.core c.slot
  let n := sl.launchNumber
  if n ≠ bitsOf (c.dword 4) 31 0 then s.endSeal d c 26 0 0
  else if c.dword 3 &&& 63 ≠ 0 || !isGlobal (c.dword 3) then s.endSeal d c 27 0 0
  else
    match s.engDest (c.sealEng d) [] (c.dword 3) 4800 with
    | .miss s => s
    | .fault _ _ _ => s.endSeal d c 27 0 0
    | .ok ps =>
      match onDevice ps, tabFree (s.die d).sessions sealSessions with
      | none, _ => s.endSeal d c 27 0 0
      | _, none => s.endSeal d c 31 0 0
      | some dest, some id =>
        let usertag := ((tabGet s.launches n).map (·.usertag)).getD 0
        let v : Session :=
          { key := c.sealKey, domain := c.domain, core := c.core, slot := c.slot, actor := c.actor, launch := n, usertag,
            dest, reply := c.dword 1, hash := .empty }
        let s := s.mapDie d (fun k => { k with sessions := tabSet k.sessions id v })
        s.endSeal d c 0 id 0

/-! ### ADD and CLOSE -/

/-- The session that a command may name: open, of its domain, and of the key of its capability; else the
status it is refused with. -/
def State.sessionFor (s : State) (d : DieId) (c : Command) : Except Nat Session :=
  match tabGet (s.die d).sessions c.sealId with
  | none => .error 29
  | some v => if v.domain ≠ c.domain then .error 29 else if v.key ≠ c.sealKey then .error 16 else .ok v

/-- The whole range of an ADD is translated and checked, and its pages pinned, before a byte is hashed; it is read under
these pins. -/
def State.addSeal (s : State) (d : DieId) (c : Command) (v : Session) : State :=
  let a := c.dword 3
  let n := bitsOf (c.dword 4) 31 0
  let bad (s : State) : State := s.endSeal d c 28 c.sealId (word v.hash.length)
  if !(isGlobal a || isRsw a) then bad s
  else
    let q := c.sealEng d
    let held := (s.die d).sealPins
    let pins := if held.isEmpty then (pieces a n).filterMap (fun p => s.pinOf q [] p.1) else held
    match s.placePieces q held kindRead (pieces a n) with
    | .miss s => s
    | .fault _ _ _ => bad s
    | .ok _ =>
    match (s.mapDie d (fun k => { k with sealPins := pins })).engRead q pins a n with
    | .wait s => s
    | .miss s => s
    | .fault _ _ _ => bad s
    | .got s bs =>
      let v := { v with hash := v.hash.add bs }
      let s := s.mapDie d (fun k => { k with sessions := tabSet k.sessions c.sealId v })
      s.endSeal d c 0 c.sealId (word v.hash.length)

/-- CLOSE: the record is signed and written, and the reply follows. -/
def State.shutSeal (s : State) (d : DieId) (c : Command) (v : Session) : State :=
  (s.dropSeal d c).closeSession d c.sealId v false (c.dword 1)

/-! ### The rows -/

/-- The head of the queue is executed once its markers are back. -/
def State.sealMove (s : State) (d : DieId) : State :=
  match (s.die d).sealQueue with
  | [] => s
  | c :: _ =>
    if !s.commandReady c || s.missing (c.sealEng d) then s
    else if c.opc = 1 then s.openSeal d c
    else
      match s.sessionFor d c with
      | .error st => s.endSeal d c st (s.sealFields d c).1 (s.sealFields d c).2
      | .ok v => if c.opc = 2 then s.addSeal d c v else s.shutSeal d c v

/-- A seal row: the arrival of a command with its opcode, or the execution of the head. -/
def sealRow (s : State) : Result :=
  match s.arg with
  | .nums a _ _ => .next (s.sealMove (dieNum a))
  | _ => withMsg s (fun c m => sealArrival s c m)

def execSealOpen (s : State) : Result := sealRow s
def execSealAdd (s : State) : Result := sealRow s
def execSealClose (s : State) : Result := sealRow s

/-- The answer ABSENT to the head command: its range or its destination fails. -/
def State.sealAbsent (s : State) (d : DieId) (id : Nat) : State :=
  match (s.die d).sealQueue.find? (·.id == id) with
  | none => s
  | some c => s.endSeal d c (if c.opc = 1 then 27 else 28) (s.sealFields d c).1 (s.sealFields d c).2

/-- A kill at a die's engine: the domain's sessions are abandoned, its other commands cancelled (R294,
R324). -/
def State.killSeal (s : State) (d : DieId) (domain : BitVec 16) : State :=
  ((s.die d).sealQueue.filter (·.domain == domain)).foldl (fun s c =>
    s.endSeal d c 6 (s.sealFields d c).1 (s.sealFields d c).2) s

end Sys2Proof.Machine
end

