-- ==== Sys2Proof/Machine/Guard.lean ====
section
/-! DEFINITION. Guard control (R129): rights records, shares, capabilities, send rights, admit entries, kills
(R218, R294), gate revocation (R208), allotments (R134), collective groups (R316), peer windows (R379),
Garnet (R369); and RESOLVE (R353). QREPAIR stands with the command queues. -/

namespace Sys2Proof.Machine

/-- Statuses of R129. -/
def gcFull : Nat := 1
def gcBadport : Nat := 2
def gcBaddesc : Nat := 3

/-- A guard-control command: from a kernel actor, of a given length, perhaps for kernel cores alone; what it
does answers its status and detail. -/
def guardOp (s : State) (plen : Nat) (servedBy : CoreId → Bool) (g : CoreId → Msg → State → State × Nat × Nat) :
    Result :=
  withMsg s (fun c m =>
    if m.domain ≠ 0 || m.port ≠ 21 then noSuch
    else
      let s := s.answerTo c m .accepted
      if !servedBy c then .next (s.guardReply c m gcBadport 0)
      else if m.payload.length ≠ plen then .next (s.guardReply c m gcBaddesc 0)
      else
        let (s, st, detail) := g c m s
        .next (s.guardReply c m st detail))

def anyCore (_ : CoreId) : Bool := true

def State.mapGuard (s : State) (c : CoreId) (f : Guard → Guard) : State :=
  s.mapCore c (fun k => { k with guard := f k.guard })

def domainField (w : Word) : BitVec 16 := BitVec.ofNat 16 (bitsOf w 15 0)

/-- The id that no domain bears (R116). -/
def noDomain : BitVec 16 := 0xFFFF

/-! ### Rights records, shares, capabilities -/

/-- RIGHTS: a domain's rights record loaded or withdrawn. A domain whose record is loaded again after a kill
is a new one. The record of domain 0 is built in: a load adds none, and a withdrawal leaves it (R408), with status 0
(assumption 64). -/
def execRights (s : State) : Result :=
  guardOp s 2 anyCore (fun c m s =>
    let w := m.dword 0
    let d := domainField w
    if bitsOf w 63 17 ≠ 0 || d = noDomain then (s, gcBaddesc, 0)
    else
      let load (g : Guard) : Guard := { g with
        rights := if d = 0 then g.rights else d :: g.rights.filter (· != d), withdrawn := g.withdrawn.filter (· != d),
        killed := g.killed.filter (· != d) }
      let drop (g : Guard) : Guard := if d = 0 then g else { g with
        rights := g.rights.filter (· != d), withdrawn := d :: g.withdrawn.filter (· != d) }
      (s.mapGuard c (if bitOf w 16 then load else drop), 0, 0))

/-- SHARE: a region shared to a domain (R123). -/
def execShare (s : State) : Result :=
  guardOp s 2 anyCore (fun c m s =>
    let w := m.dword 0
    let n := slotOf (bitsOf w 3 0)
    let i := bitsOf w 6 4
    let g := (s.core c).guard
    match (s.slot c n).regions[i]? with
    | none => (s, gcBaddesc, 0)
    | some r =>
      if bitsOf w 15 7 ≠ 0 || bitsOf w 63 33 ≠ 0 || bitsOf w 31 16 = noDomain.toNat || r.stack then (s, gcBaddesc, 0)
      else
        match tabFree g.shares 32 with
        | none => (s, gcFull, 0)
        | some e =>
          let v : Share := { slot := n, region := i, domain := BitVec.ofNat 16 (bitsOf w 31 16), write := bitOf w 32 }
          (s.mapGuard c (fun g => { g with shares := tabSet g.shares e v }), 0, e))

/-- UNSHARE. -/
def execUnshare (s : State) : Result :=
  guardOp s 2 anyCore (fun c m s =>
    let w := m.dword 0
    if bitsOf w 63 5 ≠ 0 then (s, gcBaddesc, 0)
    else (s.mapGuard c (fun g => { g with shares := tabDel g.shares (bitsOf w 4 0) }), 0, 0))

/-- Is a value a capability: of a domain, its kind valid, and no bit above its object's (R116, R295)? -/
def isCapability (w : Word) : Bool :=
  let o := bitsOf w 35 0
  bitsOf w 63 48 != noDomain.toNat &&
  match bitsOf w 47 44 with
  | 1 => o < 2048
  | 2 => o < 64
  | 3 => o < 256
  | 4 => o < 2 ^ 32
  | 5 => true
  | _ => false

/-- CAPLOAD: up to 256 capabilities. -/
def execCapload (s : State) : Result :=
  guardOp s 2 anyCore (fun c m s =>
    let w := m.dword 0
    let g := (s.core c).guard
    if !isCapability w then (s, gcBaddesc, 0)
    else if g.caps.contains w then (s, 0, 0)
    else if 256 ≤ g.caps.length then (s, gcFull, 0)
    else (s.mapGuard c (fun g => { g with caps := g.caps ++ [w] }), 0, 0))

/-- CAPREVOKE. -/
def execCaprevoke (s : State) : Result :=
  guardOp s 2 anyCore (fun c m s =>
    let w := m.dword 0
    let held := (s.core c).guard.caps.contains w
    (s.mapGuard c (fun g => { g with caps := g.caps.filter (· != w) }), 0, if held then 1 else 0))

/-! ### Send rights and admit entries -/

/-- The index of an entry of a table. -/
def tabIndex {α : Type} [DecidableEq α] (t : Tab α) (v : α) : Option Nat := (t.find? (fun p => p.2 == v)).map (·.1)

/-- An entry added to a table of a size, or removed: the table, the status and the index. The removal of an entry that
the table does not hold answers OK with index 0 (assumption 92). -/
def editTable {α : Type} [DecidableEq α] (t : Tab α) (size : Nat) (v : α) (add : Bool) : Tab α × Nat × Nat :=
  match tabIndex t v, add with
  | some i, true => (t, 0, i)
  | some i, false => (tabDel t i, 0, i)
  | none, false => (t, 0, 0)
  | none, true =>
    match tabFree t size with
    | none => (t, gcFull, 0)
    | some i => (tabSet t i v, 0, i)

/-- SENDRIGHT. -/
def execSendright (s : State) : Result :=
  guardOp s 4 anyCore (fun c m s =>
    let w := m.dword 0
    if bitsOf w 63 17 ≠ 0 || domainField w = noDomain then (s, gcBaddesc, 0)
    else
      let v : SendRight := { domain := domainField w, pattern := m.dword 1, mask := m.dword 2 }
      let (t, st, i) := editTable (s.core c).guard.sendRights 64 v (bitOf w 16)
      (s.mapGuard c (fun g => { g with sendRights := t }), st, i))

/-- ADMIT. -/
def execAdmitEntry (s : State) : Result :=
  guardOp s 3 anyCore (fun c m s =>
    let w := m.dword 0
    if bitsOf w 31 28 ≠ 0 || bitsOf w 63 33 ≠ 0 || bitsOf (m.dword 1) 63 16 ≠ 0 || domainField w = noDomain then
      (s, gcBaddesc, 0)
    else
      let v : Admit := { domain := domainField w, device := BitVec.ofNat 12 (bitsOf w 27 16), slots := domainField (m.dword 1) }
      let (t, st, i) := editTable (s.core c).guard.admits 64 v (bitOf w 32)
      (s.mapGuard c (fun g => { g with admits := t }), st, i))

/-! ### KILL (R218, R294) -/

/-- A kill ordered of the bound activations of a core that it touches. -/
def State.killBound (s : State) (c : CoreId) (d : BitVec 16) : State × Nat :=
  let dead := s.dead c d
  let hit (y : Ctx) : Bool := y.act.isSome && killTouches dead y
  let n := ((s.core c).ctxs.toList.filter hit).length
  (s.mapCore c (fun k => { k with
    ctxs := k.ctxs.map (fun y => if hit y then { y with stops := y.stops ++ [.kill d] } else y) }), n)

/-- A kill applied to the suspended activations of a core. An evicted one meets it when it is restored. -/
def State.killFrames (s : State) (c : CoreId) (d : BitVec 16) : State × Nat :=
  (List.range 16).foldl (fun (a : State × Nat) i =>
    let n := slotOf i
    let sl := a.1.slot c n
    match sl.saved with
    | none => a
    | some v =>
      if (sl.state == .suspended || sl.state == .dying) && killTouches (a.1.dead c d) v.ctx then (a.1.killSaved c n d, a.2 + 1) else a) (s, 0)

/-- A kill applied to the copies of a core. -/
def State.killCopies (s : State) (c : CoreId) (d : BitVec 16) : State :=
  (List.range 128).foldl (fun s i =>
    let e := entryOf i
    if (s.core c).copies[e].any (fun v => v.domain == d && v.status == 0) then s.killCopy c e else s) s

/-- A kill applied to the engines that a core fronts. -/
def State.killEngines (s : State) (c : CoreId) (d : BitVec 16) : State :=
  let s := (s.killCopies c d).killMatrix c d
  let s := if c.val % 32 = 0 then s.killGathers (clusterOf c) d else s
  if isKernelCore c then
    let die := dieOf c
    ((s.killCollective die d).abandonSessions (fun e v => e == die && v.domain == d)).killSeal die d
  else s

/-- KILL: each affected activation and engine request of the core. -/
def execKill (s : State) : Result :=
  guardOp s 2 anyCore (fun c m s =>
    let w := m.dword 0
    let d := domainField w
    if bitsOf w 63 16 ≠ 0 || d = noDomain then (s, gcBaddesc, 0)
    else
      let (s, a) := s.killBound c d
      let (s, b) := s.killFrames c d
      let s := s.mapGuard c (fun g => { g with killed := d :: g.killed.filter (· != d) })
      (s.killEngines c d, 0, a + b))

/-! ### Gates, allotments, groups, windows, Garnet -/

/-- GATEINV: the cached descriptor is dropped; the detail is the count of R208. -/
def execGateinv (s : State) : Result :=
  guardOp s 2 anyCore (fun c m s =>
    let w := m.dword 0
    if bitsOf w 63 16 ≠ 0 then (s, gcBaddesc, 0)
    else
      let id := bitsOf w 15 0
      let n := (tabGet (s.core c).guard.gateCounts id).getD 0
      (s.mapGuard c (fun g => { g with gates := g.gates.filter (·.id != id) }), 0, n))

/-- ALLOT: the period and the allotment of a domain; this period's budget is the whole allotment. -/
def execAllot (s : State) : Result :=
  guardOp s 4 anyCore (fun c m s =>
    let w := m.dword 0
    let d := domainField w
    let p := (m.dword 1).toNat
    let a := (m.dword 2).toNat
    if bitsOf w 63 16 ≠ 0 || p < 10 || 100000 < p || 4 * p * 1000 < a || d = 0 || d = noDomain then (s, gcBaddesc, 0)
    else
      let b : Budget := { domain := d, period := p, allot := a, left := a, index := s.quartz / (p * 1000) }
      (s.mapCore c (fun k => { k with budgets := k.budgets.filter (·.domain != d) ++ [b] }), 0, 0))

/-- COLLGRP: a group of the die defined, its members read in rank order from kernel memory, or deleted. -/
def execCollgrp (s : State) : Result :=
  guardOp s 4 isKernelCore (fun c m s =>
    let w := m.dword 0
    let id := bitsOf w 7 0
    let n := bitsOf w 19 8 + 1
    let t := (m.dword 2).toNat
    let set (f : Tab Group → Tab Group) : State := s.mapDie (dieOf c) (fun d => { d with groups := f d.groups })
    if bitsOf w 63 21 ≠ 0 then (s, gcBaddesc, 0)
    else if !bitOf w 20 then (set (tabDel · id), 0, 0)
    else
      let ws := (List.range n).map (fun i => leNat (s.kernelRead c ((m.dword 1).toNat + 4 * i) 4))
      if n < 2 || t < 1000 || 10000000 < t || ws.any (2 ^ 23 ≤ ·) then (s, gcBaddesc, 0)
      else
        let members := ws.map (fun v => (v / 2048, v % 2048))
        (set (tabSet · id { members, timeout := t }), 0, 0))

/-- PEERWIN: an entry of the peer window table. -/
def execPeerwin (s : State) : Result :=
  guardOp s 4 (fun c => c.val == 0) (fun _ m s =>
    let w := m.dword 0
    let e := bitsOf w 5 0
    let base := (m.dword 1).toNat
    let len := 65536 * (m.dword 2).toNat
    if bitsOf w 63 33 ≠ 0 || base % 65536 ≠ 0 || Config.hbmEnd < base + len then (s, gcBaddesc, 0)
    else if !bitOf w 32 then ({ s with windows := tabDel s.windows e }, 0, 0)
    else
      let v : PeerWindow :=
        { device := BitVec.ofNat 12 (bitsOf w 17 6), r := bitOf w 18, w := bitOf w 19, key := bitsOf w 31 20,
          base, length := len }
      ({ s with windows := tabSet s.windows e v }, 0, 0))

/-- UNFREEZE: the Garnet of the die records again. -/
def execUnfreeze (s : State) : Result :=
  guardOp s 1 isKernelCore (fun c _ s =>
    (s.mapDie (dieOf c) (fun d => { d with garnet := { d.garnet with frozen := false } }), 0, 0))

/-! ### A fault that waits for a token (R352) -/

/-- The token that a waiter has been given. -/
def State.giveToken (s : State) (w : TokenWaiter) (t : Nat) : State :=
  let still (st : CopyState) : CopyState := match st with
    | .stopped _ a k => .stopped t a k
    | st => st
  let wait (c : Command) : Command := match c.wait with
    | .stopped _ => { c with wait := .stopped t }
    | _ => c
  match w with
  | .slot c n =>
    match (s.slot c n).saved with
    | none => s
    | some v =>
      let v := { v with waits := .fault t, finfo := (v.finfo &&& ~~~0xFFFF) ||| word (t % 2 ^ 16) }
      (s.mapSlot c n (fun sl => { sl with saved := some v })).writeFinfo c n v
  | .copy c e => s.setCopy c e (fun v => { v with state := still v.state })
  | .gather g id => s.setGather g id (fun v => { v with state := still v.state })
  | .gatherCmd g id => s.setGatherCmd g id wait
  | .matrix c id => s.mapMatrix c (fun x => { x with queue := x.queue.map (fun d => if d.id = id then wait d else d) })
  | .collective d id =>
    (s.setCollCmd d id wait).setMember d id (fun v => { v with state := still v.state })

/-- FAULT TOKEN FREED: the oldest fault that waits at a core takes a token. -/
def execFaultTokenFreed (s : State) : Result :=
  withCore s (fun c =>
    match (s.core c).faultQueue with
    | [] => .next s
    | f :: r =>
      match (s.mapCore c (fun k => { k with faultQueue := r })).takeToken (dieOf c) f.entry f.who with
      | none => .next s
      | some (s, t) => .next (s.giveToken f.who t))

/-! ### RESOLVE (R353) -/

/-- RETRY or FAIL for one waiter of a token. -/
def State.releaseWaiter (s : State) (retry : Bool) (cause : Nat) (w : TokenWaiter) : State :=
  match w with
  | .slot c n => if retry then s.retrySlot c n else s.failSlot c n cause
  | .copy c e => if retry then s.retryCopy c e else s.denyCopy c e cause
  | .matrix c id => s.setMatrixWait c id (if retry then .fresh else .bad)
  | .gather g id => if retry then s.resumeGather g id else s.denyGather g id cause
  | .gatherCmd g id => if retry then s.retryGatherCmd g id else s.denyGatherCmd g id
  | .collective d id => if retry then s.retryColl d id else s.denyColl d id cause

/-- Causes that a FAIL may name. -/
def failCause (c : Nat) : Bool := [causePage, causeDupw, causeMcheck, causeProt, causeSpperm].contains c

/-- The reply of RESOLVE, with the statuses of R129 for the wrong core and the wrong LEN: a status and how many waiters it
released. -/
def State.resolveReply (s : State) (c : CoreId) (m : Msg) (status n : Nat) : State :=
  if m.payload.isEmpty then s
  else s.kernelReply c 21 0x5B (m.payload.getLastD 0) [word (status + n % 2 ^ 24 * 256)]

/-- RESOLVE: the token's waiters retry or fail, and the token is free. -/
def execResolve (s : State) : Result :=
  withMsg s (fun c m =>
    if m.domain ≠ 0 || m.port ≠ 21 then noSuch
    else
      let s := s.answerTo c m .accepted
      let w := m.dword 0
      let t := bitsOf w 15 0
      let mode := bitsOf w 19 16
      let cause := bitsOf w 27 20
      let d := dieOf c
      if !isKernelCore c then .next (s.resolveReply c m gcBadport 0)
      else if m.payload.length ≠ 2 then .next (s.resolveReply c m gcBaddesc 0)
      else if 1 < mode || bitsOf w 63 28 ≠ 0 || (mode = 1 && !failCause cause) then .next (s.resolveReply c m 2 0)
      else
        match tabGet (s.die d).faultTokens t with
        | none => .next (s.resolveReply c m 1 0)
        | some k =>
          let s := s.mapDie d (fun d => { d with faultTokens := tabDel d.faultTokens t })
          let s := k.waiters.foldl (fun s v => s.releaseWaiter (mode = 0) cause v) s
          .next (s.resolveReply c m 0 k.waiters.length))

end Sys2Proof.Machine
end

