-- ==== Sys2Proof/Machine/Tlb.lean ====
section
/-! DEFINITION. The cluster TLB (R235, R236, R238, R239): FILL, ABSENT, the invalidations and the evictions that
no one asks for; the release of pins when a frame is unmapped (R234, R362). -/

namespace Sys2Proof.Machine

/-- Entries of a cluster TLB (R235). -/
def tlbSize : Nat := 8192

/-- Statuses of R239. -/
def tlbBadentry : Nat := 1
def tlbBadop : Nat := 12

/-! ### Entries (R236) -/

/-- The fields of an entry. -/
def TlbEntry.ofWords (d0 d1 : Word) : TlbEntry :=
  { dtag := BitVec.ofNat 16 (bitsOf d1 63 48), key := BitVec.ofNat 12 (bitsOf d1 47 36),
    ppn := BitVec.ofNat 36 (bitsOf d1 35 0), vpn := BitVec.ofNat 40 (bitsOf d0 62 23),
    size := BitVec.ofNat 2 (bitsOf d0 22 21), polmask := BitVec.ofNat 4 (bitsOf d0 20 17), r := bitOf d0 16,
    w := bitOf d0 15, x := bitOf d0 14, dup := bitOf d0 13, home := BitVec.ofNat 2 (bitsOf d0 12 11) }

/-- 64 KiB pages of an entry, as a power of two. -/
def TlbEntry.logPages (e : TlbEntry) : Nat :=
  match e.size.toNat with | 0 => 0 | 1 => 5 | _ => 14

def TlbEntry.firstPage (e : TlbEntry) : Nat := e.vpn.toNat
def TlbEntry.lastPage (e : TlbEntry) : Nat := e.vpn.toNat + 2 ^ e.logPages - 1

/-- Do two entries of one domain overlap? -/
def TlbEntry.overlaps (e f : TlbEntry) : Bool :=
  e.dtag == f.dtag && e.firstPage ≤ f.lastPage && f.firstPage ≤ e.lastPage

/-- Does HOME disagree with the physical address (R230)? -/
def State.homeWrong (s : State) (g : ClusterId) (e : TlbEntry) : Bool :=
  let pa := e.ppn.toNat * 65536
  match e.home.toNat with
  | 0 => Config.hbmEnd ≤ pa || pa / Config.dieBytes != (clusterDie g).val
  | 1 => Config.hbmEnd ≤ pa || pa / Config.dieBytes == (clusterDie g).val
  | 2 => e.key != 0
  | _ =>
    let dev := pa / 2 ^ 40
    e.key != 0 || Config.hbmEnd ≤ pa % 2 ^ 40 || s.isHere dev || !s.devices.any (fun d => d.toNat == dev)

/-- Is an entry refused with BADENTRY? -/
def State.entryBroken (s : State) (g : ClusterId) (d0 d1 : Word) : Bool :=
  let e := TlbEntry.ofWords d0 d1
  bitsOf d0 10 0 != 0 || e.size == 3 || e.vpn.toNat % 2 ^ e.logPages != 0 ||
  e.ppn.toNat % 2 ^ e.logPages != 0 || (e.dup && e.w) || s.homeWrong g e ||
  Config.opwBase ≤ e.vpn.toNat * 65536 || (!e.polmask.getLsbD 1 && (e.r || e.w))

/-! ### Removal -/

/-- Entries leave a cluster TLB and every micro-TLB of the cluster. -/
def State.dropEntries (s : State) (g : ClusterId) (gone : TlbEntry → Bool) : State :=
  let s := s.mapCluster g (fun k => { k with tlb := k.tlb.filter (!gone ·) })
  { s with cores := tabMap (fun n k =>
      if n / 32 = g.val then { k with utlb := k.utlb.filter (!gone ·) } else k) s.cores }

/-- Translations of a cluster that are mapped no more. -/
def State.forget (s : State) (g : ClusterId) (gone : TlbEntry → Bool) : State :=
  (s.dropEntries g gone).mapCluster g (fun k => { k with filled := k.filled.filter (!gone ·) })

/-- The instruction caches of a cluster forget the blocks fetched through translations that change (R35): also those
that the cluster TLB has evicted since. Blocks on their way to a fetch of the cluster are asked for again. -/
def State.dropCode (s : State) (g : ClusterId) (gone : TlbEntry → Bool) : State :=
  let fetch (f : FarRead) : Bool := match f.who with | .ctx c _ => clusterOf c == g | _ => false
  { s with
    cores := tabMap (fun n k =>
      if n / 32 = g.val then { k with icache := k.icache.filter (fun b => !gone b.entry) } else k) s.cores,
    farReads := s.farReads.filter (fun p => !fetch p.2) }

/-- Does some cluster still map a frame? -/
def State.mapped (s : State) (lo hi : Nat) : Bool :=
  s.clusters.any (fun p => (p.2.tlb ++ p.2.filled).any (fun e =>
    let a := e.ppn.toNat * 65536
    e.home.toNat < 2 && a < hi && lo < a + 65536 * 2 ^ e.logPages))

/-- A line of an unmapped frame is written back, then its pins are released (R362); it waits while its words are on
their way. -/
def State.releaseLine (s : State) (line : Nat) : State :=
  let d := lineDie line
  let past (s : State) : State := { s with unmaps := s.unmaps.filter (· != line) }
  match tabGet (s.die d).home line with
  | none => past s
  | some e =>
    match if e.cur.isSome then none else s.sliceRecall d line allWords true with
    | none => s.askHost d line true
    | some s => past (s.setDir (.slice d) line { s.dir (.slice d) line with pins := 0 })

def State.releaseLines (s : State) : State := s.unmaps.foldl State.releaseLine s

/-- The kernel's writes that are still to be performed tried again, in order; the host is asked for the lines of the rest. -/
def State.performLate (s : State) : State :=
  let s := s.lateWrites.foldl (fun s w => s.writeLine w.line w.data w.mask) { s with lateWrites := [] }
  s.lateWrites.foldl (fun s w => s.askHost (lineDie w.line) w.line true) s

/-- The lines of a frame that nothing maps any more: written back, and their pins released. -/
def State.releaseFrame (s : State) (lo hi : Nat) : State :=
  let d := dieNum (lo / Config.dieBytes)
  let lines := ((s.die d).home.map (·.1)).filter (fun l => lo ≤ l * 128 && l * 128 < hi && !s.unmaps.contains l)
  State.releaseLines { s with unmaps := s.unmaps ++ lines }

/-- The frames of removed entries released, as far as nothing maps them. -/
def State.unmapFrames (s : State) (es : List TlbEntry) : State :=
  es.foldl (fun s e =>
    let lo := e.ppn.toNat * 65536
    let hi := lo + 65536 * 2 ^ e.logPages
    if e.home.toNat < 2 && !s.mapped lo hi then s.releaseFrame lo hi else s) s

/-! ### FILL and ABSENT (R239) -/

/-- A message of the translation service: from a kernel actor, to a cluster's service core. -/
def tlbOp (s : State) (g : CoreId → ClusterId → Msg → State → Result) : Result :=
  withMsg s (fun c m =>
    if m.domain ≠ 0 || m.port ≠ 20 || c.val % 32 ≠ 1 then noSuch
    else
      let s := s.answerTo c m .accepted
      if m.payload.length ≠ 4 then .next (s.tlbReply c m tlbBadop) else g c (clusterOf c) m s)

/-- A waiter tries again. A context and a seal command look at the miss table themselves. -/
def State.wakeMiss (s : State) (w : MissWait) : State :=
  match w.who with
  | .ctx _ _ | .seal _ _ | .front _ _ => s
  | .copy c e => s.copyFilled c e
  | .matrix c id =>
    if (s.core c).matrix.queue.any (fun d => d.id == id && d.wait == .missing) then s.setMatrixWait c id .fresh
    else s
  | .gather g id => (s.resumeGather g id).retryGatherCmd g id
  | .collective d id => s.retryColl d id

/-- A page of a domain, as placement notes it (R152). -/
def pageKey (domain : BitVec 16) (page : Nat) : Nat := domain.toNat * 2 ^ 40 + page

/-- What it notes of a page that is absent: no die, and that it cannot be read. -/
def absentMark : Nat := 256

/-- A waiter takes the fault of an ABSENT. That of a context is taken once the V pipe has stopped. -/
def State.absentMiss (s : State) (domain : BitVec 16) (cause : Nat) (w : MissWait) : State :=
  match w.who with
  | .ctx c x =>
    s.mapCtx c x (fun y => { y with stops := y.stops ++ [.fault cause w.addr w.kind w.pol] })
  | .copy c e => s.copyAbsent c e cause w.addr w.kind
  | .matrix c id => s.matrixAbsent c id cause
  | .gather g id => s.gatherAbsent g id cause w.addr w.kind
  | .collective d id => s.collAbsent d id cause w.addr w.kind
  | .seal d id => s.sealAbsent d id
  | .front d q => s.mapDie d (fun k => { k with queues := k.queues.map (fun p =>
      if p.1 = q then (p.1, { p.2 with homes := tabSet p.2.homes (pageKey domain (pageOf w.addr)) absentMark }) else p) })

/-- The entry of the miss table leaves it, and its waiters. -/
def State.takeMiss (s : State) (g : ClusterId) (i : Nat) : State × BitVec 16 × List MissWait :=
  match tabGet (s.cluster g).misses i with
  | none => (s, 0, [])
  | some m => (s.mapCluster g (fun k => { k with misses := tabDel k.misses i }), m.domain, m.waiters)

/-- FILL: the entries it overlaps leave, the entry is written, unless it is not valid, and the waiters of its miss try
again. Frames that nothing maps any more are released. -/
def execFill (s : State) : Result :=
  tlbOp s (fun c g m s =>
    let d3 := m.dword 3
    if bitsOf (m.dword 2) 63 16 ≠ 0 || bitsOf d3 15 7 ≠ 0 then .next (s.tlbReply c m tlbBadop)
    else if s.entryBroken g (m.dword 0) (m.dword 1) then .next (s.tlbReply c m tlbBadentry)
    else
      let e := TlbEntry.ofWords (m.dword 0) (m.dword 1)
      let gone := (s.cluster g).filled.filter (·.overlaps e)
      let s := (s.dropCode g (·.overlaps e)).forget g (·.overlaps e)
      let old := (s.cluster g).tlb.drop (tlbSize - 1)
      let s := s.dropEntries g (old.contains ·)
      let s := if bitOf (m.dword 0) 63 then
          s.mapCluster g (fun k => { k with tlb := e :: k.tlb, filled := e :: k.filled })
        else s
      let s := s.unmapFrames gone
      let (s, _, ws) := if bitOf d3 6 then (s, 0, []) else s.takeMiss g (bitsOf d3 5 0)
      .next ((ws.foldl State.wakeMiss s).tlbReply c m 0))

/-- ABSENT: every waiter takes PAGE or PROT. -/
def execAbsent (s : State) : Result :=
  tlbOp s (fun c g m s =>
    let d3 := m.dword 3
    let cause := bitsOf (m.dword 2) 15 8
    if bitsOf (m.dword 2) 63 16 ≠ 0 || bitsOf d3 15 7 ≠ 0 ||
        (cause ≠ causePage && cause ≠ causeProt) then .next (s.tlbReply c m tlbBadop)
    else
      let (s, d, ws) := s.takeMiss g (bitsOf d3 5 0)
      .next ((ws.foldl (fun s w => s.absentMiss d cause w) s).tlbReply c m 0))

/-! ### Invalidations -/

/-- Does a copy of the cluster, or an ADD of a seal engine in it (R319), hold a translation pin in a range of pages of a domain
(0xFFFF: of any)? -/
def State.pinned (s : State) (g : ClusterId) (d : BitVec 16) (lo hi : Nat) : Bool :=
  s.dies.any (fun p => clusterOf (kernelCore (dieNum p.1)) == g && p.2.sealQueue.head?.any (fun c => c.domain == d || d == 0xFFFF) &&
    p.2.sealPins.any (fun q => lo ≤ q.1 && q.1 ≤ hi)) ||
  s.cores.any (fun p => p.1 / 32 == g.val && p.2.copies.toList.any (fun v => v.any (fun v =>
    (v.domain == d || d == 0xFFFF) &&
    (v.srcPin.toList ++ v.dstPin.toList).any (fun q => lo ≤ q.1 && q.1 ≤ hi))))

/-- Entries removed; the reply follows at once, or is owed until the pins are gone. -/
def State.invalidate (s : State) (c : CoreId) (g : ClusterId) (m : Msg) (gone : TlbEntry → Bool) (d : BitVec 16)
    (lo hi : Nat) : State :=
  let es := ((s.cluster g).tlb ++ (s.cluster g).filled).filter gone
  let s := ((s.forget g gone).dropCode g gone).unmapFrames es
  let lo := es.foldl (fun a e => min a e.firstPage) lo
  let hi := es.foldl (fun a e => max a e.lastPage) hi
  if s.pinned g d lo hi then
    s.mapCluster g (fun k => { k with owedReplies := k.owedReplies ++ [(m, d, lo, hi)] })
  else s.tlbReply c m 0

/-- Replies that were owed and are due: the copies have left the pages. -/
def State.payReplies (s : State) : State :=
  s.clusters.foldl (fun s p =>
    let g : ClusterId := Fin.ofNat 64 p.1
    p.2.owedReplies.foldl (fun s o =>
      if s.pinned g o.2.1 o.2.2.1 o.2.2.2 then s
      else
        (s.mapCluster g (fun k => { k with owedReplies := k.owedReplies.erase o })).tlbReply (serviceCore g) o.1 0)
      s) s

/-- Reserved bits of the dwords 2 and 3 of an invalidation. -/
def invBroken (m : Msg) : Bool := bitsOf (m.dword 2) 47 16 != 0 || bitsOf (m.dword 3) 15 7 != 0

/-- INVVA: the entries of a domain that cover an address. -/
def execInvva (s : State) : Result :=
  tlbOp s (fun c g m s =>
    let d := BitVec.ofNat 16 (bitsOf (m.dword 2) 63 48)
    let va := (m.dword 0).toNat % 2 ^ 56
    if invBroken m then .next (s.tlbReply c m tlbBadop)
    else .next (s.invalidate c g m (·.covers d va) d (va / 65536) (va / 65536)))

/-- INVDOM: every entry of a domain. -/
def execInvdom (s : State) : Result :=
  tlbOp s (fun c g m s =>
    let d := BitVec.ofNat 16 (bitsOf (m.dword 2) 63 48)
    if invBroken m then .next (s.tlbReply c m tlbBadop)
    else .next (s.invalidate c g m (·.dtag == d) d 0 (2 ^ 40)))

/-- INVALL: every entry. -/
def execInvall (s : State) : Result :=
  tlbOp s (fun c g m s =>
    if invBroken m then .next (s.tlbReply c m tlbBadop)
    else .next (s.invalidate c g m (fun _ => true) 0xFFFF 0 (2 ^ 40)))

/-- CLUSTER TLB EVICTION: an entry, named by its place, leaves without notice, and its micro copies with
it (R235). -/
def execClusterTlbEviction (s : State) : Result :=
  withNums s (fun a b _ =>
    let g : ClusterId := Fin.ofNat 64 a
    match (s.cluster g).tlb[b]? with
    | none => noSuch
    | some e => .next (s.dropEntries g (· == e)))

end Sys2Proof.Machine
end

