-- ==== Sys2Proof/Machine/Create.lean ====
section
/-! DEFINITION. Actors made and unmade: actor table entries and their checks (R121, R122, R124, R148), the
placement of regions (R122), CREATE and LAUNCH RECORD (R119, R120, R154, R156), DESTROY (R119, R218), and the
ends of a launch (R154, R157). -/

namespace Sys2Proof.Machine

/-! ### Actor table entries (R148) -/

/-- A byte length rounded up to 64 (R122). -/
def roundUp64 (n : Nat) : Nat := (n + 63) / 64 * 64

/-- Is a mailbox type descriptor refused (R124)? -/
def mailboxBroken (d0 d1 : Word) : Bool :=
  let logcap := bitsOf d1 19 16
  let plen := bitsOf d1 2 0
  let hmask := bitsOf d1 9 3
  bitsOf d0 63 56 != 0 || bitsOf d0 1 0 != 0 || d0 == 0 || bitsOf d1 63 40 != 0 || bitsOf d1 31 20 != 0 ||
  bitsOf d1 12 10 != 0 || logcap == 0 || 8 < logcap || 2 ^ plen ≤ hmask ||
  (bitOf d1 14 && (plen != 2 || hmask != 0 || bitOf d1 13))

/-- Counts of an entry's dword 0: regions, mailboxes, initial messages. -/
def entryRegions (w : List Word) : Nat := bitsOf (nth w 0) 33 30
def entryMailboxes (w : List Word) : Nat := bitsOf (nth w 0) 29 26
def entryInits (w : List Word) : Nat := bitsOf (nth w 5) 7 0

/-- The ranges an entry points at: mailbox descriptors, region entries, initial messages. -/
def entryRanges (w : List Word) : List (Word × Nat) :=
  [(nth w 2, 16 * min 8 (entryMailboxes w)), (nth w 3, 8 * min 8 (entryRegions w)), (nth w 4, 64 * entryInits w)]

/-- A region entry: its size and the logarithm of its alignment; none when it is refused. -/
def parseRegion (v : Word) : Option (Nat × Nat) :=
  let size := bitsOf v 31 0
  let log := bitsOf v 36 32
  if size = 0 || log < 6 || 16 < log || bitsOf v 63 37 ≠ 0 then none else some (roundUp64 size, log)

/-- An initial message: mailbox, tag, payload of its mailbox's PLEN dwords; none when it is refused. -/
def parseInit (mboxes : List (Word × Word)) (ws : List Word) : Option (Nat × Nat × List Word) :=
  let d := nth ws 0
  let mb := bitsOf d 2 0
  match mboxes[mb]? with
  | none => none
  | some b =>
    if d &&& 0xFFFFFFFFFFFF00F8 ≠ 0 then none
    else some (mb, bitsOf d 15 8, (ws.drop 1).take (bitsOf b.2 2 0))

/-- An entry with what it points at, checked; none when a rule of R122, R124, R148 or R151 is broken. Class 0
is left to the caller. -/
def parseActor (w : List Word) (mb reg init : List Byte) : Option PlanActor :=
  let d := nth w 0
  let nreg := entryRegions w
  let nmb := entryMailboxes w
  if bitsOf d 63 37 ≠ 0 || 8 < nreg || nmb = 0 || 8 < nmb || bitsOf d 25 22 = 0 || bitsOf (nth w 5) 63 8 ≠ 0 ||
      nth w 6 ≠ 0 || nth w 7 ≠ 0 || (nreg ≠ 0 && nreg ≤ bitsOf d 36 34) then none
  else
    let boxes := (List.range nmb).map (fun i =>
      (leWord ((mb.drop (16 * i)).take 8), leWord ((mb.drop (16 * i + 8)).take 8)))
    let regions := (List.range nreg).mapM (fun i => parseRegion (leWord ((reg.drop (8 * i)).take 8)))
    let inits := (List.range (entryInits w)).mapM (fun i => parseInit boxes (leWords 8 (init.drop (64 * i))))
    match regions, inits, boxes.any (fun b => mailboxBroken b.1 b.2) with
    | some regions, some inits, false =>
      some { slot := bitsOf d 15 12, fixed := bitOf d 11, core := bitsOf d 10 0, pclass := bitsOf d 19 16,
             cls := bitsOf d 21 20, weight := bitsOf d 25 22, tvec := nth w 1,
             stack := if nreg = 0 then none else some (bitsOf d 36 34), regions, mboxes := boxes, inits }
    | _, _, _ => none

/-! ### Regions placed (R122) -/

/-- Is a range free on a core? -/
def rangeFree (taken : List Region) (base size : Nat) : Bool :=
  base + size ≤ Config.spadBytes && taken.all (fun r => base + size ≤ r.base || r.base + r.size ≤ base)

/-- The lowest offset at which a range of a size and an alignment fits: 0, or just past some region. -/
def firstFit (taken : List Region) (size log : Nat) : Option Nat :=
  let up (n : Nat) : Nat := (n + 2 ^ log - 1) / 2 ^ log * 2 ^ log
  let fits := ((0 :: taken.map (fun r => r.base + r.size)).map up).filter (rangeFree taken · size)
  match fits with
  | [] => none
  | a :: r => some (r.foldl min a)

/-- Regions placed in order, first fit; none when one does not fit. -/
def placeRegions : List Region → List (Nat × Nat × Bool) → Option (List Region)
  | _, [] => some []
  | taken, (size, log, stack) :: rest =>
    (firstFit taken size log).bind (fun base =>
      let r : Region := { base, size, stack, align := log }
      (placeRegions (taken ++ [r]) rest).map (r :: ·))

/-- The regions of every actor of a core. -/
def Core.regions (k : Core) : List Region := k.slots.toList.flatMap (·.regions)

def State.zeroRegions (s : State) (c : CoreId) (rs : List Region) : State :=
  rs.foldl (fun s r => s.spadWrite c r.base (List.replicate r.size 0)) s

/-! ### CREATE (R119, R120) -/

/-- The lowest free slot of a core among 1 to 15. -/
def Core.freeSlot (k : Core) : Option SlotId :=
  ((List.range 15).map (fun i => slotOf (i + 1))).find? (fun n => k.slots[n].state == .free)

/-- The slot that a number names: 0 the lowest free one. None when it is not free. -/
def Core.pickSlot (k : Core) (n : Nat) : Option SlotId :=
  if n = 0 then k.freeSlot
  else if k.slots[slotOf n].state = .free then some (slotOf n) else none

/-- The slot of a new actor; its SEQ counter starts at 0 (assumption 90). -/
def PlanActor.newSlot (p : PlanActor) (domain : BitVec 16) (regions : List Region) (area : Word)
    (launch : Option Nat) (actor : Nat) : Slot :=
  { Slot.free with
    actor, state := .idle, domain, cls := p.cls, weight := p.weight, quota := p.weight, tvec := p.tvec, regions,
    mboxes := p.mboxes.map (fun b =>
      { desc0 := b.1, desc1 := b.2, enabled := bitOf b.2 15, waiting := [], running := false }),
    launch, area }

/-- An actor created: its status, and its slot. -/
def State.create (s : State) (c : CoreId) (slot : Nat) (p : PlanActor) (domain : BitVec 16) (area : Word)
    (launch : Option Nat) : State × Nat × Nat :=
  let k := s.core c
  match k.pickSlot slot with
  | none => (s, 1, 0)
  | some n =>
    let want := p.regions.zipIdx.map (fun r => (r.1.1, r.1.2, p.stack == some r.2))
    match placeRegions k.regions want with
    | none => (s, 2, 0)
    | some rs =>
      let s := { s with actorCount := s.actorCount + 1 }
      ((s.zeroRegions c rs).mapSlot c n (fun _ => p.newSlot domain rs area launch s.actorCount), 0, n.val)

/-! ### Requests of a system actor (R354) -/

/-- The head message of a mailbox of slot 0. -/
def State.sysHead (s : State) (c : CoreId) (mb : Nat) : Option Msg :=
  ((s.slot c 0).mboxes[mb]?).bind (fun b => b.waiting.head?.map (·.msg))

/-- It leaves its mailbox. -/
def State.sysTake (s : State) (c : CoreId) (mb : Nat) : State :=
  (s.mapCore c (fun k => { k with storeUsed := k.storeUsed - 1 })).mapSlot c 0 (fun sl => { sl with
    mboxes := sl.mboxes.modify mb (fun b => { b with waiting := b.waiting.tail }) })

/-- A request with a tag at the head of mb1, taken and served, whatever domain its sender is of (assumption 95). -/
def sysOp (s : State) (c : CoreId) (tag : Nat) (g : Msg → State → State) : Result :=
  match s.sysHead c 1 with
  | none => noSuch
  | some m => if m.tag.toNat = tag then .next (g m (s.sysTake c 1)) else noSuch

/-- The slot a request names. Of the bits of dword 0 that R354 does not list for a request other than CREATE, which it calls
neither reserved nor refused, none is looked at (assumption 100). -/
def reqSlot (m : Msg) : SlotId := slotOf (bitsOf (m.dword 0) 3 0)

def stBaddesc : Nat := 3
def stNoact : Nat := 5
def stBadstate : Nat := 13

/-- CREATE: an entry of kernel memory, a domain and a save area. -/
def execCreate (s : State) : Result :=
  withCore s (fun c =>
    sysOp s c 0x50 (fun m s =>
      let w := m.dword 0
      let domain := BitVec.ofNat 16 (bitsOf w 31 16)
      let area := m.dword 2
      let rd (p : Word × Nat) : List Byte := s.kernelRead c p.1.toNat p.2
      let e := leWords 8 (rd (m.dword 1, 64))
      let parts := (entryRanges e).map rd
      let answer (s : State) (st detail : Nat) : State := s.sysReply c (m.dword 3) st detail
      match parseActor e (parts[0]?.getD []) (parts[1]?.getD []) (parts[2]?.getD []) with
      | none => answer s stBaddesc 0
      | some p =>
        if bitsOf w 15 4 ≠ 0 || bitsOf w 63 32 ≠ 0 || domain = 0xFFFF || bitsOf area 15 0 ≠ 0 ||
            (p.cls = 0 && domain ≠ 0) then answer s stBaddesc 0
        else
          let (s, st, n) := s.create c (bitsOf w 3 0) p domain area none
          answer s st n))

/-! ### DESTROY (R119, R218) -/

/-- A suspended activation ends with its actor: discarded, or, in a kill that gives it a grace period, kept. -/
def State.destroySuspended (s : State) (c : CoreId) (n : SlotId) (kill : Bool) : State :=
  let d := (s.slot c n).domain
  let s := s.mapSlot c n (fun sl => { sl with state := .dying })
  if kill then s.killSaved c n d else s.endSaved c n

/-- A running activation's actor is DYING; a kill ends the activation at its next boundary. -/
def State.destroyActive (s : State) (c : CoreId) (n : SlotId) (kill : Bool) : State :=
  let d := (s.slot c n).domain
  let s := s.mapSlot c n (fun sl => { sl with state := .dying })
  if kill then s.mapActivation c n (fun y => { y with stops := y.stops ++ [.kill d] }) else s

/-- An EVICT is over: what it had ordered of the activation is taken back, and one it has saved is resumable. -/
def State.dropEvict (s : State) (c : CoreId) (n : SlotId) : State :=
  let back (v : Saved) : Saved := if v.waits = .evict then { v with waits := .untaken, resumable := true } else v
  let s := s.mapSlot c n (fun sl => { sl with evicting := none, saved := sl.saved.map back })
  s.mapActivation c n (fun y => { y with stops := y.stops.filter (· != .evict) })

/-- An actor destroyed, and the status. A pending EVICT of it is answered NOACTOR (assumption 83). -/
def State.destroy (s : State) (c : CoreId) (n : SlotId) (kill : Bool) : State × Nat :=
  let sl := s.slot c n
  let s := match sl.evicting with
    | some r => (s.sysReply c r.reply stNoact 0).dropEvict c n
    | none => s
  match sl.state with
  | .free => (s, stNoact)
  | .moved | .dying => (s, stBadstate)
  | .idle | .evicted => if n.val = 0 then (s, stBadstate) else (s.freeSlot c n, 0)
  | .suspended => if n.val = 0 then (s, stBadstate) else (s.destroySuspended c n kill, 0)
  | .active => if n.val = 0 then (s, stBadstate) else (s.destroyActive c n kill, 0)

/-- DESTROY. Bits of dword 0 that R354 does not list are not looked at (assumption 100). -/
def execDestroy (s : State) : Result :=
  withCore s (fun c =>
    sysOp s c 0x51 (fun m s =>
      let (s, st) := s.destroy c (reqSlot m) (bitOf (m.dword 0) 8)
      s.sysReply c (m.dword 1) st 0))

/-- CLEAR: a MOVED slot is free. -/
def execClear (s : State) : Result :=
  withCore s (fun c =>
    sysOp s c 0x53 (fun m s =>
      let n := reqSlot m
      if (s.slot c n).state = .moved then (s.mapSlot c n (fun _ => Slot.free)).sysReply c (m.dword 1) 0 0
      else s.sysReply c (m.dword 1) stBadstate 0))

/-! ### The end of a launch (R154, R157) -/

/-- The completion message leaves the front end; the launch is over: its clock changes are dropped, its
sessions abandoned, and its grant released, which is a re-grant event. -/
def State.completeLaunch (s : State) (n : Nat) (status : Nat) : State :=
  match tabGet s.launches n with
  | none => s
  | some l =>
    let made := (l.actors.filter (·.created)).length
    let m := { frontMsg l.die l.complete 0xC0 [word n, word (status + made * 256), l.usertag, word s.quartz] 0 with
      src := .completion l.die n }
    let s := s.mapLaunch n (fun l => { l with state := .completed, status })
    let s := s.abandonSessions (fun _ v => v.launch == n)
    let s := { s with arbiter := { s.arbiter with
      due := true, changes := s.arbiter.changes.filter (·.launch != n) } }
    s.post (agentFront l.die) m

/-- A launch fails at a CREATE: what was created is destroyed; once no actor of it remains, the completion says why. R154 does
not say in which of the two forms of R119: it is that with KILL (assumption 106). -/
def State.failLaunch (s : State) (n : Nat) (status : Nat) : State :=
  match tabGet s.launches n with
  | none => s
  | some l =>
    let s := s.mapLaunch n (fun l => { l with state := .failing status, endedAt := some s.quartz })
    l.actors.foldl (fun s a => if a.created && !a.destroyed then (s.destroy a.core a.slot true).1 else s) s

/-- The initial messages of a launch, each actor's in table order. -/
def State.sendInits (s : State) (l : Launch) : State :=
  l.actors.foldl (fun s a =>
    a.plan.inits.foldl (fun s i =>
      s.post (agentFront l.die)
        (frontMsg l.die (endpointOf a.core.val a.slot.val i.1) i.2.1 i.2.2 l.domain)) s) s

/-! ### LAUNCH RECORD (R156) -/

/-- The status a refused CREATE gives a launch. -/
def createFailure (p : PlanActor) (st : Nat) : Nat :=
  if st = 2 then 3 else if st = 1 && !p.fixed then 2 else 1

/-- The save area of a launched actor: the manual's launch record names none (assumption 14). -/
def launchArea (n i : Nat) : Word := word ((Config.savePage n i).toNat * 65536)

/-- One actor of a launch created, or the launch failed; the first one makes it resident, which is a re-grant
event, and the last one starts it. -/
def State.createLaunched (s : State) (n i : Nat) (l : Launch) (a : LaunchActor) : State :=
  let (s, st, _) := s.create a.core a.slot.val a.plan l.domain (launchArea n i) (some n)
  if st ≠ 0 then s.failLaunch n (createFailure a.plan st)
  else
    let s := s.mapLaunch n (fun l => { l with actors := l.actors.modify i (fun a => { a with created := true }) })
    let s := if l.actors.any (·.created) then s else { s with arbiter := { s.arbiter with due := true } }
    match tabGet s.launches n with
    | none => s
    | some l =>
      if l.actors.all (·.created) then (s.mapLaunch n (fun l => { l with state := .running })).sendInits l else s

/-- LAUNCH RECORD: the system actor takes a record from its mb0 and creates the actor it names. -/
def execLaunchRecord (s : State) : Result :=
  withCore s (fun c =>
    match s.sysHead c 0 with
    | none => noSuch
    | some m =>
      if m.tag ≠ 0x4C then noSuch
      else
        let s := s.sysTake c 0
        let n := bitsOf (m.dword 1) 31 0
        let i := bitsOf (m.dword 1) 39 32
        match tabGet s.launches n with
        | none => .next s
        | some l =>
          match l.actors[i]?, l.state with
          | some a, .creating => if a.core = c && !a.created then .next (s.createLaunched n i l a) else .next s
          | _, _ => .next s)

end Sys2Proof.Machine
end

