-- ==== Sys2Proof/Machine/System.lean ====
section
/-! DEFINITION. The system actor's requests over an actor that exists (R354): PREEMPT and RESUME (R355), EVICT
(R143, R356, R357) and RESTORE (R144, R358). -/

namespace Sys2Proof.Machine

/-! ### PREEMPT and RESUME (R355) -/

/-- PREEMPT: the activation is saved at its next boundary, which answers the request. Bits of dword 0 that R354 does not list
are not looked at (assumption 100). -/
def execPreempt (s : State) : Result :=
  withCore s (fun c =>
    sysOp s c 0x55 (fun m s =>
      let n := reqSlot m
      let r := m.dword 1
      if (s.slot c n).state = .active then
        s.mapActivation c n (fun y => { y with stops := y.stops ++ [.preempt r] })
      else s.sysReply c r stBadstate 0))

/-- RESUME: an activation saved with REASON 2 is resumable. -/
def execResume (s : State) : Result :=
  withCore s (fun c =>
    sysOp s c 0x56 (fun m s =>
      let n := reqSlot m
      let sl := s.slot c n
      let r := m.dword 1
      if (sl.state == .suspended || sl.state == .dying) && sl.saved.any (·.reason == 2) then
        (s.mapSlot c n (fun sl => { sl with
          saved := sl.saved.map (fun v => { v with resumable := true }) })).sysReply c r 0 0
      else s.sysReply c r stBadstate 0))

/-! ### The image of an actor (R357) -/

/-- Dword 0 of an actor's table entry, as placed (R148). -/
def Slot.entryWord (sl : Slot) (c : CoreId) (n : SlotId) : Word :=
  let stack := (sl.regions.findIdx? (·.stack)).getD 0
  word (stack * 2 ^ 34 + sl.regions.length * 2 ^ 30 + sl.mboxes.length * 2 ^ 26 + sl.weight * 2 ^ 22 +
    sl.cls * 2 ^ 20 + n.val * 2 ^ 12 + 2 ^ 11 + c.val)

/-- A region descriptor (R121). -/
def Region.word (r : Region) (owner : BitVec 16) : Word :=
  Machine.word (owner.toNat * 2 ^ 48 + (if r.stack then 2 ^ 41 else 0) + (r.size / 64 - 1) * 2 ^ 23 + r.base)

def Region.ofWord (d : Word) (align : Nat) : Region :=
  { base := bitsOf d 18 6 * 64, size := (bitsOf d 35 23 + 1) * 64, stack := bitOf d 41, align }

/-- EN of a mailbox shown in its descriptor (R124). -/
def Mailbox.typeWord (b : Mailbox) : Word :=
  (b.desc1 &&& 0xFFFFFFFFFFFF7FFF) ||| (if b.enabled then 0x8000 else 0)

/-- A message put in its place in the order of acceptance. -/
def putInOrder (a : Stored × Nat) : List (Stored × Nat) → List (Stored × Nat)
  | [] => [a]
  | b :: r => if a.1.order ≤ b.1.order then a :: b :: r else b :: putInOrder a r

/-- Waiting messages with their mailbox, in the order of their acceptance. -/
def Slot.inOrder (sl : Slot) : List (Stored × Nat) :=
  (sl.mboxes.zipIdx.flatMap (fun b => b.1.waiting.map (fun m => (m, b.2)))).foldr putInOrder []

/-- The slots an actor has claimed. -/
def Core.claimed (k : Core) (n : SlotId) : List Nat :=
  (k.claims.filter (fun p => p.2.slot == n && p.2.actor == k.slots[n].actor)).map (·.1)

def maskOf (l : List Nat) : Nat := l.foldl (fun a i => a + 2 ^ i) 0

/-- The accumulators of a mask. -/
def accsOf (mask : BitVec 4) : List (Fin 4) := ((List.range 4).map (Fin.ofNat 4)).filter (fun a => mask.getLsbD a.val)

/-- An accumulator row-major, 16 KiB. -/
def Accum.bytes (a : Accum) : List Byte :=
  (List.range 4096).flatMap (fun e => leBytes 4 ((tabGet a.data e).getD 0).toNat)

/-- Offsets of the variable parts of an image, and its size. -/
structure ImageMap where
  msgs : Nat
  boxes : Nat
  regions : Nat
  slots : Nat
  accs : Nat
  size : Nat

def imageMap (nmsg : Nat) (regions : List Region) (slots accs : Nat) : ImageMap :=
  let boxes := 0x1A00 + 64 * nmsg
  let r := roundUp64 (boxes + nmsg)
  let sl := r + regions.foldl (fun a v => a + v.size) 0
  let ac := sl + 4096 * slots
  { msgs := 0x1A00, boxes, regions := r, slots := sl, accs := ac, size := ac + 16384 * accs }

/-- The 512 bytes at the head of an image. St is the saved state, and mask the accumulators'. -/
def State.actorHeader (s : State) (c : CoreId) (n : SlotId) (st : Nat) (mask : BitVec 4) : List Byte :=
  let k := s.core c
  let sl := k.slots[n]
  let nmsg := sl.stored
  let claimed := k.claimed n
  let o := imageMap nmsg sl.regions claimed.length (accsOf mask).length
  let ready := sl.saved.any (fun v => v.resumable || v.waits == .evict)
  let w0 := word (1 + st * 16 + (if ready then 128 else 0) + n.val * 2 ^ 8 + c.val * 2 ^ 12 + sl.domain.toNat * 2 ^ 32)
  let head := [w0, sl.entryWord c n, sl.tvec, word (sl.seq.toNat + sl.quota % 16 * 2 ^ 8 + nmsg * 2 ^ 16),
    word o.msgs, word o.boxes, word o.regions, word o.slots, word o.accs, word (maskOf claimed),
    word mask.toNat, word (s.lclkNow c)].flatMap wordBytes
  pad 0x60 head ++ pad 64 (sl.regions.flatMap (fun r => wordBytes (r.word sl.domain))) ++ List.replicate 96 0 ++
    pad 128 (sl.mboxes.flatMap (fun b => wordBytes b.desc0 ++ wordBytes b.typeWord)) ++ List.replicate 128 0

/-- The image of an actor. -/
def State.image (s : State) (c : CoreId) (n : SlotId) (mask : BitVec 4) : List Byte :=
  let k := s.core c
  let sl := k.slots[n]
  let st := if sl.saved.isSome then 3 else 1
  let frame := match sl.saved with
    | some v => s.kernelRead c v.ctx.frame.toNat 6144
    | none => List.replicate 6144 0
  let msgs := sl.inOrder
  let body := s.actorHeader c n st mask ++ frame ++ msgs.flatMap (fun m => Msg.image m.1.msg) ++
    msgs.map (fun m => BitVec.ofNat 8 m.2)
  pad (roundUp64 body.length) body ++ sl.regions.flatMap (fun r => k.spad.bytes r.base r.size) ++
    (k.claimed n).flatMap (fun i => k.opnd.bytes (4096 * i) 4096) ++
    (accsOf mask).flatMap (fun a => k.matrix.accs[a].bytes)

/-! ### EVICT (R143, R356) -/

/-- Does a range of addresses, seen from a core, touch the scratchpad of a core within a region? -/
def touches (from_ c : CoreId) (r : Region) (a : Word) (n : Nat) : Bool :=
  let hit (base : Nat) : Bool :=
    let lo := base + r.base
    a.toNat < lo + r.size && lo < a.toNat + n
  hit (Config.rswBase + c.val * Config.spadBytes) || (from_ == c && hit Config.lswBase)

/-- Does a copy in flight read or write a region? -/
def Copy.touches (v : Copy) (from_ c : CoreId) (r : Region) : Bool :=
  let src := if v.rows then (v.len / 64 - 1) * v.pitch + 64 else v.len
  v.state != .ended && (Machine.touches from_ c r v.w0 src || Machine.touches from_ c r v.w1 v.len ||
    (v.target.flag && Machine.touches from_ c r v.w3 8))

def Gather.touches (v : Gather) (c : CoreId) (r : Region) : Bool :=
  (!v.opw && v.dcore == c && v.doff < r.base + r.size && r.base < v.doff + v.n * v.rowBytes) ||
  Machine.touches v.cmd.core c r v.list (v.n * v.indexBytes) ||
  (v.target.flag && Machine.touches v.cmd.core c r v.done1 8)

/-- May a domain reach a region of a slot: its own, or shared to it (R123)? -/
def Core.reaches (k : Core) (n : SlotId) (i : Nat) (d : BitVec 16) : Bool :=
  k.slots[n].domain == d || k.guard.shares.any (fun p => p.2.slot == n && p.2.region == i && p.2.domain == d)

/-- Does some engine request still read or write region i of a slot? A queued command whose descriptor has not been read may,
if its domain may. -/
def State.regionBusy (s : State) (c : CoreId) (n : SlotId) (r : Region) (i : Nat) : Bool :=
  let may (d : Command) : Bool := (s.core c).reaches n i d.domain
  s.storeOut c false r.base (r.base + r.size) ||
  s.clusters.any (fun p => p.2.gatherQueue.any may) ||
  s.dies.any (fun p => p.2.collQueue.any (fun v => !v.described && may v)) ||
  s.cores.any (fun p => p.2.copies.toList.any (fun v => v.any (·.touches (coreOf p.1) c r))) ||
  s.clusters.any (fun p => p.2.gathers.any (·.touches c r)) ||
  s.dies.any (fun p =>
    p.2.members.any (fun v =>
      touches v.cmd.core c r v.dst v.result.length || (v.target.flag && touches v.cmd.core c r v.done1 8)) ||
    p.2.collQueue.any (fun v => v.described && (touches v.core c r (v.desc 0) v.sourceBytes ||
      touches v.core c r (v.desc 1) (v.resultBytes ((tabGet p.2.groups v.collGroup).map (·.members.length))) ||
      (bitOf (v.desc 3) 32 && touches v.core c r (v.desc 4) 8))) ||
    p.2.sealQueue.any (fun v => v.opc == 2 && touches v.core c r (v.dword 3) (bitsOf (v.dword 4) 31 0))) ||
  s.collectives.any (fun o => o.parts.any (fun p =>
    !p.remote && (touches p.cmd.core c r p.dst (p.cmd.resultBytes
        ((tabGet (s.die p.die).groups o.group).map (·.members.length))) ||
      (bitOf p.done0 32 && touches p.cmd.core c r p.done1 8))))

/-- Commands of a matrix unit. -/
def Matrix.commands (x : Matrix) : List Command :=
  x.queue ++ (x.running.map (·.cmd)).toList ++ x.drains.map (·.cmd)

/-- The accumulators of a mask freed. -/
def Matrix.freeAccs (x : Matrix) (mask : BitVec 4) : Matrix :=
  { x with accs := Vector.ofFn (fun a => if mask.getLsbD a.val then .free else x.accs[a]) }

/-- Has everything ended that an eviction waits for? -/
def State.evictReady (s : State) (c : CoreId) (n : SlotId) (mask : BitVec 4) : Bool :=
  let k := s.core c
  let sl := k.slots[n]
  let his (d : Command) : Bool := d.core == c && d.slot == n
  let claimed := k.claimed n
  !k.drainsTo n &&
  !k.copies.toList.any (fun v => v.any (fun v => v.slot == n && v.state != .ended)) &&
  !s.cores.any (fun p => p.2.matrix.commands.any his) &&
  !s.clusters.any (fun p => p.2.gatherQueue.any his || p.2.gathers.any (fun v => his v.cmd)) &&
  !sl.regions.zipIdx.any (fun p => s.regionBusy c n p.1 p.2) &&
  !claimed.any (s.slotInUse c ·) &&
  !k.matrix.commands.any (fun d => mask.getLsbD d.acc.val)

/-- The eviction itself: the image is written, the place, the claimed slots and the accumulators freed, and the slot is
EVICTED. Messages still in the overflow queue of an earlier eviction stay at its head, at its new address (assumption 81). -/
def State.finishEvict (s : State) (c : CoreId) (n : SlotId) (r : EvictReq) : State :=
  let img := s.image c n r.accmask
  let s := s.kernelWrite c r.image.toNat img
  let slots := (s.core c).claimed n
  let left : List (Msg × Nat) := ((s.slot c n).overflow.map (·.msgs)).getD []
  let s := left.zipIdx.foldl (fun s p =>
    s.kernelWrite c (r.overflow.toNat + 128 * p.2) (pad 128 (Msg.image p.1.1 ++ wordBytes (word p.1.2)))) s
  let aligns := (s.slot c n).regions.map (·.align)
  let gone := (s.slot c n).stored
  let s := s.freePlace c n
  let s := s.mapCore c (fun k => { k with
    storeUsed := k.storeUsed - gone,
    matrix := k.matrix.freeAccs r.accmask })
  let s := slots.foldl (fun s i => s.mapCore c (fun k => Core.zeroSlot { k with claims := tabDel k.claims i } i)) s
  let s := s.mapSlot c n (fun sl => { sl with
    state := .evicted, evicting := none, image := some (r.image, aligns),
    overflow := some { addr := r.overflow, quota := r.quota, msgs := left } })
  s.sysReply c r.reply 0 img.length

/-- An EVICT begins, once no drain to the actor is in progress (R311): it starts no activation any more, and a running one is
saved (R356). -/
def State.beginEvict (s : State) (c : CoreId) (n : SlotId) : State :=
  if (s.core c).drainsTo n then s
  else
    let s := s.mapSlot c n (fun sl => { sl with evicting := sl.evicting.map (fun r => { r with begun := true }) })
    if (s.slot c n).state = .active then s.mapActivation c n (fun y => { y with stops := y.stops ++ [.evict] }) else s

/-- An EVICT request is taken. -/
def State.startEvict (s : State) (c : CoreId) (m : Msg) : State :=
  let w := m.dword 0
  let n := reqSlot m
  let sl := s.slot c n
  let reply := m.dword 4
  let quota := bitsOf (m.dword 3) 16 0
  let r : EvictReq :=
    { begun := false, accmask := BitVec.ofNat 4 (bitsOf w 11 8), image := m.dword 1, overflow := m.dword 2, quota, reply }
  if m.dword 1 &&& 0xFFF ≠ 0 || quota < 16 || 65536 < quota then s.sysReply c reply stBaddesc 0
  else if n.val = 0 || sl.evicting.isSome then s.sysReply c reply stBadstate 0
  else
    let ask (s : State) : State := s.mapSlot c n (fun sl => { sl with evicting := some r })
    match sl.state with
    | .free => s.sysReply c reply stNoact 0
    | .idle | .suspended | .active => (ask s).beginEvict c n
    | _ => s.sysReply c reply stBadstate 0

/-- EVICT: with number 0 the request is taken; with the number of a slot its eviction begins, and once everything it
waits for has ended takes place. -/
def execEvict (s : State) : Result :=
  withNums s (fun a b _ =>
    let c := coreOf a
    let n := slotOf b
    if n.val = 0 then sysOp s c 0x57 (fun m s => s.startEvict c m)
    else
      let sl := s.slot c n
      match sl.evicting with
      | none => noSuch
      | some r =>
        if !r.begun then .next (s.beginEvict c n)
        else
          stepIf s ((sl.state == .idle || sl.state == .suspended) && s.evictReady c n r.accmask)
            (s.finishEvict c n r))

/-! ### RESTORE (R144, R358) -/

/-- The image of an evicted actor as RESTORE reads it. -/
structure Image where
  core : CoreId
  slot : SlotId
  version : Nat
  resumable : Bool
  tvec : Word
  seq : BitVec 5
  quota : Nat
  regions : Nat
  slots : Nat
  accs : Nat
  claimed : List Nat
  mask : BitVec 4
  lclk : Nat

def Image.ofBytes (bs : List Byte) : Image :=
  let w (i : Nat) : Word := leWord ((bs.drop (8 * i)).take 8)
  { core := coreOf (bitsOf (w 0) 22 12), slot := slotOf (bitsOf (w 0) 11 8), version := bitsOf (w 0) 3 0,
    resumable := bitOf (w 0) 7, tvec := w 2, seq := BitVec.ofNat 5 (bitsOf (w 3) 4 0), quota := bitsOf (w 3) 11 8,
    regions := (w 6).toNat, slots := (w 7).toNat, accs := (w 8).toNat,
    claimed := (List.range 48).filter (fun i => bitOf (w 9) i), mask := BitVec.ofNat 4 (bitsOf (w 10) 3 0),
    lclk := (w 11).toNat }

/-- The slot an actor is restored in: on its old core its own, unless another free one is named. -/
def Core.restoreSlot (k : Core) (home : Bool) (old : SlotId) (n : Nat) : Option SlotId :=
  if home && (n = 0 || n = old.val) then some old else k.pickSlot n

/-- Its regions at their saved offsets, or placed afresh. -/
def placeSaved (taken rs : List Region) (keep : Bool) : Option (List Region) :=
  if keep then (if rs.all (fun r => rangeFree taken r.base r.size) then some rs else none)
  else placeRegions taken (rs.map (fun r => (r.size, r.align, r.stack)))

/-- The bytes of an image loaded into regions, slots and accumulators. -/
def State.loadImage (s : State) (c : CoreId) (n : SlotId) (img : Image) (at_ : Nat) (rs : List Region)
    (actor : Nat) (domain : BitVec 16) : State :=
  let rd (off len : Nat) : List Byte := s.kernelRead c (at_ + off) len
  let (s, _) := rs.foldl (fun (a : State × Nat) r => (a.1.spadWrite c r.base (rd a.2 r.size), a.2 + r.size)) (s, img.regions)
  let claim : Claim := { actor, slot := n, domain }
  let s := img.claimed.zipIdx.foldl (fun s p => s.mapCore c (fun k => { k with
    claims := tabSet k.claims p.1 claim,
    opnd := k.opnd.setBytes (4096 * p.1) (rd (img.slots + 4096 * p.2) 4096) })) s
  (accsOf img.mask).zipIdx.foldl (fun s p =>
    let (v, s) := s.takeFree
    let bs := rd (img.accs + 16384 * p.2) 16384
    let elem (e : Nat) : BitVec 32 := BitVec.ofNat 32 (leNat ((bs.drop (4 * e)).take 4))
    let data := (List.range 4096).filterMap (fun e => if elem e = 0 then none else some (e, elem e))
    let acc : Accum := { owner := domain, data, steps := bitsOf v 7 0, nsteps := bitsOf v 15 8 }
    s.mapMatrix c (fun x => { x with accs := x.accs.set p.1 acc })) s

/-- A saved context as it lives on in a new place. -/
def Saved.moved (v : Saved) (c : CoreId) (n : SlotId) (resumable : Bool) : Saved :=
  let act := v.ctx.act.map (fun a => { a with slot := n })
  let y := { v.ctx with act, self := endpointOf c.val n.val ((act.map (·.mbox)).getD 0) }
  { v with ctx := y, resumable := resumable && v.waits != .tdisp }

/-- Waiting messages given their places in a new core's order of acceptance. -/
def Slot.reorder (sl : Slot) (start : Nat) : Slot :=
  let order (o : Nat) : Nat := start + (sl.inOrder.findIdx (fun m => m.1.order == o))
  { sl with mboxes := sl.mboxes.map (fun b => { b with
      waiting := b.waiting.map (fun m => { m with order := order m.order }) }) }

/-- The launch of an actor learns of its new place. -/
def State.moveLaunched (s : State) (sl : Slot) (c0 : CoreId) (n0 : SlotId) (c : CoreId) (n : SlotId) : State :=
  match sl.launch with
  | none => s
  | some l => s.mapLaunch l (fun l => { l with actors := l.actors.map (fun a =>
      if a.core == c0 && a.slot == n0 && !a.destroyed then { a with core := c, slot := n } else a) })

/-- What an activation keeps on its core goes with it: its open gate levels (R208), its place among the waiters of tokens, and the
reservations and commit token of its serial run (R363). -/
def State.moveActivation (s : State) (c0 : CoreId) (n0 : SlotId) (c : CoreId) (n : SlotId) (levels : List Level) : State :=
  let s := if c0 = c then s else
    (s.mapCore c0 (fun k => { k with guard := k.guard.leave levels })).mapCore c (fun k => { k with
      guard := levels.foldl (fun g l => g.enter l.gate.toNat) k.guard })
  let s := s.mapWaiters (fun w => some (if w = .slot c0 n0 then .slot c n else w))
  let mine (o : CoreId × SlotId) : CoreId × SlotId := if o = (c0, n0) then (c, n) else o
  let held (r : Reservation) : Reservation := { r with holders := r.holders.map mine }
  if c0 = c && n0 = n then s
  else
    { s with
      deviceToken := s.deviceToken.map mine,
      dies := tabMap (fun _ d => { d with
        token := d.token.map mine, reserved := tabMap (fun _ r => held r) d.reserved }) s.dies }

/-- The actor takes its place: its slot, its frame in the save area, and what its activation keeps; the old slot is MOVED. On
another core no leased copy stays that could be older than what its posted stores have written. -/
def State.takePlace (s : State) (c : CoreId) (n : SlotId) (img : Image) (at_ : Nat) (overflow : Word)
    (rs : List Region) : State :=
  let old := s.slot img.core img.slot
  let home := img.core = c && img.slot = n
  let k := s.core c
  let saved := old.saved.map (·.moved c n img.resumable)
  let sl := ({ old with
    state := if old.saved.isSome then .suspended else .idle, tvec := img.tvec, seq := img.seq, quota := img.quota,
    regions := rs, saved, image := none, evicting := none,
    overflow := (old.overflow.filter (!·.msgs.isEmpty)).map (fun o => { o with addr := overflow }) } : Slot).reorder
      k.acceptCount
  let s := if home then s else s.mapSlot img.core img.slot (fun _ =>
    { Slot.free with state := .moved, former := old.domain, movedTo := endpointOf c.val n.val 0 })
  let s := s.mapCore c (fun k => { k with
    slots := k.slots.set n sl, storeUsed := k.storeUsed + sl.stored, acceptCount := k.acceptCount + sl.stored,
    lclk := max k.lclk img.lclk })
  let s := s.moveLaunched old img.core img.slot c n
  let s := if img.core = c then s else s.mapCore c (·.dropLeases (fun _ => true))
  let s := s.moveActivation img.core img.slot c n ((old.saved.map (·.ctx.stack)).getD [])
  match saved with
  | none => s
  | some v =>
    let s := s.kernelWrite c v.ctx.frame.toNat (s.kernelRead c (at_ + 0x200) 6144)
    let dead := fun d => s.killed c d
    if killTouches dead v.ctx then s.killSaved c n 0xFFFF else s

/-- RESTORE. -/
def State.restore (s : State) (c : CoreId) (m : Msg) : State × Nat :=
  let w := m.dword 0
  let at_ := (m.dword 1).toNat
  let img := Image.ofBytes (s.kernelRead c at_ 0x60)
  let old := s.slot img.core img.slot
  let k := s.core c
  if img.version ≠ 1 then (s, stBaddesc)
  else if old.state ≠ .evicted || old.image.map (·.1) ≠ some (m.dword 1) then (s, stBadstate)
  else
    match k.restoreSlot (img.core = c) img.slot (bitsOf w 3 0) with
    | none => (s, 1)
    | some n =>
      let aligns := (old.image.map (·.2)).getD []
      let rs := aligns.zipIdx.map (fun p =>
        Region.ofWord (leWord (s.kernelRead c (at_ + 0x60 + 8 * p.2) 8)) p.1)
      match placeSaved k.regions rs (bitOf w 8) with
      | none => (s, 2)
      | some rs =>
        if img.claimed.any (fun i => (tabGet k.claims i).isSome) ||
            (accsOf img.mask).any (fun a => k.matrix.accs[a].owner != 0xFFFF) then (s, 2)
        else ((s.loadImage c n img at_ rs old.actor old.domain).takePlace c n img at_ (m.dword 2) rs, 0)

def execRestore (s : State) : Result :=
  withCore s (fun c =>
    sysOp s c 0x58 (fun m s =>
      let (s, st) := s.restore c m
      s.sysReply c (m.dword 3) st 0))

end Sys2Proof.Machine
end

