-- ==== Sys2Proof/Machine/Inspect.lean ====
section
/-! DEFINITION. Readback (R365 to R367): the objects of INSPECT as bytes, for the system actor and for the
host's debug path. -/

namespace Sys2Proof.Machine

/-! ### Entries of tables -/

/-- STATE of a directory entry (R245, R246). -/
def homeStCode : HomeSt → Nat
  | .u => 0 | .sh => 1 | .ow => 2 | .sp => 3 | .hInv => 8 | .hFwd => 9 | .hWb => 10 | .hSpl => 11

/-- A directory entry as its 512 bits (R246). -/
def DirLine.bits (e : DirLine) : Nat :=
  let wmap := (List.range 16).foldl (fun a w => a + ((e.wmap[w]?).map (·.val)).getD 0 * 2 ^ (3 * w)) 0
  let owners := (List.range 4).foldl (fun a i => a + (((e.owner (i + 1)).map (·.id)).getD 0x1FF) * 2 ^ (9 * i)) 0
  let sharers := e.sharers.foldl (fun a r => a ||| 2 ^ r) 0
  e.wts % 2 ^ 64 * 2 ^ 448 + e.rts % 2 ^ 64 * 2 ^ 384 + e.pins % 256 * 2 ^ 376 + homeStCode e.st * 2 ^ 372 +
    wmap * 2 ^ 324 + owners * 2 ^ 288 + sharers % 2 ^ 265

/-- A TLB entry as its two dwords (R236). -/
def TlbEntry.words (e : TlbEntry) : List Word :=
  let bit (b : Bool) (i : Nat) : Nat := if b then 2 ^ i else 0
  [word (2 ^ 63 + e.vpn.toNat * 2 ^ 23 + e.size.toNat * 2 ^ 21 + e.polmask.toNat * 2 ^ 17 + bit e.r 16 +
      bit e.w 15 + bit e.x 14 + bit e.dup 13 + e.home.toNat * 2 ^ 11),
   word (e.dtag.toNat * 2 ^ 48 + e.key.toNat * 2 ^ 36 + e.ppn.toNat)]

/-- A send-unit entry: its message, its destination, and whether it is held for retry. -/
def sendBytes (v : Option SendEntry) : List Byte :=
  match v with
  | none => List.replicate 80 0
  | some v =>
    let st : Nat := match v.state with | .flying => 1 | .held => 2 | .behind => 3
    Msg.image v.msg ++ wordBytes v.msg.dst ++ wordBytes (word st)

/-- A copy entry: w0 to w3, its CSTAT word, its domain and its actor's slot. -/
def Core.copyBytes (k : Core) (e : Fin 128) : List Byte :=
  match k.copies[e] with
  | none => List.replicate 56 0
  | some v =>
    [v.w0, v.w1, v.w2, v.w3, k.copyWord v.actor (word (v.handle e)), word v.domain.toNat, word v.slot.val].flatMap
      wordBytes

/-- The claims of the 48 operand slots. -/
def Core.claimBytes (k : Core) : List Byte :=
  (List.range 48).flatMap (fun i => wordBytes (match tabGet k.claims i with
    | none => 0
    | some v => word (2 ^ 63 + v.domain.toNat * 2 ^ 16 + v.slot.val)))

/-- The tables of a guard, by SUB. -/
def State.guardBytes (s : State) (c : CoreId) (sub : Nat) : Option (List Byte) :=
  let k := s.core c
  let g := k.guard
  match sub with
  | 0 => some (k.slots.toList.flatMap (fun sl => sl.regions.flatMap (fun r => wordBytes (r.word sl.domain))))
  | 1 => some (g.shares.flatMap (fun p => wordBytes (word (p.1 + p.2.slot.val * 2 ^ 8 + p.2.region * 2 ^ 12 +
      p.2.domain.toNat * 2 ^ 16 + (if p.2.write then 2 ^ 32 else 0)))))
  | 2 => some (g.caps.flatMap wordBytes)
  | 3 => some (g.sendRights.flatMap (fun p =>
      [word (p.2.domain.toNat + p.1 * 2 ^ 16), p.2.pattern, p.2.mask].flatMap wordBytes))
  | 4 => some (g.gates.flatMap (fun e => wordBytes (word e.id) ++ leBytes 64 e.desc.toNat) ++
      g.gateCounts.flatMap (fun p => wordBytes (word (p.1 + p.2 * 2 ^ 16))))
  | _ => none

/-- A launch's clocks: its request, CLKGS, CLKEF of its first actor's core, CLKSEQ. -/
def State.clockBytes (s : State) (n : Nat) : List Byte :=
  match tabGet s.launches n with
  | none => List.replicate 40 0
  | some l =>
    let ef := (l.actors.head?.map (fun a => s.clkef a.core)).getD clkReset
    [l.mul.zeroExtend 64, word (l.floor.toNat + l.hold.toNat * 2 ^ 32), l.effective.zeroExtend 64,
      ef.zeroExtend 64, word l.effectiveSeq].flatMap wordBytes

/-- The records of a Garnet, oldest first (R368). -/
def State.garnetBytes (s : State) (n : Nat) : List Byte :=
  let g := if n < 8 then (s.die (dieNum n)).garnet else if n = 8 then s.garnetA else s.garnetB
  g.records.reverse.flatMap (fun r => leBytes 32 r.toNat)

/-- The fault tokens of a die: domain, cause, and how many wait. -/
def State.tokenBytes (s : State) (d : DieId) : List Byte :=
  (List.range 1024).flatMap (fun i => wordBytes (match tabGet (s.die d).faultTokens (i + 1) with
    | none => 0
    | some t => word (t.domain.toNat + t.cause % 256 * 2 ^ 16 + t.waiters.length * 2 ^ 32)))

/-! ### The objects (R365) -/

/-- An object of a core, or of the device as that core sees it; none for an unknown OBJ or SUB. -/
def State.inspect (s : State) (c : CoreId) (obj sub : Nat) (select : Word) : Option (List Byte) :=
  let k := s.core c
  let n := slotOf (bitsOf select 3 0)
  let pa := select.toNat % Config.hbmEnd
  match obj with
  | 1 => some (s.kernelRead c (s.slot c n).area.toNat 6144)
  | 2 => some (s.actorHeader c n (slotCode (s.slot c n).state) 0)
  | 3 => ((s.slot c n).mboxes[sub]?).map (fun b => b.waiting.flatMap (fun m => Msg.image m.msg))
  | 4 => some (k.sends.toList.flatMap sendBytes)
  | 5 => some (k.copyBytes (entryOf (bitsOf select 6 0)))
  | 6 => some k.claimBytes
  | 7 =>
    if 3 < sub then none
    else
      let a : Fin 4 := Fin.ofNat 4 sub
      some (wordBytes (k.matrix.accWord s.commandReady a k.matrix.accs[a].owner) ++ k.matrix.accs[a].bytes)
  | 8 => some (pad 1024 (k.matrix.queue.flatMap (fun d => pad 64 (d.payload.flatMap wordBytes))))
  | 9 => some (leBytes 64 (s.dir (.slice (lineDie (pa / 128))) (pa / 128)).bits)
  | 10 => some (s.hbm.bytes (pa / 16 * 16) 16)
  | 11 => some (s.clockBytes (bitsOf select 31 0))
  | 12 => s.guardBytes c sub
  | 13 =>
    let r := s.ringOf select.toNat
    some (s.kernelRead (kernelCore (ringDie select.toNat)) r.addr 32)
  | 14 => if 9 < sub then none else some (s.garnetBytes sub)
  | 15 => some (if bitsOf select 63 6 ≠ 0 then [] else
      (s.cluster (Fin.ofNat 64 (bitsOf select 5 0))).tlb.flatMap (fun e => e.words.flatMap wordBytes))
  | 16 => some (s.tokenBytes (dieOf c))
  | _ => none

/-- INSPECT: the object is written to a buffer in kernel memory, as far as the buffer goes. Bits of dword 0 that R354 does not
list are not looked at (assumption 100). -/
def execInspect (s : State) : Result :=
  withCore s (fun c =>
    sysOp s c 0x59 (fun m s =>
      let reply (s : State) (st n : Nat) : State := s.sysReply c (m.dword 4) st n
      match s.inspect c (bitsOf (m.dword 0) 7 0) (bitsOf (m.dword 0) 15 8) (m.dword 1) with
      | none => reply s 12 0
      | some bs =>
        let out := bs.take (m.dword 3).toNat
        reply (s.kernelWrite c (m.dword 2).toNat out) (if out.length < bs.length then 2 else 0) out.length))

end Sys2Proof.Machine
end

