-- ==== Sys2Proof/Machine/Clock.lean ====
section
/-! DEFINITION. The clock arbiter (R149, R158 to R165): predictions, grants, shares, re-grants and their events,
CLKRQ (R341); quads whose clocks are stopped and restarted (R162, R260). -/

namespace Sys2Proof.Machine

/-! ### Requests (R149) -/

/-- A field of a value in CLKGS layout: 0 matrix, 1 vector, 2 network, 3 memory. -/
def clkField (w : BitVec 32) (i : Nat) : Nat := bitsOf w (8 * i + 7) (8 * i)

/-- A value in CLKGS layout from its fields. -/
def clkOf (f : Nat → Nat) : BitVec 32 :=
  BitVec.ofNat 32 (f 0 + f 1 * 2 ^ 8 + f 2 * 2 ^ 16 + f 3 * 2 ^ 24)

/-- The limits of a domain, in steps. -/
def clkLow (i : Nat) : Nat := if i < 2 then 6 else 8
def clkHigh (i : Nat) : Nat := match i with | 0 => 36 | 3 => 32 | _ => 40

/-- Do CLKMUL and CLKFLOOR break R149? -/
def requestBroken (mul floor : Word) : Bool :=
  bitsOf mul 63 32 != 0 || bitsOf floor 63 38 != 0 ||
  (List.range 4).any (fun i =>
    let m := bitsOf mul (8 * i + 7) (8 * i)
    let f := bitsOf floor (8 * i + 7) (8 * i)
    m < clkLow i || clkHigh i < m || f < clkLow i || m < f)

/-- What a launch asks of the arbiter: multipliers, floors, hold mask, power weight, the cores of its actors, each
once, with the numbers of its non-kernel cores and of the dies that hold its actors (R160), and whether it has no
grant yet. -/
structure Ask where
  mul : BitVec 32
  floor : BitVec 32
  hold : BitVec 6
  weight : Nat
  homes : List CoreId
  cores : Nat
  dies : Nat
  fresh : Bool
  deriving DecidableEq, Repr

def Ask.of (mul floor : BitVec 32) (hold : BitVec 6) (weight : Nat) (cores : List CoreId) : Ask :=
  { mul, floor, hold, weight, homes := cores.eraseDups,
    cores := (cores.eraseDups.filter (!isKernelCore ·)).length, dies := (cores.map dieOf).eraseDups.length,
    fresh := true }

/-- The request of a launch that has its grant; its destroyed actors hold no core any more. -/
def Launch.ask (l : Launch) : Ask :=
  { Ask.of l.mul l.floor l.hold l.pweight ((l.actors.filter (!·.destroyed)).map (·.core)) with fresh := false }


/-! ### Predictions and grants (R159, R160) -/

/-- Power is counted exactly in units of 1 / 470,016,000 W, in which every term of R160 is whole. -/
def wattUnits : Nat := 470016000

/-- The default model of R160, in those units. -/
def Ask.predicted (q : Ask) (c : BitVec 32) : Nat :=
  let sq (i : Nat) : Nat := clkField c i * clkField c i
  q.cores * (400000 * sq 0 + 64000 * sq 1) + q.dies * (22950000 * sq 2 + 42840000 * sq 3)

/-- The pairs of domains whose HOLD bits are 0 to 5. -/
def holdPairs : List (Nat × Nat) := [(0, 1), (0, 2), (0, 3), (1, 2), (1, 3), (2, 3)]

/-- Does a candidate keep every held pair exact? -/
def Ask.held (q : Ask) (c : BitVec 32) : Bool :=
  holdPairs.zipIdx.all (fun p =>
    !bitOf q.hold p.2 ||
      clkField c p.1.1 * clkField q.mul p.1.2 == clkField c p.1.2 * clkField q.mul p.1.1)

/-- The candidate of k sixteenths, not below the floors. -/
def Ask.candidate (q : Ask) (k : Nat) : BitVec 32 :=
  clkOf (fun i => max (clkField q.floor i) (clkField q.mul i * k / 16))

/-- Does a prediction fit a share of num / den units? -/
def Ask.fits (q : Ask) (num den : Nat) (c : BitVec 32) : Bool := q.predicted c * den ≤ num

/-- The grant of R159 and whether it is FLOORS; none when nothing fits. -/
def Ask.grant (q : Ask) (num den : Nat) : Option (BitVec 32 × Bool) :=
  match ((List.range 9).map (fun i => q.candidate (16 - i))).find? (fun c => q.held c && q.fits num den c) with
  | some c => some (c, false)
  | none => if q.fits num den q.floor then some (q.floor, true) else none

/-- What a resident launch is granted when its floors do not fit. -/
def Ask.below (q : Ask) (num den : Nat) : BitVec 32 :=
  let low (k : Nat) : BitVec 32 := clkOf (fun i => max (clkLow i) (clkField q.floor i * k / 16))
  (((List.range 8).map (fun i => low (15 - i))).find? (q.fits num den ·)).getD (clkOf clkLow)

/-! ### Shares (R158) -/

/-- A request, its share, and what of its share already pays for the clocks it sets for others (R161): numerators
over the denominator common to all. -/
structure Stake where
  ask : Ask
  share : Nat
  paid : Nat
  deriving DecidableEq, Repr

def Stake.grant (p : Stake) (den : Nat) : Option (BitVec 32 × Bool) := p.ask.grant p.share den

/-- What a stake runs at: its grant, or what a resident launch gets below its floors; a launch that is not granted
runs nowhere. -/
def Stake.runs (p : Stake) (den : Nat) : Option (BitVec 32) :=
  match p.grant den with
  | some g => some g.1
  | none => if p.ask.fresh then none else some (p.ask.below p.share den)

/-- The weight of the square of a clock in R160, for one core or one die. -/
def clkWeight (i : Nat) : Nat := match i with | 0 => 400000 | 1 => 64000 | 2 => 22950000 | _ => 42840000

/-- The power above its own prediction that a shared clock costs a launch granted g there, in the units of R160, if
launch j of those beside it sets the clock: the first of the largest grants of those near. -/
def sharedCost (l : List (Ask × BitVec 32)) (j : Nat) (near : CoreId → Bool) (g : BitVec 32) (i : Nat) : Nat :=
  let field (p : Ask × BitVec 32) : Nat := if p.1.homes.any near then clkField p.2 i else 0
  let top := l.foldl (fun a p => max a (field p)) 0
  if l.findIdx? (fun p => field p == top) == some j then clkWeight i * (top * top - clkField g i * clkField g i) else 0

/-- The power charged to launch j because its grant sets clocks that others share (R161). -/
def chargedTo (l : List (Ask × BitVec 32)) (j : Nat) : Nat :=
  let quad (c v : CoreId) : Bool := dieOf v == dieOf c && quadOf v == quadOf c
  let die (d : DieId) (v : CoreId) : Bool := dieOf v == d
  l.foldl (fun a p =>
    let onCores := (p.1.homes.filter (!isKernelCore ·)).foldl (fun a c =>
      a + sharedCost l j (quad c) p.2 0 + sharedCost l j (quad c) p.2 1) 0
    let onDies := (p.1.homes.map dieOf).eraseDups.foldl (fun a d =>
      a + sharedCost l j (die d) p.2 2 + sharedCost l j (die d) p.2 3) 0
    a + onCores + onDies) 0

/-- What a stake uses of its share, and what of that is newly paid for the clocks it sets. The manual compares the
prediction alone with the share (R159), so the charge takes from what a launch would release (assumption 22). A
launch that is not granted keeps its share. -/
def Stake.uses (l : List (Ask × BitVec 32)) (den : Nat) (p : Stake) (j : Nat) : Nat × Nat :=
  match p.runs den with
  | none => (p.share, 0)
  | some g =>
    let own := min p.share (p.ask.predicted g * den)
    (own, min (p.share - own) (chargedTo l j * den - p.paid))

/-- One round: what launches do not use of their shares goes, by weight, to those not yet at their
multipliers. None when nothing is released or nobody wants it. -/
def shareRound (l : List Stake) (den : Nat) : Option (List Stake × Nat) :=
  let run := l.map (fun p => match p.runs den with | some g => (p.ask, g) | none => ({ p.ask with homes := [] }, 0))
  let used := l.zipIdx.map (fun p => (p.1, p.1.uses run den p.2))
  let wants (p : Stake) : Bool := (p.grant den).all (fun g => g.1 != p.ask.mul)
  let pool := used.foldl (fun a u => a + (u.1.share - u.2.1 - u.2.2)) 0
  let weight := l.foldl (fun a p => if wants p then a + p.ask.weight else a) 0
  if pool = 0 || weight = 0 then none
  else
    some (used.map (fun u =>
      { u.1 with share := u.2.1 * weight + (if wants u.1 then pool * u.1.ask.weight else 0),
                 paid := (u.1.paid + u.2.2) * weight }), den * weight)

/-- Rounds until no grant changes, those below the floors of resident launches included. -/
def shareRounds : Nat → List Stake → Nat → List Stake × Nat
  | 0, l, den => (l, den)
  | n + 1, l, den =>
    match shareRound l den with
    | none => (l, den)
    | some (m, d) =>
      if l.map (fun p => (p.grant den, p.runs den)) = m.map (fun p => (p.grant d, p.runs d)) then (m, d)
      else shareRounds n m d

/-- The shares of some launches under a power in W, less what is reserved. -/
def State.shares (s : State) (cap : Nat) (l : List Ask) : List Stake × Nat :=
  let avail := (cap - s.arbiter.reserved) * wattUnits
  shareRounds (30 * l.length) (l.map (fun q => { ask := q, share := avail * q.weight, paid := 0 }))
    (l.foldl (fun a q => a + q.weight) 0)

/-- Is a launch resident (R157)? -/
def Launch.resident (l : Launch) : Bool := l.state != .completed && l.actors.any (·.created)

def State.residents (s : State) : List (Nat × Launch) := s.launches.filter (fun p => p.2.resident)

/-- What a newcomer would be granted beside the resident launches (R155). -/
def State.askNew (s : State) (q : Ask) : Option (BitVec 32 × Bool) :=
  let (l, den) := s.shares s.arbiter.cap (s.residents.map (fun p => p.2.ask) ++ [q])
  l.getLast?.bind (·.grant den)

/-! ### Events (R163, R164) -/

/-- The clock event of a launch. -/
def clockEvent (l : Launch) (seq : Nat) (emerg floors down below : Bool) (g prev : BitVec 32) (at_ : Nat) : Msg :=
  let bit (b : Bool) (i : Nat) : Nat := if b then 2 ^ i else 0
  frontMsg l.die l.control 0xC1
    [word (seq % 2 ^ 32 + bit emerg 32 + bit floors 33 + bit down 34 + bit below 35), g.zeroExtend 64,
      prev.zeroExtend 64, word at_] 0

/-- Is some domain lower in one value than in another? -/
def clkLower (g prev : BitVec 32) : Bool := (List.range 4).any (fun i => clkField g i < clkField prev i)

/-- Notice of a decrease, in ns. -/
def clkNotice : Nat := 20000

/-- A grant of a launch changes: one event. A decrease is announced now and takes effect after its notice; an
increase takes effect at once, or with the decrease that is pending, and is announced then; an emergency takes
effect now. -/
def State.changeGrant (s : State) (n : Nat) (l : Launch) (g : BitVec 32) (floors below emerg : Bool) : State :=
  let prev := if emerg then l.effective else l.grant
  let seq := l.seq + 1
  let down := clkLower g prev
  let after := s.arbiter.changes.foldl (fun a c => if c.down || c.launch = n then max a c.at_ else a) s.quartz
  let at_ := if emerg then s.quartz else if down then max after (s.quartz + clkNotice) else after
  let m := clockEvent l seq emerg floors down below g prev at_
  let s := s.mapLaunch n (fun l => { l with grant := g, seq })
  if emerg then (s.applyGrant n g seq).post (agentFront l.die) m
  else
    let c : Change := { launch := n, grant := g, seq, at_, down, announce := if down then none else some m }
    let s := { s with arbiter := { s.arbiter with changes := s.arbiter.changes ++ [c] } }
    if down then s.post (agentFront l.die) m else s

/-- Every resident launch granted again under a power (R163). An emergency first cancels every change not yet
in effect. -/
def State.regrant (s : State) (cap : Nat) (emerg : Bool) : State :=
  let back (l : Launch) : Launch := { l with grant := l.effective }
  let s := if emerg then
      { s with arbiter := { s.arbiter with changes := [] }, launches := tabMap (fun _ l => back l) s.launches }
    else s
  let rs := s.residents
  let (stakes, den) := s.shares cap (rs.map (fun p => p.2.ask))
  (rs.zip stakes).foldl (fun s p =>
    let l := p.1.2
    let (g, floors, below) : BitVec 32 × Bool × Bool := match p.2.grant den with
      | some (g, fl) => (g, fl, false)
      | none => (p.2.ask.below p.2.share den, true, true)
    if g = l.grant then s else s.changeGrant p.1.1 l g floors below emerg) s

/-- A re-grant event reaches the queues too: a launch that is HELD is placed afresh (R155). -/
def State.unhold (s : State) : State :=
  let free (q : Nat × Queue) : Nat × Queue :=
    if q.2.held then (q.1, { q.2 with held := false, homes := [] }) else q
  { s with dies := tabMap (fun _ d => { d with queues := d.queues.map free }) s.dies,
           arbiter := { s.arbiter with due := false } }

/-- RE-GRANT: an event of R163 is due. -/
def execReGrant (s : State) : Result :=
  stepIf s s.arbiter.due ((s.regrant s.arbiter.cap false).unhold)

/-- THERMAL TRIP: the resident launches are granted at once what fits the power that the trip leaves, in W. -/
def execThermalTrip (s : State) : Result :=
  withNums s (fun w _ _ => .next ((s.regrant (min w s.arbiter.cap) true).unhold))

/-- GRANT EFFECT: the first change whose time has come. -/
def execGrantEffect (s : State) : Result :=
  .next s.takeChange

/-! ### CLKRQ (R341) -/

/-- The answer of the arbiter to a new request of a launch. -/
def State.clkrq (s : State) (n : Nat) (l : Launch) (mul floor : Word) : State × Nat :=
  let l' := { l with
    mul := BitVec.ofNat 32 mul.toNat, floor := BitVec.ofNat 32 floor.toNat,
    hold := BitVec.ofNat 6 (bitsOf floor 37 32) }
  let others := s.residents.filter (fun p => p.1 != n)
  let (stakes, den) := s.shares s.arbiter.cap (others.map (fun p => p.2.ask) ++ [{ l'.ask with fresh := true }])
  let ok := (stakes.getLast?.bind (·.grant den)).isSome
  if ok then
    let s := (((s.mapLaunch n (fun _ => l')).regrant s.arbiter.cap false).unhold)
    let seq := ((tabGet s.launches n).map (·.seq)).getD 0
    (s, if seq = l.seq then l.effectiveSeq * 2 ^ 32 else seq * 2 ^ 32)
  else (s, 16 + l.effectiveSeq * 2 ^ 32)

def execClkrq (rd : Fin 32) (a b : Opnd) (imm : Imm) (s : State) : Result :=
  noChunk s (withOperands [a, b] (immS imm) s (fun vs s =>
    let finish (s : State) (v : Nat) : Result := done (s.mapHere (·.setReg rd (word v))) (lenImm imm)
    match (s.launchOf s.focus s.here).bind (fun n => (tabGet s.launches n).map (fun l => (n, l))) with
    | none => finish s (17 + s.here.clkseq.toNat * 2 ^ 32)
    | some (n, l) =>
      if requestBroken (nth vs 0) (nth vs 1) then finish s (15 + l.effectiveSeq * 2 ^ 32)
      else
        let (s, v) := s.clkrq n l (nth vs 0) (nth vs 1)
        finish s v))

/-! ### Stopped quads (R161, R162, R260) -/

/-- May Sartar stop the clock of a core: every actor but the system actor belongs to a resident launch, none is
ready, the system actor holds no request, and no activation is bound? An actor that is DYING is one of them. -/
def State.mayStop (s : State) (c : CoreId) : Bool :=
  let k := s.core c
  k.ctxs.toList.all (·.act.isNone) && (s.sysHead c 0).isNone && (s.sysHead c 1).isNone &&
  allSlots.all (fun n =>
    let sl := k.slots[n]
    let there := sl.state == .idle || sl.state == .active || sl.state == .suspended || sl.state == .dying
    !k.ready n && !k.resumable n &&
    (n.val == 0 || !there || ((sl.launch.bind (tabGet s.launches)).any (·.resident))))

/-- QUAD CLOCK STOP. -/
def execQuadClockStop (s : State) : Result :=
  withNums s (fun a q _ =>
    let cs := quadCores (dieNum a) q
    stepIf s (cs.all s.mayStop && cs.any (fun c => !(s.core c).stopped))
      (cs.foldl (fun s c => s.mapCore c (fun k => { k with stopped := true })) s))

/-- QUAD RESTART. -/
def execQuadRestart (s : State) : Result :=
  withNums s (fun a q _ =>
    stepIf s ((quadCores (dieNum a) q).any (fun c => (s.core c).stopped)) (s.restartQuad (dieNum a) q))

end Sys2Proof.Machine
end

