-- ==== Sys2Proof/Machine/Front.lean ====
section
/-! DEFINITION. The command front end of a die: queues and their packets (R396 to R401), launch blocks and their
checks (R147 to R151), placement (R152, R153), launches and their ends (R154 to R157), QREPAIR (R129). -/

namespace Sys2Proof.Machine

/-! ### A queue (R384, R396) -/

/-- Virtual functions of the device (R8). -/
def vfCount : Nat := 64

def Vf.fresh : Vf := { state := .unlocked, domains := [], interval := 0, renewed := 0 }

def State.vf (s : State) (v : Nat) : Vf := (tabGet s.vfs v).getD .fresh

/-- Are the ranges, queues and rings of a function frozen (R384)? -/
def State.frozen (s : State) (v : Nat) : Bool := (s.vf v).state != .unlocked

def Queue.dbell (q : Queue) : Nat := bitsOf q.desc 255 192
def Queue.riaddr (q : Queue) : Nat := bitsOf q.desc 191 128
def Queue.base (q : Queue) : Nat := bitsOf q.desc 127 64
def Queue.die (q : Queue) : Nat := bitsOf q.desc 39 37
def Queue.logpub (q : Queue) : Nat := bitsOf q.desc 36 32
def Queue.vf (q : Queue) : Nat := bitsOf q.desc 31 16
def Queue.logn (q : Queue) : Nat := bitsOf q.desc 4 0

/-- The front end of a die as it accesses memory for a queue: under a domain, through the cluster of its die's
kernel core. -/
def frontEng (d : DieId) (addr : Nat) (domain : BitVec 16) : Eng :=
  { who := { core := kernelCore d, slot := 0, actor := 0, domain, deep := true }, at_ := kernelCore d, id := .front d addr,
    path := .core, unit := d.val }

/-- Where a doorbell word stands, by line number and offset. -/
def State.bellPlace (s : State) (d : DieId) (va : Nat) : Nat :=
  match s.tlbFind (clusterOf (kernelCore d)) 0 va with
  | some e =>
    let pa := e.pa va
    placeLine pa (homeOfField e.home.toNat) * 128 + pa % 128
  | none => s.kernelPa (kernelCore d) va

/-- A queue as its front end knows it: by the descriptor that stands in memory, but a function's frozen queues keep theirs,
and no other joins them. One it has not met starts at read index 0. -/
def State.queueOf (s : State) (d : DieId) (addr : Nat) : Queue :=
  let desc := BitVec.ofNat 256 (leNat (s.kernelRead (kernelCore d) addr 32))
  let q : Queue := (tabGet (s.die d).queues addr).getD
    { desc, bellPa := 0, ri := 0, state := bitsOf desc 15 8, idleSince := s.quartz, waking := none,
      owed := false, plan := none, held := false, homes := [] }
  let desc := if s.frozen q.vf || s.frozen (bitsOf desc 31 16) then q.desc else desc
  { q with desc, bellPa := s.bellPlace d (bitsOf desc 255 192) }

/-- Every queue that is known as its descriptor now says. -/
def State.readQueues (s : State) : State :=
  s.dies.foldl (fun s p => p.2.queues.foldl (fun s q =>
    s.mapDie (dieNum p.1) (fun k => { k with queues := tabSet k.queues q.1 (s.queueOf (dieNum p.1) q.1) })) s) s

/-- A step of a queue, named by its die and the address of its descriptor. -/
def withQueue (s : State) (f : DieId → Nat → Nat → Queue → State → Result) : Result :=
  withNums s (fun a b c =>
    let d := dieNum a
    let q := s.queueOf d b
    if q.die ≠ d.val then noSuch else f d b c q (s.putQueue d b q))

/-! ### Publishing the read index (R398) -/

/-- The read index written to RIADDR, as an ST.rel.sys, as soon as its page can be reached. -/
def State.publish (s : State) (d : DieId) (addr : Nat) : State :=
  match tabGet (s.die d).queues addr with
  | none => s
  | some q =>
    let e := frontEng d addr 0
    let a := word q.riaddr
    let paid := s.putQueue d addr { q with owed := false }
    if !q.owed then s
    else if tabGet q.homes (pageKey 0 (pageOf a)) = some absentMark then paid
    else
      match s.engDest e [] a 8 with
      | .ok ps => ps.foldl (fun s p =>
          match p.1 with
          | .memory pa .thisDie _ _ | .memory pa .otherDie _ _ => s.writeHome pa (wordBytes (word q.ri))
          | pl => s.writePlace e a pl (wordBytes (word q.ri))) paid
      | .miss s => s
      | .fault _ _ _ => paid

/-- Every queue's read index that is owed. -/
def State.publishAll (s : State) : State :=
  s.dies.foldl (fun s p => p.2.queues.foldl (fun s q =>
    if q.2.owed then s.publish (dieNum p.1) q.1 else s) s) s

/-! ### Packets (R397, R398) -/

/-- The packet at the head of a queue, when it has been published and can be read. -/
def State.queueHead (s : State) (d : DieId) (addr : Nat) (q : Queue) : State × Option (List Word) :=
  let e := frontEng d addr 0
  let a := word (q.base + 64 * (q.ri % 2 ^ q.logn))
  let key := pageKey 0 (pageOf a)
  let s := if tabGet q.homes key = some absentMark then s.putQueue d addr { q with homes := tabDel q.homes key } else s
  if q.state ≠ 0 then (s, none)
  else
    match s.engRead e [] a 64 with
    | .got s bs =>
      let ws := leWords 8 bs
      let w := nth ws 0
      if bitsOf w 39 32 = 0 || bitsOf w 31 0 ≠ q.ri % 2 ^ 32 then (s.farClear e, none) else (s, some ws)
    | .wait s | .miss s => (s, none)
    | .fault _ _ _ => (s, none)

def packetType (ws : List Word) : Nat := bitsOf (nth ws 0) 39 32

/-- A packet is consumed. -/
def State.consume (s : State) (d : DieId) (addr : Nat) (ws : List Word) : State :=
  let q := s.queueOf d addr
  let ri := q.ri + 1
  let due := ri % 2 ^ q.logpub = 0 || bitOf (nth ws 0) 40
  let s := s.putQueue d addr { q with
    ri, owed := q.owed || due, idleSince := s.quartz, plan := none, held := false, homes := [] }
  (s.farClear (frontEng d addr 0)).publish d addr

/-- NOP: consumed with no effect. -/
def execNopPacket (s : State) : Result :=
  withQueue s (fun d addr _ q s =>
    let (s, ws) := s.queueHead d addr q
    match ws with
    | some ws => .next (if packetType ws = 2 then s.consume d addr ws else s)
    | none => .next s)

/-- A packet of reserved type: the queue enters STATE 2, and the report goes to its function's ring (R400). -/
def execReservedPacketType (s : State) : Result :=
  withQueue s (fun d addr _ q s =>
    let (s, ws) := s.queueHead d addr q
    if (ws.map packetType).any (3 ≤ ·) then
      let ring := if q.vf = 0xFFFF then terminalRing 0 else vfRing q.vf
      let e : Entry := { detail := 0, addr := word addr, domain := 0, core := (kernelCore d).val, slot := 0,
                         path := 0, kind := 0, status := 0, cause := 35 }
      let b := e.bits s.quartz 0 1
      .next (((s.enterState d addr q 2).ring ring b).garnet d.val 2 0 e.core 0 (b.toNat % 2 ^ 128))
    else .next s)

/-! ### Sleep and wake (R401) -/

/-- Nothing found for so long, in ns, that a queue falls asleep. -/
def queueIdle : Nat := 1000000

/-- QUEUE SLEEP: the read index is published. -/
def execQueueSleep (s : State) : Result :=
  withQueue s (fun d addr _ q s =>
    let (s, ws) := s.queueHead d addr q
    let idle := q.state = 0 && q.plan.isNone && q.idleSince + queueIdle ≤ s.quartz
    .next (if idle && ws.isNone then
        (s.enterState d addr { s.queueOf d addr with owed := true } 1).publish d addr
      else s))

/-- DOORBELL: a store of the host to DBELL wakes a queue that sleeps, as one of the device does (`ringBells`). -/
def execDoorbell (s : State) : Result :=
  withQueue s (fun d addr _ q s =>
    .next (s.putQueue d addr (q.ring s.quartz)))

/-- QUEUE WAKE-UP: the queue polls again, not later than LATTOL after the store. -/
def execQueueWakeUp (s : State) : Result :=
  withQueue s (fun d addr _ q s =>
    stepIf s (q.state = 1 && q.waking.isSome) (s.awake d addr q))

/-! ### Reading for a queue -/

/-- What comes of reading for a queue: it is there, it is not there yet, or it breaks a rule. -/
inductive Got (α : Type) where
  | got (s : State) (a : α)
  | wait (s : State)
  | bad (s : State)

def Got.then {α β : Type} (g : Got α) (f : State → α → Got β) : Got β :=
  match g with
  | .got s a => f s a
  | .wait s => .wait s
  | .bad s => .bad s

/-- A range read under a domain. -/
abbrev Reader := State → Word → Nat → Got (List Byte)

/-- A range of global memory as the front end reads it under a domain. -/
def frontRead (d : DieId) (addr : Nat) (domain : BitVec 16) : Reader := fun s a n =>
  let q := s.queueOf d addr
  let absent (p : Word × Nat) : Bool := tabGet q.homes (pageKey domain (pageOf p.1)) == some absentMark
  if n = 0 then .got s []
  else if domain = noDomain || Config.opwBase < a.toNat + n || (pieces a n).any absent then .bad s
  else
    match s.engRead (frontEng d addr domain) [] a n with
    | .got s bs => .got s bs
    | .wait s | .miss s => .wait s
    | .fault _ _ _ => .bad s

def readRanges (rd : Reader) : List (Word × Nat) → State → Got (List (List Byte))
  | [], s => .got s []
  | (a, n) :: r, s => (rd s a n).then (fun s bs => (readRanges rd r s).then (fun s rest => .got s (bs :: rest)))

/-! ### QREPAIR (R129, R400) -/

/-- Has a packet of some indexes been published (R398)? -/
def published (rd : Reader) (q : Queue) : List Nat → State → Got Bool
  | [], s => .got s false
  | i :: r, s =>
    (rd s (word (q.base + 64 * (i % 2 ^ q.logn))) 8).then (fun s bs =>
      let w := word (leNat bs)
      if bitsOf w 39 32 != 0 && bitsOf w 31 0 == i % 2 ^ 32 then .got s true else published rd q r s)

/-- Is a new read index of a queue at most that of its last published packet + 1? It is when it does not pass the present
one, all packets before which were published; else a packet that the ring can hold tells. -/
def repairs (rd : Reader) (q : Queue) (ri : Nat) (s : State) : Got Bool :=
  if ri ≤ q.ri then .got s true
  else published rd q ((List.range (q.ri + 2 ^ q.logn + 1 - ri)).map (ri - 1 + ·)) s

/-- QREPAIR: the queue gets a read index, which must be in range, and STATE 0; the front end publishes it and goes on (R400).
The command waits while the packets that tell cannot be read yet. -/
def execQrepair (s : State) : Result :=
  withMsg s (fun c m =>
    let d := dieOf c
    let addr := (m.dword 0).toNat
    let ri := (m.dword 1).toNat
    let e := frontEng d addr 0
    let formed := m.domain = 0 && m.port = 21 && isKernelCore c && m.payload.length = 3
    let serve (s : State) (ok : Bool) : Result := guardOp s 3 isKernelCore (fun _ _ s =>
      let q := s.queueOf d addr
      if q.die ≠ d.val then (s, gcBadport, 0)
      else if !ok then (s.farClear e, gcBaddesc, 0)
      else
        let s := s.enterState d addr { q with
          ri, owed := true, idleSince := s.quartz, waking := none, plan := none, held := false, homes := [] } 0
        ((s.farClear e).publish d addr, 0, ri))
    if !formed || (s.queueOf d addr).die ≠ d.val then serve s true
    else
      match repairs (frontRead d addr 0) (s.queueOf d addr) ri s with
      | .got s ok => serve s ok
      | .bad s => serve s false
      | .wait s =>
        .next ((s.answerTo c m .accepted).send (agentFront d) (agentFront d) .qrepair (.msg { m with src := .outside })))

/-! ### Launch blocks and their tables (R147 to R151) -/

/-- One actor table entry with what it points at. -/
def readActor (rd : Reader) (a : Word) (s : State) : Got PlanActor :=
  (rd s a 64).then (fun s bs =>
    let w := leWords 8 bs
    (readRanges rd (entryRanges w) s).then (fun s parts =>
      match parseActor w (parts[0]?.getD []) (parts[1]?.getD []) (parts[2]?.getD []) with
      | none => .bad s
      | some p => if p.cls = 0 || (p.fixed && isKernelCore (coreOf p.core)) then .bad s else .got s p))

def readActors (rd : Reader) (table : Word) : Nat → Nat → State → Got (List PlanActor)
  | 0, _, s => .got s []
  | n + 1, i, s => (readActor rd (table + word (64 * i)) s).then (fun s p =>
      (readActors rd table n (i + 1) s).then (fun s r => .got s (p :: r)))

/-- A data-placement map entry: base, length, weight, placement class; none when it breaks R150. -/
def parseMapEntry (ws : List Word) : Option (Nat × Nat × Nat × Nat) :=
  let b := nth ws 0
  let v := nth ws 1
  let len := bitsOf v 39 0
  let weight := bitsOf v 47 40
  if bitsOf b 63 56 ≠ 0 || bitsOf b 15 0 ≠ 0 || len % 65536 ≠ 0 || weight = 0 || bitsOf v 63 52 ≠ 0 then none
  else some (b.toNat, len, weight, bitsOf v 51 48)

/-- Does a field of a launch block break R147, R149 or R151? -/
def blockBroken (ws : List Word) : Bool :=
  let w := nth ws
  let domain := bitsOf (w 0) 15 0
  let endpoint (v : Word) : Bool := v &&& 0xFFFF00000001FFFF != 0
  domain == 0 || domain == 0xFFFF || bitsOf (w 0) 23 16 != 1 || bitsOf (w 0) 31 24 == 0 ||
  4096 < bitsOf (w 0) 47 32 || bitsOf (w 0) 63 48 != 0 || bitsOf (w 1) 15 0 != 0 || bitsOf (w 3) 5 0 != 0 ||
  bitsOf (w 4) 3 0 != 0 || requestBroken (w 5) (w 6) || bitsOf (w 7) 7 0 == 0 || bitsOf (w 7) 31 8 != 0 ||
  bitsOf (w 7) 63 48 != 0 || endpoint (w 8) || endpoint (w 9) || (ws.drop 11).any (· != 0)

/-- May a launch of a domain come from a queue of a function (R384, R385)? -/
def State.queueServes (s : State) (domain : BitVec 16) (vf : Nat) : Bool :=
  s.vfs.all (fun v => !v.2.domains.contains domain ||
    (match v.2.state with | .run => v.1 == vf | .error => false | _ => true))

/-- The first that reads of some domains' blocks at an address, and whether it is one that the domain itself reads: that of
the domain, or of the DOMAIN that it names. -/
def findBlock (rd : BitVec 16 → Reader) (block : Word) : List (BitVec 16) → Option (List Word) → State →
    Got (Option (List Word × Bool))
  | [], first, s => .got s (first.map (fun b => (b, false)))
  | v :: r, first, s =>
    match rd v s block 256 with
    | .wait s => .wait s
    | .bad s => findBlock rd block r first s
    | .got s bs =>
      let b := leWords 32 bs
      let named := domainField (nth b 0)
      if named = v then .got s (some (b, true))
      else
        match rd named s block 256 with
        | .wait s => .wait s
        | .bad s => findBlock rd block r (first <|> some b) s
        | .got s bs =>
          let own := leWords 32 bs
          if domainField (nth own 0) = named then .got s (some (own, true))
          else findBlock rd block r (first <|> some b) s

/-- The domains through which the front end looks for the block of a packet, in turn: those whose page of it is mapped at its
cluster, one that the spec does not name, and all others (assumption 15). -/
def State.blockDomains (s : State) (d : DieId) (addr ri : Nat) (block : Word) : List (BitVec 16) :=
  ((s.cluster (clusterOf (kernelCore d))).tlb.filter (fun e => e.covers e.dtag block.toNat)).map (·.dtag) ++
    Config.launchDomain addr ri :: (List.range 65535).map (BitVec.ofNat 16)

/-- The plan of a launch: its block, whose words are given, with its tables. -/
def readPlan (rd : Reader) (vf : Nat) (domain : BitVec 16) (block : Word) (ws : List Word) (s : State) : Got Plan :=
  let w := nth ws
  if block &&& 255 ≠ 0 || blockBroken ws || !s.queueServes domain vf then .bad s
  else
    (readActors rd (w 3) (bitsOf (w 0) 31 24) 0 s).then (fun s actors =>
      let n := bitsOf (w 0) 47 32
      (rd s (w 4) (16 * n)).then (fun s bs =>
        match (List.range n).mapM (fun i => parseMapEntry (leWords 2 (bs.drop (16 * i)))) with
        | none => .bad s
        | some map => .got s
            { domain, block, table := w 3, complete := w 8, control := w 9, usertag := w 10,
              lattol := bitsOf (w 7) 47 32, pweight := bitsOf (w 7) 7 0, mul := BitVec.ofNat 32 (w 5).toNat,
              floor := BitVec.ofNat 32 (w 6).toNat, hold := BitVec.ofNat 6 (bitsOf (w 6) 37 32), actors, map }))

/-! ### Placement (R152, R153) -/

/-- The dies that a page of a domain counts towards, as a mask, when the cluster of the front end maps it. -/
def State.pageHomes (s : State) (g : ClusterId) (domain : BitVec 16) (page : Nat) : Option Nat :=
  let va := page * 65536
  (s.tlbFind g domain va).map (fun e =>
    if e.dup then
      (List.range 8).foldl (fun a d =>
        let here := (List.range 8).any (fun i =>
          (s.tlbFind (Fin.ofNat 64 (d * 8 + i)) domain va).any (·.dup))
        if here then a + 2 ^ d else a) 0
    else if e.home.toNat < 2 then 2 ^ (e.pa va / Config.dieBytes % 8)
    else 0)

/-- The pages whose homes the placement of a plan asks after. -/
def Plan.pages (p : Plan) : List Nat :=
  let wanted (c : Nat) : Bool := p.actors.any (fun a => !a.fixed && a.pclass == c)
  p.map.flatMap (fun m =>
    if wanted m.2.2.2 then (List.range (m.2.1 / 65536)).map (fun i => m.1 / 65536 + i) else [])

/-- The homes of a plan's pages noted; whether all are known. A page that is not mapped at the cluster is asked
of the translation service. -/
def State.noteHomes (s : State) (d : DieId) (addr : Nat) (p : Plan) : State × Bool :=
  let g := clusterOf (kernelCore d)
  p.pages.foldl (fun (a : State × Bool) page =>
    let s := a.1
    let q := s.queueOf d addr
    let key := pageKey p.domain page
    if (tabGet q.homes key).isSome then a
    else
      match s.pageHomes g p.domain page with
      | some m => (s.putQueue d addr { q with homes := tabSet q.homes key m }, a.2)
      | none => (s.engMiss (frontEng d addr p.domain) (word (page * 65536)) kindRead, false)) (s, true)

/-- A slot of a core. -/
abbrev Spot := CoreId × SlotId

/-- Slots reserved for actors of launches that are being created (R155). -/
def State.reserved (s : State) : List Spot :=
  s.launches.flatMap (fun p =>
    if p.2.state = .creating then (p.2.actors.filter (!·.created)).map (fun a => (a.core, a.slot)) else [])

/-- The free actor slots of a core, lowest first; none on a kernel core or a die that is not in service. -/
def State.freeSlots (s : State) (taken : List Spot) (c : CoreId) : List SlotId :=
  if isKernelCore c || !s.ready.getLsbD (16 + (dieOf c).val) then []
  else
    ((List.range 15).map (fun i => slotOf (i + 1))).filter (fun n =>
      (s.slot c n).state == .free && !taken.contains (c, n))

/-- The number, of those below n that a test picks, with the highest score, ties to the lower; none when the test
picks none. -/
def bestOf (n : Nat) (pick : Nat → Bool) (score : Nat → Nat) : Option Nat :=
  (List.range n).foldl (fun best i =>
    if !pick i then best
    else
      match best with
      | none => some i
      | some b => if score b < score i then some i else best) none

/-- S(d) of an actor's placement class. -/
def Plan.score (p : Plan) (homes : Tab Nat) (pclass d : Nat) : Nat :=
  p.map.foldl (fun a m =>
    if m.2.2.2 ≠ pclass then a
    else
      let pages := (List.range (m.2.1 / 65536)).filter (fun i =>
        ((tabGet homes (pageKey p.domain (m.1 / 65536 + i))).getD 0) / 2 ^ d % 2 == 1)
      a + m.2.2.1 * (65536 * pages.length)) 0

/-- The slot an actor takes on a core: the one it names, or the lowest free one. -/
def pickSpot (free : List SlotId) (c : CoreId) (slot : Nat) : Option Spot :=
  if slot = 0 then free.head?.map (fun n => (c, n))
  else if free.contains (slotOf slot) then some (c, slotOf slot) else none

/-- The place of one actor, against the slots taken before it. -/
def State.placeActor (s : State) (p : Plan) (homes : Tab Nat) (taken : List Spot) (a : PlanActor) : Option Spot :=
  let free (n : Nat) : List SlotId := s.freeSlots taken (coreOf n)
  let count (first n : Nat) : Nat := (List.range n).foldl (fun t i => t + (free (first + i)).length) 0
  if a.fixed then pickSpot (free a.core) (coreOf a.core) a.slot
  else
    let dieFree (d : Nat) : Nat := count (d * 256) 256
    let open_ (d : Nat) : Bool := 0 < dieFree d
    let score (d : Nat) : Nat := p.score homes a.pclass d
    let byScore := bestOf 8 (fun d => open_ d && 0 < score d) score
    match byScore <|> bestOf 8 open_ dieFree with
    | none => none
    | some d =>
      (bestOf 8 (fun _ => true) (fun g => count (d * 256 + g * 32) 32)).bind (fun g =>
        let first := d * 256 + g * 32
        (bestOf 32 (fun i => !(free (first + i)).isEmpty) (fun i => (free (first + i)).length)).bind (fun i =>
          pickSpot (free (first + i)) (coreOf (first + i)) a.slot))

/-- Every actor placed, in table order. -/
def State.placeAll (s : State) (p : Plan) (homes : Tab Nat) : List PlanActor → List Spot → Option (List Spot)
  | [], _ => some []
  | a :: r, taken =>
    (s.placeActor p homes taken a).bind (fun v => (s.placeAll p homes r (v :: taken)).map (v :: ·))

/-! ### LAUNCH (R154, R155) -/

/-- A launch taken into the front end's table, with no actor. Its number is one more than the last one given on the device,
by any front end and to refused launches too: R156 names it and does not say how it is given (assumption 107). -/
def State.newLaunch (s : State) (d : DieId) (domain : BitVec 16) (block : Word) (w : Nat → Word) : State × Nat :=
  let n := s.launchCount + 1
  let l : Launch :=
    { die := d, domain, block, complete := w 8, control := w 9, usertag := w 10, lattol := bitsOf (w 7) 47 32,
      pweight := bitsOf (w 7) 7 0, mul := BitVec.ofNat 32 (w 5).toNat, floor := BitVec.ofNat 32 (w 6).toNat,
      hold := BitVec.ofNat 6 (bitsOf (w 6) 37 32), grant := 0, seq := 0, effective := 0, effectiveSeq := 0,
      actors := [], state := .creating, status := 0, endedAt := none }
  ({ s with launchCount := n, launches := tabSet s.launches n l }, n)

/-- The words of a block that a plan keeps. -/
def Plan.words (p : Plan) (i : Nat) : Word :=
  match i with
  | 5 => p.mul.zeroExtend 64
  | 6 => word (p.floor.toNat + p.hold.toNat * 2 ^ 32)
  | 7 => word (p.pweight + p.lattol * 2 ^ 32)
  | 8 => p.complete
  | 9 => p.control
  | 10 => p.usertag
  | _ => 0

/-- The launch record of one actor (R156). -/
def launchRecord (d : DieId) (p : Plan) (n i : Nat) (v : Spot) (g : BitVec 32) : Msg :=
  frontMsg d (endpointOf v.1.val 0 0) 0x4C
    [p.block, word (n % 2 ^ 32 + i % 256 * 2 ^ 32 + v.2.val * 2 ^ 40), p.table + word (64 * i),
      word (g.toNat + 2 ^ 32)] 0

/-- A granted launch: its grant takes effect, its records leave, and its first clock event is announced. -/
def State.startLaunch (s : State) (d : DieId) (p : Plan) (vs : List Spot) (g : BitVec 32) (floors : Bool) : State :=
  let (s, n) := s.newLaunch d p.domain p.block p.words
  let actors := (vs.zip p.actors).zipIdx.map (fun a =>
    { core := a.1.1.1, slot := a.1.1.2, plan := a.1.2, entry := p.table + word (64 * a.2), created := false,
      destroyed := false : LaunchActor })
  let s := (s.mapLaunch n (fun l => { l with grant := g, seq := 1, actors })).applyGrant n g 1
  let s := vs.zipIdx.foldl (fun s v => s.post (agentFront d) (launchRecord d p n v.2 v.1 g)) s
  match tabGet s.launches n with
  | none => s
  | some l => s.post (agentFront d) (clockEvent l 1 false floors false false g 0 s.quartz)

/-- A launch refused before any actor is created: its completion says why. When COMPLETE itself breaks R147 by reserved bits,
the completion goes to the endpoint that its other bits name (assumption 108). -/
def State.refuseLaunch (s : State) (d : DieId) (domain : BitVec 16) (block : Word) (w : Nat → Word) (status : Nat) :
    State :=
  let (s, n) := s.newLaunch d domain block w
  s.completeLaunch n status

/-- Steps 2 to 5 of R155 for the plan at the head of a queue. -/
def State.tryLaunch (s : State) (d : DieId) (addr : Nat) (ws : List Word) (p : Plan) : State :=
  let (s, known) := s.noteHomes d addr p
  if !known then s
  else
    let q := s.queueOf d addr
    match s.placeAll p q.homes p.actors s.reserved with
    | none => (s.refuseLaunch d p.domain p.block p.words 2).consume d addr ws
    | some vs =>
      match s.askNew (.of p.mul p.floor p.hold p.pweight (vs.map (·.1))) with
      | some (g, floors) => (s.startLaunch d p vs g floors).consume d addr ws
      | none => s.putQueue d addr { q with held := true }

/-- LAUNCH: the packet at the head of a queue names a block; it is found, checked, placed and granted, and then consumed;
or it is refused; or HELD. The block is found as `findBlock` says (assumption 15). A plan that waits, HELD or not, is refused
when its domain's interface no longer takes launches from the queue (R384, R385). -/
def execLaunch (s : State) : Result :=
  withQueue s (fun d addr _ q s =>
    let (s, head) := s.queueHead d addr q
    match head with
    | none => .next s
    | some ws =>
      if packetType ws ≠ 1 then .next s
      else
        match q.plan with
        | some p =>
          if !s.queueServes p.domain q.vf then .next ((s.refuseLaunch d p.domain p.block p.words 1).consume d addr ws)
          else if q.held then .next s
          else .next (s.tryLaunch d addr ws p)
        | none =>
          let block := nth ws 1
          match findBlock (frontRead d addr) block (s.blockDomains d addr q.ri block) none s with
          | .wait s => .next s
          | .bad s => .next s
          | .got s none =>
            let s := s.reportRefused d (Config.launchDomain addr q.ri) (kernelCore d).val 0 0
            .next ({ s with launchCount := s.launchCount + 1 }.consume d addr ws)
          | .got s (some (b, own)) =>
            let domain := domainField (nth b 0)
            let refused (s : State) : Result := .next ((s.refuseLaunch d domain block (nth b) 1).consume d addr ws)
            if !own then refused s
            else
              match readPlan (frontRead d addr domain) q.vf domain block b s with
              | .wait s => .next s
              | .bad s => refused s
              | .got s p =>
                let s := s.putQueue d addr { s.queueOf d addr with plan := some p }
                .next ((s.farClear (frontEng d addr domain)).tryLaunch d addr ws p))

/-! ### The end of a launch (R157) -/

/-- Are posted stores of a launch's actors unacknowledged? -/
def State.launchPosts (s : State) (n : Nat) : Bool :=
  s.cores.any (fun p => p.2.posted.any (fun v => v.launch == some n))

/-- A launch that runs or has failed, none of whose actors remains; and when the last one was destroyed. -/
def Launch.overAt (l : Launch) : Option Nat :=
  let none_ := l.actors.all (fun a => a.destroyed || !a.created)
  match l.state with
  | .running | .failing _ => if none_ then some (l.endedAt.getD 0) else none
  | _ => none

/-- LAUNCH COMPLETION: of one that failed, with the status it failed with (R154). -/
def execLaunchCompletion (s : State) : Result :=
  withNums s (fun n _ _ =>
    match tabGet s.launches n with
    | none => noSuch
    | some l => stepIf s (l.overAt.isSome && !s.launchPosts n) (s.completeLaunch n (match l.state with | .failing st => st | _ => l.status)))

/-- LOSTPOST: 10 ms after the last actor's end the posted stores still out are abandoned. -/
def execLostpost (s : State) : Result :=
  withNums s (fun n _ _ =>
    match tabGet s.launches n with
    | none => noSuch
    | some l =>
      let late := l.overAt.any (fun t => t + 10000000 ≤ s.quartz)
      let drop (k : Core) : Core := { k with posted := k.posted.filter (fun v => v.launch != some n) }
      stepIf s (late && s.launchPosts n)
        ({ s with cores := tabMap (fun _ k => drop k) s.cores }.mapLaunch n (fun l => { l with status := 4 })))

end Sys2Proof.Machine
end

