-- ==== Sys2Proof/Machine/Time.lean ====
section
/-! DEFINITION. The timebase lost and found (R260, R261, R375), and accesses between devices (R269, R376, R379):
windows, answers, timeouts, link replay and failed ports. -/

namespace Sys2Proof.Machine

/-! ### TIMELOST (R261, R375) -/

/-- Is a memory operation stalled on a store? -/
def MemOp.stalledStore (o : MemOp) : Bool :=
  o.out && o.storeAt.isSome &&
  (match o.todo with
   | a :: _ => (match a.kind with | .load | .pin _ => false | _ => true)
   | [] => false)

/-- TIMELOST: a core loses its timebase: it drops every leased copy; stores and renewals stall from now on. -/
def execTimelost (s : State) : Result :=
  withCore s (fun c =>
    stepIf s (s.core c).timelost.isNone
      ((s.mapCore c (fun k => Core.dropLeases { k with timelost := some s.quartz } (fun _ => true))).garnet
        (dieOf c).val 4 10 c.val 0xFFFF 0))

/-- QUARTZ RESYNC: the core leaves TIMELOST. -/
def execQuartzResync (s : State) : Result :=
  withCore s (fun c =>
    stepIf s (s.core c).timelost.isSome ((s.mapCore c (fun k => { k with timelost := none })).resyncCore c))

/-- QUARTZ FAILOVER: IO-B takes over; the count goes on. -/
def execQuartzFailover (s : State) : Result := .next { s with standby := true }

/-- The V-pipe instruction of a memory operation that failed is gone. -/
def dropEntry (fin : MemFin) (l : List VEntry) : List VEntry :=
  match fin with
  | .vstore => l.tail
  | .vload _ _ =>
    match l.findIdx? (fun e => isVLoad e.instr && e.data.isEmpty) with
    | some i => l.eraseIdx i
    | none => l
  | _ => l

def AccessKind.code : AccessKind → Nat
  | .load => 0
  | .store _ | .posted _ | .async _ => 1
  | .amo _ _ _ | .pin _ | .barrier _ => 3

/-- The access that a context has out fails: the fault is taken at the boundary (R343). -/
def State.failOp (s : State) (c : CoreId) (x : CtxId) (cause : Nat) : State :=
  s.mapCtx c x (fun y =>
    match y.op with
    | none => y
    | some o =>
      match o.todo with
      | [] => y
      | a :: _ =>
        let pol := match a.place with | .memory _ _ _ p => polCode p | _ => 0
        { y with
          op := none, vq := if o.vpipe then dropEntry o.fin y.vq else y.vq, deadline := none,
          stops := y.stops ++ [.fault cause a.addr a.kind.code pol] })

/-- Is a commit of the context stalled on the stores that it buffers (R261, R263)? -/
def Ctx.stalledCommit (y : Ctx) : Bool := y.optimistic && y.chunk.committing && !y.chunk.writes.isEmpty

/-- The fault of a stalled commit; it names no address (assumption 85). -/
def commitLost : Stop := .fault 21 0 1 1

/-- TIMELOST FAULT: 1 ms on, every activation that is stalled on a store faults. -/
def execTimelostFault (s : State) : Result :=
  withCore s (fun c =>
    let late := (s.core c).timelost.any (fun t => t + 1000000 ≤ s.quartz)
    if late then
      .next ((List.range 4).foldl (fun s i =>
        let y := s.ctx c (ctxOf i)
        if y.op.any MemOp.stalledStore then s.failOp c (ctxOf i) 21
        else if y.stalledCommit && !y.stops.contains commitLost then
          s.mapCtx c (ctxOf i) (fun y => { y with stops := y.stops ++ [commitLost] })
        else s) s)
    else .next s)

/-! ### A peer's access to this device (R269, R379) -/

def peerLoads : PeerOp → Bool
  | .load _ => true
  | _ => false

def peerSize : PeerOp → Nat
  | .load n => n
  | .store d | .posted d => d.length

/-- Does a window admit an access, under a key slot that is loaded? -/
def State.windowAdmits (s : State) (device : BitVec 12) (addr : Nat) (op : PeerOp) : Bool :=
  addr + peerSize op ≤ Config.hbmEnd &&
  s.windows.any (fun p =>
    let w := p.2
    w.device == device && (if peerLoads op then w.r else w.w) && w.base ≤ addr && addr + peerSize op ≤ w.base + w.length &&
    s.keyLoaded w.key)

/-- PEER ACCESS: performed at the home slice, outside logical time; one that no window admits is denied. One that
cannot be performed yet waits on its way to the slice. -/
def execPeerAccess (s : State) : Result :=
  match s.arg with
  | .peer device addr op =>
    let lines := (List.range ((addr % 128 + peerSize op + 127) / 128)).map (addr / 128 + ·)
    let ask (w : Bool) : State := lines.foldl (fun s l => s.askHost (lineDie l) l w) s
    let later (s : State) : Result := .next (s.send agentPackage (agentSlice (addr / 128)) .peerAccess s.arg)
    if !s.windowAdmits device addr op then .next (s.tell (.peerReply device addr .denied))
    else
      match op with
      | .load n =>
        if lines.any (s.lineHeld · false) then later s
        else
          match s.readHome addr n with
          | none => later (ask false)
          | some (s, bs) => .next (s.tell (.peerReply device addr (.data bs)))
      | .store d | .posted d =>
        match (lineWrites addr d).foldl (fun t p => t.bind (·.writeNow p.1 p.2.1 p.2.2)) (some s) with
        | none => later (ask true)
        | some t => .next (t.tell (.peerReply device addr .done))
  | _ => noSuch

/-! ### Answers of peers (R379) -/

/-- A posted store leaves its core; lost, its launch says so, and a refused one is reported (R157, R342). -/
def State.postedEnd (s : State) (c : CoreId) (n : Nat) (lost report : Bool) : State :=
  match (s.core c).posted.find? (fun p => p.id == n) with
  | none => s
  | some p =>
    let s := s.mapCore c (fun k => Core.wakeLine { k with posted := k.posted.filter (fun q => q.id != n) } p.line)
    let s := match lost, p.launch with
      | true, some l => s.mapLaunch l (fun l => { l with status := 4 })
      | _, _ => s
    if report then s.reportPosted c p else s

/-- The end of a request to a peer, for whoever made it; none is a request that was not answered. -/
def State.peerEnd (s : State) (r : PeerRequest) (a : Option PeerAnswer) : State :=
  let denied := match a with | some (.data _) | some .done => false | _ => true
  let bs : List Byte := match a with | some (.data bs) => bs | _ => []
  let v := leWord (bs.take 8)
  match r.ctx, r.posted, r.reader, r.writer with
  | some x, _, _, _ =>
    match s.waitsFor r.core x (peerLine r.addr) with
    | none => s
    | some _ => if denied then s.failOp r.core x causeProt else s.answered r.core x v
  | none, some n, _, _ => s.postedEnd r.core n denied (denied && a.isSome)
  | none, none, some id, _ =>
    if denied then s.farDenied id
    else s.farData id (wordMask (r.addr % 128) r.size) (lineOf (r.addr % 128) r.size (leNat bs))
  | none, none, none, some id => s.farDone id denied
  | none, none, none, none => s

/-- PEER ACKNOWLEDGEMENT. -/
def execPeerAcknowledgement (s : State) : Result :=
  match s.arg with
  | .peerAnswer id a =>
    match tabGet s.peers id with
    | none => noSuch
    | some r => .next ({ s with peers := tabDel s.peers id }.peerEnd r (some a))
  | _ => noSuch

/-- PEER TIMEOUT: no answer for 10 ms: a load or ST faults with PROT, a posted store is abandoned. -/
def execPeerTimeout (s : State) : Result :=
  withNums s (fun id _ _ =>
    match tabGet s.peers id with
    | none => noSuch
    | some r =>
      stepIf s (r.since + 10000000 ≤ s.quartz) ({ s with peers := tabDel s.peers id }.peerEnd r none))

/-! ### Links (R376) -/

/-- LINK REPLAY: the flit is sent again, which only Garnet shows: its number, the link and the lane. -/
def execLinkReplay (s : State) : Result :=
  withNums s (fun g link lane => .next (s.garnet (g % 10) 5 7 0 0xFFFF (link + lane * 2 ^ 64)))

/-- Ports of the scale-up fabric (R8, R9). -/
def fabricPorts : Nat := 36

/-- PORT FAILURE of one of the 36 ports: it carries no more; its traffic moves to another port once every flit in
flight has been acknowledged, in its order, so what is under way stays as it is. Garnet shows the port. -/
def execPortFailure (s : State) : Result :=
  withNums s (fun g port _ =>
    if fabricPorts ≤ port then noSuch
    else
      .next ({ s with failedPorts := port :: s.failedPorts.filter (· != port) }.garnet (8 + g % 2) 5 7 0 0xFFFF port))

end Sys2Proof.Machine
end

