-- ==== Sys2Proof/Machine/Extern.lean ====
section
/-! DEFINITION. The host (R279, R381), virtual functions and keys (R384 to R386), and management commands (R367,
R402, R403). -/

namespace Sys2Proof.Machine

/-! ### CXL.mem (R279, R381) -/

/-- An entry about a host access outside the ranges of its function. -/
def State.hostFault (s : State) (vf addr kind : Nat) : State :=
  let e : Entry := { detail := 0, addr := word addr, domain := 0xFFFF, core := 0, slot := 0, path := 0, kind,
                     status := 0, cause := causeProt }
  let b := e.bits s.quartz 0 1
  (s.ring (vfRing vf) b).garnet 8 2 0 0 0xFFFF (b.toNat % 2 ^ 128)

/-- A request of the host leaves for the home of its line, as requester 264. Its wts and rts name the address and
the length, which the answer to the host gives again. -/
def State.hostRequest (s : State) (kind : ReqKind) (addr n : Nat) (data : List Byte) : State :=
  let line := addr / 128
  let d := lineDie line
  let off := addr % 128
  let write := kind == .ewr || kind == .wb
  s.send agentPackage (agentSlice line) (requestRow kind) (.proto { Proto.empty with
    unit := .slice d, reqr := 264, line, kind, wts := if kind == .wb then 0 else addr,
    rts := if kind == .wb then 0 else n,
    mask := if kind == .rdx || kind == .wb then allWords else wordMask off n,
    data := if write then lineOf off n (leNat data) else 0,
    wmask := if write then byteMask off data.length else 0 })

/-- The parts of a range, line by line: address, length, offset in the range. -/
def lineParts (addr n : Nat) : List (Nat × Nat × Nat) :=
  (List.range ((addr % 128 + n + 127) / 128)).map (fun i =>
    let lo := if i = 0 then addr else (addr / 128 + i) * 128
    (lo, min ((addr / 128 + i + 1) * 128) (addr + n) - lo, lo - addr))

/-- HOST CXL.MEM ACCESS: inside a range of its function it is served at the home; outside, and while the function's
interface is in ERROR, which refuses new requests (R385), a read gives all ones and a write is discarded. -/
def execHostCxlMemAccess (s : State) : Result :=
  match s.arg with
  | .host vf addr len op =>
    if vfCount ≤ vf then noSuch else
    let inside := 0 < len && addr + len ≤ Config.hbmEnd && (s.vf vf).state != .error &&
      s.hdm.any (fun h => h.vf == vf && h.base ≤ addr && addr + len ≤ h.base + h.length)
    let each (kind : ReqKind) (data : List Byte) : State :=
      (lineParts addr len).foldl (fun s p => s.hostRequest kind p.1 p.2.1 ((data.drop p.2.2).take p.2.1)) s
    match op with
    | .read => .next (if inside then each .rdu []
        else (s.hostFault vf addr kindRead).tell (.hostData addr (List.replicate len 0xFF)))
    | .readShared => .next (if inside then each .rdt []
        else (s.hostFault vf addr kindRead).tell (.hostData addr (List.replicate len 0xFF)))
    | .readOwn => .next (if inside then each .rdx []
        else (s.hostFault vf addr kindRead).tell (.hostData addr (List.replicate len 0xFF)))
    | .write data => .next (if inside then each .ewr data else s.hostFault vf addr kindWrite)
    | .evict data =>
      if !inside then .next (s.hostFault vf addr kindWrite)
      else
        let line := addr / 128
        let u := HomeUnit.slice (lineDie line)
        let e := s.dir u line
        let owner := [1, 2, 3, 4].any (fun i => (e.owner i).any (·.id == 264))
        if owner then .next (s.hostRequest .wb (line * 128) 128 data)
        else if e.sharers.contains 264 then .next (s.setDir u line (e.dropSharer 264).settle)
        else .next s
  | _ => noSuch

/-! ### Virtual functions (R384, R385) -/

/-- A step of one of the 64 virtual functions. -/
def withVf (s : State) (f : Nat → Nat → Nat → Result) : Result :=
  withNums s (fun v a b => if v < vfCount then f v a b else noSuch)

def tdispCode : TdispState → Nat
  | .unlocked => 0
  | .locked => 1
  | .run => 2
  | .error => 3

/-- An interface enters a state: a report to its ring, and Garnet (R342, R368). -/
def State.enterTdisp (s : State) (v : Nat) (f : Vf) : State :=
  let e : Entry := { detail := tdispCode f.state, addr := 0, domain := 0xFFFF, core := 0, slot := 0, path := 0,
                     kind := 0, status := 0, cause := 40 }
  let s := { s with vfs := tabSet s.vfs v f }
  (s.ring (vfRing v) (e.bits s.quartz 0 1)).garnet 8 8 9 v 0xFFFF (tdispCode f.state)

/-- TDISP LOCK of an interface: a to b, b excluded, are the domains that Sartar binds to it. Before it, in CONFIG_UNLOCKED,
Sartar may give the function other HDM ranges. -/
def execTdispLock (s : State) : Result :=
  match s.arg with
  | .ranges v l =>
    if v < vfCount then
      stepIf s (!s.frozen v) { s with
        hdm := s.hdm.filter (·.vf != v) ++ l.map (fun r => { base := r.1, length := r.2, vf := v : Hdm }) }
    else noSuch
  | _ =>
    withVf s (fun v a b =>
      let f := s.vf v
      let free (d : BitVec 16) : Bool := d != 0 && d != 0xFFFF && s.vfs.all (fun p => !p.2.domains.contains d)
      let ds := ((List.range (min b 65536 - a)).map (fun i => BitVec.ofNat 16 (a + i))).filter free
      stepIf s (f.state = .unlocked) (s.readQueues.enterTdisp v { f with state := .locked, domains := ds }))

/-- TDISP START, with the session's key-update interval in ns (0: none). -/
def execTdispStart (s : State) : Result :=
  withVf s (fun v t _ =>
    let f := s.vf v
    stepIf s (f.state = .locked) (s.enterTdisp v { f with state := .run, interval := t, renewed := s.quartz }))

/-- Does a domain of a list take part in an activation? -/
def boundTo (ds : List (BitVec 16)) (y : Ctx) : Bool := killTouches (ds.contains ·) y

/-- Whose write to host memory a message of a remote-data cache is (R385). -/
def State.writerDomain (s : State) (p : Proto) : Option (BitVec 16) :=
  match p.waiter with
  | .ctx c x => some (s.ctx c x).domain
  | .posted c n => ((s.core c).posted.find? (fun q => q.id == n)).map (·.domain)
  | .writer n => (tabGet s.farWrites n).map (·.domain)
  | _ => none

/-- A write to host memory is dropped: whoever waits for a store goes on, and an AMO has not executed. -/
def State.dropHostWrite (s : State) (p : Proto) : State :=
  match p.kind, p.waiter with
  | .amo, .ctx c x => s.mapCtx c x (fun y => { y with op := none, wait := .run })
  | _, _ => s.respond .ack { p with lclk := 0, grant := .value }

/-- Writes of some domains to host memory that have not reached the link are dropped. Of an AMO whose line has been asked of
the host, the line still comes. -/
def State.dropHostWrites (s : State) (ds : List (BitVec 16)) : State :=
  let hit (p : Proto) : Bool :=
    (p.kind == .wt || p.kind == .amo) && isHostLine p.line && (s.writerDomain p).any (ds.contains ·)
  let out (f : Flight) : Bool :=
    match f.ev.row, f.ev.arg with
    | .wt, .proto p | .amoMessage, .proto p | .nack, .proto p | .nackResend, .proto p => hit p
    | _, _ => false
  let mine (p : Proto) : Bool := p.kind == .amo && hit p
  let asked := s.dies.flatMap (fun d => d.2.rdc.filterMap (fun r => r.2.dir.cur.filter mine))
  let free (r : RdcLine) : RdcLine :=
    { r with dir := { r.dir with cur := r.dir.cur.map (fun p => if mine p then { p with op := none, waiter := .nobody } else p) } }
  let flying := (s.pending.filter out).filterMap (fun f => match f.ev.arg with | .proto p => some p | _ => none)
  let queued := s.dies.flatMap (fun d => d.2.rdcQueue.filter hit)
  let idle (k : Core) : Core :=
    (k.posted.filter (fun q => q.own.isSome && ds.contains q.domain)).foldl (fun k q => k.wakeLine q.line)
      { k with posted := k.posted.filter (fun q => q.own.isNone || !ds.contains q.domain) }
  let s := { s with
    pending := s.pending.filter (!out ·),
    cores := tabMap (fun _ k => idle k) s.cores,
    dies := tabMap (fun _ d => { d with rdcQueue := d.rdcQueue.filter (!hit ·), rdc := tabMap (fun _ r => free r) d.rdc }) s.dies }
  (flying ++ queued ++ asked).foldl (fun s p => s.dropHostWrite p) s

/-- The activations of some domains: those bound are saved at their next boundary, those saved are not
resumable. -/
def State.haltDomains (s : State) (ds : List (BitVec 16)) : State :=
  s.cores.foldl (fun s p =>
    let c := coreOf p.1
    let stop (y : Ctx) : Ctx := if y.act.isSome && boundTo ds y then { y with stops := y.stops ++ [.tdisp] } else y
    let s := s.mapCore c (fun k => { k with ctxs := k.ctxs.map stop })
    allSlots.foldl (fun s n =>
      match (s.slot c n).saved with
      | none => s
      | some v =>
        if boundTo ds v.ctx then s.haltSaved c n else s) s) s

/-- The engine requests of a domain cancelled on the whole device, and its sessions abandoned. -/
def State.cancelEngines (s : State) (d : BitVec 16) : State :=
  let s := s.cores.foldl (fun s p => (s.killCopies (coreOf p.1) d).killMatrix (coreOf p.1) d) s
  let s := s.clusters.foldl (fun s p => s.killGathers (Fin.ofNat 64 p.1) d) s
  let s := s.dies.foldl (fun s p => s.killCollective (dieNum p.1) d) s
  let s := s.abandonSessions (fun _ v => v.domain == d)
  s.dies.foldl (fun s p => s.killSeal (dieNum p.1) d) s

/-- The steps of R385 when an interface leaves RUN. -/
def State.leaveRun (s : State) (v : Nat) : State :=
  let f := s.vf v
  let s := { s with vfs := tabSet s.vfs v { f with state := .error } }
  let s := (s.dropHostWrites f.domains).haltDomains f.domains
  let s := f.domains.foldl (fun s d => s.cancelEngines d) s
  let mine := (s.onyx.keys.filter (fun p => p.2 == some v)).map (·.1)
  let s := { s with onyx := { s.onyx with
    keys := s.onyx.keys.filter (fun p => p.2 != some v), destroyed := s.onyx.destroyed ++ mine } }
  s.enterTdisp v { f with state := .error }

/-- LEAVE RUN: for any reason that TDISP gives, or when the session expires. -/
def execLeaveRun (s : State) : Result :=
  withVf s (fun v _ _ => stepIf s ((s.vf v).state = .run) (s.leaveRun v))

/-- Is nothing left of a domain on the device: no actor of it, and no activation that it takes part in? -/
def State.domainGone (s : State) (d : BitVec 16) : Bool :=
  s.cores.all (fun p =>
    p.2.slots.toList.all (fun sl => sl.state == .free || sl.state == .moved || sl.domain != d) &&
    p.2.ctxs.toList.all (fun y => y.act.isNone || !boundTo [d] y))

/-- TDISP STOP: from CONFIG_LOCKED, and from ERROR once every bound domain has been killed, to CONFIG_UNLOCKED.
The sessions of domains that so lose their binding are abandoned (R322). From RUN it leaves RUN, as R385 says. -/
def execTdispStop (s : State) : Result :=
  withVf s (fun v _ _ =>
    let f := s.vf v
    let free := (s.abandonSessions (fun _ w => f.domains.contains w.domain)).enterTdisp v
      { f with state := .unlocked, domains := [] }
    match f.state with
    | .unlocked => .next s
    | .locked => .next free
    | .run => .next (s.leaveRun v)
    | .error => stepIf s (f.domains.all s.domainGone) free)

/-- KEY-UPDATE EXPIRY: an interval has passed without KEY_UPDATE. -/
def execKeyUpdateExpiry (s : State) : Result :=
  withVf s (fun v _ _ =>
    let f := s.vf v
    stepIf s (f.state = .run && f.interval != 0 && f.renewed + f.interval < s.quartz) (s.leaveRun v))

/-- KEY_UPDATE: the interval starts again. -/
def execKeyUpdate (s : State) : Result :=
  withVf s (fun v _ _ =>
    let f := s.vf v
    stepIf s (f.state = .run) { s with vfs := tabSet s.vfs v { f with renewed := s.quartz } })

/-! ### Keys (R386) -/

/-- The interface that a domain is bound to. -/
def State.boundVf (s : State) (d : BitVec 16) : Option Nat := (s.vfs.find? (fun p => p.2.domains.contains d)).map (·.1)

/-- KEY SLOT LOAD: a slot other than 0, for a domain: through the session of the interface that owns it, or for the kernel when
none does. A destroyed slot is loaded again only once Sartar has reported every frame that used it as scrubbed. -/
def execKeySlotLoad (s : State) : Result :=
  match s.arg with
  | .key slot domain scrubbed =>
    let n := slot.val
    let vf := s.boundVf domain
    let session := vf.all (fun v => (s.vf v).state == .locked || (s.vf v).state == .run)
    stepIf s (n != 0 && session && (scrubbed || !s.onyx.destroyed.contains n))
      { s with onyx := { s.onyx with
          keys := (n, vf) :: s.onyx.keys.filter (fun p => p.1 != n), destroyed := s.onyx.destroyed.filter (· != n) } }
  | _ => noSuch

/-- FATAL ERROR: the Garnet where it occurs takes no further record (R369). Kind 0 is an uncorrectable error in
kernel-domain state, at an address, which is recorded first (R368) with a core that is a free value (assumption 53); 1 is
the loss of a die-to-die link, 2 a fatal report of Onyx. -/
def execFatalError (s : State) : Result :=
  withNums s (fun g kind addr =>
    let (core, s) := s.takeFree
    let s := if kind = 0 then
        s.garnet (min g 9) 7 (if g < 8 then 6 else 9) (core.toNat % 2048) 0 (addr / 8 % 32 + addr % 2 ^ 64 * 2 ^ 64) else s
    if g < 8 then .next (s.mapDie (dieNum g) (fun d => { d with garnet := { d.garnet with frozen := true } }))
    else if g = 8 then .next { s with garnetA := { s.garnetA with frozen := true } }
    else .next { s with garnetB := { s.garnetB with frozen := true } })

/-! ### Management commands (R402, R403) -/

/-- The codes of the statuses that the manual names without a number (assumption 16). -/
def mgmtInvalid : Nat := 2
def mgmtDenied : Nat := 22

/-- GETREADY. -/
def execGetready (s : State) : Result := .next (s.tell (.management 0xC000 0 [s.ready]))

/-- SETCAP: 1,500 to 3,200 W; a new cap causes a re-grant. -/
def execSetcap (s : State) : Result :=
  withNums s (fun w _ _ =>
    if w < 1500 || 3200 < w then .next (s.tell (.management 0xC001 mgmtInvalid []))
    else .next ({ s with arbiter := { s.arbiter with cap := w, due := true } }.tell (.management 0xC001 0 [])))

/-- GETPOWER: the cap, and the draw and the temperature, which are free values. -/
def execGetpower (s : State) : Result :=
  let (draw, s) := s.takeFree
  let (temp, s) := s.takeFree
  .next (s.tell (.management 0xC002 0
    [word s.arbiter.cap, word (draw.toNat % 2 ^ 32), word (temp.toNat % 2 ^ 32)]))

/-- The domains whose state an object of R365 shows. -/
def State.objectDomains (s : State) (c : CoreId) (obj sub : Nat) (select : Word) : List (BitVec 16) :=
  let k := s.core c
  match obj with
  | 1 | 2 | 3 =>
    let n := slotOf (bitsOf select 3 0)
    [k.slots[n].domain]
  | 4 => k.sends.toList.flatMap (fun e => match e with | some e => [e.msg.domain] | none => [])
  | 5 => match k.copies[entryOf (bitsOf select 6 0)] with | some v => [v.domain] | none => []
  | 7 =>
    let a : Fin 4 := Fin.ofNat 4 sub
    [k.matrix.accs[a].owner]
  | 8 => k.matrix.queue.map (·.domain)
  | _ => []

/-- INSPECT through the CXL mailbox: the same objects, with no core; those of a domain bound to an interface in
RUN are DENIED (R367). The bytes are written to the buffer in host memory as far as it goes, and the answer says how many; a
short buffer and an unknown object have the statuses of R365. -/
def execCxlInspect (s : State) : Result :=
  match s.arg with
  | .inspect obj sub select core buffer limit =>
    let running (d : BitVec 16) : Bool := s.vfs.any (fun v => v.2.state == .run && v.2.domains.contains d)
    if (s.objectDomains core obj sub select).any running then .next (s.tell (.management 0xC010 mgmtDenied []))
    else
      match s.inspect core obj sub select with
      | none => .next (s.tell (.management 0xC010 12 []))
      | some bs =>
        let out := bs.take limit
        .next ((s.tell (.hostWrite buffer out)).tell
          (.management 0xC010 (if out.length < bs.length then 2 else 0) [word out.length]))
  | _ => noSuch

/-- MEASURE: a measurement register, 48 bytes. -/
def execMeasure (s : State) : Result :=
  withNums s (fun n _ _ =>
    let m := (tabGet s.onyx.measurements n).getD (List.replicate 48 0)
    .next (s.tell (.management 0xC011 0 (leWords 6 m))))

end Sys2Proof.Machine
end

