-- ==== Sys2Proof/Machine/Boot.lean ====
section
/-! DEFINITION. Bring-up and reset (R32, R369, R393 to R395). -/

namespace Sys2Proof.Machine

/-- READY (R395) from its fields. -/
def readyWord (mask fail state : Nat) : BitVec 64 := word (mask % 256 * 2 ^ 16 + fail % 256 * 2 ^ 8 + state % 256)

def State.dieMask (s : State) : Nat := bitsOf s.ready 23 16

/-- A record of a bring-up step on IO-A; the manual gives its time alone. -/
def State.bootRecord (s : State) : State :=
  let (v, s) := s.takeFree
  let (d, s) := s.takeFree
  s.garnet 8 (v.toNat % 256) 9 0 0xFFFF d.toNat

/-- Step 1 of R393: the image is measured. -/
def State.measureBoot (s : State) : State :=
  let m := (List.range 48).map (fun i => Config.measurementByte 0 i)
  { s.bootRecord with
    onyx := { s.onyx with measurements := tabSet s.onyx.measurements 0 m }, ready := readyWord 0 0 1, boot := 1 }

/-- Step 2 begins: the device key is derived, and Sartar stands in the memory of die 0. -/
def State.loadSartar (s : State) : State :=
  let at_ := Config.sartarBase % Config.dieBytes
  let bs := (List.range (min Config.sartarSize (Config.dieBytes - at_))).map Config.sartarByte
  { s with onyx := { s.onyx with keys := [(0, none)] }, hbm := s.hbm.setBytes at_ bs }

/-- Core 0 of a die released: by a BOOT message that carries its entry, which is mb0's handler (R394). -/
def State.releaseDie (s : State) (d : DieId) (entry measure : Word) : State :=
  let c := kernelCore d
  let m : Msg := { dst := endpointOf c.val 0 0, sender := senderOf c.val 0 0, tag := 0x42, seq := 0,
                   payload := [entry, measure], domain := 0, stamp := none, src := .outside }
  let set (sl : Slot) : Slot := { sl with mboxes := sl.mboxes.modify 0 (fun b => { b with desc0 := entry }) }
  ({ s with ready := readyWord (s.dieMask + 2 ^ d.val) 0 1 }.mapSlot c 0 set).post agentPackage m

/-- A die of step 2 is over; with the last the step is, and its record is written. -/
def State.nextDie (s : State) : State :=
  let s := { s with boot := s.boot + 1 }
  if s.boot = 9 then s.bootRecord else s

/-- The translation service actor of a cluster set up (R7): a kernel actor that takes the miss messages of R238 in its
mb0. Misses that nobody has been told of are asked again (assumption 101). -/
def State.startService (s : State) (g : ClusterId) : State :=
  let p : PlanActor :=
    { slot := serviceSlot g, fixed := true, core := (serviceCore g).val, pclass := 0, cls := 0, weight := 1, tvec := 0,
      stack := none, regions := [], inits := [],
      mboxes := [(Config.translationEntry g.val &&& 0x00FFFFFFFFFFFFFC, 0x0000004D00078004)] }
  let s := (s.create (serviceCore g) p.slot p 0 (Config.translationArea g.val) none).1
  (s.cluster g).misses.foldl (fun s q =>
    let (s, _, ws) := s.takeMiss g q.1
    ws.foldl State.wakeMiss s) s

/-- The clusters of the dies in service. -/
def State.served (s : State) : List ClusterId :=
  ((List.range 64).map (Fin.ofNat 64)).filter (fun g => s.ready.getLsbD (16 + (clusterDie g).val))

/-- Step 4: the arbiter, the gate table, the rings (whose descriptors Config holds) and the translation service. -/
def State.startServices (s : State) : State :=
  let s := { s.bootRecord with
    arbiter := { s.arbiter with cap := 3000, reserved := s.arbiter.reserved + Config.islandPower },
    gateBase := Config.gateTableBase.toNat, callBase := some (Config.callBase.toNat / 0x200000 * 0x200000), boot := 11 }
  s.served.foldl (fun s g => s.startService g) s

/-- Step 5: what the fabric and the host links need, and READY. -/
def State.reportReady (s : State) : State :=
  let hdm := Config.hdmRanges.map (fun h => { base := h.1, length := h.2.1, vf := h.2.2 : Hdm })
  { s.bootRecord with
    device := Config.deviceId, devices := Config.deviceIds, hdm, ready := readyWord s.dieMask 0 2, boot := 12 }

/-- Bring-up fails: a FAIL code, and no die goes on. -/
def State.failBoot (s : State) (fail : Nat) : State :=
  { s.bootRecord with boot := 12, ready := readyWord s.dieMask fail 3 }

/-- The next step of bring-up but the second, which goes die by die: `State.boot` counts 1 for the first, 1 for each die, and 1
for each step from the third. The last needs IO-A in service (R395). -/
def State.bootOn (s : State) : State :=
  match s.boot with
  | 0 => s.measureBoot
  | 9 => { s.bootRecord with boot := 10 }
  | 10 => s.startServices
  | 11 => if s.standby then s else s.reportReady
  | _ => s

/-- BOOT: bring-up goes on by a step, or in the second step by one die (R393). The argument names the die with its entry address
and measurement handle, which the Onyx message carries; or it is 0, the next step; 1, a signature that fails, which leaves
every core in reset; 2, a die that fails training, which is left out (die 0 ends bring-up) with the FAIL code; or 3, a failure
of Quartz (4) in step 3 or of the fabric (5) or the host link (6) in step 5. -/
def execBoot (s : State) : Result :=
  match s.arg with
  | .boot d entry measure =>
    let s' := if d.val = 0 then s.loadSartar else s
    stepIf s (d.val + 1 = s.boot) ((s'.releaseDie d entry measure).nextDie)
  | .nums 0 _ _ => .next s.bootOn
  | .nums 1 _ _ => stepIf s (s.boot = 0) (s.failBoot 1)
  | .nums 2 fail _ => stepIf s (1 ≤ s.boot && s.boot ≤ 8) (if s.boot = 1 then s.failBoot fail else s.nextDie)
  | .nums 3 fail _ =>
    stepIf s ((s.boot = 9 && fail = 4) || (s.boot = 11 && (fail = 5 || fail = 6))) (s.failBoot fail)
  | _ => noSuch

/-- What a reset leaves alone: the model's own inputs, and what the device has told the world. -/
def State.afterReset (s : State) : State :=
  { State.reset with agenda := s.agenda, outbox := s.outbox, fresh := s.fresh, arg := s.arg }

/-- COLD RESET: everything is as R32 says, and bring-up starts again. -/
def execColdReset (s : State) : Result := .next s.afterReset

/-- WARM RESET: the same, but every Garnet keeps its records. -/
def execWarmReset (s : State) : Result :=
  let keep (d : Die) : Die := { Die.reset with garnet := d.garnet }
  .next { s.afterReset with
    garnetA := s.garnetA, garnetB := s.garnetB, dies := tabMap (fun _ d => keep d) s.dies }

end Sys2Proof.Machine
end

