-- ==== Sys2Proof/Machine/Scalar.lean ====
section
/-! DEFINITION. Scalar integer and floating-point instructions (R36, R84 to R94), one meaning each. -/

namespace Sys2Proof.Machine

/-! ### No effect (R34, R36) -/

def execNop (s : State) : Result := done s 8

def execFillWord (s : State) : Result := done s 4

/-! ### Integer arithmetic (R85) -/

def int1 (xs : List Int) : Int := xs[0]?.getD 0
def int2 (xs : List Int) : Int := xs[1]?.getD 0
def int3 (xs : List Int) : Int := xs[2]?.getD 0

/-- The bits of an exact value of a type. -/
def bitsInt (t : Ty) (i : Int) : Nat := wrapBits t.width i

/-- The bits of a as an integer of the other signedness or the same. -/
def signedInt (t : Ty) (i : Int) : Int :=
  let v := bitsInt t i
  if 2 ^ (t.width - 1) ≤ v then (v : Int) - (2 ^ t.width : Nat) else v

/-- b mod w, b unsigned (R85). -/
def shiftAmount (t : Ty) (i : Int) : Nat := bitsInt t i % t.width

def bool01 (b : Bool) : Int := if b then 1 else 0

def execAdd (o : FmtA) (s : State) : Result :=
  intOp o [o.a, o.b] (fun xs => int1 xs + int2 xs) s

def execSub (o : FmtA) (s : State) : Result :=
  intOp o [o.a, o.b] (fun xs => int1 xs - int2 xs) s

def execAnd (o : FmtA) (s : State) : Result :=
  intOp o [o.a, o.b] (fun xs => (bitsInt o.t (int1 xs) &&& bitsInt o.t (int2 xs) : Nat)) s

def execOr (o : FmtA) (s : State) : Result :=
  intOp o [o.a, o.b] (fun xs => (bitsInt o.t (int1 xs) ||| bitsInt o.t (int2 xs) : Nat)) s

def execXor (o : FmtA) (s : State) : Result :=
  intOp o [o.a, o.b] (fun xs => (bitsInt o.t (int1 xs) ^^^ bitsInt o.t (int2 xs) : Nat)) s

def execAndn (o : FmtA) (s : State) : Result :=
  intOp o [o.a, o.b] (fun xs => (bitsInt o.t (int1 xs) &&& bitsInt o.t (-int2 xs - 1) : Nat)) s

def execOrn (o : FmtA) (s : State) : Result :=
  intOp o [o.a, o.b] (fun xs => (bitsInt o.t (int1 xs) ||| bitsInt o.t (-int2 xs - 1) : Nat)) s

def execShl (o : FmtA) (s : State) : Result :=
  intOp o [o.a, o.b] (fun xs => (bitsInt o.t (int1 xs) * 2 ^ shiftAmount o.t (int2 xs) : Nat)) s

def execShr (o : FmtA) (s : State) : Result :=
  intOp o [o.a, o.b] (fun xs => (bitsInt o.t (int1 xs) / 2 ^ shiftAmount o.t (int2 xs) : Nat)) s

def execSar (o : FmtA) (s : State) : Result :=
  intOp o [o.a, o.b] (fun xs => signedInt o.t (int1 xs) / (2 ^ shiftAmount o.t (int2 xs) : Nat)) s

/-- Rotation left within w bits. -/
def rotl (w v n : Nat) : Nat := (v * 2 ^ n + v / 2 ^ (w - n)) % 2 ^ w

def execRol (o : FmtA) (s : State) : Result :=
  intOp o [o.a, o.b]
    (fun xs => (rotl o.t.width (bitsInt o.t (int1 xs)) (shiftAmount o.t (int2 xs)) : Nat)) s

def execRor (o : FmtA) (s : State) : Result :=
  intOp o [o.a, o.b]
    (fun xs => (rotl o.t.width (bitsInt o.t (int1 xs))
      ((o.t.width - shiftAmount o.t (int2 xs)) % o.t.width) : Nat)) s

def execMin (o : FmtA) (s : State) : Result :=
  intOp o [o.a, o.b] (fun xs => min (int1 xs) (int2 xs)) s

def execMax (o : FmtA) (s : State) : Result :=
  intOp o [o.a, o.b] (fun xs => max (int1 xs) (int2 xs)) s

def execSlt (o : FmtA) (s : State) : Result :=
  intOp o [o.a, o.b] (fun xs => bool01 (int1 xs < int2 xs)) s

def execSeq (o : FmtA) (s : State) : Result :=
  intOp o [o.a, o.b] (fun xs => bool01 (int1 xs == int2 xs)) s

def execSne (o : FmtA) (s : State) : Result :=
  intOp o [o.a, o.b] (fun xs => bool01 (int1 xs != int2 xs)) s

/-- Zeros from the top of w bits. -/
def leadingZeros (w v : Nat) : Nat := if v = 0 then w else w - 1 - Nat.log2 v

/-- Zeros from the bottom of w bits. -/
def trailingZeros (w v : Nat) : Nat := ((List.range w).find? (fun i => v.testBit i)).getD w

def popCount (w v : Nat) : Nat := ((List.range w).filter (fun i => v.testBit i)).length

/-- Bits reversed within w. -/
def reverseBits (w v : Nat) : Nat :=
  (List.range w).foldl (fun a i => if v.testBit i then a + 2 ^ (w - 1 - i) else a) 0

/-- Bytes reversed within w bits. -/
def reverseBytes (w v : Nat) : Nat := leNat (leBytes (w / 8) v).reverse

def execClz (o : FmtA) (s : State) : Result :=
  intOp o [o.a] (fun xs => (leadingZeros o.t.width (bitsInt o.t (int1 xs)) : Nat)) s

def execCtz (o : FmtA) (s : State) : Result :=
  intOp o [o.a] (fun xs => (trailingZeros o.t.width (bitsInt o.t (int1 xs)) : Nat)) s

def execPopc (o : FmtA) (s : State) : Result :=
  intOp o [o.a] (fun xs => (popCount o.t.width (bitsInt o.t (int1 xs)) : Nat)) s

def execBrev (o : FmtA) (s : State) : Result :=
  intOp o [o.a] (fun xs => (reverseBits o.t.width (bitsInt o.t (int1 xs)) : Nat)) s

def execBswap (o : FmtA) (s : State) : Result :=
  intOp o [o.a] (fun xs => (reverseBytes o.t.width (bitsInt o.t (int1 xs)) : Nat)) s

/-- SEXT and ZEXT write a 64-bit value of their own, whatever the signedness of T (R85). -/
def extOp (o : FmtA) (f : Nat → Word) (s : State) : Result :=
  scalarOp (FmtA.len o) o.d [o.a] (FmtA.immWord o o.t)
    (fun vs => (f (bitsInt o.t (int1 (intSources o.t [o.ma] vs))), 0)) s

def execSext (o : FmtA) (s : State) : Result := extOp o (sx64 o.t.width) s

def execZext (o : FmtA) (s : State) : Result := extOp o (zx64 o.t.width) s

/-! ### Multiplication and division (R86) -/

def execMul (o : FmtA) (s : State) : Result :=
  intOp o [o.a, o.b] (fun xs => int1 xs * int2 xs) s

def execMulh (o : FmtA) (s : State) : Result :=
  intOp o [o.a, o.b] (fun xs => int1 xs * int2 xs / (2 ^ o.t.width : Nat)) s

/-- DIV of R86: all ones by zero; the most negative value over −1 wraps to itself. -/
def divInt (a b : Int) : Int := if b = 0 then -1 else a.tdiv b

def remInt (a b : Int) : Int := if b = 0 then a else a.tmod b

def execDiv (o : FmtA) (s : State) : Result :=
  intOp o [o.a, o.b] (fun xs => divInt (int1 xs) (int2 xs)) s

def execRem (o : FmtA) (s : State) : Result :=
  intOp o [o.a, o.b] (fun xs => remInt (int1 xs) (int2 xs)) s

def execMadd (o : FmtA) (s : State) : Result :=
  intOp o [o.a, o.b, o.c] (fun xs => int1 xs * int2 xs + int3 xs) s

/-! ### Bit fields (R87) -/

/-- POS and WIDTH of the immediate (R41). -/
def bitField (imm : Imm) : Nat × Nat := (bitsOf imm.word 5 0, bitsOf imm.word 14 8)

def execExt (o : FmtA) (s : State) : Result :=
  let (pos, width) := bitField o.imm
  scalarOp (FmtA.len o) o.d [o.a] 0
    (fun vs =>
      let f := (nth vs 0).toNat / 2 ^ pos % 2 ^ width
      (if o.t.isSigned then sx64 width f else zx64 width f, 0)) s

def execIns (o : FmtA) (s : State) : Result :=
  let (pos, width) := bitField o.imm
  let old : Word := match o.d with | .r n => s.here.reg n | _ => 0
  let m : Word := word ((2 ^ width - 1) * 2 ^ pos)
  scalarOp (FmtA.len o) o.d [o.a] 0
    (fun vs => ((old &&& ~~~m) ||| ((nth vs 0 <<< pos) &&& m), 0)) s

/-! ### Moves, selection, addresses (R88 to R90) -/

def execSel (o : FmtA) (s : State) : Result :=
  scalarOp (FmtA.len o) o.d [o.a, o.b, o.c] o.imm.word
    (fun vs => (if nth vs 2 ≠ 0 then nth vs 0 else nth vs 1, 0)) s

def execMovi (d : Opnd) (imm : Imm) (s : State) : Result :=
  scalarOp (lenImm imm) d [] 0 (fun _ => (imm.word, 0)) s

def execLea (d : Opnd) (off : BitVec 32) (s : State) : Result :=
  scalarOp 12 d [] 0 (fun _ => (s.here.pc + off.signExtend 64, 0)) s

/-! ### Floating point (R91) -/

def num1 (xs : List Num) : Num := xs[0]?.getD (.fin false 0 0)
def num2 (xs : List Num) : Num := xs[1]?.getD (.fin false 0 0)
def num3 (xs : List Num) : Num := xs[2]?.getD (.fin false 0 0)

def execFadd (o : FmtA) (s : State) : Result :=
  floatOp o [o.a, o.b] (fun xs => fAdd (num1 xs) (num2 xs)) s

def execFsub (o : FmtA) (s : State) : Result :=
  floatOp o [o.a, o.b] (fun xs => fSub (num1 xs) (num2 xs)) s

def execFmul (o : FmtA) (s : State) : Result :=
  floatOp o [o.a, o.b] (fun xs => fMul (num1 xs) (num2 xs)) s

def execFdiv (o : FmtA) (s : State) : Result :=
  floatOp o [o.a, o.b] (fun xs => fDiv (num1 xs) (num2 xs)) s

def execFsqrt (o : FmtA) (s : State) : Result :=
  floatOp o [o.a] (fun xs => fSqrt (num1 xs)) s

def execFmin (o : FmtA) (s : State) : Result :=
  floatOp o [o.a, o.b] (fun xs => fMin (num1 xs) (num2 xs)) s

def execFmax (o : FmtA) (s : State) : Result :=
  floatOp o [o.a, o.b] (fun xs => fMax (num1 xs) (num2 xs)) s

def execFfma (o : FmtA) (s : State) : Result :=
  floatOp o [o.a, o.b, o.c] (fun xs => fMulAdd [num1 xs, num2 xs] (num3 xs)) s

/-- A comparison of R92: 1 or 0, with NV. -/
def fcmpOp (o : FmtA) (f : Num → Num → Bool × BitVec 5) (s : State) : Result :=
  scalarOp (FmtA.len o) o.d [o.a, o.b] (FmtA.immWord o o.t)
    (fun vs =>
      let xs := (vs.zip [o.ma, o.mb]).map (fun p => SrcMod.apply p.2 (numOf o.t p.1.toNat))
      let (r, fl) := f (num1 xs) (num2 xs)
      (if r then 1 else 0, fl)) s

def execFcmpEq (o : FmtA) (s : State) : Result := fcmpOp o cmpEq s

def execFcmpLt (o : FmtA) (s : State) : Result := fcmpOp o cmpLt s

def execFcmpLe (o : FmtA) (s : State) : Result := fcmpOp o cmpLe s

def execFcmpUn (o : FmtA) (s : State) : Result := fcmpOp o cmpUn s

def execFcvt (src : Ty) (rm : Rounding) (o : FmtA) (s : State) : Result :=
  scalarOp (FmtA.len o) o.d [o.a] (FmtA.immWord o src)
    (fun vs =>
      let (b, fl) := convert src o.t rm o.dscale o.clamp o.ma (nth vs 0).toNat
      (extend o.t b, fl)) s

def execFclass (o : FmtA) (s : State) : Result :=
  scalarOp (FmtA.len o) o.d [o.a] (FmtA.immWord o o.t)
    (fun vs => (word (classify o.t ((nth vs 0).toNat % 2 ^ o.t.width)), 0)) s

end Sys2Proof.Machine
end

