-- ==== Sys2Proof/Machine/Dispatch.lean ====
section
/-! DEFINITION. What each row of the opcode table does: one arm per constructor of Instr. -/

namespace Sys2Proof.Machine

def exec (i : Instr) (s : State) : Host.Outcome State Fault Refusal :=
  match i with
  | .nop => Sys2Proof.Machine.execNop s
  | .fillWord => Sys2Proof.Machine.execFillWord s
  | .add o => Sys2Proof.Machine.execAdd o s
  | .sub o => Sys2Proof.Machine.execSub o s
  | .and o => Sys2Proof.Machine.execAnd o s
  | .or o => Sys2Proof.Machine.execOr o s
  | .xor o => Sys2Proof.Machine.execXor o s
  | .andn o => Sys2Proof.Machine.execAndn o s
  | .orn o => Sys2Proof.Machine.execOrn o s
  | .shl o => Sys2Proof.Machine.execShl o s
  | .shr o => Sys2Proof.Machine.execShr o s
  | .sar o => Sys2Proof.Machine.execSar o s
  | .rol o => Sys2Proof.Machine.execRol o s
  | .ror o => Sys2Proof.Machine.execRor o s
  | .min o => Sys2Proof.Machine.execMin o s
  | .max o => Sys2Proof.Machine.execMax o s
  | .slt o => Sys2Proof.Machine.execSlt o s
  | .seq o => Sys2Proof.Machine.execSeq o s
  | .sne o => Sys2Proof.Machine.execSne o s
  | .clz o => Sys2Proof.Machine.execClz o s
  | .ctz o => Sys2Proof.Machine.execCtz o s
  | .popc o => Sys2Proof.Machine.execPopc o s
  | .brev o => Sys2Proof.Machine.execBrev o s
  | .bswap o => Sys2Proof.Machine.execBswap o s
  | .sext o => Sys2Proof.Machine.execSext o s
  | .zext o => Sys2Proof.Machine.execZext o s
  | .mul o => Sys2Proof.Machine.execMul o s
  | .mulh o => Sys2Proof.Machine.execMulh o s
  | .div o => Sys2Proof.Machine.execDiv o s
  | .rem o => Sys2Proof.Machine.execRem o s
  | .madd o => Sys2Proof.Machine.execMadd o s
  | .ext o => Sys2Proof.Machine.execExt o s
  | .ins o => Sys2Proof.Machine.execIns o s
  | .sel o => Sys2Proof.Machine.execSel o s
  | .movi d imm => Sys2Proof.Machine.execMovi d imm s
  | .lea d off => Sys2Proof.Machine.execLea d off s
  | .fadd o => Sys2Proof.Machine.execFadd o s
  | .fsub o => Sys2Proof.Machine.execFsub o s
  | .fmul o => Sys2Proof.Machine.execFmul o s
  | .fdiv o => Sys2Proof.Machine.execFdiv o s
  | .fsqrt o => Sys2Proof.Machine.execFsqrt o s
  | .fmin o => Sys2Proof.Machine.execFmin o s
  | .fmax o => Sys2Proof.Machine.execFmax o s
  | .ffma o => Sys2Proof.Machine.execFfma o s
  | .fcmpEq o => Sys2Proof.Machine.execFcmpEq o s
  | .fcmpLt o => Sys2Proof.Machine.execFcmpLt o s
  | .fcmpLe o => Sys2Proof.Machine.execFcmpLe o s
  | .fcmpUn o => Sys2Proof.Machine.execFcmpUn o s
  | .fcvt src rm o => Sys2Proof.Machine.execFcvt src rm o s
  | .fclass o => Sys2Proof.Machine.execFclass o s
  | .b cond ra rb off => Sys2Proof.Machine.execB cond ra rb off s
  | .call off => Sys2Proof.Machine.execCall off s
  | .br rd ra off => Sys2Proof.Machine.execBr rd ra off s
  | .bq cond qa rb off => Sys2Proof.Machine.execBq cond qa rb off s
  | .loop n count off => Sys2Proof.Machine.execLoop n count off s
  | .lbrk n => Sys2Proof.Machine.execLbrk n s
  | .ldSignExtending m => Sys2Proof.Machine.execLdSignExtending m s
  | .ldZeroExtending m => Sys2Proof.Machine.execLdZeroExtending m s
  | .st m => Sys2Proof.Machine.execSt m s
  | .stf m => Sys2Proof.Machine.execStf m s
  | .amoAdd m => Sys2Proof.Machine.execAmoAdd m s
  | .amoAnd m => Sys2Proof.Machine.execAmoAnd m s
  | .amoOr m => Sys2Proof.Machine.execAmoOr m s
  | .amoXor m => Sys2Proof.Machine.execAmoXor m s
  | .amoMin m => Sys2Proof.Machine.execAmoMin m s
  | .amoMax m => Sys2Proof.Machine.execAmoMax m s
  | .amoMinn m => Sys2Proof.Machine.execAmoMinn m s
  | .amoMaxn m => Sys2Proof.Machine.execAmoMaxn m s
  | .amoSwap m => Sys2Proof.Machine.execAmoSwap m s
  | .amoCas m => Sys2Proof.Machine.execAmoCas m s
  | .amoFadd32 m => Sys2Proof.Machine.execAmoFadd32 m s
  | .fenceSys => Sys2Proof.Machine.execFenceSys s
  | .xfence p c => Sys2Proof.Machine.execXfence p c s
  | .pref m => Sys2Proof.Machine.execPref m s
  | .lpin m => Sys2Proof.Machine.execLpin m s
  | .unpin m => Sys2Proof.Machine.execUnpin m s
  | .waita m => Sys2Proof.Machine.execWaita m s
  | .vadd o => Sys2Proof.Machine.execVadd o s
  | .vsub o => Sys2Proof.Machine.execVsub o s
  | .vand o => Sys2Proof.Machine.execVand o s
  | .vor o => Sys2Proof.Machine.execVor o s
  | .vxor o => Sys2Proof.Machine.execVxor o s
  | .vshl o => Sys2Proof.Machine.execVshl o s
  | .vshr o => Sys2Proof.Machine.execVshr o s
  | .vsar o => Sys2Proof.Machine.execVsar o s
  | .vmin o => Sys2Proof.Machine.execVmin o s
  | .vmax o => Sys2Proof.Machine.execVmax o s
  | .vabsd o => Sys2Proof.Machine.execVabsd o s
  | .vmul o => Sys2Proof.Machine.execVmul o s
  | .vmulh o => Sys2Proof.Machine.execVmulh o s
  | .vmadd o => Sys2Proof.Machine.execVmadd o s
  | .vdot4 o => Sys2Proof.Machine.execVdot4 o s
  | .vfadd o => Sys2Proof.Machine.execVfadd o s
  | .vfsub o => Sys2Proof.Machine.execVfsub o s
  | .vfmul o => Sys2Proof.Machine.execVfmul o s
  | .vfmin o => Sys2Proof.Machine.execVfmin o s
  | .vfmax o => Sys2Proof.Machine.execVfmax o s
  | .vffma o => Sys2Proof.Machine.execVffma o s
  | .vrcp o => Sys2Proof.Machine.execVrcp o s
  | .vrsq o => Sys2Proof.Machine.execVrsq o s
  | .vexp2 o => Sys2Proof.Machine.execVexp2 o s
  | .vlog2 o => Sys2Proof.Machine.execVlog2 o s
  | .vtanh o => Sys2Proof.Machine.execVtanh o s
  | .vdiv o => Sys2Proof.Machine.execVdiv o s
  | .vsqrt o => Sys2Proof.Machine.execVsqrt o s
  | .vscac o => Sys2Proof.Machine.execVscac o s
  | .vcmpEq o => Sys2Proof.Machine.execVcmpEq o s
  | .vcmpNe o => Sys2Proof.Machine.execVcmpNe o s
  | .vcmpLt o => Sys2Proof.Machine.execVcmpLt o s
  | .vcmpLe o => Sys2Proof.Machine.execVcmpLe o s
  | .vcmpGt o => Sys2Proof.Machine.execVcmpGt o s
  | .vcmpGe o => Sys2Proof.Machine.execVcmpGe o s
  | .vcmpUn o => Sys2Proof.Machine.execVcmpUn o s
  | .vsel o => Sys2Proof.Machine.execVsel o s
  | .vcvt fn o => Sys2Proof.Machine.execVcvt fn o s
  | .vredSum o => Sys2Proof.Machine.execVredSum o s
  | .vredMax o => Sys2Proof.Machine.execVredMax o s
  | .vredMin o => Sys2Proof.Machine.execVredMin o s
  | .vredAnd o => Sys2Proof.Machine.execVredAnd o s
  | .vredOr o => Sys2Proof.Machine.execVredOr o s
  | .vperm o => Sys2Proof.Machine.execVperm o s
  | .vshufRot o => Sys2Proof.Machine.execVshufRot o s
  | .vshufSlup o => Sys2Proof.Machine.execVshufSlup o s
  | .vshufSldn o => Sys2Proof.Machine.execVshufSldn o s
  | .vshufIlv o => Sys2Proof.Machine.execVshufIlv o s
  | .vshufDilv o => Sys2Proof.Machine.execVshufDilv o s
  | .vbcast o => Sys2Proof.Machine.execVbcast o s
  | .vmov o => Sys2Proof.Machine.execVmov o s
  | .vlaneIns o => Sys2Proof.Machine.execVlaneIns o s
  | .vlaneExt o => Sys2Proof.Machine.execVlaneExt o s
  | .vld m => Sys2Proof.Machine.execVld m s
  | .vst m => Sys2Proof.Machine.execVst m s
  | .vldx m => Sys2Proof.Machine.execVldx m s
  | .vstx m => Sys2Proof.Machine.execVstx m s
  | .vsto m => Sys2Proof.Machine.execVsto m s
  | .kand o => Sys2Proof.Machine.execKand o s
  | .kor o => Sys2Proof.Machine.execKor o s
  | .kxor o => Sys2Proof.Machine.execKxor o s
  | .knot o => Sys2Proof.Machine.execKnot o s
  | .kandn o => Sys2Proof.Machine.execKandn o s
  | .kmov o => Sys2Proof.Machine.execKmov o s
  | .kfirst o => Sys2Proof.Machine.execKfirst o s
  | .kall o => Sys2Proof.Machine.execKall o s
  | .knone o => Sys2Proof.Machine.execKnone o s
  | .kpop o => Sys2Proof.Machine.execKpop o s
  | .kany o => Sys2Proof.Machine.execKany o s
  | .kallq o => Sys2Proof.Machine.execKallq o s
  | .ktoq o => Sys2Proof.Machine.execKtoq o s
  | .kfromq o => Sys2Proof.Machine.execKfromq o s
  | .send rd a tag rb len imm => Sys2Proof.Machine.execSend rd a tag rb len imm s
  | .sendt rd a tag rb len imm => Sys2Proof.Machine.execSendt rd a tag rb len imm s
  | .done => Sys2Proof.Machine.execDone s
  | .mbstat rd a imm => Sys2Proof.Machine.execMbstat rd a imm s
  | .actctlEnable rd a b imm => Sys2Proof.Machine.execActctlEnable rd a b imm s
  | .actctlDisable rd a b imm => Sys2Proof.Machine.execActctlDisable rd a b imm s
  | .actctlWeight rd a b imm => Sys2Proof.Machine.execActctlWeight rd a b imm s
  | .actctlClass rd a b imm => Sys2Proof.Machine.execActctlClass rd a b imm s
  | .actctlState rd a b imm => Sys2Proof.Machine.execActctlState rd a b imm s
  | .gcall g => Sys2Proof.Machine.execGcall g s
  | .gateDescriptorFetch => Sys2Proof.Machine.execGateDescriptorFetch s
  | .gret => Sys2Proof.Machine.execGret s
  | .ginfo rd a w imm => Sys2Proof.Machine.execGinfo rd a w imm s
  | .cpy rd ra => Sys2Proof.Machine.execCpy rd ra s
  | .cpyt rd ra => Sys2Proof.Machine.execCpyt rd ra s
  | .cseal rd => Sys2Proof.Machine.execCseal rd s
  | .cwait rd a imm => Sys2Proof.Machine.execCwait rd a imm s
  | .cstat rd ra => Sys2Proof.Machine.execCstat rd ra s
  | .sclaim rd a count imm => Sys2Proof.Machine.execSclaim rd a count imm s
  | .srel rd a count imm => Sys2Proof.Machine.execSrel rd a count imm s
  | .aread vd rc acc a => Sys2Proof.Machine.execAread vd rc acc a s
  | .astat rd acc => Sys2Proof.Machine.execAstat rd acc s
  | .binit rd a b imm => Sys2Proof.Machine.execBinit rd a b imm s
  | .barr rd a b => Sys2Proof.Machine.execBarr rd a b s
  | .bwait rd a b timeout imm => Sys2Proof.Machine.execBwait rd a b timeout imm s
  | .bstat rd a w => Sys2Proof.Machine.execBstat rd a w s
  | .rds d r => Sys2Proof.Machine.execRds d r s
  | .wrs r a imm => Sys2Proof.Machine.execWrs r a imm s
  | .wrsFflags a imm => Sys2Proof.Machine.execWrsFflags a imm s
  | .wrsLoopRegister r a imm => Sys2Proof.Machine.execWrsLoopRegister r a imm s
  | .wrsTcause a imm => Sys2Proof.Machine.execWrsTcause a imm s
  | .trap n => Sys2Proof.Machine.execTrap n s
  | .brk n => Sys2Proof.Machine.execBrk n s
  | .tret => Sys2Proof.Machine.execTret s
  | .clkrq rd a b imm => Sys2Proof.Machine.execClkrq rd a b imm s
  | .qstat rd => Sys2Proof.Machine.execQstat rd s
  | .qlock => Sys2Proof.Machine.execQlock s
  | .faultTokenFreed => Sys2Proof.Machine.execFaultTokenFreed s
  | .messageArrival => Sys2Proof.Machine.execMessageArrival s
  | .sendUnitRetry => Sys2Proof.Machine.execSendUnitRetry s
  | .remoteSendTimeout => Sys2Proof.Machine.execRemoteSendTimeout s
  | .activationBind => Sys2Proof.Machine.execActivationBind s
  | .contextSwitch => Sys2Proof.Machine.execContextSwitch s
  | .overflowQueueDrain => Sys2Proof.Machine.execOverflowQueueDrain s
  | .periodStart => Sys2Proof.Machine.execPeriodStart s
  | .budgetExhaustion => Sys2Proof.Machine.execBudgetExhaustion s
  | .gracePeriodEnd => Sys2Proof.Machine.execGracePeriodEnd s
  | .spinelCommit => Sys2Proof.Machine.execSpinelCommit s
  | .rights => Sys2Proof.Machine.execRights s
  | .share => Sys2Proof.Machine.execShare s
  | .unshare => Sys2Proof.Machine.execUnshare s
  | .capload => Sys2Proof.Machine.execCapload s
  | .caprevoke => Sys2Proof.Machine.execCaprevoke s
  | .sendright => Sys2Proof.Machine.execSendright s
  | .admitEntry => Sys2Proof.Machine.execAdmitEntry s
  | .kill => Sys2Proof.Machine.execKill s
  | .gateinv => Sys2Proof.Machine.execGateinv s
  | .allot => Sys2Proof.Machine.execAllot s
  | .collgrp => Sys2Proof.Machine.execCollgrp s
  | .peerwin => Sys2Proof.Machine.execPeerwin s
  | .qrepair => Sys2Proof.Machine.execQrepair s
  | .unfreeze => Sys2Proof.Machine.execUnfreeze s
  | .resolve => Sys2Proof.Machine.execResolve s
  | .preempt => Sys2Proof.Machine.execPreempt s
  | .resume => Sys2Proof.Machine.execResume s
  | .evict => Sys2Proof.Machine.execEvict s
  | .restore => Sys2Proof.Machine.execRestore s
  | .inspect => Sys2Proof.Machine.execInspect s
  | .create => Sys2Proof.Machine.execCreate s
  | .destroy => Sys2Proof.Machine.execDestroy s
  | .clear => Sys2Proof.Machine.execClear s
  | .boot => Sys2Proof.Machine.execBoot s
  | .launchRecord => Sys2Proof.Machine.execLaunchRecord s
  | .launch => Sys2Proof.Machine.execLaunch s
  | .nopPacket => Sys2Proof.Machine.execNopPacket s
  | .reservedPacketType => Sys2Proof.Machine.execReservedPacketType s
  | .launchCompletion => Sys2Proof.Machine.execLaunchCompletion s
  | .lostpost => Sys2Proof.Machine.execLostpost s
  | .doorbell => Sys2Proof.Machine.execDoorbell s
  | .queueSleep => Sys2Proof.Machine.execQueueSleep s
  | .reGrant => Sys2Proof.Machine.execReGrant s
  | .thermalTrip => Sys2Proof.Machine.execThermalTrip s
  | .grantEffect => Sys2Proof.Machine.execGrantEffect s
  | .quadClockStop => Sys2Proof.Machine.execQuadClockStop s
  | .quadRestart => Sys2Proof.Machine.execQuadRestart s
  | .fill => Sys2Proof.Machine.execFill s
  | .absent => Sys2Proof.Machine.execAbsent s
  | .invva => Sys2Proof.Machine.execInvva s
  | .invdom => Sys2Proof.Machine.execInvdom s
  | .invall => Sys2Proof.Machine.execInvall s
  | .rdu => Sys2Proof.Machine.execRdu s
  | .rdl => Sys2Proof.Machine.execRdl s
  | .rdt => Sys2Proof.Machine.execRdt s
  | .rdx => Sys2Proof.Machine.execRdx s
  | .upg => Sys2Proof.Machine.execUpg s
  | .wt => Sys2Proof.Machine.execWt s
  | .amoMessage => Sys2Proof.Machine.execAmoMessage s
  | .wb => Sys2Proof.Machine.execWb s
  | .erd => Sys2Proof.Machine.execErd s
  | .ewr => Sys2Proof.Machine.execEwr s
  | .inv => Sys2Proof.Machine.execInv s
  | .rcr => Sys2Proof.Machine.execRcr s
  | .rcw => Sys2Proof.Machine.execRcw s
  | .data => Sys2Proof.Machine.execData s
  | .ack => Sys2Proof.Machine.execAck s
  | .invack => Sys2Proof.Machine.execInvack s
  | .rdata => Sys2Proof.Machine.execRdata s
  | .wbpend => Sys2Proof.Machine.execWbpend s
  | .nack => Sys2Proof.Machine.execNack s
  | .nackResend => Sys2Proof.Machine.execNackResend s
  | .leaseEnd => Sys2Proof.Machine.execLeaseEnd s
  | .storeWaitEnd => Sys2Proof.Machine.execStoreWaitEnd s
  | .timelost => Sys2Proof.Machine.execTimelost s
  | .timelostFault => Sys2Proof.Machine.execTimelostFault s
  | .quartzResync => Sys2Proof.Machine.execQuartzResync s
  | .quartzFailover => Sys2Proof.Machine.execQuartzFailover s
  | .snpinv => Sys2Proof.Machine.execSnpinv s
  | .snpdata => Sys2Proof.Machine.execSnpdata s
  | .snpcur => Sys2Proof.Machine.execSnpcur s
  | .cxlCacheCompletion => Sys2Proof.Machine.execCxlCacheCompletion s
  | .hostCxlMemAccess => Sys2Proof.Machine.execHostCxlMemAccess s
  | .peerAccess => Sys2Proof.Machine.execPeerAccess s
  | .peerTimeout => Sys2Proof.Machine.execPeerTimeout s
  | .linkReplay => Sys2Proof.Machine.execLinkReplay s
  | .portFailure => Sys2Proof.Machine.execPortFailure s
  | .copyStart => Sys2Proof.Machine.execCopyStart s
  | .copySector => Sys2Proof.Machine.execCopySector s
  | .copyCompletion => Sys2Proof.Machine.execCopyCompletion s
  | .barrierArrival => Sys2Proof.Machine.execBarrierArrival s
  | .fenceMarkerReturn => Sys2Proof.Machine.execFenceMarkerReturn s
  | .mma => Sys2Proof.Machine.execMma s
  | .azero => Sys2Proof.Machine.execAzero s
  | .adrain => Sys2Proof.Machine.execAdrain s
  | .matrixCommandStart => Sys2Proof.Machine.execMatrixCommandStart s
  | .kStep => Sys2Proof.Machine.execKStep s
  | .drainNotification => Sys2Proof.Machine.execDrainNotification s
  | .matrixCommandEnd => Sys2Proof.Machine.execMatrixCommandEnd s
  | .gather => Sys2Proof.Machine.execGather s
  | .gatherStart => Sys2Proof.Machine.execGatherStart s
  | .gatherCompletion => Sys2Proof.Machine.execGatherCompletion s
  | .collectiveSum => Sys2Proof.Machine.execCollectiveSum s
  | .collectiveMax => Sys2Proof.Machine.execCollectiveMax s
  | .collectiveMin => Sys2Proof.Machine.execCollectiveMin s
  | .allgather => Sys2Proof.Machine.execAllgather s
  | .collectiveTimeout => Sys2Proof.Machine.execCollectiveTimeout s
  | .sealOpen => Sys2Proof.Machine.execSealOpen s
  | .sealAdd => Sys2Proof.Machine.execSealAdd s
  | .sealClose => Sys2Proof.Machine.execSealClose s
  | .ringEntryWrite => Sys2Proof.Machine.execRingEntryWrite s
  | .getready => Sys2Proof.Machine.execGetready s
  | .setcap => Sys2Proof.Machine.execSetcap s
  | .getpower => Sys2Proof.Machine.execGetpower s
  | .cxlInspect => Sys2Proof.Machine.execCxlInspect s
  | .measure => Sys2Proof.Machine.execMeasure s
  | .coldReset => Sys2Proof.Machine.execColdReset s
  | .warmReset => Sys2Proof.Machine.execWarmReset s
  | .tdispLock => Sys2Proof.Machine.execTdispLock s
  | .tdispStart => Sys2Proof.Machine.execTdispStart s
  | .tdispStop => Sys2Proof.Machine.execTdispStop s
  | .leaveRun => Sys2Proof.Machine.execLeaveRun s
  | .keyUpdateExpiry => Sys2Proof.Machine.execKeyUpdateExpiry s
  | .waitaDeadline => Sys2Proof.Machine.execWaitaDeadline s
  | .bwaitTimeout => Sys2Proof.Machine.execBwaitTimeout s
  | .clusterTlbEviction => Sys2Proof.Machine.execClusterTlbEviction s
  | .waitaWakeInterval => Sys2Proof.Machine.execWaitaWakeInterval s
  | .messageAnswer => Sys2Proof.Machine.execMessageAnswer s
  | .peerAcknowledgement => Sys2Proof.Machine.execPeerAcknowledgement s
  | .fatalError => Sys2Proof.Machine.execFatalError s
  | .keySlotLoad => Sys2Proof.Machine.execKeySlotLoad s
  | .keyUpdate => Sys2Proof.Machine.execKeyUpdate s
  | .queueWakeUp => Sys2Proof.Machine.execQueueWakeUp s

end Sys2Proof.Machine
end

