-- ==== Sys2Proof/Machine/Run.lean ====
section
/-! DEFINITION. How the device goes on: fetching an instruction (R33 to R35) and the checks before it (R53, R100), issue
(R136), the model's agenda, and what moves when the agenda is empty. The meanings come in as a function. -/

namespace Sys2Proof.Machine

/-- The meanings of the rows. -/
abbrev Meaning := Instr → State → Result

/-! ### Fetch (R33 to R35) -/

/-- The length of an instruction by LEN of its first word. -/
def lengthOf (w : BitVec 32) : Nat :=
  match w.toNat % 4 with
  | 0 => 8
  | 1 => 12
  | 2 => 16
  | _ => 4

/-- A fetched block of 32 bytes; or what happens instead. -/
inductive Fetched where
  | got (s : State) (block : List Byte)
  | stop (r : Result)

/-- The name of a block in an instruction cache: the line it lies in, times four, and its quarter. -/
def blockOf (pa : Nat) (home : HomeKind) : Nat := placeLine pa home * 4 + pa % 128 / 32

/-- Blocks an instruction cache holds: 32 KiB (R8, R232). -/
def codeBlocks : Nat := 1024

/-- A block fetched through a translation, as an instruction cache holds it. -/
def Core.code (k : Core) (block : Nat) (e : TlbEntry) : Option CodeBlock :=
  k.icache.find? (fun b => b.block == block && b.entry == e)

/-- A block used or brought in: it is the most recently used, and the last of more than 1,024 is dropped (assumption
27). -/
def Core.keepCode (k : Core) (b : CodeBlock) : Core :=
  { k with icache := (b :: k.icache.filter (fun o => !(o.block == b.block && o.entry == b.entry))).take codeBlocks }

/-- The fetch of an issuing context as a request that reads at the homes (R35). -/
def State.fetcher (s : State) : Eng :=
  { who := s.who, at_ := s.focus, id := .ctx s.focus s.hereX, path := .core, unit := s.focus.val }

/-- The block at an address of the issuing context: from the instruction cache, or read at the home as a unit. -/
def fetchAt (s : State) (pc : Word) : Fetched :=
  let base := pc.toNat / 32 * 32
  let fault (s : State) (c : Nat) : Fetched := .stop (raise s ⟨c, pc, kindExec, polCode .thru⟩)
  let placed := if Config.opwBase ≤ base then .fault causeProt else s.placeOf s.who (word base) 32 kindExec .thru
  match placed with
  | .fault c => fault s c
  | .miss => .stop (missHere s pc kindExec .thru)
  | .at (.memory pa home key pol) (some e) =>
    let s := s.microFill s.focus e
    let block := blockOf pa home
    match s.hereCore.code block e with
    | some b => .got (s.mapCore s.focus (·.keepCode b)) b.data
    | none =>
      match s.readPlace s.fetcher pc (.memory pa home key pol) 32 with
      | .got s bs => .got ((s.farClear s.fetcher).mapCore s.focus (·.keepCode { block, entry := e, data := bs })) bs
      | .wait s => .stop (waitFor s .stall)
      | .miss s => .stop (waitFor s .translation)
      | .fault c _ _ => fault (s.farClear s.fetcher) c
  | .at _ _ => fault s causeProt

def fetchHere (s : State) : Fetched := fetchAt s s.here.pc

/-- What is forbidden in a delay slot (R100). -/
def slotForbidden : Instr → Bool
  | .b _ _ _ _ | .br _ _ _ | .call _ | .bq _ _ _ _ | .loop _ _ _ | .lbrk _ | .done | .gcall _ | .gret | .trap _
  | .tret => true
  | _ => false

/-- TVAL of ILLEGAL: the first doubleword, or a fill word zero-extended (R53). -/
def illegalValue (bs : List Byte) : Word :=
  if leNat (bs.take 4) % 4 = 3 then word (leNat (bs.take 4)) else leWord (bs.take 8)

/-- Is an instruction that no delay slot admits ILLEGAL where it stands, by its own entry (R53, R100, R105, R115, R202,
R215)? -/
def State.illegalHere (s : State) : Instr → Bool
  | .b _ _ _ _ | .br _ _ _ | .call _ | .bq _ _ _ _ => s.here.atLoopEnd
  | .done => !s.here.stack.isEmpty
  | .gret => s.here.stack.isEmpty
  | .tret => s.here.tcause == 0
  | _ => false

/-- The instruction fetched at the pc of the issuing context is checked in the order of R53, and executes; one that a LOOP of
count 0 passes by is passed (R102), after a stop before it too (assumption 105). -/
def dispatchHere (run : Meaning) (s : State) (block : List Byte) : Result :=
  let off := s.here.pc.toNat % 32
  let bs := block.drop off
  let len := lengthOf (BitVec.ofNat 32 (leNat (bs.take 4)))
  let s := s.mapHere (·.resolveSlot len)
  let y := s.here
  if 32 < off + len then trap s causeFetchx (word (y.pc.toNat / 32 * 32 + 32))
  else if y.skip then .next (s.mapHere (fun y => { y with pc := y.pc + word len, skip := false }))
  else
    match decode (wordsOf bs) with
    | .error _ => trap s causeIllegal (illegalValue bs)
    | .ok (i, _) =>
      match y.slot with
      | some p =>
        if !slotForbidden i then run i s
        else if s.illegalHere i then trap s causeIllegal (illegalValue bs)
        else trap s causeSlot (p.branch.getD y.tval)
      | none => run i s

/-- A V-pipe instruction that a frame recorded is fetched again and dispatched again; what is no instruction any more is
passed over (R348; assumption 79). -/
def redispatch (s : State) (r : Redo) (block : List Byte) : Result :=
  match decode (wordsOf (block.drop (r.pc.toNat % 32))) with
  | .ok (i, _) => redoHere i r s
  | .error _ => .next (s.mapHere (fun y => { y with redo := y.redo.tail }))

/-! ### Issue (R136) -/

/-- A serial run takes its commit token before it goes on, once no commit holds reservations in its scope (R267). None
while it cannot. -/
def State.takeSerial (s : State) : Option State :=
  let y := s.here
  let k := y.chunk
  if !(k.active && k.serial) || k.dieToken || k.deviceToken then some s
  else
    match y.act with
    | none => some s
    | some a =>
      let mine := some (s.focus, a.slot)
      let d := dieOf s.focus
      let busy (e : DieId) : Bool := !(s.commitsOn s.focus s.hereX e).isEmpty
      if s.deviceToken.isSome then none
      else if k.manyDies then
        if s.dies.any (fun p => p.2.token.isSome || busy (dieNum p.1)) then none
        else some ({ s with deviceToken := mine }.mapHere (fun y => { y with chunk := { k with deviceToken := true } }))
      else if (s.die d).token.isSome || busy d then none
      else some ((s.mapDie d (fun v => { v with token := mine })).mapHere (fun y =>
        { y with chunk := { k with dieToken := true } }))

/-- Is a fault of an access ordered and not yet taken? -/
def Ctx.faultDue (y : Ctx) : Bool := y.stops.any (fun t => match t with | .fault _ _ _ _ => true | _ => false)

/-- The issuing context of a core as it issues: it runs, and has issued now. -/
def State.issuing (s : State) : State :=
  s.mapHere (fun y => { y with wait := .run, issued := s.quartz, blocked := 0 })

/-- A context of a core with something ordered of it that can be taken now: one that does not issue, or is blocked,
stands at a boundary (R135). -/
def State.coreStop (s : State) (c : CoreId) : Option (CtxId × Stop) :=
  ((List.range 4).map ctxOf).findSome? (fun x => (s.dueStop c x).map (fun t => (x, t)))

/-- Does a context stay at its boundary until its V pipe has stopped, for something ordered of it (R347)? -/
def Ctx.held (y : Ctx) : Bool := (!y.stops.isEmpty && y.slot.isNone) || y.faultDue

/-- The core in focus issues from its current context: what has been ordered of an activation is taken at its
boundary; an activation that waits stays; else the next instruction is fetched and executes. -/
def issueHere (run : Meaning) (s : State) : Result :=
  let c := s.focus
  let x := s.hereX
  if s.hereCore.stopped then .next s
  else
    match s.coreStop c with
    | some (z, t) => .next (s.takeStop c z t)
    | none =>
      if s.here.act.isNone || s.here.held || !s.waitOver c x then .next s
      else
        match s.takeSerial with
        | none => .next s
        | some s =>
          let s := s.issuing
          match s.here.redo with
          | r :: _ =>
            match fetchAt s r.pc with
            | .stop t => t
            | .got s block => redispatch s r block
          | [] =>
            match fetchHere s with
            | .stop r => r
            | .got s block => dispatchHere run s block

/-! ### Turns -/

/-- What follows every turn: queues that can go on, replies and read indexes that are owed. -/
def State.settle (s : State) : State :=
  { ((s.drainQueues.performLate.releaseLines.payReplies).publishAll) with arg := .none }

def settled (r : Result) : Result :=
  match r with
  | .next s => .next s.settle
  | r => r

/-- A step of the device, from the agenda. An instruction is never one: it is fetched. -/
def runEvent (run : Meaning) (e : Event) (s : State) : Result :=
  if (encode e.row).isSome then .next s else run e.row { s with arg := e.arg }

/-- Steps that are tried again later while they cannot take place (R251, R304, R372, R400). -/
def waitsItsTurn : Instr → Bool
  | .rcr | .rcw | .snpinv | .snpdata | .snpcur | .peerAccess | .qrepair => true
  | _ => false

/-- The channel a flight travels on: requests, forwards, responses (R248), or messages. -/
def channelOf : Instr → Nat
  | .rdu | .rdl | .rdt | .rdx | .upg | .wt | .amoMessage | .wb | .erd | .ewr | .barrierArrival | .nackResend => 0
  | .inv | .rcr | .rcw => 1
  | .data | .ack | .invack | .rdata | .wbpend | .nack => 2
  | _ => 3

/-- A flight arrives, if no earlier one goes the same way on the same channel. One that cannot be taken yet stays. -/
def deliverFlight (run : Meaning) (n : Nat) (s : State) : Result :=
  match s.pending[n]? with
  | none => .next s
  | some f =>
    if (s.pending.take n).any (fun g => g.src == f.src && g.dst == f.dst && channelOf g.ev.row == channelOf f.ev.row) then .next s
    else
      let t : State := { s with pending := s.pending.eraseIdx n, arg := f.ev.arg }
      match run f.ev.row t with
      | .next u =>
        if waitsItsTurn f.ev.row && (u == t || u == t.send f.src f.dst f.ev.row f.ev.arg) then .next s else .next u
      | r => r

/-- One turn. -/
def takeTurn (run : Meaning) (t : Turn) (s : State) : Result :=
  match t with
  | .event e => runEvent run e s
  | .issue c => issueHere run { s with focus := c }
  | .vpipe c x => .next (s.vStep c x)
  | .deliver n => deliverFlight run n s
  | .time ns => .next (s.pass ns)

/-! ### What moves when the agenda is empty (assumption 2) -/

def ev (row : Instr) (a b c : Nat) : Event := { row, arg := .nums a b c }

def allCtxs : List CtxId := [0, 1, 2, 3]

/-- The system actor's next requests on a core. -/
def State.systemEvents (s : State) (c : CoreId) : List Event :=
  let mb1 : List Event := match (s.sysHead c 1).map (·.tag.toNat) with
    | some 0x50 => [ev .create c.val 0 0]
    | some 0x51 => [ev .destroy c.val 0 0]
    | some 0x53 => [ev .clear c.val 0 0]
    | some 0x55 => [ev .preempt c.val 0 0]
    | some 0x56 => [ev .resume c.val 0 0]
    | some 0x57 => [ev .evict c.val 0 0]
    | some 0x58 => [ev .restore c.val 0 0]
    | some 0x59 => [ev .inspect c.val 0 0]
    | _ => []
  let mb0 := if (s.sysHead c 0).any (fun m => m.tag == 0x4C) then [ev .launchRecord c.val 0 0] else []
  let evicts := (allSlots.filter (fun n => (s.slot c n).evicting.isSome && n.val != 0)).map (fun n =>
    ev .evict c.val n.val 0)
  mb1 ++ mb0 ++ evicts

/-- What may be due on a core. -/
def State.coreEvents (s : State) (c : CoreId) : List Event :=
  let k := s.core c
  let n := c.val
  let each := allCtxs.flatMap (fun x =>
    [ev .spinelCommit n x.val 0, ev .fenceMarkerReturn n x.val 0, ev .waitaDeadline n x.val 0,
     ev .bwaitTimeout n x.val 0, ev .waitaWakeInterval n x.val 0, ev .qlock n x.val 0, ev .gateDescriptorFetch n x.val 0,
     { row := .storeWaitEnd, arg := .wait (.ctx c x) }])
  let sends := ((List.range 8).filter (fun e => (k.sends[e]?.join).isSome)).flatMap (fun e =>
    [ev .sendUnitRetry n e 0, ev .remoteSendTimeout n e 0])
  let copies := ((List.range 128).filter (fun e => (k.copies[e]?.join).isSome)).flatMap (fun e =>
    [ev .copySector n e 0, ev .copyCompletion n e 0])
  let drains := k.matrix.drains.map (fun d => ev .drainNotification n d.acc.val 0)
  let slots := allSlots.flatMap (fun i => [ev .overflowQueueDrain n i.val 0, ev .gracePeriodEnd n i.val 0])
  each ++ sends ++ (if k.fifo.isEmpty then [] else [ev .copyStart n 0 0]) ++ copies ++
    [ev .matrixCommandEnd n 0 0, ev .kStep n 0 0, ev .matrixCommandStart n 0 0] ++ drains ++ s.systemEvents c ++
    slots ++ [ev .faultTokenFreed n 0 0, ev .leaseEnd n 0 0, ev .timelostFault n 0 0, ev .periodStart n 0 0,
      ev .budgetExhaustion n 0 0, ev .activationBind n 0 0, ev .contextSwitch n 0 0]

/-- What may be due on a cluster. -/
def State.clusterEvents (s : State) (g : ClusterId) : List Event :=
  let k := s.cluster g
  (if k.gatherQueue.isEmpty then [] else [ev .gatherStart g.val 0 0]) ++
    k.gathers.flatMap (fun v => [ev .copySector (2048 + g.val) v.cmd.id 0, ev .gatherCompletion g.val v.cmd.id 0])

/-- The row of a collective command's moves, and of a seal command's. -/
def collectiveMove (c : Command) : Instr :=
  match c.opc with
  | 1 => .collectiveSum
  | 2 => .collectiveMax
  | 3 => .collectiveMin
  | _ => .allgather

def sealMoveRow (c : Command) : Instr :=
  match c.opc with
  | 1 => .sealOpen
  | 2 => .sealAdd
  | _ => .sealClose

/-- What may be due on a die. -/
def State.dieEvents (s : State) (d : DieId) : List Event :=
  let k := s.die d
  let n := d.val
  let lines := (k.home.filter (fun p => p.2.performAt.isSome)).map (fun p =>
    ({ row := .storeWaitEnd, arg := .wait (.home (.slice d) p.1) } : Event))
  let seals := match k.sealQueue with | c :: _ => [ev (sealMoveRow c) n 0 0] | [] => []
  let queues := k.queues.flatMap (fun q =>
    [ev .launch n q.1 0, ev .nopPacket n q.1 0, ev .reservedPacketType n q.1 0, ev .doorbell n q.1 0,
     ev .queueWakeUp n q.1 0, ev .queueSleep n q.1 0])
  let stopped := ((List.range 64).filter (fun q => (quadCores d q).any (fun c =>
    (s.core c).stopped && allSlots.any (fun i => (s.core c).ready i || (s.core c).resumable i)))).map (fun q =>
      ev .quadRestart n q 0)
  lines ++ (k.collQueue ++ k.members.map (·.cmd)).map (fun c => ev (collectiveMove c) n c.id 0) ++ seals ++ queues ++
    stopped

/-- What may be due in the package. -/
def State.packageEvents (s : State) : List Event :=
  let boot : List Event :=
    let d := s.boot - 1
    if 1 ≤ s.boot && s.boot ≤ 8 then [{ row := .boot, arg := .boot (dieNum d) (Config.bootEntry d) (Config.bootMeasure d) }]
    else if s.boot < 12 then [ev .boot 0 0 0] else []
  let launches := (s.launches.filter (fun p => p.2.overAt.isSome)).flatMap (fun p =>
    [ev .launchCompletion p.1 0 0, ev .lostpost p.1 0 0])
  let backlog := (List.range s.backlog.length).map (fun i => ev .messageArrival i 0 0)
  let abroad := s.abroad.flatMap (fun p => [ev .sendUnitRetry 2048 p.1 0, ev .remoteSendTimeout 2048 p.1 0])
  let timeouts := (s.collectives.filter (fun o => o.deadline ≤ s.quartz)).map (fun o =>
    ev .collectiveTimeout o.group o.seq 0)
  boot ++ [ev .reGrant 0 0 0, ev .grantEffect 0 0 0] ++ launches ++ backlog ++ abroad ++ timeouts ++
    s.peers.map (fun p => ev .peerTimeout p.1 0 0) ++ s.vfs.map (fun p => ev .keyUpdateExpiry p.1 0 0) ++
    [ev .ringEntryWrite 0 0 0]

/-- Everything that may be due, in the order it is tried. -/
def State.events (s : State) : List Event :=
  s.cores.flatMap (fun p => s.coreEvents (coreOf p.1)) ++
  s.clusters.flatMap (fun p => s.clusterEvents (Fin.ofNat 64 p.1)) ++
  s.dies.flatMap (fun p => s.dieEvents (dieNum p.1)) ++ s.packageEvents

/-- The first of some turns that changes the state. -/
def firstMove (run : Meaning) (s : State) : List Turn → Option State
  | [] => none
  | t :: r =>
    match takeTurn run t s with
    | .next u => if u.settle == s then firstMove run s r else some u
    | _ => firstMove run s r

/-- With an empty agenda: a flight arrives; else something due takes place; else a V pipe or an S pipe goes on,
the core in focus first; else 1 ns passes. -/
def idleMove (run : Meaning) (s : State) : State :=
  let cores := s.cores.map (fun p => coreOf p.1)
  let turns := (List.range s.pending.length).map Turn.deliver ++ s.events.map Turn.event ++
    cores.flatMap (fun c => allCtxs.map (Turn.vpipe c)) ++ (s.focus :: cores).map Turn.issue
  (firstMove run s turns).getD (s.pass 1)

/-- ONE STEP: the head of the agenda, or what moves by itself. -/
def stepOnce (run : Meaning) (s : State) : Result :=
  match s.agenda with
  | t :: r => settled (takeTurn run t { s with agenda := r })
  | [] => settled (.next (idleMove run s))

/-! ### An instruction placed where the next step fetches -/

/-- The physical page where a placed instruction lies: the second of the die of the core in focus. -/
def placedPage (c : CoreId) : Nat := (dieOf c).val * (Config.dieBytes / 65536) + 1

/-- Instruction bytes stored where the next step fetches (assumption 17): the core in focus issues next from its
current context, at its pc, whose page its domain may read, write and execute. A context with no activation gets
one of the system actor. -/
def State.placeCode (s : State) (bs : List Byte) : State :=
  let c := s.focus
  let y := s.here
  let dummy : Msg := { dst := endpointOf c.val 0 0, sender := 0, tag := 0, seq := 0, payload := [], domain := 0,
                       stamp := none, src := .outside }
  let pc : Word := if y.pc.toNat % 32 = 0 && y.pc.toNat < Config.opwBase then y.pc else 0
  let page := placedPage c
  let e : TlbEntry :=
    { dtag := y.domain, key := 0, ppn := BitVec.ofNat 36 page, vpn := BitVec.ofNat 40 (pc.toNat / 65536), size := 0,
      polmask := 15, r := true, w := true, x := true, dup := false, home := 0 }
  let pa := page * 65536 + pc.toNat % 65536
  let ready (y : Ctx) : Ctx :=
    { y with act := some (y.act.getD { slot := 0, mbox := 0, msg := dummy, drain := false }),
             pc, slot := none, skip := false, redo := [], wait := .run, stops := [], op := none }
  let s := s.mapHere ready
  let s := s.mapCore c (fun k => { k with
    stopped := false, restartBy := none, icache := k.icache.filter (fun b => b.block != blockOf pa .thisDie),
    guard := { k.guard with withdrawn := k.guard.withdrawn.filter (· != y.domain) } })
  let s := s.mapCluster (clusterOf c) (fun k => { k with tlb := e :: k.tlb.filter (!·.overlaps e) })
  let s := s.mapDie (dieOf c) (fun d => { d with home := tabDel d.home (pa / 128) })
  { s with hbm := s.hbm.setBytes pa bs, agenda := [.issue c] }

end Sys2Proof.Machine
end

