-- ==== Sys2Proof/Machine/Step.lean ====
section
/-! DEFINITION. The step of the device. -/

namespace Sys2Proof.Machine

/-- ONE STEP. -/
def step (s : State) : Host.Outcome State Fault Refusal := stepOnce exec s

/-- The state with the instruction that the opcode table numbers w with nbits bits stored where the next step
fetches. -/
def State.withFetchWord (s : State) (nbits w : Nat) : State := s.placeCode (tableBytes nbits w)

end Sys2Proof.Machine
end

