-- ==== Sys2Proof/Safety.lean ====
section
/-! DEFINITION. What counts as a safe run: the canonical form of every memory the state holds, runs of steps, and
runs that no fault ends. -/

namespace Sys2Proof.Safety

open Sys2Proof.Machine

/-- The memories of a core, its scratchpad and its operand memory, in canonical form. -/
def coreMemories (k : Core) : Bool := k.spad.wf && k.opnd.wf

/-- Every memory of the device in canonical form. -/
def memories (s : State) : Bool := s.hbm.wf && s.cores.all (fun p => coreMemories p.2)

/-- A state reached from another by steps. -/
inductive Reaches : State → State → Prop where
  | refl (s : State) : Reaches s s
  | step {s t u : State} : Reaches s t → Machine.step t = .next u → Reaches s u

/-- No run from the state ends: whatever it reaches has a next state. -/
def Safe (s : State) : Prop := ∀ t, Reaches s t → ∃ u, Machine.step t = .next u

end Sys2Proof.Safety
end

