-- ==== Sys2Proof/Certificates/Slice0/Obligations.lean ====
section
/-! DEFINITION. The statements for the provers, one def Obligations.X : Prop each, with the reference
functions they are written in (namespace Sys2Proof.Claims): operations on bit vectors, elements, bytes. -/

namespace Sys2Proof.Claims

open Sys2Proof.Machine

/-! ### Encoding -/

/-- The decoder reads an instruction of len bytes from some words. -/
def Reads (ws : List (BitVec 32)) (i : Instr) (len : Nat) : Prop := decode ws = .ok (i, len)

/-- The rows of the table that are no instructions but steps of the device: they have no encoding. -/
def deviceRows : List Instr :=
  [.gateDescriptorFetch, .qlock, .faultTokenFreed, .messageArrival, .sendUnitRetry, .remoteSendTimeout,
   .activationBind, .contextSwitch, .overflowQueueDrain, .periodStart, .budgetExhaustion, .gracePeriodEnd,
   .spinelCommit, .rights, .share, .unshare, .capload, .caprevoke, .sendright, .admitEntry, .kill, .gateinv,
   .allot, .collgrp, .peerwin, .qrepair, .unfreeze, .resolve, .preempt, .resume, .evict, .restore, .inspect,
   .create] ++
  [.destroy, .clear, .boot, .launchRecord, .launch, .nopPacket, .reservedPacketType, .launchCompletion,
   .lostpost, .doorbell, .queueSleep, .reGrant, .thermalTrip, .grantEffect, .quadClockStop, .quadRestart,
   .fill, .absent, .invva, .invdom, .invall, .rdu, .rdl, .rdt, .rdx, .upg, .wt, .amoMessage, .wb, .erd, .ewr,
   .inv, .rcr, .rcw] ++
  [.data, .ack, .invack, .rdata, .wbpend, .nack, .nackResend, .leaseEnd, .storeWaitEnd, .timelost,
   .timelostFault, .quartzResync, .quartzFailover, .snpinv, .snpdata, .snpcur, .cxlCacheCompletion,
   .hostCxlMemAccess, .peerAccess, .peerTimeout, .linkReplay, .portFailure, .copyStart, .copySector,
   .copyCompletion, .barrierArrival, .fenceMarkerReturn, .mma, .azero, .adrain, .matrixCommandStart, .kStep,
   .drainNotification, .matrixCommandEnd] ++
  [.gather, .gatherStart, .gatherCompletion, .collectiveSum, .collectiveMax, .collectiveMin, .allgather,
   .collectiveTimeout, .sealOpen, .sealAdd, .sealClose, .ringEntryWrite, .getready, .setcap, .getpower,
   .cxlInspect, .measure, .coldReset, .warmReset, .tdispLock, .tdispStart, .tdispStop, .leaveRun,
   .keyUpdateExpiry, .waitaDeadline, .bwaitTimeout, .clusterTlbEviction, .waitaWakeInterval, .messageAnswer,
   .peerAcknowledgement, .fatalError, .keySlotLoad, .keyUpdate, .queueWakeUp]

/-! ### Completion of an S-pipe instruction (R16, R84) -/

/-- Where the destination has room and every source queue its entries, an instruction completes: D takes v,
the flags fl are raised, the sources are popped, and the program goes on len bytes further, but for a loop or
a delay slot (Ctx.retire). Nothing else of the state changes. -/
def ScalarDone (i : Instr) (len : Nat) (d : Opnd) (ops : List Opnd) (imm : Word)
    (v : List Word → Word) (fl : List Word → BitVec 5) (s : State) : Prop :=
  ∀ vs x, s.here.fullQueue d = none → s.here.take imm ops = some (vs, x) →
    exec i s = .next (s.mapHere (fun _ => ((x.raise (fl vs)).put d (v vs)).retire len))

/-- The low bits of a source as its type has them, negated where its modifier says so (R84). -/
def srcBits (t : Ty) (m : SrcMod) (v : Word) : BitVec t.width :=
  if m.neg then -(v.setWidth t.width) else v.setWidth t.width

/-- A result in a whole register (R12). -/
def widen (t : Ty) (r : BitVec t.width) : Word := if t.isSigned then r.signExtend 64 else r.setWidth 64

/-- The result of an integer instruction whose function on w-bit operands is f. -/
def intResult (o : FmtA) (f : BitVec o.t.width → BitVec o.t.width → BitVec o.t.width → BitVec o.t.width)
    (vs : List Word) : Word :=
  widen o.t (f (srcBits o.t o.ma (nth vs 0)) (srcBits o.t o.mb (nth vs 1)) (srcBits o.t o.mc (nth vs 2)))

/-- An integer instruction of R84 with sources ops computes f, and raises no flag. -/
def IntDone (i : Instr) (o : FmtA) (ops : List Opnd) (s : State)
    (f : BitVec o.t.width → BitVec o.t.width → BitVec o.t.width → BitVec o.t.width) : Prop :=
  ScalarDone i (FmtA.len o) o.d ops (word (immBits o.t o.imm)) (intResult o f) (fun _ => 0) s

/-- Less than, in the signedness of a type. -/
def lessThan (t : Ty) (a b : BitVec t.width) : Bool := if t.isSigned then a.slt b else a.ult b

/-- The upper half of the exact product, in the signedness of a type. -/
def mulHigh (t : Ty) (a b : BitVec t.width) : BitVec t.width :=
  if t.isSigned then BitVec.ofInt t.width ((a.toInt * b.toInt) / 2 ^ t.width)
  else BitVec.ofNat t.width ((a.toNat * b.toNat) / 2 ^ t.width)

/-- DIV of R86. -/
def quotient (t : Ty) (a b : BitVec t.width) : BitVec t.width :=
  if b = 0 then BitVec.allOnes t.width else if t.isSigned then a.sdiv b else a.udiv b

/-- REM of R86. -/
def remainder (t : Ty) (a b : BitVec t.width) : BitVec t.width := a - b * (if b = 0 then 0 else quotient t a b)

/-- Bytes in the other order. -/
def swapBytes {w : Nat} (a : BitVec w) : BitVec w :=
  (List.range (w / 8)).foldl
    (fun r i => r ||| ((a.extractLsb' (8 * i) 8).setWidth w <<< (w - 8 - 8 * i))) 0

end Sys2Proof.Claims

open Sys2Proof Sys2Proof.Machine Sys2Proof.Claims

/-! ### Encoding (R33 to R53) -/

/-- Words of R36, R34, R89, R85, R95, R93, R97 and R333, and of formats A and B (R37), read as the instructions their
entries name; a word of R34 that is no fill word, and a doubleword with OP 0 that is not NOP, are refused. -/
def Obligations.DecodedWords : Prop :=
  Reads [0, 0] .nop 8 ∧
  Reads [0xFFFFFFFF] .fillWord 4 ∧
  Reads [0x0FC51805, 0x00080000, 0x64] (.add
    { d := .r 6, a := .r 5, b := .imm, c := .r 0, ma := ⟨false, false⟩, mb := ⟨false, false⟩,
      mc := ⟨false, false⟩, clamp := .none, dscale := 0, k := 0, z := false, t := .i32, imm := .w32 100 }) 12 ∧
  Reads [0x31030080, 0xFFFFFFFC] (.b .lt 3 4 0xFFFFFFFC) 8 ∧
  Reads [0x00007C88, 0x10] (.call 0x10) 8 ∧
  Reads [0x001F0084, 0] (.br 0 31 0) 8 ∧
  Reads [0x00001016, 0, 0, 0x00FF0000] (.movi (.r 4) (.w64 0x00FF000000000000)) 16 ∧
  Reads [0x0006144C, 0x0A480000] (.fcvt .f32 .rz
    { d := .r 5, a := .r 6, b := .r 0, c := .r 0, ma := ⟨false, false⟩, mb := ⟨false, false⟩,
      mc := ⟨false, false⟩, clamp := .none, dscale := 0, k := 0, z := false, t := .i32, imm := .none }) 8 ∧
  Reads [0x00100280, 0x00000000] (.cpy 0 16) 8 ∧
  Reads [0x00101680, 0x00040000] (.cpyt 5 16) 8 ∧
  decode [0x00000003] = .error .fillWord ∧
  decode [0x00000400, 0] = .error .nopWord

/-- ENCODING LOSES NOTHING: the words of every well-formed instruction that has an encoding decode to that
instruction and to its length, whatever follows them; and exactly the rows of the table that are instructions
have one: the steps of the device have none, every other row has. -/
def Obligations.DecodeOfEncode : Prop :=
  (∀ (i : Instr) (ws rest : List (BitVec 32)), i.wellFormed = true → encode i = some ws →
    Reads (ws ++ rest) i (4 * ws.length)) ∧
  (∀ i : Instr, (encode i).isSome = true ↔ i ∉ deviceRows)

/-- EVERY ENCODING HAS ONE READING: words that decode are exactly the words of the instruction read, which is
well-formed: no bit of an instruction is ignored. -/
def Obligations.EncodeOfDecode : Prop :=
  ∀ (ws : List (BitVec 32)) (i : Instr) (len : Nat), Reads ws i len →
    i.wellFormed = true ∧ len = 4 * (len / 4) ∧ encode i = some (ws.take (len / 4))

/-! ### The step -/

/-- A STEP RUNS THE DECODED INSTRUCTION. When a core issues, nothing ordered of its activations is due, the issuing
one waits for nothing and has no V-pipe instruction to dispatch again, and the block fetched at the pc holds a well-formed instruction of n bytes, the step
is exec of that instruction: at the state after the fetch, with a branch's delay slot resolved (R99, R101), and
followed by what the device settles after every step. -/
def Obligations.StepRunsDecoded : Prop :=
  ∀ (s v : State) (c : CoreId) (later : List Turn) (block : List Byte) (i : Instr) (n : Nat),
    s.agenda = .issue c :: later →
    let u : State := { s with agenda := later, focus := c }
    u.here.act.isSome = true → u.hereCore.stopped = false → u.coreStop c = none →
    u.here.held = false → u.waitOver c u.hereX = true → u.here.chunk.active = false → u.here.redo = [] →
    fetchHere u.issuing = .got v block →
    v.here.skip = false → v.here.pc.toNat % 32 + n ≤ 32 →
    Reads (wordsOf (block.drop (v.here.pc.toNat % 32))) i n →
    (v.here.slot = none ∨ slotForbidden i = false) →
    step s = settled (exec i (v.mapHere (·.resolveSlot n)))

/-- A block that the instruction cache of the core holds through the same translation is fetched from there (R35): the
page is one the activation may execute. Nothing else changes than the micro-TLB and the order of use.

Where the fetch is checked and fails, its fault is raised at the pc, of kind execute; an address from OPWBASE on has no
execution (the cause is PROT).

THE CHECKS AT DISPATCH (R53), of the instruction at the pc of an issuing activation, with its bytes fetched and a slot
resolved: one that would cross a 32-byte boundary raises FETCHX before any other check, with TVAL the boundary; bytes
that decode to no instruction raise ILLEGAL, with TVAL the first doubleword, or a fill word zero-extended; a forbidden
occupant of a delay slot raises SLOT, with TVAL the branch's address, or TVAL as it stands where TRET left the slot
(R100), unless its own entry makes it ILLEGAL, which comes first. -/
def Obligations.FetchFromCache : Prop :=
  (∀ (s : State) (pa key : Nat) (home : HomeKind) (pol : Pol) (e : TlbEntry) (b : CodeBlock),
    s.here.pc.toNat < Config.opwBase →
    s.placeOf s.who (word (s.here.pc.toNat / 32 * 32)) 32 kindExec .thru = .at (.memory pa home key pol) (some e) →
    let u := s.microFill s.focus (some e)
    u.hereCore.code (blockOf pa home) e = some b →
    fetchHere s = .got (u.mapCore s.focus (·.keepCode b)) b.data) ∧
  (∀ s : State,
    (Config.opwBase ≤ s.here.pc.toNat / 32 * 32 → fetchHere s = .stop (raise s ⟨causeProt, s.here.pc, kindExec, 1⟩)) ∧
    (∀ cause, s.here.pc.toNat / 32 * 32 < Config.opwBase →
      s.placeOf s.who (word (s.here.pc.toNat / 32 * 32)) 32 kindExec .thru = .fault cause →
      fetchHere s = .stop (raise s ⟨cause, s.here.pc, kindExec, 1⟩))) ∧
  (∀ (s v : State) (c : CoreId) (later : List Turn) (block : List Byte),
    s.agenda = .issue c :: later →
    let u : State := { s with agenda := later, focus := c }
    u.here.act.isSome = true → u.hereCore.stopped = false → u.coreStop c = none →
    u.here.held = false → u.waitOver c u.hereX = true → u.here.chunk.active = false → u.here.redo = [] →
    fetchHere u.issuing = .got v block →
    let bs := block.drop (v.here.pc.toNat % 32)
    let n := lengthOf (BitVec.ofNat 32 (leNat (bs.take 4)))
    let w := v.mapHere (·.resolveSlot n)
    let first : Word := if leNat (bs.take 4) % 4 = 3 then word (leNat (bs.take 4)) else leWord (bs.take 8)
    (32 < v.here.pc.toNat % 32 + n →
      step s = settled (trap w causeFetchx (word (w.here.pc.toNat / 32 * 32 + 32)))) ∧
    (v.here.pc.toNat % 32 + n ≤ 32 → w.here.skip = false →
      (∀ why, decode (wordsOf bs) = .error why → step s = settled (trap w causeIllegal first)) ∧
      (∀ i m p, decode (wordsOf bs) = .ok (i, m) → w.here.slot = some p → slotForbidden i = true →
        (w.illegalHere i = true → step s = settled (trap w causeIllegal first)) ∧
        (w.illegalHere i = false →
          (∀ b, p.branch = some b → step s = settled (trap w causeSlot b)) ∧
          (p.branch = none → step s = settled (trap w causeSlot w.here.tval)))))) ∧
  (∀ (x : State) (o : BitVec 32) (cond : Cond) (ra rb rd : Fin 32) (qa : Fin 8) (n : BitVec 16) (l : Fin 2) (lc : LoopCount) (ns : GateName),
    let at_ := x.here.atLoopEnd
    (∀ i ∈ [Instr.b cond ra rb o, .br rd ra o, .call o, .bq cond qa rb o], slotForbidden i = true ∧ x.illegalHere i = at_) ∧
    (∀ i ∈ [Instr.loop l lc o, .lbrk l, .gcall ns, .trap n], slotForbidden i = true ∧ x.illegalHere i = false) ∧
    slotForbidden .done = true ∧ x.illegalHere .done = !x.here.stack.isEmpty ∧
    slotForbidden .gret = true ∧ x.illegalHere .gret = x.here.stack.isEmpty ∧
    slotForbidden .tret = true ∧ x.illegalHere .tret = (x.here.tcause == 0))

/-! ### Scalar integer instructions (R84 to R90) -/

/-- The arithmetic rows of R85 and R86, at every integer type, source form and destination.

The comparing rows of R85. -/
def Obligations.IntegerOperations : Prop :=
  (∀ (o : FmtA) (s : State), o.t.isInt = true →
      IntDone (.add o) o [o.a, o.b] s (fun a b _ => a + b) ∧
      IntDone (.sub o) o [o.a, o.b] s (fun a b _ => a - b) ∧
      IntDone (.mul o) o [o.a, o.b] s (fun a b _ => a * b) ∧
      IntDone (.mulh o) o [o.a, o.b] s (fun a b _ => mulHigh o.t a b) ∧
      IntDone (.madd o) o [o.a, o.b, o.c] s (fun a b c => a * b + c) ∧
      IntDone (.div o) o [o.a, o.b] s (fun a b _ => quotient o.t a b) ∧
      IntDone (.rem o) o [o.a, o.b] s (fun a b _ => remainder o.t a b)) ∧
  (∀ (o : FmtA) (s : State), o.t.isInt = true →
      IntDone (.min o) o [o.a, o.b] s (fun a b _ => if lessThan o.t a b then a else b) ∧
      IntDone (.max o) o [o.a, o.b] s (fun a b _ => if lessThan o.t a b then b else a) ∧
      IntDone (.slt o) o [o.a, o.b] s (fun a b _ => if lessThan o.t a b then 1 else 0) ∧
      IntDone (.seq o) o [o.a, o.b] s (fun a b _ => if a = b then 1 else 0) ∧
      IntDone (.sne o) o [o.a, o.b] s (fun a b _ => if a = b then 0 else 1))

/-- The bitwise rows and the shifts of R85.

The unary rows of R85: SEXT and ZEXT write a 64-bit value of their own. -/
def Obligations.BitOperations : Prop :=
  (∀ (o : FmtA) (s : State), o.t.isInt = true →
      IntDone (.and o) o [o.a, o.b] s (fun a b _ => a &&& b) ∧
      IntDone (.or o) o [o.a, o.b] s (fun a b _ => a ||| b) ∧
      IntDone (.xor o) o [o.a, o.b] s (fun a b _ => a ^^^ b) ∧
      IntDone (.andn o) o [o.a, o.b] s (fun a b _ => a &&& ~~~b) ∧
      IntDone (.orn o) o [o.a, o.b] s (fun a b _ => a ||| ~~~b) ∧
      IntDone (.shl o) o [o.a, o.b] s (fun a b _ => a <<< (b.toNat % o.t.width)) ∧
      IntDone (.shr o) o [o.a, o.b] s (fun a b _ => a >>> (b.toNat % o.t.width)) ∧
      IntDone (.sar o) o [o.a, o.b] s (fun a b _ => a.sshiftRight (b.toNat % o.t.width)) ∧
      IntDone (.rol o) o [o.a, o.b] s (fun a b _ => a.rotateLeft (b.toNat % o.t.width)) ∧
      IntDone (.ror o) o [o.a, o.b] s (fun a b _ => a.rotateRight (b.toNat % o.t.width))) ∧
  (∀ (o : FmtA) (s : State), o.t.isInt = true →
      IntDone (.clz o) o [o.a] s (fun a _ _ => a.clz) ∧
      IntDone (.ctz o) o [o.a] s (fun a _ _ => a.ctz) ∧
      IntDone (.popc o) o [o.a] s (fun a _ _ => a.cpop) ∧
      IntDone (.brev o) o [o.a] s (fun a _ _ => a.reverse) ∧
      IntDone (.bswap o) o [o.a] s (fun a _ _ => swapBytes a) ∧
      ScalarDone (.sext o) (FmtA.len o) o.d [o.a] (word (immBits o.t o.imm))
        (fun vs => (srcBits o.t o.ma (nth vs 0)).signExtend 64) (fun _ => 0) s ∧
      ScalarDone (.zext o) (FmtA.len o) o.d [o.a] (word (immBits o.t o.imm))
        (fun vs => (srcBits o.t o.ma (nth vs 0)).setWidth 64) (fun _ => 0) s)

/-- EXT and INS, SEL, MOVI and LEA complete with their result, as their entries say.

THE FILL WORD (R34): 0xFFFFFFFF reads as the fill word, 4 bytes long, executes as a no-op of that length, with the end
check of a loop that ends there, and may stand in a delay slot; any other word with [1:0] = 11 is refused.

NOP (R36): the zero doubleword reads as NOP and has no effect but to go on; any other first doubleword with OP 0, and any
96- or 128-bit form with OP 0, is refused. What is refused raises ILLEGAL where it is fetched. -/
def Obligations.MovesAndNoEffect : Prop :=
  (∀ (o : FmtA) (n : Fin 32) (d : Opnd) (imm : Imm) (off : BitVec 32) (s : State),
      let pos := bitsOf o.imm.word 5 0
      let width := bitsOf o.imm.word 14 8
      (1 ≤ width → pos + width ≤ 64 →
        ScalarDone (.ext o) (FmtA.len o) o.d [o.a] 0
          (fun vs =>
            let f := (nth vs 0).extractLsb' pos width
            if o.t.isSigned then f.signExtend 64 else f.setWidth 64) (fun _ => 0) s ∧
        (o.d = .r n →
          ScalarDone (.ins o) (FmtA.len o) o.d [o.a] 0
            (fun vs =>
              let m : Word := (BitVec.allOnes width).setWidth 64 <<< pos
              (s.here.reg n &&& ~~~m) ||| ((nth vs 0 <<< pos) &&& m)) (fun _ => 0) s)) ∧
      ScalarDone (.sel o) (FmtA.len o) o.d [o.a, o.b, o.c] o.imm.word
        (fun vs => if nth vs 2 ≠ 0 then nth vs 0 else nth vs 1) (fun _ => 0) s ∧
      ScalarDone (.movi d imm) (lenImm imm) d [] 0 (fun _ => imm.word) (fun _ => 0) s ∧
      ScalarDone (.lea d off) 12 d [] 0 (fun _ => s.here.pc + off.signExtend 64) (fun _ => 0) s) ∧
  (∀ s : State, exec .nop s = .next (s.mapHere (·.retire 8)) ∧ exec .fillWord s = .next (s.mapHere (·.retire 4))) ∧
  slotForbidden .fillWord = false ∧ slotForbidden .nop = false ∧
  (∀ (a b : BitVec 32) (rest : List (BitVec 32)),
    Reads (0xFFFFFFFF :: rest) .fillWord 4 ∧
    (a.toNat % 4 = 3 → a ≠ 0xFFFFFFFF → ∃ why, decode (a :: rest) = .error why) ∧
    Reads (0 :: 0 :: rest) .nop 8 ∧
    (a.toNat % 4 ≠ 3 → a.toNat / 4 % 256 = 0 → ¬(a = 0 ∧ b = 0) → ∃ why, decode (a :: b :: rest) = .error why)) ∧
  (∀ (s : State) (block : List Byte) (why : Reject),
    let bs := block.drop (s.here.pc.toNat % 32)
    let n := lengthOf (BitVec.ofNat 32 (leNat (bs.take 4)))
    let w := s.mapHere (·.resolveSlot n)
    s.here.pc.toNat % 32 + n ≤ 32 → w.here.skip = false → decode (wordsOf bs) = .error why →
      dispatchHere exec s block = trap w causeIllegal (illegalValue bs))

/-! ### Scalar floating point (R64 to R71, R91 to R94) -/

namespace Sys2Proof.Claims

/-- The value of a finite number. -/
def numVal : Machine.Num → Option ℚ
  | .fin n m e => some ((if n then -1 else 1) * (m : ℚ) * (2 : ℚ) ^ e)
  | _ => none

/-- A number stands for a real x in a rounding: it is x exactly, or x lies strictly between its neighbours in its last
place, its last bit is 1, and it has more bits than any format keeps twice: it rounds as x does. -/
def StandsFor (n : Machine.Num) (x : ℝ) : Prop :=
  (∃ y : ℚ, numVal n = some y ∧ (y : ℝ) = x) ∨
  (∃ (neg : Bool) (m : Nat) (e : Int), n = .fin neg m e ∧ m % 2 = 1 ∧ 2 ^ 120 ≤ m ∧
    (neg = true → x < 0) ∧ (neg = false → 0 < x) ∧
    ((m : ℝ) - 1) * (2 : ℝ) ^ e < |x| ∧ |x| < ((m : ℝ) + 1) * (2 : ℝ) ^ e)

/-- A number lies within a relative distance of 2⁻⁸⁰ of a real. -/
def Near (n : Machine.Num) (x : ℝ) : Prop := ∃ y : ℚ, numVal n = some y ∧ |(y : ℝ) - x| ≤ |x| / 2 ^ 80

/-- The plain float types. -/
def isPlainFloat (t : Ty) : Prop := t = .f16 ∨ t = .bf16 ∨ t = .f32 ∨ t = .f64

/-- A source of a float instruction: its value, abs first and then negate (R44, R91). -/
def floatSrc (t : Ty) (m : SrcMod) (v : Word) : Machine.Num := SrcMod.apply m (numOf t v.toNat)

/-- A floating-point instruction of R91 whose exact function is f: the exact value is scaled, rounded once and
clamped (R71), and its flags are raised. -/
def FloatDone (i : Instr) (o : FmtA) (ops : List Opnd) (s : State) (f : Machine.Num → Machine.Num → Machine.Num → Machine.Num × BitVec 5) : Prop :=
  let r (vs : List Word) : Nat × BitVec 5 :=
    let x := f (floatSrc o.t o.ma (nth vs 0)) (floatSrc o.t o.mb (nth vs 1)) (floatSrc o.t o.mc (nth vs 2))
    finishFloat o.t o.dscale o.clamp x.1 x.2
  ScalarDone i (FmtA.len o) o.d ops (word (immBits o.t o.imm)) (fun vs => word (r vs).1) (fun vs => (r vs).2) s

/-- A comparison of R92. -/
def CompareDone (i : Instr) (o : FmtA) (s : State) (f : Machine.Num → Machine.Num → Bool) (nv : Machine.Num → Machine.Num → Bool) : Prop :=
  let a (vs : List Word) : Machine.Num := floatSrc o.t o.ma (nth vs 0)
  let b (vs : List Word) : Machine.Num := floatSrc o.t o.mb (nth vs 1)
  ScalarDone i (FmtA.len o) o.d [o.a, o.b] (word (immBits o.t o.imm))
    (fun vs => if f (a vs) (b vs) then 1 else 0) (fun vs => if nv (a vs) (b vs) then flagNV else 0) s

def anyNan (a b : Machine.Num) : Bool := a.isNan || b.isNan
def anySignalling (a b : Machine.Num) : Bool := a.isSignalling || b.isSignalling

end Sys2Proof.Claims

/-- ROUNDING IS TO THE NEAREST, TIES TO EVEN (R68): the code that a finite value is rounded to lies, when no
overflow is raised, at least as near to it as any finite code of the type; where another value is as near, the
code chosen is even; and NX says exactly that the value changed.

The same holds of the real that a number with a sticky last bit stands for: quotients, roots and reciprocals are rounded
once (R91, R175).

VEXP2, VLOG2 and VTANH (R175) of the finite codes of their types are computed to a relative error below 2⁻⁸⁰ before they are
rounded (that this rounds as the exact value does is the model's choice, assumption 11); integers and powers of two exactly.

A code of a plain float type that is no NaN is the rounding, in every mode, of its own value, with no flag. -/
def Obligations.RoundingRules : Prop :=
  (∀ (t : Ty) (neg : Bool) (m : Nat) (e : Int) (x : ℚ), isPlainFloat t → numVal (.fin neg m e) = some x →
      let r := (fmtOf t).encode .rne (.fin neg m e)
      r.2.getLsbD 2 = false →
      ∃ y, numVal ((fmtOf t).decode r.1) = some y ∧ (r.2.getLsbD 0 = true ↔ y ≠ x) ∧
        ∀ (k : Nat) (z : ℚ), k < 2 ^ t.width → numVal ((fmtOf t).decode k) = some z →
          |y - x| ≤ |z - x| ∧ (|y - x| = |z - x| → z ≠ y → r.1 % 2 = 0)) ∧
  (∀ (t : Ty) (n : Machine.Num) (x : ℝ), isPlainFloat t → StandsFor n x →
      let r := (fmtOf t).encode .rne n
      r.2.getLsbD 2 = false →
      ∃ y : ℚ, numVal ((fmtOf t).decode r.1) = some y ∧ (r.2.getLsbD 0 = true ↔ (y : ℝ) ≠ x) ∧
        ∀ (k : Nat) (z : ℚ), k < 2 ^ t.width → numVal ((fmtOf t).decode k) = some z →
          |(y : ℝ) - x| ≤ |(z : ℝ) - x| ∧ (|(y : ℝ) - x| = |(z : ℝ) - x| → z ≠ y → r.1 % 2 = 0)) ∧
  (∀ (t : Ty) (k : Nat) (x : ℚ), t ∈ [Ty.f16, .bf16, .f32] → numVal (numOf t k) = some x →
      (|x| < 4096 → Near (fExp2 (numOf t k)).1 ((2 : ℝ) ^ (x : ℝ))) ∧
      (0 < x → Near (fLog2 (numOf t k)).1 (Real.logb 2 x)) ∧
      Near (fTanh (numOf t k)).1 (Real.tanh x) ∧
      (∀ i : Int, |x| < 4096 → x = i → numVal (fExp2 (numOf t k)).1 = some ((2 : ℚ) ^ i)) ∧
      (∀ i : Int, x = (2 : ℚ) ^ i → numVal (fLog2 (numOf t k)).1 = some (i : ℚ))) ∧
  (∀ (t : Ty) (rm : Rounding) (k : Nat), isPlainFloat t → k < 2 ^ t.width →
      ((fmtOf t).decode k).isNan = false → (fmtOf t).encode rm ((fmtOf t).decode k) = (k, 0))

/-- FALU and FFMA complete with the exact value of their operation scaled, rounded and clamped; each
exact operation is the model's own on exact numbers (R91).

The exact operations are exact: sums, differences, products and fused products of finite numbers have the
value the entry names (R68, R91), and raise no flag of their own. A quotient and a root stand for the exact one, with a
sticky last bit, in the one rounding; FMIN and FMAX of finite numbers are one of the operands, the lesser or the greater,
with −0 below +0.

The special results of R91: invalid operations give the default NaN with NV, a division by zero an infinity
with DZ, the root of −0 is −0, and FMIN and FMAX pass a NaN on, with NV for a signalling one. -/
def Obligations.FloatOperations : Prop :=
  (∀ (o : FmtA) (s : State),
      FloatDone (.fadd o) o [o.a, o.b] s (fun a b _ => fAdd a b) ∧
      FloatDone (.fsub o) o [o.a, o.b] s (fun a b _ => fSub a b) ∧
      FloatDone (.fmul o) o [o.a, o.b] s (fun a b _ => fMul a b) ∧
      FloatDone (.fdiv o) o [o.a, o.b] s (fun a b _ => fDiv a b) ∧
      FloatDone (.fsqrt o) o [o.a] s (fun a _ _ => fSqrt a) ∧
      FloatDone (.fmin o) o [o.a, o.b] s (fun a b _ => fMin a b) ∧
      FloatDone (.fmax o) o [o.a, o.b] s (fun a b _ => fMax a b) ∧
      FloatDone (.ffma o) o [o.a, o.b, o.c] s (fun a b c => fMulAdd [a, b] c)) ∧
  (∀ (a b c : Machine.Num) (x y z : ℚ), numVal a = some x → numVal b = some y → numVal c = some z →
      numVal (fAdd a b).1 = some (x + y) ∧ (fAdd a b).2 = 0 ∧
      numVal (fSub a b).1 = some (x - y) ∧ (fSub a b).2 = 0 ∧
      numVal (fMul a b).1 = some (x * y) ∧ (fMul a b).2 = 0 ∧
      numVal (fMulAdd [a, b] c).1 = some (x * y + z) ∧ (fMulAdd [a, b] c).2 = 0 ∧
      (y ≠ 0 → StandsFor (fDiv a b).1 ((x : ℝ) / (y : ℝ)) ∧ (fDiv a b).2 = 0) ∧
      (0 ≤ x → a.isNeg = false → StandsFor (fSqrt a).1 (Real.sqrt x) ∧ (fSqrt a).2 = 0) ∧
      ((fMin a b).1 = a ∨ (fMin a b).1 = b) ∧ numVal (fMin a b).1 = some (min x y) ∧ (fMin a b).2 = 0 ∧
      ((fMax a b).1 = a ∨ (fMax a b).1 = b) ∧ numVal (fMax a b).1 = some (max x y) ∧ (fMax a b).2 = 0) ∧
  (∀ (a b : Machine.Num) (e e' : Int),
      (a.isNan = false → b.isNan = false →
        (a.lt b = true → fMin a b = (a, 0) ∧ fMax a b = (b, 0)) ∧ (b.lt a = true → fMin a b = (b, 0) ∧ fMax a b = (a, 0))) ∧
      fMin (.fin true 0 e) (.fin false 0 e') = (.fin true 0 e, 0) ∧
      fMin (.fin false 0 e) (.fin true 0 e') = (.fin true 0 e', 0) ∧
      fMax (.fin true 0 e) (.fin false 0 e') = (.fin false 0 e', 0) ∧
      fMax (.fin false 0 e) (.fin true 0 e') = (.fin false 0 e, 0)) ∧
  (∀ (n k : Bool) (m : Nat) (e e' : Int) (a b c : Machine.Num),
      fAdd (.inf n) (.inf (!n)) = (.nan false, flagNV) ∧
      fSub (.inf n) (.inf n) = (.nan false, flagNV) ∧
      fMul (.fin n 0 e) (.inf k) = (.nan false, flagNV) ∧
      fMul (.inf k) (.fin n 0 e) = (.nan false, flagNV) ∧
      fDiv (.fin n 0 e) (.fin k 0 e') = (.nan false, flagNV) ∧
      fDiv (.inf n) (.inf k) = (.nan false, flagNV) ∧
      (m ≠ 0 → fDiv (.fin n m e) (.fin k 0 e') = (.inf (n != k), flagDZ)) ∧
      fDiv (.inf n) (.fin k m e) = (.inf (n != k), 0) ∧
      (fDiv (.fin n m e) (.inf k)).1.isZero = true ∧ (fDiv (.fin n m e) (.inf k)).1.isNeg = (n != k) ∧
      (fDiv (.fin n m e) (.inf k)).2 = 0 ∧ fSqrt (.inf false) = (.inf false, 0) ∧
      (fSqrt (.fin true 0 e)).2 = 0 ∧ (fSqrt (.fin true 0 e)).1.isZero = true ∧ (fSqrt (.fin true 0 e)).1.isNeg = true ∧
      (m ≠ 0 → fSqrt (.fin true m e) = (.nan false, flagNV)) ∧
      fSqrt (.inf true) = (.nan false, flagNV) ∧
      (fMulAdd [.fin n 0 e, .inf k] c).1 = .nan false ∧ (fMulAdd [.fin n 0 e, .inf k] c).2 = flagNV ∧
      (fMulAdd [.fin false 1 0, .inf n] (.inf (!n))) = (.nan false, flagNV) ∧
      ((a.isNan || b.isNan) = true →
        fMin a b = (.nan false, if anySignalling a b then flagNV else 0) ∧
        fMax a b = (.nan false, if anySignalling a b then flagNV else 0)))

namespace Sys2Proof.Claims

/-- An integer source of a conversion, negated exactly where its modifier says so (R93). -/
def intSrc (t : Ty) (m : SrcMod) (v : Word) : Int :=
  let b := BitVec.ofNat t.width v.toNat
  let i : Int := if t.isSigned then b.toInt else b.toNat
  if m.neg then -i else i

/-- The source of a conversion as a number. -/
def convSrc (t : Ty) (m : SrcMod) (v : Word) : Machine.Num :=
  if t.isInt then .fin (intSrc t m v < 0) (intSrc t m v).natAbs 0 else floatSrc t m v

/-- The least and the greatest value of an integer type (R64). -/
def least (t : Ty) : Int := if t.isSigned then -(2 ^ (t.width - 1)) else 0
def greatest (t : Ty) : Int := if t.isSigned then 2 ^ (t.width - 1) - 1 else 2 ^ t.width - 1

/-- An integer saturated to a type, in a whole register (R66). -/
def saturated (t : Ty) (i : Int) : Word := widen t (BitVec.ofInt t.width (max (least t) (min i (greatest t))))

/-- A value rounded to an integer (R66, R70). -/
def rounded (rm : Rounding) (x : ℚ) : Int :=
  match rm with
  | .rz => if 0 ≤ x then ⌊x⌋ else ⌈x⌉
  | .rd => ⌊x⌋
  | .ru => ⌈x⌉
  | .rne =>
    if x - ⌊x⌋ < 1 / 2 then ⌊x⌋ else if 1 / 2 < x - ⌊x⌋ then ⌊x⌋ + 1 else if ⌊x⌋ % 2 = 0 then ⌊x⌋ else ⌊x⌋ + 1

/-- A number converted to an integer type: its value and its flags (R66). -/
def toInteger (t : Ty) (rm : Rounding) (n : Machine.Num) (v : Word) (fl : BitVec 5) : Prop :=
  (n.isNan = true → v = 0 ∧ fl = flagNV) ∧
  (∀ neg, n = .inf neg → v = saturated t (if neg then least t else greatest t) ∧ fl = flagNV) ∧
  (∀ x, numVal n = some x → v = saturated t (rounded rm x) ∧
    fl = (if rounded rm x < least t ∨ greatest t < rounded rm x then flagNV
      else if (rounded rm x : ℚ) = x then 0 else flagNX))

/-- The bit of FCLASS for a code (R94). -/
def classBit (t : Ty) (c : Nat) : Nat :=
  let fb := match t with | .f16 => 10 | .bf16 => 7 | .f32 => 23 | _ => 52
  let frac := c % 2 ^ fb
  let exps := 2 ^ (t.width - 1 - fb)
  let exp := c / 2 ^ fb % exps
  let neg := 2 ^ (t.width - 1) ≤ c
  if t = .m8 then (if c = 0x80 then 9 else if c = 0 then 4 else if c < 0x80 then 6 else 1)
  else if exp + 1 = exps then
    (if frac = 0 then (if neg then 0 else 7) else if 2 ^ (fb - 1) ≤ frac then 9 else 8)
  else if exp = 0 then (if frac = 0 then (if neg then 3 else 4) else if neg then 2 else 5)
  else if neg then 1 else 6

end Sys2Proof.Claims

/-- FCMP writes 1 or 0, and raises NV as the table of R92 says.

The order and the equality it rests on are those of the values: of finite numbers the order of the rationals, in which +0 and −0 are
equal; −∞ is below, and +∞ above, every finite number; a NaN is neither below, nor above, nor equal to anything.

FCVT (R93) of a source of any type to any type completes: an integer is negated exactly before, an integer target is
saturated, without a flag from an integer and with NV and NX of R66 after one rounding in its mode from a float or m8; a
float target is scaled, rounded once in the mode and clamped (R70, R71), with NV for a signalling NaN; a target m8
takes the nearest code of R74, clamped.

FCLASS writes the one bit of its map that the code of its source has (R94), and raises no flag. -/
def Obligations.CompareConvertClassify : Prop :=
  ∀ (o : FmtA) (src : Ty) (rm : Rounding) (s : State),
    CompareDone (.fcmpEq o) o s (fun a b => a.eqv b) anySignalling ∧
    CompareDone (.fcmpLt o) o s (fun a b => a.lt b) anyNan ∧
    CompareDone (.fcmpLe o) o s (fun a b => a.lt b || a.eqv b) anyNan ∧
    CompareDone (.fcmpUn o) o s anyNan anySignalling ∧
    (let goes (v : List Word → Word) (fl : List Word → BitVec 5) : Prop :=
       ScalarDone (.fcvt src rm o) (FmtA.len o) o.d [o.a] (word (immBits src o.imm)) v fl s
     let num (vs : List Word) : Machine.Num := convSrc src o.ma (nth vs 0)
     (src.isInt = true → o.t.isInt = true → goes (fun vs => saturated o.t (intSrc src o.ma (nth vs 0))) (fun _ => 0)) ∧
     (src.isInt = false → o.t.isInt = true →
       ∃ v fl, goes v fl ∧ ∀ vs, toInteger o.t rm (num vs) (v vs) (fl vs)) ∧
     (isPlainFloat o.t →
       let r (vs : List Word) : Nat × BitVec 5 := (fmtOf o.t).encode rm ((num vs).scale (dscaleInt o.dscale))
       goes (fun vs => word (clampBits o.t o.clamp (r vs).1))
         (fun vs => (r vs).2 ||| if (num vs).isSignalling then flagNV else 0)) ∧
     (o.t = .m8 →
       let r (vs : List Word) : Nat × BitVec 5 := m8Encode ((num vs).scale (dscaleInt o.dscale))
       goes (fun vs => word (clampBits .m8 o.clamp (r vs).1)) (fun vs => (r vs).2))) ∧
    (o.t ∈ [Ty.f16, .bf16, .f32, .f64, .m8] →
      ScalarDone (.fclass o) (FmtA.len o) o.d [o.a] (word (immBits o.t o.imm))
        (fun vs => word (2 ^ classBit o.t ((nth vs 0).toNat % 2 ^ o.t.width))) (fun _ => 0) s) ∧
    (∀ (a b : Machine.Num) (x y : ℚ) (n k c : Bool) (m : Nat) (e : Int),
      (numVal a = some x → numVal b = some y → (a.lt b = true ↔ x < y) ∧ (a.eqv b = true ↔ x = y)) ∧
      (Machine.Num.inf n).lt (.fin k m e) = n ∧ (Machine.Num.fin k m e).lt (.inf n) = !n ∧
      (Machine.Num.inf n).lt (.inf k) = (n && !k) ∧ (Machine.Num.inf n).eqv (.inf k) = (n == k) ∧
      (Machine.Num.inf n).eqv (.fin k m e) = false ∧ (Machine.Num.fin k m e).eqv (.inf n) = false ∧
      (Machine.Num.nan c).lt a = false ∧ a.lt (.nan c) = false ∧ (Machine.Num.nan c).eqv a = false ∧ a.eqv (.nan c) = false)

/-! ### What S-pipe instructions leave alone -/

namespace Sys2Proof.Claims

/-- The rows of IALU, IMUL, BITF and SEL. -/
def integerRows (o : FmtA) : List Instr :=
  [.add o, .sub o, .and o, .or o, .xor o, .andn o, .orn o, .shl o, .shr o, .sar o, .rol o, .ror o, .min o, .max o,
   .slt o, .seq o, .sne o, .clz o, .ctz o, .popc o, .brev o, .bswap o, .sext o, .zext o, .mul o, .mulh o, .div o,
   .rem o, .madd o, .ext o, .ins o, .sel o]

/-- The rows of FALU, FFMA, FCMP, FCVT and FCLASS. -/
def floatRows (o : FmtA) (src : Ty) (rm : Rounding) : List Instr :=
  [.fadd o, .fsub o, .fmul o, .fdiv o, .fsqrt o, .fmin o, .fmax o, .ffma o, .fcmpEq o, .fcmpLt o, .fcmpLe o,
   .fcmpUn o, .fcvt src rm o, .fclass o]

/-- Nothing but the issuing context has changed: no other context, core or unit of the device, and no byte of
any memory. -/
def OnlyHere (s t : State) : Prop :=
  (∃ x : Ctx, t = s.mapHere (fun _ => x)) ∧ t.hbm = s.hbm ∧
  (∀ c : CoreId, (t.core c).spad = (s.core c).spad ∧ (t.core c).opnd = (s.core c).opnd) ∧
  (∀ (c : CoreId) (x : CtxId), (c ≠ s.focus ∨ x ≠ s.hereX) → t.ctx c x = s.ctx c x)

/-- The special registers of a context but FFLAGS and the loop counts, which completing an instruction may
change (R104), are as they were; so are its vector and mask registers, its domain and domain stack. -/
def SpecialsKept (x y : Ctx) : Prop :=
  y.vregs = x.vregs ∧ y.kregs = x.kregs ∧ y.tloops = x.tloops ∧ y.tvec = x.tvec ∧ y.tpc = x.tpc ∧
  y.tcause = x.tcause ∧ y.tval = x.tval ∧ y.tslot = x.tslot ∧ y.lease = x.lease ∧ y.self = x.self ∧
  y.domain = x.domain ∧ y.origin = x.origin ∧ y.msghdr = x.msghdr ∧ y.frame = x.frame ∧ y.clkgs = x.clkgs ∧
  y.clkseq = x.clkseq ∧ y.stack = x.stack ∧ y.batches = x.batches ∧ y.act = x.act ∧
  y.loops.start0 = x.loops.start0 ∧ y.loops.end0 = x.loops.end0 ∧
  y.loops.start1 = x.loops.start1 ∧ y.loops.end1 = x.loops.end1

end Sys2Proof.Claims

/-! ### Branches, delay slots, loops (R48, R95 to R105) -/

namespace Sys2Proof.Claims

/-- The conditions of R48. -/
def taken (cond : Cond) (a b : Word) : Prop :=
  match cond with
  | .always => True
  | .eq => a = b
  | .ne => a ≠ b
  | .lt => a.toInt < b.toInt
  | .ge => b.toInt ≤ a.toInt
  | .ltn => a.toNat < b.toNat
  | .gen => b.toNat ≤ a.toNat
  | .z => a = 0
  | .nz => a ≠ 0
  | .bit => a.getLsbD (b.toNat % 64) = true

/-- A branch has completed: its link holds the address after a slot of 8 bytes (the model's choice for a slot not yet
fetched, assumption 12), its slot is next, and the branch goes to dest when c holds. -/
def Branched (x : Ctx) (c : Bool) (dest : Word) (link : Fin 32) (disarm : Bool) : Ctx :=
  { x.setReg link (x.pc + 16) with pc := x.pc + 8, slot := some ⟨dest, c, link, some x.pc, false, disarm⟩ }

/-- PC + sx(OFF32, 32) × 4. -/
def target (x : Ctx) (off : BitVec 32) : Word := x.pc + 4 * off.signExtend 64

/-- No loop is armed. -/
def Unarmed (x : Ctx) : Prop := x.loops.count0.getLsbD 63 = false ∧ x.loops.count1.getLsbD 63 = false

end Sys2Proof.Claims

/-- B, CALL, BR and BQ complete, away from the end of an armed loop: their decision and target are taken at the
branch, with the pop of BQ; only B and BQ can disarm a loop. BR takes no branch but the trap ALIGN when its target
has a bit [1:0] or [63:56] set (R95 to R98); and at the end of an armed loop each raises ILLEGAL (R105). -/
def Obligations.BranchesDecide : Prop :=
  ∀ (cond : Cond) (c : Bool) (ra rb rd : Fin 32) (qa : Fin 8) (off : BitVec 32) (s : State),
    let x := s.here
    (x.atLoopEnd = false →
      ((c = true ↔ taken cond (x.reg ra) (x.reg rb)) →
        exec (.b cond ra rb off) s = .next (s.mapHere (fun x => Branched x c (target x off) 0 true))) ∧
      exec (.call off) s = .next (s.mapHere (fun x => Branched x true (target x off) 31 false)) ∧
      (let dest := x.reg ra + 4 * off.signExtend 64
       if dest.toNat % 4 = 0 ∧ dest.toNat < 2 ^ 56 then
         exec (.br rd ra off) s = .next (s.mapHere (fun x => Branched x true dest rd false))
       else exec (.br rd ra off) s = trap s 4 dest) ∧
      (∀ v r, x.queue qa = v :: r → (c = true ↔ taken cond v (x.reg rb)) →
        exec (.bq cond qa rb off) s =
          .next (s.mapHere (fun x => Branched (x.setQueue qa r) c (target x off) 0 true))) ∧
      (x.queue qa = [] →
        exec (.bq cond qa rb off) s = .next (s.mapHere (fun x => { x with wait := .pop [(qa, 1)] })))) ∧
    (x.atLoopEnd = true →
      exec (.b cond ra rb off) s = trap s 1 (firstDword (.b cond ra rb off)) ∧
      exec (.call off) s = trap s 1 (firstDword (.call off)) ∧
      exec (.br rd ra off) s = trap s 1 (firstDword (.br rd ra off)) ∧
      exec (.bq cond qa rb off) s = trap s 1 (firstDword (.bq cond qa rb off)))

/-- THE DELAY SLOT (R99): when the slot of a branch, n bytes long, is fetched and then completes, the program goes
to the target of a taken branch and on past the slot after another; the link holds the address after the slot, and
the slot sees it; s0 is never a link.

A taken B or BQ that lies in the body of a loop and leaves it disarms that loop before its slot executes; a
branch not taken, a CALL or a BR, and a branch that stays in the body or lies outside it, disarm none (R105).

A slot at the end of an armed loop: after a taken branch the program goes to the target and no end check is made; after a
branch that counts as not taken the slot makes the ordinary end check (R105). -/
def Obligations.BranchSlots : Prop :=
  (∀ (x : Ctx) (p : SlotPend) (n : Nat), x.slot = some p → p.resolved = false → Unarmed x →
      let y := x.resolveSlot n
      (y.retire n).pc = (if p.taken then p.dest else x.pc + word n) ∧ (y.retire n).slot = none ∧
      (p.link ≠ 0 → y.reg p.link = x.pc + word n) ∧
      (∀ r : Fin 32, r ≠ p.link → y.reg r = x.reg r) ∧ y.reg 0 = 0) ∧
  (∀ (x : Ctx) (p : SlotPend) (n : Nat) (b : Word), x.slot = some p → p.resolved = false → p.branch = some b →
      let leaves (start fin : Word) : Prop :=
        p.taken = true ∧ p.disarm = true ∧ p.dest ≠ x.pc + word n ∧
        start.toNat ≤ b.toNat ∧ b.toNat ≤ fin.toNat ∧ ¬(start.toNat ≤ p.dest.toNat ∧ p.dest.toNat ≤ fin.toNat)
      let l := (x.resolveSlot n).loops
      (leaves x.loops.start0 x.loops.end0 → l.count0.getLsbD 63 = false ∧ l.count0.setWidth 63 = x.loops.count0.setWidth 63) ∧
      (¬leaves x.loops.start0 x.loops.end0 → l.count0 = x.loops.count0) ∧
      (leaves x.loops.start1 x.loops.end1 → l.count1.getLsbD 63 = false ∧ l.count1.setWidth 63 = x.loops.count1.setWidth 63) ∧
      (¬leaves x.loops.start1 x.loops.end1 → l.count1 = x.loops.count1)) ∧
  (∀ (x : Ctx) (p : SlotPend) (n : Nat), x.slot = some p → p.resolved = false →
      let y := x.resolveSlot n
      let takes : Prop := p.taken = true ∧ p.dest ≠ x.pc + word n
      (takes → (y.retire n).pc = p.dest ∧ (y.retire n).loops = y.loops) ∧
      (¬takes → y.loops = x.loops ∧ y.retire n = ({ y with slot := none }.retire n)))

/-- THE END CHECK (R104): completing the instruction at the end of an armed loop counts it down; the next pc is
the loop's start while the count is not used up, and the loop is disarmed when it is. Loop 1 is checked first, and
loop 0 only if loop 1 did not jump. Elsewhere the next instruction follows and no count changes. That a count of 0 wraps
round is the model's choice (assumption 19).

LOOP and LBRK complete (R102, R103), where no loop ends at them: LOOP sets the three registers of its loop from
its count, and with a count of 0 it goes to the instruction at the loop's end and skips it; LBRK clears the ARM
bit and nothing else. The instruction that is skipped is fetched, and checked for its boundary, and the program goes on after
it, without its effect (R102; that a stop or a fault before that leaves it to be skipped is the model's choice, assumption
105). -/
def Obligations.HardwareLoops : Prop :=
  (∀ (x : Ctx) (n : Nat), x.slot = none →
      let y := x.retire n
      let armed (count fin : Word) : Prop := count.getLsbD 63 = true ∧ fin = x.pc
      let left (count : Word) : Nat := (count.toNat + (2 ^ 32 - 1)) % 2 ^ 32
      let counted (count : Word) : Word := if left count = 0 then 0 else word (2 ^ 63 + left count)
      let in1 := armed x.loops.count1 x.loops.end1
      let in0 := armed x.loops.count0 x.loops.end0
      (in1 → y.loops.count1 = counted x.loops.count1) ∧ (¬in1 → y.loops.count1 = x.loops.count1) ∧
      (in1 → left x.loops.count1 ≠ 0 → y.pc = x.loops.start1 ∧ y.loops.count0 = x.loops.count0) ∧
      (¬(in1 ∧ left x.loops.count1 ≠ 0) → in0 →
        y.loops.count0 = counted x.loops.count0 ∧
        y.pc = (if left x.loops.count0 = 0 then x.pc + word n else x.loops.start0)) ∧
      (¬(in1 ∧ left x.loops.count1 ≠ 0) → ¬in0 → y.loops.count0 = x.loops.count0 ∧ y.pc = x.pc + word n)) ∧
  (∀ (n : Fin 2) (count : LoopCount) (off : BitVec 32) (v : Word) (x' : Ctx) (s : State),
      (Instr.loop n count off).wellFormed = true → s.here.atLoopEnd = false → s.here.slot = none →
      (match count with
        | .imm16 k => v = k.setWidth 64 ∧ x' = s.here
        | .reg r => v = s.here.reg r ∧ x' = s.here
        | .queue q => s.here.takeOne 0 (.q q) = some (v, x')) →
      (let cnt : Nat := if v.toInt ≤ 0 then 0 else min v.toNat (2 ^ 32 - 1)
       let fin : Word := addrField (target s.here off)
       let regs : Loops := x'.loops.set n (addrField (s.here.pc + 12)) fin (if cnt = 0 then 0 else word (2 ^ 63 + cnt))
       exec (.loop n count off) s = .next (s.mapHere (fun _ =>
         { x' with loops := regs, pc := if cnt = 0 then fin else s.here.pc + 12,
                   skip := if cnt = 0 then true else x'.skip }))) ∧
      exec (.lbrk n) s = .next (s.mapHere (fun x =>
        { x with
          pc := x.pc + 8,
          loops := if n = 0 then { x.loops with count0 := x.loops.count0 &&& 0x7FFFFFFFFFFFFFFF }
            else { x.loops with count1 := x.loops.count1 &&& 0x7FFFFFFFFFFFFFFF } }))) ∧
  (∀ (s : State) (block : List Byte),
      let n := lengthOf (BitVec.ofNat 32 (leNat ((block.drop (s.here.pc.toNat % 32)).take 4)))
      s.here.skip = true → s.here.slot = none → s.here.pc.toNat % 32 + n ≤ 32 →
      dispatchHere exec s block = .next (s.mapHere (fun x => { x with pc := x.pc + word n, skip := false })))

/-! ### Special registers and local traps (R24 to R29, R108 to R115) -/

namespace Sys2Proof.Claims

/-- What a special register that WRS may write holds after a write of v: the fields of R26, R28, R29 and R110;
reserved bits read zero. -/
def written (r : Spr) (v : Word) : Word :=
  match r with
  | .lease => word (min (max v.toNat 256) 16384)
  | .tval => v
  | .tslot => v &&& 0x80FFFFFFFFFFFFFC
  | .fflags => v &&& 0x1F
  | .tcause => v &&& 0xFF
  | .tl0count | .tl1count => v &&& 0x80000000FFFFFFFF
  | .l0count | .l1count =>
    if v.getLsbD 63 && v.setWidth 32 != (0 : BitVec 32) then v &&& 0x80000000FFFFFFFF else v &&& 0xFFFFFFFF
  | _ => v &&& 0x00FFFFFFFFFFFFFC

end Sys2Proof.Claims

/-- RDS and QSTAT complete (R24, R25, R108, R111): FFLAGS is read once the V pipe is empty, LCLK once no access of
the activation is under way. What some registers read as: the core's number under the device's, the domain, the
depth of the domain stack, ORIGIN, Quartz time, the logical clock, the cycles; QSTAT the occupancies.

WRS completes (R29, R109): the register then reads as the fields written, with its reserved bits zero. FFLAGS
waits for the V pipe. The writes of TRAP state, LEASE and TVEC follow the general row. That a loop register of a trap takes
ARM and COUNT as they are written, also ARM with a COUNT of 0, is the model's choice (assumption 19). -/
def Obligations.SpecialRegisters : Prop :=
  (∀ (d : Opnd) (rd : Fin 32) (r : Spr) (s : State),
      ((r = .fflags → s.here.vIdle = true) → (r = .lclk → s.here.memFree = true) →
        ScalarDone (.rds d r) 8 d [] 0 (fun _ => s.special r) (fun _ => 0) s) ∧
      s.special .core = word (s.device.toNat * 2 ^ 32 + s.focus.val) ∧
      s.special .domain = s.here.domain.setWidth 64 ∧ s.special .origin = s.here.origin.setWidth 64 ∧
      s.special .ddepth = word s.here.stack.length ∧ s.special .tbase = word s.quartz ∧
      s.special .lclk = word s.hereCore.lclk ∧ s.special .cycle = word s.hereCore.cycle ∧
      s.special .fflags = s.here.fflags.setWidth 64 ∧
      exec (.qstat rd) s = .next (s.mapHere (fun x =>
        (x.setReg rd (word ((List.finRange 8).map (fun i => (x.queue i).length * 16 ^ i.val)).sum)).retire 8))) ∧
  (∀ (a : Opnd) (imm : Imm) (r : Spr) (l : LoopReg) (v : Word) (x : Ctx) (s : State),
      s.here.take imm.word [a] = some ([v], x) →
      (r.readOnly = false → r.ownRow = false →
        ∃ t, exec (.wrs r a imm) s = .next t ∧ t.special r = written r v ∧
          ∀ q : Spr, q ≠ r → q.ownRow = false → t.special q = s.special q) ∧
      (s.here.vIdle = true → ∃ t, exec (.wrsFflags a imm) s = .next t ∧ t.special .fflags = written .fflags v) ∧
      (∃ t, exec (.wrsLoopRegister l a imm) s = .next t ∧ t.special l.spr = written l.spr v) ∧
      (∃ t, exec (.wrsTcause a imm) s = .next t ∧ t.special .tcause = written .tcause v))

/-- TRAP and BRK (R114): encoded in format S with n as IMM16; each completes, with its own end check, and then
takes its local trap, with TVAL = n, TPC the address that follows and TSLOT 0; with TCAUSE set it escalates to DOUBLE, a
terminal fault that is delivered, and with TVEC 0 to NOVEC, another (of whatever KIND and POL: those the model gives them are its
choice, log entry 89). TRAP is forbidden in a delay slot, BRK is not. -/
def Obligations.TrapAndBreak : Prop :=
  ∀ (n : BitVec 16) (s : State), s.here.optimistic = false → s.here.vIdle = true →
    (∀ (i : Instr) (code : Nat), (i = .trap n ∧ code = 5) ∨ (i = .brk n ∧ code = 6) →
      (s.here.tcause = 0 → s.here.tvec ≠ 0 →
        ∃ t, exec i s = .next t ∧ t.here.pc = s.here.tvec ∧ t.here.tcause = word code ∧
          t.here.tval = n.setWidth 64 ∧ t.here.tpc = (s.here.retire 8).pc &&& 0x00FFFFFFFFFFFFFC ∧
          t.here.tslot = 0 ∧ t.here.tloops = (s.here.retire 8).loops ∧ t.here.regs = s.here.regs) ∧
      (s.here.tcause ≠ 0 →
        ∃ (u : State) (kind pol : Nat), u.here = s.here.retire 8 ∧
          exec i s = .next (u.deliverTerminal s.focus s.hereX ⟨19, n.setWidth 64, kind, pol⟩)) ∧
      (s.here.tcause = 0 → s.here.tvec = 0 →
        ∃ (u : State) (kind pol : Nat), u.here = s.here.retire 8 ∧
          exec i s = .next (u.deliverTerminal s.focus s.hereX ⟨20, n.setWidth 64, kind, pol⟩))) ∧
    slotForbidden (.trap n) = true ∧ slotForbidden (.brk n) = false ∧
    encode (.trap n) = some [0x308, n.setWidth 32 <<< (2 : Nat)] ∧ encode (.brk n) = some [0x310, n.setWidth 32 <<< (2 : Nat)]

/-- TRET (R115), encoded with every field 0: outside trap code it is ILLEGAL, and it is forbidden in a delay slot. In
trap code the loop registers come back from their copies, TCAUSE is 0, and the instruction at TPC follows, with PEND set
as the slot of a branch to TARGET; TPC, TVAL, TSLOT and the scalar registers keep their values. That TRET itself makes no end
check of a loop is the model's choice (assumption 20). -/
def Obligations.TrapReturn : Prop :=
  Reads [0x0000030C, 0] .tret 8 ∧ slotForbidden .tret = true ∧
  ∀ s : State,
    (s.here.tcause = 0 → exec .tret s = trap s 1 0x30C) ∧
    (s.here.tcause ≠ 0 →
      ∃ y, exec .tret s = .next (s.mapHere (fun _ => y)) ∧
        y.loops = s.here.tloops ∧ y.tcause = 0 ∧ y.pc = s.here.tpc ∧
        y.tpc = s.here.tpc ∧ y.tval = s.here.tval ∧ y.tslot = s.here.tslot ∧ y.regs = s.here.regs ∧
        (s.here.tslot.getLsbD 63 = false → y.slot = none) ∧
        (s.here.tslot.getLsbD 63 = true → ∃ p, y.slot = some p ∧ p.taken = true ∧ p.resolved = true ∧
          p.dest = s.here.tslot &&& 0x00FFFFFFFFFFFFFC ∧ p.branch = none))

/-- FRAME OF THE SCALAR ROWS: an integer or float instruction of the S pipe that goes on, completed or waiting,
changes in its context no scalar register but D, no queue but D and its sources, no special register but the loop
counts of R104, FFLAGS only by raising flags and not at all for an integer row; and nothing outside its context.

COMPLETION: each of these instructions completes where its destination has room and its source queues hold their entries
(R16, R84).

WAITING (R17): an S-pipe instruction whose destination queue is full, or whose source queues hold too few
entries, changes nothing but what its context waits for; it issues again later.

THE OPERANDS OF THE S PIPE (R12, R16, R84): s0 reads as zero and a write to it is discarded; a register
written reads back and no other changes; a push appends one entry; a pop takes the oldest.

QLOCK (R18): when both pipes of a context have stayed blocked on queues for 4,096 cycles, the trap QLOCK is
taken: the V pipe and the eight queues are emptied, TPC is the blocked instruction of the S pipe, TVAL the address of
the oldest instruction of the V pipe. -/
def Obligations.OperandsAndFrames : Prop :=
  (∀ (o : FmtA) (src : Ty) (rm : Rounding) (i : Instr) (s t : State),
      i ∈ integerRows o ++ floatRows o src rm → exec i s = .next t →
      OnlyHere s t ∧ SpecialsKept s.here t.here ∧
      (∀ n : Fin 32, o.d ≠ .r n → t.here.reg n = s.here.reg n) ∧
      (∀ q : Fin 8, o.d ≠ .q q → o.a ≠ .q q → o.b ≠ .q q → o.c ≠ .q q → t.here.queue q = s.here.queue q) ∧
      (i ∈ integerRows o → t.here.fflags = s.here.fflags) ∧
      t.here.fflags &&& s.here.fflags = s.here.fflags) ∧
  (∀ (o : FmtA) (src : Ty) (rm : Rounding) (i : Instr) (s : State),
      i ∈ integerRows o ++ floatRows o src rm → s.here.fullQueue o.d = none →
      (∀ q : Fin 8, o.a = .q q ∨ o.b = .q q ∨ o.c = .q q → 3 ≤ (s.here.queue q).length) →
      ∃ y : Ctx, exec i s = .next (s.mapHere (fun _ => y.retire (FmtA.len o))) ∧ y.pc = s.here.pc ∧ y.slot = s.here.slot) ∧
  (∀ (o : FmtA) (src : Ty) (rm : Rounding) (i : Instr) (s : State),
      i ∈ integerRows o ++ floatRows o src rm →
      (∀ q, s.here.fullQueue o.d = some q → exec i s = .next (s.mapHere (fun x => { x with wait := .push q }))) ∧
      (s.here.fullQueue o.d = none → ∀ q : Fin 8, o.a = .q q → s.here.queue q = [] →
        ∃ w, exec i s = .next (s.mapHere (fun x => { x with wait := .pop w })))) ∧
  (∀ (x : Ctx) (n m : Fin 32) (q r : Fin 8) (imm v : Word),
      x.reg 0 = 0 ∧ (x.put (.r 0) v).regs = x.regs ∧
      (n ≠ 0 → (x.put (.r n) v).reg n = v) ∧ (m ≠ n → (x.put (.r n) v).reg m = x.reg m) ∧
      (x.put (.q q) v).queue q = x.queue q ++ [v] ∧ (r ≠ q → (x.put (.q q) v).queue r = x.queue r) ∧
      (x.put (.q q) v).regs = x.regs ∧
      (x.fullQueue (.q q) = none ↔ (x.queue q).length < 8) ∧
      (∀ w l, x.queue q = w :: l → x.takeOne imm (.q q) = some (w, x.setQueue q l)) ∧
      (x.queue q = [] → x.takeOne imm (.q q) = none) ∧
      x.takeOne imm (.r n) = some (x.reg n, x) ∧ x.takeOne imm .imm = some (imm, x)) ∧
  (∀ (s : State) (c : CoreId) (x : CtxId) (e : VEntry) (r : List VEntry), s.arg = .nums c.val x.val 0 →
      let y := s.ctx c x
      y.act.isSome = true → y.sBlocked = true → y.vBlocked = true → s.waitOver c x = false → 4096 ≤ y.blocked →
      y.vq = e :: r → y.tcause = 0 → y.tvec ≠ 0 →
      ∃ t, exec .qlock s = .next t ∧
        (t.ctx c x).vq = [] ∧ (∀ q, (t.ctx c x).queue q = []) ∧ (t.ctx c x).tpc = y.pc &&& 0x00FFFFFFFFFFFFFC ∧
        (t.ctx c x).tval = e.pc ∧ (t.ctx c x).tcause = 7 ∧ (t.ctx c x).pc = y.tvec ∧
        (t.ctx c x).regs = y.regs)

/-! ### Memory instructions (R107, R187 to R192, R270 to R292), on scratchpads -/

namespace Sys2Proof.Claims

/-- The issuing context may make an access now: none of its own is under way or held back, it holds no posted
store back, and it runs no atomic chunk (R21, R271, R273). -/
def MemReady (s : State) : Prop :=
  s.here.memWait = none ∧ s.myPosted = [] ∧ s.here.chunk.active = false

/-- An access of size bytes is aligned, and its checks place it at a byte of a scratchpad (R221 to R225, R280). -/
def OnSpad (s : State) (ea : Word) (size kind : Nat) (pol : Pol) (tc : CoreId) (off : Nat) : Prop :=
  ea.toNat % size = 0 ∧ s.placeOf s.who ea size kind pol = .at (.spad tc off) none

/-- The little-endian value of n bytes of a scratchpad. -/
def spadValue (s : State) (tc : CoreId) (off n : Nat) : Nat := leNat ((s.core tc).spad.bytes off n)

/-- Byte i of a word. -/
def byteOf (v : Word) (i : Nat) : Byte := v.extractLsb' (8 * i) 8

/-- The bytes of a scratchpad from off on are v's; every other byte of every memory of the device reads as before. -/
def OnlyStored (s t : State) (tc : CoreId) (off n : Nat) (v : Nat → Byte) : Prop :=
  t.hbm = s.hbm ∧
  ∀ c : CoreId, (t.core c).opnd = (s.core c).opnd ∧
    ∀ a, (t.core c).spad.get a =
      if c = tc ∧ off ≤ a ∧ a < off + n then v (a - off) else (s.core c).spad.get a

/-- The context as a memory instruction of len bytes that has set its result leaves it. -/
def MemDone (x : Ctx) (len : Nat) : Ctx := { x.retire len with wait := .run }

/-- A value of size bytes in a whole register: sign- or zero-extended (R107). -/
def loaded (signed : Bool) (size v : Nat) : Word :=
  if signed then (BitVec.ofNat (8 * size) v).signExtend 64 else BitVec.ofNat 64 v

end Sys2Proof.Claims

namespace Sys2Proof.Claims

/-- What an AMO of w bits stores over old, if anything (R285, R286). -/
def amoResult {w : Nat} (fn : AmoFn) (old op new : BitVec w) : Option (BitVec w) :=
  match fn with
  | .add => some (old + op)
  | .and => some (old &&& op)
  | .or => some (old ||| op)
  | .xor => some (old ^^^ op)
  | .min => some (if old.toInt ≤ op.toInt then old else op)
  | .max => some (if op.toInt ≤ old.toInt then old else op)
  | .minn => some (if old.toNat ≤ op.toNat then old else op)
  | .maxn => some (if op.toNat ≤ old.toNat then old else op)
  | .swap => some op
  | .cas => if old = op then some new else none
  | .fadd32 =>
    some (BitVec.ofNat w (fmtF32.encode .rne (fAdd (fmtF32.decode old.toNat) (fmtF32.decode op.toNat)).1).1)

/-- The rows of AMO with their functions. -/
def amoRows (m : FmtM) : List (AmoFn × Instr) :=
  [(.add, .amoAdd m), (.and, .amoAnd m), (.or, .amoOr m), (.xor, .amoXor m), (.min, .amoMin m), (.max, .amoMax m),
   (.minn, .amoMinn m), (.maxn, .amoMaxn m), (.swap, .amoSwap m), (.cas, .amoCas m), (.fadd32, .amoFadd32 m)]

end Sys2Proof.Claims

/-- LD from a scratchpad completes (R107, R224, R282): D takes the bytes, extended as the row says; the 16-byte form
takes two doublewords, in either order of access and at either scope (R281); nothing changes but the context and, where a
word of the scratchpad had an error that could be corrected, that error and its record (R229).

ST and STF to a scratchpad complete (R107, R282, R283): exactly the bytes of the access take the low bytes of
D, every other byte of every memory reads as before, and no register changes.

AMO on a scratchpad word completes in one step (R285, R286): D takes the old value, zero-extended, and the word
takes the function of the old value and D (and D + 1 for CAS); no flag changes but for FADD32. -/
def Obligations.ScratchpadAccess : Prop :=
  (∀ (m : FmtM) (s : State) (tc : CoreId) (off : Nat), MemReady s →
      let len := lenOff m.off
      let ea := FmtM.addr m s.here
      (m.sz ≠ .s16 → OnSpad s ea m.sz.bytes kindRead m.pol tc off →
        let v := spadValue s tc off m.sz.bytes
        exec (.ldZeroExtending m) s =
          .next ((s.spadScrub tc off m.sz.bytes).mapHere (fun x => MemDone (x.setReg m.d (loaded false m.sz.bytes v)) len)) ∧
        exec (.ldSignExtending m) s =
          .next ((s.spadScrub tc off m.sz.bytes).mapHere (fun x => MemDone (x.setReg m.d (loaded true m.sz.bytes v)) len))) ∧
      (∀ (td : CoreId) (off' : Nat) (i : Instr), m.sz = .s16 → ea.toNat % 16 = 0 →
        OnSpad s ea 8 kindRead m.pol tc off → OnSpad s (ea + 8) 8 kindRead m.pol td off' →
        i = .ldZeroExtending m ∨ i = .ldSignExtending m →
        exec i s = .next (((s.spadScrub tc off 8).spadScrub td off' 8).mapHere (fun x =>
          MemDone ((x.setReg m.d (word (spadValue s tc off 8))).setReg (Fin.ofNat 32 (m.d.val + 1))
            (word (spadValue s td off' 8))) len)))) ∧
  (∀ (s : State) (tc : CoreId) (off n : Nat),
      let t := s.spadScrub tc off n
      ((∀ w ∈ spadWords off n, (s.core tc).bankErr (w % 32) (w / 32) = none) → t = s) ∧
      (∀ w ∈ spadWords off n, (s.core tc).wordLost w = false → (t.core tc).bankErr (w % 32) (w / 32) = none) ∧
      t.hbm = s.hbm ∧ ∀ c : CoreId, (t.core c).spad = (s.core c).spad ∧ (t.core c).opnd = (s.core c).opnd ∧
        (t.core c).ctxs = (s.core c).ctxs) ∧
  (∀ (m : FmtM) (s : State) (tc : CoreId) (off kind : Nat) (i : Instr), MemReady s → (s.core tc).spad.wf = true →
      m.sz ≠ .s16 →
      (i = .st m ∧ kind = kindWrite) ∨ (i = .stf m ∧ kind = 4) →
      OnSpad s (FmtM.addr m s.here) m.sz.bytes kind m.pol tc off →
      ∃ t, exec i s = .next t ∧ OnlyStored s t tc off m.sz.bytes (byteOf (s.here.reg m.d)) ∧
        SpecialsKept s.here t.here ∧ t.here.regs = s.here.regs ∧ t.here.queues = s.here.queues ∧
        t.here.fflags = s.here.fflags ∧ t.here.pc = (s.here.retire (lenOff m.off)).pc ∧ t.here.op = none) ∧
  (∀ (m : FmtM) (fn : AmoFn) (i : Instr) (s : State) (tc : CoreId) (off : Nat), MemReady s →
      (s.core tc).spad.wf = true → (fn, i) ∈ amoRows m → i.wellFormed = true →
      OnSpad s (FmtM.addr m s.here) m.sz.bytes kindRmw .thru tc off →
      let w := 8 * m.sz.bytes
      let old := BitVec.ofNat w (spadValue s tc off m.sz.bytes)
      let new := amoResult fn old ((s.here.reg m.d).setWidth w) ((s.here.reg (Fin.ofNat 32 (m.d.val + 1))).setWidth w)
      ∃ t, exec i s = .next t ∧
        OnlyStored s t tc off m.sz.bytes (byteOf ((new.getD old).setWidth 64)) ∧
        t.here.reg m.d = (if m.d = 0 then 0 else old.setWidth 64) ∧
        (∀ n, n ≠ m.d → t.here.reg n = s.here.reg n) ∧ t.here.queues = s.here.queues ∧
        (fn ≠ .fadd32 → t.here.fflags = s.here.fflags) ∧ SpecialsKept s.here t.here ∧
        t.here.pc = (s.here.retire (lenOff m.off)).pc)

/-- WAITA on a scratchpad word (R289): a value other than the comparand ends it with 0 in D + 1, a deadline that has
passed with 1; else the activation waits for the word to be written or the deadline. Its two events then make it
look again.

The two events that end a wait of WAITA (R289): its deadline passes, or the next microsecond mark for a wait
that watches nothing else; the watch is over, so that the instruction looks again. -/
def Obligations.Waits : Prop :=
  (∀ (m : FmtM) (s : State) (tc : CoreId) (off : Nat), MemReady s → (Instr.waita m).wellFormed = true →
      OnSpad s (FmtM.addr m s.here) m.sz.bytes kindRead m.pol tc off →
      let v := loaded false m.sz.bytes (spadValue s tc off m.sz.bytes)
      let comparand : Word := (BitVec.setWidth (8 * m.sz.bytes) (s.here.reg m.d)).setWidth 64
      let d1 : Fin 32 := Fin.ofNat 32 (m.d.val + 1)
      let due := (s.here.deadline.getD (min (s.quartz + (s.here.reg d1).toNat) (2 ^ 64 - 1)))
      (v ≠ comparand → ∃ t, exec (.waita m) s = .next t ∧ t.here.reg m.d = v ∧ t.here.reg d1 = 0 ∧
        t.here.pc = (s.here.retire (lenOff m.off)).pc ∧ t.here.deadline = none) ∧
      (v = comparand → due ≤ s.quartz → ∃ t, exec (.waita m) s = .next t ∧ t.here.reg m.d = v ∧ t.here.reg d1 = 1 ∧
        t.here.pc = (s.here.retire (lenOff m.off)).pc ∧ t.here.deadline = none) ∧
      (v = comparand → s.quartz < due → ∃ t, exec (.waita m) s = .next t ∧ t.here.pc = s.here.pc ∧
        t.here.regs = s.here.regs ∧ t.here.wait = .wake ∧ t.here.deadline = some due ∧
        t.here.watch = some (.spad tc (off / 8)))) ∧
  (∀ (s : State) (c : CoreId) (x : CtxId) (t : Nat), s.arg = .nums c.val x.val 0 →
      ((s.ctx c x).wait = .wake → (s.ctx c x).watch.isSome = true → (s.ctx c x).deadline = some t → t ≤ s.quartz →
        exec .waitaDeadline s = .next (s.mapCtx c x (fun y => { y with watch := none }))) ∧
      ((s.ctx c x).watch = some (.interval t) → t ≤ s.quartz →
        exec .waitaWakeInterval s = .next (s.mapCtx c x (fun y => { y with watch := none }))))

/-- PREF always completes and never faults or traps; no register changes (R287). LPIN and UNPIN on a line of the
device set its pin count at the home and answer it, and answer all ones for a count that cannot rise, for a thirteenth
pinned line of an L2 set and for host memory (R234, R288).

FENCE.SYS completes once the accesses of the activation are performed, with the effects of an acquire at system
scope (R278, R291); XFENCE completes once the posted stores and the markers of the producers are back, and then the
logical clock is at least that of their writes (R276, R292); until then its markers are out, and their return is
FENCE MARKER RETURN. That the time counts writes performed before the fence too is the model's choice (assumption 36). -/
def Obligations.PinsAndFences : Prop :=
  (∀ (m : FmtM) (s : State) (pa key : Nat) (home : HomeKind) (pol : Pol) (e : Option TlbEntry),
      (∃ t, exec (.pref m) s = .next t ∧ t.here.regs = s.here.regs ∧ t.here.pc = (s.here.retire (lenOff m.off)).pc ∧
        t.hbm = s.hbm) ∧
      (MemReady s →
        s.placeOf s.who (FmtM.addr m s.here) 1 kindRead m.pol = .at (.memory pa home key pol) e →
        (home = .host →
          (∃ t, exec (.lpin m) s = .next t ∧ t.here.reg m.d = if m.d = 0 then 0 else BitVec.allOnes 64) ∧
          (∃ t, exec (.unpin m) s = .next t ∧ t.here.reg m.d = if m.d = 0 then 0 else BitVec.allOnes 64)) ∧
        (home = .thisDie ∨ home = .otherDie → pa / 128 < 2 ^ 45 →
          let u := HomeUnit.slice (lineDie (pa / 128))
          let pins := (s.dir u (pa / 128)).pins
          (∃ t, exec (.unpin m) s = .next t ∧ (t.dir u (pa / 128)).pins = pins - 1 ∧
            t.here.reg m.d = if m.d = 0 then 0 else word (pins - 1)) ∧
          (let ways := s.l2Ways (lineDie (pa / 128)) (pa / 128)
           let pinned := (ways.filter (fun p => 0 < p.2.pins)).length
           (pins < 255 → 0 < pins ∨
               (pinned < 12 ∧ ((tabGet (s.die (lineDie (pa / 128))).home (pa / 128)).isSome = true ∨ ways.length < 16)) →
             ∃ t, exec (.lpin m) s = .next t ∧ (t.dir u (pa / 128)).pins = pins + 1 ∧
               t.here.reg m.d = if m.d = 0 then 0 else word (pins + 1)) ∧
           (pins = 0 → 12 ≤ pinned → ∃ t, exec (.lpin m) s = .next t ∧ (t.dir u (pa / 128)).pins = 0 ∧
             t.here.reg m.d = if m.d = 0 then 0 else BitVec.allOnes 64)) ∧
          (pins = 255 → ∃ t, exec (.lpin m) s = .next t ∧ (t.dir u (pa / 128)).pins = pins ∧
            t.here.reg m.d = if m.d = 0 then 0 else BitVec.allOnes 64)))) ∧
  (∀ (p c : BitVec 6) (s : State),
      let engines := p &&& 0x3E
      (s.here.optimistic = false → s.here.memWait = none → s.myPosted = [] →
        exec .fenceSys s = .next ((s.acquireSys s.focus s.hereX).retire 8)) ∧
      ((p.getLsbD 0 = true → s.myStfs = []) →
        (engines = 0 → ∃ t, exec (.xfence p c) s = .next t ∧ t.here.pc = (s.here.retire 8).pc ∧
          t.hereCore.lclk = s.hereCore.lclk) ∧
        (∀ te, engines ≠ 0 → (s.here.markers = 64 ∧ te = s.here.fenceTime) ∨
            (s.here.markers = 0 ∧ s.markersBack engines s.ewCount = true ∧ te = s.markerTime engines) →
          ∃ t, exec (.xfence p c) s = .next t ∧ t.here.pc = (s.here.retire 8).pc ∧ t.here.markers = 0 ∧
            t.hereCore.lclk = max s.hereCore.lclk te) ∧
        (engines ≠ 0 → s.here.markers = 0 → s.markersBack engines s.ewCount = false →
          ∃ t, exec (.xfence p c) s = .next t ∧ t.here.pc = s.here.pc ∧ t.here.wait = .markers ∧
            t.here.markers = engines.toNat ∧ t.here.markerTime = s.ewCount ∧
            t.here.fenceTime = s.markerTime engines)) ∧
      (∀ (k : CoreId) (x : CtxId), s.arg = .nums k.val x.val 0 → (s.ctx k x).markers ≠ 0 → (s.ctx k x).markers ≠ 64 →
        s.markersBack (BitVec.ofNat 6 (s.ctx k x).markers) (s.ctx k x).markerTime = true →
        exec .fenceMarkerReturn s = .next (s.mapCtx k x (fun y => { y with markers := 64 }))))

/-- TRAP ENTRY (R113): once the V pipe is empty a local trap saves the resume address, the code, the value and the
slot, copies the loops and disarms them, and goes to TVEC, with queues, flags and registers as they were; inside
trap code it is the fault DOUBLE, without a vector NOVEC; and until the V pipe is empty it waits. That DOUBLE and NOVEC are
faults of an execution with POL 0, and the DATA of the record in Garnet, are the model's choice (assumptions 89, 53).

A misaligned access (R107, R280) has no effect but the trap ALIGN with its address, of every memory row: LD, ST, STF, AMO
and WAITA; a vector load or store traps with the address of its lowest active element that fails (R188), VSTO with the
address of its first. An access whose checks end in a fault raises it, with the address and the kind of the access.

THE DELIVERY OF A FAULT waits until the V pipe has stopped (R347). A retryable fault (R343): the context is saved as it
stands at the instruction, with REASON 1 and the fault, and written to its frame; its entry with the lowest free token goes
to the retryable ring of the die; the slot is SUSPENDED and waits for that token; the hardware context is free. A terminal
fault at depth 0: the frame with REASON 5, an entry in the terminal ring of the domain on top of the stack (and in those of
the functions it is bound to), and the end of the activation; at a greater depth the same entry, and the return to the
caller with −7 in s23. If the frame cannot be written the activation ends, with a FRAMEFAIL in the retryable ring (R344).

THE FRAME (R345, R346): its length, its header, PC, FADDR, FINFO, and where the scalar and vector registers lie. -/
def Obligations.TrapEntries : Prop :=
  (∀ (s : State) (code : Nat) (value : Word), code < 256 →
      let y := s.here
      let g := s.garnet (dieOf s.focus).val 1 0 s.focus.val y.domain.toNat (code + value.toNat * 2 ^ 64)
      (y.vIdle = true → y.tcause = 0 → y.tvec ≠ 0 →
        ∃ t z, trap s code value = .next t ∧ t = g.mapHere (fun _ => z) ∧
          z.tpc = y.pc &&& 0x00FFFFFFFFFFFFFC ∧ z.tcause = word code ∧ z.tval = value ∧
          z.tslot = slotWord y.pc y.slot ∧ z.tloops = y.loops ∧
          z.loops.count0 = y.loops.count0 &&& 0x7FFFFFFFFFFFFFFF ∧ z.loops.count1 = y.loops.count1 &&& 0x7FFFFFFFFFFFFFFF ∧
          z.pc = y.tvec ∧ z.slot = none ∧
          z.queues = y.queues ∧ z.fflags = y.fflags ∧ z.regs = y.regs ∧ z.vregs = y.vregs ∧ z.kregs = y.kregs ∧
          z.tvec = y.tvec ∧ z.lease = y.lease ∧ z.domain = y.domain ∧ z.stack = y.stack) ∧
      (y.vIdle = true → y.tcause ≠ 0 →
        trap s code value = .next (g.deliverTerminal s.focus s.hereX ⟨19, value, 2, 0⟩)) ∧
      (y.vIdle = true → y.tcause = 0 → y.tvec = 0 →
        trap s code value = .next (g.deliverTerminal s.focus s.hereX ⟨20, value, 2, 0⟩)) ∧
      (y.vIdle = false → trap s code value = .next (s.mapHere (fun y => { y with wait := .vIdle })))) ∧
  (∀ (m : FmtM) (i : Instr) (s : State), MemReady s → (FmtM.addr m s.here).toNat % m.sz.bytes ≠ 0 →
      i ∈ [.ldZeroExtending m, .ldSignExtending m, .st m, .stf m, .waita m] ++ (amoRows m).map (·.2) →
      exec i s = trap s 4 (FmtM.addr m s.here)) ∧
  (∀ (m : FmtM) (s : State) (indexed : Bool) (pre post : List Nat) (e : Nat),
      let ea := FmtM.eaElem m s.here
      let fails (kind : Nat) : Prop := FmtM.active m s.here = pre ++ e :: post ∧ (ea e).toNat % m.sz.bytes ≠ 0 ∧
        ∀ i ∈ pre, (ea i).toNat % m.sz.bytes = 0 ∧ ∃ p t, s.placeOf s.who (ea i) m.sz.bytes kind m.pol = .at p t
      (FmtM.vWait m s.here indexed true = none → fails kindRead →
        exec (if indexed then .vldx m else .vld m) s = trap s 4 (ea e)) ∧
      (FmtM.vWait m s.here indexed false = none → fails kindWrite →
        exec (if indexed then .vstx m else .vst m) s = trap s 4 (ea e)) ∧
      (FmtM.vWait m s.here false false = none → FmtM.active m s.here ≠ [] → (ea 0).toNat % 64 ≠ 0 →
        exec (.vsto m) s = trap s 4 (ea 0))) ∧
  (∀ (m : FmtM) (s : State) (cause : Nat), MemReady s → m.sz ≠ .s16 →
      let ea := FmtM.addr m s.here
      let faults (kind : Nat) (pol : Pol) : Prop := s.placeOf s.who ea m.sz.bytes kind pol = .fault cause
      ea.toNat % m.sz.bytes = 0 →
      (∀ i ∈ [Instr.ldZeroExtending m, .ldSignExtending m], faults kindRead m.pol →
        exec i s = raise s ⟨cause, ea, kindRead, polCode m.pol⟩) ∧
      (faults kindWrite m.pol → exec (.st m) s = raise s ⟨cause, ea, kindWrite, polCode m.pol⟩) ∧
      (∀ p ∈ amoRows m, faults kindRmw .thru → (windowOf ea).any isPeerOrOperand = false →
        exec p.2 s = raise s ⟨cause, ea, kindRmw, polCode .thru⟩)) ∧
  (∀ (s : State) (f : FaultInfo) (a : Activation),
      let y := s.here
      let c := s.focus
      let x := s.hereX
      let t := s.deliver c x f
      let freed : Prop := t.ctx c x = { Ctx.reset with issued := y.issued }
      let saved (reason : Nat) (waits : Cause) (token : Nat) : Saved :=
        { ctx := y.atSave, heldCtx := x, reason, cause := f.cause, waits, faddr := f.addr, finfo := finfoWord f token,
          lclk := (s.core c).lclk, time := s.quartz, order := (s.core c).acceptCount, resumable := false }
      let frame (v : Saved) : Prop :=
        ∃ u : State, u.hbm = s.hbm ∧ t.hbm = (u.kernelWrite c y.frame.toNat (frameBytes v)).hbm
      let entry (token : Nat) : BitVec 256 := (coreEntry c y f).bits s.quartz token 1
      (y.vStopped = true → raise s f = .next t) ∧
      (y.vStopped = false → raise s f = .next (s.mapHere (fun y => { y with wait := .vSettle }))) ∧
      (y.act = some a → y.chunk = Chunk.none → y.stops = [] → (s.slot c a.slot).state = .active → a.drain = false →
        (∀ d, ∀ p ∈ (s.die d).sessions, s.openedBy c a.slot p.2 = false) →
        (isRetryable f.cause = true → s.frameFails c y.frame.toNat = false →
          ∀ n, (s.core c).faultQueue = [] →
            (f.cause = 3 ∨ (s.die (dieOf c)).faultTokens.all (fun p =>
              !(p.2.domain == y.domain && p.2.cause == f.cause && p.2.page == f.addr.toNat / 65536)) = true) →
            n < 1024 → tabGet (s.die (dieOf c)).faultTokens (n + 1) = none →
            (∀ j < n, (tabGet (s.die (dieOf c)).faultTokens (j + 1)).isSome = true) →
            freed ∧ (t.slot c a.slot).state = .suspended ∧ (t.slot c a.slot).saved = some (saved 1 (.fault (n + 1)) (n + 1)) ∧
            t.ringWaits = s.ringWaits ++ [{ ring := (dieOf c).val, entry := entry (n + 1) }] ∧
            frame (saved 1 (.fault (n + 1)) (n + 1))) ∧
        (isRetryable f.cause = true → s.frameFails c y.frame.toNat = true →
          freed ∧ (t.slot c a.slot).state = .idle ∧ (t.slot c a.slot).saved = none ∧
          ∃ b, t.ringWaits = s.ringWaits ++ [{ ring := (dieOf c).val, entry := b }] ∧ bitsOf b 7 0 = 36) ∧
        (isRetryable f.cause = false → y.stack = [] → s.frameFails c y.frame.toNat = false →
          freed ∧ (t.slot c a.slot).state = .idle ∧ (t.slot c a.slot).saved = none ∧ frame (saved 5 .untaken 0) ∧
          ∃ l, t.ringWaits = s.ringWaits ++ { ring := terminalRing y.domain, entry := entry 0 } :: l ∧
            ∀ w ∈ l, w.entry = entry 0 ∧ ∃ v ∈ s.vfs, v.2.domains.contains y.domain = true ∧ w.ring = vfRing v.1) ∧
        (∀ l rest, isRetryable f.cause = false → y.stack = l :: rest →
          (t.ctx c x).act = some a ∧ (t.ctx c x).stack = rest ∧ (t.ctx c x).reg 23 = BitVec.ofInt 64 (-7) ∧
          (t.slot c a.slot).state = .active ∧
          ∃ l, t.ringWaits = s.ringWaits ++ { ring := terminalRing y.domain, entry := entry 0 } :: l ∧
            ∀ w ∈ l, w.entry = entry 0 ∧ ∃ v ∈ s.vfs, v.2.domains.contains y.domain = true ∧ w.ring = vfRing v.1))) ∧
  (∀ (v : Saved) (n : Fin 32),
      let x := v.ctx
      let bs := frameBytes v
      let dword (off : Nat) : Word := leWord ((bs.drop off).take 8)
      (∀ q, (x.queue q).length ≤ 8) → x.redo.length ≤ 32 →
      bs.length = 6144 ∧
      dword 0 = word (1 + v.reason % 16 * 2 ^ 4 + v.cause % 256 * 2 ^ 8 + x.redo.length * 2 ^ 16 + v.heldCtx.val * 2 ^ 24 +
        x.ddepth * 2 ^ 26 + x.origin.toNat * 2 ^ 32 + x.domain.toNat * 2 ^ 48) ∧
      dword 0x8 = x.pc &&& 0x00FFFFFFFFFFFFFC ∧ dword 0x18 = v.faddr ∧ dword 0x20 = v.finfo ∧
      dword (0x40 + 8 * n.val) = x.reg n ∧
      leNat ((bs.drop (0x800 + 128 * n.val)).take 128) = (x.vreg n).toNat)

/-! ### The V pipe: vector, mask and queue instructions (R13, R14, R19 to R21, R166 to R196) -/

namespace Sys2Proof.Claims

/-- The V pipe of the issuing context is empty. -/
def VEmpty (s : State) : Prop := s.here.vq = [] ∧ s.here.op = none

/-- The instruction has taken place at once, its context left as y, and the program goes on. -/
def VDone (i : Instr) (o : FmtA) (s : State) (y : Ctx) : Prop :=
  exec i s = .next (s.mapHere (fun _ => y.retire (FmtA.len o)))

/-- y is x with register d of w-bit elements changed: an active element e < n holds f e, the others are kept or
zeroed; and with the flags fl raised. No other register or special register differs. -/
def VectorSet (x y : Ctx) (o : FmtA) (w n : Nat) (f : Nat → Nat) (fl : BitVec 5) : Prop :=
  let d := o.d.vnum
  (∀ e < n, elem (y.vreg d) w e =
    if (x.mask o.k).getLsbD e then f e else if o.z then 0 else elem (x.vreg d) w e) ∧
  (∀ m, m ≠ d → y.vreg m = x.vreg m) ∧ y.fflags = x.fflags ||| fl ∧
  y.regs = x.regs ∧ y.kregs = x.kregs ∧ y.queues = x.queues ∧ y.pc = x.pc ∧ y.loops = x.loops ∧ y.slot = x.slot

/-- y is x with mask register d changed: bit e < n holds f e, the bits above are zero; flags fl are raised. -/
def MaskSet (x y : Ctx) (o : FmtA) (n : Nat) (f : Nat → Bool) (fl : BitVec 5) : Prop :=
  let d := o.d.knum
  (∀ e < n, (y.mask d).getLsbD e = f e) ∧ (∀ e, n ≤ e → (y.mask d).getLsbD e = false) ∧
  (∀ m, m ≠ d → y.mask m = x.mask m) ∧ y.fflags = x.fflags ||| fl ∧
  y.regs = x.regs ∧ y.vregs = x.vregs ∧ y.queues = x.queues ∧ y.pc = x.pc ∧ y.loops = x.loops ∧ y.slot = x.slot

/-- y is x with entries pushed to queue q and the flags fl raised. -/
def Pushed (x y : Ctx) (q : Fin 8) (vs : List Word) (fl : BitVec 5) : Prop :=
  y.queue q = x.queue q ++ vs ∧ (∀ p, p ≠ q → y.queue p = x.queue p) ∧ y.fflags = x.fflags ||| fl ∧
  y.regs = x.regs ∧ y.vregs = x.vregs ∧ y.kregs = x.kregs ∧ y.pc = x.pc ∧ y.loops = x.loops ∧ y.slot = x.slot

/-- An element of an integer source as w bits, negated where its modifier says so (R169). -/
def vbits (t : Ty) (m : SrcMod) (v : Nat) : BitVec t.width :=
  if m.neg then -(BitVec.ofNat t.width v) else BitVec.ofNat t.width v

/-- An element instruction whose sources are ready: it takes place with element function r. -/
def VecDone (i : Instr) (o : FmtA) (ops : List Opnd) (s : State) (r : (Nat → Nat → Nat) → Nat → Nat × BitVec 5) : Prop :=
  ∀ vs x, VEmpty s → s.here.vsources o.t (word (immBits o.t o.imm)) ops = some (vs, x) →
    ∃ y, VDone i o s y ∧
      VectorSet x y o o.t.width o.t.count (fun e => (r (vsrc vs) e).1)
        (flagsOver (x.activeElems o.k o.t.count) (fun e => (r (vsrc vs) e).2))

/-- An integer element instruction: f on w-bit elements; no flag is raised. -/
def VecInt (i : Instr) (o : FmtA) (ops : List Opnd) (s : State)
    (f : BitVec o.t.width → BitVec o.t.width → BitVec o.t.width → BitVec o.t.width) : Prop :=
  VecDone i o ops s (fun src e =>
    ((f (vbits o.t o.ma (src 0 e)) (vbits o.t o.mb (src 1 e)) (vbits o.t o.mc (src 2 e))).toNat, 0))

/-- A float element instruction: the exact value of f, scaled, rounded once and clamped (R173). -/
def VecFloat (i : Instr) (o : FmtA) (ops : List Opnd) (s : State)
    (f : Machine.Num → Machine.Num → Machine.Num → Machine.Num × BitVec 5) : Prop :=
  VecDone i o ops s (fun src e =>
    let a (m : SrcMod) (j : Nat) := SrcMod.apply m (numOf o.t (src j e))
    let v := f (a o.ma 0) (a o.mb 1) (a o.mc 2)
    finishFloat o.t o.dscale o.clamp v.1 v.2)

/-- A comparison of elements: fi on integers, ff on floats with NV where nv says so (R177). -/
def VecCompare (i : Instr) (o : FmtA) (s : State) (fi : BitVec o.t.width → BitVec o.t.width → Bool)
    (ff nv : Machine.Num → Machine.Num → Bool) : Prop :=
  ∀ vs x, VEmpty s → s.here.vsources o.t (word (immBits o.t o.imm)) [o.a, o.b] = some (vs, x) →
    let num (m : SrcMod) (j e : Nat) := SrcMod.apply m (numOf o.t (vsrc vs j e))
    let res (e : Nat) : Bool :=
      if o.t.isInt then fi (vbits o.t o.ma (vsrc vs 0 e)) (vbits o.t o.mb (vsrc vs 1 e))
      else ff (num o.ma 0 e) (num o.mb 1 e)
    let flag (e : Nat) : BitVec 5 :=
      if o.t.isInt = false ∧ nv (num o.ma 0 e) (num o.mb 1 e) then flagNV else 0
    ∃ y, VDone i o s y ∧
      MaskSet x y o o.t.count
        (fun e => if (x.mask o.k).getLsbD e then res e else if o.z then false else (x.mask o.d.knum).getLsbD e)
        (flagsOver (x.activeElems o.k o.t.count) flag)

/-- A plain value converted to a plain type (R66, R70, R71, R93): an integer to an integer saturates without a flag, a number
to an integer is rounded in the mode and saturated, to a float it is scaled, rounded once and clamped, to m8 it takes the
nearest code. -/
def Converts (src dst : Ty) (rm : Rounding) (o : FmtA) (v : Word) (r : Nat × BitVec 5) : Prop :=
  let x := convSrc src o.ma v
  (src.isInt = true → dst.isInt = true →
    r.1 % 2 ^ dst.width = (saturated dst (intSrc src o.ma v)).toNat % 2 ^ dst.width ∧ r.2 = 0) ∧
  (src.isInt = false → dst.isInt = true →
    ∃ w fl, toInteger dst rm x w fl ∧ r.1 % 2 ^ dst.width = w.toNat % 2 ^ dst.width ∧ r.2 = fl) ∧
  (isPlainFloat dst →
    let q := (fmtOf dst).encode rm (x.scale (dscaleInt o.dscale))
    r.1 = clampBits dst o.clamp q.1 ∧ r.2 = q.2 ||| if x.isSignalling then flagNV else 0) ∧
  (dst = .m8 →
    let q := m8Encode (x.scale (dscaleInt o.dscale))
    r.1 = clampBits .m8 o.clamp q.1 ∧ r.2 = q.2)

/-- The largest finite value of an interchange format, and whether a magnitude rounds to more (R78, R79). -/
def packedMax : Packed → ℚ
  | .e4m3 => 448
  | .e5m2 => 57344
  | .e3m2 => 28
  | .e2m3 => 15 / 2
  | .e2m1 => 6

def Overflows (p : Packed) (a : ℚ) : Prop :=
  match p with
  | .e4m3 => 464 < a
  | .e5m2 => 61440 ≤ a
  | .e3m2 => 30 ≤ a
  | .e2m3 => 31 / 4 ≤ a
  | .e2m1 => 7 ≤ a

/-- A number converted to an interchange format (R79). What rounds beyond the largest value gives that value, or, under
.inf, infinity. -/
def Packs (p : Packed) (keepInf : Bool) (x : Machine.Num) (r : Nat × BitVec 5) : Prop :=
  let f := packedFmt p
  let signed (neg : Bool) (c : Nat) : Nat := if neg then 2 ^ (f.bits - 1) + c else c
  let top : Nat := if keepInf then f.maxCode + 1 else f.maxCode
  (∀ g, x = .nan g → r = match p with
    | .e4m3 => (0x7F, if g then flagNV else 0)
    | .e5m2 => (0x7E, if g then flagNV else 0)
    | _ => (0, flagNV)) ∧
  (∀ n, x = .inf n → r = (signed n top, flagOF ||| flagNX)) ∧
  (∀ q, numVal x = some q →
    (Overflows p |q| → r = (signed (q < 0) top, flagOF ||| flagNX)) ∧
    (¬Overflows p |q| → r.2.getLsbD 2 = false ∧ r.2.getLsbD 4 = false ∧
      ∃ y, numVal (f.decode r.1) = some y ∧ |y| ≤ packedMax p ∧ (r.2.getLsbD 0 = true ↔ y ≠ q) ∧
        ∀ (k : Nat) (z : ℚ), k < 2 ^ f.bits → numVal (f.decode k) = some z →
          |y - q| ≤ |z - q| ∧ (|y - q| = |z - q| → z ≠ y → r.1 % 2 = 0)))

/-- A conversion to an interchange format, or from one (R179): each active element of the packed side. -/
def VecPacks (p : Packed) (keepInf : Bool) (fn : VcvtFn) (o : FmtA) (s : State) : Prop :=
  ∀ vs x, VEmpty s → s.here.vsources o.t (word (immBits o.t o.imm)) [o.a] = some (vs, x) →
    ∃ (r : Nat → Nat × BitVec 5) (y : Ctx), VDone (.vcvt fn o) o s y ∧
      (∀ e, Packs p keepInf (SrcMod.apply o.ma (numOf o.t (vsrc vs 0 e))) (r e)) ∧
      (∀ e < o.t.count, packedElem p (y.vreg o.d.vnum) e =
        if (x.mask o.k).getLsbD e then (r e).1 else if o.z then 0 else packedElem p (x.vreg o.d.vnum) e) ∧
      (∀ m, m ≠ o.d.vnum → y.vreg m = x.vreg m) ∧
      y.fflags = x.fflags ||| flagsOver (x.activeElems o.k o.t.count) (fun e => (r e).2)

/-- A rearrangement: element e of the result is g of the sources and the control operand (R182 to R185). -/
def VecMove (i : Instr) (o : FmtA) (ops : List Opnd) (ctl : Option Opnd) (s : State)
    (g : (Nat → Nat → Nat) → Nat → Nat → Nat) : Prop :=
  ∀ vs x c z, VEmpty s → s.here.vsources o.t (word (immBits o.t o.imm)) ops = some (vs, x) →
    (match ctl with | none => c = 0 ∧ z = x | some b => x.control o.imm b = some (c, z)) →
    ∃ y, VDone i o s y ∧ VectorSet z y o o.t.width o.t.count (g (vsrc vs) c) 0

end Sys2Proof.Claims

/-- VIALU and VIMUL (R169 to R172): element by element, under the mask, with no flag raised. VDOT4 adds four byte
products to each 32-bit lane.

VFALU, VFFMA, VFUNC, VFDIV and VSCAC (R173 to R176): each active element is rounded once and raises its flags;
VSCAC adds the scaled product to the element that D holds. Reciprocals and reciprocal roots stand for the exact ones in
the one rounding, as quotients and roots do; the special values of R175. -/
def Obligations.VectorArithmetic : Prop :=
  (∀ (o : FmtA) (s : State), o.t.isInt = true →
      VecInt (.vadd o) o [o.a, o.b] s (fun a b _ => a + b) ∧
      VecInt (.vsub o) o [o.a, o.b] s (fun a b _ => a - b) ∧
      VecInt (.vand o) o [o.a, o.b] s (fun a b _ => a &&& b) ∧
      VecInt (.vor o) o [o.a, o.b] s (fun a b _ => a ||| b) ∧
      VecInt (.vxor o) o [o.a, o.b] s (fun a b _ => a ^^^ b) ∧
      VecInt (.vshl o) o [o.a, o.b] s (fun a b _ => a <<< (b.toNat % o.t.width)) ∧
      VecInt (.vshr o) o [o.a, o.b] s (fun a b _ => a >>> (b.toNat % o.t.width)) ∧
      VecInt (.vsar o) o [o.a, o.b] s (fun a b _ => a.sshiftRight (b.toNat % o.t.width)) ∧
      VecInt (.vmin o) o [o.a, o.b] s (fun a b _ => if lessThan o.t a b then a else b) ∧
      VecInt (.vmax o) o [o.a, o.b] s (fun a b _ => if lessThan o.t a b then b else a) ∧
      VecInt (.vabsd o) o [o.a, o.b] s (fun a b _ => if lessThan o.t a b then b - a else a - b) ∧
      VecInt (.vmul o) o [o.a, o.b] s (fun a b _ => a * b) ∧
      VecInt (.vmulh o) o [o.a, o.b] s (fun a b _ => mulHigh o.t a b) ∧
      VecInt (.vmadd o) o [o.a, o.b, o.c] s (fun a b c => a * b + c) ∧
      (o.t.width = 8 → ∀ vs x z, VEmpty s → s.here.vsources o.t (word (immBits o.t o.imm)) [o.a, o.b] = some (vs, x) →
        ∀ lane, x.vsource .i32 o.imm.word o.c = some (lane, z) →
        let byte (m : SrcMod) (j e : Nat) : Int :=
          if o.t.isSigned then (vbits o.t m (vsrc vs j e)).toInt else (vbits o.t m (vsrc vs j e)).toNat
        let dot (l : Nat) : Int := ((List.range 4).map (fun j => byte o.ma 0 (4 * l + j) * byte o.mb 1 (4 * l + j))).sum
        ∃ y, VDone (.vdot4 o) o s y ∧
          VectorSet z y o 32 32 (fun l => ((vbits .i32 o.mc (lane l)).setWidth 32 + BitVec.ofInt 32 (dot l)).toNat) 0)) ∧
  (∀ (o : FmtA) (s : State), isPlainFloat o.t →
      VecFloat (.vfadd o) o [o.a, o.b] s (fun a b _ => fAdd a b) ∧
      VecFloat (.vfsub o) o [o.a, o.b] s (fun a b _ => fSub a b) ∧
      VecFloat (.vfmul o) o [o.a, o.b] s (fun a b _ => fMul a b) ∧
      VecFloat (.vfmin o) o [o.a, o.b] s (fun a b _ => fMin a b) ∧
      VecFloat (.vfmax o) o [o.a, o.b] s (fun a b _ => fMax a b) ∧
      VecFloat (.vffma o) o [o.a, o.b, o.c] s (fun a b c => fMulAdd [a, b] c) ∧
      VecFloat (.vrcp o) o [o.a] s (fun a _ _ => fRcp a) ∧
      VecFloat (.vrsq o) o [o.a] s (fun a _ _ => fRsq a) ∧
      VecFloat (.vexp2 o) o [o.a] s (fun a _ _ => fExp2 a) ∧
      VecFloat (.vlog2 o) o [o.a] s (fun a _ _ => fLog2 a) ∧
      VecFloat (.vtanh o) o [o.a] s (fun a _ _ => fTanh a) ∧
      VecFloat (.vdiv o) o [o.a, o.b] s (fun a b _ => fDiv a b) ∧
      VecFloat (.vsqrt o) o [o.a] s (fun a _ _ => fSqrt a) ∧
      (∀ vs x, VEmpty s → s.here.vsources o.t (word (immBits o.t o.imm)) [o.a, o.b, o.c] = some (vs, x) →
        let num (m : SrcMod) (j e : Nat) := SrcMod.apply m (numOf o.t (vsrc vs j e))
        let r (e : Nat) : Nat × BitVec 5 :=
          let v := fMulAdd [num o.ma 0 e, num o.mb 1 e, num o.mc 2 e] (numOf o.t (elem (x.vreg o.d.vnum) o.t.width e))
          finishFloat o.t o.dscale o.clamp v.1 v.2
        ∃ y, VDone (.vscac o) o s y ∧
          VectorSet x y o o.t.width o.t.count (fun e => (r e).1)
            (flagsOver (x.activeElems o.k o.t.count) (fun e => (r e).2)))) ∧
  (∀ (a : Machine.Num) (x : ℚ), numVal a = some x →
      (x ≠ 0 → StandsFor (fRcp a).1 (1 / (x : ℝ)) ∧ (fRcp a).2 = 0) ∧
      (0 < x → StandsFor (fRsq a).1 (1 / Real.sqrt x) ∧ (fRsq a).2 = 0)) ∧
  (∀ (n : Bool) (m : Nat) (e : Int) (g : Bool),
      fRcp (.fin n 0 e) = (.inf n, flagDZ) ∧ (fRcp (.inf n)).1.isZero = true ∧ (fRcp (.inf n)).1.isNeg = n ∧
      (fRcp (.inf n)).2 = 0 ∧
      fRsq (.fin n 0 e) = (.inf n, flagDZ) ∧ (fRsq (.inf false)).1.isZero = true ∧ (fRsq (.inf false)).1.isNeg = false ∧
      (m ≠ 0 → fRsq (.fin true m e) = (.nan false, flagNV)) ∧ fRsq (.inf true) = (.nan false, flagNV) ∧
      numVal (fExp2 (.fin n 0 e)).1 = some 1 ∧ (fExp2 (.fin n 0 e)).2 = 0 ∧
      (fExp2 (.inf true)).1.isZero = true ∧ (fExp2 (.inf true)).1.isNeg = false ∧ fExp2 (.inf false) = (.inf false, 0) ∧
      fLog2 (.fin n 0 e) = (.inf true, flagDZ) ∧ fLog2 (.inf false) = (.inf false, 0) ∧
      (m ≠ 0 → fLog2 (.fin true m e) = (.nan false, flagNV)) ∧ fLog2 (.inf true) = (.nan false, flagNV) ∧
      (fTanh (.fin n 0 e)).1.isZero = true ∧ (fTanh (.fin n 0 e)).1.isNeg = n ∧ (fTanh (.fin n 0 e)).2 = 0 ∧
      numVal (fTanh (.inf n)).1 = some (if n then -1 else 1) ∧ (fTanh (.inf n)).2 = 0 ∧
      ∀ f ∈ [fRcp, fRsq, fExp2, fLog2, fTanh, fSqrt], f (.nan g) = (.nan false, if g then flagNV else 0))

/-- VCMP into a mask register (R177), VSEL by one (R178), and VCVT between plain types, element by element (R180), with the
results of R179: that no element of an integer type is unordered is the model's choice (assumption 103).

VCVT to an interchange format rounds each value once and saturates, or goes to infinity under .inf; out of one it is
exact, before DSCALE (R79, R179).

VPERM, VSHUF, VBCAST, VMOV and VLANE move elements without changing them (R182 to R186). -/
def Obligations.VectorSelection : Prop :=
  (∀ (o : FmtA) (s : State) (dst : Ty) (rm : Rounding),
      (o.d.knum ≠ 0 →
        VecCompare (.vcmpEq o) o s (fun a b => a == b) (fun a b => a.eqv b) anySignalling ∧
        VecCompare (.vcmpNe o) o s (fun a b => a != b) (fun a b => !a.eqv b) anySignalling ∧
        VecCompare (.vcmpLt o) o s (fun a b => lessThan o.t a b) (fun a b => a.lt b) anyNan ∧
        VecCompare (.vcmpLe o) o s (fun a b => !lessThan o.t b a) (fun a b => a.lt b || a.eqv b) anyNan ∧
        VecCompare (.vcmpGt o) o s (fun a b => lessThan o.t b a) (fun a b => b.lt a) anyNan ∧
        VecCompare (.vcmpGe o) o s (fun a b => !lessThan o.t a b) (fun a b => b.lt a || b.eqv a) anyNan ∧
        VecCompare (.vcmpUn o) o s (fun _ _ => false) anyNan anySignalling) ∧
      VecDone (.vsel o) o [o.a, o.b] s (fun src e =>
        (if (s.here.mask o.c.knum).getLsbD e then src 0 e else src 1 e, 0)) ∧
      (∀ vs x, VEmpty s → s.here.vsources o.t (word (immBits o.t o.imm)) [o.a] = some (vs, x) →
        let r (e : Nat) := convert o.t dst rm o.dscale o.clamp o.ma (vsrc vs 0 e)
        let n := 1024 / max o.t.width dst.width
        (∀ e, Converts o.t dst rm o (word (vsrc vs 0 e)) (r e)) ∧
        ∃ y, VDone (.vcvt (.toPlain dst rm) o) o s y ∧
          (∀ e, n ≤ e → elem (y.vreg o.d.vnum) dst.width e = 0) ∧
          (∀ e < n, elem (y.vreg o.d.vnum) dst.width e =
            if (x.mask o.k).getLsbD e then (r e).1 % 2 ^ dst.width else if o.z then 0 else elem (x.vreg o.d.vnum) dst.width e) ∧
          (∀ m, m ≠ o.d.vnum → y.vreg m = x.vreg m) ∧
          y.fflags = x.fflags ||| flagsOver (x.activeElems o.k n) (fun e => (r e).2)) ∧
      (∀ p, VecPacks p false (.toPacked p) o s) ∧ VecPacks .e5m2 true .toE5m2Inf o s ∧
      (∀ p, isPlainFloat o.t → VEmpty s →
        let x := s.here
        let r (e : Nat) : Nat × BitVec 5 := finishFloat o.t o.dscale o.clamp
          (SrcMod.apply o.ma ((packedFmt p).decode (packedElem p (x.vreg o.a.vnum) e))) 0
        ∃ y, VDone (.vcvt (.fromPacked p) o) o s y ∧
          VectorSet x y o o.t.width o.t.count (fun e => (r e).1)
            (flagsOver (x.activeElems o.k o.t.count) (fun e => (r e).2)))) ∧
  (∀ (o : FmtA) (s : State),
      let n := o.t.count
      let cat (src : Nat → Nat → Nat) (i : Nat) : Nat := if i < n then src 0 i else src 1 (i - n)
      VecMove (.vperm o) o [o.a, o.b] none s (fun src _ e => src 0 (src 1 e % n)) ∧
      VecMove (.vshufRot o) o [o.a] (some o.b) s (fun src c e => src 0 ((e + c) % n)) ∧
      VecMove (.vshufSlup o) o [o.a, o.b] (some o.c) s
        (fun src c e => if min c n ≤ e then src 0 (e - min c n) else src 1 (n - min c n + e)) ∧
      VecMove (.vshufSldn o) o [o.a, o.b] (some o.c) s (fun src c e => cat src (e + min c n)) ∧
      VecMove (.vshufIlv o) o [o.a, o.b] none s (fun src _ e => if e % 2 = 0 then src 0 (e / 2) else src 1 ((e - 1) / 2)) ∧
      VecMove (.vshufDilv o) o [o.a, o.b] none s (fun src _ e => cat src (2 * e)) ∧
      ((∀ r, o.a ≠ .r r) → VecMove (.vbcast o) o [o.a] none s (fun src _ e => src 0 e)) ∧
      (∀ r, o.a = .r r → VecMove (.vbcast o) o [o.a] (some o.b) s (fun src i _ => src 0 (i % n))) ∧
      VecMove (.vmov o) o [o.a] none s (fun src _ e => src 0 e) ∧
      (∀ vs x i z, VEmpty s → s.here.vsources o.t (word (immBits o.t o.imm)) [o.a] = some (vs, x) →
        x.control o.imm o.b = some (i, z) →
        (∃ y, VDone (.vlaneIns o) o s y ∧
          (∀ e < n, elem (y.vreg o.d.vnum) o.t.width e =
            if e = i % n then vsrc vs 0 e else elem (x.vreg o.d.vnum) o.t.width e) ∧
          (∀ m, m ≠ o.d.vnum → y.vreg m = x.vreg m) ∧ y.queues = z.queues) ∧
        ((z.queue o.d.qnum).length < 8 →
          ∃ y, VDone (.vlaneExt o) o s y ∧
            Pushed z y o.d.qnum [widen o.t (BitVec.ofNat o.t.width (vsrc vs 0 (i % n)))] 0)))

/-- VRED (R181): where its queue has room, one entry is pushed: the reduction of the active elements, which is the
neutral value where none is active, extended as R16 says; the float forms are rounded once.

KOP, KSET, KQ and KFROMQ (R193 to R196): the bits of the result below the element count, and zeros above; a
count, a test or the bits themselves pushed; a mask taken from one or two entries. -/
def Obligations.VectorReductionsAndMasks : Prop :=
  (∀ (o : FmtA) (s : State), VEmpty s →
      let x := s.here
      let q := o.d.qnum
      let es := (x.activeElems o.k o.t.count).map (fun e => elem (x.vreg o.a.vnum) o.t.width e)
      let bs := es.map (vbits o.t o.ma)
      let ns := es.map (fun e => SrcMod.apply o.ma (numOf o.t e))
      let least : BitVec o.t.width := if o.t.isSigned then BitVec.intMin o.t.width else 0
      let greatest : BitVec o.t.width := if o.t.isSigned then BitVec.intMax o.t.width else BitVec.allOnes o.t.width
      let floats (r : Machine.Num × BitVec 5) : Nat × BitVec 5 := finishFloat o.t o.dscale o.clamp r.1 r.2
      let best (f : Machine.Num → Machine.Num → Machine.Num × BitVec 5) (z : Machine.Num) : Machine.Num × BitVec 5 :=
        (ns.foldl (fun a b => (f a b).1) z, if ns.any Machine.Num.isSignalling then flagNV else 0)
      (x.queue q).length < 8 →
      (o.t.isInt = true →
        (∃ y, VDone (.vredSum o) o s y ∧ Pushed x y q [widen o.t (bs.foldl (· + ·) 0)] 0) ∧
        (∃ y, VDone (.vredMax o) o s y ∧
          Pushed x y q [widen o.t (bs.foldl (fun a b => if lessThan o.t a b then b else a) least)] 0) ∧
        (∃ y, VDone (.vredMin o) o s y ∧
          Pushed x y q [widen o.t (bs.foldl (fun a b => if lessThan o.t b a then b else a) greatest)] 0) ∧
        (∃ y, VDone (.vredAnd o) o s y ∧
          Pushed x y q [widen o.t (bs.foldl (· &&& ·) (BitVec.allOnes o.t.width))] 0) ∧
        (∃ y, VDone (.vredOr o) o s y ∧ Pushed x y q [widen o.t (bs.foldl (· ||| ·) 0)] 0)) ∧
      (o.t.isInt = false →
        (∃ y, VDone (.vredSum o) o s y ∧
          Pushed x y q [word (floats (sumNum ns)).1] (floats (sumNum ns)).2) ∧
        (∃ y, VDone (.vredMax o) o s y ∧
          Pushed x y q [word (floats (best fMax (.inf true))).1] (floats (best fMax (.inf true))).2) ∧
        (∃ y, VDone (.vredMin o) o s y ∧
          Pushed x y q [word (floats (best fMin (.inf false))).1] (floats (best fMin (.inf false))).2))) ∧
  (∀ (o : FmtA) (s : State), VEmpty s →
      let x := s.here
      let n := o.t.count
      let a (e : Nat) : Bool := (x.mask o.a.knum).getLsbD e
      let b (e : Nat) : Bool := (x.mask o.b.knum).getLsbD e
      let set (i : Instr) (f : Nat → Bool) : Prop := ∃ y, VDone i o s y ∧ MaskSet x y o n f 0
      let push (i : Instr) (vs : List Word) : Prop :=
        (x.queue o.c.qnum).length + vs.length ≤ 8 → ∃ y, VDone i o s y ∧ Pushed x y o.c.qnum vs 0
      let count := ((List.range n).filter a).length
      let low (k : Nat) : Word := ((x.mask o.a.knum).extractLsb' k 64)
      (o.d.knum ≠ 0 →
        set (.kand o) (fun e => a e && b e) ∧ set (.kor o) (fun e => a e || b e) ∧
        set (.kxor o) (fun e => a e ^^ b e) ∧ set (.knot o) (fun e => !a e) ∧
        set (.kandn o) (fun e => a e && !b e) ∧ set (.kmov o) a ∧
        set (.kall o) (fun _ => true) ∧ set (.knone o) (fun _ => false) ∧
        (∀ c z, x.control o.imm o.c = some (c, z) →
          ∃ y, VDone (.kfirst o) o s y ∧ MaskSet z y o n (fun e => e < c) 0) ∧
        (n < 128 → ∀ v r, x.queue o.c.qnum = v :: r →
          ∃ y, VDone (.kfromq o) o s y ∧ MaskSet (x.setQueue o.c.qnum r) y o n (fun e => v.getLsbD e) 0) ∧
        (n = 128 → ∀ v w r, x.queue o.c.qnum = v :: w :: r →
          ∃ y, VDone (.kfromq o) o s y ∧
            MaskSet (x.setQueue o.c.qnum r) y o n (fun e => if e < 64 then v.getLsbD e else w.getLsbD (e - 64)) 0)) ∧
      push (.kpop o) [word count] ∧
      push (.kany o) [if 0 < count then 1 else 0] ∧
      push (.kallq o) [if count = n then 1 else 0] ∧
      (n = 128 → push (.ktoq o) [low 0, low 64]) ∧
      (n ≤ 64 → push (.ktoq o) [low 0 &&& word (2 ^ n - 1)]))

/-- Vector loads and stores whose active elements all lie in scratchpads are checked and dispatched (R187 to R190):
the entry at the end of the V queue holds, for a load, each active element at its place, and for a store the places
in element order; no element is active, no access is made. VSTO places its elements in an operand slot its actor has
claimed (R191). The program goes on at once.

When its turn comes in the V pipe, a vector load writes its register under the mask of its dispatch: active
elements the data, the others kept or zeroed (R188); no other vector register changes. A vector store whose places lie in
scratchpads, or for VSTO in operand slots, then writes the active elements of its register to exactly those places, in
element order, so that of two elements at one byte the higher stays; every other byte reads as before.

DISPATCH (R19, R20): a V-pipe instruction whose turn has not come, because others stand before it or a queue holds
it up, takes its place at the end of the V queue and the S pipe goes on; a 33rd stalls. When its turn comes and its
queues are ready it takes place on its context, and while they are not, nothing changes. -/
def Obligations.VectorMemory : Prop :=
  (∀ (m : FmtM) (s : State) (tc : Nat → CoreId) (off : Nat → Nat), MemReady s → s.here.vIdle = true →
      m.sz ≠ .s16 →
      let es := FmtM.active m s.here
      let size := m.sz.bytes
      let ea (e : Nat) : Word := FmtM.eaElem m s.here e
      let r := FmtM.first m s.here
      (∀ i, i = .vld m ∨ i = .vldx m → (∀ e ∈ es, OnSpad s (ea e) size kindRead m.pol (tc e) (off e)) →
        ∃ t d, exec i s = .next t ∧ t.here.pc = (s.here.retire (lenOff m.off)).pc ∧ t.here.regs = s.here.regs ∧
          t.here.vregs = s.here.vregs ∧
          t.here.vq = [FmtM.entry m s.here i r [d] []] ∧
          ∀ e ∈ es, elem d (8 * size) e = spadValue s (tc e) (off e) size) ∧
      (∀ i, i = .vst m ∨ i = .vstx m → (∀ e ∈ es, OnSpad s (ea e) size kindWrite m.pol (tc e) (off e)) →
        ∃ as, exec i s = .next (s.mapHere (fun y => (y.enqueue (FmtM.entry m y i r [] as)).retire (lenOff m.off))) ∧
          as.map (·.place) = es.map (fun e => Place.spad (tc e) (off e)) ∧ as.map (·.size) = es.map (fun _ => size)) ∧
      (let o := (ea 0).toNat - Config.opwBase
       es ≠ [] → (ea 0).toNat % 64 = 0 → Config.opwBase ≤ (ea 0).toNat → o < Config.opndBytes → o % 4096 ≤ 3968 →
        s.claimedHere (o / 4096) = true →
        ∃ as, exec (.vsto m) s =
            .next (s.mapHere (fun y => (y.enqueue (FmtM.entry m y (.vsto m) r [] as)).retire (lenOff m.off))) ∧
          as.map (·.place) = es.map (fun e => Place.operand (o + e * size)))) ∧
  (∀ (m : FmtM) (s : State) (c : CoreId) (x : CtxId) (e : VEntry) (r : List VEntry) (d : VecWord),
      (s.ctx c x).vq = e :: r → e.instr = .vld m ∨ e.instr = .vldx m → e.data = [d] →
      let t := s.vStep c x
      let w := 8 * m.sz.bytes
      (t.ctx c x).vq = r ∧ (∀ n, n ≠ m.d → (t.ctx c x).vreg n = (s.ctx c x).vreg n) ∧
      ∀ i < 128 / m.sz.bytes, elem ((t.ctx c x).vreg m.d) w i =
        if e.mask.getLsbD i then elem d w i else if m.z then 0 else elem ((s.ctx c x).vreg m.d) w i) ∧
  (∀ (m : FmtM) (s : State) (c : CoreId) (x : CtxId) (e : VEntry) (r : List VEntry) (tc : Nat → CoreId) (off : Nat → Nat),
      (s.ctx c x).vq = e :: r → (s.ctx c x).op = none → (s.ctx c x).chunk.active = false → m.sz ≠ .s16 →
      (∀ k, (s.core k).spad.wf = true ∧ (s.core k).opnd.wf = true) →
      let size := m.sz.bytes
      let es := (List.range (128 / size)).filter (fun i => e.mask.getLsbD i)
      let t := s.vStep c x
      let stored (hit : Nat → Bool) (a : Nat) (old : Byte) : Byte :=
        match (es.filter (fun i => hit i && decide (off i ≤ a) && decide (a < off i + size))).getLast? with
        | some i => byteOf (word (elem ((s.ctx c x).vreg m.d) (8 * size) i)) (a - off i)
        | none => old
      let goes : Prop := (t.ctx c x).vq = r ∧ (t.ctx c x).op = none ∧ (t.ctx c x).vregs = (s.ctx c x).vregs ∧ t.hbm = s.hbm
      e.accs.map (·.size) = es.map (fun _ => size) →
      (e.instr = .vst m ∨ e.instr = .vstx m → e.accs.map (·.place) = es.map (fun i => Place.spad (tc i) (off i)) →
        goes ∧ ∀ (k : CoreId) (a : Nat), (t.core k).opnd = (s.core k).opnd ∧
          (t.core k).spad.get a = stored (fun i => tc i == k) a ((s.core k).spad.get a)) ∧
      (e.instr = .vsto m → e.accs.map (·.place) = es.map (fun i => Place.operand (off i)) →
        goes ∧ ∀ (k : CoreId) (a : Nat), (t.core k).spad = (s.core k).spad ∧
          (t.core k).opnd.get a = stored (fun _ => decide (k = c)) a ((s.core k).opnd.get a))) ∧
  (∀ (i : Instr) (f : Effect) (s : State), vEffect i = some f →
      (s.here.vq.length < 32 → (s.here.vq ≠ [] ∨ s.here.op ≠ none ∨ f s.here = none) →
        exec i s = .next (s.mapHere (fun x =>
          Ctx.retire { x with vq := x.vq ++ [⟨x.pc, i, 0, 0, 0, [], []⟩] } i.lengthBytes))) ∧
      (32 ≤ s.here.vq.length → exec i s = .next (s.mapHere (fun x => { x with wait := .vFull }))) ∧
      ∀ (c : CoreId) (x : CtxId) (e : VEntry) (r : List VEntry), (s.ctx c x).vq = e :: r → e.instr = i →
        (∀ z, f (s.ctx c x) = some z → s.vStep c x = s.mapCtx c x (fun _ => { z with vq := r, blocked := 0 })) ∧
        (f (s.ctx c x) = none → s.vStep c x = s))

/-! ### Messages, mailboxes, actors, gates (R197 to R220) -/

/-- MBSTAT answers the state of a mailbox of the executing actor, and bit 63 alone for a mailbox it does not have
(R203). ACTCTL completes in each of its five operations (R204, R205): outside the kernel domain it answers NORIGHT;
for an actor of this core that is present, ENABLE and DISABLE set EN of a mailbox, WEIGHT and CLASS the actor's weight
and class, STATE reads the slot's word. -/
def Obligations.MailboxAndActorControl : Prop :=
  ∀ (rd : Fin 32) (a b : Opnd) (imm : Imm) (v ep w : Word) (x' : Ctx) (s : State),
    (s.here.take imm.word [a] = some ([v], x') → s.here.act = none ∨ 8 ≤ v.toNat →
      ∃ t, exec (.mbstat rd a imm) s = .next t ∧ t.here.reg rd = (if rd = 0 then 0 else 0x8000000000000000)) ∧
    (∀ (act : Activation) (q : Mailbox), s.here.take imm.word [a] = some ([v], x') → s.here.act = some act →
      v.toNat < 8 → (s.slot s.focus act.slot).mboxes[v.toNat]? = some q → rd ≠ 0 → q.waiting.length < 512 →
      ∃ t, exec (.mbstat rd a imm) s = .next t ∧ (t.here.reg rd).toNat % 2 ^ 9 = q.waiting.length ∧
        (t.here.reg rd).getLsbD 15 = q.enabled) ∧
    (s.here.take imm.word [a, b] = some ([ep, w], x') → s.here.domain ≠ 0 →
      ∀ i ∈ [Instr.actctlEnable rd a b imm, .actctlDisable rd a b imm, .actctlWeight rd a b imm, .actctlClass rd a b imm,
          .actctlState rd a b imm],
        exec i s = .next (s.mapHere (fun _ => (x'.setReg rd stNoright).retire (lenImm imm)))) ∧
    (∀ (n : SlotId) (mb : Fin 8) (k : Nat), s.here.take imm.word [a, b] = some ([ep, w], x') → s.here.domain = 0 →
      n ≠ 0 → ep = endpointOf s.focus.val n.val mb.val → rd ≠ 0 →
      let sl := s.slot s.focus n
      sl.state = .idle ∨ sl.state = .active ∨ sl.state = .suspended ∨ sl.state = .evicted →
      (w = 0 → mb.val < sl.mboxes.length → ∃ t, exec (.actctlEnable rd a b imm) s = .next t ∧ t.here.reg rd = 0 ∧
        (t.slot s.focus n).mboxes[mb.val]?.map (·.enabled) = some true) ∧
      (w = 1 → mb.val < sl.mboxes.length → ∃ t, exec (.actctlDisable rd a b imm) s = .next t ∧ t.here.reg rd = 0 ∧
        (t.slot s.focus n).mboxes[mb.val]?.map (·.enabled) = some false) ∧
      (1 ≤ k → k ≤ 15 → w = word (2 + 256 * k) → ∃ t, exec (.actctlWeight rd a b imm) s = .next t ∧
        t.here.reg rd = 0 ∧ (t.slot s.focus n).weight = k ∧ (t.slot s.focus n).cls = sl.cls) ∧
      (1 ≤ k → k ≤ 3 → w = word (3 + 256 * k) → ∃ t, exec (.actctlClass rd a b imm) s = .next t ∧
        t.here.reg rd = 0 ∧ (t.slot s.focus n).cls = k ∧ (t.slot s.focus n).weight = sl.weight) ∧
      (w = 4 → ∃ t, exec (.actctlState rd a b imm) s = .next t ∧ t.here.reg rd = s.slotWordOf s.focus n))

/-- GCALL completes (R209 to R211): with the descriptor of its gate cached and its checks passed, one step enters the
callee: its domain is on top of the stack, the window registers are kept and all others zero, k0 all ones, queues
empty, loops disarmed, FFLAGS clear, TVEC the gate's, and the registers of the caller are put away; a level record that
cannot be written ends the activation (R344). A check that fails answers its status in s23, and the next instruction follows; a gate that is not cached is waited for, and its
fetch caches the descriptor that the gate table holds.

GRET returns to the caller (R215, R357): the window registers are kept, s23 is 0, every other register comes back as the
level record in the save area holds it, the domain and the stack are the caller's and the program goes on after the
GCALL, another context first (R136); to a killed caller, or in a grace period to the origin, the activation ends (R219);
at depth 0 GRET is ILLEGAL. GINFO reads a word of a level, and 0 for a level that is not there (R216). -/
def Obligations.Gates : Prop :=
  (∀ (g : GateName) (id len : Nat) (d : BitVec 512) (s : State),
      gateNamed g s.here = (some id, len) → id ≠ 0 → id ≠ 0xFFFF → s.here.vIdle = true → s.here.optimistic = false →
      (s.hereCore.guard.gates.find? (·.id == id) = some ⟨id, d⟩ →
        (s.gateStatus d = 0 → s.levelFails = true →
          exec (.gcall g) s = .next
            ((s.mapCore s.focus (fun k => { k with guard := k.guard.useGate id })).frameLost s.focus s.hereX)) ∧
        (s.gateStatus d = 0 → s.levelFails = false →
          ∃ t l, exec (.gcall g) s = .next t ∧ t.here.stack = l :: s.here.stack ∧ t.here.domain = gateCallee d ∧
            t.here.pc = gateEntryPc d ∧ l.caller = s.here.domain ∧ l.ret = s.here.pc + word len ∧
            l.saved.regs = s.here.regs ∧ l.saved.vregs = s.here.vregs ∧ l.saved.kregs = s.here.kregs ∧
            l.saved.queues = s.here.queues ∧ l.saved.loops = s.here.loops ∧ l.saved.fflags = s.here.fflags ∧
            (∀ i : Fin 32, t.here.regs[i] =
              if 16 ≤ i.val ∧ i.val < 16 + gateNs d then s.here.regs[i] else 0) ∧
            (∀ i : Fin 32, t.here.vregs[i] =
              if 24 ≤ i.val ∧ i.val < 24 + gateNv d then s.here.vregs[i] else 0) ∧
            t.here.kregs = kregsZero ∧ (∀ q, t.here.queue q = []) ∧ t.here.loops = .zero ∧ t.here.fflags = 0 ∧
            t.here.tvec = gateTrapv d ∧ t.here.tcause = 0 ∧ t.here.lease = 2048 ∧
            (tabGet t.hereCore.guard.gateCounts id).getD 0 = (tabGet s.hereCore.guard.gateCounts id).getD 0 + 1) ∧
        (s.gateStatus d ≠ 0 →
          ∃ t, exec (.gcall g) s = .next t ∧ t.here.reg 23 = BitVec.ofInt 64 (s.gateStatus d) ∧
            t.here.domain = s.here.domain ∧ t.here.stack = s.here.stack ∧ t.here.pc = (s.here.retire len).pc)) ∧
      (s.hereCore.guard.gates.find? (·.id == id) = none →
        exec (.gcall g) s = .next (s.mapHere (fun y => { y with wait := .gate id }))) ∧
      (∀ (c : CoreId) (x : CtxId), s.arg = .nums c.val x.val 0 → (s.ctx c x).wait = .gate id →
        ∃ t, exec .gateDescriptorFetch s = .next t ∧ (t.ctx c x).wait = .run ∧
          (t.core c).guard.gates.head? =
            some ⟨id, BitVec.ofNat 512 (leNat (s.kernelRead c (s.gateBase + 64 * id) 64))⟩)) ∧
  (∀ (s : State) (l : Level) (r : List Level) (rd : Fin 32) (a : Opnd) (w : Fin 4) (imm : Imm) (v : Word) (x' : Ctx),
      (s.here.stack = l :: r → s.here.vIdle = true →
        let bs := s.kernelRead s.focus (s.here.frame.toNat + 6144 * s.here.stack.length) 6144
        let at_ (off : Nat) : Word := leWord ((bs.drop off).take 8)
        let saved := (s.levelRecord s.focus s.here s.here.stack.length l).saved
        let ends := s.killed s.focus l.caller = true ∨ (s.here.graceEnd.isSome = true ∧ l.caller = s.here.origin)
        (ends → exec .gret s = .next (s.terminate s.focus s.hereX)) ∧
        (¬ends →
          ∃ t, exec .gret s = .next t ∧ t.here.stack = r ∧ t.here.domain = l.caller ∧ t.here.pc = l.ret ∧
            t.here.reg 23 = 0 ∧ t.here.wait = .gateMove ∧
            (∀ i : Fin 32, i ≠ 23 → t.here.regs[i] =
              if 16 ≤ i.val ∧ i.val < 16 + l.ns then s.here.regs[i] else at_ (0x40 + 8 * i.val)) ∧
            (∀ i : Fin 32, t.here.vregs[i] =
              if 24 ≤ i.val ∧ i.val < 24 + l.nv then s.here.vregs[i]
              else BitVec.ofNat 1024 (leNat ((bs.drop (0x800 + 128 * i.val)).take 128))) ∧
            t.here.fflags = (at_ 0x3C8).truncate 5 ∧ t.here.lease = at_ 0x3D0 ∧
            t.here.tvec = at_ 0x3D8 &&& 0x00FFFFFFFFFFFFFC ∧
            t.here.kregs = saved.kregs ∧ t.here.queues = saved.queues ∧ t.here.loops = saved.loops)) ∧
      (s.here.stack = [] → exec .gret s = trap s 1 (firstDword .gret)) ∧
      (s.here.take imm.word [a] = some ([v], x') → rd ≠ 0 →
        (v = 0 ∨ s.here.stack.length < v.toNat →
          ∃ t, exec (.ginfo rd a w imm) s = .next t ∧ t.here.reg rd = 0) ∧
        (∀ l, 1 ≤ v.toNat → v.toNat ≤ s.here.stack.length → s.here.stack[s.here.stack.length - v.toNat]? = some l →
          (w = 1 → s.here.domain = l.caller) →
          ∃ t, exec (.ginfo rd a w imm) s = .next t ∧
            t.here.reg rd = ginfoWord l (8 ≤ s.here.stack.length - v.toNat) w.val)))

/-! ### Copies, operand slots, accumulators, barriers, clock requests (R297 to R313, R332 to R341) -/

namespace Sys2Proof.Claims

/-- An instruction of len bytes completes with v in register rd and the pops that left x'. -/
def Answers (i : Instr) (len : Nat) (rd : Fin 32) (v : Word) (x' : Ctx) (s : State) : Prop :=
  ∃ t, exec i s = .next t ∧ t.here.reg rd = (if rd = 0 then 0 else v) ∧
    (∀ n, n ≠ rd → t.here.reg n = s.here.reg n) ∧ t.here.queues = x'.queues ∧ t.here.fflags = s.here.fflags ∧
    t.here.pc = (s.here.retire len).pc

end Sys2Proof.Claims

/-- CPY and CPYT complete (R297, R332, R333): a request that R298 refuses answers BADCOPY (that ARRIVE with bits of VALUE
above its number breaks its row is the model's choice, assumption 59); another takes a free entry
of the engine with its four words, the domain and the actor, at the end of the FIFO and in the open set of copies, and
answers its handle; with no entry free CPYT answers BUSY and CPY waits. In an atomic chunk a request that is not refused is
held with the chunk's other work and answers 0; a ninth piece of work overflows the chunk (R201, R262). CSTAT reads the entry of a
handle, and STATE 3 for a handle of no entry or of another actor's copy (R336).

CSEAL and CWAIT complete (R302, R334, R335): CSEAL closes the open set of copies as the next batch, and answers 0
when it is empty; CWAIT answers how many batches have failed once no more than its operand are unfinished, and until
then waits; in an atomic chunk it aborts the chunk (R266). -/
def Obligations.CopyInstructions : Prop :=
  (∀ (rd ra : Fin 32) (i : Instr) (s : State), i = .cpy rd ra ∨ i = .cpyt rd ra →
      let x := s.here
      let w (j : Nat) : Word := x.reg (Fin.ofNat 32 (ra.val + j))
      x.memWait = none →
      (s.hostOut = false → copyBroken (w 0) (w 1) (w 2) (w 3) = true → Answers i 8 rd 11 x s) ∧
      (s.hostOut = false → copyBroken (w 0) (w 1) (w 2) (w 3) = false → x.optimistic = true →
        (x.chunk.held.length < 8 → Answers i 8 rd 0 x s ∧
          ∃ t, exec i s = .next t ∧ t.here.chunk.held = x.chunk.held ++ [.copy (w 0) (w 1) (w 2) (w 3)]) ∧
        (8 ≤ x.chunk.held.length → exec i s = .next (s.abortChunk s.focus s.hereX))) ∧
      (s.hostOut = false → copyBroken (w 0) (w 1) (w 2) (w 3) = false → x.optimistic = false →
        (∀ (e : Fin 128) (a : Activation), s.hereCore.freeCopy = some e → x.act = some a →
          ∃ t v, exec i s = .next t ∧ t.hereCore.copies[e] = some v ∧ v.w0 = w 0 ∧ v.w1 = w 1 ∧ v.w2 = w 2 ∧
            v.w3 = w 3 ∧ v.domain = x.domain ∧ v.slot = a.slot ∧
            v.actor = (s.slot s.focus a.slot).actor ∧ v.state = .queued ∧ v.prog = 0 ∧ v.num ≠ 0 ∧
            t.hereCore.fifo = s.hereCore.fifo ++ [e] ∧
            t.here.batches.openSet = x.batches.openSet ++ [s.focus.val * 2 ^ 32 + v.num] ∧
            t.here.reg rd = (if rd = 0 then 0 else word (v.num * 2 ^ 16 + e.val * 2 ^ 8)) ∧
            t.here.pc = (x.retire 8).pc) ∧
        (s.hereCore.freeCopy = none →
          Answers (.cpyt rd ra) 8 rd 1 x s ∧
          exec (.cpy rd ra) s = .next (s.mapHere (fun y => { y with wait := .stall })))) ∧
      (∀ (e : Fin 128) (a : Activation) (n : Nat), x.act = some a → n < 2 ^ 32 → x.reg ra = word (n * 2 ^ 16 + e.val * 2 ^ 8) →
        (∀ v : Copy, s.hereCore.copies[e] = some v → v.num ≠ n ∨ v.actor ≠ (s.slot s.focus a.slot).actor) →
        Answers (.cstat rd ra) 8 rd 0xC000000000000000 x s) ∧
      (∀ (e : Fin 128) (a : Activation) (v : Copy), x.act = some a → s.hereCore.copies[e] = some v →
        v.actor = (s.slot s.focus a.slot).actor → v.num < 2 ^ 32 →
        x.reg ra = word (v.num * 2 ^ 16 + e.val * 2 ^ 8) → v.prog < 2 ^ 32 → v.status < 2 ^ 14 →
        Answers (.cstat rd ra) 8 rd
          (match v.state with
            | .ended => word (2 * 2 ^ 62 + v.status * 2 ^ 48 + v.prog)
            | .stopped _ _ _ => word (2 ^ 62 + v.prog)
            | _ => word v.prog) x s)) ∧
  (∀ (rd : Fin 32) (a : Opnd) (imm : Imm) (v : Word) (x' : Ctx) (s : State),
      let x := s.here
      (x.batches.openSet = [] → Answers (.cseal rd) 8 rd 0 x s) ∧
      (x.batches.openSet ≠ [] → x.batches.unfinished.length < 16 →
        Answers (.cseal rd) 8 rd (word x.batches.next) x s ∧
        ∃ t, exec (.cseal rd) s = .next t ∧ t.here.batches.openSet = [] ∧ t.here.batches.next = x.batches.next + 1) ∧
      (x.batches.openSet ≠ [] → 16 ≤ x.batches.unfinished.length →
        exec (.cseal rd) s = .next (s.mapHere (fun y => { y with wait := .batch }))) ∧
      (x.optimistic = true → exec (.cwait rd a imm) s = .next (s.abortChunk s.focus s.hereX)) ∧
      (x.optimistic = false → x.take imm.word [a] = some ([v], x') →
        (x.batches.unfinished.length ≤ v.toNat →
          Answers (.cwait rd a imm) (lenImm imm) rd (word x.batches.failed) x' s ∧
          ∃ t, exec (.cwait rd a imm) s = .next t ∧ t.here.batches = { x.batches with failed := 0 }) ∧
        (v.toNat < x.batches.unfinished.length →
          exec (.cwait rd a imm) s = .next (s.mapHere (fun y => { y with wait := .batch })))))

/-- SCLAIM and SREL complete (R306, R337): inside a gate NORIGHT, outside the 48 slots SRANGE; SCLAIM takes every slot
of its range for the actor, or none where another holds one, and waits for slots that a destroyed actor has yet to give
up; SREL frees the actor's own and counts them, and their bytes are zero; it waits while one is in use.

AREAD and ASTAT complete (R308, R338, R339): AREAD reads a row of an accumulator of the executing domain and the K steps
done, and in its turn in the V pipe writes the row to two vector registers; an accumulator of another domain reads as zeros.
That QDEPTH of ASTAT counts the queue without the running command is the model's choice (assumption 59). -/
def Obligations.MatrixInstructions : Prop :=
  (∀ (rd : Fin 32) (a : Opnd) (count : BitVec 6) (imm : Imm) (f : Word) (x' : Ctx) (act : Activation) (s : State),
      s.here.take imm.word [a] = some ([f], x') → s.here.act = some act →
      let len := lenImm imm
      let range (n : Nat) : Prop := f.toNat ≤ n ∧ n < f.toNat + count.toNat
      let me := (s.slot s.focus act.slot).actor
      let gone (k : Claim) : Prop := s.hereCore.actorGone k.actor = true
      let mine (n : Nat) : Prop := ∃ k, tabGet s.hereCore.claims n = some k ∧ k.actor = me
      (∀ i, i = .sclaim rd a count imm ∨ i = .srel rd a count imm →
        (s.here.stack ≠ [] → Answers i len rd 4 x' s) ∧
        (s.here.stack = [] → count = 0 ∨ 48 < f.toNat + count.toNat → Answers i len rd 14 x' s)) ∧
      (s.here.stack = [] → count ≠ 0 → f.toNat + count.toNat ≤ 48 →
        ((∃ n k, range n ∧ tabGet s.hereCore.claims n = some k ∧ k.actor ≠ me ∧ ¬gone k) →
          Answers (.sclaim rd a count imm) len rd 13 x' s) ∧
        ((∀ n k, range n → tabGet s.hereCore.claims n = some k → k.actor = me ∨ gone k) →
          (∃ n k, range n ∧ tabGet s.hereCore.claims n = some k ∧ gone k) →
          exec (.sclaim rd a count imm) s = .next (s.mapHere (fun y => { y with wait := .stall }))) ∧
        ((∀ n k, range n → tabGet s.hereCore.claims n = some k → k.actor = me ∧ ¬gone k) →
          Answers (.sclaim rd a count imm) len rd 0 x' s ∧
          ∃ t, exec (.sclaim rd a count imm) s = .next t ∧
            (∀ n, range n →
              tabGet t.hereCore.claims n = some { actor := me, slot := act.slot, domain := (s.slot s.focus act.slot).domain }) ∧
            (∀ n, ¬range n → tabGet t.hereCore.claims n = tabGet s.hereCore.claims n)) ∧
        ((∃ n, range n ∧ mine n ∧ s.slotInUse s.focus n = true) →
          exec (.srel rd a count imm) s = .next (s.mapHere (fun y => { y with wait := .stall }))) ∧
        ((∀ n, range n → mine n → s.slotInUse s.focus n = false) →
          ∃ t k, exec (.srel rd a count imm) s = .next t ∧ Answers (.srel rd a count imm) len rd (word k) x' s ∧
            k = ((List.range 48).filter (fun n =>
              f.toNat ≤ n && n < f.toNat + count.toNat &&
                (tabGet s.hereCore.claims n).any (·.actor == me))).length ∧
            (∀ n, range n → mine n → tabGet t.hereCore.claims n = none ∧
              ∀ j < 4096, t.hereCore.opnd.get (4096 * n + j) = 0) ∧
            (∀ n, ¬(range n ∧ mine n) → tabGet t.hereCore.claims n = tabGet s.hereCore.claims n)))) ∧
  (∀ (vd rc rd : Fin 32) (acc : Fin 4) (a : Opnd) (v : Word) (x' : Ctx) (s : State),
      let m := s.hereCore.matrix
      let k := m.accs[acc]
      let mine := k.owner = s.here.domain
      let at_ (j : Nat) : Nat := if mine then ((tabGet k.data (64 * (v.toNat % 64) + j)).getD 0).toNat else 0
      (s.here.vq.length < 32 → s.here.take 0 [a] = some ([v], x') →
        ∃ t q, exec (.aread vd rc acc a) s = .next t ∧ t.here.vq = s.here.vq ++ [q] ∧ t.here.vregs = s.here.vregs ∧
          t.here.reg rc = (if rc = 0 then 0 else if mine then word k.steps else 0) ∧
          t.here.queues = x'.queues ∧ t.here.pc = (s.here.retire 8).pc ∧
          ∀ (u : State) (c : CoreId) (x : CtxId) (r : List VEntry), (u.ctx c x).vq = q :: r →
            let y := (u.vStep c x).ctx c x
            y.vq = r ∧ y.regs = (u.ctx c x).regs ∧
            (∀ j < 32, elem (y.vreg vd) 32 j = at_ j ∧ elem (y.vreg (nextReg vd)) 32 j = at_ (32 + j)) ∧
            (∀ n, n ≠ vd → n ≠ nextReg vd → y.vreg n = (u.ctx c x).vreg n)) ∧
      (32 ≤ s.here.vq.length → exec (.aread vd rc acc a) s = .next (s.mapHere (fun y => { y with wait := .vFull }))) ∧
      (¬mine ∨ k.owner = 0xFFFF → Answers (.astat rd acc) 8 rd 0xFFFF000000000000 s.here s) ∧
      (mine → k.owner ≠ 0xFFFF → ∃ w, Answers (.astat rd acc) 8 rd w s.here s ∧
        w.toNat / 2 ^ 48 = k.owner.toNat ∧ w.toNat / 2 ^ 40 % 256 = k.steps % 256 ∧
        w.toNat / 2 ^ 24 % 256 = m.queue.length % 256 ∧
        (m.drains = [] → m.running = none → m.queue = [] → w.toNat % 2 ^ 24 = 64 * 2 ^ 16 + 1)))

/-- BINIT, BARR and BSTAT (R303, R304, R340). As part of an atomic chunk whose core owns the barrier's words each
completes in one step: BINIT starts a new generation with a count, BARR arrives and answers the phase, or all ones for
an old generation; BSTAT reads a doubleword, in a chunk or not. Outside a chunk BINIT and BARR send one atomic operation
to the barrier's home. A barrier is 16 bytes, aligned.

BWAIT (R305, R340): where the barrier decides at once, BWAIT completes with 0 for the phase reached, 1 for an old
generation, 2 for a poisoned one; else its activation waits, registered at the barrier, with the deadline of its
timeout; the event BWAIT TIMEOUT ends that wait with 3. -/
def Obligations.Barriers : Prop :=
  (∀ (rd : Fin 32) (a b : Opnd) (imm : Imm) (h : Fin 2) (ea v : Word) (x' : Ctx) (s : State) (pa key : Nat)
      (home : HomeKind) (pol : Pol) (e : Option TlbEntry),
      s.here.memWait = none → s.myPosted = [] → home = .thisDie ∨ home = .otherDie → pa / 128 < 2 ^ 45 →
      pa % 16 = 0 → ea.toNat % 16 = 0 →
      let l := s.l1Line s.focus (pa / 128)
      let d0 := lineWord l.data (pa % 128 / 8)
      let d1 := lineWord l.data (pa % 128 / 8 + 1)
      let owns := l.valid ≠ 0 ∧ l.owned &&& wordMask (pa % 128) 16 = wordMask (pa % 128) 16
      let fresh := s.here.chunk.active = true ∧ s.here.chunk.serial = false ∧ s.here.chunk.reads = [] ∧
        s.here.chunk.writes = [] ∧ s.here.chunk.log = [] ∧ s.hereCore.buffered = []
      (s.here.take 0 [a] = some ([ea], x') → s.here.chunk.active = false → owns →
        s.placeOf s.who (ea + word (8 * h.val)) 8 kindRead .thru = .at (.memory (pa + 8 * h.val) home key pol) e →
        Answers (.bstat rd a h) 8 rd (if h = 0 then d0 else d1) x' s) ∧
      (s.placeOf s.who ea 8 kindRmw .thru = .at (.memory pa home key pol) e →
        s.placeOf s.who (ea + 8) 8 kindRmw .thru = .at (.memory (pa + 8) home key pol) e →
        (s.here.take imm.word [a, b] = some ([ea, v], x') →
          (fresh → owns →
            Answers (.binit rd a b imm) (lenImm imm) rd (barrierInit d0 d1 (v.truncate 32)).1 x' s) ∧
          (s.here.optimistic = false → s.here.chunk.active = false → (s.hereCore.timelost = none) →
            ∃ t p, exec (.binit rd a b imm) s = .next t ∧ t.here.wait = .memory ∧ t.here.pc = s.here.pc ∧
              p.op = some (.binit (pa % 128) (v.truncate 32)) ∧ p.line = pa / 128 ∧ p.waiter = .ctx s.focus s.hereX ∧
              t.pending = s.pending ++
                [⟨agentCore s.focus, unitAgent (pa / 128) (unitOf s.focus (pa / 128)), ⟨.amoMessage, .proto p⟩⟩])) ∧
        (s.here.take 0 [a, b] = some ([ea, v], x') →
          (fresh → owns →
            Answers (.barr rd a b) 8 rd
              (match barrierArrive d0 d1 (v.truncate 16) false with
                | some (_, _, phase) => phase
                | none => BitVec.allOnes 64) x' s) ∧
          (s.here.optimistic = false → s.here.chunk.active = false → (s.hereCore.timelost = none) →
            ∃ t p, exec (.barr rd a b) s = .next t ∧ t.here.wait = .memory ∧ t.here.pc = s.here.pc ∧
              p.line = pa / 128 ∧ p.waiter = .ctx s.focus s.hereX ∧
              (∃ c n, p.op = some (.arrive (pa % 128) (v.truncate 16) false ea s.here.domain c n 0 0)) ∧
              t.pending = s.pending ++
                [⟨agentCore s.focus, unitAgent (pa / 128) (unitOf s.focus (pa / 128)), ⟨.amoMessage, .proto p⟩⟩]))) ∧
      -- the layout of a barrier (R303): generation, remaining count, phase and count
      (∀ n : BitVec 32, ((barrierInit d0 d1 n).1.toNat / 2 ^ 32 % 65536 = (d0.toNat / 2 ^ 32 + 1) % 65536 ∧
        (barrierInit d0 d1 n).1.toNat % 2 ^ 32 = n.toNat ∧ d0.toNat / 2 ^ 49 = (barrierInit d0 d1 n).1.toNat / 2 ^ 49 ∧
        (barrierInit d0 d1 n).1.toNat / 2 ^ 48 % 2 = 0)) ∧
      (∀ g : BitVec 16, d0.toNat / 2 ^ 32 % 65536 = g.toNat →
        ∃ w0 w1, barrierArrive d0 d1 g false = some (w0, w1, word ((d1.toNat / 2 ^ 32 + 1) % 2 ^ 32)) ∧
          (d0.toNat % 2 ^ 32 ≤ 1 → w0.toNat % 2 ^ 32 = d1.toNat % 2 ^ 32 ∧
            w1.toNat / 2 ^ 32 = (d1.toNat / 2 ^ 32 + 1) % 2 ^ 32) ∧
          (1 < d0.toNat % 2 ^ 32 → w0.toNat % 2 ^ 32 = d0.toNat % 2 ^ 32 - 1 ∧ w1 = d1))) ∧
  (∀ (rd : Fin 32) (a b : Opnd) (timeout : BitVec 16) (imm : Imm) (ea g : Word) (x' : Ctx) (s : State) (pa key : Nat)
      (home : HomeKind) (pol : Pol) (e : Option TlbEntry),
      (s.here.chunk.active = false → s.here.memWait = none → s.here.take imm.word [a, b] = some ([ea, g], x') →
        ea.toNat % 16 = 0 → home = .thisDie ∨ home = .otherDie →
        s.placeOf s.who ea 8 kindRead .thru = .at (.memory pa home key pol) e →
        (∀ w ∈ s.bars, w.who ≠ .ctx s.focus s.hereX) → s.here.deadline = none →
        let words := s.barrierWords pa
        let gen := words.1.toNat / 2 ^ 32 % 65536
        let poisoned := words.1.getLsbD 48
        let ahead := (words.2.toNat / 2 ^ 32 + 2 ^ 32 - g.toNat / 2 ^ 16 % 2 ^ 32) % 2 ^ 32
        (gen ≠ g.toNat % 65536 → Answers (.bwait rd a b timeout imm) (lenImm imm) rd 1 x' s) ∧
        (gen = g.toNat % 65536 → poisoned = true → Answers (.bwait rd a b timeout imm) (lenImm imm) rd 2 x' s) ∧
        (gen = g.toNat % 65536 → poisoned = false → ahead < 2 ^ 31 →
          Answers (.bwait rd a b timeout imm) (lenImm imm) rd 0 x' s) ∧
        (gen = g.toNat % 65536 → poisoned = false → 2 ^ 31 ≤ ahead →
          ∃ t, exec (.bwait rd a b timeout imm) s = .next t ∧ t.here.pc = s.here.pc ∧ t.here.wait = .wake ∧
            t.here.deadline = (if timeout = 0 then none else some (s.quartz + timeout.toNat * 1000)) ∧
            t.waiterEnd (.ctx s.focus s.hereX) = none ∧
            ∃ w ∈ t.bars, w.who = .ctx s.focus s.hereX ∧ w.pa = pa)) ∧
      (∀ (c : CoreId) (x : CtxId) (w : BarWait) (t : Nat), s.arg = .nums c.val x.val 0 → (s.ctx c x).wait = .wake →
        (s.ctx c x).deadline = some t → t ≤ s.quartz → w ∈ s.bars → w.who = .ctx c x → w.judged = none →
        ∃ u, exec .bwaitTimeout s = .next u ∧ { w with judged := some (3, 0) } ∈ u.bars))

/-! ### Device events: messages, the scheduler (R117 to R146) -/

namespace Sys2Proof.Claims

/-- The message an event brings to core c. -/
def Brings (s : State) (c : CoreId) (m : Msg) : Prop := s.arg = .msg m ∧ coreOf m.core = c

/-- s with the receiver's answer a on its way from core c to entry e of core f's send unit. -/
def withAnswerTo (s : State) (c f : CoreId) (e : Fin 8) (a : Answer) : State :=
  { s with pending := s.pending ++ [⟨agentCore c, agentCore f, ⟨.messageAnswer, .answer f e a⟩⟩] }

/-- A message with a tag and a payload is on its way to the core of an endpoint of this device. -/
def Replied (t : State) (ep : Word) (tag : Nat) (payload : List Word) : Prop :=
  ∃ f ∈ t.pending, ∃ r : Msg, f.ev = ⟨.messageArrival, .msg r⟩ ∧ f.dst = agentCore (coreOf (bitsOf ep 35 25)) ∧
    r.tag = BitVec.ofNat 8 tag ∧ r.payload = payload

end Sys2Proof.Claims

/-- MESSAGE ARRIVAL at an actor (R131): the checks of the receiver in their order, each with its answer and no other
effect; a message that passes them enters its mailbox as its newest, and takes a slot of the core's store. -/
def Obligations.MessageArrives : Prop :=
  ∀ (s : State) (c f : CoreId) (e : Fin 8) (m : Msg), Brings s c m → m.src = .sendUnit f e → 1 ≤ m.port → m.port ≤ 15 →
    let n := slotOf m.port
    let sl := s.slot c n
    let refused (a : Answer) : Prop := exec .messageArrival s = .next (withAnswerTo s c f e a)
    let present := sl.state = .idle ∨ sl.state = .active ∨ sl.state = .suspended
    (sl.state = .free ∨ sl.state = .dying → refused (.status 5)) ∧
    (sl.state = .moved → refused (.moved (sl.movedTo ||| word (m.mbox * 2 ^ 17)))) ∧
    (present → sl.mboxes[m.mbox]? = none → refused (.status 6)) ∧
    (∀ b, present → sl.mboxes[m.mbox]? = some b →
      let admitted := (s.core c).guard.admitted m n
      let caps := ∀ i < 7, b.hmask.testBit i = true → (s.core c).guard.holds m.domain (m.dword i) = true
      let tagOk := b.tagOf = 0 ∨ m.tag.toNat = b.tagOf
      (admitted = false → refused (.status 4)) ∧
      (admitted = true → m.payload.length ≠ b.plen → refused (.status 7)) ∧
      (admitted = true → m.payload.length = b.plen → ¬tagOk → refused (.status 8)) ∧
      (admitted = true → m.payload.length = b.plen → tagOk → ¬caps → refused (.status 9)) ∧
      (admitted = true → m.payload.length = b.plen → tagOk → caps → sl.overflow = none →
        (fullFor (s.core c) b m.domain = true → refused .full) ∧
        (fullFor (s.core c) b m.domain = false →
          ∃ t order, exec .messageArrival s = .next t ∧
            (t.slot c n).mboxes[m.mbox]? = some { b with waiting := b.waiting ++ [⟨m, order⟩] } ∧
            (t.core c).storeUsed = (s.core c).storeUsed + 1 ∧
            t.pending = (withAnswerTo s c f e .accepted).pending)))

/-- SEND and SENDT complete (R198 to R201): a message whose checks fail ends at once with its status in D; one that
passes is taken by a free entry of the send unit, with SEQ, the sender's domain and the payload registers, leaves for
its core where no earlier message to that core is in flight, and its answer is the status in D; with no entry free a SEND
waits; SENDT takes no entry and answers BUSY while none is free, or while a message
to that core is held for retry (one whose retry is on its way does not count, the model's choice: assumption 91). In an
atomic chunk both answer 0 and the chunk holds the message, a ninth overflowing it.

The send unit (R137, R138, R201, R377): an answer ends its message and reaches the activation that waits for it;
after a full one a SEND is held for retry, and a SENDT ends with BUSY; a held message goes out again after 2 µs; a message to
another device that stays unanswered for 10 ms is withdrawn with NOACTOR. -/
def Obligations.Sending : Prop :=
  (∀ (rd rb : Fin 32) (a : Opnd) (tag : BitVec 8) (len : Fin 8) (imm : Imm) (ep : Word) (x' : Ctx) (s : State),
      s.here.take imm.word [a] = some ([ep], x') → s.here.memWait = none → s.hostOut = false → s.withdrawn = false →
      (s.here.optimistic = true → s.here.sendrec = none → ∀ i, i = .send rd a tag rb len imm ∨ i = .sendt rd a tag rb len imm →
        (s.here.chunk.held.length < 8 →
          ∃ t m, exec i s = .next t ∧ t.here.chunk.held = s.here.chunk.held ++ [.message m] ∧ m.dst = ep ∧ m.tag = tag ∧
            m.payload = (List.range len.val).map (fun j => s.here.reg (Fin.ofNat 32 (rb.val + j))) ∧
            t.here.reg rd = 0 ∧ t.here.queues = x'.queues ∧ t.here.pc = (s.here.retire (lenImm imm)).pc) ∧
        (8 ≤ s.here.chunk.held.length → exec i s = .next (s.abortChunk s.focus s.hereX))) ∧
      (s.here.optimistic = false →
      let payload := (List.range len.val).map (fun j => s.here.reg (Fin.ofNat 32 (rb.val + j)))
      let status := s.guardSend s.focus s.here.domain ep
      let answered (v : Word) : State := s.mapHere (fun y =>
        Ctx.retire { ({ y with queues := x'.queues }.setReg rd v) with sendrec := none } (lenImm imm))
      ∀ i, i = .send rd a tag rb len imm ∨ i = .sendt rd a tag rb len imm →
        (s.here.sendrec = none → status ≠ 0 → exec i s = .next (answered status)) ∧
        (∀ e v, s.here.sendrec = some (e, some v) → exec i s = .next (answered v)) ∧
        (∀ e act, s.here.sendrec = none → status = 0 → s.hereCore.freeSend = some e → s.here.act = some act →
          let held := (s.toward s.focus (s.sendMsg ep tag payload)).any (fun e => e.state == .held)
          (i = .sendt rd a tag rb len imm → held = true → exec i s = .next (answered stBusy)) ∧
          (i = .send rd a tag rb len imm ∨ held = false →
          ∃ t m, exec i s = .next t ∧ t.here.wait = (if i = .sendt rd a tag rb len imm then .tried else .send) ∧ t.here.sendrec = some (e, none) ∧ t.here.pc = s.here.pc ∧
            (t.hereCore.sends[e].map (·.msg)) = some m ∧ m.payload = payload ∧ m.tag = tag ∧ m.dst = ep ∧
            m.domain = s.here.domain ∧ m.seq = (s.slot s.focus act.slot).seq ∧
            (t.slot s.focus act.slot).seq = (s.slot s.focus act.slot).seq + 1 ∧
            (s.toward s.focus (s.sendMsg ep tag payload) = [] → s.isHere (bitsOf ep 47 36) = true →
              t.pending = s.pending ++ [⟨agentCore s.focus, agentCore (coreOf (bitsOf ep 35 25)), ⟨arrivalRow m, .msg m⟩⟩]))) ∧
        (s.here.sendrec = none → status = 0 → s.hereCore.freeSend = none →
          (i = .sendt rd a tag rb len imm → exec i s = .next (answered stBusy)) ∧
          (i = .send rd a tag rb len imm → exec i s = .next (s.mapHere (fun y => { y with wait := .send })))))) ∧
  (∀ (s : State) (c : CoreId) (e : Fin 8) (x : SendEntry) (y : CtxId) (a : Activation), (s.core c).sends[e] = some x →
      x.chunk = false → x.actor = (s.slot c x.slot).actor → (s.ctx c y).act = some a → a.slot = x.slot → (s.ctx c y).sendrec = some (e, none) →
      (∀ r, s.arg = .answer c e r → r ≠ .full →
        ∃ t, exec .messageAnswer s = .next t ∧ (t.core c).sends[e] = none ∧
          (t.ctx c y).sendrec = some (e, some (answerWord r))) ∧
      (s.arg = .answer c e .full → x.try1 = false →
        ∃ t, exec .messageAnswer s = .next t ∧
          (t.core c).sends[e] = some { x with state := .held, since := s.quartz, tried := s.quartz } ∧ t.ctx c y = s.ctx c y) ∧
      (s.arg = .answer c e .full → x.try1 = true →
        ∃ t, exec .messageAnswer s = .next t ∧ (t.core c).sends[e] = none ∧ (t.ctx c y).sendrec = some (e, some 1) ∧
          (t.slot c x.slot).seq = (s.slot c x.slot).seq - 1) ∧
      (s.arg = .nums c.val e.val 0 → x.state = .held → x.tried + 2000 ≤ s.quartz → s.isHere x.msg.device = true →
        ∃ t, exec .sendUnitRetry s = .next t ∧
          (t.core c).sends[e] = some { x with state := .flying, tried := s.quartz } ∧
          t.pending = s.pending ++
            [⟨agentCore c, agentCore (coreOf x.msg.core), ⟨arrivalRow x.msg, .msg x.msg⟩⟩]) ∧
      (s.arg = .nums c.val e.val 0 → s.isHere x.msg.device = false → x.state ≠ .behind →
        x.since + 10000000 ≤ s.quartz →
        ∃ t, exec .remoteSendTimeout s = .next t ∧ (t.core c).sends[e] = none ∧
          (t.ctx c y).sendrec = some (e, some 5) ∧ (t.slot c x.slot).seq = (s.slot c x.slot).seq - 1))

/-- ACTIVATION BIND (R31, R133, R348): the scheduler's choice takes the lowest free context: a new activation with the
registers of handler entry, its mailbox's message taken, its actor ACTIVE; or a saved one, as its frame holds it. And
OVERFLOW QUEUE DRAIN moves the oldest message of a restored actor's overflow queue to its mailbox (R146).

DONE ends the activation (R142, R202): at depth 0, with the V pipe empty and no chunk, its context is free and the
actor idle, its registers and queues are gone, and a dying actor's slot is free. At a depth it is ILLEGAL. -/
def Obligations.Activations : Prop :=
  (∀ (s : State) (c : CoreId) (x : CtxId) (n : SlotId),
      let sl := s.slot c n
      (s.arg = .nums c.val 0 0 → (s.core c).freeCtx = some x → (s.core c).stopped = false →
        (∀ mb st q, (s.core c).choose = some (.start n false) → sl.nextMsg n = some (mb, st) →
          sl.mboxes[mb]? = some q → q.drains = false →
          ∃ t, exec .activationBind s = .next t ∧
            (t.ctx c x).act = some { slot := n, mbox := mb, msg := st.msg, drain := false } ∧
            (t.ctx c x).pc = addrField q.desc0 ∧ (t.ctx c x).tvec = addrField sl.tvec ∧
            (t.ctx c x).reg 1 = st.msg.header ∧
            (∀ i < 7, (t.ctx c x).reg (Fin.ofNat 32 (2 + i)) = st.msg.dword i) ∧
            (t.ctx c x).reg 30 = sl.stackTop ∧
            (∀ r : Fin 32, 9 ≤ r.val → r ≠ 30 → (t.ctx c x).reg r = 0) ∧
            (t.ctx c x).domain = sl.domain ∧ (t.ctx c x).origin = sl.domain ∧ (t.ctx c x).lease = 2048 ∧
            (t.ctx c x).kregs = kregsZero ∧ (∀ q, (t.ctx c x).queue q = []) ∧
            (t.ctx c x).chunk.active = q.atomic ∧
            (t.slot c n).state = .active ∧ (t.slot c n).quota = sl.quota - 1 ∧
            (q.atomic = false → (t.slot c n).mboxes[mb]? = some { q with waiting := q.waiting.tail })) ∧
        (∀ v, (s.core c).choose = some (.resume n) → sl.saved = some v → sl.state = .suspended →
          let y := v.restore (s.kernelRead c v.ctx.frame.toNat 6144)
          ∃ t, exec .activationBind s = .next t ∧ (t.ctx c x).act = y.act ∧ (t.ctx c x).regs = y.regs ∧
            (t.ctx c x).vregs = y.vregs ∧ (t.ctx c x).kregs = y.kregs ∧ (t.ctx c x).queues = y.queues ∧
            (t.ctx c x).pc = y.pc ∧ (t.ctx c x).slot = y.slot ∧ (t.ctx c x).loops = y.loops ∧
            (t.ctx c x).stack = y.stack ∧ (t.ctx c x).domain = y.domain ∧
            (t.slot c n).saved = none ∧ (t.slot c n).state = .active ∧ v.lclk ≤ (t.core c).lclk)) ∧
      (∀ o m mb r q, s.arg = .nums c.val n.val 0 → sl.state ≠ .evicted → sl.overflow = some o →
        o.msgs = (m, mb) :: r → mb < 8 → sl.mboxes[mb]? = some q → fullFor (s.core c) q m.domain = false →
        ∃ t st, exec .overflowQueueDrain s = .next t ∧ st.msg.payload = m.payload ∧ st.msg.tag = m.tag ∧
          (t.slot c n).mboxes[mb]? = some { q with waiting := q.waiting ++ [st] } ∧
          (t.slot c n).overflow = (if r = [] then none else some { o with msgs := r }))) ∧
  (∀ (s : State) (a : Activation), s.here.act = some a → a.drain = false →
      (s.here.stack = [] → s.here.vIdle = true → s.here.chunk = .none → s.hostOut = false →
        s.chunkSends s.focus a.slot = false →
        ∃ t, exec .done s = .next t ∧ t.here.act = none ∧ t.here.regs = Ctx.reset.regs ∧
          t.here.queues = Ctx.reset.queues ∧
          (t.slot s.focus a.slot).state = (match (s.slot s.focus a.slot).state with
            | .dying => .free
            | .evicted => .evicted
            | _ => .idle)) ∧
      (s.here.stack ≠ [] → exec .done s = trap s 1 (firstDword .done)))

/-- The other events of a core's scheduler (R134 to R136, R219, R263, R352): CONTEXT SWITCH, PERIOD START, BUDGET
EXHAUSTION, GRACE PERIOD END, SPINEL COMMIT and FAULT TOKEN FREED, each where what it waits for has come. A commit reserves
the lines of one die after the other, fails where it meets another commit or a line it read has been written, and is
performed when every die is reserved (R263 to R265), with the tracked copies of what it writes invalidated first. One step
for each die, a second comparison of what was read before the commit is performed, and the owners recalled before each, are
the model's choices (assumptions 85, 32). -/
def Obligations.SchedulerEvents : Prop :=
  ∀ (s : State) (c : CoreId) (x : CtxId) (n : SlotId),
    (s.arg = .nums c.val 0 0 →
      (s.unblocked c (s.core c).cur = false → s.bestCtx c (fun _ => true) = some x →
        exec .contextSwitch s = .next (s.switchTo c x)) ∧
      ((s.ctx c (s.core c).cur).act.isSome = true → (s.ctx c (s.core c).cur).wait = .gateMove →
        s.bestCtx c (· != (s.core c).cur) = some x → exec .contextSwitch s = .next (s.switchTo c x)) ∧
      (∀ (i : Nat) (b : Budget), (s.core c).budgets[i]? = some b → b.index < s.quartz / (b.period * 1000) →
        ∃ t, exec .periodStart s = .next t ∧
          (t.core c).budgets[i]? = some { b with left := b.allot, index := s.quartz / (b.period * 1000) }) ∧
      ((s.ctx c x).act.isSome = true → (s.core c).left (s.ctx c x).payer = some 0 →
        ∃ t, exec .budgetExhaustion s = .next t ∧ Stop.budget ∈ (t.ctx c x).stops) ∧
      (∀ f r v u tok, (s.core c).faultQueue = f :: r → f.who = .slot c n → (s.slot c n).saved = some v →
        (s.mapCore c (fun k => { k with faultQueue := r })).takeToken (dieOf c) f.entry f.who = some (u, tok) →
        ∃ t, exec .faultTokenFreed s = .next t ∧ (t.core c).faultQueue = r ∧
          (t.slot c n).saved.map (·.waits) = some (.fault tok))) ∧
    (∀ a g, s.arg = .nums c.val n.val 0 → (s.ctx c x).act = some a → a.slot = n → (s.ctx c x).graceEnd = some g →
      g ≤ s.quartz →
      ∃ t x' a', exec .gracePeriodEnd s = .next t ∧ (s.ctx c x').act = some a' ∧ a'.slot = n ∧
        (t.ctx c x').act = none) ∧
    (∀ a u, s.arg = .nums c.val x.val 0 → (s.ctx c x).act = some a → s.deviceToken = none →
      (∀ d : DieId, (s.die d).token = none) →
      let k := (s.ctx c x).chunk
      k.active = true → k.committing = true → k.serial = false →
      (∀ d, k.dies.find? (fun d => !k.reserved.contains d.val) = some d →
        ((∃ o ∈ s.commitsOn c x d, k.meets o = true) → exec .spinelCommit s = .next (s.failChunk c x)) ∧
        ((∀ o ∈ s.commitsOn c x d, k.meets o = false) → s.settleChunk k (fun l => lineDie l == d) = some u →
          let stale : Prop := ∃ p ∈ k.reads, lineDie p.1 = d ∧ k.t0 < (u.dir (.slice d) p.1).wts
          (stale → exec .spinelCommit s = .next (u.failChunk c x)) ∧
          (∀ w, ¬stale → u.reserveChunk c x a.slot d = some w → exec .spinelCommit s = .next w ∧
            (w.ctx c x).chunk.reserved = k.reserved ++ [d.val]))) ∧
      (∀ w, (∀ d ∈ k.dies, d.val ∈ k.reserved) → s.settleChunk k (fun _ => true) = some u → u.invChunk k = some w →
        let home (l : Nat) : DirLine := w.dir (.slice (lineDie l)) l
        let stale : Prop := ∃ p ∈ k.reads, k.t0 < (home p.1).wts
        (stale → exec .spinelCommit s = .next (w.failChunk c x) ∧
          ((w.failChunk c x).ctx c x).chunk.attempts = (w.ctx c x).chunk.attempts + 1) ∧
        (¬stale → ∀ b : Nat, max (w.lclkNow c) k.t0 ≤ b → (∀ v ∈ k.writes, (home v.line).rts + 1 ≤ b) →
          b ≤ w.quartz + Config.guardNs → (w.core c).timelost = none →
          ∃ t, exec .spinelCommit s = .next t ∧
            (t.ctx c x).chunk = { Chunk.none with committing := true, held := k.held } ∧ k.t0 ≤ (t.core c).lclk)))

/-! ### Guard control and the cluster TLB (R129, R239, R353) -/

namespace Sys2Proof.Claims

/-- A kernel actor's message on a port of core c, whose reply endpoint ep is on this device. -/
def Asked (s : State) (c : CoreId) (m : Msg) (port len : Nat) (ep : Word) : Prop :=
  s.arg = .msg m ∧ coreOf m.core = c ∧ m.domain = 0 ∧ m.port = port ∧ m.payload.length = len ∧
    bitsOf ep 47 36 = 0xFFF

/-- Guard control answers a status and a detail. -/
def GuardAnswer (t : State) (m : Msg) (st detail : Nat) : Prop :=
  Replied t (m.payload.getLastD 0) 0x5D [word st, word detail]

/-- A command of guard control completes: it answers, and of core c only the guard changes, as P says. -/
def Guarded (i : Instr) (s : State) (c : CoreId) (m : Msg) (st detail : Nat) (P : Guard → Prop) : Prop :=
  ∃ t, exec i s = .next t ∧ GuardAnswer t m st detail ∧
    t.core c = { s.core c with guard := (t.core c).guard } ∧ P (t.core c).guard ∧
    (∀ c', c' ≠ c → t.core c' = s.core c') ∧ t.hbm = s.hbm ∧ t.dies = s.dies

/-- The commands of R129 with their PLEN, and whether only a kernel core serves them. -/
def guardCommands : List (Instr × Nat × Bool) :=
  [(.rights, 2, false), (.share, 2, false), (.unshare, 2, false), (.capload, 2, false), (.caprevoke, 2, false),
   (.sendright, 4, false), (.admitEntry, 3, false), (.kill, 2, false), (.gateinv, 2, false), (.allot, 4, false),
   (.collgrp, 4, true), (.qrepair, 3, true), (.unfreeze, 1, true)]

end Sys2Proof.Claims

/-- The commands of guard control that change the guard of one core (R116, R123, R129, R134, R208): rights records,
shares, capabilities, send rights, admit entries, gate descriptors and allotments, with the detail each answers. A
wrong length answers BADDESC and a core that does not serve the command BADPORT; an unknown tag BADOP; a command that names
the domain 0xFFFF, which no domain bears (R116), BADDESC.

KILL, the commands of a kernel core, and RESOLVE (R218, R316, R353, R369, R379, R400): the kill is ordered of every
bound activation it touches; a collective group, a peer window and a queue's read index are set; Garnet records
again; a token's waiters are released and the token is free. RESOLVE answers with its own reply, also where the core or the
length is wrong. QREPAIR of an index beyond the last published packet's plus one is out of range: BADDESC.

The record of domain 0 is built in: a load adds none and a withdrawal leaves it (R408).

The model's choices: the first period's budget after ALLOT is the whole allotment (log entry 24); the order of the checks, an
entry that is there already keeps its index and domain 0's RIGHTS answer OK (log entry 64); how the front end finds the last
published index, and that the command waits while it cannot be read (log entry 67); removing an entry that is not there
answers OK and index 0 (log entry 92). -/
def Obligations.GuardControl : Prop :=
  (∀ (rd : Reader) (q : Queue) (ri : Nat) (s : State) (mem : Word → List Byte),
    (∀ v a, rd v a 8 = .got v (mem a)) → ∃ ok : Bool, repairs rd q ri s = .got s ok ∧
      (ok = true ↔ ri ≤ q.ri ∨ ∃ i, ri ≤ i + 1 ∧ i < q.ri + 2 ^ q.logn ∧
        bitsOf (word (leNat (mem (word (q.base + 64 * (i % 2 ^ q.logn)))))) 39 32 ≠ 0 ∧
        bitsOf (word (leNat (mem (word (q.base + 64 * (i % 2 ^ q.logn)))))) 31 0 = i % 2 ^ 32)) ∧
  (∀ (s : State) (c : CoreId) (m : Msg),
      let ep := m.payload.getLastD 0
      let cmd := Asked s c m 21
      let w := m.dword 0
      let g := (s.core c).guard
      let d := BitVec.ofNat 16 (bitsOf w 15 0)
      (∀ i n k, (i, n, k) ∈ guardCommands → cmd m.payload.length ep → m.payload ≠ [] →
        (k = true → c.val % 256 ≠ 0 → Guarded i s c m 2 0 (· = g)) ∧
        ((k = true → c.val % 256 = 0) → m.payload.length ≠ n → Guarded i s c m 3 0 (· = g))) ∧
      (cmd m.payload.length ep → m.payload ≠ [] →
        (c ≠ 0 → Guarded .peerwin s c m 2 0 (· = g)) ∧
        (c = 0 → m.payload.length ≠ 4 → Guarded .peerwin s c m 3 0 (· = g))) ∧
      (∀ i n, (i, n) ∈ ([(.rights, 2), (.kill, 2), (.sendright, 4), (.admitEntry, 3), (.allot, 4)] : List (Instr × Nat)) →
        cmd n ep → d = 0xFFFF → Guarded i s c m 3 0 (· = g)) ∧
      (cmd m.payload.length ep → m.payload ≠ [] → (∀ a, m.src ≠ .remote a) →
        Guarded .messageArrival s c m 12 0 (· = g)) ∧
      (cmd 2 ep → bitsOf w 63 17 = 0 → d = 0 →
        (bitOf w 16 = true → Guarded .rights s c m 0 0 (fun h => h.rights = g.rights ∧ 0 ∉ h.withdrawn ∧ 0 ∉ h.killed)) ∧
        (bitOf w 16 = false → Guarded .rights s c m 0 0 (· = g))) ∧
      (cmd 2 ep → bitsOf w 63 17 = 0 → d ≠ 0 → d ≠ 0xFFFF →
        (bitOf w 16 = true → Guarded .rights s c m 0 0 (fun h =>
          (∀ e, e ∈ h.rights ↔ e = d ∨ e ∈ g.rights) ∧ d ∉ h.withdrawn ∧ d ∉ h.killed)) ∧
        (bitOf w 16 = false → Guarded .rights s c m 0 0 (fun h =>
          (∀ e, e ∈ h.rights ↔ e ≠ d ∧ e ∈ g.rights) ∧ d ∈ h.withdrawn))) ∧
      (∀ r, cmd 2 ep → (s.slot c (slotOf (bitsOf w 3 0))).regions[bitsOf w 6 4]? = some r →
        (r.stack = true ∨ bitsOf w 31 16 = 0xFFFF → Guarded .share s c m 3 0 (· = g)) ∧
        (r.stack = false → bitsOf w 31 16 ≠ 0xFFFF → bitsOf w 15 7 = 0 → bitsOf w 63 33 = 0 →
          (tabFree g.shares 32 = none → Guarded .share s c m 1 0 (· = g)) ∧
          (∀ e, tabFree g.shares 32 = some e → Guarded .share s c m 0 e (fun h =>
            tabGet h.shares e = some { slot := slotOf (bitsOf w 3 0), region := bitsOf w 6 4,
                                       domain := BitVec.ofNat 16 (bitsOf w 31 16), write := bitOf w 32 } ∧
            (∀ j, j ≠ e → tabGet h.shares j = tabGet g.shares j))))) ∧
      (cmd 2 ep → bitsOf w 63 5 = 0 → Guarded .unshare s c m 0 0 (fun h =>
        tabGet h.shares (bitsOf w 4 0) = none ∧ ∀ j, j ≠ bitsOf w 4 0 → tabGet h.shares j = tabGet g.shares j)) ∧
      (cmd 2 ep → bitsOf w 63 48 = 0xFFFF ∨ bitsOf w 47 44 = 0 ∨ 5 < bitsOf w 47 44 →
        Guarded .capload s c m 3 0 (· = g)) ∧
      (cmd 2 ep → isCapability w = true →
        (w ∉ g.caps → 256 ≤ g.caps.length → Guarded .capload s c m 1 0 (· = g)) ∧
        (w ∈ g.caps ∨ g.caps.length < 256 → Guarded .capload s c m 0 0 (fun h =>
          ∀ v, v ∈ h.caps ↔ v = w ∨ v ∈ g.caps))) ∧
      (cmd 2 ep → Guarded .caprevoke s c m 0 (if w ∈ g.caps then 1 else 0) (fun h =>
        ∀ v, v ∈ h.caps ↔ v ∈ g.caps ∧ v ≠ w)) ∧
      (cmd 4 ep → bitsOf w 63 17 = 0 → d ≠ 0xFFFF →
        let v : SendRight := { domain := d, pattern := m.dword 1, mask := m.dword 2 }
        (bitOf w 16 = true → (∀ p ∈ g.sendRights, p.2 ≠ v) →
          (tabFree g.sendRights 64 = none → Guarded .sendright s c m 1 0 (· = g)) ∧
          (∀ e, tabFree g.sendRights 64 = some e → Guarded .sendright s c m 0 e (fun h =>
            tabGet h.sendRights e = some v ∧ ∀ j, j ≠ e → tabGet h.sendRights j = tabGet g.sendRights j))) ∧
        (∀ e, bitOf w 16 = true → tabIndex g.sendRights v = some e → Guarded .sendright s c m 0 e (· = g)) ∧
        (bitOf w 16 = false → (∀ p ∈ g.sendRights, p.2 ≠ v) → Guarded .sendright s c m 0 0 (· = g)) ∧
        (∀ e, bitOf w 16 = false → tabIndex g.sendRights v = some e → Guarded .sendright s c m 0 e (fun h =>
          tabGet h.sendRights e = none ∧ ∀ j, j ≠ e → tabGet h.sendRights j = tabGet g.sendRights j))) ∧
      (cmd 3 ep → bitsOf w 31 28 = 0 → bitsOf w 63 33 = 0 → bitsOf (m.dword 1) 63 16 = 0 → d ≠ 0xFFFF →
        let v : Admit := { domain := d, device := BitVec.ofNat 12 (bitsOf w 27 16),
                           slots := BitVec.ofNat 16 (bitsOf (m.dword 1) 15 0) }
        (bitOf w 32 = true → (∀ p ∈ g.admits, p.2 ≠ v) →
          (tabFree g.admits 64 = none → Guarded .admitEntry s c m 1 0 (· = g)) ∧
          (∀ e, tabFree g.admits 64 = some e → Guarded .admitEntry s c m 0 e (fun h =>
            tabGet h.admits e = some v ∧ ∀ j, j ≠ e → tabGet h.admits j = tabGet g.admits j))) ∧
        (∀ e, bitOf w 32 = true → tabIndex g.admits v = some e → Guarded .admitEntry s c m 0 e (· = g)) ∧
        (bitOf w 32 = false → (∀ p ∈ g.admits, p.2 ≠ v) → Guarded .admitEntry s c m 0 0 (· = g)) ∧
        (∀ e, bitOf w 32 = false → tabIndex g.admits v = some e → Guarded .admitEntry s c m 0 e (fun h =>
          tabGet h.admits e = none ∧ ∀ j, j ≠ e → tabGet h.admits j = tabGet g.admits j))) ∧
      (cmd 2 ep → bitsOf w 63 16 = 0 →
        Guarded .gateinv s c m 0 ((tabGet g.gateCounts d.toNat).getD 0) (fun h =>
          ∀ e, e ∈ h.gates ↔ e ∈ g.gates ∧ e.id ≠ d.toNat)) ∧
      (cmd 4 ep → bitsOf w 63 16 = 0 → d ≠ 0 → d ≠ 0xFFFF → 10 ≤ (m.dword 1).toNat → (m.dword 1).toNat ≤ 100000 →
        (m.dword 2).toNat ≤ 4 * (m.dword 1).toNat * 1000 →
        ∃ t b, exec .allot s = .next t ∧ GuardAnswer t m 0 0 ∧ b ∈ (t.core c).budgets ∧ b.domain = d ∧
          b.period = (m.dword 1).toNat ∧ b.allot = (m.dword 2).toNat ∧ b.left = b.allot ∧
          (∀ e, e.domain ≠ d → (e ∈ (t.core c).budgets ↔ e ∈ (s.core c).budgets)) ∧
          (t.core c).guard = g)) ∧
  (∀ (s : State) (c : CoreId) (m : Msg),
      let ep := m.payload.getLastD 0
      let cmd := Asked s c m 21
      let w := m.dword 0
      let u := s.answerTo c m .accepted
      (cmd 2 ep → bitsOf w 63 16 = 0 → BitVec.ofNat 16 (bitsOf w 15 0) ≠ 0xFFFF →
        ∃ t n, exec .kill s = .next t ∧ GuardAnswer t m 0 n ∧ BitVec.ofNat 16 (bitsOf w 15 0) ∈ (t.core c).guard.killed ∧
          ∀ x : CtxId, (s.ctx c x).act.isSome = true →
            killTouches (s.dead c (BitVec.ofNat 16 (bitsOf w 15 0))) (s.ctx c x) = true →
            Stop.kill (BitVec.ofNat 16 (bitsOf w 15 0)) ∈ (t.ctx c x).stops) ∧
      (c.val % 256 = 0 → cmd 4 ep → bitsOf w 63 21 = 0 →
        let id := bitsOf w 7 0
        let n := bitsOf w 19 8 + 1
        let at_ (i : Nat) : Nat := leNat (u.kernelRead c ((m.dword 1).toNat + 4 * i) 4)
        (bitOf w 20 = false → ∃ t, exec .collgrp s = .next t ∧ GuardAnswer t m 0 0 ∧
          tabGet (t.die (dieOf c)).groups id = none) ∧
        (bitOf w 20 = true → 2 ≤ n → 1000 ≤ (m.dword 2).toNat → (m.dword 2).toNat ≤ 10000000 →
          (∀ i < n, at_ i < 2 ^ 23) →
          ∃ t, exec .collgrp s = .next t ∧ GuardAnswer t m 0 0 ∧
            tabGet (t.die (dieOf c)).groups id = some
              { members := (List.range n).map (fun i => (at_ i / 2048, at_ i % 2048)), timeout := (m.dword 2).toNat })) ∧
      (c = 0 → cmd 4 ep → bitsOf w 63 33 = 0 → (m.dword 1).toNat % 65536 = 0 →
        (m.dword 1).toNat + 65536 * (m.dword 2).toNat ≤ Config.hbmEnd →
        ∃ t, exec .peerwin s = .next t ∧ GuardAnswer t m 0 0 ∧
          tabGet t.windows (bitsOf w 5 0) = (if bitOf w 32 then some
            { device := BitVec.ofNat 12 (bitsOf w 17 6), r := bitOf w 18, w := bitOf w 19, key := bitsOf w 31 20,
              base := (m.dword 1).toNat, length := 65536 * (m.dword 2).toNat } else none) ∧
          (∀ j, j ≠ bitsOf w 5 0 → tabGet t.windows j = tabGet s.windows j)) ∧
      (c.val % 256 = 0 → cmd 3 ep →
        let e := dieOf c
        let ri := (m.dword 1).toNat
        let q := s.queueOf e w.toNat
        let done : Prop := ∃ t p, exec .qrepair s = .next t ∧ GuardAnswer t m 0 ri ∧
          tabGet (t.die e).queues w.toNat = some p ∧ p.ri = ri ∧ p.state = 0
        (q.die ≠ e.val → ∃ t, exec .qrepair s = .next t ∧ GuardAnswer t m 2 0 ∧ t.dies = s.dies) ∧
        (q.die = e.val →
          (ri ≤ q.ri → done) ∧
          (∀ v, repairs (frontRead e w.toNat 0) q ri s = .got v true → (v.queueOf e w.toNat).die = e.val → done) ∧
          (∀ v, repairs (frontRead e w.toNat 0) q ri s = .got v false → (v.queueOf e w.toNat).die = e.val →
            ∃ t, exec .qrepair s = .next t ∧ GuardAnswer t m 3 0 ∧ (t.die e).queues = (v.die e).queues) ∧
          (∀ v, repairs (frontRead e w.toNat 0) q ri s = .wait v → exec .qrepair s = .next
            ((v.answerTo c m .accepted).send (agentFront e) (agentFront e) .qrepair (.msg { m with src := .outside }))))) ∧
      (c.val % 256 = 0 → cmd 1 ep →
        ∃ t, exec .unfreeze s = .next t ∧ GuardAnswer t m 0 0 ∧ (t.die (dieOf c)).garnet.frozen = false ∧
          (t.die (dieOf c)).garnet.records = (s.die (dieOf c)).garnet.records) ∧
      (let reply (t : State) (st n : Nat) : Prop := Replied t ep 0x5B [word (st + n % 2 ^ 24 * 256)]
       cmd m.payload.length ep → m.payload ≠ [] →
        (c.val % 256 ≠ 0 → ∃ t, exec .resolve s = .next t ∧ reply t 2 0 ∧ t.dies = s.dies ∧ t.cores = s.cores) ∧
        (c.val % 256 = 0 → m.payload.length ≠ 2 →
          ∃ t, exec .resolve s = .next t ∧ reply t 3 0 ∧ t.dies = s.dies ∧ t.cores = s.cores)) ∧
      (c.val % 256 = 0 → cmd 2 ep →
        let mode := bitsOf w 19 16
        let cause := bitsOf w 27 20
        let reply (t : State) (st n : Nat) : Prop := Replied t ep 0x5B [word (st + n % 2 ^ 24 * 256)]
        let tok := tabGet (s.die (dieOf c)).faultTokens (bitsOf w 15 0)
        (1 < mode ∨ bitsOf w 63 28 ≠ 0 ∨ (mode = 1 ∧ failCause cause = false) →
          ∃ t, exec .resolve s = .next t ∧ reply t 2 0 ∧ t.dies = s.dies ∧ t.cores = s.cores) ∧
        (mode = 0 ∨ (mode = 1 ∧ failCause cause = true) → bitsOf w 63 28 = 0 →
          (tok = none → ∃ t, exec .resolve s = .next t ∧ reply t 1 0 ∧ t.dies = s.dies ∧ t.cores = s.cores) ∧
          (∀ k, tok = some k → ∃ t, exec .resolve s = .next t ∧ reply t 0 k.waiters.length ∧
            (mode = 0 → (∀ v ∈ k.waiters, ∃ c' n, v = .slot c' n) →
              tabGet (t.die (dieOf c)).faultTokens (bitsOf w 15 0) = none ∧
              ∀ c' n sv, TokenWaiter.slot c' n ∈ k.waiters → (s.slot c' n).saved = some sv →
                (t.slot c' n).saved = some { sv with resumable := true, waits := .untaken })))))

/-- The cluster TLB (R238, R239): FILL writes its entry, unless its V is 0, every overlapping one leaving the cluster TLB and
the micro-TLBs, and takes the miss entry; ABSENT gives each waiting activation the fault named; INVVA, INVDOM and INVALL
remove entries; an entry may leave unasked. The reply goes to the sender, with the tag. And every command of guard control
and of the translation service completes, whatever its operands: guard control answers, and so does RESOLVE (R129, R353);
QREPAIR also waits, as log entry 67 says. -/
def Obligations.ClusterTlb : Prop :=
  ∀ (s : State) (c : CoreId) (m : Msg),
    let g := clusterOf c
    let d2 := m.dword 2
    let d3 := m.dword 3
    let cmd := Asked s c m 20 4 (m.sender.zeroExtend 64) ∧ c.val % 32 = 1
    let reply (t : State) (st : Nat) : Prop := Replied t (m.sender.zeroExtend 64) 0x47 [word st, word (bitsOf d3 63 16)]
    let removes (i : Instr) (gone : TlbEntry → Prop) : Prop :=
      ∃ t, exec i s = .next t ∧ (∀ e, e ∈ (t.cluster g).tlb ↔ e ∈ (s.cluster g).tlb ∧ ¬gone e) ∧
        (∀ c' : CoreId, clusterOf c' = g → ∀ e ∈ (t.core c').utlb, ¬gone e) ∧
        (reply t 0 ∨ ∃ o ∈ (t.cluster g).owedReplies, o.1 = m)
    (cmd → bitsOf d2 63 16 = 0 → bitsOf d3 15 7 = 0 → s.entryBroken g (m.dword 0) (m.dword 1) = false →
      (s.cluster g).tlb.length < 8192 →
      let e := TlbEntry.ofWords (m.dword 0) (m.dword 1)
      ∃ t, exec .fill s = .next t ∧ reply t 0 ∧
        (∀ f, f ∈ (t.cluster g).tlb ↔ (bitOf (m.dword 0) 63 = true ∧ f = e) ∨
          (f ∈ (s.cluster g).tlb ∧ f.overlaps e = false)) ∧
        (∀ c' : CoreId, clusterOf c' = g → ∀ f ∈ (t.core c').utlb, f = e ∨ f.overlaps e = false)) ∧
    (cmd → bitsOf d2 63 16 = 0 → bitsOf d3 15 7 = 0 → s.entryBroken g (m.dword 0) (m.dword 1) = true →
      ∃ t, exec .fill s = .next t ∧ reply t 1 ∧ t.clusters = s.clusters ∧ t.cores = s.cores) ∧
    (∀ cause, cmd → bitsOf d2 63 16 = 0 → bitsOf d3 15 7 = 0 → cause = bitsOf d2 15 8 →
      cause = causePage ∨ cause = causeProt →
      ∃ t, exec .absent s = .next t ∧ reply t 0 ∧
        ∀ k v c' x, tabGet (s.cluster g).misses (bitsOf d3 5 0) = some k → v ∈ k.waiters → v.who = .ctx c' x →
          Stop.fault cause v.addr v.kind v.pol ∈ (t.ctx c' x).stops) ∧
    (cmd → bitsOf d2 47 16 = 0 → bitsOf d3 15 7 = 0 →
      removes .invva (fun e => e.covers (BitVec.ofNat 16 (bitsOf d2 63 48)) ((m.dword 0).toNat % 2 ^ 56) = true) ∧
      removes .invdom (fun e => e.dtag = BitVec.ofNat 16 (bitsOf d2 63 48)) ∧
      removes .invall (fun _ => True)) ∧
    (∀ (h : ClusterId) (n : Nat) (e : TlbEntry), s.arg = .nums h.val n 0 → (s.cluster h).tlb[n]? = some e →
      ∃ t, exec .clusterTlbEviction s = .next t ∧ ∀ f, f ∈ (t.cluster h).tlb ↔ f ∈ (s.cluster h).tlb ∧ f ≠ e) ∧
    (∀ i, i = .peerwin ∨ (∃ n k, (i, n, k) ∈ guardCommands) →
      Asked s c m 21 m.payload.length (m.payload.getLastD 0) → m.payload ≠ [] →
      (i ≠ .qrepair → ∃ t st detail, exec i s = .next t ∧ GuardAnswer t m st detail) ∧
      (i = .qrepair → ∃ t, exec i s = .next t ∧ ((∃ st detail, GuardAnswer t m st detail) ∨
        ∃ v : State, t = v.send (agentFront (dieOf c)) (agentFront (dieOf c)) .qrepair (.msg { m with src := .outside })))) ∧
    (Asked s c m 21 m.payload.length (m.payload.getLastD 0) → m.payload ≠ [] →
      ∃ t v, exec .resolve s = .next t ∧ Replied t (m.payload.getLastD 0) 0x5B [v]) ∧
    (∀ i ∈ ([.fill, .absent, .invva, .invdom, .invall] : List Instr),
      Asked s c m 20 m.payload.length (m.sender.zeroExtend 64) → c.val % 32 = 1 → ∃ t, exec i s = .next t)

/-! ### The system actor, bring-up and reset (R119, R143, R144, R354 to R358, R365, R393) -/

namespace Sys2Proof.Claims

/-- A request with a tag stands at the head of the system actor's mb1 of core c. -/
def Requested (s : State) (c : CoreId) (m : Msg) (tag : Nat) : Prop :=
  (∃ b, s.arg = .nums c.val 0 b) ∧ s.sysHead c 1 = some m ∧ m.tag.toNat = tag

/-- The system actor serves its request: P holds after it, and the reply carries a status and a detail. -/
def Served (i : Instr) (s : State) (ep : Word) (st detail : Nat) (P : State → Prop) : Prop :=
  ∃ t, exec i s = .next t ∧ P t ∧ (bitsOf ep 47 36 = 0xFFF → Replied t ep 0x5F [word st, word detail])

/-- The regions a plan asks for, as placement takes them. -/
def wanted (p : PlanActor) : List (Nat × Nat × Bool) :=
  p.regions.zipIdx.map (fun r => (r.1.1, r.1.2, p.stack == some r.2))

end Sys2Proof.Claims

/-- EVICT and RESTORE (R143, R144, R311, R356 to R358): a valid request is noted, and, unless a drain to the actor is in
progress, begins: an active actor is to be saved; once nothing reads or writes its memory the actor's image is taken, its
regions are zero and free, and its slot is EVICTED. RESTORE puts it back, on another core with the old slot MOVED.

The model's choices: an EVICT of a FREE slot answers NOACTOR and in any other state that R354 does not list BADSTATE, and so does a
RESTORE (log entry 45); messages that an earlier eviction left in the overflow queue stay ahead (log entry 81). -/
def Obligations.EvictAndRestore : Prop :=
  ∀ (s : State) (c : CoreId) (m : Msg) (n : SlotId),
    let sl := s.slot c n
    (Requested s c m 0x57 → slotOf (bitsOf (m.dword 0) 3 0) = n → m.dword 1 &&& 0xFFF = 0 →
      16 ≤ bitsOf (m.dword 3) 16 0 → bitsOf (m.dword 3) 16 0 ≤ 65536 → n ≠ 0 → sl.evicting = none →
      (sl.state = .free → Served .evict s (m.dword 4) 5 0 (fun t => t.slot c n = sl)) ∧
      (sl.state = .moved ∨ sl.state = .dying ∨ sl.state = .evicted →
        Served .evict s (m.dword 4) 13 0 (fun t => t.slot c n = sl)) ∧
      (sl.state = .idle ∨ sl.state = .suspended ∨ sl.state = .active →
        ∃ t, exec .evict s = .next t ∧ (t.slot c n).evicting = some
            { begun := !(s.core c).drainsTo n, accmask := BitVec.ofNat 4 (bitsOf (m.dword 0) 11 8), image := m.dword 1,
              overflow := m.dword 2, quota := bitsOf (m.dword 3) 16 0, reply := m.dword 4 } ∧
          (sl.state = .active → (s.core c).drainsTo n = false → ∀ (x : CtxId) (a : Activation), (s.ctx c x).act = some a → a.slot = n →
            Stop.evict ∈ (t.ctx c x).stops))) ∧
    (∀ r b, s.arg = .nums c.val n.val b → n ≠ 0 → sl.evicting = some r → r.begun = false → (s.core c).drainsTo n = false →
      ∃ t, exec .evict s = .next t ∧ (t.slot c n).evicting = some { r with begun := true } ∧
        (sl.state = .active → ∀ (x : CtxId) (a : Activation), (s.ctx c x).act = some a → a.slot = n →
          Stop.evict ∈ (t.ctx c x).stops)) ∧
    (∀ r b, s.arg = .nums c.val n.val b → n ≠ 0 → sl.evicting = some r → r.begun = true → (s.core c).spad.wf = true →
      sl.state = .idle ∨ sl.state = .suspended → s.evictReady c n r.accmask = true →
      Served .evict s r.reply 0 (s.image c n r.accmask).length (fun t =>
        (t.slot c n).state = .evicted ∧ (t.slot c n).evicting = none ∧ (t.slot c n).regions = [] ∧
        (t.slot c n).image = some (r.image, sl.regions.map (·.align)) ∧
        (t.slot c n).overflow = some { addr := r.overflow, quota := r.quota,
                                       msgs := (sl.overflow.map (·.msgs)).getD [] } ∧
        (t.slot c n).mboxes = sl.mboxes ∧ (t.slot c n).saved = sl.saved ∧
        (∀ g ∈ sl.regions, ∀ j < g.size, (t.core c).spad.get (g.base + j) = 0) ∧
        (∀ a : Fin 4, r.accmask.getLsbD a.val = true → (t.core c).matrix.accs[a] = .free))) ∧
    (Requested s c m 0x58 →
      let u := s.sysTake c 1
      let at_ := (m.dword 1).toNat
      let img := Image.ofBytes (u.kernelRead c at_ 0x60)
      let old := s.slot img.core img.slot
      let slot? := (u.core c).restoreSlot (img.core = c) img.slot (bitsOf (m.dword 0) 3 0)
      (img.version ≠ 1 → Served .restore s (m.dword 3) 3 0 (fun _ => True)) ∧
      (img.version = 1 → old.state ≠ .evicted → Served .restore s (m.dword 3) 13 0 (fun _ => True)) ∧
      (∀ aligns, img.version = 1 → old.state = .evicted → old.image = some (m.dword 1, aligns) →
        (slot? = none → Served .restore s (m.dword 3) 1 0 (fun t => (t.slot img.core img.slot).state = .evicted)) ∧
        (∀ k rs, slot? = some k → img.claimed = [] → img.mask = 0 → old.saved = none →
          placeSaved (u.core c).regions (aligns.zipIdx.map (fun p =>
            Region.ofWord (leWord (u.kernelRead c (at_ + 0x60 + 8 * p.2) 8)) p.1)) (bitOf (m.dword 0) 8) = some rs →
          Served .restore s (m.dword 3) 0 0 (fun t =>
            (t.slot c k).state = .idle ∧ (t.slot c k).regions = rs ∧ (t.slot c k).domain = old.domain ∧
            (t.slot c k).tvec = img.tvec ∧ (t.slot c k).quota = img.quota ∧ (t.slot c k).seq = img.seq ∧
            (t.slot c k).image = none ∧ img.lclk ≤ (t.core c).lclk ∧
            (img.core ≠ c ∨ img.slot ≠ k → (t.slot img.core img.slot).state = .moved ∧
              (t.slot img.core img.slot).movedTo = endpointOf c.val k.val 0)))))

/-- PREEMPT, RESUME, DESTROY and CLEAR (R119, R354, R355), each by the state of the slot it names.

CREATE and LAUNCH RECORD (R119, R122, R148, R156): the checks in their order, each with its status; else the
actor stands IDLE in its slot with its entry's fields, its regions first fit and zero, its mailboxes empty.

The model's choices: BADSTATE, and NOACTOR of a FREE slot, in the states that R354 does not list (log entry 45); the message counter
of a new actor starts at 0 (log entry 90). -/
def Obligations.ActorLife : Prop :=
  (∀ (s : State) (c : CoreId) (m : Msg),
      let n := slotOf (bitsOf (m.dword 0) 3 0)
      let sl := s.slot c n
      let r := m.dword 1
      let refused (i : Instr) (st : Nat) : Prop := Served i s r st 0 (fun t => (t.slot c n).state = sl.state)
      (Requested s c m 0x55 →
        (sl.state = .active → ∃ t, exec .preempt s = .next t ∧ ∀ (x : CtxId) (a : Activation),
          (s.ctx c x).act = some a → a.slot = n → Stop.preempt r ∈ (t.ctx c x).stops) ∧
        (sl.state ≠ .active → refused .preempt 13)) ∧
      (Requested s c m 0x56 →
        (∀ v, sl.state = .suspended ∨ sl.state = .dying → sl.saved = some v → v.reason = 2 →
          Served .resume s r 0 0 (fun t => (t.slot c n).saved = some { v with resumable := true })) ∧
        ((∀ v, sl.saved = some v → v.reason ≠ 2) → refused .resume 13)) ∧
      (Requested s c m 0x51 → sl.evicting = none →
        (sl.state = .free → refused .destroy 5) ∧
        (sl.state = .moved ∨ sl.state = .dying → refused .destroy 13) ∧
        (n ≠ 0 → sl.state = .idle ∨ sl.state = .evicted →
          Served .destroy s r 0 0 (fun t => t.slot c n = { Slot.free with former := sl.domain })) ∧
        (∀ v a, n ≠ 0 → sl.state = .suspended → sl.saved = some v → v.ctx.act = some a → a.slot = n →
          bitOf (m.dword 0) 8 = false →
          Served .destroy s r 0 0 (fun t => t.slot c n = { Slot.free with former := sl.domain })) ∧
        (n ≠ 0 → sl.state = .active → Served .destroy s r 0 0 (fun t => (t.slot c n).state = .dying ∧
          ∀ (x : CtxId) (a : Activation), (s.ctx c x).act = some a → a.slot = n → bitOf (m.dword 0) 8 = true →
            Stop.kill sl.domain ∈ (t.ctx c x).stops))) ∧
      (Requested s c m 0x53 →
        (sl.state = .moved → Served .clear s r 0 0 (fun t => t.slot c n = Slot.free)) ∧
        (sl.state ≠ .moved → refused .clear 13))) ∧
  (∀ (s : State) (c : CoreId) (m : Msg),
      (Requested s c m 0x50 →
        let u := s.sysTake c 1
        let rd (p : Word × Nat) : List Byte := u.kernelRead c p.1.toNat p.2
        let e := leWords 8 (rd (m.dword 1, 64))
        let parts := (entryRanges e).map rd
        let domain := BitVec.ofNat 16 (bitsOf (m.dword 0) 31 16)
        let actor := parseActor e (parts[0]?.getD []) (parts[1]?.getD []) (parts[2]?.getD [])
        let slot? := (u.core c).pickSlot (bitsOf (m.dword 0) 3 0)
        (actor = none → Served .create s (m.dword 3) 3 0 (fun t => (t.core c).slots = (u.core c).slots)) ∧
        (∀ p, actor = some p → bitsOf (m.dword 0) 15 4 = 0 → bitsOf (m.dword 0) 63 32 = 0 → domain ≠ 0xFFFF →
          bitsOf (m.dword 2) 15 0 = 0 → p.cls ≠ 0 ∨ domain = 0 →
          (slot? = none → Served .create s (m.dword 3) 1 0 (fun t => (t.core c).slots = (u.core c).slots)) ∧
          (∀ n, slot? = some n →
            (placeRegions (u.core c).regions (wanted p) = none →
              Served .create s (m.dword 3) 2 0 (fun t => (t.core c).slots = (u.core c).slots)) ∧
            (∀ rs, placeRegions (u.core c).regions (wanted p) = some rs →
              Served .create s (m.dword 3) 0 n.val (fun t =>
                (t.slot c n).state = .idle ∧ (t.slot c n).domain = domain ∧ (t.slot c n).tvec = p.tvec ∧
                (t.slot c n).weight = p.weight ∧ (t.slot c n).cls = p.cls ∧ (t.slot c n).regions = rs ∧
                (t.slot c n).area = m.dword 2 ∧ (t.slot c n).seq = 0 ∧
                (∀ b ∈ (t.slot c n).mboxes, b.waiting = [] ∧ b.enabled = bitOf b.desc1 15) ∧
                (t.slot c n).mboxes.map (fun b => (b.desc0, b.desc1)) = p.mboxes ∧
                ((s.core c).spad.wf = true → ∀ r ∈ rs, ∀ j < r.size, (t.core c).spad.get (r.base + j) = 0)))))) ∧
      (∀ l a rs, (∃ b d, s.arg = .nums c.val b d) → s.sysHead c 0 = some m → m.tag = 0x4C →
        tabGet s.launches (bitsOf (m.dword 1) 31 0) = some l → l.actors[bitsOf (m.dword 1) 39 32]? = some a →
        l.state = .creating → a.core = c → a.created = false → a.slot ≠ 0 → (s.slot c a.slot).state = .free →
        placeRegions (s.core c).regions (wanted a.plan) = some rs →
        ∃ t k, exec .launchRecord s = .next t ∧ (t.slot c a.slot).state = .idle ∧ (t.slot c a.slot).domain = l.domain ∧
          (t.slot c a.slot).regions = rs ∧ (t.slot c a.slot).launch = some (bitsOf (m.dword 1) 31 0) ∧
          tabGet t.launches (bitsOf (m.dword 1) 31 0) = some k ∧
          k.actors[bitsOf (m.dword 1) 39 32]? = some { a with created := true } ∧
          (k.state = .running ↔ ∀ b ∈ k.actors, b.created = true)))

/-- Bring-up (R393 to R395): its five steps in turn, each with its record, a step begun where the one before has succeeded;
the first measures the image, the second derives key slot 0, loads Sartar on die 0 and releases the dies, each by a BOOT message
to its kernel core's system actor, whose entry it carries, the fourth sets up the clock arbiter, the gate table and the
translation service actors, and the last, with IO-A in service, reports READY. A signature that fails leaves every core in reset,
a die that fails training is left out, or ends bring-up where it is die 0, and Quartz, the fabric and the host link can fail.
How these outcomes come is the model's argument, and Sartar's place and bytes are free values (log entry 10); the translation
service actor's slot, mailbox and handler are the model's choice (log entries 8 and 101).

Reset (R10, R24, R32, R308): every register zero but k0, LEASE and CLKGS; every accumulator free; memory lists
nothing, no translation, no line, no queue, no key. COLD RESET and WARM RESET bring the device there; after a WARM
RESET Garnet keeps its records (R369). -/
def Obligations.BringUpAndReset : Prop :=
  (∀ (s : State),
      let failed (t : State) (fail : Nat) : Prop := t.boot = 12 ∧ bitsOf t.ready 7 0 = 3 ∧ bitsOf t.ready 15 8 = fail ∧
        bitsOf t.ready 23 16 = bitsOf s.ready 23 16 ∧ t.cores = s.cores ∧ t.pending = s.pending ∧ t.onyx = s.onyx
      let noted (t : State) : Prop := s.garnetA.frozen = false →
        ∃ r, t.garnetA.records = (r :: s.garnetA.records).take 4096
      (∀ a b, s.arg = .nums 0 a b → s.boot = 0 → ∃ t, exec .boot s = .next t ∧ t.boot = 1 ∧ noted t ∧
        bitsOf t.ready 23 0 = 1 ∧ t.cores = s.cores ∧
        tabGet t.onyx.measurements 0 = some ((List.range 48).map (fun i => Config.measurementByte 0 i))) ∧
      (∀ (d : DieId) (entry measure : Word), s.arg = .boot d entry measure → d.val + 1 = s.boot →
        s.ready.getLsbD (16 + d.val) = false → ∃ t, exec .boot s = .next t ∧
          t.boot = s.boot + 1 ∧ Replied t (endpointOf (kernelCore d).val 0 0) 0x42 [entry, measure] ∧
          (t.slot (kernelCore d) 0).mboxes = (s.slot (kernelCore d) 0).mboxes.modify 0 (fun b => { b with desc0 := entry }) ∧
          (∀ e : DieId, t.ready.getLsbD (16 + e.val) = (e == d || s.ready.getLsbD (16 + e.val))) ∧ bitsOf t.ready 7 0 = 1 ∧
          (d.val = 7 → noted t) ∧
          (d = 0 → t.onyx.keys = [(0, none)] ∧ (s.hbm.wf = true → ∀ i < Config.sartarSize,
            Config.sartarBase % Config.dieBytes + i < Config.dieBytes →
            t.hbm.get (Config.sartarBase % Config.dieBytes + i) = Config.sartarByte i))) ∧
      (∀ a b, s.arg = .nums 0 a b → s.boot = 9 → ∃ t, exec .boot s = .next t ∧ t.boot = 10 ∧ noted t ∧
        t.ready = s.ready ∧ t.cores = s.cores) ∧
      (∀ a b, s.arg = .nums 0 a b → s.boot = 10 → (∀ g : ClusterId, (s.cluster g).misses = []) →
        ∃ t, exec .boot s = .next t ∧ t.boot = 11 ∧ noted t ∧ t.ready = s.ready ∧ t.arbiter.cap = 3000 ∧
          t.gateBase = Config.gateTableBase.toNat ∧ t.callBase.isSome = true ∧
          ∀ g : ClusterId, s.ready.getLsbD (16 + (clusterDie g).val) = true →
            (s.slot (serviceCore g) (slotOf (serviceSlot g))).state = .free →
            let n := t.slot (serviceCore g) (slotOf (serviceSlot g))
            n.state = .idle ∧ n.domain = 0 ∧ n.cls = 0 ∧ ∃ b, n.mboxes = [b] ∧ b.enabled = true) ∧
      (∀ a b, s.arg = .nums 0 a b → s.boot = 11 → s.standby = false → ∃ t, exec .boot s = .next t ∧ t.boot = 12 ∧ noted t ∧
        bitsOf t.ready 7 0 = 2 ∧ bitsOf t.ready 15 8 = 0 ∧ bitsOf t.ready 23 16 = bitsOf s.ready 23 16 ∧
        t.device = Config.deviceId ∧ t.cores = s.cores) ∧
      (∀ a b, s.arg = .nums 0 a b → s.boot = 11 → s.standby = true → exec .boot s = .next s) ∧
      (∀ a b, s.arg = .nums 1 a b → s.boot = 0 → ∃ t, exec .boot s = .next t ∧ failed t 1) ∧
      (∀ fail b, s.arg = .nums 2 fail b → fail < 256 →
        (s.boot = 1 → ∃ t, exec .boot s = .next t ∧ failed t fail) ∧
        (2 ≤ s.boot → s.boot ≤ 8 → ∃ t, exec .boot s = .next t ∧ t.boot = s.boot + 1 ∧ t.ready = s.ready ∧
          t.cores = s.cores ∧ t.pending = s.pending)) ∧
      (∀ fail b, s.arg = .nums 3 fail b → (s.boot = 9 ∧ fail = 4) ∨ (s.boot = 11 ∧ (fail = 5 ∨ fail = 6)) →
        ∃ t, exec .boot s = .next t ∧ failed t fail)) ∧
  ((∀ (c : CoreId) (x : CtxId),
      let y := State.reset.ctx c x
      (∀ r, y.reg r = 0) ∧ (∀ v, y.vreg v = 0) ∧ (∀ q, y.queue q = []) ∧
      (∀ k : Fin 8, y.kregs[k] = (if k = 0 then BitVec.allOnes 128 else 0)) ∧ y.fflags = 0 ∧ y.lease = 2048 ∧
      y.clkgs = 0x18201E18 ∧ y.tvec = 0 ∧ y.tpc = 0 ∧ y.tcause = 0 ∧ y.tval = 0 ∧ y.tslot = 0 ∧ y.stack = [] ∧
      y.act = none ∧
      (∀ a : Fin 4, (State.reset.core c).matrix.accs[a].owner = 0xFFFF) ∧ (State.reset.core c).lclk = 0 ∧
      (State.reset.core c).l1 = [] ∧ (State.reset.core c).utlb = [] ∧ (State.reset.core c).guard = Guard.empty ∧
      (∀ n : SlotId, n ≠ 0 → (State.reset.slot c n).state = .free)) ∧
    State.reset.hbm = [] ∧ State.reset.quartz = 0 ∧ State.reset.onyx.keys = [] ∧ State.reset.windows = [] ∧
    (∀ s : State, ∃ t, exec .coldReset s = .next t ∧ t.cores = [] ∧ t.clusters = [] ∧ t.dies = [] ∧ t.hbm = [] ∧
      t.quartz = 0 ∧ t.launches = [] ∧ t.onyx = State.reset.onyx ∧ t.pending = []) ∧
    (∀ s : State, ∃ t, exec .warmReset s = .next t ∧ t.cores = [] ∧ t.clusters = [] ∧ t.hbm = [] ∧ t.quartz = 0 ∧
      t.onyx = State.reset.onyx ∧ t.pending = [] ∧ t.garnetA = s.garnetA ∧ t.garnetB = s.garnetB ∧
      ∀ d : DieId, (t.die d).garnet = (s.die d).garnet ∧ (t.die d).home = []))

/-! ### The command front end and launches (R147 to R157, R396 to R401) -/

namespace Sys2Proof.Claims

/-- An event of the queue whose descriptor stands at an address, on a die whose front end it names. -/
def OfQueue (s : State) (d : DieId) (addr : Nat) (k : Nat) : Prop :=
  s.arg = .nums d.val addr k ∧ (s.queueOf d addr).die = d.val

/-- The packet ws stands published at the head of the queue, as the front end reads it; u is the state it leaves. -/
def Head (s : State) (d : DieId) (addr : Nat) (u : State) (ws : List Word) : Prop :=
  (s.putQueue d addr (s.queueOf d addr)).queueHead d addr (s.queueOf d addr) = (u, some ws)

/-- A message of the front end with a tag and a payload is on its way, when its endpoint is on this device. -/
def Told (t : State) (ep : Word) (tag : Nat) (payload : List Word) : Prop :=
  bitsOf ep 47 36 = 0xFFF → Replied t ep tag payload

/-- The plan p of the LAUNCH packet ws at the head of a queue is known, and w is the state in which it is tried: the queue has it,
unheld and of a domain whose interface takes launches from it; or its block has just been found and read. -/
def PlanReady (d : DieId) (addr : Nat) (q : Queue) (u : State) (ws : List Word) (p : Plan) (w : State) : Prop :=
  (q.plan = some p ∧ q.held = false ∧ u.queueServes p.domain q.vf = true ∧ w = u) ∨
  (q.plan = none ∧ ∃ v v' b,
    findBlock (frontRead d addr) (nth ws 1) (u.blockDomains d addr q.ri (nth ws 1)) none u = .got v (some (b, true)) ∧
    readPlan (frontRead d addr (domainField (nth b 0))) q.vf (domainField (nth b 0)) (nth ws 1) b v = .got v' p ∧
    w = (v'.putQueue d addr { v'.queueOf d addr with plan := some p }).farClear (frontEng d addr (domainField (nth b 0))))

/-- The queue after an event. -/
def QueueIs (t : State) (d : DieId) (addr : Nat) (P : Queue → Prop) : Prop :=
  ∃ q, tabGet (t.die d).queues addr = some q ∧ P q

end Sys2Proof.Claims

/-- Command queues (R397 to R401): a NOP is consumed; a packet of reserved type puts the queue in STATE 2, reported
with cause REFUSED, and stays; an idle queue falls asleep, a doorbell calls it and it wakes within LATTOL; a doorbell of any
other queue has no effect.

LAUNCH (R147, R151, R154 to R156): a block that breaks a rule, or that its own DOMAIN cannot read, is refused with BADBLOCK,
and so is a plan whose domain's interface no longer takes launches from the queue; a plan that cannot be
placed with NOPLACE; one that gets no grant is HELD and its packet stays; one that does is in the table with its
places and its grant, its records are out, and the packet is consumed.

The model's choices: through which translations the front end finds a block, in which it leaves out no domain, and that one
that nothing reads is a REFUSED report that uses a launch number up (log entry 15); a kernel queue's report goes to the terminal
ring of domain 0 (log entry 68); BADBLOCK for a block that its own DOMAIN cannot read (log entry 67); how launch numbers are given
(log entry 107). -/
def Obligations.QueuesAndLaunch : Prop :=
  (∀ (s : State) (d : DieId) (addr k : Nat), OfQueue s d addr k →
      let q := s.queueOf d addr
      (∀ u ws, Head s d addr u ws → packetType ws ≠ 0 ∧ bitsOf (nth ws 0) 31 0 = q.ri % 2 ^ 32 ∧ q.state = 0) ∧
      (∀ u ws, Head s d addr u ws → packetType ws = 2 →
        ∃ t, exec .nopPacket s = .next t ∧
          QueueIs t d addr (fun p => p.ri = q.ri + 1 ∧ p.plan = none ∧ p.held = false ∧ p.state = 0)) ∧
      (∀ u ws, Head s d addr u ws → 3 ≤ packetType ws →
        ∃ t, exec .reservedPacketType s = .next t ∧ QueueIs t d addr (fun p => p.state = 2 ∧ p.ri = q.ri) ∧
          ∃ w ∈ t.ringWaits, w.ring = (if q.vf = 0xFFFF then terminalRing 0 else vfRing q.vf) ∧
            bitsOf w.entry 7 0 = 35) ∧
      (∀ u, (s.putQueue d addr q).queueHead d addr q = (u, none) → q.state = 0 → q.plan = none →
        q.idleSince + 1000000 ≤ s.quartz →
        ∃ t, exec .queueSleep s = .next t ∧ QueueIs t d addr (fun p => p.state = 1 ∧ p.ri = q.ri)) ∧
      (q.state = 1 → q.waking = none → ∃ t, exec .doorbell s = .next t ∧
        QueueIs t d addr (fun p => p = { q with waking := some (s.quartz + q.lattol * 1000) })) ∧
      (q.state ≠ 1 ∨ q.waking.isSome = true → ∃ t, exec .doorbell s = .next t ∧ QueueIs t d addr (fun p => p = q)) ∧
      (q.state = 1 → q.waking.isSome = true →
        ∃ t, exec .queueWakeUp s = .next t ∧ QueueIs t d addr (fun p => p.state = 0 ∧ p.waking = none ∧ p.ri = q.ri))) ∧
  (∀ (rd : BitVec 16 → Reader) (block : Word) (ds : List (BitVec 16)) (s : State) (mem : BitVec 16 → Option (List Byte)),
      (∀ v w, rd v w block 256 = (match mem v with | some bs => .got w bs | none => .bad w)) →
      let names (v : BitVec 16) (b : List Word) : Prop := domainField (nth b 0) = v ∧
        (mem v).map (leWords 32) = some b
      ∃ r, findBlock rd block ds none s = .got s r ∧ (r = none ↔ ∀ v ∈ ds, mem v = none) ∧
        (∀ b, r = some (b, true) → names (domainField (nth b 0)) b) ∧
        (∀ v ∈ ds, ∀ b, names v b → ∃ b', r = some (b', true))) ∧
  (∀ (s : State) (d : DieId) (addr ri : Nat) (block : Word) (v : BitVec 16),
      v ≠ 0xFFFF → v ∈ s.blockDomains d addr ri block) ∧
  (∀ (s : State) (d : DieId) (addr k : Nat) (u : State) (ws : List Word), OfQueue s d addr k → Head s d addr u ws →
      packetType ws = 1 →
      let q := s.queueOf d addr
      let block := nth ws 1
      let refused (v : State) (complete user : Word) (st : Nat) : Prop := ∃ t l, exec .launch s = .next t ∧
        tabGet t.launches (v.launchCount + 1) = some l ∧ l.state = .completed ∧ l.status = st ∧
        t.launchCount = v.launchCount + 1 ∧ QueueIs t d addr (fun p => p.ri = (v.queueOf d addr).ri + 1) ∧
        Told t complete 0xC0 [word (v.launchCount + 1), word st, user, word v.quartz]
      (∀ v, q.plan = none → findBlock (frontRead d addr) block (u.blockDomains d addr q.ri block) none u = .got v none →
        ∃ t, exec .launch s = .next t ∧ t.launches = v.launches ∧ t.launchCount = v.launchCount + 1 ∧
          QueueIs t d addr (fun p => p.ri = (v.queueOf d addr).ri + 1)) ∧
      (∀ v b own, q.plan = none →
        findBlock (frontRead d addr) block (u.blockDomains d addr q.ri block) none u = .got v (some (b, own)) →
        let domain := domainField (nth b 0)
        (own = false ∨ block &&& 255 ≠ 0 ∨ blockBroken b = true ∨ v.queueServes domain q.vf = false →
          refused v (nth b 8) (nth b 10) 1) ∧
        (∀ v', own = true → readPlan (frontRead d addr domain) q.vf domain block b v = .bad v' →
          refused v' (nth b 8) (nth b 10) 1)) ∧
      (∀ p, q.plan = some p → u.queueServes p.domain q.vf = false → refused u p.complete p.usertag 1) ∧
      (∀ (p : Plan) (w v : State), PlanReady d addr q u ws p w → w.noteHomes d addr p = (v, true) →
        let n := v.launchCount + 1
        let homes := (v.queueOf d addr).homes
        (v.placeAll p homes p.actors v.reserved = none → refused v p.complete p.usertag 2) ∧
        (∀ vs, v.placeAll p homes p.actors v.reserved = some vs →
          let ask := Ask.of p.mul p.floor p.hold p.pweight (vs.map (·.1))
          (v.askNew ask = none →
            ∃ t, exec .launch s = .next t ∧ t.launches = v.launches ∧ t.launchCount = v.launchCount ∧
              QueueIs t d addr (fun p => p.held = true ∧ p.ri = (v.queueOf d addr).ri)) ∧
          (∀ g floors, v.askNew ask = some (g, floors) →
            ∃ t l, exec .launch s = .next t ∧ tabGet t.launches n = some l ∧ l.state = .creating ∧ l.grant = g ∧
              l.seq = 1 ∧ l.effective = g ∧ l.domain = p.domain ∧
              l.actors.map (fun a => (a.core, a.slot)) = (vs.zip p.actors).map (·.1) ∧
              (∀ a ∈ l.actors, a.created = false) ∧ QueueIs t d addr (fun p => p.ri = (v.queueOf d addr).ri + 1) ∧
              ∀ i w, vs[i]? = some w → Replied t (endpointOf w.1.val 0 0) 0x4C
                [p.block, word (n % 2 ^ 32 + i % 256 * 2 ^ 32 + w.2.val * 2 ^ 40), p.table + word (64 * i),
                  word (g.toNat + 2 ^ 32)]))))

/-- The end of a launch (R154, R157): when every actor is destroyed and no posted store is out, the completion goes to
COMPLETE, of one that failed with the status it failed with, and the grant is released; after 10 ms the stores still out are
abandoned, with status LOSTPOST. And the
reporting port (R349, R351): the oldest entry of the ring in turn is written at WIDX, or dropped at a full terminal
ring and counted; then the doorbell. -/
def Obligations.LaunchEndAndRings : Prop :=
  ∀ (s : State),
    (∀ n a b l, s.arg = .nums n a b → tabGet s.launches n = some l → l.state = .running →
      (∀ v ∈ l.actors, v.destroyed = true) →
      (s.launchPosts n = false → ∃ t k, exec .launchCompletion s = .next t ∧ tabGet t.launches n = some k ∧
        k.state = .completed ∧ t.arbiter.due = true ∧
        Told t l.complete 0xC0 [word n, word (l.status + (l.actors.filter (·.created)).length * 256), l.usertag,
          word s.quartz]) ∧
      (s.launchPosts n = true → l.endedAt.getD 0 + 10000000 ≤ s.quartz →
        ∃ t k, exec .lostpost s = .next t ∧ tabGet t.launches n = some k ∧ k.status = 4 ∧ k.state = .running ∧
          t.launchPosts n = false)) ∧
    (∀ n a b l st, s.arg = .nums n a b → tabGet s.launches n = some l → l.state = .failing st →
      (∀ v ∈ l.actors, v.destroyed = true ∨ v.created = false) → s.launchPosts n = false →
      ∃ t k, exec .launchCompletion s = .next t ∧ tabGet t.launches n = some k ∧ k.state = .completed ∧ k.status = st ∧
        Told t l.complete 0xC0 [word n, word (st + (l.actors.filter (·.created)).length * 256), l.usertag,
          word s.quartz]) ∧
    (let n := s.portRing
     let r := s.ringOf n
     let c := kernelCore (ringDie n)
     (∀ w rest, takeFirst n s.ringWaits = some (w, rest) → s.portDone < r.weight →
       (s.ringFull n r = false → ∃ t, exec .ringEntryWrite s = .next t ∧ t.ringWaits = rest ∧
         t.ringOf n = { r with widx := (r.widx + 1) % 2 ^ 32 } ∧ t.portDone = s.portDone + 1 ∧
         t.hbm = ((s.kernelWrite c (r.base + r.widx % 2 ^ r.logn * 32) (leBytes 32 w.entry.toNat)).kernelWrite c
           (r.addr + 16) (leBytes 4 ((r.widx + 1) % 2 ^ 32))).hbm) ∧
       (s.ringFull n r = true → 8 ≤ n → ∃ t, exec .ringEntryWrite s = .next t ∧ t.ringWaits = rest ∧
         t.ringOf n = { r with lost := min (r.lost + 1) (2 ^ 32 - 1) })) ∧
     (takeFirst n s.ringWaits = none → tabGet s.rings n = some r → r.owes = true →
       ∃ t, exec .ringEntryWrite s = .next t ∧ Told t r.doorbell 0x52 [word r.widx] ∧
         t.ringOf n = { r with bell := true, told := r.widx }))

/-! ### Clocks and time (R158 to R164, R260, R261, R375) -/

/-- CLKRQ completes (R341): 17 for an actor of no launch, 15 for a request that breaks R149, 16 for one that does not
fit, which changes nothing; and 0 for one granted, which replaces the launch's request. Bits 63 to 32 are a sequence
number of its grant.

The grant of a launch (R159): what is granted fits its share, and is either the floors or k sixteenths of the
multipliers, not below the floors, with the held pairs exact; for the worked example of R160 the three grants and the
HELD launch come out as the manual gives them. -/
def Obligations.ClockRequests : Prop :=
  (∀ (rd : Fin 32) (a b : Opnd) (imm : Imm) (mul floor : Word) (x' : Ctx) (s : State),
      s.here.optimistic = false → s.here.take imm.word [a, b] = some ([mul, floor], x') →
      (s.launchOf s.focus s.here = none →
        Answers (.clkrq rd a b imm) (lenImm imm) rd (word (17 + s.here.clkseq.toNat * 2 ^ 32)) x' s) ∧
      (∀ n l, s.launchOf s.focus s.here = some n → tabGet s.launches n = some l →
        (requestBroken mul floor = true →
          Answers (.clkrq rd a b imm) (lenImm imm) rd (word (15 + l.effectiveSeq * 2 ^ 32)) x' s) ∧
        (requestBroken mul floor = false →
          ∃ t v, exec (.clkrq rd a b imm) s = .next t ∧ t.here.reg rd = (if rd = 0 then 0 else word v) ∧
            t.here.pc = (s.here.retire (lenImm imm)).pc ∧
            ((v % 2 ^ 32 = 16 ∧ t.launches = s.launches) ∨
             (v % 2 ^ 32 = 0 ∧ ∃ m, tabGet t.launches n = some m ∧ m.mul = mul.truncate 32 ∧
                m.floor = floor.truncate 32))))) ∧
  ((∀ (q : Ask) (num den : Nat) (c : BitVec 32) (fl : Bool), q.grant num den = some (c, fl) →
      q.predicted c * den ≤ num ∧
      (fl = true → c = q.floor) ∧
      (fl = false → q.held c = true ∧ ∃ k, 8 ≤ k ∧ k ≤ 16 ∧ ∀ i < 4,
        clkField c i = max (clkField q.floor i) (clkField q.mul i * k / 16))) ∧
    (∀ (q : Ask) (num den : Nat), q.grant num den = none → num < q.predicted q.floor * den) ∧
    (let q : Ask := { mul := 0x18202824, floor := 0x18201E18, hold := 1, weight := 1, homes := [], cores := 1020,
                      dies := 4, fresh := true }
     q.grant (2740 * wattUnits) 1 = some (0x18202824, false) ∧ q.grant (1540 * wattUnits) 1 = some (0x18201E1B, false) ∧
     q.grant (1040 * wattUnits) 1 = some (0x18201E18, true) ∧ q.grant (990 * wattUnits) 1 = none))

/-- Events of the arbiter and of time (R161 to R164, R260, R261, R375): a re-grant gives each changed grant the next
CLKSEQ, a decrease 20 µs of notice, and no change an effect before a pending decrease; an emergency takes effect at
once and cancels the rest; a change that is due reaches CLKGS and CLKSEQ of every activation of its launch. A quad
stops only when nothing runs there, and comes back with LCLK at Quartz time. TIMELOST drops the leased copies, and
faults the stalled stores and commits 1 ms later; a resynchronised core goes on. -/
def Obligations.ClockEvents : Prop :=
  ∀ (s : State),
    (s.arbiter.due = true → (s.launches.map (·.1)).Nodup → ∃ t, exec .reGrant s = .next t ∧ t.arbiter.due = false ∧
      (∀ (d : DieId) a p, tabGet (t.die d).queues a = some p → p.held = false) ∧
      (∀ n l, tabGet s.launches n = some l → ∃ k, tabGet t.launches n = some k ∧ k.effective = l.effective ∧
        (k.grant = l.grant ∧ k.seq = l.seq ∨ k.grant ≠ l.grant ∧ k.seq = l.seq + 1 ∧ l.resident = true)) ∧
      (∀ c ∈ t.arbiter.changes, c ∈ s.arbiter.changes ∨ (s.quartz ≤ c.at_ ∧
        (c.down = true → s.quartz + 20000 ≤ c.at_) ∧ (∀ b ∈ s.arbiter.changes, b.down = true → b.at_ ≤ c.at_)))) ∧
    (∀ w a b, s.arg = .nums w a b → ∃ t, exec .thermalTrip s = .next t ∧ t.arbiter.changes = [] ∧
      ∀ n l, tabGet t.launches n = some l → l.grant = l.effective) ∧
    (∀ c, s.arbiter.changes.find? (fun c => c.at_ ≤ s.quartz) = some c →
      ∃ t, exec .grantEffect s = .next t ∧
        (∀ l, tabGet s.launches c.launch = some l → ∃ k, tabGet t.launches c.launch = some k ∧
          k.effective = c.grant ∧ k.effectiveSeq = c.seq) ∧
        ∀ (o : CoreId) (x : CtxId) (a : Activation), (s.ctx o x).act = some a →
          (s.slot o a.slot).launch = some c.launch →
          (t.ctx o x).clkgs = c.grant ∧ (t.ctx o x).clkseq = BitVec.ofNat 32 c.seq) ∧
    (∀ (d : DieId) (q b : Nat), s.arg = .nums d.val q b → q < 64 →
      let mine (c : CoreId) : Prop := c.val / 256 = d.val ∧ c.val % 256 / 32 = q / 8 ∧ c.val % 16 / 2 = q % 8
      ((∀ c, mine c → s.mayStop c = true) → (∃ c, mine c ∧ (s.core c).stopped = false) →
        ∃ t, exec .quadClockStop s = .next t ∧ (∀ c, mine c → (t.core c).stopped = true) ∧
          (∀ c, ¬mine c → t.core c = s.core c)) ∧
      ((∃ c, mine c ∧ (s.core c).stopped = true) →
        ∃ t, exec .quadRestart s = .next t ∧ (∀ c, mine c → (t.core c).stopped = false ∧
          ((s.core c).stopped = true → (t.core c).lclk = max (s.core c).lclk s.quartz)) ∧
          (∀ c, ¬mine c → t.core c = s.core c))) ∧
    (∀ (c : CoreId) (a b : Nat), s.arg = .nums c.val a b →
      ((s.core c).timelost = none → ∃ t, exec .timelost s = .next t ∧ (t.core c).timelost = some s.quartz ∧
        (∀ p ∈ (t.core c).l1, p.2.leased = 0)) ∧
      ((s.core c).timelost.isSome = true → ∃ t, exec .quartzResync s = .next t ∧ (t.core c).timelost = none ∧
        (t.core c).lclk = max (s.core c).lclk s.quartz) ∧
      (∀ t0, (s.core c).timelost = some t0 → t0 + 1000000 ≤ s.quartz →
        ∃ t, exec .timelostFault s = .next t ∧ ∀ (x : CtxId) o w r, (s.ctx c x).op = some o → o.todo = w :: r →
          (o.stalledStore = true → (t.ctx c x).op = none ∧
            ∃ k p, Stop.fault 21 w.addr k p ∈ (t.ctx c x).stops) ∧
          (o.stalledStore = false → (s.ctx c x).stalledCommit = false → t.ctx c x = s.ctx c x)) ∧
      (∀ t0 x, (s.core c).timelost = some t0 → t0 + 1000000 ≤ s.quartz → (s.ctx c x).stalledCommit = true →
        ∃ t a k p, exec .timelostFault s = .next t ∧ Stop.fault 21 a k p ∈ (t.ctx c x).stops)) ∧
    (∃ t, exec .quartzFailover s = .next t ∧ t.standby = true ∧ t.quartz = s.quartz ∧ t.cores = s.cores) ∧
    (∀ (c : CoreId) (x : CtxId) (rts a b : Nat), s.arg = .nums c.val a b → (s.ctx c x).watch = some (.leased rts) →
      rts + 4096 < s.quartz → ∃ t, exec .leaseEnd s = .next t ∧ (t.ctx c x).watch = none) ∧
    (∀ (c : CoreId) (x : CtxId) (o : MemOp) (t0 : Nat), s.arg = .wait (.ctx c x) → (s.ctx c x).op = some o →
      o.storeAt = some t0 →
      (t0 ≤ s.quartz + 4096 → (s.core c).timelost = none → exec .storeWaitEnd s = .next (s.retryOp c x)) ∧
      (s.quartz + 4096 < t0 → exec .storeWaitEnd s = .next s)) ∧
    (∀ (d : DieId) (line t0 : Nat) (p : Proto), s.arg = .wait (.home (.slice d) line) →
      (s.dir (.slice d) line).performAt = some t0 → (s.dir (.slice d) line).cur = some p →
      (t0 ≤ s.quartz + 4096 → exec .storeWaitEnd s = .next (s.writeAt d p t0)) ∧
      (s.quartz + 4096 < t0 → exec .storeWaitEnd s = .next s)) ∧
    -- links (R376): only Garnet shows a replay or a port that failed
    (∀ g a b, s.arg = .nums g a b → a < 36 → ∃ t u, exec .linkReplay s = .next t ∧ exec .portFailure s = .next u ∧
      t.cores = s.cores ∧ t.pending = s.pending ∧ t.hbm = s.hbm ∧ u.cores = s.cores ∧ u.pending = s.pending ∧
      u.hbm = s.hbm ∧ u.dies = s.dies)

/-! ### Coherence and logical time (R242 to R259, R268, R370 to R373, R381, R382) -/

namespace Sys2Proof.Claims

/-- An access is aligned, and its checks place it in memory of the device (R221, R230, R280). -/
def OnDevice (s : State) (ea : Word) (size kind : Nat) (pol : Pol) (pa : Nat) (at_ : Pol) : Prop :=
  ea.toNat % size = 0 ∧ pa / 128 < 2 ^ 45 ∧ ∃ home key e,
    s.placeOf s.who ea size kind pol = .at (.memory pa home key at_) e ∧ (home = .thisDie ∨ home = .otherDie)

/-- A coherence message goes from src to dst. -/
def Sends (t : State) (src dst : Nat) (row : Instr) (P : Proto → Prop) : Prop :=
  ∃ f ∈ t.pending, f.src = src ∧ f.dst = dst ∧ ∃ q, f.ev = ⟨row, .proto q⟩ ∧ P q

/-- The requester of a slice with an id: a core of its die, or a remote-data cache (R246). -/
def requester (d : DieId) (n : Nat) : Nat :=
  if n < 256 then agentCore (dieCore d n) else agentRdc (dieNum (n - 256))

/-- The request p reaches slice d, whose line is in a stable state, holds a way of the L2 or finds a free one, is reserved by
no commit, and has no earlier request in the slice's queue. -/
def AtHome (s : State) (d : DieId) (p : Proto) : Prop :=
  let e := s.dir (.slice d) p.line
  s.arg = .proto p ∧ p.unit = .slice d ∧ p.reqr < 264 ∧ p.mask ≠ 0 ∧ e.cur = none ∧
    tabGet (s.die d).reserved p.line = none ∧
    ((tabGet (s.die d).home p.line).isSome = true ∨ (s.l2Ways d p.line).length < 16) ∧ ∀ q ∈ s.sliceQueue d (sliceOf p.line), q.line ≠ p.line

/-- The entry has a free owner index. -/
def Room (e : DirLine) : Prop := ∃ j, 1 ≤ j ∧ j ≤ 4 ∧ e.owner j = none ∧ e.ownerMask j = 0

end Sys2Proof.Claims

/-- LD, ST, STF and AMO on memory of the device (R241, R242, R249, R256, R259, R283): a load of owned words, or from a
copy that is tracked or whose lease holds, is served in the L1 at t = max(LCLK, wts); a store to owned words takes
t = max(LCLK, rts + 1), once t is within GTB + G; anything else sends the request of its policy and waits, but an STF
goes on at once, and its home checks the key (R284). -/
def Obligations.DeviceMemory : Prop :=
  ∀ (m : FmtM) (s : State) (pa : Nat) (pol : Pol), MemReady s → m.sz ≠ .s16 → s.hereCore.timelost = none →
    let c := s.focus
    let ea := FmtM.addr m s.here
    let size := m.sz.bytes
    let line := pa / 128
    let l := s.l1Line c line
    let w := wordMask (pa % 128) size
    let owned := l.valid ≠ 0 ∧ l.owned &&& w = w
    let now := s.lclkNow c
    let v := lineField l.data (pa % 128) size
    let unit := unitOf c line
    let out (t : State) (k : ReqKind) (P : Proto → Prop) : Prop := ∃ p, t.pending = s.pending ++
      [⟨agentCore c, unitAgent line unit, ⟨requestRow k, .proto p⟩⟩] ∧ p.kind = k ∧ p.line = line ∧ p.mask = w ∧
      p.lclk = now ∧ p.reqr = c.val % 256 ∧ P p
    let waits (i : Instr) (k : ReqKind) (P : Proto → Prop) : Prop :=
      ∃ t, exec i s = .next t ∧ t.here.wait = .memory ∧ t.here.pc = s.here.pc ∧ t.here.regs = s.here.regs ∧ out t k P
    (∀ signed i, (i = .ldZeroExtending m ∧ signed = false) ∨ (i = .ldSignExtending m ∧ signed = true) →
      OnDevice s ea size kindRead m.pol pa pol →
      (owned ∨ (l.valid ≠ 0 ∧ l.owned &&& w = 0 ∧ l.valid &&& w = w ∧
          ((pol = .lease ∧ max now l.copyWts ≤ l.copyRts) ∨
            ((pol = .lease ∨ pol = .track) ∧ l.tracked &&& w = w))) →
        ∃ t, exec i s = .next t ∧ t.here.reg m.d = (if m.d = 0 then 0 else loaded signed size v) ∧
          (∀ n, n ≠ m.d → t.here.reg n = s.here.reg n) ∧ t.here.pc = (s.here.retire (lenOff m.off)).pc ∧
          t.hereCore.lclk = max now (if l.owned &&& w = w then l.wts else if l.leased &&& w ≠ 0 then l.copyWts
            else l.trackWts) ∧ t.hbm = s.hbm ∧
          t.pending = s.pending) ∧
      (l.owned &&& w ≠ w →
        (pol = .thru → waits i .rdu (fun _ => True)) ∧
        (pol = .lease → l.tracked &&& w ≠ w → l.valid &&& w ≠ w ∨ l.copyRts < max now l.copyWts →
          waits i .rdl (fun p => p.lease = s.here.lease.toNat ∧ p.wts = l.copyWts)) ∧
        (pol = .track → l.tracked &&& w ≠ w → waits i .rdt (fun _ => True)) ∧
        (pol = .own → waits i (if l.owned = 0 ∧ l.tracked &&& w = w then .upg else .rdx) (fun p => p.grant = .value)))) ∧
    (∀ i k, (i = .st m ∧ k = kindWrite) ∨ (i = .stf m ∧ k = 4) → OnDevice s ea size k m.pol pa pol → m.ord = .none → owned →
      let t0 := max now (l.rts + 1)
      (t0 ≤ s.quartz + 4096 →
        ∃ t, exec i s = .next t ∧ t.here.pc = (s.here.retire (lenOff m.off)).pc ∧ t.here.regs = s.here.regs ∧
          (t.l1Line c line).wts = t0 ∧ (t.l1Line c line).rts = t0 ∧ (t.l1Line c line).valid = l.valid ∧
          lineField (t.l1Line c line).data (pa % 128) size = (s.here.reg m.d).toNat % 2 ^ (8 * size) ∧
          (∀ i < 128, i < pa % 128 ∨ pa % 128 + size ≤ i →
            lineField (t.l1Line c line).data i 1 = lineField l.data i 1) ∧
          t.hereCore.lclk = t0 ∧ t.hbm = s.hbm) ∧
      (s.quartz + 4096 < t0 →
        ∃ t o, exec i s = .next t ∧ t.here.wait = .memory ∧ t.here.pc = s.here.pc ∧ t.here.op = some o ∧
          o.storeAt = some t0)) ∧
    (OnDevice s ea size kindWrite m.pol pa pol →
      (l.owned &&& w ≠ w → pol ≠ .own → waits (.st m) .wt (fun p => p.pol = pol ∧ p.wmask = byteMask (pa % 128) size ∧
        p.data = lineOf (pa % 128) size (s.here.reg m.d).toNat)) ∧
      (l.owned &&& w ≠ w → pol = .own →
        waits (.st m) (if l.owned = 0 ∧ l.tracked &&& w = w then .upg else .rdx) (fun p => p.grant = .owned))) ∧
    (OnDevice s ea size 4 m.pol pa pol → l.owned &&& w ≠ w → (s.hereCore.posted.filter (·.stf)).length < Config.postedMax →
      ∃ t q, exec (.stf m) s = .next t ∧ t.here.pc = (s.here.retire (lenOff m.off)).pc ∧ t.here.op = none ∧
        t.here.regs = s.here.regs ∧ t.hereCore.posted = s.hereCore.posted ++ [q] ∧ q.line = line ∧ q.mask = w ∧
        out t .wt (fun p => p.waiter = .posted c q.id ∧ p.wmask = byteMask (pa % 128) size)) ∧
    (∀ fn i, (fn, i) ∈ amoRows m → i.wellFormed = true → OnDevice s ea size kindRmw .thru pa pol →
      waits i .amo (fun p => p.op = some (.amo fn size (pa % 128) (s.here.reg m.d)
        (s.here.reg (Fin.ofNat 32 (m.d.val + 1))))))

/-- Writes and grants at the home (R243, R247, R250, R252, R255, R256, R259): RDX and UPG of home words grant them, with
data or without, once every sharer is invalidated; a UPG of no sharer is an RDX; owned words are first recalled by RCW;
WT and AMO take t = max(LCLK, rts + 1), once within GTB + G, and EWR max(wts, rts + 1) at once; WB brings words home. The
store of an STF whose key slot is not loaded is discarded and reported (R284). -/
def Obligations.HomeWrites : Prop :=
  ∀ (s : State) (d : DieId) (p : Proto), AtHome s d p → s.hbm.wf = true →
    let e := s.dir (.slice d) p.line
    let after (u : State) : DirLine := u.dir (.slice d) p.line
    let merged := mergeBits (s.hbmLine p.line) p.data (byteBits p.wmask)
    let granted (i : Instr) (P : State → Proto → Prop) : Prop := ∃ u j, exec i s = .next u ∧ u.hbm = s.hbm ∧
      ((after u).owner j).any (·.id == p.reqr) = true ∧ p.mask &&& (after u).ownerMask j = p.mask ∧
      Sends u (agentSlice p.line) (requester d p.reqr) .data (fun q => q.grant = .owned ∧ q.mask = p.mask ∧
        q.wts = e.wts ∧ q.rts = e.rts ∧ P u q)
    let t0 := max p.lclk (e.rts + 1)
    (e.homeMask &&& p.mask = p.mask → Room e →
      (e.sharers = [] → granted .rdx (fun _ q => q.data = s.hbmLine p.line ∧ q.wmask = bytesOfWords p.mask)) ∧
      (p.reqr ∈ e.sharers → (∀ n ∈ e.sharers, n = p.reqr) →
        granted .upg (fun u q => q.wmask = 0 ∧ p.reqr ∉ (after u).sharers)) ∧
      (p.reqr ∉ e.sharers → exec .upg s = exec .rdx s) ∧
      (e.sharers ≠ [] → e.st ≠ .sp →
        ∃ u, exec .rdx s = .next u ∧ (after u).st = .hInv ∧ (after u).cur.isSome = true ∧ u.hbm = s.hbm ∧
          ∀ n ∈ e.sharers, n < 264 → Sends u (agentSlice p.line) (requester d n) .inv (fun q => q.line = p.line))) ∧
    (∀ i j o, i = .rdx ∨ (i = .wt ∧ p.op = none) ∨ i = .amoMessage ∨ i = .ewr → 1 ≤ j → j ≤ 4 → e.owner j = some o →
      o.id < 264 → o.id ≠ p.reqr ∨ i ≠ .rdx → e.ownerMask j &&& p.mask ≠ 0 →
      ∃ u, exec i s = .next u ∧ (after u).cur.isSome = true ∧ u.hbm = s.hbm ∧
        (after u).st = (if i = .rdx then .hSpl else .hFwd) ∧
        Sends u (agentSlice p.line) (requester d o.id) .rcw (fun q =>
          (e.ownerMask j &&& p.mask) &&& q.mask = e.ownerMask j &&& p.mask ∧ q.line = p.line)) ∧
    (∀ c q, e.homeMask &&& p.mask = p.mask → e.sharers = [] → s.lockedStf p = some (c, q) → t0 ≤ s.quartz + 4096 →
      ∃ u, exec .wt s = .next u ∧ u.hbm = s.hbm ∧ (after u).wts = e.wts ∧ (after u).rts = e.rts ∧ (after u).cur = none ∧
        (∃ w ∈ u.ringWaits, bitsOf w.entry 7 0 = 33) ∧
        Sends u (agentSlice p.line) (requester d p.reqr) .ack (fun q => q.line = p.line)) ∧
    (e.homeMask &&& p.mask = p.mask → e.sharers = [] → s.lockedStf p = none →
      (p.op = none → t0 ≤ s.quartz + 4096 →
        ∃ u, exec .wt s = .next u ∧ u.hbmLine p.line = merged ∧ (after u).wts = t0 ∧ (after u).rts = t0 ∧
          (after u).cur = none ∧ Sends u (agentSlice p.line) (requester d p.reqr) .ack (fun q => q.lclk = t0)) ∧
      (s.quartz + 4096 < t0 → ∀ i, i = .wt ∨ i = .amoMessage →
        ∃ u, exec i s = .next u ∧ u.hbm = s.hbm ∧ (after u).performAt = some t0 ∧ (after u).cur.isSome = true) ∧
      (∀ fn size off x y, p.op = some (.amo fn size off x y) → size = 4 ∨ (size = 8 ∧ fn ≠ .fadd32) → off + size ≤ 128 →
        t0 ≤ s.quartz + 4096 →
        let old := BitVec.ofNat (8 * size) (leNat (s.hbm.bytes (128 * p.line + off) size))
        ∃ u, exec .amoMessage s = .next u ∧ (after u).wts = t0 ∧ (after u).rts = t0 ∧
          BitVec.ofNat (8 * size) (leNat (u.hbm.bytes (128 * p.line + off) size)) =
            (amoResult fn old (x.setWidth (8 * size)) (y.setWidth (8 * size))).getD old ∧
          (∀ a, a < 128 * p.line + off ∨ 128 * p.line + off + size ≤ a → u.hbm.get a = s.hbm.get a) ∧
          Sends u (agentSlice p.line) (requester d p.reqr) .ack (fun q => q.lclk = t0 ∧ q.old = old.setWidth 64)) ∧
      (∃ u, exec .ewr s = .next u ∧ u.hbmLine p.line = merged ∧ (after u).wts = max e.wts (e.rts + 1) ∧
        (after u).rts = max e.wts (e.rts + 1) ∧
        Sends u (agentSlice p.line) (requester d p.reqr) .ack (fun q => q.line = p.line))) ∧
    (∀ j o, 1 ≤ j → j ≤ 4 → e.owner j = some o → o.id = p.reqr → e.awaiting = [] →
      (∀ k o', 1 ≤ k → k ≤ 4 → k ≠ j → e.owner k = some o' → o'.id ≠ p.reqr) →
      let words := e.ownerMask j &&& p.mask
      ∃ u, exec .wb s = .next u ∧ (after u).homeMask = e.homeMask ||| words ∧ (after u).wts = max e.wts p.wts ∧
        (after u).rts = max e.rts p.rts ∧ u.pending = s.pending ∧
        u.hbmLine p.line = mergeBits (s.hbmLine p.line) p.data (byteBits (p.wmask &&& bytesOfWords words)))

/-- Reads at the home (R250, R256, R258): RDU, RDL, RDT and ERD of words held there are performed at t = max(LCLK, wts),
raising rts, for RDL by the lease, for RDT with the requester in SHARERS; words with an owner are first recalled by
RCR.

A line in a transient state (R251, R253): other requests wait in the slice's queue of 64, or are answered NACK and
sent again; each INVACK raises rts, each RDATA brings its words home; WBPEND makes the home wait for the WB; with the
last awaited answer the request is performed. -/
def Obligations.HomeReadsAndAnswers : Prop :=
  (∀ (s : State) (d : DieId) (p : Proto), AtHome s d p →
      let e := s.dir (.slice d) p.line
      let t0 := max p.lclk e.wts
      let done (i : Instr) (rts : Nat) (P : State → Proto → Prop) : Prop := ∃ u, exec i s = .next u ∧
        (u.dir (.slice d) p.line).rts = rts ∧ (u.dir (.slice d) p.line).wts = e.wts ∧ u.hbm = s.hbm ∧
        Sends u (agentSlice p.line) (requester d p.reqr) .data (fun q => q.wts = e.wts ∧ q.data = s.hbmLine p.line ∧ P u q)
      (e.homeMask &&& p.mask = p.mask →
        done .rdu (max e.rts t0) (fun _ q => q.grant = .value ∧ q.mask = p.mask ∧ q.lclk = t0) ∧
        done .rdl (max e.rts (t0 + p.lease)) (fun _ q => q.grant = .leased ∧ q.mask = e.homeMask ∧ q.lclk = t0 ∧
          q.rts = max e.rts (t0 + p.lease) ∧
          q.wmask = (if p.wmask ≠ 0 ∧ p.wts = e.wts then 0 else bytesOfWords e.homeMask)) ∧
        done .rdt (max e.rts t0) (fun u q => q.grant = .tracked ∧ q.mask = e.homeMask ∧ q.lclk = t0 ∧
          p.reqr ∈ (u.dir (.slice d) p.line).sharers) ∧
        done .erd e.rts (fun _ q => q.mask = p.mask)) ∧
      (∀ i j o, i = .rdu ∨ i = .rdl ∨ i = .rdt ∨ i = .erd → 1 ≤ j → j ≤ 4 → e.owner j = some o → o.id < 264 →
        e.ownerMask j &&& p.mask ≠ 0 →
        ∃ u, exec i s = .next u ∧ (u.dir (.slice d) p.line).st = .hFwd ∧ (u.dir (.slice d) p.line).cur.isSome = true ∧
          u.hbm = s.hbm ∧
          Sends u (agentSlice p.line) (requester d o.id) .rcr (fun q => q.mask = e.ownerMask j &&& p.mask ∧ q.line = p.line))) ∧
  (∀ (s : State) (d : DieId) (p : Proto), s.arg = .proto p → p.unit = .slice d → p.reqr < 264 →
      let e := s.dir (.slice d) p.line
      let after (u : State) : DirLine := u.dir (.slice d) p.line
      let n := sliceOf p.line
      (∀ k, k ≠ .wb ∨ e.awaitsWb p.reqr = none → e.cur.isSome = true →
        ((s.sliceQueue d n).length < 64 → ∃ u, exec (requestRow k) s = .next u ∧
          u.sliceQueue d n = s.sliceQueue d n ++ [{ p with kind := k }] ∧ u.pending = s.pending ∧ u.hbm = s.hbm) ∧
        (64 ≤ (s.sliceQueue d n).length → ∃ u, exec (requestRow k) s = .next u ∧
          u.sliceQueue d n = s.sliceQueue d n ∧ u.hbm = s.hbm ∧
          Sends u (agentSlice p.line) (requester d p.reqr) .nack (· = { p with kind := k }))) ∧
      (∃ u, exec .nack s = .next u ∧ Sends u (requester d p.reqr) (agentSlice p.line) .nackResend (· = p)) ∧
      (exec .nackResend s = exec (requestRow p.kind) s ∧ ∃ u, exec .nackResend s = .next u) ∧
      (Await.inv p.reqr ∈ e.awaiting →
        (∀ b, b ∈ e.awaiting → b ≠ .inv p.reqr →
          ∃ u, exec .invack s = .next u ∧ (after u).cur = e.cur ∧ p.reqr ∉ (after u).sharers ∧
            (after u).rts = max e.rts p.lclk ∧ b ∈ (after u).awaiting ∧ u.pending = s.pending) ∧
        (∀ q, (∀ b ∈ e.awaiting, b = .inv p.reqr) → e.cur = some q → q.kind = .rdx → q.unit = .slice d →
          q.line = p.line → q.reqr < 264 → ∃ u, exec .invack s = .next u ∧ (after u).cur = none ∧
            Sends u (agentSlice p.line) (requester d q.reqr) .data (fun r => r.grant = .owned ∧ r.mask = q.mask ∧
              r.rts = max e.rts p.lclk))) ∧
      (∀ q, s.hbm.wf = true → e.awaiting = [.rcr p.reqr] → e.cur = some q → q.kind = .rdt → q.unit = .slice d →
        q.line = p.line → q.reqr < 264 →
        ∃ u, exec .rdata s = .next u ∧ (after u).cur = none ∧ (after u).homeMask = e.homeMask ||| p.mask ∧
          u.hbmLine p.line = mergeBits (s.hbmLine p.line) p.data (byteBits (bytesOfWords p.mask)) ∧
          p.reqr ∈ (after u).sharers ∧ q.reqr ∈ (after u).sharers ∧ (after u).wts = max e.wts p.wts ∧
          Sends u (agentSlice p.line) (requester d q.reqr) .data (fun r => r.grant = .tracked ∧ r.mask = e.homeMask ||| p.mask ∧
            r.data = u.hbmLine p.line)) ∧
      (∀ w, (w = true ∧ e.awaiting = [.rcw p.reqr]) ∨ (w = false ∧ e.awaiting = [.rcr p.reqr]) →
        (∀ q ∈ s.sliceQueue d n, q.line ≠ p.line) →
        ∃ u, exec .wbpend s = .next u ∧ (after u).st = .hWb ∧ (after u).awaiting = [.wb p.reqr w] ∧
          (after u).cur = e.cur ∧ u.pending = s.pending))

/-- A core as requester (R249, R256): INV drops the tracked words and answers with LCLK; RCR and RCW give up the words
named, or answer WBPEND, one that overtakes the grant of its words waiting for it; DATA and ACK end the access that waits for them, with LCLK ← t.

A remote-data cache towards its own cores (R370, R371), for a line of another die that no core of the die owns: it
serves a load or a grant from the words it may serve, and sends everything else on to the home as requester 256 + d; a store or
AMO with a time above every load that the copies and leases it takes or keeps have served (R257, R372). -/
def Obligations.CoresAndRemoteCaches : Prop :=
  (∀ (s : State) (d : DieId) (p : Proto), s.arg = .proto p → p.unit = .slice d → p.reqr < 256 →
      let c := dieCore d p.reqr
      let line (u : State) : Option L1Line := tabGet (u.core c).l1 p.line
      (∃ u, exec .inv s = .next u ∧
        Sends u (agentCore c) (agentSlice p.line) .invack (fun q => q.lclk = (s.core c).lclk ∧ q.reqr = p.reqr) ∧
        (∀ l, line s = some l → line u =
          (if l.valid &&& (l.owned ||| l.leased) = 0 then none
           else some { l with valid := l.valid &&& (l.owned ||| l.leased), former := false }))) ∧
      (∀ w i, (i = .rcr ∧ w = false) ∨ (i = .rcw ∧ w = true) →
        (∀ l, line s = some l → l.owned &&& ~~~l.valid = 0 → l.owned &&& p.mask = p.mask →
          ∃ u, exec i s = .next u ∧ (u.l1Line c p.line).owned = l.owned &&& ~~~p.mask ∧
            (w = true → (u.l1Line c p.line).valid = (if l.owned &&& ~~~p.mask = 0 then 0 else l.valid &&& ~~~p.mask)) ∧
            (w = false → (u.l1Line c p.line).valid = l.valid) ∧
            Sends u (agentCore c) (agentSlice p.line) .rdata (fun q => q.data = l.data ∧ q.wts = l.wts ∧ q.rts = l.rts ∧
              q.mask = p.mask)) ∧
        ((∀ l, line s = some l → l.owned &&& p.mask ≠ p.mask) →
          (s.grantComing (agentCore c) p.line p.mask = true → exec i s = .next s) ∧
          (s.grantComing (agentCore c) p.line p.mask = false →
            ∃ u, exec i s = .next u ∧ u.cores = s.cores ∧ Sends u (agentCore c) (agentSlice p.line) .wbpend (· = p)))) ∧
      (p.waiter = .prefetch c → p.grant = .owned → p.mask ≠ 0 →
        ∃ u, exec .data s = .next u ∧ (u.l1Line c p.line).owned = (s.l1Line c p.line).owned ||| p.mask) ∧
      (∀ x o a pa home key pol, p.waiter = .ctx c x → p.line < 2 ^ 45 → (s.ctx c x).op = some o → o.todo = [a] →
        o.out = true → o.storeAt = none → a.place = .memory pa home key pol → placeLine pa home = p.line →
        (s.ctx c x).chunk.active = false → o.vpipe = false → o.acq = false → o.vals = [] →
        (∀ r size signed, p.grant = .value → a.kind = .load → o.fin = .load r size signed → a.size = size → size ≤ 8 →
          ∃ u, exec .data s = .next u ∧ (u.ctx c x).op = none ∧ (u.ctx c x).wait = .run ∧
            (u.ctx c x).reg r = (if r = 0 then 0 else loaded signed size (lineField p.data (pa % 128) size)) ∧
            (u.ctx c x).pc = ((s.ctx c x).retire o.len).pc ∧ (u.core c).lclk = max (s.core c).lclk p.lclk) ∧
        (o.fin = .store → ∃ u, exec .ack s = .next u ∧ (u.ctx c x).op = none ∧ (u.ctx c x).wait = .run ∧
          (u.ctx c x).regs = (s.ctx c x).regs ∧ (u.ctx c x).pc = ((s.ctx c x).retire o.len).pc ∧
          (u.core c).lclk = max (s.core c).lclk p.lclk) ∧
        (∀ r, o.fin = .amo r 8 → ∃ u, exec .ack s = .next u ∧ (u.ctx c x).op = none ∧
          (u.ctx c x).reg r = (if r = 0 then 0 else p.old) ∧ (u.core c).lclk = max (s.core c).lclk p.lclk)) ∧
      (∀ id, p.waiter = .posted c id → p.line < 2 ^ 45 →
        ((s.core c).posted.find? (fun q => q.id == id)).bind (·.own) = none → ∃ u, exec .ack s = .next u ∧
        (u.core c).posted = (s.core c).posted.filter (fun q => q.id != id) ∧
        (u.core c).lclk = max (s.core c).lclk p.lclk)) ∧
  (∀ (s : State) (d : DieId) (p : Proto), s.arg = .proto p → p.unit = .rdc d → p.line < 2 ^ 45 → p.reqr < 256 → p.mask ≠ 0 →
      (tabGet (s.die d).rdc p.line).isSome = true → (∀ q ∈ (s.die d).rdcQueue, q.line ≠ p.line) →
      let r := s.rdcLine d p.line
      let m := p.mask
      let leased := r.grantMask (· == .leased)
      r.dir.cur = none → (∀ j, 1 ≤ j → j ≤ 4 → r.dir.ownerMask j = 0) →
      let answers (i : Instr) (P : Proto → Prop) : Prop := ∃ u, exec i s = .next u ∧
        Sends u (agentRdc d) (agentCore (dieCore d p.reqr)) .data P
      let forwards (i j : Instr) (at_ : Nat → Prop) : Prop := ∃ u, exec i s = .next u ∧
        (u.rdcLine d p.line).dir.cur.isSome = true ∧
        Sends u (agentRdc d) (agentSlice p.line) j (fun q => q.reqr = 256 + d.val ∧ q.line = p.line ∧
          q.mask = m ∧ at_ q.lclk ∧ q.lease = p.lease)
      (r.served &&& m = m →
        let t0 := max p.lclk r.dir.wts
        answers .rdl (fun q => q.grant = .leased ∧ q.rts = t0 + p.lease ∧ q.lclk = t0) ∧
        answers .rdt (fun q => q.grant = .tracked ∧ q.lclk = t0) ∧
        (r.owned &&& m ≠ m → forwards .rdx .upg (· = p.lclk))) ∧
      (r.owned &&& m = m → answers .rdx (fun q => q.grant = .owned ∧ q.mask = m)) ∧
      (r.served &&& m ≠ m →
        (p.old = 0 → leased &&& m = m → max p.lclk r.wts ≤ r.rts →
          answers .rdl (fun q => q.grant = .leased ∧ q.wts = r.wts ∧ q.rts = r.rts)) ∧
        (p.old ≠ 0 ∨ leased &&& m ≠ m ∨ r.rts < max p.lclk r.wts → forwards .rdl .rdl (· = p.lclk)) ∧
        forwards .rdt .rdt (· = p.lclk) ∧ (r.owned &&& m ≠ m → forwards .rdx .rdx (· = p.lclk))) ∧
      forwards .rdu .rdu (· = p.lclk) ∧
      (∀ i, i = .wt ∨ i = .amoMessage → forwards i i (fun t => p.lclk ≤ t ∧
        (∀ n ∈ r.dir.sharers, n ≠ p.reqr ∨ i ≠ .wt ∨ keepsCopy p = false → (s.core (dieCore d n)).lclk < t) ∧
        (r.dir.sharers = [] → i ≠ .wt ∨ keepsCopy p = false → t = max p.lclk 1) ∧
        (i = .wt → keepsCopy p = true → r.served ≠ 0 → r.granted < t))))

/-- The host's side (R268, R279, R381, R382): its accesses to device memory are requests at the home inside a range of
the function, and answered all ones or discarded outside, and while its interface is in ERROR (how such a request is
refused is the model's choice, log entry 72); its snoops are answered after every copy of the die is gone, with modified
data; a completion on CXL.cache ends what waits for it. -/
def Obligations.HostCoherence : Prop :=
  ∀ (s : State),
    (∀ (d : DieId) (line : Nat) (data : BitVec 1024), s.arg = .cxl d line data →
      let r := s.rdcLine d line
      let after (u : State) : RdcLine := u.rdcLine d line
      let said (u : State) (code : Nat) (x : Option (BitVec 1024)) : Prop :=
        u.outbox = s.outbox ++ [.snoopReply d line code x]
      let quiet := r.cxl = none ∧ ∀ j, 1 ≤ j → j ≤ 4 → r.dir.ownerMask j = 0
      (∀ i, i = .snpinv ∨ i = .snpdata ∨ i = .snpcur → r.cxl = none → r.mesi = .i →
        ∃ u, exec i s = .next u ∧ said u 0 none ∧ u.cores = s.cores) ∧
      (quiet → r.mesi ≠ .i →
        (∃ u, exec .snpinv s = .next u ∧ (after u).mesi = .i ∧ (after u).dir.sharers = [] ∧
          said u (if r.mesi = .m then 2 else 1) (if r.mesi = .m then some r.data else none)) ∧
        (∃ u, exec .snpdata s = .next u ∧ (after u).mesi = .s ∧
          said u (if r.mesi = .m then 4 else 3) (if r.mesi = .m then some r.data else none)) ∧
        (∃ u, exec .snpcur s = .next u ∧ (after u).mesi = r.mesi ∧
          said u (if r.mesi = .m then 5 else 3) (if r.mesi = .m then some r.data else none))) ∧
      (∀ k p, r.cxl = some k → r.dir.cur = some p → p.unit = .rdc d → p.line = line → 2 ^ 45 ≤ line → p.reqr < 256 →
        (k = .rdCurr → ∃ u, exec .cxlCacheCompletion s = .next u ∧ (after u).cxl = none ∧
          (after u).dir.cur = none ∧ Sends u (agentRdc d) (agentCore (dieCore d p.reqr)) .data (fun q =>
            q.grant = .value ∧ q.mask = p.mask) ) ∧
        (k = .wrCur → ∃ u, exec .cxlCacheCompletion s = .next u ∧ (after u).cxl = none ∧
          (after u).dir.cur = none ∧ Sends u (agentRdc d) (agentCore (dieCore d p.reqr)) .ack (fun q => q.lclk = 0)) ∧
        (k = .rdShared → r.granted ≠ 1 → p.kind = .rdt ∨ p.kind = .rdl →
          ∃ u, exec .cxlCacheCompletion s = .next u ∧ (after u).mesi = .s))) ∧
    (∀ vf addr len op, s.arg = .host vf addr len op → vf < 64 →
      let inside := 0 < len ∧ addr + len ≤ Config.hbmEnd ∧ (s.vf vf).state ≠ .error ∧
        ∃ h ∈ s.hdm, h.vf = vf ∧ h.base ≤ addr ∧ addr + len ≤ h.base + h.length
      (¬inside → op = .read ∨ op = .readShared ∨ op = .readOwn → ∃ u, exec .hostCxlMemAccess s = .next u ∧
        u.outbox = s.outbox ++ [.hostData addr (List.replicate len 0xFF)] ∧ u.hbm = s.hbm ∧
        ∃ w ∈ u.ringWaits, w.ring = vfRing vf ∧ bitsOf w.entry 7 0 = causeProt) ∧
      (∀ data, ¬inside → op = .write data → ∃ u, exec .hostCxlMemAccess s = .next u ∧ u.hbm = s.hbm ∧
        u.pending = s.pending ∧ u.outbox = s.outbox) ∧
      (∀ i, inside → addr % 128 + len ≤ 128 → (op = .read ∧ i = .rdu) ∨ (op = .readShared ∧ i = .rdt) ∨
          (op = .readOwn ∧ i = .rdx) ∨ ((∃ data, op = .write data) ∧ i = .ewr) →
        ∃ u, exec .hostCxlMemAccess s = .next u ∧
          Sends u agentPackage (agentSlice (addr / 128)) i (fun q => q.reqr = 264 ∧ q.line = addr / 128 ∧
            q.wts = addr ∧ q.rts = len)))

/-! ### Engines (R293 to R331) -/

namespace Sys2Proof.Claims

/-- The reply of an engine to a command whose dword 1 is cmd1 (R325), when it goes to an endpoint of this device. -/
def EngineReplied (t : State) (cmd1 : Word) (port st value : Nat) (detail : Word) : Prop :=
  bitsOf cmd1 47 36 = 0xFFF → Replied t cmd1 (0x60 + port)
    [word (value * 2 ^ 32 + bitsOf cmd1 63 48 * 2 ^ 16 + (port - 15) * 2 ^ 8 + st), detail, word t.quartz]

/-- The command rows with their port. -/
def engineCommands : List (Instr × Nat) :=
  [(.mma, 16), (.azero, 16), (.adrain, 16), (.gather, 17), (.collectiveSum, 18), (.collectiveMax, 18),
   (.collectiveMin, 18), (.allgather, 18), (.sealOpen, 19), (.sealAdd, 19), (.sealClose, 19)]

/-- The queue of the engine behind a port of a core, what it holds (R293), and the object a capability names it by. -/
def engineQueue (s : State) (c : CoreId) (port : Nat) : List Command :=
  if port = 16 then (s.core c).matrix.queue else if port = 17 then (s.cluster (clusterOf c)).gatherQueue
  else if port = 18 then (s.die (dieOf c)).collQueue else (s.die (dieOf c)).sealQueue

def engineRoom (port : Nat) : Nat := if port = 16 then 16 else if port = 17 then 32 else 64

def engineObject (c : CoreId) (m : Msg) (port : Nat) : Nat :=
  if port = 16 then c.val else if port = 17 then (clusterOf c).val
  else if port = 18 then bitsOf (m.dword 0) 23 16 else bitsOf (m.dword 2) 31 0

/-- The layouts of R327, R329, R330 and R331 are broken. -/
def engineBroken (m : Msg) (port : Nat) : Bool :=
  let c := Command.ofMsg m 0
  if port = 16 then matrixBroken m c else if port = 17 then gatherBroken m
  else if port = 18 then collectiveBroken m c else sealBroken m

/-- Dword 2 is a capability of the message's domain, of a kind and an object, in the core's table (R295, R296). -/
def Capable (s : State) (c : CoreId) (m : Msg) (kind object : Nat) : Prop :=
  bitsOf (m.dword 2) 63 48 = m.domain.toNat ∧ bitsOf (m.dword 2) 47 44 = kind ∧ bitsOf (m.dword 2) 35 0 = object ∧
    m.dword 2 ∈ (s.core c).guard.caps

/-- An event about thing b of agent a. -/
def About (s : State) (a b : Nat) : Prop := ∃ k, s.arg = .nums a b k

/-- A command ready to start: its barrier satisfied, its fence markers back, no translation miss out. -/
def Ready (s : State) (q : Eng) (c : Command) : Prop :=
  (∃ n, c.wait = CmdWait.satisfied n) ∧ s.markersBack c.fence c.markers = true ∧ s.missing q = false

/-- No activation is saved and none is inside a gate, so no frame and no level record shows its copy batches (R302, R345). -/
def NoFrames (s : State) : Prop :=
  (∀ (c : CoreId) (n : SlotId), (s.slot c n).saved = none) ∧ ∀ (c : CoreId) (x : CtxId), (s.ctx c x).stack = []

/-- Bytes written in a memory: bs from off on. -/
def WrittenAt (old new : Memory) (off : Nat) (bs : List Byte) : Prop :=
  ∀ a, new.get a = if off ≤ a ∧ a < off + bs.length then bs.getD (a - off) 0 else old.get a

end Sys2Proof.Claims

/-- Commands reach their engines (R296, R309, R323, R328 to R331): at a full queue the message is refused FULL; one that
breaks R323 is answered BADCMD, or reported when its reply endpoint is no endpoint; without its capability the answer is
CAPFAIL, with a broken layout BADCMD; a matrix command with a bad drain endpoint is answered BADDRAIN, one of another's
accumulator ACCDOM; a collective command of a stranger to the group BADCMD; any other joins the end of the queue, and one
without a barrier is satisfied at once. A refused collective command answers with its sequence number, a refused seal
command with its session (R325).

The model's choices: BADCMD for a stranger to the group (log entry 61); CAPFAIL goes before BADCMD for a broken layout, and
FULL before all (log entry 64). -/
def Obligations.EngineCommands : Prop :=
  ∀ (i : Instr) (port : Nat) (s : State) (c : CoreId) (m : Msg), (i, port) ∈ engineCommands →
    s.arg = .msg m → coreOf (bitsOf m.dst 35 25) = c → m.port = port →
    let f := s.refusedFields c m
    let cmd := Command.ofMsg m 0
    let answers (st : Nat) : Prop := ∃ t, exec i s = .next t ∧ EngineReplied t (m.dword 1) port st f.1 f.2 ∧
      engineQueue t c port = engineQueue s c port
    let ep := m.dword 1 &&& 0x0000FFFFFFFFFFFF
    let whole : Prop := m.payload.length = 7 ∧ m.tag.toNat = 0x50 + port ∧ ep &&& 0x1FFFF = 0
    let member : Prop := ∃ g r, tabGet (s.die (dieOf c)).groups (bitsOf (m.dword 0) 23 16) = some g ∧
      s.rankOf g cmd = some r
    let drains : Prop := cmd.drainEp = 0 ∨ s.drainGood c m.domain cmd.drainEp = true
    let owns : Prop := cmd.needsOwner = true → (s.core c).matrix.prospect cmd.acc = m.domain
    (port = 16 ∨ port = 17 ∨ (port = 19 ∧ bitsOf (m.dword 0) 7 0 = 1) → f = (0, 0)) ∧
    (port = 18 → f.1 % 2 ^ 16 = bitsOf (m.dword 0) 39 24 ∧ f.2 = 0) ∧
    (port = 19 → bitsOf (m.dword 0) 7 0 ≠ 1 → f.1 = bitsOf (m.dword 5) 5 0) ∧
    (∀ g e, engineRoom port ≤ (engineQueue s c port).length → m.src = .sendUnit g e →
      exec i s = .next (withAnswerTo s c g e .full)) ∧
    ((engineQueue s c port).length < engineRoom port →
      (¬ whole → 2 ≤ m.payload.length → ep = 0 ∨ s.goodEndpoint ep = true → answers 17) ∧
      (¬ whole → m.payload.length < 2 ∨ (ep ≠ 0 ∧ s.goodEndpoint ep = false) →
        ∃ t, exec i s = .next t ∧ engineQueue t c port = engineQueue s c port ∧
          ∃ w ∈ t.ringWaits, bitsOf w.entry 7 0 = 35) ∧
      (whole →
        (¬ Capable s c m (port - 15) (engineObject c m port) → answers 16) ∧
        (Capable s c m (port - 15) (engineObject c m port) →
          (engineBroken m port = true → answers 17) ∧
          (engineBroken m port = false →
            (port = 16 → ¬ drains → answers 18) ∧
            (port = 16 → drains → ¬ owns → answers 19) ∧
            (port = 18 → ¬ member → answers 17) ∧
            ((port = 16 → drains ∧ owns) → (port = 18 → member) → port = 19 ∨ m.dword 4 = 0 →
              ∃ t d, exec i s = .next t ∧ engineQueue t c port = engineQueue s c port ++ [d] ∧
                d.payload = m.payload ∧ d.domain = m.domain ∧ d.core = coreOf (bitsOf m.sender 35 25) ∧
                d.slot = slotOf (bitsOf m.sender 24 20) ∧ d.wait = .satisfied 0 ∧ d.markers = s.ewCount ∧
                (t.core c).matrix.accs = (s.core c).matrix.accs ∧
                (t.core c).matrix.running = (s.core c).matrix.running)))))

/-- The matrix unit (R81, R307 to R312, R328): the head starts with its accumulator as its opcode leaves it, or ends
with ACCDOM or SLOT; a K step computes every element from the step's slots; a drain sends row after row to its
mailbox; a command's end is its reply, with the K steps and the rows. -/
def Obligations.MatrixUnit : Prop :=
  ∀ (s : State) (c : CoreId), (∃ b, About s c.val b) →
    let x := (s.core c).matrix
    let changed (t : State) : Prop := ∀ c', c' ≠ c → t.core c' = s.core c'
    (∀ cmd rest, x.queue = cmd :: rest → (∀ d ∈ x.queue, ∃ n, d.wait = CmdWait.satisfied n) → x.running = none →
      s.markersBack cmd.fence cmd.markers = true → (∀ d ∈ x.drains, d.acc ≠ cmd.acc) →
      let claimed : Prop := ∀ n ∈ cmd.slots, ∃ k, tabGet (s.core c).claims n = some k ∧ k.domain = cmd.domain
      let owns : Prop := cmd.needsOwner = true → x.accs[cmd.acc].owner = cmd.domain
      let ends (st : Nat) : Prop := ∃ t, exec .matrixCommandStart s = .next t ∧
        EngineReplied t (cmd.dword 1) 16 st 0 0 ∧ (t.core c).matrix = { x with queue := rest } ∧ changed t
      (¬ owns → ends 19) ∧ (owns → ¬ claimed → ends 3) ∧
      (owns → claimed → ∃ t, exec .matrixCommandStart s = .next t ∧ changed t ∧ t.pending = s.pending ∧
        (t.core c).matrix.queue = rest ∧ (t.core c).matrix.running = some { cmd, step := 0 } ∧
        (∀ a, a ≠ cmd.acc → (t.core c).matrix.accs[a] = x.accs[a]) ∧
        (let a := (t.core c).matrix.accs[cmd.acc]
         (cmd.opc = 3 → a = x.accs[cmd.acc]) ∧
         (cmd.opc = 1 → a.nsteps = cmd.steps) ∧
         (cmd.opc = 2 ∨ (cmd.opc = 1 ∧ cmd.adds = false) → a.owner = cmd.domain ∧ a.data = [] ∧ a.steps = 0) ∧
         (cmd.opc = 1 ∧ cmd.adds = true →
           a.owner = x.accs[cmd.acc].owner ∧ a.data = x.accs[cmd.acc].data ∧ a.steps = 0)))) ∧
    (∀ r, x.running = some r → r.cmd.opc = 1 → r.step < r.cmd.steps →
      ∃ t, exec .kStep s = .next t ∧ changed t ∧ t.pending = s.pending ∧
        (t.core c).matrix.running = some { r with step := r.step + 1 } ∧
        (∀ a, a ≠ r.cmd.acc → (t.core c).matrix.accs[a] = x.accs[a]) ∧
        (let a := x.accs[r.cmd.acc]
         let b := (t.core c).matrix.accs[r.cmd.acc]
         let sa := 4096 * r.cmd.slotA r.step
         let sb := 4096 * r.cmd.slotB r.step
         b.owner = a.owner ∧ b.steps = r.step + 1 ∧ ∀ i j, i < 64 → j < 64 →
           let old := (tabGet a.data (64 * i + j)).getD 0
           let new := (tabGet b.data (64 * i + j)).getD 0
           (r.cmd.fmt = 1 → new = old + BitVec.ofInt 32 ((List.range 64).map (fun k =>
             ((s.core c).opnd.get (sa + 64 * i + k)).toInt * ((s.core c).opnd.get (sb + 64 * k + j)).toInt)).sum) ∧
           (r.cmd.fmt ≠ 1 →
             new = stepOutput (s.core c) r.cmd.fmt (r.cmd.slotA r.step) (r.cmd.slotB r.step) i j old))) ∧
    (∀ b d, About s c.val b → x.drains.find? (fun e => e.acc == Fin.ofNat 4 b) = some d → d.out = false → d.lost = false →
      d.row < 64 → ∃ t, exec .drainNotification s = .next t ∧ changed t ∧
        (bitsOf d.cmd.drainEp 47 36 = 0xFFF → Replied t d.cmd.drainEp 0 [word d.row, word d.cmd.dtag]) ∧
        (t.core c).matrix = { x with drains := x.drains.map (fun e => if e.acc = d.acc then { e with out := true } else e) }) ∧
    (∀ d, x.drains.find? (fun d => d.lost || 64 ≤ d.row) = some d →
      ∃ t, exec .matrixCommandEnd s = .next t ∧ changed t ∧
        EngineReplied t (d.cmd.dword 1) 16 (if d.lost then 23 else 0) 0 (word (d.steps + d.row * 256)) ∧
        (t.core c).matrix = { x with drains := x.drains.filter (fun e => e.acc != d.acc) }) ∧
    ((∀ d ∈ x.drains, d.lost = false ∧ d.row < 64) →
      (∀ r, x.running = some r → (r.cmd.opc = 1 → r.cmd.steps ≤ r.step) →
        ∃ t, exec .matrixCommandEnd s = .next t ∧ changed t ∧ (t.core c).matrix.running = none ∧
          (t.core c).matrix.accs = x.accs ∧
          (r.cmd.drainEp = 0 → EngineReplied t (r.cmd.dword 1) 16 0 0 (word r.step) ∧ (t.core c).matrix.drains = x.drains) ∧
          (r.cmd.drainEp ≠ 0 → t.pending = s.pending ∧ (t.core c).matrix.drains = x.drains ++
            [⟨r.cmd, r.cmd.acc, 0, false, false, r.step⟩])) ∧
      (∀ cmd rest, x.running = none → x.queue = cmd :: rest →
        ∀ w st, (w, st) ∈ [(CmdWait.stale, 20), (.poisoned, 21), (.bad, 22)] → cmd.wait = w →
          ∃ t, exec .matrixCommandEnd s = .next t ∧ EngineReplied t (cmd.dword 1) 16 st 0 0 ∧
            (t.core c).matrix = { x with queue := rest }))

/-- Copies (R297, R299, R300, R304): the oldest starts; each sector is read once the lower ones are written, and its bytes
leave for the destination, where they are written as they arrive; a copy without its slot, of a killed domain or with a
terminal fault fails with its status and sends no further sector; the completion writes the flag word, that of a failed copy
with bit 63 and the status, or BADFLAG when it cannot, or sends the arrival, which the barrier's home performs as one
operation and answers. The statuses are R301's. That a sector's bytes leave as one write for each word, or as one for a scratchpad
or an operand window, and are written as they arrive is the model's reading (log entry 57). -/
def Obligations.Copies : Prop :=
  ∀ (s : State) (c : CoreId) (e : Fin 128),
    let others (t : State) : Prop := ∀ f, f ≠ e → (t.core c).copies[f] = (s.core c).copies[f]
    (∀ r b, About s c.val b → (s.core c).fifo = e :: r →
      ∃ t, exec .copyStart s = .next t ∧ (t.core c).fifo = r ∧ others t ∧
        ∀ v : Copy, (s.core c).copies[e] = some v → v.state = .queued →
          (t.core c).copies[e] = some { v with state := .running }) ∧
    (∀ v : Copy, About s c.val e.val → (s.core c).copies[e] = some v → v.state = .running → v.status = 0 →
      let q := v.eng c e
      let (a, d, n) := v.sector
      let dead : Prop := v.killed = true ∨ v.domain ∈ (s.core c).guard.killed
      let ends (i : Instr) (st : Nat) (P : State → Prop) : Prop := ∃ t w, exec i s = .next t ∧ others t ∧ P t ∧
        (t.core c).copies[e] = some w ∧ w.state = .ended ∧ w.status = st
      let fails (st : Nat) : Prop := ∃ t w, exec .copySector s = .next t ∧ others t ∧ t.hbm = s.hbm ∧
        (t.core c).copies[e] = some w ∧ w.state = .running ∧ w.status = st ∧ w.prog = v.prog
      let sends (P : State → Prop) : Prop := ∃ t w, exec .copySector s = .next t ∧ others t ∧ t.hbm = s.hbm ∧ P t ∧
        (∀ tc, (t.core tc).spad = (s.core tc).spad ∧ (t.core tc).opnd = (s.core tc).opnd) ∧
        (t.core c).copies[e] = some w ∧ w.prog = v.prog + n ∧ w.state = .running ∧ w.status = 0
      (v.prog < v.len →
        (n ≤ 64 ∧ 0 < n ∧ d = v.w1 + word v.prog ∧ (d.toNat + n) / 64 ≤ d.toNat / 64 + 1 ∧
          a = v.w0 + word (if v.rows then v.prog / 64 * v.pitch else v.prog)) ∧
        (dead → fails 6) ∧
        (¬ dead → s.sectorOut q v = true → exec .copySector s = .next s) ∧
        (¬ dead → s.sectorOut q v = false →
          (∀ cause x k, s.engRead q v.pins a n = .fault cause x k → isRetryable cause = false → fails (statusOf cause)) ∧
          (∀ u bs, s.engRead q v.pins a n = .got u bs → u.cores = s.cores → u.hbm = s.hbm →
            (s.sectorDest q v.actor v.pins d n = .slot → fails 3) ∧
            (∀ tc off, s.sectorDest q v.actor v.pins d n = .ok (.spad tc off) →
              sends (fun t => ∃ f ∈ t.pending, f.dst = agentCore tc ∧
                ∃ num, f.ev = ⟨.ewr, .sector tc false off bs q.cls num⟩)) ∧
            (∀ off, s.sectorDest q v.actor v.pins d n = .ok (.operand off) →
              sends (fun t => ∃ f ∈ t.pending, f.dst = agentCore c ∧
                ∃ num, f.ev = ⟨.ewr, .sector c true off bs q.cls num⟩)) ∧
            (∀ pa home key pol, home = .thisDie ∨ home = .otherDie → bs ≠ [] → pa % 8 = 0 →
              s.sectorDest q v.actor v.pins d n = .ok (.memory pa home key pol) →
              sends (fun t => Sends t (agentEngine q.cls q.unit) (agentSlice (pa / 128)) .ewr (fun p =>
                p.line = pa / 128 ∧ p.wmask = byteMask (pa % 128) (min 8 bs.length) ∧
                p.data = lineOf (pa % 128) (min 8 bs.length) (leNat (bs.take 8)))))))) ∧
      (v.len ≤ v.prog → ¬ dead → s.farRefused q = none →
        (bitOf v.w2 32 = true → s.farPending q = false →
          (∀ tc off y, (s.core tc).spad.wf = true →
            s.placeIn (clusterOf c) q.who v.w3 8 kindWrite .thru = .at (.spad tc off) y →
            ends .copyCompletion 0 (fun t =>
              WrittenAt (s.core tc).spad (t.core tc).spad off (leBytes 8 (bitsOf v.w2 63 40)))) ∧
          (∀ cause, s.placeIn (clusterOf c) q.who v.w3 8 kindWrite .thru = .fault cause →
            ends .copyCompletion 8 (fun t => NoFrames s → t.hbm = s.hbm))) ∧
        (bitOf v.w2 32 = false → bitOf v.w2 33 = false → ends .copyCompletion 0 (fun t => NoFrames s → t.pending = s.pending)) ∧
        (bitOf v.w2 32 = false → bitOf v.w2 33 = true → ∀ pa k p y, s.engPlace q [] v.w3 16 kindRmw =
            .at (.memory pa .thisDie k p) y →
          ∃ t w, exec .copyCompletion s = .next t ∧ (t.core c).copies[e] = some w ∧ w.state = .sent ∧
            ∃ f ∈ t.pending, f.dst = agentSlice (pa / 128) ∧ f.ev.row = .barrierArrival))) ∧
    (∀ v : Copy, About s c.val e.val → (s.core c).copies[e] = some v → v.state = .running → v.status ≠ 0 →
      v.status < 2 ^ 15 → bitOf v.w2 32 = true → s.farPending (v.eng c e) = false →
      ∀ tc off y, (s.core tc).spad.wf = true →
        s.placeIn (clusterOf c) (v.eng c e).who v.w3 8 kindWrite .thru = .at (.spad tc off) y →
        ∃ t w, exec .copyCompletion s = .next t ∧ others t ∧ (t.core c).copies[e] = some w ∧ w.state = .ended ∧
          w.status = v.status ∧ WrittenAt (s.core tc).spad (t.core tc).spad off
            (leBytes 8 (2 ^ 63 + v.status * 2 ^ 48 + bitsOf v.w2 63 40))) ∧
    (∀ tc off bs cls num, s.arg = .sector tc false off bs cls num → (s.core tc).spad.wf = true →
      ∃ t, exec .ewr s = .next t ∧ WrittenAt (s.core tc).spad (t.core tc).spad off bs ∧ t.hbm = s.hbm ∧
        ∀ tc', tc' ≠ tc → (t.core tc').spad = (s.core tc').spad) ∧
    (∀ tc off bs cls num, s.arg = .sector tc true off bs cls num → (s.core tc).opnd.wf = true →
      (∀ p ∈ (s.core tc).claims, (s.core tc).actorGone p.2.actor = false) →
      ∃ t, exec .ewr s = .next t ∧ WrittenAt (s.core tc).opnd (t.core tc).opnd off bs ∧ t.hbm = s.hbm ∧
        ∀ tc', tc' ≠ tc → t.core tc' = s.core tc') ∧
    (∀ p g off poison ep dom core slot path det, s.arg = .proto p → p.waiter = .copy c e →
      let u := HomeUnit.slice (lineDie p.line)
      let home := s.dir u p.line
      (p.reqr = 265 → p.unit = u → p.op = some (.arrive off g poison ep dom core slot path det) → p.mask ≠ 0 →
        s.hbm.wf = true → off + 16 ≤ 128 → home.cur = none → tabGet (s.die (lineDie p.line)).reserved p.line = none →
        (tabGet (s.die (lineDie p.line)).home p.line).isSome = true ∨ (s.l2Ways (lineDie p.line) p.line).length < 16 →
        (∀ q ∈ s.sliceQueue (lineDie p.line) (sliceOf p.line), q.line ≠ p.line) →
        home.homeMask &&& p.mask = p.mask → home.sharers = [] →
        let t0 := max p.lclk (home.rts + 1)
        t0 ≤ s.quartz + 4096 →
        let words := s.barrierWords (128 * p.line + off)
        let new := barrierArrive words.1 words.2 g poison
        ∃ t, exec .barrierArrival s = .next t ∧ (t.dir u p.line).wts = t0 ∧ (t.dir u p.line).rts = t0 ∧
          Sends t (agentSlice p.line) agentPackage .barrierArrival (fun q => q.reqr = 266 ∧ q.waiter = .copy c e ∧
            q.old = (match new with | none => BitVec.allOnes 64 | some w => w.2.2)) ∧
          (new = none → t.hbm = s.hbm) ∧
          (∀ w0 w1 ph, new = some (w0, w1, ph) → t.barrierWords (128 * p.line + off) = (w0, w1) ∧
            ∀ a, a < 128 * p.line + off ∨ 128 * p.line + off + 16 ≤ a → t.hbm.get a = s.hbm.get a)) ∧
      (p.reqr = 266 → ∀ v : Copy, (s.core c).copies[e] = some v → v.state = .sent → v.status = 0 →
        ∃ t w, exec .barrierArrival s = .next t ∧ others t ∧ (NoFrames s → t.hbm = s.hbm) ∧ (t.core c).copies[e] = some w ∧
          w.state = .ended ∧ w.status = (if p.old = BitVec.allOnes 64 then 7 else 0)))

/-- The gather engine (R299, R314, R315, R329): the head of the queue starts from its descriptor, or ends BADCMD; each
row's index is read and checked, then the row's bytes leave for their destination sector by sector; an index out of range ends the
gather with BADINDEX, an operand slot without a claim of its domain with SLOT; its end is its completion and a reply
with the rows written. The statuses are R301's. That a sector's bytes leave as one write and are written as they arrive is the
model's reading (log entry 57). -/
def Obligations.Gathers : Prop :=
  ∀ (s : State) (g : ClusterId),
    let k := s.cluster g
    (∀ b cmd rest u bs, About s g.val b → k.gatherQueue = cmd :: rest →
      (∀ d ∈ k.gatherQueue, ∃ n, d.wait = CmdWait.satisfied n) → Ready s (cmd.gatherEng g) cmd → k.gathers.length < 8 →
      s.engRead (cmd.gatherEng g) [] (cmd.dword 3) 64 = .got u bs → u.clusters = s.clusters → u.quartz = s.quartz →
      let d := leWords 8 bs
      let v := Gather.ofDescriptor cmd d
      (descriptorBroken g d v = true → ∃ t, exec .gatherStart s = .next t ∧ EngineReplied t (cmd.dword 1) 17 17 0 0 ∧
        (t.cluster g).gatherQueue = rest ∧ (t.cluster g).gathers = k.gathers) ∧
      (descriptorBroken g d v = false → ∃ t w, exec .gatherStart s = .next t ∧ (t.cluster g).gatherQueue = rest ∧
        (t.cluster g).gathers = k.gathers ++ [w] ∧ w.cmd = cmd ∧ w.row = 0 ∧ w.byte = 0 ∧ w.index = none ∧
        w.table = nth d 0 ∧ w.dcore.val = bitsOf (nth d 1) 54 44 % 2048 ∧ w.rowBytes = 8 * bitsOf (nth d 1) 41 32 ∧
        w.rows = bitsOf (nth d 1) 31 0 ∧ w.list = nth d 2 ∧ w.doff = bitsOf (nth d 3) 34 16 ∧
        w.n = bitsOf (nth d 3) 15 0 ∧ w.opw = bitOf (nth d 1) 43 ∧ w.wide = bitOf (nth d 1) 42)) ∧
    (∀ id v, About s (2048 + g.val) id → s.gatherOf g id = some v → v.state = .running → v.status = 0 → v.row < v.n →
      let q := v.eng g
      let is (t : State) (w : Gather) : Prop := exec .copySector s = .next t ∧ t.gatherOf g id = some w ∧ t.hbm = s.hbm
      (s.killed (gatherCore g) v.cmd.domain = true → ∃ t, is t { v with status := 6 }) ∧
      (s.killed (gatherCore g) v.cmd.domain = false →
        let width := if v.wide then 8 else 4
        (∀ u bs, v.index = none → s.engRead q [] (v.list + word (v.row * width)) width = .got u bs →
          u.clusters = s.clusters → u.hbm = s.hbm → bs.length = width →
          let i := leNat bs
          (i < v.rows → i < 2 ^ (8 * width - 1) → ∃ t, is t { v with index := some i }) ∧
          (v.rows ≤ i ∨ 2 ^ (8 * width - 1) ≤ i → ∃ t, is t { v with status := 9 })) ∧
        (∀ i u bs, v.index = some i → s.engRead q [] (v.table + word (i * v.rowBytes + v.byte)) v.sector = .got u bs →
          u.clusters = s.clusters → u.cores = s.cores → u.hbm = s.hbm →
          let off := v.doff + v.row * v.rowBytes + v.byte
          let n := min (64 - off % 64) (v.rowBytes - v.byte)
          let next := if v.rowBytes ≤ v.byte + n then { v with row := v.row + 1, byte := 0, index := none }
            else { v with byte := v.byte + n }
          (s.gatherDest g v = .slot → ∃ t, is t { v with status := 3 }) ∧
          (s.gatherDest g v = .ok (.operand off) → ∃ t, is t next ∧ t.cores = s.cores ∧
            ∃ f ∈ t.pending, f.dst = agentCore v.dcore ∧ ∃ num, f.ev = ⟨.ewr, .sector v.dcore true off bs q.cls num⟩) ∧
          (∀ tc o, s.gatherDest g v = .ok (.spad tc o) → ∃ t, is t next ∧ t.cores = s.cores ∧
            ∃ f ∈ t.pending, f.dst = agentCore tc ∧ ∃ num, f.ev = ⟨.ewr, .sector tc false o bs q.cls num⟩)))) ∧
    (∀ id v, About s g.val id → s.gatherOf g id = some v → v.state = .running → v.status ≠ 0 ∨ v.n ≤ v.row →
      v.status ≠ 0 ∨ s.killed (gatherCore g) v.cmd.domain = false →
      bitOf v.done0 32 = false → bitOf v.done0 33 = false →
      ∃ t, exec .gatherCompletion s = .next t ∧ EngineReplied t (v.cmd.dword 1) 17 v.status 0 (word v.row) ∧
        (t.cluster g).gathers = k.gathers.filter (fun w => w.cmd.id != v.cmd.id))

/-- The collective engine (R316 to R318, R330): a command reads its descriptor and its source and joins the operation of
its sequence number; the last contribution ends the operation for every member, with the result of R317 in rank order
or with MISMATCH; a member writes the result, then completes and replies; a contribution of another device joins as one
of this device does (R380); the timeout ends every member of this device that has contributed.

The model's choices (log entry 61): a rank's second contribution joins the next operation of its sequence number; a contribution
from another device is an input of the step; each device ends its own members; a member's result is written in one step. -/
def Obligations.Collectives : Prop :=
  ∀ (i : Instr) (s : State) (d : DieId) (id : Nat), (i, 18) ∈ engineCommands →
    let k := s.die d
    (∀ c u bs, About s d.val id → k.collQueue.find? (fun c => c.id == id) = some c → Ready s (c.collEng d) c →
      c ∈ k.collQueue → u.dies = s.dies → u.collectives = s.collectives → u.quartz = s.quartz → u.device = s.device →
      (c.payload.length ≤ 7 → s.engRead (c.collEng d) [] (c.dword 3) 64 = .got u bs →
        let c' : Machine.Command := { c with payload := c.payload ++ leWords 8 bs, started := true }
        (c'.descBroken = true → ∃ t, exec i s = .next t ∧ (t.die d).collQueue = k.collQueue.filter (fun o => o.id != id)) ∧
        (c'.descBroken = false → ∃ t, exec i s = .next t ∧
          (t.die d).collQueue = k.collQueue.map (fun o => if o.id = id then c' else o))) ∧
      (∀ g rank, 7 < c.payload.length → tabGet k.groups (bitsOf (c.dword 0) 23 16) = some g → s.rankOf g c = some rank →
        s.engRead (c.collEng d) [] (c.dword 7) (bitsOf (c.dword 9) 31 0 * c.elemBytes) = .got u bs →
        let seq := bitsOf (c.dword 0) 39 24
        let p : Contribution := { rank, cmd := c, die := d, dst := c.dword 8, done0 := c.dword 10, done1 := c.dword 11, data := bs, remote := false }
        let joins (o : Collective) : Bool := o.group == bitsOf (c.dword 0) 23 16 && o.seq == seq && !o.parts.any (fun q => q.rank == rank)
        (s.collectives.find? joins = none → 2 ≤ g.members.length → ∃ t, exec i s = .next t ∧
          t.collectives = s.collectives ++ [⟨bitsOf (c.dword 0) 23 16, seq, [p], s.quartz + 1000 * g.timeout⟩] ∧
          (t.die d).collQueue = k.collQueue.filter (fun o => o.id != id)) ∧
        (∀ o, s.collectives.find? joins = some o → o.parts.length + 1 = g.members.length → o.parts.Pairwise (fun a b => a.rank < b.rank) →
          (∀ q ∈ o.parts, q.rank < g.members.length) →
          ∃ t, exec i s = .next t ∧ t.collectives = s.collectives.erase o ∧
            let all := o.parts ++ [p]
            let agree : Prop := ∀ q ∈ all, q.cmd.opc = c.opc ∧ q.cmd.collType = c.collType ∧ q.data.length = bs.length
            ∀ q ∈ all, q.remote = false → ∃ w ∈ (t.die q.die).members, w.cmd = q.cmd ∧ w.rank = q.rank ∧ w.dst = q.dst ∧ w.written = false ∧
              (¬ agree → w.status = 24) ∧
              (agree → w.status = 0 ∧ ∃ sorted : List Contribution, sorted.Perm all ∧
                sorted.Pairwise (fun a b => a.rank < b.rank) ∧
                (c.opc = 4 → w.result = (sorted.map (fun r => r.data)).flatten) ∧
                (c.opc ≠ 4 → w.result = collResult c.opc c.collType (sorted.map (fun r => r.data))))))) ∧
    (∀ v, About s d.val id → k.collQueue.find? (fun c => c.id == id) = none → k.members.find? (fun v => v.cmd.id == id) = some v →
      v.state = .running → s.killed (kernelCore d) v.cmd.domain = false →
      (∀ tc off, v.status = 0 → v.written = false → s.engDest (v.cmd.collEng d) [] v.dst v.result.length =
          .ok [(.spad tc off, v.result.length)] →
        ∃ t w, exec i s = .next t ∧ w ∈ (t.die d).members ∧ w = { v with written := true } ∧
          ∃ f ∈ t.pending, f.dst = agentCore tc ∧
            ∃ num, f.ev = ⟨.ewr, .sector tc false off v.result (v.cmd.collEng d).cls num⟩) ∧
      (v.status ≠ 0 ∨ (v.written = true ∧ s.farRefused (v.cmd.collEng d) = none) → bitOf v.done0 32 = false → bitOf v.done0 33 = false →
        ∃ t, exec i s = .next t ∧
          EngineReplied t (v.cmd.dword 1) 18 v.status ((bitsOf (v.cmd.dword 0) 39 24 + v.rank * 2 ^ 16) % 2 ^ 32)
            (word (if v.written then v.result.length else 0)) ∧
          (t.die d).members = k.members.filter (fun w => w.cmd.id != v.cmd.id))) ∧
    (∀ group rank opc type seq data g m, s.arg = .contribution d group rank opc type seq data → tabGet k.groups group = some g →
      g.members[rank]? = some m → s.memberHere m.1 = false → 2 ≤ g.members.length → seq < 65536 →
      s.collectives.find? (fun o => o.group == group && o.seq == seq && !o.parts.any (fun q => q.rank == rank)) = none →
      ∃ t p, exec i s = .next t ∧ p.rank = rank ∧ p.data = data ∧ p.remote = true ∧
        t.collectives = s.collectives ++ [⟨group, seq, [p], s.quartz + 1000 * g.timeout⟩]) ∧
    (∀ a b o, About s a b → s.collectives.find? (fun o => o.group == a && o.seq == b && o.deadline ≤ s.quartz) = some o →
      ∃ t, exec .collectiveTimeout s = .next t ∧ t.collectives = s.collectives.erase o ∧
        ∀ p ∈ o.parts, p.remote = false → ∃ v ∈ (t.die p.die).members, v.cmd = p.cmd ∧ v.status = 25 ∧ v.state = .running)

/-- The seal engine (R319 to R321, R331): its head is executed once its markers are back. OPEN answers BADLAUNCH for
another launch, BADDEST for a destination that is not writable device memory, NOROOM with 64 sessions open, or a session
id; ADD hashes the whole range, whose pages it pins from its first read on, or answers BADRANGE; a session of no such id or of another domain is NOSESS; CLOSE raises
the key's counter by one, ends the session and answers the bytes hashed. -/
def Obligations.Seals : Prop :=
  ∀ (i : Instr) (s : State) (d : DieId) (c : Machine.Command) (rest : List Machine.Command), (i, 19) ∈ engineCommands →
    (∃ b, About s d.val b) → (s.die d).sealQueue = c :: rest → Ready s (c.sealEng d) c → (∀ q ∈ rest, q.id ≠ c.id) →
    let k := s.die d
    let q := c.sealEng d
    let answers (st id : Nat) (hashed : Word) (P : State → Prop) : Prop := ∃ t, exec i s = .next t ∧
      EngineReplied t (c.dword 1) 19 st id hashed ∧ (t.die d).sealQueue = rest ∧ P t
    let same (t : State) : Prop := (t.die d).sessions = k.sessions
    (c.opc = 1 →
      let launch := (s.slot c.core c.slot).launch.getD 0
      (launch ≠ bitsOf (c.dword 4) 31 0 → answers 26 0 0 same) ∧
      (launch = bitsOf (c.dword 4) 31 0 →
        ((c.dword 3).toNat % 64 ≠ 0 ∨ Config.opwBase ≤ (c.dword 3).toNat → answers 27 0 0 same) ∧
        ((c.dword 3).toNat % 64 = 0 → (c.dword 3).toNat < Config.opwBase →
          (∀ cause a kd, s.engDest q [] (c.dword 3) 4800 = .fault cause a kd → answers 27 0 0 same) ∧
          (∀ ps dest, s.engDest q [] (c.dword 3) 4800 = .ok ps → onDevice ps = some dest →
            (tabFree k.sessions 64 = none → answers 31 0 0 same) ∧
            (∀ id, tabFree k.sessions 64 = some id → answers 0 id 0 (fun t =>
              (∀ j, j ≠ id → tabGet (t.die d).sessions j = tabGet k.sessions j) ∧
              ∃ v, tabGet (t.die d).sessions id = some v ∧ v.domain = c.domain ∧ v.launch = launch ∧ v.dest = dest ∧
                v.key.toNat = bitsOf (c.dword 2) 31 0 ∧ v.hash = .empty)))))) ∧
    (c.opc = 2 ∨ c.opc = 3 → (∀ v, tabGet k.sessions (bitsOf (c.dword 5) 5 0) = some v → v.domain ≠ c.domain) →
      answers 29 (bitsOf (c.dword 5) 5 0) 0 same) ∧
    (∀ v, tabGet k.sessions (bitsOf (c.dword 5) 5 0) = some v → v.domain = c.domain → v.key.toNat = bitsOf (c.dword 2) 31 0 →
      (c.opc = 2 →
        (isGlobal (c.dword 3) = true ∨ isRsw (c.dword 3) = true →
          let n := bitsOf (c.dword 4) 31 0
          let range := pieces (c.dword 3) n
          let pins := if k.sealPins = [] then range.filterMap (fun p => s.pinOf q [] p.1) else k.sealPins
          let w := s.mapDie d (fun k => { k with sealPins := pins })
          (∀ cause a kd, s.placePieces q k.sealPins kindRead range = .fault cause a kd →
            answers 28 (bitsOf (c.dword 5) 5 0) (word v.hash.length) same) ∧
          (∀ ps, s.placePieces q k.sealPins kindRead range = .ok ps →
            (∀ u, w.engRead q pins (c.dword 3) n = .wait u → exec i s = .next u) ∧
            (∀ u bs, w.engRead q pins (c.dword 3) n = .got u bs → u.dies = w.dies → u.quartz = s.quartz →
              answers 0 (bitsOf (c.dword 5) 5 0) (word (v.hash.length + bs.length)) (fun t =>
                tabGet (t.die d).sessions (bitsOf (c.dword 5) 5 0) = some { v with hash := v.hash.add bs } ∧
                (t.die d).sealPins = [])))) ∧
        (isGlobal (c.dword 3) = false → isRsw (c.dword 3) = false →
          answers 28 (bitsOf (c.dword 5) 5 0) (word v.hash.length) same)) ∧
      (c.opc = 3 → answers 0 (bitsOf (c.dword 5) 5 0) (word v.hash.length) (fun t =>
        tabGet (t.die d).sessions (bitsOf (c.dword 5) 5 0) = none ∧
        tabGet t.onyx.counters v.key.toNat = some ((tabGet s.onyx.counters v.key.toNat).getD 0 + 1)))) ∧
    (∀ (v : Session) (st n : Nat) (dev : BitVec 12), let r := sealRecord v st n dev
      r.length = 4800 ∧ r.take 1 = [BitVec.ofNat 8 st] ∧ (r.drop 48).take 48 = v.hash.digest ∧
        r.drop 4723 = List.replicate 77 0)

/-! ### Peers, virtual functions, keys and management (R269, R342, R367, R369, R379, R384 to R386, R402, R403) -/

namespace Sys2Proof.Claims

/-- A management command answers. -/
def Managed (i : Instr) (s : State) (opcode status : Nat) (data : List Word) (P : State → Prop) : Prop :=
  ∃ t, exec i s = .next t ∧ t.outbox = s.outbox ++ [.management opcode status data] ∧ t.cores = s.cores ∧ t.dies = s.dies ∧
    t.hbm = s.hbm ∧ P t

/-- The interface v leaves RUN (R385): it is in ERROR, which its ring tells; its key slots are destroyed; every activation
of a bound domain is to be saved at its next boundary, and every saved one cannot be resumed. -/
def LeftRun (s t : State) (v : Nat) : Prop :=
  let ds := (s.vf v).domains
  let bound (y : Ctx) : Prop := y.origin ∈ ds ∨ ∃ l ∈ y.stack, l.callee ∈ ds
  (t.vf v).state = .error ∧ (t.vf v).domains = ds ∧ (∃ w ∈ t.ringWaits, w.ring = vfRing v ∧ bitsOf w.entry 7 0 = 40) ∧
  (∀ p, p ∈ t.onyx.keys ↔ p ∈ s.onyx.keys ∧ p.2 ≠ some v) ∧
  (∀ n, n ∈ t.onyx.destroyed ↔ n ∈ s.onyx.destroyed ∨ (n, some v) ∈ s.onyx.keys) ∧
  (∀ (c : CoreId) (x : CtxId), (s.ctx c x).act.isSome = true → bound (s.ctx c x) → .tdisp ∈ (t.ctx c x).stops) ∧
  (∀ (c : CoreId) (n : SlotId) w, (s.slot c n).saved = some w → bound w.ctx →
    ∃ u, (t.slot c n).saved = some u ∧ u.resumable = false ∧ u.reason = 6) ∧
  ((∀ (c : CoreId) (n : SlotId), (s.slot c n).state ≠ .evicted) → t.hbm = s.hbm)

end Sys2Proof.Claims

/-- Accesses between devices (R269, R342, R379): an access that no window admits, under a loaded key slot, is denied; one
that is admitted is performed at the home, and waits there while a commit holds its line. The answer ends the request of its issuer: a load has its value, a denied
or unanswered one faults with PROT, and a posted store that is lost makes its launch report LOSTPOST, with STFLOST when
it was denied. -/
def Obligations.PeerAccesses : Prop :=
  ∀ (s : State),
    (∀ device addr op, s.arg = .peer device addr op →
      let n := peerSize op
      let admits : Prop := addr + n ≤ Config.hbmEnd ∧ ∃ p ∈ s.windows, p.2.device = device ∧
        (if peerLoads op then p.2.r else p.2.w) = true ∧ p.2.base ≤ addr ∧ addr + n ≤ p.2.base + p.2.length ∧
        (p.2.key = 0 ∨ ∃ k ∈ s.onyx.keys, k.1 = p.2.key)
      let d := lineDie (addr / 128)
      let home := s.dir (.slice d) (addr / 128)
      let quiet := addr % 128 + n ≤ 128 ∧ home.cur = none ∧ tabGet (s.die d).reserved (addr / 128) = none ∧
        ((tabGet (s.die d).home (addr / 128)).isSome = true ∨ (s.l2Ways d (addr / 128)).length < 16) ∧
        (∀ j, 1 ≤ j → j ≤ 4 → home.ownerMask j = 0) ∧ home.sharers = []
      (¬ admits → exec .peerAccess s = .next (s.tell (.peerReply device addr .denied))) ∧
      (∀ k r, admits → op = .load k → 0 < k → addr % 128 + k ≤ 128 → tabGet (s.die d).reserved (addr / 128) = some r →
        r.write = true → ∃ t, exec .peerAccess s = .next t ∧ t.hbm = s.hbm ∧ t.outbox = s.outbox ∧ t.cores = s.cores) ∧
      (admits → quiet →
        (∀ k, op = .load k → ∃ t, exec .peerAccess s = .next t ∧ t.hbm = s.hbm ∧
          t.outbox = s.outbox ++ [.peerReply device addr (.data (s.hbm.bytes addr k))]) ∧
        (∀ bs, op = .store bs ∨ op = .posted bs → s.hbm.wf = true → ∃ t, exec .peerAccess s = .next t ∧
          WrittenAt s.hbm t.hbm addr bs ∧ t.outbox = s.outbox ++ [.peerReply device addr .done]))) ∧
    (∀ (id : Nat) (r : PeerRequest), tabGet s.peers id = some r →
      let ends (i : Instr) (P : State → Prop) : Prop := ∃ t, exec i s = .next t ∧ tabGet t.peers id = none ∧ P t
      let late := (∃ b, About s id b) ∧ r.since + 10000000 ≤ s.quartz
      let refused := s.arg = .peerAnswer id .denied
      (∀ (x : CtxId) (o : MemOp) a rest pa key pol, r.ctx = some x → (s.ctx r.core x).op = some o → o.out = true → o.storeAt = none →
        o.todo = a :: rest → a.place = .memory pa .peer key pol → placeLine pa .peer = peerLine r.addr →
        let faulted (t : State) : Prop := (t.ctx r.core x).op = none ∧ ∃ k p, (t.ctx r.core x).stops =
          (s.ctx r.core x).stops ++ [.fault causeProt a.addr k p]
        (late → ends .peerTimeout faulted) ∧ (refused → ends .peerAcknowledgement faulted) ∧
        ((s.ctx r.core x).chunk.active = false → o.vpipe = false → o.acq = false → o.vals = [] → rest = [] →
          (∀ d size signed bs, s.arg = .peerAnswer id (.data bs) → o.fin = .load d size signed → 0 < size → size ≤ 8 →
            bs.length = size →
            ends .peerAcknowledgement (fun t => (t.ctx r.core x).op = none ∧ (t.ctx r.core x).wait = .run ∧
              (t.ctx r.core x).reg d = (if d = 0 then 0 else loaded signed size (leNat bs)) ∧
              (t.ctx r.core x).pc = ((s.ctx r.core x).retire o.len).pc)) ∧
          (s.arg = .peerAnswer id .done → o.fin = .store →
            ends .peerAcknowledgement (fun t => (t.ctx r.core x).op = none ∧ (t.ctx r.core x).wait = .run ∧
              (t.ctx r.core x).regs = (s.ctx r.core x).regs ∧
              (t.ctx r.core x).pc = ((s.ctx r.core x).retire o.len).pc)))) ∧
      (∀ n p l k, r.ctx = none → r.posted = some n → (s.core r.core).posted.find? (fun p => p.id == n) = some p →
        let gone (t : State) : Prop := (t.core r.core).posted = (s.core r.core).posted.filter (fun q => q.id != n)
        (s.arg = .peerAnswer id .done → ends .peerAcknowledgement (fun t => gone t ∧ t.launches = s.launches)) ∧
        (p.launch = some l → tabGet s.launches l = some k →
          let lost (t : State) : Prop := gone t ∧ ∃ k', tabGet t.launches l = some k' ∧ k'.status = 4
          (late → ends .peerTimeout (fun t => lost t ∧ t.ringWaits = s.ringWaits)) ∧
          (refused → ends .peerAcknowledgement (fun t => lost t ∧
            ∃ w ∈ t.ringWaits, w.ring = terminalRing p.domain ∧ bitsOf w.entry 7 0 = 33)))))

/-- Virtual functions (R384, R385): LOCK binds domains that no interface has, START begins RUN with a key-update
interval, STOP unlocks; leaving RUN, by LEAVE RUN, STOP or an expired interval, ends in ERROR, left only by a STOP once
every bound domain is gone; KEY_UPDATE begins the interval again. In CONFIG_UNLOCKED alone a function's ranges change, and a STOP
abandons the sessions of the domains it unbinds (R322).

The model's choices (log entry 72): LOCK's domains and the new ranges are arguments of the step, and a STOP in RUN leaves RUN, to
ERROR. -/
def Obligations.TdispInterfaces : Prop :=
  (∀ (s : State) (v : Nat) (l : List (Nat × Nat)), s.arg = .ranges v l → v < 64 →
    ((s.vf v).state = .unlocked → ∃ t, exec .tdispLock s = .next t ∧ t.vfs = s.vfs ∧ t.dies = s.dies ∧
      ∀ h, h ∈ t.hdm ↔ (h ∈ s.hdm ∧ h.vf ≠ v) ∨ (h.vf = v ∧ (h.base, h.length) ∈ l)) ∧
    ((s.vf v).state ≠ .unlocked → exec .tdispLock s = .next s)) ∧
  ∀ (s : State) (v a b : Nat), s.arg = .nums v a b → v < 64 →
    let unbound (t : State) : Prop := ∀ (e : DieId) n w, tabGet (t.die e).sessions n = some w → w.domain ∉ (s.vf v).domains
    let f := s.vf v
    let becomes (i : Instr) (g : Vf) : Prop := ∃ t, exec i s = .next t ∧ t.vf v = g ∧ (∀ u, u ≠ v → t.vf u = s.vf u) ∧
      t.cores = s.cores ∧ ∃ w ∈ t.ringWaits, w.ring = vfRing v ∧ bitsOf w.entry 7 0 = 40
    (f.state = .unlocked → ∃ t, exec .tdispLock s = .next t ∧ (t.vf v).state = .locked ∧
      ∀ d, d ∈ (t.vf v).domains ↔ (a ≤ d.toNat ∧ d.toNat < b ∧ d ≠ 0 ∧ d ≠ 0xFFFF ∧ ∀ p ∈ s.vfs, d ∉ p.2.domains)) ∧
    (f.state = .locked → becomes .tdispStart { f with state := .run, interval := a, renewed := s.quartz } ∧
      becomes .tdispStop { f with state := .unlocked, domains := [] } ∧ ∃ t, exec .tdispStop s = .next t ∧ unbound t) ∧
    (f.state = .error → (∀ d ∈ f.domains, s.domainGone d = true) →
      becomes .tdispStop { f with state := .unlocked, domains := [] }) ∧
    (f.state = .error → (∃ d ∈ f.domains, s.domainGone d = false) → exec .tdispStop s = .next s) ∧
    (f.state = .run →
      (∃ t, exec .leaveRun s = .next t ∧ LeftRun s t v) ∧ (∃ t, exec .tdispStop s = .next t ∧ LeftRun s t v) ∧
      (f.interval ≠ 0 → f.renewed + f.interval < s.quartz → ∃ t, exec .keyUpdateExpiry s = .next t ∧ LeftRun s t v) ∧
      (f.interval = 0 ∨ s.quartz ≤ f.renewed + f.interval → exec .keyUpdateExpiry s = .next s) ∧
      exec .keyUpdate s = .next { s with vfs := tabSet s.vfs v { f with renewed := s.quartz } }) ∧
    (f.state ≠ .unlocked → exec .tdispLock s = .next s) ∧ (f.state ≠ .locked → exec .tdispStart s = .next s)

/-- Readback (R236, R365): INSPECT writes its object to the buffer, as far as that goes, and answers how many bytes;
NOSPACE says that the buffer was too short, and an unknown object answers BADOP. A TLB entry as it is written reads
back as the same entry.

Keys, fatal errors and management (R367, R368, R369, R386, R402, R403): a key slot other than 0 is loaded for a domain through the
session of the interface that owns it, or for the kernel when none does, once destroyed only when its frames are reported
scrubbed; a fatal error is recorded with its address and freezes the Garnet of its die; GETREADY, SETCAP, GETPOWER,
INSPECT and MEASURE answer by their opcodes, INSPECT with its bytes in the host's buffer and their count in the answer.

The model's choices: the statuses INVALID = 2 and DENIED = 22 (log entry 16); how the buffer's bytes leave the device and the form
of the answers (log entry 73); the core and the bank of a fatal error's record (log entry 53). -/
def Obligations.InspectionAndManagement : Prop :=
  ((∀ (s : State) (c : CoreId) (m : Msg), Requested s c m 0x59 →
      let u := s.sysTake c 1
      let limit := (m.dword 3).toNat
      let object := u.inspect c (bitsOf (m.dword 0) 7 0) (bitsOf (m.dword 0) 15 8) (m.dword 1)
      (object = none → Served .inspect s (m.dword 4) 12 0 (fun t => t.hbm = s.hbm)) ∧
      (17 ≤ bitsOf (m.dword 0) 7 0 ∨ bitsOf (m.dword 0) 7 0 = 0 → object = none) ∧
      (∀ bs, object = some bs →
        (bs.length ≤ limit → Served .inspect s (m.dword 4) 0 bs.length (fun t =>
          t.hbm = (u.kernelWrite c (m.dword 2).toNat bs).hbm)) ∧
        (limit < bs.length → Served .inspect s (m.dword 4) 2 limit (fun t =>
          t.hbm = (u.kernelWrite c (m.dword 2).toNat (bs.take limit)).hbm)))) ∧
    (∀ e : TlbEntry, TlbEntry.ofWords (nth e.words 0) (nth e.words 1) = e)) ∧
  (∀ (s : State),
      (∀ d : BitVec 16, (∀ v, s.boundVf d = some v → ∃ f, (v, f) ∈ s.vfs ∧ d ∈ f.domains) ∧
        (s.boundVf d = none → ∀ p ∈ s.vfs, d ∉ p.2.domains)) ∧
      (∀ (n : Fin 4096) (d : BitVec 16) (scrubbed : Bool), s.arg = .key n d scrubbed →
        let o := s.boundVf d
        let may : Prop := n ≠ 0 ∧ (n.val ∈ s.onyx.destroyed → scrubbed = true) ∧
          ∀ v, o = some v → (s.vf v).state = .locked ∨ (s.vf v).state = .run
        (may → ∃ t, exec .keySlotLoad s = .next t ∧ (n.val, o) ∈ t.onyx.keys ∧
          (∀ p, p.1 ≠ n.val → (p ∈ t.onyx.keys ↔ p ∈ s.onyx.keys)) ∧ (∀ p ∈ t.onyx.keys, p.1 = n.val → p.2 = o)) ∧
        (¬ may → exec .keySlotLoad s = .next s)) ∧
      (∀ g b at_, s.arg = .nums g b at_ → ∃ t, exec .fatalError s = .next t ∧
        (let frozen (old new : Garnet) : Prop := new.frozen = true ∧ (b ≠ 0 → new.records = old.records) ∧
           (b = 0 → old.frozen = false → ∃ r, new.records = (r :: old.records).take 4096 ∧
             r.toNat / 2 ^ 64 % 256 = 7 ∧ r.toNat / 2 ^ 192 = at_ % 2 ^ 64)
         (g < 8 → frozen (s.die (dieNum g)).garnet (t.die (dieNum g)).garnet ∧ t.cores = s.cores) ∧
         (g = 8 → frozen s.garnetA t.garnetA ∧ t.dies = s.dies) ∧
         (8 < g → frozen s.garnetB t.garnetB ∧ t.dies = s.dies))) ∧
      Managed .getready s 0xC000 0 [s.ready] (fun t => t.arbiter = s.arbiter) ∧
      (∀ w b, About s w b →
        (1500 ≤ w → w ≤ 3200 → Managed .setcap s 0xC001 0 [] (fun t => t.arbiter = { s.arbiter with cap := w, due := true })) ∧
        (w < 1500 ∨ 3200 < w → Managed .setcap s 0xC001 2 [] (fun t => t.arbiter = s.arbiter))) ∧
      (∃ draw temp : Word, draw.toNat < 2 ^ 32 ∧ temp.toNat < 2 ^ 32 ∧
        Managed .getpower s 0xC002 0 [word s.arbiter.cap, draw, temp] (fun t => t.arbiter = s.arbiter)) ∧
      (∀ obj sub select core buffer limit, s.arg = .inspect obj sub select core buffer limit →
        let bound : Prop := ∃ v ∈ s.vfs, v.2.state = .run ∧ ∃ d ∈ v.2.domains, d ∈ s.objectDomains core obj sub select
        (bound → Managed .cxlInspect s 0xC010 22 [] (fun t => t.vfs = s.vfs)) ∧
        (¬ bound → s.inspect core obj sub select = none → Managed .cxlInspect s 0xC010 12 [] (fun t => t.vfs = s.vfs)) ∧
        (∀ bs, ¬ bound → s.inspect core obj sub select = some bs →
          ∃ t, exec .cxlInspect s = .next t ∧ t.outbox = s.outbox ++ [.hostWrite buffer (bs.take limit),
              .management 0xC010 (if bs.length ≤ limit then 0 else 2) [word (min limit bs.length)]] ∧
            t.cores = s.cores ∧ t.dies = s.dies ∧ t.hbm = s.hbm ∧ t.vfs = s.vfs)) ∧
      (∀ n b, About s n b → ∀ m, tabGet s.onyx.measurements n = some m →
        Managed .measure s 0xC011 0 (leWords 6 m) (fun t => t.onyx = s.onyx)))

/-! ### An invariant -/

/-- Every memory of the device is in canonical form after reset (R221). -/
def Obligations.MemoriesCanonicalAtReset : Prop := Safety.memories State.reset = true

/-- Every step keeps every memory in canonical form: device memory, the scratchpads and the operand memories (R221). -/
def Obligations.StepKeepsMemories : Prop :=
  ∀ (s t : State), Safety.memories s = true → step s = .next t → Safety.memories t = true
end

