-- ==== Sys2Proof/Laws/State.lean ====
section
/-! SUPPORT. One lemma for each field that an update of the state leaves alone. -/

namespace Sys2Proof.Machine

/-! ### Cores, contexts, slots -/

@[simp] theorem State.setCore_clusters (s : State) (c : CoreId) (k : Core) : (s.setCore c k).clusters = s.clusters := rfl
@[simp] theorem State.setCore_dies (s : State) (c : CoreId) (k : Core) : (s.setCore c k).dies = s.dies := rfl
@[simp] theorem State.setCore_hbm (s : State) (c : CoreId) (k : Core) : (s.setCore c k).hbm = s.hbm := rfl
@[simp] theorem State.setCore_quartz (s : State) (c : CoreId) (k : Core) : (s.setCore c k).quartz = s.quartz := rfl
@[simp] theorem State.setCore_boot (s : State) (c : CoreId) (k : Core) : (s.setCore c k).boot = s.boot := rfl
@[simp] theorem State.setCore_ready (s : State) (c : CoreId) (k : Core) : (s.setCore c k).ready = s.ready := rfl
@[simp] theorem State.setCore_device (s : State) (c : CoreId) (k : Core) : (s.setCore c k).device = s.device := rfl
@[simp] theorem State.setCore_devices (s : State) (c : CoreId) (k : Core) : (s.setCore c k).devices = s.devices := rfl
@[simp] theorem State.setCore_gateBase (s : State) (c : CoreId) (k : Core) : (s.setCore c k).gateBase = s.gateBase := rfl
@[simp] theorem State.setCore_callBase (s : State) (c : CoreId) (k : Core) : (s.setCore c k).callBase = s.callBase := rfl
@[simp] theorem State.setCore_launches (s : State) (c : CoreId) (k : Core) : (s.setCore c k).launches = s.launches := rfl
@[simp] theorem State.setCore_launchCount (s : State) (c : CoreId) (k : Core) : (s.setCore c k).launchCount = s.launchCount := rfl
@[simp] theorem State.setCore_arbiter (s : State) (c : CoreId) (k : Core) : (s.setCore c k).arbiter = s.arbiter := rfl
@[simp] theorem State.setCore_rings (s : State) (c : CoreId) (k : Core) : (s.setCore c k).rings = s.rings := rfl
@[simp] theorem State.setCore_ringWaits (s : State) (c : CoreId) (k : Core) : (s.setCore c k).ringWaits = s.ringWaits := rfl
@[simp] theorem State.setCore_portRing (s : State) (c : CoreId) (k : Core) : (s.setCore c k).portRing = s.portRing := rfl
@[simp] theorem State.setCore_portDone (s : State) (c : CoreId) (k : Core) : (s.setCore c k).portDone = s.portDone := rfl
@[simp] theorem State.setCore_backlog (s : State) (c : CoreId) (k : Core) : (s.setCore c k).backlog = s.backlog := rfl
@[simp] theorem State.setCore_ewCount (s : State) (c : CoreId) (k : Core) : (s.setCore c k).ewCount = s.ewCount := rfl
@[simp] theorem State.setCore_ewTimes (s : State) (c : CoreId) (k : Core) : (s.setCore c k).ewTimes = s.ewTimes := rfl
@[simp] theorem State.setCore_garnetA (s : State) (c : CoreId) (k : Core) : (s.setCore c k).garnetA = s.garnetA := rfl
@[simp] theorem State.setCore_garnetB (s : State) (c : CoreId) (k : Core) : (s.setCore c k).garnetB = s.garnetB := rfl
@[simp] theorem State.setCore_onyx (s : State) (c : CoreId) (k : Core) : (s.setCore c k).onyx = s.onyx := rfl
@[simp] theorem State.setCore_vfs (s : State) (c : CoreId) (k : Core) : (s.setCore c k).vfs = s.vfs := rfl
@[simp] theorem State.setCore_windows (s : State) (c : CoreId) (k : Core) : (s.setCore c k).windows = s.windows := rfl
@[simp] theorem State.setCore_peers (s : State) (c : CoreId) (k : Core) : (s.setCore c k).peers = s.peers := rfl
@[simp] theorem State.setCore_peerCount (s : State) (c : CoreId) (k : Core) : (s.setCore c k).peerCount = s.peerCount := rfl
@[simp] theorem State.setCore_farReads (s : State) (c : CoreId) (k : Core) : (s.setCore c k).farReads = s.farReads := rfl
@[simp] theorem State.setCore_farWrites (s : State) (c : CoreId) (k : Core) : (s.setCore c k).farWrites = s.farWrites := rfl
@[simp] theorem State.setCore_farCount (s : State) (c : CoreId) (k : Core) : (s.setCore c k).farCount = s.farCount := rfl
@[simp] theorem State.setCore_hdm (s : State) (c : CoreId) (k : Core) : (s.setCore c k).hdm = s.hdm := rfl
@[simp] theorem State.setCore_bars (s : State) (c : CoreId) (k : Core) : (s.setCore c k).bars = s.bars := rfl
@[simp] theorem State.setCore_collectives (s : State) (c : CoreId) (k : Core) : (s.setCore c k).collectives = s.collectives := rfl
@[simp] theorem State.setCore_deviceToken (s : State) (c : CoreId) (k : Core) : (s.setCore c k).deviceToken = s.deviceToken := rfl
@[simp] theorem State.setCore_standby (s : State) (c : CoreId) (k : Core) : (s.setCore c k).standby = s.standby := rfl
@[simp] theorem State.setCore_outbox (s : State) (c : CoreId) (k : Core) : (s.setCore c k).outbox = s.outbox := rfl
@[simp] theorem State.setCore_pending (s : State) (c : CoreId) (k : Core) : (s.setCore c k).pending = s.pending := rfl
@[simp] theorem State.setCore_agenda (s : State) (c : CoreId) (k : Core) : (s.setCore c k).agenda = s.agenda := rfl
@[simp] theorem State.setCore_focus (s : State) (c : CoreId) (k : Core) : (s.setCore c k).focus = s.focus := rfl
@[simp] theorem State.setCore_arg (s : State) (c : CoreId) (k : Core) : (s.setCore c k).arg = s.arg := rfl
@[simp] theorem State.setCore_fresh (s : State) (c : CoreId) (k : Core) : (s.setCore c k).fresh = s.fresh := rfl
@[simp] theorem State.setCore_actorCount (s : State) (c : CoreId) (k : Core) : (s.setCore c k).actorCount = s.actorCount := rfl
@[simp] theorem State.setCore_unmaps (s : State) (c : CoreId) (k : Core) : (s.setCore c k).unmaps = s.unmaps := rfl
@[simp] theorem State.setCore_failedPorts (s : State) (c : CoreId) (k : Core) : (s.setCore c k).failedPorts = s.failedPorts := rfl
@[simp] theorem State.setCore_abroad (s : State) (c : CoreId) (k : Core) : (s.setCore c k).abroad = s.abroad := rfl
@[simp] theorem State.setCore_abroadCount (s : State) (c : CoreId) (k : Core) : (s.setCore c k).abroadCount = s.abroadCount := rfl
@[simp] theorem State.setCore_lateWrites (s : State) (c : CoreId) (k : Core) : (s.setCore c k).lateWrites = s.lateWrites := rfl
@[simp] theorem State.mapCore_clusters (s : State) (c : CoreId) (f : Core → Core) : (s.mapCore c f).clusters = s.clusters := rfl
@[simp] theorem State.mapCore_dies (s : State) (c : CoreId) (f : Core → Core) : (s.mapCore c f).dies = s.dies := rfl
@[simp] theorem State.mapCore_hbm (s : State) (c : CoreId) (f : Core → Core) : (s.mapCore c f).hbm = s.hbm := rfl
@[simp] theorem State.mapCore_quartz (s : State) (c : CoreId) (f : Core → Core) : (s.mapCore c f).quartz = s.quartz := rfl
@[simp] theorem State.mapCore_boot (s : State) (c : CoreId) (f : Core → Core) : (s.mapCore c f).boot = s.boot := rfl
@[simp] theorem State.mapCore_ready (s : State) (c : CoreId) (f : Core → Core) : (s.mapCore c f).ready = s.ready := rfl
@[simp] theorem State.mapCore_device (s : State) (c : CoreId) (f : Core → Core) : (s.mapCore c f).device = s.device := rfl
@[simp] theorem State.mapCore_devices (s : State) (c : CoreId) (f : Core → Core) : (s.mapCore c f).devices = s.devices := rfl
@[simp] theorem State.mapCore_gateBase (s : State) (c : CoreId) (f : Core → Core) : (s.mapCore c f).gateBase = s.gateBase := rfl
@[simp] theorem State.mapCore_callBase (s : State) (c : CoreId) (f : Core → Core) : (s.mapCore c f).callBase = s.callBase := rfl
@[simp] theorem State.mapCore_launches (s : State) (c : CoreId) (f : Core → Core) : (s.mapCore c f).launches = s.launches := rfl
@[simp] theorem State.mapCore_launchCount (s : State) (c : CoreId) (f : Core → Core) : (s.mapCore c f).launchCount = s.launchCount := rfl
@[simp] theorem State.mapCore_arbiter (s : State) (c : CoreId) (f : Core → Core) : (s.mapCore c f).arbiter = s.arbiter := rfl
@[simp] theorem State.mapCore_rings (s : State) (c : CoreId) (f : Core → Core) : (s.mapCore c f).rings = s.rings := rfl
@[simp] theorem State.mapCore_ringWaits (s : State) (c : CoreId) (f : Core → Core) : (s.mapCore c f).ringWaits = s.ringWaits := rfl
@[simp] theorem State.mapCore_portRing (s : State) (c : CoreId) (f : Core → Core) : (s.mapCore c f).portRing = s.portRing := rfl
@[simp] theorem State.mapCore_portDone (s : State) (c : CoreId) (f : Core → Core) : (s.mapCore c f).portDone = s.portDone := rfl
@[simp] theorem State.mapCore_backlog (s : State) (c : CoreId) (f : Core → Core) : (s.mapCore c f).backlog = s.backlog := rfl
@[simp] theorem State.mapCore_ewCount (s : State) (c : CoreId) (f : Core → Core) : (s.mapCore c f).ewCount = s.ewCount := rfl
@[simp] theorem State.mapCore_ewTimes (s : State) (c : CoreId) (f : Core → Core) : (s.mapCore c f).ewTimes = s.ewTimes := rfl
@[simp] theorem State.mapCore_garnetA (s : State) (c : CoreId) (f : Core → Core) : (s.mapCore c f).garnetA = s.garnetA := rfl
@[simp] theorem State.mapCore_garnetB (s : State) (c : CoreId) (f : Core → Core) : (s.mapCore c f).garnetB = s.garnetB := rfl
@[simp] theorem State.mapCore_onyx (s : State) (c : CoreId) (f : Core → Core) : (s.mapCore c f).onyx = s.onyx := rfl
@[simp] theorem State.mapCore_vfs (s : State) (c : CoreId) (f : Core → Core) : (s.mapCore c f).vfs = s.vfs := rfl
@[simp] theorem State.mapCore_windows (s : State) (c : CoreId) (f : Core → Core) : (s.mapCore c f).windows = s.windows := rfl
@[simp] theorem State.mapCore_peers (s : State) (c : CoreId) (f : Core → Core) : (s.mapCore c f).peers = s.peers := rfl
@[simp] theorem State.mapCore_peerCount (s : State) (c : CoreId) (f : Core → Core) : (s.mapCore c f).peerCount = s.peerCount := rfl
@[simp] theorem State.mapCore_farReads (s : State) (c : CoreId) (f : Core → Core) : (s.mapCore c f).farReads = s.farReads := rfl
@[simp] theorem State.mapCore_farWrites (s : State) (c : CoreId) (f : Core → Core) : (s.mapCore c f).farWrites = s.farWrites := rfl
@[simp] theorem State.mapCore_farCount (s : State) (c : CoreId) (f : Core → Core) : (s.mapCore c f).farCount = s.farCount := rfl
@[simp] theorem State.mapCore_hdm (s : State) (c : CoreId) (f : Core → Core) : (s.mapCore c f).hdm = s.hdm := rfl
@[simp] theorem State.mapCore_bars (s : State) (c : CoreId) (f : Core → Core) : (s.mapCore c f).bars = s.bars := rfl
@[simp] theorem State.mapCore_collectives (s : State) (c : CoreId) (f : Core → Core) : (s.mapCore c f).collectives = s.collectives := rfl
@[simp] theorem State.mapCore_deviceToken (s : State) (c : CoreId) (f : Core → Core) : (s.mapCore c f).deviceToken = s.deviceToken := rfl
@[simp] theorem State.mapCore_standby (s : State) (c : CoreId) (f : Core → Core) : (s.mapCore c f).standby = s.standby := rfl
@[simp] theorem State.mapCore_outbox (s : State) (c : CoreId) (f : Core → Core) : (s.mapCore c f).outbox = s.outbox := rfl
@[simp] theorem State.mapCore_pending (s : State) (c : CoreId) (f : Core → Core) : (s.mapCore c f).pending = s.pending := rfl
@[simp] theorem State.mapCore_agenda (s : State) (c : CoreId) (f : Core → Core) : (s.mapCore c f).agenda = s.agenda := rfl
@[simp] theorem State.mapCore_focus (s : State) (c : CoreId) (f : Core → Core) : (s.mapCore c f).focus = s.focus := rfl
@[simp] theorem State.mapCore_arg (s : State) (c : CoreId) (f : Core → Core) : (s.mapCore c f).arg = s.arg := rfl
@[simp] theorem State.mapCore_fresh (s : State) (c : CoreId) (f : Core → Core) : (s.mapCore c f).fresh = s.fresh := rfl
@[simp] theorem State.mapCore_actorCount (s : State) (c : CoreId) (f : Core → Core) : (s.mapCore c f).actorCount = s.actorCount := rfl
@[simp] theorem State.mapCore_unmaps (s : State) (c : CoreId) (f : Core → Core) : (s.mapCore c f).unmaps = s.unmaps := rfl
@[simp] theorem State.mapCore_failedPorts (s : State) (c : CoreId) (f : Core → Core) : (s.mapCore c f).failedPorts = s.failedPorts := rfl
@[simp] theorem State.mapCore_abroad (s : State) (c : CoreId) (f : Core → Core) : (s.mapCore c f).abroad = s.abroad := rfl
@[simp] theorem State.mapCore_abroadCount (s : State) (c : CoreId) (f : Core → Core) : (s.mapCore c f).abroadCount = s.abroadCount := rfl
@[simp] theorem State.mapCore_lateWrites (s : State) (c : CoreId) (f : Core → Core) : (s.mapCore c f).lateWrites = s.lateWrites := rfl
@[simp] theorem State.mapCtx_clusters (s : State) (c : CoreId) (x : CtxId) (f : Ctx → Ctx) : (s.mapCtx c x f).clusters = s.clusters := rfl
@[simp] theorem State.mapCtx_dies (s : State) (c : CoreId) (x : CtxId) (f : Ctx → Ctx) : (s.mapCtx c x f).dies = s.dies := rfl
@[simp] theorem State.mapCtx_hbm (s : State) (c : CoreId) (x : CtxId) (f : Ctx → Ctx) : (s.mapCtx c x f).hbm = s.hbm := rfl
@[simp] theorem State.mapCtx_quartz (s : State) (c : CoreId) (x : CtxId) (f : Ctx → Ctx) : (s.mapCtx c x f).quartz = s.quartz := rfl
@[simp] theorem State.mapCtx_boot (s : State) (c : CoreId) (x : CtxId) (f : Ctx → Ctx) : (s.mapCtx c x f).boot = s.boot := rfl
@[simp] theorem State.mapCtx_ready (s : State) (c : CoreId) (x : CtxId) (f : Ctx → Ctx) : (s.mapCtx c x f).ready = s.ready := rfl
@[simp] theorem State.mapCtx_device (s : State) (c : CoreId) (x : CtxId) (f : Ctx → Ctx) : (s.mapCtx c x f).device = s.device := rfl
@[simp] theorem State.mapCtx_devices (s : State) (c : CoreId) (x : CtxId) (f : Ctx → Ctx) : (s.mapCtx c x f).devices = s.devices := rfl
@[simp] theorem State.mapCtx_gateBase (s : State) (c : CoreId) (x : CtxId) (f : Ctx → Ctx) : (s.mapCtx c x f).gateBase = s.gateBase := rfl
@[simp] theorem State.mapCtx_callBase (s : State) (c : CoreId) (x : CtxId) (f : Ctx → Ctx) : (s.mapCtx c x f).callBase = s.callBase := rfl
@[simp] theorem State.mapCtx_launches (s : State) (c : CoreId) (x : CtxId) (f : Ctx → Ctx) : (s.mapCtx c x f).launches = s.launches := rfl
@[simp] theorem State.mapCtx_launchCount (s : State) (c : CoreId) (x : CtxId) (f : Ctx → Ctx) : (s.mapCtx c x f).launchCount = s.launchCount := rfl
@[simp] theorem State.mapCtx_arbiter (s : State) (c : CoreId) (x : CtxId) (f : Ctx → Ctx) : (s.mapCtx c x f).arbiter = s.arbiter := rfl
@[simp] theorem State.mapCtx_rings (s : State) (c : CoreId) (x : CtxId) (f : Ctx → Ctx) : (s.mapCtx c x f).rings = s.rings := rfl
@[simp] theorem State.mapCtx_ringWaits (s : State) (c : CoreId) (x : CtxId) (f : Ctx → Ctx) : (s.mapCtx c x f).ringWaits = s.ringWaits := rfl
@[simp] theorem State.mapCtx_portRing (s : State) (c : CoreId) (x : CtxId) (f : Ctx → Ctx) : (s.mapCtx c x f).portRing = s.portRing := rfl
@[simp] theorem State.mapCtx_portDone (s : State) (c : CoreId) (x : CtxId) (f : Ctx → Ctx) : (s.mapCtx c x f).portDone = s.portDone := rfl
@[simp] theorem State.mapCtx_backlog (s : State) (c : CoreId) (x : CtxId) (f : Ctx → Ctx) : (s.mapCtx c x f).backlog = s.backlog := rfl
@[simp] theorem State.mapCtx_ewCount (s : State) (c : CoreId) (x : CtxId) (f : Ctx → Ctx) : (s.mapCtx c x f).ewCount = s.ewCount := rfl
@[simp] theorem State.mapCtx_ewTimes (s : State) (c : CoreId) (x : CtxId) (f : Ctx → Ctx) : (s.mapCtx c x f).ewTimes = s.ewTimes := rfl
@[simp] theorem State.mapCtx_garnetA (s : State) (c : CoreId) (x : CtxId) (f : Ctx → Ctx) : (s.mapCtx c x f).garnetA = s.garnetA := rfl
@[simp] theorem State.mapCtx_garnetB (s : State) (c : CoreId) (x : CtxId) (f : Ctx → Ctx) : (s.mapCtx c x f).garnetB = s.garnetB := rfl
@[simp] theorem State.mapCtx_onyx (s : State) (c : CoreId) (x : CtxId) (f : Ctx → Ctx) : (s.mapCtx c x f).onyx = s.onyx := rfl
@[simp] theorem State.mapCtx_vfs (s : State) (c : CoreId) (x : CtxId) (f : Ctx → Ctx) : (s.mapCtx c x f).vfs = s.vfs := rfl
@[simp] theorem State.mapCtx_windows (s : State) (c : CoreId) (x : CtxId) (f : Ctx → Ctx) : (s.mapCtx c x f).windows = s.windows := rfl
@[simp] theorem State.mapCtx_peers (s : State) (c : CoreId) (x : CtxId) (f : Ctx → Ctx) : (s.mapCtx c x f).peers = s.peers := rfl
@[simp] theorem State.mapCtx_peerCount (s : State) (c : CoreId) (x : CtxId) (f : Ctx → Ctx) : (s.mapCtx c x f).peerCount = s.peerCount := rfl
@[simp] theorem State.mapCtx_farReads (s : State) (c : CoreId) (x : CtxId) (f : Ctx → Ctx) : (s.mapCtx c x f).farReads = s.farReads := rfl
@[simp] theorem State.mapCtx_farWrites (s : State) (c : CoreId) (x : CtxId) (f : Ctx → Ctx) : (s.mapCtx c x f).farWrites = s.farWrites := rfl
@[simp] theorem State.mapCtx_farCount (s : State) (c : CoreId) (x : CtxId) (f : Ctx → Ctx) : (s.mapCtx c x f).farCount = s.farCount := rfl
@[simp] theorem State.mapCtx_hdm (s : State) (c : CoreId) (x : CtxId) (f : Ctx → Ctx) : (s.mapCtx c x f).hdm = s.hdm := rfl
@[simp] theorem State.mapCtx_bars (s : State) (c : CoreId) (x : CtxId) (f : Ctx → Ctx) : (s.mapCtx c x f).bars = s.bars := rfl
@[simp] theorem State.mapCtx_collectives (s : State) (c : CoreId) (x : CtxId) (f : Ctx → Ctx) : (s.mapCtx c x f).collectives = s.collectives := rfl
@[simp] theorem State.mapCtx_deviceToken (s : State) (c : CoreId) (x : CtxId) (f : Ctx → Ctx) : (s.mapCtx c x f).deviceToken = s.deviceToken := rfl
@[simp] theorem State.mapCtx_standby (s : State) (c : CoreId) (x : CtxId) (f : Ctx → Ctx) : (s.mapCtx c x f).standby = s.standby := rfl
@[simp] theorem State.mapCtx_outbox (s : State) (c : CoreId) (x : CtxId) (f : Ctx → Ctx) : (s.mapCtx c x f).outbox = s.outbox := rfl
@[simp] theorem State.mapCtx_pending (s : State) (c : CoreId) (x : CtxId) (f : Ctx → Ctx) : (s.mapCtx c x f).pending = s.pending := rfl
@[simp] theorem State.mapCtx_agenda (s : State) (c : CoreId) (x : CtxId) (f : Ctx → Ctx) : (s.mapCtx c x f).agenda = s.agenda := rfl
@[simp] theorem State.mapCtx_focus (s : State) (c : CoreId) (x : CtxId) (f : Ctx → Ctx) : (s.mapCtx c x f).focus = s.focus := rfl
@[simp] theorem State.mapCtx_arg (s : State) (c : CoreId) (x : CtxId) (f : Ctx → Ctx) : (s.mapCtx c x f).arg = s.arg := rfl
@[simp] theorem State.mapCtx_fresh (s : State) (c : CoreId) (x : CtxId) (f : Ctx → Ctx) : (s.mapCtx c x f).fresh = s.fresh := rfl
@[simp] theorem State.mapCtx_actorCount (s : State) (c : CoreId) (x : CtxId) (f : Ctx → Ctx) : (s.mapCtx c x f).actorCount = s.actorCount := rfl
@[simp] theorem State.mapCtx_unmaps (s : State) (c : CoreId) (x : CtxId) (f : Ctx → Ctx) : (s.mapCtx c x f).unmaps = s.unmaps := rfl
@[simp] theorem State.mapCtx_failedPorts (s : State) (c : CoreId) (x : CtxId) (f : Ctx → Ctx) : (s.mapCtx c x f).failedPorts = s.failedPorts := rfl
@[simp] theorem State.mapCtx_abroad (s : State) (c : CoreId) (x : CtxId) (f : Ctx → Ctx) : (s.mapCtx c x f).abroad = s.abroad := rfl
@[simp] theorem State.mapCtx_abroadCount (s : State) (c : CoreId) (x : CtxId) (f : Ctx → Ctx) : (s.mapCtx c x f).abroadCount = s.abroadCount := rfl
@[simp] theorem State.mapCtx_lateWrites (s : State) (c : CoreId) (x : CtxId) (f : Ctx → Ctx) : (s.mapCtx c x f).lateWrites = s.lateWrites := rfl
@[simp] theorem State.mapHere_clusters (s : State) (f : Ctx → Ctx) : (s.mapHere f).clusters = s.clusters := rfl
@[simp] theorem State.mapHere_dies (s : State) (f : Ctx → Ctx) : (s.mapHere f).dies = s.dies := rfl
@[simp] theorem State.mapHere_hbm (s : State) (f : Ctx → Ctx) : (s.mapHere f).hbm = s.hbm := rfl
@[simp] theorem State.mapHere_quartz (s : State) (f : Ctx → Ctx) : (s.mapHere f).quartz = s.quartz := rfl
@[simp] theorem State.mapHere_boot (s : State) (f : Ctx → Ctx) : (s.mapHere f).boot = s.boot := rfl
@[simp] theorem State.mapHere_ready (s : State) (f : Ctx → Ctx) : (s.mapHere f).ready = s.ready := rfl
@[simp] theorem State.mapHere_device (s : State) (f : Ctx → Ctx) : (s.mapHere f).device = s.device := rfl
@[simp] theorem State.mapHere_devices (s : State) (f : Ctx → Ctx) : (s.mapHere f).devices = s.devices := rfl
@[simp] theorem State.mapHere_gateBase (s : State) (f : Ctx → Ctx) : (s.mapHere f).gateBase = s.gateBase := rfl
@[simp] theorem State.mapHere_callBase (s : State) (f : Ctx → Ctx) : (s.mapHere f).callBase = s.callBase := rfl
@[simp] theorem State.mapHere_launches (s : State) (f : Ctx → Ctx) : (s.mapHere f).launches = s.launches := rfl
@[simp] theorem State.mapHere_launchCount (s : State) (f : Ctx → Ctx) : (s.mapHere f).launchCount = s.launchCount := rfl
@[simp] theorem State.mapHere_arbiter (s : State) (f : Ctx → Ctx) : (s.mapHere f).arbiter = s.arbiter := rfl
@[simp] theorem State.mapHere_rings (s : State) (f : Ctx → Ctx) : (s.mapHere f).rings = s.rings := rfl
@[simp] theorem State.mapHere_ringWaits (s : State) (f : Ctx → Ctx) : (s.mapHere f).ringWaits = s.ringWaits := rfl
@[simp] theorem State.mapHere_portRing (s : State) (f : Ctx → Ctx) : (s.mapHere f).portRing = s.portRing := rfl
@[simp] theorem State.mapHere_portDone (s : State) (f : Ctx → Ctx) : (s.mapHere f).portDone = s.portDone := rfl
@[simp] theorem State.mapHere_backlog (s : State) (f : Ctx → Ctx) : (s.mapHere f).backlog = s.backlog := rfl
@[simp] theorem State.mapHere_ewCount (s : State) (f : Ctx → Ctx) : (s.mapHere f).ewCount = s.ewCount := rfl
@[simp] theorem State.mapHere_ewTimes (s : State) (f : Ctx → Ctx) : (s.mapHere f).ewTimes = s.ewTimes := rfl
@[simp] theorem State.mapHere_garnetA (s : State) (f : Ctx → Ctx) : (s.mapHere f).garnetA = s.garnetA := rfl
@[simp] theorem State.mapHere_garnetB (s : State) (f : Ctx → Ctx) : (s.mapHere f).garnetB = s.garnetB := rfl
@[simp] theorem State.mapHere_onyx (s : State) (f : Ctx → Ctx) : (s.mapHere f).onyx = s.onyx := rfl
@[simp] theorem State.mapHere_vfs (s : State) (f : Ctx → Ctx) : (s.mapHere f).vfs = s.vfs := rfl
@[simp] theorem State.mapHere_windows (s : State) (f : Ctx → Ctx) : (s.mapHere f).windows = s.windows := rfl
@[simp] theorem State.mapHere_peers (s : State) (f : Ctx → Ctx) : (s.mapHere f).peers = s.peers := rfl
@[simp] theorem State.mapHere_peerCount (s : State) (f : Ctx → Ctx) : (s.mapHere f).peerCount = s.peerCount := rfl
@[simp] theorem State.mapHere_farReads (s : State) (f : Ctx → Ctx) : (s.mapHere f).farReads = s.farReads := rfl
@[simp] theorem State.mapHere_farWrites (s : State) (f : Ctx → Ctx) : (s.mapHere f).farWrites = s.farWrites := rfl
@[simp] theorem State.mapHere_farCount (s : State) (f : Ctx → Ctx) : (s.mapHere f).farCount = s.farCount := rfl
@[simp] theorem State.mapHere_hdm (s : State) (f : Ctx → Ctx) : (s.mapHere f).hdm = s.hdm := rfl
@[simp] theorem State.mapHere_bars (s : State) (f : Ctx → Ctx) : (s.mapHere f).bars = s.bars := rfl
@[simp] theorem State.mapHere_collectives (s : State) (f : Ctx → Ctx) : (s.mapHere f).collectives = s.collectives := rfl
@[simp] theorem State.mapHere_deviceToken (s : State) (f : Ctx → Ctx) : (s.mapHere f).deviceToken = s.deviceToken := rfl
@[simp] theorem State.mapHere_standby (s : State) (f : Ctx → Ctx) : (s.mapHere f).standby = s.standby := rfl
@[simp] theorem State.mapHere_outbox (s : State) (f : Ctx → Ctx) : (s.mapHere f).outbox = s.outbox := rfl
@[simp] theorem State.mapHere_pending (s : State) (f : Ctx → Ctx) : (s.mapHere f).pending = s.pending := rfl
@[simp] theorem State.mapHere_agenda (s : State) (f : Ctx → Ctx) : (s.mapHere f).agenda = s.agenda := rfl
@[simp] theorem State.mapHere_focus (s : State) (f : Ctx → Ctx) : (s.mapHere f).focus = s.focus := rfl
@[simp] theorem State.mapHere_arg (s : State) (f : Ctx → Ctx) : (s.mapHere f).arg = s.arg := rfl
@[simp] theorem State.mapHere_fresh (s : State) (f : Ctx → Ctx) : (s.mapHere f).fresh = s.fresh := rfl
@[simp] theorem State.mapHere_actorCount (s : State) (f : Ctx → Ctx) : (s.mapHere f).actorCount = s.actorCount := rfl
@[simp] theorem State.mapHere_unmaps (s : State) (f : Ctx → Ctx) : (s.mapHere f).unmaps = s.unmaps := rfl
@[simp] theorem State.mapHere_failedPorts (s : State) (f : Ctx → Ctx) : (s.mapHere f).failedPorts = s.failedPorts := rfl
@[simp] theorem State.mapHere_abroad (s : State) (f : Ctx → Ctx) : (s.mapHere f).abroad = s.abroad := rfl
@[simp] theorem State.mapHere_abroadCount (s : State) (f : Ctx → Ctx) : (s.mapHere f).abroadCount = s.abroadCount := rfl
@[simp] theorem State.mapHere_lateWrites (s : State) (f : Ctx → Ctx) : (s.mapHere f).lateWrites = s.lateWrites := rfl
@[simp] theorem State.mapSlot_clusters (s : State) (c : CoreId) (n : SlotId) (f : Slot → Slot) : (s.mapSlot c n f).clusters = s.clusters := rfl
@[simp] theorem State.mapSlot_dies (s : State) (c : CoreId) (n : SlotId) (f : Slot → Slot) : (s.mapSlot c n f).dies = s.dies := rfl
@[simp] theorem State.mapSlot_hbm (s : State) (c : CoreId) (n : SlotId) (f : Slot → Slot) : (s.mapSlot c n f).hbm = s.hbm := rfl
@[simp] theorem State.mapSlot_quartz (s : State) (c : CoreId) (n : SlotId) (f : Slot → Slot) : (s.mapSlot c n f).quartz = s.quartz := rfl
@[simp] theorem State.mapSlot_boot (s : State) (c : CoreId) (n : SlotId) (f : Slot → Slot) : (s.mapSlot c n f).boot = s.boot := rfl
@[simp] theorem State.mapSlot_ready (s : State) (c : CoreId) (n : SlotId) (f : Slot → Slot) : (s.mapSlot c n f).ready = s.ready := rfl
@[simp] theorem State.mapSlot_device (s : State) (c : CoreId) (n : SlotId) (f : Slot → Slot) : (s.mapSlot c n f).device = s.device := rfl
@[simp] theorem State.mapSlot_devices (s : State) (c : CoreId) (n : SlotId) (f : Slot → Slot) : (s.mapSlot c n f).devices = s.devices := rfl
@[simp] theorem State.mapSlot_gateBase (s : State) (c : CoreId) (n : SlotId) (f : Slot → Slot) : (s.mapSlot c n f).gateBase = s.gateBase := rfl
@[simp] theorem State.mapSlot_callBase (s : State) (c : CoreId) (n : SlotId) (f : Slot → Slot) : (s.mapSlot c n f).callBase = s.callBase := rfl
@[simp] theorem State.mapSlot_launches (s : State) (c : CoreId) (n : SlotId) (f : Slot → Slot) : (s.mapSlot c n f).launches = s.launches := rfl
@[simp] theorem State.mapSlot_launchCount (s : State) (c : CoreId) (n : SlotId) (f : Slot → Slot) : (s.mapSlot c n f).launchCount = s.launchCount := rfl
@[simp] theorem State.mapSlot_arbiter (s : State) (c : CoreId) (n : SlotId) (f : Slot → Slot) : (s.mapSlot c n f).arbiter = s.arbiter := rfl
@[simp] theorem State.mapSlot_rings (s : State) (c : CoreId) (n : SlotId) (f : Slot → Slot) : (s.mapSlot c n f).rings = s.rings := rfl
@[simp] theorem State.mapSlot_ringWaits (s : State) (c : CoreId) (n : SlotId) (f : Slot → Slot) : (s.mapSlot c n f).ringWaits = s.ringWaits := rfl
@[simp] theorem State.mapSlot_portRing (s : State) (c : CoreId) (n : SlotId) (f : Slot → Slot) : (s.mapSlot c n f).portRing = s.portRing := rfl
@[simp] theorem State.mapSlot_portDone (s : State) (c : CoreId) (n : SlotId) (f : Slot → Slot) : (s.mapSlot c n f).portDone = s.portDone := rfl
@[simp] theorem State.mapSlot_backlog (s : State) (c : CoreId) (n : SlotId) (f : Slot → Slot) : (s.mapSlot c n f).backlog = s.backlog := rfl
@[simp] theorem State.mapSlot_ewCount (s : State) (c : CoreId) (n : SlotId) (f : Slot → Slot) : (s.mapSlot c n f).ewCount = s.ewCount := rfl
@[simp] theorem State.mapSlot_ewTimes (s : State) (c : CoreId) (n : SlotId) (f : Slot → Slot) : (s.mapSlot c n f).ewTimes = s.ewTimes := rfl
@[simp] theorem State.mapSlot_garnetA (s : State) (c : CoreId) (n : SlotId) (f : Slot → Slot) : (s.mapSlot c n f).garnetA = s.garnetA := rfl
@[simp] theorem State.mapSlot_garnetB (s : State) (c : CoreId) (n : SlotId) (f : Slot → Slot) : (s.mapSlot c n f).garnetB = s.garnetB := rfl
@[simp] theorem State.mapSlot_onyx (s : State) (c : CoreId) (n : SlotId) (f : Slot → Slot) : (s.mapSlot c n f).onyx = s.onyx := rfl
@[simp] theorem State.mapSlot_vfs (s : State) (c : CoreId) (n : SlotId) (f : Slot → Slot) : (s.mapSlot c n f).vfs = s.vfs := rfl
@[simp] theorem State.mapSlot_windows (s : State) (c : CoreId) (n : SlotId) (f : Slot → Slot) : (s.mapSlot c n f).windows = s.windows := rfl
@[simp] theorem State.mapSlot_peers (s : State) (c : CoreId) (n : SlotId) (f : Slot → Slot) : (s.mapSlot c n f).peers = s.peers := rfl
@[simp] theorem State.mapSlot_peerCount (s : State) (c : CoreId) (n : SlotId) (f : Slot → Slot) : (s.mapSlot c n f).peerCount = s.peerCount := rfl
@[simp] theorem State.mapSlot_farReads (s : State) (c : CoreId) (n : SlotId) (f : Slot → Slot) : (s.mapSlot c n f).farReads = s.farReads := rfl
@[simp] theorem State.mapSlot_farWrites (s : State) (c : CoreId) (n : SlotId) (f : Slot → Slot) : (s.mapSlot c n f).farWrites = s.farWrites := rfl
@[simp] theorem State.mapSlot_farCount (s : State) (c : CoreId) (n : SlotId) (f : Slot → Slot) : (s.mapSlot c n f).farCount = s.farCount := rfl
@[simp] theorem State.mapSlot_hdm (s : State) (c : CoreId) (n : SlotId) (f : Slot → Slot) : (s.mapSlot c n f).hdm = s.hdm := rfl
@[simp] theorem State.mapSlot_bars (s : State) (c : CoreId) (n : SlotId) (f : Slot → Slot) : (s.mapSlot c n f).bars = s.bars := rfl
@[simp] theorem State.mapSlot_collectives (s : State) (c : CoreId) (n : SlotId) (f : Slot → Slot) : (s.mapSlot c n f).collectives = s.collectives := rfl
@[simp] theorem State.mapSlot_deviceToken (s : State) (c : CoreId) (n : SlotId) (f : Slot → Slot) : (s.mapSlot c n f).deviceToken = s.deviceToken := rfl
@[simp] theorem State.mapSlot_standby (s : State) (c : CoreId) (n : SlotId) (f : Slot → Slot) : (s.mapSlot c n f).standby = s.standby := rfl
@[simp] theorem State.mapSlot_outbox (s : State) (c : CoreId) (n : SlotId) (f : Slot → Slot) : (s.mapSlot c n f).outbox = s.outbox := rfl
@[simp] theorem State.mapSlot_pending (s : State) (c : CoreId) (n : SlotId) (f : Slot → Slot) : (s.mapSlot c n f).pending = s.pending := rfl
@[simp] theorem State.mapSlot_agenda (s : State) (c : CoreId) (n : SlotId) (f : Slot → Slot) : (s.mapSlot c n f).agenda = s.agenda := rfl
@[simp] theorem State.mapSlot_focus (s : State) (c : CoreId) (n : SlotId) (f : Slot → Slot) : (s.mapSlot c n f).focus = s.focus := rfl
@[simp] theorem State.mapSlot_arg (s : State) (c : CoreId) (n : SlotId) (f : Slot → Slot) : (s.mapSlot c n f).arg = s.arg := rfl
@[simp] theorem State.mapSlot_fresh (s : State) (c : CoreId) (n : SlotId) (f : Slot → Slot) : (s.mapSlot c n f).fresh = s.fresh := rfl
@[simp] theorem State.mapSlot_actorCount (s : State) (c : CoreId) (n : SlotId) (f : Slot → Slot) : (s.mapSlot c n f).actorCount = s.actorCount := rfl
@[simp] theorem State.mapSlot_unmaps (s : State) (c : CoreId) (n : SlotId) (f : Slot → Slot) : (s.mapSlot c n f).unmaps = s.unmaps := rfl
@[simp] theorem State.mapSlot_failedPorts (s : State) (c : CoreId) (n : SlotId) (f : Slot → Slot) : (s.mapSlot c n f).failedPorts = s.failedPorts := rfl
@[simp] theorem State.mapSlot_abroad (s : State) (c : CoreId) (n : SlotId) (f : Slot → Slot) : (s.mapSlot c n f).abroad = s.abroad := rfl
@[simp] theorem State.mapSlot_abroadCount (s : State) (c : CoreId) (n : SlotId) (f : Slot → Slot) : (s.mapSlot c n f).abroadCount = s.abroadCount := rfl
@[simp] theorem State.mapSlot_lateWrites (s : State) (c : CoreId) (n : SlotId) (f : Slot → Slot) : (s.mapSlot c n f).lateWrites = s.lateWrites := rfl

/-! ### Clusters and dies -/

@[simp] theorem State.mapCluster_cores (s : State) (g : ClusterId) (f : Cluster → Cluster) : (s.mapCluster g f).cores = s.cores := rfl
@[simp] theorem State.mapCluster_dies (s : State) (g : ClusterId) (f : Cluster → Cluster) : (s.mapCluster g f).dies = s.dies := rfl
@[simp] theorem State.mapCluster_hbm (s : State) (g : ClusterId) (f : Cluster → Cluster) : (s.mapCluster g f).hbm = s.hbm := rfl
@[simp] theorem State.mapCluster_quartz (s : State) (g : ClusterId) (f : Cluster → Cluster) : (s.mapCluster g f).quartz = s.quartz := rfl
@[simp] theorem State.mapCluster_boot (s : State) (g : ClusterId) (f : Cluster → Cluster) : (s.mapCluster g f).boot = s.boot := rfl
@[simp] theorem State.mapCluster_ready (s : State) (g : ClusterId) (f : Cluster → Cluster) : (s.mapCluster g f).ready = s.ready := rfl
@[simp] theorem State.mapCluster_device (s : State) (g : ClusterId) (f : Cluster → Cluster) : (s.mapCluster g f).device = s.device := rfl
@[simp] theorem State.mapCluster_devices (s : State) (g : ClusterId) (f : Cluster → Cluster) : (s.mapCluster g f).devices = s.devices := rfl
@[simp] theorem State.mapCluster_gateBase (s : State) (g : ClusterId) (f : Cluster → Cluster) : (s.mapCluster g f).gateBase = s.gateBase := rfl
@[simp] theorem State.mapCluster_callBase (s : State) (g : ClusterId) (f : Cluster → Cluster) : (s.mapCluster g f).callBase = s.callBase := rfl
@[simp] theorem State.mapCluster_launches (s : State) (g : ClusterId) (f : Cluster → Cluster) : (s.mapCluster g f).launches = s.launches := rfl
@[simp] theorem State.mapCluster_launchCount (s : State) (g : ClusterId) (f : Cluster → Cluster) : (s.mapCluster g f).launchCount = s.launchCount := rfl
@[simp] theorem State.mapCluster_arbiter (s : State) (g : ClusterId) (f : Cluster → Cluster) : (s.mapCluster g f).arbiter = s.arbiter := rfl
@[simp] theorem State.mapCluster_rings (s : State) (g : ClusterId) (f : Cluster → Cluster) : (s.mapCluster g f).rings = s.rings := rfl
@[simp] theorem State.mapCluster_ringWaits (s : State) (g : ClusterId) (f : Cluster → Cluster) : (s.mapCluster g f).ringWaits = s.ringWaits := rfl
@[simp] theorem State.mapCluster_portRing (s : State) (g : ClusterId) (f : Cluster → Cluster) : (s.mapCluster g f).portRing = s.portRing := rfl
@[simp] theorem State.mapCluster_portDone (s : State) (g : ClusterId) (f : Cluster → Cluster) : (s.mapCluster g f).portDone = s.portDone := rfl
@[simp] theorem State.mapCluster_backlog (s : State) (g : ClusterId) (f : Cluster → Cluster) : (s.mapCluster g f).backlog = s.backlog := rfl
@[simp] theorem State.mapCluster_ewCount (s : State) (g : ClusterId) (f : Cluster → Cluster) : (s.mapCluster g f).ewCount = s.ewCount := rfl
@[simp] theorem State.mapCluster_ewTimes (s : State) (g : ClusterId) (f : Cluster → Cluster) : (s.mapCluster g f).ewTimes = s.ewTimes := rfl
@[simp] theorem State.mapCluster_garnetA (s : State) (g : ClusterId) (f : Cluster → Cluster) : (s.mapCluster g f).garnetA = s.garnetA := rfl
@[simp] theorem State.mapCluster_garnetB (s : State) (g : ClusterId) (f : Cluster → Cluster) : (s.mapCluster g f).garnetB = s.garnetB := rfl
@[simp] theorem State.mapCluster_onyx (s : State) (g : ClusterId) (f : Cluster → Cluster) : (s.mapCluster g f).onyx = s.onyx := rfl
@[simp] theorem State.mapCluster_vfs (s : State) (g : ClusterId) (f : Cluster → Cluster) : (s.mapCluster g f).vfs = s.vfs := rfl
@[simp] theorem State.mapCluster_windows (s : State) (g : ClusterId) (f : Cluster → Cluster) : (s.mapCluster g f).windows = s.windows := rfl
@[simp] theorem State.mapCluster_peers (s : State) (g : ClusterId) (f : Cluster → Cluster) : (s.mapCluster g f).peers = s.peers := rfl
@[simp] theorem State.mapCluster_peerCount (s : State) (g : ClusterId) (f : Cluster → Cluster) : (s.mapCluster g f).peerCount = s.peerCount := rfl
@[simp] theorem State.mapCluster_farReads (s : State) (g : ClusterId) (f : Cluster → Cluster) : (s.mapCluster g f).farReads = s.farReads := rfl
@[simp] theorem State.mapCluster_farWrites (s : State) (g : ClusterId) (f : Cluster → Cluster) : (s.mapCluster g f).farWrites = s.farWrites := rfl
@[simp] theorem State.mapCluster_farCount (s : State) (g : ClusterId) (f : Cluster → Cluster) : (s.mapCluster g f).farCount = s.farCount := rfl
@[simp] theorem State.mapCluster_hdm (s : State) (g : ClusterId) (f : Cluster → Cluster) : (s.mapCluster g f).hdm = s.hdm := rfl
@[simp] theorem State.mapCluster_bars (s : State) (g : ClusterId) (f : Cluster → Cluster) : (s.mapCluster g f).bars = s.bars := rfl
@[simp] theorem State.mapCluster_collectives (s : State) (g : ClusterId) (f : Cluster → Cluster) : (s.mapCluster g f).collectives = s.collectives := rfl
@[simp] theorem State.mapCluster_deviceToken (s : State) (g : ClusterId) (f : Cluster → Cluster) : (s.mapCluster g f).deviceToken = s.deviceToken := rfl
@[simp] theorem State.mapCluster_standby (s : State) (g : ClusterId) (f : Cluster → Cluster) : (s.mapCluster g f).standby = s.standby := rfl
@[simp] theorem State.mapCluster_outbox (s : State) (g : ClusterId) (f : Cluster → Cluster) : (s.mapCluster g f).outbox = s.outbox := rfl
@[simp] theorem State.mapCluster_pending (s : State) (g : ClusterId) (f : Cluster → Cluster) : (s.mapCluster g f).pending = s.pending := rfl
@[simp] theorem State.mapCluster_agenda (s : State) (g : ClusterId) (f : Cluster → Cluster) : (s.mapCluster g f).agenda = s.agenda := rfl
@[simp] theorem State.mapCluster_focus (s : State) (g : ClusterId) (f : Cluster → Cluster) : (s.mapCluster g f).focus = s.focus := rfl
@[simp] theorem State.mapCluster_arg (s : State) (g : ClusterId) (f : Cluster → Cluster) : (s.mapCluster g f).arg = s.arg := rfl
@[simp] theorem State.mapCluster_fresh (s : State) (g : ClusterId) (f : Cluster → Cluster) : (s.mapCluster g f).fresh = s.fresh := rfl
@[simp] theorem State.mapCluster_actorCount (s : State) (g : ClusterId) (f : Cluster → Cluster) : (s.mapCluster g f).actorCount = s.actorCount := rfl
@[simp] theorem State.mapCluster_unmaps (s : State) (g : ClusterId) (f : Cluster → Cluster) : (s.mapCluster g f).unmaps = s.unmaps := rfl
@[simp] theorem State.mapCluster_failedPorts (s : State) (g : ClusterId) (f : Cluster → Cluster) : (s.mapCluster g f).failedPorts = s.failedPorts := rfl
@[simp] theorem State.mapCluster_abroad (s : State) (g : ClusterId) (f : Cluster → Cluster) : (s.mapCluster g f).abroad = s.abroad := rfl
@[simp] theorem State.mapCluster_abroadCount (s : State) (g : ClusterId) (f : Cluster → Cluster) : (s.mapCluster g f).abroadCount = s.abroadCount := rfl
@[simp] theorem State.mapCluster_lateWrites (s : State) (g : ClusterId) (f : Cluster → Cluster) : (s.mapCluster g f).lateWrites = s.lateWrites := rfl
@[simp] theorem State.mapDie_cores (s : State) (d : DieId) (f : Die → Die) : (s.mapDie d f).cores = s.cores := rfl
@[simp] theorem State.mapDie_clusters (s : State) (d : DieId) (f : Die → Die) : (s.mapDie d f).clusters = s.clusters := rfl
@[simp] theorem State.mapDie_hbm (s : State) (d : DieId) (f : Die → Die) : (s.mapDie d f).hbm = s.hbm := rfl
@[simp] theorem State.mapDie_quartz (s : State) (d : DieId) (f : Die → Die) : (s.mapDie d f).quartz = s.quartz := rfl
@[simp] theorem State.mapDie_boot (s : State) (d : DieId) (f : Die → Die) : (s.mapDie d f).boot = s.boot := rfl
@[simp] theorem State.mapDie_ready (s : State) (d : DieId) (f : Die → Die) : (s.mapDie d f).ready = s.ready := rfl
@[simp] theorem State.mapDie_device (s : State) (d : DieId) (f : Die → Die) : (s.mapDie d f).device = s.device := rfl
@[simp] theorem State.mapDie_devices (s : State) (d : DieId) (f : Die → Die) : (s.mapDie d f).devices = s.devices := rfl
@[simp] theorem State.mapDie_gateBase (s : State) (d : DieId) (f : Die → Die) : (s.mapDie d f).gateBase = s.gateBase := rfl
@[simp] theorem State.mapDie_callBase (s : State) (d : DieId) (f : Die → Die) : (s.mapDie d f).callBase = s.callBase := rfl
@[simp] theorem State.mapDie_launches (s : State) (d : DieId) (f : Die → Die) : (s.mapDie d f).launches = s.launches := rfl
@[simp] theorem State.mapDie_launchCount (s : State) (d : DieId) (f : Die → Die) : (s.mapDie d f).launchCount = s.launchCount := rfl
@[simp] theorem State.mapDie_arbiter (s : State) (d : DieId) (f : Die → Die) : (s.mapDie d f).arbiter = s.arbiter := rfl
@[simp] theorem State.mapDie_rings (s : State) (d : DieId) (f : Die → Die) : (s.mapDie d f).rings = s.rings := rfl
@[simp] theorem State.mapDie_ringWaits (s : State) (d : DieId) (f : Die → Die) : (s.mapDie d f).ringWaits = s.ringWaits := rfl
@[simp] theorem State.mapDie_portRing (s : State) (d : DieId) (f : Die → Die) : (s.mapDie d f).portRing = s.portRing := rfl
@[simp] theorem State.mapDie_portDone (s : State) (d : DieId) (f : Die → Die) : (s.mapDie d f).portDone = s.portDone := rfl
@[simp] theorem State.mapDie_backlog (s : State) (d : DieId) (f : Die → Die) : (s.mapDie d f).backlog = s.backlog := rfl
@[simp] theorem State.mapDie_ewCount (s : State) (d : DieId) (f : Die → Die) : (s.mapDie d f).ewCount = s.ewCount := rfl
@[simp] theorem State.mapDie_ewTimes (s : State) (d : DieId) (f : Die → Die) : (s.mapDie d f).ewTimes = s.ewTimes := rfl
@[simp] theorem State.mapDie_garnetA (s : State) (d : DieId) (f : Die → Die) : (s.mapDie d f).garnetA = s.garnetA := rfl
@[simp] theorem State.mapDie_garnetB (s : State) (d : DieId) (f : Die → Die) : (s.mapDie d f).garnetB = s.garnetB := rfl
@[simp] theorem State.mapDie_onyx (s : State) (d : DieId) (f : Die → Die) : (s.mapDie d f).onyx = s.onyx := rfl
@[simp] theorem State.mapDie_vfs (s : State) (d : DieId) (f : Die → Die) : (s.mapDie d f).vfs = s.vfs := rfl
@[simp] theorem State.mapDie_windows (s : State) (d : DieId) (f : Die → Die) : (s.mapDie d f).windows = s.windows := rfl
@[simp] theorem State.mapDie_peers (s : State) (d : DieId) (f : Die → Die) : (s.mapDie d f).peers = s.peers := rfl
@[simp] theorem State.mapDie_peerCount (s : State) (d : DieId) (f : Die → Die) : (s.mapDie d f).peerCount = s.peerCount := rfl
@[simp] theorem State.mapDie_farReads (s : State) (d : DieId) (f : Die → Die) : (s.mapDie d f).farReads = s.farReads := rfl
@[simp] theorem State.mapDie_farWrites (s : State) (d : DieId) (f : Die → Die) : (s.mapDie d f).farWrites = s.farWrites := rfl
@[simp] theorem State.mapDie_farCount (s : State) (d : DieId) (f : Die → Die) : (s.mapDie d f).farCount = s.farCount := rfl
@[simp] theorem State.mapDie_hdm (s : State) (d : DieId) (f : Die → Die) : (s.mapDie d f).hdm = s.hdm := rfl
@[simp] theorem State.mapDie_bars (s : State) (d : DieId) (f : Die → Die) : (s.mapDie d f).bars = s.bars := rfl
@[simp] theorem State.mapDie_collectives (s : State) (d : DieId) (f : Die → Die) : (s.mapDie d f).collectives = s.collectives := rfl
@[simp] theorem State.mapDie_deviceToken (s : State) (d : DieId) (f : Die → Die) : (s.mapDie d f).deviceToken = s.deviceToken := rfl
@[simp] theorem State.mapDie_standby (s : State) (d : DieId) (f : Die → Die) : (s.mapDie d f).standby = s.standby := rfl
@[simp] theorem State.mapDie_outbox (s : State) (d : DieId) (f : Die → Die) : (s.mapDie d f).outbox = s.outbox := rfl
@[simp] theorem State.mapDie_pending (s : State) (d : DieId) (f : Die → Die) : (s.mapDie d f).pending = s.pending := rfl
@[simp] theorem State.mapDie_agenda (s : State) (d : DieId) (f : Die → Die) : (s.mapDie d f).agenda = s.agenda := rfl
@[simp] theorem State.mapDie_focus (s : State) (d : DieId) (f : Die → Die) : (s.mapDie d f).focus = s.focus := rfl
@[simp] theorem State.mapDie_arg (s : State) (d : DieId) (f : Die → Die) : (s.mapDie d f).arg = s.arg := rfl
@[simp] theorem State.mapDie_fresh (s : State) (d : DieId) (f : Die → Die) : (s.mapDie d f).fresh = s.fresh := rfl
@[simp] theorem State.mapDie_actorCount (s : State) (d : DieId) (f : Die → Die) : (s.mapDie d f).actorCount = s.actorCount := rfl
@[simp] theorem State.mapDie_unmaps (s : State) (d : DieId) (f : Die → Die) : (s.mapDie d f).unmaps = s.unmaps := rfl
@[simp] theorem State.mapDie_failedPorts (s : State) (d : DieId) (f : Die → Die) : (s.mapDie d f).failedPorts = s.failedPorts := rfl
@[simp] theorem State.mapDie_abroad (s : State) (d : DieId) (f : Die → Die) : (s.mapDie d f).abroad = s.abroad := rfl
@[simp] theorem State.mapDie_abroadCount (s : State) (d : DieId) (f : Die → Die) : (s.mapDie d f).abroadCount = s.abroadCount := rfl
@[simp] theorem State.mapDie_lateWrites (s : State) (d : DieId) (f : Die → Die) : (s.mapDie d f).lateWrites = s.lateWrites := rfl

/-! ### What leaves, rings, the agenda of flights -/

@[simp] theorem State.tell_cores (s : State) (o : Out) : (s.tell o).cores = s.cores := rfl
@[simp] theorem State.tell_clusters (s : State) (o : Out) : (s.tell o).clusters = s.clusters := rfl
@[simp] theorem State.tell_dies (s : State) (o : Out) : (s.tell o).dies = s.dies := rfl
@[simp] theorem State.tell_hbm (s : State) (o : Out) : (s.tell o).hbm = s.hbm := rfl
@[simp] theorem State.tell_quartz (s : State) (o : Out) : (s.tell o).quartz = s.quartz := rfl
@[simp] theorem State.tell_boot (s : State) (o : Out) : (s.tell o).boot = s.boot := rfl
@[simp] theorem State.tell_ready (s : State) (o : Out) : (s.tell o).ready = s.ready := rfl
@[simp] theorem State.tell_device (s : State) (o : Out) : (s.tell o).device = s.device := rfl
@[simp] theorem State.tell_devices (s : State) (o : Out) : (s.tell o).devices = s.devices := rfl
@[simp] theorem State.tell_gateBase (s : State) (o : Out) : (s.tell o).gateBase = s.gateBase := rfl
@[simp] theorem State.tell_callBase (s : State) (o : Out) : (s.tell o).callBase = s.callBase := rfl
@[simp] theorem State.tell_launches (s : State) (o : Out) : (s.tell o).launches = s.launches := rfl
@[simp] theorem State.tell_launchCount (s : State) (o : Out) : (s.tell o).launchCount = s.launchCount := rfl
@[simp] theorem State.tell_arbiter (s : State) (o : Out) : (s.tell o).arbiter = s.arbiter := rfl
@[simp] theorem State.tell_rings (s : State) (o : Out) : (s.tell o).rings = s.rings := rfl
@[simp] theorem State.tell_ringWaits (s : State) (o : Out) : (s.tell o).ringWaits = s.ringWaits := rfl
@[simp] theorem State.tell_portRing (s : State) (o : Out) : (s.tell o).portRing = s.portRing := rfl
@[simp] theorem State.tell_portDone (s : State) (o : Out) : (s.tell o).portDone = s.portDone := rfl
@[simp] theorem State.tell_backlog (s : State) (o : Out) : (s.tell o).backlog = s.backlog := rfl
@[simp] theorem State.tell_ewCount (s : State) (o : Out) : (s.tell o).ewCount = s.ewCount := rfl
@[simp] theorem State.tell_ewTimes (s : State) (o : Out) : (s.tell o).ewTimes = s.ewTimes := rfl
@[simp] theorem State.tell_garnetA (s : State) (o : Out) : (s.tell o).garnetA = s.garnetA := rfl
@[simp] theorem State.tell_garnetB (s : State) (o : Out) : (s.tell o).garnetB = s.garnetB := rfl
@[simp] theorem State.tell_onyx (s : State) (o : Out) : (s.tell o).onyx = s.onyx := rfl
@[simp] theorem State.tell_vfs (s : State) (o : Out) : (s.tell o).vfs = s.vfs := rfl
@[simp] theorem State.tell_windows (s : State) (o : Out) : (s.tell o).windows = s.windows := rfl
@[simp] theorem State.tell_peers (s : State) (o : Out) : (s.tell o).peers = s.peers := rfl
@[simp] theorem State.tell_peerCount (s : State) (o : Out) : (s.tell o).peerCount = s.peerCount := rfl
@[simp] theorem State.tell_farReads (s : State) (o : Out) : (s.tell o).farReads = s.farReads := rfl
@[simp] theorem State.tell_farWrites (s : State) (o : Out) : (s.tell o).farWrites = s.farWrites := rfl
@[simp] theorem State.tell_farCount (s : State) (o : Out) : (s.tell o).farCount = s.farCount := rfl
@[simp] theorem State.tell_hdm (s : State) (o : Out) : (s.tell o).hdm = s.hdm := rfl
@[simp] theorem State.tell_bars (s : State) (o : Out) : (s.tell o).bars = s.bars := rfl
@[simp] theorem State.tell_collectives (s : State) (o : Out) : (s.tell o).collectives = s.collectives := rfl
@[simp] theorem State.tell_deviceToken (s : State) (o : Out) : (s.tell o).deviceToken = s.deviceToken := rfl
@[simp] theorem State.tell_standby (s : State) (o : Out) : (s.tell o).standby = s.standby := rfl
@[simp] theorem State.tell_pending (s : State) (o : Out) : (s.tell o).pending = s.pending := rfl
@[simp] theorem State.tell_agenda (s : State) (o : Out) : (s.tell o).agenda = s.agenda := rfl
@[simp] theorem State.tell_focus (s : State) (o : Out) : (s.tell o).focus = s.focus := rfl
@[simp] theorem State.tell_arg (s : State) (o : Out) : (s.tell o).arg = s.arg := rfl
@[simp] theorem State.tell_fresh (s : State) (o : Out) : (s.tell o).fresh = s.fresh := rfl
@[simp] theorem State.tell_actorCount (s : State) (o : Out) : (s.tell o).actorCount = s.actorCount := rfl
@[simp] theorem State.tell_unmaps (s : State) (o : Out) : (s.tell o).unmaps = s.unmaps := rfl
@[simp] theorem State.tell_failedPorts (s : State) (o : Out) : (s.tell o).failedPorts = s.failedPorts := rfl
@[simp] theorem State.tell_abroad (s : State) (o : Out) : (s.tell o).abroad = s.abroad := rfl
@[simp] theorem State.tell_abroadCount (s : State) (o : Out) : (s.tell o).abroadCount = s.abroadCount := rfl
@[simp] theorem State.tell_lateWrites (s : State) (o : Out) : (s.tell o).lateWrites = s.lateWrites := rfl
@[simp] theorem State.send_cores (s : State) (a b : Nat) (row : Instr) (g : Arg) : (s.send a b row g).cores = s.cores := rfl
@[simp] theorem State.send_clusters (s : State) (a b : Nat) (row : Instr) (g : Arg) : (s.send a b row g).clusters = s.clusters := rfl
@[simp] theorem State.send_dies (s : State) (a b : Nat) (row : Instr) (g : Arg) : (s.send a b row g).dies = s.dies := rfl
@[simp] theorem State.send_hbm (s : State) (a b : Nat) (row : Instr) (g : Arg) : (s.send a b row g).hbm = s.hbm := rfl
@[simp] theorem State.send_quartz (s : State) (a b : Nat) (row : Instr) (g : Arg) : (s.send a b row g).quartz = s.quartz := rfl
@[simp] theorem State.send_boot (s : State) (a b : Nat) (row : Instr) (g : Arg) : (s.send a b row g).boot = s.boot := rfl
@[simp] theorem State.send_ready (s : State) (a b : Nat) (row : Instr) (g : Arg) : (s.send a b row g).ready = s.ready := rfl
@[simp] theorem State.send_device (s : State) (a b : Nat) (row : Instr) (g : Arg) : (s.send a b row g).device = s.device := rfl
@[simp] theorem State.send_devices (s : State) (a b : Nat) (row : Instr) (g : Arg) : (s.send a b row g).devices = s.devices := rfl
@[simp] theorem State.send_gateBase (s : State) (a b : Nat) (row : Instr) (g : Arg) : (s.send a b row g).gateBase = s.gateBase := rfl
@[simp] theorem State.send_callBase (s : State) (a b : Nat) (row : Instr) (g : Arg) : (s.send a b row g).callBase = s.callBase := rfl
@[simp] theorem State.send_launches (s : State) (a b : Nat) (row : Instr) (g : Arg) : (s.send a b row g).launches = s.launches := rfl
@[simp] theorem State.send_launchCount (s : State) (a b : Nat) (row : Instr) (g : Arg) : (s.send a b row g).launchCount = s.launchCount := rfl
@[simp] theorem State.send_arbiter (s : State) (a b : Nat) (row : Instr) (g : Arg) : (s.send a b row g).arbiter = s.arbiter := rfl
@[simp] theorem State.send_rings (s : State) (a b : Nat) (row : Instr) (g : Arg) : (s.send a b row g).rings = s.rings := rfl
@[simp] theorem State.send_ringWaits (s : State) (a b : Nat) (row : Instr) (g : Arg) : (s.send a b row g).ringWaits = s.ringWaits := rfl
@[simp] theorem State.send_portRing (s : State) (a b : Nat) (row : Instr) (g : Arg) : (s.send a b row g).portRing = s.portRing := rfl
@[simp] theorem State.send_portDone (s : State) (a b : Nat) (row : Instr) (g : Arg) : (s.send a b row g).portDone = s.portDone := rfl
@[simp] theorem State.send_backlog (s : State) (a b : Nat) (row : Instr) (g : Arg) : (s.send a b row g).backlog = s.backlog := rfl
@[simp] theorem State.send_ewCount (s : State) (a b : Nat) (row : Instr) (g : Arg) : (s.send a b row g).ewCount = s.ewCount := rfl
@[simp] theorem State.send_ewTimes (s : State) (a b : Nat) (row : Instr) (g : Arg) : (s.send a b row g).ewTimes = s.ewTimes := rfl
@[simp] theorem State.send_garnetA (s : State) (a b : Nat) (row : Instr) (g : Arg) : (s.send a b row g).garnetA = s.garnetA := rfl
@[simp] theorem State.send_garnetB (s : State) (a b : Nat) (row : Instr) (g : Arg) : (s.send a b row g).garnetB = s.garnetB := rfl
@[simp] theorem State.send_onyx (s : State) (a b : Nat) (row : Instr) (g : Arg) : (s.send a b row g).onyx = s.onyx := rfl
@[simp] theorem State.send_vfs (s : State) (a b : Nat) (row : Instr) (g : Arg) : (s.send a b row g).vfs = s.vfs := rfl
@[simp] theorem State.send_windows (s : State) (a b : Nat) (row : Instr) (g : Arg) : (s.send a b row g).windows = s.windows := rfl
@[simp] theorem State.send_peers (s : State) (a b : Nat) (row : Instr) (g : Arg) : (s.send a b row g).peers = s.peers := rfl
@[simp] theorem State.send_peerCount (s : State) (a b : Nat) (row : Instr) (g : Arg) : (s.send a b row g).peerCount = s.peerCount := rfl
@[simp] theorem State.send_farReads (s : State) (a b : Nat) (row : Instr) (g : Arg) : (s.send a b row g).farReads = s.farReads := rfl
@[simp] theorem State.send_farWrites (s : State) (a b : Nat) (row : Instr) (g : Arg) : (s.send a b row g).farWrites = s.farWrites := rfl
@[simp] theorem State.send_farCount (s : State) (a b : Nat) (row : Instr) (g : Arg) : (s.send a b row g).farCount = s.farCount := rfl
@[simp] theorem State.send_hdm (s : State) (a b : Nat) (row : Instr) (g : Arg) : (s.send a b row g).hdm = s.hdm := rfl
@[simp] theorem State.send_bars (s : State) (a b : Nat) (row : Instr) (g : Arg) : (s.send a b row g).bars = s.bars := rfl
@[simp] theorem State.send_collectives (s : State) (a b : Nat) (row : Instr) (g : Arg) : (s.send a b row g).collectives = s.collectives := rfl
@[simp] theorem State.send_deviceToken (s : State) (a b : Nat) (row : Instr) (g : Arg) : (s.send a b row g).deviceToken = s.deviceToken := rfl
@[simp] theorem State.send_standby (s : State) (a b : Nat) (row : Instr) (g : Arg) : (s.send a b row g).standby = s.standby := rfl
@[simp] theorem State.send_outbox (s : State) (a b : Nat) (row : Instr) (g : Arg) : (s.send a b row g).outbox = s.outbox := rfl
@[simp] theorem State.send_agenda (s : State) (a b : Nat) (row : Instr) (g : Arg) : (s.send a b row g).agenda = s.agenda := rfl
@[simp] theorem State.send_focus (s : State) (a b : Nat) (row : Instr) (g : Arg) : (s.send a b row g).focus = s.focus := rfl
@[simp] theorem State.send_arg (s : State) (a b : Nat) (row : Instr) (g : Arg) : (s.send a b row g).arg = s.arg := rfl
@[simp] theorem State.send_fresh (s : State) (a b : Nat) (row : Instr) (g : Arg) : (s.send a b row g).fresh = s.fresh := rfl
@[simp] theorem State.send_actorCount (s : State) (a b : Nat) (row : Instr) (g : Arg) : (s.send a b row g).actorCount = s.actorCount := rfl
@[simp] theorem State.send_unmaps (s : State) (a b : Nat) (row : Instr) (g : Arg) : (s.send a b row g).unmaps = s.unmaps := rfl
@[simp] theorem State.send_failedPorts (s : State) (a b : Nat) (row : Instr) (g : Arg) : (s.send a b row g).failedPorts = s.failedPorts := rfl
@[simp] theorem State.send_abroad (s : State) (a b : Nat) (row : Instr) (g : Arg) : (s.send a b row g).abroad = s.abroad := rfl
@[simp] theorem State.send_abroadCount (s : State) (a b : Nat) (row : Instr) (g : Arg) : (s.send a b row g).abroadCount = s.abroadCount := rfl
@[simp] theorem State.send_lateWrites (s : State) (a b : Nat) (row : Instr) (g : Arg) : (s.send a b row g).lateWrites = s.lateWrites := rfl
@[simp] theorem State.ring_cores (s : State) (n : Nat) (e : BitVec 256) : (s.ring n e).cores = s.cores := rfl
@[simp] theorem State.ring_clusters (s : State) (n : Nat) (e : BitVec 256) : (s.ring n e).clusters = s.clusters := rfl
@[simp] theorem State.ring_dies (s : State) (n : Nat) (e : BitVec 256) : (s.ring n e).dies = s.dies := rfl
@[simp] theorem State.ring_hbm (s : State) (n : Nat) (e : BitVec 256) : (s.ring n e).hbm = s.hbm := rfl
@[simp] theorem State.ring_quartz (s : State) (n : Nat) (e : BitVec 256) : (s.ring n e).quartz = s.quartz := rfl
@[simp] theorem State.ring_boot (s : State) (n : Nat) (e : BitVec 256) : (s.ring n e).boot = s.boot := rfl
@[simp] theorem State.ring_ready (s : State) (n : Nat) (e : BitVec 256) : (s.ring n e).ready = s.ready := rfl
@[simp] theorem State.ring_device (s : State) (n : Nat) (e : BitVec 256) : (s.ring n e).device = s.device := rfl
@[simp] theorem State.ring_devices (s : State) (n : Nat) (e : BitVec 256) : (s.ring n e).devices = s.devices := rfl
@[simp] theorem State.ring_gateBase (s : State) (n : Nat) (e : BitVec 256) : (s.ring n e).gateBase = s.gateBase := rfl
@[simp] theorem State.ring_callBase (s : State) (n : Nat) (e : BitVec 256) : (s.ring n e).callBase = s.callBase := rfl
@[simp] theorem State.ring_launches (s : State) (n : Nat) (e : BitVec 256) : (s.ring n e).launches = s.launches := rfl
@[simp] theorem State.ring_launchCount (s : State) (n : Nat) (e : BitVec 256) : (s.ring n e).launchCount = s.launchCount := rfl
@[simp] theorem State.ring_arbiter (s : State) (n : Nat) (e : BitVec 256) : (s.ring n e).arbiter = s.arbiter := rfl
@[simp] theorem State.ring_rings (s : State) (n : Nat) (e : BitVec 256) : (s.ring n e).rings = s.rings := rfl
@[simp] theorem State.ring_portRing (s : State) (n : Nat) (e : BitVec 256) : (s.ring n e).portRing = s.portRing := rfl
@[simp] theorem State.ring_portDone (s : State) (n : Nat) (e : BitVec 256) : (s.ring n e).portDone = s.portDone := rfl
@[simp] theorem State.ring_backlog (s : State) (n : Nat) (e : BitVec 256) : (s.ring n e).backlog = s.backlog := rfl
@[simp] theorem State.ring_ewCount (s : State) (n : Nat) (e : BitVec 256) : (s.ring n e).ewCount = s.ewCount := rfl
@[simp] theorem State.ring_ewTimes (s : State) (n : Nat) (e : BitVec 256) : (s.ring n e).ewTimes = s.ewTimes := rfl
@[simp] theorem State.ring_garnetA (s : State) (n : Nat) (e : BitVec 256) : (s.ring n e).garnetA = s.garnetA := rfl
@[simp] theorem State.ring_garnetB (s : State) (n : Nat) (e : BitVec 256) : (s.ring n e).garnetB = s.garnetB := rfl
@[simp] theorem State.ring_onyx (s : State) (n : Nat) (e : BitVec 256) : (s.ring n e).onyx = s.onyx := rfl
@[simp] theorem State.ring_vfs (s : State) (n : Nat) (e : BitVec 256) : (s.ring n e).vfs = s.vfs := rfl
@[simp] theorem State.ring_windows (s : State) (n : Nat) (e : BitVec 256) : (s.ring n e).windows = s.windows := rfl
@[simp] theorem State.ring_peers (s : State) (n : Nat) (e : BitVec 256) : (s.ring n e).peers = s.peers := rfl
@[simp] theorem State.ring_peerCount (s : State) (n : Nat) (e : BitVec 256) : (s.ring n e).peerCount = s.peerCount := rfl
@[simp] theorem State.ring_farReads (s : State) (n : Nat) (e : BitVec 256) : (s.ring n e).farReads = s.farReads := rfl
@[simp] theorem State.ring_farWrites (s : State) (n : Nat) (e : BitVec 256) : (s.ring n e).farWrites = s.farWrites := rfl
@[simp] theorem State.ring_farCount (s : State) (n : Nat) (e : BitVec 256) : (s.ring n e).farCount = s.farCount := rfl
@[simp] theorem State.ring_hdm (s : State) (n : Nat) (e : BitVec 256) : (s.ring n e).hdm = s.hdm := rfl
@[simp] theorem State.ring_bars (s : State) (n : Nat) (e : BitVec 256) : (s.ring n e).bars = s.bars := rfl
@[simp] theorem State.ring_collectives (s : State) (n : Nat) (e : BitVec 256) : (s.ring n e).collectives = s.collectives := rfl
@[simp] theorem State.ring_deviceToken (s : State) (n : Nat) (e : BitVec 256) : (s.ring n e).deviceToken = s.deviceToken := rfl
@[simp] theorem State.ring_standby (s : State) (n : Nat) (e : BitVec 256) : (s.ring n e).standby = s.standby := rfl
@[simp] theorem State.ring_outbox (s : State) (n : Nat) (e : BitVec 256) : (s.ring n e).outbox = s.outbox := rfl
@[simp] theorem State.ring_pending (s : State) (n : Nat) (e : BitVec 256) : (s.ring n e).pending = s.pending := rfl
@[simp] theorem State.ring_agenda (s : State) (n : Nat) (e : BitVec 256) : (s.ring n e).agenda = s.agenda := rfl
@[simp] theorem State.ring_focus (s : State) (n : Nat) (e : BitVec 256) : (s.ring n e).focus = s.focus := rfl
@[simp] theorem State.ring_arg (s : State) (n : Nat) (e : BitVec 256) : (s.ring n e).arg = s.arg := rfl
@[simp] theorem State.ring_fresh (s : State) (n : Nat) (e : BitVec 256) : (s.ring n e).fresh = s.fresh := rfl
@[simp] theorem State.ring_actorCount (s : State) (n : Nat) (e : BitVec 256) : (s.ring n e).actorCount = s.actorCount := rfl
@[simp] theorem State.ring_unmaps (s : State) (n : Nat) (e : BitVec 256) : (s.ring n e).unmaps = s.unmaps := rfl
@[simp] theorem State.ring_failedPorts (s : State) (n : Nat) (e : BitVec 256) : (s.ring n e).failedPorts = s.failedPorts := rfl
@[simp] theorem State.ring_abroad (s : State) (n : Nat) (e : BitVec 256) : (s.ring n e).abroad = s.abroad := rfl
@[simp] theorem State.ring_abroadCount (s : State) (n : Nat) (e : BitVec 256) : (s.ring n e).abroadCount = s.abroadCount := rfl
@[simp] theorem State.ring_lateWrites (s : State) (n : Nat) (e : BitVec 256) : (s.ring n e).lateWrites = s.lateWrites := rfl

/-! ### A core's context -/

@[simp] theorem Core.mapCtx_cur (k : Core) (x : CtxId) (f : Ctx → Ctx) : (k.mapCtx x f).cur = k.cur := rfl
@[simp] theorem Core.mapCtx_lclk (k : Core) (x : CtxId) (f : Ctx → Ctx) : (k.mapCtx x f).lclk = k.lclk := rfl
@[simp] theorem Core.mapCtx_cycle (k : Core) (x : CtxId) (f : Ctx → Ctx) : (k.mapCtx x f).cycle = k.cycle := rfl
@[simp] theorem Core.mapCtx_tick (k : Core) (x : CtxId) (f : Ctx → Ctx) : (k.mapCtx x f).tick = k.tick := rfl
@[simp] theorem Core.mapCtx_spad (k : Core) (x : CtxId) (f : Ctx → Ctx) : (k.mapCtx x f).spad = k.spad := rfl
@[simp] theorem Core.mapCtx_opnd (k : Core) (x : CtxId) (f : Ctx → Ctx) : (k.mapCtx x f).opnd = k.opnd := rfl
@[simp] theorem Core.mapCtx_claims (k : Core) (x : CtxId) (f : Ctx → Ctx) : (k.mapCtx x f).claims = k.claims := rfl
@[simp] theorem Core.mapCtx_slots (k : Core) (x : CtxId) (f : Ctx → Ctx) : (k.mapCtx x f).slots = k.slots := rfl
@[simp] theorem Core.mapCtx_storeUsed (k : Core) (x : CtxId) (f : Ctx → Ctx) : (k.mapCtx x f).storeUsed = k.storeUsed := rfl
@[simp] theorem Core.mapCtx_acceptCount (k : Core) (x : CtxId) (f : Ctx → Ctx) : (k.mapCtx x f).acceptCount = k.acceptCount := rfl
@[simp] theorem Core.mapCtx_guard (k : Core) (x : CtxId) (f : Ctx → Ctx) : (k.mapCtx x f).guard = k.guard := rfl
@[simp] theorem Core.mapCtx_budgets (k : Core) (x : CtxId) (f : Ctx → Ctx) : (k.mapCtx x f).budgets = k.budgets := rfl
@[simp] theorem Core.mapCtx_sends (k : Core) (x : CtxId) (f : Ctx → Ctx) : (k.mapCtx x f).sends = k.sends := rfl
@[simp] theorem Core.mapCtx_l1 (k : Core) (x : CtxId) (f : Ctx → Ctx) : (k.mapCtx x f).l1 = k.l1 := rfl
@[simp] theorem Core.mapCtx_icache (k : Core) (x : CtxId) (f : Ctx → Ctx) : (k.mapCtx x f).icache = k.icache := rfl
@[simp] theorem Core.mapCtx_utlb (k : Core) (x : CtxId) (f : Ctx → Ctx) : (k.mapCtx x f).utlb = k.utlb := rfl
@[simp] theorem Core.mapCtx_posted (k : Core) (x : CtxId) (f : Ctx → Ctx) : (k.mapCtx x f).posted = k.posted := rfl
@[simp] theorem Core.mapCtx_postedCount (k : Core) (x : CtxId) (f : Ctx → Ctx) : (k.mapCtx x f).postedCount = k.postedCount := rfl
@[simp] theorem Core.mapCtx_copies (k : Core) (x : CtxId) (f : Ctx → Ctx) : (k.mapCtx x f).copies = k.copies := rfl
@[simp] theorem Core.mapCtx_fifo (k : Core) (x : CtxId) (f : Ctx → Ctx) : (k.mapCtx x f).fifo = k.fifo := rfl
@[simp] theorem Core.mapCtx_copyCount (k : Core) (x : CtxId) (f : Ctx → Ctx) : (k.mapCtx x f).copyCount = k.copyCount := rfl
@[simp] theorem Core.mapCtx_failedCopies (k : Core) (x : CtxId) (f : Ctx → Ctx) : (k.mapCtx x f).failedCopies = k.failedCopies := rfl
@[simp] theorem Core.mapCtx_matrix (k : Core) (x : CtxId) (f : Ctx → Ctx) : (k.mapCtx x f).matrix = k.matrix := rfl
@[simp] theorem Core.mapCtx_timelost (k : Core) (x : CtxId) (f : Ctx → Ctx) : (k.mapCtx x f).timelost = k.timelost := rfl
@[simp] theorem Core.mapCtx_stopped (k : Core) (x : CtxId) (f : Ctx → Ctx) : (k.mapCtx x f).stopped = k.stopped := rfl
@[simp] theorem Core.mapCtx_faultQueue (k : Core) (x : CtxId) (f : Ctx → Ctx) : (k.mapCtx x f).faultQueue = k.faultQueue := rfl
@[simp] theorem Core.mapCtx_phase (k : Core) (x : CtxId) (f : Ctx → Ctx) : (k.mapCtx x f).phase = k.phase := rfl
@[simp] theorem Core.mapCtx_spadErrs (k : Core) (x : CtxId) (f : Ctx → Ctx) : (k.mapCtx x f).spadErrs = k.spadErrs := rfl
@[simp] theorem Core.mapCtx_restartBy (k : Core) (x : CtxId) (f : Ctx → Ctx) : (k.mapCtx x f).restartBy = k.restartBy := rfl

/-! ### Registers, queues, flags of a context -/

@[simp] theorem Ctx.setVreg_act (x : Ctx) (n : Fin 32) (v : VecWord) : (x.setVreg n v).act = x.act := rfl
@[simp] theorem Ctx.setVreg_regs (x : Ctx) (n : Fin 32) (v : VecWord) : (x.setVreg n v).regs = x.regs := rfl
@[simp] theorem Ctx.setVreg_kregs (x : Ctx) (n : Fin 32) (v : VecWord) : (x.setVreg n v).kregs = x.kregs := rfl
@[simp] theorem Ctx.setVreg_queues (x : Ctx) (n : Fin 32) (v : VecWord) : (x.setVreg n v).queues = x.queues := rfl
@[simp] theorem Ctx.setVreg_pc (x : Ctx) (n : Fin 32) (v : VecWord) : (x.setVreg n v).pc = x.pc := rfl
@[simp] theorem Ctx.setVreg_slot (x : Ctx) (n : Fin 32) (v : VecWord) : (x.setVreg n v).slot = x.slot := rfl
@[simp] theorem Ctx.setVreg_skip (x : Ctx) (n : Fin 32) (v : VecWord) : (x.setVreg n v).skip = x.skip := rfl
@[simp] theorem Ctx.setVreg_loops (x : Ctx) (n : Fin 32) (v : VecWord) : (x.setVreg n v).loops = x.loops := rfl
@[simp] theorem Ctx.setVreg_tloops (x : Ctx) (n : Fin 32) (v : VecWord) : (x.setVreg n v).tloops = x.tloops := rfl
@[simp] theorem Ctx.setVreg_tvec (x : Ctx) (n : Fin 32) (v : VecWord) : (x.setVreg n v).tvec = x.tvec := rfl
@[simp] theorem Ctx.setVreg_tpc (x : Ctx) (n : Fin 32) (v : VecWord) : (x.setVreg n v).tpc = x.tpc := rfl
@[simp] theorem Ctx.setVreg_tcause (x : Ctx) (n : Fin 32) (v : VecWord) : (x.setVreg n v).tcause = x.tcause := rfl
@[simp] theorem Ctx.setVreg_tval (x : Ctx) (n : Fin 32) (v : VecWord) : (x.setVreg n v).tval = x.tval := rfl
@[simp] theorem Ctx.setVreg_tslot (x : Ctx) (n : Fin 32) (v : VecWord) : (x.setVreg n v).tslot = x.tslot := rfl
@[simp] theorem Ctx.setVreg_fflags (x : Ctx) (n : Fin 32) (v : VecWord) : (x.setVreg n v).fflags = x.fflags := rfl
@[simp] theorem Ctx.setVreg_lease (x : Ctx) (n : Fin 32) (v : VecWord) : (x.setVreg n v).lease = x.lease := rfl
@[simp] theorem Ctx.setVreg_self (x : Ctx) (n : Fin 32) (v : VecWord) : (x.setVreg n v).self = x.self := rfl
@[simp] theorem Ctx.setVreg_domain (x : Ctx) (n : Fin 32) (v : VecWord) : (x.setVreg n v).domain = x.domain := rfl
@[simp] theorem Ctx.setVreg_origin (x : Ctx) (n : Fin 32) (v : VecWord) : (x.setVreg n v).origin = x.origin := rfl
@[simp] theorem Ctx.setVreg_msghdr (x : Ctx) (n : Fin 32) (v : VecWord) : (x.setVreg n v).msghdr = x.msghdr := rfl
@[simp] theorem Ctx.setVreg_frame (x : Ctx) (n : Fin 32) (v : VecWord) : (x.setVreg n v).frame = x.frame := rfl
@[simp] theorem Ctx.setVreg_clkgs (x : Ctx) (n : Fin 32) (v : VecWord) : (x.setVreg n v).clkgs = x.clkgs := rfl
@[simp] theorem Ctx.setVreg_clkseq (x : Ctx) (n : Fin 32) (v : VecWord) : (x.setVreg n v).clkseq = x.clkseq := rfl
@[simp] theorem Ctx.setVreg_stack (x : Ctx) (n : Fin 32) (v : VecWord) : (x.setVreg n v).stack = x.stack := rfl
@[simp] theorem Ctx.setVreg_vq (x : Ctx) (n : Fin 32) (v : VecWord) : (x.setVreg n v).vq = x.vq := rfl
@[simp] theorem Ctx.setVreg_wait (x : Ctx) (n : Fin 32) (v : VecWord) : (x.setVreg n v).wait = x.wait := rfl
@[simp] theorem Ctx.setVreg_blocked (x : Ctx) (n : Fin 32) (v : VecWord) : (x.setVreg n v).blocked = x.blocked := rfl
@[simp] theorem Ctx.setVreg_issued (x : Ctx) (n : Fin 32) (v : VecWord) : (x.setVreg n v).issued = x.issued := rfl
@[simp] theorem Ctx.setVreg_op (x : Ctx) (n : Fin 32) (v : VecWord) : (x.setVreg n v).op = x.op := rfl
@[simp] theorem Ctx.setVreg_batches (x : Ctx) (n : Fin 32) (v : VecWord) : (x.setVreg n v).batches = x.batches := rfl
@[simp] theorem Ctx.setVreg_deadline (x : Ctx) (n : Fin 32) (v : VecWord) : (x.setVreg n v).deadline = x.deadline := rfl
@[simp] theorem Ctx.setVreg_watch (x : Ctx) (n : Fin 32) (v : VecWord) : (x.setVreg n v).watch = x.watch := rfl
@[simp] theorem Ctx.setVreg_stops (x : Ctx) (n : Fin 32) (v : VecWord) : (x.setVreg n v).stops = x.stops := rfl
@[simp] theorem Ctx.setVreg_sendrec (x : Ctx) (n : Fin 32) (v : VecWord) : (x.setVreg n v).sendrec = x.sendrec := rfl
@[simp] theorem Ctx.setVreg_markers (x : Ctx) (n : Fin 32) (v : VecWord) : (x.setVreg n v).markers = x.markers := rfl
@[simp] theorem Ctx.setVreg_markerTime (x : Ctx) (n : Fin 32) (v : VecWord) : (x.setVreg n v).markerTime = x.markerTime := rfl
@[simp] theorem Ctx.setVreg_chunk (x : Ctx) (n : Fin 32) (v : VecWord) : (x.setVreg n v).chunk = x.chunk := rfl
@[simp] theorem Ctx.setVreg_acqSys (x : Ctx) (n : Fin 32) (v : VecWord) : (x.setVreg n v).acqSys = x.acqSys := rfl
@[simp] theorem Ctx.setVreg_graceEnd (x : Ctx) (n : Fin 32) (v : VecWord) : (x.setVreg n v).graceEnd = x.graceEnd := rfl
@[simp] theorem Ctx.setVreg_redo (x : Ctx) (n : Fin 32) (v : VecWord) : (x.setVreg n v).redo = x.redo := rfl
@[simp] theorem Ctx.setVreg_fenceTime (x : Ctx) (n : Fin 32) (v : VecWord) : (x.setVreg n v).fenceTime = x.fenceTime := rfl
@[simp] theorem Ctx.setQueue_act (x : Ctx) (n : Fin 8) (q : List Word) : (x.setQueue n q).act = x.act := rfl
@[simp] theorem Ctx.setQueue_regs (x : Ctx) (n : Fin 8) (q : List Word) : (x.setQueue n q).regs = x.regs := rfl
@[simp] theorem Ctx.setQueue_vregs (x : Ctx) (n : Fin 8) (q : List Word) : (x.setQueue n q).vregs = x.vregs := rfl
@[simp] theorem Ctx.setQueue_kregs (x : Ctx) (n : Fin 8) (q : List Word) : (x.setQueue n q).kregs = x.kregs := rfl
@[simp] theorem Ctx.setQueue_pc (x : Ctx) (n : Fin 8) (q : List Word) : (x.setQueue n q).pc = x.pc := rfl
@[simp] theorem Ctx.setQueue_slot (x : Ctx) (n : Fin 8) (q : List Word) : (x.setQueue n q).slot = x.slot := rfl
@[simp] theorem Ctx.setQueue_skip (x : Ctx) (n : Fin 8) (q : List Word) : (x.setQueue n q).skip = x.skip := rfl
@[simp] theorem Ctx.setQueue_loops (x : Ctx) (n : Fin 8) (q : List Word) : (x.setQueue n q).loops = x.loops := rfl
@[simp] theorem Ctx.setQueue_tloops (x : Ctx) (n : Fin 8) (q : List Word) : (x.setQueue n q).tloops = x.tloops := rfl
@[simp] theorem Ctx.setQueue_tvec (x : Ctx) (n : Fin 8) (q : List Word) : (x.setQueue n q).tvec = x.tvec := rfl
@[simp] theorem Ctx.setQueue_tpc (x : Ctx) (n : Fin 8) (q : List Word) : (x.setQueue n q).tpc = x.tpc := rfl
@[simp] theorem Ctx.setQueue_tcause (x : Ctx) (n : Fin 8) (q : List Word) : (x.setQueue n q).tcause = x.tcause := rfl
@[simp] theorem Ctx.setQueue_tval (x : Ctx) (n : Fin 8) (q : List Word) : (x.setQueue n q).tval = x.tval := rfl
@[simp] theorem Ctx.setQueue_tslot (x : Ctx) (n : Fin 8) (q : List Word) : (x.setQueue n q).tslot = x.tslot := rfl
@[simp] theorem Ctx.setQueue_fflags (x : Ctx) (n : Fin 8) (q : List Word) : (x.setQueue n q).fflags = x.fflags := rfl
@[simp] theorem Ctx.setQueue_lease (x : Ctx) (n : Fin 8) (q : List Word) : (x.setQueue n q).lease = x.lease := rfl
@[simp] theorem Ctx.setQueue_self (x : Ctx) (n : Fin 8) (q : List Word) : (x.setQueue n q).self = x.self := rfl
@[simp] theorem Ctx.setQueue_domain (x : Ctx) (n : Fin 8) (q : List Word) : (x.setQueue n q).domain = x.domain := rfl
@[simp] theorem Ctx.setQueue_origin (x : Ctx) (n : Fin 8) (q : List Word) : (x.setQueue n q).origin = x.origin := rfl
@[simp] theorem Ctx.setQueue_msghdr (x : Ctx) (n : Fin 8) (q : List Word) : (x.setQueue n q).msghdr = x.msghdr := rfl
@[simp] theorem Ctx.setQueue_frame (x : Ctx) (n : Fin 8) (q : List Word) : (x.setQueue n q).frame = x.frame := rfl
@[simp] theorem Ctx.setQueue_clkgs (x : Ctx) (n : Fin 8) (q : List Word) : (x.setQueue n q).clkgs = x.clkgs := rfl
@[simp] theorem Ctx.setQueue_clkseq (x : Ctx) (n : Fin 8) (q : List Word) : (x.setQueue n q).clkseq = x.clkseq := rfl
@[simp] theorem Ctx.setQueue_stack (x : Ctx) (n : Fin 8) (q : List Word) : (x.setQueue n q).stack = x.stack := rfl
@[simp] theorem Ctx.setQueue_vq (x : Ctx) (n : Fin 8) (q : List Word) : (x.setQueue n q).vq = x.vq := rfl
@[simp] theorem Ctx.setQueue_wait (x : Ctx) (n : Fin 8) (q : List Word) : (x.setQueue n q).wait = x.wait := rfl
@[simp] theorem Ctx.setQueue_blocked (x : Ctx) (n : Fin 8) (q : List Word) : (x.setQueue n q).blocked = x.blocked := rfl
@[simp] theorem Ctx.setQueue_issued (x : Ctx) (n : Fin 8) (q : List Word) : (x.setQueue n q).issued = x.issued := rfl
@[simp] theorem Ctx.setQueue_op (x : Ctx) (n : Fin 8) (q : List Word) : (x.setQueue n q).op = x.op := rfl
@[simp] theorem Ctx.setQueue_batches (x : Ctx) (n : Fin 8) (q : List Word) : (x.setQueue n q).batches = x.batches := rfl
@[simp] theorem Ctx.setQueue_deadline (x : Ctx) (n : Fin 8) (q : List Word) : (x.setQueue n q).deadline = x.deadline := rfl
@[simp] theorem Ctx.setQueue_watch (x : Ctx) (n : Fin 8) (q : List Word) : (x.setQueue n q).watch = x.watch := rfl
@[simp] theorem Ctx.setQueue_stops (x : Ctx) (n : Fin 8) (q : List Word) : (x.setQueue n q).stops = x.stops := rfl
@[simp] theorem Ctx.setQueue_sendrec (x : Ctx) (n : Fin 8) (q : List Word) : (x.setQueue n q).sendrec = x.sendrec := rfl
@[simp] theorem Ctx.setQueue_markers (x : Ctx) (n : Fin 8) (q : List Word) : (x.setQueue n q).markers = x.markers := rfl
@[simp] theorem Ctx.setQueue_markerTime (x : Ctx) (n : Fin 8) (q : List Word) : (x.setQueue n q).markerTime = x.markerTime := rfl
@[simp] theorem Ctx.setQueue_chunk (x : Ctx) (n : Fin 8) (q : List Word) : (x.setQueue n q).chunk = x.chunk := rfl
@[simp] theorem Ctx.setQueue_acqSys (x : Ctx) (n : Fin 8) (q : List Word) : (x.setQueue n q).acqSys = x.acqSys := rfl
@[simp] theorem Ctx.setQueue_graceEnd (x : Ctx) (n : Fin 8) (q : List Word) : (x.setQueue n q).graceEnd = x.graceEnd := rfl
@[simp] theorem Ctx.setQueue_redo (x : Ctx) (n : Fin 8) (q : List Word) : (x.setQueue n q).redo = x.redo := rfl
@[simp] theorem Ctx.setQueue_fenceTime (x : Ctx) (n : Fin 8) (q : List Word) : (x.setQueue n q).fenceTime = x.fenceTime := rfl
@[simp] theorem Ctx.push_act (x : Ctx) (n : Fin 8) (v : Word) : (x.push n v).act = x.act := rfl
@[simp] theorem Ctx.push_regs (x : Ctx) (n : Fin 8) (v : Word) : (x.push n v).regs = x.regs := rfl
@[simp] theorem Ctx.push_vregs (x : Ctx) (n : Fin 8) (v : Word) : (x.push n v).vregs = x.vregs := rfl
@[simp] theorem Ctx.push_kregs (x : Ctx) (n : Fin 8) (v : Word) : (x.push n v).kregs = x.kregs := rfl
@[simp] theorem Ctx.push_pc (x : Ctx) (n : Fin 8) (v : Word) : (x.push n v).pc = x.pc := rfl
@[simp] theorem Ctx.push_slot (x : Ctx) (n : Fin 8) (v : Word) : (x.push n v).slot = x.slot := rfl
@[simp] theorem Ctx.push_skip (x : Ctx) (n : Fin 8) (v : Word) : (x.push n v).skip = x.skip := rfl
@[simp] theorem Ctx.push_loops (x : Ctx) (n : Fin 8) (v : Word) : (x.push n v).loops = x.loops := rfl
@[simp] theorem Ctx.push_tloops (x : Ctx) (n : Fin 8) (v : Word) : (x.push n v).tloops = x.tloops := rfl
@[simp] theorem Ctx.push_tvec (x : Ctx) (n : Fin 8) (v : Word) : (x.push n v).tvec = x.tvec := rfl
@[simp] theorem Ctx.push_tpc (x : Ctx) (n : Fin 8) (v : Word) : (x.push n v).tpc = x.tpc := rfl
@[simp] theorem Ctx.push_tcause (x : Ctx) (n : Fin 8) (v : Word) : (x.push n v).tcause = x.tcause := rfl
@[simp] theorem Ctx.push_tval (x : Ctx) (n : Fin 8) (v : Word) : (x.push n v).tval = x.tval := rfl
@[simp] theorem Ctx.push_tslot (x : Ctx) (n : Fin 8) (v : Word) : (x.push n v).tslot = x.tslot := rfl
@[simp] theorem Ctx.push_fflags (x : Ctx) (n : Fin 8) (v : Word) : (x.push n v).fflags = x.fflags := rfl
@[simp] theorem Ctx.push_lease (x : Ctx) (n : Fin 8) (v : Word) : (x.push n v).lease = x.lease := rfl
@[simp] theorem Ctx.push_self (x : Ctx) (n : Fin 8) (v : Word) : (x.push n v).self = x.self := rfl
@[simp] theorem Ctx.push_domain (x : Ctx) (n : Fin 8) (v : Word) : (x.push n v).domain = x.domain := rfl
@[simp] theorem Ctx.push_origin (x : Ctx) (n : Fin 8) (v : Word) : (x.push n v).origin = x.origin := rfl
@[simp] theorem Ctx.push_msghdr (x : Ctx) (n : Fin 8) (v : Word) : (x.push n v).msghdr = x.msghdr := rfl
@[simp] theorem Ctx.push_frame (x : Ctx) (n : Fin 8) (v : Word) : (x.push n v).frame = x.frame := rfl
@[simp] theorem Ctx.push_clkgs (x : Ctx) (n : Fin 8) (v : Word) : (x.push n v).clkgs = x.clkgs := rfl
@[simp] theorem Ctx.push_clkseq (x : Ctx) (n : Fin 8) (v : Word) : (x.push n v).clkseq = x.clkseq := rfl
@[simp] theorem Ctx.push_stack (x : Ctx) (n : Fin 8) (v : Word) : (x.push n v).stack = x.stack := rfl
@[simp] theorem Ctx.push_vq (x : Ctx) (n : Fin 8) (v : Word) : (x.push n v).vq = x.vq := rfl
@[simp] theorem Ctx.push_wait (x : Ctx) (n : Fin 8) (v : Word) : (x.push n v).wait = x.wait := rfl
@[simp] theorem Ctx.push_blocked (x : Ctx) (n : Fin 8) (v : Word) : (x.push n v).blocked = x.blocked := rfl
@[simp] theorem Ctx.push_issued (x : Ctx) (n : Fin 8) (v : Word) : (x.push n v).issued = x.issued := rfl
@[simp] theorem Ctx.push_op (x : Ctx) (n : Fin 8) (v : Word) : (x.push n v).op = x.op := rfl
@[simp] theorem Ctx.push_batches (x : Ctx) (n : Fin 8) (v : Word) : (x.push n v).batches = x.batches := rfl
@[simp] theorem Ctx.push_deadline (x : Ctx) (n : Fin 8) (v : Word) : (x.push n v).deadline = x.deadline := rfl
@[simp] theorem Ctx.push_watch (x : Ctx) (n : Fin 8) (v : Word) : (x.push n v).watch = x.watch := rfl
@[simp] theorem Ctx.push_stops (x : Ctx) (n : Fin 8) (v : Word) : (x.push n v).stops = x.stops := rfl
@[simp] theorem Ctx.push_sendrec (x : Ctx) (n : Fin 8) (v : Word) : (x.push n v).sendrec = x.sendrec := rfl
@[simp] theorem Ctx.push_markers (x : Ctx) (n : Fin 8) (v : Word) : (x.push n v).markers = x.markers := rfl
@[simp] theorem Ctx.push_markerTime (x : Ctx) (n : Fin 8) (v : Word) : (x.push n v).markerTime = x.markerTime := rfl
@[simp] theorem Ctx.push_chunk (x : Ctx) (n : Fin 8) (v : Word) : (x.push n v).chunk = x.chunk := rfl
@[simp] theorem Ctx.push_acqSys (x : Ctx) (n : Fin 8) (v : Word) : (x.push n v).acqSys = x.acqSys := rfl
@[simp] theorem Ctx.push_graceEnd (x : Ctx) (n : Fin 8) (v : Word) : (x.push n v).graceEnd = x.graceEnd := rfl
@[simp] theorem Ctx.push_redo (x : Ctx) (n : Fin 8) (v : Word) : (x.push n v).redo = x.redo := rfl
@[simp] theorem Ctx.push_fenceTime (x : Ctx) (n : Fin 8) (v : Word) : (x.push n v).fenceTime = x.fenceTime := rfl
@[simp] theorem Ctx.raise_act (x : Ctx) (f : BitVec 5) : (x.raise f).act = x.act := rfl
@[simp] theorem Ctx.raise_regs (x : Ctx) (f : BitVec 5) : (x.raise f).regs = x.regs := rfl
@[simp] theorem Ctx.raise_vregs (x : Ctx) (f : BitVec 5) : (x.raise f).vregs = x.vregs := rfl
@[simp] theorem Ctx.raise_kregs (x : Ctx) (f : BitVec 5) : (x.raise f).kregs = x.kregs := rfl
@[simp] theorem Ctx.raise_queues (x : Ctx) (f : BitVec 5) : (x.raise f).queues = x.queues := rfl
@[simp] theorem Ctx.raise_pc (x : Ctx) (f : BitVec 5) : (x.raise f).pc = x.pc := rfl
@[simp] theorem Ctx.raise_slot (x : Ctx) (f : BitVec 5) : (x.raise f).slot = x.slot := rfl
@[simp] theorem Ctx.raise_skip (x : Ctx) (f : BitVec 5) : (x.raise f).skip = x.skip := rfl
@[simp] theorem Ctx.raise_loops (x : Ctx) (f : BitVec 5) : (x.raise f).loops = x.loops := rfl
@[simp] theorem Ctx.raise_tloops (x : Ctx) (f : BitVec 5) : (x.raise f).tloops = x.tloops := rfl
@[simp] theorem Ctx.raise_tvec (x : Ctx) (f : BitVec 5) : (x.raise f).tvec = x.tvec := rfl
@[simp] theorem Ctx.raise_tpc (x : Ctx) (f : BitVec 5) : (x.raise f).tpc = x.tpc := rfl
@[simp] theorem Ctx.raise_tcause (x : Ctx) (f : BitVec 5) : (x.raise f).tcause = x.tcause := rfl
@[simp] theorem Ctx.raise_tval (x : Ctx) (f : BitVec 5) : (x.raise f).tval = x.tval := rfl
@[simp] theorem Ctx.raise_tslot (x : Ctx) (f : BitVec 5) : (x.raise f).tslot = x.tslot := rfl
@[simp] theorem Ctx.raise_lease (x : Ctx) (f : BitVec 5) : (x.raise f).lease = x.lease := rfl
@[simp] theorem Ctx.raise_self (x : Ctx) (f : BitVec 5) : (x.raise f).self = x.self := rfl
@[simp] theorem Ctx.raise_domain (x : Ctx) (f : BitVec 5) : (x.raise f).domain = x.domain := rfl
@[simp] theorem Ctx.raise_origin (x : Ctx) (f : BitVec 5) : (x.raise f).origin = x.origin := rfl
@[simp] theorem Ctx.raise_msghdr (x : Ctx) (f : BitVec 5) : (x.raise f).msghdr = x.msghdr := rfl
@[simp] theorem Ctx.raise_frame (x : Ctx) (f : BitVec 5) : (x.raise f).frame = x.frame := rfl
@[simp] theorem Ctx.raise_clkgs (x : Ctx) (f : BitVec 5) : (x.raise f).clkgs = x.clkgs := rfl
@[simp] theorem Ctx.raise_clkseq (x : Ctx) (f : BitVec 5) : (x.raise f).clkseq = x.clkseq := rfl
@[simp] theorem Ctx.raise_stack (x : Ctx) (f : BitVec 5) : (x.raise f).stack = x.stack := rfl
@[simp] theorem Ctx.raise_vq (x : Ctx) (f : BitVec 5) : (x.raise f).vq = x.vq := rfl
@[simp] theorem Ctx.raise_wait (x : Ctx) (f : BitVec 5) : (x.raise f).wait = x.wait := rfl
@[simp] theorem Ctx.raise_blocked (x : Ctx) (f : BitVec 5) : (x.raise f).blocked = x.blocked := rfl
@[simp] theorem Ctx.raise_issued (x : Ctx) (f : BitVec 5) : (x.raise f).issued = x.issued := rfl
@[simp] theorem Ctx.raise_op (x : Ctx) (f : BitVec 5) : (x.raise f).op = x.op := rfl
@[simp] theorem Ctx.raise_batches (x : Ctx) (f : BitVec 5) : (x.raise f).batches = x.batches := rfl
@[simp] theorem Ctx.raise_deadline (x : Ctx) (f : BitVec 5) : (x.raise f).deadline = x.deadline := rfl
@[simp] theorem Ctx.raise_watch (x : Ctx) (f : BitVec 5) : (x.raise f).watch = x.watch := rfl
@[simp] theorem Ctx.raise_stops (x : Ctx) (f : BitVec 5) : (x.raise f).stops = x.stops := rfl
@[simp] theorem Ctx.raise_sendrec (x : Ctx) (f : BitVec 5) : (x.raise f).sendrec = x.sendrec := rfl
@[simp] theorem Ctx.raise_markers (x : Ctx) (f : BitVec 5) : (x.raise f).markers = x.markers := rfl
@[simp] theorem Ctx.raise_markerTime (x : Ctx) (f : BitVec 5) : (x.raise f).markerTime = x.markerTime := rfl
@[simp] theorem Ctx.raise_chunk (x : Ctx) (f : BitVec 5) : (x.raise f).chunk = x.chunk := rfl
@[simp] theorem Ctx.raise_acqSys (x : Ctx) (f : BitVec 5) : (x.raise f).acqSys = x.acqSys := rfl
@[simp] theorem Ctx.raise_graceEnd (x : Ctx) (f : BitVec 5) : (x.raise f).graceEnd = x.graceEnd := rfl
@[simp] theorem Ctx.raise_redo (x : Ctx) (f : BitVec 5) : (x.raise f).redo = x.redo := rfl
@[simp] theorem Ctx.raise_fenceTime (x : Ctx) (f : BitVec 5) : (x.raise f).fenceTime = x.fenceTime := rfl
@[simp] theorem Ctx.enqueue_act (x : Ctx) (e : VEntry) : (x.enqueue e).act = x.act := rfl
@[simp] theorem Ctx.enqueue_regs (x : Ctx) (e : VEntry) : (x.enqueue e).regs = x.regs := rfl
@[simp] theorem Ctx.enqueue_vregs (x : Ctx) (e : VEntry) : (x.enqueue e).vregs = x.vregs := rfl
@[simp] theorem Ctx.enqueue_kregs (x : Ctx) (e : VEntry) : (x.enqueue e).kregs = x.kregs := rfl
@[simp] theorem Ctx.enqueue_queues (x : Ctx) (e : VEntry) : (x.enqueue e).queues = x.queues := rfl
@[simp] theorem Ctx.enqueue_pc (x : Ctx) (e : VEntry) : (x.enqueue e).pc = x.pc := rfl
@[simp] theorem Ctx.enqueue_slot (x : Ctx) (e : VEntry) : (x.enqueue e).slot = x.slot := rfl
@[simp] theorem Ctx.enqueue_skip (x : Ctx) (e : VEntry) : (x.enqueue e).skip = x.skip := rfl
@[simp] theorem Ctx.enqueue_loops (x : Ctx) (e : VEntry) : (x.enqueue e).loops = x.loops := rfl
@[simp] theorem Ctx.enqueue_tloops (x : Ctx) (e : VEntry) : (x.enqueue e).tloops = x.tloops := rfl
@[simp] theorem Ctx.enqueue_tvec (x : Ctx) (e : VEntry) : (x.enqueue e).tvec = x.tvec := rfl
@[simp] theorem Ctx.enqueue_tpc (x : Ctx) (e : VEntry) : (x.enqueue e).tpc = x.tpc := rfl
@[simp] theorem Ctx.enqueue_tcause (x : Ctx) (e : VEntry) : (x.enqueue e).tcause = x.tcause := rfl
@[simp] theorem Ctx.enqueue_tval (x : Ctx) (e : VEntry) : (x.enqueue e).tval = x.tval := rfl
@[simp] theorem Ctx.enqueue_tslot (x : Ctx) (e : VEntry) : (x.enqueue e).tslot = x.tslot := rfl
@[simp] theorem Ctx.enqueue_fflags (x : Ctx) (e : VEntry) : (x.enqueue e).fflags = x.fflags := rfl
@[simp] theorem Ctx.enqueue_lease (x : Ctx) (e : VEntry) : (x.enqueue e).lease = x.lease := rfl
@[simp] theorem Ctx.enqueue_self (x : Ctx) (e : VEntry) : (x.enqueue e).self = x.self := rfl
@[simp] theorem Ctx.enqueue_domain (x : Ctx) (e : VEntry) : (x.enqueue e).domain = x.domain := rfl
@[simp] theorem Ctx.enqueue_origin (x : Ctx) (e : VEntry) : (x.enqueue e).origin = x.origin := rfl
@[simp] theorem Ctx.enqueue_msghdr (x : Ctx) (e : VEntry) : (x.enqueue e).msghdr = x.msghdr := rfl
@[simp] theorem Ctx.enqueue_frame (x : Ctx) (e : VEntry) : (x.enqueue e).frame = x.frame := rfl
@[simp] theorem Ctx.enqueue_clkgs (x : Ctx) (e : VEntry) : (x.enqueue e).clkgs = x.clkgs := rfl
@[simp] theorem Ctx.enqueue_clkseq (x : Ctx) (e : VEntry) : (x.enqueue e).clkseq = x.clkseq := rfl
@[simp] theorem Ctx.enqueue_stack (x : Ctx) (e : VEntry) : (x.enqueue e).stack = x.stack := rfl
@[simp] theorem Ctx.enqueue_wait (x : Ctx) (e : VEntry) : (x.enqueue e).wait = x.wait := rfl
@[simp] theorem Ctx.enqueue_blocked (x : Ctx) (e : VEntry) : (x.enqueue e).blocked = x.blocked := rfl
@[simp] theorem Ctx.enqueue_issued (x : Ctx) (e : VEntry) : (x.enqueue e).issued = x.issued := rfl
@[simp] theorem Ctx.enqueue_op (x : Ctx) (e : VEntry) : (x.enqueue e).op = x.op := rfl
@[simp] theorem Ctx.enqueue_batches (x : Ctx) (e : VEntry) : (x.enqueue e).batches = x.batches := rfl
@[simp] theorem Ctx.enqueue_deadline (x : Ctx) (e : VEntry) : (x.enqueue e).deadline = x.deadline := rfl
@[simp] theorem Ctx.enqueue_watch (x : Ctx) (e : VEntry) : (x.enqueue e).watch = x.watch := rfl
@[simp] theorem Ctx.enqueue_stops (x : Ctx) (e : VEntry) : (x.enqueue e).stops = x.stops := rfl
@[simp] theorem Ctx.enqueue_sendrec (x : Ctx) (e : VEntry) : (x.enqueue e).sendrec = x.sendrec := rfl
@[simp] theorem Ctx.enqueue_markers (x : Ctx) (e : VEntry) : (x.enqueue e).markers = x.markers := rfl
@[simp] theorem Ctx.enqueue_markerTime (x : Ctx) (e : VEntry) : (x.enqueue e).markerTime = x.markerTime := rfl
@[simp] theorem Ctx.enqueue_chunk (x : Ctx) (e : VEntry) : (x.enqueue e).chunk = x.chunk := rfl
@[simp] theorem Ctx.enqueue_acqSys (x : Ctx) (e : VEntry) : (x.enqueue e).acqSys = x.acqSys := rfl
@[simp] theorem Ctx.enqueue_graceEnd (x : Ctx) (e : VEntry) : (x.enqueue e).graceEnd = x.graceEnd := rfl
@[simp] theorem Ctx.enqueue_redo (x : Ctx) (e : VEntry) : (x.enqueue e).redo = x.redo := rfl
@[simp] theorem Ctx.enqueue_fenceTime (x : Ctx) (e : VEntry) : (x.enqueue e).fenceTime = x.fenceTime := rfl
@[simp] theorem Ctx.setReg_act (x : Ctx) (n : Fin 32) (v : Word) : (x.setReg n v).act = x.act := by
  unfold Ctx.setReg; split <;> rfl
@[simp] theorem Ctx.setReg_vregs (x : Ctx) (n : Fin 32) (v : Word) : (x.setReg n v).vregs = x.vregs := by
  unfold Ctx.setReg; split <;> rfl
@[simp] theorem Ctx.setReg_kregs (x : Ctx) (n : Fin 32) (v : Word) : (x.setReg n v).kregs = x.kregs := by
  unfold Ctx.setReg; split <;> rfl
@[simp] theorem Ctx.setReg_queues (x : Ctx) (n : Fin 32) (v : Word) : (x.setReg n v).queues = x.queues := by
  unfold Ctx.setReg; split <;> rfl
@[simp] theorem Ctx.setReg_pc (x : Ctx) (n : Fin 32) (v : Word) : (x.setReg n v).pc = x.pc := by
  unfold Ctx.setReg; split <;> rfl
@[simp] theorem Ctx.setReg_slot (x : Ctx) (n : Fin 32) (v : Word) : (x.setReg n v).slot = x.slot := by
  unfold Ctx.setReg; split <;> rfl
@[simp] theorem Ctx.setReg_skip (x : Ctx) (n : Fin 32) (v : Word) : (x.setReg n v).skip = x.skip := by
  unfold Ctx.setReg; split <;> rfl
@[simp] theorem Ctx.setReg_loops (x : Ctx) (n : Fin 32) (v : Word) : (x.setReg n v).loops = x.loops := by
  unfold Ctx.setReg; split <;> rfl
@[simp] theorem Ctx.setReg_tloops (x : Ctx) (n : Fin 32) (v : Word) : (x.setReg n v).tloops = x.tloops := by
  unfold Ctx.setReg; split <;> rfl
@[simp] theorem Ctx.setReg_tvec (x : Ctx) (n : Fin 32) (v : Word) : (x.setReg n v).tvec = x.tvec := by
  unfold Ctx.setReg; split <;> rfl
@[simp] theorem Ctx.setReg_tpc (x : Ctx) (n : Fin 32) (v : Word) : (x.setReg n v).tpc = x.tpc := by
  unfold Ctx.setReg; split <;> rfl
@[simp] theorem Ctx.setReg_tcause (x : Ctx) (n : Fin 32) (v : Word) : (x.setReg n v).tcause = x.tcause := by
  unfold Ctx.setReg; split <;> rfl
@[simp] theorem Ctx.setReg_tval (x : Ctx) (n : Fin 32) (v : Word) : (x.setReg n v).tval = x.tval := by
  unfold Ctx.setReg; split <;> rfl
@[simp] theorem Ctx.setReg_tslot (x : Ctx) (n : Fin 32) (v : Word) : (x.setReg n v).tslot = x.tslot := by
  unfold Ctx.setReg; split <;> rfl
@[simp] theorem Ctx.setReg_fflags (x : Ctx) (n : Fin 32) (v : Word) : (x.setReg n v).fflags = x.fflags := by
  unfold Ctx.setReg; split <;> rfl
@[simp] theorem Ctx.setReg_lease (x : Ctx) (n : Fin 32) (v : Word) : (x.setReg n v).lease = x.lease := by
  unfold Ctx.setReg; split <;> rfl
@[simp] theorem Ctx.setReg_self (x : Ctx) (n : Fin 32) (v : Word) : (x.setReg n v).self = x.self := by
  unfold Ctx.setReg; split <;> rfl
@[simp] theorem Ctx.setReg_domain (x : Ctx) (n : Fin 32) (v : Word) : (x.setReg n v).domain = x.domain := by
  unfold Ctx.setReg; split <;> rfl
@[simp] theorem Ctx.setReg_origin (x : Ctx) (n : Fin 32) (v : Word) : (x.setReg n v).origin = x.origin := by
  unfold Ctx.setReg; split <;> rfl
@[simp] theorem Ctx.setReg_msghdr (x : Ctx) (n : Fin 32) (v : Word) : (x.setReg n v).msghdr = x.msghdr := by
  unfold Ctx.setReg; split <;> rfl
@[simp] theorem Ctx.setReg_frame (x : Ctx) (n : Fin 32) (v : Word) : (x.setReg n v).frame = x.frame := by
  unfold Ctx.setReg; split <;> rfl
@[simp] theorem Ctx.setReg_clkgs (x : Ctx) (n : Fin 32) (v : Word) : (x.setReg n v).clkgs = x.clkgs := by
  unfold Ctx.setReg; split <;> rfl
@[simp] theorem Ctx.setReg_clkseq (x : Ctx) (n : Fin 32) (v : Word) : (x.setReg n v).clkseq = x.clkseq := by
  unfold Ctx.setReg; split <;> rfl
@[simp] theorem Ctx.setReg_stack (x : Ctx) (n : Fin 32) (v : Word) : (x.setReg n v).stack = x.stack := by
  unfold Ctx.setReg; split <;> rfl
@[simp] theorem Ctx.setReg_vq (x : Ctx) (n : Fin 32) (v : Word) : (x.setReg n v).vq = x.vq := by
  unfold Ctx.setReg; split <;> rfl
@[simp] theorem Ctx.setReg_wait (x : Ctx) (n : Fin 32) (v : Word) : (x.setReg n v).wait = x.wait := by
  unfold Ctx.setReg; split <;> rfl
@[simp] theorem Ctx.setReg_blocked (x : Ctx) (n : Fin 32) (v : Word) : (x.setReg n v).blocked = x.blocked := by
  unfold Ctx.setReg; split <;> rfl
@[simp] theorem Ctx.setReg_issued (x : Ctx) (n : Fin 32) (v : Word) : (x.setReg n v).issued = x.issued := by
  unfold Ctx.setReg; split <;> rfl
@[simp] theorem Ctx.setReg_op (x : Ctx) (n : Fin 32) (v : Word) : (x.setReg n v).op = x.op := by
  unfold Ctx.setReg; split <;> rfl
@[simp] theorem Ctx.setReg_batches (x : Ctx) (n : Fin 32) (v : Word) : (x.setReg n v).batches = x.batches := by
  unfold Ctx.setReg; split <;> rfl
@[simp] theorem Ctx.setReg_deadline (x : Ctx) (n : Fin 32) (v : Word) : (x.setReg n v).deadline = x.deadline := by
  unfold Ctx.setReg; split <;> rfl
@[simp] theorem Ctx.setReg_watch (x : Ctx) (n : Fin 32) (v : Word) : (x.setReg n v).watch = x.watch := by
  unfold Ctx.setReg; split <;> rfl
@[simp] theorem Ctx.setReg_stops (x : Ctx) (n : Fin 32) (v : Word) : (x.setReg n v).stops = x.stops := by
  unfold Ctx.setReg; split <;> rfl
@[simp] theorem Ctx.setReg_sendrec (x : Ctx) (n : Fin 32) (v : Word) : (x.setReg n v).sendrec = x.sendrec := by
  unfold Ctx.setReg; split <;> rfl
@[simp] theorem Ctx.setReg_markers (x : Ctx) (n : Fin 32) (v : Word) : (x.setReg n v).markers = x.markers := by
  unfold Ctx.setReg; split <;> rfl
@[simp] theorem Ctx.setReg_markerTime (x : Ctx) (n : Fin 32) (v : Word) : (x.setReg n v).markerTime = x.markerTime := by
  unfold Ctx.setReg; split <;> rfl
@[simp] theorem Ctx.setReg_chunk (x : Ctx) (n : Fin 32) (v : Word) : (x.setReg n v).chunk = x.chunk := by
  unfold Ctx.setReg; split <;> rfl
@[simp] theorem Ctx.setReg_redo (x : Ctx) (n : Fin 32) (v : Word) : (x.setReg n v).redo = x.redo := by
  unfold Ctx.setReg; split <;> rfl
@[simp] theorem Ctx.setReg_fenceTime (x : Ctx) (n : Fin 32) (v : Word) : (x.setReg n v).fenceTime = x.fenceTime := by
  unfold Ctx.setReg; split <;> rfl
@[simp] theorem Ctx.setReg_acqSys (x : Ctx) (n : Fin 32) (v : Word) : (x.setReg n v).acqSys = x.acqSys := by
  unfold Ctx.setReg; split <;> rfl
@[simp] theorem Ctx.setReg_graceEnd (x : Ctx) (n : Fin 32) (v : Word) : (x.setReg n v).graceEnd = x.graceEnd := by
  unfold Ctx.setReg; split <;> rfl
@[simp] theorem Ctx.setMask_act (x : Ctx) (n : Fin 8) (v : MaskWord) : (x.setMask n v).act = x.act := by
  unfold Ctx.setMask; split <;> rfl
@[simp] theorem Ctx.setMask_regs (x : Ctx) (n : Fin 8) (v : MaskWord) : (x.setMask n v).regs = x.regs := by
  unfold Ctx.setMask; split <;> rfl
@[simp] theorem Ctx.setMask_vregs (x : Ctx) (n : Fin 8) (v : MaskWord) : (x.setMask n v).vregs = x.vregs := by
  unfold Ctx.setMask; split <;> rfl
@[simp] theorem Ctx.setMask_queues (x : Ctx) (n : Fin 8) (v : MaskWord) : (x.setMask n v).queues = x.queues := by
  unfold Ctx.setMask; split <;> rfl
@[simp] theorem Ctx.setMask_pc (x : Ctx) (n : Fin 8) (v : MaskWord) : (x.setMask n v).pc = x.pc := by
  unfold Ctx.setMask; split <;> rfl
@[simp] theorem Ctx.setMask_slot (x : Ctx) (n : Fin 8) (v : MaskWord) : (x.setMask n v).slot = x.slot := by
  unfold Ctx.setMask; split <;> rfl
@[simp] theorem Ctx.setMask_skip (x : Ctx) (n : Fin 8) (v : MaskWord) : (x.setMask n v).skip = x.skip := by
  unfold Ctx.setMask; split <;> rfl
@[simp] theorem Ctx.setMask_loops (x : Ctx) (n : Fin 8) (v : MaskWord) : (x.setMask n v).loops = x.loops := by
  unfold Ctx.setMask; split <;> rfl
@[simp] theorem Ctx.setMask_tloops (x : Ctx) (n : Fin 8) (v : MaskWord) : (x.setMask n v).tloops = x.tloops := by
  unfold Ctx.setMask; split <;> rfl
@[simp] theorem Ctx.setMask_tvec (x : Ctx) (n : Fin 8) (v : MaskWord) : (x.setMask n v).tvec = x.tvec := by
  unfold Ctx.setMask; split <;> rfl
@[simp] theorem Ctx.setMask_tpc (x : Ctx) (n : Fin 8) (v : MaskWord) : (x.setMask n v).tpc = x.tpc := by
  unfold Ctx.setMask; split <;> rfl
@[simp] theorem Ctx.setMask_tcause (x : Ctx) (n : Fin 8) (v : MaskWord) : (x.setMask n v).tcause = x.tcause := by
  unfold Ctx.setMask; split <;> rfl
@[simp] theorem Ctx.setMask_tval (x : Ctx) (n : Fin 8) (v : MaskWord) : (x.setMask n v).tval = x.tval := by
  unfold Ctx.setMask; split <;> rfl
@[simp] theorem Ctx.setMask_tslot (x : Ctx) (n : Fin 8) (v : MaskWord) : (x.setMask n v).tslot = x.tslot := by
  unfold Ctx.setMask; split <;> rfl
@[simp] theorem Ctx.setMask_fflags (x : Ctx) (n : Fin 8) (v : MaskWord) : (x.setMask n v).fflags = x.fflags := by
  unfold Ctx.setMask; split <;> rfl
@[simp] theorem Ctx.setMask_lease (x : Ctx) (n : Fin 8) (v : MaskWord) : (x.setMask n v).lease = x.lease := by
  unfold Ctx.setMask; split <;> rfl
@[simp] theorem Ctx.setMask_self (x : Ctx) (n : Fin 8) (v : MaskWord) : (x.setMask n v).self = x.self := by
  unfold Ctx.setMask; split <;> rfl
@[simp] theorem Ctx.setMask_domain (x : Ctx) (n : Fin 8) (v : MaskWord) : (x.setMask n v).domain = x.domain := by
  unfold Ctx.setMask; split <;> rfl
@[simp] theorem Ctx.setMask_origin (x : Ctx) (n : Fin 8) (v : MaskWord) : (x.setMask n v).origin = x.origin := by
  unfold Ctx.setMask; split <;> rfl
@[simp] theorem Ctx.setMask_msghdr (x : Ctx) (n : Fin 8) (v : MaskWord) : (x.setMask n v).msghdr = x.msghdr := by
  unfold Ctx.setMask; split <;> rfl
@[simp] theorem Ctx.setMask_frame (x : Ctx) (n : Fin 8) (v : MaskWord) : (x.setMask n v).frame = x.frame := by
  unfold Ctx.setMask; split <;> rfl
@[simp] theorem Ctx.setMask_clkgs (x : Ctx) (n : Fin 8) (v : MaskWord) : (x.setMask n v).clkgs = x.clkgs := by
  unfold Ctx.setMask; split <;> rfl
@[simp] theorem Ctx.setMask_clkseq (x : Ctx) (n : Fin 8) (v : MaskWord) : (x.setMask n v).clkseq = x.clkseq := by
  unfold Ctx.setMask; split <;> rfl
@[simp] theorem Ctx.setMask_stack (x : Ctx) (n : Fin 8) (v : MaskWord) : (x.setMask n v).stack = x.stack := by
  unfold Ctx.setMask; split <;> rfl
@[simp] theorem Ctx.setMask_vq (x : Ctx) (n : Fin 8) (v : MaskWord) : (x.setMask n v).vq = x.vq := by
  unfold Ctx.setMask; split <;> rfl
@[simp] theorem Ctx.setMask_wait (x : Ctx) (n : Fin 8) (v : MaskWord) : (x.setMask n v).wait = x.wait := by
  unfold Ctx.setMask; split <;> rfl
@[simp] theorem Ctx.setMask_blocked (x : Ctx) (n : Fin 8) (v : MaskWord) : (x.setMask n v).blocked = x.blocked := by
  unfold Ctx.setMask; split <;> rfl
@[simp] theorem Ctx.setMask_issued (x : Ctx) (n : Fin 8) (v : MaskWord) : (x.setMask n v).issued = x.issued := by
  unfold Ctx.setMask; split <;> rfl
@[simp] theorem Ctx.setMask_op (x : Ctx) (n : Fin 8) (v : MaskWord) : (x.setMask n v).op = x.op := by
  unfold Ctx.setMask; split <;> rfl
@[simp] theorem Ctx.setMask_batches (x : Ctx) (n : Fin 8) (v : MaskWord) : (x.setMask n v).batches = x.batches := by
  unfold Ctx.setMask; split <;> rfl
@[simp] theorem Ctx.setMask_deadline (x : Ctx) (n : Fin 8) (v : MaskWord) : (x.setMask n v).deadline = x.deadline := by
  unfold Ctx.setMask; split <;> rfl
@[simp] theorem Ctx.setMask_watch (x : Ctx) (n : Fin 8) (v : MaskWord) : (x.setMask n v).watch = x.watch := by
  unfold Ctx.setMask; split <;> rfl
@[simp] theorem Ctx.setMask_stops (x : Ctx) (n : Fin 8) (v : MaskWord) : (x.setMask n v).stops = x.stops := by
  unfold Ctx.setMask; split <;> rfl
@[simp] theorem Ctx.setMask_sendrec (x : Ctx) (n : Fin 8) (v : MaskWord) : (x.setMask n v).sendrec = x.sendrec := by
  unfold Ctx.setMask; split <;> rfl
@[simp] theorem Ctx.setMask_markers (x : Ctx) (n : Fin 8) (v : MaskWord) : (x.setMask n v).markers = x.markers := by
  unfold Ctx.setMask; split <;> rfl
@[simp] theorem Ctx.setMask_markerTime (x : Ctx) (n : Fin 8) (v : MaskWord) : (x.setMask n v).markerTime = x.markerTime := by
  unfold Ctx.setMask; split <;> rfl
@[simp] theorem Ctx.setMask_chunk (x : Ctx) (n : Fin 8) (v : MaskWord) : (x.setMask n v).chunk = x.chunk := by
  unfold Ctx.setMask; split <;> rfl
@[simp] theorem Ctx.setMask_redo (x : Ctx) (n : Fin 8) (v : MaskWord) : (x.setMask n v).redo = x.redo := by
  unfold Ctx.setMask; split <;> rfl
@[simp] theorem Ctx.setMask_fenceTime (x : Ctx) (n : Fin 8) (v : MaskWord) : (x.setMask n v).fenceTime = x.fenceTime := by
  unfold Ctx.setMask; split <;> rfl
@[simp] theorem Ctx.setMask_acqSys (x : Ctx) (n : Fin 8) (v : MaskWord) : (x.setMask n v).acqSys = x.acqSys := by
  unfold Ctx.setMask; split <;> rfl
@[simp] theorem Ctx.setMask_graceEnd (x : Ctx) (n : Fin 8) (v : MaskWord) : (x.setMask n v).graceEnd = x.graceEnd := by
  unfold Ctx.setMask; split <;> rfl
@[simp] theorem Ctx.put_act (x : Ctx) (d : Opnd) (v : Word) : (x.put d v).act = x.act := by
  cases d <;> simp [Ctx.put]
@[simp] theorem Ctx.put_vregs (x : Ctx) (d : Opnd) (v : Word) : (x.put d v).vregs = x.vregs := by
  cases d <;> simp [Ctx.put]
@[simp] theorem Ctx.put_kregs (x : Ctx) (d : Opnd) (v : Word) : (x.put d v).kregs = x.kregs := by
  cases d <;> simp [Ctx.put]
@[simp] theorem Ctx.put_pc (x : Ctx) (d : Opnd) (v : Word) : (x.put d v).pc = x.pc := by
  cases d <;> simp [Ctx.put]
@[simp] theorem Ctx.put_slot (x : Ctx) (d : Opnd) (v : Word) : (x.put d v).slot = x.slot := by
  cases d <;> simp [Ctx.put]
@[simp] theorem Ctx.put_skip (x : Ctx) (d : Opnd) (v : Word) : (x.put d v).skip = x.skip := by
  cases d <;> simp [Ctx.put]
@[simp] theorem Ctx.put_loops (x : Ctx) (d : Opnd) (v : Word) : (x.put d v).loops = x.loops := by
  cases d <;> simp [Ctx.put]
@[simp] theorem Ctx.put_tloops (x : Ctx) (d : Opnd) (v : Word) : (x.put d v).tloops = x.tloops := by
  cases d <;> simp [Ctx.put]
@[simp] theorem Ctx.put_tvec (x : Ctx) (d : Opnd) (v : Word) : (x.put d v).tvec = x.tvec := by
  cases d <;> simp [Ctx.put]
@[simp] theorem Ctx.put_tpc (x : Ctx) (d : Opnd) (v : Word) : (x.put d v).tpc = x.tpc := by
  cases d <;> simp [Ctx.put]
@[simp] theorem Ctx.put_tcause (x : Ctx) (d : Opnd) (v : Word) : (x.put d v).tcause = x.tcause := by
  cases d <;> simp [Ctx.put]
@[simp] theorem Ctx.put_tval (x : Ctx) (d : Opnd) (v : Word) : (x.put d v).tval = x.tval := by
  cases d <;> simp [Ctx.put]
@[simp] theorem Ctx.put_tslot (x : Ctx) (d : Opnd) (v : Word) : (x.put d v).tslot = x.tslot := by
  cases d <;> simp [Ctx.put]
@[simp] theorem Ctx.put_fflags (x : Ctx) (d : Opnd) (v : Word) : (x.put d v).fflags = x.fflags := by
  cases d <;> simp [Ctx.put]
@[simp] theorem Ctx.put_lease (x : Ctx) (d : Opnd) (v : Word) : (x.put d v).lease = x.lease := by
  cases d <;> simp [Ctx.put]
@[simp] theorem Ctx.put_self (x : Ctx) (d : Opnd) (v : Word) : (x.put d v).self = x.self := by
  cases d <;> simp [Ctx.put]
@[simp] theorem Ctx.put_domain (x : Ctx) (d : Opnd) (v : Word) : (x.put d v).domain = x.domain := by
  cases d <;> simp [Ctx.put]
@[simp] theorem Ctx.put_origin (x : Ctx) (d : Opnd) (v : Word) : (x.put d v).origin = x.origin := by
  cases d <;> simp [Ctx.put]
@[simp] theorem Ctx.put_msghdr (x : Ctx) (d : Opnd) (v : Word) : (x.put d v).msghdr = x.msghdr := by
  cases d <;> simp [Ctx.put]
@[simp] theorem Ctx.put_frame (x : Ctx) (d : Opnd) (v : Word) : (x.put d v).frame = x.frame := by
  cases d <;> simp [Ctx.put]
@[simp] theorem Ctx.put_clkgs (x : Ctx) (d : Opnd) (v : Word) : (x.put d v).clkgs = x.clkgs := by
  cases d <;> simp [Ctx.put]
@[simp] theorem Ctx.put_clkseq (x : Ctx) (d : Opnd) (v : Word) : (x.put d v).clkseq = x.clkseq := by
  cases d <;> simp [Ctx.put]
@[simp] theorem Ctx.put_stack (x : Ctx) (d : Opnd) (v : Word) : (x.put d v).stack = x.stack := by
  cases d <;> simp [Ctx.put]
@[simp] theorem Ctx.put_vq (x : Ctx) (d : Opnd) (v : Word) : (x.put d v).vq = x.vq := by
  cases d <;> simp [Ctx.put]
@[simp] theorem Ctx.put_wait (x : Ctx) (d : Opnd) (v : Word) : (x.put d v).wait = x.wait := by
  cases d <;> simp [Ctx.put]
@[simp] theorem Ctx.put_blocked (x : Ctx) (d : Opnd) (v : Word) : (x.put d v).blocked = x.blocked := by
  cases d <;> simp [Ctx.put]
@[simp] theorem Ctx.put_issued (x : Ctx) (d : Opnd) (v : Word) : (x.put d v).issued = x.issued := by
  cases d <;> simp [Ctx.put]
@[simp] theorem Ctx.put_op (x : Ctx) (d : Opnd) (v : Word) : (x.put d v).op = x.op := by
  cases d <;> simp [Ctx.put]
@[simp] theorem Ctx.put_batches (x : Ctx) (d : Opnd) (v : Word) : (x.put d v).batches = x.batches := by
  cases d <;> simp [Ctx.put]
@[simp] theorem Ctx.put_deadline (x : Ctx) (d : Opnd) (v : Word) : (x.put d v).deadline = x.deadline := by
  cases d <;> simp [Ctx.put]
@[simp] theorem Ctx.put_watch (x : Ctx) (d : Opnd) (v : Word) : (x.put d v).watch = x.watch := by
  cases d <;> simp [Ctx.put]
@[simp] theorem Ctx.put_stops (x : Ctx) (d : Opnd) (v : Word) : (x.put d v).stops = x.stops := by
  cases d <;> simp [Ctx.put]
@[simp] theorem Ctx.put_sendrec (x : Ctx) (d : Opnd) (v : Word) : (x.put d v).sendrec = x.sendrec := by
  cases d <;> simp [Ctx.put]
@[simp] theorem Ctx.put_markers (x : Ctx) (d : Opnd) (v : Word) : (x.put d v).markers = x.markers := by
  cases d <;> simp [Ctx.put]
@[simp] theorem Ctx.put_markerTime (x : Ctx) (d : Opnd) (v : Word) : (x.put d v).markerTime = x.markerTime := by
  cases d <;> simp [Ctx.put]
@[simp] theorem Ctx.put_chunk (x : Ctx) (d : Opnd) (v : Word) : (x.put d v).chunk = x.chunk := by
  cases d <;> simp [Ctx.put]
@[simp] theorem Ctx.put_redo (x : Ctx) (d : Opnd) (v : Word) : (x.put d v).redo = x.redo := by
  cases d <;> simp [Ctx.put]
@[simp] theorem Ctx.put_fenceTime (x : Ctx) (d : Opnd) (v : Word) : (x.put d v).fenceTime = x.fenceTime := by
  cases d <;> simp [Ctx.put]
@[simp] theorem Ctx.put_acqSys (x : Ctx) (d : Opnd) (v : Word) : (x.put d v).acqSys = x.acqSys := by
  cases d <;> simp [Ctx.put]
@[simp] theorem Ctx.put_graceEnd (x : Ctx) (d : Opnd) (v : Word) : (x.put d v).graceEnd = x.graceEnd := by
  cases d <;> simp [Ctx.put]

/-! ### Completing an instruction (R104) -/

/-- The end checks change loop counts alone. -/
theorem Ctx.loopEnds_eq (x : Ctx) : ∃ l j, x.loopEnds = ({ x with loops := l }, j) := by
  simp only [Ctx.loopEnds]
  repeat' split
  all_goals exact ⟨_, _, rfl⟩

/-- An instruction that completes changes the pc, the loops and the slot alone. -/
theorem Ctx.retire_eq (x : Ctx) (n : Nat) : ∃ p l q, x.retire n = { x with pc := p, loops := l, slot := q } := by
  simp only [Ctx.retire, Ctx.endCheck]
  split
  · obtain ⟨l, j, h⟩ := x.loopEnds_eq
    exact ⟨_, l, x.slot, by rw [h]⟩
  · split
    · exact ⟨_, x.loops, none, rfl⟩
    · obtain ⟨l, j, h⟩ := Ctx.loopEnds_eq { x with slot := none }
      exact ⟨_, l, none, by rw [h]⟩

@[simp] theorem Ctx.retire_act (x : Ctx) (n : Nat) : (x.retire n).act = x.act := by
  obtain ⟨p, l, q, h⟩ := x.retire_eq n; rw [h]
@[simp] theorem Ctx.retire_regs (x : Ctx) (n : Nat) : (x.retire n).regs = x.regs := by
  obtain ⟨p, l, q, h⟩ := x.retire_eq n; rw [h]
@[simp] theorem Ctx.retire_vregs (x : Ctx) (n : Nat) : (x.retire n).vregs = x.vregs := by
  obtain ⟨p, l, q, h⟩ := x.retire_eq n; rw [h]
@[simp] theorem Ctx.retire_kregs (x : Ctx) (n : Nat) : (x.retire n).kregs = x.kregs := by
  obtain ⟨p, l, q, h⟩ := x.retire_eq n; rw [h]
@[simp] theorem Ctx.retire_queues (x : Ctx) (n : Nat) : (x.retire n).queues = x.queues := by
  obtain ⟨p, l, q, h⟩ := x.retire_eq n; rw [h]
@[simp] theorem Ctx.retire_skip (x : Ctx) (n : Nat) : (x.retire n).skip = x.skip := by
  obtain ⟨p, l, q, h⟩ := x.retire_eq n; rw [h]
@[simp] theorem Ctx.retire_tloops (x : Ctx) (n : Nat) : (x.retire n).tloops = x.tloops := by
  obtain ⟨p, l, q, h⟩ := x.retire_eq n; rw [h]
@[simp] theorem Ctx.retire_tvec (x : Ctx) (n : Nat) : (x.retire n).tvec = x.tvec := by
  obtain ⟨p, l, q, h⟩ := x.retire_eq n; rw [h]
@[simp] theorem Ctx.retire_tpc (x : Ctx) (n : Nat) : (x.retire n).tpc = x.tpc := by
  obtain ⟨p, l, q, h⟩ := x.retire_eq n; rw [h]
@[simp] theorem Ctx.retire_tcause (x : Ctx) (n : Nat) : (x.retire n).tcause = x.tcause := by
  obtain ⟨p, l, q, h⟩ := x.retire_eq n; rw [h]
@[simp] theorem Ctx.retire_tval (x : Ctx) (n : Nat) : (x.retire n).tval = x.tval := by
  obtain ⟨p, l, q, h⟩ := x.retire_eq n; rw [h]
@[simp] theorem Ctx.retire_tslot (x : Ctx) (n : Nat) : (x.retire n).tslot = x.tslot := by
  obtain ⟨p, l, q, h⟩ := x.retire_eq n; rw [h]
@[simp] theorem Ctx.retire_fflags (x : Ctx) (n : Nat) : (x.retire n).fflags = x.fflags := by
  obtain ⟨p, l, q, h⟩ := x.retire_eq n; rw [h]
@[simp] theorem Ctx.retire_lease (x : Ctx) (n : Nat) : (x.retire n).lease = x.lease := by
  obtain ⟨p, l, q, h⟩ := x.retire_eq n; rw [h]
@[simp] theorem Ctx.retire_self (x : Ctx) (n : Nat) : (x.retire n).self = x.self := by
  obtain ⟨p, l, q, h⟩ := x.retire_eq n; rw [h]
@[simp] theorem Ctx.retire_domain (x : Ctx) (n : Nat) : (x.retire n).domain = x.domain := by
  obtain ⟨p, l, q, h⟩ := x.retire_eq n; rw [h]
@[simp] theorem Ctx.retire_origin (x : Ctx) (n : Nat) : (x.retire n).origin = x.origin := by
  obtain ⟨p, l, q, h⟩ := x.retire_eq n; rw [h]
@[simp] theorem Ctx.retire_msghdr (x : Ctx) (n : Nat) : (x.retire n).msghdr = x.msghdr := by
  obtain ⟨p, l, q, h⟩ := x.retire_eq n; rw [h]
@[simp] theorem Ctx.retire_frame (x : Ctx) (n : Nat) : (x.retire n).frame = x.frame := by
  obtain ⟨p, l, q, h⟩ := x.retire_eq n; rw [h]
@[simp] theorem Ctx.retire_clkgs (x : Ctx) (n : Nat) : (x.retire n).clkgs = x.clkgs := by
  obtain ⟨p, l, q, h⟩ := x.retire_eq n; rw [h]
@[simp] theorem Ctx.retire_clkseq (x : Ctx) (n : Nat) : (x.retire n).clkseq = x.clkseq := by
  obtain ⟨p, l, q, h⟩ := x.retire_eq n; rw [h]
@[simp] theorem Ctx.retire_stack (x : Ctx) (n : Nat) : (x.retire n).stack = x.stack := by
  obtain ⟨p, l, q, h⟩ := x.retire_eq n; rw [h]
@[simp] theorem Ctx.retire_vq (x : Ctx) (n : Nat) : (x.retire n).vq = x.vq := by
  obtain ⟨p, l, q, h⟩ := x.retire_eq n; rw [h]
@[simp] theorem Ctx.retire_wait (x : Ctx) (n : Nat) : (x.retire n).wait = x.wait := by
  obtain ⟨p, l, q, h⟩ := x.retire_eq n; rw [h]
@[simp] theorem Ctx.retire_blocked (x : Ctx) (n : Nat) : (x.retire n).blocked = x.blocked := by
  obtain ⟨p, l, q, h⟩ := x.retire_eq n; rw [h]
@[simp] theorem Ctx.retire_issued (x : Ctx) (n : Nat) : (x.retire n).issued = x.issued := by
  obtain ⟨p, l, q, h⟩ := x.retire_eq n; rw [h]
@[simp] theorem Ctx.retire_op (x : Ctx) (n : Nat) : (x.retire n).op = x.op := by
  obtain ⟨p, l, q, h⟩ := x.retire_eq n; rw [h]
@[simp] theorem Ctx.retire_batches (x : Ctx) (n : Nat) : (x.retire n).batches = x.batches := by
  obtain ⟨p, l, q, h⟩ := x.retire_eq n; rw [h]
@[simp] theorem Ctx.retire_deadline (x : Ctx) (n : Nat) : (x.retire n).deadline = x.deadline := by
  obtain ⟨p, l, q, h⟩ := x.retire_eq n; rw [h]
@[simp] theorem Ctx.retire_watch (x : Ctx) (n : Nat) : (x.retire n).watch = x.watch := by
  obtain ⟨p, l, q, h⟩ := x.retire_eq n; rw [h]
@[simp] theorem Ctx.retire_stops (x : Ctx) (n : Nat) : (x.retire n).stops = x.stops := by
  obtain ⟨p, l, q, h⟩ := x.retire_eq n; rw [h]
@[simp] theorem Ctx.retire_sendrec (x : Ctx) (n : Nat) : (x.retire n).sendrec = x.sendrec := by
  obtain ⟨p, l, q, h⟩ := x.retire_eq n; rw [h]
@[simp] theorem Ctx.retire_markers (x : Ctx) (n : Nat) : (x.retire n).markers = x.markers := by
  obtain ⟨p, l, q, h⟩ := x.retire_eq n; rw [h]
@[simp] theorem Ctx.retire_markerTime (x : Ctx) (n : Nat) : (x.retire n).markerTime = x.markerTime := by
  obtain ⟨p, l, q, h⟩ := x.retire_eq n; rw [h]
@[simp] theorem Ctx.retire_chunk (x : Ctx) (n : Nat) : (x.retire n).chunk = x.chunk := by
  obtain ⟨p, l, q, h⟩ := x.retire_eq n; rw [h]
@[simp] theorem Ctx.retire_redo (x : Ctx) (n : Nat) : (x.retire n).redo = x.redo := by
  obtain ⟨p, l, q, h⟩ := x.retire_eq n; rw [h]
@[simp] theorem Ctx.retire_fenceTime (x : Ctx) (n : Nat) : (x.retire n).fenceTime = x.fenceTime := by
  obtain ⟨p, l, q, h⟩ := x.retire_eq n; rw [h]
@[simp] theorem Ctx.retire_acqSys (x : Ctx) (n : Nat) : (x.retire n).acqSys = x.acqSys := by
  obtain ⟨p, l, q, h⟩ := x.retire_eq n; rw [h]
@[simp] theorem Ctx.retire_graceEnd (x : Ctx) (n : Nat) : (x.retire n).graceEnd = x.graceEnd := by
  obtain ⟨p, l, q, h⟩ := x.retire_eq n; rw [h]

end Sys2Proof.Machine
end

