-- ==== Sys2Proof/Laws/Access.lean ====
section
/-! SUPPORT. Tables, and reading the parts of the state after one of them has changed. -/

namespace Sys2Proof.Machine

/-! ### Tables -/

@[simp] theorem tabGet_tabSet_self {α : Type} (t : Tab α) (n : Nat) (v : α) : tabGet (tabSet t n v) n = some v := by
  induction t with
  | nil => simp [tabSet, tabGet]
  | cons p r ih =>
    obtain ⟨k, w⟩ := p
    unfold tabSet
    split
    · simp [tabGet]
    · split
      · simp [tabGet]
      · next h => simp [tabGet, h, ih]

@[simp] theorem tabGet_tabSet_ne {α : Type} (t : Tab α) {n m : Nat} (v : α) (h : m ≠ n) :
    tabGet (tabSet t n v) m = tabGet t m := by
  induction t with
  | nil => simp [tabSet, tabGet, h]
  | cons p r ih =>
    obtain ⟨k, w⟩ := p
    unfold tabSet
    split
    · simp [tabGet, h]
    · split
      · next hk => subst hk; simp [tabGet, h]
      · simp [tabGet, ih]

theorem tabGet_tabSet {α : Type} (t : Tab α) (n m : Nat) (v : α) :
    tabGet (tabSet t n v) m = if m = n then some v else tabGet t m := by
  split
  · next h => subst h; exact tabGet_tabSet_self t m v
  · next h => exact tabGet_tabSet_ne t v h

@[simp] theorem tabGet_tabDel_self {α : Type} (t : Tab α) (n : Nat) : tabGet (tabDel t n) n = none := by
  induction t with
  | nil => rfl
  | cons p r ih =>
    obtain ⟨k, w⟩ := p
    by_cases h : k = n
    · simpa [tabDel, h] using ih
    · simpa [tabDel, tabGet, h, Ne.symm h] using ih

@[simp] theorem tabGet_tabDel_ne {α : Type} (t : Tab α) {n m : Nat} (h : m ≠ n) : tabGet (tabDel t n) m = tabGet t m := by
  induction t with
  | nil => rfl
  | cons p r ih =>
    obtain ⟨k, w⟩ := p
    by_cases hk : k = n
    · subst hk; simpa [tabDel, tabGet, h] using ih
    · have : tabDel ((k, w) :: r) n = (k, w) :: tabDel r n := by simp [tabDel, hk]
      simp [this, tabGet, ih]

/-- A number that tabFree answers is below the bound and not listed. -/
theorem tabFree_some {α : Type} {t : Tab α} {b n : Nat} (h : tabFree t b = some n) : n < b ∧ tabGet t n = none := by
  have hn := List.find?_some h
  have hm := List.mem_of_find?_eq_some h
  exact ⟨List.mem_range.mp hm, by simpa using hn⟩

/-! ### Cores -/

@[simp] theorem State.core_setCore_self (s : State) (c : CoreId) (k : Core) : (s.setCore c k).core c = k := by
  simp [State.core, State.setCore]

@[simp] theorem State.core_setCore_ne (s : State) {c d : CoreId} (k : Core) (h : d ≠ c) : (s.setCore c k).core d = s.core d := by
  have : d.val ≠ c.val := fun e => h (Fin.ext e)
  simp [State.core, State.setCore, this]

@[simp] theorem State.core_mapCore_self (s : State) (c : CoreId) (f : Core → Core) : (s.mapCore c f).core c = f (s.core c) := by
  simp [State.mapCore]

@[simp] theorem State.core_mapCore_ne (s : State) {c d : CoreId} (f : Core → Core) (h : d ≠ c) :
    (s.mapCore c f).core d = s.core d := by
  simp [State.mapCore, h]

theorem State.core_mapCore (s : State) (c d : CoreId) (f : Core → Core) :
    (s.mapCore c f).core d = if d = c then f (s.core d) else s.core d := by
  split
  · next h => subst h; simp
  · next h => simp [h]

/-! ### Dies and clusters -/

@[simp] theorem State.die_mapDie_self (s : State) (d : DieId) (f : Die → Die) : (s.mapDie d f).die d = f (s.die d) := by
  simp [State.die, State.mapDie]

@[simp] theorem State.die_mapDie_ne (s : State) {d e : DieId} (f : Die → Die) (h : e ≠ d) : (s.mapDie d f).die e = s.die e := by
  have : e.val ≠ d.val := fun x => h (Fin.ext x)
  simp [State.die, State.mapDie, this]

@[simp] theorem State.die_mapCore (s : State) (c : CoreId) (f : Core → Core) (d : DieId) : (s.mapCore c f).die d = s.die d := rfl

@[simp] theorem State.core_mapDie (s : State) (d : DieId) (f : Die → Die) (c : CoreId) : (s.mapDie d f).core c = s.core c := rfl

@[simp] theorem State.cluster_mapCluster_self (s : State) (g : ClusterId) (f : Cluster → Cluster) :
    (s.mapCluster g f).cluster g = f (s.cluster g) := by
  simp [State.cluster, State.mapCluster]

@[simp] theorem State.cluster_mapCluster_ne (s : State) {g h : ClusterId} (f : Cluster → Cluster) (n : h ≠ g) :
    (s.mapCluster g f).cluster h = s.cluster h := by
  have : h.val ≠ g.val := fun x => n (Fin.ext x)
  simp [State.cluster, State.mapCluster, this]

@[simp] theorem State.core_mapCluster (s : State) (g : ClusterId) (f : Cluster → Cluster) (c : CoreId) :
    (s.mapCluster g f).core c = s.core c := rfl

@[simp] theorem State.die_mapCluster (s : State) (g : ClusterId) (f : Cluster → Cluster) (d : DieId) :
    (s.mapCluster g f).die d = s.die d := rfl

@[simp] theorem State.cluster_mapCore (s : State) (c : CoreId) (f : Core → Core) (g : ClusterId) :
    (s.mapCore c f).cluster g = s.cluster g := rfl

@[simp] theorem State.cluster_mapDie (s : State) (d : DieId) (f : Die → Die) (g : ClusterId) :
    (s.mapDie d f).cluster g = s.cluster g := rfl

/-! ### Contexts and slots -/

@[simp] theorem State.ctx_mapCtx_self (s : State) (c : CoreId) (x : CtxId) (f : Ctx → Ctx) :
    (s.mapCtx c x f).ctx c x = f (s.ctx c x) := by
  simp [State.ctx, State.mapCtx, Core.mapCtx]

@[simp] theorem State.ctx_mapCtx_ne (s : State) (c : CoreId) {x y : CtxId} (f : Ctx → Ctx) (h : y ≠ x) :
    (s.mapCtx c x f).ctx c y = s.ctx c y := by
  have : x.val ≠ y.val := fun e => h (Fin.ext e.symm)
  simp [State.ctx, State.mapCtx, Core.mapCtx, this]

@[simp] theorem State.ctx_mapCtx_core (s : State) {c d : CoreId} (x y : CtxId) (f : Ctx → Ctx) (h : d ≠ c) :
    (s.mapCtx c x f).ctx d y = s.ctx d y := by
  simp [State.ctx, State.mapCtx, h]

@[simp] theorem State.ctx_mapDie (s : State) (d : DieId) (f : Die → Die) (c : CoreId) (x : CtxId) :
    (s.mapDie d f).ctx c x = s.ctx c x := rfl

@[simp] theorem State.ctx_mapCluster (s : State) (g : ClusterId) (f : Cluster → Cluster) (c : CoreId) (x : CtxId) :
    (s.mapCluster g f).ctx c x = s.ctx c x := rfl

@[simp] theorem State.slot_mapSlot_self (s : State) (c : CoreId) (n : SlotId) (f : Slot → Slot) :
    (s.mapSlot c n f).slot c n = f (s.slot c n) := by
  simp [State.slot, State.mapSlot]

@[simp] theorem State.slot_mapSlot_ne (s : State) (c : CoreId) {n m : SlotId} (f : Slot → Slot) (h : m ≠ n) :
    (s.mapSlot c n f).slot c m = s.slot c m := by
  have : n.val ≠ m.val := fun e => h (Fin.ext e.symm)
  simp [State.slot, State.mapSlot, this]

@[simp] theorem State.ctx_mapSlot (s : State) (c d : CoreId) (n : SlotId) (f : Slot → Slot) (x : CtxId) :
    (s.mapSlot c n f).ctx d x = s.ctx d x := by
  simp only [State.ctx, State.mapSlot, State.core_mapCore]
  split <;> rfl

@[simp] theorem State.slot_mapCtx (s : State) (c d : CoreId) (x : CtxId) (f : Ctx → Ctx) (n : SlotId) :
    (s.mapCtx c x f).slot d n = s.slot d n := by
  simp only [State.slot, State.mapCtx, State.core_mapCore]
  split <;> rfl

/-! ### The issuing context -/

/-- A change of the issuing context leaves the issuing context the same one. -/
@[simp] theorem State.hereX_mapHere (s : State) (f : Ctx → Ctx) : (s.mapHere f).hereX = s.hereX := by
  show ((s.mapHere f).core s.focus).cur = (s.core s.focus).cur
  rw [State.mapHere, State.mapCtx, State.core_mapCore_self]; rfl

@[simp] theorem State.here_mapHere (s : State) (f : Ctx → Ctx) : (s.mapHere f).here = f s.here := by
  rw [State.here, State.hereX_mapHere, State.mapHere_focus]
  simp [State.mapHere, State.here]

@[simp] theorem State.core_mapHere_ne (s : State) (f : Ctx → Ctx) {c : CoreId} (h : c ≠ s.focus) :
    (s.mapHere f).core c = s.core c := by
  simp [State.mapHere, State.mapCtx, h]

@[simp] theorem State.core_mapHere_self (s : State) (f : Ctx → Ctx) :
    (s.mapHere f).core s.focus = (s.core s.focus).mapCtx s.hereX f := by
  simp [State.mapHere, State.mapCtx]

theorem State.ctx_mapHere_ne (s : State) (f : Ctx → Ctx) {c : CoreId} {x : CtxId} (h : c ≠ s.focus ∨ x ≠ s.hereX) :
    (s.mapHere f).ctx c x = s.ctx c x := by
  by_cases hc : c = s.focus
  · subst hc
    exact State.ctx_mapCtx_ne s _ f (h.resolve_left (fun e => e rfl))
  · exact State.ctx_mapCtx_core s _ _ f hc

/-- Scratchpads and operand memories are no part of a context. -/
@[simp] theorem State.spad_mapHere (s : State) (f : Ctx → Ctx) (c : CoreId) : ((s.mapHere f).core c).spad = (s.core c).spad := by
  simp only [State.mapHere, State.mapCtx, State.core_mapCore]
  split <;> rfl

@[simp] theorem State.opnd_mapHere (s : State) (f : Ctx → Ctx) (c : CoreId) : ((s.mapHere f).core c).opnd = (s.core c).opnd := by
  simp only [State.mapHere, State.mapCtx, State.core_mapCore]
  split <;> rfl

/-- Two changes of the issuing context are one. -/
theorem Core.mapCtx_mapCtx (k : Core) (x : CtxId) (f g : Ctx → Ctx) : (k.mapCtx x f).mapCtx x g = k.mapCtx x (fun y => g (f y)) := by
  simp [Core.mapCtx]

theorem tabSet_tabSet {α : Type} (t : Tab α) (n : Nat) (v w : α) : tabSet (tabSet t n v) n w = tabSet t n w := by
  induction t with
  | nil => simp [tabSet]
  | cons p r ih =>
    obtain ⟨k, u⟩ := p
    by_cases h1 : n < k
    · simp [tabSet, h1]
    · by_cases h2 : n = k
      · simp [tabSet, h2]
      · simp [tabSet, h1, h2, ih]

theorem State.mapCore_mapCore (s : State) (c : CoreId) (f g : Core → Core) :
    (s.mapCore c f).mapCore c g = s.mapCore c (fun k => g (f k)) := by
  simp only [State.mapCore, State.setCore, State.core, tabGet_tabSet_self, Option.getD_some, tabSet_tabSet]

theorem State.mapHere_mapHere (s : State) (f g : Ctx → Ctx) : (s.mapHere f).mapHere g = s.mapHere (fun y => g (f y)) := by
  have hx := s.hereX_mapHere f
  have hf : (s.mapHere f).focus = s.focus := rfl
  unfold State.mapHere at hx hf ⊢
  rw [hx, hf]
  simp only [State.mapCtx, State.mapCore_mapCore, Core.mapCtx_mapCtx]

/-! ### Registers and queues of a context (R12, R14, R16) -/

@[simp] theorem Ctx.reg_zero (x : Ctx) : x.reg 0 = 0 := rfl

@[simp] theorem Ctx.setReg_zero (x : Ctx) (v : Word) : x.setReg 0 v = x := rfl

theorem Ctx.reg_setReg_self (x : Ctx) {n : Fin 32} (v : Word) (h : n ≠ 0) : (x.setReg n v).reg n = v := by
  have : n.val ≠ 0 := fun e => h (Fin.ext e)
  simp [Ctx.reg, Ctx.setReg, this]

@[simp] theorem Ctx.reg_setReg_ne (x : Ctx) {n m : Fin 32} (v : Word) (h : m ≠ n) : (x.setReg n v).reg m = x.reg m := by
  have : n.val ≠ m.val := fun e => h (Fin.ext e.symm)
  unfold Ctx.reg Ctx.setReg
  split <;> [rfl; (split <;> simp [this])]

theorem Ctx.reg_setReg (x : Ctx) (n m : Fin 32) (v : Word) :
    (x.setReg n v).reg m = if m = n then (if n = 0 then 0 else v) else x.reg m := by
  split
  · next h =>
    subst h
    split
    · next h0 => subst h0; rfl
    · next h0 => exact x.reg_setReg_self v h0
  · next h => exact x.reg_setReg_ne v h

@[simp] theorem Ctx.queue_setQueue_self (x : Ctx) (n : Fin 8) (q : List Word) : (x.setQueue n q).queue n = q := by
  simp [Ctx.queue, Ctx.setQueue]

@[simp] theorem Ctx.queue_setQueue_ne (x : Ctx) {n m : Fin 8} (q : List Word) (h : m ≠ n) :
    (x.setQueue n q).queue m = x.queue m := by
  have : n.val ≠ m.val := fun e => h (Fin.ext e.symm)
  simp [Ctx.queue, Ctx.setQueue, this]

@[simp] theorem Ctx.vreg_setVreg_self (x : Ctx) (n : Fin 32) (v : VecWord) : (x.setVreg n v).vreg n = v := by
  simp [Ctx.vreg, Ctx.setVreg]

@[simp] theorem Ctx.vreg_setVreg_ne (x : Ctx) {n m : Fin 32} (v : VecWord) (h : m ≠ n) : (x.setVreg n v).vreg m = x.vreg m := by
  have : n.val ≠ m.val := fun e => h (Fin.ext e.symm)
  simp [Ctx.vreg, Ctx.setVreg, this]

@[simp] theorem Ctx.mask_zero (x : Ctx) : x.mask 0 = BitVec.allOnes 128 := rfl

@[simp] theorem Ctx.mask_setMask_ne (x : Ctx) {n m : Fin 8} (v : MaskWord) (h : m ≠ n) : (x.setMask n v).mask m = x.mask m := by
  have : n.val ≠ m.val := fun e => h (Fin.ext e.symm)
  unfold Ctx.mask Ctx.setMask
  split <;> [rfl; (split <;> simp [this])]

theorem Ctx.mask_setMask_self (x : Ctx) {n : Fin 8} (v : MaskWord) (h : n ≠ 0) : (x.setMask n v).mask n = v := by
  have : n.val ≠ 0 := fun e => h (Fin.ext e)
  simp [Ctx.mask, Ctx.setMask, this]

/-! ### Sources and destinations (R16, R84) -/

/-- A source popped changes queues alone. -/
theorem Ctx.takeOne_eq {x y : Ctx} {imm v : Word} {o : Opnd} (h : x.takeOne imm o = some (v, y)) :
    y = { x with queues := y.queues } := by
  cases o with
  | r n => simp only [Ctx.takeOne, Option.some.injEq, Prod.mk.injEq] at h; rw [← h.2]
  | imm => simp only [Ctx.takeOne, Option.some.injEq, Prod.mk.injEq] at h; rw [← h.2]
  | q n =>
    simp only [Ctx.takeOne] at h
    split at h
    · cases h
    · simp only [Option.some.injEq, Prod.mk.injEq] at h
      rw [← h.2]
      rfl

/-- Sources read and popped change queues alone. -/
theorem Ctx.take_eq {x y : Ctx} {imm : Word} {ops : List Opnd} {vs : List Word} (h : x.take imm ops = some (vs, y)) :
    y = { x with queues := y.queues } := by
  induction ops generalizing x vs with
  | nil => simp only [Ctx.take, Option.some.injEq, Prod.mk.injEq] at h; rw [← h.2]
  | cons o r ih =>
    simp only [Ctx.take] at h
    split at h
    · cases h
    · next v z hz =>
      split at h
      · cases h
      · next ws u hu =>
        simp only [Option.some.injEq, Prod.mk.injEq] at h
        obtain ⟨-, rfl⟩ := h
        have h1 := Ctx.takeOne_eq hz
        have h2 := ih hu
        rw [h2, h1]

/-- As many values as sources. -/
theorem Ctx.take_length {x y : Ctx} {imm : Word} {ops : List Opnd} {vs : List Word} (h : x.take imm ops = some (vs, y)) :
    vs.length = ops.length := by
  induction ops generalizing x vs with
  | nil => simp only [Ctx.take, Option.some.injEq, Prod.mk.injEq] at h; simp [← h.1]
  | cons o r ih =>
    simp only [Ctx.take] at h
    split at h
    · cases h
    · split at h
      · cases h
      · next hu =>
        simp only [Option.some.injEq, Prod.mk.injEq] at h
        obtain ⟨rfl, rfl⟩ := h
        simp [ih hu]

end Sys2Proof.Machine
end

