-- ==== Sys2Proof/Laws/Encode.lean ====
section
/-! SUPPORT. The encoder by the form of its immediate. -/

namespace Sys2Proof

theorem encode_short {i : Instr} {w : Nat} (h : encodeDword i = some (w, .none)) (hf : i ≠ .fillWord) :
    encode i = some [BitVec.ofNat 32 w, BitVec.ofNat 32 (w / 2 ^ 32)] := by
  unfold encode
  split
  · contradiction
  · simp [h]

theorem encode_w32 {i : Instr} {w : Nat} {x : BitVec 32} (h : encodeDword i = some (w, .w32 x)) (hf : i ≠ .fillWord) :
    encode i = some [BitVec.ofNat 32 w, BitVec.ofNat 32 (w / 2 ^ 32), x] := by
  unfold encode
  split
  · contradiction
  · simp [h]

theorem encode_w64 {i : Instr} {w : Nat} {x : BitVec 64} (h : encodeDword i = some (w, .w64 x)) (hf : i ≠ .fillWord) :
    encode i = some [BitVec.ofNat 32 w, BitVec.ofNat 32 (w / 2 ^ 32), x.extractLsb' 0 32, x.extractLsb' 32 32] := by
  unfold encode
  split
  · contradiction
  · simp [h]

theorem encode_event {i : Instr} (h : encodeDword i = none) (hf : i ≠ .fillWord) : encode i = none := by
  unfold encode
  split
  · contradiction
  · rw [h]

@[simp] theorem encode_fillWord : encode .fillWord = some [0xFFFFFFFF] := rfl

end Sys2Proof
end

