-- ==== Sys2Proof/Laws/Memory.lean ====
section
/-! SUPPORT. Memory: the canonical form is kept by every operation, and what a read after a write gives. -/

namespace Sys2Proof.Machine

/-! ### The canonical form -/

theorem Memory.wfFrom_mono {lo lo' : Nat} {m : Memory} (h : Memory.wfFrom lo m = true) (hl : lo' ≤ lo) :
    Memory.wfFrom lo' m = true := by
  cases m with
  | nil => rfl
  | cons p r =>
    simp only [Memory.wfFrom, Bool.and_eq_true, decide_eq_true_eq] at h ⊢
    exact ⟨⟨by omega, h.1.2⟩, h.2⟩

theorem Memory.wfFrom_cons {lo a : Nat} {b : Byte} {m : Memory} (h : Memory.wfFrom (a + 1) m = true) (hl : lo ≤ a) :
    Memory.wfFrom lo (Memory.cons a b m) = true := by
  unfold Memory.cons
  split
  · exact Memory.wfFrom_mono h (by omega)
  · next hb => simp [Memory.wfFrom, h, hl, hb]

/-- A write of one byte keeps the canonical form. -/
theorem Memory.wfFrom_set {lo a : Nat} {b : Byte} {m : Memory} (h : Memory.wfFrom lo m = true) (hl : lo ≤ a) :
    Memory.wfFrom lo (m.set a b) = true := by
  induction m generalizing lo with
  | nil => exact Memory.wfFrom_cons rfl hl
  | cons p r ih =>
    obtain ⟨k, v⟩ := p
    simp only [Memory.wfFrom, Bool.and_eq_true, decide_eq_true_eq] at h
    unfold Memory.set
    split
    · exact Memory.wfFrom_cons (by simpa [Memory.wfFrom, h.1.2, h.2] using by omega) hl
    · split
      · next he => exact Memory.wfFrom_cons (he ▸ h.2) hl
      · simp only [Memory.wfFrom, Bool.and_eq_true, decide_eq_true_eq]
        exact ⟨h.1, ih h.2 (by omega)⟩

theorem Memory.wf_set {m : Memory} (h : m.wf = true) (a : Nat) (b : Byte) : (m.set a b).wf = true :=
  Memory.wfFrom_set h (Nat.zero_le a)

/-- A write of some bytes keeps the canonical form. -/
theorem Memory.wf_setBytes {m : Memory} (h : m.wf = true) (a : Nat) (bs : List Byte) : (m.setBytes a bs).wf = true := by
  induction bs generalizing m a with
  | nil => exact h
  | cons b r ih => exact ih (Memory.wf_set h a b) (a + 1)

theorem Memory.wfFrom_filter {lo : Nat} {m : Memory} (p : Host.Cell → Bool) (h : Memory.wfFrom lo m = true) :
    Memory.wfFrom lo (m.filter p) = true := by
  induction m generalizing lo with
  | nil => rfl
  | cons c r ih =>
    obtain ⟨k, v⟩ := c
    simp only [Memory.wfFrom, Bool.and_eq_true, decide_eq_true_eq] at h
    have hr := ih h.2
    cases hp : p (k, v) with
    | true =>
      rw [List.filter_cons_of_pos hp]
      simp [Memory.wfFrom, h.1.1, bne_iff_ne.mp h.1.2, hr]
    | false =>
      rw [List.filter_cons_of_neg (by simp [hp])]
      exact Memory.wfFrom_mono hr (by omega)

/-- Bytes set to zero keep the canonical form. -/
theorem Memory.wf_clear {m : Memory} (h : m.wf = true) (a n : Nat) : (m.clear a n).wf = true :=
  Memory.wfFrom_filter _ h

/-! ### Reads after writes -/

theorem Memory.get_below {lo a : Nat} {m : Memory} (h : Memory.wfFrom lo m = true) (ha : a < lo) :
    m.get a = unlistedByte := by
  cases m with
  | nil => rfl
  | cons p r =>
    obtain ⟨k, v⟩ := p
    simp only [Memory.wfFrom, Bool.and_eq_true, decide_eq_true_eq] at h
    simp only [Memory.get]
    rw [if_neg (by omega), if_pos (by omega)]

theorem Memory.get_cons {a x : Nat} {b : Byte} {m : Memory} (h : Memory.wfFrom (a + 1) m = true) :
    (Memory.cons a b m).get x = if x = a then b else if x < a then unlistedByte else m.get x := by
  unfold Memory.cons
  split
  · next hb =>
    split
    · next hx => rw [Memory.get_below h (by omega), hb]
    · split
      · exact Memory.get_below h (by omega)
      · rfl
  · rfl

/-- A READ AFTER A WRITE of one byte: the byte at that address, and every other byte as before. -/
theorem Memory.get_set {lo a x : Nat} {b : Byte} {m : Memory} (h : Memory.wfFrom lo m = true) :
    (m.set a b).get x = if x = a then b else m.get x := by
  induction m generalizing lo with
  | nil =>
    rw [show Memory.set [] a b = Memory.cons a b [] from rfl, Memory.get_cons rfl]
    simp [Memory.get]
  | cons p r ih =>
    obtain ⟨k, v⟩ := p
    have hw := h
    simp only [Memory.wfFrom, Bool.and_eq_true, decide_eq_true_eq] at h
    unfold Memory.set
    split
    · next hk =>
      have hr : Memory.wfFrom (a + 1) ((k, v) :: r) = true := by
        simpa [Memory.wfFrom, h.1.2, h.2] using by omega
      rw [Memory.get_cons hr]
      split
      · rfl
      · split
        · next hx => exact (Memory.get_below hr (by omega)).symm
        · rfl
    · split
      · next hk =>
        subst hk
        rw [Memory.get_cons h.2]
        simp only [Memory.get]
        split <;> [rfl; (split <;> simp_all)]
      · simp only [Memory.get, ih h.2]
        split
        · rw [if_neg (by omega)]
        · split
          · rw [if_neg (by omega)]
          · rfl

theorem Memory.get_set_self {m : Memory} (h : m.wf = true) (a : Nat) (b : Byte) : (m.set a b).get a = b := by
  rw [Memory.get_set h, if_pos rfl]

theorem Memory.get_set_ne {m : Memory} (h : m.wf = true) {a x : Nat} (b : Byte) (hx : x ≠ a) :
    (m.set a b).get x = m.get x := by
  rw [Memory.get_set h, if_neg hx]

/-- A READ AFTER A WRITE of some bytes. -/
theorem Memory.get_setBytes {m : Memory} (h : m.wf = true) (a x : Nat) (bs : List Byte) :
    (m.setBytes a bs).get x = if a ≤ x ∧ x < a + bs.length then bs.getD (x - a) 0 else m.get x := by
  induction bs generalizing m a with
  | nil => simp [Memory.setBytes]
  | cons b r ih =>
    rw [Memory.setBytes, ih (Memory.wf_set h a b), Memory.get_set h]
    by_cases hx : x = a
    · subst hx
      rw [if_neg (by omega), if_pos rfl, if_pos (by simp)]
      simp
    · rw [if_neg hx]
      by_cases hin : a + 1 ≤ x ∧ x < a + 1 + r.length
      · rw [if_pos hin, if_pos (by simp only [List.length_cons]; omega)]
        rw [show x - a = (x - (a + 1)) + 1 by omega]
        simp
      · rw [if_neg hin, if_neg (by simp only [List.length_cons]; omega)]

/-- Bytes set to zero read as zero, every other byte as before. -/
theorem Memory.get_clear {lo : Nat} {m : Memory} (h : Memory.wfFrom lo m = true) (a n x : Nat) :
    (m.clear a n).get x = if a ≤ x ∧ x < a + n then unlistedByte else m.get x := by
  induction m generalizing lo with
  | nil => simp [Memory.clear, Memory.get]
  | cons p r ih =>
    obtain ⟨k, v⟩ := p
    have hw := h
    simp only [Memory.wfFrom, Bool.and_eq_true, decide_eq_true_eq] at h
    have ih := ih h.2
    have hf : Memory.wfFrom (k + 1) (Memory.clear r a n) = true := Memory.wfFrom_filter _ h.2
    by_cases hk : k < a ∨ a + n ≤ k
    · have hc : Memory.clear ((k, v) :: r) a n = (k, v) :: Memory.clear r a n := by
        simp only [Memory.clear]
        rw [List.filter_cons_of_pos (by simpa using hk)]
      rw [hc]
      simp only [Memory.get, ih]
      split
      · next hx => subst hx; rw [if_neg (by omega)]
      · split
        · split <;> rfl
        · rfl
    · have hc : Memory.clear ((k, v) :: r) a n = Memory.clear r a n := by
        simp only [Memory.clear]
        rw [List.filter_cons_of_neg (by simpa using hk)]
      rw [hc, ih]
      simp only [Memory.get]
      split
      · rfl
      · next hx =>
        split
        · next he => omega
        · split
          · next hl => exact Memory.get_below h.2 (by omega)
          · rfl

/-! ### Byte lists -/

theorem Memory.length_bytes (m : Memory) (a n : Nat) : (m.bytes a n).length = n := by simp [Memory.bytes]

theorem leBytes_length (n v : Nat) : (leBytes n v).length = n := by
  induction n generalizing v with
  | zero => rfl
  | succ n ih => simp [leBytes, ih]

/-- The number of the bytes of a number. -/
theorem leNat_leBytes (n v : Nat) : leNat (leBytes n v) = v % 256 ^ n := by
  induction n generalizing v with
  | zero => simp [leBytes, leNat, Nat.mod_one]
  | succ n ih =>
    simp only [leBytes, leNat, ih, BitVec.toNat_ofNat]
    rw [show 256 ^ (n + 1) = 256 * 256 ^ n from Nat.pow_succ', Nat.mod_mul]

theorem leNat_lt (bs : List Byte) : leNat bs < 256 ^ bs.length := by
  induction bs with
  | nil => simp [leNat]
  | cons b r ih =>
    simp only [leNat, List.length_cons, Nat.pow_succ']
    have := b.isLt
    omega

end Sys2Proof.Machine
end

