-- ==== Sys2Proof/Laws/Memories.lean ====
section
/-! SUPPORT. Every memory in canonical form: what the updates of the state and the operations at the homes keep. -/

namespace Sys2Proof.Laws

open Sys2Proof.Machine Sys2Proof.Safety

/-! ### The parts of the state -/

theorem memories_iff (s : State) :
    memories s = true ↔ s.hbm.wf = true ∧ ∀ p ∈ s.cores, coreMemories p.2 = true := by
  simp [memories]

theorem mem_of_tabGet {α : Type} {t : Tab α} {n : Nat} {v : α} (h : tabGet t n = some v) : (n, v) ∈ t := by
  induction t with
  | nil => simp [tabGet] at h
  | cons p r ih =>
    obtain ⟨k, w⟩ := p
    by_cases hk : n = k
    · simp [tabGet, hk] at h; simp [hk, h]
    · simp [tabGet, hk] at h; simp [ih h]

theorem mem_tabSet {α : Type} {t : Tab α} {n : Nat} {v : α} {p : Nat × α} (h : p ∈ tabSet t n v) : p = (n, v) ∨ p ∈ t := by
  induction t with
  | nil => simpa [tabSet] using h
  | cons q r ih =>
    obtain ⟨k, w⟩ := q
    unfold tabSet at h
    split at h
    · simpa using h
    · split at h
      · simp at h; rcases h with h | h <;> simp [h]
      · simp at h
        rcases h with h | h
        · simp [h]
        · rcases ih h with h | h <;> simp [h]

theorem coreMemories_reset : coreMemories Core.reset = true := rfl

theorem memories_core {s : State} (h : memories s = true) (c : CoreId) : coreMemories (s.core c) = true := by
  unfold State.core
  cases hk : tabGet s.cores c.val with
  | none => exact coreMemories_reset
  | some k => exact ((memories_iff s).mp h).2 _ (mem_of_tabGet hk)

theorem memories_setCore {s : State} (h : memories s = true) {c : CoreId} {k : Core} (hk : coreMemories k = true) :
    memories (s.setCore c k) = true := by
  rw [memories_iff] at *
  exact ⟨h.1, fun p hp => (mem_tabSet hp).elim (fun e => by simp [e, hk]) (h.2 p)⟩

theorem memories_mapCore {s : State} (h : memories s = true) (c : CoreId) {f : Core → Core}
    (hf : ∀ k, coreMemories k = true → coreMemories (f k) = true) : memories (s.mapCore c f) = true :=
  memories_setCore h (hf _ (memories_core h c))

theorem memories_mapCtx {s : State} (h : memories s = true) (c : CoreId) (x : CtxId) (f : Ctx → Ctx) :
    memories (s.mapCtx c x f) = true := memories_mapCore h c (fun _ hk => hk)

theorem memories_mapHere {s : State} (h : memories s = true) (f : Ctx → Ctx) : memories (s.mapHere f) = true :=
  memories_mapCtx h _ _ f

theorem memories_mapSlot {s : State} (h : memories s = true) (c : CoreId) (n : SlotId) (f : Slot → Slot) :
    memories (s.mapSlot c n f) = true := memories_mapCore h c (fun _ hk => hk)

theorem memories_tabMap {s : State} (h : memories s = true) {f : Nat → Core → Core}
    (hf : ∀ n k, coreMemories k = true → coreMemories (f n k) = true) :
    memories { s with cores := tabMap f s.cores } = true := by
  rw [memories_iff] at *
  refine ⟨h.1, fun p hp => ?_⟩
  obtain ⟨q, hq, rfl⟩ := List.mem_map.mp hp
  exact hf _ _ (h.2 q hq)

/-- An update that leaves the cores and device memory alone. -/
theorem memories_same {s t : State} (h : memories s = true) (hc : t.cores = s.cores) (hh : t.hbm = s.hbm) :
    memories t = true := by
  rw [memories_iff] at *
  rwa [hc, hh]

@[simp] theorem memories_mapDie (s : State) (d : DieId) (f : Die → Die) : memories (s.mapDie d f) = memories s := rfl
@[simp] theorem memories_mapCluster (s : State) (g : ClusterId) (f : Cluster → Cluster) :
    memories (s.mapCluster g f) = memories s := rfl
@[simp] theorem memories_send (s : State) (a b : Nat) (row : Instr) (g : Arg) : memories (s.send a b row g) = memories s := rfl
@[simp] theorem memories_tell (s : State) (o : Out) : memories (s.tell o) = memories s := rfl

theorem memories_foldl {α : Type} (f : State → α → State) (hf : ∀ s a, memories s = true → memories (f s a) = true)
    (l : List α) {s : State} (h : memories s = true) : memories (l.foldl f s) = true := by
  induction l generalizing s with
  | nil => exact h
  | cons a r ih => exact ih (hf s a h)

theorem memories_foldl_pair {α β : Type} (f : State × β → α → State × β)
    (hf : ∀ p a, memories p.1 = true → memories (f p a).1 = true) (l : List α) {p : State × β} (h : memories p.1 = true) :
    memories (l.foldl f p).1 = true := by
  induction l generalizing p with
  | nil => exact h
  | cons a r ih => exact ih (hf p a h)

/-- A fold of steps that may stop. -/
theorem memories_foldl_option {α : Type} (f : State → α → Option State)
    (hf : ∀ s a t, memories s = true → f s a = some t → memories t = true) (l : List α) {o : Option State}
    (h : ∀ s, o = some s → memories s = true) {t : State}
    (ht : l.foldl (fun o a => o.bind (fun s => f s a)) o = some t) : memories t = true := by
  induction l generalizing o with
  | nil => exact h t ht
  | cons a r ih =>
    refine ih (fun s hs => ?_) ht
    obtain ⟨u, hu, hs⟩ := Option.bind_eq_some_iff.mp hs
    exact hf u a s (h u hu) hs

/-! ### Scratchpads and device memory -/

theorem coreMemories_clearErrs (l : List Nat) (k : Core) : coreMemories (l.foldl Core.clearErr k) = coreMemories k := by
  induction l generalizing k with
  | nil => rfl
  | cons w r ih => rw [List.foldl_cons, ih]; rfl

theorem memories_garnet {s : State} (h : memories s = true) (n e src c d x : Nat) :
    memories (s.garnet n e src c d x) = true := by
  unfold State.garnet
  split
  · exact h
  · split <;> exact h

theorem memories_scrubWord {s : State} (h : memories s = true) (c : CoreId) (w : Nat) : memories (s.scrubWord c w) = true := by
  unfold State.scrubWord
  split
  · exact h
  · simp only
    split
    · exact h
    · refine memories_foldl (fun s b => s.correctBank c b (w / 32)) (fun s b hs => ?_) _ h
      exact memories_garnet (memories_mapCore hs c (f := (·.clearBank b (w / 32))) (fun _ hk => hk)) _ _ _ _ _ _

theorem memories_spadWrite {s : State} (h : memories s = true) (c : CoreId) (off : Nat) (bs : List Byte) :
    memories (s.spadWrite c off bs) = true := by
  unfold State.spadWrite
  simp only
  have h0 := memories_foldl (fun s w => s.scrubWord c w) (fun _ w hs => memories_scrubWord hs c w) (partWords off bs.length) h
  generalize (partWords off bs.length).foldl (fun s w => s.scrubWord c w) s = u at h0 ⊢
  generalize (spadWords off bs.length).filter (wholeWord off bs.length) = whole
  have h1 := memories_mapCore h0 c
    (f := fun k => whole.foldl Core.clearErr { k with spad := k.spad.setBytes off bs }) (fun k hk => by
      rw [coreMemories_clearErrs]
      simp only [coreMemories, Bool.and_eq_true] at hk ⊢
      exact ⟨Memory.wf_setBytes hk.1 off bs, hk.2⟩)
  split
  · exact memories_tabMap h1 (fun _ _ hk => hk)
  · exact h1

theorem memories_putHbm {s : State} (h : memories s = true) (line : Nat) (d : BitVec 1024) (m : BitVec 128) (t : Nat) :
    memories (s.putHbm line d m t) = true := by
  have key (l : List Nat) : ∀ b : Memory, b.wf = true → (l.foldl (fun b i =>
      if m.getLsbD i then b.set (128 * line + i) (d.extractLsb' (8 * i) 8) else b) b).wf = true := by
    induction l with
    | nil => exact fun _ hb => hb
    | cons i r ih =>
      intro b hb
      refine ih _ ?_
      beta_reduce
      split
      · exact Memory.wf_set hb _ _
      · exact hb
  rw [memories_iff] at *
  exact ⟨key _ _ h.1, h.2⟩

theorem memories_ringBells {s : State} (h : memories s = true) (line : Nat) (m : BitVec 128) :
    memories (s.ringBells line m) = true := by
  unfold State.ringBells
  simp only
  split
  · exact memories_same h rfl rfl
  · exact h

@[simp] theorem memories_mapRdc (s : State) (d : DieId) (line : Nat) (f : RdcLine → RdcLine) :
    memories (s.mapRdc d line f) = memories s := rfl

@[simp] theorem memories_setDir (s : State) (u : HomeUnit) (line : Nat) (e : DirLine) :
    memories (s.setDir u line e) = memories s := by
  cases u <;> rfl

@[simp] theorem memories_voidGrants (s : State) (a : Nat) (b : Option Nat) (line : Nat) :
    memories (s.voidGrants a b line) = memories s := rfl

theorem memories_putUnit {s : State} (h : memories s = true) (u : HomeUnit) (line : Nat) (d : BitVec 1024) (m : BitVec 128)
    (t : Nat) : memories (s.putUnit u line d m t) = true := by
  cases u
  · exact memories_putHbm h line d m t
  · exact h

/-! ### The L1s -/

theorem coreMemories_same {k j : Core} (hs : j.spad = k.spad) (ho : j.opnd = k.opnd) : coreMemories j = coreMemories k := by
  simp [coreMemories, hs, ho]

@[simp] theorem coreMemories_wakeLine (k : Core) (line : Nat) : coreMemories (k.wakeLine line) = coreMemories k := by
  unfold Core.wakeLine
  simp only
  split <;> rfl

@[simp] theorem coreMemories_l1Put (k : Core) (line : Nat) (l : L1Line) : coreMemories (k.l1Put line l) = coreMemories k := rfl

@[simp] theorem coreMemories_l1Inv (k : Core) (line : Nat) : coreMemories (k.l1Inv line) = coreMemories k := by
  unfold Core.l1Inv
  split
  · simp
  · simp

theorem coreMemories_l1Recall {k : Core} {line : Nat} {m : BitVec 16} {write : Bool} {p : Core × L1Line}
    (h : k.l1Recall line m write = some p) : coreMemories p.1 = coreMemories k := by
  unfold Core.l1Recall at h
  split at h
  · cases h
  · split at h
    · cases h
    · cases h; simp

theorem memories_coreRecall {s : State} (h : memories s = true) {c : CoreId} {line : Nat} {m : BitVec 16} {write : Bool}
    {p : State × L1Line} (hp : s.coreRecall c line m write = some p) : memories p.1 = true := by
  unfold State.coreRecall at hp
  obtain ⟨q, hq, rfl⟩ := Option.map_eq_some_iff.mp hp
  exact memories_setCore h (by rw [coreMemories_l1Recall hq]; exact memories_core h c)

/-! ### Recalls and invalidations -/

theorem memories_l1Inv {s : State} (h : memories s = true) (c : CoreId) (line : Nat) :
    memories (s.setCore c ((s.core c).l1Inv line)) = true :=
  memories_setCore h (by rw [coreMemories_l1Inv]; exact memories_core h c)

theorem memories_rdcInv {s : State} (h : memories s = true) (d : DieId) (line : Nat) (but : Option Nat) :
    memories (s.rdcInv d line but).1 = true := by
  simp only [State.rdcInv, memories_voidGrants, memories_setDir]
  exact memories_foldl_pair _ (fun p r hp => memories_l1Inv hp _ line) _ h

theorem memories_rdcRecallOne {s t : State} (h : memories s = true) {d : DieId} {line i : Nat} {m : BitVec 16} {write : Bool}
    (ht : s.rdcRecallOne d line i m write = some t) : memories t = true := by
  simp only [State.rdcRecallOne] at ht
  split at ht
  · cases ht; exact h
  · split at ht
    · cases ht
    · next hr => cases ht; exact memories_coreRecall h hr

theorem memories_rdcRecall {s t : State} (h : memories s = true) {d : DieId} {line : Nat} {m : BitVec 16} {write : Bool}
    (ht : s.rdcRecall d line m write = some t) : memories t = true :=
  memories_foldl_option (fun s i => s.rdcRecallOne d line i m write) (fun _ _ _ hs hu => memories_rdcRecallOne hs hu) _
    (fun u hu => by cases hu; exact h) ht

theorem memories_rdcTakeInv {s : State} (h : memories s = true) (d : DieId) (line : Nat) :
    memories (s.rdcTakeInv d line).1 = true := by
  unfold State.rdcTakeInv
  split
  · exact h
  · exact memories_rdcInv h d line none

theorem memories_rdcTakeRecall {s : State} (h : memories s = true) {d : DieId} {line : Nat} {m : BitVec 16} {write : Bool}
    {p : State × BitVec 1024 × Nat × Nat} (hp : s.rdcTakeRecall d line m write = some p) : memories p.1 = true := by
  simp only [State.rdcTakeRecall] at hp
  split at hp
  · cases hp
  · split at hp
    · cases hp
    · next hr =>
      cases hp
      have hu := memories_rdcRecall h hr
      simp only [memories_mapRdc]
      split
      · exact memories_rdcInv hu d line none
      · exact hu

theorem memories_sliceRecallOne {s t : State} (h : memories s = true) {d : DieId} {line i : Nat} {m : BitVec 16}
    {write : Bool} (ht : s.sliceRecallOne d line i m write = some t) : memories t = true := by
  simp only [State.sliceRecallOne] at ht
  split at ht
  · cases ht; exact h
  · split at ht
    · cases ht
    · next hg =>
      cases ht
      refine memories_putHbm ?_ _ _ _ _
      rw [memories_setDir]
      split at hg
      · obtain ⟨q, hq, he⟩ := Option.map_eq_some_iff.mp hg
        cases he
        exact memories_coreRecall h hq
      · split at hg
        · exact memories_rdcTakeRecall h hg
        · cases hg

theorem memories_sliceRecall {s t : State} (h : memories s = true) {d : DieId} {line : Nat} {m : BitVec 16} {write : Bool}
    (ht : s.sliceRecall d line m write = some t) : memories t = true :=
  memories_foldl_option (fun s i => s.sliceRecallOne d line i m write) (fun _ _ _ hs hu => memories_sliceRecallOne hs hu) _
    (fun u hu => by cases hu; exact h) ht

theorem memories_sliceInv {s t : State} (h : memories s = true) {d : DieId} {line : Nat} (ht : s.sliceInv d line = some t) :
    memories t = true := by
  simp only [State.sliceInv] at ht
  split at ht
  · cases ht; exact h
  · split at ht
    · cases ht
    · cases ht
      simp only [memories_voidGrants, memories_setDir]
      refine memories_foldl_pair _ (fun p r hp => ?_) _ h
      obtain ⟨u, hi⟩ := p
      simp only
      split
      · exact memories_l1Inv hp _ line
      · exact memories_rdcTakeInv hp _ line

/-! ### Reads and writes at the home -/

@[simp] theorem memories_raiseMts (s : State) (d : DieId) (line t : Nat) : memories (s.raiseMts d line t) = memories s := rfl

@[simp] theorem memories_l2Use (s : State) (d : DieId) (line : Nat) : memories (s.l2Use d line) = memories s := rfl

theorem memories_l2Room {s t : State} (h : memories s = true) {d : DieId} {line : Nat} (ht : s.l2Room d line = some t) :
    memories t = true := by
  unfold State.l2Room at ht
  split at ht
  · cases ht; exact h
  · obtain ⟨v, -, hv⟩ := Option.bind_eq_some_iff.mp ht
    obtain ⟨u, hu, rfl⟩ := Option.map_eq_some_iff.mp hv
    obtain ⟨w, hw, hu⟩ := Option.bind_eq_some_iff.mp hu
    have := memories_sliceInv (memories_sliceRecall h hw) hu
    exact this

theorem memories_readAt {s : State} (h : memories s = true) (line t : Nat) : memories (s.readAt line t) = true := by
  unfold State.readAt
  simp only
  split
  · next hu => rw [memories_setDir]; exact memories_l2Room h hu
  · exact h

theorem memories_readyLine {s t : State} (h : memories s = true) {line : Nat} {m : BitVec 16}
    (ht : s.readyLine line m = some t) : memories t = true := by
  simp only [State.readyLine] at ht
  split at ht
  · cases ht
  · obtain ⟨u, hu, hv⟩ := Option.bind_eq_some_iff.mp ht
    exact memories_sliceRecall (memories_l2Room h hu) hv

theorem memories_readHome {s : State} (h : memories s = true) {pa n : Nat} {p : State × List Byte}
    (hp : s.readHome pa n = some p) : memories p.1 = true := by
  unfold State.readHome at hp
  obtain ⟨u, hu, rfl⟩ := Option.map_eq_some_iff.mp hp
  exact memories_foldl_option _ (fun _ _ _ hs hv => memories_readyLine hs hv) _ (fun v hv => by cases hv; exact h) hu

theorem memories_writeNow {s t : State} (h : memories s = true) {line : Nat} {d : BitVec 1024} {m : BitVec 128}
    (ht : s.writeNow line d m = some t) : memories t = true := by
  simp only [State.writeNow] at ht
  split at ht
  · cases ht
  · split at ht
    · cases ht
      exact memories_ringBells (memories_putHbm (by rwa [memories_raiseMts]) _ _ _ _) _ _
    · obtain ⟨u, hu, rfl⟩ := Option.map_eq_some_iff.mp ht
      obtain ⟨v, hv, hu⟩ := Option.bind_eq_some_iff.mp hu
      obtain ⟨w, hw, hv⟩ := Option.bind_eq_some_iff.mp hv
      refine memories_ringBells (memories_putHbm ?_ _ _ _ _) _ _
      rw [memories_setDir]
      exact memories_sliceInv (memories_sliceRecall (memories_l2Room h hw) hv) hu

theorem memories_writeLine {s : State} (h : memories s = true) (line : Nat) (d : BitVec 1024) (m : BitVec 128) :
    memories (s.writeLine line d m) = true := by
  unfold State.writeLine
  split
  · next u hu =>
    split at hu
    · cases hu
    · exact memories_writeNow h hu
  · exact h

theorem memories_writeHome {s : State} (h : memories s = true) (pa : Nat) (bs : List Byte) :
    memories (s.writeHome pa bs) = true :=
  memories_foldl _ (fun _ _ hs => memories_writeLine hs _ _ _) _ h

theorem memories_kernelWrite {s : State} (h : memories s = true) (c : CoreId) (va : Nat) (bs : List Byte) :
    memories (s.kernelWrite c va bs) = true := by
  unfold State.kernelWrite
  exact memories_foldl _ (fun s i hs => memories_writeHome hs _ _) _ h

theorem memories_raiseClk {s : State} (h : memories s = true) (c : CoreId) (t : Nat) : memories (s.raiseClk c t) = true :=
  memories_mapCore h c (fun _ hk => hk)

end Sys2Proof.Laws
end

