-- ==== Sys2Proof/Laws/Operations.lean ====
section
/-! SUPPORT. What each shared operation can do, one lemma an outcome: waiting, completing, S-pipe and V-pipe
instructions, the entry of a trap, and the arguments of device steps. -/

namespace Sys2Proof.Machine

/-! ### Waiting and completing -/

theorem waitFor_eq (s : State) (w : Wait) : waitFor s w = .next (s.mapHere (fun x => { x with wait := w })) := rfl

theorem done_eq (s : State) (n : Nat) : done s n = .next (s.mapHere (·.retire n)) := rfl

theorem stepIf_true (s t : State) : stepIf s true t = .next t := rfl

theorem stepIf_false (s t : State) : stepIf s false t = .next s := rfl

/-! ### S-pipe instructions (R16, R17, R84) -/

/-- Room and entries: all of it takes place. -/
theorem scalarOp_done {len : Nat} {d : Opnd} {ops : List Opnd} {imm : Word} {f : List Word → Word × BitVec 5} {s : State}
    {vs : List Word} {x : Ctx} (hd : s.here.fullQueue d = none) (ht : s.here.take imm ops = some (vs, x)) :
    scalarOp len d ops imm f s =
      .next (s.mapHere (fun _ => ((x.raise (f vs).2).put d (f vs).1).retire len)) := by
  simp [scalarOp, hd, ht]

/-- A full destination queue: it waits to push. -/
theorem scalarOp_full {len : Nat} {d : Opnd} {ops : List Opnd} {imm : Word} {f : List Word → Word × BitVec 5} {s : State}
    {q : Fin 8} (hd : s.here.fullQueue d = some q) : scalarOp len d ops imm f s = waitFor s (.push q) := by
  simp [scalarOp, hd]

/-- An empty source queue: it waits to pop. -/
theorem scalarOp_empty {len : Nat} {d : Opnd} {ops : List Opnd} {imm : Word} {f : List Word → Word × BitVec 5} {s : State}
    (hd : s.here.fullQueue d = none) (ht : s.here.take imm ops = none) :
    scalarOp len d ops imm f s = waitFor s (.pop (popNeeds ops)) := by
  simp [scalarOp, hd, ht]

/-- EVERYTHING an S-pipe instruction can do: it changes its own context alone, and its queues wait or it completes. -/
theorem scalarOp_cases (len : Nat) (d : Opnd) (ops : List Opnd) (imm : Word) (f : List Word → Word × BitVec 5) (s : State) :
    (∃ q, s.here.fullQueue d = some q ∧ scalarOp len d ops imm f s = waitFor s (.push q)) ∨
    (s.here.fullQueue d = none ∧ s.here.take imm ops = none ∧ scalarOp len d ops imm f s = waitFor s (.pop (popNeeds ops))) ∨
    (∃ vs x, s.here.fullQueue d = none ∧ s.here.take imm ops = some (vs, x) ∧
      scalarOp len d ops imm f s = .next (s.mapHere (fun _ => ((x.raise (f vs).2).put d (f vs).1).retire len))) := by
  cases hd : s.here.fullQueue d with
  | some q => exact .inl ⟨q, rfl, scalarOp_full hd⟩
  | none =>
    cases ht : s.here.take imm ops with
    | none => exact .inr (.inl ⟨rfl, rfl, scalarOp_empty hd ht⟩)
    | some p => exact .inr (.inr ⟨p.1, p.2, rfl, rfl, scalarOp_done hd ht⟩)

/-- An S-pipe instruction always goes on. -/
theorem scalarOp_next (len : Nat) (d : Opnd) (ops : List Opnd) (imm : Word) (f : List Word → Word × BitVec 5) (s : State) :
    ∃ g : Ctx → Ctx, scalarOp len d ops imm f s = .next (s.mapHere g) := by
  obtain ⟨q, -, h⟩ | ⟨-, -, h⟩ | ⟨vs, x, -, -, h⟩ := scalarOp_cases len d ops imm f s <;> exact ⟨_, h⟩

theorem withOperands_ready {ops : List Opnd} {imm : Word} {s : State} {g : List Word → State → Result} {vs : List Word}
    {x : Ctx} (h : s.here.take imm ops = some (vs, x)) :
    withOperands ops imm s g = g vs (s.mapHere (fun _ => x)) := by
  simp [withOperands, h]

theorem withOperands_empty {ops : List Opnd} {imm : Word} {s : State} {g : List Word → State → Result}
    (h : s.here.take imm ops = none) : withOperands ops imm s g = waitFor s (.pop (popNeeds ops)) := by
  simp [withOperands, h]

theorem peekOperands_ready {ops : List Opnd} {imm : Word} {s : State} {g : List Word → (State → State) → Result}
    {vs : List Word} {x : Ctx} (h : s.here.take imm ops = some (vs, x)) :
    peekOperands ops imm s g = g vs (fun s => s.mapHere (fun y => { y with queues := x.queues })) := by
  simp [peekOperands, h]

theorem peekOperands_empty {ops : List Opnd} {imm : Word} {s : State} {g : List Word → (State → State) → Result}
    (h : s.here.take imm ops = none) : peekOperands ops imm s g = waitFor s (.pop (popNeeds ops)) := by
  simp [peekOperands, h]

/-! ### V-pipe instructions (R19, R20) -/

/-- A full V queue stalls. -/
theorem vDispatch_full {i : Instr} {len : Nat} {eff : Ctx → Option Ctx} {s : State} (h : 32 ≤ s.here.vq.length) :
    vDispatch i len eff s = waitFor s .vFull := by
  simp [vDispatch, h]

/-- In an empty V pipe with its queues ready it takes place at once. -/
theorem vDispatch_now {i : Instr} {len : Nat} {eff : Ctx → Option Ctx} {s : State} {x : Ctx} (hq : s.here.vq = [])
    (ho : s.here.op = none) (he : eff s.here = some x) : vDispatch i len eff s = .next (s.mapHere (fun _ => x.retire len)) := by
  simp [vDispatch, hq, ho, he]

/-- Otherwise it joins the end of the queue. -/
theorem vDispatch_later {i : Instr} {len : Nat} {eff : Ctx → Option Ctx} {s : State} (h : s.here.vq.length < 32)
    (hn : s.here.vq ≠ [] ∨ s.here.op ≠ none ∨ eff s.here = none) :
    vDispatch i len eff s = .next (s.mapHere (fun x => (x.enqueue ⟨x.pc, i, 0, 0, 0, [], []⟩).retire len)) := by
  unfold vDispatch
  rw [if_neg (by omega)]
  by_cases hb : (s.here.vq.isEmpty && s.here.op.isNone) = true
  · simp only [hb, if_true]
    have hv : s.here.vq = [] := by
      have := (Bool.and_eq_true _ _ ▸ hb).1
      simpa using this
    have ho : s.here.op = none := by
      have := (Bool.and_eq_true _ _ ▸ hb).2
      simpa using this
    rw [show eff s.here = none from (hn.resolve_left (fun e => e hv)).resolve_left (fun e => e ho)]
  · simp only [hb, if_false, Bool.false_eq_true]

/-- EVERYTHING a V-pipe instruction can do when it is issued changes its own context alone. -/
theorem vDispatch_next (i : Instr) (len : Nat) (eff : Ctx → Option Ctx) (s : State) :
    ∃ g : Ctx → Ctx, vDispatch i len eff s = .next (s.mapHere g) := by
  by_cases h : 32 ≤ s.here.vq.length
  · exact ⟨_, vDispatch_full h⟩
  · by_cases hn : s.here.vq ≠ [] ∨ s.here.op ≠ none ∨ eff s.here = none
    · exact ⟨_, vDispatch_later (by omega) hn⟩
    · simp only [not_or, ne_eq, not_not] at hn
      obtain ⟨x, hx⟩ := Option.ne_none_iff_exists'.mp hn.2.2
      exact ⟨_, vDispatch_now hn.1 hn.2.1 hx⟩

/-! ### Garnet and the entry of a trap (R113, R368) -/

/-- A Garnet record changes no core, no cluster and no memory. -/
@[simp] theorem State.garnet_cores (s : State) (n e src c d x : Nat) : (s.garnet n e src c d x).cores = s.cores := by
  unfold State.garnet; split <;> [rfl; (split <;> rfl)]

@[simp] theorem State.garnet_hbm (s : State) (n e src c d x : Nat) : (s.garnet n e src c d x).hbm = s.hbm := by
  unfold State.garnet; split <;> [rfl; (split <;> rfl)]

@[simp] theorem State.garnet_focus (s : State) (n e src c d x : Nat) : (s.garnet n e src c d x).focus = s.focus := by
  unfold State.garnet; split <;> [rfl; (split <;> rfl)]

@[simp] theorem State.garnet_clusters (s : State) (n e src c d x : Nat) : (s.garnet n e src c d x).clusters = s.clusters := by
  unfold State.garnet; split <;> [rfl; (split <;> rfl)]

@[simp] theorem State.garnet_pending (s : State) (n e src c d x : Nat) : (s.garnet n e src c d x).pending = s.pending := by
  unfold State.garnet; split <;> [rfl; (split <;> rfl)]

@[simp] theorem State.garnet_quartz (s : State) (n e src c d x : Nat) : (s.garnet n e src c d x).quartz = s.quartz := by
  unfold State.garnet; split <;> [rfl; (split <;> rfl)]

@[simp] theorem State.garnet_core (s : State) (n e src c d x : Nat) (k : CoreId) : (s.garnet n e src c d x).core k = s.core k := by
  simp [State.core]

@[simp] theorem State.garnet_ctx (s : State) (n e src c d x : Nat) (k : CoreId) (z : CtxId) :
    (s.garnet n e src c d x).ctx k z = s.ctx k z := by
  simp [State.ctx]

/-- A trap with a vector, outside trap code, writes the registers of R113 in its context. -/
theorem State.enterTrap_taken (s : State) (c : CoreId) (x : CtxId) (code : Nat) (value tpc tslot : Word)
    (h : (s.ctx c x).tcause = 0) (hv : (s.ctx c x).tvec ≠ 0) :
    let t := s.enterTrap c x code value tpc tslot
    let y := s.ctx c x
    (t.ctx c x).pc = y.tvec ∧ (t.ctx c x).tcause = word code ∧ (t.ctx c x).tval = value ∧ (t.ctx c x).tpc = addrField tpc ∧
    (t.ctx c x).tslot = tslot ∧ (t.ctx c x).tloops = y.loops ∧ (t.ctx c x).slot = none ∧ (t.ctx c x).regs = y.regs ∧
    (t.ctx c x).queues = y.queues ∧ t.hbm = s.hbm := by
  simp only [State.enterTrap, h, ne_eq, not_true_eq_false, if_false, if_neg hv]
  simp

/-! ### The arguments of device steps -/

theorem withNums_eq {s : State} {a b c : Nat} {f : Nat → Nat → Nat → Result} (h : s.arg = .nums a b c) :
    withNums s f = f a b c := by
  simp [withNums, h]

theorem withMsg_eq {s : State} {m : Msg} {f : CoreId → Msg → Result} (h : s.arg = .msg m) :
    withMsg s f = f (coreOf (bitsOf m.dst 35 25)) m := by
  simp [withMsg, h]

theorem withProto_eq {s : State} {p : Proto} {f : Proto → Result} (h : s.arg = .proto p) : withProto s f = f p := by
  simp [withProto, h]

theorem coreOf_val (c : CoreId) : coreOf c.val = c := Fin.ext (Nat.mod_eq_of_lt c.isLt)

theorem ctxOf_val (x : CtxId) : ctxOf x.val = x := Fin.ext (Nat.mod_eq_of_lt x.isLt)

theorem slotOf_val (n : SlotId) : slotOf n.val = n := Fin.ext (Nat.mod_eq_of_lt n.isLt)

theorem dieNum_val (d : DieId) : dieNum d.val = d := Fin.ext (Nat.mod_eq_of_lt d.isLt)

theorem withCore_eq {s : State} {c : CoreId} {a b : Nat} {f : CoreId → Result} (h : s.arg = .nums c.val a b) :
    withCore s f = f c := by
  rw [withCore, withNums_eq h, coreOf_val]

theorem withCtx_eq {s : State} {c : CoreId} {x : CtxId} {b : Nat} {f : CoreId → CtxId → Result}
    (h : s.arg = .nums c.val x.val b) : withCtx s f = f c x := by
  rw [withCtx, withNums_eq h, coreOf_val, ctxOf_val]

end Sys2Proof.Machine
end

