-- ==== Sys2Proof/Laws/Writes.lean ====
section
/-! SUPPORT. What the kernel's writes at the homes leave alone: the entries of the reporting port, the actor slots and the
contexts. -/

namespace Sys2Proof.Laws

open Sys2Proof.Machine

/-- A core's slots, and its contexts but for what a WAITA watches, have not changed. -/
def SameSlots (k j : Core) : Prop := j.slots = k.slots ∧ ∀ x : CtxId, ∃ w, j.ctxs[x] = { k.ctxs[x] with watch := w }

theorem SameSlots.refl (k : Core) : SameSlots k k := ⟨rfl, fun x => ⟨k.ctxs[x].watch, rfl⟩⟩

theorem SameSlots.trans {k j i : Core} (h : SameSlots k j) (g : SameSlots j i) : SameSlots k i := by
  refine ⟨g.1.trans h.1, fun x => ?_⟩
  obtain ⟨v, hv⟩ := h.2 x
  obtain ⟨w, hw⟩ := g.2 x
  exact ⟨w, by rw [hw, hv]⟩

/-- No entry of the port, no actor slot and no context, but for what a WAITA watches, has changed. -/
def Kept (s t : State) : Prop := t.ringWaits = s.ringWaits ∧ ∀ c, SameSlots (s.core c) (t.core c)

namespace Kept

theorem refl (s : State) : Kept s s := ⟨rfl, fun _ => SameSlots.refl _⟩

theorem trans {s t u : State} (h : Kept s t) (k : Kept t u) : Kept s u :=
  ⟨k.1.trans h.1, fun c => (h.2 c).trans (k.2 c)⟩

/-- Whatever keeps the port's entries, the cores and the time. -/
theorem same {s t u : State} (h : Kept s t) (hr : u.ringWaits = t.ringWaits) (hc : u.cores = t.cores)
    (hq : u.quartz = t.quartz) : Kept s u :=
  h.trans ⟨hr, fun c => by rw [show u.core c = t.core c by simp only [State.core, hc, hq]]; exact SameSlots.refl _⟩

theorem setCore {s t : State} (h : Kept s t) {c : CoreId} {k : Core} (hk : SameSlots (t.core c) k) :
    Kept s (t.setCore c k) := by
  refine h.trans ⟨rfl, fun a => ?_⟩
  by_cases ha : a = c
  · subst ha; rw [State.core_setCore_self]; exact hk
  · rw [State.core_setCore_ne _ _ ha]; exact SameSlots.refl _

theorem foldl {α : Type} {s t : State} (f : State → α → State) (hf : ∀ u a, Kept s u → Kept s (f u a)) (l : List α)
    (h : Kept s t) : Kept s (l.foldl f t) := by
  induction l generalizing t with
  | nil => exact h
  | cons a r ih => exact ih (hf t a h)

theorem foldl_pair {α β : Type} {s : State} (f : State × β → α → State × β) (hf : ∀ p a, Kept s p.1 → Kept s (f p a).1)
    (l : List α) {p : State × β} (h : Kept s p.1) : Kept s (l.foldl f p).1 := by
  induction l generalizing p with
  | nil => exact h
  | cons a r ih => exact ih (hf p a h)

theorem foldl_option {α : Type} {s : State} (f : State → α → Option State)
    (hf : ∀ u a v, Kept s u → f u a = some v → Kept s v) (l : List α) {o : Option State}
    (h : ∀ u, o = some u → Kept s u) {t : State} (ht : l.foldl (fun o a => o.bind (fun s => f s a)) o = some t) :
    Kept s t := by
  induction l generalizing o with
  | nil => exact h t ht
  | cons a r ih =>
    refine ih (fun v hv => ?_) ht
    obtain ⟨u, hu, hv⟩ := Option.bind_eq_some_iff.mp hv
    exact hf u a v (h u hu) hv

end Kept

/-! ### One line -/

theorem sameSlots_wakeLine (k : Core) (line : Nat) : SameSlots k (k.wakeLine line) := by
  unfold Core.wakeLine
  simp only
  split
  · refine ⟨rfl, fun x => ?_⟩
    simp only [Fin.getElem_fin, Vector.getElem_map]
    split
    · exact ⟨none, rfl⟩
    · exact ⟨_, rfl⟩
  · exact SameSlots.refl k

theorem sameSlots_l1Put (k : Core) (line : Nat) (l : L1Line) : SameSlots k (k.l1Put line l) :=
  ⟨rfl, (SameSlots.refl k).2⟩

theorem sameSlots_l1Inv (k : Core) (line : Nat) : SameSlots k (k.l1Inv line) := by
  unfold Core.l1Inv
  split
  · exact sameSlots_wakeLine k line
  · exact (sameSlots_l1Put k line _).trans (sameSlots_wakeLine _ line)

theorem kept_setDir {s t : State} (h : Kept s t) (u : HomeUnit) (line : Nat) (e : DirLine) : Kept s (t.setDir u line e) := by
  cases u <;> exact h.same rfl rfl rfl

theorem kept_putHbm {s t : State} (h : Kept s t) (line : Nat) (d : BitVec 1024) (m : BitVec 128) (n : Nat) :
    Kept s (t.putHbm line d m n) := h.same rfl rfl rfl

theorem kept_ringBells {s t : State} (h : Kept s t) (line : Nat) (m : BitVec 128) : Kept s (t.ringBells line m) := by
  unfold State.ringBells
  simp only
  split
  · exact h.same rfl rfl rfl
  · exact h

theorem kept_coreRecall {s t : State} (h : Kept s t) {c : CoreId} {line : Nat} {m : BitVec 16} {write : Bool}
    {p : State × L1Line} (hp : t.coreRecall c line m write = some p) : Kept s p.1 := by
  unfold State.coreRecall at hp
  obtain ⟨q, hq, rfl⟩ := Option.map_eq_some_iff.mp hp
  refine h.setCore ?_
  unfold Core.l1Recall at hq
  split at hq
  · cases hq
  · split at hq
    · cases hq
    · cases hq; exact (sameSlots_l1Put _ line _).trans (sameSlots_wakeLine _ line)

theorem kept_l1Inv {s t : State} (h : Kept s t) (c : CoreId) (line : Nat) :
    Kept s (t.setCore c ((t.core c).l1Inv line)) := h.setCore (sameSlots_l1Inv _ line)

theorem kept_rdcInv {s t : State} (h : Kept s t) (d : DieId) (line : Nat) (but : Option Nat) :
    Kept s (t.rdcInv d line but).1 :=
  (kept_setDir (Kept.foldl_pair _ (fun _ _ hp => kept_l1Inv hp _ line) _ h) _ _ _).same rfl rfl rfl

theorem kept_rdcRecallOne {s t v : State} (h : Kept s t) {d : DieId} {line i : Nat} {m : BitVec 16} {write : Bool}
    (hv : t.rdcRecallOne d line i m write = some v) : Kept s v := by
  simp only [State.rdcRecallOne] at hv
  split at hv
  · cases hv; exact h
  · split at hv
    · cases hv
    · next hr => cases hv; exact (kept_coreRecall h hr).same rfl rfl rfl

theorem kept_rdcRecall {s t v : State} (h : Kept s t) {d : DieId} {line : Nat} {m : BitVec 16} {write : Bool}
    (hv : t.rdcRecall d line m write = some v) : Kept s v :=
  Kept.foldl_option (fun s i => s.rdcRecallOne d line i m write) (fun _ _ _ hs hu => kept_rdcRecallOne hs hu) _
    (fun u hu => by cases hu; exact h) hv

theorem kept_rdcTakeInv {s t : State} (h : Kept s t) (d : DieId) (line : Nat) : Kept s (t.rdcTakeInv d line).1 := by
  unfold State.rdcTakeInv
  split
  · exact h
  · exact (kept_rdcInv h d line none).same rfl rfl rfl

theorem kept_rdcTakeRecall {s t : State} (h : Kept s t) {d : DieId} {line : Nat} {m : BitVec 16} {write : Bool}
    {p : State × BitVec 1024 × Nat × Nat} (hp : t.rdcTakeRecall d line m write = some p) : Kept s p.1 := by
  simp only [State.rdcTakeRecall] at hp
  split at hp
  · cases hp
  · split at hp
    · cases hp
    · next hr =>
      cases hp
      have hu := kept_rdcRecall h hr
      split
      · exact (kept_rdcInv hu d line none).same rfl rfl rfl
      · exact hu.same rfl rfl rfl

theorem kept_sliceRecallOne {s t v : State} (h : Kept s t) {d : DieId} {line i : Nat} {m : BitVec 16} {write : Bool}
    (hv : t.sliceRecallOne d line i m write = some v) : Kept s v := by
  simp only [State.sliceRecallOne] at hv
  split at hv
  · cases hv; exact h
  · split at hv
    · cases hv
    · next hg =>
      cases hv
      refine (kept_setDir ?_ _ _ _).same rfl rfl rfl
      split at hg
      · obtain ⟨q, hq, he⟩ := Option.map_eq_some_iff.mp hg
        cases he
        exact kept_coreRecall h hq
      · split at hg
        · exact kept_rdcTakeRecall h hg
        · cases hg

theorem kept_sliceRecall {s t v : State} (h : Kept s t) {d : DieId} {line : Nat} {m : BitVec 16} {write : Bool}
    (hv : t.sliceRecall d line m write = some v) : Kept s v :=
  Kept.foldl_option (fun s i => s.sliceRecallOne d line i m write) (fun _ _ _ hs hu => kept_sliceRecallOne hs hu) _
    (fun u hu => by cases hu; exact h) hv

theorem kept_sliceInv {s t v : State} (h : Kept s t) {d : DieId} {line : Nat} (hv : t.sliceInv d line = some v) :
    Kept s v := by
  simp only [State.sliceInv] at hv
  split at hv
  · cases hv; exact h
  · split at hv
    · cases hv
    · cases hv
      refine (kept_setDir (Kept.foldl_pair _ (fun p r hp => ?_) _ h) _ _ _).same rfl rfl rfl
      obtain ⟨u, hi⟩ := p
      simp only
      split
      · exact kept_l1Inv hp _ line
      · exact kept_rdcTakeInv hp _ line

theorem kept_l2Room {s t v : State} (h : Kept s t) {d : DieId} {line : Nat} (hv : t.l2Room d line = some v) : Kept s v := by
  unfold State.l2Room at hv
  split at hv
  · cases hv; exact h.same rfl rfl rfl
  · obtain ⟨l, -, hl⟩ := Option.bind_eq_some_iff.mp hv
    obtain ⟨u, hu, rfl⟩ := Option.map_eq_some_iff.mp hl
    obtain ⟨w, hw, hu⟩ := Option.bind_eq_some_iff.mp hu
    exact (kept_sliceInv (kept_sliceRecall h hw) hu).same rfl rfl rfl

/-! ### Writes -/

theorem kept_writeNow {s t v : State} (h : Kept s t) {line : Nat} {d : BitVec 1024} {m : BitVec 128}
    (hv : t.writeNow line d m = some v) : Kept s v := by
  simp only [State.writeNow] at hv
  split at hv
  · cases hv
  · split at hv
    · cases hv
      exact kept_ringBells (kept_putHbm (h.same (u := t.raiseMts _ _ _) rfl rfl rfl) _ _ _ _) _ _
    · obtain ⟨u, hu, rfl⟩ := Option.map_eq_some_iff.mp hv
      obtain ⟨x, hx, hu⟩ := Option.bind_eq_some_iff.mp hu
      obtain ⟨w, hw, hx⟩ := Option.bind_eq_some_iff.mp hx
      exact kept_ringBells
        (kept_putHbm (kept_setDir (kept_sliceInv (kept_sliceRecall (kept_l2Room h hw) hx) hu) _ _ _) _ _ _ _) _ _

theorem kept_writeLine {s t : State} (h : Kept s t) (line : Nat) (d : BitVec 1024) (m : BitVec 128) :
    Kept s (t.writeLine line d m) := by
  unfold State.writeLine
  split
  · next u hu =>
    split at hu
    · cases hu
    · exact kept_writeNow h hu
  · exact h.same rfl rfl rfl

/-- A write of the kernel changes no entry of the reporting port, no actor slot, and no context but for what a WAITA
watches. -/
theorem kept_kernelWrite (s : State) (c : CoreId) (va : Nat) (bs : List Byte) : Kept s (s.kernelWrite c va bs) := by
  unfold State.kernelWrite
  exact Kept.foldl _ (fun _ _ hu => Kept.foldl _ (fun _ _ hv => kept_writeLine hv _ _ _) _ hu) _ (Kept.refl s)

end Sys2Proof.Laws
end

