-- ==== Sys2Proof/Tests/Slice0.lean ====
section
/-! SUPPORT. Tests: decoding from words written out by the spec's encoding tables, an ill-formed term for each static
check, single steps with results taken from the spec, and a witness for the hypotheses of each statement. -/

namespace Sys2Proof.Tests

-- one proof after another: the threads' stacks fit the check's memory
set_option Elab.async false

open Sys2Proof Sys2Proof.Machine Sys2Proof.Claims

/-! ### Decoding -/

/-- A format A instruction with no modifier: its operands and its type. -/
def fi (d a b c : Opnd) (t : Ty) (imm : Imm) : FmtA :=
  { d, a, b, c, ma := ⟨false, false⟩, mb := ⟨false, false⟩, mc := ⟨false, false⟩, clamp := .none, dscale := 0, k := 0,
    z := false, t, imm }
def fa (d a b c : Opnd) (t : Ty) : FmtA := fi d a b c t .none
def fm (d a b c : Opnd) (t : Ty) (k : Fin 8) (z : Bool) : FmtA := { fa d a b c t with k, z }

/-- A format M instruction: D = s6, BASE = s7, one byte, no index. -/
def mr : FmtM :=
  { d := 6, base := 7, idx := none, pol := .own, ord := .none, sys := false, sz := .s1, k := 0, z := false, am := .base,
    off := .off16 0 }

/-- The words decode to the instruction and its length. -/
def decodesTo (l : List (List (BitVec 32) × Instr × Nat)) : Bool :=
  l.all (fun p => match decode p.1 with
    | .ok r => r == (p.2.1, p.2.2)
    | .error _ => false)

/-- OP 0x01, FN 0 to 16: D = s5, A = s6, B = s7, T = i32 (R50, R85). -/
theorem test_decode_ialu : decodesTo [
    ([0x01C61404, 0x00080000], .add (fa (.r 5) (.r 6) (.r 7) (.r 0) .i32), 8),
    ([0x01C61404, 0x00480000], .sub (fa (.r 5) (.r 6) (.r 7) (.r 0) .i32), 8),
    ([0x01C61404, 0x00880000], .and (fa (.r 5) (.r 6) (.r 7) (.r 0) .i32), 8),
    ([0x01C61404, 0x00C80000], .or (fa (.r 5) (.r 6) (.r 7) (.r 0) .i32), 8),
    ([0x01C61404, 0x01080000], .xor (fa (.r 5) (.r 6) (.r 7) (.r 0) .i32), 8),
    ([0x01C61404, 0x01480000], .andn (fa (.r 5) (.r 6) (.r 7) (.r 0) .i32), 8),
    ([0x01C61404, 0x01880000], .orn (fa (.r 5) (.r 6) (.r 7) (.r 0) .i32), 8),
    ([0x01C61404, 0x01C80000], .shl (fa (.r 5) (.r 6) (.r 7) (.r 0) .i32), 8),
    ([0x01C61404, 0x02080000], .shr (fa (.r 5) (.r 6) (.r 7) (.r 0) .i32), 8),
    ([0x01C61404, 0x02480000], .sar (fa (.r 5) (.r 6) (.r 7) (.r 0) .i32), 8),
    ([0x01C61404, 0x02880000], .rol (fa (.r 5) (.r 6) (.r 7) (.r 0) .i32), 8),
    ([0x01C61404, 0x02C80000], .ror (fa (.r 5) (.r 6) (.r 7) (.r 0) .i32), 8),
    ([0x01C61404, 0x03080000], .min (fa (.r 5) (.r 6) (.r 7) (.r 0) .i32), 8),
    ([0x01C61404, 0x03480000], .max (fa (.r 5) (.r 6) (.r 7) (.r 0) .i32), 8),
    ([0x01C61404, 0x03880000], .slt (fa (.r 5) (.r 6) (.r 7) (.r 0) .i32), 8),
    ([0x01C61404, 0x03C80000], .seq (fa (.r 5) (.r 6) (.r 7) (.r 0) .i32), 8),
    ([0x01C61404, 0x04080000], .sne (fa (.r 5) (.r 6) (.r 7) (.r 0) .i32), 8)] = true := by decide

/-- OP 0x01, FN 17 to 23: D = q1, A = q6, T = n16. -/
theorem test_decode_ialu_unary : decodesTo [
    ([0x00268404, 0x04540000], .clz (fa (.q 1) (.q 6) (.r 0) (.r 0) .n16), 8),
    ([0x00268404, 0x04940000], .ctz (fa (.q 1) (.q 6) (.r 0) (.r 0) .n16), 8),
    ([0x00268404, 0x04D40000], .popc (fa (.q 1) (.q 6) (.r 0) (.r 0) .n16), 8),
    ([0x00268404, 0x05140000], .brev (fa (.q 1) (.q 6) (.r 0) (.r 0) .n16), 8),
    ([0x00268404, 0x05540000], .bswap (fa (.q 1) (.q 6) (.r 0) (.r 0) .n16), 8),
    ([0x00268404, 0x05940000], .sext (fa (.q 1) (.q 6) (.r 0) (.r 0) .n16), 8),
    ([0x00268404, 0x05D40000], .zext (fa (.q 1) (.q 6) (.r 0) (.r 0) .n16), 8)] = true := by decide

/-- OP 0x02 and 0x04: MADD has a third source, SEL tests C. -/
theorem test_decode_imul : decodesTo [
    ([0x01C61408, 0x000C0000], .mul (fa (.r 5) (.r 6) (.r 7) (.r 0) .i64), 8),
    ([0x01C61408, 0x004C0000], .mulh (fa (.r 5) (.r 6) (.r 7) (.r 0) .i64), 8),
    ([0x01C61408, 0x008C0000], .div (fa (.r 5) (.r 6) (.r 7) (.r 0) .i64), 8),
    ([0x01C61408, 0x00CC0000], .rem (fa (.r 5) (.r 6) (.r 7) (.r 0) .i64), 8),
    ([0x91C61408, 0x01180000], .madd (fa (.r 5) (.r 6) (.r 7) (.r 9) .n32), 8),
    ([0x91C61410, 0x00000000], .sel (fa (.r 5) (.r 6) (.r 7) (.r 9) .i8), 8)] = true := by decide

/-- OP 0x03, 0x05 and 0x06: EXT and INS of 8 bits at bit 3, MOVI of both lengths, LEA of −4. -/
theorem test_decode_bitf : decodesTo [
    ([0x0006140D, 0x000C0000, 0x00000803], .ext (fi (.r 5) (.r 6) (.r 0) (.r 0) .i64 (.w32 0x803)), 12),
    ([0x0006140D, 0x005C0000, 0x00000803], .ins (fi (.r 5) (.r 6) (.r 0) (.r 0) .n64 (.w32 0x803)), 12),
    ([0x00001415, 0x00000000, 0x80000001], .movi (.r 5) (.w32 0x80000001), 12),
    ([0x00008816, 0x00000000, 0x89ABCDEF, 0x01234567], .movi (.q 2) (.w64 0x0123456789ABCDEF), 16),
    ([0x00001419, 0x00000000, 0xFFFFFFFC], .lea (.r 5) 0xFFFFFFFC, 12)] = true := by decide

/-- OP 0x10 and 0x11, T = f64; FFMA with −A, |B|, sat11 and DSCALE −3. -/
theorem test_decode_falu : decodesTo [
    ([0x01C61440, 0x002C0000], .fadd (fa (.r 5) (.r 6) (.r 7) (.r 0) .f64), 8),
    ([0x01C61440, 0x006C0000], .fsub (fa (.r 5) (.r 6) (.r 7) (.r 0) .f64), 8),
    ([0x01C61440, 0x00AC0000], .fmul (fa (.r 5) (.r 6) (.r 7) (.r 0) .f64), 8),
    ([0x01C61440, 0x00EC0000], .fdiv (fa (.r 5) (.r 6) (.r 7) (.r 0) .f64), 8),
    ([0x00061440, 0x012C0000], .fsqrt (fa (.r 5) (.r 6) (.r 0) (.r 0) .f64), 8),
    ([0x01C61440, 0x016C0000], .fmin (fa (.r 5) (.r 6) (.r 7) (.r 0) .f64), 8),
    ([0x01C61440, 0x01AC0000], .fmax (fa (.r 5) (.r 6) (.r 7) (.r 0) .f64), 8),
    ([0x91C61444, 0x00283724], .ffma { fa (.r 5) (.r 6) (.r 7) (.r 9) .f32 with ma := ⟨true, false⟩, mb := ⟨false, true⟩, clamp := .sat11, dscale := 13 }, 8)] = true := by decide

/-- OP 0x12, 0x13 and 0x14: FCVT from f32 (10) by RU (3) to i32. -/
theorem test_decode_fcmp : decodesTo [
    ([0x01C61448, 0x00280000], .fcmpEq (fa (.r 5) (.r 6) (.r 7) (.r 0) .f32), 8),
    ([0x01C61448, 0x00680000], .fcmpLt (fa (.r 5) (.r 6) (.r 7) (.r 0) .f32), 8),
    ([0x01C61448, 0x00A80000], .fcmpLe (fa (.r 5) (.r 6) (.r 7) (.r 0) .f32), 8),
    ([0x01C61448, 0x00E80000], .fcmpUn (fa (.r 5) (.r 6) (.r 7) (.r 0) .f32), 8),
    ([0x0006144C, 0x0AC80000], .fcvt .f32 .ru (fa (.r 5) (.r 6) (.r 0) (.r 0) .i32), 8),
    ([0x00061450, 0x00300000], .fclass (fa (.r 5) (.r 6) (.r 0) (.r 0) .m8), 8)] = true := by decide

/-- OP 0x20, 0x21, 0x22 and 0x26: every condition of R48; offsets of −2 and 3 words. -/
theorem test_decode_branches : decodesTo [
    ([0x00000080, 0xFFFFFFFE], .b .always 0 0 0xFFFFFFFE, 8),
    ([0x11C60080, 0xFFFFFFFE], .b .eq 6 7 0xFFFFFFFE, 8),
    ([0x21C60080, 0xFFFFFFFE], .b .ne 6 7 0xFFFFFFFE, 8),
    ([0x31C60080, 0xFFFFFFFE], .b .lt 6 7 0xFFFFFFFE, 8),
    ([0x41C60080, 0xFFFFFFFE], .b .ge 6 7 0xFFFFFFFE, 8),
    ([0x51C60080, 0xFFFFFFFE], .b .ltn 6 7 0xFFFFFFFE, 8),
    ([0x61C60080, 0xFFFFFFFE], .b .gen 6 7 0xFFFFFFFE, 8),
    ([0x70060080, 0xFFFFFFFE], .b .z 6 0 0xFFFFFFFE, 8),
    ([0x80060080, 0xFFFFFFFE], .b .nz 6 0 0xFFFFFFFE, 8),
    ([0x91C60080, 0xFFFFFFFE], .b .bit 6 7 0xFFFFFFFE, 8),
    ([0x00067C84, 0x00000003], .br 31 6 3, 8),
    ([0x00007C88, 0x00000003], .call 3, 8),
    ([0x61E50098, 0x00000003], .bq .gen 5 7 3, 8)] = true := by decide

/-- OP 0x24 and 0x25: LOOP from IMM16, a register and a queue; LBRK. -/
theorem test_decode_loops : decodesTo [
    ([0x003F0491, 0x00000024, 0x00000004], .loop 1 (.imm16 9) 4, 12),
    ([0x00060091, 0x00000000, 0x00000004], .loop 0 (.reg 6) 4, 12),
    ([0x00240091, 0x00000000, 0x00000004], .loop 0 (.queue 4) 4, 12),
    ([0x00000494, 0x00000000], .lbrk 1, 8)] = true := by decide

/-- OP 0x30 to 0x32, 0x36 to 0x38: D = s6, BASE = s7; LD of 2 bytes scaled by s9 with acquire, ST.track of 16 bytes with release and system scope. -/
theorem test_decode_loads : decodesTo [
    ([0x624718C0, 0x03FFF102], .ldSignExtending { mr with idx := some 9, pol := .lease, ord := .acq, sz := .s2, am := .scaled, off := .off16 0xFFFC }, 8),
    ([0x0FC718C1, 0x04000004, 0x12345678], .ldZeroExtending { mr with sz := .s4, off := .off32 0x12345678 }, 12),
    ([0xBFC718C4, 0x00000009], .st { mr with pol := .track, ord := .rel, sys := true, sz := .s16 }, 8),
    ([0x1FC718C8, 0x00000006], .stf { mr with pol := .thru, sz := .s8 }, 8),
    ([0x2FC700D8, 0x00000000], .pref { mr with d := 0, pol := .lease }, 8),
    ([0x0FC718DC, 0x00000000], .lpin mr, 8),
    ([0x0FC718DC, 0x04000000], .unpin mr, 8),
    ([0x4FC718E0, 0x00000006], .waita { mr with sz := .s8, ord := .acq }, 8)] = true := by decide

/-- OP 0x33, FN 0 to 10, POL .thru; acquire-release at 4 bytes. -/
theorem test_decode_amo : decodesTo [
    ([0xDFC718CC, 0x00000004], .amoAdd { mr with pol := .thru, ord := .ar, sz := .s4 }, 8),
    ([0xDFC718CC, 0x04000004], .amoAnd { mr with pol := .thru, ord := .ar, sz := .s4 }, 8),
    ([0xDFC718CC, 0x08000004], .amoOr { mr with pol := .thru, ord := .ar, sz := .s4 }, 8),
    ([0xDFC718CC, 0x0C000004], .amoXor { mr with pol := .thru, ord := .ar, sz := .s4 }, 8),
    ([0xDFC718CC, 0x10000004], .amoMin { mr with pol := .thru, ord := .ar, sz := .s4 }, 8),
    ([0xDFC718CC, 0x14000004], .amoMax { mr with pol := .thru, ord := .ar, sz := .s4 }, 8),
    ([0xDFC718CC, 0x18000004], .amoMinn { mr with pol := .thru, ord := .ar, sz := .s4 }, 8),
    ([0xDFC718CC, 0x1C000004], .amoMaxn { mr with pol := .thru, ord := .ar, sz := .s4 }, 8),
    ([0xDFC718CC, 0x20000004], .amoSwap { mr with pol := .thru, ord := .ar, sz := .s4 }, 8),
    ([0xDFC718CC, 0x24000004], .amoCas { mr with pol := .thru, ord := .ar, sz := .s4 }, 8),
    ([0xDFC718CC, 0x28000004], .amoFadd32 { mr with pol := .thru, ord := .ar, sz := .s4 }, 8)] = true := by decide

/-- OP 0x34 and 0x35: XFENCE from the copy class (bit 1) for the matrix class (bit 2). -/
theorem test_decode_fences : decodesTo [
    ([0x000000D0, 0x00000000], .fenceSys, 8),
    ([0x010200D4, 0x00000000], .xfence 2 4, 8)] = true := by decide

/-- OP 0x40 and 0x41: masked by k3 with zeroing, T = i16. -/
theorem test_decode_vint : decodesTo [
    ([0x01C61500, 0x0006C000], .vadd (fm (.r 5) (.r 6) (.r 7) (.r 0) .i16 3 true), 8),
    ([0x01C61500, 0x0046C000], .vsub (fm (.r 5) (.r 6) (.r 7) (.r 0) .i16 3 true), 8),
    ([0x01C61500, 0x0086C000], .vand (fm (.r 5) (.r 6) (.r 7) (.r 0) .i16 3 true), 8),
    ([0x01C61500, 0x00C6C000], .vor (fm (.r 5) (.r 6) (.r 7) (.r 0) .i16 3 true), 8),
    ([0x01C61500, 0x0106C000], .vxor (fm (.r 5) (.r 6) (.r 7) (.r 0) .i16 3 true), 8),
    ([0x01C61500, 0x0146C000], .vshl (fm (.r 5) (.r 6) (.r 7) (.r 0) .i16 3 true), 8),
    ([0x01C61500, 0x0186C000], .vshr (fm (.r 5) (.r 6) (.r 7) (.r 0) .i16 3 true), 8),
    ([0x01C61500, 0x01C6C000], .vsar (fm (.r 5) (.r 6) (.r 7) (.r 0) .i16 3 true), 8),
    ([0x01C61500, 0x0206C000], .vmin (fm (.r 5) (.r 6) (.r 7) (.r 0) .i16 3 true), 8),
    ([0x01C61500, 0x0246C000], .vmax (fm (.r 5) (.r 6) (.r 7) (.r 0) .i16 3 true), 8),
    ([0x01C61500, 0x0286C000], .vabsd (fm (.r 5) (.r 6) (.r 7) (.r 0) .i16 3 true), 8),
    ([0x01C61504, 0x0006C000], .vmul (fm (.r 5) (.r 6) (.r 7) (.r 0) .i16 3 true), 8),
    ([0x01C61504, 0x0046C000], .vmulh (fm (.r 5) (.r 6) (.r 7) (.r 0) .i16 3 true), 8),
    ([0x91C61504, 0x00840000], .vmadd (fa (.r 5) (.r 6) (.r 7) (.r 9) .i16), 8),
    ([0x91C61504, 0x00D00000], .vdot4 (fa (.r 5) (.r 6) (.r 7) (.r 9) .n8), 8)] = true := by decide

/-- OP 0x42 to 0x44 and 0x48, T = bf16, merged under k2. -/
theorem test_decode_vfloat : decodesTo [
    ([0x01C61508, 0x00248000], .vfadd (fm (.r 5) (.r 6) (.r 7) (.r 0) .bf16 2 false), 8),
    ([0x01C61508, 0x00648000], .vfsub (fm (.r 5) (.r 6) (.r 7) (.r 0) .bf16 2 false), 8),
    ([0x01C61508, 0x00A48000], .vfmul (fm (.r 5) (.r 6) (.r 7) (.r 0) .bf16 2 false), 8),
    ([0x01C61508, 0x00E48000], .vfmin (fm (.r 5) (.r 6) (.r 7) (.r 0) .bf16 2 false), 8),
    ([0x01C61508, 0x01248000], .vfmax (fm (.r 5) (.r 6) (.r 7) (.r 0) .bf16 2 false), 8),
    ([0x91C6150C, 0x00240000], .vffma (fa (.r 5) (.r 6) (.r 7) (.r 9) .bf16), 8),
    ([0x00061510, 0x00240000], .vrcp (fa (.r 5) (.r 6) (.r 0) (.r 0) .bf16), 8),
    ([0x00061510, 0x00640000], .vrsq (fa (.r 5) (.r 6) (.r 0) (.r 0) .bf16), 8),
    ([0x00061510, 0x00A40000], .vexp2 (fa (.r 5) (.r 6) (.r 0) (.r 0) .bf16), 8),
    ([0x00061510, 0x00E40000], .vlog2 (fa (.r 5) (.r 6) (.r 0) (.r 0) .bf16), 8),
    ([0x00061510, 0x01240000], .vtanh (fa (.r 5) (.r 6) (.r 0) (.r 0) .bf16), 8),
    ([0x01C61510, 0x01640000], .vdiv (fa (.r 5) (.r 6) (.r 7) (.r 0) .bf16), 8),
    ([0x00061510, 0x01A40000], .vsqrt (fa (.r 5) (.r 6) (.r 0) (.r 0) .bf16), 8),
    ([0x21C61520, 0x00240002], .vscac (fa (.r 5) (.r 6) (.r 7) (.q 2) .bf16), 8)] = true := by decide

/-- OP 0x45 to 0x47: D = k2; VSEL by k4; VCVT of i16 to f32 by RZ (FN 26), to packed e4m3 and from packed e2m1. -/
theorem test_decode_vcmp : decodesTo [
    ([0x01C60914, 0x00200000], .vcmpEq (fa (.r 2) (.r 6) (.r 7) (.r 0) .f16), 8),
    ([0x01C60914, 0x00600000], .vcmpNe (fa (.r 2) (.r 6) (.r 7) (.r 0) .f16), 8),
    ([0x01C60914, 0x00A00000], .vcmpLt (fa (.r 2) (.r 6) (.r 7) (.r 0) .f16), 8),
    ([0x01C60914, 0x00E00000], .vcmpLe (fa (.r 2) (.r 6) (.r 7) (.r 0) .f16), 8),
    ([0x01C60914, 0x01200000], .vcmpGt (fa (.r 2) (.r 6) (.r 7) (.r 0) .f16), 8),
    ([0x01C60914, 0x01600000], .vcmpGe (fa (.r 2) (.r 6) (.r 7) (.r 0) .f16), 8),
    ([0x01C60914, 0x01A00000], .vcmpUn (fa (.r 2) (.r 6) (.r 7) (.r 0) .f16), 8),
    ([0x41C61518, 0x00040000], .vsel (fa (.r 5) (.r 6) (.r 7) (.r 4) .i16), 8),
    ([0x0006151C, 0x06840000], .vcvt (.toPlain .f32 .rz) (fa (.r 5) (.r 6) (.r 0) (.r 0) .i16), 8),
    ([0x0006151C, 0x03680000], .vcvt (.toPacked .e4m3) (fa (.r 5) (.r 6) (.r 0) (.r 0) .f32), 8),
    ([0x0006151C, 0x0FA80000], .vcvt (.fromPacked .e2m1) (fa (.r 5) (.r 6) (.r 0) (.r 0) .f32), 8)] = true := by decide

/-- OP 0x49: D = q6, T = n32. -/
theorem test_decode_vred : decodesTo [
    ([0x00069924, 0x00180000], .vredSum (fa (.q 6) (.r 6) (.r 0) (.r 0) .n32), 8),
    ([0x00069924, 0x00580000], .vredMax (fa (.q 6) (.r 6) (.r 0) (.r 0) .n32), 8),
    ([0x00069924, 0x00980000], .vredMin (fa (.q 6) (.r 6) (.r 0) (.r 0) .n32), 8),
    ([0x00069924, 0x00D80000], .vredAnd (fa (.q 6) (.r 6) (.r 0) (.r 0) .n32), 8),
    ([0x00069924, 0x01180000], .vredOr (fa (.q 6) (.r 6) (.r 0) (.r 0) .n32), 8)] = true := by decide

/-- OP 0x4A to 0x4E: control operands from q1; VLANE.EXT pushes q4. -/
theorem test_decode_vshuf : decodesTo [
    ([0x01C61528, 0x00040000], .vperm (fa (.r 5) (.r 6) (.r 7) (.r 0) .i16), 8),
    ([0x0846152C, 0x00040000], .vshufRot (fa (.r 5) (.r 6) (.q 1) (.r 0) .i16), 8),
    ([0x11C6152C, 0x00440002], .vshufSlup (fa (.r 5) (.r 6) (.r 7) (.q 1) .i16), 8),
    ([0x11C6152C, 0x00840002], .vshufSldn (fa (.r 5) (.r 6) (.r 7) (.q 1) .i16), 8),
    ([0x01C6152C, 0x00C40000], .vshufIlv (fa (.r 5) (.r 6) (.r 7) (.r 0) .i16), 8),
    ([0x01C6152C, 0x01040000], .vshufDilv (fa (.r 5) (.r 6) (.r 7) (.r 0) .i16), 8),
    ([0x00211530, 0x00040000], .vbcast (fa (.r 5) (.q 1) (.r 0) (.r 0) .i16), 8),
    ([0x00061534, 0x00040000], .vmov (fa (.r 5) (.r 6) (.r 0) (.r 0) .i16), 8),
    ([0x08601538, 0x00040000], .vlaneIns (fa (.r 5) (.q 0) (.q 1) (.r 0) .i16), 8),
    ([0x08469138, 0x00440000], .vlaneExt (fa (.q 4) (.r 6) (.q 1) (.r 0) .i16), 8)] = true := by decide

/-- OP 0x50 to 0x54: strided, indexed by v9 under k3, and into the operand window. -/
theorem test_decode_vmem : decodesTo [
    ([0x02471940, 0x00000204], .vld { mr with idx := some 9, sz := .s4, am := .strided }, 8),
    ([0x0FC71944, 0x00000036], .vst { mr with sz := .s8, k := 3 }, 8),
    ([0x02471948, 0x000003B4], .vldx { mr with idx := some 9, sz := .s4, am := .vindex, k := 3, z := true }, 8),
    ([0x0247194C, 0x00000306], .vstx { mr with idx := some 9, sz := .s8, am := .vindex }, 8),
    ([0x0FC71950, 0x00010002], .vsto { mr with sz := .s2, off := .off16 64 }, 8)] = true := by decide

/-- OP 0x58 to 0x5B: k2 from k3 and k4; the queue stands in C. -/
theorem test_decode_masks : decodesTo [
    ([0x01030960, 0x00000000], .kand (fa (.r 2) (.r 3) (.r 4) (.r 0) .i8), 8),
    ([0x01030960, 0x00400000], .kor (fa (.r 2) (.r 3) (.r 4) (.r 0) .i8), 8),
    ([0x01030960, 0x00800000], .kxor (fa (.r 2) (.r 3) (.r 4) (.r 0) .i8), 8),
    ([0x00030960, 0x00C00000], .knot (fa (.r 2) (.r 3) (.r 0) (.r 0) .i8), 8),
    ([0x01030960, 0x01000000], .kandn (fa (.r 2) (.r 3) (.r 4) (.r 0) .i8), 8),
    ([0x00030960, 0x01400000], .kmov (fa (.r 2) (.r 3) (.r 0) (.r 0) .i8), 8),
    ([0x10000964, 0x00000002], .kfirst (fa (.r 2) (.r 0) (.r 0) (.q 1) .i8), 8),
    ([0x00000964, 0x00480000], .kall (fa (.r 2) (.r 0) (.r 0) (.r 0) .i32), 8),
    ([0x00000964, 0x00880000], .knone (fa (.r 2) (.r 0) (.r 0) (.r 0) .i32), 8),
    ([0x40030168, 0x00000002], .kpop (fa (.r 0) (.r 3) (.r 0) (.q 4) .i8), 8),
    ([0x40030168, 0x00400002], .kany (fa (.r 0) (.r 3) (.r 0) (.q 4) .i8), 8),
    ([0x40030168, 0x00800002], .kallq (fa (.r 0) (.r 3) (.r 0) (.q 4) .i8), 8),
    ([0x40030168, 0x00C00002], .ktoq (fa (.r 0) (.r 3) (.r 0) (.q 4) .i8), 8),
    ([0x1000096C, 0x00000002], .kfromq (fa (.r 2) (.r 0) (.r 0) (.q 1) .i8), 8)] = true := by decide

/-- OP 0x80 to 0x85 (R197, R202 to R205): the encodings the entries give; ACTCTL with its operation in the immediate. -/
theorem test_decode_messages : decodesTo [
    ([0x00891600, 0x00000844], .send 5 (.r 9) 0x11 2 2 .none, 8),
    ([0x00891600, 0x00040844], .sendt 5 (.r 9) 0x11 2 2 .none, 8),
    ([0x00000204, 0x00000000], .done, 8),
    ([0x00001A08, 0x00000000], .mbstat 6 (.r 0) .none, 8),
    ([0x01891614, 0x00000000], .actctlEnable 5 (.r 9) (.r 6) .none, 8),
    ([0x0FC91615, 0x00000000, 0x00000001], .actctlDisable 5 (.r 9) .imm (.w32 1), 12),
    ([0x0FC91615, 0x00000000, 0x00000302], .actctlWeight 5 (.r 9) .imm (.w32 0x302), 12),
    ([0x0FC91615, 0x00000000, 0x00000203], .actctlClass 5 (.r 9) .imm (.w32 0x203), 12),
    ([0x0FC91615, 0x00000000, 0x00000004], .actctlState 5 (.r 9) .imm (.w32 4), 12)] = true := by decide

/-- OP 0x90 to 0x92 (R209, R215, R216): the encodings the entries give, GCALL by register, GINFO. -/
theorem test_decode_gates : decodesTo [
    ([0x00000240, 0x00000108], .gcall (.imm16 0x42), 8),
    ([0x00090240, 0x00000000], .gcall (.reg 9), 8),
    ([0x003F0241, 0x00000000, 0x00000042], .gcall (.imm32 0x42), 12),
    ([0x00000244, 0x00000000], .gret, 8),
    ([0x00061648, 0x00000008], .ginfo 5 (.r 6) 2 .none, 8)] = true := by decide

/-- OP 0xA0 to 0xA7 (R333 to R339): the encodings the entries give, CWAIT of an immediate and CSTAT. -/
theorem test_decode_engines : decodesTo [
    ([0x00100280, 0x00000000], .cpy 0 16, 8),
    ([0x00101680, 0x00040000], .cpyt 5 16, 8),
    ([0x00001684, 0x00000000], .cseal 5, 8),
    ([0x003F5A89, 0x00000000, 0x00000003], .cwait 22 .imm (.w32 3), 12),
    ([0x0006168C, 0x00000000], .cstat 5 6, 8),
    ([0x00001690, 0x00000010], .sclaim 5 (.r 0) 4 .none, 8),
    ([0x00001694, 0x00000010], .srel 5 (.r 0) 4 .none, 8),
    ([0x50060A98, 0x00000000], .aread 2 5 0 (.r 6), 8),
    ([0x0000169C, 0x00000004], .astat 5 1, 8)] = true := by decide

/-- OP 0xA8 to 0xAB and 0xC5 (R340, R341): the encodings the entries give. -/
theorem test_decode_barriers : decodesTo [
    ([0x0FD802A1, 0x00000000, 0x00000002], .binit 0 (.r 24) .imm (.w32 2), 12),
    ([0x069816A4, 0x00000000], .barr 5 (.r 24) (.r 26), 8),
    ([0x069816A8, 0x00000190], .bwait 5 (.r 24) (.r 26) 100 .none, 8),
    ([0x001816AC, 0x00000004], .bstat 5 (.r 24) 1, 8),
    ([0x01C61714, 0x00000000], .clkrq 5 (.r 6) (.r 7) .none, 8)] = true := by decide

/-- OP 0xC0 to 0xC6 (R24, R108, R109, R111, R114, R115): RDS of TBASE (0x010), WRS of LEASE (0x040), FFLAGS (0x013), L1COUNT (0x035) and TCAUSE (0x052). -/
theorem test_decode_specials : decodesTo [
    ([0x00001700, 0x00000040], .rds (.r 5) .tbase, 8),
    ([0x003F0305, 0x00000100, 0x00001000], .wrs .lease .imm (.w32 4096), 12),
    ([0x00060304, 0x0000004C], .wrsFflags (.r 6) .none, 8),
    ([0x00060304, 0x000000D4], .wrsLoopRegister .count1 (.r 6) .none, 8),
    ([0x00060304, 0x00000148], .wrsTcause (.r 6) .none, 8),
    ([0x00000308, 0x00000030], .trap 12, 8),
    ([0x0000030C, 0x00000000], .tret, 8),
    ([0x00000310, 0x00000014], .brk 5, 8),
    ([0x00001718, 0x00000000], .qstat 5, 8)] = true := by decide

/-- Encodings that entries of the spec write out: VMUL, KANDN, KFIRST, PREF, LPIN, UNPIN, FENCE.SYS, CALL, RET, LOOP. -/
theorem test_decode_examples : decodesTo [
    ([0x00810D04, 0x00080000], .vmul (fa (.r 3) (.r 1) (.r 2) (.r 0) .i32), 8),
    ([0x00810560, 0x01080000], .kandn (fa (.r 1) (.r 1) (.r 2) (.r 0) .i32), 8),
    ([0x00000564, 0x00080002], .kfirst (fa (.r 1) (.r 0) (.r 0) (.q 0) .i32), 8),
    ([0x0FC400D8, 0x00020006], .pref { mr with d := 0, base := 4, sz := .s8, off := .off16 0x80 }, 8),
    ([0x0FC414DC, 0x00000000], .lpin { mr with d := 5, base := 4 }, 8),
    ([0x0FC414DC, 0x04000000], .unpin { mr with d := 5, base := 4 }, 8),
    ([0x000000D0, 0x00000000], .fenceSys, 8),
    ([0x00007C88, 0x00000010], .call 16, 8),
    ([0x001F0084, 0x00000000], .br 0 31 0, 8),
    ([0x003F0091, 0x00000020, 0x00000009], .loop 0 (.imm16 8) 9, 12),
    ([0x0FC51805, 0x00080000, 0x00000064], .add (fi (.r 6) (.r 5) .imm (.r 0) .i32 (.w32 100)), 12),
    ([0x31030080, 0xFFFFFFFC], .b .lt 3 4 0xFFFFFFFC, 8),
    ([0x00001016, 0, 0, 0x00FF0000], .movi (.r 4) (.w64 0x00FF000000000000), 16)] = true := by decide

/-- NOP and the fill word; the words of R34, R36, R38, R48, R50 and R53 that are no instruction. -/
theorem test_decode_nop : decodesTo [([0, 0], .nop, 8), ([0xFFFFFFFF], .fillWord, 4)] = true := by decide

/-- Why some words are refused. -/
def refusedFor (l : List (List (BitVec 32) × Reject)) : Bool :=
  l.all (fun p => match decode p.1 with
    | .ok _ => false
    | .error e => e == p.2)

/-- Another fill word, OP 0 with a field, OP 0xFF, FN 24 of OP 0x01, NOP in 96 bits, bit 63 of format A, register code 40,
type code 13, size code 5, condition 10, and an ADD cut off after its first word. -/
theorem test_refused : refusedFor
    [([0x00000003], .fillWord), ([0x00000400, 0], .nopWord), ([0x000003FC, 0], .opcode), ([0x00000004, 0x06000000], .function),
     ([0x00000001, 0, 0], .nopWord), ([0x00000004, 0x80000000], .reserved), ([0x00280004, 0], .operand),
     ([0x00000004, 0x00340000], .operand), ([0x0FC000C0, 0x0000000A], .operand), ([0xA0000080, 0], .operand),
     ([0x00000004], .truncated)] = true := by decide

/-! ### The static checks: an ill-formed term for each -/

/-- Instructions refused by a check. -/
def illFor (l : List (Instr × IllForm)) : Bool := l.all (fun p => p.1.illFormed == some p.2)

/-- Checks of format A: a push to q5, a source q2, an immediate with none there and one that nobody reads, EXT without its
immediate, an f32 IADD, |A| of an integer, a clamp of an integer, a mask in the S pipe, zeroing under k0. -/
theorem test_illformed_A : illFor
    [(.add (fa (.q 5) (.r 1) (.r 2) (.r 0) .i32), .dest), (.add (fa (.r 1) (.q 2) (.r 2) (.r 0) .i32), .sourceA),
     (.add (fa (.r 1) (.r 2) (.q 2) (.r 0) .i32), .sourceB), (.add (fa (.r 1) (.r 2) (.r 2) (.r 3) .i32), .sourceC),
     (.add (fa (.r 1) (.r 2) .imm (.r 0) .i32), .immediateAbsent),
     (.add (fi (.r 1) (.r 2) (.r 3) (.r 0) .i32 (.w32 5)), .immediateUnused),
     (.ext (fa (.r 1) (.r 2) (.r 0) (.r 0) .i64), .length), (.add (fa (.r 1) (.r 2) (.r 3) (.r 0) .f32), .type),
     (.add { fa (.r 1) (.r 2) (.r 3) (.r 0) .i32 with ma := ⟨false, true⟩ }, .modifier),
     (.add { fa (.r 1) (.r 2) (.r 3) (.r 0) .i32 with clamp := .relu }, .scaleClamp),
     (.add (fm (.r 1) (.r 2) (.r 3) (.r 0) .i32 1 false), .mask),
     (.vadd (fm (.r 1) (.r 2) (.r 3) (.r 0) .i32 0 true), .zeroing),
     (.ext (fi (.r 1) (.r 2) (.r 0) (.r 0) .i64 (.w32 0x0101003F)), .bitField),
     (.fcvt .f32 .rz (fa (.r 1) (.r 2) (.r 0) (.r 0) .m8), .conversion),
     (.vbcast (fa (.r 1) (.r 2) (.r 3) (.r 0) .i32), .sourceB)] = true := by decide

/-- Checks of format M: strided LD, an index without a mode, ST of 16 bytes from an odd register, an AMO of one byte, CAS of
s7, a releasing LD, STF of system scope, an AMO that is not .thru, a mask on LD. -/
theorem test_illformed_M : illFor
    [(.ldZeroExtending { mr with idx := some 9, am := .strided }, .addressMode), (.ldZeroExtending { mr with idx := some 9 }, .index),
     (.st { mr with d := 7, sz := .s16 }, .pair), (.amoAdd { mr with pol := .thru }, .size),
     (.amoCas { mr with d := 7, pol := .thru, sz := .s8 }, .pair), (.ldZeroExtending { mr with ord := .rel }, .order),
     (.stf { mr with sys := true }, .scope), (.amoAdd { mr with sz := .s8 }, .policy), (.ldZeroExtending { mr with k := 1 }, .mask),
     (.pref mr, .dest)] = true := by decide

/-- Checks of the other formats. -/
theorem test_illformed_S : illFor
    [(.b .always 1 0 0, .condition), (.loop 0 (.queue 1) 4, .loopCount), (.loop 0 (.reg 1) 2, .loopOffset),
     (.xfence 0 1, .fenceMask), (.send 1 (.r 1) 0 30 3 .none, .payload), (.cpy 0 29, .capReg), (.barr 1 (.r 0) (.r 2), .barrierReg),
     (.gcall (.imm32 0x10000), .gateId), (.wrs .core (.r 1) .none, .spr), (.wrs .fflags (.r 1) .none, .writeRow),
     (.actctlEnable 1 (.r 2) .imm (.w32 1), .actctlRow)] = true := by decide

/-- And the well-formed neighbours of some of them. -/
theorem test_wellformed :
    [Instr.add (fa (.q 3) (.q 4) (.r 2) (.r 0) .i32), .st { mr with sz := .s16 }, .send 1 (.r 1) 0 29 3 .none, .cpy 0 28,
     .loop 0 (.reg 1) 3].all (·.wellFormed) = true := by decide

/-! ### States for single steps and for the witnesses -/

def msg0 : Msg :=
  { dst := 0xFFF00020000, sender := 0, tag := 0, seq := 0, payload := [], domain := 5, stamp := none, src := .outside }
def act0 : Activation := { slot := 1, mbox := 0, msg := msg0, drain := false }

/-- A context of an activation of slot 1, domain 5: s6 = 2^32 − 1, s7 an address in its scratchpad, q4 and q5 with
entries. -/
def y0 : Ctx :=
  { Ctx.reset with
    act := some act0, domain := 5, origin := 5, self := 0xFFF00020000, pc := 0x1000, tvec := 0x8000,
    regs := (((Vector.replicate 32 0).set 6 0xFFFFFFFF).set 7 (word (Config.lswBase + 0x100))).set 8 3,
    queues := ((Vector.replicate 8 []).set 4 [5, 9]).set 5 [2] }

/-- A mailbox of 16 messages of any tag. -/
def box0 : Mailbox := { desc0 := 0x2000, desc1 := 0x48000, enabled := true, waiting := [], running := false }

/-- The actor of slot 1: 64 KiB of scratchpad from 0 on, two mailboxes. -/
def actor1 : Slot :=
  { Slot.free with
    actor := 7, state := .active, domain := 5, cls := 1, weight := 1, quota := 1, tvec := 0x8000,
    regions := [{ base := 0, size := 0x10000, stack := false, align := 6 }], mboxes := [box0, box0] }

/-- Core 0 with that actor and that context. -/
def coreOn (y : Ctx) : Core :=
  { Core.reset with
    ctxs := Core.reset.ctxs.set 0 y, slots := Core.reset.slots.set 1 actor1,
    guard := { Guard.empty with rights := [5] } }

/-- The machine with it, its issuing core. -/
def on (y : Ctx) : State := { State.reset with cores := [(0, coreOn y)] }

def s0 : State := on y0

/-- What a step's state shows, if the instruction went on. -/
def after {α : Type} (r : Result) (f : State → α) : Option α :=
  match r with
  | .next t => some (f t)
  | _ => none

/-! ### Single steps, with results of the spec or worked by hand from its rules -/

/-- ADD.i32 wraps and sign-extends (R12, R85): (2^32 − 1) + 3 = 2; q4 − s8 pushes q1. -/
theorem test_add : after (exec (.add (fa (.r 5) (.r 6) (.r 8) (.r 0) .i32)) s0) (·.here.reg 5) = some 2 := by decide
theorem test_sub_push : after (exec (.sub (fa (.q 1) (.q 4) (.r 8) (.r 0) .i64)) s0)
    (fun t => (t.here.queue 1, t.here.queue 4)) = some ([2], [9]) := by decide

/-- DIV by zero and of the least value by −1 (R86). -/
theorem test_div_zero : after (exec (.div (fa (.r 5) (.r 6) (.r 0) (.r 0) .n16)) s0) (·.here.reg 5) = some 0xFFFF := by decide
theorem test_div_least : after (exec (.div (fi (.r 5) .imm (.r 6) (.r 0) .i32 (.w32 0x80000000))) s0) (·.here.reg 5)
    = some 0xFFFFFFFF80000000 := by decide

/-- The example of R93: FCVT.f32.i32.rz of −2.75 writes −2 and sets NX. -/
theorem test_fcvt : after (exec (.fcvt .f32 .rz (fa (.r 5) (.r 6) (.r 0) (.r 0) .i32))
    (on (y0.setReg 6 0xC0300000))) (fun t => (t.here.reg 5, t.here.fflags)) = some (0xFFFFFFFFFFFFFFFE, 1) := by decide +kernel

/-- 1 / 3 in f32, rounded to nearest: 0x3EAAAAAB, inexact. -/
theorem test_fdiv : after (exec (.fdiv (fi (.r 5) (.r 6) (.r 9) (.r 0) .f32 .none))
    (on ((y0.setReg 6 0x3F800000).setReg 9 0x40400000))) (fun t => (t.here.reg 5, t.here.fflags))
    = some (0x3EAAAAAB, 1) := by decide +kernel

/-- BR to an address that is not word-aligned takes the trap ALIGN (R97), code 4. -/
theorem test_br_align : after (exec (.br 0 8 0) s0) (fun t => (t.here.pc, t.here.tcause, t.here.tval, t.here.tpc))
    = some (0x8000, 4, 3, 0x1000) := by decide

/-- A taken branch leaves its slot next, then goes to its target; CALL links past the slot (R96, R99). -/
theorem test_call : after (exec (.call 16) s0) (fun t =>
    let y := (t.here.resolveSlot 8).retire 8
    (t.here.pc, y.pc, y.reg 31)) = some (0x1008, 0x1040, 0x1010) := by decide

/-- A zero count skips the body of LOOP (R102). -/
theorem test_loop_zero : after (exec (.loop 0 (.reg 0) 9) s0) (fun t => (t.here.pc, t.here.skip, t.here.loops.count0))
    = some (0x1024, true, 0) := by decide

/-- ST of the low bytes of s6 and LD.i16 of them; AMO.ADD answers the old value. -/
theorem test_st_ld : after (exec (.st { mr with sz := .s4 }) s0) (fun t =>
    after (exec (.ldSignExtending { mr with d := 5, sz := .s2, off := .off16 2 }) t) (·.here.reg 5))
    = some (some 0xFFFFFFFFFFFFFFFF) := by decide
theorem test_amo : after (exec (.st { mr with sz := .s4 }) s0) (fun t =>
    after (exec (.amoAdd { mr with d := 8, sz := .s4, pol := .thru }) t) (fun u =>
      (u.here.reg 8, (u.core 0).spad))) = some (some (0xFFFFFFFF, [(0x100, 2)])) := by decide

/-- TRAP 12: cause 5, the next address, the loops disarmed (R113, R114). -/
theorem test_trap : after (exec (.trap 12) s0) (fun t => (t.here.pc, t.here.tcause, t.here.tval, t.here.tpc))
    = some (0x8000, 5, 12, 0x1008) := by decide

/-- VADD.i32 of v1 and v2 under k0 (R169). -/
theorem test_vadd : after (exec (.vadd (fa (.r 3) (.r 1) (.r 2) (.r 0) .i32))
    (on ((y0.setVreg 1 (ofElems 32 32 (fun e => e))).setVreg 2 (ofElems 32 32 (fun _ => 0xFFFFFFFF)))))
    (fun t => (elem (t.here.vreg 3) 32 0, elem (t.here.vreg 3) 32 31)) = some (0xFFFFFFFF, 30) := by decide +kernel

/-- The example of R300: VALUE 7 and SLOT give the failure flag 0x8003000000000007. -/
theorem test_flag : (word (2 ^ 63 + 3 * 2 ^ 48 + 7)) = 0x8003000000000007 := by decide

/-- SHA-384 of the empty message, as FIPS 180-4's examples give it: its first eight bytes. -/
theorem test_sha384 : (sha384 []).take 8 = [0x38, 0xB0, 0x60, 0xA7, 0x51, 0xAC, 0x96, 0x38] := by decide +kernel


/-! ### Witnesses: states and operands that meet the hypotheses of each statement, clause by clause -/

/-- Domain 5 has its page 0 mapped, in device memory of die 0, with every right and policy. -/
def page0 : TlbEntry :=
  { dtag := 5, key := 0, ppn := 1, vpn := 0, size := 0, polmask := 15, r := true, w := true, x := true, dup := false,
    home := 0 }
/-- The same for domain 0. -/
def kpage0 : TlbEntry := { page0 with dtag := 0, ppn := 2 }
def mapped (y : Ctx) : State := { on y with clusters := [(0, { Cluster.reset with tlb := [page0, kpage0] })] }

/-- The destination has room and the sources are there: s5 ← s6, s8; q1 ← q4, q5. -/
def ready3 (o : FmtA) (ops : List Opnd) : Bool :=
  (s0.here.fullQueue o.d).isNone && (s0.here.take (word (immBits o.t o.imm)) ops).isSome
def aReg (t : Ty) : FmtA := fa (.r 5) (.r 6) (.r 8) (.r 9) t
def aQue (t : Ty) : FmtA := fa (.q 1) (.q 4) (.q 5) (.r 9) t
def aImm (t : Ty) : FmtA := fi (.r 0) .imm (.r 8) (.r 9) t (.w32 0x80000000)

/-- A FmtA that meets the hypotheses of a scalar statement. -/
def scalarReady (t : Ty) : Bool :=
  [aReg t, aQue t, aImm t].all (fun o => ready3 o [] && ready3 o [o.a] && ready3 o [o.a, o.b] && ready3 o [o.a, o.b, o.c])

theorem witness_DecodeOfEncode : (Instr.add (fa (.r 5) (.r 6) (.r 8) (.r 0) .i32)).wellFormed = true ∧
    (encode (.add (fa (.r 5) (.r 6) (.r 8) (.r 0) .i32))).isSome = true := by decide
theorem witness_DecodeOfEncode_rows : (encode .fillWord).isSome = true ∧ Instr.fillWord ∉ deviceRows ∧
    (encode .queueWakeUp).isSome = false ∧ Instr.queueWakeUp ∈ deviceRows := by decide +kernel
theorem witness_EncodeOfDecode : Reads [0xFFFFFFFF, 0] .fillWord 4 := rfl

/-- The step: an ADD at the head of a page, as withFetchWord places it. -/
def issues (s : State) (f : State → List Byte → Bool) : Bool :=
  let u : State := { s with agenda := [], focus := 0 }
  s.agenda == [.issue 0] && u.here.act.isSome && !u.hereCore.stopped && (u.coreStop 0).isNone && !u.here.held &&
  u.waitOver 0 u.hereX && !u.here.chunk.active && u.here.redo.isEmpty &&
  match fetchHere u.issuing with
  | .got v block => f v (block.drop (v.here.pc.toNat % 32))
  | _ => false
def stepWitness (w : Nat) : Bool := issues (State.reset.withFetchWord 64 w) (fun v bs =>
  !v.here.skip && v.here.slot.isNone && decide (v.here.pc.toNat % 32 + 8 ≤ 32) &&
  match decode (wordsOf bs) with
  | .ok (.nop, 8) => true
  | _ => false)
theorem witness_StepRunsDecoded : (State.reset.withFetchWord 64 0).agenda = [.issue 0] := rfl
theorem witness_StepRunsDecoded_fetch : stepWitness 0 = true := by decide +kernel

/-- A block of the mapped page in the instruction cache. -/
def cached : State :=
  (mapped y0).mapCore 0 (fun k => { k with icache := [⟨blockOf 0x11000 .thisDie, page0, List.replicate 32 0⟩] })
theorem witness_FetchFromCache : cached.here.pc.toNat < Config.opwBase ∧
    cached.placeOf cached.who (word (cached.here.pc.toNat / 32 * 32)) 32 kindExec .thru =
      .at (.memory 0x11000 .thisDie 0 .thru) (some page0) ∧
    ((cached.microFill 0 (some page0)).hereCore.code (blockOf 0x11000 .thisDie) page0).isSome = true := by decide
/-- A pc in the operand window, and one in a scratchpad, where nothing may be fetched. -/
theorem witness_FetchFromCache_faults :
    Config.opwBase ≤ (on { y0 with pc := word Config.opwBase }).here.pc.toNat / 32 * 32 ∧
    (let s := { mapped y0 with clusters := [(0, { Cluster.reset with tlb := [{ page0 with x := false }] })] }
     s.here.pc.toNat / 32 * 32 < Config.opwBase ∧
     s.placeOf s.who (word (s.here.pc.toNat / 32 * 32)) 32 kindExec .thru = .fault causeProt) := by decide +kernel
/-- At dispatch: eight bytes from byte 28 of their block; a word that decodes to nothing; a branch in a slot, whose branch is
known and is not, and one that stands at the end of an armed loop as well. -/
def inSlot (b : Option Word) (armed : Bool) (s : State) : State :=
  s.mapCtx 0 s.hereX (fun x => { x with
    slot := some ⟨0x2000, true, 0, b, false, true⟩,
    loops := if armed then { x.loops with end0 := x.pc, count0 := 0x8000000000000002 } else x.loops })
theorem witness_FetchFromCache_dispatch :
    (let s := State.reset.withFetchWord 64 0
     issues (s.mapCtx 0 s.hereX (fun x => { x with pc := x.pc + 28 })) (fun v bs =>
       decide (32 < v.here.pc.toNat % 32 + lengthOf (BitVec.ofNat 32 (leNat (bs.take 4))))) = true) ∧
    issues (State.reset.withFetchWord 64 3) (fun v bs =>
      let w := v.mapHere (·.resolveSlot (lengthOf (BitVec.ofNat 32 (leNat (bs.take 4)))))
      !w.here.skip && decide (v.here.pc.toNat % 32 + lengthOf (BitVec.ofNat 32 (leNat (bs.take 4))) ≤ 32) &&
        match decode (wordsOf bs) with | .error _ => true | .ok _ => false) = true ∧
    [some 0x0FF8, none].all (fun b => issues (inSlot b false (State.reset.withFetchWord 64 0x1000007C88)) (fun v bs =>
      let w := v.mapHere (·.resolveSlot 8)
      !w.here.skip && w.here.slot.any (fun p => p.branch == b) && match decode (wordsOf bs) with
        | .ok (i, 8) => slotForbidden i && !w.illegalHere i
        | _ => false)) = true ∧
    issues (inSlot none true (State.reset.withFetchWord 64 0x1000007C88)) (fun v bs =>
      let w := v.mapHere (·.resolveSlot 8)
      !w.here.skip && w.here.slot.isSome && match decode (wordsOf bs) with
        | .ok (i, 8) => slotForbidden i && w.illegalHere i
        | _ => false) = true := by decide +kernel

theorem witness_IntegerOperations :
    [Ty.i8, .i16, .i32, .i64, .n8, .n16, .n32, .n64].all (fun t => t.isInt && scalarReady t) = true := by decide
theorem witness_BitOperations : Ty.i32.isInt = true ∧ scalarReady .i32 = true := by decide
/-- EXT and INS at the ends of their fields: the whole word, and its last bit. -/
theorem witness_MovesAndNoEffect :
    (let o := fi (.r 5) (.r 6) (.r 8) (.r 9) .i64 (.w32 0x4000)
     1 ≤ bitsOf o.imm.word 14 8 ∧ bitsOf o.imm.word 5 0 + bitsOf o.imm.word 14 8 = 64 ∧ ready3 o [o.a] = true) ∧
    (let o := fi (.r 5) (.q 4) (.r 8) (.r 9) .n64 (.w32 0x013F)
     bitsOf o.imm.word 14 8 = 1 ∧ bitsOf o.imm.word 5 0 = 63 ∧ ready3 o [o.a] = true) := by decide

/-- Three quarters is a value that every plain float type has; and a code that is no NaN. -/
theorem witness_RoundingRules : isPlainFloat .f16 ∧ numVal (.fin false 3 (-2)) = some ((1 : ℚ) * (3 : ℕ) * 2 ^ (-2 : Int)) ∧
    ((fmtOf .f16).encode .rne (.fin false 3 (-2))).2.getLsbD 2 = false :=
  ⟨.inl rfl, rfl, by decide +kernel⟩
theorem witness_RoundingRules_codes : isPlainFloat .bf16 ∧ (0x7F80 : Nat) < 2 ^ Ty.bf16.width ∧
    ((fmtOf .bf16).decode 0x7F80).isNan = false := ⟨.inr (.inl rfl), by decide, by decide⟩
/-- A number with a sticky last bit; codes of 1 and of 2 for the functions; −1, which has no logarithm. -/
theorem witness_RoundingRules_stands :
    StandsFor (.fin false (2 ^ 120 + 1) (-120)) (((2 : ℝ) ^ 120 + 1 + 1 / 2) * (2 : ℝ) ^ (-120 : Int)) := by
  refine .inr ⟨false, _, _, rfl, by norm_num, by norm_num, by simp, fun _ => by positivity, ?_⟩
  rw [abs_of_pos (by positivity)]
  constructor <;> norm_num
theorem witness_RoundingRules_functions : Ty.f16 ∈ [Ty.f16, .bf16, .f32] ∧ numVal (numOf .f16 0x3C00) = some 1 ∧
    ((1 : ℚ) = (2 : ℚ) ^ (0 : Int) ∧ (0 : ℚ) < 1 ∧ |(1 : ℚ)| < 4096 ∧ (1 : ℚ) = ((1 : Int) : ℚ)) := by
  refine ⟨by decide, ?_, by norm_num⟩
  rw [show numOf .f16 0x3C00 = .fin false 1024 (-10) from by decide +kernel]
  norm_num [numVal]
theorem witness_FloatOperations_order : (Machine.Num.fin true 1 0).lt (.fin false 1 0) = true ∧
    (Machine.Num.fin false 1 0).isNan = false ∧ (Machine.Num.fin false 1 0).isNeg = false ∧ ((1 : ℕ) ≠ 0) := by decide
theorem witness_FloatOperations : scalarReady .f32 = true ∧ (∃ x, numVal (.fin true 5 3) = some x) ∧
    (Machine.Num.isNan (.nan true) || Machine.Num.isNan (.fin false 1 0)) = true := ⟨by decide, ⟨_, rfl⟩, rfl⟩
theorem witness_CompareConvertClassify : scalarReady .f64 = true ∧ scalarReady .m8 = true ∧
    Ty.n8.isInt = true ∧ Ty.f64.isInt = false ∧ isPlainFloat .f64 ∧ Ty.m8 ∈ [Ty.f16, .bf16, .f32, .f64, .m8] ∧
    numVal (.fin true 5 3) = some ((-1 : ℚ) * (5 : ℕ) * 2 ^ (3 : Int)) :=
  ⟨by decide, by decide, rfl, rfl, .inr (.inr (.inr rfl)), by decide, rfl⟩

/-! #### Branches and loops -/

/-- A context whose loops are armed: loop 0 ends at e0 with c0 passes left, loop 1 at e1 with c1. -/
def looped (e0 c0 e1 c1 : Word) : Ctx :=
  { y0 with loops := { start0 := 0x0F00, end0 := e0, count0 := c0, start1 := 0x0F80, end1 := e1, count1 := c1 } }
theorem witness_BranchesDecide : y0.atLoopEnd = false ∧ (true = true ↔ taken .ltn (y0.reg 8) (y0.reg 6)) ∧
    (false = true ↔ taken .eq (y0.reg 8) (y0.reg 6)) ∧ y0.queue 4 = [5, 9] ∧ y0.queue 7 = [] ∧
    (looped 0x1000 0x8000000000000001 0 0).atLoopEnd = true := by
  refine ⟨by decide, ?_, ?_, by decide, by decide, by decide⟩ <;> simp only [taken] <;> decide
theorem witness_BranchesDecide_targets : (y0.reg 8 + 4 * (0 : BitVec 32).signExtend 64).toNat % 4 ≠ 0 ∧
    (y0.reg 0 + 4 * (1 : BitVec 32).signExtend 64).toNat % 4 = 0 ∧
    (y0.reg 0 + 4 * (1 : BitVec 32).signExtend 64).toNat < 2 ^ 56 := by decide

def slotOn (p : SlotPend) (y : Ctx) : Ctx := { y with slot := some p }
theorem witness_BranchSlots : Unarmed (slotOn ⟨0x2000, true, 31, some 0x0FF8, false, true⟩ y0) ∧
    (slotOn ⟨0x2000, true, 31, some 0x0FF8, false, true⟩ y0).slot.isSome = true := ⟨⟨by decide, by decide⟩, rfl⟩
/-- A taken branch out of the body of loop 0, from its first address; the other loop it does not touch. -/
theorem witness_BranchSlots_leaves :
    let x := slotOn ⟨0x2000, true, 0, some 0x0F00, false, true⟩ (looped 0x1100 0x8000000000000005 0x0F10 0)
    (x.loops.start0.toNat ≤ 0x0F00 ∧ 0x0F00 ≤ x.loops.end0.toNat ∧
      ¬(x.loops.start0.toNat ≤ 0x2000 ∧ 0x2000 ≤ x.loops.end0.toNat)) ∧ ¬ x.loops.start1.toNat ≤ 0x0F00 := by decide

/-- A slot that stands at the end of an armed loop, after a taken branch and after one that is not. -/
theorem witness_BranchSlots_end : [true, false].all (fun c =>
    let x := slotOn ⟨0x2000, c, 0, some 0x0FF8, false, true⟩ (looped 0x1000 0x8000000000000005 0x0F10 0)
    x.slot.any (fun p => !p.resolved && p.dest != x.pc + word 8) && x.atLoopEnd) = true := by decide
/-- An instruction that a LOOP of count 0 skips. -/
theorem witness_HardwareLoops_skip : (on { y0 with skip := true }).here.skip = true ∧ (on { y0 with skip := true }).here.slot = none ∧
    (on { y0 with skip := true }).here.pc.toNat % 32 +
      lengthOf (BitVec.ofNat 32 (leNat (((List.replicate 32 0).drop ((on { y0 with skip := true }).here.pc.toNat % 32)).take 4))) ≤ 32 := by
  decide +kernel
/-- The last pass and a pass before it, of loop 1, of loop 0, and of both at one address. -/
theorem witness_HardwareLoops : (looped 0x1000 0x8000000000000002 0x1000 0x8000000000000001).slot = none ∧
    (looped 0x1000 0x8000000000000002 0x1000 0x8000000000000001).loops.count1.getLsbD 63 = true ∧
    (looped 0x1000 0x8000000000000002 0x1000 0x8000000000000001).loops.end1 = y0.pc ∧
    (looped 0x1000 0x8000000000000002 0x1000 0x8000000000000001).loops.end0 = y0.pc ∧
    (looped 0x1000 0 0x1000 0).loops.count0.getLsbD 63 = false := by decide
theorem witness_HardwareLoops_loop : (Instr.loop 1 (.imm16 0xFFFF) 9).wellFormed = true ∧
    (Instr.loop 0 (.reg 8) 9).wellFormed = true ∧ (Instr.loop 0 (.queue 4) 9).wellFormed = true ∧
    (s0.here.takeOne 0 (.q 4)).isSome = true ∧ s0.here.atLoopEnd = false ∧ s0.here.slot = none := by decide

/-! #### Special registers and traps -/

theorem witness_SpecialRegisters : s0.here.vIdle = true ∧ s0.here.memFree = true ∧
    (s0.here.fullQueue (.r 5)).isNone = true ∧ (s0.here.take 0 [.r 6]).isSome = true ∧
    (s0.here.take 77 [.imm]).isSome = true ∧ Spr.readOnly .tvec = false ∧ Spr.ownRow .tvec = false ∧
    Spr.readOnly .lease = false ∧ Spr.ownRow .lease = false := by decide
theorem witness_TrapAndBreak : s0.here.optimistic = false ∧ s0.here.vIdle = true ∧ s0.here.tcause = 0 ∧
    s0.here.tvec ≠ 0 ∧ (on { y0 with tcause := 5 }).here.tcause ≠ 0 ∧ (on { y0 with tvec := 0 }).here.tvec = 0 ∧
    (on { y0 with tvec := 0 }).here.tcause = 0 := by decide
theorem witness_TrapReturn : s0.here.tcause = 0 ∧ (on { y0 with tcause := 5 }).here.tcause ≠ 0 ∧
    (on { y0 with tslot := 0x8000000000002000 }).here.tslot.getLsbD 63 = true := by decide
theorem witness_TrapEntries : s0.here.vIdle = true ∧ s0.here.tcause = 0 ∧ s0.here.tvec ≠ 0 ∧
    (on { y0 with tvec := 0 }).here.tvec = 0 ∧ (on { y0 with tcause := 4 }).here.tcause ≠ 0 ∧
    (on { y0 with vq := [⟨0, .vmov (aReg .i32), 0, 0, 0, [], []⟩] }).here.vIdle = false ∧
    (FmtM.addr { mr with sz := .s8, off := .off16 7 } s0.here).toNat % 8 = 7 := by decide
theorem witness_TrapEntries_ready : MemReady s0 := ⟨rfl, rfl, rfl⟩

/-! #### Frames -/

/-- An instruction that completes, one that waits to push and one that waits to pop. -/
theorem witness_OperandsAndFrames : (after (exec (.mul (aReg .i32)) s0) (fun _ => ())).isSome = true ∧
    (on { y0 with queues := y0.queues.set 1 (List.replicate 8 0) }).here.fullQueue (.q 1) = some 1 ∧
    s0.here.fullQueue (.r 5) = none ∧ s0.here.queue 6 = [] ∧ (y0.queue 4) = 5 :: [9] := by decide
/-- Three sources out of one queue. -/
theorem witness_OperandsAndFrames_completes : s0.here.fullQueue (.r 5) = none ∧
    3 ≤ ((on { y0 with queues := y0.queues.set 4 [1, 2, 3] }).here.queue 4).length := by decide
/-- Both pipes blocked for 4,096 cycles. -/
def qlocked : State :=
  { on { y0 with wait := .pop [(6, 1)], blocked := 4096, vq := [⟨0x0FF0, .vmov (fa (.r 3) (.q 7) (.r 0) (.r 0) .i32), 0, 0, 0, [], []⟩] }
    with arg := .nums 0 0 0 }
theorem witness_OperandsAndFrames_qlock : qlocked.arg = .nums 0 0 0 ∧ (qlocked.ctx 0 0).act.isSome = true ∧
    (qlocked.ctx 0 0).sBlocked = true ∧ (qlocked.ctx 0 0).vBlocked = true ∧ qlocked.waitOver 0 0 = false ∧
    4096 ≤ (qlocked.ctx 0 0).blocked ∧ (qlocked.ctx 0 0).tcause = 0 ∧ (qlocked.ctx 0 0).tvec ≠ 0 := by decide

/-! #### Memory instructions -/

/-- s7 lies at byte 0x100 of the scratchpad of core 0; s9 at the 8-byte boundary of the mapped page. -/
def spadAt (m : FmtM) (s : State) (size kind off : Nat) : Bool :=
  (FmtM.addr m s.here).toNat % size == 0 && s.placeOf s.who (FmtM.addr m s.here) size kind m.pol == .at (.spad 0 off) none

/-- Byte 0 of the first region, its last word, the 16-byte form, a posted store and an atomic. -/
theorem witness_ScratchpadAccess : spadAt mr s0 1 kindRead 0x100 = true ∧
    spadAt { mr with sz := .s8, off := .off32 0xFEF8 } s0 8 kindWrite 0xFFF8 = true ∧
    spadAt { mr with sz := .s16, off := .off32 0x10 } s0 8 kindRead 0x110 = true ∧
    spadAt { mr with sz := .s2, off := .off16 2 } s0 2 4 0x102 = true ∧ (s0.core 0).spad.wf = true := by decide
theorem witness_ScratchpadAccess_pair :
    s0.placeOf s0.who (FmtM.addr { mr with sz := .s16, off := .off32 0x10 } s0.here + 8) 8 kindRead .own
      = .at (.spad 0 0x118) none := by decide
theorem witness_ScratchpadAccess_amo : (AmoFn.cas, Instr.amoCas { mr with sz := .s8, pol := .thru }) ∈ amoRows { mr with sz := .s8, pol := .thru } ∧
    (Instr.amoCas { mr with sz := .s8, pol := .thru }).wellFormed = true ∧
    (Instr.amoFadd32 { mr with sz := .s4, pol := .thru }).wellFormed = true ∧
    s0.placeOf s0.who (FmtM.addr mr s0.here) 8 kindRmw .thru = .at (.spad 0 0x100) none ∧
    MemReady s0 := by
  refine ⟨by simp [amoRows], by decide, by decide, by decide, ⟨rfl, rfl, rfl⟩⟩

/-- A word that differs from the comparand, and one that is equal, with a deadline passed and to come. -/
def waitm : FmtM := { mr with sz := .s8, pol := .own }
theorem witness_Waits : (Instr.waita waitm).wellFormed = true ∧ spadAt waitm s0 8 kindRead 0x100 = true ∧
    waitm.sys = false ∧ loaded false 8 (spadValue s0 0 0x100 8) ≠ ((s0.here.reg 6).setWidth 64) ∧
    loaded false 8 (spadValue s0 0 0x100 8) = (((on (y0.setReg 6 0)).here.reg 6).setWidth 64) ∧
    (let s := on { y0.setReg 6 0 with deadline := some 0 }
     s.here.deadline.getD (min (s.quartz + (s.here.reg 7).toNat) (2 ^ 64 - 1)) ≤ s.quartz) ∧
    (let s := on (y0.setReg 6 0)
     s.quartz < s.here.deadline.getD (min (s.quartz + (s.here.reg 7).toNat) (2 ^ 64 - 1))) := by decide
def waking (w : Watch) : State :=
  { on { y0 with wait := .wake, watch := some w, deadline := some 7 } with arg := .nums 0 0 0, quartz := 9 }
theorem witness_Waits_events : (waking (.spad 0 32)).arg = .nums 0 0 0 ∧ ((waking (.spad 0 32)).ctx 0 0).wait = .wake ∧
    ((waking (.spad 0 32)).ctx 0 0).watch.isSome = true ∧ ((waking (.spad 0 32)).ctx 0 0).deadline = some 7 ∧
    ((waking (.interval 9)).ctx 0 0).watch = some (.interval 9) ∧ 7 ≤ (waking (.interval 9)).quartz := by decide

/-- Elements 3 bytes apart, of which the second is misaligned; indexes of 0 on a misaligned base; a store to no operand slot. -/
def strided : FmtM := { mr with sz := .s2, idx := some 8, am := .strided }
theorem witness_TrapEntries_vector :
    [kindRead, kindWrite].all (fun k => (FmtM.active strided s0.here).take 2 == [0, 1] &&
      (FmtM.eaElem strided s0.here 1).toNat % 2 == 1 && (FmtM.eaElem strided s0.here 0).toNat % 2 == 0 &&
      (match s0.placeOf s0.who (FmtM.eaElem strided s0.here 0) 2 k .own with | .at _ _ => true | _ => false)) = true ∧
    [true, false].all (fun load => FmtM.vWait strided s0.here false load == none &&
      FmtM.vWait { mr with sz := .s4, idx := some 9, am := .vindex, off := .off16 1 } s0.here true load == none) = true ∧
    (FmtM.eaElem { mr with sz := .s4, idx := some 9, am := .vindex, off := .off16 1 } s0.here 0).toNat % 4 = 1 ∧
    (FmtM.active { mr with sz := .s4, idx := some 9, am := .vindex, off := .off16 1 } s0.here).head? = some 0 ∧
    FmtM.active mr s0.here ≠ [] ∧ (FmtM.eaElem { mr with off := .off16 1 } s0.here 0).toNat % 64 = 1 := by decide +kernel
/-- An address past the scratchpad. -/
theorem witness_TrapEntries_faults : [kindRead, kindWrite, kindRmw].all (fun k =>
      let ea := FmtM.addr { mr with sz := .s8, off := .off32 0x70000 } s0.here
      ea.toNat % 8 == 0 && (match s0.placeOf s0.who ea 8 k (if k = kindRmw then .thru else .own) with | .fault _ => true | _ => false) &&
        !(windowOf ea).any isPeerOrOperand) = true := by decide +kernel
/-- A fault to deliver: of an absent page and of a protected one; with a frame that can be written and one that cannot; with
and without a gate; and with the V pipe at work. -/
theorem witness_TrapEntries_delivery :
    (let s := mapped y0
     s.here.vStopped = true ∧ s.here.act = some act0 ∧ s.here.chunk = .none ∧ s.here.stops = [] ∧ s.here.stack = [] ∧
     (s.slot s.focus act0.slot).state = .active ∧ act0.drain = false ∧ (∀ d : DieId, (s.die d).sessions = []) ∧
     s.frameFails s.focus s.here.frame.toNat = false ∧ s.hereCore.faultQueue = [] ∧
     (s.die (dieOf s.focus)).faultTokens = [] ∧ tabGet (s.die (dieOf s.focus)).faultTokens 1 = none) ∧
    (let s : State := { mapped y0 with clusters := [(0, { Cluster.reset with tlb := [page0, { kpage0 with w := false }] })] }
     s.frameFails s.focus s.here.frame.toNat = true) ∧
    isRetryable causePage = true ∧ isRetryable causeProt = false ∧
    (on { y0 with vq := [⟨0x0FF8, .vld { mr with sz := .s4 }, 0, 0, kregsZero[0], [7], []⟩] }).here.vStopped = false ∧
    (∀ q, (y0.queue q).length ≤ 8) ∧ y0.redo.length ≤ 32 := by decide +kernel
/-- Pins: the mapped page in device memory with no pin, with one and with all 255; and a page of the host. -/
def hostPage : TlbEntry := { page0 with home := 2, vpn := 1 }
def pinned (n : Nat) : State :=
  { mapped (y0.setReg 7 0x100) with
    clusters := [(0, { Cluster.reset with tlb := [page0, hostPage] })],
    dies := [(0, { Die.reset with home := [(0x10100 / 128, { DirLine.fresh 0 with pins := n })] })] }
theorem witness_PinsAndFences : MemReady (pinned 1) ∧ (pinned 1).placeOf (pinned 1).who (FmtM.addr mr (pinned 1).here) 1 kindRead .own =
      .at (.memory 0x10100 .thisDie 0 .own) (some page0) ∧
    ((pinned 0).dir (.slice (lineDie (0x10100 / 128))) (0x10100 / 128)).pins = 0 ∧
    ((pinned 1).dir (.slice (lineDie (0x10100 / 128))) (0x10100 / 128)).pins = 1 ∧
    ((pinned 255).dir (.slice (lineDie (0x10100 / 128))) (0x10100 / 128)).pins = 255 :=
  ⟨⟨by decide, by decide, by decide⟩, by decide, by decide, by decide, by decide⟩
theorem witness_PinsAndFences_host : (pinned 1).placeOf (pinned 1).who (FmtM.addr { mr with off := .off32 0x10000 } (pinned 1).here) 1
    kindRead .own = .at (.memory 0x10100 .host 0 .own) (some hostPage) := by decide
/-- Markers that are back, and that are not; a context that waits for its own. -/
theorem witness_PinsAndFences_markers : s0.here.optimistic = false ∧ s0.here.memWait = none ∧ s0.myPosted = [] ∧
    s0.here.markers = 0 ∧ s0.markersBack 0x3E s0.ewCount = true ∧
    (let s : State := { s0 with ewCount := 4, farWrites := [(0, ⟨.copy 0 0, 5, 0, 1, 3, 1, false⟩)] }
     s.here.markers = 0 ∧ s.markersBack 0x3E s.ewCount = false) ∧
    (let s : State := { on { y0 with markers := 2, markerTime := 0 } with arg := .nums 0 0 0 }
     (s.ctx 0 0).markers ≠ 0 ∧ s.markersBack (BitVec.ofNat 6 (s.ctx 0 0).markers) (s.ctx 0 0).markerTime = true) := by decide

/-- Twelve pinned lines and a thirteenth of their set, and a set with room; markers that have come back. -/
theorem witness_PinsAndFences_set :
    (let line := 0x10100 / 128
     let full : Tab DirLine := (List.range 12).map (fun i => (line + 2 ^ 15 * (i + 1), { DirLine.fresh 0 with pins := 1 }))
     let s : State := { pinned 0 with dies := [(0, { Die.reset with home := full })] }
     (s.dir (.slice (lineDie line)) line).pins = 0 ∧
     12 ≤ ((s.l2Ways (lineDie line) line).filter (fun p => 0 < p.2.pins)).length) ∧
    (let line := 0x10100 / 128
     (((pinned 0).l2Ways (lineDie line) line).filter (fun p => 0 < p.2.pins)).length < 12 ∧
     (tabGet ((pinned 0).die (lineDie line)).home line).isSome = true ∧ (s0.l2Ways (lineDie line) line).length < 16) ∧
    (on { y0 with markers := 64, fenceTime := 9 }).here.markers = 64 := by decide +kernel

/-! #### The V pipe -/

theorem vEmpty_s0 : VEmpty s0 := ⟨rfl, rfl⟩
theorem memReady_s0 : MemReady s0 := ⟨rfl, rfl, rfl⟩

/-- Vector, queue and immediate sources, at every type. -/
def vReady (t : Ty) : Bool :=
  [fa (.r 3) (.r 1) (.r 2) (.r 4) t, fa (.r 3) (.q 4) (.r 2) (.r 4) t, fi (.r 3) .imm (.r 2) (.r 4) t (.w32 5)].all (fun o =>
    [[o.a], [o.a, o.b], [o.a, o.b, o.c]].all (fun l => (s0.here.vsources t (word (immBits t o.imm)) l).isSome))
theorem witness_VectorArithmetic : [Ty.i8, .n64, .f16, .bf16, .f32, .f64].all vReady = true ∧ Ty.i8.isInt = true ∧
    isPlainFloat .bf16 := ⟨by decide, rfl, .inr (.inl rfl)⟩
theorem witness_VectorArithmetic_dot4 : Ty.n8.width = 8 ∧
    (s0.here.vsource .i32 0 (.r 4)).isSome = true ∧ (s0.here.vsources .n8 0 [.r 1, .r 2]).isSome = true := by decide
theorem witness_VectorSelection : (Opnd.r 3).knum ≠ 0 ∧ vReady .i32 = true ∧ vReady .f32 = true ∧
    (s0.here.control (.w32 127) .imm).isSome = true ∧ (s0.here.control .none (.q 5)).isSome = true ∧
    (s0.here.queue (Opnd.q 1).qnum).length < 8 ∧ (∀ r, Opnd.q 4 ≠ .r r) :=
  ⟨by decide, by decide, by decide, by decide, by decide, by decide, fun _ h => by cases h⟩
/-- No active element, every element and one; a queue with its last place free; one and two entries to take. -/
theorem witness_VectorReductionsAndMasks : (s0.here.queue 1).length < 8 ∧
    ((on { y0 with queues := y0.queues.set 1 (List.replicate 7 0) }).here.queue 1).length = 7 ∧
    Ty.i32.isInt = true ∧ Ty.f32.isInt = false ∧ (Opnd.r 3).knum ≠ 0 ∧ Ty.i8.count = 128 ∧ Ty.i16.count = 64 ∧
    s0.here.queue (Opnd.q 4).qnum = 5 :: 9 :: [] ∧ (s0.here.control (.w32 200) .imm).isSome = true ∧
    s0.here.activeElems 1 32 = [] ∧ (s0.here.activeElems 0 32).length = 32 := by decide

/-- A unit-stride access of every byte of a vector register under k0 lies in the scratchpad, one under k1 nowhere;
and a VSTO into slot 0. -/
def vmem (m : FmtM) (s : State) (kind : Nat) : Bool :=
  (FmtM.active m s.here).all (fun e =>
    (FmtM.eaElem m s.here e).toNat % m.sz.bytes == 0 &&
    (match s.placeOf s.who (FmtM.eaElem m s.here e) m.sz.bytes kind m.pol with
     | .at (.spad 0 _) none => true
     | _ => false))
theorem witness_VectorMemory : s0.here.vIdle = true ∧ mr.sz ≠ .s16 ∧
    vmem { mr with sz := .s4 } s0 kindRead = true ∧ vmem { mr with sz := .s4 } s0 kindWrite = true ∧
    (FmtM.active { mr with sz := .s4 } s0.here).length = 32 ∧ FmtM.active { mr with sz := .s4, k := 1 } s0.here = [] := by decide +kernel
def claimed0 : State :=
  (on (y0.setReg 7 (word (Config.opwBase + 3968)))).mapCore 0 (fun k => { k with claims := [(0, ⟨7, 1, 5⟩)] })
theorem witness_VectorMemory_operand : let m := { mr with sz := .s1 }
    let ea := FmtM.eaElem m claimed0.here 0
    FmtM.active m claimed0.here ≠ [] ∧ ea.toNat % 64 = 0 ∧ Config.opwBase ≤ ea.toNat ∧
    ea.toNat - Config.opwBase < Config.opndBytes ∧ (ea.toNat - Config.opwBase) % 4096 ≤ 3968 ∧
    claimed0.claimedHere ((ea.toNat - Config.opwBase) / 4096) = true := by decide +kernel
/-- A load at the head of the V pipe with its data; an operation whose turn has come; and a full V queue. -/
def loading : State :=
  on { y0 with vq := [⟨0x0FF8, .vld { mr with sz := .s4 }, 0, 0, kregsZero[0], [7], []⟩] }
theorem witness_VectorMemory_load : (loading.ctx 0 0).vq.length = 1 ∧ (vEffect (.vmov (aReg .i32))).isSome = true ∧
    s0.here.vq.length < 32 ∧ loading.here.vq ≠ [] ∧
    (on { y0 with vq := List.replicate 32 ⟨0, .vmov (aReg .i32), 0, 0, 0, [], []⟩ }).here.vq.length = 32 := by decide

/-- Stores at the head of the V pipe, of two elements that overlap by a byte and into an operand slot. -/
def vstoring (i : Instr) (places : List Place) : State :=
  on { y0 with vq := [⟨0x0FF8, i, 0, 0, 3, [], places.map (fun p => ⟨0x100, 2, p, .store 7⟩)⟩] }
theorem witness_VectorMemory_store :
    [(Instr.vst { mr with sz := .s2 }, [Place.spad 0 0x100, .spad 1 0x101]), (.vsto { mr with sz := .s2 }, [.operand 0x40, .operand 0x42])].all
      (fun p => ((vstoring p.1 p.2).ctx 0 0).op.isNone && !((vstoring p.1 p.2).ctx 0 0).chunk.active &&
        ((vstoring p.1 p.2).ctx 0 0).vq.head?.any (fun e => e.instr == p.1 && e.accs.map (·.place) == p.2 &&
          ((List.range (128 / 2)).filter (fun i => e.mask.getLsbD i)).map (fun _ => 2) == e.accs.map (·.size))) = true ∧
    ∀ k : CoreId, ((vstoring .nop []).core k).spad.wf = true ∧ ((vstoring .nop []).core k).opnd.wf = true := by decide +kernel

/-! #### Mailboxes, gates, copies, operand slots, barriers -/

/-- The kernel domain asks about mailbox 0 of slot 1 (s10), and about its own mailbox 1 (s11). -/
def asking (d : BitVec 16) (w : Word) : State :=
  on ({ (((y0.setReg 10 (endpointOf 0 1 0)).setReg 11 1).setReg 12 w) with domain := d })
theorem witness_MailboxAndActorControl : (s0.here.take 8 [.imm]).isSome = true ∧ (8 : Word).toNat = 8 ∧
    (asking 5 0).here.act = some act0 ∧ ((asking 5 0).here.reg 11).toNat < 8 ∧
    (((asking 5 0).slot 0 1).mboxes[1]?.map (·.waiting.length)) = some 0 ∧
    (asking 5 0).here.domain ≠ 0 ∧ (asking 0 0).here.domain = 0 ∧
    (asking 0 0).here.reg 10 = endpointOf (asking 0 0).focus.val (1 : SlotId).val (0 : Fin 8).val ∧
    ((asking 0 0).slot 0 1).state = .active ∧
    (asking 0 0).here.reg 12 = 0 ∧ (asking 0 1).here.reg 12 = 1 ∧ (asking 0 (2 + 256 * 15)).here.reg 12 = word (2 + 256 * 15) ∧
    (asking 0 (3 + 256)).here.reg 12 = word (3 + 256 * 1) ∧ (asking 0 4).here.reg 12 = 4 ∧
    ((asking 0 0).here.take 0 [.r 10, .r 12]).isSome = true := by decide

/-- Gate 9 in the descriptor cache: valid, from domain 5, or from nowhere; not cached; being fetched. -/
def gated (desc : BitVec 512) : State :=
  (on y0).mapCore 0 (fun k => { k with guard := { k.guard with gates := [⟨9, desc⟩] } })
theorem witness_Gates_cached : gateNamed (.imm16 9) s0.here = (some 9, 8) ∧
    ((gated 0).hereCore.guard.gates.find? (·.id == 9)) = some ⟨9, 0⟩ ∧ (gated 0).gateStatus 0 ≠ 0 ∧
    s0.hereCore.guard.gates.find? (·.id == 9) = none ∧ s0.here.vIdle = true ∧ s0.here.optimistic = false := by decide +kernel
/-- A descriptor of R207 with its fields in place: VALID, callee 7, one caller class, an entry address. -/
def gateDesc : BitVec 512 := 0x4000 ||| 7 <<< 64 ||| 1 <<< 84
/-- The page of the level record is kept by Sartar; or domain 0 may not write it. -/
theorem witness_Gates_passed : (gated gateDesc).gateStatus gateDesc = 0 ∧ (gated gateDesc).levelFails = false ∧
    ({ gated gateDesc with clusters := [(0, { Cluster.reset with tlb := [{ kpage0 with w := false }] })] } : State).levelFails =
      true := by decide +kernel
theorem witness_Gates_fetch : (let s : State := { on { y0 with wait := .gate 9 } with arg := .nums 0 0 0 }
    (s.ctx 0 0).wait = .gate 9) := by decide
def level1 : Level :=
  { gate := 9, caller := 5, callee := 7, ret := 0x1008, tbase := 0, budget := 0, ns := 8, nv := 4,
    saved := { regs := y0.regs, vregs := y0.vregs, kregs := y0.kregs, queues := y0.queues, loops := .zero, tloops := .zero,
               tvec := 0x8000, tpc := 0, tcause := 0, tval := 0, tslot := 0, fflags := 0, lease := 2048, batches := .empty } }
def deep : State := on { y0 with stack := [level1], domain := 7 }
theorem witness_Gates_return : deep.here.stack = [level1] ∧ deep.here.vIdle = true ∧
    deep.killed deep.focus level1.caller = false ∧ s0.here.stack = [] ∧
    deep.here.stack[deep.here.stack.length - 1]? = some level1 ∧
    (on { y0 with stack := [level1], domain := 5 }).here.domain = level1.caller := by decide +kernel
/-- A caller that is dead, and a return within the grace period to the origin. -/
theorem witness_Gates_ends :
    (deep.mapCore 0 (fun k => { k with guard := { k.guard with killed := [5] } })).killed deep.focus level1.caller = true ∧
    (on { y0 with stack := [level1], domain := 7, graceEnd := some 9 }).here.graceEnd.isSome = true ∧
    level1.caller = deep.here.origin := by decide +kernel

def queued0 : Copy :=
  { num := 1, actor := 7, killed := false, ewFrom := 0, ewTo := 0, w0 := word (Config.lswBase + 0x200), w1 := word (Config.lswBase + 0x400), w2 := 64, w3 := 0, domain := 5,
    slot := 1, state := .queued, prog := 0, status := 0, srcPin := none, dstPin := none }
/-- Four words of a copy of 64 bytes from one scratchpad address to another, and a broken one. -/
def copying (w2 : Word) (full : Bool) : State :=
  (on ((((y0.setReg 16 (word (Config.lswBase + 0x200))).setReg 17 (word (Config.lswBase + 0x400))).setReg 18 w2).setReg 19
    0)).mapCore 0 (fun k => if full then { k with copies := Vector.replicate 128 (some queued0) } else k)
theorem witness_CopyInstructions :
    (let s := copying (2 ^ 39) false
     let w (j : Nat) : Word := s.here.reg (Fin.ofNat 32 (16 + j))
     copyBroken (w 0) (w 1) (w 2) (w 3) = true) ∧
    (let s := copying 64 false
     let w (j : Nat) : Word := s.here.reg (Fin.ofNat 32 (16 + j))
     copyBroken (w 0) (w 1) (w 2) (w 3) = false ∧ s.here.optimistic = false ∧ s.hereCore.freeCopy.isSome = true ∧
       s.here.act.isSome = true ∧ s.here.memWait = none) ∧
    (copying 64 true).hereCore.freeCopy = none := by decide +kernel
/-- A handle of copy entry 3; an open batch; sixteen unfinished; none. -/
theorem witness_CopyInstructions_handles :
    (let s := (on (y0.setReg 16 (word (1 * 2 ^ 16 + 3 * 2 ^ 8)))).mapCore 0 (fun k => { k with
       copies := Core.reset.copies.set 3 (some queued0) })
     s.hereCore.copies[(3 : Fin 128)] = some queued0 ∧ queued0.actor = (s.slot s.focus act0.slot).actor ∧ queued0.num = 1 ∧ queued0.prog = 0 ∧
       queued0.status = 0 ∧ s.here.reg 16 = word (queued0.num * 2 ^ 16 + 3 * 2 ^ 8)) ∧
    s0.here.batches.openSet = [] ∧
    (on { y0 with batches := ⟨1, [1], List.replicate 16 [2], 0⟩ }).here.batches.unfinished.length = 16 ∧
    (on { y0 with batches := ⟨1, [1], [], 0⟩ }).here.batches.openSet ≠ [] ∧
    s0.here.batches.unfinished.length ≤ (0 : Word).toNat ∧
    (0 : Word).toNat < (on { y0 with batches := ⟨2, [], [[1]], 0⟩ }).here.batches.unfinished.length := by decide +kernel
/-- The optimistic run of a chunk that holds nothing yet, and of one that holds all it can. -/
def chunked (n : Nat) (y : Ctx) : Ctx :=
  { y with chunk := { Chunk.none with active := true, held := List.replicate n (.message msg0) } }
theorem witness_CopyInstructions_chunk :
    (on (chunked 0 y0)).here.optimistic = true ∧ (on (chunked 0 y0)).here.memWait = none ∧ (on (chunked 0 y0)).hostOut = false ∧
    (on (chunked 0 y0)).here.chunk.held.length < 8 ∧ 8 ≤ (on (chunked 8 y0)).here.chunk.held.length ∧
    (copying 64 false).hostOut = false ∧ s0.hostOut = false ∧ (on (chunked 0 y0)).here.sendrec = none := by decide +kernel
/-- Handles of no copy, of an earlier one of the entry and of another actor's; an optimistic chunk. -/
theorem witness_CopyInstructions_strangers : s0.hereCore.copies[(3 : Fin 128)] = none ∧ queued0.num ≠ 2 ∧
    ({ queued0 with actor := 8 } : Copy).actor ≠ (s0.slot s0.focus act0.slot).actor ∧
    (on { y0 with chunk := { Chunk.none with active := true } }).here.optimistic = true := by decide +kernel

/-- The claims: slot 47 alone, 48 slots, one too many, none; held by another actor that is there, by one that is gone, and by
the actor itself. -/
def claims (t : Tab Claim) : State := (on y0).mapCore 0 (fun k => { k with claims := t })
theorem witness_MatrixInstructions : (s0.here.take 47 [.imm]).isSome = true ∧ s0.here.act = some act0 ∧
    deep.here.stack ≠ [] ∧ s0.here.stack = [] ∧ (47 : Word).toNat + (1 : BitVec 6).toNat ≤ 48 ∧
    48 < (47 : Word).toNat + (2 : BitVec 6).toNat ∧
    (let s := (claims [(47, ⟨8, 2, 5⟩)]).mapSlot 0 2 (fun _ => { actor1 with actor := 8 })
     (s.slot s.focus act0.slot).actor = 7 ∧ s.hereCore.actorGone 8 = false ∧
       tabGet s.hereCore.claims 47 = some ⟨8, 2, 5⟩) ∧
    (claims [(47, ⟨9, 1, 5⟩)]).hereCore.actorGone 9 = true ∧ (claims [(47, ⟨7, 1, 5⟩)]).hereCore.actorGone 7 = false ∧
    tabGet (claims [(47, ⟨7, 1, 5⟩)]).hereCore.claims 47 = some ⟨7, 1, 5⟩ ∧
    (claims [(47, ⟨7, 1, 5⟩)]).slotInUse 0 47 = false ∧ s0.hereCore.claims = [] := by decide +kernel
/-- A claimed slot that a queued copy writes. -/
theorem witness_MatrixInstructions_used :
    (let s := (claims [(0, ⟨7, 1, 5⟩)]).mapCore 0 (fun k => { k with
       copies := Core.reset.copies.set 3 (some { queued0 with w1 := word Config.opwBase }) })
     tabGet s.hereCore.claims 0 = some ⟨7, 1, 5⟩ ∧ s.slotInUse s.focus 0 = true) := by decide +kernel
theorem witness_MatrixInstructions_accumulators : s0.here.vIdle = true ∧ (4 : Fin 32) ≠ nextReg 4 ∧
    (s0.here.take 0 [.r 8]).isSome = true ∧ s0.hereCore.matrix.accs[(2 : Fin 4)].owner ≠ s0.here.domain ∧
    (let s := (on y0).mapCore 0 (fun k => { k with matrix := { k.matrix with accs := k.matrix.accs.set 2 { Accum.free with owner := 5 } } })
     s.hereCore.matrix.accs[(2 : Fin 4)].owner = s.here.domain ∧ s.hereCore.matrix.drains = [] ∧
     s.hereCore.matrix.running = none ∧ s.hereCore.matrix.queue = []) := by decide +kernel

/-- A barrier at 0x100 of the mapped page: s16 names it; its words are owned by the core. -/
def barrier (y : Ctx) : State :=
  (mapped (y.setReg 16 0x100)).mapCore 0 (fun k => { k with
    l1 := [(0x10100 / 128, { valid := 0xFFFF, owned := 0xFFFF, written := 0, leased := 0, former := false, data := 3, wts := 0, rts := 0,
                             trackWts := 0, copyWts := 0, copyRts := 0, use := 0 })] })
def freshChunk : Chunk := { Chunk.none with active := true }
theorem witness_Barriers : (barrier y0).here.memWait = none ∧ (barrier y0).myPosted = [] ∧
    (barrier y0).placeOf (barrier y0).who 0x100 8 kindRmw .thru = .at (.memory 0x10100 .thisDie 0 .thru) (some page0) ∧
    (barrier y0).placeOf (barrier y0).who 0x108 8 kindRmw .thru = .at (.memory 0x10108 .thisDie 0 .thru) (some page0) ∧
    (barrier y0).placeOf (barrier y0).who 0x108 8 kindRead .thru = .at (.memory 0x10108 .thisDie 0 .thru) (some page0) ∧
    (0x10100 : Nat) % 16 = 0 ∧ ((barrier y0).l1Line 0 (0x10100 / 128)).owned &&& wordMask (0x10100 % 128) 16 =
      wordMask (0x10100 % 128) 16 ∧ ((barrier y0).here.take 0 [.r 16]).isSome = true ∧
    ((barrier y0).here.take 0 [.r 16, .r 8]).isSome = true ∧ (barrier y0).here.chunk.active = false ∧
    (barrier y0).here.optimistic = false ∧ (barrier y0).hereCore.timelost = none ∧
    (let c := (barrier { y0 with chunk := freshChunk }).here.chunk
     c.active = true ∧ c.serial = false ∧ c.reads = [] ∧ c.writes = [] ∧ c.log = [] ∧
       (barrier { y0 with chunk := freshChunk }).hereCore.buffered = []) := by decide +kernel
/-- A barrier in memory of generation 2: the phase reached, not reached; another generation; poisoned. -/
def waited (d0 d1 : Word) : State :=
  { mapped (y0.setReg 16 0x100) with hbm := Memory.setBytes (Memory.setBytes [] 0x10100 (leBytes 8 d0.toNat)) 0x10108 (leBytes 8 d1.toNat) }
theorem witness_Barriers_wait :
    (let w := (waited (2 * 2 ^ 32 + 4) (3 * 2 ^ 32 + 4)).barrierWords 0x10100
     w.1.toNat / 2 ^ 32 % 65536 = 2 ∧ w.1.getLsbD 48 = false ∧ (w.2.toNat / 2 ^ 32 + 2 ^ 32 - 1) % 2 ^ 32 < 2 ^ 31 ∧
       2 ^ 31 ≤ (w.2.toNat / 2 ^ 32 + 2 ^ 32 - 4) % 2 ^ 32) ∧
    ((waited (2 ^ 48 + 2 * 2 ^ 32 + 4) 0).barrierWords 0x10100).1.getLsbD 48 = true ∧
    (waited 4 4).placeOf (waited 4 4).who 0x100 8 kindRead .thru = .at (.memory 0x10100 .thisDie 0 .thru) (some page0) ∧
    (waited 4 4).bars = [] ∧ (waited 4 4).here.deadline = none := by decide +kernel
theorem witness_Barriers_timeout :
    (let w : BarWait := { pa := 0x10100, gen := 2, phase := 1, who := .ctx 0 0, judged := none }
     let s : State := { waking (.interval 9) with bars := [w] }
     s.arg = .nums 0 0 0 ∧ (s.ctx 0 0).wait = .wake ∧ (s.ctx 0 0).deadline = some 7 ∧ 7 ≤ s.quartz ∧ w ∈ s.bars) := by decide

/-! #### Messages, sending, activations, the scheduler -/

def slot1 (f : Slot → Slot) (s : State) : State := s.mapSlot 0 1 f
def stateOf (st : SlotState) : State := slot1 (fun sl => { sl with state := st }) s0

/-- A message from the send unit of core 1 to mailbox 0 of slot 1 of core 0. -/
def arriving (payload : List Word) : Msg :=
  { msg0 with dst := endpointOf 0 1 0, payload, tag := 9, src := .sendUnit 1 2 }
/-- That mailbox, of length n, of a tag, taking a capability in its first doubleword where cap, with room for 2^log. -/
def mailbox (n tag cap log : Nat) (a : List Admit) : State :=
  (slot1 (fun sl => { sl with mboxes := [{ box0 with desc1 := word (n + cap * 8 + log * 65536 + tag * 2 ^ 32) }] }) s0).mapCore 0
    (fun k => { k with guard := { k.guard with admits := a.map (fun v => (0, v)) } })
def admit5 : Admit := { domain := 5, device := 0xFFF, slots := 2 }
/-- The checks of R131 one after another: each failed alone, and all passed, with and without room. -/
theorem witness_MessageArrives : coreOf (arriving []).core = 0 ∧ (arriving []).port = 1 ∧ (arriving []).mbox = 0 ∧
    (stateOf .free).arg = .none ∧ ((stateOf .free).slot 0 1).state = .free ∧ ((stateOf .moved).slot 0 1).state = .moved ∧
    ((slot1 (fun sl => { sl with mboxes := [] }) s0).slot 0 1).mboxes[0]? = none ∧
    ((mailbox 0 0 0 4 []).core 0).guard.admitted (arriving []) 1 = false ∧
    ((mailbox 0 0 0 4 [admit5]).core 0).guard.admitted (arriving []) 1 = true ∧
    (((mailbox 1 0 0 4 [admit5]).slot 0 1).mboxes[0]?).any (fun b => b.plen != (arriving []).payload.length) = true ∧
    (((mailbox 0 8 0 4 [admit5]).slot 0 1).mboxes[0]?).any (fun b => b.plen == 0 && b.tagOf != 0 && b.tagOf != 9) = true ∧
    (((mailbox 0 9 0 4 [admit5]).slot 0 1).mboxes[0]?).any (fun b => b.plen == 0 && b.tagOf == 9) = true ∧
    (((mailbox 1 0 1 4 [admit5]).slot 0 1).mboxes[0]?).any (fun b => b.hmask.testBit 0) = true ∧
    ((mailbox 1 0 1 4 [admit5]).core 0).guard.holds 5 0 = false := by decide +kernel
theorem witness_MessageArrives_room : (((mailbox 0 0 0 4 [admit5]).slot 0 1).mboxes[0]?).any
      (fun b => fullFor ((mailbox 0 0 0 4 [admit5]).core 0) b 5 == false) = true ∧
    ((mailbox 0 0 0 4 [admit5]).slot 0 1).overflow = none ∧
    (((mailbox 0 0 0 4 [admit5]).slot 0 1).mboxes[0]?).any
      (fun b => fullFor { (mailbox 0 0 0 4 [admit5]).core 0 with storeUsed := 1008 } b 5) = true := by decide +kernel

/-- Send right 0: domain 5 may send to every endpoint of this device. s10 names mailbox 0 of slot 2 of core 1. -/
def sending (rights : Bool) (y : Ctx) : State :=
  (on (y.setReg 10 (endpointOf 1 2 0))).mapCore 0 (fun k => { k with guard := { k.guard with
    sendRights := if rights then [(0, ⟨5, 0, 0⟩)] else [] } })
def flying : SendEntry :=
  { msg := arriving [], slot := 1, actor := 7, try1 := false, chunk := false, state := .flying, order := 0, since := 0, tried := 0 }
theorem witness_Sending : ((sending true y0).here.take 0 [.r 10]).isSome = true ∧ (sending true y0).here.memWait = none ∧
    (sending true y0).withdrawn = false ∧ (sending true y0).here.chunk.active = false ∧
    (sending false y0).guardSend 0 5 (endpointOf 1 2 0) ≠ 0 ∧ (sending true y0).guardSend 0 5 (endpointOf 1 2 0) = 0 ∧
    (sending true y0).hereCore.freeSend.isSome = true ∧
    ((sending true y0).toward 0 ((sending true y0).sendMsg (endpointOf 1 2 0) 0 [])).any (fun e => e.state == .held) = false ∧
    ((sending true y0).mapCore 0 (fun k => { k with sends := Vector.replicate 8 (some flying) })).hereCore.freeSend = none ∧
    (let s := (sending true y0).mapCore 0 (fun k => { k with
       sends := k.sends.set 5 (some { flying with state := .held, msg := { msg0 with dst := endpointOf 1 3 0 } }) })
     s.here.sendrec = none ∧ s.guardSend 0 5 (endpointOf 1 2 0) = 0 ∧ s.hereCore.freeSend.isSome = true ∧
     (s.toward 0 (s.sendMsg (endpointOf 1 2 0) 0 [])).any (fun e => e.state == .held) = true) := by
  decide +kernel
def flown (st : SendState) (t1 : Bool) (dst : Word) (q : Nat) (a : Arg) : State :=
  { (on { y0 with sendrec := some (3, none) }).mapCore 0 (fun k => { k with
      sends := k.sends.set 3 (some { flying with state := st, try1 := t1, msg := { msg0 with dst } }) }) with quartz := q, arg := a }
theorem witness_Sending_answers : (flown .flying false (endpointOf 1 2 0) 0 (.answer 0 3 .full)).arg = .answer 0 3 .full ∧
    (((flown .flying false (endpointOf 1 2 0) 0 .none).core 0).sends[(3 : Fin 8)]).any (fun x => !x.chunk && x.slot == act0.slot &&
      x.actor == (s0.slot 0 x.slot).actor) = true ∧
    ((flown .flying true (endpointOf 1 2 0) 0 .none).ctx 0 0).sendrec = some (3, none) ∧
    (let s := flown .held false (endpointOf 1 2 0) 2000 (.nums 0 3 0)
     ((s.core 0).sends[(3 : Fin 8)]).any (fun x => x.state == .held && decide (x.tried + 2000 ≤ s.quartz) && s.isHere x.msg.device) = true) ∧
    (let s := flown .flying false (2 ^ 36 + endpointOf 1 2 0 - 0xFFF * 2 ^ 36) 10000000 (.nums 0 3 0)
     ((s.core 0).sends[(3 : Fin 8)]).any (fun x => !s.isHere x.msg.device && x.state != .behind && decide (x.since + 10000000 ≤ s.quartz)) = true) := by
  decide +kernel

/-- A message waits for slot 1, which is idle; its core has a free context. -/
def startable1 (desc1 : Word) : State :=
  { slot1 (fun sl => { sl with state := .idle, mboxes := [{ box0 with desc1, waiting := [⟨msg0, 0⟩] }] }) s0 with arg := .nums 0 0 0 }
theorem witness_Activations : ((startable1 0x48000).core 0).freeCtx = some 1 ∧ ((startable1 0x48000).core 0).stopped = false ∧
    ((startable1 0x48000).core 0).choose = some (.start 1 false) ∧
    (((startable1 0x48000).slot 0 1).nextMsg 1).isSome = true ∧
    (((startable1 0x48000).slot 0 1).mboxes[0]?).any (fun q => !q.drains && !q.atomic) = true ∧
    (((startable1 0x4A000).slot 0 1).mboxes[0]?).any (fun q => !q.drains && q.atomic) = true := by decide +kernel
def saved1 : Saved :=
  { ctx := y0, heldCtx := 0, reason := 2, cause := 0, waits := .untaken, faddr := 0, finfo := 0, lclk := 4, time := 0,
    order := 0, resumable := true }
theorem witness_Activations_resume :
    (let s := slot1 (fun sl => { sl with state := .suspended, saved := some saved1 }) s0
     (s.core 0).choose = some (.resume 1) ∧ (s.slot 0 1).saved = some saved1 ∧ (s.slot 0 1).state = .suspended) := by decide +kernel
/-- An overflow queue with one message and with two; DONE with no level, and inside a gate; a dying actor. -/
theorem witness_Activations_drain :
    (let s := slot1 (fun sl => { sl with overflow := some ⟨0, 256, [(arriving [], 0), (arriving [], 1)]⟩ }) s0
     (s.slot 0 1).overflow.isSome = true ∧ (s.slot 0 1).state ≠ .evicted ∧ fullFor (s.core 0) box0 5 = false ∧
       (s.slot 0 1).mboxes[0]? = some box0) ∧
    s0.here.act = some act0 ∧ act0.drain = false ∧ s0.here.stack = [] ∧ s0.here.vIdle = true ∧ s0.here.chunk = .none ∧
    s0.chunkSends s0.focus 1 = false ∧ deep.here.stack ≠ [] ∧ ((stateOf .dying).slot 0 1).state = .dying ∧
    ((stateOf .evicted).slot 0 1).state = .evicted := by decide +kernel

/-- Context 0 waits for a store and context 1 runs; a period has passed; a budget is used up; a token is asked for. -/
def scheduled : State :=
  { (on { y0 with wait := .wake, watch := some (.spad 0 3) }).mapCore 0 (fun k => { k with
      ctxs := k.ctxs.set 1 { y0 with act := some { act0 with slot := 2 } },
      budgets := [⟨5, 10, 1000, 0, 0⟩] }) with arg := .nums 0 0 0, quartz := 10000 }
theorem witness_SchedulerEvents : scheduled.unblocked 0 (scheduled.core 0).cur = false ∧ scheduled.bestCtx 0 (fun _ => true) = some 1 ∧
    (scheduled.core 0).budgets[0]? = some ⟨5, 10, 1000, 0, 0⟩ ∧ (0 : Nat) < scheduled.quartz / (10 * 1000) ∧
    (scheduled.ctx 0 1).act.isSome = true ∧ (scheduled.core 0).left (scheduled.ctx 0 1).payer = some 0 := by decide +kernel
def waiting1 : FaultWait :=
  ⟨.slot 0 1, { detail := 0, addr := 0x40, domain := 5, core := 0, slot := 1, path := 0, kind := 0, status := 0, cause := 1 }⟩
theorem witness_SchedulerEvents_token :
    (let s := (slot1 (fun sl => { sl with state := .suspended, saved := some saved1 }) s0).mapCore 0 (fun k => { k with faultQueue := [waiting1] })
     (s.core 0).faultQueue = [waiting1] ∧ waiting1.who = .slot 0 1 ∧ (s.slot 0 1).saved = some saved1 ∧
     ((s.mapCore 0 (fun k => { k with faultQueue := [] })).takeToken (dieOf 0) waiting1.entry waiting1.who).isSome = true) := by
  decide +kernel
theorem witness_SchedulerEvents_grace :
    (let s : State := { on { y0 with graceEnd := some 5 } with arg := .nums 0 1 0, quartz := 5 }
     (s.ctx 0 0).act = some act0 ∧ act0.slot = 1 ∧ (s.ctx 0 0).graceEnd = some 5 ∧ 5 ≤ s.quartz) := by decide +kernel
/-- A chunk that has read one line and written another, at its end, with the lines of some dies reserved; the line it read
as its home has it. -/
def commit0 (reserved : List Nat) : Chunk :=
  { Chunk.none with active := true, committing := true, t0 := 8, reads := [(0x200, 1)], writes := [⟨0x201, 7, 1, 0, []⟩],
                    reserved }
def committing (reserved : List Nat) (wts : Nat) (other : Option Chunk) : State :=
  { (on { y0 with chunk := commit0 reserved }).mapCore 0 (fun k => match other with
      | none => k
      | some o => { k with ctxs := k.ctxs.set 1 { y0 with chunk := o } }) with
    dies := [(0, { Die.reset with home := [(0x200, { DirLine.fresh 0 with wts := wts })] })], arg := .nums 0 0 0 }
/-- No die reserved and all; a line read that has been written since, and one that has not. -/
theorem witness_SchedulerEvents_commit :
    (let s := committing [] 8 none
     (s.ctx 0 0).chunk.active = true ∧ (s.ctx 0 0).chunk.committing = true ∧ (s.ctx 0 0).chunk.serial = false ∧
     (s.ctx 0 0).act = some act0 ∧ s.deviceToken = none ∧ (∀ d : DieId, (s.die d).token = none) ∧
     (s.ctx 0 0).chunk.dies.find? (fun d => !(s.ctx 0 0).chunk.reserved.contains d.val) = some 0 ∧ s.commitsOn 0 0 0 = [] ∧
     (s.settleChunk (s.ctx 0 0).chunk (fun l => lineDie l == 0)).any (fun u =>
       decide ((u.dir (.slice 0) 0x200).wts ≤ 8)) = true) ∧
    (committing [] 9 none).commitsOn 0 0 0 = [] ∧
    ((committing [] 9 none).settleChunk ((committing [] 9 none).ctx 0 0).chunk (fun l => lineDie l == 0)).any (fun u =>
       decide (8 < (u.dir (.slice 0) 0x200).wts)) = true ∧
    (let s := committing [0] 8 none
     (∀ d ∈ (s.ctx 0 0).chunk.dies, d.val ∈ (s.ctx 0 0).chunk.reserved) ∧
     (s.settleChunk (s.ctx 0 0).chunk (fun _ => true)).any (fun u => decide ((u.dir (.slice 0) 0x200).wts ≤ 8 ∧
       max (u.lclkNow 0) 8 ≤ 8 ∧ (u.dir (.slice 0) 0x201).rts + 1 ≤ 8 ∧ 8 ≤ u.quartz + Config.guardNs ∧
       (u.core 0).timelost = none)) = true) ∧
    ((committing [0] 9 none).settleChunk ((committing [0] 9 none).ctx 0 0).chunk (fun _ => true)).any (fun u =>
       decide (8 < (u.dir (.slice 0) 0x200).wts)) = true := by decide +kernel
/-- The lines of a die can be reserved, and the tracked copies of what is written are gone. -/
theorem witness_SchedulerEvents_reserves :
    (let s := committing [] 8 none
     (s.settleChunk (s.ctx 0 0).chunk (fun l => lineDie l == 0)).any (fun u => (u.reserveChunk 0 0 act0.slot 0).isSome) = true) ∧
    (let s := committing [0] 8 none
     (s.settleChunk (s.ctx 0 0).chunk (fun _ => true)).any (fun u => (u.invChunk (s.ctx 0 0).chunk).any (fun w =>
       decide ((w.dir (.slice 0) 0x200).wts ≤ 8 ∧ max (w.lclkNow 0) 8 ≤ 8 ∧ (w.dir (.slice 0) 0x201).rts + 1 ≤ 8 ∧
         8 ≤ w.quartz + Config.guardNs ∧ (w.core 0).timelost = none))) = true) ∧
    (let s := committing [0] 9 none
     (s.settleChunk (s.ctx 0 0).chunk (fun _ => true)).any (fun u => (u.invChunk (s.ctx 0 0).chunk).any (fun w =>
       decide (8 < (w.dir (.slice 0) 0x200).wts))) = true) := by decide +kernel
/-- Another chunk that has reserved the same line of the die, whatever the bits of the signatures are. -/
theorem witness_SchedulerEvents_meets : commit0 [0] ∈ (committing [] 8 (some (commit0 [0]))).commitsOn 0 0 0 ∧
    (commit0 []).meets (commit0 [0]) = true := by
  refine ⟨by decide +kernel, ?_⟩
  have : (BitVec.twoPow 2048 (Config.sigBit 0x201).val) &&& (BitVec.twoPow 2048 (Config.sigBit 0x200).val |||
      BitVec.twoPow 2048 (Config.sigBit 0x201).val) ≠ 0 := fun e => by
    have hb := congrArg (·.getLsbD (Config.sigBit 0x201).val) e
    simp at hb
  simp only [Chunk.meets, Chunk.rsig, Chunk.wsig, commit0, signature, List.map, List.foldl]
  simpa using .inr this
/-- A context at a gate transition, and another that can go on. -/
theorem witness_SchedulerEvents_gate :
    (let s := (on { y0 with wait := .gateMove }).mapCore 0 (fun k => { k with
       ctxs := k.ctxs.set 1 { y0 with act := some { act0 with slot := 2 } } })
     (s.ctx 0 (s.core 0).cur).act.isSome = true ∧ (s.ctx 0 (s.core 0).cur).wait = .gateMove ∧
     s.bestCtx 0 (· != (s.core 0).cur) = some 1) := by decide +kernel

/-! #### Guard control, the cluster TLB, the system actor -/

/-- A kernel actor's message to a port of core c, with its reply endpoint at the end of its payload. -/
def command (c port : Nat) (ws : List Word) : Msg :=
  { msg0 with dst := endpointOf c port 0, sender := (endpointOf 3 1 0).setWidth 48, domain := 0, payload := ws ++ [endpointOf 3 1 0],
              src := .sendUnit 3 0 }
def told (m : Msg) (s : State) : State := { s with arg := .msg m }
theorem asked_guard : Asked (told (command 0 21 [5]) s0) 0 (command 0 21 [5]) 21 2 (endpointOf 3 1 0) :=
  ⟨rfl, by decide, rfl, by decide, rfl, by decide⟩
theorem asked_guard_far : Asked (told (command 1 21 [5, 6, 7]) s0) 1 (command 1 21 [5, 6, 7]) 21 4 (endpointOf 3 1 0) :=
  ⟨rfl, by decide, rfl, by decide, rfl, by decide⟩
theorem asked_guard_three : Asked (told (command 0 21 [5, 6]) s0) 0 (command 0 21 [5, 6]) 21 3 (endpointOf 3 1 0) :=
  ⟨rfl, by decide, rfl, by decide, rfl, by decide⟩
theorem asked_guard_one : Asked (told (command 0 21 []) s0) 0 (command 0 21 []) 21 1 (endpointOf 3 1 0) :=
  ⟨rfl, by decide, rfl, by decide, rfl, by decide⟩
/-- Each command's first doubleword: an entry to load and to clear, a share of a data and of a stack region, a
capability, a full table and one with room, entries that stand in their table and that do not. -/
theorem witness_GuardControl : ((Instr.collgrp, 4, true) ∈ guardCommands) ∧ (1 : Nat) % 256 ≠ 0 ∧
    bitOf (word (2 ^ 16 + 5)) 16 = true ∧ bitOf (word 5) 16 = false ∧ bitsOf (word (2 ^ 16 + 5)) 63 17 = 0 ∧
    ((s0.slot 0 (slotOf (bitsOf (word (7 * 2 ^ 16 + 1)) 3 0))).regions[bitsOf (word (7 * 2 ^ 16 + 1)) 6 4]?).any (fun r => !r.stack) = true ∧
    (((slot1 (fun sl => { sl with regions := sl.regions.map (fun r => { r with stack := true }) }) s0).slot 0 1).regions[0]?).any
      (fun r => r.stack) = true ∧
    tabFree (s0.core 0).guard.shares 32 = some 0 ∧
    tabFree ((List.range 32).map (fun i => (i, (⟨1, 0, 5, true⟩ : Share)))) 32 = none ∧
    isCapability (word (7 * 2 ^ 48 + 2 ^ 44 + 3)) = true ∧ word (7 * 2 ^ 48 + 2 ^ 44 + 3) ∉ (s0.core 0).guard.caps ∧
    tabFree (s0.core 0).guard.sendRights 64 = some 0 ∧
    tabFree ((List.range 64).map (fun i => (i, (⟨5, 0, 0⟩ : SendRight)))) 64 = none ∧
    tabIndex [(4, (⟨5, 0, 0⟩ : SendRight))] ⟨5, 0, 0⟩ = some 4 ∧
    tabFree (s0.core 0).guard.admits 64 = some 0 ∧ tabIndex [(63, admit5)] admit5 = some 63 ∧
    bitOf (word (2 ^ 32 + 5)) 32 = true ∧ bitsOf (word 10) 63 16 = 0 ∧
    (BitVec.ofNat 16 (bitsOf (word 0xFFFF) 15 0) : BitVec 16) = 0xFFFF ∧ bitsOf (word (0xFFFF * 2 ^ 16 + 1)) 31 16 = 0xFFFF ∧
    bitsOf (word (0xFFFF * 2 ^ 48 + 2 ^ 44)) 63 48 = 0xFFFF ∧ 5 < bitsOf (word (7 * 2 ^ 48 + 6 * 2 ^ 44)) 47 44 := by decide +kernel
/-- ALLOT at both ends of its period and with the largest allotment. -/
theorem witness_GuardControl_allot : (BitVec.ofNat 16 (bitsOf (word 5) 15 0) : BitVec 16) ≠ 0 ∧ 10 ≤ (word 10).toNat ∧
    (word 100000).toNat ≤ 100000 ∧ (word 40000).toNat ≤ 4 * (word 10).toNat * 1000 := by decide
/-- KILL with an activation it touches; a group of two members; a window to the end of memory; a queue of this die;
tokens with and without an entry; causes that RESOLVE may fail with and may not. -/
theorem witness_GuardControl_kernel : (s0.ctx 0 0).act.isSome = true ∧ killTouches (s0.dead 0 5) (s0.ctx 0 0) = true ∧
    bitOf (word (2 ^ 20 + 4096)) 20 = true ∧ bitsOf (word (2 ^ 20 + 4096)) 19 8 + 1 = 17 ∧
    bitsOf (word (2 ^ 20 + 256)) 19 8 + 1 = 2 ∧ (word (Config.hbmEnd - 65536)).toNat % 65536 = 0 ∧
    (word (Config.hbmEnd - 65536)).toNat + 65536 * (word 1).toNat ≤ Config.hbmEnd ∧
    tabGet (s0.die (dieOf 0)).faultTokens 3 = none ∧ failCause 1 = true ∧ failCause 3 = true ∧ failCause 19 = false := by decide +kernel
/-- The memory that lists the members holds small numbers; a queue no one has used stands on the die asked. -/
theorem witness_GuardControl_kernel_reads :
    (∀ i < 2, leNat (((told (command 0 21 [word (2 ^ 20 + 256), 0x2000, 1000]) (mapped y0)).answerTo 0
      (command 0 21 [word (2 ^ 20 + 256), 0x2000, 1000]) .accepted).kernelRead 0 (0x2000 + 4 * i) 4) < 2 ^ 23) ∧
    ((told (command 0 21 [0x3000, 4]) (mapped y0)).queueOf (dieOf 0) 0x3000).die = (dieOf 0).val := by decide +kernel
/-- A queue on die 0 whose descriptor lies at kernel address 0x1000, with 16 packets at 0x2000; its head packet has a
type, and names a launch block at 0x4000. -/
def queueBytes (ty : Nat) (pub : Bool) : Memory :=
  Memory.setBytes (Memory.setBytes [] 0x21000 (leBytes 32 (4 + 0xFFFF * 2 ^ 16 + 100 * 2 ^ 48 + 0x2000 * 2 ^ 64 + 0x3000 * 2 ^ 128 + 0x3100 * 2 ^ 192)))
    0x22000 (leBytes 16 ((if pub then ty * 2 ^ 32 else 0) + 0x4000 * 2 ^ 64))
def queued (ty : Nat) (pub : Bool) (q : Queue → Queue) : State :=
  let s : State := { mapped y0 with hbm := queueBytes ty pub, arg := .nums 0 0x1000 0, quartz := 2000000 }
  s.putQueue 0 0x1000 (q { s.queueOf 0 0x1000 with idleSince := 0 })
/-- What the front end's reading answers. -/
def gotIs {α : Type} (r : Got α) (f : State → α → Bool) : Bool := match r with | .got s a => f s a | _ => false
def badIs {α : Type} (r : Got α) (f : State → Bool) : Bool := match r with | .bad s => f s | _ => false
/-- RIGHTS for domain 0; a queue of another die; and an index that a published packet allows, that none does, and whose packets
cannot be read yet. -/
def repairing (pub : Bool) (tlb : List TlbEntry) : State :=
  { told (command 0 21 [0x1000, 1]) (queued 2 pub id) with clusters := [(0, { Cluster.reset with tlb })] }
theorem witness_GuardControl_repair :
    BitVec.ofNat 16 (bitsOf (word (2 ^ 16)) 15 0) = (0 : BitVec 16) ∧ bitOf (word (2 ^ 16)) 16 = true ∧ bitOf (word 0) 16 = false ∧
    (let s : State := { told (command 256 21 [0x1000, 1]) (queued 2 true id) with clusters := [(8, { Cluster.reset with tlb := [kpage0] })] }
     (s.queueOf (dieOf 256) 0x1000).die ≠ (dieOf 256).val) ∧
    (let s := repairing true [page0, kpage0]
     gotIs (repairs (frontRead 0 0x1000 0) (s.queueOf 0 0x1000) 1 s) (fun v ok => ok && (v.queueOf 0 0x1000).die == 0) = true) ∧
    (let s := repairing false [page0, kpage0]
     gotIs (repairs (frontRead 0 0x1000 0) (s.queueOf 0 0x1000) 1 s) (fun v ok => !ok && (v.queueOf 0 0x1000).die == 0) = true) ∧
    (let s : State := { repairing true [page0, kpage0] with hbm := Memory.setBytes (queueBytes 2 true) 0x21008 (leBytes 8 0x12000) }
     (match repairs (frontRead 0 0x1000 0) (s.queueOf 0 0x1000) 1 s with | .wait _ => true | _ => false) = true) := by decide +kernel
theorem witness_GuardControl_reader (mem : Word → List Byte) :
    ∀ (v : State) (a : Word), (fun v a _ => .got v (mem a) : Reader) v a 8 = .got v (mem a) := fun _ _ => rfl
theorem witness_GuardControl_resolve :
    (let s := (slot1 (fun sl => { sl with state := .suspended, saved := some saved1 }) s0).mapDie 0 (fun d => { d with
       faultTokens := [(3, ⟨5, 1, 0, 0, [.slot 0 1]⟩)] })
     (tabGet (s.die (dieOf 0)).faultTokens 3).any (fun k => k.waiters == [.slot 0 1]) = true ∧ (s.slot 0 1).saved = some saved1) := by
  decide +kernel

/-- A command of port 20 goes to the service core of cluster 0. Its entry is one of R236, or reserved. -/
theorem asked_tlb : Asked (told (command 1 20 [1, 2, 3]) s0) 1 (command 1 20 [1, 2, 3]) 20 4
    ((command 1 20 [1, 2, 3]).sender.zeroExtend 64) ∧ (1 : CoreId).val % 32 = 1 :=
  ⟨⟨rfl, by decide, rfl, by decide, rfl, by decide⟩, rfl⟩
theorem witness_ClusterTlb : s0.entryBroken 0 (nth page0.words 0) (nth page0.words 1) = false ∧ s0.entryBroken 0 0 0 = false ∧
    bitOf (nth page0.words 0) 63 = true ∧ s0.entryBroken 0 (nth page0.words 0 ||| 1) (nth page0.words 1) = true ∧
    (s0.cluster 0).tlb.length < 8192 ∧ bitsOf (word (2 ^ 48 * 5 + 2)) 47 16 = 0 ∧ bitsOf (word (256 + 1)) 63 16 = 0 ∧
    bitsOf (word (256 + 1)) 15 8 = causePage ∧ bitsOf (word (16 * 256 + 1)) 15 8 = causeProt ∧
    ((mapped y0).cluster 0).tlb[1]? = some kpage0 := by decide +kernel
/-- A word of a scratchpad with no error, with one that can be corrected, and one that is lost. -/
theorem witness_ScratchpadAccess_errors :
    (s0.core 0).bankErr 0 0 = none ∧
    (let s := s0.mapCore 0 (fun k => { k with spadErrs := [⟨0, 0, false⟩] })
     (s.core 0).bankErr 0 0 = some false ∧ (s.core 0).wordLost 0 = false) ∧
    (let s := s0.mapCore 0 (fun k => { k with spadErrs := [⟨0, 0, true⟩, ⟨1, 0, true⟩] })
     (s.core 0).wordLost 0 = true) := by decide +kernel
theorem witness_ClusterTlb_absent :
    (let s : State := { s0 with clusters := [(0, { Cluster.reset with misses := [(2, ⟨5, 0, [⟨.ctx 0 0, 0x40, 0, 1⟩]⟩)] })] }
     tabGet (s.cluster 0).misses 2 = some ⟨5, 0, [⟨.ctx 0 0, 0x40, 0, 1⟩]⟩) := by decide +kernel

/-- A request to the system actor of core 0 with a tag, about slot 1. -/
def requested (tag : Nat) (ws : List Word) (s : State) : State :=
  { s.mapSlot 0 0 (fun sl => { sl with
      mboxes := sl.mboxes.modify 1 (fun b => { b with waiting := [⟨{ msg0 with tag := BitVec.ofNat 8 tag, payload := ws, domain := 0 }, 0⟩] }) })
    with arg := .nums 0 0 0 }
def request (tag : Nat) (ws : List Word) : Msg := { msg0 with tag := BitVec.ofNat 8 tag, payload := ws, domain := 0 }
theorem requested_head : (requested 0x57 [1, 0, 0, 16, 0] s0).sysHead 0 1 = some (request 0x57 [1, 0, 0, 16, 0]) := by decide +kernel
theorem witness_Requested : Requested (requested 0x57 [1, 0, 0, 16, 0] s0) 0 (request 0x57 [1, 0, 0, 16, 0]) 0x57 :=
  ⟨⟨0, rfl⟩, requested_head, by decide⟩
theorem witness_EvictAndRestore : slotOf (bitsOf (word 1) 3 0) = 1 ∧ (word 0x1000) &&& 0xFFF = 0 ∧ 16 ≤ bitsOf (word 16) 16 0 ∧
    bitsOf (word 65536) 16 0 ≤ 65536 ∧ ((stateOf .idle).slot 0 1).evicting = none ∧ ((stateOf .idle).slot 0 1).state = .idle ∧
    ((stateOf .evicted).slot 0 1).state = .evicted ∧ ((stateOf .active).ctx 0 0).act = some act0 := by decide +kernel
theorem witness_EvictAndRestore_ready :
    (let r : EvictReq := { begun := true, accmask := 1, image := 0x1000, overflow := 0x8000, quota := 16, reply := endpointOf 3 1 0 }
     let s : State := { slot1 (fun sl => { sl with evicting := some r, state := .idle }) s0 with arg := .nums 0 1 0 }
     r.begun = true ∧ (s.core 0).spad.wf = true ∧
     (s.slot 0 1).evicting = some r ∧ s.evictReady 0 1 r.accmask = true) := by decide +kernel
/-- An EVICT that waited for a drain, which has ended. -/
theorem witness_EvictAndRestore_drain :
    (let r : EvictReq := { begun := false, accmask := 1, image := 0x1000, overflow := 0x8000, quota := 16, reply := endpointOf 3 1 0 }
     let s : State := { slot1 (fun sl => { sl with evicting := some r }) s0 with arg := .nums 0 1 0 }
     (s.slot 0 1).evicting = some r ∧ r.begun = false ∧ (s.core 0).drainsTo 1 = false ∧ (s.slot 0 1).state = .active ∧
     (s.ctx 0 0).act = some act0 ∧ act0.slot = 1) := by decide +kernel
/-- Images: of no version; of an actor that is evicted there and of one that is not; with a free slot, its own, and
with none. -/
theorem witness_EvictAndRestore_restore :
    (let img := Image.ofBytes (List.replicate 0x60 0)
     img.version ≠ 1) ∧
    (let img := Image.ofBytes (0x01 :: 0x01 :: List.replicate 0x5E 0)
     let s := slot1 (fun sl => { sl with state := .evicted, regions := [], image := some (0x1000, [6]) }) s0
     img.version = 1 ∧ img.slot = 1 ∧ img.core = 0 ∧ (s.slot img.core img.slot).state = .evicted ∧
     (s.slot img.core img.slot).image = some (0x1000, [6]) ∧ ((stateOf .idle).slot img.core img.slot).state ≠ .evicted ∧
     (s.core 0).restoreSlot (img.core = 0) img.slot 0 = some 1 ∧ (s.core 0).restoreSlot false img.slot 1 = none ∧
     (s.core 1).restoreSlot (decide (img.core = 1)) img.slot 0 = some 1 ∧ img.claimed = [] ∧ img.mask = 0 ∧
     (s.slot img.core img.slot).saved = none ∧
     (placeSaved (s.core 0).regions [⟨0, 0x10000, false, 6⟩] true).isSome = true) := by decide +kernel
/-- Each state of R118; a saved activation preempted, and not; its activation's own slot. -/
theorem witness_ActorLife : [SlotState.free, .idle, .active, .suspended, .evicted, .moved, .dying].all (fun st =>
      ((stateOf st).slot 0 1).state == st) = true ∧
    ((slot1 (fun sl => { sl with state := .suspended, saved := some saved1 }) s0).slot 0 1).saved = some saved1 ∧
    saved1.reason = 2 ∧ saved1.ctx.act = some act0 ∧ bitOf (word 1) 8 = false ∧ bitOf (word 0x101) 8 = true ∧
    (s0.slot 0 1).saved = none := by decide +kernel

/-- An actor table entry with one region of 64 bytes and one mailbox of one doubleword, and the words beside it. -/
def entryWords : List Word :=
  [word (2 * 2 ^ 20 + 1 * 2 ^ 22 + 1 * 2 ^ 26 + 1 * 2 ^ 30), 0x8000, 0, 0, 0, 0, 0, 0]
def boxBytes : List Byte := leBytes 8 0x2000 ++ leBytes 8 0x48000
def regionBytes : List Byte := leBytes 8 (64 + 6 * 2 ^ 32)
theorem witness_ActorLife_entry : (entryRegions entryWords, entryMailboxes entryWords, entryInits entryWords) = (1, 1, 0) ∧
    (parseActor entryWords boxBytes regionBytes []).isSome = true ∧ parseActor [] [] [] [] = none ∧
    (parseActor entryWords boxBytes regionBytes []).all (fun p => p.cls != 0) = true ∧
    (s0.core 0).pickSlot 0 = some 2 ∧ (s0.core 0).pickSlot 1 = none ∧
    (parseActor entryWords boxBytes regionBytes []).all (fun p => (placeRegions (s0.core 0).regions (wanted p)).isSome) = true ∧
    placeRegions [⟨0, Config.spadBytes, false, 6⟩] [(64, 6, false)] = none := by decide +kernel
def plan1 : PlanActor :=
  { slot := 2, fixed := true, core := 0, pclass := 0, cls := 2, weight := 1, tvec := 0x8000, stack := none, regions := [(64, 6)],
    mboxes := [(0x2000, 0x48000)], inits := [] }
def launched : Launch :=
  { die := 0, domain := 5, block := 0, complete := endpointOf 3 1 0, control := 0, usertag := 0, lattol := 100, pweight := 1,
    mul := clkReset, floor := clkReset, hold := 0, grant := clkReset, seq := 1, effective := clkReset, effectiveSeq := 1,
    actors := [⟨0, 2, plan1, 0, false, false⟩], state := .creating, status := 0, endedAt := none }
theorem witness_ActorLife_launch :
    (let m : Msg := { msg0 with tag := 0x4C, payload := [0, 1, 0, 0], domain := 0 }
     let s : State := { s0.mapSlot 0 0 (fun sl => { sl with mboxes := sl.mboxes.modify 0 (fun b => { b with waiting := [⟨m, 0⟩] }) })
                        with arg := .nums 0 0 0, launches := [(1, launched)] }
     s.sysHead 0 0 = some m ∧ m.tag = 0x4C ∧ tabGet s.launches (bitsOf (m.dword 1) 31 0) = some launched ∧
     launched.actors[bitsOf (m.dword 1) 39 32]? = some ⟨0, 2, plan1, 0, false, false⟩ ∧ launched.state = .creating ∧
     (s.slot 0 2).state = .free ∧ (placeRegions (s.core 0).regions (wanted plan1)).isSome = true) := by decide +kernel

/-- The first and the last die to boot; each later step, with and without IO-A in service; and what may fail in each. -/
def booting (b : Nat) (a : Arg) : State := { State.reset with boot := b, arg := a }
theorem witness_BringUpAndReset : (booting 1 (.boot 0 0x4000 7)).arg = .boot 0 0x4000 7 ∧
    (0 : DieId).val + 1 = (booting 1 (.boot 0 0x4000 7)).boot ∧ (7 : DieId).val + 1 = (booting 8 (.boot 7 0x4000 7)).boot ∧
    (booting 8 (.boot 7 0x4000 7)).ready.getLsbD (16 + 7) = false ∧ State.reset.hbm.wf = true ∧
    [0, 9, 10, 11].all (fun b => (booting b (.nums 0 0 0)).arg == .nums 0 0 0 && (booting b (.nums 0 0 0)).boot == b &&
      !(booting b (.nums 0 0 0)).garnetA.frozen) = true ∧
    (booting 11 (.nums 0 0 0)).standby = false ∧ ({ booting 11 (.nums 0 0 0) with standby := true } : State).standby = true ∧
    ({ booting 10 (.nums 0 0 0) with ready := 0x10000 } : State).ready.getLsbD (16 + (clusterDie 0).val) = true ∧
    (booting 0 (.nums 1 0 0)).arg = .nums 1 0 0 ∧ (booting 1 (.nums 2 2 0)).arg = .nums 2 2 0 ∧
    (2 ≤ (booting 8 (.nums 2 2 0)).boot ∧ (booting 8 (.nums 2 2 0)).boot ≤ 8) ∧
    ((booting 9 (.nums 3 4 0)).boot = 9 ∧ (booting 11 (.nums 3 6 0)).arg = .nums 3 6 0) := by decide +kernel
theorem witness_BringUpAndReset_quiet (g : ClusterId) : ((booting 10 (.nums 0 0 0)).cluster g).misses = [] := rfl
theorem witness_BringUpAndReset_free :
    (({ booting 10 (.nums 0 0 0) with ready := 0x10000 } : State).slot (serviceCore 0) (slotOf (serviceSlot 0))).state = .free := by
  have h : ∀ n : SlotId, n ≠ 0 →
      (({ booting 10 (.nums 0 0 0) with ready := 0x10000 } : State).slot (serviceCore 0) n).state = .free := by decide +kernel
  refine h _ fun e => ?_
  have := congrArg Fin.val e
  have := (Config.translationSlot (0 : ClusterId).val).isLt
  simp [slotOf, serviceSlot] at *
  omega

/-! #### The front end, launches, clocks -/

def headType (s : State) : Nat :=
  match (s.putQueue 0 0x1000 (s.queueOf 0 0x1000)).queueHead 0 0x1000 (s.queueOf 0 0x1000) with
  | (_, some ws) => packetType ws
  | (_, none) => 0
/-- A NOP, a packet of reserved type, a launch; and none: the queue idle, asleep, woken. -/
theorem witness_QueuesAndLaunch : (queued 2 true id).arg = .nums (0 : DieId).val 0x1000 0 ∧
    ((queued 2 true id).queueOf 0 0x1000).die = (0 : DieId).val ∧ headType (queued 2 true id) = 2 ∧
    headType (queued 3 true id) = 3 ∧ headType (queued 255 true id) = 255 ∧ headType (queued 1 true id) = 1 ∧
    headType (queued 2 false id) = 0 ∧ ((queued 2 false id).queueOf 0 0x1000).plan = none ∧
    ((queued 2 false id).queueOf 0 0x1000).idleSince + 1000000 ≤ (queued 2 false id).quartz ∧
    ((queued 1 true id).queueOf 0 0x1000).held = false := by decide +kernel
theorem witness_QueuesAndLaunch_sleep :
    (let q := (queued 2 false (fun q => { q with state := 1 })).queueOf 0 0x1000
     q.state = 1 ∧ q.waking = none) ∧
    (let q := (queued 2 false (fun q => { q with state := 1, waking := some 9 })).queueOf 0 0x1000
     q.state = 1 ∧ q.waking.isSome = true) := by decide +kernel

/-- The launch block lies in host memory at 0x4000 of domain 5, and its words and those of the line after it have come. -/
def launching (block : List Word) (line : List Byte) : State :=
  let bs := (block.map (leBytes 8 ·.toNat)).flatten ++ line
  { queued 1 true id with
    clusters := [(0, { Cluster.reset with tlb := [{ page0 with home := 2 }, kpage0] })],
    farReads := (List.range 3).map (fun i => (i, ⟨.front 0 0x1000, placeLine 0x14000 .host + i, 0xFFFF, 0xFFFF,
      BitVec.ofNat 1024 (leNat ((bs.drop (128 * i)).take 128)), false⟩)) }
/-- A block of domain 5 with one actor, whose entry stands at an address. -/
def block5 (table : Word) : List Word :=
  [word (5 + 2 ^ 16 + 2 ^ 24), 0, 0, table, 0, 0x18201E18, 0x18201E18, 1, endpointOf 3 1 0, 0, 7] ++ List.replicate 21 0
/-- The state and the packet that the front end has at the head of the queue, and the block that it finds. -/
def headed (s : State) (f : State → List Word → Bool) : Bool :=
  match (s.putQueue 0 0x1000 (s.queueOf 0 0x1000)).queueHead 0 0x1000 (s.queueOf 0 0x1000) with
  | (u, some ws) => f u ws
  | (_, none) => false
def finds (s : State) (f : State → List Word × Bool → Bool) : Bool :=
  headed s (fun u ws => packetType ws == 1 && gotIs (findBlock (frontRead 0 0x1000) (nth ws 1)
    (u.blockDomains 0 0x1000 (s.queueOf 0 0x1000).ri (nth ws 1)) none u) (fun v r => r.any (f v)))
/-- A block that breaks R147; one whose domain an interface of another function runs; one whose actor table lies in a
scratchpad; and one whose plan can be read. -/
theorem witness_QueuesAndLaunch_block :
    finds (launching (5 :: List.replicate 31 0) []) (fun _ r => r.2 && blockBroken r.1) = true ∧
    finds { launching (block5 0x4100) [] with vfs := [(2, { state := .run, domains := [5], interval := 0, renewed := 0 })] }
      (fun v r => r.2 && !blockBroken r.1 && !v.queueServes (domainField (nth r.1 0)) 0xFFFF) = true ∧
    finds (launching (block5 (word Config.opwBase)) []) (fun v r => r.2 && !blockBroken r.1 && badIs (readPlan (frontRead 0 0x1000
      (domainField (nth r.1 0))) 0xFFFF (domainField (nth r.1 0)) 0x4000 r.1 v) (fun _ => true)) = true := by decide +kernel
/-- A plan that fits and one of more actors than there are slots on the core they name; a grant, and none under a
small cap. -/
def plan2 (core : Nat) : Plan :=
  { domain := 5, block := 0, table := 0, complete := endpointOf 3 1 0, control := 0, usertag := 0, lattol := 100, pweight := 1,
    mul := clkReset, floor := clkReset, hold := 0, actors := [{ plan1 with core }], map := [] }
def placing (core cap : Nat) : State :=
  { queued 1 true (fun q => { q with plan := some (plan2 core) }) with ready := 0xFFFF0000, arbiter := { Arbiter.reset with cap := cap } }
theorem witness_QueuesAndLaunch_plan :
    ((placing 1 3000).queueOf 0 0x1000).plan = some (plan2 1) ∧ (plan2 1).pages = [] ∧
    ((placing 1 3000).queueOf 0 0x1000).held = false ∧
    headed (placing 1 3000) (fun u ws => packetType ws == 1 && u.queueServes 5 0xFFFF) = true ∧
    headed { placing 1 3000 with vfs := [(2, { state := .error, domains := [5], interval := 0, renewed := 0 })] }
      (fun u ws => packetType ws == 1 && !u.queueServes 5 0xFFFF) = true ∧
    ((placing 1 3000).placeAll (plan2 1) [] (plan2 1).actors []) = some [(1, 2)] ∧
    ((placing 0 3000).placeAll (plan2 0) [] (plan2 0).actors []) = none ∧
    ((placing 1 3000).askNew (Ask.of clkReset clkReset 0 1 [1])).isSome = true ∧
    ((placing 1 0).askNew (Ask.of clkReset clkReset 0 1 [1])).isNone = true := by decide +kernel

/-- The plan of a block just found, with its actor's entry, mailbox and region in the line after it. -/
theorem witness_QueuesAndLaunch_ready :
    finds (launching (block5 0x4100) (((((entryWords.set 2 0x4140).set 3 0x4150).map (leBytes 8 ·.toNat)).flatten ++ boxBytes) ++ regionBytes))
      (fun v r => r.2 && gotIs (readPlan (frontRead 0 0x1000 5) 0xFFFF 5 0x4000 r.1 v) (fun w p =>
        p.actors.length == 1 && p.domain == 5 && ((w.putQueue 0 0x1000 { w.queueOf 0 0x1000 with plan := some p }).farClear
          (frontEng 0 0x1000 5)).launchCount == 0)) = true := by decide +kernel
/-- A packet that names a block in a scratchpad, which nothing reads. -/
theorem witness_QueuesAndLaunch_nowhere : headed { queued 1 true id with hbm := Memory.setBytes (queueBytes 1 true) 0x22008 (leBytes 8 Config.opwBase) }
      (fun _ ws => packetType ws == 1 && nth ws 1 == word Config.opwBase) = true ∧
    ∀ (ds : List (BitVec 16)) (s : State), findBlock (frontRead 0 0x1000) (word Config.opwBase) ds none s = .got s none := by
  refine ⟨by decide +kernel, fun ds s => ?_⟩
  induction ds with
  | nil => rfl
  | cons v r ih =>
    have h : frontRead 0 0x1000 v s (word Config.opwBase) 256 = .bad s := by
      rw [frontRead, if_neg (by decide), if_pos (by simp [show Config.opwBase < (word Config.opwBase).toNat + 256 from by decide])]
    rw [findBlock, h]
    exact ih
/-- A reader that reads the block of one domain only, and that names itself or another. -/
theorem witness_QueuesAndLaunch_reader (n : Nat) :
    let mem : BitVec 16 → Option (List Byte) := fun v => if v = 5 then some (leBytes 8 n ++ List.replicate 248 0) else none
    let rd : BitVec 16 → Reader := fun v w _ _ => match mem v with | some bs => .got w bs | none => .bad w
    (∀ v w, rd v w 0x4000 256 = (match mem v with | some bs => .got w bs | none => .bad w)) ∧ mem 6 = none := ⟨fun _ _ => rfl, rfl⟩

/-- A launch whose one actor is gone, with and without a posted store; a ring with room, a full one, and one that owes
its doorbell. -/
def ending (q : Nat) : State :=
  { s0 with quartz := q, arg := .nums 1 0 0,
            launches := [(1, { launched with state := .running, endedAt := some 0, actors := [⟨0, 2, plan1, 0, true, true⟩] })] }
def lost1 : Posted := { id := 0, ctx := none, slot := 2, launch := some 1, domain := 5, line := 0x200, mask := 1, addr := 0, key := 0,
                         actor := 7, stf := false, own := none }
def ringAt (widx told : Nat) : Ring :=
  ⟨0x1000, 0x2000, 4, 1, 0, widx, endpointOf 3 1 0, false, told⟩
def ring0 (widx told : Nat) (w : List RingWait) : State :=
  { mapped y0 with rings := [(0, ringAt widx told)], ringWaits := w, portRing := 0, portDone := 0 }
/-- A launch that failed, with one actor destroyed and one never created. -/
theorem witness_LaunchEndAndRings_failing :
    (let l : Launch := { launched with state := .failing 3, actors := [⟨0, 2, plan1, 0, true, true⟩, ⟨0, 3, plan1, 0, false, false⟩] }
     let s : State := { ending 0 with launches := [(1, l)] }
     tabGet s.launches 1 = some l ∧ l.state = .failing 3 ∧ (∀ v ∈ l.actors, v.destroyed = true ∨ v.created = false) ∧
     s.launchPosts 1 = false) := by decide +kernel
theorem witness_LaunchEndAndRings : (tabGet (ending 0).launches 1).any (fun l => l.state == .running && l.actors.all (·.destroyed)) = true ∧
    (ending 0).launchPosts 1 = false ∧
    ((ending 10000000).mapCore 0 (fun k => { k with posted := [lost1] })).launchPosts 1 = true ∧
    (takeFirst 0 (ring0 0 0 [⟨0, 7⟩]).ringWaits).isSome = true ∧ (0 : Nat) < ((ring0 0 0 [⟨0, 7⟩]).ringOf 0).weight ∧
    (ring0 0 0 [⟨0, 7⟩]).ringFull 0 ((ring0 0 0 []).ringOf 0) = false ∧
    (ring0 16 0 [⟨0, 7⟩]).ringFull 0 ((ring0 16 0 []).ringOf 0) = true ∧ takeFirst 0 (ring0 3 1 []).ringWaits = none ∧
    ((ring0 3 1 []).ringOf 0).owes = true := by decide +kernel

/-- CLKRQ of an actor of no launch, and of launch 1, with a request that breaks R149 and one that does not. -/
def asksClock (mul floor : Word) : State :=
  { (on ((y0.setReg 10 mul).setReg 11 floor)).mapSlot 0 1 (fun sl => { sl with launch := some 1 }) with
    launches := [(1, { launched with state := .running, actors := [⟨0, 1, plan1, 0, true, false⟩] })] }
theorem witness_ClockRequests : s0.here.optimistic = false ∧ s0.launchOf s0.focus s0.here = none ∧
    (asksClock 0x18201E18 0x18201E18).launchOf 0 (asksClock 0 0).here = some 1 ∧ requestBroken 0 0 = true ∧
    requestBroken 0x18201E18 0x18201E18 = false ∧
    ((asksClock 0x18201E18 0x18201E18).here.take 0 [.r 10, .r 11]).isSome = true := by decide +kernel
theorem witness_ClockRequests_grant :
    (let q : Ask := { mul := 0x18202824, floor := 0x18201E18, hold := 1, weight := 1, homes := [], cores := 1020, dies := 4, fresh := true }
     (q.grant (1540 * wattUnits) 1).any (fun r => !r.2) = true ∧ (q.grant (1040 * wattUnits) 1).any (fun r => r.2) = true ∧
     q.grant (990 * wattUnits) 1 = none) := by decide +kernel

/-- A re-grant that is due with one launch; a change that takes effect; a quad to stop and one that is stopped; lost
time; a lease that has ended; stores that wait for time, of a context and of a home. -/
theorem witness_ClockEvents : ({ ending 0 with arbiter := { Arbiter.reset with due := true } } : State).arbiter.due = true ∧
    (((ending 0).launches.map (·.1)).Nodup) ∧
    (let c : Change := { launch := 1, grant := clkReset, seq := 2, at_ := 5, down := true, announce := none }
     [c].find? (fun c => c.at_ ≤ 5) = some c) ∧
    ((2 : CoreId).val / 256 = 0 ∧ (2 : CoreId).val % 256 / 32 = 0 / 8 ∧ (2 : CoreId).val % 16 / 2 = 1 % 8) ∧
    s0.mayStop 2 = true ∧ s0.mayStop 0 = false ∧ (s0.core 2).stopped = false ∧
    ((s0.mapCore 2 (fun k => { k with stopped := true })).core 2).stopped = true ∧
    (s0.core 0).timelost = none ∧
    ((s0.mapCore 0 (fun k => { k with timelost := some 3 })).core 0).timelost.isSome = true := by decide +kernel
def storing (t0 : Nat) : MemOp :=
  { todo := [⟨0x100, 8, .memory 0x10100 .thisDie 0 .own, .store 7⟩], vals := [], fin := .store, len := 8, acq := false, vpipe := false,
    out := true, storeAt := some t0, flags := 0 }
theorem witness_ClockEvents_stores :
    (let s : State := { on { y0 with op := some (storing 5000), wait := .memory } with arg := .wait (.ctx 0 0), quartz := 904 }
     (s.ctx 0 0).op = some (storing 5000) ∧ 5000 ≤ s.quartz + 4096 ∧ (s.core 0).timelost = none ∧
     (storing 5000).stalledStore = true ∧ ¬ 5001 ≤ s.quartz + 4096) ∧
    (on { y0 with watch := some (.leased 8) }).here.watch = some (.leased 8) ∧
    (let e : DirLine := { DirLine.fresh 0 with performAt := some 9, cur := some Proto.empty }
     let s : State := { s0 with dies := [(0, { Die.reset with home := [(0x202, e)] })], arg := .wait (.home (.slice 0) 0x202) }
     (s.dir (.slice 0) 0x202).performAt = some 9 ∧ (s.dir (.slice 0) 0x202).cur = some Proto.empty) := by decide +kernel

/-- A commit with writes that is stalled, an operation that is no stalled store; a port that there is. -/
theorem witness_ClockEvents_stalled :
    (let k : Chunk := { Chunk.none with active := true, committing := true, writes := [⟨0x202, 1, 1, 0, []⟩] }
     (on { y0 with chunk := k }).here.stalledCommit = true) ∧
    ({ storing 5000 with storeAt := none, fin := .load 9 8 false } : MemOp).stalledStore = false ∧ s0.here.stalledCommit = false ∧
    (35 : Nat) < 36 := by decide +kernel

/-! #### Coherence -/

/-- The line of physical address 0x10100 of die 0 in the L1 of core 0: valid words, owned words, leased words, whether it was
owned, and its times. s7 holds its virtual address. -/
def line0 : Nat := 0x10100 / 128
def l1of (valid owned leased : BitVec 16) (former : Bool) (rts copyRts : Nat) : L1Line :=
  { valid, owned, written := 0, leased, former, data := 7, wts := 0, rts, trackWts := 0, copyWts := 0, copyRts, use := 0 }
def holding (l : Option L1Line) : State :=
  (mapped (y0.setReg 7 0x100)).mapCore 0 (fun k => { k with l1 := (l.map (fun l => (line0, l))).toList })
def mem8 (pol : Pol) : FmtM := { mr with sz := .s8, pol }
theorem onDevice_holding (l : Option L1Line) (pol : Pol) (h : (holding l).placeOf (holding l).who
      (FmtM.addr (mem8 pol) (holding l).here) 8 kindRead pol = .at (.memory 0x10100 .thisDie 0 pol) (some page0))
    (ha : (FmtM.addr (mem8 pol) (holding l).here).toNat % 8 = 0) :
    OnDevice (holding l) (FmtM.addr (mem8 pol) (holding l).here) 8 kindRead pol 0x10100 pol :=
  ⟨ha, by decide, .thisDie, 0, _, h, .inl rfl⟩
theorem witness_DeviceMemory : MemReady (holding none) ∧
    OnDevice (holding none) (FmtM.addr (mem8 .own) (holding none).here) 8 kindRead .own 0x10100 .own ∧
    (mem8 .own).ord = .none ∧ (mem8 .own).sz ≠ .s16 ∧ (holding none).hereCore.timelost = none :=
  ⟨⟨rfl, rfl, rfl⟩, onDevice_holding none .own (by decide +kernel) (by decide), rfl, by decide, rfl⟩
/-- Owned; a lease that holds to the end, and not; tracked; nothing; a store just within GTB + G and past it; a full
line to upgrade; an STF with a place free; and every policy placed so. -/
theorem witness_DeviceMemory_lines :
    (let s := holding (some (l1of 1 1 0 false 0 0))
     (s.l1Line 0 line0).valid ≠ 0 ∧ (s.l1Line 0 line0).owned &&& wordMask (0x10100 % 128) 8 = wordMask (0x10100 % 128) 8) ∧
    (let s := holding (some (l1of 1 0 1 false 0 9))
     (s.l1Line 0 line0).valid &&& wordMask 0 8 = wordMask 0 8 ∧ max (s.lclkNow 0) (s.l1Line 0 line0).copyWts ≤ 9) ∧
    (let s := holding (some (l1of 1 0 1 false 0 0))
     (({ s with quartz := 5000 } : State).l1Line 0 line0).copyRts < max (({ s with quartz := 5000 } : State).lclkNow 0) 0) ∧
    (let s := holding (some (l1of 1 0 0 false 0 0))
     (s.l1Line 0 line0).tracked &&& wordMask 0 8 = wordMask 0 8 ∧ (s.l1Line 0 line0).owned = 0 ∧ (s.l1Line 0 line0).valid ≠ 0) ∧
    (let s := holding none
     (s.l1Line 0 line0).valid &&& wordMask 0 8 ≠ wordMask 0 8 ∧ (s.l1Line 0 line0).owned &&& wordMask 0 8 ≠ wordMask 0 8 ∧
       s.hereCore.posted.length < Config.postedMax ∧ s.keyLoaded 0 = true) ∧
    (let s := holding (some (l1of 1 1 0 false 4095 0))
     max (s.lclkNow 0) ((s.l1Line 0 line0).rts + 1) = s.quartz + 4096) ∧
    (let s := holding (some (l1of 1 1 0 false 4096 0))
     s.quartz + 4096 < max (s.lclkNow 0) ((s.l1Line 0 line0).rts + 1)) ∧
    ([Pol.own, .thru, .lease, .track].all (fun p => [kindRead, kindWrite, 4].all (fun k =>
      (holding none).placeOf (holding none).who 0x100 8 k p == .at (.memory 0x10100 .thisDie 0 p) (some page0)))) = true ∧
    (holding none).placeOf (holding none).who 0x100 8 kindRmw .thru = .at (.memory 0x10100 .thisDie 0 .thru) (some page0) := by
  decide +kernel

/-- A request for the first word of the line 0x202 at its home slice. -/
def ask (k : ReqKind) (reqr : Nat) (op : Option HomeOp) : Proto :=
  { Proto.empty with unit := .slice 0, reqr, line := line0, mask := 1, wmask := 0xFF, data := 9, kind := k, op, waiter := .nobody }
def atHome (e : DirLine) (p : Proto) : State :=
  { s0 with dies := [(0, { Die.reset with home := [(line0, e)] })], arg := .proto p }
theorem witness_HomeWrites : AtHome (atHome (.fresh 0) (ask .rdx 3 none)) 0 (ask .rdx 3 none) :=
  ⟨rfl, rfl, by decide, by decide, rfl, rfl, .inl rfl, by decide⟩
/-- The write of an STF whose key slot is not loaded. -/
theorem witness_HomeWrites_locked :
    (let p : Proto := { ask .wt 3 none with waiter := .posted 0 9 }
     let q : Posted := { id := 9, ctx := none, slot := 1, actor := 7, launch := none, domain := 5, line := line0, mask := 1, addr := 0x100,
                           key := 8, stf := true, own := none }
     let s := (atHome (.fresh 0) p).mapCore 0 (fun k => { k with posted := [q] })
     s.lockedStf p = some (0, q) ∧ (atHome (.fresh 0) (ask .wt 3 none)).lockedStf (ask .wt 3 none) = none) := by decide +kernel
def owned1 (id : Nat) : DirLine :=
  { DirLine.fresh 0 with wmap := (Vector.replicate 16 0).set 0 1, owners := (Vector.replicate 4 none).set 0 (some ⟨id, 1⟩), st := .sp }
/-- No sharer, the requester alone, others; an owner that is another and one that is the requester; times at and past
GTB + G; and room for an owner. -/
theorem witness_HomeWrites_lines : (DirLine.fresh 0).homeMask &&& 1 = 1 ∧ (DirLine.fresh 0).sharers = [] ∧
    (let e : DirLine := { DirLine.fresh 0 with sharers := [3], st := .sh }
     3 ∈ e.sharers ∧ e.st ≠ .sp ∧ e.homeMask &&& 1 = 1) ∧
    (owned1 5).owner 1 = some ⟨5, 1⟩ ∧ (owned1 5).ownerMask 1 &&& 1 ≠ 0 ∧ (5 : Nat) < 264 ∧ (owned1 3).owner 1 = some ⟨3, 1⟩ ∧
    ((owned1 3).owner 2 = none ∧ (owned1 3).owner 3 = none ∧ (owned1 3).owner 4 = none) ∧
    max 0 ((DirLine.fresh 4095).rts + 1) = 4096 ∧ (4096 : Nat) < max 0 ((DirLine.fresh 4096).rts + 1) ∧
    (AmoFn.fadd32, Instr.amoFadd32 mr) ∈ amoRows mr ∧ s0.hbm.wf = true := by
  refine ⟨by decide, rfl, by decide, by decide, by decide, by decide, by decide, by decide, by decide, by decide, ?_, rfl⟩
  simp [amoRows]
theorem witness_HomeWrites_room : Room (DirLine.fresh 0) := ⟨1, by decide, by decide, by decide, by decide⟩
theorem witness_HomeReadsAndAnswers : AtHome (atHome (owned1 5) (ask .rdt 263 none)) 0 (ask .rdt 263 none) ∧
    AtHome (atHome (.fresh 7) (ask .rdl 3 none)) 0 (ask .rdl 3 none) :=
  ⟨⟨rfl, rfl, by decide, by decide, rfl, rfl, .inl rfl, by decide⟩, ⟨rfl, rfl, by decide, by decide, rfl, rfl, .inl rfl, by decide⟩⟩
/-- A transient line: with room in the queue and with none; awaiting one invalidation and two, a read's data, a
write-back. -/
def transient (aw : List Await) (q : List Proto) : State :=
  { s0 with dies := [(0, { Die.reset with
      home := [(line0, { DirLine.fresh 0 with cur := some (ask .rdx 4 none), awaiting := aw })],
      sliceQueues := [(sliceOf line0, q)] })], arg := .proto (ask .rdu 3 none) }
theorem witness_HomeReadsAndAnswers_transient : ((transient [] []).dir (.slice 0) line0).cur.isSome = true ∧
    ((transient [] []).sliceQueue 0 (sliceOf line0)).length < 64 ∧
    64 ≤ ((transient [] (List.replicate 64 { ask .rdu 1 none with line := 5 })).sliceQueue 0 (sliceOf line0)).length ∧
    Await.inv 3 ∈ ((transient [.inv 3, .inv 6] []).dir (.slice 0) line0).awaiting ∧
    Await.inv 6 ∈ ((transient [.inv 3, .inv 6] []).dir (.slice 0) line0).awaiting ∧
    (∀ b ∈ ((transient [.inv 3] []).dir (.slice 0) line0).awaiting, b = .inv 3) ∧
    ((transient [.inv 3] []).dir (.slice 0) line0).cur = some (ask .rdx 4 none) ∧
    ((transient [.rcr 3] []).dir (.slice 0) line0).awaiting = [.rcr 3] ∧
    ((transient [.rcw 3] []).dir (.slice 0) line0).awaiting = [.rcw 3] ∧ (ask .rdt 4 none).kind = .rdt ∧
    ((transient [.wb 5 true] []).dir (.slice 0) line0).awaitsWb 3 = none := by decide +kernel

/-- What a home sends to core 0, which holds the words named, and which does not; the answer to the load, the store,
the atomic and the posted store that wait for it. -/
def toCore (l : Option L1Line) (p : Proto) : State := { holding l with arg := .proto p }
theorem witness_CoresAndRemoteCaches : (ask .rdu 0 none).unit = .slice 0 ∧ dieCore 0 (ask .rdu 0 none).reqr = 0 ∧
    tabGet ((toCore (some (l1of 1 1 0 true 0 0)) (ask .rdu 0 none)).core 0).l1 line0 = some (l1of 1 1 0 true 0 0) ∧
    (l1of 1 1 0 true 0 0).owned &&& ~~~(l1of 1 1 0 true 0 0).valid = 0 ∧ (l1of 1 1 0 true 0 0).owned &&& 1 = 1 ∧
    tabGet ((toCore none (ask .rdu 0 none)).core 0).l1 line0 = none ∧
    (toCore none (ask .rdu 0 none)).grantComing (agentCore 0) line0 1 = false ∧
    ((toCore none (ask .rdu 0 none)).send (agentSlice line0) (agentCore 0) .data
      (.proto { ask .rdx 0 none with grant := .owned })).grantComing (agentCore 0) line0 1 = true := by decide +kernel
def loadOp (kind : AccessKind) (fin : MemFin) : MemOp :=
  { storing 0 with todo := [⟨0x100, 8, .memory 0x10100 .thisDie 0 .own, kind⟩], fin := fin, storeAt := none }
theorem witness_CoresAndRemoteCaches_answers :
    (let s := on { y0 with op := some (loadOp .load (.load 9 8 false)), wait := .memory }
     (s.ctx 0 0).op = some (loadOp .load (.load 9 8 false)) ∧ (s.ctx 0 0).chunk.active = false ∧
     placeLine 0x10100 .thisDie = line0 ∧ line0 < 2 ^ 45) ∧
    (loadOp (.store 7) .store).fin = .store ∧ (loadOp (.amo .add 1 0) (.amo 9 8)).fin = .amo 9 8 ∧
    ({ ask .wt 0 none with waiter := .posted 0 4 } : Proto).waiter = .posted 0 4 ∧
    ({ ask .rdx 0 none with waiter := .prefetch 0, grant := .owned } : Proto).mask ≠ 0 := by decide +kernel
/-- A line of die 1 in the remote-data cache of die 0: all its words tracked, owned, leased, or nothing. -/
def line1 : Nat := Config.dieBytes / 128 + 4
def cachedRemote (g : RdcGrant) (rts : Nat) : State :=
  { s0 with dies := [(0, { Die.reset with rdc := [(line1, { RdcLine.fresh with grants := Vector.replicate 16 g, rts })] })],
            arg := .proto { ask .rdl 3 none with unit := .rdc 0, line := line1, lclk := 6 } }
theorem witness_CoresAndRemoteCaches_remote :
    (let s := cachedRemote .tracked 0
     (tabGet (s.die 0).rdc line1).isSome = true ∧ (s.rdcLine 0 line1).dir.cur = none ∧
     (s.rdcLine 0 line1).served &&& 1 = 1 ∧ (s.rdcLine 0 line1).owned &&& 1 ≠ 1 ∧ line1 < 2 ^ 45 ∧ (s.die 0).rdcQueue = []) ∧
    ((cachedRemote .owned 0).rdcLine 0 line1).owned &&& 1 = 1 ∧
    (let r := (cachedRemote .leased 6).rdcLine 0 line1
     r.served &&& 1 ≠ 1 ∧ r.grantMask (· == .leased) &&& 1 = 1 ∧ max 6 r.wts ≤ r.rts) ∧
    (let r := (cachedRemote .leased 5).rdcLine 0 line1
     r.rts < max 6 r.wts) ∧
    (let r := (cachedRemote .none 0).rdcLine 0 line1
     r.served &&& 1 ≠ 1 ∧ r.grantMask (· == .leased) &&& 1 ≠ 1 ∧ r.owned &&& 1 ≠ 1) := by decide +kernel
/-- A write at a cache that keeps the copies of others, and one that does not; a load of which the cache's lease is refused. -/
theorem witness_CoresAndRemoteCaches_writes :
    (let p : Proto := { ask .wt 3 none with unit := .rdc 0, line := line1, lclk := 6 }
     let s : State := { s0 with arg := .proto p, dies := [(0, { Die.reset with rdc := [(line1, { RdcLine.fresh with
       grants := Vector.replicate 16 .tracked, dir := { DirLine.fresh 0 with sharers := [3, 4] } })] })] }
     (s.rdcLine 0 line1).dir.sharers = [3, 4] ∧ keepsCopy p = false ∧ keepsCopy { p with pol := .track } = true ∧
     (s.rdcLine 0 line1).served ≠ 0 ∧ ({ p with old := 1 } : Proto).old ≠ 0) := by decide +kernel
theorem witness_CoresAndRemoteCaches_quiet : (∀ j, 1 ≤ j → j ≤ 4 →
    ((cachedRemote .tracked 0).rdcLine 0 line1).dir.ownerMask j = 0) := by
  intro j h1 h4
  interval_cases j <;> decide

/-- Host lines: invalid, shared, modified; a request out of each kind; a host's access inside its range, at its end,
and outside. -/
def hostCached (v : Mesi) (k : Option CxlKind) : State :=
  { s0 with dies := [(0, { Die.reset with rdc := [(2 ^ 45 + 8, { RdcLine.fresh with
      mesi := v, cxl := k, dir := { DirLine.fresh 0 with cur := k.map (fun _ => { ask .rdt 3 none with unit := .rdc 0, line := 2 ^ 45 + 8 }) } })] })],
            arg := .cxl 0 (2 ^ 45 + 8) 5 }
theorem witness_HostCoherence : [Mesi.i, .s, .m].all (fun v =>
      ((hostCached v none).rdcLine 0 (2 ^ 45 + 8)).mesi == v && ((hostCached v none).rdcLine 0 (2 ^ 45 + 8)).cxl.isNone) = true ∧
    [CxlKind.rdCurr, .wrCur, .rdShared].all (fun k =>
      ((hostCached .i (some k)).rdcLine 0 (2 ^ 45 + 8)).cxl == some k &&
      (((hostCached .i (some k)).rdcLine 0 (2 ^ 45 + 8)).dir.cur).any (fun p => p.kind == .rdt && p.unit == .rdc 0 && p.reqr < 256)) = true ∧
    ((hostCached .i (some .rdShared)).rdcLine 0 (2 ^ 45 + 8)).granted ≠ 1 ∧ (2 : Nat) < 64 := by decide +kernel
theorem witness_HostCoherence_range :
    (let s : State := { s0 with hdm := [⟨0x10000, 0x100, 2⟩], arg := .host 2 0x100C0 64 .read }
     s.arg = .host 2 0x100C0 64 .read ∧ (0 < 64 ∧ 0x100C0 + 64 ≤ Config.hbmEnd ∧ (s.vf 2).state ≠ .error ∧
       ∃ h ∈ s.hdm, h.vf = 2 ∧ h.base ≤ 0x100C0 ∧ 0x100C0 + 64 ≤ h.base + h.length) ∧ 0x100C0 % 128 + 64 ≤ 128 ∧
     ¬ (∃ h ∈ s.hdm, h.vf = 2 ∧ h.base ≤ 0x100C1 ∧ 0x100C1 + 64 ≤ h.base + h.length)) := by decide +kernel

/-! #### Engines -/

/-- The capability of domain 5 for an engine's port and object. -/
def capOf (kind object : Nat) : Word := word (5 * 2 ^ 48 + kind * 2 ^ 44 + object)
/-- A command message of the actor of slot 1 of core 0 to an engine port of core 0. -/
def engineMsg (port : Nat) (ws : List Word) : Msg :=
  { msg0 with dst := endpointOf 0 port 0, sender := (endpointOf 0 1 0).setWidth 48, tag := BitVec.ofNat 8 (0x50 + port),
              payload := ws, src := .sendUnit 0 3 }
def commanded (port : Nat) (ws caps : List Word) : State :=
  { (mapped y0).mapCore 0 (fun k => { k with guard := { k.guard with caps } }) with arg := .msg (engineMsg port ws) }
/-- AZERO of accumulator 2; GATHER; COLLECTIVE SUM of group 4; SEAL OPEN with key handle 8. -/
def azero : List Word := [word (2 + 2 * 2 ^ 20), endpointOf 3 1 0, capOf 1 0, 0, 0, 0, 0]
def gatherCmd : List Word := [1, endpointOf 3 1 0, capOf 2 0, 0x1000, 0, 0, 0]
def collCmd : List Word := [word (1 + 4 * 2 ^ 16), endpointOf 3 1 0, capOf 3 4, 0x1000, 0, 0, 0]
def sealCmd : List Word := [1, endpointOf 3 1 0, capOf 4 8, 0x1000, 1, 0, 0]
theorem witness_EngineCommands : [(16, azero), (17, gatherCmd), (18, collCmd), (19, sealCmd)].all (fun p =>
    let s := commanded p.1 p.2 [capOf 1 0, capOf 2 0, capOf 3 4, capOf 4 8]
    let m := engineMsg p.1 p.2
    coreOf (bitsOf m.dst 35 25) == 0 && m.port == p.1 && m.payload.length == 7 && m.tag.toNat == 0x50 + p.1 &&
    s.goodEndpoint (m.dword 1 &&& 0xFFFFFFFFFFFF) && decide ((engineQueue s 0 p.1).length < engineRoom p.1) &&
    bitsOf (m.dword 2) 63 48 == m.domain.toNat && bitsOf (m.dword 2) 47 44 == p.1 - 15 &&
    bitsOf (m.dword 2) 35 0 == engineObject 0 m p.1 && (s.core 0).guard.caps.contains (m.dword 2) &&
    !engineBroken m p.1 && (p.1 == 19 || m.dword 4 == 0)) = true := by decide +kernel
/-- A broken layout, no capability, a full queue, a drain to nowhere, an accumulator of no one, a stranger and a
member of the group. -/
theorem witness_EngineCommands_refused : engineBroken (engineMsg 16 (word 4 :: azero.tail)) 16 = true ∧
    (commanded 16 azero []).hereCore.guard.caps = [] ∧
    ((engineQueue ((commanded 16 azero []).mapCore 0 (fun k => { k with matrix := { k.matrix with
      queue := List.replicate 16 (Command.ofMsg (engineMsg 16 azero) 0) } })) 0 16).length = 16) ∧
    (commanded 16 azero []).drainGood 0 5 (endpointOf 0 1 0) = false ∧
    (Command.ofMsg (engineMsg 16 (word (3 + 2 * 2 ^ 20) :: azero.tail)) 0).needsOwner = true ∧
    (commanded 16 azero []).hereCore.matrix.prospect 2 ≠ 5 ∧
    (commanded 18 collCmd []).rankOf ⟨[(0, 7), (0, 9)], 1000⟩ (Command.ofMsg (engineMsg 18 collCmd) 0) = none ∧
    (commanded 18 collCmd []).rankOf ⟨[(0, 7), (0, 0)], 1000⟩ (Command.ofMsg (engineMsg 18 collCmd) 0) = some 1 := by decide +kernel
/-- Messages that break R323: six dwords with an endpoint, with none, with one of an unconfigured device; one dword. -/
theorem witness_EngineCommands_broken :
    (let s := commanded 16 (azero.take 6) []
     (azero.take 6).length ≠ 7 ∧ 2 ≤ (azero.take 6).length ∧ s.goodEndpoint (endpointOf 3 1 0 &&& 0x0000FFFFFFFFFFFF) = true ∧
     (0 : Word) &&& 0x0000FFFFFFFFFFFF = 0 ∧ s.goodEndpoint ((9 * 2 ^ 36 : Word) &&& 0x0000FFFFFFFFFFFF) = false ∧
     (9 * 2 ^ 36 : Word) &&& 0x0000FFFFFFFFFFFF ≠ 0 ∧ ([word 2] : List Word).length < 2) := by decide +kernel
/-- The ports other than the collective engine's, whose refusals name nothing. -/
theorem witness_EngineCommands_fields : (Instr.sealOpen, 19) ∈ engineCommands ∧ bitsOf (word 1) 7 0 = 1 ∧ bitsOf (word 2) 7 0 ≠ 1 := by
  decide
def cmdOf (ws : List Word) (w : CmdWait) : Command :=
  { payload := ws, domain := 5, core := 0, slot := 1, actor := 7, id := 6, wait := w, markers := 0, started := false, arrived := 0 }

/-- Matrix states of core 0: a queue, what runs, the drains. -/
def matrixOf (q : List Command) (r : Option Running) (ds : List Drain) (b : Nat) : State :=
  { s0.mapCore 0 (fun k => { k with matrix := { k.matrix with queue := q, running := r, drains := ds },
                                    claims := [(4, ⟨7, 1, 5⟩), (5, ⟨7, 1, 5⟩)] }) with arg := .nums 0 b 0 }
/-- MMA of one step from slots 4 and 5 into accumulator 2, int8 and another format, drained to a mailbox or not. -/
def mma (fmt steps : Nat) (drain : Word) : List Word :=
  [word (1 + fmt * 2 ^ 16 + 2 * 2 ^ 20 + steps * 2 ^ 22), endpointOf 3 1 0, capOf 1 0, word (4 + 5 * 2 ^ 12), 0, 0, drain]
theorem witness_MatrixUnit :
    (let c := cmdOf (mma 1 1 0) (.satisfied 0)
     let s := matrixOf [c] none [] 0
     s.arg = .nums 0 0 0 ∧ (s.core 0).matrix.queue = [c] ∧ (s.core 0).matrix.running = none ∧
     s.markersBack c.fence c.markers = true ∧ c.needsOwner = false ∧
     c.slots.all (fun n => (tabGet (s.core 0).claims n).any (·.domain == c.domain)) = true) ∧
    (cmdOf (word (1 + 2 ^ 14) :: (mma 1 1 0).tail) (.satisfied 0)).needsOwner = true ∧
    (cmdOf (mma 1 1 0) (.satisfied 0)).slots = [4, 5] ∧ (tabGet (s0.core 0).claims 4).isNone = true ∧
    (cmdOf (word (3 + 2 * 2 ^ 20) :: azero.tail) (.satisfied 0)).opc = 3 ∧ (cmdOf azero (.satisfied 0)).opc = 2 := by decide +kernel
def draining (row : Nat) (lost : Bool) : Drain := ⟨cmdOf (mma 1 1 (endpointOf 0 1 0)) (.satisfied 0), 2, row, false, lost, 1⟩
theorem witness_MatrixUnit_steps :
    (let r : Running := ⟨cmdOf (mma 1 1 0) (.satisfied 0), 0⟩
     r.cmd.opc = 1 ∧ r.step < r.cmd.steps ∧ r.cmd.fmt = 1) ∧
    (let r : Running := ⟨cmdOf (mma 2 1 (endpointOf 0 1 0)) (.satisfied 0), 1⟩
     r.cmd.fmt ≠ 1 ∧ r.cmd.steps ≤ r.step ∧ r.cmd.drainEp ≠ 0) ∧
    (cmdOf (mma 1 1 0) (.satisfied 0)).drainEp = 0 ∧
    (let s := matrixOf [] none [draining 63 false] 2
     (s.core 0).matrix.drains.find? (fun e => e.acc == Fin.ofNat 4 2) = some (draining 63 false) ∧ (draining 63 false).row < 64) ∧
    (let s := matrixOf [] none [draining 64 false] 2
     (s.core 0).matrix.drains.find? (fun d => d.lost || 64 ≤ d.row) = some (draining 64 false)) ∧
    (let s := matrixOf [] none [draining 0 true] 2
     (s.core 0).matrix.drains.find? (fun d => d.lost || 64 ≤ d.row) = some (draining 0 true)) ∧
    (let s := matrixOf [cmdOf azero .poisoned] none [] 0
     (s.core 0).matrix.running = none ∧ (CmdWait.poisoned, 21) ∈ [(CmdWait.stale, 20), (.poisoned, 21), (.bad, 22)]) := by decide +kernel

/-- A running copy at its start and at its end: scratchpad to scratchpad, with a flag, no completion, or an arrival. -/
def copyAt (prog : Nat) (w1 w2 w3 : Word) (st : CopyState) : Copy := { queued0 with w1, w2, w3, state := st, prog }
def copies (v : Copy) : State :=
  { (mapped y0).mapCore 0 (fun k => { k with copies := Core.reset.copies.set 3 (some v), fifo := [3] }) with arg := .nums 0 3 0 }
def shown (o : Reach) (f : State → List Byte → Bool) : Bool := match o with | .got u bs => f u bs | _ => false
def lands (o : SectorDest) (p : Place) : Bool := match o with | .ok x => x == p | _ => false
def unclaimed (o : SectorDest) : Bool := match o with | .slot => true | _ => false
def faults (o : Reach) : Bool := match o with | .fault c _ _ => !isRetryable c | _ => false
theorem witness_Copies : ((copies (copyAt 0 queued0.w1 64 0 .queued)).core 0).fifo = [3] ∧
    (let v := copyAt 0 queued0.w1 64 0 .running
     let s := copies v
     v.prog < v.len ∧ v.status = 0 ∧ v.killed = false ∧ v.domain ∉ (s.core 0).guard.killed ∧
     s.sectorOut (v.eng 0 3) v = false ∧
     shown (s.engRead (v.eng 0 3) v.pins v.sector.1 v.sector.2.2) (fun u bs => bs.length == 64 && u.hbm == s.hbm && u.cores == s.cores) = true ∧
     lands (s.sectorDest (v.eng 0 3) v.actor v.pins v.sector.2.1 v.sector.2.2) (.spad 0 0x400) = true) ∧
    ({ queued0 with killed := true }.killed = true ∧ (copies queued0).sectorOut (queued0.eng 0 3) queued0 = false ∧
     ({ copies queued0 with farWrites := [(0, ⟨(queued0.eng 0 3).id, 5, 0, 0, 0, 1, false⟩)] } : State).sectorOut
       (queued0.eng 0 3) queued0 = true) ∧
    (let v := copyAt 0 0x400 64 0 .running
     let s := copies v
     lands (s.sectorDest (v.eng 0 3) v.actor v.pins v.sector.2.1 v.sector.2.2) (.memory 0x10400 .thisDie 0 .thru) = true ∧
     0x10400 % 8 = 0) ∧
    (let v := copyAt 0 (word Config.opwBase) 64 0 .running
     unclaimed ((copies v).sectorDest (v.eng 0 3) v.actor v.pins v.sector.2.1 v.sector.2.2) = true ∧
     lands (((copies v).mapCore 0 (fun k => { k with claims := [(0, ⟨7, 1, 5⟩)] })).sectorDest (v.eng 0 3) v.actor v.pins v.sector.2.1 v.sector.2.2)
       (.operand 0) = true) ∧
    (let v := { copyAt 0 queued0.w1 64 0 .running with w0 := word (Config.lswBase + 0x70000) }
     faults ((copies v).engRead (v.eng 0 3) v.pins v.sector.1 v.sector.2.2) = true) := by decide +kernel
theorem witness_Copies_frames : NoFrames (copies (copyAt 64 queued0.w1 64 0 .running)) := by
  have other (c : CoreId) (h : c ≠ 0) : (copies (copyAt 64 queued0.w1 64 0 .running)).core c = .untouched 0 := by
    let f (k : Core) : Core := { k with copies := Core.reset.copies.set 3 (some (copyAt 64 queued0.w1 64 0 .running)), fifo := [3] }
    refine (show _ = ((mapped y0).mapCore 0 f).core c from rfl).trans ((State.core_mapCore_ne (mapped y0) f h).trans ?_)
    show (tabGet [(0, coreOn y0)] c.val).getD (.untouched 0) = .untouched 0
    rw [tabGet, if_neg (show ¬ c.val = 0 from fun e => h (Fin.ext e))]
    rfl
  constructor <;> intro c n <;> by_cases h : c = 0
  · subst h
    revert n
    decide +kernel
  · rw [State.slot, other c h]
    revert n
    decide +kernel
  · subst h
    revert n
    decide +kernel
  · rw [State.ctx, other c h]
    revert n
    decide +kernel
theorem witness_Copies_completion :
    (let v := copyAt 64 queued0.w1 (word (64 + 2 ^ 32)) (word (Config.lswBase + 0x800)) .running
     let s := copies v
     v.len ≤ v.prog ∧ s.farRefused (v.eng 0 3) = none ∧ s.farPending (v.eng 0 3) = false ∧ bitOf v.w2 32 = true ∧
     s.placeIn (clusterOf 0) (v.eng 0 3).who v.w3 8 kindWrite .thru = .at (.spad 0 0x800) none ∧
     s.placeIn (clusterOf 0) (v.eng 0 3).who (word (Config.lswBase + 0x70000)) 8 kindWrite .thru = .fault causeSpperm ∧
     (copyAt 0 0 (2 ^ 32) 0 .running).w2.toNat / 2 ^ 32 % 2 = 1 ∧ (6 : Nat) ≠ 0 ∧ 6 < 2 ^ 15) ∧
    (bitOf (copyAt 64 queued0.w1 64 0 .running).w2 32 = false ∧ bitOf (copyAt 64 queued0.w1 64 0 .running).w2 33 = false) ∧
    (let v := copyAt 64 queued0.w1 (word (64 + 2 ^ 33)) 0x100 .running
     bitOf v.w2 33 = true ∧ (copies v).engPlace (v.eng 0 3) [] v.w3 16 kindRmw = .at (.memory 0x10100 .thisDie 0 .thru) (some page0)) ∧
    (let v := copyAt 64 queued0.w1 (word (64 + 2 ^ 33)) 0x100 .sent
     let p : Proto := { ask .amo 265 none with mask := 3, op := some (.arrive 0 2 false 0x100 5 0 1 1 0), waiter := .copy 0 3 }
     let s : State := { copies v with arg := .proto p }
     ((s.core 0).copies[(3 : Fin 128)]).any (fun v => v.state == .sent && v.status == 0) = true ∧ s.hbm.wf = true ∧
     p.unit = .slice (lineDie p.line) ∧ p.mask ≠ 0 ∧ (s.dir (.slice (lineDie p.line)) p.line).cur = none ∧
     (s.dir (.slice (lineDie p.line)) p.line).sharers = [] ∧
     tabGet (s.die (lineDie p.line)).reserved p.line = none ∧ (s.l2Ways (lineDie p.line) p.line).length < 16 ∧
     s.sliceQueue (lineDie p.line) (sliceOf p.line) = [] ∧
     max p.lclk ((s.dir (.slice (lineDie p.line)) p.line).rts + 1) ≤ s.quartz + 4096 ∧
     (s.dir (.slice (lineDie p.line)) p.line).homeMask &&& p.mask = p.mask ∧
     barrierArrive (s.barrierWords (128 * p.line)).1 (s.barrierWords (128 * p.line)).2 2 false = none ∧
     (barrierArrive (s.barrierWords (128 * p.line)).1 (s.barrierWords (128 * p.line)).2 0 false).isSome = true) := by decide +kernel

/-- A gather from its descriptor of zeros, which is broken, and one under way: rows of 64 bytes from a table of four,
its index still to read, out of range, read; to the scratchpad and to an operand slot. -/
def gatherAt (index : Option Nat) (opw : Bool) : Gather :=
  { cmd := cmdOf gatherCmd (.satisfied 0), table := 0x2000, dcore := 0, opw, wide := false, rowBytes := 64, rows := 4, list := 0x3000,
    doff := 0x1000, n := 2, done0 := 0, done1 := 0, row := 0, byte := 0, index, state := .running, status := 0 }
/-- Every word of a line of domain 5 that a request of an engine has asked for, from the line's first byte on. -/
def brought (id : MissWaiter) (addr : Nat) (bs : List Byte) : FarRead :=
  { who := id, line := (0x10000 + addr) / 128, need := 0xFFFF, got := 0xFFFF, data := BitVec.ofNat 1024 (leNat bs), denied := false }
def gathering (v : Gather) (q : List Command) (a : Nat) (list : List Byte) : State :=
  { mapped y0 with
    clusters := [(0, { Cluster.reset with tlb := [page0, kpage0], gathers := [v], gatherQueue := q })], arg := .nums a 6 0,
    farReads := [(0, brought (.gather 0 6) 0x3000 list), (1, brought (.gather 0 6) (0x2000 + 192) []),
                 (2, brought (.gather 0 6) ((cmdOf gatherCmd (.satisfied 0)).dword 3).toNat [])] }
theorem witness_Gathers :
    (let c := cmdOf gatherCmd (.satisfied 0)
     let s := gathering (gatherAt none false) [c] 0 []
     (s.cluster 0).gatherQueue = [c] ∧ s.markersBack c.fence c.markers = true ∧ s.missing (c.gatherEng 0) = false ∧
     (s.cluster 0).gathers.length < 8 ∧
     shown (s.engRead (c.gatherEng 0) [] (c.dword 3) 64) (fun u bs => descriptorBroken 0 (leWords 8 bs) (Gather.ofDescriptor c (leWords 8 bs)) &&
       u.clusters == s.clusters) = true) ∧
    (let d : List Word := [0x2000, word (4 + 8 * 2 ^ 32), 0x3000, word (2 + 0x1000 * 2 ^ 16), 0, 0, 0, 0]
     descriptorBroken 0 d (Gather.ofDescriptor (cmdOf gatherCmd (.satisfied 0)) d) = false) := by decide +kernel
theorem witness_Gathers_rows :
    (let v := gatherAt none false
     let s := gathering v [] 2048 [3]
     s.gatherOf 0 6 = some v ∧ v.row < v.n ∧ s.killed (gatherCore 0) v.cmd.domain = false ∧
     shown (s.engRead (v.eng 0) [] (v.list + word (v.row * 4)) 4) (fun u bs => bs.length == 4 && leNat bs == 3 && u.clusters == s.clusters) = true ∧
     shown ((gathering v [] 2048 [4]).engRead (v.eng 0) [] v.list 4) (fun _ bs => leNat bs == 4) = true) ∧
    (let v := gatherAt (some 3) false
     let s := gathering v [] 2048 []
     shown (s.engRead (v.eng 0) [] (v.table + word (3 * v.rowBytes + v.byte)) v.sector) (fun u bs => bs.length == 64 && u.cores == s.cores) = true ∧
     lands (s.gatherDest 0 v) (.spad 0 0x1000) = true) ∧
    (let v := gatherAt (some 3) true
     unclaimed ((gathering v [] 2048 []).gatherDest 0 v) = true ∧
     lands (((gathering v [] 2048 []).mapCore 0 (fun k => { k with claims := [(1, ⟨7, 1, 5⟩)] })).gatherDest 0 v) (.operand 0x1000) = true) ∧
    (let v := { gatherAt none false with row := 2 }
     let s := gathering v [] 0 []
     s.gatherOf 0 6 = some v ∧ v.n ≤ v.row ∧ bitOf v.done0 32 = false ∧ bitOf v.done0 33 = false) := by decide +kernel

/-- A collective command of die 0 before and after its descriptor is read, by core 0, rank 1 of its group. -/
def collDesc : List Word := [word (Config.lswBase + 0x100), word (Config.lswBase + 0x200), 2, 0, 0, 0, 0, 0]
def collAt (ws : List Word) (id : Nat) : Command := { cmdOf ws (.satisfied 0) with id }
def group4 (n : Nat) : Group := ⟨(List.range n).map (fun i => (0, 1 - i)), 1000⟩
def collectives (q : List Command) (ms : List Member) (os : List Collective) (quartz : Nat) : State :=
  { mapped y0 with dies := [(0, { Die.reset with collQueue := q, members := ms, groups := [(4, group4 2)] })],
                   collectives := os, arg := .nums 0 6 0, quartz,
                   farReads := [(0, brought (.collective 0 6) ((collAt collCmd 6).dword 3).toNat ((collDesc.map (leBytes 8 ·.toNat)).flatten))] }
def part0 : Contribution :=
  { rank := 0, cmd := { collAt (collCmd ++ collDesc) 5 with core := 1 }, die := 0, dst := word (Config.lswBase + 0x200), done0 := 0, done1 := 0,
    data := List.replicate 8 0, remote := false }
theorem witness_Collectives :
    (let c := collAt collCmd 6
     let s := collectives [c] [] [] 0
     s.arg = .nums 0 6 0 ∧ (s.die 0).collQueue.find? (fun c => c.id == 6) = some c ∧ c.payload.length ≤ 7 ∧
     s.markersBack c.fence c.markers = true ∧ s.missing (c.collEng 0) = false ∧
     shown (s.engRead (c.collEng 0) [] (c.dword 3) 64) (fun u bs => u.dies == s.dies && u.collectives == s.collectives &&
       u.quartz == s.quartz && u.device == s.device && !({ c with payload := c.payload ++ leWords 8 bs, started := true } : Command).descBroken) = true ∧
     ({ c with payload := c.payload ++ leWords 8 (List.replicate 64 0xFF), started := true } : Command).descBroken = true) ∧
    (let c := collAt (collCmd ++ collDesc) 6
     let s := collectives [c] [] [] 0
     7 < c.payload.length ∧ tabGet (s.die 0).groups (bitsOf (c.dword 0) 23 16) = some (group4 2) ∧ s.rankOf (group4 2) c = some 1 ∧
     shown (s.engRead (c.collEng 0) [] (c.dword 7) (bitsOf (c.dword 9) 31 0 * c.elemBytes)) (fun _ bs => bs.length == part0.data.length) = true ∧
     2 ≤ (group4 2).members.length ∧ bitsOf (c.dword 0) 39 24 = 0 ∧
     (collectives [c] [] [⟨4, 0, [part0], 9⟩] 0).collectives.find? (fun o => o.group == 4 && o.seq == 0 && !o.parts.any (fun q => q.rank == 1)) =
       some ⟨4, 0, [part0], 9⟩ ∧ [part0].length + 1 = (group4 2).members.length) := by decide +kernel
/-- A contribution of rank 1, on device 5, to a group whose other member is core 0 of this device. -/
theorem witness_Collectives_remote :
    (let s : State := { collectives [] [] [] 0 with
       dies := [(0, { Die.reset with groups := [(4, ⟨[(0, 0), (5, 3)], 1000⟩)] })], arg := .contribution 0 4 1 1 0 7 [0, 0, 0, 0] }
     (tabGet (s.die 0).groups 4).any (fun g => g.members[1]?.any (fun m => !s.memberHere m.1) && decide (2 ≤ g.members.length)) = true ∧
     s.collectives.find? (fun o => o.group == 4 && o.seq == 7 && !o.parts.any (fun q => q.rank == 1)) = none) := by decide
theorem witness_Collectives_order : [part0].Pairwise (fun a b => a.rank < b.rank) ∧ ∀ q ∈ [part0], q.rank < 2 := by decide
def member1 (written : Bool) : Member :=
  { cmd := collAt (collCmd ++ collDesc) 6, rank := 1, dst := word (Config.lswBase + 0x200), done0 := 0, done1 := 0,
    result := List.replicate 8 1, written, status := 0, state := .running }
def destIs (o : Dest) (ps : List (Place × Nat)) : Bool := match o with | .ok x => x == ps | _ => false
theorem witness_Collectives_members :
    (let v := member1 false
     let s := collectives [] [v] [] 0
     (s.die 0).members.find? (fun v => v.cmd.id == 6) = some v ∧ s.killed (kernelCore 0) v.cmd.domain = false ∧
     destIs (s.engDest (v.cmd.collEng 0) [] v.dst v.result.length) [(.spad 0 0x200, v.result.length)] = true) ∧
    (let v := member1 true
     (collectives [] [v] [] 0).farRefused (v.cmd.collEng 0) = none ∧ bitOf v.done0 32 = false ∧ bitOf v.done0 33 = false) ∧
    (let s := collectives [] [] [⟨0, 6, [part0], 9⟩] 9
     s.collectives.find? (fun o => o.group == 0 && o.seq == 6 && o.deadline ≤ s.quartz) = some ⟨0, 6, [part0], 9⟩) := by decide +kernel

/-- The seal engine's head: OPEN for launch 0 and for another, with a destination in device memory, misaligned, and
not mapped; with room and with none; a session of domain 5 and key 8. -/
def sealOp (opc : Nat) (d3 d4 d5 : Word) : Command :=
  { cmdOf [word opc, endpointOf 3 1 0, capOf 4 8, d3, d4, d5, 0] (.satisfied 0) with id := 6 }
def session8 : Session :=
  { key := 8, domain := 5, core := 0, slot := 1, actor := 7, launch := 0, usertag := 0, dest := [(0x10000, 4800)], reply := 0, hash := .empty }
def sealing (c : Command) (ss : Tab Session) : State :=
  { mapped y0 with dies := [(0, { Die.reset with sealQueue := [c], sessions := ss })], arg := .nums 0 0 0,
                   farReads := [(0, brought (.seal 0 6) 0x100 [])] }
def destFault (o : Dest) : Bool := match o with | .fault _ _ _ => true | _ => false
def destDevice (o : Dest) : Bool := match o with | .ok ps => (onDevice ps).isSome | _ => false
theorem witness_Seals : ((sealing (sealOp 1 0x100 0 0) []).die 0).sealQueue = [sealOp 1 0x100 0 0] ∧
    (sealing (sealOp 1 0x100 0 0) []).markersBack (sealOp 1 0x100 0 0).fence 0 = true ∧
    (sealing (sealOp 1 0x100 0 0) []).missing ((sealOp 1 0x100 0 0).sealEng 0) = false ∧
    (((sealing (sealOp 1 0x100 0 0) []).slot 0 1).launch.getD 0) = bitsOf ((sealOp 1 0x100 0 0).dword 4) 31 0 ∧
    (((sealing (sealOp 1 0x100 7 0) []).slot 0 1).launch.getD 0) ≠ bitsOf ((sealOp 1 0x100 7 0).dword 4) 31 0 ∧
    (0x101 : Word).toNat % 64 ≠ 0 ∧
    destDevice ((sealing (sealOp 1 0x100 0 0) []).engDest ((sealOp 1 0x100 0 0).sealEng 0) [] 0x100 4800) = true ∧
    destFault ((({ sealing (sealOp 1 0x100 0 0) [] with clusters := [(0, { Cluster.reset with tlb := [{ page0 with w := false }] })] } : State)).engDest
      ((sealOp 1 0x100 0 0).sealEng 0) [] 0x100 4800) = true ∧
    tabFree ((sealing (sealOp 1 0x100 0 0) []).die 0).sessions 64 = some 0 ∧
    tabFree ((List.range 64).map (fun i => (i, session8))) 64 = none := by decide +kernel
theorem witness_Seals_sessions :
    (let c := sealOp 2 0x100 64 3
     let s := sealing c [(3, session8)]
     tabGet (s.die 0).sessions (bitsOf (c.dword 5) 5 0) = some session8 ∧ session8.domain = c.domain ∧
     session8.key.toNat = bitsOf (c.dword 2) 31 0 ∧ isGlobal (c.dword 3) = true ∧
     shown (s.engRead (c.sealEng 0) [] (c.dword 3) 64) (fun u _ => u.dies == s.dies && u.quartz == s.quartz) = true) ∧
    isGlobal (word Config.lswBase) = false ∧ isRsw (word Config.lswBase) = false ∧ (sealOp 3 0 0 3).opc = 3 ∧
    (tabGet ((sealing (sealOp 3 0 0 4) [(3, session8)]).die 0).sessions 4).isNone = true := by decide +kernel

/-- An ADD whose page is read, whose words have not come, and which has no right to its page. -/
def placed (o : Dest) : Bool := match o with | .ok _ => true | _ => false
theorem witness_Seals_range :
    (let c := sealOp 2 0x100 64 3
     let s := sealing c [(3, session8)]
     let q := c.sealEng 0
     let range := pieces (c.dword 3) 64
     let pins := range.filterMap (fun p => s.pinOf q [] p.1)
     let w := s.mapDie 0 (fun k => { k with sealPins := pins })
     (s.die 0).sealPins = [] ∧ pins ≠ [] ∧ placed (s.placePieces q [] kindRead range) = true ∧
     shown (w.engRead q pins (c.dword 3) 64) (fun u _ => u.dies == w.dies && u.quartz == s.quartz) = true ∧
     (match ({ w with farReads := [] } : State).engRead q pins (c.dword 3) 64 with | .wait _ => true | _ => false) = true ∧
     destFault (({ s with clusters := [(0, { Cluster.reset with tlb := [{ page0 with r := false }] })] } : State).placePieces q [] kindRead
       range) = true) := by decide +kernel

/-! #### Peers, virtual functions, keys, management -/

def peered (addr : Nat) (op : PeerOp) : State :=
  { s0 with windows := [(0, ⟨7, true, true, 0, 0x10000, 0x10000⟩)], arg := .peer 7 addr op }
/-- The last word of a window, and one byte past it; an access that is quiet at its home. -/
theorem witness_PeerAccesses :
    (let s := peered 0x1FFF8 (.load 8)
     0x1FFF8 + 8 ≤ Config.hbmEnd ∧ (∃ p ∈ s.windows, p.2.device = 7 ∧ p.2.r = true ∧ p.2.base ≤ 0x1FFF8 ∧
       0x1FFF8 + 8 ≤ p.2.base + p.2.length ∧ p.2.key = 0) ∧ 0x1FFF8 % 128 + 8 ≤ 128 ∧
     (s.dir (.slice (lineDie (0x1FFF8 / 128))) (0x1FFF8 / 128)).cur = none ∧
     (s.dir (.slice (lineDie (0x1FFF8 / 128))) (0x1FFF8 / 128)).sharers = [] ∧
     tabGet (s.die (lineDie (0x1FFF8 / 128))).reserved (0x1FFF8 / 128) = none ∧
     (s.l2Ways (lineDie (0x1FFF8 / 128)) (0x1FFF8 / 128)).length < 16 ∧
     ¬ (∃ p ∈ s.windows, 0x1FFF9 + 8 ≤ p.2.base + p.2.length)) := by decide +kernel
/-- A load of a line that a commit has reserved to write. -/
theorem witness_PeerAccesses_reserved :
    (let s := peered 0x1FFF8 (.load 8)
     let d := lineDie (0x1FFF8 / 128)
     let u := s.mapDie d (fun k => { k with reserved := [(0x1FFF8 / 128, ⟨[(3, 0)], true⟩)] })
     (tabGet (u.die d).reserved (0x1FFF8 / 128)).any (·.write) = true ∧ (0 < 8 ∧ 0x1FFF8 % 128 + 8 ≤ 128)) := by decide +kernel
theorem witness_PeerAccesses_quiet (j : Nat) (h : 1 ≤ j) (h4 : j ≤ 4) : (DirLine.fresh 0).ownerMask j = 0 := by
  interval_cases j <;> decide
/-- A load, a store and a posted store at a peer, answered, refused and late. -/
def peerOut (ctx : Option CtxId) (posted : Option Nat) : PeerRequest :=
  { core := 0, ctx, slot := 1, domain := 5, addr := 0x100, size := 8, write := none, posted, reader := none, writer := none, since := 0 }
def atPeer (fin : MemFin) (kind : AccessKind) (a : Arg) : State :=
  { on { y0 with op := some { storing 0 with todo := [⟨0x100, 8, .memory 0x100 .peer 0 .thru, kind⟩], fin := fin, storeAt := none } } with
    peers := [(4, peerOut (some 0) none)], arg := a, quartz := 10000000 }
theorem witness_PeerAccesses_answers : tabGet (atPeer .store (.store 7) (.nums 4 0 0)).peers 4 = some (peerOut (some 0) none) ∧
    (peerOut (some 0) none).since + 10000000 ≤ (atPeer .store (.store 7) (.nums 4 0 0)).quartz ∧
    placeLine 0x100 .peer = peerLine (peerOut (some 0) none).addr ∧
    ((atPeer (.load 9 8 false) .load (.peerAnswer 4 (.data [5, 0, 0, 0, 0, 0, 0, 0]))).ctx 0 0).op.isSome = true ∧ ([5, 0, 0, 0, 0, 0, 0, 0] : List Byte).length = 8 ∧
    (let s : State := { (ending 0).mapCore 0 (fun k => { k with posted := [lost1] }) with peers := [(4, peerOut none (some 0))] }
     (s.core 0).posted.find? (fun p => p.id == 0) = some lost1 ∧ lost1.launch = some 1 ∧ (tabGet s.launches 1).isSome = true) := by
  decide +kernel

/-- Each state of an interface; a domain that is gone and one that is not; an interval that has passed. -/
def tdisp (st : TdispState) (interval : Nat) : State :=
  { s0 with vfs := [(2, { state := st, domains := [9], interval, renewed := 0 })], arg := .nums 2 9 12, quartz := 100 }
theorem witness_TdispInterfaces : ((tdisp .locked 0).vf 2).state = .locked ∧ ((tdisp .run 99).vf 2).state = .run ∧
    ((tdisp .error 0).vf 2).state = .error ∧ (s0.vf 2).state = .unlocked ∧ (tdisp .error 0).domainGone 9 = true ∧
    (tdisp .error 0).domainGone 5 = false ∧ ((tdisp .run 99).vf 2).renewed + ((tdisp .run 99).vf 2).interval < (tdisp .run 99).quartz ∧
    (tdisp .run 100).quartz ≤ ((tdisp .run 100).vf 2).renewed + ((tdisp .run 100).vf 2).interval := by decide +kernel

/-- New ranges of a function whose interface is unlocked, and of one that is not. -/
theorem witness_TdispInterfaces_ranges : (({ s0 with arg := .ranges 2 [(0x10000, 0x100)] } : State).vf 2).state = .unlocked ∧
    (({ tdisp .run 0 with arg := .ranges 2 [] } : State).vf 2).state ≠ .unlocked := by decide
/-- A key for a bound domain and for the kernel, of a slot destroyed before, scrubbed and not. -/
theorem witness_InspectionAndManagement_keys :
    (let s (scrubbed : Bool) : State := { tdisp .run 0 with arg := .key 4095 9 scrubbed, onyx := { Onyx.reset with destroyed := [4095] } }
     (s true).boundVf 9 = some 2 ∧ (s true).boundVf 5 = none ∧ ((s true).vf 2).state = .run ∧ (4095 : Fin 4096) ≠ 0 ∧
     (4095 : Nat) ∈ (s true).onyx.destroyed ∧ (s true).arg = .key 4095 9 true ∧ (s false).arg = .key 4095 9 false) := by decide
/-- An object that there is and one that there is not; a buffer that holds it and one that does not; a key that may be
loaded and one that may not; the ends of the cap; a bound object; a measurement. -/
theorem witness_InspectionAndManagement :
    (let u := (requested 0x59 [1, 0, 0x100, 8, endpointOf 3 1 0] (mapped y0)).sysTake 0 1
     (u.inspect 0 0 0 0).isNone = true ∧ (u.inspect 0 17 0 0).isNone = true ∧ (List.range 17).any (fun o => (u.inspect 0 o 0 0).isSome) = true) ∧
    ((4095 : Fin 4096) ≠ 0 ∧ (4095 : Fin 4096).val ∉ s0.onyx.destroyed ∧ ((tdisp .run 0).vf 2).state = .run) ∧
    (s0.vf 2).state ≠ .locked ∧ 4095 ∈ ({ Onyx.reset with destroyed := [4095] } : Onyx).destroyed ∧ (1500 ≤ 1500 ∧ 3200 ≤ 3200) ∧ (1499 < 1500 ∧ 3200 < 3201) ∧
    (s0.inspect 0 17 0 0).isNone = true ∧
    tabGet ({ Onyx.reset with measurements := [(3, List.replicate 48 1)] } : Onyx).measurements 3 = some (List.replicate 48 1) := by
  decide +kernel
theorem witness_InspectionAndManagement_request : Requested (requested 0x59 [1] s0) 0 (request 0x59 [1]) 0x59 :=
  ⟨⟨0, rfl⟩, by decide +kernel, by decide⟩
def boundTo (d : BitVec 16) : State :=
  { tdisp .run 0 with vfs := [(2, { state := .run, domains := [d], interval := 0, renewed := 0 })] }
theorem witness_InspectionAndManagement_bound : (boundTo 5).objectDomains 0 1 0 1 = [5] ∧
    ((boundTo 5).vfs.any (fun v => v.2.state == .run && v.2.domains.any (fun d => ((boundTo 5).objectDomains 0 1 0 1).contains d))) = true ∧
    ((boundTo 9).vfs.any (fun v => v.2.domains.any (fun d => ((boundTo 9).objectDomains 0 1 0 1).contains d))) = false := by decide

/-- The invariant holds of states that are not reset, and their steps go on. -/
theorem witness_StepKeepsMemories : Safety.memories (State.reset.withFetchWord 64 0) = true ∧
    (after (step (State.reset.withFetchWord 64 0)) (fun _ => ())).isSome = true := by decide +kernel

end Sys2Proof.Tests
end

section
/-! The special registers: which of them are fields of the context, what a write makes of them, and that completing an
instruction leaves them (R24, R29, R108 to R111). -/

namespace Sys2Proof.Proofs

open Sys2Proof Sys2Proof.Machine Sys2Proof.Claims

/-! ### The special registers that software may write -/

/-- The field of a context that a special register which is not read-only stands for. -/
def writable (x : Ctx) : Spr → Word
  | .fflags => x.fflags.zeroExtend 64
  | .l0start => x.loops.start0
  | .l0end => x.loops.end0
  | .l0count => x.loops.count0
  | .l1start => x.loops.start1
  | .l1end => x.loops.end1
  | .l1count => x.loops.count1
  | .lease => x.lease
  | .tvec => x.tvec
  | .tpc => x.tpc
  | .tcause => x.tcause
  | .tval => x.tval
  | .tslot => x.tslot
  | .tl0start => x.tloops.start0
  | .tl0end => x.tloops.end0
  | .tl0count => x.tloops.count0
  | .tl1start => x.tloops.start1
  | .tl1end => x.tloops.end1
  | .tl1count => x.tloops.count1
  | _ => 0

theorem special_of_writable (s : State) {r : Spr} (h : r.readOnly = false) : s.special r = writable s.here r := by
  cases r <;> simp only [Spr.readOnly, reduceCtorEq] at h <;> rfl

/-- The fields of a context that the read-only special registers, and the kernel's clock, are read from. -/
def SameReadOnly (x y : Ctx) : Prop :=
  y.act = x.act ∧ y.self = x.self ∧ y.domain = x.domain ∧ y.origin = x.origin ∧ y.msghdr = x.msghdr ∧
  y.frame = x.frame ∧ y.clkgs = x.clkgs ∧ y.clkseq = x.clkseq ∧ y.stack = x.stack

theorem kernelClock_mapHere (s : State) {y : Ctx} (ha : y.act = s.here.act) (ho : y.origin = s.here.origin) :
    (s.mapHere (fun _ => y)).kernelClock = s.kernelClock := by
  simp only [State.kernelClock, State.here_mapHere, ha, ho, State.mapHere_focus]
  cases s.here.act with
  | none => rfl
  | some a => simp [State.mapHere]

/-- A change of the issuing context that keeps those fields changes no read-only register. -/
theorem special_mapHere_of_readOnly (s : State) {y : Ctx} (hy : SameReadOnly s.here y) {r : Spr} (h : r.readOnly = true) :
    (s.mapHere (fun _ => y)).special r = s.special r := by
  obtain ⟨hact, hself, hdom, horg, hmsg, hframe, hgs, hseq, hstack⟩ := hy
  have hclk := kernelClock_mapHere s hact horg
  have hef : (s.mapHere (fun _ => y)).clkef s.focus = s.clkef s.focus := rfl
  have hcore : (s.mapHere (fun _ => y)).coreReg s.focus = s.coreReg s.focus := rfl
  cases r <;>
    simp_all [State.special, State.hereCore, Spr.readOnly, Ctx.ddepth, Core.budgetWord, Core.left]

/-- Completing an instruction changes no special register but those of the loops. -/
theorem writable_retire (x : Ctx) (n : Nat) {r : Spr} (h : r.ownRow = false ∨ r = .fflags ∨ r = .tcause) :
    writable (x.retire n) r = writable x r := by
  obtain ⟨p, l, q, hx⟩ := x.retire_eq n
  rw [hx]
  cases r <;> simp only [Spr.ownRow, reduceCtorEq, or_self] at h <;> rfl

/-- The general row writes its register, with its reserved bits zero, and no other. -/
theorem writable_writeSpecial (x : Ctx) (v : Word) {r : Spr} (hro : r.readOnly = false) (hrow : r.ownRow = false) (q : Spr) :
    writable (x.writeSpecial r v) q = if q = r then written r v else writable x q := by
  cases r <;> simp only [Spr.readOnly, Spr.ownRow, reduceCtorEq] at hro hrow <;> cases q <;> rfl

theorem writeSpecial_sameReadOnly (x : Ctx) (r : Spr) (v : Word) : SameReadOnly x (x.writeSpecial r v) := by
  cases r <;> exact ⟨rfl, rfl, rfl, rfl, rfl, rfl, rfl, rfl, rfl⟩

theorem SameReadOnly.trans {x y z : Ctx} (h : SameReadOnly x y) (g : SameReadOnly y z) : SameReadOnly x z := by
  simp_all [SameReadOnly]

theorem SameReadOnly.retire {x y : Ctx} (h : SameReadOnly x y) (n : Nat) : SameReadOnly x (y.retire n) := by
  obtain ⟨p, l, q, hy⟩ := y.retire_eq n
  rw [hy]
  exact h

/-- Sources popped leave every special register as it was. -/
theorem take_writable {x y : Ctx} {imm : Word} {ops : List Opnd} {vs : List Word} (h : x.take imm ops = some (vs, y)) :
    writable y = writable x := by
  rw [Ctx.take_eq h]
  funext r
  cases r <;> rfl

theorem take_sameReadOnly {x y : Ctx} {imm : Word} {ops : List Opnd} {vs : List Word} (h : x.take imm ops = some (vs, y)) :
    SameReadOnly x y := by
  rw [Ctx.take_eq h]
  exact ⟨rfl, rfl, rfl, rfl, rfl, rfl, rfl, rfl, rfl⟩

/-! ### The fields written -/

theorem fflags_field (v : Word) : (v.truncate 5).zeroExtend 64 = v &&& 0x1F := by
  apply BitVec.eq_of_toNat_eq
  have h : v.toNat &&& 31 = v.toNat % 32 := Nat.and_two_pow_sub_one_eq_mod v.toNat 5
  simp only [BitVec.truncate_eq_setWidth, BitVec.toNat_setWidth, BitVec.toNat_and, BitVec.reduceToNat, h]
  omega

theorem and_low_eq_zero_iff (v : Word) : v &&& 0xFFFFFFFF = 0 ↔ v.setWidth 32 = (0 : BitVec 32) := by
  have h := Nat.and_two_pow_sub_one_eq_mod v.toNat 32
  norm_num at h
  rw [← BitVec.toNat_inj, ← BitVec.toNat_inj]
  simp [h]

theorem and_bit63 {v : Word} (h : v.getLsbD 63 = true) : v &&& 0x8000000000000000 = 0x8000000000000000 := by
  ext i hi
  have hp : (0x8000000000000000 : Word) = BitVec.twoPow 64 63 := rfl
  rw [hp]
  by_cases e : i = 63
  · subst e; simp [BitVec.getElem_twoPow]; exact h
  · simp [BitVec.getElem_twoPow, e]

/-- A COUNT of LnCOUNT as R29 takes it: ARM only with a count. -/
theorem countField_eq (v : Word) : countField v =
    if v.getLsbD 63 && v.setWidth 32 != (0 : BitVec 32) then v &&& 0x80000000FFFFFFFF else v &&& 0xFFFFFFFF := by
  have hz : (v &&& 0xFFFFFFFF != 0) = (v.setWidth 32 != (0 : BitVec 32)) := by
    rw [Bool.eq_iff_iff, bne_iff_ne, bne_iff_ne, Ne, Ne, and_low_eq_zero_iff]
  have hc : (0x80000000FFFFFFFF : Word) = 0xFFFFFFFF ||| 0x8000000000000000 := rfl
  simp only [countField, bitOf, hz]
  cases hb : v.getLsbD 63 with
  | false => simp
  | true => rw [hc, BitVec.and_or_distrib_left, and_bit63 hb]

/-- A loop register takes its field. -/
theorem writable_write_loopReg (x : Ctx) (l : LoopReg) (v : Word) :
    writable { x with loops := x.loops.write l v } l.spr = written l.spr v := by
  cases l with
  | count0 => exact countField_eq v
  | count1 => exact countField_eq v
  | start0 | end0 | start1 | end1 => rfl

/-- QSTAT's word is the sum of the occupancies, a digit each (R111). -/
theorem qstatWord_eq (x : Ctx) :
    qstatWord x = word ((List.finRange 8).map (fun i => (x.queue i).length * 16 ^ i.val)).sum := by
  have hr : List.range 8 = (List.finRange 8).map Fin.val := by decide
  have hq (i : Fin 8) : x.queue (Fin.ofNat 8 i.val) = x.queue i := by rw [Fin.ofNat_val_eq_self]
  simp only [qstatWord, hr, List.foldl_map, hq, List.sum_eq_foldl, List.foldl_map]

/-! ### The rows -/

theorem rds_done (d : Opnd) {r : Spr} {s : State} (hf : r = .fflags → s.here.vIdle = true)
    (hl : r = .lclk → s.here.memFree = true) :
    ScalarDone (.rds d r) 8 d [] 0 (fun _ => s.special r) (fun _ => 0) s := by
  intro vs x hd ht
  have hv : (decide (r = .fflags) && !s.here.vIdle) = false := by
    by_cases h : r = .fflags <;> simp [h, hf]
  have hm : (decide (r = .lclk) && !s.here.memFree) = false := by
    by_cases h : r = .lclk <;> simp [h, hl]
  show execRds d r s = _
  simp only [execRds, hv, hm, Bool.false_eq_true, if_false]
  exact scalarOp_done hd ht

theorem qstat_done (rd : Fin 32) (s : State) :
    exec (.qstat rd) s = .next (s.mapHere (fun x =>
      (x.setReg rd (word ((List.finRange 8).map (fun i => (x.queue i).length * 16 ^ i.val)).sum)).retire 8)) := by
  show execQstat rd s = _
  simp only [execQstat, done_eq, State.mapHere_mapHere, qstatWord_eq]

section
variable {a : Opnd} {imm : Imm} {v : Word} {x : Ctx} {s : State}

/-- The general row: its register reads as the field written, and every other but those of the loops, FFLAGS and TCAUSE as
before. -/
theorem wrs_done {r : Spr} (ht : s.here.take imm.word [a] = some ([v], x)) (hro : r.readOnly = false)
    (hrow : r.ownRow = false) :
    ∃ t, exec (.wrs r a imm) s = .next t ∧ t.special r = written r v ∧
      ∀ q : Spr, q ≠ r → q.ownRow = false → t.special q = s.special q := by
  let y := (x.writeSpecial r v).retire (lenImm imm)
  have hw (q : Spr) (hq : q.ownRow = false) : writable y q = if q = r then written r v else writable s.here q := by
    rw [writable_retire _ _ (.inl hq), writable_writeSpecial x v hro hrow, take_writable ht]
  have hx : SameReadOnly s.here y :=
    ((take_sameReadOnly ht).trans (writeSpecial_sameReadOnly x r v)).retire (lenImm imm)
  refine ⟨s.mapHere (fun _ => y), ?_, ?_, fun q hne hq => ?_⟩
  · show execWrs r a imm s = _
    simp only [execWrs, immS, withOperands_ready ht, done_eq, State.mapHere_mapHere]
    rfl
  · rw [special_of_writable _ hro, State.here_mapHere, hw r hrow, if_pos rfl]
  · cases hqr : q.readOnly with
    | true => exact special_mapHere_of_readOnly s hx hqr
    | false =>
      rw [special_of_writable _ hqr, special_of_writable _ hqr, State.here_mapHere, hw q hq, if_neg hne]

theorem wrsFflags_done (ht : s.here.take imm.word [a] = some ([v], x)) (hv : s.here.vIdle = true) :
    ∃ t, exec (.wrsFflags a imm) s = .next t ∧ t.special .fflags = written .fflags v := by
  refine ⟨s.mapHere (fun _ => Ctx.retire { x with fflags := v.truncate 5 } (lenImm imm)), ?_, ?_⟩
  · show execWrsFflags a imm s = _
    simp only [execWrsFflags, hv, immS, withOperands_ready ht, done_eq, State.mapHere_mapHere]
    rfl
  · rw [special_of_writable _ rfl, State.here_mapHere, writable_retire _ _ (.inr (.inl rfl))]
    exact fflags_field v

/-- A loop register is written after the end check of the WRS itself (R29). -/
theorem wrsLoopRegister_done (l : LoopReg) (ht : s.here.take imm.word [a] = some ([v], x)) :
    ∃ t, exec (.wrsLoopRegister l a imm) s = .next t ∧ t.special l.spr = written l.spr v := by
  have hro : l.spr.readOnly = false := by cases l <;> rfl
  let y := x.retire (lenImm imm)
  refine ⟨s.mapHere (fun _ => { y with loops := y.loops.write l v }), ?_, ?_⟩
  · show execWrsLoopRegister l a imm s = _
    simp only [execWrsLoopRegister, immS, withOperands_ready ht, State.retire, State.mapHere_mapHere]
    rfl
  · rw [special_of_writable _ hro, State.here_mapHere]
    exact writable_write_loopReg y l v

theorem wrsTcause_done (ht : s.here.take imm.word [a] = some ([v], x)) :
    ∃ t, exec (.wrsTcause a imm) s = .next t ∧ t.special .tcause = written .tcause v := by
  refine ⟨s.mapHere (fun _ => Ctx.retire { x with tcause := v &&& 0xFF } (lenImm imm)), ?_, ?_⟩
  · show execWrsTcause a imm s = _
    simp only [execWrsTcause, immS, withOperands_ready ht, done_eq, State.mapHere_mapHere]
    rfl
  · rw [special_of_writable _ rfl, State.here_mapHere, writable_retire _ _ (.inr (.inr rfl))]
    rfl

end

/-- Settles O15: each special register is a field of the context or of the device; a write replaces its own field, and the
completion of the WRS changes loop counts alone. -/
theorem specialRegisters : Obligations.SpecialRegisters := by
  refine ⟨fun d rd r s => ⟨rds_done d, rfl, rfl, rfl, rfl, rfl, rfl, rfl, rfl, qstat_done rd s⟩,
    fun a imm r l v x s ht => ⟨wrs_done ht, wrsFflags_done ht, wrsLoopRegister_done l ht, wrsTcause_done ht⟩⟩

end Sys2Proof.Proofs
end

section
/-! What the home slices and the kernel's reads and writes do does not depend on the contexts of the cores, nor on which of
them issues, and changes neither the issuing contexts nor the core in focus. -/

namespace Sys2Proof.Proofs

open Sys2Proof Sys2Proof.Machine Sys2Proof.Claims

/-! ### Two results of one operation -/

theorem rel_bind {α β γ δ : Type} {r : α → β → Prop} {r' : γ → δ → Prop} {a : Option α} {b : Option β}
    {f : α → Option γ} {g : β → Option δ} (h : Option.Rel r a b) (hf : ∀ x y, r x y → Option.Rel r' (f x) (g y)) :
    Option.Rel r' (a.bind f) (b.bind g) := by
  cases h with
  | some h => exact hf _ _ h
  | none => exact .none

theorem rel_map {α β γ δ : Type} {r : α → β → Prop} {r' : γ → δ → Prop} {a : Option α} {b : Option β}
    {f : α → γ} {g : β → δ} (h : Option.Rel r a b) (hf : ∀ x y, r x y → r' (f x) (g y)) :
    Option.Rel r' (a.map f) (b.map g) := by
  cases h with
  | some h => exact .some (hf _ _ h)
  | none => exact .none

theorem rel_cases {α β : Type} {r : α → β → Prop} {a : Option α} {b : Option β} (h : Option.Rel r a b) :
    (a = none ∧ b = none) ∨ ∃ x y, a = some x ∧ b = some y ∧ r x y := by
  cases h with
  | some h => exact .inr ⟨_, _, rfl, rfl, h⟩
  | none => exact .inl ⟨rfl, rfl⟩

/-- A core with other contexts. -/
def CoreTwin (k j : Core) : Prop := ∃ v x, j = { k with ctxs := v, cur := x }

/-- The state t differs from s in the contexts and the issuing contexts of the cores alone; s itself has the core in focus
and the issuing contexts of s₀. -/
structure Twin (s₀ s t : State) : Prop where
  rest : ∃ k, t = { s with cores := k }
  core : ∀ c, CoreTwin (s.core c) (t.core c)
  focus : s.focus = s₀.focus
  cur : ∀ c, (s.core c).cur = (s₀.core c).cur

/-- Twins with one value. -/
def TwinWith {β : Type} (s₀ : State) (p q : State × β) : Prop := Twin s₀ p.1 q.1 ∧ q.2 = p.2

theorem TwinWith.mk {β : Type} {s₀ s t : State} (h : Twin s₀ s t) (v : β) : TwinWith s₀ (s, v) (t, v) := ⟨h, rfl⟩

namespace Twin

variable {s₀ s t : State}

theorem refl (s : State) : Twin s s s := ⟨⟨_, rfl⟩, fun _ => ⟨_, _, rfl⟩, rfl, fun _ => rfl⟩

/-- An operation that neither reads nor changes a core. -/
theorem apart (h : Twin s₀ s t) (f : State → State) (hc : ∀ u, (f u).cores = u.cores) (hq : ∀ u, (f u).quartz = u.quartz)
    (hf : ∀ u, (f u).focus = u.focus) (hk : ∀ u k, f { u with cores := k } = { f u with cores := k }) :
    Twin s₀ (f s) (f t) := by
  have hcore (u : State) (c : CoreId) : (f u).core c = u.core c := by simp only [State.core, hc, hq]
  obtain ⟨⟨k, rfl⟩, hcs, hfo, hcu⟩ := h
  exact ⟨⟨k, hk s k⟩, fun c => by rw [hcore, hcore]; exact hcs c, (hf s).trans hfo, fun c => by rw [hcore]; exact hcu c⟩

theorem setCore (h : Twin s₀ s t) {c : CoreId} {k j : Core} (hk : CoreTwin k j) (hcur : k.cur = (s.core c).cur) :
    Twin s₀ (s.setCore c k) (t.setCore c j) := by
  obtain ⟨⟨m, rfl⟩, hcs, hfo, hcu⟩ := h
  refine ⟨⟨_, rfl⟩, fun d => ?_, hfo, fun d => ?_⟩
  · by_cases hd : d = c
    · subst hd; rw [State.core_setCore_self, State.core_setCore_self]; exact hk
    · rw [State.core_setCore_ne _ _ hd, State.core_setCore_ne _ _ hd]; exact hcs d
  · by_cases hd : d = c
    · subst hd; rw [State.core_setCore_self, hcur, hcu]
    · rw [State.core_setCore_ne _ _ hd]; exact hcu d

theorem foldl {α : Type} (f : State → α → State) (hf : ∀ u v a, Twin s₀ u v → Twin s₀ (f u a) (f v a)) (l : List α)
    (h : Twin s₀ s t) : Twin s₀ (l.foldl f s) (l.foldl f t) := by
  induction l generalizing s t with
  | nil => exact h
  | cons a r ih => exact ih (hf s t a h)

theorem foldl_with {α β : Type} (f : State × β → α → State × β)
    (hf : ∀ p q a, TwinWith s₀ p q → TwinWith s₀ (f p a) (f q a)) (l : List α) {p q : State × β} (h : TwinWith s₀ p q) :
    TwinWith s₀ (l.foldl f p) (l.foldl f q) := by
  induction l generalizing p q with
  | nil => exact h
  | cons a r ih => exact ih (hf p q a h)

theorem foldl_option {α : Type} (f : State → α → Option State)
    (hf : ∀ u v a, Twin s₀ u v → Option.Rel (Twin s₀) (f u a) (f v a)) (l : List α) {o p : Option State}
    (h : Option.Rel (Twin s₀) o p) :
    Option.Rel (Twin s₀) (l.foldl (fun o a => o.bind (fun s => f s a)) o) (l.foldl (fun o a => o.bind (fun s => f s a)) p) := by
  induction l generalizing o p with
  | nil => exact h
  | cons a r ih => exact ih (rel_bind h (fun u v huv => hf u v a huv))

/-! ### What twins have in common -/

theorem dies (h : Twin s₀ s t) : t.dies = s.dies := by obtain ⟨k, rfl⟩ := h.rest; rfl
theorem clusters (h : Twin s₀ s t) : t.clusters = s.clusters := by obtain ⟨k, rfl⟩ := h.rest; rfl
theorem hbm (h : Twin s₀ s t) : t.hbm = s.hbm := by obtain ⟨k, rfl⟩ := h.rest; rfl
theorem lateWrites (h : Twin s₀ s t) : t.lateWrites = s.lateWrites := by obtain ⟨k, rfl⟩ := h.rest; rfl
theorem die (h : Twin s₀ s t) (d : DieId) : t.die d = s.die d := by simp only [State.die, h.dies]
theorem cluster (h : Twin s₀ s t) (g : ClusterId) : t.cluster g = s.cluster g := by simp only [State.cluster, h.clusters]
theorem dir (h : Twin s₀ s t) (u : HomeUnit) (line : Nat) : t.dir u line = s.dir u line := by simp only [State.dir, h.die]
theorem rdcLine (h : Twin s₀ s t) (d : DieId) (line : Nat) : t.rdcLine d line = s.rdcLine d line := by
  simp only [State.rdcLine, h.die]
theorem lclk (h : Twin s₀ s t) (c : CoreId) : (t.core c).lclk = (s.core c).lclk := by
  obtain ⟨v, x, e⟩ := h.core c; rw [e]

/-! ### Updates apart from the cores -/

theorem mapDie (h : Twin s₀ s t) (d : DieId) (f : Die → Die) : Twin s₀ (s.mapDie d f) (t.mapDie d f) :=
  h.apart (·.mapDie d f) (fun _ => rfl) (fun _ => rfl) (fun _ => rfl) (fun _ _ => rfl)

theorem mapRdc (h : Twin s₀ s t) (d : DieId) (line : Nat) (f : RdcLine → RdcLine) :
    Twin s₀ (s.mapRdc d line f) (t.mapRdc d line f) :=
  h.apart (·.mapRdc d line f) (fun _ => rfl) (fun _ => rfl) (fun _ => rfl) (fun _ _ => rfl)

theorem setDir (h : Twin s₀ s t) (u : HomeUnit) (line : Nat) (e : DirLine) :
    Twin s₀ (s.setDir u line e) (t.setDir u line e) := by
  cases u with
  | slice d => exact h.apart (·.setDir (.slice d) line e) (fun _ => rfl) (fun _ => rfl) (fun _ => rfl) (fun _ _ => rfl)
  | rdc d => exact h.apart (·.setDir (.rdc d) line e) (fun _ => rfl) (fun _ => rfl) (fun _ => rfl) (fun _ _ => rfl)

theorem voidGrants (h : Twin s₀ s t) (src : Nat) (dst : Option Nat) (line : Nat) :
    Twin s₀ (s.voidGrants src dst line) (t.voidGrants src dst line) :=
  h.apart (·.voidGrants src dst line) (fun _ => rfl) (fun _ => rfl) (fun _ => rfl) (fun _ _ => rfl)

theorem putHbm (h : Twin s₀ s t) (line : Nat) (d : BitVec 1024) (m : BitVec 128) (n : Nat) :
    Twin s₀ (s.putHbm line d m n) (t.putHbm line d m n) := by
  simp only [State.putHbm, h.hbm]
  generalize List.foldl _ s.hbm _ = b
  exact h.apart (fun u => State.evalWaiters { u with hbm := b } line n) (fun _ => rfl) (fun _ => rfl) (fun _ => rfl)
    (fun _ _ => rfl)

theorem raiseMts (h : Twin s₀ s t) (d : DieId) (line n : Nat) : Twin s₀ (s.raiseMts d line n) (t.raiseMts d line n) :=
  h.mapDie d _

theorem l2Use (h : Twin s₀ s t) (d : DieId) (line : Nat) : Twin s₀ (s.l2Use d line) (t.l2Use d line) :=
  h.apart (·.l2Use d line) (fun _ => rfl) (fun _ => rfl) (fun _ => rfl) (fun _ _ => rfl)

theorem ringBells (h : Twin s₀ s t) (line : Nat) (m : BitVec 128) : Twin s₀ (s.ringBells line m) (t.ringBells line m) := by
  refine h.apart (·.ringBells line m) (fun u => ?_) (fun u => ?_) (fun u => ?_) (fun u k => ?_) <;>
    simp only [State.ringBells] <;> split <;> rfl

end Twin

/-! ### One line of a core -/

theorem wakeLine_eq (k : Core) (line : Nat) : ∃ v, k.wakeLine line = { k with ctxs := v } := by
  simp only [Core.wakeLine]
  split <;> exact ⟨_, rfl⟩

theorem coreTwin_l1Inv {k j : Core} (h : CoreTwin k j) (line : Nat) :
    CoreTwin (k.l1Inv line) (j.l1Inv line) ∧ (k.l1Inv line).cur = k.cur := by
  obtain ⟨v, x, rfl⟩ := h
  simp only [Core.l1Inv]
  cases tabGet k.l1 line with
  | none =>
    obtain ⟨a, ha⟩ := wakeLine_eq k line
    obtain ⟨b, hb⟩ := wakeLine_eq { k with ctxs := v, cur := x } line
    simp only [ha, hb]
    exact ⟨⟨b, x, rfl⟩, trivial⟩
  | some l =>
    obtain ⟨a, ha⟩ := wakeLine_eq (k.l1Put line l.untrack) line
    obtain ⟨b, hb⟩ := wakeLine_eq (Core.l1Put { k with ctxs := v, cur := x } line l.untrack) line
    simp only [ha, hb]
    exact ⟨⟨b, x, rfl⟩, rfl⟩

theorem coreTwin_l1Recall {k j : Core} (h : CoreTwin k j) (line : Nat) (m : BitVec 16) (write : Bool) :
    Option.Rel (fun p q => CoreTwin p.1 q.1 ∧ q.2 = p.2 ∧ p.1.cur = k.cur) (k.l1Recall line m write)
      (j.l1Recall line m write) := by
  obtain ⟨v, x, rfl⟩ := h
  simp only [Core.l1Recall]
  cases tabGet k.l1 line with
  | none => exact .none
  | some l =>
    simp only
    split
    · exact .none
    · obtain ⟨a, ha⟩ := wakeLine_eq (k.l1Put line _) line
      obtain ⟨b, hb⟩ := wakeLine_eq (Core.l1Put { k with ctxs := v, cur := x } line _) line
      rw [ha, hb]
      exact .some ⟨⟨b, x, rfl⟩, rfl, rfl⟩

section
variable {s₀ s t : State}

theorem twin_coreRecall (h : Twin s₀ s t) (c : CoreId) (line : Nat) (m : BitVec 16) (write : Bool) :
    Option.Rel (TwinWith s₀) (s.coreRecall c line m write) (t.coreRecall c line m write) :=
  rel_map (coreTwin_l1Recall (h.core c) line m write) (fun _ _ hp => ⟨h.setCore hp.1 hp.2.2, hp.2.1⟩)

theorem twin_l1Inv (h : Twin s₀ s t) (c : CoreId) (line : Nat) :
    Twin s₀ (s.setCore c ((s.core c).l1Inv line)) (t.setCore c ((t.core c).l1Inv line)) :=
  have hi := coreTwin_l1Inv (h.core c) line
  h.setCore hi.1 hi.2

/-! ### Remote-data caches and slices -/

theorem twin_rdcInv (h : Twin s₀ s t) (d : DieId) (line : Nat) (but : Option Nat) :
    TwinWith s₀ (s.rdcInv d line but) (t.rdcInv d line but) := by
  have hfold := Twin.foldl_with (s₀ := s₀) (fun (p : State × Nat) r =>
    (p.1.setCore (dieCore d r) ((p.1.core (dieCore d r)).l1Inv line), max p.2 (p.1.core (dieCore d r)).lclk))
    (fun p q r hp => ⟨twin_l1Inv hp.1 _ line, by rw [hp.2, hp.1.lclk]⟩)
    ((s.dir (.rdc d) line).sharers.filter (fun r => some r != but)) (p := (s, 0)) (q := (t, 0)) ⟨h, rfl⟩
  simp only [State.rdcInv, h.dir]
  obtain ⟨hst, hhi⟩ := hfold
  refine ⟨?_, hhi⟩
  simp only [hhi]
  exact (hst.setDir _ _ _).voidGrants _ _ _

theorem twin_rdcRecallOne (h : Twin s₀ s t) (d : DieId) (line i : Nat) (m : BitVec 16) (write : Bool) :
    Option.Rel (Twin s₀) (s.rdcRecallOne d line i m write) (t.rdcRecallOne d line i m write) := by
  simp only [State.rdcRecallOne, h.dir]
  cases (s.dir (.rdc d) line).owner i with
  | none => exact .some h
  | some o =>
    simp only
    obtain ⟨hn, hm⟩ | ⟨p, q, hp, hq, hst, hl⟩ :=
      rel_cases (twin_coreRecall h (dieCore d o.id) line ((s.dir (.rdc d) line).ownerMask i &&& m) write)
    · rw [hn, hm]; exact .none
    · simp only [hp, hq, hl]
      exact .some (hst.mapRdc d line _)

theorem twin_rdcRecall (h : Twin s₀ s t) (d : DieId) (line : Nat) (m : BitVec 16) (write : Bool) :
    Option.Rel (Twin s₀) (s.rdcRecall d line m write) (t.rdcRecall d line m write) := by
  simp only [State.rdcRecall, h.dir]
  exact Twin.foldl_option (fun s i => s.rdcRecallOne d line i m write)
    (fun _ _ i hu => twin_rdcRecallOne hu d line i m write) _ (.some h)

theorem twin_rdcTakeInv (h : Twin s₀ s t) (d : DieId) (line : Nat) :
    TwinWith s₀ (s.rdcTakeInv d line) (t.rdcTakeInv d line) := by
  have hi := twin_rdcInv h d line none
  simp only [State.rdcTakeInv, h.die]
  split
  · exact ⟨h, rfl⟩
  · simp only [hi.1.rdcLine, hi.2]
    exact .mk (hi.1.mapRdc d line _) _

theorem twin_rdcTakeRecall (h : Twin s₀ s t) (d : DieId) (line : Nat) (m : BitVec 16) (write : Bool) :
    Option.Rel (TwinWith s₀) (s.rdcTakeRecall d line m write) (t.rdcTakeRecall d line m write) := by
  simp only [State.rdcTakeRecall, h.rdcLine]
  split
  · exact .none
  · obtain ⟨hn, hm⟩ | ⟨u, v, hp, hq, hu⟩ := rel_cases (twin_rdcRecall h d line m write)
    · rw [hn, hm]; exact .none
    · have hi := twin_rdcInv hu d line none
      simp only [hp, hq]
      cases write with
      | true =>
        simp only [if_true, hi.1.rdcLine, hi.2]
        exact .some (.mk (hi.1.mapRdc d line _) _)
      | false =>
        simp only [Bool.false_eq_true, if_false, hu.rdcLine]
        exact .some (.mk (hu.mapRdc d line _) _)

/-- The answer of an owner of some words at a slice, a core of the die or a remote-data cache (State.sliceRecallOne). -/
def ownerAnswer (s : State) (d : DieId) (line id : Nat) (m : BitVec 16) (write : Bool) :
    Option (State × BitVec 1024 × Nat × Nat) :=
  if id < 256 then (s.coreRecall (dieCore d id) line m write).map (fun p => (p.1, p.2.data, p.2.wts, p.2.rts))
  else if id < 264 then s.rdcTakeRecall (dieNum (id - 256)) line m write
  else none

theorem twin_ownerAnswer (h : Twin s₀ s t) (d : DieId) (line id : Nat) (m : BitVec 16) (write : Bool) :
    Option.Rel (TwinWith s₀) (ownerAnswer s d line id m write) (ownerAnswer t d line id m write) := by
  unfold ownerAnswer
  split
  · exact rel_map (twin_coreRecall h _ line m write) (fun _ _ hp => ⟨hp.1, by rw [hp.2]⟩)
  · split
    · exact twin_rdcTakeRecall h _ line m write
    · exact .none

theorem twin_sliceRecallOne (h : Twin s₀ s t) (d : DieId) (line i : Nat) (m : BitVec 16) (write : Bool) :
    Option.Rel (Twin s₀) (s.sliceRecallOne d line i m write) (t.sliceRecallOne d line i m write) := by
  simp only [State.sliceRecallOne, h.dir]
  cases (s.dir (.slice d) line).owner i with
  | none => exact .some h
  | some o =>
    obtain ⟨hn, hm⟩ | ⟨p, q, hp, hq, hst, hl⟩ :=
      rel_cases (twin_ownerAnswer h d line o.id ((s.dir (.slice d) line).ownerMask i &&& m) write)
    · simp only [ownerAnswer] at hn hm
      simp only [hn, hm]
      exact .none
    · simp only [ownerAnswer] at hp hq
      simp only [hp, hq, hl]
      exact .some ((hst.setDir _ _ _).putHbm _ _ _ _)

theorem twin_sliceRecall (h : Twin s₀ s t) (d : DieId) (line : Nat) (m : BitVec 16) (write : Bool) :
    Option.Rel (Twin s₀) (s.sliceRecall d line m write) (t.sliceRecall d line m write) := by
  simp only [State.sliceRecall, h.dir]
  exact Twin.foldl_option (fun s i => s.sliceRecallOne d line i m write)
    (fun _ _ i hu => twin_sliceRecallOne hu d line i m write) _ (.some h)

/-- One tracked copy of a line at a slice, a core's or a remote-data cache's, invalidated, and the highest logical time so far
(State.sliceInv). -/
def copyInv (d : DieId) (line : Nat) (p : State × Nat) (r : Nat) : State × Nat :=
  if r < 256 then (p.1.setCore (dieCore d r) ((p.1.core (dieCore d r)).l1Inv line), max p.2 (p.1.core (dieCore d r)).lclk)
  else ((p.1.rdcTakeInv (dieNum (r - 256)) line).1, max p.2 (p.1.rdcTakeInv (dieNum (r - 256)) line).2)

theorem twin_copyInv (d : DieId) (line : Nat) {p q : State × Nat} (h : TwinWith s₀ p q) (r : Nat) :
    TwinWith s₀ (copyInv d line p r) (copyInv d line q r) := by
  obtain ⟨hst, hhi⟩ := h
  unfold copyInv
  split
  · exact ⟨twin_l1Inv hst _ line, by simp only [hhi, hst.lclk]⟩
  · have hi := twin_rdcTakeInv hst (dieNum (r - 256)) line
    exact ⟨hi.1, by simp only [hhi, hi.2]⟩

theorem sliceInv_eq (s : State) (d : DieId) (line : Nat) :
    let e := s.dir (.slice d) line
    let p := e.sharers.foldl (copyInv d line) (s, e.rts)
    s.sliceInv d line =
      if (tabGet (s.die d).home line).isNone then some s
      else if e.sharers.contains 264 then none
      else some ((p.1.setDir (.slice d) line { e with sharers := [], rts := p.2 }.settle).voidGrants (agentSlice line) none line) := rfl

theorem twin_sliceInv (h : Twin s₀ s t) (d : DieId) (line : Nat) :
    Option.Rel (Twin s₀) (s.sliceInv d line) (t.sliceInv d line) := by
  obtain ⟨hst, hhi⟩ := Twin.foldl_with (copyInv d line) (fun p q r hp => twin_copyInv d line hp r)
    (s.dir (.slice d) line).sharers (.mk h (s.dir (.slice d) line).rts)
  simp only [sliceInv_eq, h.dir, h.die]
  split
  · exact .some h
  · split
    · exact .none
    · rw [hhi]
      exact .some ((hst.setDir _ _ _).voidGrants _ _ _)

theorem Twin.lineHeld (h : Twin s₀ s t) (line : Nat) (write : Bool) : t.lineHeld line write = s.lineHeld line write := by
  simp only [State.lineHeld, h.die]

theorem Twin.l2Ways (h : Twin s₀ s t) (d : DieId) (line : Nat) : t.l2Ways d line = s.l2Ways d line := by
  simp only [State.l2Ways, h.die]

theorem Twin.l2Victim (h : Twin s₀ s t) (d : DieId) (line : Nat) : t.l2Victim d line = s.l2Victim d line := by
  simp only [State.l2Victim, h.l2Ways, h.lineHeld]

theorem Twin.l2Full (h : Twin s₀ s t) (d : DieId) (line : Nat) : t.l2Full d line = s.l2Full d line := by
  rw [State.l2Full, State.l2Full, h.die, h.l2Ways]
  simp only [h.lineHeld]

theorem twin_l2Room (h : Twin s₀ s t) (d : DieId) (line : Nat) :
    Option.Rel (Twin s₀) (s.l2Room d line) (t.l2Room d line) := by
  rw [State.l2Room, State.l2Room, h.die, h.l2Ways, h.l2Victim]
  split
  · exact .some (h.l2Use d line)
  · cases s.l2Victim d line with
    | none => exact .none
    | some v =>
      simp only [Option.bind_some]
      refine rel_map (rel_bind (twin_sliceRecall h d v _ true) (fun _ _ hu => twin_sliceInv hu d v)) (fun u w hu => ?_)
      simp only [hu.dir]
      exact ((hu.mapDie d _).raiseMts d v _).l2Use d line

/-! ### The kernel's reads -/

theorem twin_readyLine (h : Twin s₀ s t) (line : Nat) (m : BitVec 16) :
    Option.Rel (Twin s₀) (s.readyLine line m) (t.readyLine line m) := by
  simp only [State.readyLine, h.dir]
  split
  · exact .none
  · exact rel_bind (twin_l2Room h _ line) (fun _ _ hu => twin_sliceRecall hu _ line m false)

theorem twin_readHome (h : Twin s₀ s t) (pa n : Nat) : Option.Rel (TwinWith s₀) (s.readHome pa n) (t.readHome pa n) := by
  have hfold := Twin.foldl_option (s₀ := s₀) (fun s i => s.readyLine (pa / 128 + i)
      (wordMask (if i = 0 then pa % 128 else 0)
        (min 128 (pa + n - (pa / 128 + i) * 128) - if i = 0 then pa % 128 else 0)))
    (fun _ _ _ hu => twin_readyLine hu _ _) (List.range ((pa % 128 + n + 127) / 128)) (.some h)
  exact rel_map hfold (fun u v hu => by rw [hu.hbm]; exact .mk hu _)

theorem Twin.peek (h : Twin s₀ s t) (pa n : Nat) : t.peek pa n = s.peek pa n := by
  simp only [State.peek, State.withLate, h.lateWrites]
  obtain ⟨hn, hm⟩ | ⟨p, q, hp, hq, -, he⟩ := rel_cases (twin_readHome h pa n)
  · simp only [hn, hm, h.hbm]
  · simp only [hp, hq, he]

theorem Twin.kernelPa (h : Twin s₀ s t) (c : CoreId) (va : Nat) : t.kernelPa c va = s.kernelPa c va := by
  simp only [State.kernelPa, h.cluster]

/-- What the kernel reads does not depend on any context. -/
theorem Twin.kernelRead (h : Twin s₀ s t) (c : CoreId) (va n : Nat) : t.kernelRead c va n = s.kernelRead c va n := by
  simp only [State.kernelRead, h.kernelPa, h.peek]

/-! ### The kernel's writes -/

theorem twin_writeNow (h : Twin s₀ s t) (line : Nat) (d : BitVec 1024) (m : BitVec 128) :
    Option.Rel (Twin s₀) (s.writeNow line d m) (t.writeNow line d m) := by
  simp only [State.writeNow, h.lineHeld, h.dir, h.l2Full]
  split
  · exact .none
  · split
    · exact .some (((h.raiseMts _ _ _).putHbm _ _ _ _).ringBells _ _)
    · refine rel_map (rel_bind (rel_bind (twin_l2Room h _ line) (fun _ _ hu => twin_sliceRecall hu _ line _ true))
        (fun _ _ hu => twin_sliceInv hu _ line)) (fun u v hu => ?_)
      simp only [hu.dir]
      exact ((hu.setDir _ _ _).putHbm _ _ _ _).ringBells _ _

theorem twin_writeLine (h : Twin s₀ s t) (line : Nat) (d : BitVec 1024) (m : BitVec 128) :
    Twin s₀ (s.writeLine line d m) (t.writeLine line d m) := by
  have hlate := h.apart (fun u => { u with lateWrites := u.lateWrites ++ [⟨line, d, m⟩] }) (fun _ => rfl) (fun _ => rfl)
    (fun _ => rfl) (fun _ _ => rfl)
  simp only [State.writeLine, h.lateWrites]
  cases s.lateWrites.any (·.line == line) with
  | true => simpa [h.lateWrites] using hlate
  | false =>
    simp only [Bool.false_eq_true, if_false]
    obtain ⟨hn, hm⟩ | ⟨u, v, hp, hq, hu⟩ := rel_cases (twin_writeNow h line d m)
    · simpa [hn, hm, h.lateWrites] using hlate
    · simpa [hp, hq] using hu

theorem twin_writeHome (h : Twin s₀ s t) (pa : Nat) (bs : List Byte) : Twin s₀ (s.writeHome pa bs) (t.writeHome pa bs) :=
  Twin.foldl (fun s (p : Nat × BitVec 1024 × BitVec 128) => s.writeLine p.1 p.2.1 p.2.2) (fun _ _ _ hu => twin_writeLine hu _ _ _)
    (lineWrites pa bs) h

theorem twin_kernelWrite (h : Twin s₀ s t) (c : CoreId) (va : Nat) (bs : List Byte) :
    Twin s₀ (s.kernelWrite c va bs) (t.kernelWrite c va bs) := by
  unfold State.kernelWrite
  refine Twin.foldl _ (fun u v i hu => ?_) _ h
  simp only [hu.kernelPa]
  exact twin_writeHome hu _ _

end

end Sys2Proof.Proofs
end

section
/-! What the end of an activation leaves alone (R142): the contexts of every core but for what a WAITA watches, which of
them issues, and the core in focus. -/

namespace Sys2Proof.Proofs

open Sys2Proof Sys2Proof.Machine Sys2Proof.Claims

/-! ### Updates that change no core -/

/-- No core, and neither the time nor the core in focus, has changed. -/
def CoresKept (s t : State) : Prop := t.cores = s.cores ∧ t.quartz = s.quartz ∧ t.focus = s.focus

namespace CoresKept

variable {s t u : State}

theorem refl (s : State) : CoresKept s s := ⟨rfl, rfl, rfl⟩

theorem trans (h : CoresKept s t) (g : CoresKept t u) : CoresKept s u :=
  ⟨g.1.trans h.1, g.2.1.trans h.2.1, g.2.2.trans h.2.2⟩

theorem core (h : CoresKept s t) (c : CoreId) : t.core c = s.core c := by simp only [State.core, h.1, h.2.1]

theorem slot (h : CoresKept s t) (c : CoreId) (n : SlotId) : t.slot c n = s.slot c n := by simp only [State.slot, h.core]

theorem foldl {α : Type} (f : State → α → State) (hf : ∀ u a, CoresKept u (f u a)) (l : List α) (s : State) :
    CoresKept s (l.foldl f s) := by
  induction l generalizing s with
  | nil => exact .refl s
  | cons a r ih => exact (hf s a).trans (ih (f s a))

end CoresKept

theorem coresKept_post (s : State) (src : Nat) (m : Msg) : CoresKept s (s.post src m) := by
  simp only [State.post]
  split
  · simp only [State.postAbroad]
    split <;> exact ⟨rfl, rfl, rfl⟩
  · exact ⟨rfl, rfl, rfl⟩

theorem coresKept_engineReply (s : State) (core : CoreId) (port cls unit opc asker slot : Nat) (cmd1 : Word)
    (domain : BitVec 16) (status value : Nat) (detail : Word) :
    CoresKept s (s.engineReply core port cls unit opc asker slot cmd1 domain status value detail) := by
  simp only [State.engineReply]
  split
  · exact .refl s
  · exact coresKept_post s _ _

theorem coresKept_refusePreempts (s : State) (c : CoreId) (l : List Stop) : CoresKept s (s.refusePreempts c l) := by
  refine CoresKept.foldl _ (fun u a => ?_) l s
  cases a with
  | preempt r => exact coresKept_post u _ _
  | _ => exact .refl u

theorem coresKept_leaveMisses (s : State) (g : ClusterId) (w : MissWaiter) : CoresKept s (s.leaveMisses g w) := by
  simp only [State.leaveMisses]
  split <;> exact ⟨rfl, rfl, rfl⟩

theorem coresKept_garnet (s : State) (n e src c d x : Nat) : CoresKept s (s.garnet n e src c d x) :=
  ⟨State.garnet_cores .., State.garnet_quartz .., State.garnet_focus ..⟩

theorem coresKept_engineWrite (s : State) (cls unit pa : Nat) (bs : List Byte) : CoresKept s (s.engineWrite cls unit pa bs) := by
  unfold State.engineWrite
  refine CoresKept.foldl _ (fun u w => ?_) _ s
  exact ⟨rfl, rfl, rfl⟩

/-- The record of a session leaves piece by piece. -/
theorem coresKept_writePieces (cls unit : Nat) (l : List (Nat × Nat)) (p : State × List Byte) :
    CoresKept p.1 (l.foldl (fun a d => (a.1.engineWrite cls unit d.1 (a.2.take d.2), a.2.drop d.2)) p).1 := by
  induction l generalizing p with
  | nil => exact .refl _
  | cons d r ih => exact (coresKept_engineWrite p.1 cls unit _ _).trans (ih _)

theorem coresKept_mapDie (s : State) (d : DieId) (f : Die → Die) : CoresKept s (s.mapDie d f) := ⟨rfl, rfl, rfl⟩

theorem coresKept_closeSession (s : State) (die : DieId) (id : Nat) (v : Session) (abandoned : Bool) (cmd1 : Word) :
    CoresKept s (s.closeSession die id v abandoned cmd1) := by
  have hrecord (o : Onyx) (bytes : List Byte) : CoresKept s (v.dest.foldl (fun (a : State × List Byte) d =>
      (a.1.engineWrite 5 die.val d.1 (a.2.take d.2), a.2.drop d.2)) ({ s with onyx := o }, bytes)).1 :=
    CoresKept.trans (t := { s with onyx := o }) ⟨rfl, rfl, rfl⟩ (coresKept_writePieces 5 die.val v.dest _)
  simp only [State.closeSession]
  refine CoresKept.trans ?_ (coresKept_engineReply _ _ _ _ _ _ _ _ _ _ _ _ _)
  split
  · exact ((hrecord _ _).trans (coresKept_mapDie _ _ _)).trans (coresKept_garnet _ _ _ _ _ _ _)
  · exact (hrecord _ _).trans (coresKept_mapDie _ _ _)

theorem coresKept_abandonSessions (s : State) (pick : DieId → Session → Bool) : CoresKept s (s.abandonSessions pick) := by
  unfold State.abandonSessions
  refine CoresKept.foldl _ (fun u d => ?_) _ s
  refine CoresKept.foldl _ (fun v p => ?_) _ u
  simp only
  split
  · refine CoresKept.trans ?_ (coresKept_closeSession _ _ _ _ _ _)
    refine CoresKept.trans (t := v.mapDie (dieNum d) _) (coresKept_mapDie v _ _) (CoresKept.foldl _ (fun w q => ?_) _ _)
    exact (coresKept_leaveMisses w _ _).trans (coresKept_engineReply _ _ _ _ _ _ _ _ _ _ _ _ _)
  · exact .refl v

/-! ### Updates that change no context -/

theorem tabGet_tabMap {α : Type} (f : Nat → α → α) (t : Tab α) (n : Nat) :
    tabGet (tabMap f t) n = (tabGet t n).map (f n) := by
  induction t with
  | nil => rfl
  | cons p r ih =>
    obtain ⟨k, v⟩ := p
    by_cases h : n = k
    · subst h; simp [tabMap, tabGet]
    · simpa [tabMap, tabGet, h] using ih

/-- The contexts of a core, but for what a WAITA watches, and which of them issues have not changed. -/
def CtxsKept (k j : Core) : Prop := j.cur = k.cur ∧ ∀ x : CtxId, ∃ w, j.ctxs[x] = { k.ctxs[x] with watch := w }

theorem CtxsKept.refl (k : Core) : CtxsKept k k := ⟨rfl, fun x => ⟨k.ctxs[x].watch, rfl⟩⟩

theorem CtxsKept.of_eq {k j : Core} (hc : j.cur = k.cur) (hx : j.ctxs = k.ctxs) : CtxsKept k j :=
  ⟨hc, fun x => by rw [hx]; exact ⟨_, rfl⟩⟩

theorem CtxsKept.trans {k j i : Core} (h : CtxsKept k j) (g : CtxsKept j i) : CtxsKept k i := by
  refine ⟨g.1.trans h.1, fun x => ?_⟩
  obtain ⟨v, hv⟩ := h.2 x
  obtain ⟨w, hw⟩ := g.2 x
  exact ⟨w, by rw [hw, hv]⟩

/-- The same of every core, and the core in focus is the same one. -/
def IssueKept (s t : State) : Prop := t.focus = s.focus ∧ ∀ c, CtxsKept (s.core c) (t.core c)

namespace IssueKept

variable {s t u : State}

theorem refl (s : State) : IssueKept s s := ⟨rfl, fun _ => .refl _⟩

theorem trans (h : IssueKept s t) (g : IssueKept t u) : IssueKept s u :=
  ⟨g.1.trans h.1, fun c => (h.2 c).trans (g.2 c)⟩

theorem of_cores (h : CoresKept s t) : IssueKept s t :=
  ⟨h.2.2, fun c => by rw [h.core c]; exact .refl _⟩

theorem mapCore (s : State) (c : CoreId) {f : Core → Core} (hf : CtxsKept (s.core c) (f (s.core c))) :
    IssueKept s (s.mapCore c f) := by
  refine ⟨rfl, fun d => ?_⟩
  by_cases h : d = c
  · subst h; rw [State.core_mapCore_self]; exact hf
  · rw [State.core_mapCore_ne _ _ h]; exact .refl _

theorem mapSlot (s : State) (c : CoreId) (n : SlotId) (f : Slot → Slot) : IssueKept s (s.mapSlot c n f) :=
  mapCore s c (.of_eq rfl rfl)

/-- A change of every core that the device lists. -/
theorem tabMap (s : State) {f : Nat → Core → Core} (hf : ∀ i k, CtxsKept k (f i k)) :
    IssueKept s { s with cores := Machine.tabMap f s.cores } := by
  refine ⟨rfl, fun c => ?_⟩
  simp only [State.core, tabGet_tabMap]
  cases tabGet s.cores c.val with
  | none => exact .refl _
  | some k => exact hf _ k

theorem foldl {α : Type} (f : State → α → State) (hf : ∀ u a, IssueKept u (f u a)) (l : List α) (s : State) :
    IssueKept s (l.foldl f s) := by
  induction l generalizing s with
  | nil => exact .refl s
  | cons a r ih => exact (hf s a).trans (ih (f s a))

/-- The issuing context is the same one, and holds the same but for its watch. -/
theorem here (h : IssueKept s t) : ∃ w, t.here = { s.here with watch := w } := by
  obtain ⟨hf, hc⟩ := h
  obtain ⟨hcur, hx⟩ := hc s.focus
  simp only [State.here, State.hereX, State.ctx, hf, hcur]
  exact hx _

end IssueKept

theorem issueKept_correctBank (s : State) (c : CoreId) (bank row : Nat) : IssueKept s (s.correctBank c bank row) :=
  (IssueKept.mapCore s c (.of_eq rfl rfl)).trans (.of_cores (coresKept_garnet _ _ _ _ _ _ _))

theorem issueKept_scrubWord (s : State) (c : CoreId) (w : Nat) : IssueKept s (s.scrubWord c w) := by
  simp only [State.scrubWord]
  split
  · exact .refl s
  · split
    · exact .refl s
    · exact IssueKept.foldl _ (fun u b => issueKept_correctBank u c b _) _ s

theorem ctxsKept_clearErrs (l : List Nat) (k : Core) : CtxsKept k (l.foldl Core.clearErr k) := by
  induction l generalizing k with
  | nil => exact .refl k
  | cons w r ih => exact CtxsKept.trans (.of_eq rfl rfl) (ih (k.clearErr w))

theorem issueKept_spadWrite (s : State) (c : CoreId) (off : Nat) (bs : List Byte) : IssueKept s (s.spadWrite c off bs) := by
  have hscrub := IssueKept.foldl (fun u w => u.scrubWord c w) (fun u w => issueKept_scrubWord u c w)
    (partWords off bs.length) s
  have hput (u : State) : IssueKept u (u.mapCore c (fun k => ((spadWords off bs.length).filter (wholeWord off bs.length)).foldl
      Core.clearErr { k with spad := k.spad.setBytes off bs })) :=
    .mapCore u c (CtxsKept.trans (.of_eq rfl rfl) (ctxsKept_clearErrs _ _))
  have hwritten := hscrub.trans (hput _)
  simp only [State.spadWrite]
  generalize State.mapCore _ c _ = u at hwritten ⊢
  split
  · refine hwritten.trans (.tabMap u (fun i k => ⟨rfl, fun x => ?_⟩))
    simp only [Fin.getElem_fin, Vector.getElem_map]
    split <;> exact ⟨_, rfl⟩
  · exact hwritten

/-- A write of the kernel. -/
theorem issueKept_kernelWrite (s : State) (c : CoreId) (va : Nat) (bs : List Byte) : IssueKept s (s.kernelWrite c va bs) := by
  have hw := twin_kernelWrite (Twin.refl s) c va bs
  have hk := (Laws.kept_kernelWrite s c va bs).2
  exact ⟨hw.focus, fun d => ⟨hw.cur d, (hk d).2⟩⟩

theorem issueKept_imageHead (s : State) (c : CoreId) (n : SlotId) (f : Word → Word) : IssueKept s (s.imageHead c n f) := by
  unfold State.imageHead
  split
  · exact issueKept_kernelWrite s c _ _
  · exact .refl s

theorem slot_imageHead (s : State) (c : CoreId) (n : SlotId) (f : Word → Word) (d : CoreId) (m : SlotId) :
    (s.imageHead c n f).slot d m = s.slot d m := by
  unfold State.imageHead
  split
  · simp only [State.slot, ((Laws.kept_kernelWrite s c _ _).2 d).1]
  · rfl

theorem issueKept_leaveTokens (s : State) (w : TokenWaiter) : IssueKept s (s.leaveTokens w) := by
  simp only [State.leaveTokens, State.mapWaiters]
  generalize tabMap _ s.dies = ds
  refine IssueKept.trans (t := { s with dies := ds }) (.of_cores ⟨rfl, rfl, rfl⟩) (.tabMap { s with dies := ds } ?_)
  exact fun _ _ => .of_eq rfl rfl

theorem issueKept_freePlace (s : State) (c : CoreId) (n : SlotId) : IssueKept s (s.freePlace c n) := by
  have hzero := IssueKept.foldl (fun u (r : Region) => u.spadWrite c r.base (List.replicate r.size 0))
    (fun u r => issueKept_spadWrite u c r.base _) (s.slot c n).regions s
  simp only [State.freePlace]
  generalize List.foldl _ s _ = u at hzero ⊢
  refine (hzero.trans ?_).trans (.mapSlot _ c n _)
  exact .mapCore u c (.of_eq rfl rfl)

theorem zeroSlots_eq (l : List Nat) (k : Core) : ∃ o cl, l.foldl (fun k n =>
    Core.zeroSlot { k with claims := tabDel k.claims n } n) k = { k with opnd := o, claims := cl } := by
  induction l generalizing k with
  | nil => exact ⟨_, _, rfl⟩
  | cons n r ih =>
    obtain ⟨o, cl, h⟩ := ih (Core.zeroSlot { k with claims := tabDel k.claims n } n)
    exact ⟨o, cl, h⟩

/-- Claims released change the operand memory and the claims of one core. -/
theorem releaseClaims_eq (s : State) (c : CoreId) :
    s.releaseClaims c = s ∨ ∃ o cl, s.releaseClaims c = s.mapCore c (fun k => { k with opnd := o, claims := cl }) := by
  simp only [State.releaseClaims]
  split
  · exact .inl rfl
  · obtain ⟨o, cl, h⟩ := zeroSlots_eq (((s.core c).claims.filter (fun p =>
      (s.core c).actorGone p.2.actor && !s.slotInUse c p.1)).map (·.1)) (s.core c)
    exact .inr ⟨o, cl, by rw [State.mapCore, State.mapCore, h]⟩

theorem issueKept_releaseClaims (s : State) (c : CoreId) : IssueKept s (s.releaseClaims c) := by
  obtain h | ⟨o, cl, h⟩ := releaseClaims_eq s c
  · rw [h]; exact .refl s
  · rw [h]; exact .mapCore s c (.of_eq rfl rfl)

theorem slot_mapCore (s : State) (c d : CoreId) {f : Core → Core} (h : (f (s.core c)).slots = (s.core c).slots) (n : SlotId) :
    (s.mapCore c f).slot d n = s.slot d n := by
  by_cases hd : d = c
  · subst hd; simp only [State.slot, State.core_mapCore_self, h]
  · simp only [State.slot, State.core_mapCore_ne _ _ hd]

theorem slot_releaseClaims (s : State) (c d : CoreId) (n : SlotId) : (s.releaseClaims c).slot d n = s.slot d n := by
  obtain h | ⟨o, cl, h⟩ := releaseClaims_eq s c
  · rw [h]
  · rw [h]; exact slot_mapCore s c d rfl n

/-- A slot freed: contexts stay, and the slot is FREE. -/
theorem freeSlot_kept (s : State) (c : CoreId) (n : SlotId) :
    IssueKept s (s.freeSlot c n) ∧ ((s.freeSlot c n).slot c n).state = .free := by
  have hplace : IssueKept s ((s.freePlace c n).leaveTokens (.slot c n)) :=
    (issueKept_freePlace s c n).trans (issueKept_leaveTokens _ _)
  simp only [State.freeSlot]
  generalize (s.freePlace c n).leaveTokens (.slot c n) = u at hplace ⊢
  have hsessions := hplace.trans (.of_cores (coresKept_abandonSessions u (fun _ => u.openedBy c n)))
  generalize u.abandonSessions _ = v at hsessions ⊢
  generalize hw : v.mapCore c _ = w
  have hfreed : IssueKept s w ∧ (w.slot c n).state = .free := by
    rw [← hw]
    refine ⟨hsessions.trans ?_, by simp [State.slot, Slot.free]⟩
    exact .mapCore v c (.of_eq rfl rfl)
  have hkept : IssueKept s (w.releaseClaims c) ∧ ((w.releaseClaims c).slot c n).state = .free :=
    ⟨hfreed.1.trans (issueKept_releaseClaims w c), by rw [slot_releaseClaims]; exact hfreed.2⟩
  generalize w.releaseClaims c = x at hkept ⊢
  split
  · exact hkept
  · split
    · exact hkept
    · exact ⟨hkept.1.trans (.of_cores ⟨rfl, rfl, rfl⟩), hkept.2⟩

/-! ### The end of an activation (R142) -/

/-- The state of a slot after its activation. -/
def endState (st : SlotState) : SlotState :=
  match st with
  | .dying => .free
  | .evicted => .evicted
  | _ => .idle

theorem issueKept_releaseMsg (s : State) (c : CoreId) (a : Activation) : IssueKept s (s.releaseMsg c a) := by
  simp only [State.releaseMsg]
  split
  · exact (IssueKept.mapSlot s c a.slot _).trans (.mapCore _ c (.of_eq rfl rfl))
  · exact .mapSlot s c a.slot _

theorem state_releaseMsg (s : State) (c : CoreId) (a : Activation) :
    ((s.releaseMsg c a).slot c a.slot).state = (s.slot c a.slot).state := by
  simp only [State.releaseMsg]
  split
  · rw [slot_mapCore _ c c rfl, State.slot_mapSlot_self]
  · rw [State.slot_mapSlot_self]

theorem leaveSlot_kept (s : State) (c : CoreId) (a : Activation) :
    IssueKept s (s.leaveSlot c a) ∧ ((s.leaveSlot c a).slot c a.slot).state = endState (s.slot c a.slot).state := by
  simp only [State.leaveSlot]
  generalize hu : State.imageHead _ c a.slot _ = u
  have hkept : IssueKept s u := by
    rw [← hu]
    exact ((issueKept_releaseMsg s c a).trans (.mapSlot _ c _ _)).trans (issueKept_imageHead _ _ _ _)
  have hstate : (u.slot c a.slot).state =
      if (s.slot c a.slot).state = .dying ∨ (s.slot c a.slot).state = .evicted then (s.slot c a.slot).state else .idle := by
    rw [← hu, slot_imageHead, State.slot_mapSlot_self]
    simp only [state_releaseMsg, Bool.or_eq_true, decide_eq_true_eq]
  obtain ⟨hfree, hfreed⟩ := freeSlot_kept u c a.slot
  by_cases hd : (s.slot c a.slot).state = .dying
  · simp only [hd, true_or, if_true] at hstate
    rw [if_pos hstate, hd]
    exact ⟨hkept.trans hfree, hfreed⟩
  · have hne : (u.slot c a.slot).state ≠ .dying := by rw [hstate]; split <;> simp [hd]
    rw [if_neg hne, hstate]
    exact ⟨hkept, by cases hs : (s.slot c a.slot).state <;> simp_all [endState]⟩

/-- A chunk that is none holds no reservation. -/
theorem releaseSerial_none {s : State} {c : CoreId} {x : CtxId} (h : (s.ctx c x).chunk = .none) : s.releaseSerial c x = s := by
  simp only [State.releaseSerial, h]
  cases (s.ctx c x).act <;> rfl

/-- Posted stores outlive their activation: neither a context nor a slot changes. -/
theorem leavePosted_kept (s : State) (c : CoreId) (n : SlotId) :
    IssueKept s (s.leavePosted c n) ∧ ∀ d m, (s.leavePosted c n).slot d m = s.slot d m := by
  refine ⟨.tabMap s ?_, fun d m => ?_⟩
  · exact fun _ _ => .of_eq rfl rfl
  have hcore : ((s.leavePosted c n).core d).slots = (s.core d).slots := by
    simp only [State.core, State.leavePosted, tabGet_tabMap]
    cases tabGet s.cores d.val <;> rfl
  simp only [State.slot, hcore]

/-- The issuing activation ends: its context is as reset, and its actor's slot as after an activation. -/
theorem endActivation_here {s : State} {a : Activation} {terminal : Bool} (ha : s.here.act = some a) (hd : a.drain = false)
    (hk : s.here.chunk = .none) :
    let t := s.endActivation s.focus s.hereX terminal
    (∃ i w, t.here = { Ctx.reset with issued := i, watch := w }) ∧
    (t.slot s.focus a.slot).state = endState (s.slot s.focus a.slot).state := by
  have ha' : (s.ctx s.focus s.hereX).act = some a := ha
  simp only [State.endActivation, releaseSerial_none hk, ha', hd, Bool.false_eq_true, if_false]
  generalize hu : State.leaveMisses (State.dropWaiter _ _) _ _ = u
  have hcores : CoresKept s u := by
    rw [← hu]
    exact ((coresKept_refusePreempts s s.focus _).trans ⟨rfl, rfl, rfl⟩).trans (coresKept_leaveMisses _ _ _)
  generalize hv : State.mapCore u s.focus _ = v
  have hhere : v.here = { Ctx.reset with issued := (s.ctx s.focus s.hereX).issued } := by
    have hf : u.focus = s.focus := hcores.2.2
    rw [← hv]
    simp only [State.here, State.hereX, State.ctx, State.mapCore_focus, hf, State.core_mapCore_self, hcores.core]
    simp
  have hslot (n : SlotId) : v.slot s.focus n = s.slot s.focus n := by
    rw [← hv, slot_mapCore _ _ _ rfl, hcores.slot]
  obtain ⟨hpost, hpostSlot⟩ := leavePosted_kept v s.focus a.slot
  obtain ⟨hleave, hstate⟩ := leaveSlot_kept (v.leavePosted s.focus a.slot) s.focus a
  obtain ⟨w, hw⟩ := (hpost.trans hleave).here
  refine ⟨⟨_, w, by rw [hw, hhere]⟩, ?_⟩
  rw [hstate, hpostSlot, hslot]

end Sys2Proof.Proofs
end

section
/-! Activations bound, drained into and ended (R31, R133, R142, R146, R202, R348). -/

namespace Sys2Proof.Proofs

open Sys2Proof Sys2Proof.Machine Sys2Proof.Claims

/-! ### The scheduler's choice bound (R133) -/

theorem CoreTwin.trans {k j i : Core} (h : CoreTwin k j) (g : CoreTwin j i) : CoreTwin k i := by
  obtain ⟨v, x, rfl⟩ := h
  obtain ⟨w, y, rfl⟩ := g
  exact ⟨w, y, rfl⟩

theorem Twin.mapCore_right {s₀ s t : State} (h : Twin s₀ s t) (c : CoreId) {f : Core → Core}
    (hf : ∀ k, CoreTwin k (f k)) : Twin s₀ s (t.mapCore c f) := by
  obtain ⟨⟨k, rfl⟩, hcs, hfo, hcu⟩ := h
  refine ⟨⟨_, rfl⟩, fun d => ?_, hfo, hcu⟩
  by_cases hd : d = c
  · subst hd; rw [State.core_mapCore_self]; exact (hcs d).trans (hf _)
  · rw [State.core_mapCore_ne _ _ hd]; exact hcs d

/-- A switch of contexts changes contexts alone. -/
theorem twin_switchTo (s : State) (c : CoreId) (x : CtxId) : Twin s s (s.switchTo c x) :=
  ((Twin.refl s).mapCore_right c (fun _ => ⟨_, _, rfl⟩)).mapCore_right c (fun _ => ⟨_, _, rfl⟩)

theorem Twin.slot {s₀ s t : State} (h : Twin s₀ s t) (c : CoreId) (n : SlotId) : t.slot c n = s.slot c n := by
  obtain ⟨v, x, e⟩ := h.core c
  simp only [State.slot, e]

/-- ACTIVATION BIND binds the choice in the free context, after a switch of contexts where one is due (R136). -/
theorem activationBind_chosen {s : State} {c : CoreId} {x : CtxId} (ha : s.arg = .nums c.val 0 0)
    (hx : (s.core c).freeCtx = some x) (hs : (s.core c).stopped = false) :
    ∃ u, Twin s s u ∧
      (∀ n, (s.core c).choose = some (.resume n) → exec .activationBind s = .next (u.resumeActivation c x n)) ∧
      (∀ n, (s.core c).choose = some (.start n false) → exec .activationBind s = .next (u.startActivation c x n)) := by
  have hexec : exec .activationBind s = execActivationBind s := rfl
  simp only [hexec, execActivationBind, withCore_eq ha, hx, hs, Bool.false_eq_true, if_false]
  cases hact : (s.ctx c (s.core c).cur).act with
  | some a => exact ⟨s, .refl s, fun n hn => by simp only [hn], fun n hn => by simp [hn]⟩
  | none =>
    cases hbest : s.bestCtx c (fun _ => true) with
    | none => exact ⟨s, .refl s, fun n hn => by simp only [hn], fun n hn => by simp [hn]⟩
    | some y => exact ⟨s.switchTo c y, twin_switchTo s c y, fun n hn => by simp only [hn], fun n hn => by simp [hn]⟩

/-! ### A new activation (R31) -/

theorem drainRow_none (k : Core) {b : Mailbox} (m : Msg) (h : b.drains = false) : k.drainRow b m = none := by
  simp [Core.drainRow, h]

/-- What a new activation makes of its slot. -/
def started (sl : Slot) (mb : Nat) (atomic : Bool) : Slot :=
  { sl with
    state := .active, quota := sl.quota - 1,
    mboxes := sl.mboxes.modify mb (fun b =>
      if atomic then { b with running := true } else { b with waiting := b.waiting.tail }) }

theorem startActivation_eq {s : State} {c : CoreId} {x : CtxId} {n : SlotId} {mb : Nat} {st : Stored} {q : Mailbox}
    (hm : (s.slot c n).nextMsg n = some (mb, st)) (hq : (s.slot c n).mboxes[mb]? = some q) (hd : q.drains = false) :
    let t := s.startActivation c x n
    (∃ (g : BitVec 32 × BitVec 32) (r : Bool) (i : Nat) (l : List Stop) (t0 : Nat), t.ctx c x = { Ctx.entry c n (s.slot c n) mb st.msg none g.1 g.2 with
      acqSys := r, issued := i, stops := l, chunk := { Chunk.none with active := q.atomic, t0 } }) ∧
    t.slot c n = started (s.slot c n) mb q.atomic := by
  simp only [State.startActivation, hm, hq, drainRow_none _ _ hd]
  refine ⟨⟨_, _, _, _, _, State.ctx_mapCtx_self _ _ _ _⟩, ?_⟩
  have hraise (u : State) (t : Nat) : (u.raiseClk c t).slot c n = u.slot c n := slot_mapCore u c c rfl n
  have hdrop (u : State) (r : Bool) : (if r then u.mapCore c (·.dropLeases (fun _ => true)) else u).slot c n = u.slot c n := by
    split
    · exact slot_mapCore u c c rfl n
    · rfl
  have hused (u : State) (r : Bool) :
      (if r then u else u.mapCore c (fun k => { k with storeUsed := k.storeUsed - 1 })).slot c n = u.slot c n := by
    split
    · rfl
    · exact slot_mapCore u c c rfl n
  rw [State.slot_mapCtx, hdrop, hraise, hused, State.slot_mapSlot_self]
  rfl

/-- The registers at handler entry (R31). -/
theorem entry_regs (c : CoreId) (n : SlotId) (sl : Slot) (mb : Nat) (m : Msg) (g : BitVec 32 × BitVec 32) :
    let y := Ctx.entry c n sl mb m none g.1 g.2
    y.reg 1 = m.header ∧ (∀ i < 7, y.reg (Fin.ofNat 32 (2 + i)) = m.dword i) ∧ y.reg 30 = sl.stackTop ∧
    (∀ r : Fin 32, 9 ≤ r.val → r ≠ 30 → y.reg r = 0) := by
  refine ⟨by simp [Ctx.reg, Ctx.entry], fun i hi => ?_, by simp [Ctx.reg, Ctx.entry], fun r hr h30 => ?_⟩
  · have hv : (2 + i) % 32 = i + 2 := by omega
    have h30 : i + 2 ≠ 30 := by omega
    simp [Ctx.reg, Ctx.entry, hv, h30, hi]
  · have h30' : r.val ≠ 30 := fun e => h30 (Fin.ext e)
    have h0 : r.val ≠ 0 := by omega
    have hlen : (m.header :: (List.range 7).map m.dword)[r.val - 1]? = none := by
      rw [List.getElem?_eq_none_iff]; simp; omega
    simp only [Ctx.reg, Ctx.entry, h0, if_false, Fin.getElem_fin, Vector.getElem_ofFn, h30', Option.isSome_none,
      Bool.false_eq_true, hlen, Option.getD_none]

/-- The message of a mailbox that is not ATOMIC is taken. -/
theorem mboxes_started {sl : Slot} {mb : Nat} {q : Mailbox} (hq : sl.mboxes[mb]? = some q) :
    (started sl mb false).mboxes[mb]? = some { q with waiting := q.waiting.tail } := by
  simp [started, hq]

/-! ### A saved activation (R348) -/

/-- A context holds the activation of another: registers, queues, place in the program and domain stack. -/
def Resumed (y z : Ctx) : Prop :=
  z.act = y.act ∧ z.regs = y.regs ∧ z.vregs = y.vregs ∧ z.kregs = y.kregs ∧ z.queues = y.queues ∧ z.pc = y.pc ∧
  z.slot = y.slot ∧ z.loops = y.loops ∧ z.stack = y.stack ∧ z.domain = y.domain

theorem resumed_update (y : Ctx) (g : BitVec 32 × BitVec 32) (i : Nat) (w : Wait) :
    Resumed y { y with clkgs := g.1, clkseq := g.2, issued := i, wait := w } :=
  ⟨rfl, rfl, rfl, rfl, rfl, rfl, rfl, rfl, rfl, rfl⟩

theorem resumeActivation_restores {s : State} {c : CoreId} {x : CtxId} {n : SlotId} {v : Saved}
    (hv : (s.slot c n).saved = some v) :
    let t := s.resumeActivation c x n
    Resumed (v.restore (s.kernelRead c v.ctx.frame.toNat 6144)) (t.ctx c x) ∧
    t.slot c n = { s.slot c n with
      saved := none, state := if (s.slot c n).state = .suspended then .active else (s.slot c n).state } ∧
    v.lclk ≤ (t.core c).lclk := by
  simp only [State.resumeActivation, hv]
  refine ⟨?_, ?_, ?_⟩
  · rw [State.ctx_mapCtx_self]
    exact resumed_update _ _ _ _
  · rw [State.slot_mapCtx, State.raiseClk, slot_mapCore _ c c rfl n, State.slot_mapSlot_self]
  · simp only [State.mapCtx, State.raiseClk, State.core_mapCore_self, Core.mapCtx_lclk]
    exact Nat.le_max_right _ _

/-! ### A restored actor's overflow queue (R146) -/

/-- Cores restarted keep their slots. -/
theorem slot_restartQuad (s : State) (d : DieId) (q : Nat) (c : CoreId) (n : SlotId) : (s.restartQuad d q).slot c n = s.slot c n := by
  simp only [State.restartQuad]
  generalize (quadCores d q).filter (fun c => (s.core c).stopped) = l
  induction l generalizing s with
  | nil => rfl
  | cons e r ih =>
    rw [List.foldl_cons, ih, State.resyncCore, slot_mapCore _ e c rfl n, slot_mapCore _ e c rfl n]

theorem slot_wakeQuad (s : State) (c : CoreId) (n : SlotId) (d : CoreId) (m : SlotId) :
    (s.wakeQuad c n).slot d m = s.slot d m := by
  simp only [State.wakeQuad]
  split
  · rfl
  · split
    · exact slot_restartQuad s _ _ d m
    · exact slot_mapCore s c d rfl m

/-- A message accepted at an actor without an overflow queue is the newest of its mailbox. -/
theorem slot_acceptMsg {s : State} {c : CoreId} {n : SlotId} {m : Msg} (hn : slotOf m.port = n)
    (ho : (s.slot c n).overflow = none) :
    ∃ order, (s.acceptMsg c m).slot c n = { s.slot c n with
      mboxes := (s.slot c n).mboxes.modify m.mbox (fun b => { b with waiting := b.waiting ++ [⟨m, order⟩] }) } := by
  subst hn
  simp only [State.acceptMsg]
  split
  · next h => rw [ho] at h; cases h
  · exact ⟨_, by rw [slot_wakeQuad, State.slot_mapSlot_self, slot_mapCore _ c c rfl]⟩

/-- A message addressed anew is the same message otherwise. -/
theorem readdressed (m : Msg) (d : Word) : { m with dst := d }.payload = m.payload ∧ { m with dst := d }.tag = m.tag := ⟨rfl, rfl⟩

theorem endpointOf_fields (core port mbox : Nat) (hp : port < 32) (hm : mbox < 8) :
    bitsOf (endpointOf core port mbox) 24 20 = port ∧ bitsOf (endpointOf core port mbox) 19 17 = mbox := by
  simp only [bitsOf, endpointOf, word, BitVec.toNat_ofNat, Nat.mod_eq_of_lt hp, Nat.mod_eq_of_lt hm]
  omega

theorem overflowQueueDrain_moves {s : State} {c : CoreId} {n : SlotId} {o : Overflow} {m : Msg} {mb : Nat}
    {r : List (Msg × Nat)} {q : Mailbox} (ha : s.arg = .nums c.val n.val 0) (hs : (s.slot c n).state ≠ .evicted)
    (ho : (s.slot c n).overflow = some o) (hr : o.msgs = (m, mb) :: r) (hmb : mb < 8)
    (hq : (s.slot c n).mboxes[mb]? = some q) (hf : fullFor (s.core c) q m.domain = false) :
    ∃ t st, exec .overflowQueueDrain s = .next t ∧ st.msg.payload = m.payload ∧ st.msg.tag = m.tag ∧
      (t.slot c n).mboxes[mb]? = some { q with waiting := q.waiting ++ [st] } ∧
      (t.slot c n).overflow = (if r = [] then none else some { o with msgs := r }) := by
  let m' : Msg := { m with dst := endpointOf c.val n.val mb }
  let u := s.mapSlot c n (fun sl => { sl with overflow := none })
  have hu : u.slot c n = { s.slot c n with overflow := none } := State.slot_mapSlot_self s c n _
  obtain ⟨hport, hbox⟩ := endpointOf_fields c.val n.val mb (by omega) hmb
  have hport : slotOf m'.port = n := (congrArg slotOf hport).trans (slotOf_val n)
  have hbox : m'.mbox = mb := hbox
  obtain ⟨order, hacc⟩ := slot_acceptMsg (s := u) (c := c) hport (by rw [hu])
  refine ⟨(u.acceptMsg c m').mapSlot c n (fun sl => { sl with overflow := if r.isEmpty then none else some { o with msgs := r } }),
    ⟨m', order⟩, ?_, (readdressed m _).1, (readdressed m _).2, ?_, ?_⟩
  · have hexec : exec .overflowQueueDrain s = execOverflowQueueDrain s := rfl
    have hev : ((s.slot c n).state == .evicted) = false := by simpa using hs
    simp only [hexec, execOverflowQueueDrain, withNums_eq ha, coreOf_val, slotOf_val, hev, ho, hr, hq, hf,
      Bool.false_eq_true, if_false]
    rfl
  · rw [State.slot_mapSlot_self, hacc, hu, hbox]
    simp [hq]
  · rw [State.slot_mapSlot_self]
    cases r <;> rfl

/-! ### DONE (R202) -/

/-- DONE of the outermost level, with nothing of the activation under way, ends it. -/
theorem done_ends {s : State} {a : Activation} (ha : s.here.act = some a) (hs : s.here.stack = [])
    (hv : s.here.vIdle = true) (hk : s.here.chunk = .none) (ho : s.hostOut = false)
    (hc : s.chunkSends s.focus a.slot = false) :
    exec .done s = .next (s.endActivation s.focus s.hereX false) := by
  have hexec : exec .done s = execDone s := rfl
  rw [hexec]
  simp [execDone, hs, hv, hk, ho, ha, hc, Chunk.none, State.sendHeld]

/-- DONE inside a gate is ILLEGAL. -/
theorem done_illegal {s : State} (hs : s.here.stack ≠ []) : exec .done s = trap s 1 (firstDword .done) := by
  have hexec : exec .done s = execDone s := rfl
  rw [hexec]
  simp [execDone, hs, illegalUse, illegal, causeIllegal]

/-- Settles O34: a bound context is the one of handler entry, or the saved one, whatever switch of contexts came before; DONE
leaves a context as reset, and none of what it does after that touches a context but for its watch. -/
theorem activations : Obligations.Activations := by
  refine ⟨fun s c x n => ⟨fun ha hx hs => ?_, fun o m mb r q ha he ho hr hmb hq hf =>
      overflowQueueDrain_moves ha he ho hr hmb hq hf⟩,
    fun s a ha hd => ⟨fun hst hv hk ho hc => ?_, done_illegal⟩⟩
  · obtain ⟨u, htwin, hresume, hstart⟩ := activationBind_chosen ha hx hs
    have hslot := htwin.slot c n
    refine ⟨fun mb st q hch hm hq hdr => ⟨_, hstart n hch, ?_⟩, fun v hch hv hsus => ⟨_, hresume n hch, ?_⟩⟩
    · obtain ⟨⟨g, r, i, l, t0, hctx⟩, hsl⟩ := startActivation_eq (s := u) (x := x) (by rw [hslot]; exact hm)
        (by rw [hslot]; exact hq) hdr
      obtain ⟨h1, h2, h30, h0⟩ := entry_regs c n (s.slot c n) mb st.msg g
      rw [hctx, hsl, hslot]
      refine ⟨rfl, ?_, rfl, h1, h2, h30, h0, rfl, rfl, rfl, rfl, fun q => ?_, rfl, rfl, rfl, fun hat => ?_⟩
      · simp [Ctx.entry, hq]
      · simp [Ctx.queue, Ctx.entry, Ctx.reset]
      · rw [hat]; exact mboxes_started hq
    · obtain ⟨hres, hsl, hclk⟩ := resumeActivation_restores (s := u) (x := x) (c := c) (n := n) (v := v)
        (by rw [hslot]; exact hv)
      rw [htwin.kernelRead] at hres
      obtain ⟨hact, hregs, hvregs, hkregs, hqueues, hpc, hpend, hloops, hstack, hdomain⟩ := hres
      rw [hsl, hslot]
      exact ⟨hact, hregs, hvregs, hkregs, hqueues, hpc, hpend, hloops, hstack, hdomain, rfl, by simp [hsus], hclk⟩
  · obtain ⟨⟨i, w, hhere⟩, hstate⟩ := endActivation_here (terminal := false) ha hd hk
    refine ⟨_, done_ends ha hst hv hk ho hc, ?_⟩
    rw [hhere, hstate]
    exact ⟨rfl, rfl, rfl, rfl⟩

end Sys2Proof.Proofs
end

section
/-! The fields of a word (R37 to R49): a number is its fields, and its fields are the number. -/

namespace Sys2Proof.Proofs

open Sys2Proof

/-- The widths of some fields together. -/
def fieldBits (fs : List (Nat × Nat)) : Nat := (fs.map (·.1)).sum

/-- Every field has a value of its width. -/
def Fits (fs : List (Nat × Nat)) : Prop := ∀ p ∈ fs, p.2 < 2 ^ p.1

@[simp] theorem fits_nil : Fits [] := by simp [Fits]

@[simp] theorem fits_cons {w v : Nat} {fs : List (Nat × Nat)} : Fits ((w, v) :: fs) ↔ v < 2 ^ w ∧ Fits fs := by
  simp [Fits]

theorem joinBits_lt {fs : List (Nat × Nat)} (h : Fits fs) : joinBits fs < 2 ^ fieldBits fs := by
  induction fs with
  | nil => simp [joinBits, fieldBits]
  | cons p r ih =>
    obtain ⟨w, v⟩ := p
    obtain ⟨hv, hr⟩ := fits_cons.mp h
    have hj := ih hr
    calc v + 2 ^ w * joinBits r < 2 ^ w * (joinBits r + 1) := by rw [Nat.mul_add]; omega
      _ ≤ 2 ^ w * 2 ^ fieldBits r := Nat.mul_le_mul_left _ hj
      _ = 2 ^ fieldBits ((w, v) :: r) := by rw [← pow_add]; rfl

/-- The first field of a number, and what is above it. -/
theorem joinBits_mod {w v : Nat} {fs : List (Nat × Nat)} (h : v < 2 ^ w) : joinBits ((w, v) :: fs) % 2 ^ w = v := by
  simp [joinBits, Nat.mod_eq_of_lt h]

theorem joinBits_div {w v : Nat} {fs : List (Nat × Nat)} (h : v < 2 ^ w) :
    joinBits ((w, v) :: fs) / 2 ^ w = joinBits fs := by
  rw [joinBits, Nat.add_mul_div_left _ _ (by positivity), Nat.div_eq_of_lt h, Nat.zero_add]

/-- The fields of a number put together are read back. -/
theorem splitBits_joinBits {fs : List (Nat × Nat)} (h : Fits fs) :
    splitBits (fs.map (·.1)) (joinBits fs) = fs.map (·.2) := by
  induction fs with
  | nil => rfl
  | cons p r ih =>
    obtain ⟨hv, hr⟩ := fits_cons.mp h
    simp only [List.map_cons, splitBits, joinBits_mod hv, joinBits_div hv, ih hr]

/-- The fields read from a number that has no more bits make it up, each of its width. -/
theorem joinBits_of_splitBits {ws vs : List Nat} {n : Nat} (hn : n < 2 ^ ws.sum) (h : splitBits ws n = vs) :
    joinBits (ws.zip vs) = n ∧ Fits (ws.zip vs) := by
  induction ws generalizing n vs with
  | nil => simp_all [joinBits]
  | cons w r ih =>
    subst h
    have hd : n / 2 ^ w < 2 ^ r.sum := by
      rw [Nat.div_lt_iff_lt_mul (by positivity), ← pow_add, Nat.add_comm]
      simpa using hn
    obtain ⟨hj, hf⟩ := ih hd rfl
    simp only [splitBits, List.zip_cons_cons, joinBits, fits_cons, hj]
    exact ⟨Nat.mod_add_div n _, Nat.mod_lt _ (by positivity), hf⟩

end Sys2Proof.Proofs
end

section
/-! The codes of the fields (R24, R38, R43, R45, R48, R51): what a code names has that code and no other. -/

namespace Sys2Proof.Proofs

open Sys2Proof

/-- A list with no entry twice, in which x stands at its code, has x nowhere else. -/
theorem getElem?_eq_some_iff_code {α : Type} {l : List α} {x : α} {c : Nat} (hl : l.Nodup) (hx : l[c]? = some x) (n : Nat) :
    l[n]? = some x ↔ n = c := by
  constructor
  · intro h
    obtain ⟨hn, -⟩ := List.getElem?_eq_some_iff.mp h
    exact (List.getElem?_inj hn hl).mp (h.trans hx.symm)
  · rintro rfl
    exact hx

@[simp] theorem tyCodes_eq_some {n : Nat} {t : Ty} : tyCodes[n]? = some t ↔ n = t.code :=
  getElem?_eq_some_iff_code (by decide) (by cases t <;> rfl) n

@[simp] theorem clampCodes_eq_some {n : Nat} {c : Clamp} : clampCodes[n]? = some c ↔ n = c.code :=
  getElem?_eq_some_iff_code (by decide) (by cases c <;> rfl) n

@[simp] theorem roundingCodes_eq_some {n : Nat} {r : Rounding} : roundingCodes[n]? = some r ↔ n = r.code :=
  getElem?_eq_some_iff_code (by decide) (by cases r <;> rfl) n

@[simp] theorem polCodes_eq_some {n : Nat} {p : Pol} : polCodes[n]? = some p ↔ n = p.code :=
  getElem?_eq_some_iff_code (by decide) (by cases p <;> rfl) n

@[simp] theorem ordCodes_eq_some {n : Nat} {o : MemOrd} : ordCodes[n]? = some o ↔ n = o.code :=
  getElem?_eq_some_iff_code (by decide) (by cases o <;> rfl) n

@[simp] theorem szCodes_eq_some {n : Nat} {z : Sz} : szCodes[n]? = some z ↔ n = z.code :=
  getElem?_eq_some_iff_code (by decide) (by cases z <;> rfl) n

@[simp] theorem amCodes_eq_some {n : Nat} {m : AddrMode} : amCodes[n]? = some m ↔ n = m.code :=
  getElem?_eq_some_iff_code (by decide) (by cases m <;> rfl) n

@[simp] theorem condCodes_eq_some {n : Nat} {c : Cond} : condCodes[n]? = some c ↔ n = c.code :=
  getElem?_eq_some_iff_code (by decide) (by cases c <;> rfl) n

@[simp] theorem finOf_eq_some {n v : Nat} {k : Fin n} : finOf n v = some k ↔ v = k.val := by
  unfold finOf
  split
  · simp [Fin.ext_iff]
  · simp
    omega

@[simp] theorem opndOf_eq_some {v : Nat} {o : Opnd} : opndOf v = some o ↔ v = o.code := by
  cases o <;> grind [opndOf, Opnd.code]

@[simp] theorem idxOf_eq_some {v : Nat} {i : Option (Fin 32)} : idxOf v = some i ↔ v = idxCode i := by
  cases i <;> grind [idxOf, idxCode]

@[simp] theorem lookup_sprCodes_code (r : Spr) : sprCodes.lookup r.code = some r := by
  cases r <;> rfl

@[simp] theorem sprCodes_eq_some {n : Nat} {r : Spr} : sprCodes.lookup n = some r ↔ n = r.code := by
  constructor
  · intro h
    have hall : ∀ p ∈ sprCodes, p.1 = p.2.code := by decide
    obtain ⟨l₁, l₂, hl, -⟩ := List.lookup_eq_some_iff.mp h
    exact hall (n, r) (by simp [hl])
  · rintro rfl
    exact lookup_sprCodes_code r

/-- A conversion to M8 is rounded to nearest (R51): the codes of its other rounding modes name nothing. -/
def vcvtNamed : VcvtFn → Bool
  | .toPlain d rm => d != .m8 || rm == .rne
  | _ => true

theorem vcvtOf_code {f : VcvtFn} (h : vcvtNamed f = true) : vcvtOf f.code = some f := by
  cases f with
  | toPlain d rm => revert h; cases d <;> cases rm <;> decide
  | toPacked p => cases p <;> rfl
  | toE5m2Inf => rfl
  | fromPacked p => cases p <;> rfl

theorem code_of_vcvtOf {n : Nat} {f : VcvtFn} (h : vcvtOf n = some f) : n = f.code := by
  unfold vcvtOf at h
  split at h
  case h_13 =>
    split at h
    · obtain ⟨d, hd, rm, hr, rfl⟩ : ∃ d, tyCodes[n % 16]? = some d ∧ ∃ rm, roundingCodes[n / 16]? = some rm ∧
          VcvtFn.toPlain d rm = f := by
        simpa [Option.bind_eq_some_iff] using h
      rw [VcvtFn.code, ← tyCodes_eq_some.mp hd, ← roundingCodes_eq_some.mp hr, Nat.mod_add_div]
    · cases h
  all_goals
    cases h
    rfl

/-! ### Codes read back -/

@[simp] theorem tyCodes_code (t : Ty) : tyCodes[t.code]? = some t := tyCodes_eq_some.mpr rfl
@[simp] theorem clampCodes_code (c : Clamp) : clampCodes[c.code]? = some c := clampCodes_eq_some.mpr rfl
@[simp] theorem roundingCodes_code (r : Rounding) : roundingCodes[r.code]? = some r := roundingCodes_eq_some.mpr rfl
@[simp] theorem polCodes_code (p : Pol) : polCodes[p.code]? = some p := polCodes_eq_some.mpr rfl
@[simp] theorem ordCodes_code (o : MemOrd) : ordCodes[o.code]? = some o := ordCodes_eq_some.mpr rfl
@[simp] theorem szCodes_code (z : Sz) : szCodes[z.code]? = some z := szCodes_eq_some.mpr rfl
@[simp] theorem amCodes_code (m : AddrMode) : amCodes[m.code]? = some m := amCodes_eq_some.mpr rfl
@[simp] theorem condCodes_code (c : Cond) : condCodes[c.code]? = some c := condCodes_eq_some.mpr rfl
@[simp] theorem finOf_val {n : Nat} (k : Fin n) : finOf n k.val = some k := finOf_eq_some.mpr rfl
@[simp] theorem opndOf_code (o : Opnd) : opndOf o.code = some o := opndOf_eq_some.mpr rfl
@[simp] theorem idxOf_code (i : Option (Fin 32)) : idxOf (idxCode i) = some i := idxOf_eq_some.mpr rfl

@[simp] theorem bit_beq_one (x : Bool) : (bit x == 1) = x := by cases x <;> rfl

/-- A one-bit field is the bit it is read as. -/
theorem bit_of_beq_one {n : Nat} (h : n ≤ 1) : bit (n == 1) = n := by
  interval_cases n <;> rfl

/-! ### Codes have the width of their field -/

theorem opnd_code_lt (o : Opnd) : o.code < 64 := by cases o <;> grind [Opnd.code]
theorem idxCode_lt (i : Option (Fin 32)) : idxCode i < 64 := by cases i <;> grind [idxCode]
theorem ty_code_lt (t : Ty) : t.code < 13 := by cases t <;> decide
theorem clamp_code_lt (c : Clamp) : c.code < 4 := by cases c <;> decide
theorem rounding_code_lt (r : Rounding) : r.code < 4 := by cases r <;> decide
theorem pol_code_lt (p : Pol) : p.code < 4 := by cases p <;> decide
theorem memOrd_code_lt (o : MemOrd) : o.code < 4 := by cases o <;> decide
theorem sz_code_lt (z : Sz) : z.code < 8 := by cases z <;> decide
theorem addrMode_code_lt (m : AddrMode) : m.code < 4 := by cases m <;> decide
theorem cond_code_lt (c : Cond) : c.code < 16 := by cases c <;> decide
theorem spr_code_lt (r : Spr) : r.code < 65536 := by cases r <;> decide
theorem imm_len_lt (i : Imm) : i.len < 4 := by cases i <;> simp [Imm.len]
theorem bit_le_one (x : Bool) : bit x ≤ 1 := by cases x <;> decide
theorem vcvtFn_code_lt (f : VcvtFn) : f.code < 64 := by
  cases f with
  | toPlain d rm => have := ty_code_lt d; have := rounding_code_lt rm; simp only [VcvtFn.code]; omega
  | toPacked p => cases p <;> decide
  | toE5m2Inf => decide
  | fromPacked p => cases p <;> decide

end Sys2Proof.Proofs
end

section
/-! The four formats (R43, R45, R47, R49): the fields read from a first doubleword are those that it is packed of. -/

namespace Sys2Proof.Proofs

open Sys2Proof

/-- LEN and OP are the first two fields of every format. -/
theorem len_op_of_splitBits {r rest : List Nat} {w l op : Nat} (h : splitBits (headWidths ++ r) w = l :: op :: rest) :
    l = w % 4 ∧ op = w / 4 % 256 := by
  injection h with hl h
  injection h with hop _
  exact ⟨hl.symm, hop.symm⟩

/-! ### The fields of a packed word -/

/-- The fields that packA packs. -/
def fieldListA (op fn : Nat) (o : FmtA) : List (Nat × Nat) :=
  [(2, o.imm.len), (8, op), (6, o.d.code), (6, o.a.code), (6, o.b.code), (6, o.c.code),
    (1, bit o.ma.neg), (1, bit o.ma.abs), (1, bit o.mb.neg), (1, bit o.mb.abs), (1, bit o.mc.neg),
    (1, bit o.mc.abs), (2, o.clamp.code), (4, o.dscale.toNat), (3, o.k.val), (1, bit o.z),
    (4, o.t.code), (6, fn), (4, 0)]

/-- The fields that packM packs. -/
def fieldListM (op fn : Nat) (m : FmtM) : List (Nat × Nat) :=
  [(2, m.off.imm.len), (8, op), (6, m.d.val), (6, m.base.val), (6, idxCode m.idx),
    (2, m.pol.code), (2, m.ord.code), (1, bit m.sys), (3, m.sz.code), (3, m.k.val), (1, bit m.z),
    (2, m.am.code), (16, m.off.low), (6, fn)]

/-- The fields that packB packs. -/
def fieldListB (op d a b cond : Nat) (off : BitVec 32) : List (Nat × Nat) :=
  [(2, 0), (8, op), (6, d), (6, a), (6, b), (4, cond), (32, off.toNat)]

/-- The fields that packS packs. -/
def fieldListS (op : Nat) (f : FmtS) : List (Nat × Nat) :=
  [(2, f.imm.len), (8, op), (6, f.d), (6, f.a), (6, f.b), (6, f.c), (16, f.imm16), (10, f.fn), (4, 0)]

theorem fits_fieldListA {op fn : Nat} (o : FmtA) (hop : op < 256) (hfn : fn < 64) : Fits (fieldListA op fn o) := by
  have := ty_code_lt o.t
  simp [fieldListA, imm_len_lt, opnd_code_lt, bit_le_one, clamp_code_lt, hop, hfn, o.dscale.isLt]
  omega

theorem offLow_lt (off : Off) : off.low < 65536 := by
  cases off <;> simp [Off.low]
  omega

theorem fits_fieldListM {op fn : Nat} (m : FmtM) (hop : op < 256) (hfn : fn < 64) : Fits (fieldListM op fn m) := by
  simp [fieldListM, imm_len_lt, idxCode_lt, bit_le_one, pol_code_lt, memOrd_code_lt, sz_code_lt, addrMode_code_lt, hop,
    hfn, offLow_lt]
  omega

theorem fits_fieldListB {op d a b cond : Nat} (off : BitVec 32) (hop : op < 256) (hd : d < 64) (ha : a < 64) (hb : b < 64)
    (hc : cond < 16) : Fits (fieldListB op d a b cond off) := by
  simp [fieldListB, hop, hd, ha, hb, hc, off.isLt]

/-- The fields of format S have their widths. -/
def FitsS (f : FmtS) : Prop := f.d < 64 ∧ f.a < 64 ∧ f.b < 64 ∧ f.c < 64 ∧ f.imm16 < 65536 ∧ f.fn < 1024

theorem fits_fieldListS {op : Nat} {f : FmtS} (hop : op < 256) (hf : FitsS f) : Fits (fieldListS op f) := by
  obtain ⟨hd, ha, hb, hc, hi, hfn⟩ := hf
  simp [fieldListS, imm_len_lt, hop, hd, ha, hb, hc, hi, hfn]

/-! ### Its size, LEN and OP -/

/-- A number made up of a LEN, an OP and other fields, 64 bits in all. -/
theorem joinBits_len_op {l op : Nat} {fs : List (Nat × Nat)} (hbits : fieldBits fs = 54)
    (h : Fits ((2, l) :: (8, op) :: fs)) :
    joinBits ((2, l) :: (8, op) :: fs) < 2 ^ 64 ∧ joinBits ((2, l) :: (8, op) :: fs) % 4 = l ∧
      joinBits ((2, l) :: (8, op) :: fs) / 4 % 256 = op := by
  obtain ⟨hl, hr⟩ := fits_cons.mp h
  obtain ⟨hop, -⟩ := fits_cons.mp hr
  have hsum : fieldBits ((2, l) :: (8, op) :: fs) = 64 := by
    simp only [fieldBits, List.map_cons, List.sum_cons] at hbits ⊢
    omega
  have hdiv : joinBits ((2, l) :: (8, op) :: fs) / 4 = joinBits ((8, op) :: fs) := joinBits_div hl
  refine ⟨hsum ▸ joinBits_lt h, joinBits_mod hl, ?_⟩
  rw [hdiv]
  exact joinBits_mod hop

theorem packA_len_op {op fn : Nat} {o : FmtA} (h : Fits (fieldListA op fn o)) :
    packA op fn o < 2 ^ 64 ∧ packA op fn o % 4 = o.imm.len ∧ packA op fn o / 4 % 256 = op :=
  joinBits_len_op (by simp [fieldBits]) h

theorem packM_len_op {op fn : Nat} {m : FmtM} (h : Fits (fieldListM op fn m)) :
    packM op fn m < 2 ^ 64 ∧ packM op fn m % 4 = m.off.imm.len ∧ packM op fn m / 4 % 256 = op :=
  joinBits_len_op (by simp [fieldBits]) h

theorem packB_len_op {op d a b cond : Nat} {off : BitVec 32} (h : Fits (fieldListB op d a b cond off)) :
    packB op d a b cond off < 2 ^ 64 ∧ packB op d a b cond off % 4 = 0 ∧ packB op d a b cond off / 4 % 256 = op :=
  joinBits_len_op (by simp [fieldBits]) h

theorem packS_len_op {op : Nat} {f : FmtS} (h : Fits (fieldListS op f)) :
    packS op f < 2 ^ 64 ∧ packS op f % 4 = f.imm.len ∧ packS op f / 4 % 256 = op :=
  joinBits_len_op (by simp [fieldBits]) h

/-! ### Format A -/

/-- The fields of a packed format A word are read back. -/
theorem fieldsA_packA {op fn : Nat} (o : FmtA) (hop : op < 256) (hfn : fn < 64) :
    fieldsA (packA op fn o) o.imm = .ok (fn, o) := by
  have h : splitBits widthsA (packA op fn o) = (fieldListA op fn o).map (·.2) :=
    splitBits_joinBits (fits_fieldListA o hop hfn)
  simp [fieldsA, h, fieldListA]

/-- A format A word is packed of the fields read from it. -/
theorem packA_of_fieldsA {w fn : Nat} {imm : Imm} {o : FmtA} (hw : w < 2 ^ 64) (hl : w % 4 = imm.len)
    (h : fieldsA w imm = .ok (fn, o)) : o.imm = imm ∧ fn < 64 ∧ packA (w / 4 % 256) fn o = w := by
  unfold fieldsA at h
  split at h
  case h_2 => cases h
  case h_1 l op d a b c na aa nb ab nc ac clamp dscale k z t fn' rsv hsplit =>
    obtain ⟨rfl, rfl⟩ := len_op_of_splitBits hsplit
    obtain ⟨hjoin, hfits⟩ := joinBits_of_splitBits hw hsplit
    split at h
    · cases h
    · next hrsv =>
      split at h
      case h_2 => cases h
      case h_1 d' a' b' c' clamp' k' t' hd ha hb hc hclamp hk ht =>
        cases h
        rw [opndOf_eq_some] at hd ha hb hc
        rw [clampCodes_eq_some] at hclamp
        rw [finOf_eq_some] at hk
        rw [tyCodes_eq_some] at ht
        rw [ne_eq, not_not] at hrsv
        subst hd ha hb hc hclamp hk ht hrsv
        simp only [widthsA, headWidths, List.cons_append, List.nil_append, List.zip_cons_cons, List.zip_nil_left, fits_cons,
          Nat.reducePow, Nat.lt_succ_iff (n := 1)] at hjoin hfits
        obtain ⟨-, -, -, -, -, -, hna, haa, hnb, hab, hnc, hac, -, hds, -, hz, -, hfn, -, -⟩ := hfits
        refine ⟨rfl, hfn, ?_⟩
        simpa [packA, bit_of_beq_one, hna, haa, hnb, hab, hnc, hac, hz, Nat.mod_eq_of_lt hds, hl] using hjoin

/-! ### Format M -/

/-- The offset of a format M instruction is read back. -/
theorem offOf_low (off : Off) : offOf off.low off.imm = .ok off := by
  cases off <;> simp [Off.low, Off.imm, offOf]

/-- The offset read holds the immediate, and OFF16 is what it leaves of it. -/
theorem off_of_offOf {v : Nat} {imm : Imm} {off : Off} (hv : v < 65536) (h : offOf v imm = .ok off) :
    off.imm = imm ∧ off.low = v := by
  cases imm with
  | none =>
    cases h
    exact ⟨rfl, by simpa [Off.low] using hv⟩
  | w32 x =>
    rw [offOf] at h
    split at h
    · next h0 =>
      cases h
      exact ⟨rfl, h0.symm⟩
    · cases h
  | w64 x => cases h

/-- The fields of a packed format M word are read back. -/
theorem fieldsM_packM {op fn : Nat} (m : FmtM) (hop : op < 256) (hfn : fn < 64) :
    fieldsM (packM op fn m) m.off.imm = .ok (fn, m) := by
  have h : splitBits widthsM (packM op fn m) = (fieldListM op fn m).map (·.2) :=
    splitBits_joinBits (fits_fieldListM m hop hfn)
  simp [fieldsM, h, fieldListM, offOf_low]

/-- A format M word is packed of the fields read from it. -/
theorem packM_of_fieldsM {w fn : Nat} {imm : Imm} {m : FmtM} (hw : w < 2 ^ 64) (hl : w % 4 = imm.len)
    (h : fieldsM w imm = .ok (fn, m)) : m.off.imm = imm ∧ fn < 64 ∧ packM (w / 4 % 256) fn m = w := by
  unfold fieldsM at h
  split at h
  case h_2 => cases h
  case h_1 l op d base idx pol ord sys sz k z am off16 fn' hsplit =>
    obtain ⟨rfl, rfl⟩ := len_op_of_splitBits hsplit
    obtain ⟨hjoin, hfits⟩ := joinBits_of_splitBits hw hsplit
    split at h
    · cases h
    · next off hoff =>
      split at h
      case h_2 => cases h
      case h_1 d' base' idx' pol' ord' sz' k' am' hd hbase hidx hpol hord hsz hk ham =>
        cases h
        rw [finOf_eq_some] at hd hbase hk
        rw [idxOf_eq_some] at hidx
        rw [polCodes_eq_some] at hpol
        rw [ordCodes_eq_some] at hord
        rw [szCodes_eq_some] at hsz
        rw [amCodes_eq_some] at ham
        subst hd hbase hidx hpol hord hsz hk ham
        simp only [widthsM, headWidths, List.cons_append, List.nil_append, List.zip_cons_cons, List.zip_nil_left, fits_cons,
          Nat.reducePow, Nat.lt_succ_iff (n := 1)] at hjoin hfits
        obtain ⟨-, -, -, -, -, -, -, hsys, -, -, hz, -, hoff16, hfn, -⟩ := hfits
        obtain ⟨rfl, hlow⟩ := off_of_offOf hoff16 hoff
        refine ⟨rfl, hfn, ?_⟩
        simpa [packM, bit_of_beq_one, hsys, hz, hlow, hl] using hjoin

/-! ### Formats B and S -/

/-- The fields of a packed format B word are read back. -/
theorem splitBits_packB {op d a b cond : Nat} {off : BitVec 32} (h : Fits (fieldListB op d a b cond off)) :
    splitBits widthsB (packB op d a b cond off) = [0, op, d, a, b, cond, off.toNat] :=
  splitBits_joinBits h

/-- A format B word is packed of its fields. -/
theorem packB_of_splitBits {w l op d a b cond off : Nat} (hw : w < 2 ^ 64) (hl : w % 4 = 0)
    (h : splitBits widthsB w = [l, op, d, a, b, cond, off]) :
    d < 64 ∧ a < 64 ∧ b < 64 ∧ packB (w / 4 % 256) d a b cond (BitVec.ofNat 32 off) = w := by
  obtain ⟨rfl, rfl⟩ := len_op_of_splitBits h
  obtain ⟨hjoin, hfits⟩ := joinBits_of_splitBits hw h
  simp only [widthsB, headWidths, List.cons_append, List.nil_append, List.zip_cons_cons, List.zip_nil_left, fits_cons,
    Nat.reducePow] at hjoin hfits
  obtain ⟨-, -, hd, ha, hb, -, hoff, -⟩ := hfits
  exact ⟨hd, ha, hb, by simpa [packB, hl, Nat.mod_eq_of_lt hoff] using hjoin⟩

/-- The fields of a packed format S word are read back. -/
theorem splitBits_packS {op : Nat} {f : FmtS} (h : Fits (fieldListS op f)) :
    splitBits widthsS (packS op f) = [f.imm.len, op, f.d, f.a, f.b, f.c, f.imm16, f.fn, 0] :=
  splitBits_joinBits h

/-- A format S word is packed of its fields. -/
theorem packS_of_splitBits {w l op d a b c imm16 fn : Nat} {imm : Imm} (hw : w < 2 ^ 64) (hl : w % 4 = imm.len)
    (h : splitBits widthsS w = [l, op, d, a, b, c, imm16, fn, 0]) :
    FitsS ⟨d, a, b, c, imm16, fn, imm⟩ ∧ packS (w / 4 % 256) ⟨d, a, b, c, imm16, fn, imm⟩ = w := by
  obtain ⟨rfl, rfl⟩ := len_op_of_splitBits h
  obtain ⟨hjoin, hfits⟩ := joinBits_of_splitBits hw h
  simp only [widthsS, headWidths, List.cons_append, List.nil_append, List.zip_cons_cons, List.zip_nil_left, fits_cons,
    Nat.reducePow] at hjoin hfits
  obtain ⟨-, -, hd, ha, hb, hc, hi, hfn, -⟩ := hfits
  exact ⟨⟨hd, ha, hb, hc, hi, hfn⟩, by simpa [packS, hl] using hjoin⟩

end Sys2Proof.Proofs
end

section
/-! The rows of the opcode map (R50): which format, OP and FN an instruction has, and the row that these name. -/

namespace Sys2Proof.Proofs

open Sys2Proof

/-! ### The maps of formats A and M -/

theorem mem_of_rowOf {α : Type} {map : List (Nat × List α)} {op fn : Nat} {f : α} (h : rowOf map op fn = some f) :
    ∃ row, (op, row) ∈ map ∧ row[fn]? = some f := by
  obtain ⟨row, hrow, hf⟩ := Option.bind_eq_some_iff.mp h
  obtain ⟨l₁, l₂, hmap, -⟩ := List.lookup_eq_some_iff.mp hrow
  exact ⟨row, by simp [hmap], hf⟩

/-- What holds of every opcode of a map, and of the lengths of its rows, holds of an OP and an FN with a row. -/
theorem op_fn_of_rowOf {α : Type} {map : List (Nat × List α)} {op fn n : Nat} {f : α} {p : Nat → Prop}
    (hmap : ∀ e ∈ map, p e.1 ∧ e.2.length ≤ n) (h : rowOf map op fn = some f) : p op ∧ fn < n := by
  obtain ⟨row, hmem, hf⟩ := mem_of_rowOf h
  obtain ⟨hfn, -⟩ := List.getElem?_eq_some_iff.mp hf
  obtain ⟨hop, hlen⟩ := hmap _ hmem
  exact ⟨hop, hfn.trans_le hlen⟩

/-- Where the instructions of every row of a map have the row's OP and their place as FN, so has each. -/
theorem code_of_rowOf {α : Type} {map : List (Nat × List (α → Instr))} {code : Instr → Option (Nat × Nat × α)}
    {o : α} {op fn : Nat} {f : α → Instr}
    (hmap : ∀ e ∈ map, e.2.map (fun f => code (f o)) = (List.range e.2.length).map (fun k => some (e.1, k, o)))
    (h : rowOf map op fn = some f) : code (f o) = some (op, fn, o) := by
  obtain ⟨row, hmem, hf⟩ := mem_of_rowOf h
  obtain ⟨hfn, -⟩ := List.getElem?_eq_some_iff.mp hf
  have hcode := congrArg (·[fn]?) (hmap _ hmem)
  simpa only [List.getElem?_map, hf, List.getElem?_range hfn, Option.map_some, Option.some.injEq] using hcode

/-- Format A: each row of the map is the row of its instruction. -/
theorem codeA_of_rowOf {op fn : Nat} {f : FmtA → Instr} (o : FmtA) (h : rowOf mapA op fn = some f) :
    codeA (f o) = some (op, fn, o) :=
  code_of_rowOf (by simp [mapA, List.range, List.range.loop, codeA]) h

theorem rowOf_of_codeA {i : Instr} {op fn : Nat} {o : FmtA} (h : codeA i = some (op, fn, o)) :
    (rowOf mapA op fn).map (· o) = some i := by
  unfold codeA at h
  split at h <;> cases h <;> rfl

/-- Format M: each row of the map is the row of its instruction. -/
theorem codeM_of_rowOf {op fn : Nat} {f : FmtM → Instr} (m : FmtM) (h : rowOf mapM op fn = some f) :
    codeM (f m) = some (op, fn, m) :=
  code_of_rowOf (by simp [mapM, List.range, List.range.loop, codeM]) h

theorem rowOf_of_codeM {i : Instr} {op fn : Nat} {m : FmtM} (h : codeM i = some (op, fn, m)) :
    (rowOf mapM op fn).map (· m) = some i := by
  unfold codeM at h
  split at h <;> cases h <;> rfl

/-! ### Every row of format A -/

/-- OP, FN and fields of every format A row: those of the map, MOVI and LEA, and the conversions, whose FN is a field. -/
def rowA : Instr → Option (Nat × Nat × FmtA)
  | .movi d imm => some (0x05, 0, onlyD d imm)
  | .lea d off => some (0x06, 0, onlyD d (.w32 off))
  | .fcvt src rm o => some (0x13, 4 * src.code + rm.code, o)
  | .vcvt fn o => some (0x47, fn.code, o)
  | i => codeA i

theorem rowA_of_codeA {i : Instr} {r : Nat × Nat × FmtA} (h : codeA i = some r) : rowA i = some r := by
  unfold rowA
  split <;> [cases h; cases h; cases h; cases h; exact h]

/-- OP and FN of a row of format A are in their fields, and OP says the format. -/
theorem op_fn_of_rowA {i : Instr} {op fn : Nat} {o : FmtA} (h : rowA i = some (op, fn, o)) :
    (op ≠ 0 ∧ op < 256 ∧ formatOf op = some .a) ∧ fn < 64 := by
  unfold rowA at h
  split at h
  · cases h; decide
  · cases h; decide
  · next src rm o' =>
    cases h
    have := ty_code_lt src
    have := rounding_code_lt rm
    exact ⟨by decide, by omega⟩
  · next fn' o' =>
    cases h
    exact ⟨by decide, vcvtFn_code_lt fn'⟩
  · obtain ⟨f, hf, -⟩ := Option.map_eq_some_iff.mp (rowOf_of_codeA h)
    exact op_fn_of_rowOf (p := fun op => op ≠ 0 ∧ op < 256 ∧ formatOf op = some .a) (by decide) hf

theorem op_fn_of_codeM {i : Instr} {op fn : Nat} {m : FmtM} (h : codeM i = some (op, fn, m)) :
    (op ≠ 0 ∧ op < 256 ∧ formatOf op = some .m) ∧ fn < 64 := by
  obtain ⟨f, hf, -⟩ := Option.map_eq_some_iff.mp (rowOf_of_codeM h)
  exact op_fn_of_rowOf (p := fun op => op ≠ 0 ∧ op < 256 ∧ formatOf op = some .m) (by decide) hf

/-! ### Every row of format B -/

/-- OP and fields of the format B rows. -/
def rowB : Instr → Option (Nat × Nat × Nat × Nat × Nat × BitVec 32)
  | .b cond ra rb off => some (0x20, 0, ra.val, rb.val, cond.code, off)
  | .br rd ra off => some (0x21, rd.val, ra.val, 0, 0, off)
  | .call off => some (0x22, 31, 0, 0, 0, off)
  | .bq cond qa rb off => some (0x26, 0, 32 + qa.val, rb.val, cond.code, off)
  | _ => none

/-! ### The encoding of a row -/

/-- No row is of two formats. -/
theorem rowA_of_codeM {i : Instr} {r : Nat × Nat × FmtM} (h : codeM i = some r) : rowA i = none := by
  unfold codeM at h
  split at h <;> cases h <;> rfl

theorem rowA_of_rowB {i : Instr} {r : Nat × Nat × Nat × Nat × Nat × BitVec 32}
    (h : rowB i = some r) : rowA i = none := by
  unfold rowB at h
  split at h <;> cases h <;> rfl

theorem codeM_of_rowB {i : Instr} {r : Nat × Nat × Nat × Nat × Nat × BitVec 32}
    (h : rowB i = some r) : codeM i = none := by
  unfold rowB at h
  split at h <;> cases h <;> rfl

theorem rows_of_codeS {i : Instr} {r : Nat × FmtS} (h : codeS i = some r) :
    rowA i = none ∧ codeM i = none ∧ rowB i = none := by
  cases i with
  | gcall g => exact ⟨rfl, rfl, rfl⟩
  | _ => cases h <;> exact ⟨rfl, rfl, rfl⟩

/-- The first doubleword and the immediate of an instruction are those of its row, in one of the four formats. -/
theorem encodeDword_eq (i : Instr) :
    encodeDword i =
      if i = .nop then some (0, .none)
      else
        ((rowA i).map (fun (op, fn, o) => (packA op fn o, o.imm))).or
          (((codeM i).map (fun (op, fn, m) => (packM op fn m, m.off.imm))).or
            (((rowB i).map (fun (op, d, a, b, cond, off) => (packB op d a b cond off, Imm.none))).or
              ((codeS i).map (fun (op, f) => (packS op f, f.imm))))) := by
  unfold encodeDword
  split
  case h_10 hnop _ _ _ _ _ _ _ _ =>
    rw [if_neg hnop]
    simp only [rowA, rowB, *]
    cases codeA i <;> cases codeM i <;> cases codeS i <;> rfl
  all_goals rfl

/-- An instruction with an encoding of more than one word is NOP or has a row in one of the four formats. -/
theorem row_of_encodeDword {i : Instr} {w : Nat} {imm : Imm} (h : encodeDword i = some (w, imm)) :
    (i = .nop ∧ w = 0 ∧ imm = .none) ∨
    (∃ op fn o, rowA i = some (op, fn, o) ∧ w = packA op fn o ∧ imm = o.imm) ∨
    (∃ op fn m, codeM i = some (op, fn, m) ∧ w = packM op fn m ∧ imm = m.off.imm) ∨
    (∃ op d a b cond off, rowB i = some (op, d, a, b, cond, off) ∧ w = packB op d a b cond off ∧ imm = .none) ∨
    (∃ op f, codeS i = some (op, f) ∧ w = packS op f ∧ imm = f.imm) := by
  rw [encodeDword_eq] at h
  split at h
  · next hn => simp_all
  · simp only [Option.or_eq_some_iff, Option.map_eq_some_iff, Prod.exists, Prod.mk.injEq] at h
    grind

theorem encodeDword_of_rowA {i : Instr} {op fn : Nat} {o : FmtA} (h : rowA i = some (op, fn, o)) :
    encodeDword i = some (packA op fn o, o.imm) := by
  have hn : i ≠ .nop := by rintro rfl; cases h
  simp [encodeDword_eq, hn, h]

theorem encodeDword_of_codeM {i : Instr} {op fn : Nat} {m : FmtM} (h : codeM i = some (op, fn, m)) :
    encodeDword i = some (packM op fn m, m.off.imm) := by
  have hn : i ≠ .nop := by rintro rfl; cases h
  simp [encodeDword_eq, hn, h, rowA_of_codeM h]

theorem encodeDword_of_rowB {i : Instr} {op d a b cond : Nat} {off : BitVec 32} (h : rowB i = some (op, d, a, b, cond, off)) :
    encodeDword i = some (packB op d a b cond off, .none) := by
  have hn : i ≠ .nop := by rintro rfl; cases h
  simp [encodeDword_eq, hn, h, rowA_of_rowB h, codeM_of_rowB h]

theorem encodeDword_of_codeS {i : Instr} {op : Nat} {f : FmtS} (h : codeS i = some (op, f)) :
    encodeDword i = some (packS op f, f.imm) := by
  have hn : i ≠ .nop := by rintro rfl; cases h
  obtain ⟨ha, hm, hb⟩ := rows_of_codeS h
  simp [encodeDword_eq, hn, h, ha, hm, hb]

end Sys2Proof.Proofs
end

section
/-! Format S (R49): the fields of a row and the row of some fields. -/

namespace Sys2Proof.Proofs

open Sys2Proof

/-- FN of a format S word is 0, but for SENDT and CPYT (R50). -/
def FnOfS (op fn : Nat) : Prop := fn = 0 ∨ (fn = 1 ∧ (op = 0x80 ∨ op = 0xA0))

/-- A number of w bits is a word of w bits. -/
theorem exists_toNat_eq {w n : Nat} (h : n < 2 ^ w) : ∃ x : BitVec w, n = x.toNat :=
  ⟨BitVec.ofNat w n, by simp [Nat.mod_eq_of_lt h]⟩

/-- LOOP: A is the code of the count, and IMM16 the count where A is 63 (R102). -/
theorem codeS_of_decodeRowS_loop {i : Instr} {f : FmtS} (hi : f.imm16 < 2 ^ 16) (h : decodeRowS 0x24 f = some i) :
    codeS i = some (0x24, f) := by
  obtain ⟨d, a, b, c, imm16, fn, imm⟩ := f
  obtain ⟨x, rfl⟩ := exists_toNat_eq hi
  simp only [decodeRowS, Option.ite_none_right_eq_some, Option.bind_eq_bind, Option.bind_eq_some_iff, finOf_eq_some] at h
  obtain ⟨⟨rfl, rfl, rfl⟩, n, rfl, count, hcount, h⟩ := h
  have hcode : a = count.code ∧ x.toNat = count.imm16Field := by
    split at hcount
    · next r hr => 
      rw [Option.ite_none_right_eq_some] at hcount
      obtain ⟨h0, hc⟩ := hcount
      cases hc
      exact ⟨opndOf_eq_some.mp hr, h0⟩
    · next q hq => 
      rw [Option.ite_none_right_eq_some] at hcount
      obtain ⟨h0, hc⟩ := hcount
      cases hc
      exact ⟨opndOf_eq_some.mp hq, h0⟩
    · next ha =>
      cases hcount
      exact ⟨opndOf_eq_some.mp ha, by simp [LoopCount.imm16Field]⟩
    · cases hcount
  obtain ⟨rfl, hx⟩ := hcode
  rw [hx]
  split at h <;> cases h
  rfl

/-- GCALL: the gate is IMM16 where A is 0, a register where A is its number, and a 32-bit immediate where A is 63 (R209). -/
theorem codeS_of_decodeRowS_gcall {i : Instr} {f : FmtS} (hf : f.fn = 0) (hi : f.imm16 < 2 ^ 16)
    (h : decodeRowS 0x90 f = some i) : codeS i = some (0x90, f) := by
  obtain ⟨d, a, b, c, imm16, fn, imm⟩ := f
  obtain ⟨x, rfl⟩ := exists_toNat_eq hi
  simp only [decodeRowS, Option.ite_none_right_eq_some] at h
  obtain ⟨⟨rfl, rfl, rfl⟩, h⟩ := h
  subst hf
  cases imm with
  | none =>
    dsimp only at h
    split_ifs at h with ha hx
    · cases h
      subst ha
      rw [BitVec.ofNat_toNat, BitVec.setWidth_eq]
      rfl
    · obtain ⟨n, hn, hcall⟩ := Option.bind_eq_some_iff.mp h
      rw [finOf_eq_some] at hn
      cases hcall
      rw [hx, hn]
      rfl
  | w32 x =>
    obtain ⟨⟨ha, hx⟩, hcall⟩ := Option.ite_none_right_eq_some.mp h
    cases hcall
    rw [ha, hx]
    rfl
  | w64 x => cases h

/-- SEND and SENDT: IMM16 is the tag and the length (R197). -/
theorem codeS_of_decodeRowS_send {i : Instr} {f : FmtS} (hf : f.fn = 0 ∨ f.fn = 1) (h : decodeRowS 0x80 f = some i) :
    codeS i = some (0x80, f) := by
  obtain ⟨d, a, b, c, imm16, fn, imm⟩ := f
  simp only [decodeRowS, Option.ite_none_right_eq_some, Option.bind_eq_bind, Option.bind_eq_some_iff, finOf_eq_some,
    opndOf_eq_some] at h
  obtain ⟨⟨rfl, -⟩, rd, rfl, ra, rfl, rb, rfl, len, hlen, h⟩ := h
  obtain ⟨tag, htag⟩ : ∃ tag : BitVec 8, imm16 % 256 = tag.toNat := exists_toNat_eq (Nat.mod_lt imm16 (by decide))
  have hi : imm16 = tag.toNat + 256 * len.val := by rw [← htag, ← hlen, Nat.mod_add_div]
  rw [htag, BitVec.ofNat_toNat, BitVec.setWidth_eq] at h
  subst hi
  obtain rfl | rfl := hf <;> cases h <;> rfl

/-- CPY and CPYT, by FN (R333). -/
theorem codeS_of_decodeRowS_cpy {i : Instr} {f : FmtS} (hf : f.fn = 0 ∨ f.fn = 1) (h : decodeRowS 0xA0 f = some i) :
    codeS i = some (0xA0, f) := by
  obtain ⟨d, a, b, c, imm16, fn, imm⟩ := f
  simp only [decodeRowS, Option.ite_none_right_eq_some, Option.bind_eq_bind, Option.bind_eq_some_iff, finOf_eq_some] at h
  obtain ⟨⟨rfl, rfl, rfl, rfl⟩, rd, rfl, ra, rfl, h⟩ := h
  obtain rfl | rfl := hf <;> cases h <;> rfl

/-- The row of some fields of format S has these fields: the guard of a row fixes the fields it does not use, and the others
are codes of its operands. -/
theorem codeS_of_decodeRowS {i : Instr} {op : Nat} {f : FmtS} (hf : FitsS f) (hfn : FnOfS op f.fn)
    (h : decodeRowS op f = some i) : codeS i = some (op, f) := by
  obtain ⟨-, ha, hb, -, hi, -⟩ := hf
  unfold decodeRowS at h
  split at h
  case h_1 => -- LOOP
    exact codeS_of_decodeRowS_loop hi h
  case h_5 => -- SEND and SENDT
    exact codeS_of_decodeRowS_send (by simpa [FnOfS] using hfn) h
  case h_9 => -- GCALL
    exact codeS_of_decodeRowS_gcall (by simpa [FnOfS] using hfn) hi h
  case h_12 => -- CPY and CPYT
    exact codeS_of_decodeRowS_cpy (by simpa [FnOfS] using hfn) h
  case h_31 => -- no row
    cases h
  all_goals
    obtain ⟨d, a, b, c, imm16, fn, imm⟩ := f
    simp only [Option.ite_none_right_eq_some, Option.bind_eq_bind, Option.bind_eq_some_iff, finOf_eq_some, opndOf_eq_some,
      sprCodes_eq_some, Option.some.injEq] at h
    simp only [FnOfS, Nat.reduceEqDiff, or_self, and_false, or_false] at hfn ha hb hi
    casesm* _ ∧ _, Exists _
    subst_vars
  case h_8 | h_25 => -- ACTCTL and WRS, by the operation and by the register
    next h => split at h <;> cases h <;> rfl
  case h_4 | h_16 | h_17 | h_22 | h_26 | h_28 => -- XFENCE, SCLAIM, SREL, BWAIT, TRAP, BRK: a field is a word
    conv_lhs => whnf
    simp [Nat.mod_eq_of_lt, *]
  all_goals rfl

/-! ### The fields of a row read back -/

/-- A list of checks of which none fails. -/
theorem firstFail_eq_none {l : List (Bool × IllForm)} : firstFail l = none ↔ ∀ c ∈ l, c.1 = true := by
  induction l with
  | nil => simp [firstFail]
  | cons c r ih =>
    obtain ⟨ok, e⟩ := c
    cases ok <;> simp [firstFail, ih]

/-- A well-formed instruction passes the checks of its row. -/
theorem ownChecks_of_wellFormed {i : Instr} (hi : i.wellFormed = true) : ∀ c ∈ i.ownChecks, c.1 = true := by
  have hall : ∀ c ∈ i.checks, c.1 = true := firstFail_eq_none.mp (Option.isNone_iff_eq_none.mp hi)
  exact fun c hc => hall c (List.mem_append_right _ hc)

/-- The operand that the field A of LOOP reads as. -/
def countOpnd : LoopCount → Opnd
  | .reg n => .r n
  | .queue n => .q n
  | .imm16 _ => .imm

theorem opndOf_countCode (c : LoopCount) : opndOf c.code = some (countOpnd c) := by
  cases c <;> exact opndOf_eq_some.mpr rfl

/-- The fields of a row of format S are read as that row. -/
theorem decodeRowS_of_codeS {i : Instr} {op : Nat} {f : FmtS} (hi : i.wellFormed = true) (h : codeS i = some (op, f)) :
    decodeRowS op f = some i := by
  have hown := ownChecks_of_wellFormed hi
  clear hi
  cases i
  case gcall g =>
    cases g <;> cases h
    case reg n => simp_all [decodeRowS, Instr.ownChecks]
    all_goals simp [decodeRowS]
  all_goals cases h
  case loop n count off => cases count <;> simp [decodeRowS, opndOf_countCode, countOpnd, LoopCount.imm16Field]
  case send.refl rd a tag rb len imm | sendt.refl rd a tag rb len imm =>
    have htag := tag.isLt
    simp [decodeRowS, Nat.add_mul_div_left, Nat.div_eq_of_lt htag, Nat.mod_eq_of_lt htag]
    omega
  case sclaim.refl rd a count imm | srel.refl rd a count imm => simp [decodeRowS, count.isLt]
  case wrs.refl r a imm => cases r <;> simp_all [decodeRowS, Instr.ownChecks, Spr.ownRow]
  case wrsLoopRegister.refl r a imm => cases r <;> simp [decodeRowS, LoopReg.spr]
  case actctlEnable.refl | actctlDisable.refl | actctlWeight.refl | actctlClass.refl | actctlState.refl =>
    simp only [Instr.ownChecks, List.forall_mem_append, List.forall_mem_singleton, beq_iff_eq] at hown
    obtain ⟨-, hrow⟩ := hown
    simp [decodeRowS, hrow]
  all_goals simp [decodeRowS]

/-- OP and the fields of a row of format S are in their fields, and OP says the format. -/
theorem fits_of_codeS {i : Instr} {op : Nat} {f : FmtS} (h : codeS i = some (op, f)) :
    (op ≠ 0 ∧ op < 256 ∧ formatOf op = some .s) ∧ FitsS f ∧ FnOfS op f.fn := by
  cases i
  case gcall g =>
    cases g <;> cases h <;> exact ⟨by decide, by simp [FitsS] <;> omega, by simp [FnOfS]⟩
  all_goals cases h
  all_goals refine ⟨by decide, ?_, by simp [FnOfS]⟩
  case loop n count off => cases count <;> simp [FitsS, LoopCount.code, LoopCount.imm16Field] <;> omega
  all_goals simp [FitsS, opnd_code_lt, spr_code_lt] <;> omega

end Sys2Proof.Proofs
end

section
/-! Decoding and encoding (R33 to R53): a first doubleword and an immediate are read as an instruction exactly if it is
well-formed and these are what it is encoded as. -/

namespace Sys2Proof.Proofs

open Sys2Proof Sys2Proof.Claims

/-! ### Format A -/

/-- A conversion that VCVT's entry allows is one that FN names. -/
theorem vcvtNamed_of_wellFormed {fn : VcvtFn} {o : FmtA} (hi : (Instr.vcvt fn o).wellFormed = true) : vcvtNamed fn = true := by
  have hok : vcvtOk fn o = true := ownChecks_of_wellFormed hi (vcvtOk fn o, .conversion) (List.mem_singleton_self _)
  cases fn <;> simp_all [vcvtOk, vcvtNamed]

/-- The word of a row of format A is read as that row. -/
theorem decodeA_packA {i : Instr} {op fn : Nat} {o : FmtA} (hi : i.wellFormed = true) (h : rowA i = some (op, fn, o)) :
    decodeA op (packA op fn o) o.imm = .ok i := by
  obtain ⟨⟨-, hop, -⟩, hfn⟩ := op_fn_of_rowA h
  rw [decodeA, fieldsA_packA o hop hfn]
  unfold rowA at h
  split at h
  · cases h; simp [onlyD]
  · cases h; simp [onlyD]
  · next src rm o' =>
    cases h
    have hrm := rounding_code_lt rm
    simp [show (4 * src.code + rm.code) / 4 = src.code by omega, show (4 * src.code + rm.code) % 4 = rm.code by omega]
  · next fn' o' =>
    cases h
    simp [vcvtOf_code (vcvtNamed_of_wellFormed hi)]
  · obtain ⟨f, hf, rfl⟩ := Option.map_eq_some_iff.mp (rowOf_of_codeA h)
    obtain ⟨hne, -⟩ := op_fn_of_rowOf (n := 64) (p := fun op => op ≠ 0x05 ∧ op ≠ 0x06 ∧ op ≠ 0x13 ∧ op ≠ 0x47)
      (by decide) hf
    simp [hne, hf]

/-- A word that is read as a row of format A is the word of that row. -/
theorem rowA_of_decodeA {op w : Nat} {imm : Imm} {i : Instr} (h : decodeA op w imm = .ok i) :
    ∃ fn o, fieldsA w imm = .ok (fn, o) ∧ rowA i = some (op, fn, o) := by
  unfold decodeA at h
  split at h
  case h_1 => cases h
  next fn o hfields =>
  refine ⟨fn, o, hfields, ?_⟩
  split_ifs at h with h56 hfn ho h5 h13 h47
  · cases h
    have honly : onlyD o.d imm = o := (not_not.mp ho).symm
    rw [h5, rowA, honly, not_not.mp hfn]
  · have honly : onlyD o.d imm = o := (not_not.mp ho).symm
    split at h
    · cases h
      rw [h56.resolve_left h5, rowA, honly, not_not.mp hfn]
    · cases h
  · split at h
    · next src rm hsrc hrm =>
      cases h
      rw [tyCodes_eq_some] at hsrc
      rw [roundingCodes_eq_some] at hrm
      rw [h13, rowA, ← hsrc, ← hrm, Nat.div_add_mod]
    · cases h
  · split at h
    · next f hf =>
      cases h
      rw [h47, rowA, ← code_of_vcvtOf hf]
    · cases h
  · split at h
    · next f hf =>
      cases h
      exact rowA_of_codeA (codeA_of_rowOf o hf)
    · cases h

/-- Format A: a word that is read is the encoding of what is read. -/
theorem encodeDword_of_decodeA {w : Nat} {imm : Imm} {i : Instr} (hw : w < 2 ^ 64) (hl : w % 4 = imm.len)
    (h : decodeA (w / 4 % 256) w imm = .ok i) : encodeDword i = some (w, imm) := by
  obtain ⟨fn, o, hfields, hrow⟩ := rowA_of_decodeA h
  obtain ⟨rfl, -, hpack⟩ := packA_of_fieldsA hw hl hfields
  rw [encodeDword_of_rowA hrow, hpack]

/-! ### Format M -/

theorem decodeM_packM {i : Instr} {op fn : Nat} {m : FmtM} (h : codeM i = some (op, fn, m)) :
    decodeM op (packM op fn m) m.off.imm = .ok i := by
  obtain ⟨⟨-, hop, -⟩, hfn⟩ := op_fn_of_codeM h
  obtain ⟨f, hf, rfl⟩ := Option.map_eq_some_iff.mp (rowOf_of_codeM h)
  simp [decodeM, fieldsM_packM m hop hfn, hf]

theorem encodeDword_of_decodeM {w : Nat} {imm : Imm} {i : Instr} (hw : w < 2 ^ 64) (hl : w % 4 = imm.len)
    (h : decodeM (w / 4 % 256) w imm = .ok i) : encodeDword i = some (w, imm) := by
  unfold decodeM at h
  split at h
  · cases h
  · next fn m hfields =>
    obtain ⟨rfl, -, hpack⟩ := packM_of_fieldsM hw hl hfields
    split at h
    · next f hf =>
      cases h
      rw [encodeDword_of_codeM (codeM_of_rowOf m hf), hpack]
    · cases h

/-! ### Format B -/

/-- OP and the fields of a row of format B are in their fields, and OP says the format. -/
theorem fits_of_rowB {i : Instr} {op d a b cond : Nat} {off : BitVec 32} (h : rowB i = some (op, d, a, b, cond, off)) :
    (op ≠ 0 ∧ op < 256 ∧ formatOf op = some .b) ∧ d < 64 ∧ a < 64 ∧ b < 64 ∧ cond < 16 := by
  unfold rowB at h
  split at h <;> cases h <;> refine ⟨by decide, ?_⟩ <;> simp [cond_code_lt] <;> omega

theorem decodeB_packB {i : Instr} {op d a b cond : Nat} {off : BitVec 32} (h : rowB i = some (op, d, a, b, cond, off)) :
    decodeB op (packB op d a b cond off) .none = .ok i := by
  obtain ⟨⟨-, hop, -⟩, hd, ha, hb, hc⟩ := fits_of_rowB h
  unfold decodeB
  rw [splitBits_packB (fits_fieldListB off hop hd ha hb hc)]
  unfold rowB at h
  split at h <;> cases h
  case h_4 cond qa rb => 
    have hq : opndOf (32 + qa.val) = some (.q qa) := opndOf_eq_some.mpr rfl
    simp [hq]
  all_goals simp

/-- The opcodes of format B are those of its four rows. -/
theorem op_of_formatOf_b {op : Nat} (h : formatOf op = some .b) : op = 0x20 ∨ op = 0x21 ∨ op = 0x22 ∨ op = 0x26 := by
  unfold formatOf at h
  split_ifs at h with ha hm hb <;> cases h
  simpa [or_assoc] using hb

theorem encodeDword_of_decodeB {w : Nat} {imm : Imm} {i : Instr} (hw : w < 2 ^ 64) (hl : w % 4 = imm.len)
    (hf : formatOf (w / 4 % 256) = some .b) (h : decodeB (w / 4 % 256) w imm = .ok i) : encodeDword i = some (w, imm) := by
  unfold decodeB at h
  split at h
  case h_2 => cases h
  case h_3 => cases h
  case h_1 l op d a b cond off hsplit =>
    obtain ⟨-, -, -, hpack⟩ := packB_of_splitBits hw hl hsplit
    rw [← hpack]
    apply encodeDword_of_rowB
    obtain h20 | h21 | h22 | h26 := op_of_formatOf_b hf
    · rw [h20] at h ⊢
      simp only [Nat.reduceEqDiff, if_true, if_false] at h
      split at h
      case h_2 => cases h
      case h_1 hc ha hb =>
        split_ifs at h with hd
        cases h
        rw [hd, condCodes_eq_some.mp hc, finOf_eq_some.mp ha, finOf_eq_some.mp hb, rowB]
    · rw [h21] at h ⊢
      simp only [Nat.reduceEqDiff, if_true, if_false] at h
      split at h
      case h_2 => cases h
      case h_1 hd ha =>
        split_ifs at h with hbc
        cases h
        rw [hbc.1, hbc.2, finOf_eq_some.mp hd, finOf_eq_some.mp ha, rowB]
    · rw [h22] at h ⊢
      simp only [Nat.reduceEqDiff, if_true, if_false] at h
      split_ifs at h with hfields
      cases h
      obtain ⟨rfl, rfl, rfl, rfl⟩ := hfields
      rfl
    · rw [h26] at h ⊢
      simp only [Nat.reduceEqDiff, if_false] at h
      split at h
      case h_2 => cases h
      case h_1 hc ha hb =>
        split_ifs at h with hd
        cases h
        rw [hd, condCodes_eq_some.mp hc, opndOf_eq_some.mp ha, finOf_eq_some.mp hb, rowB, Opnd.code]

/-! ### Format S -/

theorem decodeS_packS {i : Instr} {op : Nat} {f : FmtS} (hi : i.wellFormed = true) (h : codeS i = some (op, f)) :
    decodeS op (packS op f) f.imm = .ok i := by
  obtain ⟨⟨-, hop, -⟩, hf, hfn⟩ := fits_of_codeS h
  have hfn' : ¬(1 < f.fn ∨ (f.fn = 1 ∧ op ≠ 0x80 ∧ op ≠ 0xA0)) := by
    unfold FnOfS at hfn
    omega
  simp only [decodeS, splitBits_packS (fits_fieldListS hop hf), ne_eq, not_true_eq_false, if_false, if_neg hfn',
    decodeRowS_of_codeS hi h]

theorem encodeDword_of_decodeS {w : Nat} {imm : Imm} {i : Instr} (hw : w < 2 ^ 64) (hl : w % 4 = imm.len)
    (h : decodeS (w / 4 % 256) w imm = .ok i) : encodeDword i = some (w, imm) := by
  unfold decodeS at h
  split at h
  case h_2 => cases h
  case h_1 l op d a b c imm16 fn rsv hsplit =>
    split_ifs at h with hrsv hfn
    split at h
    · next i' hrow =>
      cases h
      rw [not_not.mp hrsv] at hsplit
      obtain ⟨hf, hpack⟩ := packS_of_splitBits hw hl hsplit
      have hrowS := codeS_of_decodeRowS hf (by simp only [FnOfS]; omega) hrow
      rw [encodeDword_of_codeS hrowS, hpack]
    · cases h

/-! ### The first doubleword -/

/-- A word of the row that OP names, in the format that OP says. -/
def readRow (w : Nat) (imm : Imm) : Except Reject Instr :=
  match formatOf (w / 4 % 256) with
  | some .a => decodeA (w / 4 % 256) w imm
  | some .m => decodeM (w / 4 % 256) w imm
  | some .b => decodeB (w / 4 % 256) w imm
  | some .s => decodeS (w / 4 % 256) w imm
  | none => .error .opcode

/-- With OP 0, NOP alone is read (R36). -/
theorem decodeDword_op_zero {w : Nat} {imm : Imm} (hop : w / 4 % 256 = 0) :
    decodeDword w imm = if w = 0 ∧ imm = .none then .ok .nop else .error .nopWord := by
  unfold decodeDword
  simp only [hop, if_true]
  split_ifs <;> rfl

/-- What was read, if it is well-formed. -/
def checked (r : Except Reject Instr) : Except Reject Instr :=
  match r with
  | .error e => .error e
  | .ok i =>
    match i.illFormed with
    | some e => .error (.illFormed e)
    | none => .ok i

theorem checked_eq_ok {r : Except Reject Instr} {i : Instr} : checked r = .ok i ↔ r = .ok i ∧ i.wellFormed = true := by
  cases r with
  | error e => simp [checked]
  | ok j =>
    cases hill : j.illFormed with
    | some e =>
      simp only [checked, hill, reduceCtorEq, Except.ok.injEq, false_iff, not_and]
      rintro rfl
      simp [Instr.wellFormed, hill]
    | none =>
      simp only [checked, hill, Except.ok.injEq, iff_self_and]
      rintro rfl
      simp [Instr.wellFormed, hill]

/-- With another OP, the row of the word is read and checked. -/
theorem decodeDword_op_ne_zero {w : Nat} {imm : Imm} (hop : w / 4 % 256 ≠ 0) :
    decodeDword w imm = checked (readRow w imm) := by
  simp only [decodeDword, if_neg hop]
  rfl

/-- What is read is well-formed and encoded as the word and the immediate. -/
theorem encodeDword_of_decodeDword {w : Nat} {imm : Imm} {i : Instr} (hw : w < 2 ^ 64) (hl : w % 4 = imm.len)
    (h : decodeDword w imm = .ok i) : i.wellFormed = true ∧ encodeDword i = some (w, imm) := by
  by_cases hop : w / 4 % 256 = 0
  · rw [decodeDword_op_zero hop] at h
    split_ifs at h with hnop
    cases h
    obtain ⟨rfl, rfl⟩ := hnop
    exact ⟨by decide, rfl⟩
  · obtain ⟨hread, hi⟩ := checked_eq_ok.mp (decodeDword_op_ne_zero hop ▸ h)
    refine ⟨hi, ?_⟩
    unfold readRow at hread
    split at hread
    · exact encodeDword_of_decodeA hw hl hread
    · exact encodeDword_of_decodeM hw hl hread
    · next hf => exact encodeDword_of_decodeB hw hl hf hread
    · exact encodeDword_of_decodeS hw hl hread
    · cases hread

/-- The first doubleword of an encoding is one, and its LEN is the immediate's. -/
theorem word_of_encodeDword {w : Nat} {imm : Imm} {i : Instr} (h : encodeDword i = some (w, imm)) :
    w < 2 ^ 64 ∧ w % 4 = imm.len := by
  obtain ⟨-, hw, himm⟩ | ⟨op, fn, o, hrow, hw, himm⟩ | ⟨op, fn, m, hrow, hw, himm⟩ |
    ⟨op, d, a, b, cond, off, hrow, hw, himm⟩ | ⟨op, f, hrow, hw, himm⟩ := row_of_encodeDword h <;> rw [hw, himm]
  · decide
  · obtain ⟨⟨-, hop, -⟩, hfn⟩ := op_fn_of_rowA hrow
    exact (packA_len_op (fits_fieldListA o hop hfn)).imp id And.left
  · obtain ⟨⟨-, hop, -⟩, hfn⟩ := op_fn_of_codeM hrow
    exact (packM_len_op (fits_fieldListM m hop hfn)).imp id And.left
  · obtain ⟨⟨-, hop, -⟩, hd, ha, hb, hc⟩ := fits_of_rowB hrow
    exact (packB_len_op (fits_fieldListB off hop hd ha hb hc)).imp id And.left
  · obtain ⟨⟨-, hop, -⟩, hf, -⟩ := fits_of_codeS hrow
    exact (packS_len_op (fits_fieldListS hop hf)).imp id And.left

/-- A word whose OP says the format of its row is read as the row, if that is well-formed. -/
theorem decodeDword_of_readRow {w op : Nat} {imm : Imm} {i : Instr} (hi : i.wellFormed = true) (hop : w / 4 % 256 = op)
    (hne : op ≠ 0) (hread : readRow w imm = .ok i) : decodeDword w imm = .ok i := by
  rw [decodeDword_op_ne_zero (hop ▸ hne)]
  exact checked_eq_ok.mpr ⟨hread, hi⟩

/-- The first doubleword and the immediate of a well-formed instruction are read as it. -/
theorem decodeDword_of_encodeDword {w : Nat} {imm : Imm} {i : Instr} (hi : i.wellFormed = true)
    (h : encodeDword i = some (w, imm)) : decodeDword w imm = .ok i := by
  obtain ⟨rfl, hw, himm⟩ | ⟨op, fn, o, hrow, hw, himm⟩ | ⟨op, fn, m, hrow, hw, himm⟩ |
    ⟨op, d, a, b, cond, off, hrow, hw, himm⟩ | ⟨op, f, hrow, hw, himm⟩ := row_of_encodeDword h <;> rw [hw, himm]
  · rfl
  · obtain ⟨⟨hne, hop, hf⟩, hfn⟩ := op_fn_of_rowA hrow
    obtain ⟨-, -, hword⟩ := packA_len_op (fits_fieldListA o hop hfn)
    exact decodeDword_of_readRow hi hword hne (by simp only [readRow, hword, hf, decodeA_packA hi hrow])
  · obtain ⟨⟨hne, hop, hf⟩, hfn⟩ := op_fn_of_codeM hrow
    obtain ⟨-, -, hword⟩ := packM_len_op (fits_fieldListM m hop hfn)
    exact decodeDword_of_readRow hi hword hne (by simp only [readRow, hword, hf, decodeM_packM hrow])
  · obtain ⟨⟨hne, hop, hf⟩, hd, ha, hb, hc⟩ := fits_of_rowB hrow
    obtain ⟨-, -, hword⟩ := packB_len_op (fits_fieldListB off hop hd ha hb hc)
    exact decodeDword_of_readRow hi hword hne (by simp only [readRow, hword, hf, decodeB_packB hrow])
  · obtain ⟨⟨hne, hop, hf⟩, hfits, -⟩ := fits_of_codeS hrow
    obtain ⟨-, -, hword⟩ := packS_len_op (fits_fieldListS hop hfits)
    exact decodeDword_of_readRow hi hword hne (by simp only [readRow, hword, hf, decodeS_packS hi hrow])

/-! ### The words -/

/-- The number of a doubleword of two words, and the words of it. -/
theorem ofNat_dword (a b : BitVec 32) :
    BitVec.ofNat 32 (a.toNat + 2 ^ 32 * b.toNat) = a ∧ BitVec.ofNat 32 ((a.toNat + 2 ^ 32 * b.toNat) / 2 ^ 32) = b := by
  have ha := a.isLt
  constructor <;> apply BitVec.eq_of_toNat_eq <;> simp only [BitVec.toNat_ofNat] <;> omega

theorem dword_ofNat {w : Nat} (hw : w < 2 ^ 64) :
    (BitVec.ofNat 32 w).toNat + 2 ^ 32 * (BitVec.ofNat 32 (w / 2 ^ 32)).toNat = w := by
  simp only [BitVec.toNat_ofNat]
  omega

theorem dword_lt (a b : BitVec 32) : a.toNat + 2 ^ 32 * b.toNat < 2 ^ 64 := by
  have ha := a.isLt
  have hb := b.isLt
  omega

theorem dword_mod (a b : BitVec 32) : (a.toNat + 2 ^ 32 * b.toNat) % 4 = a.toNat % 4 := by
  omega

theorem append_extractLsb' (x : BitVec 64) : x.extractLsb' 32 32 ++ x.extractLsb' 0 32 = x := by
  rw [show x.extractLsb' 32 32 = x.extractLsb' (0 + 32) 32 from rfl, BitVec.extractLsb'_append_extractLsb'_eq_extractLsb' rfl]
  exact BitVec.extractLsb'_eq_self

theorem extractLsb'_append (a b : BitVec 32) : (b ++ a).extractLsb' 0 32 = a ∧ (b ++ a).extractLsb' 32 32 = b :=
  ⟨BitVec.extractLsb'_append_eq_right, BitVec.extractLsb'_append_eq_left⟩

/-- The form of the 64-, 96- and 128-bit forms as they are decoded (R33). -/
theorem decode_short {a b : BitVec 32} {rest : List (BitVec 32)} (h : a.toNat % 4 = 0) :
    decode (a :: b :: rest) = (decodeDword (a.toNat + 2 ^ 32 * b.toNat) .none).map (·, 8) := by
  simp [decode, h]

theorem decode_w32 {a b c : BitVec 32} {rest : List (BitVec 32)} (h : a.toNat % 4 = 1) :
    decode (a :: b :: c :: rest) = (decodeDword (a.toNat + 2 ^ 32 * b.toNat) (.w32 c)).map (·, 12) := by
  simp [decode, h]

theorem decode_w64 {a b c d : BitVec 32} {rest : List (BitVec 32)} (h : a.toNat % 4 = 2) :
    decode (a :: b :: c :: d :: rest) = (decodeDword (a.toNat + 2 ^ 32 * b.toNat) (.w64 (d ++ c))).map (·, 16) := by
  simp [decode, h]

theorem map_eq_ok {r : Except Reject Instr} {i : Instr} {n len : Nat} :
    r.map (·, n) = .ok (i, len) ↔ r = .ok i ∧ n = len := by
  cases r <;> simp [Except.map]

/-- A doubleword that is read is the first doubleword of the instruction. -/
theorem encodeDword_of_words {a b : BitVec 32} {imm : Imm} {i : Instr} (hl : a.toNat % 4 = imm.len)
    (hread : decodeDword (a.toNat + 2 ^ 32 * b.toNat) imm = .ok i) :
    i.wellFormed = true ∧ i ≠ .fillWord ∧ encodeDword i = some (a.toNat + 2 ^ 32 * b.toNat, imm) := by
  obtain ⟨hi, henc⟩ := encodeDword_of_decodeDword (dword_lt a b) ((dword_mod a b).trans hl) hread
  exact ⟨hi, (by rintro rfl; cases henc), henc⟩

/-- The words of an instruction that is read are its encoding, and it is well-formed. -/
theorem encode_of_reads {ws : List (BitVec 32)} {i : Instr} {len : Nat} (h : Reads ws i len) :
    i.wellFormed = true ∧ len = 4 * (len / 4) ∧ encode i = some (ws.take (len / 4)) := by
  unfold Reads decode at h
  split at h
  · cases h
  · next a rest =>
    split_ifs at h with hfill hones
    · cases h
      exact ⟨by decide, rfl, by rw [hones]; rfl⟩
    · split at h
      · next b _ hl =>
        obtain ⟨hread, rfl⟩ := map_eq_ok.mp h
        obtain ⟨hi, hfill, henc⟩ := encodeDword_of_words (imm := .none) hl hread
        exact ⟨hi, rfl, by rw [encode_short henc hfill, (ofNat_dword a b).1, (ofNat_dword a b).2]; rfl⟩
      · next b c _ hl =>
        obtain ⟨hread, rfl⟩ := map_eq_ok.mp h
        obtain ⟨hi, hfill, henc⟩ := encodeDword_of_words (imm := .w32 c) hl hread
        exact ⟨hi, rfl, by rw [encode_w32 henc hfill, (ofNat_dword a b).1, (ofNat_dword a b).2]; rfl⟩
      · next b c d _ hl =>
        obtain ⟨hread, rfl⟩ := map_eq_ok.mp h
        obtain ⟨hi, hfill, henc⟩ := encodeDword_of_words (imm := .w64 (d ++ c)) hl hread
        exact ⟨hi, rfl, by rw [encode_w64 henc hfill, (ofNat_dword a b).1, (ofNat_dword a b).2,
          (extractLsb'_append c d).1, (extractLsb'_append c d).2]; rfl⟩
      · cases h

/-- The words of a well-formed instruction's encoding are read as it, whatever follows. -/
theorem reads_of_encode {ws rest : List (BitVec 32)} {i : Instr} (hi : i.wellFormed = true) (h : encode i = some ws) :
    Reads (ws ++ rest) i (4 * ws.length) := by
  by_cases hfill : i = .fillWord
  · subst hfill
    cases h
    rfl
  · cases henc : encodeDword i with
    | none => simp [encode_event henc hfill] at h
    | some p =>
      obtain ⟨w, imm⟩ := p
      obtain ⟨hw, hl⟩ := word_of_encodeDword henc
      have hread := decodeDword_of_encodeDword hi henc
      have hmod : (BitVec.ofNat 32 w).toNat % 4 = imm.len := by
        rw [← dword_mod _ (BitVec.ofNat 32 (w / 2 ^ 32)), dword_ofNat hw, hl]
      cases imm with
      | none =>
        obtain rfl := Option.some.inj ((encode_short henc hfill).symm.trans h)
        exact (decode_short hmod).trans (map_eq_ok.mpr ⟨by rwa [dword_ofNat hw], rfl⟩)
      | w32 x =>
        obtain rfl := Option.some.inj ((encode_w32 henc hfill).symm.trans h)
        exact (decode_w32 hmod).trans (map_eq_ok.mpr ⟨by rwa [dword_ofNat hw], rfl⟩)
      | w64 x =>
        obtain rfl := Option.some.inj ((encode_w64 henc hfill).symm.trans h)
        exact (decode_w64 hmod).trans (map_eq_ok.mpr ⟨by rwa [dword_ofNat hw, append_extractLsb'], rfl⟩)

/-! ### Which rows have an encoding -/

/-- The steps of the device have no encoding. -/
theorem encode_of_mem_deviceRows {i : Instr} (hi : i ∈ deviceRows) : encode i = none := by
  have hall : deviceRows.all (fun i => (encode i).isNone) = true := rfl
  exact Option.isNone_iff_eq_none.mp (List.all_eq_true.mp hall i hi)

/-- Every other row has a first doubleword, but for the fill word. -/
theorem mem_deviceRows_of_encodeDword {i : Instr} (hfill : i ≠ .fillWord) (h : encodeDword i = none) : i ∈ deviceRows := by
  cases i with
  | fillWord => contradiction
  | gcall g => cases g <;> cases h
  | _ => cases h <;> exact List.mem_of_elem_eq_true rfl

theorem encode_isSome_iff (i : Instr) : (encode i).isSome = true ↔ i ∉ deviceRows := by
  constructor
  · intro h hi
    simp [encode_of_mem_deviceRows hi] at h
  · intro h
    by_cases hfill : i = .fillWord
    · rw [hfill]
      rfl
    · obtain ⟨⟨w, imm⟩, hw⟩ := Option.ne_none_iff_exists'.mp (fun hn => h (mem_deviceRows_of_encodeDword hfill hn))
      cases imm with
      | none => rw [encode_short hw hfill]; rfl
      | w32 x => rw [encode_w32 hw hfill]; rfl
      | w64 x => rw [encode_w64 hw hfill]; rfl

/-! ### The obligations -/

/-- Settles O2: the word of an instruction's row has the row's OP, whose format reads its fields back, and the steps of the
device are the rows that have no word. -/
theorem decodeOfEncode : Obligations.DecodeOfEncode :=
  ⟨fun _ _ _ hi h => reads_of_encode hi h, encode_isSome_iff⟩

/-- Settles O3: a doubleword is made up of the fields read from it, and each row that reads them fixes every one. -/
theorem encodeOfDecode : Obligations.EncodeOfDecode :=
  fun _ _ _ h => encode_of_reads h

/-- Settles O1: the decoder evaluated on the words. -/
theorem decodedWords : Obligations.DecodedWords :=
  ⟨rfl, rfl, rfl, rfl, rfl, rfl, rfl, rfl, rfl, rfl, rfl, rfl⟩

end Sys2Proof.Proofs
end

section
/-! Fetch from the instruction cache, fetch faults, and the checks at dispatch (R35, R53, R100). -/

namespace Sys2Proof.Proofs

open Sys2Proof Sys2Proof.Machine Sys2Proof.Claims

/-! ### Fetch (R35) -/

theorem microFill_focus (s : State) (c : CoreId) (e : Option TlbEntry) : (s.microFill c e).focus = s.focus := by
  unfold State.microFill
  split
  · rfl
  · split <;> rfl

theorem fetchHere_cached {s : State} {pa key : Nat} {home : HomeKind} {pol : Pol} {e : TlbEntry} {b : CodeBlock}
    (hpc : s.here.pc.toNat < Config.opwBase)
    (hat : s.placeOf s.who (word (s.here.pc.toNat / 32 * 32)) 32 kindExec .thru = .at (.memory pa home key pol) (some e))
    (hb : (s.microFill s.focus (some e)).hereCore.code (blockOf pa home) e = some b) :
    fetchHere s = .got ((s.microFill s.focus (some e)).mapCore s.focus (·.keepCode b)) b.data := by
  have hlow : ¬Config.opwBase ≤ s.here.pc.toNat / 32 * 32 := by omega
  simp only [fetchHere, fetchAt, if_neg hlow, hat, hb, microFill_focus]

theorem fetchHere_opw {s : State} (h : Config.opwBase ≤ s.here.pc.toNat / 32 * 32) :
    fetchHere s = .stop (raise s ⟨causeProt, s.here.pc, kindExec, 1⟩) := by
  simp only [fetchHere, fetchAt, if_pos h]
  rfl

theorem fetchHere_fault {s : State} {cause : Nat} (h : s.here.pc.toNat / 32 * 32 < Config.opwBase)
    (hf : s.placeOf s.who (word (s.here.pc.toNat / 32 * 32)) 32 kindExec .thru = .fault cause) :
    fetchHere s = .stop (raise s ⟨cause, s.here.pc, kindExec, 1⟩) := by
  simp only [fetchHere, fetchAt, if_neg (Nat.not_le.mpr h), hf]
  rfl

/-! ### Issue -/

theorem here_issuing_redo (s : State) : s.issuing.here.redo = s.here.redo := by
  simp [State.issuing]

/-- A core that issues, with nothing before it, fetches at its pc and dispatches what it has fetched. -/
theorem issueHere_dispatches {run : Meaning} {u v : State} {block : List Byte} (ha : u.here.act.isSome = true)
    (hs : u.hereCore.stopped = false) (hc : u.coreStop u.focus = none) (hh : u.here.held = false)
    (hw : u.waitOver u.focus u.hereX = true) (hk : u.here.chunk.active = false) (hr : u.here.redo = [])
    (hf : fetchHere u.issuing = .got v block) : issueHere run u = dispatchHere run v block := by
  have hserial : u.takeSerial = some u := by simp [State.takeSerial, hk]
  have hredo : u.issuing.here.redo = [] := (here_issuing_redo u).trans hr
  have hact : u.here.act.isNone = false := by rw [← Option.not_isSome, ha]; rfl
  have hgo : (u.here.act.isNone || u.here.held || !u.waitOver u.focus u.hereX) = false := by
    rw [hact, hh, hw]
    rfl
  simp only [issueHere, hs, hc, hgo, hserial, hredo, hf, Bool.false_eq_true, if_false]

theorem step_issue {s : State} {c : CoreId} {later : List Turn} (h : s.agenda = .issue c :: later) :
    step s = settled (issueHere exec { s with agenda := later, focus := c }) := by
  simp only [step, stepOnce, h, takeTurn]

/-! ### The checks at dispatch (R53, R100) -/

section

variable {run : Meaning} {s : State} {block : List Byte}

/-- The bytes at the pc. -/
def bytesAtPc (s : State) (block : List Byte) : List Byte := block.drop (s.here.pc.toNat % 32)

/-- The length that LEN of the first word at the pc gives. -/
def lengthAtPc (s : State) (block : List Byte) : Nat := lengthOf (BitVec.ofNat 32 (leNat ((bytesAtPc s block).take 4)))

/-- The state in which the instruction at the pc is checked: a branch's slot is resolved by its length. -/
def slotResolved (s : State) (block : List Byte) : State := s.mapHere (·.resolveSlot (lengthAtPc s block))

/-- An instruction that would cross a 32-byte boundary raises FETCHX. -/
theorem dispatchHere_crosses (h : 32 < s.here.pc.toNat % 32 + lengthAtPc s block) :
    dispatchHere run s block =
      trap (slotResolved s block) causeFetchx (word ((slotResolved s block).here.pc.toNat / 32 * 32 + 32)) :=
  if_pos h

variable (h : s.here.pc.toNat % 32 + lengthAtPc s block ≤ 32) (hskip : (slotResolved s block).here.skip = false)
include h hskip

/-- Bytes that decode to no instruction raise ILLEGAL. -/
theorem dispatchHere_refused {why : Reject} (hdec : decode (wordsOf (bytesAtPc s block)) = .error why) :
    dispatchHere run s block = trap (slotResolved s block) causeIllegal (illegalValue (bytesAtPc s block)) := by
  simp only [slotResolved, lengthAtPc, bytesAtPc] at *
  simp only [dispatchHere, Nat.not_lt.mpr h, hskip, hdec, if_false, Bool.false_eq_true]

variable {i : Instr} {m : Nat} {p : SlotPend} (hdec : decode (wordsOf (bytesAtPc s block)) = .ok (i, m))
  (hslot : (slotResolved s block).here.slot = some p) (hforb : slotForbidden i = true)
include hdec hslot hforb

/-- What no delay slot admits raises ILLEGAL in one, if its own entry makes it so. -/
theorem dispatchHere_forbidden_illegal (hill : (slotResolved s block).illegalHere i = true) :
    dispatchHere run s block = trap (slotResolved s block) causeIllegal (illegalValue (bytesAtPc s block)) := by
  simp only [slotResolved, lengthAtPc, bytesAtPc] at *
  simp only [dispatchHere, Nat.not_lt.mpr h, hskip, hdec, hslot, hforb, hill, if_false, if_true, Bool.false_eq_true,
    Bool.not_true]

/-- Otherwise it raises SLOT. -/
theorem dispatchHere_forbidden (hill : (slotResolved s block).illegalHere i = false) :
    dispatchHere run s block =
      trap (slotResolved s block) causeSlot (p.branch.getD (slotResolved s block).here.tval) := by
  simp only [slotResolved, lengthAtPc, bytesAtPc] at *
  simp only [dispatchHere, Nat.not_lt.mpr h, hskip, hdec, hslot, hforb, hill, if_false, Bool.false_eq_true, Bool.not_true]

end

/-- Settles O5: the fetch and the dispatch of the issuing context, case by case of the translation and of the decoder. -/
theorem fetchFromCache : Obligations.FetchFromCache := by
  refine ⟨fun s pa key home pol e b hpc hat hb => fetchHere_cached hpc hat hb,
    fun s => ⟨fun h => fetchHere_opw h, fun cause h hf => fetchHere_fault h hf⟩, ?_, ?_⟩
  · intro s v c later block hag u ha hs hc hh hw hk hr hf bs n w first
    have hstep : step s = settled (dispatchHere exec v block) := by
      rw [step_issue hag, issueHere_dispatches ha hs hc hh hw hk hr hf]
    refine ⟨fun hcross => ?_, fun hfits hskip => ⟨fun why hdec => ?_, fun i m p hdec hslot hforb => ?_⟩⟩
    · rw [hstep, dispatchHere_crosses hcross]
      rfl
    · rw [hstep, dispatchHere_refused hfits hskip hdec]
      rfl
    · refine ⟨fun hill => ?_, fun hill => ?_⟩
      · rw [hstep, dispatchHere_forbidden_illegal hfits hskip hdec hslot hforb hill]
        rfl
      · rw [hstep, dispatchHere_forbidden hfits hskip hdec hslot hforb hill]
        exact ⟨fun b hb => by rw [hb]; rfl, fun hb => by rw [hb]; rfl⟩
  · intro x o cond ra rb rd qa n l lc ns at_
    refine ⟨?_, ?_, rfl, rfl, rfl, rfl, rfl, rfl⟩
    · simp only [List.forall_mem_cons, List.not_mem_nil, false_implies, implies_true, and_true]
      exact ⟨⟨rfl, rfl⟩, ⟨rfl, rfl⟩, ⟨rfl, rfl⟩, ⟨rfl, rfl⟩⟩
    · simp only [List.forall_mem_cons, List.not_mem_nil, false_implies, implies_true, and_true]
      exact ⟨⟨rfl, rfl⟩, ⟨rfl, rfl⟩, ⟨rfl, rfl⟩, ⟨rfl, rfl⟩⟩

end Sys2Proof.Proofs
end

section
/-! Bit fields, moves, and what has no effect (R34, R36, R87 to R90). -/

namespace Sys2Proof.Proofs

open Sys2Proof Sys2Proof.Machine Sys2Proof.Claims

/-! ### Bit fields as words (R41, R62, R87) -/

theorem sx64_toNat {w : Nat} (b : BitVec w) (hw : 1 ≤ w) : sx64 w b.toNat = b.signExtend 64 := by
  have hpow : 2 ^ w = 2 * 2 ^ (w - 1) := by
    rw [← pow_succ', Nat.sub_add_cancel hw]
  have hlt := b.isLt
  simp only [sx64, BitVec.signExtend, Nat.mod_eq_of_lt hlt, BitVec.toInt_eq_toNat_cond]
  by_cases hneg : 2 ^ (w - 1) ≤ b.toNat
  · rw [if_pos hneg, if_neg (by omega)]
  · rw [if_neg hneg, if_pos (by omega), BitVec.ofInt_natCast]

theorem zx64_toNat {w : Nat} (b : BitVec w) : zx64 w b.toNat = b.setWidth 64 := by
  rw [zx64, Nat.mod_eq_of_lt b.isLt, BitVec.ofNat_toNat]

theorem toNat_bitField (x : Word) (pos w : Nat) : x.toNat / 2 ^ pos % 2 ^ w = (x.extractLsb' pos w).toNat := by
  rw [BitVec.extractLsb'_toNat, Nat.shiftRight_eq_div_pow]

/-- The mask of a bit field. -/
theorem word_mask {pos w : Nat} (h : w ≤ 64) :
    word ((2 ^ w - 1) * 2 ^ pos) = (BitVec.allOnes w).setWidth 64 <<< pos := by
  apply BitVec.eq_of_toNat_eq
  have hw : 2 ^ w ≤ 2 ^ 64 := Nat.pow_le_pow_right (by decide) h
  have hpos : 0 < 2 ^ w := by positivity
  rw [word, BitVec.toNat_ofNat, BitVec.toNat_shiftLeft, BitVec.toNat_setWidth, BitVec.toNat_allOnes,
    Nat.mod_eq_of_lt (a := 2 ^ w - 1) (by omega), Nat.shiftLeft_eq]

/-! ### The rows -/

/-- A row that is an S-pipe operation completes as one. -/
theorem scalarDone_of_exec {i : Instr} {len : Nat} {d : Opnd} {ops : List Opnd} {imm : Word} {v : List Word → Word}
    {fl : List Word → BitVec 5} {s : State} (h : exec i s = scalarOp len d ops imm (fun vs => (v vs, fl vs)) s) :
    ScalarDone i len d ops imm v fl s := by
  intro vs x hd ht
  rw [h, scalarOp_done hd ht]

theorem ext_done {o : FmtA} {s : State} (hw : 1 ≤ bitsOf o.imm.word 14 8) :
    ScalarDone (.ext o) (FmtA.len o) o.d [o.a] 0
      (fun vs =>
        let f := (nth vs 0).extractLsb' (bitsOf o.imm.word 5 0) (bitsOf o.imm.word 14 8)
        if o.t.isSigned then f.signExtend 64 else f.setWidth 64) (fun _ => 0) s := by
  apply scalarDone_of_exec
  show execExt o s = _
  simp only [execExt, bitField, toNat_bitField, sx64_toNat _ hw, zx64_toNat]

theorem ins_done {o : FmtA} {n : Fin 32} {s : State} (hw : bitsOf o.imm.word 14 8 ≤ 64) (hd : o.d = .r n) :
    ScalarDone (.ins o) (FmtA.len o) o.d [o.a] 0
      (fun vs =>
        let m : Word := (BitVec.allOnes (bitsOf o.imm.word 14 8)).setWidth 64 <<< bitsOf o.imm.word 5 0
        (s.here.reg n &&& ~~~m) ||| ((nth vs 0 <<< bitsOf o.imm.word 5 0) &&& m)) (fun _ => 0) s := by
  apply scalarDone_of_exec
  show execIns o s = _
  simp only [execIns, bitField, word_mask hw, hd]

theorem sel_done (o : FmtA) (s : State) :
    ScalarDone (.sel o) (FmtA.len o) o.d [o.a, o.b, o.c] o.imm.word
      (fun vs => if nth vs 2 ≠ 0 then nth vs 0 else nth vs 1) (fun _ => 0) s :=
  scalarDone_of_exec rfl

theorem movi_done (d : Opnd) (imm : Imm) (s : State) :
    ScalarDone (.movi d imm) (lenImm imm) d [] 0 (fun _ => imm.word) (fun _ => 0) s :=
  scalarDone_of_exec rfl

theorem lea_done (d : Opnd) (off : BitVec 32) (s : State) :
    ScalarDone (.lea d off) 12 d [] 0 (fun _ => s.here.pc + off.signExtend 64) (fun _ => 0) s :=
  scalarDone_of_exec rfl

/-! ### What is refused (R34, R36) -/

/-- A first word with [1:0] = 11 that is no fill word is refused. -/
theorem decode_otherFill {a : BitVec 32} (rest : List (BitVec 32)) (h : a.toNat % 4 = 3) (hne : a ≠ 0xFFFFFFFF) :
    decode (a :: rest) = .error .fillWord := by
  simp only [decode, h, if_true, if_neg hne]

/-- OP 0 is NOP with the zero doubleword and no immediate, and is refused otherwise. -/
theorem decode_otherNop {a b : BitVec 32} (rest : List (BitVec 32)) (hl : a.toNat % 4 ≠ 3) (hop : a.toNat / 4 % 256 = 0)
    (hne : ¬(a = 0 ∧ b = 0)) : ∃ why, decode (a :: b :: rest) = .error why := by
  have hopw : (a.toNat + 2 ^ 32 * b.toNat) / 4 % 256 = 0 := by omega
  have hzero : a.toNat + 2 ^ 32 * b.toNat = 0 → False := by
    intro h
    exact hne ⟨BitVec.eq_of_toNat_eq (by simp; omega), BitVec.eq_of_toNat_eq (by simp; omega)⟩
  have hno (imm : Imm) : decodeDword (a.toNat + 2 ^ 32 * b.toNat) imm = .error .nopWord := by
    rw [decodeDword_op_zero hopw, if_neg (fun h => hzero h.1)]
  have hlen : a.toNat % 4 = 0 ∨ a.toNat % 4 = 1 ∨ a.toNat % 4 = 2 := by omega
  obtain h0 | h1 | h2 := hlen
  · exact ⟨.nopWord, by rw [decode_short h0, hno]; rfl⟩
  · cases rest with
    | nil => exact ⟨.truncated, by simp [decode, h1]⟩
    | cons c rest => exact ⟨.nopWord, by rw [decode_w32 h1, hno]; rfl⟩
  · match rest with
    | [] | [_] => exact ⟨.truncated, by simp [decode, h2]⟩
    | c :: d :: rest => exact ⟨.nopWord, by rw [decode_w64 h2, hno]; rfl⟩

/-- Settles O8: each row is one S-pipe operation, whose fields as numbers are the fields as words; the refusals are the
decoder's, and the dispatch raises ILLEGAL on each. -/
theorem movesAndNoEffect : Obligations.MovesAndNoEffect := by
  refine ⟨fun o n d imm off s => ⟨fun h1 h64 => ⟨ext_done h1, ins_done (by omega)⟩, sel_done o s, movi_done d imm s,
      lea_done d off s⟩,
    fun s => ⟨rfl, rfl⟩, rfl, rfl,
    fun a b rest => ⟨rfl, fun h hne => ⟨_, decode_otherFill rest h hne⟩, rfl, decode_otherNop rest⟩, ?_⟩
  intro s block why bs n w hfits hskip hdec
  exact dispatchHere_refused hfits hskip hdec

end Sys2Proof.Proofs
end

section
/-! What an engine answers (R325): the reply to a command of an endpoint of this device is on its way to that endpoint's core. -/

namespace Sys2Proof.Proofs

open Sys2Proof Sys2Proof.Machine Sys2Proof.Claims

/-! ### Endpoints -/

/-- A field that a mask keeps whole. -/
theorem bitsOf_and_of_field {w m : Word} {hi lo : Nat} (h : m.extractLsb' lo (hi - lo + 1) = BitVec.allOnes _) :
    bitsOf (w &&& m) hi lo = bitsOf w hi lo := by
  simp only [bitsOf, toNat_bitField, BitVec.extractLsb'_and, h, BitVec.and_allOnes]

/-- The mask with which replies take an endpoint keeps its device. -/
theorem endpoint_device (ep : Word) : bitsOf (ep &&& 0xFFFFFFFE0000) 47 36 = bitsOf ep 47 36 :=
  bitsOf_and_of_field (by decide)

/-- The mask with which replies take an endpoint keeps its core. -/
theorem endpoint_core (ep : Word) : bitsOf (ep &&& 0xFFFFFFFE0000) 35 25 = bitsOf ep 35 25 :=
  bitsOf_and_of_field (by decide)

/-- An endpoint of this device names somebody. -/
theorem endpoint_ne_zero {ep : Word} (h : bitsOf ep 47 36 = 0xFFF) : ep &&& 0xFFFFFFFFFFFF ≠ 0 := by
  intro hz
  have hd : bitsOf (ep &&& 0xFFFFFFFFFFFF) 47 36 = bitsOf ep 47 36 := bitsOf_and_of_field (by decide)
  rw [hz, h] at hd
  exact absurd hd (by decide)

/-! ### Messages posted -/

/-- A message to this device is on its way to the core it names. -/
theorem post_here {s : State} {src : Nat} {m : Msg} (h : bitsOf m.dst 47 36 = 0xFFF) :
    s.post src m = s.send src (agentCore (coreOf (bitsOf m.dst 35 25))) .messageArrival (.msg m) := by
  simp [State.post, h]

theorem replied_post {s : State} {src : Nat} {m : Msg} {ep : Word} {tag : Nat} (hdev : bitsOf m.dst 47 36 = 0xFFF)
    (hcore : bitsOf m.dst 35 25 = bitsOf ep 35 25) (htag : m.tag = BitVec.ofNat 8 tag) :
    Replied (s.post src m) ep tag m.payload := by
  rw [post_here hdev]
  exact ⟨⟨src, agentCore (coreOf (bitsOf m.dst 35 25)), ⟨.messageArrival, .msg m⟩⟩, by simp [State.send], m, rfl, by rw [hcore],
    htag, rfl⟩

/-- The reply of an engine (R325). -/
theorem engineReplied_engineReply (s : State) (core : CoreId) {port value : Nat} (cls unit opc asker slot : Nat) (cmd1 : Word)
    (domain : BitVec 16) (status : Nat) (detail : Word) (hv : value < 2 ^ 32) :
    EngineReplied (s.engineReply core port cls unit opc asker slot cmd1 domain status value detail) cmd1 port status value
      detail := by
  intro hdev
  have hq := (coresKept_engineReply s core port cls unit opc asker slot cmd1 domain status value detail).2.1
  rw [hq, State.engineReply, if_neg (endpoint_ne_zero hdev), Nat.mod_eq_of_lt hv]
  exact replied_post ((endpoint_device cmd1).trans hdev) (endpoint_core cmd1) rfl

/-- What is on its way stays so when a core changes. -/
theorem engineReplied_mapCore {s : State} {cmd1 : Word} {port st value : Nat} {detail : Word} (c : CoreId) (f : Core → Core)
    (h : EngineReplied s cmd1 port st value detail) : EngineReplied (s.mapCore c f) cmd1 port st value detail := h

end Sys2Proof.Proofs
end

section
/-! The matrix unit (R81, R307 to R312, R328): its start, its K steps, its drains and its end. -/

namespace Sys2Proof.Proofs

open Sys2Proof Sys2Proof.Machine Sys2Proof.Claims

/-! ### The unit of one core -/

@[simp] theorem core_mapMatrix_self (s : State) (c : CoreId) (f : Machine.Matrix → Machine.Matrix) :
    (s.mapMatrix c f).core c = { s.core c with matrix := f (s.core c).matrix } := by
  rw [State.mapMatrix, State.core_mapCore_self]

theorem core_mapMatrix_ne (s : State) {c d : CoreId} (f : Machine.Matrix → Machine.Matrix) (h : d ≠ c) :
    (s.mapMatrix c f).core d = s.core d :=
  State.core_mapCore_ne _ _ h

@[simp] theorem pending_mapMatrix (s : State) (c : CoreId) (f : Machine.Matrix → Machine.Matrix) :
    (s.mapMatrix c f).pending = s.pending := rfl

/-! ### Replies (R312) -/

section
variable (s : State) (c : CoreId) (cmd : Command) (status steps rows : Nat)

theorem matrix_releaseClaims : ((s.releaseClaims c).core c).matrix = (s.core c).matrix := by
  obtain h | ⟨o, cl, h⟩ := releaseClaims_eq s c
  · rw [h]
  · rw [h, State.core_mapCore_self]

theorem core_releaseClaims_ne {d : CoreId} (h : d ≠ c) : (s.releaseClaims c).core d = s.core d := by
  obtain hr | ⟨o, cl, hr⟩ := releaseClaims_eq s c
  · rw [hr]
  · rw [hr, State.core_mapCore_ne _ _ h]

/-- The reply of a command leaves the unit as it is. -/
theorem matrix_matrixReply : ((s.matrixReply c cmd status steps rows).core c).matrix = (s.core c).matrix := by
  rw [State.matrixReply, matrix_releaseClaims, (coresKept_engineReply ..).core]

theorem core_matrixReply_ne {d : CoreId} (h : d ≠ c) : (s.matrixReply c cmd status steps rows).core d = s.core d := by
  rw [State.matrixReply, core_releaseClaims_ne _ _ h, (coresKept_engineReply ..).core]

theorem engineReplied_matrixReply :
    EngineReplied (s.matrixReply c cmd status steps rows) (cmd.dword 1) 16 status 0 (word (steps + rows * 256)) := by
  have hreply := engineReplied_engineReply s c (port := 16) 2 c.val cmd.opc cmd.core.val cmd.slot.val (cmd.dword 1) cmd.domain
    status (word (steps + rows * 256)) (value := 0) (by decide)
  rw [State.matrixReply]
  obtain h | ⟨o, cl, h⟩ := releaseClaims_eq (s.engineReply c 16 2 c.val cmd.opc cmd.core.val cmd.slot.val (cmd.dword 1)
    cmd.domain status 0 (word (steps + rows * 256))) c
  · rw [h]; exact hreply
  · rw [h]; exact engineReplied_mapCore c _ hreply

end

/-! ### The start of the head (R310) -/

/-- A command whose barrier wait has ended moves no further. -/
theorem advance_satisfied (s : State) (q : Eng) {cmd : Command} {n : Nat} (w : BarWaiter) (tw : TokenWaiter)
    (h : cmd.wait = .satisfied n) : s.advance q cmd w tw = (s, cmd) := by
  simp only [State.advance, h]

theorem advanceMatrix_satisfied {s : State} {c : CoreId} (h : ∀ d ∈ (s.core c).matrix.queue, ∃ n, d.wait = .satisfied n) :
    s.advanceMatrix c = s := by
  have hfold (l front : List Command) (hl : ∀ d ∈ l, ∃ n, d.wait = .satisfied n) :
      l.foldl (fun (a : State × List Command) cmd =>
        let (s, cmd) := a.1.advance (cmd.matrixEng c) cmd (.matrix c cmd.id) (.matrix c cmd.id)
        (s, a.2 ++ [cmd])) (s, front) = (s, front ++ l) := by
    induction l generalizing front with
    | nil => simp
    | cons d r ih =>
      obtain ⟨n, hn⟩ := hl d (by simp)
      rw [List.foldl_cons]
      simp only [advance_satisfied s _ _ _ hn]
      rw [ih _ (fun e he => hl e (by simp [he]))]
      simp
  simp only [State.advanceMatrix, hfold _ [] h, List.nil_append, if_true]

theorem slotsClaimed_iff {s : State} {c : CoreId} {cmd : Command} : s.slotsClaimed c cmd = true ↔
    ∀ n ∈ cmd.slots, ∃ k, tabGet (s.core c).claims n = some k ∧ k.domain = cmd.domain := by
  simp [State.slotsClaimed, Option.any_eq_true]

/-- The head of a unit that is free starts. -/
theorem matrixCommandStart_starts {s : State} {c : CoreId} {b : Nat} {cmd : Command} {rest : List Command}
    (ha : About s c.val b) (hq : (s.core c).matrix.queue = cmd :: rest)
    (hsat : ∀ d ∈ (s.core c).matrix.queue, ∃ n, d.wait = .satisfied n) (hr : (s.core c).matrix.running = none)
    (hm : s.markersBack cmd.fence cmd.markers = true) (hd : ∀ d ∈ (s.core c).matrix.drains, d.acc ≠ cmd.acc) :
    exec .matrixCommandStart s = .next (s.startMatrix c cmd rest) := by
  obtain ⟨k, ha⟩ := ha
  obtain ⟨n, hn⟩ := hsat cmd (by simp [hq])
  have hexec : exec .matrixCommandStart s = execMatrixCommandStart s := rfl
  have hready : s.commandReady cmd = true := by simp only [State.commandReady, hn, hm]
  have hfree : (s.core c).matrix.drains.any (·.acc == cmd.acc) = false := by simpa using hd
  rw [hexec, execMatrixCommandStart, withCore_eq ha, advanceMatrix_satisfied hsat]
  simp only [hq, hr, hready, hfree, stepIf, Bool.not_false, Bool.and_self, if_true]

/-- The head as the unit runs it. -/
def startedUnit (x : Machine.Matrix) (cmd : Command) (rest : List Command) : Machine.Matrix :=
  { x with queue := rest, running := some { cmd, step := 0 }, accs := x.accs.set cmd.acc (x.accs[cmd.acc].start cmd) }

section
variable {s : State} {c : CoreId} {cmd : Command} {rest : List Command}

theorem startMatrix_disowned (h : ¬ (cmd.needsOwner = true → (s.core c).matrix.accs[cmd.acc].owner = cmd.domain)) :
    s.startMatrix c cmd rest = (s.mapMatrix c (fun x => { x with queue := rest })).matrixReply c cmd 19 0 0 := by
  obtain ⟨hn, ho⟩ := Classical.not_imp.mp h
  rw [State.startMatrix, if_pos (by simp [hn]; exact ho)]

theorem startMatrix_unclaimed (h : cmd.needsOwner = true → (s.core c).matrix.accs[cmd.acc].owner = cmd.domain)
    (hc : s.slotsClaimed c cmd = false) :
    s.startMatrix c cmd rest = (s.mapMatrix c (fun x => { x with queue := rest })).matrixReply c cmd 3 0 0 := by
  have hc' : (s.mapMatrix c (fun x => { x with queue := rest })).slotsClaimed c cmd = false := by
    simpa only [State.slotsClaimed, core_mapMatrix_self] using hc
  rw [State.startMatrix, if_neg (by simpa using h), if_pos (by simp [hc'])]

theorem startMatrix_claimed (h : cmd.needsOwner = true → (s.core c).matrix.accs[cmd.acc].owner = cmd.domain)
    (hc : s.slotsClaimed c cmd = true) :
    s.startMatrix c cmd rest = s.mapMatrix c (fun x => startedUnit x cmd rest) := by
  have hc' : (s.mapMatrix c (fun x => { x with queue := rest })).slotsClaimed c cmd = true := by
    simpa only [State.slotsClaimed, core_mapMatrix_self] using hc
  rw [State.startMatrix, if_neg (by simpa using h), if_neg (by simp [hc'])]
  exact State.mapCore_mapCore s c _ _

end

/-- An accumulator as its command's opcode leaves it (R308). -/
theorem start_of_opc (a : Accum) (cmd : Command) :
    (cmd.opc = 3 → a.start cmd = a) ∧
    (cmd.opc = 1 → (a.start cmd).nsteps = cmd.steps) ∧
    (cmd.opc = 2 ∨ (cmd.opc = 1 ∧ cmd.adds = false) →
      (a.start cmd).owner = cmd.domain ∧ (a.start cmd).data = [] ∧ (a.start cmd).steps = 0) ∧
    (cmd.opc = 1 ∧ cmd.adds = true →
      (a.start cmd).owner = a.owner ∧ (a.start cmd).data = a.data ∧ (a.start cmd).steps = 0) := by
  have hadrain (h : cmd.opc ≠ 3) : cmd.isAdrain = false := by simp [Command.isAdrain, h]
  refine ⟨fun h => by simp [Accum.start, Command.isAdrain, h], fun h => ?_, fun h => ?_, fun ⟨h, hadd⟩ => ?_⟩
  · simp only [Accum.start, hadrain (by omega), Bool.false_eq_true, if_false]
    split <;> rfl
  · have htakes : cmd.takes = true := by
      obtain h | ⟨h, hadd⟩ := h
      · simp [Command.takes, h]
      · simp [Command.takes, Command.isMma, h, hadd]
    simp [Accum.start, hadrain (by omega), htakes]
  · have htakes : cmd.takes = false := by simp [Command.takes, Command.isMma, h, hadd]
    simp [Accum.start, hadrain (by omega), htakes]

/-! ### A K step (R81, R307) -/

theorem exec_kStep {s : State} {c : CoreId} {b : Nat} {r : Running} (ha : About s c.val b)
    (hr : (s.core c).matrix.running = some r) (hopc : r.cmd.opc = 1) (hstep : r.step < r.cmd.steps) :
    exec .kStep s = .next (s.mapMatrix c (fun x => { x with
      running := some { r with step := r.step + 1 },
      accs := x.accs.set r.cmd.acc ((s.core c).kStep r.cmd r.step x.accs[r.cmd.acc]) })) := by
  obtain ⟨k, ha⟩ := ha
  have hexec : exec .kStep s = execKStep s := rfl
  rw [hexec, execKStep, withCore_eq ha]
  simp [hr, Command.isMma, hopc, stepIf, hstep]

/-- A table that lists what is not 0 of a range, in order. -/
theorem tabGet_filterMap_range (n : Nat) (f : Nat → BitVec 32) {e : Nat} (he : e < n) :
    (tabGet ((List.range n).filterMap (fun e => if f e = 0 then none else some (e, f e))) e).getD 0 = f e := by
  have hlist (l : List Nat) : (tabGet (l.filterMap (fun e => if f e = 0 then none else some (e, f e))) e).getD 0 =
      if e ∈ l then f e else 0 := by
    induction l with
    | nil => rfl
    | cons a r ih =>
      by_cases hz : f a = 0
      · rw [List.filterMap_cons, if_pos hz, ih]
        by_cases hea : e = a
        · subst hea; simp [hz]
        · simp [hea]
      · rw [List.filterMap_cons, if_neg hz]
        by_cases hea : e = a
        · subst hea; simp [tabGet]
        · simp only [tabGet, hea, if_false, ih, List.mem_cons, false_or]
  rw [hlist, if_pos (List.mem_range.mpr he)]

theorem owner_kStep (k : Core) (cmd : Command) (n : Nat) (a : Accum) : (k.kStep cmd n a).owner = a.owner := by rw [Core.kStep]

theorem steps_kStep (k : Core) (cmd : Command) (n : Nat) (a : Accum) : (k.kStep cmd n a).steps = n + 1 := by rw [Core.kStep]

/-- An element of an accumulator after a step. -/
theorem kStep_element (k : Core) (cmd : Command) (n : Nat) (a : Accum) {i j : Nat} (hi : i < 64) (hj : j < 64) :
    (tabGet (k.kStep cmd n a).data (64 * i + j)).getD 0 =
      stepOutput k cmd.fmt (cmd.slotA n) (cmd.slotB n) i j ((tabGet a.data (64 * i + j)).getD 0) := by
  have hdiv : (64 * i + j) / 64 = i := by omega
  have hmod : (64 * i + j) % 64 = j := by omega
  have hget := tabGet_filterMap_range 4096 (fun e => stepOutput k cmd.fmt (cmd.slotA n) (cmd.slotB n) (e / 64) (e % 64)
    ((tabGet a.data e).getD 0)) (e := 64 * i + j) (by omega)
  simp only [hdiv, hmod] at hget
  rw [← hget, Core.kStep]

theorem intOf_i8 (b : Byte) : intOf .i8 b.toNat = b.toInt := by
  have h := b.isLt
  simp only [intOf, Ty.width, Ty.isSigned, BitVec.toInt_eq_toNat_cond, Nat.mod_eq_of_lt h]
  by_cases hb : 2 ^ 7 ≤ b.toNat
  · rw [if_pos (by simpa using hb), if_neg (by omega)]
  · rw [if_neg (by simpa using hb), if_pos (by omega)]

theorem leNat_bytes_one (m : Memory) (a : Nat) : leNat (m.bytes a 1) = (m.get a).toNat := by
  simp [Memory.bytes, leNat]

/-- The product of one K index of an int8 step. -/
def int8Product (k : Core) (sa sb i j x : Nat) : Int :=
  (k.opnd.get (4096 * sa + 64 * i + x)).toInt * (k.opnd.get (4096 * sb + 64 * x + j)).toInt

theorem foldl_add_ofInt (f : Nat → Int) (l : List Nat) (acc : BitVec 32) :
    l.foldl (fun a x => a + BitVec.ofInt 32 (f x)) acc = acc + BitVec.ofInt 32 (l.map f).sum := by
  induction l generalizing acc with
  | nil => simp
  | cons x r ih => rw [List.foldl_cons, ih, List.map_cons, List.sum_cons, BitVec.ofInt_add, BitVec.add_assoc]

/-- The groups of an int8 step are its K indices in order. -/
theorem range_groups : (List.range 16).flatMap (fun n => (List.range 4).map (fun x => n * 4 + x)) = List.range 64 := by decide

/-- An int8 step adds the sum of the products (R81). -/
theorem stepOutput_int8 (k : Core) (sa sb i j : Nat) (acc : BitVec 32) :
    stepOutput k 1 sa sb i j acc = acc + BitVec.ofInt 32 ((List.range 64).map (int8Product k sa sb i j)).sum := by
  rw [← foldl_add_ofInt, ← range_groups, List.foldl_flatMap]
  simp only [stepOutput, stepK, groupK, Core.elemA, Core.elemB, int8Product, leNat_bytes_one, intOf_i8,
    le_refl, if_true, Nat.reduceDiv, List.foldl_map]

/-! ### Drains (R311) -/

/-- The drain that is found has the accumulator it is found by. -/
theorem drain_acc {l : List Drain} {a : Fin 4} {d : Drain} (h : l.find? (·.acc == a) = some d) : d.acc = a := by
  simpa using List.find?_some h

theorem drainNotification_posts {s : State} {c : CoreId} {b : Nat} {d : Drain} (ha : About s c.val b)
    (hd : (s.core c).matrix.drains.find? (·.acc == Fin.ofNat 4 b) = some d) (ho : d.out = false) (hl : d.lost = false)
    (hrow : d.row < 64) :
    exec .drainNotification s = .next ((s.mapMatrix c (·.mapDrains (fun e => if e.acc = d.acc then { e with out := true } else e))).post
      (agentEngine 2 c.val) (d.message c)) := by
  obtain ⟨k, ha⟩ := ha
  have hexec : exec .drainNotification s = execDrainNotification s := rfl
  rw [hexec, execDrainNotification, withNums_eq ha, coreOf_val]
  simp only [hd]
  simp [ho, hl, hrow, stepIf, drain_acc hd]

/-! ### The end of a command (R312) -/

section
variable {s : State} {c : CoreId} {b : Nat} (ha : About s c.val b)
include ha

/-- A drain delivered or lost ends its command. -/
theorem matrixCommandEnd_drain {d : Drain} (hd : (s.core c).matrix.drains.find? (fun d => d.lost || 64 ≤ d.row) = some d) :
    exec .matrixCommandEnd s = .next ((s.mapMatrix c (fun x => { x with drains := x.drains.filter (·.acc != d.acc) })).matrixReply
      c d.cmd (if d.lost then 23 else 0) d.steps d.row) := by
  obtain ⟨k, ha⟩ := ha
  have hexec : exec .matrixCommandEnd s = execMatrixCommandEnd s := rfl
  rw [hexec, execMatrixCommandEnd, withCore_eq ha]
  simp only [hd]

variable (hd : ∀ d ∈ (s.core c).matrix.drains, d.lost = false ∧ d.row < 64)
include hd

theorem matrixCommandEnd_running {r : Running} (hr : (s.core c).matrix.running = some r) (hs : r.cmd.opc = 1 → r.cmd.steps ≤ r.step) :
    exec .matrixCommandEnd s = .next (s.computed c r) := by
  obtain ⟨k, ha⟩ := ha
  have hexec : exec .matrixCommandEnd s = execMatrixCommandEnd s := rfl
  have hnone : (s.core c).matrix.drains.find? (fun d => d.lost || 64 ≤ d.row) = none := by simpa using hd
  have hsteps : (if r.cmd.isMma then r.cmd.steps else 0) ≤ r.step := by
    split
    · next h => exact hs (by simpa [Command.isMma] using h)
    · exact Nat.zero_le _
  rw [hexec, execMatrixCommandEnd, withCore_eq ha]
  simp only [hnone, hr, stepIf, hsteps, decide_true, if_true]

theorem matrixCommandEnd_cancelled {cmd : Command} {rest : List Command} {st : Nat} (hr : (s.core c).matrix.running = none)
    (hq : (s.core c).matrix.queue = cmd :: rest) (hc : cmd.cancelled = some st) :
    exec .matrixCommandEnd s = .next ((s.mapMatrix c (fun x => { x with queue := rest })).matrixReply c cmd st 0 0) := by
  obtain ⟨k, ha⟩ := ha
  have hexec : exec .matrixCommandEnd s = execMatrixCommandEnd s := rfl
  have hnone : (s.core c).matrix.drains.find? (fun d => d.lost || 64 ≤ d.row) = none := by simpa using hd
  rw [hexec, execMatrixCommandEnd, withCore_eq ha]
  simp only [hnone, hr, hq, hc]

end

/-! ### The statement -/

/-- A unit whose head has left, and whose core alone has changed, with the reply of the head. -/
theorem head_ended (s : State) (c : CoreId) (cmd : Command) (rest : List Command) (st : Nat) :
    let t := (s.mapMatrix c (fun x => { x with queue := rest })).matrixReply c cmd st 0 0
    EngineReplied t (cmd.dword 1) 16 st 0 0 ∧ (t.core c).matrix = { (s.core c).matrix with queue := rest } ∧
      ∀ c', c' ≠ c → t.core c' = s.core c' := by
  refine ⟨engineReplied_matrixReply _ c cmd st 0 0, ?_, fun c' h => ?_⟩
  · rw [matrix_matrixReply, core_mapMatrix_self]
  · rw [core_matrixReply_ne _ _ _ _ _ _ h, core_mapMatrix_ne _ _ h]

/-- The unit after its running command has computed: it drains (R311), or it has replied (R312). -/
theorem computed_ends (s : State) (c : CoreId) (r : Running) :
    (∀ c', c' ≠ c → (s.computed c r).core c' = s.core c') ∧ ((s.computed c r).core c).matrix.running = none ∧
    ((s.computed c r).core c).matrix.accs = (s.core c).matrix.accs ∧
    (r.cmd.drainEp = 0 → EngineReplied (s.computed c r) (r.cmd.dword 1) 16 0 0 (word r.step) ∧
      ((s.computed c r).core c).matrix.drains = (s.core c).matrix.drains) ∧
    (r.cmd.drainEp ≠ 0 → (s.computed c r).pending = s.pending ∧
      ((s.computed c r).core c).matrix.drains = (s.core c).matrix.drains ++ [⟨r.cmd, r.cmd.acc, 0, false, false, r.step⟩]) := by
  by_cases hep : r.cmd.drainEp = 0
  · simp only [State.computed, if_pos hep, matrix_matrixReply, core_mapMatrix_self]
    refine ⟨fun c' h => ?_, trivial, trivial, fun _ => ⟨?_, trivial⟩, absurd hep⟩
    · rw [core_matrixReply_ne _ _ _ _ _ _ h, core_mapMatrix_ne _ _ h]
    · simpa using engineReplied_matrixReply (s.mapMatrix c (fun x => { x with running := none })) c r.cmd 0 r.step 0
  · simp only [State.computed, if_neg hep, core_mapMatrix_self, pending_mapMatrix]
    refine ⟨fun c' h => ?_, trivial, trivial, fun h => absurd h hep, fun _ => ⟨trivial, trivial⟩⟩
    rw [core_mapMatrix_ne _ _ h, core_mapMatrix_ne _ _ h]

/-- The elements of an accumulator after a step, in either arithmetic (R81). -/
theorem kStep_elements (k : Core) (cmd : Command) (n : Nat) (a : Accum) {i j : Nat} (hi : i < 64) (hj : j < 64) :
    let old := (tabGet a.data (64 * i + j)).getD 0
    let new := (tabGet (k.kStep cmd n a).data (64 * i + j)).getD 0
    (cmd.fmt = 1 → new = old + BitVec.ofInt 32 ((List.range 64).map (int8Product k (cmd.slotA n) (cmd.slotB n) i j)).sum) ∧
    (cmd.fmt ≠ 1 → new = stepOutput k cmd.fmt (cmd.slotA n) (cmd.slotB n) i j old) := by
  refine ⟨fun h => ?_, fun _ => kStep_element k cmd n a hi hj⟩
  rw [kStep_element k cmd n a hi hj, h, stepOutput_int8]

/-- The notification of a row is on its way to the drain's mailbox (R311). -/
theorem drain_notified (s : State) (c : CoreId) {d : Drain} (h : bitsOf d.cmd.drainEp 47 36 = 0xFFF) :
    Replied (s.post (agentEngine 2 c.val) (d.message c)) d.cmd.drainEp 0 [word d.row, word d.cmd.dtag] :=
  replied_post h rfl rfl

/-- Settles O51: each step is its core's unit changed as the row says, with the reply or the notification it sends. -/
theorem matrixUnit : Obligations.MatrixUnit := by
  intro s c ⟨b, ha⟩ x changed
  refine ⟨fun cmd rest hq hsat hr hm hd => ?_, fun r hr hopc hstep => ?_, fun b d hb hd ho hl hrow => ?_, fun d hd => ?_,
    fun hd => ⟨fun r hr hs => ⟨_, matrixCommandEnd_running ha hd hr hs, computed_ends s c r⟩,
      fun cmd rest hr hq w st hw hcw => ?_⟩⟩
  · have hstart := matrixCommandStart_starts ha hq hsat hr hm hd
    refine ⟨fun hown => ⟨_, hstart, ?_⟩, fun hown hcl => ⟨_, hstart, ?_⟩, fun hown hcl => ⟨_, hstart, ?_⟩⟩
    · rw [startMatrix_disowned hown]
      exact head_ended s c cmd rest 19
    · rw [startMatrix_unclaimed hown (Bool.eq_false_iff.mpr fun h => hcl (slotsClaimed_iff.mp h))]
      exact head_ended s c cmd rest 3
    · rw [startMatrix_claimed hown (slotsClaimed_iff.mpr hcl)]
      refine ⟨fun c' h => core_mapMatrix_ne s _ h, rfl, ?_⟩
      simp only [core_mapMatrix_self, startedUnit, Fin.getElem_fin, Vector.getElem_set_self]
      exact ⟨trivial, trivial, fun a h => Vector.getElem_set_ne _ _ (fun e => h (Fin.ext e.symm)),
        start_of_opc _ cmd⟩
  · refine ⟨_, exec_kStep ha hr hopc hstep, fun c' h => core_mapMatrix_ne s _ h, rfl, ?_⟩
    simp only [core_mapMatrix_self, Fin.getElem_fin, Vector.getElem_set_self]
    exact ⟨trivial, fun a h => Vector.getElem_set_ne _ _ (fun e => h (Fin.ext e.symm)), owner_kStep .., steps_kStep ..,
      fun i j hi hj => kStep_elements _ r.cmd r.step _ hi hj⟩
  · have hposted (m : Msg) (f : Machine.Matrix → Machine.Matrix) := coresKept_post (s.mapMatrix c f) (agentEngine 2 c.val) m
    refine ⟨_, drainNotification_posts hb hd ho hl hrow, fun c' h => ?_, drain_notified _ c, ?_⟩
    · rw [(hposted _ _).core, core_mapMatrix_ne _ _ h]
    · rw [(hposted _ _).core, core_mapMatrix_self, Matrix.mapDrains]
  · refine ⟨_, matrixCommandEnd_drain ha hd, fun c' h => ?_, engineReplied_matrixReply _ c d.cmd _ d.steps d.row, ?_⟩
    · rw [core_matrixReply_ne _ _ _ _ _ _ h, core_mapMatrix_ne _ _ h]
    · rw [matrix_matrixReply, core_mapMatrix_self]
  · have hcancel : cmd.cancelled = some st := by
      simp only [List.mem_cons, Prod.mk.injEq, List.not_mem_nil, or_false] at hw
      obtain ⟨rfl, rfl⟩ | ⟨rfl, rfl⟩ | ⟨rfl, rfl⟩ := hw <;> simp only [Command.cancelled, hcw]
    obtain ⟨hreply, hunit, -⟩ := head_ended s c cmd rest st
    exact ⟨_, matrixCommandEnd_cancelled ha hd hr hq hcancel, hreply, hunit⟩

end Sys2Proof.Proofs
end

section
/-! Rounding to a binary format (R67, R68): the code chosen is the nearest, with ties to even, of the exact value and of a
real that a number with a sticky last bit stands for. -/

namespace Sys2Proof.Proofs

open Sys2Proof Sys2Proof.Machine Sys2Proof.Claims

/-! ### The nearest integer, ties to even -/

/-- A natural number is the nearest integer to a real, and even where another is as near. -/
def NearestEven (r : Nat) (x : ℝ) : Prop := |(r : ℝ) - x| ≤ 1 / 2 ∧ (|(r : ℝ) - x| = 1 / 2 → r % 2 = 0)

theorem NearestEven.le_int {r : Nat} {x : ℝ} (h : NearestEven r x) (k : ℤ) :
    |(r : ℝ) - x| ≤ |(k : ℝ) - x| ∧ (|(r : ℝ) - x| = |(k : ℝ) - x| → k ≠ r → r % 2 = 0) := by
  obtain ⟨hle, htie⟩ := h
  by_cases hk : k = r
  · subst hk; simp
  · have hone : (1 : ℝ) ≤ |(k : ℝ) - r| := by
      have : (1 : ℤ) ≤ |k - r| := Int.one_le_abs (sub_ne_zero.mpr hk)
      exact_mod_cast this
    have htri : |(k : ℝ) - r| ≤ |(k : ℝ) - x| + |(r : ℝ) - x| := by
      rw [abs_sub_comm (r : ℝ) x]; exact abs_sub_le _ _ _
    exact ⟨by linarith, fun heq _ => htie (by linarith)⟩

theorem NearestEven.of_abs_lt {r : Nat} {x : ℝ} (h : |(r : ℝ) - x| < 1 / 2) : NearestEven r x :=
  ⟨h.le, fun h' => absurd h' h.ne⟩

theorem nearestEven_self (r : Nat) : NearestEven r r := .of_abs_lt (by simp)

/-- A real that an integer stands for, between the multiples of h next to it: the integer itself, or with a last bit 1 that
says that the rest is not zero. -/
def StandsInt (m h : Nat) (x : ℝ) : Prop := x = m ∨ (m % 2 = 1 ∧ h % 2 = 0 ∧ (m : ℝ) - 1 < x ∧ x < m + 1)

/-- Division by 2h as roundUnits does it. -/
def divideEven (m h : Nat) : Nat :=
  if h < m % (2 * h) || (m % (2 * h) == h && m / (2 * h) % 2 == 1) then m / (2 * h) + 1 else m / (2 * h)

/-- What stands for a real lies in the same half of the interval of length 2h as the real. -/
theorem StandsInt.half {m h : Nat} {x : ℝ} (hx : StandsInt m h x) :
    (m % (2 * h) < h ∧ m % (2 * h) ≠ 0 → 2 * h * (m / (2 * h) : Nat) < x ∧ x < 2 * h * (m / (2 * h) : Nat) + h) ∧
    (h < m % (2 * h) → 2 * h * (m / (2 * h) : Nat) + h < x ∧ (0 < h → x < 2 * h * (m / (2 * h) : Nat) + 2 * h)) ∧
    (m % (2 * h) = 0 ∨ m % (2 * h) = h → x = m) := by
  have hdiv := Nat.div_add_mod m (2 * h)
  generalize m / (2 * h) = q at *
  have hcast (n : Nat) : (2 * h * q + n : ℝ) = ((2 * h * q + n : Nat) : ℝ) := by push_cast; ring
  have heven : h % 2 = 0 → m % (2 * h) % 2 = m % 2 := fun h2 => by
    rw [Nat.mod_mod_of_dvd _ (Nat.dvd_mul_right 2 h)]
  have hmod : 0 < h → m % (2 * h) < 2 * h := fun hp => Nat.mod_lt _ (by omega)
  generalize m % (2 * h) = r at *
  have hm : (m : ℝ) = 2 * h * q + r := by rw [hcast, hdiv]
  obtain rfl | ⟨hodd, hh, hlo, hhi⟩ := hx
  · rw [hm]
    refine ⟨fun ⟨hr, h0⟩ => ⟨?_, ?_⟩, fun hr => ⟨?_, fun hp => ?_⟩, fun _ => rfl⟩
    · have : (0 : ℝ) < r := by exact_mod_cast Nat.pos_of_ne_zero h0
      linarith
    · have : (r : ℝ) < h := by exact_mod_cast hr
      linarith
    · have : (h : ℝ) < r := by exact_mod_cast hr
      linarith
    · have : (r : ℝ) < 2 * h := by exact_mod_cast hmod hp
      linarith
  · have hr2 := heven hh
    refine ⟨fun ⟨hr, h0⟩ => ⟨?_, ?_⟩, fun hr => ⟨?_, fun hp => ?_⟩, fun h0 => ?_⟩
    · have : (1 : ℝ) ≤ r := by exact_mod_cast Nat.pos_of_ne_zero h0
      linarith
    · have : (r : ℝ) + 1 ≤ h := by exact_mod_cast hr
      linarith
    · have : (h : ℝ) + 1 ≤ r := by exact_mod_cast hr
      linarith
    · have : (r : ℝ) + 1 ≤ 2 * h := by exact_mod_cast hmod hp
      linarith
    · omega

/-- Nearest to a quotient by 2h: no further than h away before the division. -/
theorem nearestEven_div {c h : Nat} {x : ℝ} (hh : 0 < h) (hle : |2 * h * c - x| ≤ h) (htie : |2 * h * c - x| = h → c % 2 = 0) :
    NearestEven c (x / (2 * h)) := by
  have hpos : (0 : ℝ) < h := by exact_mod_cast hh
  have hquot : |(c : ℝ) - x / (2 * h)| = |2 * h * c - x| / (2 * h) := by
    rw [← abs_of_pos (by positivity : (0 : ℝ) < 2 * h), ← abs_div, abs_of_pos (by positivity : (0 : ℝ) < 2 * h)]
    congr 1
    field_simp
  rw [NearestEven, hquot, div_le_iff₀ (by positivity), div_eq_iff (by positivity)]
  exact ⟨by linarith, fun h => htie (by linarith)⟩

theorem divideEven_nearest {m h : Nat} {x : ℝ} (hh : 0 < h) (hx : StandsInt m h x) :
    NearestEven (divideEven m h) (x / (2 * h)) ∧ (m % (2 * h) = 0 ↔ (divideEven m h : ℝ) * (2 * h) = x) := by
  obtain ⟨hlow, hhigh, hexact⟩ := hx.half
  have hdiv := Nat.div_add_mod m (2 * h)
  have hpos : (0 : ℝ) < h := by exact_mod_cast hh
  unfold divideEven
  generalize m / (2 * h) = q at *
  generalize m % (2 * h) = r at *
  have hm : (m : ℝ) = 2 * h * q + r := by rw [← hdiv]; push_cast; ring
  obtain hr | rfl | hr := lt_trichotomy r h
  · have hdown : (decide (h < r) || (r == h && q % 2 == 1)) = false := by simp; omega
    rw [hdown, if_neg (by decide)]
    by_cases h0 : r = 0
    · have hxq : x = 2 * h * q := by rw [hexact (.inl h0), hm, h0]; simp
      have hzero : |2 * h * q - x| = 0 := by rw [hxq, sub_self, abs_zero]
      exact ⟨nearestEven_div hh (by rw [hzero]; exact hpos.le) (by rw [hzero]; exact fun h => absurd h hpos.ne),
        by simp only [h0, true_iff]; linarith⟩
    · obtain ⟨hlo, hhi⟩ := hlow ⟨hr, h0⟩
      have hlt : |2 * h * q - x| < h := by rw [abs_lt]; constructor <;> linarith
      exact ⟨nearestEven_div hh hlt.le (fun h => absurd h hlt.ne), by
        simp only [h0, false_iff]; exact fun h => by linarith⟩
  · have hxq : x = 2 * r * q + r := (hexact (.inr rfl)).trans hm
    have hne : ¬ (r = 0) := by omega
    simp only [lt_self_iff_false, decide_false, BEq.rfl, Bool.true_and, Bool.false_or, beq_iff_eq, hne, false_iff]
    split
    · next hodd =>
      have htie : |2 * r * ((q + 1 : Nat) : ℝ) - x| = r := by
        rw [hxq, show 2 * (r : ℝ) * ((q + 1 : Nat) : ℝ) - (2 * r * q + r) = r by push_cast; ring, abs_of_pos hpos]
      exact ⟨nearestEven_div hh htie.le (fun _ => by omega), fun h => by push_cast at h; linarith⟩
    · next heven =>
      have htie : |2 * r * (q : ℝ) - x| = r := by
        rw [hxq, show 2 * (r : ℝ) * q - (2 * r * q + r) = -r by ring, abs_neg, abs_of_pos hpos]
      exact ⟨nearestEven_div hh htie.le (fun _ => by omega), fun h => by linarith⟩
  · obtain ⟨hlo, hhi⟩ := hhigh hr
    have hhi := hhi hh
    have hne : ¬ (r = 0) := by omega
    have hlt : |2 * h * ((q + 1 : Nat) : ℝ) - x| < h := by push_cast; rw [abs_lt]; constructor <;> linarith
    simp only [hr, decide_true, Bool.true_or, if_true, hne, false_iff]
    exact ⟨nearestEven_div hh hlt.le (fun h => absurd h hlt.ne), fun h => by push_cast at h; linarith⟩

/-! ### Units in the last place -/

/-- A positive real that a magnitude m × 2^e stands for. -/
def StandsMag (m : Nat) (e : Int) (x : ℝ) : Prop :=
  x = m * (2 : ℝ) ^ e ∨
    (m % 2 = 1 ∧ 2 ^ 120 ≤ m ∧ ((m : ℝ) - 1) * (2 : ℝ) ^ e < x ∧ x < ((m : ℝ) + 1) * (2 : ℝ) ^ e)

theorem two_zpow_pos (e : Int) : (0 : ℝ) < (2 : ℝ) ^ e := by positivity

theorem two_zpow_add (a b : Int) : (2 : ℝ) ^ (a + b) = 2 ^ a * 2 ^ b := zpow_add₀ (by norm_num) a b

/-- A difference of exponents that is no less than 0, as a power of naturals. -/
theorem two_zpow_toNat {a b : Int} (h : b ≤ a) : (2 : ℝ) ^ a = ((2 ^ (a - b).toNat : Nat) : ℝ) * 2 ^ b := by
  push_cast
  rw [← zpow_natCast, Int.toNat_of_nonneg (by omega), ← two_zpow_add]
  congr 1; omega

/-- Rounding to units 2^u takes the nearest, ties to even, and says exactly whether nothing was lost; a number with a sticky
bit is rounded at least two places above it. -/
theorem roundUnits_nearest {m : Nat} {e u : Int} {x : ℝ} (neg : Bool) (hx : StandsMag m e x)
    (hs : 2 ^ 120 ≤ m → e + 2 ≤ u ∨ x = m * (2 : ℝ) ^ e) :
    let r := roundUnits .rne neg m e u
    NearestEven r.1 (x / (2 : ℝ) ^ u) ∧ (r.2 = true ↔ (r.1 : ℝ) * (2 : ℝ) ^ u = x) := by
  by_cases hu : u ≤ e
  · have hxm : x = m * (2 : ℝ) ^ e := by
      obtain h | ⟨-, hbig, -, -⟩ := hx
      · exact h
      · exact (hs hbig).resolve_left (by omega)
    have hr : roundUnits .rne neg m e u = (m * 2 ^ (e - u).toNat, true) := by simp only [roundUnits, if_pos hu]
    have hval : ((m * 2 ^ (e - u).toNat : Nat) : ℝ) * (2 : ℝ) ^ u = x := by
      rw [hxm, two_zpow_toNat hu]; push_cast; ring
    rw [hr]
    refine ⟨?_, by simpa using hval⟩
    rw [← hval, mul_div_assoc, div_self (two_zpow_pos u).ne', mul_one]
    exact nearestEven_self _
  · obtain ⟨n, hn⟩ : ∃ n : Nat, (u - e).toNat = n + 1 := ⟨(u - e).toNat - 1, by omega⟩
    have hr : roundUnits .rne neg m e u = (divideEven m (2 ^ n), m % (2 * 2 ^ n) == 0) := by
      simp only [roundUnits, if_neg hu, hn, Nat.add_sub_cancel, pow_succ', divideEven]
    have hpow : (2 : ℝ) ^ u = 2 * ((2 ^ n : Nat) : ℝ) * 2 ^ e := by
      rw [two_zpow_toNat (show e ≤ u by omega), hn]; push_cast; ring
    have hstands : StandsInt m (2 ^ n) (x / 2 ^ e) := by
      have hne := (two_zpow_pos e).ne'
      obtain h | ⟨hodd, hbig, hlo, hhi⟩ := hx
      · exact .inl (by rw [h, mul_div_assoc, div_self hne, mul_one])
      · obtain h2 | h := hs hbig
        · refine .inr ⟨hodd, ?_, (lt_div_iff₀ (two_zpow_pos e)).mpr hlo, (div_lt_iff₀ (two_zpow_pos e)).mpr hhi⟩
          obtain ⟨k, rfl⟩ : ∃ k, n = k + 1 := ⟨n - 1, by omega⟩
          rw [pow_succ]; omega
        · exact .inl (by rw [h, mul_div_assoc, div_self hne, mul_one])
    obtain ⟨hnear, hexact⟩ := divideEven_nearest (pow_pos (by decide) n) hstands
    rw [hr]
    refine ⟨?_, ?_⟩
    · rwa [hpow, mul_comm _ ((2 : ℝ) ^ e), ← div_div]
    · rw [beq_iff_eq, hexact, hpow, eq_div_iff (two_zpow_pos e).ne', mul_assoc]

/-- What an integer rounded to units 2^u can be: 0, or as many bits as there were above the unit, or one bit more. -/
theorem roundUnits_bounds (neg : Bool) {m k : Nat} {e u : Int} (hlo : 2 ^ k ≤ m) (hhi : m < 2 ^ (k + 1)) {n : Nat}
    (hu : e + k - n ≤ u) :
    (roundUnits .rne neg m e u).1 ≤ 2 ^ (n + 1) ∧ (u = e + k - n → 2 ^ n ≤ (roundUnits .rne neg m e u).1) := by
  by_cases hue : u ≤ e
  · have hr : roundUnits .rne neg m e u = (m * 2 ^ (e - u).toNat, true) := by simp only [roundUnits, if_pos hue]
    rw [hr]
    refine ⟨?_, fun h => ?_⟩
    · calc m * 2 ^ (e - u).toNat ≤ 2 ^ (k + 1) * 2 ^ (e - u).toNat := Nat.mul_le_mul_right _ hhi.le
        _ = 2 ^ (k + 1 + (e - u).toNat) := (pow_add ..).symm
        _ ≤ 2 ^ (n + 1) := Nat.pow_le_pow_right (by decide) (by omega)
    · calc 2 ^ n = 2 ^ (k + (e - u).toNat) := by congr 1; omega
        _ = 2 ^ k * 2 ^ (e - u).toNat := pow_add ..
        _ ≤ m * 2 ^ (e - u).toNat := Nat.mul_le_mul_right _ hlo
  · have hr : m / 2 ^ (u - e).toNat ≤ (roundUnits .rne neg m e u).1 ∧
        (roundUnits .rne neg m e u).1 ≤ m / 2 ^ (u - e).toNat + 1 := by
      simp only [roundUnits, if_neg hue]
      generalize m / 2 ^ (u - e).toNat = q
      constructor <;> split <;> simp
    refine ⟨hr.2.trans ?_, fun h => le_trans ?_ hr.1⟩
    · refine Nat.succ_le_of_lt ((Nat.div_lt_iff_lt_mul (by positivity)).mpr (hhi.trans_le ?_))
      rw [← pow_add]
      exact Nat.pow_le_pow_right (by decide) (by omega)
    · refine (Nat.le_div_iff_mul_le (by positivity)).mpr (le_trans (le_of_eq ?_) hlo)
      rw [← pow_add]
      congr 1; omega

/-! ### The plain formats (R67) -/

/-- What rounding to a plain float format rests on. -/
structure Binary (f : Fmt) : Prop where
  fb_pos : 1 ≤ f.fb
  fb_le : f.fb ≤ 52
  hasInf : f.hasInf = true
  maxCode : f.maxCode + 1 = (2 ^ f.eb - 1) * 2 ^ f.fb
  nan : ∀ c, f.nanCode = some c → f.maxCode < c

theorem binary_fmtOf {t : Ty} (h : isPlainFloat t) : Binary (fmtOf t) ∧ t.width = (fmtOf t).eb + (fmtOf t).fb + 1 := by
  obtain rfl | rfl | rfl | rfl := h
  all_goals exact ⟨⟨by decide, by decide, by decide, by decide,
    by simp [fmtOf, fmtF16, fmtBf16, fmtF32, fmtF64]⟩, by decide⟩

/-- A code with its sign. -/
def signed (f : Fmt) (neg : Bool) (c : Nat) : Nat := if neg then 2 ^ (f.eb + f.fb) + c else c

/-- The number of a finite magnitude's code. -/
def finiteOf (f : Fmt) (neg : Bool) (c : Nat) : Machine.Num :=
  if c / 2 ^ f.fb = 0 then .fin neg (c % 2 ^ f.fb) (1 - (f.bias : Int) - f.fb)
  else .fin neg (2 ^ f.fb + c % 2 ^ f.fb) (((c / 2 ^ f.fb : Nat) : Int) - f.bias - f.fb)

/-- A number with its sign as a factor. -/
theorem numVal_fin (neg : Bool) (m : Nat) (e : Int) :
    numVal (.fin neg m e) = some ((if neg then -1 else 1) * (m : ℚ) * (2 : ℚ) ^ e) := rfl

section
variable {f : Fmt} (hf : Binary f)
include hf

/-- The top exponent begins after the greatest finite code. -/
theorem Binary.topExponent_iff {c : Nat} (hc : c < 2 ^ (f.eb + f.fb)) : c / 2 ^ f.fb = 2 ^ f.eb - 1 ↔ f.maxCode < c := by
  have hpos : 0 < 2 ^ f.fb := by positivity
  have hlt : c / 2 ^ f.fb < 2 ^ f.eb := by
    rw [Nat.div_lt_iff_lt_mul hpos, ← pow_add]; exact hc
  have hge : 2 ^ f.eb - 1 ≤ c / 2 ^ f.fb ↔ f.maxCode < c := by
    rw [Nat.le_div_iff_mul_le hpos, ← hf.maxCode]; omega
  omega

theorem Binary.maxCode_lt : f.maxCode < 2 ^ (f.eb + f.fb) := by
  have hle : (2 ^ f.eb - 1) * 2 ^ f.fb ≤ 2 ^ f.eb * 2 ^ f.fb := Nat.mul_le_mul_right _ (Nat.sub_le _ _)
  rw [pow_add]
  have := hf.maxCode
  omega

/-- A code is that of an infinity, of a NaN, or of a finite number. -/
theorem Binary.decode_eq (k : Nat) :
    let neg := k / 2 ^ (f.eb + f.fb) % 2 == 1
    let mag := k % 2 ^ (f.eb + f.fb)
    f.decode k = if f.maxCode < mag then (if mag % 2 ^ f.fb = 0 then .inf neg else .nan (mag % 2 ^ f.fb < 2 ^ (f.fb - 1)))
      else finiteOf f neg mag := by
  intro neg mag
  have htop := hf.topExponent_iff (Nat.mod_lt k (by positivity : 0 < 2 ^ (f.eb + f.fb)))
  simp only [Fmt.decode, hf.hasInf, Bool.true_and, beq_iff_eq, htop]
  split
  · rfl
  · next hmag =>
    rw [if_neg (fun h => hmag (hf.nan _ h))]
    simp only [finiteOf, mag, neg]

theorem Binary.decode_signed {neg : Bool} {c : Nat} (hc : c ≤ f.maxCode) : f.decode (signed f neg c) = finiteOf f neg c := by
  have hlt := hc.trans_lt hf.maxCode_lt
  have hpos : 0 < 2 ^ (f.eb + f.fb) := by positivity
  have hneg : (signed f neg c / 2 ^ (f.eb + f.fb) % 2 == 1) = neg := by
    cases neg
    · simp [signed, Nat.div_eq_of_lt hlt]
    · simp [signed, Nat.add_div_left _ hpos, Nat.div_eq_of_lt hlt]
  have hmag : signed f neg c % 2 ^ (f.eb + f.fb) = c := by
    cases neg <;> simp [signed, Nat.mod_eq_of_lt hlt]
  rw [hf.decode_eq]
  simp only [hneg, hmag, if_neg (Nat.not_lt.mpr hc)]

/-- A finite value of the format lies on the grid of its least unit, with no more bits than the format has. -/
theorem Binary.value_decode {k : Nat} {z : ℚ} (h : numVal (f.decode k) = some z) :
    ∃ (neg : Bool) (m : Nat) (e : Int), m < 2 ^ (f.fb + 1) ∧ 1 - (f.bias : Int) - f.fb ≤ e ∧
      f.decode k = .fin neg m e ∧ z = (if neg then -1 else 1) * (m : ℚ) * (2 : ℚ) ^ e := by
  rw [hf.decode_eq] at h ⊢
  have hmod := Nat.mod_lt (k % 2 ^ (f.eb + f.fb)) (by positivity : 0 < 2 ^ f.fb)
  split at h
  · split at h <;> simp [numVal] at h
  · next hmag =>
    simp only [hmag, if_false]
    unfold finiteOf at h ⊢
    generalize k % 2 ^ (f.eb + f.fb) / 2 ^ f.fb = q at *
    split at h
    · next h0 =>
      exact ⟨_, _, _, by rw [pow_succ]; omega, le_refl _, if_pos h0, (Option.some.inj h).symm⟩
    · next h0 =>
      exact ⟨_, _, _, by rw [pow_succ]; omega, by omega, if_neg h0, (Option.some.inj h).symm⟩

/-- A code made up of an exponent E and r units: r units of 2^(E − bias − fb), even where r carries into the exponent. -/
theorem Binary.value_signed {neg : Bool} {i r : Nat} (hr : r ≤ 2 ^ (f.fb + 1)) (hlow : i = 0 ∨ 2 ^ f.fb ≤ r)
    (hc : i * 2 ^ f.fb + r ≤ f.maxCode) :
    numVal (f.decode (signed f neg (i * 2 ^ f.fb + r))) =
      some ((if neg then -1 else 1) * (r : ℚ) * (2 : ℚ) ^ ((i : Int) + 1 - f.bias - f.fb)) := by
  have hpos : 0 < 2 ^ f.fb := by positivity
  rw [hf.decode_signed hc, finiteOf]
  rw [pow_succ] at hr
  have hdiv (a b : Nat) (hb : b < 2 ^ f.fb) : (a * 2 ^ f.fb + b) / 2 ^ f.fb = a ∧ (a * 2 ^ f.fb + b) % 2 ^ f.fb = b := by
    rw [mul_comm, Nat.mul_add_div hpos, Nat.div_eq_of_lt hb, Nat.mul_add_mod, Nat.mod_eq_of_lt hb]
    exact ⟨rfl, rfl⟩
  obtain h0 | h1 | h2 : r < 2 ^ f.fb ∨ (2 ^ f.fb ≤ r ∧ r < 2 ^ f.fb * 2) ∨ r = 2 ^ f.fb * 2 := by omega
  · obtain rfl : i = 0 := hlow.resolve_right (by omega)
    obtain ⟨hq, hm⟩ := hdiv 0 r h0
    simp only [hq, hm, if_true, numVal_fin, Nat.cast_zero, zero_add]
  · obtain ⟨d, rfl⟩ := Nat.exists_eq_add_of_le h1.1
    obtain ⟨hq, hm⟩ := hdiv (i + 1) d (by omega)
    rw [show i * 2 ^ f.fb + (2 ^ f.fb + d) = (i + 1) * 2 ^ f.fb + d by ring, hq, hm, if_neg (by omega), numVal_fin]
    push_cast
    rfl
  · obtain ⟨hq, hm⟩ := hdiv (i + 2) 0 hpos
    rw [show i * 2 ^ f.fb + r = (i + 2) * 2 ^ f.fb + 0 by rw [h2]; ring, hq, hm, if_neg (by omega), numVal_fin, h2,
      show (((i + 2 : Nat) : Int) - f.bias - f.fb) = ((i : Int) + 1 - f.bias - f.fb) + 1 by push_cast; ring,
      zpow_add_one₀ (by norm_num)]
    push_cast
    congr 1; ring

end

end Sys2Proof.Proofs
end

section
/-! The codes that values are rounded to (R68, R70): nearest to the value, even on a tie, NX exactly where it changed; and the
code of a code's value is the code. -/

namespace Sys2Proof.Proofs

open Sys2Proof Sys2Proof.Machine Sys2Proof.Claims

/-! ### The rounding of a magnitude -/

/-- The exponent of the unit that a magnitude is rounded to. -/
def unitExp (f : Fmt) (m : Nat) (e : Int) : Int := max (e + Nat.log2 m - f.fb) (1 - f.bias - f.fb)

/-- The exponent field of a unit, less 1. -/
def unitIndex (f : Fmt) (m : Nat) (e : Int) : Nat := (unitExp f m e + f.fb + f.bias - 1).toNat

/-- The code of a rounded magnitude, an overflow not yet judged. -/
def roundedCode (f : Fmt) (rm : Rounding) (neg : Bool) (m : Nat) (e : Int) : Nat :=
  unitIndex f m e * 2 ^ f.fb + (roundUnits rm neg m e (unitExp f m e)).1

theorem unitIndex_eq (f : Fmt) (m : Nat) (e : Int) : (unitIndex f m e : Int) + 1 - f.bias - f.fb = unitExp f m e := by
  have : 1 - (f.bias : Int) - f.fb ≤ unitExp f m e := le_max_right _ _
  rw [unitIndex, Int.toNat_of_nonneg (by omega)]
  ring

/-- Is a magnitude tiny after rounding with an unbounded exponent (R70)? -/
def tinyMag (f : Fmt) (rm : Rounding) (neg : Bool) (m : Nat) (e : Int) : Bool :=
  e + Nat.log2 m < 1 - (f.bias : Int) &&
    !(e + Nat.log2 m = 1 - (f.bias : Int) - 1 && (roundUnits rm neg m e (e + Nat.log2 m - f.fb)).1 = 2 ^ (f.fb + 1))

/-- Without an overflow the code is the one of the rounded units, and the flags say NX, and UF, only when something was lost. -/
theorem roundMag_fits {f : Fmt} {rm : Rounding} {neg : Bool} {m : Nat} {e : Int} (h : roundedCode f rm neg m e ≤ f.maxCode) :
    f.roundMag rm neg m e = (roundedCode f rm neg m e,
      flagIf (!(roundUnits rm neg m e (unitExp f m e)).2) flagNX |||
        flagIf (tinyMag f rm neg m e && !(roundUnits rm neg m e (unitExp f m e)).2) flagUF) := by
  simp only [Fmt.roundMag]
  exact if_neg (Nat.not_lt.mpr h)

theorem roundMag_overflows {f : Fmt} {rm : Rounding} {neg : Bool} {m : Nat} {e : Int} (h : f.maxCode < roundedCode f rm neg m e) :
    (f.roundMag rm neg m e).2.getLsbD 2 = true := by
  have hmag : (f.roundMag rm neg m e).2 = flagOF ||| flagNX := by
    simp only [Fmt.roundMag]
    exact congrArg Prod.snd (if_pos h)
  rw [hmag]
  decide

theorem encode_fin {f : Fmt} {rm : Rounding} {neg : Bool} {m : Nat} {e : Int} (hm : m ≠ 0) :
    f.encode rm (.fin neg m e) = (signed f neg (f.roundMag rm neg m e).1, (f.roundMag rm neg m e).2) := by
  obtain ⟨n, rfl⟩ := Nat.exists_eq_succ_of_ne_zero hm
  rfl

theorem encode_zero (f : Fmt) (rm : Rounding) (neg : Bool) (e : Int) : f.encode rm (.fin neg 0 e) = (signed f neg 0, 0) := rfl

/-- NX among the flags of a rounding without overflow. -/
theorem flags_nx (exact tiny : Bool) :
    ((flagIf (!exact) flagNX ||| flagIf (tiny && !exact) flagUF).getLsbD 0 = true ↔ ¬ exact = true) := by
  cases exact <;> cases tiny <;> decide

/-! ### Nearest on the grid of a unit -/

/-- The rounded units are nearest among the multiples of the unit, and among smaller numbers where the value is no less than
2^n units. -/
theorem nearest_on_grid {n r : Nat} {u : Int} {x w : ℝ} (hr : NearestEven r (x / (2 : ℝ) ^ u))
    (hw : (∃ j : ℤ, w = j * (2 : ℝ) ^ u) ∨ (|w| < 2 ^ n * (2 : ℝ) ^ u ∧ 2 ^ n * (2 : ℝ) ^ u ≤ x)) :
    |r * (2 : ℝ) ^ u - x| ≤ |w - x| ∧ (|r * (2 : ℝ) ^ u - x| = |w - x| → w ≠ r * (2 : ℝ) ^ u → r % 2 = 0) := by
  have hpos := two_zpow_pos u
  have hscale (c : ℝ) : |c * (2 : ℝ) ^ u - x| = |c - x / (2 : ℝ) ^ u| * (2 : ℝ) ^ u := by
    conv_rhs => rw [← abs_of_pos hpos, ← abs_mul, abs_of_pos hpos, sub_mul, div_mul_cancel₀ _ hpos.ne']
  obtain ⟨j, rfl⟩ | ⟨hlt, hle⟩ := hw
  · obtain ⟨hle, htie⟩ := hr.le_int j
    rw [hscale, hscale]
    refine ⟨mul_le_mul_of_nonneg_right hle hpos.le, fun heq hne => htie (mul_right_cancel₀ hpos.ne' heq) fun h => hne ?_⟩
    rw [h]; rfl
  · obtain ⟨hnear, -⟩ := hr.le_int (2 ^ n)
    have hbase : |r * (2 : ℝ) ^ u - x| ≤ x - 2 ^ n * (2 : ℝ) ^ u := by
      rw [hscale]
      calc _ ≤ |((2 ^ n : ℤ) : ℝ) - x / (2 : ℝ) ^ u| * (2 : ℝ) ^ u := mul_le_mul_of_nonneg_right hnear hpos.le
        _ = |2 ^ n * (2 : ℝ) ^ u - x| := by rw [hscale]; push_cast; rfl
        _ = x - 2 ^ n * (2 : ℝ) ^ u := by rw [abs_sub_comm, abs_of_nonneg (by linarith)]
    have hfar : x - 2 ^ n * (2 : ℝ) ^ u < |w - x| := by
      rw [abs_sub_comm]
      exact lt_of_lt_of_le (by linarith [le_abs_self w]) (le_abs_self _)
    exact ⟨by linarith, fun heq => by linarith⟩

/-- What stands for a real is no less than its leading bit alone. -/
theorem StandsMag.leading_le {m : Nat} {e : Int} {x : ℝ} (hx : StandsMag m e x) (hm : m ≠ 0) :
    (2 : ℝ) ^ Nat.log2 m * (2 : ℝ) ^ e ≤ x := by
  have hpos := two_zpow_pos e
  have hlog : 2 ^ Nat.log2 m ≤ m := Nat.log2_self_le hm
  obtain rfl | ⟨hodd, hbig, hlo, -⟩ := hx
  · exact mul_le_mul_of_nonneg_right (by exact_mod_cast hlog) hpos.le
  · have hne : 2 ^ Nat.log2 m ≠ m := by
      intro h
      have hl : Nat.log2 m ≠ 0 := fun h0 => by rw [h0] at h; omega
      obtain ⟨k, hk⟩ := Nat.exists_eq_succ_of_ne_zero hl
      rw [hk, Nat.succ_eq_add_one, pow_succ] at h
      omega
    have hle : (2 : ℝ) ^ Nat.log2 m ≤ (m : ℝ) - 1 := by
      have : 2 ^ Nat.log2 m + 1 ≤ m := by omega
      have : ((2 ^ Nat.log2 m + 1 : Nat) : ℝ) ≤ m := by exact_mod_cast this
      push_cast at this
      linarith
    exact (mul_le_mul_of_nonneg_right hle hpos.le).trans hlo.le

theorem sign_mul_self (neg : Bool) : (if neg then (-1 : ℝ) else 1) * (if neg then -1 else 1) = 1 := by cases neg <;> norm_num

theorem cast_sign (neg : Bool) : ((if neg then (-1 : ℚ) else 1 : ℚ) : ℝ) = if neg then -1 else 1 := by cases neg <;> simp

theorem cast_sign_int (neg : Bool) : ((if neg then (-1 : ℤ) else 1 : ℤ) : ℝ) = if neg then -1 else 1 := by cases neg <;> simp

theorem abs_sign_mul (neg : Bool) (a : ℝ) : |(if neg then (-1 : ℝ) else 1) * a| = |a| := by
  cases neg <;> simp

section
variable {f : Fmt} (hf : Binary f)
include hf

/-- A value of the format is a multiple of any unit of it, or below 2^fb such units. -/
theorem Binary.grid {k : Nat} {z : ℚ} (hz : numVal (f.decode k) = some z) (neg : Bool) {u : Int} :
    (∃ j : ℤ, (if neg then (-1 : ℝ) else 1) * z = j * (2 : ℝ) ^ u) ∨
      (1 - (f.bias : Int) - f.fb < u ∧ |(if neg then (-1 : ℝ) else 1) * z| < 2 ^ f.fb * (2 : ℝ) ^ u) := by
  obtain ⟨n, m, e, hm, he, -, rfl⟩ := hf.value_decode hz
  by_cases hu : u ≤ e
  · refine .inl ⟨(if neg then -1 else 1) * (if n then -1 else 1) * ((m * 2 ^ (e - u).toNat : Nat) : ℤ), ?_⟩
    rw [Rat.cast_mul, Rat.cast_mul, cast_sign, Rat.cast_natCast, Rat.cast_zpow, Rat.cast_ofNat, two_zpow_toNat hu]
    push_cast [cast_sign_int]
    ring
  · refine .inr ⟨by omega, ?_⟩
    rw [abs_sign_mul]
    push_cast [cast_sign]
    rw [mul_assoc, abs_sign_mul, abs_of_nonneg (by positivity)]
    have hle : (2 : ℝ) ^ (e + 1) ≤ 2 ^ u := zpow_le_zpow_right₀ (by norm_num) (by omega)
    have hm' : (m : ℝ) < 2 ^ (f.fb + 1) := by exact_mod_cast hm
    calc (m : ℝ) * 2 ^ e < 2 ^ (f.fb + 1) * 2 ^ e := mul_lt_mul_of_pos_right hm' (two_zpow_pos e)
      _ = 2 ^ f.fb * 2 ^ (e + 1) := by rw [two_zpow_add, pow_succ]; ring
      _ ≤ 2 ^ f.fb * 2 ^ u := by gcongr

/-- The code of the units chosen has their value. -/
theorem Binary.value_roundedCode {neg : Bool} {m : Nat} {e : Int} (hm : m ≠ 0) (h : roundedCode f .rne neg m e ≤ f.maxCode) :
    numVal (f.decode (signed f neg (roundedCode f .rne neg m e))) =
      some ((if neg then -1 else 1) * ((roundUnits .rne neg m e (unitExp f m e)).1 : ℚ) * (2 : ℚ) ^ unitExp f m e) := by
  have hlo := Nat.log2_self_le hm
  have hhi : m < 2 ^ (Nat.log2 m + 1) := Nat.lt_log2_self
  have hbounds := roundUnits_bounds neg hlo hhi (n := f.fb) (u := unitExp f m e) (le_max_left _ _)
  rw [roundedCode, hf.value_signed hbounds.1 ?_ h, unitIndex_eq]
  by_cases htop : unitExp f m e = e + Nat.log2 m - f.fb
  · exact .inr (hbounds.2 htop)
  · left
    have hbot : unitExp f m e = 1 - f.bias - f.fb := by
      simp only [unitExp] at htop ⊢
      omega
    have := unitIndex_eq f m e
    omega

/-- The parity of a code is that of its rounded units. -/
theorem Binary.signed_mod_two (neg : Bool) (i r : Nat) : signed f neg (i * 2 ^ f.fb + r) % 2 = r % 2 := by
  obtain ⟨n, hn⟩ := Nat.exists_eq_add_of_le hf.fb_pos
  have hfb : 2 ^ f.fb = 2 * 2 ^ n := by rw [hn, pow_add, pow_one]
  have hi : i * 2 ^ f.fb % 2 = 0 := by rw [hfb, mul_left_comm]; exact Nat.mul_mod_right _ _
  have he : 2 ^ (f.eb + f.fb) % 2 = 0 := by rw [pow_add, hfb, mul_left_comm]; exact Nat.mul_mod_right _ _
  cases neg <;> simp only [signed, Bool.false_eq_true, if_true, if_false] <;> omega

/-- ROUNDING TO A FORMAT (R68): without an overflow, the code chosen for what stands for a real is nearest to the real, even
on a tie, and NX says whether its value is another. -/
theorem Binary.encode_nearest {neg : Bool} {m : Nat} {e : Int} {x : ℝ} (hm : m ≠ 0) (hx : StandsMag m e x)
    (hov : (f.encode .rne (.fin neg m e)).2.getLsbD 2 = false) :
    ∃ y : ℚ, numVal (f.decode (f.encode .rne (.fin neg m e)).1) = some y ∧
      ((f.encode .rne (.fin neg m e)).2.getLsbD 0 = true ↔ (y : ℝ) ≠ (if neg then -1 else 1) * x) ∧
      ∀ (k : Nat) (z : ℚ), numVal (f.decode k) = some z →
        |(y : ℝ) - (if neg then -1 else 1) * x| ≤ |(z : ℝ) - (if neg then -1 else 1) * x| ∧
        (|(y : ℝ) - (if neg then -1 else 1) * x| = |(z : ℝ) - (if neg then -1 else 1) * x| → z ≠ y →
          (f.encode .rne (.fin neg m e)).1 % 2 = 0) := by
  rw [encode_fin hm] at hov ⊢
  have hfit : roundedCode f .rne neg m e ≤ f.maxCode := by
    by_contra h
    rw [roundMag_overflows (Nat.lt_of_not_le h)] at hov
    exact absurd hov (by decide)
  have hround := roundMag_fits hfit
  have hhi : m < 2 ^ (Nat.log2 m + 1) := Nat.lt_log2_self
  have hsticky : 2 ^ 120 ≤ m → e + 2 ≤ unitExp f m e ∨ x = m * (2 : ℝ) ^ e := fun hbig => by
    have h120 : 120 < Nat.log2 m + 1 := (Nat.pow_lt_pow_iff_right (by decide)).mp (hbig.trans_lt hhi)
    have hfb := hf.fb_le
    exact .inl (le_trans (by omega) (le_max_left _ _))
  obtain ⟨hnear, hexact⟩ := roundUnits_nearest neg hx hsticky
  rw [hround]
  set r := roundUnits .rne neg m e (unitExp f m e) with hr
  have hval := hf.value_roundedCode hm hfit
  rw [← hr] at hval
  have hy (c : ℝ) : |(((if neg then -1 else 1) * (r.1 : ℚ) * (2 : ℚ) ^ unitExp f m e : ℚ) : ℝ) - (if neg then -1 else 1) * c| =
      |r.1 * (2 : ℝ) ^ unitExp f m e - c| := by
    push_cast [cast_sign]
    rw [mul_assoc, ← mul_sub, abs_sign_mul]
  refine ⟨_, hval, ?_, fun k z hz => ?_⟩
  · rw [flags_nx, hexact, not_iff_not, ← sub_eq_zero, ← sub_eq_zero (b := (if neg then (-1 : ℝ) else 1) * x), ← abs_eq_zero,
      ← abs_eq_zero (a := _ - (if neg then (-1 : ℝ) else 1) * x), hy]
  · have hz' : |(z : ℝ) - (if neg then -1 else 1) * x| = |(if neg then (-1 : ℝ) else 1) * z - x| := by
      rw [← abs_sign_mul neg ((if neg then (-1 : ℝ) else 1) * z - x), mul_sub, ← mul_assoc, sign_mul_self, one_mul]
    have hgrid := hf.grid hz neg (u := unitExp f m e)
    have hon := nearest_on_grid (n := f.fb) (w := (if neg then (-1 : ℝ) else 1) * z) hnear (hgrid.imp_right fun ⟨hu, hlt⟩ =>
      ⟨hlt, by
        have htop : unitExp f m e = e + Nat.log2 m - f.fb := by simp only [unitExp] at hu ⊢; omega
        refine le_trans (le_of_eq ?_) (hx.leading_le hm)
        rw [htop, ← zpow_natCast, ← zpow_natCast, ← two_zpow_add, ← two_zpow_add]
        congr 1; ring⟩)
    rw [hy, hz']
    refine ⟨hon.1, fun heq hne => ?_⟩
    rw [roundedCode, hf.signed_mod_two, ← hr]
    refine hon.2 heq fun h => hne ?_
    have hzy : (z : ℝ) = (((if neg then -1 else 1) * (r.1 : ℚ) * (2 : ℚ) ^ unitExp f m e : ℚ) : ℝ) := by
      push_cast [cast_sign]
      rw [mul_assoc, ← h, ← mul_assoc, sign_mul_self, one_mul]
    exact_mod_cast hzy

/-- Zero is rounded to zero, which no value is nearer to. -/
theorem Binary.encode_zero_nearest (neg : Bool) (e : Int) :
    numVal (f.decode (f.encode .rne (.fin neg 0 e)).1) = some 0 ∧ (f.encode .rne (.fin neg 0 e)).2 = 0 := by
  refine ⟨?_, rfl⟩
  rw [encode_zero]
  have h := hf.value_signed (neg := neg) (i := 0) (r := 0) (Nat.zero_le _) (.inl rfl) (by simp)
  simpa using h

end

/-! ### What a number stands for -/

/-- A number that stands for a real other than 0 has a magnitude that stands for the real's. -/
theorem standsFor_cases {n : Machine.Num} {x : ℝ} (h : StandsFor n x) :
    ∃ neg m e, n = .fin neg m e ∧ ((m = 0 ∧ x = 0) ∨
      (m ≠ 0 ∧ ∃ a, StandsMag m e a ∧ x = (if neg then -1 else 1) * a)) := by
  obtain ⟨y, hy, rfl⟩ | ⟨neg, m, e, rfl, hodd, hbig, hneg, hpos, hlo, hhi⟩ := h
  · cases n with
    | nan s => simp [numVal] at hy
    | inf s => simp [numVal] at hy
    | fin neg m e =>
      refine ⟨neg, m, e, rfl, ?_⟩
      obtain rfl := Option.some.inj hy
      by_cases hm : m = 0
      · exact .inl ⟨hm, by simp [hm]⟩
      · exact .inr ⟨hm, m * (2 : ℝ) ^ e, .inl rfl, by push_cast [cast_sign]; ring⟩
  · refine ⟨neg, m, e, rfl, .inr ⟨by omega, |x|, .inr ⟨hodd, hbig, hlo, hhi⟩, ?_⟩⟩
    cases neg with
    | true => simp [abs_of_neg (hneg rfl)]
    | false => simp [abs_of_pos (hpos rfl)]

/-- The rounding of a number that stands for a real (R68, R91). -/
theorem encode_standsFor {t : Ty} {n : Machine.Num} {x : ℝ} (ht : isPlainFloat t) (hx : StandsFor n x)
    (hov : ((fmtOf t).encode .rne n).2.getLsbD 2 = false) :
    ∃ y : ℚ, numVal ((fmtOf t).decode ((fmtOf t).encode .rne n).1) = some y ∧
      (((fmtOf t).encode .rne n).2.getLsbD 0 = true ↔ (y : ℝ) ≠ x) ∧
      ∀ (k : Nat) (z : ℚ), numVal ((fmtOf t).decode k) = some z →
        |(y : ℝ) - x| ≤ |(z : ℝ) - x| ∧
        (|(y : ℝ) - x| = |(z : ℝ) - x| → z ≠ y → ((fmtOf t).encode .rne n).1 % 2 = 0) := by
  obtain ⟨hf, -⟩ := binary_fmtOf ht
  obtain ⟨neg, m, e, rfl, ⟨rfl, rfl⟩ | ⟨hm, a, ha, rfl⟩⟩ := standsFor_cases hx
  · obtain ⟨hval, hflags⟩ := hf.encode_zero_nearest neg e
    refine ⟨0, hval, by simp [hflags], fun k z _ => ⟨by simp, fun heq hne => absurd ?_ hne⟩⟩
    simpa [eq_comm (a := (0 : ℝ))] using heq
  · exact hf.encode_nearest hm ha hov

/-! ### Codes round to themselves -/

section
variable {f : Fmt}

/-- A number with no more bits than the format has, on its grid, loses nothing in any mode. -/
theorem encode_exact (rm : Rounding) (neg : Bool) {m : Nat} {e : Int} (hm : m ≠ 0) (hu : unitExp f m e = e)
    (hc : unitIndex f m e * 2 ^ f.fb + m ≤ f.maxCode) :
    f.encode rm (.fin neg m e) = (signed f neg (unitIndex f m e * 2 ^ f.fb + m), 0) := by
  have hround : roundUnits rm neg m e (unitExp f m e) = (m, true) := by simp [roundUnits, hu]
  have hcode : roundedCode f rm neg m e = unitIndex f m e * 2 ^ f.fb + m := by rw [roundedCode, hround]
  have hmag := roundMag_fits (rm := rm) (neg := neg) (hcode.trans_le hc)
  rw [encode_fin hm, hmag, hcode, hround]
  simp [flagIf]

/-- The code of a finite code's number is the code, in every mode. -/
theorem encode_finiteOf (rm : Rounding) (neg : Bool) {c : Nat} (hc : c ≤ f.maxCode) :
    f.encode rm (finiteOf f neg c) = (signed f neg c, 0) := by
  have hdiv := Nat.div_add_mod' c (2 ^ f.fb)
  have hmod := Nat.mod_lt c (by positivity : 0 < 2 ^ f.fb)
  unfold finiteOf
  generalize c / 2 ^ f.fb = q at *
  generalize c % 2 ^ f.fb = r at *
  split
  · next h0 =>
    obtain rfl : r = c := by simpa [h0] using hdiv
    by_cases hr : r = 0
    · subst hr; exact encode_zero f rm neg _
    · have hlog : Nat.log2 r < f.fb := (Nat.log2_lt hr).mpr hmod
      have hu : unitExp f r (1 - (f.bias : Int) - f.fb) = 1 - (f.bias : Int) - f.fb := max_eq_right (by omega)
      have hi : unitIndex f r (1 - (f.bias : Int) - f.fb) = 0 := by
        have := unitIndex_eq f r (1 - (f.bias : Int) - f.fb)
        omega
      have henc := encode_exact rm neg hr hu (by rw [hi]; simpa using hc)
      rwa [hi, zero_mul, zero_add] at henc
  · next h0 =>
    have hpos : 0 < 2 ^ f.fb := by positivity
    have hlog : Nat.log2 (2 ^ f.fb + r) = f.fb := by
      rw [Nat.log2_eq_iff (by omega), pow_succ]; omega
    have hu : unitExp f (2 ^ f.fb + r) ((q : Int) - f.bias - f.fb) = (q : Int) - f.bias - f.fb := by
      rw [unitExp, hlog]; exact (max_eq_left (by omega)).trans (by ring)
    have hi : unitIndex f (2 ^ f.fb + r) ((q : Int) - f.bias - f.fb) = q - 1 := by
      have := unitIndex_eq f (2 ^ f.fb + r) ((q : Int) - f.bias - f.fb)
      omega
    have hc' : (q - 1) * 2 ^ f.fb + (2 ^ f.fb + r) = c := by
      obtain ⟨p, rfl⟩ := Nat.exists_eq_succ_of_ne_zero h0
      rw [← hdiv, Nat.succ_eq_add_one, Nat.add_sub_cancel]; ring
    have henc := encode_exact rm neg (m := 2 ^ f.fb + r) (by omega) hu (by rw [hi, hc']; exact hc)
    rwa [hi, hc'] at henc

/-- A code is its sign and its magnitude. -/
theorem signed_of_lt {k : Nat} (hk : k < 2 ^ (f.eb + f.fb + 1)) :
    signed f (k / 2 ^ (f.eb + f.fb) % 2 == 1) (k % 2 ^ (f.eb + f.fb)) = k := by
  have hdiv := Nat.div_add_mod k (2 ^ (f.eb + f.fb))
  have hpos : 0 < 2 ^ (f.eb + f.fb) := by positivity
  have hq : k / 2 ^ (f.eb + f.fb) < 2 := by
    rw [Nat.div_lt_iff_lt_mul hpos, ← pow_succ']; exact hk
  obtain h | h := Nat.le_one_iff_eq_zero_or_eq_one.mp (Nat.le_of_lt_succ hq)
  · rw [h] at hdiv ⊢
    simpa [signed] using hdiv
  · rw [h] at hdiv ⊢
    simpa [signed] using hdiv

/-- A code that is no NaN is the rounding of its value in every mode, with no flag. -/
theorem Binary.encode_decode (hf : Binary f) (rm : Rounding) {k : Nat} (hk : k < 2 ^ (f.eb + f.fb + 1)) (hn : (f.decode k).isNan = false) :
    f.encode rm (f.decode k) = (k, 0) := by
  have hlt : k % 2 ^ (f.eb + f.fb) < 2 ^ (f.eb + f.fb) := Nat.mod_lt _ (by positivity)
  have hcode := signed_of_lt hk
  rw [hf.decode_eq] at hn ⊢
  split at hn
  · next hmag =>
    split at hn
    · next hfr =>
      rw [if_pos hmag, if_pos hfr]
      have hinf : k % 2 ^ (f.eb + f.fb) = f.maxCode + 1 := by
        have hdiv := Nat.div_add_mod' (k % 2 ^ (f.eb + f.fb)) (2 ^ f.fb)
        rw [(hf.topExponent_iff hlt).mpr hmag, hfr] at hdiv
        rw [← hdiv, hf.maxCode, add_zero]
      rw [hinf] at hcode
      exact congrArg (·, (0 : BitVec 5)) hcode
    · simp [Machine.Num.isNan] at hn
  · next hmag =>
    rw [if_neg hmag, encode_finiteOf rm _ (Nat.le_of_not_lt hmag), hcode]

end

end Sys2Proof.Proofs
end

section
/-! The fixed-point series behind VEXP2, VLOG2 and VTANH (R175, assumption 11): how far below the exact value each of them is, in
units of 2⁻⁴⁰⁰. -/

namespace Sys2Proof.Proofs

open Sys2Proof Sys2Proof.Machine Sys2Proof.Claims

/-! ### Fixed-point values -/

/-- A natural number is a real in fixed point, at most d units below it. -/
def Fixed (v : Nat) (x d : ℝ) : Prop := (v : ℝ) ≤ x * fixOne ∧ x * fixOne ≤ v + d

theorem fixOne_cast : (fixOne : ℝ) = 2 ^ 400 := by norm_num [fixOne, fixBits]

theorem fixOne_eq_pow : (fixOne : ℝ) = 65536 ^ 25 := by
  rw [fixOne_cast, show 400 = 16 * 25 from rfl, pow_mul]; norm_num

theorem fixOne_pos : (0 : ℝ) < fixOne := by rw [fixOne_cast]; positivity

theorem fixOne_pos_nat : 0 < fixOne := by exact_mod_cast fixOne_pos

/-- A quotient of naturals is the real quotient, rounded down. -/
theorem nat_div_bounds (a : Nat) {b : Nat} (hb : 0 < b) : ((a / b : Nat) : ℝ) ≤ a / b ∧ (a : ℝ) / b ≤ (a / b : Nat) + 1 := by
  have hpos : (0 : ℝ) < b := by exact_mod_cast hb
  refine ⟨Nat.cast_div_le, (div_le_iff₀ hpos).mpr ?_⟩
  have h : a ≤ (a / b + 1) * b := by
    rw [add_mul, one_mul]; exact (Nat.lt_div_mul_add hb).le
  exact_mod_cast h

namespace Fixed

variable {v w : Nat} {x y d c : ℝ}

theorem mono (h : Fixed v x d) (hd : d ≤ c) : Fixed v x c := ⟨h.1, h.2.trans (by linarith)⟩

/-- A number of units is itself. -/
theorem exact (v : Nat) : Fixed v (v / fixOne) 0 := by
  rw [Fixed, div_mul_cancel₀ _ fixOne_pos.ne']
  exact ⟨le_rfl, by simp⟩

/-- A real above the one that is approximated. -/
theorem above (h : Fixed v x d) (hxy : x ≤ y) (hd : (y - x) * fixOne ≤ c) : Fixed v y (d + c) :=
  ⟨h.1.trans (mul_le_mul_of_nonneg_right hxy fixOne_pos.le), by linarith [h.2]⟩

theorem add (h : Fixed v x d) (g : Fixed w y c) : Fixed (v + w) (x + y) (d + c) := by
  obtain ⟨h1, h2⟩ := h
  obtain ⟨g1, g2⟩ := g
  rw [Fixed, add_mul]
  push_cast
  exact ⟨add_le_add h1 g1, by linarith⟩

theorem double (h : Fixed v x d) : Fixed (2 * v) (2 * x) (2 * d) := by
  rw [two_mul, two_mul, two_mul]; exact h.add h

theorem div_nat (h : Fixed v x d) {n : Nat} (hn : 0 < n) : Fixed (v / n) (x / n) (d / n + 1) := by
  obtain ⟨h1, h2⟩ := h
  obtain ⟨hlo, hhi⟩ := nat_div_bounds v hn
  have hpos : (0 : ℝ) < n := by exact_mod_cast hn
  rw [Fixed, div_mul_eq_mul_div]
  refine ⟨hlo.trans (div_le_div_of_nonneg_right h1 hpos.le), (div_le_div_of_nonneg_right h2 hpos.le).trans ?_⟩
  rw [add_div]
  linarith

theorem mul (h : Fixed v x d) (g : Fixed w y c) (hx : 0 ≤ x) (hd : 0 ≤ d) :
    Fixed (v * w / fixOne) (x * y) (d * y + x * c + 1) := by
  obtain ⟨h1, h2⟩ := h
  obtain ⟨g1, g2⟩ := g
  have hF := fixOne_pos
  obtain ⟨hlo, hhi⟩ := nat_div_bounds (v * w) fixOne_pos_nat
  push_cast at hlo hhi
  constructor
  · refine hlo.trans ((div_le_iff₀ hF).mpr ?_)
    calc (v : ℝ) * w ≤ (x * fixOne) * (y * fixOne) := mul_le_mul h1 g1 (Nat.cast_nonneg _) (by positivity)
      _ = x * y * fixOne * fixOne := by ring
  · have hprod : x * y * fixOne ≤ v * w / fixOne + (d * y + x * c) := by
      rw [div_add' _ _ _ hF.ne', le_div_iff₀ hF]
      have hw : (0 : ℝ) ≤ w := Nat.cast_nonneg _
      calc x * y * fixOne * fixOne = (x * fixOne) * (y * fixOne - w) + (x * fixOne - v) * w + v * w := by ring
        _ ≤ (x * fixOne) * c + d * w + v * w := by
            gcongr
            · linarith
            · linarith
        _ ≤ (x * fixOne) * c + d * (y * fixOne) + v * w := by gcongr
        _ = v * w + (d * y + x * c) * fixOne := by ring
    linarith

end Fixed

/-! ### The inverse hyperbolic tangent -/

/-- The first term of a sum from an index on. -/
theorem sum_range_from (g : Nat → ℝ) (k n : Nat) :
    ∑ i ∈ Finset.range (n + 1), g (k + i) = g k + ∑ i ∈ Finset.range n, g (k + 1 + i) := by
  rw [Finset.sum_range_succ', add_comm, Nat.add_zero]
  exact congrArg (g k + ·) (Finset.sum_congr rfl fun i _ => by rw [Nat.add_right_comm, Nat.add_assoc])

/-- The terms of the series from a power on, each at most 4 units below. -/
theorem fixed_atanhFrom {x : ℝ} (h0 : 0 ≤ x) (h3 : x ≤ 1 / 3) {zz : Nat} (hz : Fixed zz (x ^ 2) 1) (n : Nat) :
    ∀ {pow k : Nat}, Fixed pow (x ^ (2 * k + 1)) 3 →
      Fixed (atanhFrom n pow zz k) (∑ i ∈ Finset.range n, x ^ (2 * (k + i) + 1) / (2 * (k + i : Nat) + 1 : Nat)) (4 * n) := by
  induction n with
  | zero => intro pow k _; simp [atanhFrom, Fixed]
  | succ n ih =>
    intro pow k hp
    have hpow : x ^ (2 * k + 1) ≤ 1 / 3 := by
      calc x ^ (2 * k + 1) ≤ x ^ 1 := pow_le_pow_of_le_one h0 (by linarith) (by omega)
        _ ≤ 1 / 3 := by linarith
    have hsq : x ^ 2 ≤ 1 / 9 := by nlinarith
    have hnext : Fixed (pow * zz / fixOne) (x ^ (2 * (k + 1) + 1)) 3 := by
      have := (hp.mul hz (by positivity) (by norm_num)).mono (c := 3) (by linarith)
      rwa [← pow_add] at this
    have hterm : Fixed (pow / (2 * k + 1)) (x ^ (2 * k + 1) / (2 * k + 1 : Nat)) 4 := by
      refine (hp.div_nat (Nat.succ_pos _)).mono ?_
      have : (3 : ℝ) / (2 * k + 1 : Nat) ≤ 3 := div_le_self (by norm_num) (by exact_mod_cast Nat.succ_pos _)
      linarith
    rw [sum_range_from (fun j => x ^ (2 * j + 1) / (2 * j + 1 : Nat))]
    exact (hterm.add (ih hnext)).mono (by push_cast; linarith)

/-- atanh grows at most 3/2 as fast as its argument up to 1/3. -/
theorem artanh_sub_le {a b : ℝ} (h0 : 0 ≤ a) (hab : a ≤ b) (h3 : b ≤ 1 / 3) :
    Real.artanh b - Real.artanh a ≤ 3 / 2 * (b - a) := by
  have ha : 0 < (1 + a) / (1 - a) := div_pos (by linarith) (by linarith)
  have hb : 0 < (1 + b) / (1 - b) := div_pos (by linarith) (by linarith)
  rw [Real.artanh_eq_half_log ⟨by linarith, by linarith⟩, Real.artanh_eq_half_log ⟨by linarith, by linarith⟩, ← mul_sub,
    ← Real.log_div hb.ne' ha.ne']
  have hquot : (1 + b) / (1 - b) / ((1 + a) / (1 - a)) - 1 = 2 * (b - a) / ((1 - b) * (1 + a)) := by
    have h1 : 1 - b ≠ 0 := by linarith
    have h2 : 1 - a ≠ 0 := by linarith
    have h4 : 1 + a ≠ 0 := by linarith
    field_simp
    ring
  have hden : (2 : ℝ) / 3 ≤ (1 - b) * (1 + a) := by nlinarith
  calc 1 / 2 * Real.log ((1 + b) / (1 - b) / ((1 + a) / (1 - a)))
      ≤ 1 / 2 * ((1 + b) / (1 - b) / ((1 + a) / (1 - a)) - 1) := by
        gcongr; exact Real.log_le_sub_one_of_pos (div_pos hb ha)
    _ = (b - a) / ((1 - b) * (1 + a)) := by rw [hquot]; ring
    _ ≤ (b - a) / (2 / 3) := div_le_div_of_nonneg_left (by linarith) (by norm_num) hden
    _ = 3 / 2 * (b - a) := by ring

/-- atanhFix of a fixed-point value of at most 1/3. -/
theorem fixed_atanhFix {z : Nat} {y c : ℝ} (hz : Fixed z y c) (h3 : y ≤ 1 / 3) :
    Fixed (atanhFix z) (Real.artanh y) (561 + 3 / 2 * c) := by
  have hF := fixOne_pos
  obtain ⟨hlo, hhi⟩ := hz
  set x : ℝ := z / fixOne with hx
  have hzx : x * fixOne = z := div_mul_cancel₀ _ hF.ne'
  have h0 : 0 ≤ x := by positivity
  have hxy : x ≤ y := by rw [hx, div_le_iff₀ hF]; exact hlo
  have hself : Fixed z x 0 := Fixed.exact z
  have hsq : Fixed (z * z / fixOne) (x ^ 2) 1 := by
    rw [sq]; exact (hself.mul hself h0 le_rfl).mono (by simp)
  have hseries := fixed_atanhFrom h0 (hxy.trans h3) hsq 140 (pow := z) (k := 0) (by simpa using hself.mono (by norm_num))
  have hcast : (∑ i ∈ Finset.range 140, x ^ (2 * (0 + i) + 1) / ((2 * (0 + i : Nat) + 1 : Nat) : ℝ)) =
      ∑ i ∈ Finset.range 140, x ^ (2 * i + 1) / (2 * i + 1) := by
    refine Finset.sum_congr rfl fun i _ => ?_
    push_cast
    simp
  rw [hcast] at hseries
  have hx1 : x < 1 := by linarith
  have hlower := Real.sum_range_le_log_div h0 hx1 140
  have hupper := Real.log_div_le_sum_range_add h0 hx1 140
  rw [← Real.artanh_eq_half_log ⟨by linarith, hx1.le⟩] at hlower hupper
  have hrest : x ^ (2 * 140 + 1) / (1 - x ^ 2) * fixOne ≤ 1 := by
    have hpow : x ^ (2 * 140 + 1) ≤ (1 / 3) ^ 281 := pow_le_pow_left₀ h0 (by linarith) _
    have hden : (8 : ℝ) / 9 ≤ 1 - x ^ 2 := by nlinarith
    calc x ^ (2 * 140 + 1) / (1 - x ^ 2) * fixOne ≤ (1 / 3) ^ 281 / (8 / 9) * fixOne := by gcongr
      _ = ((1 / 3 : ℝ) ^ 5) ^ 56 * (1 / 3) / (8 / 9) * (fixOne : ℝ) := by rw [← pow_mul, ← pow_succ]
      _ ≤ 1 := by rw [fixOne_eq_pow]; norm_num
  have hartanh : Fixed (atanhFix z) (Real.artanh x) 561 := by
    refine (hseries.above hlower (c := 1) ?_).mono (by norm_num)
    exact (mul_le_mul_of_nonneg_right (by linarith) hF.le).trans hrest
  refine hartanh.above ((Real.artanh_le_artanh_iff ⟨by linarith, hx1⟩ ⟨by linarith, by linarith⟩).mpr hxy) ?_
  calc (Real.artanh y - Real.artanh x) * fixOne ≤ 3 / 2 * (y - x) * fixOne := by
        gcongr; exact artanh_sub_le h0 hxy h3
    _ = 3 / 2 * (y * fixOne - z) := by rw [← hzx]; ring
    _ ≤ 3 / 2 * c := by linarith

/-- ln 2 in fixed point. -/
theorem fixed_ln2Fix : Fixed ln2Fix (Real.log 2) 1125 := by
  have hthird : Fixed (fixOne / 3) (1 / 3) 1 := by
    obtain ⟨hlo, hhi⟩ := nat_div_bounds fixOne (b := 3) (by norm_num)
    push_cast at hlo hhi
    exact ⟨by linarith, by linarith⟩
  have hln : 2 * Real.artanh (1 / 3) = Real.log 2 := by
    rw [Real.artanh_eq_half_log ⟨by norm_num, by norm_num⟩, show (1 + 1 / 3) / (1 - 1 / 3) = (2 : ℝ) by norm_num]
    ring
  rw [← hln]
  exact (fixed_atanhFix hthird le_rfl).double.mono (by norm_num)

/-! ### The exponential -/

/-- The terms of the series from a term on: a term is at most twice its index below. -/
theorem fixed_expFrom {xv : Nat} {x : ℝ} (hx : Fixed xv x 0) (h0 : 0 ≤ x) (h1 : x ≤ 1) (n : Nat) :
    ∀ {term k : Nat}, Fixed term (x ^ k / k.factorial) (2 * k) →
      Fixed (expFrom n term xv k) (∑ i ∈ Finset.range n, x ^ (k + i) / (k + i).factorial) (2 * n * (k + n)) := by
  induction n with
  | zero => intro term k _; simp [expFrom, Fixed]
  | succ n ih =>
    intro term k ht
    have hnext : Fixed (term * xv / fixOne / (k + 1)) (x ^ (k + 1) / (k + 1).factorial) (2 * (k + 1 : Nat)) := by
      have hprod := (ht.mul hx (by positivity) (by positivity)).div_nat (Nat.succ_pos k)
      have hval : x ^ k / k.factorial * x / (k + 1 : Nat) = x ^ (k + 1) / (k + 1).factorial := by
        rw [Nat.factorial_succ]
        push_cast
        field_simp
        ring
      rw [Nat.succ_eq_add_one, hval] at hprod
      refine hprod.mono ?_
      have hle : (2 * (k : ℝ) * x + x ^ k / k.factorial * 0 + 1) / (k + 1 : Nat) ≤ 2 * k * x + x ^ k / k.factorial * 0 + 1 :=
        div_le_self (by positivity) (by exact_mod_cast Nat.succ_pos _)
      have hk : 2 * (k : ℝ) * x ≤ 2 * k := mul_le_of_le_one_right (by positivity) h1
      push_cast at hle ⊢
      linarith
    rw [sum_range_from (fun j => x ^ j / (Nat.factorial j : ℝ))]
    refine (ht.add (ih hnext)).mono ?_
    have hn : (0 : ℝ) ≤ n := Nat.cast_nonneg n
    push_cast
    linarith

/-- expFix of a fixed-point value of at most 1. -/
theorem fixed_expFix {xv : Nat} {y c : ℝ} (hx : Fixed xv y c) (h1 : y ≤ 1) :
    Fixed (expFix xv) (Real.exp y) (16201 + 3 * c) := by
  have hF := fixOne_pos
  obtain ⟨hlo, hhi⟩ := hx
  set x : ℝ := xv / fixOne with hxdef
  have hzx : x * fixOne = xv := div_mul_cancel₀ _ hF.ne'
  have h0 : 0 ≤ x := by positivity
  have hxy : x ≤ y := by rw [hxdef, div_le_iff₀ hF]; exact hlo
  have hone : Fixed fixOne (x ^ 0 / (0 : Nat).factorial) (2 * (0 : Nat)) := by simp [Fixed]
  have hseries := fixed_expFrom (Fixed.exact xv) h0 (hxy.trans h1) 90 hone
  simp only [zero_add] at hseries
  have hlower := Real.sum_le_exp_of_nonneg h0 90
  have hupper := Real.exp_bound' h0 (hxy.trans h1) (n := 90) (by norm_num)
  have hrest : x ^ 90 * ((90 : Nat) + 1) / (Nat.factorial 90 * (90 : Nat)) * fixOne ≤ 1 := by
    have hpow : x ^ 90 ≤ 1 := pow_le_one₀ h0 (hxy.trans h1)
    calc x ^ 90 * ((90 : Nat) + 1) / (Nat.factorial 90 * (90 : Nat)) * fixOne
        ≤ 1 * ((90 : Nat) + 1) / (Nat.factorial 90 * (90 : Nat)) * fixOne := by gcongr
      _ ≤ 1 := by rw [fixOne_eq_pow]; norm_num [Nat.factorial]
  have hexp : Fixed (expFix xv) (Real.exp x) 16201 := by
    refine (hseries.above hlower (c := 1) ?_).mono (by norm_num)
    exact (mul_le_mul_of_nonneg_right (by linarith) hF.le).trans hrest
  refine hexp.above (Real.exp_le_exp.mpr hxy) ?_
  have hslope : Real.exp y - Real.exp x ≤ 3 * (y - x) := by
    have hexp1 : Real.exp y ≤ 3 := (Real.exp_le_exp.mpr h1).trans (by linarith [Real.exp_one_lt_d9])
    have hback : Real.exp y * (1 - (y - x)) ≤ Real.exp x := by
      calc Real.exp y * (1 - (y - x)) ≤ Real.exp y * Real.exp (x - y) := by
            gcongr; linarith [Real.add_one_le_exp (x - y)]
        _ = Real.exp x := by rw [← Real.exp_add]; congr 1; ring
    nlinarith
  calc (Real.exp y - Real.exp x) * fixOne ≤ 3 * (y - x) * fixOne := by gcongr
    _ = 3 * (y * fixOne - xv) := by rw [← hzx]; ring
    _ ≤ 3 * c := by linarith

/-- The series begins with 1. -/
theorem fixOne_le_expFix (x : Nat) : fixOne ≤ expFix x := Nat.le_add_right _ _

/-! ### Squares -/

theorem fixed_squareTimes (n : Nat) : ∀ {v : Nat} {t a : ℝ}, 1 ≤ t → 0 ≤ a → Fixed v t (t * a) →
    Fixed (squareTimes n v) (t ^ 2 ^ n) (t ^ 2 ^ n * (2 ^ n * (a + 1))) := by
  induction n with
  | zero =>
    intro v t a ht ha h
    refine (show Fixed (squareTimes 0 v) t (t * a) from h).mono ?_ |> (by simpa using ·)
    nlinarith
  | succ n ih =>
    intro v t a ht ha h
    have hsq : Fixed (v * v / fixOne) (t ^ 2) (t ^ 2 * (2 * a + 1)) := by
      rw [sq]
      refine (h.mul h (by linarith) (by positivity)).mono ?_
      nlinarith
    have := ih (one_le_pow₀ ht) (by positivity) hsq
    rw [← pow_mul, ← pow_succ'] at this
    refine this.mono (le_of_eq ?_)
    ring

theorem fixOne_le_squareTimes (n : Nat) : ∀ {v : Nat}, fixOne ≤ v → fixOne ≤ squareTimes n v := by
  induction n with
  | zero => exact id
  | succ n ih =>
    intro v h
    refine ih ?_
    rw [Nat.le_div_iff_mul_le fixOne_pos_nat]
    exact Nat.mul_le_mul h h

end Sys2Proof.Proofs
end

section
/-! VEXP2, VLOG2 and VTANH (R175): within a relative 2⁻⁸⁰ of the exact value, and exact where it is an integer or a power of two. -/

namespace Sys2Proof.Proofs

open Sys2Proof Sys2Proof.Machine Sys2Proof.Claims

/-! ### Values with a sticky last bit -/

/-- The exact value of ± m × 2^e as a real. -/
noncomputable def realFin (neg : Bool) (m : Nat) (e : Int) : ℝ := (if neg then -1 else 1) * m * (2 : ℝ) ^ e

theorem numVal_realFin (neg : Bool) (m : Nat) (e : Int) : ∃ y : ℚ, numVal (.fin neg m e) = some y ∧ (y : ℝ) = realFin neg m e :=
  ⟨_, numVal_fin neg m e, by rw [realFin]; push_cast [cast_sign]; rfl⟩

theorem near_fin {neg : Bool} {m : Nat} {e : Int} {x : ℝ} (h : |realFin neg m e - x| ≤ |x| / 2 ^ 80) : Near (.fin neg m e) x := by
  obtain ⟨y, hy, hval⟩ := numVal_realFin neg m e
  exact ⟨y, hy, by rwa [hval]⟩

theorem near_fin_exact {neg : Bool} {m : Nat} {e : Int} {x : ℝ} (h : realFin neg m e = x) : Near (.fin neg m e) x :=
  near_fin (by rw [h, sub_self, abs_zero]; positivity)

theorem sticky_eq (neg : Bool) (v : Nat) (e : Int) : sticky neg v e = .fin neg (2 * v + 1) (e - fixBits - 1) := rfl

theorem two_zpow_fixBits (e : Int) : (2 : ℝ) ^ (e - fixBits - 1) = 2 ^ e / fixOne / 2 := by
  rw [zpow_sub_one₀ (by norm_num), zpow_sub₀ (by norm_num), fixOne]
  push_cast
  rw [zpow_natCast]
  rfl

/-- A value and half a unit. -/
theorem realFin_sticky (neg : Bool) (v : Nat) (e : Int) :
    realFin neg (2 * v + 1) (e - fixBits - 1) = (if neg then -1 else 1) * ((v + 1 / 2) / fixOne) * 2 ^ e := by
  rw [realFin, two_zpow_fixBits]
  push_cast
  have := fixOne_pos.ne'
  field_simp

/-- A fixed-point value with a sticky bit is near the real, where the real is many units. -/
theorem near_sticky {v : Nat} {t d : ℝ} (neg : Bool) (e : Int) (h : Fixed v t d) (hd : 0 ≤ d) (ht : (d + 1) * 2 ^ 80 ≤ t * fixOne) :
    Near (sticky neg v e) ((if neg then -1 else 1) * t * 2 ^ e) := by
  obtain ⟨hlo, hhi⟩ := h
  have hF := fixOne_pos
  have he := two_zpow_pos e
  have ht0 : 0 ≤ t := by
    by_contra hneg
    have : t * fixOne < 0 := mul_neg_of_neg_of_pos (not_le.mp hneg) hF
    have : 0 ≤ (d + 1) * 2 ^ 80 := by positivity
    linarith
  have hdist : |((v : ℝ) + 1 / 2) / fixOne - t| ≤ t / 2 ^ 80 := by
    have hscaled : ((v : ℝ) + 1 / 2) / fixOne - t = (v + 1 / 2 - t * fixOne) / fixOne := by field_simp
    rw [hscaled, abs_div, abs_of_pos hF, div_le_iff₀ hF, div_mul_eq_mul_div, le_div_iff₀ (by positivity)]
    refine le_trans (mul_le_mul_of_nonneg_right (abs_le.mpr ⟨?_, ?_⟩) (by positivity)) ht <;> linarith
  rw [sticky_eq]
  refine near_fin ?_
  rw [realFin_sticky, ← sub_mul, ← mul_sub, abs_mul, abs_sign_mul, abs_mul, abs_sign_mul, abs_of_pos he, abs_of_nonneg ht0,
    mul_div_right_comm]
  exact mul_le_mul_of_nonneg_right hdist he.le

/-! ### Numbers split into whole part and fraction -/

theorem splitFix_value (neg : Bool) (m : Nat) {e : Int} (he : -400 ≤ e) :
    (splitFix neg m e).2 < fixOne ∧
      ((splitFix neg m e).1 : ℝ) * fixOne + (splitFix neg m e).2 = realFin neg m e * fixOne := by
  have hbits : (0 : Int) ≤ e + fixBits := by simp only [fixBits]; omega
  have hF : (0 : Int) < fixOne := by exact_mod_cast fixOne_pos_nat
  obtain ⟨v, hv⟩ : ∃ v : Int, v = if neg then -((m * 2 ^ (e + fixBits).toNat : Nat) : Int)
      else ((m * 2 ^ (e + fixBits).toNat : Nat) : Int) := ⟨_, rfl⟩
  have hsplit : splitFix neg m e = (v / (fixOne : Int), (v % (fixOne : Int)).toNat) := by
    simp only [splitFix, if_pos hbits, hv]
  have hvalue : (v : ℝ) = realFin neg m e * fixOne := by
    have hpow : (2 : ℝ) ^ (e + fixBits) = 2 ^ e * fixOne := by
      rw [two_zpow_add, fixOne]; push_cast; rw [zpow_natCast]
    have hnat : (((m * 2 ^ (e + fixBits).toNat : Nat) : Int) : ℝ) = m * 2 ^ e * fixOne := by
      push_cast
      rw [mul_assoc, ← hpow, ← zpow_natCast, Int.toNat_of_nonneg hbits]
    rw [hv, realFin]
    cases neg
    · simp only [Bool.false_eq_true, if_false, hnat, one_mul]
    · simp only [if_true, Int.cast_neg, hnat, neg_mul, one_mul]
  have hmod := Int.emod_nonneg v hF.ne'
  have hlt := Int.emod_lt_of_pos v hF
  rw [hsplit]
  refine ⟨by omega, ?_⟩
  have hcast : (((v % (fixOne : Int)).toNat : Nat) : ℝ) = ((v % (fixOne : Int) : Int) : ℝ) := by
    rw [← Int.cast_natCast, Int.toNat_of_nonneg hmod]
  rw [hcast, ← hvalue]
  have hdiv := Int.ediv_mul_add_emod v fixOne
  exact_mod_cast hdiv

theorem splitFix_nonneg (m : Nat) (e : Int) : 0 ≤ (splitFix false m e).1 := by
  simp only [splitFix, Bool.false_eq_true, if_false]
  split <;> exact Int.ediv_nonneg (Int.natCast_nonneg _) (Int.natCast_nonneg _)

/-- A magnitude is no less than its leading bit, and less than twice that. -/
theorem leading_bounds {m : Nat} (hm : m ≠ 0) (e : Int) :
    (2 : ℝ) ^ (e + Nat.log2 m) ≤ m * 2 ^ e ∧ m * (2 : ℝ) ^ e < 2 ^ (e + Nat.log2 m + 1) := by
  have he := two_zpow_pos e
  have hlo : ((2 ^ Nat.log2 m : Nat) : ℝ) ≤ m := by exact_mod_cast Nat.log2_self_le hm
  have hhi : (m : ℝ) < ((2 ^ (Nat.log2 m + 1) : Nat) : ℝ) := by exact_mod_cast Nat.lt_log2_self
  push_cast at hlo hhi
  rw [add_assoc, two_zpow_add, two_zpow_add, mul_comm, mul_comm ((2 : ℝ) ^ e)]
  refine ⟨?_, ?_⟩
  · rw [zpow_natCast]; exact mul_le_mul_of_nonneg_right hlo he.le
  · rw [← Nat.cast_succ, zpow_natCast]; exact mul_lt_mul_of_pos_right hhi he

theorem abs_realFin (neg : Bool) (m : Nat) (e : Int) : |realFin neg m e| = m * 2 ^ e := by
  rw [realFin, mul_assoc, abs_sign_mul, abs_of_nonneg (by positivity)]

/-! ### VEXP2 -/

/-- 2 to a fraction in fixed point. -/
theorem fixed_exp2 {f : Nat} (hf : f < fixOne) : Fixed (expFix (f * ln2Fix / fixOne)) ((2 : ℝ) ^ ((f : ℝ) / fixOne)) 19579 := by
  have hF := fixOne_pos
  have hfr : (f : ℝ) / fixOne ≤ 1 := (div_le_one hF).mpr (by exact_mod_cast hf.le)
  have h0 : 0 ≤ (f : ℝ) / fixOne := by positivity
  have hlog : Real.log 2 ≤ 1 := by linarith [Real.log_two_lt_d9]
  have hlog0 : 0 ≤ Real.log 2 := by linarith [Real.log_two_gt_d9]
  have harg : Fixed (f * ln2Fix / fixOne) ((f : ℝ) / fixOne * Real.log 2) 1126 :=
    ((Fixed.exact f).mul fixed_ln2Fix h0 le_rfl).mono (by linarith)
  rw [Real.rpow_def_of_pos (by norm_num), mul_comm (Real.log 2)]
  exact (fixed_expFix harg (mul_le_one₀ hfr hlog0 hlog)).mono (by norm_num)

/-- What VEXP2 computes below 2^12: the whole part of the exponent is exact, and a fraction of 0 leaves nothing to compute. -/
theorem fExp2_cases {neg : Bool} {m : Nat} {e : Int} (he : -400 ≤ e) (hx : |realFin neg m e| < 4096) :
    ∃ (w : Int) (f : Nat), f < fixOne ∧ realFin neg m e = w + (f : ℝ) / fixOne ∧
      ((f = 0 ∧ (fExp2 (.fin neg m e)).1 = .fin false 1 w) ∨
       (f ≠ 0 ∧ (fExp2 (.fin neg m e)).1 = sticky false (expFix (f * ln2Fix / fixOne)) w)) := by
  have hF := fixOne_pos
  by_cases hm : m = 0
  · subst hm
    exact ⟨0, 0, fixOne_pos_nat, by simp [realFin], .inl ⟨rfl, by simp [fExp2]⟩⟩
  · have htop : ¬ 12 ≤ e + Nat.log2 m := fun h => by
      rw [abs_realFin] at hx
      have h12 : (2 : ℝ) ^ (12 : Int) ≤ 2 ^ (e + Nat.log2 m) := zpow_le_zpow_right₀ (by norm_num) h
      norm_num at h12
      linarith [(leading_bounds hm e).1]
    obtain ⟨hlt, hval⟩ := splitFix_value neg m he
    refine ⟨(splitFix neg m e).1, (splitFix neg m e).2, hlt, ?_, ?_⟩
    · rw [eq_comm, ← mul_left_inj' hF.ne', add_mul, div_mul_cancel₀ _ hF.ne', hval]
    · simp only [fExp2, if_neg hm, if_neg htop]
      split
      · next h0 => exact .inl ⟨h0, rfl⟩
      · next h0 => exact .inr ⟨h0, rfl⟩

theorem near_fExp2 {neg : Bool} {m : Nat} {e : Int} (he : -400 ≤ e) (hx : |realFin neg m e| < 4096) :
    Near (fExp2 (.fin neg m e)).1 ((2 : ℝ) ^ realFin neg m e) := by
  obtain ⟨w, f, hf, hval, ⟨rfl, hexact⟩ | ⟨-, hsticky⟩⟩ := fExp2_cases he hx
  · rw [hexact, hval]
    exact near_fin_exact (by simp [realFin, Real.rpow_intCast])
  · have hsplit : (2 : ℝ) ^ realFin neg m e = 1 * 2 ^ ((f : ℝ) / fixOne) * 2 ^ w := by
      rw [hval, Real.rpow_add (by norm_num), Real.rpow_intCast, one_mul, mul_comm]
    rw [hsticky, hsplit]
    refine near_sticky false w (fixed_exp2 hf) (by norm_num) ?_
    have hone : (1 : ℝ) ≤ 2 ^ ((f : ℝ) / fixOne) := Real.one_le_rpow (by norm_num) (by positivity)
    have hbig : ((19579 : ℝ) + 1) * 2 ^ 80 ≤ fixOne := by rw [fixOne_eq_pow]; norm_num
    exact hbig.trans (le_mul_of_one_le_left fixOne_pos.le hone)

theorem fExp2_int {neg : Bool} {m : Nat} {e : Int} (he : -400 ≤ e) (hx : |realFin neg m e| < 4096) {i : Int}
    (hi : realFin neg m e = i) : numVal (fExp2 (.fin neg m e)).1 = some ((2 : ℚ) ^ i) := by
  have hF := fixOne_pos
  obtain ⟨w, f, hf, hval, h⟩ := fExp2_cases he hx
  have hfr : (f : ℝ) / fixOne = ((i - w : Int) : ℝ) := by push_cast; linarith
  have hlt : (f : ℝ) / fixOne < 1 := (div_lt_one hF).mpr (by exact_mod_cast hf)
  have h0 : 0 ≤ (f : ℝ) / fixOne := by positivity
  have hiw : i - w = 0 := by
    rw [hfr] at hlt h0
    norm_cast at hlt h0
    omega
  obtain ⟨-, hexact⟩ | ⟨hne, -⟩ := h
  · rw [hexact, numVal_fin, show w = i by omega]
    simp
  · rw [hiw, Int.cast_zero, div_eq_zero_iff, or_iff_left hF.ne'] at hfr
    exact absurd (by exact_mod_cast hfr) hne

/-! ### VLOG2 -/

/-- A quotient (t − 1)/(t + 1) in fixed point. -/
theorem fixed_quotient {s : Nat} {t d : ℝ} (hs : fixOne ≤ s) (h : Fixed s t (t * d)) (ht : 1 ≤ t) :
    Fixed ((s - fixOne) * fixOne / (s + fixOne)) ((t - 1) / (t + 1)) (d + 1) := by
  obtain ⟨hlo, hhi⟩ := h
  have hF := fixOne_pos
  have hs' : (fixOne : ℝ) ≤ s := by exact_mod_cast hs
  have hsF : (0 : ℝ) < s + fixOne := by linarith
  have ht1 : 0 < t + 1 := by linarith
  obtain ⟨hqlo, hqhi⟩ := nat_div_bounds ((s - fixOne) * fixOne) (b := s + fixOne) (by have := fixOne_pos_nat; omega)
  push_cast [Nat.cast_sub hs] at hqlo hqhi
  have hdiff : (t - 1) / (t + 1) * fixOne - (s - fixOne) * fixOne / (s + fixOne) =
      2 * fixOne * (t * fixOne - s) / ((t + 1) * (s + fixOne)) := by
    field_simp
    ring
  constructor
  · refine hqlo.trans (sub_nonneg.mp ?_)
    rw [hdiff]
    exact div_nonneg (mul_nonneg (by linarith) (by linarith)) (by positivity)
  · have hle : 2 * fixOne * (t * fixOne - s) / ((t + 1) * (s + fixOne)) ≤ d := by
      rw [div_le_iff₀ (by positivity)]
      have hd : 0 ≤ d := by
        by_contra hneg
        have : t * d < 0 := mul_neg_of_pos_of_neg (by linarith) (not_le.mp hneg)
        linarith
      calc 2 * fixOne * (t * fixOne - s) ≤ 2 * fixOne * (t * d) := by gcongr; linarith
        _ = d * (t * (fixOne + fixOne)) := by ring
        _ ≤ d * ((t + 1) * (s + fixOne)) := by gcongr; linarith
    linarith

/-- A quotient of fixed-point values, of which the divisor is at least 1/2, is near the quotient of the reals. -/
theorem fixed_div_near {a b : Nat} {x y d c : ℝ} (ha : Fixed a x d) (hb : Fixed b y c) (hx : 0 ≤ x) (hxy : x ≤ y) (hd : 0 ≤ d)
    (hhalf : (fixOne : ℝ) ≤ 2 * b) : |((a * fixOne / b : Nat) : ℝ) - x / y * fixOne| ≤ 2 * (d + c) + 1 := by
  obtain ⟨ha1, ha2⟩ := ha
  obtain ⟨hb1, hb2⟩ := hb
  have hF := fixOne_pos
  have hb0 : (0 : ℝ) < b := by linarith
  have hy : 0 < y := by
    by_contra hneg
    have : y * fixOne ≤ 0 := mul_nonpos_of_nonpos_of_nonneg (not_lt.mp hneg) hF.le
    linarith
  have hc : 0 ≤ c := by linarith
  obtain ⟨hqlo, hqhi⟩ := nat_div_bounds (a * fixOne) (b := b) (by exact_mod_cast hb0)
  push_cast at hqlo hqhi
  have hdiff : (a : ℝ) * fixOne / b - x / y * fixOne = fixOne * (a * y - x * b) / (b * y) := by field_simp
  have hupper : (a : ℝ) * fixOne / b - x / y * fixOne ≤ 2 * c := by
    rw [hdiff, div_le_iff₀ (by positivity)]
    calc fixOne * (a * y - x * b) ≤ fixOne * (x * fixOne * y - x * b) := by gcongr
      _ = fixOne * (x * (y * fixOne - b)) := by ring
      _ ≤ (2 * b) * (y * c) := by gcongr; linarith
      _ = 2 * c * (b * y) := by ring
  have hlower : x / y * fixOne - (a : ℝ) * fixOne / b ≤ 2 * d := by
    rw [← neg_sub, hdiff, ← neg_div, div_le_iff₀ (by positivity)]
    calc -(fixOne * (a * y - x * b)) = fixOne * (x * b - a * y) := by ring
      _ ≤ fixOne * (x * (y * fixOne) - a * y) := by gcongr
      _ = fixOne * ((x * fixOne - a) * y) := by ring
      _ ≤ (2 * b) * (d * y) := by gcongr; linarith
      _ = 2 * d * (b * y) := by ring
  rw [abs_le]
  constructor <;> linarith

/-- What a logarithm of the significand is in fixed point: of m / 2^l, between 1 and 2. -/
def log2Fix (m l : Nat) : Nat :=
  2 * atanhFix ((m * 2 ^ (fixBits - l) - fixOne) * fixOne / (m * 2 ^ (fixBits - l) + fixOne)) * fixOne / ln2Fix

/-- A significand in fixed point is exact. -/
theorem significand_fixed (m : Nat) {l : Nat} (hl : l ≤ 400) : ((m * 2 ^ (fixBits - l) : Nat) : ℝ) = m / 2 ^ l * fixOne := by
  have hpow : (fixOne : ℝ) = 2 ^ (fixBits - l) * 2 ^ l := by
    rw [← pow_add, Nat.sub_add_cancel (by simpa only [fixBits] using hl), fixOne]; push_cast; rfl
  rw [hpow]
  push_cast
  field_simp

theorem log2Fix_near {m l : Nat} (hl : l ≤ 400) (hlo : 2 ^ l ≤ m) (hhi : m ≤ 2 ^ (l + 1)) :
    |(log2Fix m l : ℝ) - Real.logb 2 (m / 2 ^ l) * fixOne| ≤ 4501 := by
  have hF := fixOne_pos
  have hpow : (0 : ℝ) < 2 ^ l := by positivity
  set y : ℝ := m / 2 ^ l with hy
  have hyval := significand_fixed m hl
  have hy1 : 1 ≤ y := by rw [hy, one_le_div hpow]; exact_mod_cast hlo
  have hy2 : y ≤ 2 := by rw [hy, div_le_iff₀ hpow, ← pow_succ']; exact_mod_cast hhi
  have hge : fixOne ≤ m * 2 ^ (fixBits - l) := by
    have : (fixOne : ℝ) ≤ (m * 2 ^ (fixBits - l) : Nat) := by rw [hyval]; exact le_mul_of_one_le_left hF.le hy1
    exact_mod_cast this
  have hfix : Fixed (m * 2 ^ (fixBits - l)) y (y * 0) := by rw [Fixed, hyval, ← hy]; simp
  have hquot := fixed_quotient hge hfix hy1
  have hthird : (y - 1) / (y + 1) ≤ 1 / 3 := by rw [div_le_div_iff₀ (by linarith) (by norm_num)]; linarith
  have hlog : 2 * Real.artanh ((y - 1) / (y + 1)) = Real.log y := by
    have h0 : 0 ≤ (y - 1) / (y + 1) := div_nonneg (by linarith) (by linarith)
    have hy0 : y + 1 ≠ 0 := by linarith
    rw [Real.artanh_eq_half_log ⟨by linarith, by linarith⟩,
      show (1 + (y - 1) / (y + 1)) / (1 - (y - 1) / (y + 1)) = y by
        rw [div_eq_iff (by linarith)]; field_simp; ring]
    ring
  have hnum := (fixed_atanhFix hquot hthird).double
  rw [hlog] at hnum
  have hln := fixed_ln2Fix
  have hhalf : (fixOne : ℝ) ≤ 2 * ln2Fix := by
    have hbig : (22500 : ℝ) ≤ fixOne := by rw [fixOne_eq_pow]; norm_num
    have := mul_le_mul_of_nonneg_right Real.log_two_gt_d9.le hF.le
    linarith [hln.2]
  have hdiv := fixed_div_near hnum hln (Real.log_nonneg hy1) (Real.log_le_log (by linarith) hy2) (by norm_num) hhalf
  rw [← Real.logb] at hdiv
  exact hdiv.trans (by norm_num)

/-- The logarithm of a significand strictly between 1 and 2 keeps away from both ends. -/
theorem logb_significand {m l : Nat} (hlo : 2 ^ l < m) (hhi : m < 2 ^ (l + 1)) (hm : m < 2 ^ 24) :
    1 / 2 ^ 24 ≤ Real.logb 2 (m / 2 ^ l) ∧ Real.logb 2 (m / 2 ^ l) ≤ 1 - 1 / 2 ^ 24 := by
  have hpow : (0 : ℝ) < 2 ^ l := by positivity
  have hm0 : (0 : ℝ) < m := by exact_mod_cast (Nat.zero_le _).trans_lt hlo
  have hlog0 : 0 < Real.log 2 := by linarith [Real.log_two_gt_d9]
  have hlog1 : Real.log 2 ≤ 1 := by linarith [Real.log_two_lt_d9]
  constructor
  · have hm24 : (m : ℝ) ≤ 2 ^ 24 := by exact_mod_cast hm.le
    have hone : (2 : ℝ) ^ l + 1 ≤ m := by exact_mod_cast hlo
    have hlog : 1 / 2 ^ 24 ≤ Real.log (m / 2 ^ l) := by
      calc (1 : ℝ) / 2 ^ 24 ≤ 1 / m := one_div_le_one_div_of_le hm0 hm24
        _ ≤ 1 - ((m : ℝ) / 2 ^ l)⁻¹ := by rw [inv_div, one_sub_div hm0.ne']; gcongr; linarith
        _ ≤ Real.log (m / 2 ^ l) := Real.one_sub_inv_le_log_of_pos (by positivity)
    rw [Real.logb, le_div_iff₀ hlog0]
    exact (mul_le_of_le_one_right (by positivity) hlog1).trans hlog
  · have hl : l + 1 ≤ 24 := Nat.succ_le_of_lt ((Nat.pow_lt_pow_iff_right (a := 2) (by decide)).mp (hlo.trans hm))
    have hpow24 : (2 : ℝ) ^ (l + 1) ≤ 2 ^ 24 := pow_le_pow_right₀ (by norm_num) hl
    have hone : (m : ℝ) + 1 ≤ 2 ^ (l + 1) := by exact_mod_cast hhi
    have hlog : Real.log (m / 2 ^ l / 2) ≤ -(1 / 2 ^ 24) := by
      calc Real.log (m / 2 ^ l / 2) ≤ m / 2 ^ l / 2 - 1 := Real.log_le_sub_one_of_pos (by positivity)
        _ = (m - 2 ^ (l + 1)) / 2 ^ (l + 1) := by rw [pow_succ]; field_simp
        _ ≤ -1 / 2 ^ (l + 1) := by gcongr; linarith
        _ ≤ -(1 / 2 ^ 24) := by rw [neg_div]; gcongr
    rw [Real.log_div (by positivity) (by norm_num)] at hlog
    rw [Real.logb, div_le_iff₀ hlog0]
    have : 1 / 2 ^ 24 * Real.log 2 ≤ 1 / 2 ^ 24 := mul_le_of_le_one_right (by norm_num) hlog1
    linarith

/-- A sum of units of either sign, with a last bit 1 for the rest. -/
theorem realFin_log2 (v : Int) : ∃ (neg : Bool) (n : Nat),
    (if 0 ≤ v then sticky false v.toNat 0 else sticky true (v.natAbs - 1) 0) = .fin neg (2 * n + 1) (0 - fixBits - 1) ∧
      realFin neg (2 * n + 1) (0 - fixBits - 1) = ((v : ℝ) + 1 / 2) / fixOne := by
  by_cases hv : 0 ≤ v
  · refine ⟨false, v.toNat, if_pos hv, ?_⟩
    have hcast : (v.toNat : ℝ) = v := by rw [← Int.cast_natCast, Int.toNat_of_nonneg hv]
    rw [realFin_sticky, hcast]
    simp
  · refine ⟨true, v.natAbs - 1, if_neg hv, ?_⟩
    have hcast : ((v.natAbs - 1 : Nat) : ℝ) = -v - 1 := by
      rw [Nat.cast_sub (by omega), Nat.cast_natAbs, abs_of_neg (by omega)]; push_cast; rfl
    rw [realFin_sticky, hcast, if_pos rfl, zpow_zero]
    ring

/-- The logarithm of a magnitude: that of its leading bit, and that of its significand. -/
theorem logb_magnitude {m : Nat} (hm : m ≠ 0) (e : Int) :
    Real.logb 2 (m * 2 ^ e) = (e + Nat.log2 m : Int) + Real.logb 2 (m / 2 ^ Nat.log2 m) := by
  have hm0 : (m : ℝ) ≠ 0 := by exact_mod_cast hm
  rw [Real.logb_mul hm0 (two_zpow_pos e).ne', Real.logb_div hm0 (by positivity), ← Real.rpow_intCast, ← Real.rpow_natCast,
    Real.logb_rpow (by norm_num) (by norm_num), Real.logb_rpow (by norm_num) (by norm_num)]
  push_cast
  ring

theorem fLog2_power {m : Nat} {e : Int} (hm : m = 2 ^ Nat.log2 m) :
    (fLog2 (.fin false m e)).1 = .ofInt (e + Nat.log2 m) := by
  have hm0 : m ≠ 0 := fun h => by rw [h] at hm; exact absurd hm (by decide)
  simp only [fLog2, if_neg hm0, Bool.false_eq_true, if_false, if_pos hm, Machine.Num.ofInt]

theorem fLog2_other {m : Nat} {e : Int} (hm0 : m ≠ 0) (hm : m ≠ 2 ^ Nat.log2 m) :
    (fLog2 (.fin false m e)).1 =
      (let v : Int := (e + Nat.log2 m) * (fixOne : Int) + (log2Fix m (Nat.log2 m) : Int)
       if 0 ≤ v then sticky false v.toNat 0 else sticky true (v.natAbs - 1) 0) := by
  simp only [fLog2, if_neg hm0, Bool.false_eq_true, if_false, if_neg hm, log2Fix] <;> rfl

theorem numVal_ofInt (i : Int) : numVal (.ofInt i) = some (i : ℚ) := by
  rw [Machine.Num.ofInt, numVal_fin, zpow_zero, mul_one]
  congr 1
  by_cases h : i < 0
  · simp [h, abs_of_neg h]
  · simp [h, abs_of_nonneg (not_lt.mp h)]

theorem near_fLog2 {m : Nat} {e : Int} (hm0 : m ≠ 0) (hm24 : m < 2 ^ 24) :
    Near (fLog2 (.fin false m e)).1 (Real.logb 2 (m * 2 ^ e)) := by
  have hF := fixOne_pos
  have hlog := logb_magnitude hm0 e
  by_cases hm : m = 2 ^ Nat.log2 m
  · rw [fLog2_power hm]
    refine ⟨_, numVal_ofInt _, ?_⟩
    have hone : (m : ℝ) / 2 ^ Nat.log2 m = 1 := by
      rw [div_eq_one_iff_eq (by positivity)]; exact_mod_cast hm
    rw [hlog, hone, Real.logb_one]
    push_cast
    rw [add_zero, sub_self, abs_zero]
    positivity
  · have hlo : 2 ^ Nat.log2 m < m := lt_of_le_of_ne (Nat.log2_self_le hm0) (Ne.symm hm)
    have hhi : m < 2 ^ (Nat.log2 m + 1) := Nat.lt_log2_self
    have hl : Nat.log2 m < 24 := (Nat.log2_lt hm0).mpr hm24
    have hnear := log2Fix_near (by omega) hlo.le hhi.le
    obtain ⟨hfar0, hfar1⟩ := logb_significand hlo hhi hm24
    rw [fLog2_other hm0 hm]
    obtain ⟨neg, n, hnum, hval⟩ := realFin_log2 ((e + Nat.log2 m) * (fixOne : Int) + (log2Fix m (Nat.log2 m) : Int))
    simp only [hnum]
    refine near_fin ?_
    rw [hval, hlog]
    generalize Real.logb 2 (m / 2 ^ Nat.log2 m) = g at *
    generalize log2Fix m (Nat.log2 m) = f at *
    generalize e + (Nat.log2 m : Int) = w at *
    push_cast
    have hdist : |((w : ℝ) * fixOne + f + 1 / 2) / fixOne - (w + g)| ≤ 4502 / fixOne := by
      have hscaled : ((w : ℝ) * fixOne + f + 1 / 2) / fixOne - (w + g) = (f - g * fixOne + 1 / 2) / fixOne := by field_simp; ring
      rw [hscaled, abs_div, abs_of_pos hF]
      gcongr
      exact (abs_add_le _ _).trans (by rw [abs_of_pos (by norm_num : (0 : ℝ) < 1 / 2)]; linarith)
    have hfar : (1 : ℝ) / 2 ^ 24 ≤ |(w : ℝ) + g| := by
      by_cases hw : 0 ≤ w
      · have : (0 : ℝ) ≤ w := by exact_mod_cast hw
        exact le_trans (by linarith) (le_abs_self _)
      · have : (w : ℝ) + 1 ≤ 0 := by exact_mod_cast not_le.mp hw
        exact le_trans (by linarith) (neg_le_abs _)
    calc _ ≤ (4502 : ℝ) / fixOne := hdist
      _ ≤ 1 / 2 ^ 24 / 2 ^ 80 := by rw [fixOne_eq_pow]; norm_num
      _ ≤ |(w : ℝ) + g| / 2 ^ 80 := by gcongr

/-- The logarithm of a power of two is exact. -/
theorem fLog2_pow {m : Nat} {e i : Int} (hm0 : m ≠ 0) (h : (m : ℝ) * 2 ^ e = 2 ^ i) :
    numVal (fLog2 (.fin false m e)).1 = some (i : ℚ) := by
  obtain ⟨hlo, hhi⟩ := leading_bounds hm0 e
  rw [h] at hlo hhi
  have hi : i = e + Nat.log2 m := by
    have h1 := (zpow_le_zpow_iff_right₀ (by norm_num : (1 : ℝ) < 2)).mp hlo
    have h2 := (zpow_lt_zpow_iff_right₀ (by norm_num : (1 : ℝ) < 2)).mp hhi
    omega
  have hm : m = 2 ^ Nat.log2 m := by
    rw [hi, add_comm, two_zpow_add] at h
    have := mul_right_cancel₀ (two_zpow_pos e).ne' h
    rw [zpow_natCast] at this
    exact_mod_cast this
  rw [fLog2_power hm, numVal_ofInt, hi]

/-! ### VTANH -/

theorem tanh_eq_exp (x : ℝ) : Real.tanh x = (Real.exp (2 * x) - 1) / (Real.exp (2 * x) + 1) := by
  have hsq : Real.exp (2 * x) = Real.exp x * Real.exp x := by rw [← Real.exp_add]; congr 1; ring
  have hpos := Real.exp_pos x
  rw [Real.tanh_eq, hsq, Real.exp_neg]
  field_simp

/-- tanh lies just under its argument. -/
theorem tanh_bounds {x : ℝ} (h0 : 0 ≤ x) : x - x ^ 3 / 2 ≤ Real.tanh x ∧ Real.tanh x ≤ x := by
  have hcosh := Real.cosh_pos x
  constructor
  · rw [Real.tanh_eq_sinh_div_cosh, le_div_iff₀ hcosh]
    by_cases hneg : x - x ^ 3 / 2 ≤ 0
    · exact (mul_nonpos_of_nonpos_of_nonneg hneg hcosh.le).trans (Real.sinh_nonneg_iff.mpr h0)
    · have hfactor : (1 - x ^ 2 / 2) * Real.cosh x ≤ 1 := by
        have hexp : 1 - x ^ 2 / 2 ≤ Real.exp (-(x ^ 2 / 2)) := by linarith [Real.add_one_le_exp (-(x ^ 2 / 2))]
        calc (1 - x ^ 2 / 2) * Real.cosh x ≤ Real.exp (-(x ^ 2 / 2)) * Real.exp (x ^ 2 / 2) :=
              mul_le_mul hexp (Real.cosh_le_exp_half_sq x) hcosh.le (Real.exp_pos _).le
          _ = 1 := by rw [← Real.exp_add, neg_add_cancel, Real.exp_zero]
      calc (x - x ^ 3 / 2) * Real.cosh x = x * ((1 - x ^ 2 / 2) * Real.cosh x) := by ring
        _ ≤ x * 1 := by gcongr
        _ ≤ Real.sinh x := by rw [mul_one]; exact Real.self_le_sinh_iff.mpr h0
  · have ht0 : 0 ≤ Real.tanh x := by
      rw [Real.tanh_eq_sinh_div_cosh]; exact div_nonneg (Real.sinh_nonneg_iff.mpr h0) hcosh.le
    have ht1 := Real.tanh_lt_one x
    have hseries := Real.sum_range_le_log_div ht0 ht1 1
    rw [← Real.artanh_eq_half_log ⟨by linarith, ht1.le⟩, Real.artanh_tanh] at hseries
    simpa using hseries

/-- tanh of a number that is not small: at least x / (1 + x). -/
theorem le_tanh {x : ℝ} (h0 : 0 ≤ x) : x / (1 + x) ≤ Real.tanh x := by
  have hexp : 1 + 2 * x ≤ Real.exp (2 * x) := by linarith [Real.add_one_le_exp (2 * x)]
  rw [tanh_eq_exp, div_le_div_iff₀ (by linarith) (by linarith)]
  nlinarith

theorem tanh_realFin (neg : Bool) (m : Nat) (e : Int) :
    Real.tanh (realFin neg m e) = (if neg then -1 else 1) * Real.tanh (m * 2 ^ e) := by
  cases neg
  · simp [realFin]
  · simp [realFin, Real.tanh_neg, neg_mul]

/-- A number with the sign of a real of known magnitude. -/
theorem near_fin_sign {neg : Bool} {m : Nat} {e : Int} {t : ℝ} (ht : 0 ≤ t) (h : |(m : ℝ) * 2 ^ e - t| ≤ t / 2 ^ 80) :
    Near (.fin neg m e) ((if neg then -1 else 1) * t) := by
  refine near_fin ?_
  rw [realFin, mul_assoc, ← mul_sub, abs_sign_mul, abs_sign_mul, abs_of_nonneg ht]
  exact h

/-- Below 2⁻⁶⁰: just under the argument. -/
theorem tanh_small {m : Nat} {e : Int} (hm : m ≠ 0) (htop : e + Nat.log2 m < -60) :
    |((m * 2 ^ 90 - 1 : Nat) : ℝ) * 2 ^ (e - 90) - Real.tanh (m * 2 ^ e)| ≤ Real.tanh (m * 2 ^ e) / 2 ^ 80 := by
  obtain ⟨-, hhi⟩ := leading_bounds hm e
  have he := two_zpow_pos e
  have hm1 : (1 : ℝ) ≤ m := by exact_mod_cast Nat.one_le_iff_ne_zero.mpr hm
  have hx60 : (m : ℝ) * 2 ^ e ≤ 1 / 2 ^ 60 := by
    refine hhi.le.trans ((zpow_le_zpow_right₀ (by norm_num) (show e + Nat.log2 m + 1 ≤ (-60 : Int) by omega)).trans ?_)
    norm_num
  have hval : ((m * 2 ^ 90 - 1 : Nat) : ℝ) * 2 ^ (e - 90) = m * 2 ^ e - 2 ^ e / 2 ^ 90 := by
    have hge : 1 ≤ m * 2 ^ 90 := Nat.one_le_iff_ne_zero.mpr (by positivity)
    rw [Nat.cast_sub hge, zpow_sub₀ (by norm_num)]
    push_cast
    norm_num
    ring
  have hunit : (2 : ℝ) ^ e ≤ m * 2 ^ e := le_mul_of_one_le_left he.le hm1
  rw [hval]
  have hx0 : 0 ≤ (m : ℝ) * 2 ^ e := by positivity
  obtain ⟨hlow, hupp⟩ := tanh_bounds hx0
  generalize (m : ℝ) * 2 ^ e = x at *
  have hcube : x ^ 3 / 2 ≤ x / 2 ^ 100 := by
    have hsq : x ^ 2 ≤ 1 / 2 ^ 100 * 2 := by
      calc x ^ 2 ≤ (1 / 2 ^ 60) ^ 2 := pow_le_pow_left₀ hx0 hx60 2
        _ ≤ 1 / 2 ^ 100 * 2 := by norm_num
    calc x ^ 3 / 2 = x * (x ^ 2 / 2) := by ring
      _ ≤ x * (1 / 2 ^ 100) := mul_le_mul_of_nonneg_left (by linarith) hx0
      _ = x / 2 ^ 100 := by ring
  have hsmall : x / 2 ^ 100 + x / 2 ^ 90 ≤ Real.tanh x / 2 ^ 80 := by
    have : x * (1 - 1 / 2 ^ 100) / 2 ^ 80 ≤ Real.tanh x / 2 ^ 80 := by gcongr; linarith
    refine le_trans ?_ this
    rw [mul_div_assoc, div_eq_mul_inv, div_eq_mul_inv, ← mul_add]
    exact mul_le_mul_of_nonneg_left (by norm_num) hx0
  have hunit90 : (2 : ℝ) ^ e / 2 ^ 90 ≤ x / 2 ^ 90 := by gcongr
  have hunit0 : 0 ≤ (2 : ℝ) ^ e / 2 ^ 90 := by positivity
  have hx100 : 0 ≤ x / 2 ^ 100 := div_nonneg hx0 (by norm_num)
  rw [abs_le]
  constructor <;> linarith

/-- From 2^6 on: just under 1. -/
theorem tanh_large {x : ℝ} (hx : 64 ≤ x) : |((2 ^ 90 - 1 : Nat) : ℝ) * 2 ^ (-90 : Int) - Real.tanh x| ≤ Real.tanh x / 2 ^ 80 := by
  have hexp : (2 : ℝ) ^ 100 ≤ Real.exp (2 * x) := by
    calc (2 : ℝ) ^ 100 ≤ Real.exp 1 ^ 100 := by gcongr; linarith [Real.exp_one_gt_d9]
      _ = Real.exp 100 := by rw [← Real.exp_nat_mul]; norm_num
      _ ≤ Real.exp (2 * x) := Real.exp_le_exp.mpr (by linarith)
  have hlow : 1 - 1 / 2 ^ 99 ≤ Real.tanh x := by
    rw [tanh_eq_exp, le_div_iff₀ (by linarith)]
    nlinarith
  have hupp := Real.tanh_lt_one x
  have hval : ((2 ^ 90 - 1 : Nat) : ℝ) * 2 ^ (-90 : Int) = 1 - 1 / 2 ^ 90 := by norm_num
  rw [hval, abs_le]
  constructor <;> linarith

/-- Between: the square of an exponential, eight times over. -/
theorem fixed_tanh {a : Nat} {x : ℝ} (hx : x * fixOne = 128 * a) (h64 : x ≤ 128) :
    Fixed ((squareTimes 8 (expFix a) - fixOne) * fixOne / (squareTimes 8 (expFix a) + fixOne)) (Real.tanh x) (2 ^ 23) := by
  have hF := fixOne_pos
  have hfix : Fixed a (x / 128) 0 := by
    rw [Fixed, div_mul_eq_mul_div, hx]; constructor <;> linarith
  have hx0 : 0 ≤ x := by
    by_contra hneg
    have : x * fixOne < 0 := mul_neg_of_neg_of_pos (not_le.mp hneg) hF
    have : (0 : ℝ) ≤ 128 * a := by positivity
    linarith
  have hone : 1 ≤ Real.exp (x / 128) := Real.one_le_exp (by positivity)
  have hexp : Fixed (expFix a) (Real.exp (x / 128)) (Real.exp (x / 128) * 16201) :=
    (fixed_expFix hfix (by linarith)).mono (by linarith)
  have hsq := fixed_squareTimes 8 hone (by norm_num) hexp
  have hpow : Real.exp (x / 128) ^ 2 ^ 8 = Real.exp (2 * x) := by
    rw [← Real.exp_nat_mul]; congr 1; push_cast; ring
  rw [hpow] at hsq
  rw [tanh_eq_exp]
  exact (fixed_quotient (fixOne_le_squareTimes 8 (fixOne_le_expFix a)) hsq (Real.one_le_exp (by linarith))).mono (by norm_num)

/-- The argument of VTANH over 128, in fixed point. -/
def tanhArg (m : Nat) (e : Int) : Nat := (splitFix false m (e - 7)).1.toNat * fixOne + (splitFix false m (e - 7)).2

theorem tanhArg_value (m : Nat) {e : Int} (he : -393 ≤ e) : (m : ℝ) * 2 ^ e * fixOne = 128 * tanhArg m e := by
  obtain ⟨-, hval⟩ := splitFix_value false m (e := e - 7) (by omega)
  have hcast : (tanhArg m e : ℝ) = realFin false m (e - 7) * fixOne := by
    rw [tanhArg, ← hval, Nat.cast_add, Nat.cast_mul, ← Int.cast_natCast (splitFix false m (e - 7)).1.toNat,
      Int.toNat_of_nonneg (splitFix_nonneg m (e - 7))]
  rw [hcast, realFin, zpow_sub₀ (by norm_num)]
  simp only [Bool.false_eq_true, if_false]
  norm_num
  ring

/-- Between 2⁻⁶⁰ and 2^6: the quotient with a sticky bit. -/
theorem tanh_middle (neg : Bool) {a : Nat} {x : ℝ} (hx : x * fixOne = 128 * a) (h60 : 1 / 2 ^ 60 ≤ x) (h64 : x ≤ 64) :
    Near (sticky neg ((squareTimes 8 (expFix a) - fixOne) * fixOne / (squareTimes 8 (expFix a) + fixOne)) 0)
      ((if neg then -1 else 1) * Real.tanh x) := by
  have hx0 : 0 ≤ x := le_trans (by norm_num) h60
  have hfar : 1 / 2 ^ 67 ≤ Real.tanh x := by
    refine le_trans ?_ (le_tanh hx0)
    rw [div_le_div_iff₀ (by norm_num) (by linarith)]
    nlinarith
  have hnear := near_sticky neg 0 (fixed_tanh hx (by linarith)) (by norm_num) <| by
    calc ((2 : ℝ) ^ 23 + 1) * 2 ^ 80 ≤ 1 / 2 ^ 67 * fixOne := by rw [fixOne_eq_pow]; norm_num
      _ ≤ Real.tanh x * fixOne := by gcongr
  rwa [zpow_zero, mul_one] at hnear

/-- The three ranges of VTANH, by the exponent of the leading bit. -/
theorem fTanh_cases (neg : Bool) {m : Nat} (e : Int) (hm : m ≠ 0) :
    (fTanh (.fin neg m e)).1 = if e + Nat.log2 m < -60 then .fin neg (m * 2 ^ 90 - 1) (e - 90)
      else if 6 ≤ e + Nat.log2 m then .fin neg (2 ^ 90 - 1) (-90)
      else sticky neg ((squareTimes 8 (expFix (tanhArg m e)) - fixOne) * fixOne /
        (squareTimes 8 (expFix (tanhArg m e)) + fixOne)) 0 := by
  simp only [fTanh, if_neg hm, tanhArg]
  split
  · rfl
  · split <;> rfl

theorem near_fTanh {neg : Bool} {m : Nat} {e : Int} (he : -149 ≤ e) : Near (fTanh (.fin neg m e)).1 (Real.tanh (realFin neg m e)) := by
  rw [tanh_realFin]
  have hx0 : 0 ≤ (m : ℝ) * 2 ^ e := by positivity
  have ht0 : 0 ≤ Real.tanh (m * 2 ^ e) := le_trans (by positivity) (le_tanh hx0)
  by_cases hm : m = 0
  · subst hm
    rw [show (fTanh (.fin neg 0 e)).1 = .fin neg 0 0 from rfl]
    exact near_fin_sign ht0 (by simp)
  · obtain ⟨hlo, hhi⟩ := leading_bounds hm e
    rw [fTanh_cases neg e hm]
    split
    · next hsmall => exact near_fin_sign ht0 (tanh_small hm hsmall)
    · next hsmall =>
      split
      · next hlarge =>
        have h64 : (64 : ℝ) ≤ 2 ^ (e + Nat.log2 m) :=
          le_trans (by norm_num) (zpow_le_zpow_right₀ (by norm_num : (1 : ℝ) ≤ 2) hlarge)
        exact near_fin_sign ht0 (tanh_large (h64.trans hlo))
      · next hlarge =>
        have h60 : (1 : ℝ) / 2 ^ 60 ≤ 2 ^ (e + Nat.log2 m) :=
          le_trans (by norm_num) (zpow_le_zpow_right₀ (by norm_num : (1 : ℝ) ≤ 2) (not_lt.mp hsmall))
        have h64 : (2 : ℝ) ^ (e + Nat.log2 m + 1) ≤ 64 :=
          (zpow_le_zpow_right₀ (by norm_num : (1 : ℝ) ≤ 2) (show e + Nat.log2 m + 1 ≤ 6 by omega)).trans (by norm_num)
        exact tanh_middle neg (tanhArg_value m (by omega)) (h60.trans hlo) (hhi.le.trans h64)

end Sys2Proof.Proofs
end

section
/-! The rounding rules (R68, R91, R175): the statement. -/

namespace Sys2Proof.Proofs

open Sys2Proof Sys2Proof.Machine Sys2Proof.Claims

/-- A finite number of f16, bf16 or f32: a significand below 2^24 over a unit of 2⁻¹⁴⁹ or more. -/
theorem numOf_finite {t : Ty} (ht : t ∈ [Ty.f16, .bf16, .f32]) {k : Nat} {x : ℚ} (h : numVal (numOf t k) = some x) :
    ∃ neg m e, numOf t k = .fin neg m e ∧ m < 2 ^ 24 ∧ -149 ≤ e ∧ (x : ℝ) = realFin neg m e := by
  have hplain : isPlainFloat t ∧ (fmtOf t).fb ≤ 23 ∧ (-149 : Int) ≤ 1 - (fmtOf t).bias - (fmtOf t).fb ∧
      numOf t k = (fmtOf t).decode (k % 2 ^ t.width) := by
    simp only [List.mem_cons, List.not_mem_nil, or_false] at ht
    obtain rfl | rfl | rfl := ht
    · exact ⟨.inl rfl, by decide, by decide, rfl⟩
    · exact ⟨.inr (.inl rfl), by decide, by decide, rfl⟩
    · exact ⟨.inr (.inr (.inl rfl)), by decide, by decide, rfl⟩
  obtain ⟨hfloat, hfb, hmin, hdec⟩ := hplain
  rw [hdec] at h ⊢
  obtain ⟨neg, m, e, hm, he, hval, rfl⟩ := (binary_fmtOf hfloat).1.value_decode h
  refine ⟨neg, m, e, hval, hm.trans_le (Nat.pow_le_pow_right (by decide) (by omega)), hmin.trans he, ?_⟩
  rw [realFin]
  push_cast [cast_sign]
  rfl

/-- A positive number has no sign. -/
theorem realFin_pos {neg : Bool} {m : Nat} {e : Int} (h : 0 < realFin neg m e) : neg = false ∧ m ≠ 0 := by
  have hmag : 0 ≤ (m : ℝ) * 2 ^ e := by positivity
  refine ⟨?_, fun hm => by simp [realFin, hm] at h⟩
  cases neg
  · rfl
  · rw [realFin, if_pos rfl, mul_assoc, neg_one_mul] at h
    linarith

/-- VEXP2, VLOG2 and VTANH of the finite codes of their types (R175). -/
theorem elementary_functions {t : Ty} (ht : t ∈ [Ty.f16, .bf16, .f32]) {k : Nat} {x : ℚ} (h : numVal (numOf t k) = some x) :
    (|x| < 4096 → Near (fExp2 (numOf t k)).1 ((2 : ℝ) ^ (x : ℝ))) ∧
    (0 < x → Near (fLog2 (numOf t k)).1 (Real.logb 2 x)) ∧
    Near (fTanh (numOf t k)).1 (Real.tanh x) ∧
    (∀ i : Int, |x| < 4096 → x = i → numVal (fExp2 (numOf t k)).1 = some ((2 : ℚ) ^ i)) ∧
    (∀ i : Int, x = (2 : ℚ) ^ i → numVal (fLog2 (numOf t k)).1 = some (i : ℚ)) := by
  obtain ⟨neg, m, e, hnum, hm, he, hx⟩ := numOf_finite ht h
  have habs : |x| < 4096 → |realFin neg m e| < 4096 := fun hlt => by rw [← hx]; exact_mod_cast hlt
  have hpos : 0 < x → neg = false ∧ m ≠ 0 := fun h0 => realFin_pos (e := e) (by rw [← hx]; exact_mod_cast h0)
  have hmag : neg = false → (x : ℝ) = m * 2 ^ e := fun hn => by rw [hx, realFin, hn]; simp
  rw [hnum]
  refine ⟨fun hlt => ?_, fun h0 => ?_, ?_, fun i hlt hi => ?_, fun i hi => ?_⟩
  · rw [hx]; exact near_fExp2 (by omega) (habs hlt)
  · obtain ⟨rfl, hm0⟩ := hpos h0
    rw [hmag rfl]
    exact near_fLog2 hm0 hm
  · rw [hx]; exact near_fTanh he
  · exact fExp2_int (by omega) (habs hlt) (by rw [← hx, hi]; simp)
  · obtain ⟨rfl, hm0⟩ := hpos (by rw [hi]; positivity)
    refine fLog2_pow hm0 ?_
    rw [← hmag rfl, hi]
    push_cast
    rfl

/-- Settles O9: the units chosen are nearest on the grid of every finite code, and the fixed-point series of the elementary
functions lose few units. -/
theorem roundingRules : Obligations.RoundingRules := by
  refine ⟨fun t neg m e x ht hx => ?_, fun t n x ht hx => ?_, fun t k x ht hx => elementary_functions ht hx,
    fun t rm k ht hk hn => ?_⟩
  · intro r hov
    obtain ⟨y, hy, hnx, hnear⟩ := encode_standsFor (x := (x : ℝ)) ht (.inl ⟨x, hx, rfl⟩) hov
    refine ⟨y, hy, hnx.trans (by norm_cast), fun k z _ hz => ?_⟩
    have h := hnear k z hz
    norm_cast at h
  · intro r hov
    obtain ⟨y, hy, hnx, hnear⟩ := encode_standsFor ht hx hov
    exact ⟨y, hy, hnx, fun k z _ hz => hnear k z hz⟩
  · obtain ⟨hf, hwidth⟩ := binary_fmtOf ht
    exact hf.encode_decode rm (hwidth ▸ hk) hn

end Sys2Proof.Proofs
end

section
/-! A step of an issuing core: what it fetches it decodes, and runs (R33, R53, R99, R101). -/

namespace Sys2Proof.Proofs

open Sys2Proof Sys2Proof.Machine Sys2Proof.Claims

/-! ### The length of an instruction (R33) -/

/-- What a decoder reads is as long as LEN of its first word says. -/
theorem length_of_reads {w : BitVec 32} {ws : List (BitVec 32)} {i : Instr} {n : Nat} (h : Reads (w :: ws) i n) :
    lengthOf w = n := by
  have hmap {e : Except Reject Instr} {k : Nat} (hk : e.map (·, k) = .ok (i, n)) : k = n := by
    cases e with
    | error => cases hk
    | ok j => exact congrArg Prod.snd (Except.ok.inj hk)
  simp only [Reads, decode] at h
  by_cases hfill : w.toNat % 4 = 3
  · rw [if_pos hfill] at h
    split at h
    · cases h
      simp [lengthOf, hfill]
    · cases h
  · rw [if_neg hfill] at h
    split at h
    · next hlen => simpa [lengthOf, hlen] using hmap h
    · next hlen => simpa [lengthOf, hlen] using hmap h
    · next hlen => simpa [lengthOf, hlen] using hmap h
    · cases h

/-- The first of some words is the number of the first four bytes. -/
theorem wordsOf_head {bs : List Byte} {w : BitVec 32} {ws : List (BitVec 32)} (h : wordsOf bs = w :: ws) :
    BitVec.ofNat 32 (leNat (bs.take 4)) = w := by
  match bs with
  | b0 :: b1 :: b2 :: b3 :: r =>
    obtain ⟨rfl, -⟩ := List.cons.inj h
    apply BitVec.eq_of_toNat_eq
    have h0 := b0.isLt
    have h1 := b1.isLt
    have h2 := b2.isLt
    have h3 := b3.isLt
    simp only [List.take_succ_cons, List.take_zero, leNat, BitVec.toNat_ofNat, BitVec.toNat_append]
    rw [← Nat.shiftLeft_add_eq_or_of_lt h2, ← Nat.shiftLeft_add_eq_or_of_lt h1, ← Nat.shiftLeft_add_eq_or_of_lt h0]
    simp only [Nat.shiftLeft_eq]
    omega
  | [] | [_] | [_, _] | [_, _, _] => cases h

/-- The length by LEN of the bytes that an instruction is read from. -/
theorem lengthOf_bytes {bs : List Byte} {i : Instr} {n : Nat} (h : Reads (wordsOf bs) i n) :
    lengthOf (BitVec.ofNat 32 (leNat (bs.take 4))) = n := by
  cases hw : wordsOf bs with
  | nil => rw [hw] at h; cases h
  | cons w ws =>
    rw [hw] at h
    rw [wordsOf_head hw, length_of_reads h]

/-! ### The slot of a branch (R99) -/

theorem resolveSlot_none {x : Ctx} (h : x.slot = none) (n : Nat) : x.resolveSlot n = x := by
  simp [Ctx.resolveSlot, h]

/-- Resolving a slot leaves one. -/
theorem resolveSlot_some {x : Ctx} {p : SlotPend} (h : x.slot = some p) (n : Nat) : ∃ q, (x.resolveSlot n).slot = some q := by
  simp only [Ctx.resolveSlot, h]
  split
  · exact ⟨p, h⟩
  · exact ⟨_, rfl⟩

theorem resolveSlot_skip (x : Ctx) (n : Nat) : (x.resolveSlot n).skip = x.skip := by
  simp only [Ctx.resolveSlot]
  repeat' split
  all_goals simp

/-! ### Dispatch -/

/-- A well-formed instruction that stands in no slot, or may, runs. -/
theorem dispatchHere_runs {run : Meaning} {s : State} {block : List Byte} {i : Instr} {n : Nat} (hskip : s.here.skip = false)
    (hfits : s.here.pc.toNat % 32 + n ≤ 32) (hreads : Reads (wordsOf (block.drop (s.here.pc.toNat % 32))) i n)
    (hslot : s.here.slot = none ∨ slotForbidden i = false) :
    dispatchHere run s block = run i (s.mapHere (·.resolveSlot n)) := by
  have hlen := lengthOf_bytes hreads
  have hdec : decode (wordsOf (block.drop (s.here.pc.toNat % 32))) = .ok (i, n) := hreads
  simp only [dispatchHere, hlen, Nat.not_lt.mpr hfits, State.here_mapHere, resolveSlot_skip, hskip, hdec, if_false,
    Bool.false_eq_true]
  cases hs : s.here.slot with
  | none => simp only [resolveSlot_none hs, hs]
  | some p =>
    obtain ⟨q, hq⟩ := resolveSlot_some hs n
    have hforb : slotForbidden i = false := hslot.resolve_left (by simp [hs])
    simp only [hq, hforb, Bool.not_false, if_true]

/-- Settles O4: an issuing core with nothing before it dispatches what it has fetched, and a well-formed instruction that
fits its block runs. -/
theorem stepRunsDecoded : Obligations.StepRunsDecoded := by
  intro s v c later block i n hag u ha hs hc hh hw hk hr hf hskip hfits hreads hslot
  rw [step_issue hag, issueHere_dispatches ha hs hc hh hw hk hr hf, dispatchHere_runs hskip hfits hreads hslot]

end Sys2Proof.Proofs
end

section
/-! Integer instructions of the S pipe (R84 to R86): what a function on exact values computes on bits. -/

namespace Sys2Proof.Proofs

open Sys2Proof Sys2Proof.Machine Sys2Proof.Claims

/-! ### The value of some bits in an integer type (R64) -/

/-- The exact value of the bits of a type: signed for i types, unsigned for the others. -/
def valueOf (t : Ty) (b : BitVec t.width) : Int := if t.isSigned then b.toInt else b.toNat

theorem width_pos (t : Ty) : 0 < t.width := by cases t <;> decide

theorem width_le (t : Ty) : t.width ≤ 64 := by cases t <;> decide

/-- The number of the low bits of a word. -/
theorem intOf_toNat (t : Ty) (v : Word) : intOf t v.toNat = valueOf t (v.setWidth t.width) := by
  have hpow : 2 ^ t.width = 2 * 2 ^ (t.width - 1) := by rw [← pow_succ', Nat.sub_add_cancel (width_pos t)]
  simp only [intOf, valueOf, BitVec.toInt_eq_toNat_cond, BitVec.toNat_setWidth]
  generalize v.toNat % 2 ^ t.width = n
  cases t.isSigned with
  | false => rfl
  | true =>
    by_cases h : 2 ^ (t.width - 1) ≤ n
    · rw [if_pos (by simpa using h), if_pos rfl, if_neg (by omega)]
    · rw [if_neg (by simpa using h), if_pos rfl, if_pos (by omega)]

/-- A source of an integer type, negated in 64 bits, is its low bits negated. -/
theorem intOf_source (t : Ty) (m : SrcMod) (v : Word) :
    intOf t (if m.neg then (0 : Word) - v else v).toNat = valueOf t (srcBits t m v) := by
  rw [intOf_toNat, srcBits]
  cases m.neg with
  | false => rfl
  | true => simp [BitVec.zero_sub, BitVec.setWidth_neg_of_le (width_le t)]

/-- The result of an exact value, wrapped and extended. -/
theorem extend_wrapBits (t : Ty) (i : Int) : extend t (wrapBits t.width i) = widen t (BitVec.ofInt t.width i) := by
  rw [wrapBits, ← BitVec.toNat_ofInt, extend, widen, sx64_toNat _ (width_pos t), zx64_toNat]

theorem ofInt_valueOf {t : Ty} (b : BitVec t.width) : BitVec.ofInt t.width (valueOf t b) = b := by
  unfold valueOf
  split
  · exact BitVec.ofInt_toInt
  · rw [BitVec.ofInt_natCast, BitVec.ofNat_toNat, BitVec.setWidth_eq]

theorem bitsInt_eq (t : Ty) (i : Int) : bitsInt t i = (BitVec.ofInt t.width i).toNat := by
  rw [bitsInt, wrapBits, BitVec.toNat_ofInt]

theorem bitsInt_valueOf {t : Ty} (b : BitVec t.width) : bitsInt t (valueOf t b) = b.toNat := by
  rw [bitsInt_eq, ofInt_valueOf]

theorem valueOf_lt {t : Ty} (a b : BitVec t.width) : valueOf t a < valueOf t b ↔ lessThan t a b = true := by
  unfold valueOf lessThan
  split
  · rw [BitVec.slt_iff_toInt_lt]
  · rw [BitVec.ult_iff_lt, BitVec.lt_def, Nat.cast_lt]

theorem valueOf_inj {t : Ty} {a b : BitVec t.width} : valueOf t a = valueOf t b ↔ a = b :=
  ⟨fun h => by rw [← ofInt_valueOf a, h, ofInt_valueOf], fun h => by rw [h]⟩

theorem valueOf_zero (t : Ty) : valueOf t 0 = 0 := by
  simp [valueOf]

theorem valueOf_eq_zero_iff {t : Ty} {b : BitVec t.width} : valueOf t b = 0 ↔ b = 0 := by
  rw [← valueOf_zero t, valueOf_inj]

theorem ofInt_sub (n : Nat) (x y : Int) : BitVec.ofInt n (x - y) = BitVec.ofInt n x - BitVec.ofInt n y := by
  rw [Int.sub_eq_add_neg, BitVec.ofInt_add, BitVec.ofInt_neg, BitVec.sub_eq_add_neg]

/-! ### A row from its function on exact values (R84) -/

section
variable {i : Instr} {o : FmtA} {s : State}

/-- A row completes with f, where its function on the exact values of as many sources as it has gives the bits of f. -/
theorem intDone_of_exec {ops : List Opnd} {F : List Int → Int}
    {f : BitVec o.t.width → BitVec o.t.width → BitVec o.t.width → BitVec o.t.width} (h : exec i s = intOp o ops F s)
    (hF : ∀ vs : List Word, vs.length = ops.length → BitVec.ofInt o.t.width (F (intSources o.t [o.ma, o.mb, o.mc] vs)) =
      f (srcBits o.t o.ma (nth vs 0)) (srcBits o.t o.mb (nth vs 1)) (srcBits o.t o.mc (nth vs 2))) :
    IntDone i o ops s f := by
  intro vs x hd ht
  rw [h, intOp, FmtA.immWord, scalarOp_done hd ht]
  simp only [extend_wrapBits, hF vs (Ctx.take_length ht)]
  rfl

/-- A row of one source. -/
theorem intDone_one {a : Opnd} {F : Int → Int} {f : BitVec o.t.width → BitVec o.t.width}
    (h : exec i s = intOp o [a] (fun xs => F (int1 xs)) s)
    (hF : ∀ u : BitVec o.t.width, BitVec.ofInt o.t.width (F (valueOf o.t u)) = f u) :
    IntDone i o [a] s (fun u _ _ => f u) := by
  refine intDone_of_exec h (fun vs hvs => ?_)
  obtain ⟨v, rfl⟩ := List.length_eq_one_iff.mp hvs
  rw [← hF]
  exact congrArg (fun z => BitVec.ofInt _ (F z)) (intOf_source ..)

/-- A row of two sources. -/
theorem intDone_two {a b : Opnd} {F : Int → Int → Int} {f : BitVec o.t.width → BitVec o.t.width → BitVec o.t.width}
    (h : exec i s = intOp o [a, b] (fun xs => F (int1 xs) (int2 xs)) s)
    (hF : ∀ u v : BitVec o.t.width, BitVec.ofInt o.t.width (F (valueOf o.t u) (valueOf o.t v)) = f u v) :
    IntDone i o [a, b] s (fun u v _ => f u v) := by
  refine intDone_of_exec h (fun vs hvs => ?_)
  obtain ⟨v, w, rfl⟩ := List.length_eq_two.mp hvs
  rw [← hF]
  exact congrArg₂ (fun y z => BitVec.ofInt _ (F y z)) (intOf_source ..) (intOf_source ..)

/-- A row of three sources. -/
theorem intDone_three {a b c : Opnd} {F : Int → Int → Int → Int}
    {f : BitVec o.t.width → BitVec o.t.width → BitVec o.t.width → BitVec o.t.width}
    (h : exec i s = intOp o [a, b, c] (fun xs => F (int1 xs) (int2 xs) (int3 xs)) s)
    (hF : ∀ u v w : BitVec o.t.width, BitVec.ofInt o.t.width (F (valueOf o.t u) (valueOf o.t v) (valueOf o.t w)) = f u v w) :
    IntDone i o [a, b, c] s f := by
  refine intDone_of_exec h (fun vs hvs => ?_)
  obtain ⟨v, w, z, rfl⟩ := List.length_eq_three.mp hvs
  rw [← hF, ← intOf_source, ← intOf_source, ← intOf_source]
  rfl

end

/-! ### The arithmetic rows (R85, R86) -/

section
variable {t : Ty} (a b : BitVec t.width)

theorem ofInt_mulHigh :
    BitVec.ofInt t.width (valueOf t a * valueOf t b / (2 ^ t.width : Nat)) = mulHigh t a b := by
  unfold valueOf mulHigh
  split
  · push_cast
    rfl
  · rw [← Nat.cast_mul, ← Int.natCast_ediv, BitVec.ofInt_natCast]

theorem ofInt_divInt : BitVec.ofInt t.width (divInt (valueOf t a) (valueOf t b)) = quotient t a b := by
  simp only [divInt, quotient, valueOf_eq_zero_iff]
  split
  · exact BitVec.neg_one_eq_allOnes ▸ BitVec.ofInt_neg
  · unfold valueOf
    split
    · apply BitVec.eq_of_toInt_eq
      rw [BitVec.toInt_ofInt, BitVec.toInt_sdiv]
    · rw [← Int.ofNat_tdiv, BitVec.ofInt_natCast]
      exact BitVec.eq_of_toNat_eq (by simp [Nat.mod_eq_of_lt ((Nat.div_le_self ..).trans_lt a.isLt)])

/-- What a division leaves is the dividend less the divisor times the quotient. -/
theorem ofInt_remInt : BitVec.ofInt t.width (remInt (valueOf t a) (valueOf t b)) = remainder t a b := by
  have hquot := ofInt_divInt a b
  simp only [divInt, remInt, remainder, valueOf_eq_zero_iff] at *
  by_cases hb : b = 0
  · simp [hb, ofInt_valueOf]
  · simp only [if_neg hb] at *
    rw [Int.tmod_def, ofInt_sub, BitVec.ofInt_mul, ofInt_valueOf, ofInt_valueOf, hquot]

/-! ### The comparing rows (R85) -/

theorem ofInt_min : BitVec.ofInt t.width (min (valueOf t a) (valueOf t b)) = if lessThan t a b then a else b := by
  rw [min_def_lt]
  simp only [valueOf_lt]
  split <;> exact ofInt_valueOf _

theorem ofInt_max : BitVec.ofInt t.width (max (valueOf t a) (valueOf t b)) = if lessThan t a b then b else a := by
  rw [max_def_lt]
  simp only [valueOf_lt]
  split <;> exact ofInt_valueOf _

theorem ofInt_bool01 (c : Bool) : BitVec.ofInt t.width (bool01 c) = if c then 1 else 0 := by
  cases c <;> rfl

theorem valueOf_beq : (valueOf t a == valueOf t b) = decide (a = b) := by
  rw [Bool.eq_iff_iff, beq_iff_eq, decide_eq_true_iff, valueOf_inj]

end

section
variable (o : FmtA) (s : State)

/-- The arithmetic rows: each is a function on exact values whose result wraps. -/
theorem arithmetic_rows :
    IntDone (.add o) o [o.a, o.b] s (fun a b _ => a + b) ∧
    IntDone (.sub o) o [o.a, o.b] s (fun a b _ => a - b) ∧
    IntDone (.mul o) o [o.a, o.b] s (fun a b _ => a * b) ∧
    IntDone (.mulh o) o [o.a, o.b] s (fun a b _ => mulHigh o.t a b) ∧
    IntDone (.madd o) o [o.a, o.b, o.c] s (fun a b c => a * b + c) ∧
    IntDone (.div o) o [o.a, o.b] s (fun a b _ => quotient o.t a b) ∧
    IntDone (.rem o) o [o.a, o.b] s (fun a b _ => remainder o.t a b) := by
  refine ⟨intDone_two (F := (· + ·)) rfl fun a b => ?_, intDone_two (F := (· - ·)) rfl fun a b => ?_,
    intDone_two (F := (· * ·)) rfl fun a b => ?_,
    intDone_two (F := fun x y => x * y / (2 ^ o.t.width : Nat)) rfl ofInt_mulHigh, intDone_three (F := (· * · + ·)) rfl fun a b c => ?_,
    intDone_two rfl ofInt_divInt, intDone_two rfl ofInt_remInt⟩
  · rw [BitVec.ofInt_add, ofInt_valueOf, ofInt_valueOf]
  · rw [ofInt_sub, ofInt_valueOf, ofInt_valueOf]
  · rw [BitVec.ofInt_mul, ofInt_valueOf, ofInt_valueOf]
  · rw [BitVec.ofInt_add, BitVec.ofInt_mul, ofInt_valueOf, ofInt_valueOf, ofInt_valueOf]

/-- The comparing rows: the order of the exact values is the order of the bits in the signedness of the type. -/
theorem comparing_rows :
    IntDone (.min o) o [o.a, o.b] s (fun a b _ => if lessThan o.t a b then a else b) ∧
    IntDone (.max o) o [o.a, o.b] s (fun a b _ => if lessThan o.t a b then b else a) ∧
    IntDone (.slt o) o [o.a, o.b] s (fun a b _ => if lessThan o.t a b then 1 else 0) ∧
    IntDone (.seq o) o [o.a, o.b] s (fun a b _ => if a = b then 1 else 0) ∧
    IntDone (.sne o) o [o.a, o.b] s (fun a b _ => if a = b then 0 else 1) := by
  refine ⟨intDone_two rfl ofInt_min, intDone_two rfl ofInt_max,
    intDone_two (F := fun x y => bool01 (x < y)) rfl fun a b => ?_,
    intDone_two (F := fun x y => bool01 (x == y)) rfl fun a b => ?_,
    intDone_two (F := fun x y => bool01 (x != y)) rfl fun a b => ?_⟩
  · simp only [ofInt_bool01, decide_eq_true_iff, valueOf_lt]
  · simp only [ofInt_bool01, valueOf_beq, decide_eq_true_iff]
  · simp only [ofInt_bool01, bne, valueOf_beq, Bool.not_eq_true', decide_eq_false_iff_not, ite_not]

end

/-- Settles O6: each row is a function on the exact values of its sources, and wrapping keeps sums, products and order. -/
theorem integerOperations : Obligations.IntegerOperations :=
  ⟨fun o s _ => arithmetic_rows o s, fun o s _ => comparing_rows o s⟩

end Sys2Proof.Proofs
end

section
/-! The bitwise rows, shifts, rotations, counts and extensions (R85), on bits of any width. -/

namespace Sys2Proof.Proofs

open Sys2Proof Sys2Proof.Machine Sys2Proof.Claims

/-! ### Shifts and rotations -/

section
variable {w : Nat} (a b : BitVec w)

theorem ofInt_toNat : BitVec.ofInt w (b.toNat : Int) = b := by
  rw [BitVec.ofInt_natCast, BitVec.ofNat_toNat, BitVec.setWidth_eq]

theorem ofInt_shiftLeft (n : Nat) : BitVec.ofInt w ((a.toNat * 2 ^ n : Nat) : Int) = a <<< n := by
  apply BitVec.eq_of_toNat_eq
  rw [BitVec.ofInt_natCast, BitVec.toNat_ofNat, BitVec.toNat_shiftLeft, Nat.shiftLeft_eq]

theorem ofInt_shiftRight (n : Nat) : BitVec.ofInt w ((a.toNat / 2 ^ n : Nat) : Int) = a >>> n := by
  rw [← Nat.shiftRight_eq_div_pow, ← BitVec.toNat_ushiftRight, ofInt_toNat]

theorem ofInt_sshiftRight (n : Nat) : BitVec.ofInt w (a.toInt / (2 ^ n : Nat)) = a.sshiftRight n := by
  rw [BitVec.sshiftRight, Int.shiftRight_eq_div_pow]

/-- The two parts of a rotation have no bit in common. -/
theorem shifts_disjoint (n : Nat) : a <<< n &&& a >>> (w - n) = 0#w := by
  apply BitVec.eq_of_getLsbD_eq
  intro i hi
  simp only [BitVec.getLsbD_and, BitVec.getLsbD_shiftLeft, BitVec.getLsbD_ushiftRight, BitVec.getLsbD_zero]
  by_cases h : i < n
  · simp [h]
  · rw [BitVec.getLsbD_of_ge a (w - n + i) (by omega), Bool.and_false]

theorem ofInt_rotl {n : Nat} (h : n < w) : BitVec.ofInt w (rotl w a.toNat n : Int) = a.rotateLeft n := by
  apply BitVec.eq_of_toNat_eq
  rw [BitVec.rotateLeft_def, Nat.mod_eq_of_lt h, ← BitVec.add_eq_or_of_and_eq_zero _ _ (shifts_disjoint a n),
    BitVec.ofInt_natCast, BitVec.toNat_ofNat, BitVec.toNat_add, BitVec.toNat_shiftLeft, BitVec.toNat_ushiftRight, rotl,
    Nat.shiftLeft_eq, Nat.shiftRight_eq_div_pow, Nat.mod_mod, Nat.mod_add_mod]

/-- A rotation right is the rotation left by the rest of the width. -/
theorem rotateLeft_sub {n : Nat} (h : n < w) : a.rotateLeft ((w - n) % w) = a.rotateRight n := by
  rw [BitVec.rotateLeft_def, BitVec.rotateRight_def, Nat.mod_mod, Nat.mod_eq_of_lt h]
  obtain rfl | hn := Nat.eq_zero_or_pos n
  · have hshift : a >>> w = 0#w := BitVec.ushiftRight_eq_zero le_rfl
    simp [hshift]
  · rw [Nat.mod_eq_of_lt (by omega), show w - (w - n) = n by omega, BitVec.or_comm]

/-! ### Counts -/

theorem leadingZeros_toNat (hw : 0 < w) : BitVec.ofInt w (leadingZeros w a.toNat : Int) = a.clz := by
  have hlt : w < 2 ^ w := Nat.lt_two_pow_self
  have hnat : ((w : BitVec w)).toNat = w := by simp [Nat.mod_eq_of_lt hlt]
  unfold leadingZeros
  by_cases ha : a = 0#w
  · rw [BitVec.clz_eq_iff_eq_zero.mpr ha, if_pos (by simp [ha]), BitVec.ofInt_natCast]
    rfl
  · have hne : a.toNat ≠ 0 := fun h => ha (BitVec.eq_of_toNat_eq (by simpa using h))
    have hclz : a.clz.toNat < w := (BitVec.lt_def.mp (BitVec.clz_lt_iff_ne_zero.mpr ha)).trans_eq hnat
    have hlog : a.toNat.log2 = w - 1 - a.clz.toNat := by
      refine (Nat.log2_eq_iff hne).mpr ⟨BitVec.two_pow_sub_clz_le_toNat_of_ne_zero hw ha, ?_⟩
      have h := BitVec.toNat_lt_two_pow_sub_clz (x := a)
      rwa [show w - 1 - a.clz.toNat + 1 = w - a.clz.toNat by omega]
    rw [if_neg hne, hlog, show w - 1 - (w - 1 - a.clz.toNat) = a.clz.toNat by omega, ofInt_toNat]

theorem trailingZeros_toNat : BitVec.ofInt w (trailingZeros w a.toNat : Int) = a.ctz := by
  unfold trailingZeros
  by_cases ha : a = 0#w
  · subst ha
    have hctz : (0#w).ctz = (w : BitVec w) := BitVec.clz_eq_iff_eq_zero.mpr (BitVec.reverse_eq_zero_iff.mpr rfl)
    rw [hctz, List.find?_range_eq_none.mpr (by simp), Option.getD_none, BitVec.ofInt_natCast]
    rfl
  · have hctz : a.ctz.toNat < w := by
      have h := BitVec.lt_def.mp (BitVec.ctz_lt_iff_ne_zero.mpr ha)
      exact h.trans_le (by simp)
    have hfind : (List.range w).find? (fun i => a.toNat.testBit i) = some a.ctz.toNat := by
      refine List.find?_range_eq_some.mpr ⟨BitVec.getLsbD_true_ctz_of_ne_zero ha, List.mem_range.mpr hctz, fun j hj => ?_⟩
      rw [BitVec.testBit_toNat, BitVec.getLsbD_false_of_lt_ctz hj, Bool.not_false]
    rw [hfind, Option.getD_some, ofInt_toNat]

theorem cpopNatRec_eq_count (n acc : Nat) :
    a.cpopNatRec n acc = acc + ((List.range n).filter (fun i => a.toNat.testBit i)).length := by
  induction n generalizing acc with
  | zero => rfl
  | succ n ih =>
    rw [BitVec.cpopNatRec_succ, ih, List.range_succ, List.filter_append, List.length_append]
    simp only [List.filter_cons, List.filter_nil, BitVec.testBit_toNat]
    cases a.getLsbD n <;> simp only [Bool.toNat_true, Bool.toNat_false, if_true, Bool.false_eq_true, if_false,
      List.length_cons, List.length_nil] <;> omega

theorem popCount_toNat : BitVec.ofInt w (popCount w a.toNat : Int) = a.cpop := by
  rw [BitVec.cpop, cpopNatRec_eq_count, Nat.zero_add, BitVec.ofInt_natCast]
  rfl

/-! ### Bits and bytes reversed -/

/-- The bits reversed so far are those of the low bits, at the top. -/
theorem reverseBits_prefix {n : Nat} (v : Nat) (h : n ≤ w) :
    (List.range n).foldl (fun r i => if v.testBit i then r + 2 ^ (w - 1 - i) else r) 0 =
      2 ^ (w - n) * (BitVec.ofNat n v).reverse.toNat := by
  induction n with
  | zero => simp [BitVec.toNat_of_zero_length]
  | succ n ih =>
    have hrev : (BitVec.ofNat (n + 1) v).reverse = (BitVec.ofNat n v).reverse.concat (v.testBit n) := by
      rw [BitVec.reverse.eq_2, BitVec.truncate_eq_setWidth, BitVec.setWidth_ofNat_of_le (by omega)]
      congr 1
      simp [BitVec.msb_eq_getLsbD_last, BitVec.getLsbD_ofNat, -BitVec.getLsbD_eq_getElem]
    have hpow : 2 ^ (w - n) = 2 * 2 ^ (w - 1 - n) := by
      rw [← pow_succ', show w - 1 - n + 1 = w - n by omega]
    rw [List.range_succ, List.foldl_append, ih (by omega), hrev, BitVec.toNat_concat, hpow,
      show w - (n + 1) = w - 1 - n by omega]
    simp only [List.foldl_cons, List.foldl_nil]
    cases v.testBit n <;> simp only [if_true, Bool.false_eq_true, if_false, Bool.toNat_true, Bool.toNat_false] <;> ring

theorem reverseBits_toNat : BitVec.ofInt w (reverseBits w a.toNat : Int) = a.reverse := by
  have h := reverseBits_prefix (w := w) a.toNat le_rfl
  rw [Nat.sub_self, pow_zero, one_mul, BitVec.ofNat_toNat, BitVec.setWidth_eq] at h
  rw [reverseBits, h, ofInt_toNat]

/-- A bit of a union. -/
theorem getLsbD_foldl_or (f : Nat → BitVec w) (n j : Nat) :
    ((List.range n).foldl (fun r i => r ||| f i) 0).getLsbD j = true ↔ ∃ i < n, (f i).getLsbD j = true := by
  induction n with
  | zero => simp
  | succ n ih =>
    rw [List.range_succ, List.foldl_append, List.foldl_cons, List.foldl_nil, BitVec.getLsbD_or, Bool.or_eq_true, ih]
    constructor
    · rintro (⟨i, hi, h⟩ | h)
      · exact ⟨i, by omega, h⟩
      · exact ⟨n, by omega, h⟩
    · rintro ⟨i, hi, h⟩
      obtain hlt | rfl := Nat.lt_succ_iff_lt_or_eq.mp hi
      · exact .inl ⟨i, hlt, h⟩
      · exact .inr h

/-- A bit of some bytes, lowest first. -/
theorem testBit_leNat (bs : List Byte) (j : Nat) : (leNat bs).testBit j = (bs.getD (j / 8) 0).getLsbD (j % 8) := by
  induction bs generalizing j with
  | nil => simp [leNat]
  | cons c r ih =>
    have hbits : (leNat (c :: r)).testBit j = if j < 8 then c.toNat.testBit j else (leNat r).testBit (j - 8) := by
      rw [leNat, Nat.add_comm]
      exact Nat.testBit_two_pow_mul_add (i := 8) _ c.isLt j
    rw [hbits]
    by_cases hj : j < 8
    · rw [if_pos hj, Nat.div_eq_of_lt hj, Nat.mod_eq_of_lt hj]
      rfl
    · rw [if_neg hj, ih, show j / 8 = (j - 8) / 8 + 1 by omega, show j % 8 = (j - 8) % 8 by omega]
      rfl

theorem getD_leBytes {n i : Nat} (v : Nat) (h : i < n) : (leBytes n v).getD i 0 = BitVec.ofNat 8 (v / 256 ^ i) := by
  induction n generalizing v i with
  | zero => omega
  | succ n ih =>
    cases i with
    | zero => simp [leBytes]
    | succ i =>
      rw [leBytes, List.getD_cons_succ, ih _ (by omega), Nat.div_div_eq_div_mul, pow_succ']

/-- The bytes in the other order, bit by bit. -/
theorem reverseBytes_toNat (hw : 8 ∣ w) : BitVec.ofInt w (reverseBytes w a.toNat : Int) = swapBytes a := by
  obtain ⟨k, rfl⟩ := hw
  have hk : 8 * k / 8 = k := by omega
  apply BitVec.eq_of_getLsbD_eq
  intro j hj
  have hpow : (256 : Nat) ^ (k - 1 - j / 8) = 2 ^ (8 * (k - 1 - j / 8)) := by norm_num [pow_mul]
  have hleft : (BitVec.ofInt (8 * k) (reverseBytes (8 * k) a.toNat : Int)).getLsbD j =
      a.getLsbD (8 * (k - 1 - j / 8) + j % 8) := by
    rw [BitVec.ofInt_natCast, BitVec.getLsbD_ofNat, decide_eq_true hj, Bool.true_and, reverseBytes, hk, testBit_leNat,
      List.getD_reverse _ (by rw [leBytes_length]; omega), leBytes_length, getD_leBytes _ (by omega), BitVec.getLsbD_ofNat,
      decide_eq_true (Nat.mod_lt j (by decide)), Bool.true_and, hpow, ← Nat.testBit_add, Nat.add_comm,
      BitVec.testBit_toNat]
  rw [hleft, Bool.eq_iff_iff, swapBytes, getLsbD_foldl_or, hk]
  simp only [BitVec.getLsbD_shiftLeft, BitVec.getLsbD_setWidth, BitVec.getLsbD_extractLsb', Bool.and_eq_true,
    decide_eq_true_eq, Bool.not_eq_true', decide_eq_false_iff_not]
  constructor
  · intro h
    refine ⟨k - 1 - j / 8, by omega, ⟨hj, by omega⟩, by omega, by omega, ?_⟩
    rwa [show j - (8 * k - 8 - 8 * (k - 1 - j / 8)) = j % 8 by omega]
  · rintro ⟨i, hi, ⟨-, hlow⟩, -, hbyte, h⟩
    obtain rfl : i = k - 1 - j / 8 := by omega
    rwa [show j - (8 * k - 8 - 8 * (k - 1 - j / 8)) = j % 8 by omega] at h

end

/-! ### On the bits of a type -/

section
variable {t : Ty} (a b : BitVec t.width)

theorem bitsInt_not : bitsInt t (-valueOf t b - 1) = (~~~b).toNat := by
  rw [bitsInt_eq, ofInt_sub, BitVec.ofInt_neg, ofInt_valueOf, BitVec.not_eq_neg_add]
  rfl

theorem shiftAmount_valueOf : shiftAmount t (valueOf t b) = b.toNat % t.width := by
  rw [shiftAmount, bitsInt_valueOf]

theorem shiftAmount_lt : b.toNat % t.width < t.width := Nat.mod_lt _ (width_pos t)

theorem signedInt_valueOf : signedInt t (valueOf t a) = a.toInt := by
  have hpow : 2 ^ t.width = 2 * 2 ^ (t.width - 1) := by rw [← pow_succ', Nat.sub_add_cancel (width_pos t)]
  rw [signedInt, bitsInt_valueOf, BitVec.toInt_eq_toNat_cond]
  by_cases h : 2 ^ (t.width - 1) ≤ a.toNat
  · rw [if_pos h, if_neg (by omega)]
  · rw [if_neg h, if_pos (by omega)]

end

section
variable (o : FmtA) (s : State)

theorem bitwise_rows :
    IntDone (.and o) o [o.a, o.b] s (fun a b _ => a &&& b) ∧
    IntDone (.or o) o [o.a, o.b] s (fun a b _ => a ||| b) ∧
    IntDone (.xor o) o [o.a, o.b] s (fun a b _ => a ^^^ b) ∧
    IntDone (.andn o) o [o.a, o.b] s (fun a b _ => a &&& ~~~b) ∧
    IntDone (.orn o) o [o.a, o.b] s (fun a b _ => a ||| ~~~b) := by
  refine ⟨intDone_two (F := fun x y => (bitsInt o.t x &&& bitsInt o.t y : Nat)) rfl fun a b => ?_,
    intDone_two (F := fun x y => (bitsInt o.t x ||| bitsInt o.t y : Nat)) rfl fun a b => ?_,
    intDone_two (F := fun x y => (bitsInt o.t x ^^^ bitsInt o.t y : Nat)) rfl fun a b => ?_,
    intDone_two (F := fun x y => (bitsInt o.t x &&& bitsInt o.t (-y - 1) : Nat)) rfl fun a b => ?_,
    intDone_two (F := fun x y => (bitsInt o.t x ||| bitsInt o.t (-y - 1) : Nat)) rfl fun a b => ?_⟩
  · rw [bitsInt_valueOf, bitsInt_valueOf, ← BitVec.toNat_and, ofInt_toNat]
  · rw [bitsInt_valueOf, bitsInt_valueOf, ← BitVec.toNat_or, ofInt_toNat]
  · rw [bitsInt_valueOf, bitsInt_valueOf, ← BitVec.toNat_xor, ofInt_toNat]
  · rw [bitsInt_valueOf, bitsInt_not, ← BitVec.toNat_and, ofInt_toNat]
  · rw [bitsInt_valueOf, bitsInt_not, ← BitVec.toNat_or, ofInt_toNat]

theorem shift_rows :
    IntDone (.shl o) o [o.a, o.b] s (fun a b _ => a <<< (b.toNat % o.t.width)) ∧
    IntDone (.shr o) o [o.a, o.b] s (fun a b _ => a >>> (b.toNat % o.t.width)) ∧
    IntDone (.sar o) o [o.a, o.b] s (fun a b _ => a.sshiftRight (b.toNat % o.t.width)) ∧
    IntDone (.rol o) o [o.a, o.b] s (fun a b _ => a.rotateLeft (b.toNat % o.t.width)) ∧
    IntDone (.ror o) o [o.a, o.b] s (fun a b _ => a.rotateRight (b.toNat % o.t.width)) := by
  refine ⟨intDone_two (F := fun x y => (bitsInt o.t x * 2 ^ shiftAmount o.t y : Nat)) rfl fun a b => ?_,
    intDone_two (F := fun x y => (bitsInt o.t x / 2 ^ shiftAmount o.t y : Nat)) rfl fun a b => ?_,
    intDone_two (F := fun x y => signedInt o.t x / (2 ^ shiftAmount o.t y : Nat)) rfl fun a b => ?_,
    intDone_two (F := fun x y => (rotl o.t.width (bitsInt o.t x) (shiftAmount o.t y) : Nat)) rfl fun a b => ?_,
    intDone_two (F := fun x y => (rotl o.t.width (bitsInt o.t x) ((o.t.width - shiftAmount o.t y) % o.t.width) : Nat))
      rfl fun a b => ?_⟩
  · rw [bitsInt_valueOf, shiftAmount_valueOf, ofInt_shiftLeft]
  · rw [bitsInt_valueOf, shiftAmount_valueOf, ofInt_shiftRight]
  · rw [signedInt_valueOf, shiftAmount_valueOf, ofInt_sshiftRight]
  · rw [bitsInt_valueOf, shiftAmount_valueOf, ofInt_rotl a (shiftAmount_lt b)]
  · rw [bitsInt_valueOf, shiftAmount_valueOf, ofInt_rotl a (Nat.mod_lt _ (width_pos o.t)), rotateLeft_sub a (shiftAmount_lt b)]

theorem count_rows :
    IntDone (.clz o) o [o.a] s (fun a _ _ => a.clz) ∧
    IntDone (.ctz o) o [o.a] s (fun a _ _ => a.ctz) ∧
    IntDone (.popc o) o [o.a] s (fun a _ _ => a.cpop) ∧
    IntDone (.brev o) o [o.a] s (fun a _ _ => a.reverse) ∧
    IntDone (.bswap o) o [o.a] s (fun a _ _ => swapBytes a) := by
  have hbytes : 8 ∣ o.t.width := by cases o.t <;> decide
  refine ⟨intDone_one (F := fun x => (leadingZeros o.t.width (bitsInt o.t x) : Nat)) rfl fun a => ?_,
    intDone_one (F := fun x => (trailingZeros o.t.width (bitsInt o.t x) : Nat)) rfl fun a => ?_,
    intDone_one (F := fun x => (popCount o.t.width (bitsInt o.t x) : Nat)) rfl fun a => ?_,
    intDone_one (F := fun x => (reverseBits o.t.width (bitsInt o.t x) : Nat)) rfl fun a => ?_,
    intDone_one (F := fun x => (reverseBytes o.t.width (bitsInt o.t x) : Nat)) rfl fun a => ?_⟩ <;> rw [bitsInt_valueOf]
  · exact leadingZeros_toNat a (width_pos o.t)
  · exact trailingZeros_toNat a
  · exact popCount_toNat a
  · exact reverseBits_toNat a
  · exact reverseBytes_toNat a hbytes

/-- SEXT and ZEXT extend the bits of their source themselves. -/
theorem extOp_done {i : Instr} {f : Nat → Word} {g : BitVec o.t.width → Word} (h : exec i s = extOp o f s)
    (hf : ∀ b : BitVec o.t.width, f b.toNat = g b) :
    ScalarDone i (FmtA.len o) o.d [o.a] (word (immBits o.t o.imm)) (fun vs => g (srcBits o.t o.ma (nth vs 0)))
      (fun _ => 0) s := by
  intro vs x hd ht
  obtain ⟨v, rfl⟩ := List.length_eq_one_iff.mp (Ctx.take_length ht)
  have hsrc : bitsInt o.t (int1 (intSources o.t [o.ma] [v])) = (srcBits o.t o.ma v).toNat :=
    (congrArg (bitsInt o.t) (intOf_source ..)).trans (bitsInt_valueOf _)
  rw [h, extOp, FmtA.immWord, scalarOp_done hd ht, hsrc, hf]
  rfl

theorem extension_rows :
    ScalarDone (.sext o) (FmtA.len o) o.d [o.a] (word (immBits o.t o.imm))
      (fun vs => (srcBits o.t o.ma (nth vs 0)).signExtend 64) (fun _ => 0) s ∧
    ScalarDone (.zext o) (FmtA.len o) o.d [o.a] (word (immBits o.t o.imm))
      (fun vs => (srcBits o.t o.ma (nth vs 0)).setWidth 64) (fun _ => 0) s :=
  ⟨extOp_done o s rfl (fun b => sx64_toNat b (width_pos o.t)), extOp_done o s rfl (fun b => zx64_toNat b)⟩

end

/-- Settles O7: each row is a function on the bits of its sources, and its number is that of the function of bit vectors. -/
theorem bitOperations : Obligations.BitOperations := by
  refine ⟨fun o s _ => ?_, fun o s _ => ?_⟩
  · obtain ⟨hand, hor, hxor, handn, horn⟩ := bitwise_rows o s
    exact ⟨hand, hor, hxor, handn, horn, shift_rows o s⟩
  · obtain ⟨hclz, hctz, hpopc, hbrev, hbswap⟩ := count_rows o s
    exact ⟨hclz, hctz, hpopc, hbrev, hbswap, extension_rows o s⟩

end Sys2Proof.Proofs
end

section
/-! Exact arithmetic on numbers (R68, R91): values of sums, products, quotients and roots, and the order of numbers. -/

namespace Sys2Proof.Proofs

open Sys2Proof Sys2Proof.Machine Sys2Proof.Claims

/-! ### Values -/

/-- A number with a value is finite. -/
theorem finite_of_numVal {a : Machine.Num} {x : ℚ} (h : numVal a = some x) :
    ∃ n m e, a = .fin n m e ∧ x = (if n then -1 else 1) * (m : ℚ) * (2 : ℚ) ^ e := by
  cases a with
  | nan s => cases h
  | inf s => cases h
  | fin n m e => exact ⟨n, m, e, rfl, (Option.some.inj h).symm⟩

/-- An integer over a unit as a number. -/
theorem numVal_intFin (v e : Int) : numVal (.fin (v < 0) v.natAbs e) = some ((v : ℚ) * 2 ^ e) := by
  have h := Option.some.inj (numVal_ofInt v)
  rw [zpow_zero, mul_one] at h
  rw [numVal_fin, h]

/-- A number brought to a smaller unit keeps its value. -/
theorem alignTo_value (n : Bool) (m : Nat) {e e' : Int} (h : e' ≤ e) :
    (alignTo n m e e' : ℚ) * 2 ^ e' = (if n then -1 else 1) * (m : ℚ) * (2 : ℚ) ^ e := by
  have hpow : (2 : ℚ) ^ (e - e').toNat * 2 ^ e' = 2 ^ e := by
    rw [← zpow_natCast, Int.toNat_of_nonneg (by omega), ← zpow_add₀ (by norm_num), sub_add_cancel]
  rw [alignTo]
  cases n
  · push_cast
    rw [one_mul, mul_assoc, hpow]
  · push_cast
    rw [if_pos rfl, if_pos rfl, neg_mul, mul_assoc, hpow]
    ring

/-! ### The order (R92) -/

/-- The order of finite numbers is that of their values. -/
theorem cmpFin_cases (n k : Bool) (m p : Nat) (e f : Int) {x y : ℚ}
    (hx : x = (if n then -1 else 1) * (m : ℚ) * (2 : ℚ) ^ e) (hy : y = (if k then -1 else 1) * (p : ℚ) * (2 : ℚ) ^ f) :
    (cmpFin n m e k p f < 0 ↔ x < y) ∧ (cmpFin n m e k p f = 0 ↔ x = y) := by
  have hpos : (0 : ℚ) < 2 ^ (min e f) := by positivity
  rw [← alignTo_value n m (min_le_left e f)] at hx
  rw [← alignTo_value k p (min_le_right e f)] at hy
  have hlt : x < y ↔ alignTo n m e (min e f) < alignTo k p f (min e f) := by
    rw [hx, hy, mul_lt_mul_iff_of_pos_right hpos, Int.cast_lt]
  have heq : x = y ↔ alignTo n m e (min e f) = alignTo k p f (min e f) := by
    rw [hx, hy, mul_left_inj' hpos.ne', Int.cast_inj]
  rw [hlt, heq, cmpFin]
  split
  · next h => exact ⟨by simpa using h, by simpa using h.ne⟩
  · next h =>
    split
    · next h' => exact ⟨by simp [h'], by simp [h']⟩
    · next h' => exact ⟨by simpa using h, by simpa using h'⟩

/-- Less and equal, of numbers with values. -/
theorem lt_eqv_iff {a b : Machine.Num} {x y : ℚ} (ha : numVal a = some x) (hb : numVal b = some y) :
    (a.lt b = true ↔ x < y) ∧ (a.eqv b = true ↔ x = y) := by
  obtain ⟨n, m, e, rfl, hx⟩ := finite_of_numVal ha
  obtain ⟨k, p, f, rfl, hy⟩ := finite_of_numVal hb
  obtain ⟨hlt, heq⟩ := cmpFin_cases n k m p e f hx hy
  exact ⟨by rw [Machine.Num.lt, decide_eq_true_iff, hlt], by rw [Machine.Num.eqv, beq_iff_eq, heq]⟩

/-- Of two numbers one is not both above and below the other, nor below and equal to it. -/
theorem lt_asymm {a b : Machine.Num} (h : b.lt a = true) : a.lt b = false ∧ a.eqv b = false := by
  cases a with
  | nan s => cases b <;> cases h
  | inf s =>
    cases b with
    | nan k => cases h
    | inf k => revert h; cases s <;> cases k <;> decide
    | fin k p f =>
      have hs : s = false := by simpa [Machine.Num.lt] using h
      exact ⟨by simp [Machine.Num.lt, hs], rfl⟩
  | fin n m e =>
    cases b with
    | nan k => cases h
    | inf k =>
      have hk : k = true := by simpa [Machine.Num.lt] using h
      exact ⟨by simp [Machine.Num.lt, hk], rfl⟩
    | fin k p f =>
      have hba := (lt_eqv_iff (numVal_fin k p f) (numVal_fin n m e)).1.mp h
      obtain ⟨hlt, heq⟩ := lt_eqv_iff (numVal_fin n m e) (numVal_fin k p f)
      rw [← Bool.not_eq_true, ← Bool.not_eq_true, hlt, heq]
      exact ⟨hba.not_gt, hba.ne'⟩

/-! ### Sums and products (R68) -/

/-- The sum of two finite numbers is exact. -/
theorem fAdd_exact {a b : Machine.Num} {x y : ℚ} (ha : numVal a = some x) (hb : numVal b = some y) :
    numVal (fAdd a b).1 = some (x + y) ∧ (fAdd a b).2 = 0 := by
  obtain ⟨n, m, e, rfl, hx⟩ := finite_of_numVal ha
  obtain ⟨k, p, f, rfl, hy⟩ := finite_of_numVal hb
  refine ⟨?_, rfl⟩
  have hsum : (fAdd (.fin n m e) (.fin k p f)).1 = sumFin [(n, m, e), (k, p, f)] := rfl
  rw [hsum, sumFin]
  simp only [List.head?_cons, Option.elim_some, List.foldl_cons, List.foldl_nil, min_self, zero_add]
  rw [← alignTo_value n m (min_le_left e f)] at hx
  rw [← alignTo_value k p (min_le_right e f)] at hy
  rw [hx, hy, ← add_mul, ← Int.cast_add]
  generalize alignTo n m e (min e f) + alignTo k p f (min e f) = v
  split
  · next h => rw [h, numVal_fin]; simp
  · exact numVal_intFin v _

theorem numVal_neg {a : Machine.Num} {x : ℚ} (h : numVal a = some x) : numVal a.neg = some (-x) := by
  obtain ⟨n, m, e, rfl, rfl⟩ := finite_of_numVal h
  rw [Machine.Num.neg, numVal_fin]
  cases n <;> simp

theorem fSub_exact {a b : Machine.Num} {x y : ℚ} (ha : numVal a = some x) (hb : numVal b = some y) :
    numVal (fSub a b).1 = some (x - y) ∧ (fSub a b).2 = 0 := by
  rw [sub_eq_add_neg]
  exact fAdd_exact ha (numVal_neg hb)

/-- The product of two finite numbers is exact. -/
theorem fMul_exact {a b : Machine.Num} {x y : ℚ} (ha : numVal a = some x) (hb : numVal b = some y) :
    numVal (fMul a b).1 = some (x * y) ∧ (fMul a b).2 = 0 := by
  obtain ⟨n, m, e, rfl, rfl⟩ := finite_of_numVal ha
  obtain ⟨k, p, f, rfl, rfl⟩ := finite_of_numVal hb
  refine ⟨?_, rfl⟩
  have hmul : (fMul (.fin n m e) (.fin k p f)).1 = .fin ((false != n) != k) (1 * m * p) (0 + e + f) := rfl
  rw [hmul, numVal_fin, zero_add, zpow_add₀ (by norm_num)]
  congr 1
  push_cast
  cases n <;> cases k <;> simp <;> ring

/-- A fused product is the product, then the sum. -/
theorem fMulAdd_two (a b c : Machine.Num) :
    fMulAdd [a, b] c = ((fAdd (fMul a b).1 c).1, (fMul a b).2 ||| (fAdd (fMul a b).1 c).2) := rfl

theorem fMulAdd_exact {a b c : Machine.Num} {x y z : ℚ} (ha : numVal a = some x) (hb : numVal b = some y)
    (hc : numVal c = some z) : numVal (fMulAdd [a, b] c).1 = some (x * y + z) ∧ (fMulAdd [a, b] c).2 = 0 := by
  obtain ⟨hmul, hflag⟩ := fMul_exact ha hb
  obtain ⟨hsum, hflag'⟩ := fAdd_exact hmul hc
  rw [fMulAdd_two, hflag, hflag']
  exact ⟨hsum, rfl⟩

/-! ### Quotients and roots (R91) -/

/-- A number of bits with a last bit for the rest stands for the real that it was cut from. -/
theorem standsFor_cut {q : Nat} {y : ℝ} {c : Prop} [Decidable c] (n : Bool) (e : Int) (hlo : (q : ℝ) ≤ y) (hhi : y < q + 1)
    (hc : c ↔ (q : ℝ) = y) (hbig : 2 ^ 119 ≤ q) :
    StandsFor (.fin n (2 * q + if c then 0 else 1) (e - 1)) ((if n then -1 else 1) * (y * 2 ^ e)) := by
  have hpow : (2 : ℝ) ^ (e - 1) = 2 ^ e / 2 := zpow_sub_one₀ (by norm_num) e
  have he : (0 : ℝ) < 2 ^ e := two_zpow_pos e
  have hq : (0 : ℝ) < q := by exact_mod_cast (by positivity : 0 < 2 ^ 119).trans_le hbig
  by_cases h : c
  · left
    refine ⟨_, numVal_fin _ _ _, ?_⟩
    rw [if_pos h, ← hc.mp h]
    push_cast [cast_sign]
    rw [hpow]
    ring
  · right
    have hne : (q : ℝ) < y := lt_of_le_of_ne hlo (fun heq => h (hc.mpr heq))
    have hy : 0 < y * 2 ^ e := mul_pos (hq.trans hne) he
    refine ⟨n, _, _, rfl, by rw [if_neg h]; omega, by rw [if_neg h, pow_succ]; omega, ?_, ?_, ?_, ?_⟩
    · rintro rfl; simpa using hy
    · rintro rfl; simpa using hy
    · rw [abs_sign_mul, abs_of_pos hy, if_neg h, hpow]
      push_cast
      linarith [mul_lt_mul_of_pos_right hne he]
    · rw [abs_sign_mul, abs_of_pos hy, if_neg h, hpow]
      push_cast
      linarith [mul_lt_mul_of_pos_right hhi he]

/-- A zero stands for 0. -/
theorem standsFor_zero (n : Bool) (e : Int) {x : ℝ} (h : x = 0) : StandsFor (.fin n 0 e) x :=
  .inl ⟨_, numVal_fin n 0 e, by simp [h]⟩

/-- The quotient of two finite numbers, the divisor not 0. -/
theorem fDiv_standsFor {a b : Machine.Num} {x y : ℚ} (ha : numVal a = some x) (hb : numVal b = some y) (hy : y ≠ 0) :
    StandsFor (fDiv a b).1 ((x : ℝ) / (y : ℝ)) ∧ (fDiv a b).2 = 0 := by
  obtain ⟨n, m, e, rfl, rfl⟩ := finite_of_numVal ha
  obtain ⟨k, p, f, rfl, rfl⟩ := finite_of_numVal hb
  have hp : p ≠ 0 := by rintro rfl; simp at hy
  by_cases hm : m = 0
  · subst hm
    have hdiv : fDiv (.fin n 0 e) (.fin k p f) = (.fin (n != k) 0 0, 0) := by
      simp [fDiv, Machine.Num.isNan, Machine.Num.isNeg, hp]
    rw [hdiv]
    exact ⟨standsFor_zero _ _ (by simp), rfl⟩
  · let sh := guardBits + Nat.log2 p
    have hdiv : fDiv (.fin n m e) (.fin k p f) =
        (.fin (n != k) (2 * (m * 2 ^ sh / p) + if m * 2 ^ sh % p = 0 then 0 else 1) (e - f - sh - 1), 0) := by
      simp [fDiv, Machine.Num.isNan, Machine.Num.isNeg, hp, hm, sh]
    have hp0 : (0 : ℝ) < p := by exact_mod_cast Nat.pos_of_ne_zero hp
    have hsplit : (p : ℝ) * (m * 2 ^ sh / p : Nat) + (m * 2 ^ sh % p : Nat) = m * 2 ^ sh := by
      exact_mod_cast Nat.div_add_mod (m * 2 ^ sh) p
    have hrem : ((m * 2 ^ sh % p : Nat) : ℝ) < p := by exact_mod_cast Nat.mod_lt _ (Nat.pos_of_ne_zero hp)
    have hval : (((if n then -1 else 1) * (m : ℚ) * 2 ^ e : ℚ) : ℝ) / (((if k then -1 else 1) * (p : ℚ) * 2 ^ f : ℚ) : ℝ) =
        (if n != k then -1 else 1) * (m * 2 ^ sh / p * 2 ^ (e - f - sh)) := by
      have hexp : (2 : ℝ) ^ sh * 2 ^ (e - f - sh) = 2 ^ e / 2 ^ f := by
        rw [← zpow_natCast, ← two_zpow_add, ← zpow_sub₀ (by norm_num)]
        congr 1
        ring
      rw [div_mul_eq_mul_div, mul_assoc (m : ℝ), hexp]
      push_cast [cast_sign]
      cases n <;> cases k <;> simp <;> ring
    rw [hdiv, hval]
    refine ⟨standsFor_cut (n != k) _ ?_ ?_ ?_ ?_, rfl⟩
    · rw [le_div_iff₀ hp0]
      nlinarith [Nat.cast_nonneg (α := ℝ) (m * 2 ^ sh % p)]
    · rw [div_lt_iff₀ hp0]
      nlinarith
    · rw [eq_div_iff hp0.ne', ← hsplit, mul_comm _ (p : ℝ), left_eq_add, Nat.cast_eq_zero]
    · have hlog : p < 2 ^ (Nat.log2 p + 1) := Nat.lt_log2_self
      rw [Nat.le_div_iff_mul_le (Nat.pos_of_ne_zero hp)]
      calc 2 ^ 119 * p ≤ 2 ^ 119 * 2 ^ (Nat.log2 p + 1) := Nat.mul_le_mul_left _ hlog.le
        _ ≤ 2 ^ sh := by
          rw [← pow_add]
          exact Nat.pow_le_pow_right (by decide) (by simp only [sh, guardBits]; omega)
        _ ≤ m * 2 ^ sh := Nat.le_mul_of_pos_left _ (Nat.pos_of_ne_zero hm)

/-- The root found bit by bit: what is added to it stays below the bit at hand. -/
theorem isqrtFrom_bounds {n : Nat} (k acc : Nat) (hlo : acc * acc ≤ n) (hhi : n < (acc + 2 ^ k) * (acc + 2 ^ k)) :
    isqrtFrom k n acc * isqrtFrom k n acc ≤ n ∧ n < (isqrtFrom k n acc + 1) * (isqrtFrom k n acc + 1) := by
  induction k generalizing acc with
  | zero =>
    rw [isqrtFrom]
    exact ⟨hlo, by simpa using hhi⟩
  | succ k ih =>
    rw [isqrtFrom]
    split
    · next h => exact ih _ h (by rwa [add_assoc, ← two_mul, ← pow_succ'])
    · next h => exact ih _ hlo (by omega)

/-- The integer root. -/
theorem isqrt_bounds (n : Nat) : isqrt n * isqrt n ≤ n ∧ n < (isqrt n + 1) * (isqrt n + 1) := by
  refine isqrtFrom_bounds _ 0 (by omega) ?_
  rw [zero_add, ← pow_add]
  exact Nat.lt_log2_self.trans_le (Nat.pow_le_pow_right (by decide) (by omega))

/-- The root of a magnitude. -/
theorem sqrtFin_standsFor {m : Nat} (hm : m ≠ 0) (e : Int) : StandsFor (sqrtFin m e) (Real.sqrt (m * 2 ^ e)) := by
  let sh : Nat := 2 * guardBits + (e % 2).toNat
  let n := m * 2 ^ sh
  obtain ⟨hlo, hhi⟩ := isqrt_bounds n
  have hroot : (Real.sqrt n) * Real.sqrt n = n := Real.mul_self_sqrt (Nat.cast_nonneg n)
  have hval : Real.sqrt (m * 2 ^ e) = Real.sqrt n * 2 ^ ((e - sh) / 2) := by
    have hexp : (m : ℝ) * 2 ^ e = n * (2 ^ ((e - sh) / 2)) ^ 2 := by
      have h2 : (e - sh) / 2 * 2 = e - sh := by simp only [sh, guardBits]; omega
      rw [← zpow_natCast, ← zpow_mul, Nat.cast_ofNat, h2]
      simp only [n]
      push_cast
      rw [mul_assoc, ← zpow_natCast, ← two_zpow_add, add_sub_cancel]
    rw [hexp, Real.sqrt_mul (Nat.cast_nonneg n), Real.sqrt_sq (two_zpow_pos _).le]
  have hsq := standsFor_cut (q := isqrt n) (y := Real.sqrt n) (c := isqrt n * isqrt n = n) false ((e - sh) / 2) ?_ ?_ ?_ ?_
  · have hfin : sqrtFin m e = .fin false (2 * isqrt n + if isqrt n * isqrt n = n then 0 else 1) ((e - sh) / 2 - 1) := rfl
    rw [hval, hfin]
    simpa using hsq
  · exact Real.le_sqrt_of_sq_le (by rw [sq]; exact_mod_cast hlo)
  · rw [Real.sqrt_lt' (by positivity), sq]
    exact_mod_cast hhi
  · rw [eq_comm (a := (isqrt n : ℝ)), Real.sqrt_eq_iff_mul_self_eq (Nat.cast_nonneg _) (Nat.cast_nonneg _)]
    exact ⟨fun h => by exact_mod_cast h.symm, fun h => by exact_mod_cast h.symm⟩
  · by_contra h
    have hn : 2 ^ 240 ≤ n :=
      (Nat.pow_le_pow_right (by decide) (by simp only [sh, guardBits]; omega)).trans
        (Nat.le_mul_of_pos_left _ (Nat.pos_of_ne_zero hm))
    have hle : isqrt n + 1 ≤ 2 ^ 119 := by omega
    have := Nat.mul_le_mul hle hle
    omega

theorem fSqrt_standsFor {a : Machine.Num} {x : ℚ} (ha : numVal a = some x) (hneg : a.isNeg = false) :
    StandsFor (fSqrt a).1 (Real.sqrt x) ∧ (fSqrt a).2 = 0 := by
  obtain ⟨n, m, e, rfl, rfl⟩ := finite_of_numVal ha
  obtain rfl : n = false := hneg
  by_cases hm : m = 0
  · subst hm
    exact ⟨standsFor_zero _ _ (by simp), rfl⟩
  · have hroot : fSqrt (.fin false m e) = (sqrtFin m e, 0) := by simp [fSqrt, hm]
    rw [hroot]
    refine ⟨?_, rfl⟩
    have h := sqrtFin_standsFor hm e
    push_cast
    simpa using h

/-! ### The lesser and the greater (R91) -/

section
variable {a b : Machine.Num}

/-- Of two numbers that are no NaN, the lesser is the first if it is below, or equal and negative. -/
theorem fMin_eq (ha : a.isNan = false) (hb : b.isNan = false) :
    fMin a b = if a.lt b || (a.eqv b && a.isNeg) then (a, 0) else (b, 0) := by
  simp [fMin, ha, hb]

theorem fMax_eq (ha : a.isNan = false) (hb : b.isNan = false) :
    fMax a b = if b.lt a || (a.eqv b && !a.isNeg) then (a, 0) else (b, 0) := by
  simp [fMax, ha, hb]

theorem fMin_fMax_of_lt (ha : a.isNan = false) (hb : b.isNan = false) (h : a.lt b = true) :
    fMin a b = (a, 0) ∧ fMax a b = (b, 0) := by
  obtain ⟨hlt, -⟩ := lt_asymm h
  have heqv : a.eqv b = false := by
    cases hab : a.eqv b with
    | false => rfl
    | true => cases a <;> cases b <;> simp_all [Machine.Num.lt, Machine.Num.eqv]
  rw [fMin_eq ha hb, fMax_eq ha hb, h, hlt, heqv]
  exact ⟨rfl, rfl⟩

theorem fMin_fMax_of_gt (ha : a.isNan = false) (hb : b.isNan = false) (h : b.lt a = true) :
    fMin a b = (b, 0) ∧ fMax a b = (a, 0) := by
  obtain ⟨hlt, heqv⟩ := lt_asymm h
  rw [fMin_eq ha hb, fMax_eq ha hb, h, hlt, heqv]
  exact ⟨rfl, rfl⟩

/-- The lesser and the greater of numbers with values are operands, with the lesser and the greater value. -/
theorem fMin_fMax_exact {x y : ℚ} (ha : numVal a = some x) (hb : numVal b = some y) :
    ((fMin a b).1 = a ∨ (fMin a b).1 = b) ∧ numVal (fMin a b).1 = some (min x y) ∧ (fMin a b).2 = 0 ∧
    ((fMax a b).1 = a ∨ (fMax a b).1 = b) ∧ numVal (fMax a b).1 = some (max x y) ∧ (fMax a b).2 = 0 := by
  have hnan {c : Machine.Num} {z : ℚ} (hc : numVal c = some z) : c.isNan = false := by
    obtain ⟨n, m, e, rfl, -⟩ := finite_of_numVal hc
    rfl
  obtain hlt | rfl | hgt := lt_trichotomy x y
  · obtain ⟨hmin, hmax⟩ := fMin_fMax_of_lt (hnan ha) (hnan hb) ((lt_eqv_iff ha hb).1.mpr hlt)
    rw [hmin, hmax, min_eq_left hlt.le, max_eq_right hlt.le]
    exact ⟨.inl rfl, ha, rfl, .inr rfl, hb, rfl⟩
  · have pick (c : Bool) : ((if c then (a, (0 : BitVec 5)) else (b, 0)).1 = a ∨ (if c then (a, (0 : BitVec 5)) else (b, 0)).1 = b) ∧
        numVal (if c then (a, (0 : BitVec 5)) else (b, 0)).1 = some x ∧ (if c then (a, (0 : BitVec 5)) else (b, 0)).2 = 0 := by
      cases c
      · exact ⟨.inr rfl, hb, rfl⟩
      · exact ⟨.inl rfl, ha, rfl⟩
    rw [fMin_eq (hnan ha) (hnan hb), fMax_eq (hnan ha) (hnan hb), min_self, max_self]
    obtain ⟨h1, h2, h3⟩ := pick (a.lt b || (a.eqv b && a.isNeg))
    exact ⟨h1, h2, h3, pick _⟩
  · obtain ⟨hmin, hmax⟩ := fMin_fMax_of_gt (hnan ha) (hnan hb) ((lt_eqv_iff hb ha).1.mpr hgt)
    rw [hmin, hmax, min_eq_right hgt.le, max_eq_left hgt.le]
    exact ⟨.inr rfl, hb, rfl, .inl rfl, ha, rfl⟩

end

/-! ### The rows (R91) -/

section
variable {i : Instr} {o : FmtA} {s : State}

/-- A float row completes with f, where its function on the numbers of as many sources as it has is f. -/
theorem floatDone_of_exec {ops : List Opnd} {F : List Machine.Num → Machine.Num × BitVec 5}
    {f : Machine.Num → Machine.Num → Machine.Num → Machine.Num × BitVec 5} (h : exec i s = floatOp o ops F s)
    (hF : ∀ vs : List Word, vs.length = ops.length →
      F ((vs.zip [o.ma, o.mb, o.mc]).map (fun p => SrcMod.apply p.2 (numOf o.t p.1.toNat))) =
        f (floatSrc o.t o.ma (nth vs 0)) (floatSrc o.t o.mb (nth vs 1)) (floatSrc o.t o.mc (nth vs 2))) :
    FloatDone i o ops s f := by
  intro vs x hd ht
  rw [h, floatOp, FmtA.immWord, scalarOp_done hd ht]
  simp only [hF vs (Ctx.take_length ht)]

theorem floatDone_one {a : Opnd} {f : Machine.Num → Machine.Num × BitVec 5}
    (h : exec i s = floatOp o [a] (fun xs => f (num1 xs)) s) : FloatDone i o [a] s (fun x _ _ => f x) := by
  refine floatDone_of_exec h (fun vs hvs => ?_)
  obtain ⟨v, rfl⟩ := List.length_eq_one_iff.mp hvs
  rfl

theorem floatDone_two {a b : Opnd} {f : Machine.Num → Machine.Num → Machine.Num × BitVec 5}
    (h : exec i s = floatOp o [a, b] (fun xs => f (num1 xs) (num2 xs)) s) : FloatDone i o [a, b] s (fun x y _ => f x y) := by
  refine floatDone_of_exec h (fun vs hvs => ?_)
  obtain ⟨v, w, rfl⟩ := List.length_eq_two.mp hvs
  rfl

theorem floatDone_three {a b c : Opnd} {f : Machine.Num → Machine.Num → Machine.Num → Machine.Num × BitVec 5}
    (h : exec i s = floatOp o [a, b, c] (fun xs => f (num1 xs) (num2 xs) (num3 xs)) s) : FloatDone i o [a, b, c] s f := by
  refine floatDone_of_exec h (fun vs hvs => ?_)
  obtain ⟨v, w, z, rfl⟩ := List.length_eq_three.mp hvs
  rfl

end

/-! ### Special results (R91) -/

/-- Of two zeros the negative one is the lesser, the positive one the greater. -/
theorem fMin_fMax_zeros (e e' : Int) :
    fMin (.fin true 0 e) (.fin false 0 e') = (.fin true 0 e, 0) ∧
    fMin (.fin false 0 e) (.fin true 0 e') = (.fin true 0 e', 0) ∧
    fMax (.fin true 0 e) (.fin false 0 e') = (.fin false 0 e', 0) ∧
    fMax (.fin false 0 e) (.fin true 0 e') = (.fin false 0 e, 0) := by
  have hzero (n : Bool) (f : Int) : numVal (.fin n 0 f) = some 0 := by rw [numVal_fin]; simp
  have heqv (n k : Bool) (f f' : Int) : (Machine.Num.fin n 0 f).eqv (.fin k 0 f') = true :=
    (lt_eqv_iff (hzero n f) (hzero k f')).2.mpr rfl
  have hlt (n k : Bool) (f f' : Int) : (Machine.Num.fin n 0 f).lt (.fin k 0 f') = false := by
    rw [← Bool.not_eq_true, (lt_eqv_iff (hzero n f) (hzero k f')).1]
    exact lt_irrefl _
  simp only [fMin, fMax, Machine.Num.isNan, Machine.Num.isNeg, hlt, heqv]
  exact ⟨rfl, rfl, rfl, rfl⟩

/-- Sums, products and fused products that are invalid. -/
theorem invalid_sums_products (n k : Bool) (e : Int) (c : Machine.Num) :
    fAdd (.inf n) (.inf (!n)) = (.nan false, flagNV) ∧
    fSub (.inf n) (.inf n) = (.nan false, flagNV) ∧
    fMul (.fin n 0 e) (.inf k) = (.nan false, flagNV) ∧
    fMul (.inf k) (.fin n 0 e) = (.nan false, flagNV) ∧
    (fMulAdd [.fin n 0 e, .inf k] c).1 = .nan false ∧ (fMulAdd [.fin n 0 e, .inf k] c).2 = flagNV ∧
    fMulAdd [.fin false 1 0, .inf n] (.inf (!n)) = (.nan false, flagNV) := by
  have hmul : fMul (.fin n 0 e) (.inf k) = (.nan false, flagNV) := by
    simp [fMul, mulNum, Machine.Num.isInf, Machine.Num.isZero, nvOf, Machine.Num.isSignalling, flagIf]
  have hmul' : fMul (.inf k) (.fin n 0 e) = (.nan false, flagNV) := by
    simp [fMul, mulNum, Machine.Num.isInf, Machine.Num.isZero, nvOf, Machine.Num.isSignalling, flagIf]
  have hsum : fAdd (.nan false) c = (.nan false, if c.isSignalling then flagNV else 0) := by
    cases c with
    | nan s => cases s <;> rfl
    | inf s => cases s <;> rfl
    | fin s m f => rfl
  have hflag : flagNV ||| (if c.isSignalling then flagNV else 0) = flagNV := by
    cases c.isSignalling <;> decide
  refine ⟨?_, ?_, hmul, hmul', ?_, ?_, ?_⟩
  · cases n <;> decide
  · cases n <;> decide
  · rw [fMulAdd_two, hmul, hsum]
  · rw [fMulAdd_two, hmul, hsum, hflag]
  · cases n <;> decide

/-- Quotients of zeros and infinities. -/
theorem special_quotients (n k : Bool) (m : Nat) (e e' : Int) :
    fDiv (.fin n 0 e) (.fin k 0 e') = (.nan false, flagNV) ∧
    fDiv (.inf n) (.inf k) = (.nan false, flagNV) ∧
    (m ≠ 0 → fDiv (.fin n m e) (.fin k 0 e') = (.inf (n != k), flagDZ)) ∧
    fDiv (.inf n) (.fin k m e) = (.inf (n != k), 0) ∧
    (fDiv (.fin n m e) (.inf k)).1.isZero = true ∧ (fDiv (.fin n m e) (.inf k)).1.isNeg = (n != k) ∧
    (fDiv (.fin n m e) (.inf k)).2 = 0 :=
  ⟨rfl, rfl, fun h => by simp [fDiv, Machine.Num.isNan, Machine.Num.isNeg, h], rfl, rfl, rfl, rfl⟩

/-- A NaN is passed on by FMIN and FMAX. -/
theorem fMin_fMax_nan {a b : Machine.Num} (h : (a.isNan || b.isNan) = true) :
    fMin a b = (.nan false, if anySignalling a b then flagNV else 0) ∧
    fMax a b = (.nan false, if anySignalling a b then flagNV else 0) := by
  simp [fMin, fMax, h, nvOf, flagIf, anySignalling]

/-- Settles O10: each row is one operation on numbers; sums and products are exact, quotients and roots are cut to the bits
that a last bit completes, and the special cases are the operations' own. -/
theorem floatOperations : Obligations.FloatOperations := by
  refine ⟨fun o s => ⟨floatDone_two rfl, floatDone_two rfl, floatDone_two rfl, floatDone_two rfl, floatDone_one rfl,
      floatDone_two rfl, floatDone_two rfl, floatDone_three rfl⟩,
    fun a b c x y z ha hb hc => ?_, fun a b e e' => ?_, fun n k m e e' a b c => ?_⟩
  · obtain ⟨hadd, haddf⟩ := fAdd_exact ha hb
    obtain ⟨hsub, hsubf⟩ := fSub_exact ha hb
    obtain ⟨hmul, hmulf⟩ := fMul_exact ha hb
    obtain ⟨hfma, hfmaf⟩ := fMulAdd_exact ha hb hc
    exact ⟨hadd, haddf, hsub, hsubf, hmul, hmulf, hfma, hfmaf, fDiv_standsFor ha hb, fun _ => fSqrt_standsFor ha,
      fMin_fMax_exact ha hb⟩
  · exact ⟨fun ha hb => ⟨fMin_fMax_of_lt ha hb, fMin_fMax_of_gt ha hb⟩, fMin_fMax_zeros e e'⟩
  · obtain ⟨hadd, hsub, hmul, hmul', hfma⟩ := invalid_sums_products n k e c
    obtain ⟨hzz, hii, hdz, hif, hfi⟩ := special_quotients n k m e e'
    obtain ⟨hz, hneg, hflag⟩ := hfi
    exact ⟨hadd, hsub, hmul, hmul', hzz, hii, hdz, hif, hz, hneg, hflag, rfl, rfl, rfl, rfl,
      fun h => by simp [fSqrt, h], rfl, hfma.1, hfma.2.1, hfma.2.2, fMin_fMax_nan⟩

end Sys2Proof.Proofs
end

section
/-! Comparisons, conversions and classes of numbers (R66, R70, R71, R74, R92 to R94). -/

namespace Sys2Proof.Proofs

open Sys2Proof Sys2Proof.Machine Sys2Proof.Claims

/-! ### Comparisons (R92) -/

section
variable {i : Instr} {o : FmtA} {s : State}

/-- A comparison completes with the relation and the flag of its function on the numbers of its sources. -/
theorem compareDone_of_exec {F : Machine.Num → Machine.Num → Bool × BitVec 5} {f nv : Machine.Num → Machine.Num → Bool}
    (h : exec i s = fcmpOp o F s) (hF : ∀ a b, F a b = (f a b, if nv a b then flagNV else 0)) : CompareDone i o s f nv := by
  intro vs x hd ht
  obtain ⟨v, w, rfl⟩ := List.length_eq_two.mp (Ctx.take_length ht)
  rw [h, fcmpOp, FmtA.immWord, scalarOp_done hd ht]
  simp only [hF]
  rfl

end

theorem nvOf_two (a b : Machine.Num) : nvOf [a, b] = if anySignalling a b then flagNV else 0 := by
  simp [nvOf, flagIf, anySignalling]

theorem compare_rows (o : FmtA) (s : State) :
    CompareDone (.fcmpEq o) o s (fun a b => a.eqv b) anySignalling ∧
    CompareDone (.fcmpLt o) o s (fun a b => a.lt b) anyNan ∧
    CompareDone (.fcmpLe o) o s (fun a b => a.lt b || a.eqv b) anyNan ∧
    CompareDone (.fcmpUn o) o s anyNan anySignalling :=
  ⟨compareDone_of_exec (F := cmpEq) rfl fun a b => congrArg (Prod.mk _) (nvOf_two a b),
    compareDone_of_exec (F := cmpLt) rfl fun _ _ => rfl, compareDone_of_exec (F := cmpLe) rfl fun _ _ => rfl,
    compareDone_of_exec (F := cmpUn) rfl fun a b => congrArg (Prod.mk _) (nvOf_two a b)⟩

/-- The order of infinities and NaNs. -/
theorem special_order (a : Machine.Num) (n k c : Bool) (m : Nat) (e : Int) :
    (Machine.Num.inf n).lt (.fin k m e) = n ∧ (Machine.Num.fin k m e).lt (.inf n) = !n ∧
    (Machine.Num.inf n).lt (.inf k) = (n && !k) ∧ (Machine.Num.inf n).eqv (.inf k) = (n == k) ∧
    (Machine.Num.inf n).eqv (.fin k m e) = false ∧ (Machine.Num.fin k m e).eqv (.inf n) = false ∧
    (Machine.Num.nan c).lt a = false ∧ a.lt (.nan c) = false ∧ (Machine.Num.nan c).eqv a = false ∧ a.eqv (.nan c) = false :=
  ⟨rfl, rfl, rfl, rfl, rfl, rfl, rfl, by cases a <;> rfl, rfl, by cases a <;> rfl⟩

/-! ### Rounding to an integer (R66, R70) -/

/-- Does a magnitude of q and a fraction f go up to q + 1 in a mode? -/
def RoundsUp (rm : Rounding) (neg : Bool) (q : Nat) (f : ℚ) : Prop :=
  match rm with
  | .rne => 1 / 2 < f ∨ f = 1 / 2 ∧ q % 2 = 1
  | .rz => False
  | .rd => neg = true ∧ f ≠ 0
  | .ru => neg = false ∧ f ≠ 0

theorem not_roundsUp_zero (rm : Rounding) (neg : Bool) (q : Nat) : ¬RoundsUp rm neg q 0 := by
  cases rm <;> simp [RoundsUp]

/-- Rounding to units of 1 splits a magnitude into its whole part and its fraction. -/
theorem roundUnits_integer (rm : Rounding) (neg : Bool) (m : Nat) (e : Int) :
    ∃ (q : Nat) (f : ℚ), 0 ≤ f ∧ f < 1 ∧ (m : ℚ) * 2 ^ e = q + f ∧
      (RoundsUp rm neg q f → (roundUnits rm neg m e 0).1 = q + 1) ∧
      (¬RoundsUp rm neg q f → (roundUnits rm neg m e 0).1 = q) ∧ ((roundUnits rm neg m e 0).2 = true ↔ f = 0) := by
  by_cases he : 0 ≤ e
  · obtain ⟨k, rfl⟩ := Int.eq_ofNat_of_zero_le he
    have hr : roundUnits rm neg m (k : Int) 0 = (m * 2 ^ k, true) := by simp [roundUnits]
    rw [hr]
    refine ⟨m * 2 ^ k, 0, le_rfl, one_pos, by push_cast; rw [zpow_natCast]; ring, fun h => ?_, fun _ => rfl, by simp⟩
    exact absurd h (not_roundsUp_zero _ _ _)
  · obtain ⟨k, rfl⟩ : ∃ k : Nat, e = -((k + 1 : Nat) : Int) := ⟨(-e).toNat - 1, by omega⟩
    have hpos : 0 < 2 ^ (k + 1) := by positivity
    have hposq : (0 : ℚ) < 2 ^ (k + 1) := by positivity
    have hmod := Nat.mod_lt m hpos
    have hhalf (r : Nat) : ((r : ℚ) / 2 ^ (k + 1) = 1 / 2 ↔ r = 2 ^ k) ∧ (1 / 2 < (r : ℚ) / 2 ^ (k + 1) ↔ 2 ^ k < r) := by
      have hpow : (2 : ℚ) ^ (k + 1) = 2 * 2 ^ k := pow_succ' 2 k
      constructor
      · rw [div_eq_iff hposq.ne', hpow, one_div, inv_mul_cancel_left₀ (by norm_num)]
        exact_mod_cast Iff.rfl
      · rw [lt_div_iff₀ hposq, hpow, one_div, inv_mul_cancel_left₀ (by norm_num)]
        exact_mod_cast Iff.rfl
    have hzero : ((m % 2 ^ (k + 1) : Nat) : ℚ) / 2 ^ (k + 1) = 0 ↔ m % 2 ^ (k + 1) = 0 := by
      rw [div_eq_zero_iff, or_iff_left hposq.ne', Nat.cast_eq_zero]
    have hsh : (0 - -((k + 1 : Nat) : Int)).toNat = k + 1 := by omega
    refine ⟨m / 2 ^ (k + 1), ((m % 2 ^ (k + 1) : Nat) : ℚ) / 2 ^ (k + 1), by positivity, ?_, ?_, ?_, ?_, ?_⟩
    · rw [div_lt_one hposq]
      exact_mod_cast hmod
    · have hsplit : (m : ℚ) = 2 ^ (k + 1) * (m / 2 ^ (k + 1) : Nat) + (m % 2 ^ (k + 1) : Nat) := by
        exact_mod_cast (Nat.div_add_mod m (2 ^ (k + 1))).symm
      rw [zpow_neg, zpow_natCast]
      field_simp
      exact hsplit
    · intro hup
      simp only [roundUnits, if_neg he, hsh, Nat.add_sub_cancel]
      rw [if_pos]
      cases rm <;> simp only [RoundsUp, hhalf, hzero, ne_eq] at hup <;> simp [hup]
    · intro hup
      simp only [roundUnits, if_neg he, hsh, Nat.add_sub_cancel]
      rw [if_neg]
      cases rm <;> simp only [RoundsUp, hhalf, hzero, ne_eq] at hup <;> simp [hup]
    · simp only [roundUnits, if_neg he, hsh, beq_iff_eq, hzero]

/-- What a value rounds to, by its whole part, its fraction and its sign. -/
theorem rounded_parts (rm : Rounding) (neg : Bool) {q : Nat} {f : ℚ} (h0 : 0 ≤ f) (h1 : f < 1) :
    (RoundsUp rm neg q f → rounded rm ((if neg then -1 else 1) * (q + f)) = (if neg then -1 else 1) * ((q : Int) + 1)) ∧
    (¬RoundsUp rm neg q f → rounded rm ((if neg then -1 else 1) * (q + f)) = (if neg then -1 else 1) * (q : Int)) := by
  have hfloor : ⌊(q : ℚ) + f⌋ = q := by
    rw [Int.floor_eq_iff]
    push_cast
    exact ⟨by linarith, by linarith⟩
  have hceil (hf : f ≠ 0) : ⌈(q : ℚ) + f⌉ = q + 1 := by
    have hlt : 0 < f := lt_of_le_of_ne h0 (Ne.symm hf)
    rw [Int.ceil_eq_iff]
    push_cast
    exact ⟨by linarith, by linarith⟩
  have hceil0 (hf : f = 0) : ⌈(q : ℚ) + f⌉ = q := by rw [hf, add_zero, Int.ceil_natCast]
  have hq : (0 : ℚ) ≤ q := Nat.cast_nonneg q
  cases neg with
  | false =>
    simp only [Bool.false_eq_true, if_false, one_mul]
    cases rm with
    | rz => simp [RoundsUp, rounded, hfloor, add_nonneg hq h0]
    | rd => simp [RoundsUp, rounded, hfloor]
    | ru =>
      by_cases hf : f = 0
      · simp [RoundsUp, rounded, hf]
      · simp [RoundsUp, rounded, hf, hceil hf]
    | rne =>
      simp only [RoundsUp, rounded, hfloor, Int.cast_natCast, add_sub_cancel_left]
      constructor
      · rintro (h | ⟨rfl, h⟩)
        · rw [if_neg (by linarith), if_pos h]
        · rw [if_neg (lt_irrefl _), if_neg (lt_irrefl _), if_neg (by omega)]
      · intro h
        rw [not_or] at h
        split
        · rfl
        · next h2 =>
          have hhalf : f = 1 / 2 := le_antisymm (not_lt.mp h.1) (not_lt.mp h2)
          rw [if_neg h.1, if_pos (by have := h.2; simp only [hhalf, true_and] at this; omega)]
  | true =>
    have hnfloor : ⌊-((q : ℚ) + f)⌋ = -⌈(q : ℚ) + f⌉ := Int.floor_neg
    have hnceil : ⌈-((q : ℚ) + f)⌉ = -⌊(q : ℚ) + f⌋ := Int.ceil_neg
    simp only [if_true, neg_mul, one_mul]
    by_cases hf : f = 0
    · subst hf
      refine ⟨fun h => absurd h (not_roundsUp_zero _ _ _), fun _ => ?_⟩
      have hf0 : ⌊-(q : ℚ)⌋ = -(q : Int) := by rw [Int.floor_neg, Int.ceil_natCast]
      have hc0 : ⌈-(q : ℚ)⌉ = -(q : Int) := by rw [Int.ceil_neg, Int.floor_natCast]
      have hself : -(q : ℚ) - ((-(q : Int) : Int) : ℚ) = 0 := by push_cast; ring
      rw [add_zero]
      cases rm <;> simp only [rounded, hf0, hc0, hself, ite_self]
      norm_num
    · have hup : ⌊-((q : ℚ) + f)⌋ = -((q : Int) + 1) := by rw [hnfloor, hceil hf]
      have hpos : 0 < f := lt_of_le_of_ne h0 (Ne.symm hf)
      cases rm with
      | rz =>
        have hneg : ¬(0 : ℚ) ≤ -((q : ℚ) + f) := by linarith
        simp only [RoundsUp, rounded, if_neg hneg, hnceil, hfloor]
        simp
      | rd => simp only [RoundsUp, rounded, hup]; simp [hf]
      | ru => simp only [RoundsUp, rounded, hnceil, hfloor]; simp
      | rne =>
        have hdiff : -((q : ℚ) + f) - ((-((q : Int) + 1) : Int) : ℚ) = 1 - f := by push_cast; ring
        simp only [RoundsUp, rounded, hup, hdiff]
        constructor
        · rintro (h | ⟨rfl, h⟩)
          · rw [if_pos (by linarith)]
          · rw [if_neg (by norm_num), if_neg (by norm_num), if_pos (by omega)]
        · intro h
          rw [not_or] at h
          rw [if_neg (by linarith [not_lt.mp h.1])]
          split
          · ring
          · next h2 =>
            have hhalf : f = 1 / 2 := le_antisymm (not_lt.mp h.1) (by linarith)
            rw [if_neg (by have := h.2; simp only [hhalf, true_and] at this; omega)]
            ring

/-- The integer that a finite number is rounded to, and whether nothing was lost. -/
theorem roundUnits_rounded (rm : Rounding) (neg : Bool) (m : Nat) (e : Int) {x : ℚ} (hx : numVal (.fin neg m e) = some x) :
    (if neg then -((roundUnits rm neg m e 0).1 : Int) else (roundUnits rm neg m e 0).1) = rounded rm x ∧
    ((roundUnits rm neg m e 0).2 = true ↔ (rounded rm x : ℚ) = x) := by
  obtain ⟨q, f, h0, h1, hval, hup, hdown, hexact⟩ := roundUnits_integer rm neg m e
  obtain ⟨hrup, hrdown⟩ := rounded_parts rm neg (q := q) h0 h1
  rw [numVal_fin, mul_assoc, hval] at hx
  obtain rfl := Option.some.inj hx
  rw [hexact]
  by_cases h : RoundsUp rm neg q f
  · have hf : f ≠ 0 := by rintro rfl; exact not_roundsUp_zero _ _ _ h
    rw [hup h, hrup h]
    cases neg
    · refine ⟨by simp, ?_⟩
      push_cast
      simp [hf, h1.ne']
    · refine ⟨by simp, ?_⟩
      push_cast
      constructor
      · intro hz; exact absurd hz hf
      · intro hz
        simp only [if_true] at hz
        linarith
  · rw [hdown h, hrdown h]
    cases neg
    · exact ⟨by simp, by simp⟩
    · exact ⟨by simp, by push_cast; simp⟩

/-! ### Conversions to an integer type (R66) -/

theorem intMin_eq (t : Ty) : intMin t = least t := by
  unfold intMin least
  push_cast
  rfl

theorem intMax_eq (t : Ty) : intMax t = greatest t := by
  unfold intMax greatest
  push_cast
  rfl

theorem least_le_greatest (t : Ty) : least t ≤ greatest t := by cases t <;> decide

/-- An integer below, above or within a type, saturated. -/
theorem saturated_of_lt {t : Ty} {i : Int} (h : i < least t) : saturated t i = saturated t (least t) := by
  have := least_le_greatest t
  rw [saturated, saturated, min_eq_left (by omega), min_eq_left (by omega), max_eq_left h.le, max_self]

theorem saturated_of_gt {t : Ty} {i : Int} (h : greatest t < i) : saturated t i = saturated t (greatest t) := by
  rw [saturated, saturated, min_eq_right h.le, min_self]

theorem extend_wrap_saturated {t : Ty} {i : Int} (hlo : least t ≤ i) (hhi : i ≤ greatest t) :
    extend t (wrapBits t.width i) = saturated t i := by
  rw [extend_wrapBits, saturated, min_eq_left hhi, max_eq_right hlo]

/-- An integer clipped to a type. -/
theorem extend_clip (t : Ty) (i : Int) :
    extend t (wrapBits t.width (if i < least t then least t else if greatest t < i then greatest t else i)) = saturated t i := by
  have hle := least_le_greatest t
  split
  · next h => rw [saturated_of_lt h, extend_wrap_saturated le_rfl hle]
  · next h =>
    split
    · next h' => rw [saturated_of_gt h', extend_wrap_saturated hle le_rfl]
    · next h' => exact extend_wrap_saturated (not_lt.mp h) (not_lt.mp h')

/-- A finite number to an integer type, by the integer it rounds to. -/
theorem toInt_fin (t : Ty) (rm : Rounding) (neg : Bool) (m : Nat) (e : Int) {x : ℚ} (hx : numVal (.fin neg m e) = some x) :
    toInt t rm (.fin neg m e) =
      (wrapBits t.width (if rounded rm x < least t then least t else if greatest t < rounded rm x then greatest t
        else rounded rm x),
      if rounded rm x < least t ∨ greatest t < rounded rm x then flagNV else if (rounded rm x : ℚ) = x then 0 else flagNX) := by
  obtain ⟨hround, hexact⟩ := roundUnits_rounded rm neg m e hx
  simp only [toInt, intMin_eq, intMax_eq, hround]
  by_cases hlo : rounded rm x < least t
  · simp [hlo]
  · by_cases hhi : greatest t < rounded rm x
    · simp [hlo, hhi]
    · have hflag : flagIf (!(roundUnits rm neg m e 0).2) flagNX = if (rounded rm x : ℚ) = x then 0 else flagNX := by
        by_cases hx' : (rounded rm x : ℚ) = x
        · rw [if_pos hx', hexact.mpr hx']; rfl
        · rw [if_neg hx', Bool.eq_false_iff.mpr (fun h => hx' (hexact.mp h))]; rfl
      simp only [hlo, hhi, if_false, or_self, hflag]

/-- A number to an integer type: rounded once and saturated, with the flags of R66. -/
theorem toInteger_toInt (t : Ty) (rm : Rounding) (n : Machine.Num) :
    toInteger t rm n (extend t (toInt t rm n).1) (toInt t rm n).2 := by
  refine ⟨fun hnan => ?_, fun neg hinf => ?_, fun x hx => ?_⟩
  · cases n with
    | nan s =>
      exact ⟨by cases t <;> rfl, rfl⟩
    | inf s => cases hnan
    | fin s m e => cases hnan
  · subst hinf
    refine ⟨?_, rfl⟩
    show extend t (wrapBits t.width (if neg then intMin t else intMax t)) = _
    rw [intMin_eq, intMax_eq]
    have hle := least_le_greatest t
    cases neg
    · exact extend_wrap_saturated hle le_rfl
    · exact extend_wrap_saturated le_rfl hle
  · obtain ⟨neg, m, e, rfl, -⟩ := finite_of_numVal hx
    rw [toInt_fin t rm neg m e hx]
    exact ⟨extend_clip t _, rfl⟩

/-! ### The rows of FCVT (R93) -/

/-- The source of a conversion, as the model reads it. -/
theorem convertSource_eq (src : Ty) (m : SrcMod) (v : Word) : convertSource src m v.toNat = convSrc src m v := by
  unfold convertSource convSrc
  have hval : (if m.neg then -intOf src v.toNat else intOf src v.toNat) = intSrc src m v := by
    rw [intOf_toNat, valueOf, intSrc, BitVec.ofNat_toNat]
  rw [hval]
  rfl

theorem convertTo_int {t : Ty} (ht : t.isInt = true) (rm : Rounding) (d : BitVec 4) (c : Clamp) (x : Machine.Num) :
    convertTo t rm d c x = toInt t rm x := by
  cases t <;> simp only [Ty.isInt, Bool.false_eq_true] at ht <;> rfl

theorem convertTo_float {t : Ty} (ht : isPlainFloat t) (rm : Rounding) (d : BitVec 4) (c : Clamp) (x : Machine.Num) :
    convertTo t rm d c x =
      (clampBits t c ((fmtOf t).encode rm (x.scale (dscaleInt d))).1,
        ((fmtOf t).encode rm (x.scale (dscaleInt d))).2 ||| if x.isSignalling then flagNV else 0) := by
  have hnv : nvOf [x] = if x.isSignalling then flagNV else 0 := by simp [nvOf, flagIf]
  rw [← hnv, BitVec.or_comm]
  obtain rfl | rfl | rfl | rfl := ht <;> rfl

/-! ### Codes fit their types -/

theorem roundMag_le (f : Fmt) (rm : Rounding) (neg : Bool) (m : Nat) (e : Int) : (f.roundMag rm neg m e).1 ≤ f.maxCode + 1 := by
  have hpick (c : Bool) : (if c then f.maxCode + 1 else f.maxCode) ≤ f.maxCode + 1 := by cases c <;> simp
  simp only [Fmt.roundMag]
  split
  · exact hpick _
  · next h => exact (Nat.not_lt.mp h).trans (Nat.le_succ _)

theorem nanCode_lt {t : Ty} (ht : isPlainFloat t) : (fmtOf t).nanCode.getD 0 < 2 ^ t.width := by
  obtain rfl | rfl | rfl | rfl := ht <;> decide

/-- A code that a number is rounded to fits the type. -/
theorem encode_lt {t : Ty} (ht : isPlainFloat t) (rm : Rounding) (x : Machine.Num) : ((fmtOf t).encode rm x).1 < 2 ^ t.width := by
  obtain ⟨hf, hwidth⟩ := binary_fmtOf ht
  have hmax := hf.maxCode_lt
  have hsigned (neg : Bool) {c : Nat} (hc : c ≤ (fmtOf t).maxCode + 1) : signed (fmtOf t) neg c < 2 ^ t.width := by
    have htop : (fmtOf t).maxCode + 1 < 2 ^ ((fmtOf t).eb + (fmtOf t).fb) := by
      have hpos : 0 < 2 ^ (fmtOf t).fb := by positivity
      have heb : 0 < 2 ^ (fmtOf t).eb := by positivity
      rw [hf.maxCode, pow_add]
      exact Nat.mul_lt_mul_of_pos_right (by omega) hpos
    rw [hwidth, pow_succ, signed]
    cases neg <;> simp only [Bool.false_eq_true, if_false, if_true] <;> omega
  cases x with
  | nan s => exact nanCode_lt ht
  | inf s => exact hsigned s le_rfl
  | fin s m e =>
    by_cases hm : m = 0
    · subst hm
      exact hsigned s (Nat.zero_le _)
    · rw [encode_fin hm]
      exact hsigned s (roundMag_le ..)

theorem m8Near_lt (num den : Nat) : (m8Near num den).1 < 128 ∧ (m8Near num den).2 < 128 := by
  unfold m8Near
  refine List.foldlRecOn (motive := fun r : Nat × Nat => r.1 < 128 ∧ r.2 < 128) _ _ ⟨by decide, by decide⟩ ?_
  intro r hr p hp
  have hp := List.mem_range.mp hp
  obtain ⟨hlo, hhi⟩ := hr
  dsimp only
  split
  · exact ⟨hlo, hhi⟩
  · constructor
    · dsimp only
      split <;> assumption
    · dsimp only
      split <;> assumption

theorem m8Encode_lt (x : Machine.Num) : (m8Encode x).1 < 256 := by
  cases x with
  | nan s => simp [m8Encode]
  | inf s => cases s <;> simp [m8Encode]
  | fin s m e =>
    simp only [m8Encode]
    obtain ⟨hlo, hhi⟩ := m8Near_lt (m * 2 ^ (e + 11).toNat) (2 ^ (-(e + 11)).toNat)
    generalize m8Near (m * 2 ^ (e + 11).toNat) (2 ^ (-(e + 11)).toNat) = r at *
    repeat' split
    all_goals omega

/-- CLAMP answers codes of the type. -/
theorem clampBits_lt {t : Ty} (ht : isPlainFloat t ∨ t = .m8) (c : Clamp) {b : Nat} (hb : b < 2 ^ t.width) :
    clampBits t c b < 2 ^ t.width := by
  have hone : signBit t + oneCode t < 2 ^ t.width := by
    obtain (rfl | rfl | rfl | rfl) | rfl := ht <;> decide
  unfold clampBits
  cases c <;> dsimp only <;> split_ifs <;> omega

/-- A code of a float type, in a whole register. -/
theorem extend_code {t : Ty} (ht : isPlainFloat t ∨ t = .m8) {b : Nat} (hb : b < 2 ^ t.width) : extend t b = word b := by
  have hs : t.isSigned = false := by obtain (rfl | rfl | rfl | rfl) | rfl := ht <;> rfl
  rw [extend, hs, if_neg Bool.false_ne_true, zx64, Nat.mod_eq_of_lt hb, word]

/-- FCVT completes with the conversion of its source. -/
theorem fcvt_done {src : Ty} {rm : Rounding} {o : FmtA} {s : State} {v : List Word → Word} {fl : List Word → BitVec 5}
    (h : ∀ w : Word, (extend o.t (convert src o.t rm o.dscale o.clamp o.ma w.toNat).1,
      (convert src o.t rm o.dscale o.clamp o.ma w.toNat).2) = (v [w], fl [w])) :
    ScalarDone (.fcvt src rm o) (FmtA.len o) o.d [o.a] (word (immBits src o.imm)) v fl s := by
  intro vs x hd ht
  obtain ⟨w, rfl⟩ := List.length_eq_one_iff.mp (Ctx.take_length ht)
  obtain ⟨hv, hfl⟩ := Prod.mk.inj (h w)
  show execFcvt src rm o s = _
  rw [execFcvt, FmtA.immWord, scalarOp_done hd ht, ← hv, ← hfl]
  rfl

section
variable (src : Ty) (rm : Rounding) (o : FmtA) (w : Word)

/-- Integers to integers saturate without a flag. -/
theorem convert_int_int (hs : src.isInt = true) (ht : o.t.isInt = true) :
    (extend o.t (convert src o.t rm o.dscale o.clamp o.ma w.toNat).1,
      (convert src o.t rm o.dscale o.clamp o.ma w.toNat).2) = (saturated o.t (intSrc src o.ma w), 0) := by
  have hval : numVal (.ofInt (intSrc src o.ma w)) = some ((intSrc src o.ma w : ℚ)) := numVal_ofInt _
  have hround : rounded rm ((intSrc src o.ma w : Int) : ℚ) = intSrc src o.ma w := by
    cases rm <;> simp [rounded]
  have hsrc : convSrc src o.ma w = .ofInt (intSrc src o.ma w) := by rw [convSrc, if_pos hs]; rfl
  have hconv := toInt_fin o.t rm _ _ _ hval
  rw [hround] at hconv
  simp only [convert, convertSource_eq, hsrc, convertTo_int ht, hs, ht, Bool.and_self, if_true]
  exact Prod.ext ((congrArg (fun r : Nat × BitVec 5 => extend o.t r.1) hconv).trans (extend_clip _ _)) rfl

/-- Floats to integers, by R66. -/
theorem convert_float_int (hs : src.isInt = false) (ht : o.t.isInt = true) :
    convert src o.t rm o.dscale o.clamp o.ma w.toNat = toInt o.t rm (convSrc src o.ma w) := by
  simp only [convert, convertSource_eq, convertTo_int ht, hs, Bool.false_and, Bool.false_eq_true, if_false]

/-- Anything to a float type: scaled, rounded once and clamped. -/
theorem convert_to_float (ht : isPlainFloat o.t) :
    (extend o.t (convert src o.t rm o.dscale o.clamp o.ma w.toNat).1,
      (convert src o.t rm o.dscale o.clamp o.ma w.toNat).2) =
    (word (clampBits o.t o.clamp ((fmtOf o.t).encode rm ((convSrc src o.ma w).scale (dscaleInt o.dscale))).1),
      ((fmtOf o.t).encode rm ((convSrc src o.ma w).scale (dscaleInt o.dscale))).2 |||
        if (convSrc src o.ma w).isSignalling then flagNV else 0) := by
  have hint : o.t.isInt = false := by obtain h | h | h | h := ht <;> rw [h] <;> rfl
  simp only [convert, convertSource_eq, convertTo_float ht, hint, Bool.and_false, Bool.false_eq_true, if_false]
  rw [extend_code (.inl ht) (clampBits_lt (.inl ht) _ (encode_lt ht rm _))]

/-- Anything to m8: the nearest code, clamped. -/
theorem convert_to_m8 (ht : o.t = .m8) :
    (extend o.t (convert src o.t rm o.dscale o.clamp o.ma w.toNat).1,
      (convert src o.t rm o.dscale o.clamp o.ma w.toNat).2) =
    (word (clampBits .m8 o.clamp (m8Encode ((convSrc src o.ma w).scale (dscaleInt o.dscale))).1),
      (m8Encode ((convSrc src o.ma w).scale (dscaleInt o.dscale))).2) := by
  have hconv (x : Machine.Num) : convertTo .m8 rm o.dscale o.clamp x =
      (clampBits .m8 o.clamp (m8Encode (x.scale (dscaleInt o.dscale))).1, (m8Encode (x.scale (dscaleInt o.dscale))).2) := rfl
  have hint : Ty.isInt .m8 = false := rfl
  simp only [ht, convert, convertSource_eq, hconv, hint, Bool.and_false, Bool.false_eq_true, if_false]
  rw [extend_code (.inr rfl) (clampBits_lt (.inr rfl) _ (m8Encode_lt _))]

end

/-! ### FCLASS (R94) -/

theorem m8Units_ne_zero (p : Nat) : m8Units p ≠ 0 := by
  simp only [m8Units]
  split
  · positivity
  · split
    · split <;> decide
    · positivity

/-- The class of a code of m8. -/
theorem classify_m8 {c : Nat} (hc : c < 256) : classify .m8 c = 2 ^ classBit .m8 c := by
  have hbit : classBit .m8 c = if c = 0x80 then 9 else if c = 0 then 4 else if c < 0x80 then 6 else 1 := rfl
  have hnum : numOf .m8 c = if c % 128 = 0 then (if c / 128 % 2 == 1 then .nan false else .fin false 0 0)
      else .fin (c / 128 % 2 == 1) (m8Units (c % 128)) (-11) := by
    rw [numOf, m8Decode, Nat.mod_eq_of_lt hc]
  have hmag := m8Units_ne_zero (c % 128)
  rw [hbit, classify, hnum]
  by_cases h80 : c = 0x80
  · subst h80; rfl
  · by_cases h0 : c = 0
    · subst h0; rfl
    · rw [if_neg (by omega), if_neg h80, if_neg h0]
      by_cases hlt : c < 0x80
      · have hs : (c / 128 % 2 == 1) = false := by rw [beq_eq_false_iff_ne]; omega
        simp [hs, hmag, hlt]
      · have hs : (c / 128 % 2 == 1) = true := by rw [beq_iff_eq]; omega
        simp [hs, hmag, hlt]

/-- The class of a code of a plain float type, by its fields. -/
theorem classify_float {t : Ty} (ht : isPlainFloat t) {c : Nat} (hc : c < 2 ^ t.width) :
    classify t c = 2 ^ classBit t c := by
  obtain ⟨hf, hwidth⟩ := binary_fmtOf ht
  have htm : t ≠ .m8 := by obtain rfl | rfl | rfl | rfl := ht <;> decide
  have hnum : numOf t c = (fmtOf t).decode c := by
    have hmod : numOf t c = (fmtOf t).decode (c % 2 ^ t.width) := by obtain rfl | rfl | rfl | rfl := ht <;> rfl
    rw [hmod, Nat.mod_eq_of_lt hc]
  have hbit : classBit t c =
      (let f := fmtOf t
       let frac := c % 2 ^ f.fb
       let exp := c / 2 ^ f.fb % 2 ^ f.eb
       if exp + 1 = 2 ^ f.eb then
         (if frac = 0 then (if 2 ^ (f.eb + f.fb) ≤ c then 0 else 7) else if 2 ^ (f.fb - 1) ≤ frac then 9 else 8)
       else if exp = 0 then
         (if frac = 0 then (if 2 ^ (f.eb + f.fb) ≤ c then 3 else 4) else if 2 ^ (f.eb + f.fb) ≤ c then 2 else 5)
       else if 2 ^ (f.eb + f.fb) ≤ c then 1 else 6) := by
    obtain rfl | rfl | rfl | rfl := ht <;> rfl
  rw [hbit, classify, hnum, hf.decode_eq]
  generalize hF : fmtOf t = f at *
  have hpf : 0 < 2 ^ f.fb := by positivity
  have hpe : 0 < 2 ^ f.eb := by positivity
  have hmag : c % 2 ^ (f.eb + f.fb) < 2 ^ (f.eb + f.fb) := Nat.mod_lt _ (by positivity)
  have hfrac : c % 2 ^ (f.eb + f.fb) % 2 ^ f.fb = c % 2 ^ f.fb := Nat.mod_mod_of_dvd _ (pow_dvd_pow 2 (Nat.le_add_left _ _))
  have hexp : c % 2 ^ (f.eb + f.fb) / 2 ^ f.fb = c / 2 ^ f.fb % 2 ^ f.eb := by
    rw [Nat.add_comm, pow_add, Nat.mod_mul_right_div_self]
  have hneg : (c / 2 ^ (f.eb + f.fb) % 2 == 1) = decide (2 ^ (f.eb + f.fb) ≤ c) := by
    rw [Bool.eq_iff_iff, beq_iff_eq, decide_eq_true_iff]
    rw [hwidth, pow_succ] at hc
    have hpos : 0 < 2 ^ (f.eb + f.fb) := by positivity
    have hq : c / 2 ^ (f.eb + f.fb) < 2 := by rw [Nat.div_lt_iff_lt_mul hpos]; omega
    rw [← Nat.one_le_div_iff hpos]
    generalize c / 2 ^ (f.eb + f.fb) = q at *
    omega
  have htop : f.maxCode < c % 2 ^ (f.eb + f.fb) ↔ c / 2 ^ f.fb % 2 ^ f.eb + 1 = 2 ^ f.eb := by
    rw [← hf.topExponent_iff hmag, hexp]
    have := Nat.mod_lt (c / 2 ^ f.fb) hpe
    omega
  have hsel (p q : Nat) : (if decide (2 ^ (f.eb + f.fb) ≤ c) = true then 2 ^ p else 2 ^ q) =
      2 ^ (if 2 ^ (f.eb + f.fb) ≤ c then p else q) := by
    by_cases h : 2 ^ (f.eb + f.fb) ≤ c <;> simp [h]
  simp only [hneg, hfrac, htop, finiteOf, hexp]
  by_cases htop' : c / 2 ^ f.fb % 2 ^ f.eb + 1 = 2 ^ f.eb
  · simp only [if_pos htop']
    by_cases hfr : c % 2 ^ f.fb = 0
    · simp only [if_pos hfr]
      exact hsel 0 7
    · simp only [if_neg hfr]
      by_cases hq : 2 ^ (f.fb - 1) ≤ c % 2 ^ f.fb
      · simp [hq, Nat.not_lt.mpr hq]
      · simp [hq, Nat.not_le.mp hq]
  · simp only [if_neg htop']
    by_cases he : c / 2 ^ f.fb % 2 ^ f.eb = 0
    · simp only [if_pos he]
      by_cases hfr : c % 2 ^ f.fb = 0
      · simp only [if_pos hfr]
        exact hsel 3 4
      · have hlog : Nat.log2 (c % 2 ^ f.fb) < f.fb := (Nat.log2_lt hfr).mpr (Nat.mod_lt _ hpf)
        have hnormal : (t == .m8 || decide ((1 - (f.bias : Int)) ≤ 1 - (f.bias : Int) - f.fb + Nat.log2 (c % 2 ^ f.fb))) =
            false := by
          rw [Bool.or_eq_false_iff, beq_eq_false_iff_ne, decide_eq_false_iff_not]
          exact ⟨htm, by omega⟩
        simp only [if_neg hfr, hnormal, Bool.false_eq_true, if_false]
        exact hsel 2 5
    · have hlog : Nat.log2 (2 ^ f.fb + c % 2 ^ f.fb) = f.fb := by
        rw [Nat.log2_eq_iff (by omega), pow_succ]
        have := Nat.mod_lt c hpf
        omega
      have hnormal : (t == .m8 || decide ((1 - (f.bias : Int)) ≤ ((c / 2 ^ f.fb % 2 ^ f.eb : Nat) : Int) - f.bias - f.fb +
          Nat.log2 (2 ^ f.fb + c % 2 ^ f.fb))) = true := by
        rw [Bool.or_eq_true, decide_eq_true_iff, hlog]
        omega
      have hne : 2 ^ f.fb + c % 2 ^ f.fb ≠ 0 := by omega
      simp only [if_neg he, if_neg hne, hnormal, if_true]
      exact hsel 1 6

theorem fclass_done {o : FmtA} (s : State) (ht : o.t ∈ [Ty.f16, .bf16, .f32, .f64, .m8]) :
    ScalarDone (.fclass o) (FmtA.len o) o.d [o.a] (word (immBits o.t o.imm))
      (fun vs => word (2 ^ classBit o.t ((nth vs 0).toNat % 2 ^ o.t.width))) (fun _ => 0) s := by
  have hclass (n : Nat) : classify o.t (n % 2 ^ o.t.width) = 2 ^ classBit o.t (n % 2 ^ o.t.width) := by
    have hlt : n % 2 ^ o.t.width < 2 ^ o.t.width := Nat.mod_lt _ (by positivity)
    simp only [List.mem_cons, List.not_mem_nil, or_false] at ht
    obtain h | h | h | h | h := ht
    · exact classify_float (.inl h) hlt
    · exact classify_float (.inr (.inl h)) hlt
    · exact classify_float (.inr (.inr (.inl h))) hlt
    · exact classify_float (.inr (.inr (.inr h))) hlt
    · rw [h] at hlt ⊢
      exact classify_m8 hlt
  apply scalarDone_of_exec
  show execFclass o s = _
  simp only [execFclass, FmtA.immWord, hclass]

/-- Settles O11: each comparison is one of values, each conversion rounds once, and the class of a code is read off its fields. -/
theorem compareConvertClassify : Obligations.CompareConvertClassify := by
  intro o src rm s
  obtain ⟨heq, hlt, hle, hun⟩ := compare_rows o s
  refine ⟨heq, hlt, hle, hun, ⟨fun hs ht => ?_, fun hs ht => ?_, fun ht => ?_, fun ht => ?_⟩, fclass_done s,
    fun a b x y n k c m e => ⟨lt_eqv_iff, special_order a n k c m e⟩⟩
  · exact fcvt_done (fun w => convert_int_int src rm o w hs ht)
  · refine ⟨fun vs => extend o.t (toInt o.t rm (convSrc src o.ma (nth vs 0))).1,
      fun vs => (toInt o.t rm (convSrc src o.ma (nth vs 0))).2, fcvt_done (fun w => ?_), fun vs => toInteger_toInt o.t rm _⟩
    rw [convert_float_int src rm o w hs ht]
    rfl
  · exact fcvt_done (fun w => convert_to_float src rm o w ht)
  · exact fcvt_done (fun w => convert_to_m8 src rm o w ht)

end Sys2Proof.Proofs
end

section
/-! Branches and their delay slots (R48, R95 to R99, R105). -/

namespace Sys2Proof.Proofs

open Sys2Proof Sys2Proof.Machine Sys2Proof.Claims

/-! ### The issuing context -/

/-- A change of the issuing context is what it makes of that context. -/
theorem mapHere_congr {s : State} {f g : Ctx → Ctx} (h : f s.here = g s.here) : s.mapHere f = s.mapHere g := by
  have hset : (s.core s.focus).mapCtx s.hereX f = (s.core s.focus).mapCtx s.hereX g := by
    unfold Core.mapCtx
    exact congrArg (fun y => { s.core s.focus with ctxs := (s.core s.focus).ctxs.set s.hereX y }) h
  unfold State.mapHere State.mapCtx State.mapCore
  exact congrArg (s.setCore s.focus) hset

/-! ### Decisions and targets (R48, R95 to R98) -/

theorem condHolds_iff (cond : Cond) (a b : Word) : condHolds cond a b = true ↔ taken cond a b := by
  cases cond with
  | always => simp [condHolds, taken]
  | eq | ne | z | nz | bit => simp [condHolds, taken, bitOf]
  | lt => exact BitVec.slt_iff_toInt_lt
  | ge => rw [condHolds, Bool.not_eq_true', ← Bool.not_eq_true, BitVec.slt_iff_toInt_lt, not_lt]; rfl
  | ltn => exact BitVec.ult_iff_lt
  | gen => rw [condHolds, Bool.not_eq_true', ← Bool.not_eq_true, BitVec.ult_iff_lt, BitVec.not_lt]; rfl

theorem condHolds_eq {cond : Cond} {a b : Word} {c : Bool} (h : c = true ↔ taken cond a b) : condHolds cond a b = c := by
  rw [Bool.eq_iff_iff, condHolds_iff, h]

theorem relTarget_eq (x : Ctx) (off : BitVec 32) : relTarget x off = target x off := by
  rw [relTarget, target, BitVec.mul_comm]

theorem branch_eq (x : Ctx) (c : Bool) (dest : Word) (link : Fin 32) (disarm : Bool) :
    x.branch c dest link disarm = Branched x c dest link disarm := rfl

/-- No bit of a word in a mask of its two low and its eight high bits is set where it is a multiple of 4 below 2^56. -/
theorem badTarget_iff (d : Word) : d &&& 0xFF00000000000003 = 0 ↔ d.toNat % 4 = 0 ∧ d.toNat < 2 ^ 56 := by
  have hlow : d &&& 3 = 0 ↔ d.toNat % 4 = 0 := by
    rw [← BitVec.toNat_inj, BitVec.toNat_and]
    exact Nat.and_two_pow_sub_one_eq_mod d.toNat 2 ▸ Iff.rfl
  have hhigh : d >>> 56 = 0 ↔ d.toNat < 2 ^ 56 := by
    rw [← BitVec.toNat_inj, BitVec.toNat_ushiftRight, Nat.shiftRight_eq_div_pow]
    exact Nat.div_eq_zero_iff_lt (by positivity)
  have hbyte : d >>> 56 &&& 0xFF = d >>> 56 := by
    apply BitVec.eq_of_toNat_eq
    have h := d.isLt
    rw [BitVec.toNat_and, BitVec.toNat_ushiftRight, Nat.shiftRight_eq_div_pow]
    exact (Nat.and_two_pow_sub_one_eq_mod _ 8).trans (Nat.mod_eq_of_lt (by omega))
  rw [← hlow, ← hhigh]
  constructor
  · intro h
    refine ⟨?_, ?_⟩
    · have := congrArg (· &&& (3 : Word)) h
      simpa [BitVec.and_assoc] using this
    · have := congrArg (fun w : Word => w >>> 56) h
      rw [BitVec.ushiftRight_and_distrib] at this
      exact hbyte ▸ this
  · rintro ⟨h3, h56⟩
    have hd : d &&& 0xFF00000000000000 = 0 := by
      have hsplit : (0xFF00000000000000 : Word) = (0xFF : Word) <<< 56 := rfl
      apply BitVec.eq_of_getLsbD_eq
      intro i hi
      rw [hsplit, BitVec.getLsbD_and, BitVec.getLsbD_shiftLeft]
      by_cases hi56 : i < 56
      · simp [hi56]
      · have hbit := congrArg (fun w : Word => w.getLsbD (i - 56)) h56
        simp only [BitVec.getLsbD_ushiftRight, show 56 + (i - 56) = i by omega] at hbit
        rw [hbit]
        simp
    have hmask : (0xFF00000000000003 : Word) = 0xFF00000000000000 ||| 3 := rfl
    rw [hmask, BitVec.and_or_distrib_left, hd, h3]
    rfl

section
variable {s : State}

/-- Away from the end of an armed loop a branch takes place. -/
theorem branchOp_taken {i : Instr} {f g : Ctx → Ctx} (h : s.here.atLoopEnd = false) (hfg : f s.here = g s.here) :
    branchOp i s f = .next (s.mapHere g) := by
  rw [branchOp, if_neg (by simp [h]), mapHere_congr hfg]

theorem execBr_taken {rd ra : Fin 32} {off : BitVec 32} (h : s.here.atLoopEnd = false) :
    let dest := s.here.reg ra + 4 * off.signExtend 64
    if dest.toNat % 4 = 0 ∧ dest.toNat < 2 ^ 56 then
      execBr rd ra off s = .next (s.mapHere (fun x => Branched x true dest rd false))
    else execBr rd ra off s = trap s 4 dest := by
  intro dest
  have hdest : s.here.reg ra + off.signExtend 64 * 4 = dest := by rw [BitVec.mul_comm]
  simp only [execBr, h, Bool.false_eq_true, if_false, hdest, ← badTarget_iff]
  split
  · next hgood => rw [if_neg (by simpa using hgood)]; rfl
  · rfl

theorem execBq_taken {cond : Cond} {qa : Fin 8} {rb : Fin 32} {off : BitVec 32} {c : Bool} {v : Word} {r : List Word}
    (h : s.here.atLoopEnd = false) (hq : s.here.queue qa = v :: r) (hc : c = true ↔ taken cond v (s.here.reg rb)) :
    execBq cond qa rb off s = .next (s.mapHere (fun x => Branched (x.setQueue qa r) c (target s.here off) 0 true)) := by
  simp only [execBq, h, Bool.false_eq_true, if_false, hq]
  refine congrArg _ (mapHere_congr ?_)
  rw [condHolds_eq hc, relTarget_eq, branch_eq]

theorem execBq_empty {cond : Cond} {qa : Fin 8} {rb : Fin 32} {off : BitVec 32}
    (h : s.here.atLoopEnd = false) (hq : s.here.queue qa = []) :
    execBq cond qa rb off s = .next (s.mapHere (fun x => { x with wait := .pop [(qa, 1)] })) := by
  simp only [execBq, h, Bool.false_eq_true, if_false, hq]
  rfl

end

/-- Settles O12: each branch takes its decision and its target from the issuing context as it stands. -/
theorem branchesDecide : Obligations.BranchesDecide := by
  intro cond c ra rb rd qa off s x
  refine ⟨fun hend => ⟨fun hc => ?_, ?_, execBr_taken hend, fun v r hq hc => ?_, fun hq => execBq_empty hend hq⟩,
    fun hend => ⟨?_, ?_, ?_, ?_⟩⟩
  · exact branchOp_taken hend (by rw [condHolds_eq hc, relTarget_eq, branch_eq])
  · exact branchOp_taken hend (by rw [relTarget_eq, branch_eq])
  · show execBq cond qa rb off s = _
    rw [execBq_taken hend hq hc]
    exact congrArg _ (mapHere_congr rfl)
  · exact if_pos hend
  · exact if_pos hend
  · exact if_pos hend
  · exact if_pos hend

end Sys2Proof.Proofs
end

section
/-! The delay slot (R99, R105): what fetching it resolves, and where it goes when it completes. -/

namespace Sys2Proof.Proofs

open Sys2Proof Sys2Proof.Machine Sys2Proof.Claims

/-! ### The ARM bit of a count -/

theorem disarm_armed (c : Word) : (c &&& 0x7FFFFFFFFFFFFFFF).getLsbD 63 = false := by
  rw [BitVec.getLsbD_and]
  exact Bool.and_false _

theorem disarm_count (c : Word) : (c &&& 0x7FFFFFFFFFFFFFFF).setWidth 63 = c.setWidth 63 := by
  have hmask : (0x7FFFFFFFFFFFFFFF : Word).setWidth 63 = BitVec.allOnes 63 := rfl
  rw [BitVec.setWidth_and, hmask, BitVec.and_allOnes]

/-! ### A slot resolved (R99) -/

section
variable {x : Ctx} {p : SlotPend}

/-- Does a branch go to its target, its slot n bytes long: is it taken, and not to its own fall-through? -/
def branchGoes (p : SlotPend) (x : Ctx) (n : Nat) : Bool := p.taken && p.dest != x.pc + word n

/-- Does the branch leave the body of a loop from start to fin? -/
def branchLeaves (p : SlotPend) (x : Ctx) (n : Nat) (start fin : Word) : Bool :=
  branchGoes p x n && p.disarm && p.branch.any (fun b => start ≤ b && b ≤ fin) && !(start ≤ p.dest && p.dest ≤ fin)

/-- The loops, with those disarmed that the branch leaves. -/
def loopsAfterBranch (p : SlotPend) (x : Ctx) (n : Nat) : Loops :=
  { x.loops with
    count0 := if branchLeaves p x n x.loops.start0 x.loops.end0 then x.loops.count0 &&& 0x7FFFFFFFFFFFFFFF else x.loops.count0
    count1 := if branchLeaves p x n x.loops.start1 x.loops.end1 then x.loops.count1 &&& 0x7FFFFFFFFFFFFFFF else x.loops.count1 }

/-- Fetching the slot writes the link, settles where the branch goes, and disarms the loops it leaves. -/
theorem resolveSlot_eq (hs : x.slot = some p) (hr : p.resolved = false) (n : Nat) :
    x.resolveSlot n = { x.setReg p.link (x.pc + word n) with
      slot := some { p with dest := if branchGoes p x n then p.dest else x.pc + word n, resolved := true }
      loops := loopsAfterBranch p x n } := by
  simp only [Ctx.resolveSlot, hs, hr, Bool.false_eq_true, if_false]
  by_cases hlink : p.link.val = 0
  · have hset : x.setReg p.link (x.pc + word n) = x := if_pos hlink
    rw [hset]
    simp only [hlink, if_true]
    rfl
  · simp only [hlink, if_false]
    rfl

/-- The slot of a taken branch goes to the target; any other makes its end check. -/
theorem retire_slot {y : Ctx} {q : SlotPend} (hs : y.slot = some q) (n : Nat) :
    y.retire n = if q.dest ≠ y.pc + word n then { y with slot := none, pc := q.dest }
      else { y with slot := none }.endCheck (y.pc + word n) := by
  simp only [Ctx.retire, hs]

theorem retire_noSlot {y : Ctx} (hs : y.slot = none) (n : Nat) : y.retire n = y.endCheck (y.pc + word n) := by
  simp only [Ctx.retire, hs]

/-- A taken branch whose slot completes goes to its target, and no loop is checked. -/
theorem retire_resolved_goes (hs : x.slot = some p) (hr : p.resolved = false) {n : Nat} (hg : branchGoes p x n = true) :
    (x.resolveSlot n).retire n = { x.resolveSlot n with slot := none, pc := p.dest } := by
  have hne : p.dest ≠ x.pc + word n := by
    rw [branchGoes, Bool.and_eq_true] at hg
    simpa using hg.2
  have hq := congrArg Ctx.slot (resolveSlot_eq hs hr n)
  have hpc : (x.resolveSlot n).pc = x.pc := by rw [resolveSlot_eq hs hr]; exact x.setReg_pc ..
  rw [retire_slot hq, hpc]
  simp only [hg, if_true, ne_eq, hne, not_false_eq_true]

/-- Another slot completes as an instruction by itself. -/
theorem retire_resolved_falls (hs : x.slot = some p) (hr : p.resolved = false) {n : Nat} (hg : branchGoes p x n = false) :
    (x.resolveSlot n).retire n = { x.resolveSlot n with slot := none }.retire n := by
  have hq := congrArg Ctx.slot (resolveSlot_eq hs hr n)
  have hpc : (x.resolveSlot n).pc = x.pc := by rw [resolveSlot_eq hs hr]; exact x.setReg_pc ..
  have hdest : (if branchGoes p x n then p.dest else x.pc + word n) = (x.resolveSlot n).pc + word n := by rw [hg, hpc]; rfl
  exact (retire_slot hq n).trans (if_neg (not_not_intro hdest))

/-- With no loop armed the end check goes on. -/
theorem endCheck_unarmed {y : Ctx} (h : Unarmed y) (fall : Word) : y.endCheck fall = { y with pc := fall } := by
  obtain ⟨h0, h1⟩ := h
  simp only [Ctx.endCheck, Ctx.loopEnds, bitOf, h0, h1, Bool.false_and, Bool.false_eq_true, if_false, Option.getD_none]

theorem unarmed_resolveSlot (hs : x.slot = some p) (hr : p.resolved = false) (n : Nat) (h : Unarmed x) :
    Unarmed (x.resolveSlot n) := by
  have hoff {c : Word} (b : Bool) (hc : c.getLsbD 63 = false) :
      (if b then c &&& 0x7FFFFFFFFFFFFFFF else c).getLsbD 63 = false := by
    cases b
    · exact hc
    · exact disarm_armed c
  rw [resolveSlot_eq hs hr]
  exact ⟨hoff _ h.1, hoff _ h.2⟩

/-- With no loop armed the slot leads to the target of a taken branch, and on past it after another. -/
theorem retire_unarmed (hs : x.slot = some p) (hr : p.resolved = false) (n : Nat) (h : Unarmed x) :
    ((x.resolveSlot n).retire n).pc = (if p.taken then p.dest else x.pc + word n) ∧
    ((x.resolveSlot n).retire n).slot = none := by
  cases hg : branchGoes p x n with
  | true =>
    rw [retire_resolved_goes hs hr hg]
    rw [branchGoes, Bool.and_eq_true] at hg
    exact ⟨by rw [hg.1]; rfl, rfl⟩
  | false =>
    have hpc : (x.resolveSlot n).pc = x.pc := by rw [resolveSlot_eq hs hr]; exact x.setReg_pc ..
    have hu : Unarmed { x.resolveSlot n with slot := none } := unarmed_resolveSlot hs hr n h
    rw [retire_resolved_falls hs hr hg, retire_noSlot rfl, endCheck_unarmed hu]
    refine ⟨?_, rfl⟩
    rw [hpc]
    cases ht : p.taken with
    | false => rfl
    | true =>
      simp only [branchGoes, ht, Bool.true_and, bne_eq_false_iff_eq] at hg
      exact hg.symm

/-- The registers after the slot's fetch: the link, and every other as it was. -/
theorem reg_resolveSlot (hs : x.slot = some p) (hr : p.resolved = false) (n : Nat) :
    (p.link ≠ 0 → (x.resolveSlot n).reg p.link = x.pc + word n) ∧
    (∀ r : Fin 32, r ≠ p.link → (x.resolveSlot n).reg r = x.reg r) := by
  have hreg (r : Fin 32) : (x.resolveSlot n).reg r = (x.setReg p.link (x.pc + word n)).reg r := by
    rw [resolveSlot_eq hs hr]
    rfl
  exact ⟨fun hne => (hreg _).trans (x.reg_setReg_self _ hne), fun r hne => (hreg r).trans (x.reg_setReg_ne _ hne)⟩

theorem leaves_iff {b : Word} (hb : p.branch = some b) (n : Nat) (start fin : Word) :
    branchLeaves p x n start fin = true ↔ p.taken = true ∧ p.disarm = true ∧ p.dest ≠ x.pc + word n ∧
      start.toNat ≤ b.toNat ∧ b.toNat ≤ fin.toNat ∧ ¬(start.toNat ≤ p.dest.toNat ∧ p.dest.toNat ≤ fin.toNat) := by
  simp only [branchLeaves, branchGoes, hb, Option.any_some, Bool.and_eq_true, bne_iff_ne, ne_eq, Bool.not_eq_true',
    Bool.and_eq_false_iff, decide_eq_true_eq, decide_eq_false_iff_not, BitVec.le_def]
  tauto

/-- A count after the slot's fetch: disarmed where its loop is left, else as it was. -/
theorem count_left {c d : Word} {l : Bool} {q : Prop} (hd : d = if l then c &&& 0x7FFFFFFFFFFFFFFF else c) (hl : l = true ↔ q) :
    (q → d.getLsbD 63 = false ∧ d.setWidth 63 = c.setWidth 63) ∧ (¬q → d = c) := by
  subst hd
  refine ⟨fun h => ?_, fun h => if_neg (fun hc => h (hl.mp hc))⟩
  rw [if_pos (hl.mpr h)]
  exact ⟨disarm_armed c, disarm_count c⟩

/-- A branch that goes nowhere else disarms nothing. -/
theorem loops_resolveSlot_falls (hs : x.slot = some p) (hr : p.resolved = false) {n : Nat} (hg : branchGoes p x n = false) :
    (x.resolveSlot n).loops = x.loops := by
  rw [resolveSlot_eq hs hr]
  simp [loopsAfterBranch, branchLeaves, hg]

end

/-- Settles O13: fetching the slot settles whether the branch goes, and its completion follows that. -/
theorem branchSlots : Obligations.BranchSlots := by
  refine ⟨fun x p n hs hr hu => ?_, fun x p n b hs hr hb => ?_, fun x p n hs hr => ?_⟩
  · intro y
    obtain ⟨hpc, hslot⟩ := retire_unarmed hs hr n hu
    obtain ⟨hlink, hother⟩ := reg_resolveSlot hs hr n
    exact ⟨hpc, hslot, hlink, hother, rfl⟩
  · intro leaves l
    have hl : l = loopsAfterBranch p x n := congrArg Ctx.loops (resolveSlot_eq hs hr n)
    obtain ⟨h0, h0'⟩ := count_left (congrArg Loops.count0 hl) (leaves_iff hb n x.loops.start0 x.loops.end0)
    obtain ⟨h1, h1'⟩ := count_left (congrArg Loops.count1 hl) (leaves_iff hb n x.loops.start1 x.loops.end1)
    exact ⟨h0, h0', h1, h1'⟩
  · intro y takes
    have hg : branchGoes p x n = true ↔ takes := by
      rw [branchGoes, Bool.and_eq_true, bne_iff_ne]
    refine ⟨fun h => ?_, fun h => ?_⟩
    · have hret := retire_resolved_goes hs hr (hg.mpr h)
      exact ⟨congrArg Ctx.pc hret, (congrArg Ctx.loops hret :)⟩
    · have hfalls : branchGoes p x n = false := Bool.eq_false_iff.mpr (fun hc => h (hg.mp hc))
      exact ⟨loops_resolveSlot_falls hs hr hfalls, retire_resolved_falls hs hr hfalls⟩

end Sys2Proof.Proofs
end

section
/-! Hardware loops (R28, R102 to R104). -/

namespace Sys2Proof.Proofs

open Sys2Proof Sys2Proof.Machine Sys2Proof.Claims

/-! ### The end check of one loop (R104) -/

/-- The iterations left when a loop of this COUNT register is counted down. -/
def countLeft (count : Word) : Nat := (count.toNat + (2 ^ 32 - 1)) % 2 ^ 32

/-- The COUNT register counted down: armed while iterations are left. -/
def countedDown (count : Word) : Word := if countLeft count = 0 then 0 else word (2 ^ 63 + countLeft count)

/-- Does a loop of these registers end at the pc? -/
def endsHere (x : Ctx) (count fin : Word) : Bool := bitOf count 63 && fin == x.pc

/-- A COUNT register armed. -/
theorem word_or_armed {c : Nat} (h : c < 2 ^ 63) : word c ||| 0x8000000000000000 = word (2 ^ 63 + c) := by
  apply BitVec.eq_of_toNat_eq
  have hc : c % 2 ^ 64 = c := Nat.mod_eq_of_lt (by omega)
  rw [BitVec.toNat_or, word, BitVec.toNat_ofNat, hc, Nat.or_comm, word, BitVec.toNat_ofNat, Nat.mod_eq_of_lt (by omega)]
  exact (Nat.two_pow_add_eq_or_of_lt h 1).symm

theorem loopCheck_eq (count : Word) : loopCheck count = (countedDown count, decide (countLeft count ≠ 0)) := by
  have hleft : (bitsOf count 31 0 + 0xFFFFFFFF) % 2 ^ 32 = countLeft count := by
    simp only [bitsOf, countLeft, pow_zero, Nat.div_one]
    omega
  have hlt : countLeft count < 2 ^ 63 := by unfold countLeft; omega
  simp only [loopCheck, hleft, countedDown]
  split
  · next h0 => simp [h0]
  · next hne => rw [word_or_armed hlt]; simp [hne]

theorem endsHere_iff (x : Ctx) (count fin : Word) : endsHere x count fin = true ↔ count.getLsbD 63 = true ∧ fin = x.pc := by
  simp [endsHere, bitOf]

/-! ### The end checks in order -/

section
variable (x : Ctx) (fall : Word)

/-- The loops after the check of loop 1 alone. -/
def innerChecked : Loops :=
  { x.loops with count1 := if endsHere x x.loops.count1 x.loops.end1 then countedDown x.loops.count1 else x.loops.count1 }

/-- Loop 1 jumps: loop 0 is not looked at. -/
theorem endCheck_inner (h : endsHere x x.loops.count1 x.loops.end1 = true ∧ countLeft x.loops.count1 ≠ 0) :
    x.endCheck fall = { x with loops := innerChecked x, pc := x.loops.start1 } := by
  obtain ⟨hend, hleft⟩ := h
  have hend' : (bitOf x.loops.count1 63 && x.loops.end1 == x.pc) = true := hend
  simp only [Ctx.endCheck, Ctx.loopEnds, hend', loopCheck_eq, hleft, innerChecked, hend, if_true, ne_eq, not_false_eq_true,
    decide_true, Option.getD_some]

/-- Loop 1 does not jump: loop 0 is checked. -/
theorem endCheck_outer (h : ¬(endsHere x x.loops.count1 x.loops.end1 = true ∧ countLeft x.loops.count1 ≠ 0)) :
    x.endCheck fall = { x with
      loops := { innerChecked x with
        count0 := if endsHere x x.loops.count0 x.loops.end0 then countedDown x.loops.count0 else x.loops.count0 }
      pc := if endsHere x x.loops.count0 x.loops.end0 = true ∧ countLeft x.loops.count0 ≠ 0 then x.loops.start0 else fall } := by
  have hjump : (if endsHere x x.loops.count1 x.loops.end1 then loopCheck x.loops.count1 else (x.loops.count1, false)) =
      ((innerChecked x).count1, false) := by
    simp only [loopCheck_eq, innerChecked]
    split
    · next hend => rw [decide_eq_false (fun hleft => h ⟨hend, hleft⟩)]
    · rfl
  have houter : (if endsHere x x.loops.count0 x.loops.end0 then loopCheck x.loops.count0 else (x.loops.count0, false)) =
      (if endsHere x x.loops.count0 x.loops.end0 then countedDown x.loops.count0 else x.loops.count0,
        decide (endsHere x x.loops.count0 x.loops.end0 = true ∧ countLeft x.loops.count0 ≠ 0)) := by
    simp only [loopCheck_eq]
    split <;> simp [*]
  have hpc (p : Prop) [Decidable p] :
      (if decide p = true then some x.loops.start0 else none).getD fall = if p then x.loops.start0 else fall := by
    by_cases hp : p <;> simp [hp]
  unfold endsHere at hjump houter
  simp only [Ctx.endCheck, Ctx.loopEnds, hjump, houter, Bool.false_eq_true, if_false, hpc]
  rfl

/-- No loop ends at the pc: nothing is checked. -/
theorem loopEnds_elsewhere {x : Ctx} (h : x.atLoopEnd = false) : x.loopEnds = (x, none) := by
  obtain ⟨h0, h1⟩ := Bool.or_eq_false_iff.mp h
  simp only [Ctx.loopEnds, h0, h1, Bool.false_eq_true, if_false]

theorem retire_elsewhere {x : Ctx} (h : x.atLoopEnd = false) (hs : x.slot = none) (n : Nat) :
    x.retire n = { x with pc := x.pc + word n } := by
  rw [retire_noSlot hs, Ctx.endCheck, loopEnds_elsewhere h]
  rfl

end

/-- An address field keeps bits 55:2. -/
theorem addrField_bits (v : Word) : (addrField v).toNat % 2 ^ 56 / 4 = v.toNat % 2 ^ 56 / 4 := by
  have hmask : (0x00FFFFFFFFFFFFFC : Word) = (BitVec.allOnes 54).setWidth 64 <<< 2 := by decide
  have hbits : (addrField v).extractLsb' 2 54 = v.extractLsb' 2 54 := by
    apply BitVec.eq_of_getLsbD_eq
    intro i hi
    simp only [addrField, hmask, BitVec.getLsbD_extractLsb', BitVec.getLsbD_and, BitVec.getLsbD_shiftLeft,
      BitVec.getLsbD_setWidth, BitVec.getLsbD_allOnes]
    simp [hi, show 2 + i < 64 by omega, show i < 64 by omega, show ¬2 + i < 2 by omega]
  have hnat := congrArg BitVec.toNat hbits
  simp only [BitVec.extractLsb'_toNat, Nat.shiftRight_eq_div_pow] at hnat
  omega

/-- A LOOP's own end is beyond it: OFF is at least 3 words, and less than 2^31. -/
theorem loopEnd_ne_pc {pc : Word} {off : BitVec 32} (h : 3 ≤ off.toInt) : addrField (pc + 4 * off.signExtend 64) ≠ pc := by
  intro heq
  have hbits := addrField_bits (pc + 4 * off.signExtend 64)
  have hpos : 2 * off.toNat < 2 ^ 32 ∧ 3 ≤ off.toNat := by
    rw [BitVec.toInt_eq_toNat_cond] at h
    split at h <;> omega
  have hsign : (off.signExtend 64).toNat = off.toNat := by
    rw [← BitVec.toNat_setWidth_of_le (by decide : 32 ≤ 64), BitVec.signExtend_eq_setWidth_of_msb_false]
    exact BitVec.msb_eq_false_iff_two_mul_lt.mpr hpos.1
  have hfour : (4 : Word).toNat = 4 := rfl
  rw [heq, BitVec.toNat_add, BitVec.toNat_mul, hsign, hfour] at hbits
  omega

theorem atLoopEnd_set {x : Ctx} {start fin count : Word} (h : x.atLoopEnd = false) (hne : fin ≠ x.pc) (n : Fin 2) :
    { x with loops := x.loops.set n start fin count }.atLoopEnd = false := by
  obtain ⟨h0, h1⟩ := Bool.or_eq_false_iff.mp h
  have hfin : (fin == x.pc) = false := beq_eq_false_iff_ne.mpr hne
  unfold Loops.set
  split
  · simp only [Ctx.atLoopEnd, hfin, h1, Bool.and_false, Bool.or_false]
  · simp only [Ctx.atLoopEnd, hfin, h0, Bool.and_false, Bool.or_false]

/-- A well-formed instruction passes each of its checks. -/
theorem check_of_wellFormed {i : Instr} {b : Bool} {e : IllForm} (h : i.wellFormed = true) (hc : (b, e) ∈ i.checks) :
    b = true :=
  firstFail_eq_none.mp (Option.isNone_iff_eq_none.mp h) (b, e) hc

/-! ### LOOP and LBRK (R102, R103) -/

/-- The immediate that COUNT of a LOOP gives. -/
def loopImm : LoopCount → Word
  | .imm16 v => v.zeroExtend 64
  | _ => 0

/-- The iterations of a LOOP for a source v: none of a negative one, at most 2^32 − 1. -/
def loopIterations (v : Word) : Nat := if v.toInt ≤ 0 then 0 else min v.toNat (2 ^ 32 - 1)

theorem loopIterations_lt (v : Word) : loopIterations v < 2 ^ 63 := by
  unfold loopIterations
  split <;> omega

/-- The source of COUNT read. -/
theorem take_loopCount {x x' : Ctx} {count : LoopCount} {v : Word}
    (h : match count with
      | .imm16 k => v = k.setWidth 64 ∧ x' = x
      | .reg r => v = x.reg r ∧ x' = x
      | .queue q => x.takeOne 0 (.q q) = some (v, x')) :
    x.take (loopImm count) [countOpnd count] = some ([v], x') := by
  have hone : x.takeOne (loopImm count) (countOpnd count) = some (v, x') := by
    cases count with
    | imm16 k => obtain ⟨rfl, rfl⟩ := h; rfl
    | reg r => obtain ⟨rfl, rfl⟩ := h; rfl
    | queue q => exact h
  simp only [Ctx.take, hone]

/-- What LOOP n of cnt iterations makes of the issuing context. -/
def looped (n : Fin 2) (off : BitVec 32) (cnt : Nat) (x : Ctx) : Ctx :=
  let fin := addrField (x.pc + off.signExtend 64 * 4)
  let y := { x with loops := x.loops.set n (addrField (x.pc + 12)) fin (if cnt = 0 then 0 else word cnt ||| 0x8000000000000000) }
  if cnt = 0 then { y.loopEnds.1 with pc := y.loopEnds.2.getD fin, skip := y.loopEnds.2.isNone } else y.retire 12

theorem execLoop_looped (n : Fin 2) (count : LoopCount) (off : BitVec 32) (s : State) :
    execLoop n count off s = withOperands [countOpnd count] (loopImm count) s (fun vs s =>
      .next (s.mapHere (looped n off (loopIterations (nth vs 0))))) := by
  cases count <;> rfl

/-- Where no loop ends at the LOOP, its registers are set, and the pc goes on or to the instruction to be skipped. -/
theorem looped_elsewhere {x : Ctx} {off : BitVec 32} {cnt : Nat} (hoff : 3 ≤ off.toInt) (hcnt : cnt < 2 ^ 63)
    (hend : x.atLoopEnd = false) (hslot : x.slot = none) (n : Fin 2) :
    looped n off cnt x = { x with
      loops := x.loops.set n (addrField (x.pc + 12)) (addrField (target x off)) (if cnt = 0 then 0 else word (2 ^ 63 + cnt))
      pc := if cnt = 0 then addrField (target x off) else x.pc + 12
      skip := if cnt = 0 then true else x.skip } := by
  have hfin : x.pc + off.signExtend 64 * 4 = target x off := relTarget_eq x off
  have hset (start c : Word) : { x with loops := x.loops.set n start (addrField (target x off)) c }.atLoopEnd = false :=
    atLoopEnd_set hend (loopEnd_ne_pc hoff) n
  unfold looped
  rw [hfin]
  by_cases hc : cnt = 0
  · simp only [hc, if_true]
    rw [loopEnds_elsewhere (hset ..)]
    rfl
  · simp only [hc, if_false]
    rw [retire_elsewhere (hset ..) hslot, word_or_armed hcnt]
    rfl

/-- LOOP, where no loop ends at it. -/
theorem execLoop_eq {n : Fin 2} {count : LoopCount} {off : BitVec 32} {v : Word} {x' : Ctx} {s : State}
    (hoff : 3 ≤ off.toInt) (hend : s.here.atLoopEnd = false) (hslot : s.here.slot = none)
    (ht : s.here.take (loopImm count) [countOpnd count] = some ([v], x')) :
    execLoop n count off s = .next (s.mapHere (fun _ =>
      { x' with
        loops := x'.loops.set n (addrField (s.here.pc + 12)) (addrField (target s.here off))
          (if loopIterations v = 0 then 0 else word (2 ^ 63 + loopIterations v))
        pc := if loopIterations v = 0 then addrField (target s.here off) else s.here.pc + 12
        skip := if loopIterations v = 0 then true else x'.skip })) := by
  have hx := Ctx.take_eq ht
  have hpc : x'.pc = s.here.pc := by rw [hx]
  have hend' : x'.atLoopEnd = false := by rw [hx]; exact hend
  have hslot' : x'.slot = none := by rw [hx]; exact hslot
  have htarget : target x' off = target s.here off := by rw [target, hpc]; rfl
  have hlooped := looped_elsewhere hoff (loopIterations_lt v) hend' hslot' n
  rw [htarget, hpc] at hlooped
  rw [execLoop_looped, withOperands_ready ht, State.mapHere_mapHere]
  exact congrArg _ (mapHere_congr hlooped)

/-- LBRK n makes its loop one that is not armed, so that no loop ends at it. -/
theorem retire_lbrk {x : Ctx} (hend : x.atLoopEnd = false) (hslot : x.slot = none) (n : Fin 2) :
    { x with loops :=
      if n.val = 0 then { x.loops with count0 := x.loops.count0 &&& 0x7FFFFFFFFFFFFFFF }
      else { x.loops with count1 := x.loops.count1 &&& 0x7FFFFFFFFFFFFFFF } }.retire 8 =
    { x with
      pc := x.pc + 8
      loops := if n = 0 then { x.loops with count0 := x.loops.count0 &&& 0x7FFFFFFFFFFFFFFF }
        else { x.loops with count1 := x.loops.count1 &&& 0x7FFFFFFFFFFFFFFF } } := by
  obtain ⟨h0, h1⟩ := Bool.or_eq_false_iff.mp hend
  have hoff (c fin : Word) : (bitOf (c &&& 0x7FFFFFFFFFFFFFFF) 63 && fin == x.pc) = false := by
    rw [bitOf, disarm_armed, Bool.false_and]
  by_cases hn : n = 0
  · have hv : n.val = 0 := congrArg Fin.val hn
    rw [if_pos hv, if_pos hn]
    have hoff0 : { x with loops := { x.loops with count0 := x.loops.count0 &&& 0x7FFFFFFFFFFFFFFF } }.atLoopEnd = false :=
      Bool.or_eq_false_iff.mpr ⟨hoff .., h1⟩
    exact retire_elsewhere hoff0 hslot 8
  · have hv : ¬n.val = 0 := fun h => hn (Fin.ext h)
    rw [if_neg hv, if_neg hn]
    have hoff1 : { x with loops := { x.loops with count1 := x.loops.count1 &&& 0x7FFFFFFFFFFFFFFF } }.atLoopEnd = false :=
      Bool.or_eq_false_iff.mpr ⟨h0, hoff ..⟩
    exact retire_elsewhere hoff1 hslot 8

theorem execLbrk_eq {n : Fin 2} {s : State} (hend : s.here.atLoopEnd = false) (hslot : s.here.slot = none) :
    execLbrk n s = .next (s.mapHere (fun x =>
      { x with
        pc := x.pc + 8
        loops := if n = 0 then { x.loops with count0 := x.loops.count0 &&& 0x7FFFFFFFFFFFFFFF }
          else { x.loops with count1 := x.loops.count1 &&& 0x7FFFFFFFFFFFFFFF } })) := by
  rw [execLbrk, done_eq, State.mapHere_mapHere]
  exact congrArg _ (mapHere_congr (retire_lbrk hend hslot n))

/-! ### The skipped instruction (R102) -/

/-- An instruction to be passed is fetched and checked for its boundary, and has no other effect. -/
theorem dispatchHere_skip {run : Meaning} {s : State} {block : List Byte} (hskip : s.here.skip = true)
    (hslot : s.here.slot = none) (hfits : s.here.pc.toNat % 32 + lengthAtPc s block ≤ 32) :
    dispatchHere run s block =
      .next (s.mapHere (fun x => { x with pc := x.pc + word (lengthAtPc s block), skip := false })) := by
  have hres : s.mapHere (·.resolveSlot (lengthAtPc s block)) = s.mapHere id := mapHere_congr (resolveSlot_none hslot _)
  unfold lengthAtPc bytesAtPc at hres hfits
  simp only [dispatchHere, hres, Nat.not_lt.mpr hfits, if_false, State.here_mapHere, id, hskip, if_true, State.mapHere_mapHere]
  rfl

/-- Settles O14: the end check in its two cases, LOOP and LBRK where no loop ends at them, and the instruction skipped. -/
theorem hardwareLoops : Obligations.HardwareLoops := by
  refine ⟨fun x n hs => ?_, fun n count off v x' s hwf hend hslot hv => ⟨?_, execLbrk_eq hend hslot⟩,
    fun s block => fun hskip hslot hfits => dispatchHere_skip hskip hslot hfits⟩
  · intro y armed left counted in1 in0
    have h1 : endsHere x x.loops.count1 x.loops.end1 = true ↔ in1 := endsHere_iff ..
    have h0 : endsHere x x.loops.count0 x.loops.end0 = true ↔ in0 := endsHere_iff ..
    have hy : y = x.endCheck (x.pc + word n) := retire_noSlot hs n
    by_cases hjump : endsHere x x.loops.count1 x.loops.end1 = true ∧ countLeft x.loops.count1 ≠ 0
    · rw [endCheck_inner x _ hjump] at hy
      have hin1 : in1 := h1.mp hjump.1
      have hboth : in1 ∧ left x.loops.count1 ≠ 0 := ⟨hin1, hjump.2⟩
      rw [hy]
      exact ⟨fun _ => if_pos hjump.1, fun h => absurd hin1 h, fun _ _ => ⟨rfl, rfl⟩, fun h => absurd hboth h,
        fun h => absurd hboth h⟩
    · rw [endCheck_outer x _ hjump] at hy
      rw [h1] at hjump
      rw [hy]
      refine ⟨fun h => if_pos (h1.mpr h), fun h => if_neg (fun hc => h (h1.mp hc)), fun h hl => absurd ⟨h, hl⟩ hjump,
        fun _ h => ⟨if_pos (h0.mpr h), ?_⟩, fun _ h => ⟨if_neg (fun hc => h (h0.mp hc)), ?_⟩⟩
      · show (if _ then _ else _) = _
        by_cases hl : left x.loops.count0 = 0
        · rw [if_neg (fun hc => hc.2 hl), if_pos hl]
        · rw [if_pos ⟨h0.mpr h, hl⟩, if_neg hl]
      · exact if_neg (fun hc => h (h0.mp hc.1))
  · have hoff : 3 ≤ off.toInt := of_decide_eq_true
      (check_of_wellFormed (e := .loopOffset) hwf (by simp [Instr.checks, Instr.ownChecks]))
    exact execLoop_eq hoff hend hslot (take_loopCount hv)

end Sys2Proof.Proofs
end

section
/-! TRAP, BRK and TRET (R113 to R115). -/

namespace Sys2Proof.Proofs

open Sys2Proof Sys2Proof.Machine Sys2Proof.Claims

/-! ### Traps taken once the instruction has completed -/

section
variable {s : State}

/-- Outside an optimistic chunk the instruction runs. -/
theorem noChunk_plain (h : s.here.optimistic = false) (r : Result) : noChunk s r = r :=
  if_neg (fun hc => absurd (h.symm.trans hc) (by decide))

/-- With the V pipe empty the instruction completes and its trap is entered. -/
theorem trapAfter_idle (h : s.here.vIdle = true) (len code : Nat) (v : Word) :
    trapAfter s len code v =
      .next ((s.retire len).enterTrap s.focus s.hereX code v (s.here.retire len).pc 0) := by
  rw [trapAfter, if_pos h]
  simp only [State.retire, State.here_mapHere, State.hereX_mapHere, State.mapHere_focus]

@[simp] theorem here_garnet (s : State) (n e src c d x : Nat) : (s.garnet n e src c d x).here = s.here := by
  simp only [State.here, State.hereX, State.garnet_focus, State.garnet_core, State.garnet_ctx]

theorem enterTrap_double {c : CoreId} {x : CtxId} (h : (s.ctx c x).tcause ≠ 0) (code : Nat) (v tpc tslot : Word) :
    s.enterTrap c x code v tpc tslot =
      (s.garnet (dieOf c).val 1 0 c.val (s.ctx c x).domain.toNat (code + v.toNat * 2 ^ 64)).deliverTerminal c x ⟨19, v, 2, 0⟩ := by
  rw [State.enterTrap, if_pos h]
  rfl

theorem enterTrap_noVector {c : CoreId} {x : CtxId} (h : (s.ctx c x).tcause = 0) (hv : (s.ctx c x).tvec = 0) (code : Nat)
    (v tpc tslot : Word) :
    s.enterTrap c x code v tpc tslot =
      (s.garnet (dieOf c).val 1 0 c.val (s.ctx c x).domain.toNat (code + v.toNat * 2 ^ 64)).deliverTerminal c x ⟨20, v, 2, 0⟩ := by
  rw [State.enterTrap, if_neg (not_not_intro h), if_pos hv]
  rfl

/-- What the entry of a trap makes of its context (R113). -/
def trapped (code : Nat) (v tpc tslot : Word) (y : Ctx) : Ctx :=
  { y with
    tpc := addrField tpc, tcause := word code, tval := v, tslot := tslot, tloops := y.loops,
    loops := { y.loops with count0 := y.loops.count0 &&& 0x7FFFFFFFFFFFFFFF,
                            count1 := y.loops.count1 &&& 0x7FFFFFFFFFFFFFFF },
    pc := y.tvec, slot := none, skip := false, wait := .run }

theorem enterTrap_vector {c : CoreId} {x : CtxId} (h : (s.ctx c x).tcause = 0) (hv : (s.ctx c x).tvec ≠ 0) (code : Nat)
    (v tpc tslot : Word) :
    s.enterTrap c x code v tpc tslot =
      (s.garnet (dieOf c).val 1 0 c.val (s.ctx c x).domain.toNat (code + v.toNat * 2 ^ 64)).mapCtx c x
        (trapped code v tpc tslot) := by
  rw [State.enterTrap, if_neg (not_not_intro h), if_neg hv]
  rfl

/-- A trap of the issuing context changes that context, and records itself. -/
theorem enterTrap_here (h : s.here.tcause = 0) (hv : s.here.tvec ≠ 0) (code : Nat) (v tpc tslot : Word) :
    s.enterTrap s.focus s.hereX code v tpc tslot =
      (s.garnet (dieOf s.focus).val 1 0 s.focus.val s.here.domain.toNat (code + v.toNat * 2 ^ 64)).mapHere
        (trapped code v tpc tslot) := by
  rw [enterTrap_vector h hv, State.mapHere]
  simp only [State.hereX, State.garnet_focus, State.garnet_core]
  rfl

/-- TRAP and BRK: what completing and then trapping does, by TCAUSE and TVEC. -/
theorem trapAfter_cases (hv : s.here.vIdle = true) (len code : Nat) (v : Word) :
    (s.here.tcause = 0 → s.here.tvec ≠ 0 →
      ∃ t, trapAfter s len code v = .next t ∧ t.here = trapped code v (s.here.retire len).pc 0 (s.here.retire len)) ∧
    (s.here.tcause ≠ 0 → ∃ u : State, u.here = s.here.retire len ∧
      trapAfter s len code v = .next (u.deliverTerminal s.focus s.hereX ⟨19, v, 2, 0⟩)) ∧
    (s.here.tcause = 0 → s.here.tvec = 0 → ∃ u : State, u.here = s.here.retire len ∧
      trapAfter s len code v = .next (u.deliverTerminal s.focus s.hereX ⟨20, v, 2, 0⟩)) := by
  have hhere : (s.retire len).here = s.here.retire len := State.here_mapHere ..
  have hctx : (s.retire len).ctx s.focus s.hereX = s.here.retire len := State.ctx_mapCtx_self ..
  have hX : (s.retire len).hereX = s.hereX := State.hereX_mapHere ..
  rw [trapAfter_idle hv]
  refine ⟨fun hc ht => ⟨_, rfl, ?_⟩, fun hc => ?_, fun hc ht => ?_⟩
  · have henter := enterTrap_here (s := s.retire len) (by rw [hhere, Ctx.retire_tcause, hc])
      (by rw [hhere, Ctx.retire_tvec]; exact ht) code v (s.here.retire len).pc 0
    rw [hX] at henter
    exact (congrArg State.here henter).trans ((State.here_mapHere ..).trans (congrArg _ ((here_garnet ..).trans hhere)))
  · exact ⟨_, (here_garnet ..).trans hhere, congrArg _ (enterTrap_double (by rw [hctx, Ctx.retire_tcause]; exact hc) ..)⟩
  · exact ⟨_, (here_garnet ..).trans hhere, congrArg _ (enterTrap_noVector (by rw [hctx, Ctx.retire_tcause]; exact hc)
      (by rw [hctx, Ctx.retire_tvec]; exact ht) ..)⟩

end

/-! ### Their encodings -/

/-- A row of format S without operands whose IMM16 is n. -/
theorem packS_imm16 {op : Nat} (hop : op < 2 ^ 8) (n : BitVec 16) :
    let w := packS op ⟨0, 0, 0, 0, n.toNat, 0, .none⟩
    BitVec.ofNat 32 w = BitVec.ofNat 32 (4 * op) ∧ BitVec.ofNat 32 (w / 2 ^ 32) = n.setWidth 32 <<< (2 : Nat) := by
  have hn := n.isLt
  have hw : packS op ⟨0, 0, 0, 0, n.toNat, 0, .none⟩ = 4 * op + n.toNat * 2 ^ 34 := by
    simp [packS, joinBits, Imm.len]
    omega
  refine ⟨BitVec.eq_of_toNat_eq ?_, BitVec.eq_of_toNat_eq ?_⟩
  · rw [hw, BitVec.toNat_ofNat, BitVec.toNat_ofNat]
    omega
  · rw [hw, BitVec.toNat_ofNat, BitVec.toNat_shiftLeft, BitVec.toNat_setWidth, Nat.shiftLeft_eq]
    omega

theorem encode_trap (n : BitVec 16) : encode (.trap n) = some [0x308, n.setWidth 32 <<< (2 : Nat)] := by
  obtain ⟨hlow, hhigh⟩ := packS_imm16 (by decide : 0xC2 < 2 ^ 8) n
  rw [encode_short (i := .trap n) (w := packS 0xC2 ⟨0, 0, 0, 0, n.toNat, 0, .none⟩) rfl nofun, hlow, hhigh]
  rfl

theorem encode_brk (n : BitVec 16) : encode (.brk n) = some [0x310, n.setWidth 32 <<< (2 : Nat)] := by
  obtain ⟨hlow, hhigh⟩ := packS_imm16 (by decide : 0xC4 < 2 ^ 8) n
  rw [encode_short (i := .brk n) (w := packS 0xC4 ⟨0, 0, 0, 0, n.toNat, 0, .none⟩) rfl nofun, hlow, hhigh]
  rfl

/-- Settles O16: TRAP and BRK complete, and their trap is entered at the state that leaves. -/
theorem trapAndBreak : Obligations.TrapAndBreak := by
  intro n s hopt hidle
  refine ⟨fun i code hi => ?_, rfl, rfl, encode_trap n, encode_brk n⟩
  have hexec : exec i s = trapAfter s 8 code (n.setWidth 64) := by
    obtain ⟨rfl, rfl⟩ | ⟨rfl, rfl⟩ := hi
    · exact noChunk_plain hopt _
    · exact noChunk_plain hopt _
  obtain ⟨htaken, hdouble, hnovec⟩ := trapAfter_cases hidle 8 code (n.setWidth 64)
  rw [hexec]
  refine ⟨fun hc hv => ?_, fun hc => ?_, fun hc hv => ?_⟩
  · obtain ⟨t, ht, hhere⟩ := htaken hc hv
    refine ⟨t, ht, ?_⟩
    rw [hhere]
    exact ⟨Ctx.retire_tvec .., rfl, rfl, rfl, rfl, rfl, Ctx.retire_regs ..⟩
  · obtain ⟨u, hu, ht⟩ := hdouble hc
    exact ⟨u, 2, 0, hu, ht⟩
  · obtain ⟨u, hu, ht⟩ := hnovec hc hv
    exact ⟨u, 2, 0, hu, ht⟩

/-- Settles O17: TRET is ILLEGAL outside trap code, and puts back in it what the trap's entry saved. -/
theorem trapReturn : Obligations.TrapReturn := by
  refine ⟨rfl, rfl, fun s => ⟨fun hc => ?_, fun hc => ?_⟩⟩
  · exact if_pos hc
  · refine ⟨s.here.trapReturn, (if_neg hc).trans (congrArg _ (mapHere_congr rfl)), rfl, rfl, rfl, rfl, rfl, rfl, rfl,
      fun hslot => ?_, fun hslot => ?_⟩
    · exact if_neg (by rw [bitOf, hslot]; decide)
    · exact ⟨_, if_pos hslot, rfl, rfl, rfl, rfl⟩

end Sys2Proof.Proofs
end

section
/-! What the scalar rows change, wait for and leave alone (R12, R16 to R18, R84, R104). -/

namespace Sys2Proof.Proofs

open Sys2Proof Sys2Proof.Machine Sys2Proof.Claims

/-! ### The scalar rows are S-pipe instructions -/

/-- The row is an S-pipe instruction on D whose sources are A, then B and C as far as it has them; a quiet one raises no
flag. -/
def ScalarRow (quiet : Prop) (o : FmtA) (s : State) (i : Instr) : Prop :=
  ∃ r imm f, exec i s = scalarOp (FmtA.len o) o.d (o.a :: r) imm f s ∧ r <+: [o.b, o.c] ∧
    (quiet → ∀ vs, (f vs).2 = 0)

section
variable {quiet : Prop} {o : FmtA} {s : State} {i : Instr} {imm : Word} {f : List Word → Word × BitVec 5}

theorem scalarRow_one (h : exec i s = scalarOp (FmtA.len o) o.d [o.a] imm f s) (hq : quiet → ∀ vs, (f vs).2 = 0) :
    ScalarRow quiet o s i := ⟨[], imm, f, h, ⟨[o.b, o.c], rfl⟩, hq⟩

theorem scalarRow_two (h : exec i s = scalarOp (FmtA.len o) o.d [o.a, o.b] imm f s) (hq : quiet → ∀ vs, (f vs).2 = 0) :
    ScalarRow quiet o s i := ⟨[o.b], imm, f, h, ⟨[o.c], rfl⟩, hq⟩

theorem scalarRow_three (h : exec i s = scalarOp (FmtA.len o) o.d [o.a, o.b, o.c] imm f s)
    (hq : quiet → ∀ vs, (f vs).2 = 0) : ScalarRow quiet o s i := ⟨[o.b, o.c], imm, f, h, ⟨[], rfl⟩, hq⟩

/-- EXT and INS on the field that their immediate names. -/
theorem execExt_eq (o : FmtA) (s : State) :
    let p := bitField o.imm
    execExt o s = scalarOp (FmtA.len o) o.d [o.a] 0 (fun vs =>
      (if o.t.isSigned then sx64 p.2 ((nth vs 0).toNat / 2 ^ p.1 % 2 ^ p.2)
        else zx64 p.2 ((nth vs 0).toNat / 2 ^ p.1 % 2 ^ p.2), 0)) s := rfl

theorem execIns_eq (o : FmtA) (s : State) :
    let p := bitField o.imm
    let m : Word := word ((2 ^ p.2 - 1) * 2 ^ p.1)
    let old : Word := match o.d with | .r n => s.here.reg n | _ => 0
    execIns o s = scalarOp (FmtA.len o) o.d [o.a] 0 (fun vs => ((old &&& ~~~m) ||| ((nth vs 0 <<< p.1) &&& m), 0)) s := by
  intro p m old
  unfold execIns
  rfl

theorem integerRows_scalar (o : FmtA) (s : State) : ∀ i ∈ integerRows o, ScalarRow True o s i := by
  have hone {i f} (h : exec i s = intOp o [o.a] f s) : ScalarRow True o s i := scalarRow_one h (fun _ _ => rfl)
  have htwo {i f} (h : exec i s = intOp o [o.a, o.b] f s) : ScalarRow True o s i := scalarRow_two h (fun _ _ => rfl)
  have hthree {i f} (h : exec i s = intOp o [o.a, o.b, o.c] f s) : ScalarRow True o s i := scalarRow_three h (fun _ _ => rfl)
  have hext {i f} (h : exec i s = extOp o f s) : ScalarRow True o s i := scalarRow_one h (fun _ _ => rfl)
  simp only [integerRows, List.forall_mem_cons]
  exact ⟨htwo (rfl : execAdd o s = _), htwo (rfl : execSub o s = _), htwo (rfl : execAnd o s = _),
    htwo (rfl : execOr o s = _), htwo (rfl : execXor o s = _), htwo (rfl : execAndn o s = _),
    htwo (rfl : execOrn o s = _), htwo (rfl : execShl o s = _), htwo (rfl : execShr o s = _),
    htwo (rfl : execSar o s = _), htwo (rfl : execRol o s = _), htwo (rfl : execRor o s = _),
    htwo (rfl : execMin o s = _), htwo (rfl : execMax o s = _), htwo (rfl : execSlt o s = _),
    htwo (rfl : execSeq o s = _), htwo (rfl : execSne o s = _), hone (rfl : execClz o s = _),
    hone (rfl : execCtz o s = _), hone (rfl : execPopc o s = _), hone (rfl : execBrev o s = _),
    hone (rfl : execBswap o s = _), hext (rfl : execSext o s = _), hext (rfl : execZext o s = _),
    htwo (rfl : execMul o s = _), htwo (rfl : execMulh o s = _), htwo (rfl : execDiv o s = _),
    htwo (rfl : execRem o s = _), hthree (rfl : execMadd o s = _),
    scalarRow_one (execExt_eq o s) (fun _ _ => rfl), scalarRow_one (execIns_eq o s) (fun _ _ => rfl),
    scalarRow_three (rfl : execSel o s = _) (fun _ _ => rfl), by simp⟩

theorem floatRows_scalar (o : FmtA) (src : Ty) (rm : Rounding) (s : State) : ∀ i ∈ floatRows o src rm, ScalarRow False o s i := by
  have hone {i f} (h : exec i s = floatOp o [o.a] f s) : ScalarRow False o s i := scalarRow_one h nofun
  have htwo {i f} (h : exec i s = floatOp o [o.a, o.b] f s) : ScalarRow False o s i := scalarRow_two h nofun
  have hthree {i f} (h : exec i s = floatOp o [o.a, o.b, o.c] f s) : ScalarRow False o s i := scalarRow_three h nofun
  have hcmp {i f} (h : exec i s = fcmpOp o f s) : ScalarRow False o s i := scalarRow_two h nofun
  simp only [floatRows, List.forall_mem_cons]
  exact ⟨htwo (rfl : execFadd o s = _), htwo (rfl : execFsub o s = _), htwo (rfl : execFmul o s = _),
    htwo (rfl : execFdiv o s = _), hone (rfl : execFsqrt o s = _), htwo (rfl : execFmin o s = _),
    htwo (rfl : execFmax o s = _), hthree (rfl : execFfma o s = _), hcmp (rfl : execFcmpEq o s = _),
    hcmp (rfl : execFcmpLt o s = _), hcmp (rfl : execFcmpLe o s = _), hcmp (rfl : execFcmpUn o s = _),
    scalarRow_one (rfl : execFcvt src rm o s = _) nofun, scalarRow_one (rfl : execFclass o s = _) nofun, by simp⟩

end

/-! ### What completing changes -/

/-- Completing an instruction changes no start and no end of a loop. -/
theorem retire_loopBounds (x : Ctx) (n : Nat) :
    let l := (x.retire n).loops
    l.start0 = x.loops.start0 ∧ l.end0 = x.loops.end0 ∧ l.start1 = x.loops.start1 ∧ l.end1 = x.loops.end1 := by
  have hcheck (y : Ctx) (fall : Word) :
      let l := (y.endCheck fall).loops
      l.start0 = y.loops.start0 ∧ l.end0 = y.loops.end0 ∧ l.start1 = y.loops.start1 ∧ l.end1 = y.loops.end1 := by
    by_cases hjump : endsHere y y.loops.count1 y.loops.end1 = true ∧ countLeft y.loops.count1 ≠ 0
    · rw [endCheck_inner y fall hjump]
      exact ⟨rfl, rfl, rfl, rfl⟩
    · rw [endCheck_outer y fall hjump]
      exact ⟨rfl, rfl, rfl, rfl⟩
  cases hs : x.slot with
  | none => rw [retire_noSlot hs]; exact hcheck x _
  | some p =>
    rw [retire_slot hs]
    split
    · exact ⟨rfl, rfl, rfl, rfl⟩
    · exact hcheck { x with slot := none } _

/-- The context that an S-pipe instruction leaves has its special registers, but for FFLAGS and the loop counts. -/
theorem specialsKept_scalar {x y : Ctx} {imm : Word} {ops : List Opnd} {vs : List Word} (ht : x.take imm ops = some (vs, y))
    (fl : BitVec 5) (d : Opnd) (v : Word) (n : Nat) : SpecialsKept x (((y.raise fl).put d v).retire n) := by
  obtain ⟨qs, rfl⟩ : ∃ qs, y = { x with queues := qs } := ⟨_, Ctx.take_eq ht⟩
  simpa [SpecialsKept] using retire_loopBounds ((Ctx.raise { x with queues := qs } fl).put d v) n

/-! ### Sources and destination -/

section
variable {x y : Ctx} {imm : Word} {ops : List Opnd} {vs : List Word}

theorem reg_congr {y : Ctx} (h : y.regs = x.regs) (n : Fin 32) : y.reg n = x.reg n := by
  rw [Ctx.reg, Ctx.reg, h]

theorem queue_congr {y : Ctx} (h : y.queues = x.queues) (q : Fin 8) : y.queue q = x.queue q := by
  rw [Ctx.queue, Ctx.queue, h]

/-- A source that is another queue leaves a queue as it is; one that is that queue takes one entry of it. -/
theorem queue_takeOne {o : Opnd} {v : Word} (h : x.takeOne imm o = some (v, y)) (q : Fin 8) :
    (o ≠ .q q → y.queue q = x.queue q) ∧ (y.queue q).length + 1 ≥ (x.queue q).length := by
  cases o with
  | r n | imm =>
    simp only [Ctx.takeOne, Option.some.injEq, Prod.mk.injEq] at h
    obtain ⟨-, rfl⟩ := h
    exact ⟨fun _ => rfl, Nat.le_succ _⟩
  | q n =>
    simp only [Ctx.takeOne] at h
    split at h
    · cases h
    · next w r hq =>
      simp only [Option.some.injEq, Prod.mk.injEq] at h
      obtain ⟨-, rfl⟩ := h
      by_cases hn : q = n
      · subst hn
        rw [Ctx.queue_setQueue_self, hq]
        exact ⟨fun hne => absurd rfl hne, Nat.le_refl _⟩
      · rw [Ctx.queue_setQueue_ne _ _ hn]
        exact ⟨fun _ => rfl, Nat.le_succ _⟩

theorem queue_take (h : x.take imm ops = some (vs, y)) (q : Fin 8) (hne : ∀ o ∈ ops, o ≠ .q q) : y.queue q = x.queue q := by
  induction ops generalizing x vs with
  | nil =>
    simp only [Ctx.take, Option.some.injEq, Prod.mk.injEq] at h
    rw [h.2]
  | cons o r ih =>
    simp only [Ctx.take] at h
    split at h
    · cases h
    · next v z hz =>
      split at h
      · cases h
      · next ws u hu =>
        simp only [Option.some.injEq, Prod.mk.injEq] at h
        obtain ⟨-, rfl⟩ := h
        obtain ⟨ho, hr⟩ := List.forall_mem_cons.mp hne
        exact (ih hu hr).trans ((queue_takeOne hz q).1 ho)

/-- A source whose queue is not empty is there. -/
theorem takeOne_isSome {o : Opnd} (h : ∀ q, o = .q q → x.queue q ≠ []) : ∃ v y, x.takeOne imm o = some (v, y) := by
  cases o with
  | r n | imm => exact ⟨_, _, rfl⟩
  | q n =>
    obtain ⟨v, r, hq⟩ := List.exists_cons_of_ne_nil (h n rfl)
    exact ⟨v, x.setQueue n r, by simp only [Ctx.takeOne, hq]⟩

/-- As many entries as sources are enough. -/
theorem take_isSome (h : ∀ q, .q q ∈ ops → ops.length ≤ (x.queue q).length) : ∃ vs y, x.take imm ops = some (vs, y) := by
  induction ops generalizing x with
  | nil => exact ⟨[], x, rfl⟩
  | cons o r ih =>
    obtain ⟨v, z, hz⟩ := takeOne_isSome (x := x) (imm := imm) (o := o) (fun q hq hnil => by
      have hlen := h q (hq ▸ List.mem_cons_self)
      rw [hnil] at hlen
      exact absurd hlen (by simp))
    obtain ⟨ws, y, hy⟩ := ih (x := z) (fun q hq => by
      have hlen := h q (List.mem_cons_of_mem _ hq)
      have hone := (queue_takeOne hz q).2
      rw [List.length_cons] at hlen
      omega)
    exact ⟨v :: ws, y, by simp only [Ctx.take, hz, hy]⟩

theorem reg_put_ne {d : Opnd} {n : Fin 32} (hne : d ≠ .r n) (v : Word) : (x.put d v).reg n = x.reg n := by
  cases d with
  | r m => exact x.reg_setReg_ne v (fun h => hne (congrArg _ h.symm))
  | q m | imm => rfl

theorem queue_put_ne {d : Opnd} {q : Fin 8} (hne : d ≠ .q q) (v : Word) : (x.put d v).queue q = x.queue q := by
  cases d with
  | r m => exact queue_congr (x.setReg_queues m v) q
  | q m => exact x.queue_setQueue_ne _ (fun h => hne (congrArg _ h.symm))
  | imm => rfl

end

/-- A change of the issuing context changes nothing else. -/
theorem onlyHere_mapHere (s : State) (f : Ctx → Ctx) : OnlyHere s (s.mapHere f) := by
  refine ⟨⟨f s.here, mapHere_congr rfl⟩, rfl, fun c => ?_, fun c x h => State.ctx_mapHere_ne s f h⟩
  by_cases hc : c = s.focus
  · subst hc
    rw [State.core_mapHere_self]
    exact ⟨rfl, rfl⟩
  · rw [State.core_mapHere_ne s f hc]
    exact ⟨rfl, rfl⟩

/-! ### The frame, completion and waiting of a row -/

section
variable {quiet : Prop} {o : FmtA} {s : State} {i : Instr}

theorem scalarRow_of_mem {src : Ty} {rm : Rounding} (h : i ∈ integerRows o ++ floatRows o src rm) : ScalarRow False o s i := by
  rcases List.mem_append.mp h with h | h
  · obtain ⟨r, imm, f, hexec, hr, -⟩ := integerRows_scalar o s i h
    exact ⟨r, imm, f, hexec, hr, nofun⟩
  · exact floatRows_scalar o src rm s i h

/-- Sources after A are B or C. -/
theorem mem_sources {r : List Opnd} (hr : r <+: [o.b, o.c]) {p : Opnd} (hp : p ∈ o.a :: r) : p = o.a ∨ p = o.b ∨ p = o.c := by
  have hsub := List.mem_cons.mp hp
  simpa using hsub.imp_right (fun h => hr.subset h)

/-- The context that a row leaves: it waits, or it is one completed with its sources read and its destination written. -/
theorem scalarRow_leaves {t : State} (h : ScalarRow quiet o s i) (ht : exec i s = .next t) :
    (∃ w, t = s.mapHere (fun x => { x with wait := w })) ∨
    (∃ imm ops vs x fl v, s.here.take imm ops = some (vs, x) ∧ (∀ p ∈ ops, p = o.a ∨ p = o.b ∨ p = o.c) ∧
      (quiet → fl = 0) ∧ t = s.mapHere (fun _ => ((x.raise fl).put o.d v).retire (FmtA.len o))) := by
  obtain ⟨r, imm, f, hexec, hr, hquiet⟩ := h
  rw [hexec] at ht
  obtain ⟨q, -, hop⟩ | ⟨-, -, hop⟩ | ⟨vs, x, -, htake, hop⟩ := scalarOp_cases (FmtA.len o) o.d (o.a :: r) imm f s
  · exact .inl ⟨_, (Host.Outcome.next.inj (hop.symm.trans ht)).symm⟩
  · exact .inl ⟨_, (Host.Outcome.next.inj (hop.symm.trans ht)).symm⟩
  · exact .inr ⟨imm, _, vs, x, _, _, htake, fun p hp => mem_sources hr hp, fun hq => hquiet hq vs,
      (Host.Outcome.next.inj (hop.symm.trans ht)).symm⟩

/-- A row changes the issuing context alone, and in it D, its sources and the flags it raises. -/
theorem scalarRow_frame {t : State} (h : ScalarRow quiet o s i) (ht : exec i s = .next t) :
    OnlyHere s t ∧ SpecialsKept s.here t.here ∧
    (∀ n : Fin 32, o.d ≠ .r n → t.here.reg n = s.here.reg n) ∧
    (∀ q : Fin 8, o.d ≠ .q q → o.a ≠ .q q → o.b ≠ .q q → o.c ≠ .q q → t.here.queue q = s.here.queue q) ∧
    (quiet → t.here.fflags = s.here.fflags) ∧ t.here.fflags &&& s.here.fflags = s.here.fflags := by
  obtain ⟨w, rfl⟩ | ⟨imm, ops, vs, x, fl, v, htake, hops, hquiet, rfl⟩ := scalarRow_leaves h ht
  · rw [State.here_mapHere]
    refine ⟨onlyHere_mapHere s _, ?_, fun _ _ => rfl, fun _ _ _ _ _ => rfl, fun _ => rfl, BitVec.and_self⟩
    unfold SpecialsKept
    simp
  · rw [State.here_mapHere]
    have hx := Ctx.take_eq htake
    have hflags : (((x.raise fl).put o.d v).retire (FmtA.len o)).fflags = s.here.fflags ||| fl := by
      rw [Ctx.retire_fflags, Ctx.put_fflags, hx]
      rfl
    refine ⟨onlyHere_mapHere s _, specialsKept_scalar htake fl o.d v _, fun n hd => ?_, fun q hd ha hb hc => ?_, fun hq => ?_, ?_⟩
    · rw [reg_congr (Ctx.retire_regs ..), reg_put_ne hd, reg_congr (Ctx.raise_regs ..)]
      exact reg_congr (by rw [hx]) n
    · rw [queue_congr (Ctx.retire_queues ..), queue_put_ne hd, queue_congr (Ctx.raise_queues ..)]
      refine queue_take htake q (fun p hp => ?_)
      rcases hops p hp with rfl | rfl | rfl
      · exact ha
      · exact hb
      · exact hc
    · rw [hflags, hquiet hq]
      exact BitVec.or_zero
    · rw [hflags]
      ext j
      simp only [BitVec.getElem_and, BitVec.getElem_or]
      exact Bool.and_eq_right_iff_imp.mpr (fun hj => by rw [hj, Bool.true_or])

/-- With room in its destination, and three entries in each queue it reads, a row completes. -/
theorem scalarRow_completes (h : ScalarRow quiet o s i) (hd : s.here.fullQueue o.d = none)
    (hq : ∀ q : Fin 8, o.a = .q q ∨ o.b = .q q ∨ o.c = .q q → 3 ≤ (s.here.queue q).length) :
    ∃ y : Ctx, exec i s = .next (s.mapHere (fun _ => y.retire (FmtA.len o))) ∧ y.pc = s.here.pc ∧ y.slot = s.here.slot := by
  obtain ⟨r, imm, f, hexec, hr, -⟩ := h
  have hlen : (o.a :: r).length ≤ 3 := Nat.succ_le_succ hr.length_le
  obtain ⟨vs, x, htake⟩ := take_isSome (x := s.here) (imm := imm) (ops := o.a :: r) (fun q hmem => by
    have hthree := hq q ((mem_sources hr hmem).imp Eq.symm (Or.imp Eq.symm Eq.symm))
    omega)
  have hx := Ctx.take_eq htake
  refine ⟨_, hexec.trans (scalarOp_done hd htake), ?_, ?_⟩
  · rw [Ctx.put_pc, Ctx.raise_pc, hx]
  · rw [Ctx.put_slot, Ctx.raise_slot, hx]

/-- A row whose destination queue is full waits to push, and one whose source A is empty waits to pop. -/
theorem scalarRow_waits (h : ScalarRow quiet o s i) :
    (∀ q, s.here.fullQueue o.d = some q → exec i s = .next (s.mapHere (fun x => { x with wait := .push q }))) ∧
    (s.here.fullQueue o.d = none → ∀ q : Fin 8, o.a = .q q → s.here.queue q = [] →
      ∃ w, exec i s = .next (s.mapHere (fun x => { x with wait := .pop w }))) := by
  obtain ⟨r, imm, f, hexec, hr, -⟩ := h
  refine ⟨fun q hd => hexec.trans (scalarOp_full hd), fun hd q ha hq => ⟨_, hexec.trans (scalarOp_empty hd ?_)⟩⟩
  simp only [Ctx.take, ha, Ctx.takeOne, hq]

end

/-! ### The operands (R12, R16, R84) and QLOCK (R18) -/

theorem fullQueue_none_iff (x : Ctx) (q : Fin 8) : x.fullQueue (.q q) = none ↔ (x.queue q).length < 8 := by
  have hroom : queueRoom = 8 := rfl
  simp [Ctx.fullQueue, hroom]

theorem operand_rules (x : Ctx) (n m : Fin 32) (q r : Fin 8) (imm v : Word) :
    x.reg 0 = 0 ∧ (x.put (.r 0) v).regs = x.regs ∧
    (n ≠ 0 → (x.put (.r n) v).reg n = v) ∧ (m ≠ n → (x.put (.r n) v).reg m = x.reg m) ∧
    (x.put (.q q) v).queue q = x.queue q ++ [v] ∧ (r ≠ q → (x.put (.q q) v).queue r = x.queue r) ∧
    (x.put (.q q) v).regs = x.regs ∧
    (x.fullQueue (.q q) = none ↔ (x.queue q).length < 8) ∧
    (∀ w l, x.queue q = w :: l → x.takeOne imm (.q q) = some (w, x.setQueue q l)) ∧
    (x.queue q = [] → x.takeOne imm (.q q) = none) ∧
    x.takeOne imm (.r n) = some (x.reg n, x) ∧ x.takeOne imm .imm = some (imm, x) :=
  ⟨rfl, rfl, fun hn => x.reg_setReg_self v hn, fun hne => x.reg_setReg_ne v hne, x.queue_setQueue_self q _,
    fun hne => x.queue_setQueue_ne _ hne, rfl, fullQueue_none_iff x q, fun w l hq => by simp only [Ctx.takeOne, hq],
    fun hq => by simp only [Ctx.takeOne, hq], rfl, rfl⟩

/-- QLOCK: with its pipes blocked for 4,096 cycles, the context is emptied and takes the trap. -/
theorem execQlock_taken {s : State} {c : CoreId} {x : CtxId} (harg : s.arg = .nums c.val x.val 0)
    (hact : (s.ctx c x).act.isSome = true) (hs : (s.ctx c x).sBlocked = true) (hv : (s.ctx c x).vBlocked = true)
    (hw : s.waitOver c x = false) (hb : 4096 ≤ (s.ctx c x).blocked) :
    execQlock s = .next ((s.mapCtx c x (fun y => { y with
      vq := [], queues := Vector.replicate 8 [], blocked := 0, wait := .run })).enterTrap c x causeQlock
        (((s.ctx c x).vq.head?.map (·.pc)).getD 0) (s.ctx c x).pc (slotWord (s.ctx c x).pc (s.ctx c x).slot)) := by
  have hcycles : Config.qlockCycles ≤ (s.ctx c x).blocked := hb
  rw [execQlock, withCtx_eq harg]
  simp only [hact, hs, hv, hw, Bool.and_true, Bool.not_false, hcycles, decide_true, stepIf_true]

/-- Settles O18: every row is an S-pipe instruction on its operands, which waits or completes. -/
theorem operandsAndFrames : Obligations.OperandsAndFrames := by
  refine ⟨fun o src rm i s t hi ht => ?_, fun o src rm i s hi hd hq => scalarRow_completes (scalarRow_of_mem hi) hd hq,
    fun o src rm i s hi => scalarRow_waits (scalarRow_of_mem hi), operand_rules, fun s c x e r harg => ?_⟩
  · obtain ⟨honly, hspecials, hregs, hqueues, -, hflags⟩ := scalarRow_frame (scalarRow_of_mem hi) ht
    refine ⟨honly, hspecials, hregs, hqueues, fun hint => ?_, hflags⟩
    obtain ⟨-, -, -, -, hquiet, -⟩ := scalarRow_frame (integerRows_scalar o s i hint) ht
    exact hquiet trivial
  · intro y hact hs hv hw hb hvq htc htv
    refine ⟨_, execQlock_taken harg hact hs hv hw hb, ?_⟩
    rw [enterTrap_vector (by rw [State.ctx_mapCtx_self]; exact htc) (by rw [State.ctx_mapCtx_self]; exact htv),
      State.ctx_mapCtx_self, State.garnet_ctx, State.ctx_mapCtx_self]
    refine ⟨rfl, fun q => ?_, rfl, ?_, rfl, rfl, rfl⟩
    · simp [trapped, Ctx.queue]
    · have hhead : (s.ctx c x).vq.head? = some e := congrArg List.head? hvq
      simp [trapped, hhead]

end Sys2Proof.Proofs
end

section
/-! Reads of a scratchpad (R224, R227, R229): what correcting its words changes, and what it leaves. -/

namespace Sys2Proof.Proofs

open Sys2Proof Sys2Proof.Machine Sys2Proof.Claims Sys2Proof.Laws

/-! ### Changes of two cores, or of two parts of a core -/

/-- Two entries of a table are set in either order. -/
theorem tabSet_comm {α : Type} (t : Tab α) {n m : Nat} (h : n ≠ m) (v w : α) :
    tabSet (tabSet t n v) m w = tabSet (tabSet t m w) n v := by
  induction t with
  | nil => simp only [tabSet]; grind
  | cons p r ih =>
    obtain ⟨k, u⟩ := p
    simp only [tabSet]
    grind [tabSet]

theorem mapCore_comm (s : State) (c d : CoreId) {f g : Core → Core} (h : ∀ k, f (g k) = g (f k)) :
    (s.mapCore c f).mapCore d g = (s.mapCore d g).mapCore c f := by
  by_cases hcd : c = d
  · subst hcd
    rw [State.mapCore_mapCore, State.mapCore_mapCore]
    simp only [h]
  · have hv : c.val ≠ d.val := fun e => hcd (Fin.ext e)
    have hd := State.core_mapCore_ne s f (Ne.symm hcd)
    have hc := State.core_mapCore_ne s g hcd
    rw [State.mapCore, hd, State.mapCore.eq_def (s.mapCore d g), hc]
    simp only [State.mapCore, State.setCore, tabSet_comm _ hv]

theorem garnet_mapCtx (s : State) (c : CoreId) (x : CtxId) (f : Ctx → Ctx) (n e src k d a : Nat) :
    (s.mapCtx c x f).garnet n e src k d a = (s.garnet n e src k d a).mapCtx c x f := by
  unfold State.garnet
  simp only [State.mapCtx_quartz]
  split
  · rfl
  · split <;> rfl

/-- The banks that a read of word w corrects: of a word that can be rebuilt, its set too (R229). -/
def corrected (k : Core) (w : Nat) : List Nat :=
  if k.wordLost w then []
  else
    match k.bankErr (w % 32) (w / 32) with
    | none => []
    | some hard => (if hard then (rebuildBanks w).filter (fun b => (k.bankErr b (w / 32)).isSome) else []) ++ [w % 32]

theorem scrubWord_eq (s : State) (tc : CoreId) (w : Nat) :
    s.scrubWord tc w = (corrected (s.core tc) w).foldl (fun u b => u.correctBank tc b (w / 32)) s := by
  by_cases hl : (s.core tc).wordLost w = true
  · simp only [State.scrubWord, corrected, hl, if_true, List.foldl_nil]
  · cases hb : (s.core tc).bankErr (w % 32) (w / 32) with
    | none => simp only [State.scrubWord, corrected, hl, hb, if_false, List.foldl_nil, Bool.false_eq_true]
    | some hard => simp only [State.scrubWord, corrected, hl, hb, if_false, Bool.false_eq_true]

theorem corrected_congr {k j : Core} (h : k.spadErrs = j.spadErrs) (w : Nat) : corrected k w = corrected j w := by
  simp only [corrected, Core.wordLost, Core.canRebuild, Core.bankErr, h]
  rfl

section
variable (s : State) (c : CoreId) (x : CtxId) (f : Ctx → Ctx) (tc : CoreId)

/-- The errors of a scratchpad do not depend on a context. -/
theorem spadErrs_mapCtx : ((s.mapCtx c x f).core tc).spadErrs = (s.core tc).spadErrs := by
  simp only [State.mapCtx, State.core_mapCore]
  split <;> rfl

theorem correctBank_mapCtx (bank row : Nat) :
    (s.mapCtx c x f).correctBank tc bank row = (s.correctBank tc bank row).mapCtx c x f := by
  rw [State.correctBank, State.correctBank, ← garnet_mapCtx]
  exact congrArg (fun u : State => u.garnet ..) (mapCore_comm s c tc (fun _ => rfl))

theorem scrubWord_mapCtx (w : Nat) : (s.mapCtx c x f).scrubWord tc w = (s.scrubWord tc w).mapCtx c x f := by
  rw [scrubWord_eq, scrubWord_eq, corrected_congr (spadErrs_mapCtx s c x f tc)]
  induction corrected (s.core tc) w generalizing s with
  | nil => rfl
  | cons b r ih => rw [List.foldl_cons, List.foldl_cons, correctBank_mapCtx, ih]

theorem spadScrub_mapCtx (off n : Nat) : (s.mapCtx c x f).spadScrub tc off n = (s.spadScrub tc off n).mapCtx c x f := by
  unfold State.spadScrub
  induction spadWords off n generalizing s with
  | nil => rfl
  | cons w r ih => rw [List.foldl_cons, List.foldl_cons, scrubWord_mapCtx, ih]

end

/-! ### What a read leaves -/

/-- Errors of scratchpad words may be gone; nothing else of a core, and no byte of device memory, has changed. -/
def Scrubbed (s t : State) : Prop :=
  t.hbm = s.hbm ∧ t.focus = s.focus ∧ ∀ c : CoreId, ∃ errs, t.core c = { s.core c with spadErrs := errs } ∧
    ∀ b r, { s.core c with spadErrs := errs }.bankErr b r = none ∨
      { s.core c with spadErrs := errs }.bankErr b r = (s.core c).bankErr b r

namespace Scrubbed
variable {s t u : State}

theorem refl (s : State) : Scrubbed s s := ⟨rfl, rfl, fun c => ⟨(s.core c).spadErrs, rfl, fun _ _ => .inr rfl⟩⟩

theorem trans (h : Scrubbed s t) (g : Scrubbed t u) : Scrubbed s u := by
  obtain ⟨h1, h2, h3⟩ := h
  obtain ⟨g1, g2, g3⟩ := g
  refine ⟨g1.trans h1, g2.trans h2, fun c => ?_⟩
  obtain ⟨e, he, hb⟩ := h3 c
  obtain ⟨e', he', hb'⟩ := g3 c
  rw [he] at he' hb'
  exact ⟨e', he', fun b r => (hb' b r).elim .inl (fun h' => (hb b r).imp h'.trans h'.trans)⟩

theorem foldl {α : Type} (f : State → α → State) (hf : ∀ u a, Scrubbed u (f u a)) (l : List α) (s : State) :
    Scrubbed s (l.foldl f s) := by
  induction l generalizing s with
  | nil => exact .refl s
  | cons a r ih => exact (hf s a).trans (ih (f s a))

end Scrubbed

/-- A bank word without its error: that error is gone, any other is as it was. -/
theorem bankErr_clearBank (k : Core) (b r b' r' : Nat) :
    (k.clearBank b r).bankErr b' r' = if b' = b ∧ r' = r then none else k.bankErr b' r' := by
  simp only [Core.bankErr, Core.clearBank, List.find?_filter]
  by_cases h : b' = b ∧ r' = r
  · obtain ⟨rfl, rfl⟩ := h
    rw [if_pos ⟨rfl, rfl⟩, List.find?_eq_none.mpr (fun e _ => by simp; tauto), Option.map_none]
  · rw [if_neg h]
    refine congrArg (fun p => Option.map _ (List.find? p k.spadErrs)) (funext fun e => ?_)
    by_cases he : e.bank = b' ∧ e.row = r'
    · obtain ⟨rfl, rfl⟩ := he
      have hkept : (!(e.bank == b && e.row == r)) = true := by simpa [imp_iff_not_or] using h
      simp [hkept]
    · have hother : (e.bank == b' && e.row == r') = false := by simpa using he
      simp [hother]

theorem scrubbed_correctBank (s : State) (tc : CoreId) (b r : Nat) : Scrubbed s (s.correctBank tc b r) := by
  refine ⟨State.garnet_hbm .., State.garnet_focus .., fun c => ?_⟩
  rw [State.correctBank, State.garnet_core, State.core_mapCore]
  split
  · refine ⟨_, rfl, fun b' r' => ?_⟩
    have hclear := bankErr_clearBank (s.core c) b r b' r'
    split at hclear
    · exact .inl hclear
    · exact .inr hclear
  · exact ⟨(s.core c).spadErrs, rfl, fun _ _ => .inr rfl⟩

theorem scrubbed_scrubWord (s : State) (tc : CoreId) (w : Nat) : Scrubbed s (s.scrubWord tc w) := by
  rw [scrubWord_eq]
  exact .foldl _ (fun u b => scrubbed_correctBank u tc b _) _ s

theorem scrubbed_spadScrub (s : State) (tc : CoreId) (off n : Nat) : Scrubbed s (s.spadScrub tc off n) :=
  .foldl _ (fun u w => scrubbed_scrubWord u tc w) _ s

/-! ### Which errors are gone -/

namespace Scrubbed
variable {s t : State}

theorem bankErr (h : Scrubbed s t) (c : CoreId) (b r : Nat) :
    (t.core c).bankErr b r = none ∨ (t.core c).bankErr b r = (s.core c).bankErr b r := by
  obtain ⟨errs, heq, hb⟩ := h.2.2 c
  rw [heq]
  exact hb b r

theorem spad (h : Scrubbed s t) (c : CoreId) : (t.core c).spad = (s.core c).spad := by
  obtain ⟨errs, heq, -⟩ := h.2.2 c
  rw [heq]

theorem opnd (h : Scrubbed s t) (c : CoreId) : (t.core c).opnd = (s.core c).opnd := by
  obtain ⟨errs, heq, -⟩ := h.2.2 c
  rw [heq]

theorem ctxs (h : Scrubbed s t) (c : CoreId) : (t.core c).ctxs = (s.core c).ctxs := by
  obtain ⟨errs, heq, -⟩ := h.2.2 c
  rw [heq]

theorem hereX (h : Scrubbed s t) : t.hereX = s.hereX := by
  obtain ⟨errs, heq, -⟩ := h.2.2 s.focus
  rw [State.hereX, State.hereX, h.2.1, heq]

theorem here (h : Scrubbed s t) : t.here = s.here := by
  rw [State.here, State.here, h.hereX, State.ctx, State.ctx, h.2.1, h.ctxs]

/-- A word that could be corrected still can be. -/
theorem wordLost (h : Scrubbed s t) (c : CoreId) {w : Nat} (hw : (s.core c).wordLost w = false) :
    (t.core c).wordLost w = false := by
  have hset (b : Nat) (hb : (s.core c).bankErr b (w / 32) ≠ some true) : (t.core c).bankErr b (w / 32) ≠ some true := by
    rcases h.bankErr c b (w / 32) with h' | h' <;> rw [h']
    · nofun
    · exact hb
  simp only [Core.wordLost, Bool.and_eq_false_iff, beq_eq_false_iff_ne, Bool.not_eq_false', Core.canRebuild, List.all_eq_true,
    bne_iff_ne] at hw ⊢
  exact hw.imp (hset _) (fun hall b hb => hset b (hall b hb))

end Scrubbed

theorem corrected_eq_nil {k : Core} {w : Nat} (h : k.bankErr (w % 32) (w / 32) = none) : corrected k w = [] := by
  simp only [corrected, h, ite_self]

/-- Reading a word that can be corrected leaves it without an error. -/
theorem scrubWord_clears {s : State} {tc : CoreId} {w : Nat} (hw : (s.core tc).wordLost w = false) :
    ((s.scrubWord tc w).core tc).bankErr (w % 32) (w / 32) = none := by
  cases hb : (s.core tc).bankErr (w % 32) (w / 32) with
  | none => exact ((scrubbed_scrubWord s tc w).bankErr tc _ _).elim id (fun h => h.trans hb)
  | some hard =>
    rw [scrubWord_eq, corrected, hw, hb, if_neg Bool.false_ne_true]
    simp only [List.foldl_append, List.foldl_cons, List.foldl_nil, State.correctBank, State.garnet_core,
      State.core_mapCore_self, bankErr_clearBank, true_and, if_true]

theorem foldl_scrubWord_clears {tc : CoreId} {w : Nat} (l : List Nat) (s : State) (hmem : w ∈ l)
    (hw : (s.core tc).wordLost w = false) :
    ((l.foldl (fun u v => u.scrubWord tc v) s).core tc).bankErr (w % 32) (w / 32) = none := by
  induction l generalizing s with
  | nil => cases hmem
  | cons v r ih =>
    have hscrub := scrubbed_scrubWord s tc v
    rcases List.mem_cons.mp hmem with rfl | hr
    · have hrest : Scrubbed (s.scrubWord tc w) (r.foldl (fun u v => u.scrubWord tc v) (s.scrubWord tc w)) :=
        .foldl _ (fun u v => scrubbed_scrubWord u tc v) r _
      exact (hrest.bankErr tc _ _).elim id (fun h => h.trans (scrubWord_clears hw))
    · exact ih (s.scrubWord tc v) hr (hscrub.wordLost tc hw)

theorem foldl_scrubWord_none {s : State} {tc : CoreId} (l : List Nat)
    (h : ∀ w ∈ l, (s.core tc).bankErr (w % 32) (w / 32) = none) : l.foldl (fun u v => u.scrubWord tc v) s = s := by
  induction l with
  | nil => rfl
  | cons w r ih =>
    obtain ⟨hw, hr⟩ := List.forall_mem_cons.mp h
    rw [List.foldl_cons, scrubWord_eq, corrected_eq_nil hw]
    exact ih hr

/-- A read of a scratchpad changes nothing but its errors: those that can be corrected are gone. -/
theorem spadScrub_rules (s : State) (tc : CoreId) (off n : Nat) :
    let t := s.spadScrub tc off n
    ((∀ w ∈ spadWords off n, (s.core tc).bankErr (w % 32) (w / 32) = none) → t = s) ∧
    (∀ w ∈ spadWords off n, (s.core tc).wordLost w = false → (t.core tc).bankErr (w % 32) (w / 32) = none) ∧
    t.hbm = s.hbm ∧ ∀ c : CoreId, (t.core c).spad = (s.core c).spad ∧ (t.core c).opnd = (s.core c).opnd ∧
      (t.core c).ctxs = (s.core c).ctxs := by
  have hscrub := scrubbed_spadScrub s tc off n
  exact ⟨foldl_scrubWord_none _, fun w hw hlost => foldl_scrubWord_clears _ s hw hlost, hscrub.1,
    fun c => ⟨hscrub.spad c, hscrub.opnd c, hscrub.ctxs c⟩⟩

/-- Reading a scratchpad and changing the issuing context are apart. -/
theorem spadScrub_mapHere (s : State) (f : Ctx → Ctx) (tc : CoreId) (off n : Nat) :
    (s.mapHere f).spadScrub tc off n = (s.spadScrub tc off n).mapHere f := by
  have hscrub := scrubbed_spadScrub s tc off n
  rw [State.mapHere, State.mapHere, spadScrub_mapCtx, hscrub.hereX, hscrub.2.1]

end Sys2Proof.Proofs
end

section
/-! Memory instructions of the S pipe whose accesses lie in scratchpads (R107, R280 to R286): their checks, and their
performance in one step. -/

namespace Sys2Proof.Proofs

open Sys2Proof Sys2Proof.Machine Sys2Proof.Claims Sys2Proof.Laws

/-! ### The checks (R280) -/

section
variable {s : State} {ea : Word} {size kind : Nat} {pol : Pol} {tc : CoreId} {off : Nat}

/-- Translated memory is no scratchpad. -/
theorem placeEntry_ne_spad (w : Who) (e : TlbEntry) (va : Nat) (t : Option TlbEntry) :
    s.placeEntry w e va size kind pol ≠ .at (.spad tc off) t := by
  have hcases {b b' b'' : Bool} {c c' c'' pa key : Nat} {home : HomeKind} {p : Pol} {e' : Option TlbEntry} :
      (if b then Placed.fault c else if b' then .fault c' else if b'' then .fault c'' else .at (.memory pa home key p) e') ≠
        .at (.spad tc off) t := by
    cases b <;> cases b' <;> cases b'' <;> nofun
  exact hcases

/-- An address placed in a scratchpad lies in a scratchpad's window. -/
theorem windowOf_spad {w : Who} {t : Option TlbEntry} (h : s.placeOf w ea size kind pol = .at (.spad tc off) t) :
    windowOf ea = some (.spad 0 0) := by
  unfold State.placeOf State.placeIn at h
  simp only at h
  split at h
  · cases h
  · split at h
    · split at h
      · cases h
      · exact absurd h (placeEntry_ne_spad _ _ _ _)
    · unfold windowOf
      split at h
      · next hl => rw [if_pos (by simpa using Or.inl hl)]
      · split at h
        · next hr => rw [if_pos (by simpa using Or.inr hr)]
        · cases h

/-- An aligned access that its checks place in a scratchpad, by a form that admits scratchpads. -/
theorem check_spad {bad : Place → Bool} (hbad : ∀ t o, bad (.spad t o) = false) (h : OnSpad s ea size kind pol tc off)
    (what : AccessKind) :
    s.check s.who pol bad ⟨ea, size, kind, what⟩ = .ok [⟨ea, size, .spad tc off, what⟩] [none] := by
  obtain ⟨halign, hplace⟩ := h
  have hwin : (windowOf ea).any bad = false := by rw [windowOf_spad hplace]; exact hbad 0 0
  simp only [State.check, halign, hwin, hplace, hbad, ne_eq, not_true_eq_false, if_false, Bool.false_eq_true]

end

/-! ### One instruction, its accesses in scratchpads -/

/-- An instruction's operation as it begins. -/
def MemForm.begun (f : MemForm) (as : List Access) : MemOp :=
  { todo := as, vals := [], fin := f.fin, len := f.len, acq := false, vpipe := false, out := false, storeAt := none, flags := 0 }

/-- Is an access one of a scratchpad? -/
def onSpad (a : Access) : Prop := ∃ t o, a.place = .spad t o

section
variable {s : State} {f : MemForm} {as : List Access}

/-- Accesses to scratchpads wait for nothing, and begin. -/
theorem memoryGo_spad (hready : MemReady s) (has : ∀ a ∈ as, onSpad a) :
    memoryGo f id s as = .next (s.begin s.focus s.hereX (MemForm.begun f as)) := by
  obtain ⟨-, hposted, hchunk⟩ := hready
  have hholds : s.postedHolds f.ord f.sys as = false := by
    simp [State.postedHolds, State.myStfs, hposted]
  have hstep : s.chunkAccess s.focus s.hereX as = .go s := by
    have hinactive : (s.ctx s.focus s.hereX).chunk.active = false := hchunk
    simp only [State.chunkAccess, hinactive, Bool.not_false, if_true]
  have hacq : acquires f.ord f.sys as = false := by
    have hany : as.any Access.translated = false := by
      rw [List.any_eq_false]
      intro a ha
      obtain ⟨t, o, hp⟩ := has a ha
      simp [Access.translated, hp]
    rw [acquires, hany, Bool.and_false]
  have hgo : letGo false as = as := by
    refine (List.map_congr_left (fun a ha => ?_)).trans (List.map_id as)
    obtain ⟨t, o, hp⟩ := has a ha
    simp only [hp]
    rfl
  simp only [memoryGo, hholds, hstep, hacq, hgo, Bool.false_eq_true, if_false]
  rfl

theorem memory_ready (hready : MemReady s) (ws : List Want) : memory f ws s = withPlaces s f.pol f.bad ws (memoryGo f id) := by
  simp only [memory, hready.1]

/-- One access. -/
theorem memory_one (hready : MemReady s) (hbad : ∀ t o, f.bad (.spad t o) = false) {ea : Word} {size kind : Nat} {tc : CoreId}
    {off : Nat} (h : OnSpad s ea size kind f.pol tc off) (what : AccessKind) :
    memory f [⟨ea, size, kind, what⟩] s =
      .next (s.begin s.focus s.hereX (MemForm.begun f [⟨ea, size, .spad tc off, what⟩])) := by
  rw [memory_ready hready]
  simp only [withPlaces, State.checkAll, check_spad hbad h, List.append_nil, List.foldl_cons, List.foldl_nil, State.microFill]
  exact memoryGo_spad hready (by simp [onSpad])

/-- Two accesses. -/
theorem memory_two (hready : MemReady s) (hbad : ∀ t o, f.bad (.spad t o) = false) {ea ea' : Word} {size size' kind kind' : Nat}
    {tc td : CoreId} {off off' : Nat} (h : OnSpad s ea size kind f.pol tc off) (h' : OnSpad s ea' size' kind' f.pol td off')
    (what what' : AccessKind) :
    memory f [⟨ea, size, kind, what⟩, ⟨ea', size', kind', what'⟩] s =
      .next (s.begin s.focus s.hereX (MemForm.begun f [⟨ea, size, .spad tc off, what⟩, ⟨ea', size', .spad td off', what'⟩])) := by
  rw [memory_ready hready]
  simp only [withPlaces, State.checkAll, check_spad hbad h, check_spad hbad h', List.append_nil, List.cons_append,
    List.nil_append, List.foldl_cons, List.foldl_nil, State.microFill]
  exact memoryGo_spad hready (by simp [onSpad])

end

/-! ### Performance -/

/-- A change of a context is what it makes of that context. -/
theorem mapCtx_congr {s : State} {c : CoreId} {x : CtxId} {f g : Ctx → Ctx} (h : f (s.ctx c x) = g (s.ctx c x)) :
    s.mapCtx c x f = s.mapCtx c x g :=
  congrArg (fun y => s.setCore c { s.core c with ctxs := (s.core c).ctxs.set x y }) h

section
variable {s u : State} {c : CoreId} {x : CtxId} {o : MemOp} {a : Access} {last : Option Access} {v : Word} {n : Nat}

/-- The value of one access is taken. -/
def MemOp.take (o : MemOp) (v : Word) : MemOp :=
  { o with todo := o.todo.tail, vals := o.vals ++ [v], out := false, storeAt := none }

/-- With nothing more to do the instruction ends. -/
theorem runOp_done (hop : (s.ctx c x).op = some o) (htodo : o.todo = []) : s.runOp (n + 1) c x last = s.finishOp c x o last := by
  simp only [State.runOp, hop, htodo]

/-- An access of a scratchpad that has its value at once. -/
theorem runOp_value (hop : (s.ctx c x).op = some o) {r : List Access} (htodo : o.todo = a :: r) (ha : onSpad a)
    (hacc : s.access c x a = .value u v) {o' : MemOp} (hop' : (u.ctx c x).op = some o') (htodo' : o'.todo = a :: r) :
    s.runOp (n + 1) c x last = (u.mapCtx c x (fun y => { y with op := some (MemOp.take o' v) })).runOp n c x (some a) := by
  obtain ⟨t, off, hp⟩ := ha
  have hgot : u.gotValue c x a v = (u, v) := by simp only [State.gotValue, hp]
  simp only [State.runOp, hop, htodo, hacc, hgot]
  refine congrArg (fun t : State => t.runOp n c x (some a)) (mapCtx_congr ?_)
  rw [hop', MemOp.take, htodo']
  rfl

theorem begin_eq : s.begin c x o = (s.mapCtx c x (fun y => { y with op := some o })).runOp (o.todo.length + 1) c x none := by
  simp only [State.begin, State.go, State.ctx_mapCtx_self]
  rfl

theorem mapCtx_mapCtx (s : State) (c : CoreId) (x : CtxId) (f g : Ctx → Ctx) :
    (s.mapCtx c x f).mapCtx c x g = s.mapCtx c x (fun y => g (f y)) := by
  simp only [State.mapCtx, State.mapCore_mapCore, Core.mapCtx_mapCtx]

/-- The bytes of a scratchpad do not depend on a context. -/
theorem spad_mapCtx (s : State) (c : CoreId) (x : CtxId) (f : Ctx → Ctx) (tc : CoreId) :
    ((s.mapCtx c x f).core tc).spad = (s.core tc).spad := by
  simp only [State.mapCtx, State.core_mapCore]
  split <;> rfl

theorem ctx_spadScrub (s : State) (tc : CoreId) (off n : Nat) : (s.spadScrub tc off n).ctx c x = s.ctx c x := by
  rw [State.ctx, State.ctx, (scrubbed_spadScrub s tc off n).ctxs]

/-- A load from a scratchpad takes the value of its bytes; the words read are corrected. -/
theorem runOp_load (s : State) (f : Ctx → Ctx) (hf : (f (s.ctx c x)).op = some o) {r : List Access} {tc : CoreId} {off : Nat}
    (htodo : o.todo = a :: r) (hplace : a.place = .spad tc off) (hkind : a.kind = .load) :
    (s.mapCtx c x f).runOp (n + 1) c x last =
      ((s.spadScrub tc off a.size).mapCtx c x
        (fun y => { f y with op := some (MemOp.take o (word (spadValue s tc off a.size))) })).runOp n c x (some a) := by
  have hacc : (s.mapCtx c x f).access c x a =
      .value ((s.spadScrub tc off a.size).mapCtx c x f) (word (spadValue s tc off a.size)) := by
    simp only [State.access, hplace, hkind, spadScrub_mapCtx, spad_mapCtx]
    rfl
  have hop : ((s.mapCtx c x f).ctx c x).op = some o := by rw [State.ctx_mapCtx_self, hf]
  have hop' : (((s.spadScrub tc off a.size).mapCtx c x f).ctx c x).op = some o := by
    rw [State.ctx_mapCtx_self, ctx_spadScrub, hf]
  rw [runOp_value hop htodo ⟨tc, off, hplace⟩ hacc hop' htodo, mapCtx_mapCtx]

/-- The context as its instruction leaves it. -/
theorem opDone_eq (y : Ctx) (hv : o.vpipe = false) :
    y.opDone o = MemDone { y with op := none, fflags := y.fflags ||| o.flags } o.len := by
  simp only [Ctx.opDone, hv, Bool.false_eq_true, if_false]
  rfl

theorem setReg_withOp (y : Ctx) (p : Option MemOp) (d : Fin 32) (v : Word) :
    { y with op := p }.setReg d v = { y.setReg d v with op := p } := by
  unfold Ctx.setReg
  split <;> rfl

/-- An instruction that raised no flag leaves what it made of a context that had none under way. -/
theorem opDone_withOp {z : Ctx} (hz : z.op = none) (hv : o.vpipe = false) (hfl : o.flags = 0) (p : Option MemOp) :
    { z with op := p }.opDone o = MemDone z o.len := by
  have hflags : z.fflags ||| 0 = z.fflags := BitVec.or_zero
  rw [opDone_eq _ hv, hfl]
  simp only [hflags, ← hz]

end

/-! ### LD -/

theorem size_le {z : Sz} (h : z ≠ .s16) : 1 ≤ z.bytes ∧ z.bytes ≤ 8 := by
  cases z <;> simp_all [Sz.bytes]

theorem spadValue_lt (s : State) (tc : CoreId) (off n : Nat) : spadValue s tc off n < 2 ^ (8 * n) := by
  have hlt := leNat_lt ((s.core tc).spad.bytes off n)
  rw [Memory.bytes, List.length_map, List.length_range, show 256 = 2 ^ 8 from rfl, ← pow_mul] at hlt
  exact hlt

/-- What LD makes of the bytes. -/
theorem loaded_eq (s : State) (tc : CoreId) (off : Nat) {n : Nat} (h : 1 ≤ n ∧ n ≤ 8) (signed : Bool) :
    (if signed then sx64 (8 * n) (word (spadValue s tc off n)).toNat else zxBytes n (word (spadValue s tc off n))) =
      loaded signed n (spadValue s tc off n) := by
  have hlt := spadValue_lt s tc off n
  have hpow : 2 ^ (8 * n) ≤ 2 ^ 64 := Nat.pow_le_pow_right (by decide) (by omega)
  have hword : (word (spadValue s tc off n)).toNat = (BitVec.ofNat (8 * n) (spadValue s tc off n)).toNat := by
    rw [word, BitVec.toNat_ofNat, BitVec.toNat_ofNat, Nat.mod_eq_of_lt (by omega), Nat.mod_eq_of_lt hlt]
  cases signed with
  | true =>
    simp only [if_true, loaded]
    rw [hword, sx64_toNat _ (by omega)]
  | false =>
    simp only [Bool.false_eq_true, if_false, loaded, zxBytes]
    rw [zx64, Nat.mod_eq_of_lt (by rw [hword]; exact (BitVec.ofNat (8 * n) _).isLt), BitVec.ofNat_toNat]
    exact BitVec.setWidth_eq _

section
variable {s : State} {m : FmtM} {tc : CoreId} {off : Nat}

theorem here_op (h : MemReady s) : s.here.op = none := by
  have hwait := h.1
  unfold Ctx.memWait at hwait
  split at hwait
  · cases hwait
  · next hop => simpa using hop

/-- A single load, performed. -/
theorem begin_load {f : MemForm} {ea : Word} {size : Nat} {d : Fin 32} {signed : Bool} (hready : MemReady s)
    (hfin : f.fin = .load d size signed) (hsize : 1 ≤ size ∧ size ≤ 8) :
    s.begin s.focus s.hereX (MemForm.begun f [⟨ea, size, .spad tc off, .load⟩]) =
      (s.spadScrub tc off size).mapHere (fun x => MemDone (x.setReg d (loaded signed size (spadValue s tc off size))) f.len) := by
  have hscrub := scrubbed_spadScrub s tc off size
  rw [begin_eq]
  refine (runOp_load s _ rfl rfl rfl rfl).trans ?_
  refine (runOp_done (o := _) (by rw [State.ctx_mapCtx_self]) rfl).trans ?_
  have hfinish (u : State) (o : MemOp) (hf : o.fin = f.fin) (hacq : o.acq = false) (c : CoreId) (x : CtxId) (l : Option Access) :
      u.finishOp c x o l = u.mapCtx c x (fun y => (y.setReg d
        (if signed then sx64 (8 * size) (o.vals[0]?.getD 0).toNat else zxBytes size (o.vals[0]?.getD 0))).opDone o) := by
    simp only [State.finishOp, hf, hfin, hacq, Bool.false_eq_true, if_false]
  rw [hfinish _ _ rfl rfl, mapCtx_mapCtx, State.mapHere, hscrub.hereX, hscrub.2.1]
  refine mapCtx_congr ?_
  rw [ctx_spadScrub]
  show (Ctx.setReg { s.here with op := _ } d _).opDone _ = MemDone (s.here.setReg d _) f.len
  rw [setReg_withOp, opDone_withOp (by rw [Ctx.setReg_op]; exact here_op hready) rfl rfl, ← loaded_eq s tc off hsize signed]
  rfl

theorem loadOp_spad {signed : Bool} (hready : MemReady s) (hsz : m.sz ≠ .s16)
    (h : OnSpad s (FmtM.addr m s.here) m.sz.bytes kindRead m.pol tc off) :
    loadOp m signed s = .next ((s.spadScrub tc off m.sz.bytes).mapHere (fun x =>
      MemDone (x.setReg m.d (loaded signed m.sz.bytes (spadValue s tc off m.sz.bytes))) (lenOff m.off))) := by
  simp only [loadOp, withSixteen, hsz, decide_false, Bool.false_and, Bool.false_eq_true, if_false]
  exact (memory_one (f := FmtM.form m _) hready (fun _ _ => rfl) h .load).trans
    (congrArg _ (begin_load hready rfl (size_le hsz)))

/-- Two loads, performed. -/
theorem begin_pair {f : MemForm} {ea ea' : Word} {d : Fin 32} {td : CoreId} {off' : Nat} (hready : MemReady s)
    (hfin : f.fin = .pair d) :
    s.begin s.focus s.hereX (MemForm.begun f [⟨ea, 8, .spad tc off, .load⟩, ⟨ea', 8, .spad td off', .load⟩]) =
      ((s.spadScrub tc off 8).spadScrub td off' 8).mapHere (fun x =>
        MemDone ((x.setReg d (word (spadValue s tc off 8))).setReg (Fin.ofNat 32 (d.val + 1)) (word (spadValue s td off' 8)))
          f.len) := by
  have hscrub := (scrubbed_spadScrub s tc off 8).trans (scrubbed_spadScrub _ td off' 8)
  have hvalue : spadValue (s.spadScrub tc off 8) td off' 8 = spadValue s td off' 8 := by
    rw [spadValue, (scrubbed_spadScrub s tc off 8).spad, spadValue]
  rw [begin_eq]
  refine (runOp_load s _ rfl rfl rfl rfl).trans ?_
  refine (runOp_load _ _ rfl rfl rfl rfl).trans ?_
  refine (runOp_done (o := _) (by rw [State.ctx_mapCtx_self]) rfl).trans ?_
  have hfinish (u : State) (o : MemOp) (hf : o.fin = f.fin) (hacq : o.acq = false) (c : CoreId) (x : CtxId) (l : Option Access) :
      u.finishOp c x o l = u.mapCtx c x (fun y => ((y.setReg d (o.vals[0]?.getD 0)).setReg (Fin.ofNat 32 (d.val + 1))
        (o.vals[1]?.getD 0)).opDone o) := by
    simp only [State.finishOp, hf, hfin, hacq, Bool.false_eq_true, if_false]
  rw [hfinish _ _ rfl rfl, mapCtx_mapCtx, State.mapHere, hscrub.hereX, hscrub.2.1]
  refine mapCtx_congr ?_
  rw [ctx_spadScrub, ctx_spadScrub, hvalue]
  have hput (p : Option MemOp) (d' : Fin 32) (v v' : Word) :
      (Ctx.setReg { s.here with op := p } d v).setReg d' v' = { (s.here.setReg d v).setReg d' v' with op := p } :=
    (congrArg (fun y : Ctx => y.setReg d' v') (setReg_withOp s.here p d v)).trans (setReg_withOp (s.here.setReg d v) p d' v')
  exact (congrArg (fun y : Ctx => y.opDone _) (hput ..)).trans
    (opDone_withOp (by rw [Ctx.setReg_op, Ctx.setReg_op]; exact here_op hready) rfl rfl _)

theorem loadOp_sixteen {signed : Bool} {td : CoreId} {off' : Nat} (hready : MemReady s) (hsz : m.sz = .s16)
    (halign : (FmtM.addr m s.here).toNat % 16 = 0) (h : OnSpad s (FmtM.addr m s.here) 8 kindRead m.pol tc off)
    (h' : OnSpad s (FmtM.addr m s.here + 8) 8 kindRead m.pol td off') :
    loadOp m signed s = .next (((s.spadScrub tc off 8).spadScrub td off' 8).mapHere (fun x =>
      MemDone ((x.setReg m.d (word (spadValue s tc off 8))).setReg (Fin.ofNat 32 (m.d.val + 1))
        (word (spadValue s td off' 8))) (lenOff m.off))) := by
  have hno : ((FmtM.addr m s.here).toNat % 16 != 0) = false := bne_eq_false_iff_eq.mpr halign
  simp only [loadOp, withSixteen, hno, Bool.and_false, Bool.false_and, Bool.false_eq_true, if_false, if_pos hsz]
  exact (memory_two (f := FmtM.form m _) hready (fun _ _ => rfl) h h' .load .load).trans
    (congrArg _ (begin_pair hready rfl))

end

end Sys2Proof.Proofs
end

section
/-! Stores and atomics on a scratchpad (R227, R283, R285, R286, R289). -/

namespace Sys2Proof.Proofs

open Sys2Proof Sys2Proof.Machine Sys2Proof.Claims Sys2Proof.Laws

/-! ### A write to a scratchpad -/

/-- Errors cleared change neither the bytes nor the operand slots of a core. -/
theorem memories_clearErrs (l : List Nat) (k : Core) :
    (l.foldl Core.clearErr k).spad = k.spad ∧ (l.foldl Core.clearErr k).opnd = k.opnd := by
  induction l generalizing k with
  | nil => exact ⟨rfl, rfl⟩
  | cons w r ih => exact ih (k.clearErr w)

/-- A change of every core's contexts changes no memory of a core. -/
theorem memories_tabMapCtxs (s : State) (g : Ctx → Ctx) (c : CoreId) :
    let t := { s with cores := tabMap (fun _ k => { k with ctxs := k.ctxs.map g }) s.cores }
    (t.core c).spad = (s.core c).spad ∧ (t.core c).opnd = (s.core c).opnd := by
  simp only [State.core, tabGet_tabMap]
  cases tabGet s.cores c.val with
  | none => exact ⟨rfl, rfl⟩
  | some k => exact ⟨rfl, rfl⟩

/-- The bytes written, and no other of any memory. -/
theorem spadWrite_memories (s : State) (tc : CoreId) (off : Nat) (bs : List Byte) :
    (s.spadWrite tc off bs).hbm = s.hbm ∧ ∀ c : CoreId,
      ((s.spadWrite tc off bs).core c).opnd = (s.core c).opnd ∧
      ((s.spadWrite tc off bs).core c).spad = if c = tc then (s.core c).spad.setBytes off bs else (s.core c).spad := by
  have hscrub : Scrubbed s ((partWords off bs.length).foldl (fun u w => u.scrubWord tc w) s) :=
    .foldl _ (fun u w => scrubbed_scrubWord u tc w) _ s
  unfold State.spadWrite
  simp only
  generalize (partWords off bs.length).foldl (fun u w => u.scrubWord tc w) s = u at hscrub
  generalize (spadWords off bs.length).filter (wholeWord off bs.length) = whole
  have hput (c : CoreId) :
      ((u.mapCore tc (fun k => whole.foldl Core.clearErr { k with spad := k.spad.setBytes off bs })).core c).opnd =
          (s.core c).opnd ∧
        ((u.mapCore tc (fun k => whole.foldl Core.clearErr { k with spad := k.spad.setBytes off bs })).core c).spad =
          if c = tc then (s.core c).spad.setBytes off bs else (s.core c).spad := by
    rw [State.core_mapCore]
    split
    · obtain ⟨hspad, hopnd⟩ := memories_clearErrs whole { u.core c with spad := (u.core c).spad.setBytes off bs }
      rw [hspad, hopnd]
      exact ⟨hscrub.opnd c, congrArg (fun b : Memory => b.setBytes off bs) (hscrub.spad c)⟩
    · exact ⟨hscrub.opnd c, hscrub.spad c⟩
  split
  · refine ⟨hscrub.1, fun c => ?_⟩
    obtain ⟨hspad, hopnd⟩ := memories_tabMapCtxs
      (u.mapCore tc (fun k => whole.foldl Core.clearErr { k with spad := k.spad.setBytes off bs })) _ c
    exact ⟨hopnd.trans (hput c).1, hspad.trans (hput c).2⟩
  · exact ⟨hscrub.1, hput⟩

/-- Byte i of a word of n bytes. -/
theorem getD_leBytes_word {n i : Nat} (v : Word) (h : i < n) : (leBytes n v.toNat).getD i 0 = byteOf v i := by
  rw [getD_leBytes _ h, byteOf]
  apply BitVec.eq_of_toNat_eq
  rw [BitVec.toNat_ofNat, BitVec.extractLsb'_toNat, Nat.shiftRight_eq_div_pow, show 256 = 2 ^ 8 from rfl, ← pow_mul]

theorem onlyStored_spadWrite {s : State} {tc : CoreId} (hwf : (s.core tc).spad.wf = true) (off n : Nat) (v : Word) :
    OnlyStored s (s.spadWrite tc off (leBytes n v.toNat)) tc off n (byteOf v) := by
  obtain ⟨hhbm, hcores⟩ := spadWrite_memories s tc off (leBytes n v.toNat)
  refine ⟨hhbm, fun c => ⟨(hcores c).1, fun a => ?_⟩⟩
  rw [(hcores c).2]
  by_cases hc : c = tc
  · subst hc
    rw [if_pos rfl, Memory.get_setBytes hwf, leBytes_length]
    by_cases ha : off ≤ a ∧ a < off + n
    · rw [if_pos ha, if_pos ⟨rfl, ha⟩, getD_leBytes_word v (by omega)]
    · rw [if_neg ha, if_neg (fun h => ha h.2)]
  · rw [if_neg hc, if_neg (fun h => hc h.1)]

section
variable {s u : State} {tc : CoreId} {off n : Nat} {v : Nat → Byte} (c : CoreId) (x : CtxId) (f : Ctx → Ctx)

theorem memories_mapCtx (s : State) (k : CoreId) :
    ((s.mapCtx c x f).core k).spad = (s.core k).spad ∧ ((s.mapCtx c x f).core k).opnd = (s.core k).opnd := by
  simp only [State.mapCtx, State.core_mapCore]
  split <;> exact ⟨rfl, rfl⟩

/-- What is stored does not depend on a context before. -/
theorem onlyStored_before (h : OnlyStored (s.mapCtx c x f) u tc off n v) : OnlyStored s u tc off n v := by
  refine ⟨h.1, fun k => ?_⟩
  obtain ⟨hopnd, hget⟩ := h.2 k
  obtain ⟨hspad, hop⟩ := memories_mapCtx c x f s k
  rw [hop] at hopnd
  rw [hspad] at hget
  exact ⟨hopnd, hget⟩

/-- A change of a context stores nothing. -/
theorem onlyStored_after (h : OnlyStored s u tc off n v) : OnlyStored s (u.mapCtx c x f) tc off n v := by
  refine ⟨h.1, fun k => ?_⟩
  obtain ⟨hopnd, hget⟩ := h.2 k
  obtain ⟨hspad, hop⟩ := memories_mapCtx c x f u k
  rw [hspad, hop]
  exact ⟨hopnd, hget⟩

end

/-! ### What the issuing context keeps -/

theorem endCheck_pc (x : Ctx) (fall : Word) :
    (x.endCheck fall).pc =
      if endsHere x x.loops.count1 x.loops.end1 = true ∧ countLeft x.loops.count1 ≠ 0 then x.loops.start1
      else if endsHere x x.loops.count0 x.loops.end0 = true ∧ countLeft x.loops.count0 ≠ 0 then x.loops.start0 else fall := by
  by_cases hjump : endsHere x x.loops.count1 x.loops.end1 = true ∧ countLeft x.loops.count1 ≠ 0
  · rw [endCheck_inner x fall hjump, if_pos hjump]
  · rw [endCheck_outer x fall hjump, if_neg hjump]

/-- Where the program goes on depends on the pc, the slot and the loops. -/
theorem retire_pc_congr {x y : Ctx} (hp : y.pc = x.pc) (hs : y.slot = x.slot) (hl : y.loops = x.loops) (n : Nat) :
    (y.retire n).pc = (x.retire n).pc := by
  have hcheck {x y : Ctx} (hp : y.pc = x.pc) (hl : y.loops = x.loops) (fall : Word) :
      (y.endCheck fall).pc = (x.endCheck fall).pc := by
    have hends : endsHere y = endsHere x := by unfold endsHere; rw [hp]
    rw [endCheck_pc, endCheck_pc, hends, hl]
  have hfall : y.pc + word n = x.pc + word n := by rw [hp]
  cases hx : x.slot with
  | none => rw [retire_noSlot hx, retire_noSlot (hs.trans hx), hfall]; exact hcheck hp hl _
  | some p =>
    rw [retire_slot hx, retire_slot (hs.trans hx), hfall]
    split
    · rfl
    · exact hcheck (x := { x with slot := none }) (y := { y with slot := none }) hp hl _

/-- A memory instruction under way or over, the flags it raised, and what the context watches. -/
def memHeld (x : Ctx) (w : Option Watch) (o : Option MemOp) (fl : BitVec 5) : Ctx :=
  { x with op := o, watch := w, fflags := x.fflags ||| fl }

section
variable (x : Ctx) (w : Option Watch) (o : Option MemOp) (fl : BitVec 5) (d : Fin 32) (v : Word) (n : Nat)

/-- What a memory instruction that is over leaves of its context, but for D, flags and loop counts. -/
theorem memDone_keeps :
    let y := MemDone ((memHeld x w o fl).setReg d v) n
    SpecialsKept x y ∧ y.queues = x.queues ∧ y.fflags = x.fflags ||| fl ∧ y.pc = (x.retire n).pc ∧ y.op = o ∧
      y.regs = (x.setReg d v).regs := by
  have hpc : ((((memHeld x w o fl).setReg d v)).retire n).pc = (x.retire n).pc :=
    retire_pc_congr (x := x) (Ctx.setReg_pc (memHeld x w o fl) d v) (Ctx.setReg_slot (memHeld x w o fl) d v)
      (Ctx.setReg_loops (memHeld x w o fl) d v) n
  have hregs : (((memHeld x w o fl).setReg d v).retire n).regs = (x.setReg d v).regs := by
    rw [Ctx.retire_regs]
    unfold Ctx.setReg
    split <;> rfl
  have hbounds := retire_loopBounds ((memHeld x w o fl).setReg d v) n
  refine ⟨?_, ?_, ?_, hpc, ?_, hregs⟩
  · simpa [SpecialsKept, MemDone, memHeld] using hbounds
  · simp [MemDone, memHeld]
  · simp [MemDone, memHeld]
  · simp [MemDone, memHeld]

end

/-! ### ST and STF -/

section
variable {s : State} {m : FmtM} {tc : CoreId} {off : Nat}

/-- No chunk is logged by an access outside one. -/
theorem logSector_inactive {c : CoreId} {x : CtxId} (h : (s.ctx c x).chunk.active = false) (t : CoreId) (n : Nat) :
    s.logSector c x t n = s := by
  have hopt : (s.ctx c x).optimistic = false := by rw [Ctx.optimistic, h, Bool.false_and]
  simp only [State.logSector, hopt, Bool.false_and, Bool.false_eq_true, if_false]

/-- An access that has its value at once is the whole instruction: what its end makes of the state the access leaves. -/
theorem begin_one {f : MemForm} {a : Access} {u : State} {v : Word} {o : MemOp} {w : Option Watch}
    (ha : onSpad a)
    (hacc : (s.mapHere (fun y => { y with op := some (MemForm.begun f [a]) })).access s.focus s.hereX a = .value u v)
    (hf : u.focus = s.focus) (hx : u.hereX = s.hereX) (hu : u.here = { s.here with op := some o, watch := w })
    (ho : o.todo = [a]) :
    s.begin s.focus s.hereX (MemForm.begun f [a]) =
      (u.mapHere (fun y => { y with op := some (MemOp.take o v) })).finishOp s.focus s.hereX (MemOp.take o v) (some a) := by
  have hctx : u.ctx s.focus s.hereX = u.here := by rw [State.here, hf, hx]
  rw [begin_eq]
  refine (runOp_value (o := MemForm.begun f [a]) (o' := o) (by rw [State.mapHere, State.ctx_mapCtx_self]) rfl ha hacc
    (by rw [hctx, hu]) ho).trans ?_
  refine (runOp_done (o := MemOp.take o v) (by rw [State.ctx_mapCtx_self]) (congrArg List.tail ho)).trans ?_
  rw [State.mapHere, hf, hx]

theorem hereX_kept {t : State} (h : IssueKept s t) : t.hereX = s.hereX := by
  rw [State.hereX, State.hereX, h.1, (h.2 s.focus).1]

/-- The issuing context once its instruction is under way and has written to a scratchpad. -/
theorem here_spadWrite (o : MemOp) (bs : List Byte) :
    let u := (s.mapHere (fun y => { y with op := some o })).spadWrite tc off bs
    u.focus = s.focus ∧ u.hereX = s.hereX ∧ ∃ w, u.here = { s.here with op := some o, watch := w } := by
  have hkept := issueKept_spadWrite (s.mapHere (fun y => { y with op := some o })) tc off bs
  obtain ⟨w, hw⟩ := hkept.here
  rw [State.here_mapHere] at hw
  exact ⟨hkept.1, (hereX_kept hkept).trans (State.hereX_mapHere ..), w, hw⟩

/-- A store to a scratchpad, performed. -/
theorem begin_store {f : MemForm} {ea v : Word} {size : Nat} {what : AccessKind} (hready : MemReady s)
    (hwf : (s.core tc).spad.wf = true) (hfin : f.fin = .store) (hwhat : what = .store v ∨ what = .posted v) :
    let t := s.begin s.focus s.hereX (MemForm.begun f [⟨ea, size, .spad tc off, what⟩])
    OnlyStored s t tc off size (byteOf v) ∧ ∃ w, t.here = MemDone (memHeld s.here w none 0) f.len := by
  let o := MemForm.begun f [⟨ea, size, .spad tc off, what⟩]
  let s0 := s.mapHere (fun y => { y with op := some o })
  obtain ⟨hf, hx, w, hu⟩ := here_spadWrite (s := s) (tc := tc) (off := off) o (leBytes size v.toNat)
  have hinactive : (s0.ctx s.focus s.hereX).chunk.active = false := by
    rw [show s0.ctx s.focus s.hereX = _ from State.ctx_mapCtx_self ..]
    exact hready.2.2
  have hacc : s0.access s.focus s.hereX ⟨ea, size, .spad tc off, what⟩ = .value (s0.spadWrite tc off (leBytes size v.toNat)) 0 := by
    rcases hwhat with rfl | rfl <;> simp only [State.access, logSector_inactive hinactive]
  have hfinish (u : State) (o : MemOp) (ho : o.fin = f.fin) (hacq : o.acq = false) (c : CoreId) (x : CtxId) (l : Option Access) :
      u.finishOp c x o l = u.mapCtx c x (·.opDone o) := by
    simp only [State.finishOp, ho, hfin, hacq, Bool.false_eq_true, if_false]
    rfl
  have hspad : (s0.core tc).spad = (s.core tc).spad := spad_mapCtx ..
  intro t
  have ht : t = ((s0.spadWrite tc off (leBytes size v.toNat)).mapHere (fun y => { y with op := some (MemOp.take o 0) })).mapHere
      (·.opDone (MemOp.take o 0)) := by
    refine (begin_one ⟨tc, off, rfl⟩ hacc hf hx hu rfl).trans ?_
    rw [hfinish _ _ rfl rfl, State.mapHere.eq_def _ (·.opDone _), State.hereX_mapHere, State.mapHere_focus, hf, hx]
  refine ⟨?_, w, ?_⟩
  · rw [ht]
    have hstored := onlyStored_spadWrite (s := s0) (tc := tc) (hspad ▸ hwf) off size v
    rw [State.mapHere_mapHere]
    exact onlyStored_after _ _ _ (onlyStored_before _ _ _ hstored)
  · rw [ht, State.here_mapHere, State.here_mapHere, hu, opDone_eq _ rfl]
    rfl

theorem execSt_spad (hready : MemReady s) (hsz : m.sz ≠ .s16)
    (h : OnSpad s (FmtM.addr m s.here) m.sz.bytes kindWrite m.pol tc off) :
    execSt m s = .next (s.begin s.focus s.hereX (MemForm.begun (FmtM.form m .store)
      [⟨FmtM.addr m s.here, m.sz.bytes, .spad tc off, .store (s.here.reg m.d)⟩])) := by
  simp only [execSt, withSixteen, hsz, decide_false, Bool.false_and, Bool.false_eq_true, if_false]
  exact memory_one (f := FmtM.form m .store) hready (fun _ _ => rfl) h (.store (s.here.reg m.d))

theorem execStf_spad (hready : MemReady s) (h : OnSpad s (FmtM.addr m s.here) m.sz.bytes kindPosted m.pol tc off) :
    execStf m s = .next (s.begin s.focus s.hereX (MemForm.begun (FmtM.form m .store)
      [⟨FmtM.addr m s.here, m.sz.bytes, .spad tc off, .posted (s.here.reg m.d)⟩])) := by
  have hcheck := check_spad (bad := (FmtM.form m .store).bad) (fun _ _ => rfl) h (.posted (s.here.reg m.d))
  have hgo := memoryGo_spad (f := FmtM.form m .store) (as := [⟨FmtM.addr m s.here, m.sz.bytes, .spad tc off, .posted (s.here.reg m.d)⟩])
    hready (by simp [onSpad])
  rw [← hgo]
  simp only [execStf, hready.1, withPlaces, State.checkAll, FmtM.size, hcheck, List.append_nil, List.foldl_cons, List.foldl_nil,
    State.microFill, List.all_cons, List.all_nil, State.ownsWords, Bool.and_true, Bool.not_true, Bool.false_and,
    Bool.false_eq_true, if_false]

/-- ST and STF on a scratchpad. -/
theorem store_spad {kind : Nat} {i : Instr} (hready : MemReady s) (hwf : (s.core tc).spad.wf = true) (hsz : m.sz ≠ .s16)
    (hi : (i = .st m ∧ kind = kindWrite) ∨ (i = .stf m ∧ kind = 4))
    (h : OnSpad s (FmtM.addr m s.here) m.sz.bytes kind m.pol tc off) :
    ∃ t, exec i s = .next t ∧ OnlyStored s t tc off m.sz.bytes (byteOf (s.here.reg m.d)) ∧
      SpecialsKept s.here t.here ∧ t.here.regs = s.here.regs ∧ t.here.queues = s.here.queues ∧
      t.here.fflags = s.here.fflags ∧ t.here.pc = (s.here.retire (lenOff m.off)).pc ∧ t.here.op = none := by
  have hexec : ∃ what : AccessKind, (what = .store (s.here.reg m.d) ∨ what = .posted (s.here.reg m.d)) ∧
      exec i s = .next (s.begin s.focus s.hereX (MemForm.begun (FmtM.form m .store)
        [⟨FmtM.addr m s.here, m.sz.bytes, .spad tc off, what⟩])) := by
    rcases hi with ⟨rfl, rfl⟩ | ⟨rfl, rfl⟩
    · exact ⟨_, .inl rfl, execSt_spad hready hsz h⟩
    · exact ⟨_, .inr rfl, execStf_spad hready h⟩
  obtain ⟨what, hwhat, hexec⟩ := hexec
  obtain ⟨hstored, w, hhere⟩ := begin_store (f := FmtM.form m .store) (ea := FmtM.addr m s.here) (size := m.sz.bytes) (off := off)
    hready hwf rfl hwhat
  have hflags : s.here.fflags ||| 0 = s.here.fflags := BitVec.or_zero
  obtain ⟨hkept, hqueues, hfl, hpc, hop, hregs⟩ := memDone_keeps s.here w none 0 0 0 (lenOff m.off)
  refine ⟨_, hexec, hstored, ?_⟩
  rw [hhere]
  exact ⟨hkept, hregs, hqueues, hfl.trans hflags, hpc, hop⟩

end

end Sys2Proof.Proofs
end

section
/-! Atomics on a scratchpad word (R285, R286), and the statement about scratchpad accesses. -/

namespace Sys2Proof.Proofs

open Sys2Proof Sys2Proof.Machine Sys2Proof.Claims Sys2Proof.Laws

/-! ### Bytes of numbers -/

theorem leBytes_mod (n v : Nat) : leBytes n (v % 2 ^ (8 * n)) = leBytes n v := by
  induction n generalizing v with
  | zero => rfl
  | succ n ih =>
    have hpow : 2 ^ (8 * (n + 1)) = 256 * 2 ^ (8 * n) := by
      rw [Nat.mul_succ, Nat.add_comm, pow_add]
      rfl
    have hbyte : BitVec.ofNat 8 (v % (256 * 2 ^ (8 * n))) = BitVec.ofNat 8 v := by
      apply BitVec.eq_of_toNat_eq
      rw [BitVec.toNat_ofNat, BitVec.toNat_ofNat]
      exact Nat.mod_mul_right_mod v 256 _
    rw [leBytes, leBytes, hpow, hbyte, Nat.mod_mul_right_div_self, ih]

theorem leBytes_leNat (bs : List Byte) : leBytes bs.length (leNat bs) = bs := by
  induction bs with
  | nil => rfl
  | cons b r ih =>
    have hlt := b.isLt
    have hhead : BitVec.ofNat 8 (b.toNat + 256 * leNat r) = b := by
      apply BitVec.eq_of_toNat_eq
      rw [BitVec.toNat_ofNat]
      omega
    have htail : (b.toNat + 256 * leNat r) / 256 = leNat r := by omega
    rw [List.length_cons, leNat, leBytes, hhead, htail, ih]

/-- A byte read is that byte of the value read. -/
theorem get_eq_byteOf (s : State) (tc : CoreId) (off : Nat) {n i : Nat} (hi : i < n) (hn : n ≤ 8) :
    (s.core tc).spad.get (off + i) = byteOf (word (spadValue s tc off n)) i := by
  have hlen : ((s.core tc).spad.bytes off n).length = n := by rw [Memory.bytes, List.length_map, List.length_range]
  have hbytes := leBytes_leNat ((s.core tc).spad.bytes off n)
  have hlt := spadValue_lt s tc off n
  have hpow : 2 ^ (8 * n) ≤ 2 ^ 64 := Nat.pow_le_pow_right (by decide) (by omega)
  have hword : (word (spadValue s tc off n)).toNat = spadValue s tc off n := by
    rw [word, BitVec.toNat_ofNat, Nat.mod_eq_of_lt (by omega)]
  rw [hlen] at hbytes
  rw [← getD_leBytes_word _ hi, hword, spadValue, hbytes, Memory.bytes, List.getD_eq_getElem?_getD, List.getElem?_map,
    List.getElem?_range hi]
  rfl

/-! ### The function of an AMO (R285, R286) -/

section
variable {size : Nat} (a b c : BitVec (8 * size))

theorem signedOf_toNat (h : size = 4 ∨ size = 8) : signedOf size a.toNat = a.toInt := by
  rw [BitVec.toInt_eq_toNat_cond]
  rcases h with rfl | rfl
  · have hlt : a.toNat < 2 ^ 32 := a.isLt
    rw [show signedOf 4 = intOf .i32 from rfl]
    simp only [intOf, Ty.width, Ty.isSigned, Bool.true_and, Nat.mod_eq_of_lt hlt, decide_eq_true_eq]
    split <;> split <;> omega
  · have hlt : a.toNat < 2 ^ 64 := a.isLt
    rw [show signedOf 8 = intOf .i64 from rfl]
    simp only [intOf, Ty.width, Ty.isSigned, Bool.true_and, Nat.mod_eq_of_lt hlt, decide_eq_true_eq]
    split <;> split <;> omega

/-- What an AMO stores is what the model computes. -/
theorem amoResult_eq (h : size = 4 ∨ size = 8) {n op new : Nat} (ha : n % 2 ^ (8 * size) = a.toNat)
    (hb : op % 2 ^ (8 * size) = b.toNat) (hc : new % 2 ^ (8 * size) = c.toNat) (fn : AmoFn) :
    amoResult fn a b c = (amoNew fn size n op new).1.map (BitVec.ofNat (8 * size)) := by
  have hback (x : BitVec (8 * size)) : BitVec.ofNat (8 * size) x.toNat = x := by rw [BitVec.ofNat_toNat, BitVec.setWidth_eq]
  have hpick (p : Prop) [Decidable p] :
      (if p then a else b) = BitVec.ofNat (8 * size) (if p then a.toNat else b.toNat) := by
    split <;> rw [hback]
  cases fn with
  | add =>
    simp only [amoResult, amoNew, ha, hb, Option.map_some]
    rw [← BitVec.toNat_add, hback]
  | and => simp only [amoResult, amoNew, ha, hb, Option.map_some, ← BitVec.toNat_and, hback]
  | or => simp only [amoResult, amoNew, ha, hb, Option.map_some, ← BitVec.toNat_or, hback]
  | xor => simp only [amoResult, amoNew, ha, hb, Option.map_some, ← BitVec.toNat_xor, hback]
  | min =>
    simp only [amoResult, amoNew, ha, hb, Option.map_some, signedOf_toNat _ h, decide_eq_true_eq, hpick]
  | max =>
    simp only [amoResult, amoNew, ha, hb, Option.map_some, signedOf_toNat _ h, decide_eq_true_eq, hpick]
  | minn => simp only [amoResult, amoNew, ha, hb, Option.map_some, decide_eq_true_eq, hpick]
  | maxn => simp only [amoResult, amoNew, ha, hb, Option.map_some, decide_eq_true_eq, hpick]
  | swap => simp only [amoResult, amoNew, hb, Option.map_some, hback]
  | cas =>
    simp only [amoResult, amoNew, ha, hb, hc, BitVec.toNat_inj]
    split
    · rw [Option.map_some, hback]
    · rfl
  | fadd32 => simp only [amoResult, amoNew, ha, hb, Option.map_some]

end

theorem amoNew_flags {fn : AmoFn} (h : fn ≠ .fadd32) (size old op new : Nat) : (amoNew fn size old op new).2 = 0 := by
  cases fn with
  | fadd32 => exact absurd rfl h
  | add | and | or | xor | min | max | minn | maxn | swap | cas => rfl

/-! ### Performance -/

/-- A number written over a scratchpad word, if any. -/
def wordWritten (s : State) (tc : CoreId) (off size : Nat) : Option Nat → State
  | some n => s.spadWrite tc off (leBytes size n)
  | none => s

theorem scrubbed_issueKept {s t : State} (h : Scrubbed s t) : IssueKept s t := by
  refine ⟨h.2.1, fun c => ?_⟩
  obtain ⟨errs, heq, -⟩ := h.2.2 c
  rw [heq]
  exact .of_eq rfl rfl

section
variable {s : State} {tc : CoreId} {off size : Nat}

theorem spadAmo_eq (fn : AmoFn) (op new : Word) :
    s.spadAmo tc off size fn op new =
      (wordWritten (s.spadScrub tc off size) tc off size (amoNew fn size (spadValue s tc off size) op.toNat new.toNat).1,
        word (spadValue s tc off size), (amoNew fn size (spadValue s tc off size) op.toNat new.toNat).2) := by
  have hspad := (scrubbed_spadScrub s tc off size).spad tc
  simp only [State.spadAmo, hspad]
  rfl

theorem issueKept_amo (n : Option Nat) : IssueKept s (wordWritten (s.spadScrub tc off size) tc off size n) := by
  have hscrub := scrubbed_issueKept (scrubbed_spadScrub s tc off size)
  cases n with
  | none => exact hscrub
  | some n => exact hscrub.trans (issueKept_spadWrite _ _ _ _)

/-- The word stored, or the old one left in place. -/
theorem onlyStored_amo (hwf : (s.core tc).spad.wf = true) (hsize : size ≤ 8) (n : Option Nat) :
    OnlyStored s (wordWritten (s.spadScrub tc off size) tc off size n) tc off size
      (byteOf (((n.map (BitVec.ofNat (8 * size))).getD (BitVec.ofNat (8 * size) (spadValue s tc off size))).setWidth 64)) := by
  have hscrub := scrubbed_spadScrub s tc off size
  have hpow : 2 ^ (8 * size) ≤ 2 ^ 64 := Nat.pow_le_pow_right (by decide) (by omega)
  have hnum (k : Nat) : ((BitVec.ofNat (8 * size) k).setWidth 64).toNat = k % 2 ^ (8 * size) := by
    have hlt : k % 2 ^ (8 * size) < 2 ^ (8 * size) := Nat.mod_lt _ (by positivity)
    rw [BitVec.toNat_setWidth, BitVec.toNat_ofNat, Nat.mod_eq_of_lt (by omega)]
  cases n with
  | none =>
    refine ⟨hscrub.1, fun c => ⟨hscrub.opnd c, fun a => ?_⟩⟩
    show ((s.spadScrub tc off size).core c).spad.get a = _
    rw [hscrub.spad]
    by_cases hin : c = tc ∧ off ≤ a ∧ a < off + size
    · obtain ⟨rfl, hlo, hhi⟩ := hin
      rw [if_pos ⟨rfl, hlo, hhi⟩]
      have hget := get_eq_byteOf s c off (i := a - off) (n := size) (by omega) hsize
      rw [Nat.add_sub_cancel' hlo] at hget
      rw [hget, word, Option.map_none, Option.getD_none]
      refine congrArg (byteOf · _) (BitVec.eq_of_toNat_eq ?_)
      have hlt := spadValue_lt s c off size
      rw [hnum, BitVec.toNat_ofNat, Nat.mod_eq_of_lt hlt, Nat.mod_eq_of_lt (by omega)]
    · rw [if_neg hin]
  | some n =>
    have hstored := onlyStored_spadWrite (s := s.spadScrub tc off size) (tc := tc) (by rw [hscrub.spad]; exact hwf) off size
      ((BitVec.ofNat (8 * size) n).setWidth 64)
    rw [hnum, leBytes_mod] at hstored
    refine ⟨hstored.1.trans hscrub.1, fun c => ?_⟩
    obtain ⟨hopnd, hget⟩ := hstored.2 c
    exact ⟨hopnd.trans (hscrub.opnd c), fun a => by rw [← hscrub.spad c]; exact hget a⟩

end

section
variable {s : State} {m : FmtM} {tc : CoreId} {off : Nat}

/-- The end of an instruction under way with a result for D. -/
theorem opDone_held (x : Ctx) (w : Option Watch) {o : MemOp} (hv : o.vpipe = false) {fl : BitVec 5} (hfl : o.flags = fl)
    (d : Fin 32) {v v' : Word} (hvv : v = v') :
    (Ctx.setReg { x with op := some o, watch := w } d v).opDone o = MemDone ((memHeld x w none fl).setReg d v') o.len := by
  rw [opDone_eq _ hv, hfl, hvv]
  refine congrArg (MemDone · _) ?_
  unfold Ctx.setReg
  split <;> rfl

/-- The issuing context once its AMO is under way and has been performed at a scratchpad. -/
theorem here_amo (o : MemOp) (size : Nat) (n : Option Nat) (fl : BitVec 5) :
    let s0 := s.mapHere (fun y => { y with op := some o })
    let u := (wordWritten (s0.spadScrub tc off size) tc off size n).opFlags s.focus s.hereX fl
    u.focus = s.focus ∧ u.hereX = s.hereX ∧
      ∃ w, u.here = { s.here with op := some { o with flags := o.flags ||| fl }, watch := w } := by
  intro s0
  have hkept : IssueKept s0 (wordWritten (s0.spadScrub tc off size) tc off size n) := issueKept_amo n
  generalize wordWritten (s0.spadScrub tc off size) tc off size n = v at hkept
  have hf : v.focus = s.focus := hkept.1
  have hx : v.hereX = s.hereX := (hereX_kept hkept).trans (State.hereX_mapHere ..)
  obtain ⟨w, hw⟩ := hkept.here
  rw [State.here_mapHere] at hw
  have hflags : v.opFlags s.focus s.hereX fl =
      v.mapHere (fun y => { y with op := y.op.map (fun o => { o with flags := o.flags ||| fl }) }) := by
    rw [State.opFlags, State.mapHere, hf, hx]
  intro u
  have hu : u = v.mapHere _ := hflags
  rw [hu]
  refine ⟨hf, (State.hereX_mapHere ..).trans hx, w, ?_⟩
  rw [State.here_mapHere, hw]
  rfl

/-- An AMO of a scratchpad word, performed. -/
theorem begin_amo {f : MemForm} {ea op new : Word} {size : Nat} {d : Fin 32} (fn : AmoFn) (hready : MemReady s)
    (hwf : (s.core tc).spad.wf = true) (hsize : 1 ≤ size ∧ size ≤ 8) (hfin : f.fin = .amo d size) :
    let t := s.begin s.focus s.hereX (MemForm.begun f [⟨ea, size, .spad tc off, .amo fn op new⟩])
    let r := amoNew fn size (spadValue s tc off size) op.toNat new.toNat
    OnlyStored s t tc off size
        (byteOf (((r.1.map (BitVec.ofNat (8 * size))).getD (BitVec.ofNat (8 * size) (spadValue s tc off size))).setWidth 64)) ∧
      ∃ w, t.here = MemDone ((memHeld s.here w none r.2).setReg d (loaded false size (spadValue s tc off size))) f.len := by
  intro t r
  let o := MemForm.begun f [⟨ea, size, .spad tc off, .amo fn op new⟩]
  let s0 := s.mapHere (fun y => { y with op := some o })
  let v := wordWritten (s0.spadScrub tc off size) tc off size r.1
  obtain ⟨hf, hx, w, hu⟩ := here_amo (s := s) (tc := tc) (off := off) o size r.1 r.2
  have hinactive : (s0.ctx s.focus s.hereX).chunk.active = false := by
    rw [show s0.ctx s.focus s.hereX = _ from State.ctx_mapCtx_self ..]
    exact hready.2.2
  have hspad : (s0.core tc).spad = (s.core tc).spad := spad_mapCtx ..
  have hvalue : spadValue s0 tc off size = spadValue s tc off size := by rw [spadValue, hspad]; rfl
  have hacc : s0.access s.focus s.hereX ⟨ea, size, .spad tc off, .amo fn op new⟩ =
      .value (v.opFlags s.focus s.hereX r.2) (word (spadValue s tc off size)) := by
    simp only [State.access, logSector_inactive hinactive, spadAmo_eq, hvalue]
    rfl
  have hfinish (u : State) (o : MemOp) (ho : o.fin = f.fin) (hacq : o.acq = false) (c : CoreId) (x : CtxId) (l : Option Access) :
      u.finishOp c x o l = u.mapCtx c x (fun y => (y.setReg d (zxBytes size (o.vals[0]?.getD 0))).opDone o) := by
    simp only [State.finishOp, ho, hfin, hacq, Bool.false_eq_true, if_false]
  let o' : MemOp := MemOp.take { o with flags := o.flags ||| r.2 } (word (spadValue s tc off size))
  have ht : t = ((v.opFlags s.focus s.hereX r.2).mapHere (fun y => { y with op := some o' })).mapHere
      (fun y => (y.setReg d (zxBytes size (word (spadValue s tc off size)))).opDone o') := by
    refine (begin_one ⟨tc, off, rfl⟩ hacc hf hx hu rfl).trans ?_
    rw [hfinish _ _ rfl rfl, State.mapHere.eq_def _ (fun y => Ctx.opDone _ _), State.hereX_mapHere, State.mapHere_focus, hf, hx]
    rfl
  refine ⟨?_, w, ?_⟩
  · rw [ht, State.mapHere_mapHere]
    have hstored := onlyStored_amo (s := s0) (tc := tc) (off := off) (hspad ▸ hwf) hsize.2 r.1
    rw [hvalue] at hstored
    exact onlyStored_after _ _ _ (onlyStored_after _ _ _ (onlyStored_before _ _ _ hstored))
  · rw [ht, State.here_mapHere, State.here_mapHere, hu]
    exact opDone_held s.here w (o := o') rfl BitVec.zero_or d (loaded_eq s tc off hsize false)

/-- Each row of AMO is an AMO with its function. -/
theorem amoRows_exec (m : FmtM) (s : State) : ∀ p ∈ amoRows m, exec p.2 s = amoOp p.1 m s := by
  simp only [amoRows, List.forall_mem_cons]
  exact ⟨(rfl : execAmoAdd m s = _), (rfl : execAmoAnd m s = _), (rfl : execAmoOr m s = _), (rfl : execAmoXor m s = _),
    (rfl : execAmoMin m s = _), (rfl : execAmoMax m s = _), (rfl : execAmoMinn m s = _), (rfl : execAmoMaxn m s = _),
    (rfl : execAmoSwap m s = _), (rfl : execAmoCas m s = _), (rfl : execAmoFadd32 m s = _), by simp⟩

/-- Each row of AMO admits words of 4 bytes, or of 4 and 8. -/
theorem amoRows_shape (m : FmtM) :
    ∀ p ∈ amoRows m, ∃ sh ∈ [shapeAmo, shapeCas, shapeFadd32], p.2.shapeM = some (sh, m) := by
  simp [amoRows, Instr.shapeM]

theorem amo_size {fn : AmoFn} {i : Instr} (hi : (fn, i) ∈ amoRows m) (hwf : i.wellFormed = true) :
    m.sz.bytes = 4 ∨ m.sz.bytes = 8 := by
  obtain ⟨sh, hsh, hshape⟩ := amoRows_shape m _ hi
  have hbounds : sh.minSz = 4 ∧ sh.maxSz ≤ 8 := by
    clear hshape
    revert sh
    decide
  obtain ⟨hmin, hmax⟩ := hbounds
  have hcheck := check_of_wellFormed (b := sh.minSz ≤ m.sz.bytes && m.sz.bytes ≤ sh.maxSz) (e := .size) hwf (by
    simp [Instr.checks, hshape, ShapeM.checks])
  simp only [hmin, Bool.and_eq_true, decide_eq_true_eq] at hcheck
  cases hz : m.sz <;> simp [hz, Sz.bytes] at hcheck ⊢
  omega

/-- The form of an AMO. -/
def amoForm (m : FmtM) : MemForm := { FmtM.form m (.amo m.d (FmtM.size m)) with pol := .thru, bad := isPeerOrOperand }

theorem amoOp_spad (fn : AmoFn) (hready : MemReady s)
    (h : OnSpad s (FmtM.addr m s.here) m.sz.bytes kindRmw .thru tc off) :
    amoOp fn m s = .next (s.begin s.focus s.hereX (MemForm.begun (amoForm m)
      [⟨FmtM.addr m s.here, m.sz.bytes, .spad tc off, .amo fn (s.here.reg m.d) (s.here.reg (nextReg m.d))⟩])) :=
  memory_one (f := amoForm m) hready (fun _ _ => rfl) h _

/-- An AMO on a scratchpad. -/
theorem amo_spad {fn : AmoFn} {i : Instr} (hready : MemReady s) (hwf : (s.core tc).spad.wf = true) (hi : (fn, i) ∈ amoRows m)
    (hform : i.wellFormed = true) (h : OnSpad s (FmtM.addr m s.here) m.sz.bytes kindRmw .thru tc off) :
    let w := 8 * m.sz.bytes
    let old := BitVec.ofNat w (spadValue s tc off m.sz.bytes)
    let new := amoResult fn old ((s.here.reg m.d).setWidth w) ((s.here.reg (Fin.ofNat 32 (m.d.val + 1))).setWidth w)
    ∃ t, exec i s = .next t ∧
      OnlyStored s t tc off m.sz.bytes (byteOf ((new.getD old).setWidth 64)) ∧
      t.here.reg m.d = (if m.d = 0 then 0 else old.setWidth 64) ∧
      (∀ n, n ≠ m.d → t.here.reg n = s.here.reg n) ∧ t.here.queues = s.here.queues ∧
      (fn ≠ .fadd32 → t.here.fflags = s.here.fflags) ∧ SpecialsKept s.here t.here ∧
      t.here.pc = (s.here.retire (lenOff m.off)).pc := by
  intro w old new
  have hsize := amo_size hi hform
  have hle : 1 ≤ m.sz.bytes ∧ m.sz.bytes ≤ 8 := by omega
  obtain ⟨hstored, v, hhere⟩ := begin_amo (f := amoForm m)
    (ea := FmtM.addr m s.here) (op := s.here.reg m.d) (new := s.here.reg (nextReg m.d)) (off := off) fn hready hwf hle rfl
  have hnew : new = (amoNew fn m.sz.bytes (spadValue s tc off m.sz.bytes) (s.here.reg m.d).toNat
      (s.here.reg (nextReg m.d)).toNat).1.map (BitVec.ofNat w) :=
    amoResult_eq old _ _ hsize (BitVec.toNat_ofNat ..).symm (BitVec.toNat_setWidth ..).symm (BitVec.toNat_setWidth ..).symm fn
  have hold : loaded false m.sz.bytes (spadValue s tc off m.sz.bytes) = old.setWidth 64 := by
    have hlt := spadValue_lt s tc off m.sz.bytes
    refine BitVec.eq_of_toNat_eq ?_
    show (BitVec.ofNat 64 _).toNat = _
    rw [BitVec.toNat_ofNat, BitVec.toNat_setWidth, BitVec.toNat_ofNat, Nat.mod_eq_of_lt hlt]
  rw [← hnew] at hstored
  rw [hold] at hhere
  obtain ⟨hkept, hqueues, hfl, hpc, -, hregs⟩ := memDone_keeps s.here v none
    (amoNew fn m.sz.bytes (spadValue s tc off m.sz.bytes) (s.here.reg m.d).toNat (s.here.reg (nextReg m.d)).toNat).2
    m.d (old.setWidth 64) (lenOff m.off)
  refine ⟨_, (amoRows_exec m s _ hi).trans (amoOp_spad fn hready h), hstored, ?_⟩
  rw [hhere]
  refine ⟨?_, fun n hn => ?_, hqueues, fun hfn => ?_, hkept, hpc⟩
  · refine (reg_congr hregs m.d).trans ?_
    split
    · next hd => rw [hd]; rfl
    · next hd => exact Ctx.reg_setReg_self _ _ hd
  · exact (reg_congr hregs n).trans (Ctx.reg_setReg_ne _ _ hn)
  · refine hfl.trans ?_
    rw [amoNew_flags hfn]
    exact BitVec.or_zero

end

/-- Settles O19: the accesses are checked, begin and are performed in one step; what each touches follows from that. -/
theorem scratchpadAccess : Obligations.ScratchpadAccess := by
  refine ⟨fun m s tc off hready => ⟨fun hsz h => ⟨loadOp_spad hready hsz h, loadOp_spad hready hsz h⟩,
      fun td off' i hsz halign h h' hi => ?_⟩, spadScrub_rules,
    fun m s tc off kind i hready hwf hsz hi h => store_spad hready hwf hsz hi h,
    fun m fn i s tc off hready hwf hi hform h => amo_spad hready hwf hi hform h⟩
  rcases hi with rfl | rfl
  · exact loadOp_sixteen hready hsz halign h h'
  · exact loadOp_sixteen hready hsz halign h h'

end Sys2Proof.Proofs
end

section
/-! The frame of a saved context (R345, R346): where its parts lie. -/

namespace Sys2Proof.Proofs

open Sys2Proof Sys2Proof.Machine Sys2Proof.Claims Sys2Proof.Laws

/-! ### Blocks of a list of bytes -/

/-- Block i of blocks of n. -/
theorem flatMap_block {α β : Type} {f : α → List β} {n : Nat} (hf : ∀ a, (f a).length = n) (l : List α) {i : Nat}
    (hi : i < l.length) (rest : List β) : ((l.flatMap f ++ rest).drop (n * i)).take n = f l[i] := by
  induction l generalizing i with
  | nil => cases hi
  | cons a r ih =>
    rw [List.flatMap_cons, List.append_assoc]
    cases i with
    | zero =>
      rw [Nat.mul_zero, List.drop_zero]
      exact List.take_left' (hf a)
    | succ i =>
      rw [Nat.mul_succ, Nat.add_comm, ← List.drop_drop, List.drop_left' (hf a)]
      exact ih (Nat.lt_of_succ_lt_succ hi)

theorem flatMap_length {α β : Type} {f : α → List β} {n : Nat} (hf : ∀ a, (f a).length = n) (l : List α) :
    (l.flatMap f).length = n * l.length := by
  induction l with
  | nil => rfl
  | cons a r ih => rw [List.flatMap_cons, List.length_append, hf, ih, List.length_cons, Nat.mul_succ, Nat.add_comm]

/-- What lies past a part of n bytes. -/
theorem drop_part {β : Type} {a b : List β} {n : Nat} (ha : a.length = n) (k : Nat) : (a ++ b).drop (n + k) = b.drop k := by
  rw [← List.drop_drop, List.drop_left' ha]

theorem wordBytes_length (w : Word) : (wordBytes w).length = 8 := leBytes_length ..

theorem leWord_wordBytes (w : Word) : leWord (wordBytes w) = w := by
  have hlt := w.isLt
  apply BitVec.eq_of_toNat_eq
  rw [leWord, wordBytes, leNat_leBytes, BitVec.toNat_ofNat]
  omega

theorem leNat_leBytes_toNat {n : Nat} (w : BitVec (8 * n)) : leNat (leBytes n w.toNat) = w.toNat := by
  rw [leNat_leBytes, show 256 = 2 ^ 8 from rfl, ← pow_mul, Nat.mod_eq_of_lt w.isLt]

theorem pad_length (n : Nat) (bs : List Byte) : (pad n bs).length = n := by
  rw [pad, List.length_take, List.length_append, List.length_replicate]
  omega

/-! ### The parts of a frame -/

section
variable (v : Saved)

/-- The words at the head of a frame. -/
def frameHead : List Word :=
  [frameHeader v, addrField v.ctx.pc, slotWord v.ctx.pc v.ctx.slot, v.faddr, v.finfo, word v.lclk, word v.time,
    word (v.ctx.deadline.getD 0)]

/-- The bytes between the scalar and the vector registers. -/
def frameMiddle (x : Ctx) : List Byte :=
  (List.range 8).flatMap (fun i => leBytes 16 (x.mask (Fin.ofNat 8 i)).toNat) ++
  ((List.range 8).flatMap (fun i => pad 64 ((x.queue (Fin.ofNat 8 i)).flatMap wordBytes)) ++
  ([qstatWord x, x.fflags.zeroExtend 64, x.lease, x.tvec, x.tpc, x.tcause, x.tval, x.tslot].flatMap wordBytes ++
  (loopBytes x.loops ++ (loopBytes x.tloops ++
  ([batchWord x.batches, 0, sendrecWord x.sendrec, chunkWord x.chunk].flatMap wordBytes ++
  (List.replicate 128 0 ++
  (pad 256 ((x.stack.take 8).flatMap (fun l => (List.range 4).flatMap (fun w => wordBytes (ginfoWord l false w)))) ++
  pad 512 (x.redo.flatMap (fun e => wordBytes e.pc ++ wordBytes e.base)))))))))

theorem frameBytes_eq :
    frameBytes v = (frameHead v).flatMap wordBytes ++
      ((List.range 32).flatMap (fun i => wordBytes (v.ctx.reg (Fin.ofNat 32 i))) ++
      (frameMiddle v.ctx ++ ((List.range 32).flatMap (fun i => leBytes 128 (v.ctx.vreg (Fin.ofNat 32 i)).toNat) ++ []))) := by
  simp only [frameBytes, frameMiddle, List.append_assoc, List.append_nil]
  rfl

theorem frameHead_length : ((frameHead v).flatMap wordBytes).length = 0x40 := flatMap_length wordBytes_length _

theorem scalarBytes_length (x : Ctx) : ((List.range 32).flatMap (fun i => wordBytes (x.reg (Fin.ofNat 32 i)))).length = 0x100 :=
  flatMap_length (fun _ => wordBytes_length _) _

theorem frameMiddle_length (x : Ctx) : (frameMiddle x).length = 0x6C0 := by
  have hwords (l : List Word) : (l.flatMap wordBytes).length = 8 * l.length := flatMap_length wordBytes_length l
  have hmasks : ((List.range 8).flatMap (fun i => leBytes 16 (x.mask (Fin.ofNat 8 i)).toNat)).length = 16 * 8 :=
    flatMap_length (fun _ => leBytes_length ..) _
  have hqueues : ((List.range 8).flatMap (fun i => pad 64 ((x.queue (Fin.ofNat 8 i)).flatMap wordBytes))).length = 64 * 8 :=
    flatMap_length (fun _ => pad_length ..) _
  simp only [frameMiddle, List.length_append, hmasks, hqueues, hwords, loopBytes, pad_length, List.length_replicate,
    List.length_cons, List.length_nil]

/-- Word i of the head. -/
theorem frame_head {i : Nat} (hi : i < 8) : leWord (((frameBytes v).drop (8 * i)).take 8) = (frameHead v)[i] := by
  rw [frameBytes_eq, flatMap_block wordBytes_length _ (show i < (frameHead v).length from hi), leWord_wordBytes]
  rfl

theorem frame_scalar (n : Fin 32) : leWord (((frameBytes v).drop (0x40 + 8 * n.val)).take 8) = v.ctx.reg n := by
  have hn : n.val < (List.range 32).length := by rw [List.length_range]; exact n.isLt
  rw [frameBytes_eq, drop_part (frameHead_length v), flatMap_block (fun _ => wordBytes_length _) _ hn, leWord_wordBytes,
    List.getElem_range]
  exact congrArg v.ctx.reg (Fin.ext (Nat.mod_eq_of_lt n.isLt))

theorem frame_vector (n : Fin 32) : leNat (((frameBytes v).drop (0x800 + 128 * n.val)).take 128) = (v.ctx.vreg n).toNat := by
  have hn : n.val < (List.range 32).length := by rw [List.length_range]; exact n.isLt
  have hoff : 0x800 + 128 * n.val = 0x40 + (0x100 + (0x6C0 + 128 * n.val)) := by omega
  have hreg : (Fin.ofNat 32 n.val) = n := Fin.ext (Nat.mod_eq_of_lt n.isLt)
  rw [frameBytes_eq, hoff, drop_part (frameHead_length v), drop_part (scalarBytes_length v.ctx),
    drop_part (frameMiddle_length v.ctx), flatMap_block (fun _ => leBytes_length ..) _ hn, List.getElem_range, hreg]
  exact leNat_leBytes_toNat (n := 128) (v.ctx.vreg n)

theorem frame_length : (frameBytes v).length = 6144 := by
  have hvregs : ((List.range 32).flatMap (fun i => leBytes 128 (v.ctx.vreg (Fin.ofNat 32 i)).toNat)).length = 128 * 32 :=
    flatMap_length (fun _ => leBytes_length ..) _
  rw [frameBytes_eq, List.length_append, List.length_append, List.length_append, List.length_append, frameHead_length,
    scalarBytes_length, frameMiddle_length, hvregs, List.length_nil]

end

/-- The frame as the spec lays it out. -/
theorem frame_layout (v : Saved) (n : Fin 32) :
    let x := v.ctx
    let bs := frameBytes v
    let dword (off : Nat) : Word := leWord ((bs.drop off).take 8)
    (∀ q, (x.queue q).length ≤ 8) → x.redo.length ≤ 32 →
    bs.length = 6144 ∧
    dword 0 = word (1 + v.reason % 16 * 2 ^ 4 + v.cause % 256 * 2 ^ 8 + x.redo.length * 2 ^ 16 + v.heldCtx.val * 2 ^ 24 +
      x.ddepth * 2 ^ 26 + x.origin.toNat * 2 ^ 32 + x.domain.toNat * 2 ^ 48) ∧
    dword 0x8 = x.pc &&& 0x00FFFFFFFFFFFFFC ∧ dword 0x18 = v.faddr ∧ dword 0x20 = v.finfo ∧
    dword (0x40 + 8 * n.val) = x.reg n ∧
    leNat ((bs.drop (0x800 + 128 * n.val)).take 128) = (x.vreg n).toNat := by
  intro x bs dword _ _
  refine ⟨frame_length v, (frame_head v (i := 0) (by decide)).trans (congrArg word ?_), frame_head v (i := 1) (by decide),
    frame_head v (i := 3) (by decide), frame_head v (i := 4) (by decide), frame_scalar v n, frame_vector v n⟩
  simp only [x]
  omega

end Sys2Proof.Proofs
end

section
/-! Local traps entered, misaligned accesses, and accesses whose checks end in a fault (R107, R113, R188, R280). -/

namespace Sys2Proof.Proofs

open Sys2Proof Sys2Proof.Machine Sys2Proof.Claims Sys2Proof.Laws

/-! ### The entry of a trap (R113) -/

section
variable (s : State) (code : Nat) (value : Word)

theorem trap_idle (h : s.here.vIdle = true) :
    trap s code value = .next (s.enterTrap s.focus s.hereX code value s.here.pc (slotWord s.here.pc s.here.slot)) :=
  congrArg Host.Outcome.next (if_pos h)

theorem trap_busy (h : s.here.vIdle = false) : trap s code value = .next (s.mapHere (fun y => { y with wait := .vIdle })) := by
  refine congrArg Host.Outcome.next (if_neg ?_)
  rw [show (s.ctx s.focus s.hereX).vIdle = false from h]
  decide

theorem trap_entry :
    let y := s.here
    let g := s.garnet (dieOf s.focus).val 1 0 s.focus.val y.domain.toNat (code + value.toNat * 2 ^ 64)
    (y.vIdle = true → y.tcause = 0 → y.tvec ≠ 0 →
      ∃ t z, trap s code value = .next t ∧ t = g.mapHere (fun _ => z) ∧
        z.tpc = y.pc &&& 0x00FFFFFFFFFFFFFC ∧ z.tcause = word code ∧ z.tval = value ∧
        z.tslot = slotWord y.pc y.slot ∧ z.tloops = y.loops ∧
        z.loops.count0 = y.loops.count0 &&& 0x7FFFFFFFFFFFFFFF ∧ z.loops.count1 = y.loops.count1 &&& 0x7FFFFFFFFFFFFFFF ∧
        z.pc = y.tvec ∧ z.slot = none ∧
        z.queues = y.queues ∧ z.fflags = y.fflags ∧ z.regs = y.regs ∧ z.vregs = y.vregs ∧ z.kregs = y.kregs ∧
        z.tvec = y.tvec ∧ z.lease = y.lease ∧ z.domain = y.domain ∧ z.stack = y.stack) ∧
    (y.vIdle = true → y.tcause ≠ 0 →
      trap s code value = .next (g.deliverTerminal s.focus s.hereX ⟨19, value, 2, 0⟩)) ∧
    (y.vIdle = true → y.tcause = 0 → y.tvec = 0 →
      trap s code value = .next (g.deliverTerminal s.focus s.hereX ⟨20, value, 2, 0⟩)) ∧
    (y.vIdle = false → trap s code value = .next (s.mapHere (fun y => { y with wait := .vIdle }))) := by
  intro y g
  refine ⟨fun hv hc ht => ?_, fun hv hc => ?_, fun hv hc ht => ?_, trap_busy s code value⟩
  · refine ⟨_, trapped code value y.pc (slotWord y.pc y.slot) y, trap_idle s code value hv, ?_, rfl, rfl, rfl, rfl, rfl, rfl, rfl,
      rfl, rfl, rfl, rfl, rfl, rfl, rfl, rfl, rfl, rfl, rfl⟩
    rw [enterTrap_here hc ht]
    exact mapHere_congr (congrArg (trapped code value _ _) (here_garnet ..))
  · rw [trap_idle s code value hv, enterTrap_double hc]
    rfl
  · rw [trap_idle s code value hv, enterTrap_noVector hc ht]
    rfl

end

/-! ### Misaligned accesses (R280) -/

section
variable {s : State} {m : FmtM}

theorem check_align {pol : Pol} {bad : Place → Bool} {w : Want} (h : w.addr.toNat % w.size ≠ 0) :
    s.check s.who pol bad w = .align w.addr := if_pos h

theorem withPlaces_align {pol : Pol} {bad : Place → Bool} {w : Want} (h : w.addr.toNat % w.size ≠ 0)
    (g : State → List Access → Result) : withPlaces s pol bad [w] g = trap s causeAlign w.addr := by
  simp only [withPlaces, State.checkAll, check_align h]

theorem memory_align {f : MemForm} {w : Want} (hready : MemReady s) (h : w.addr.toNat % w.size ≠ 0) :
    memory f [w] s = trap s causeAlign w.addr := by
  rw [memory_ready hready, withPlaces_align h]

/-- A 16-byte form traps at once, any other where its access is checked. -/
theorem withSixteen_align (hready : MemReady s) (h : (FmtM.addr m s.here).toNat % m.sz.bytes ≠ 0) {r : Result}
    (hr : m.sz ≠ .s16 → r = trap s causeAlign (FmtM.addr m s.here)) :
    withSixteen m s r = trap s causeAlign (FmtM.addr m s.here) := by
  by_cases hsz : m.sz = .s16
  · have hne : ((FmtM.addr m s.here).toNat % 16 != 0) = true := by
      rw [hsz] at h
      exact bne_iff_ne.mpr h
    simp only [withSixteen, hsz, decide_true, hne, hready.1, Option.isNone_none, Bool.and_true, if_true]
  · simp only [withSixteen, hsz, decide_false, Bool.false_and, Bool.false_eq_true, if_false]
    exact hr hsz

theorem loadOp_align {signed : Bool} (hready : MemReady s) (h : (FmtM.addr m s.here).toNat % m.sz.bytes ≠ 0) :
    loadOp m signed s = trap s causeAlign (FmtM.addr m s.here) := by
  refine withSixteen_align hready h (fun hsz => ?_)
  rw [if_neg hsz]
  exact memory_align hready h

theorem execSt_align (hready : MemReady s) (h : (FmtM.addr m s.here).toNat % m.sz.bytes ≠ 0) :
    execSt m s = trap s causeAlign (FmtM.addr m s.here) := by
  refine withSixteen_align hready h (fun hsz => ?_)
  rw [if_neg hsz]
  exact memory_align hready h

theorem execStf_align (hready : MemReady s) (h : (FmtM.addr m s.here).toNat % m.sz.bytes ≠ 0) :
    execStf m s = trap s causeAlign (FmtM.addr m s.here) := by
  simp only [execStf, hready.1]
  exact withPlaces_align h _

theorem execWaita_align (hready : MemReady s) (h : (FmtM.addr m s.here).toNat % m.sz.bytes ≠ 0) :
    execWaita m s = trap s causeAlign (FmtM.addr m s.here) := by
  have hopt : s.here.optimistic = false := by rw [Ctx.optimistic, hready.2.2, Bool.false_and]
  have hsize : ¬(FmtM.addr m s.here).toNat % FmtM.size m = 0 := h
  rw [execWaita, noChunk_plain hopt]
  simp only [hready.1, hsize, if_false]
  exact withPlaces_align h _

/-- Every scalar memory row traps on a misaligned address. -/
theorem scalar_align {i : Instr} (hready : MemReady s) (h : (FmtM.addr m s.here).toNat % m.sz.bytes ≠ 0)
    (hi : i ∈ [.ldZeroExtending m, .ldSignExtending m, .st m, .stf m, .waita m] ++ (amoRows m).map (·.2)) :
    exec i s = trap s causeAlign (FmtM.addr m s.here) := by
  rcases List.mem_append.mp hi with hi | hi
  · simp only [List.mem_cons, List.not_mem_nil, or_false] at hi
    rcases hi with rfl | rfl | rfl | rfl | rfl
    · exact loadOp_align hready h
    · exact loadOp_align hready h
    · exact execSt_align hready h
    · exact execStf_align hready h
    · exact execWaita_align hready h
  · obtain ⟨p, hp, rfl⟩ := List.mem_map.mp hi
    rw [amoRows_exec m s p hp]
    exact memory_align hready h

/-! ### Vector accesses (R188) -/

/-- An aligned access that its checks place somewhere, by a form that admits every place. -/
theorem check_at {pol : Pol} {w : Want} {p : Place} {t : Option TlbEntry} (halign : w.addr.toNat % w.size = 0)
    (hp : s.placeOf s.who w.addr w.size w.kind pol = .at p t) :
    s.check s.who pol (fun _ => false) w = .ok [⟨w.addr, w.size, p, w.what⟩] [t] := by
  have hwin : (windowOf w.addr).any (fun _ => false) = false := by cases windowOf w.addr <;> rfl
  simp only [State.check, halign, hwin, hp, ne_eq, not_true_eq_false, if_false, Bool.false_eq_true]

/-- Of accesses checked in order, the first that is misaligned decides once those before it are placed. -/
theorem checkAll_align {pol : Pol} {pre post : List Want} {w : Want} (hw : w.addr.toNat % w.size ≠ 0)
    (hpre : ∀ v ∈ pre, v.addr.toNat % v.size = 0 ∧ ∃ p t, s.placeOf s.who v.addr v.size v.kind pol = .at p t) :
    s.checkAll s.who pol (fun _ => false) (pre ++ w :: post) = .align w.addr := by
  induction pre with
  | nil => simp only [List.nil_append, State.checkAll, check_align hw]
  | cons v r ih =>
    obtain ⟨⟨halign, p, t, hp⟩, hr⟩ := List.forall_mem_cons.mp hpre
    simp only [List.cons_append, State.checkAll, check_at halign hp, ih hr]

/-- The elements of a vector access, the first misaligned one after others that are placed. -/
def FailsAt (s : State) (m : FmtM) (kind : Nat) (pre post : List Nat) (e : Nat) : Prop :=
  FmtM.active m s.here = pre ++ e :: post ∧ (FmtM.eaElem m s.here e).toNat % m.sz.bytes ≠ 0 ∧
    ∀ i ∈ pre, (FmtM.eaElem m s.here i).toNat % m.sz.bytes = 0 ∧
      ∃ p t, s.placeOf s.who (FmtM.eaElem m s.here i) m.sz.bytes kind m.pol = .at p t

theorem withPlaces_failsAt {kind : Nat} {pre post : List Nat} {e : Nat} (h : FailsAt s m kind pre post e) (what : AccessKind)
    (g : State → List Access → Result) :
    withPlaces s m.pol (fun _ => false)
      ((FmtM.active m s.here).map (fun i => ⟨FmtM.eaElem m s.here i, m.sz.bytes, kind, what⟩)) g =
    trap s causeAlign (FmtM.eaElem m s.here e) := by
  obtain ⟨hactive, halign, hpre⟩ := h
  have hcheck := checkAll_align (s := s) (pol := m.pol)
    (pre := pre.map (fun i => ⟨FmtM.eaElem m s.here i, m.sz.bytes, kind, what⟩))
    (post := post.map (fun i => ⟨FmtM.eaElem m s.here i, m.sz.bytes, kind, what⟩))
    (w := ⟨FmtM.eaElem m s.here e, m.sz.bytes, kind, what⟩) halign (fun v hv => by
      obtain ⟨i, hi, rfl⟩ := List.mem_map.mp hv
      exact hpre i hi)
  rw [hactive, List.map_append, List.map_cons]
  simp only [withPlaces, hcheck]

theorem vectorLoad_align {i : Instr} {indexed : Bool} {pre post : List Nat} {e : Nat}
    (hw : FmtM.vWait m s.here indexed true = none) (h : FailsAt s m kindRead pre post e) :
    vectorLoad i m indexed s = trap s causeAlign (FmtM.eaElem m s.here e) := by
  have hne : (FmtM.active m s.here).isEmpty = false := by
    rw [h.1]
    cases pre <;> rfl
  simp only [vectorLoad, vectorLoadAt, hw, hne, Bool.false_eq_true, if_false]
  exact withPlaces_failsAt h .load _

theorem vectorStore_align {i : Instr} {indexed : Bool} {pre post : List Nat} {e : Nat}
    (hw : FmtM.vWait m s.here indexed false = none) (h : FailsAt s m kindWrite pre post e) :
    vectorStore i m indexed s = trap s causeAlign (FmtM.eaElem m s.here e) := by
  simp only [vectorStore, vectorStoreAt, hw]
  exact withPlaces_failsAt h (.store 0) _

theorem execVsto_align (hw : FmtM.vWait m s.here false false = none) (hactive : FmtM.active m s.here ≠ [])
    (h : (FmtM.eaElem m s.here 0).toNat % 64 ≠ 0) : execVsto m s = trap s causeAlign (FmtM.eaElem m s.here 0) := by
  have hne : (FmtM.active m s.here).isEmpty = false := by
    rw [List.isEmpty_eq_false_iff]
    exact hactive
  simp only [execVsto, operandStoreAt, hw, hne, Bool.false_eq_true, if_false]
  exact if_pos h

theorem vector_align (m : FmtM) (s : State) (indexed : Bool) (pre post : List Nat) (e : Nat) :
    (FmtM.vWait m s.here indexed true = none → FailsAt s m kindRead pre post e →
      exec (if indexed then .vldx m else .vld m) s = trap s 4 (FmtM.eaElem m s.here e)) ∧
    (FmtM.vWait m s.here indexed false = none → FailsAt s m kindWrite pre post e →
      exec (if indexed then .vstx m else .vst m) s = trap s 4 (FmtM.eaElem m s.here e)) ∧
    (FmtM.vWait m s.here false false = none → FmtM.active m s.here ≠ [] → (FmtM.eaElem m s.here 0).toNat % 64 ≠ 0 →
      exec (.vsto m) s = trap s 4 (FmtM.eaElem m s.here 0)) := by
  refine ⟨fun hw h => ?_, fun hw h => ?_, fun hw hactive h => execVsto_align hw hactive h⟩
  · cases indexed with
    | true => exact vectorLoad_align (i := .vldx m) hw h
    | false => exact vectorLoad_align (i := .vld m) hw h
  · cases indexed with
    | true => exact vectorStore_align (i := .vstx m) hw h
    | false => exact vectorStore_align (i := .vst m) hw h

/-! ### Faults of an access (R280) -/

theorem memory_fault {f : MemForm} {ea : Word} {size kind cause : Nat} (hready : MemReady s)
    (hbad : (windowOf ea).any f.bad = false) (halign : ea.toNat % size = 0)
    (h : s.placeOf s.who ea size kind f.pol = .fault cause) (what : AccessKind) :
    memory f [⟨ea, size, kind, what⟩] s = raise s ⟨cause, ea, kind % 4 + kind / 4, polCode f.pol⟩ := by
  rw [memory_ready hready]
  simp only [withPlaces, State.checkAll, State.check, halign, hbad, h, ne_eq, not_true_eq_false, if_false, Bool.false_eq_true]

/-- An aligned access whose checks end in a fault raises it. -/
theorem scalar_fault (m : FmtM) (s : State) (cause : Nat) (hready : MemReady s) (hsz : m.sz ≠ .s16) :
    let ea := FmtM.addr m s.here
    let faults (kind : Nat) (pol : Pol) : Prop := s.placeOf s.who ea m.sz.bytes kind pol = .fault cause
    ea.toNat % m.sz.bytes = 0 →
    (∀ i ∈ [Instr.ldZeroExtending m, .ldSignExtending m], faults kindRead m.pol →
      exec i s = raise s ⟨cause, ea, kindRead, polCode m.pol⟩) ∧
    (faults kindWrite m.pol → exec (.st m) s = raise s ⟨cause, ea, kindWrite, polCode m.pol⟩) ∧
    (∀ p ∈ amoRows m, faults kindRmw .thru → (windowOf ea).any isPeerOrOperand = false →
      exec p.2 s = raise s ⟨cause, ea, kindRmw, polCode .thru⟩) := by
  intro ea faults halign
  have hany : (windowOf ea).any (fun _ => false) = false := by cases windowOf ea <;> rfl
  have hload (signed : Bool) (h : faults kindRead m.pol) :
      loadOp m signed s = raise s ⟨cause, ea, kindRead, polCode m.pol⟩ := by
    simp only [loadOp, withSixteen, hsz, decide_false, Bool.false_and, Bool.false_eq_true, if_false]
    exact memory_fault (f := FmtM.form m _) hready hany halign h .load
  refine ⟨fun i hi h => ?_, fun h => ?_, fun p hp h hbad => ?_⟩
  · simp only [List.mem_cons, List.not_mem_nil, or_false] at hi
    rcases hi with rfl | rfl
    · exact hload false h
    · exact hload true h
  · show execSt m s = _
    simp only [execSt, withSixteen, hsz, decide_false, Bool.false_and, Bool.false_eq_true, if_false]
    exact memory_fault (f := FmtM.form m _) hready hany halign h (.store _)
  · rw [amoRows_exec m s p hp]
    exact memory_fault (f := amoForm m) hready hbad halign h _

end

end Sys2Proof.Proofs
end

section
/-! The delivery of a fault: what the reports, the saved frame and the end of the activation leave alone and what they
write (R142, R343 to R347). -/

namespace Sys2Proof.Proofs

open Sys2Proof Sys2Proof.Machine Sys2Proof.Claims Sys2Proof.Laws

variable {s t u : State} {c : CoreId} {x : CtxId}

/-! ### What is told to the rings and to Garnet -/

/-- What telling a ring, a token or Garnet of a fault leaves alone. -/
structure Told (s t : State) : Prop where
  core : ∀ c, t.core c = s.core c
  quartz : t.quartz = s.quartz
  clusters : t.clusters = s.clusters
  hbm : t.hbm = s.hbm
  onyx : t.onyx = s.onyx
  vfs : t.vfs = s.vfs
  sessions : ∀ d, (t.die d).sessions = (s.die d).sessions

namespace Told

theorem refl (s : State) : Told s s := ⟨fun _ => rfl, rfl, rfl, rfl, rfl, rfl, fun _ => rfl⟩

theorem trans (h : Told s t) (g : Told t u) : Told s u :=
  ⟨fun c => (g.core c).trans (h.core c), g.quartz.trans h.quartz, g.clusters.trans h.clusters, g.hbm.trans h.hbm, g.onyx.trans h.onyx,
    g.vfs.trans h.vfs, fun d => (g.sessions d).trans (h.sessions d)⟩

theorem ctx (h : Told s t) (c : CoreId) (x : CtxId) : t.ctx c x = s.ctx c x := by simp only [State.ctx, h.core]

theorem slot (h : Told s t) (c : CoreId) (n : SlotId) : t.slot c n = s.slot c n := by simp only [State.slot, h.core]

theorem frameFails (h : Told s t) (c : CoreId) (va : Nat) : t.frameFails c va = s.frameFails c va := by
  simp only [State.frameFails, State.cluster, State.keyLoaded, h.clusters, h.onyx]

end Told

theorem told_ring (s : State) (n : Nat) (e : BitVec 256) : Told s (s.ring n e) := ⟨fun _ => rfl, rfl, rfl, rfl, rfl, rfl, fun _ => rfl⟩

theorem told_mapDie (s : State) (d : DieId) {f : Die → Die} (h : (f (s.die d)).sessions = (s.die d).sessions) :
    Told s (s.mapDie d f) := by
  refine ⟨fun _ => rfl, rfl, rfl, rfl, rfl, rfl, fun e => ?_⟩
  by_cases he : e = d
  · subst he; rw [State.die_mapDie_self, h]
  · rw [State.die_mapDie_ne _ _ he]

theorem told_mapCtx {f : Ctx → Ctx} (h : f (s.ctx c x) = s.ctx c x) : Told s (s.mapCtx c x f) := by
  refine ⟨fun d => ?_, rfl, rfl, rfl, rfl, rfl, fun _ => rfl⟩
  by_cases hd : d = c
  · subst hd
    have hf : f (s.core d).ctxs[x] = (s.core d).ctxs[x] := h
    rw [State.mapCtx, State.core_mapCore_self, Core.mapCtx, hf]
    simp
  · rw [State.mapCtx, State.core_mapCore_ne _ _ hd]

theorem told_garnet (s : State) (n e src k d a : Nat) : Told s (s.garnet n e src k d a) := by
  unfold State.garnet
  split
  · exact told_mapDie s _ rfl
  · split <;> exact ⟨fun _ => rfl, rfl, rfl, rfl, rfl, rfl, fun _ => rfl⟩

theorem garnet_ringWaits (s : State) (n e src k d a : Nat) : (s.garnet n e src k d a).ringWaits = s.ringWaits := by
  unfold State.garnet
  split
  · rfl
  · split <;> rfl

/-- The rings of the functions a domain is bound to are told one after another. -/
theorem ringVfs_told (dom : BitVec 16) (b : BitVec 256) (vs : List (Nat × Vf)) (s : State) :
    let t := vs.foldl (fun s v => if v.2.domains.contains dom then s.ring (vfRing v.1) b else s) s
    Told s t ∧ ∃ l, t.ringWaits = s.ringWaits ++ l ∧
      ∀ w ∈ l, w.entry = b ∧ ∃ v ∈ vs, v.2.domains.contains dom = true ∧ w.ring = vfRing v.1 := by
  induction vs generalizing s with
  | nil => exact ⟨.refl s, [], (List.append_nil _).symm, by simp⟩
  | cons v r ih =>
    simp only [List.foldl_cons]
    by_cases hv : v.2.domains.contains dom = true
    · obtain ⟨htold, l, hl, hw⟩ := ih (s.ring (vfRing v.1) b)
      rw [if_pos hv]
      refine ⟨(told_ring s _ _).trans htold, { ring := vfRing v.1, entry := b } :: l, by rw [hl]; simp [State.ring], ?_⟩
      refine List.forall_mem_cons.mpr ⟨⟨rfl, v, List.mem_cons_self, hv, rfl⟩, fun w hm => ?_⟩
      obtain ⟨he, u, hu, hr⟩ := hw w hm
      exact ⟨he, u, List.mem_cons_of_mem _ hu, hr⟩
    · obtain ⟨htold, l, hl, hw⟩ := ih s
      rw [if_neg hv]
      refine ⟨htold, l, hl, fun w hm => ?_⟩
      obtain ⟨he, u, hu, hr⟩ := hw w hm
      exact ⟨he, u, List.mem_cons_of_mem _ hu, hr⟩

/-- Entries that a report of an entry of a domain adds, after the one of its terminal ring. -/
def VfEntries (s : State) (dom : BitVec 16) (b : BitVec 256) (l : List RingWait) : Prop :=
  ∀ w ∈ l, w.entry = b ∧ ∃ v ∈ s.vfs, v.2.domains.contains dom = true ∧ w.ring = vfRing v.1

theorem report_told (s : State) (die : DieId) (e : Entry) :
    Told s (s.report die e) ∧ ∃ l, (s.report die e).ringWaits =
      s.ringWaits ++ { ring := terminalRing e.domain, entry := e.bits s.quartz 0 1 } :: l ∧
        VfEntries s e.domain (e.bits s.quartz 0 1) l := by
  obtain ⟨htold, l, hl, hw⟩ := ringVfs_told e.domain (e.bits s.quartz 0 1) s.vfs (s.ring (terminalRing e.domain) (e.bits s.quartz 0 1))
  refine ⟨((told_ring s _ _).trans htold).trans (told_garnet _ _ _ _ _ _ _), l, ?_, hw⟩
  refine (garnet_ringWaits _ _ _ _ _ _ _).trans (hl.trans ?_)
  simp [State.ring]

theorem reportFrame_told (s : State) (c : CoreId) (x : CtxId) :
    Told s (s.reportFrame c x) ∧ ∃ b, (s.reportFrame c x).ringWaits = s.ringWaits ++ [{ ring := (dieOf c).val, entry := b }] ∧
      bitsOf b 7 0 = 36 := by
  refine ⟨(told_ring s _ _).trans (told_garnet _ _ _ _ _ _ _), _, garnet_ringWaits _ _ _ _ _ _ _, ?_⟩
  simp only [bitsOf, Entry.bits, coreEntry, BitVec.toNat_ofNat]
  omega

/-! ### Sessions (R321) -/

theorem foldl_fixed_of_mem {α β : Type} {f : β → α → β} {b : β} {l : List α} (h : ∀ a ∈ l, f b a = b) : l.foldl f b = b := by
  induction l with
  | nil => rfl
  | cons a r ih =>
    rw [List.foldl_cons, h a List.mem_cons_self]
    exact ih (fun a ha => h a (List.mem_cons_of_mem _ ha))

theorem abandonSessions_none {pick : DieId → Session → Bool} (h : ∀ d, ∀ p ∈ (s.die d).sessions, pick d p.2 = false) :
    s.abandonSessions pick = s := by
  unfold State.abandonSessions
  refine foldl_fixed_of_mem (fun d _ => foldl_fixed_of_mem (fun p hp => ?_))
  simp only [h _ p hp, Bool.false_eq_true, if_false]

/-- No session is one that the actor of a slot opened. -/
def NoSession (s : State) (c : CoreId) (n : SlotId) : Prop := ∀ d, ∀ p ∈ (s.die d).sessions, s.openedBy c n p.2 = false

theorem NoSession.told {n : SlotId} (hn : NoSession s c n) (h : Told s t) : NoSession t c n := by
  intro d p hp
  rw [h.sessions] at hp
  simpa only [State.openedBy, h.slot] using hn d p hp

/-! ### The saved frame (R344, R347) -/

/-- The context as a save for a fault keeps it. -/
def savedAs (s : State) (c : CoreId) (x : CtxId) (reason cause : Nat) (waits : Cause) (faddr finfo : Word) : Saved :=
  { ctx := (s.ctx c x).atSave, heldCtx := x, reason, cause, waits, faddr, finfo, lclk := (s.core c).lclk, time := s.quartz,
    order := (s.core c).acceptCount, resumable := false }

theorem Told.savedAs (h : Told s t) : savedAs t c x = savedAs s c x := by
  funext reason cause waits faddr finfo
  simp only [Proofs.savedAs, h.ctx, h.core, h.quartz]

theorem abortChunk_none (h : (s.ctx c x).chunk = .none) : s.abortChunk c x = s := by
  simp only [State.abortChunk, h]
  rfl

/-- What a saved frame leaves alone, and the device memory it writes. -/
theorem saveFrame_kept {reason cause : Nat} {waits : Cause} {faddr finfo : Word} (h : (s.ctx c x).chunk = .none) :
    let v := savedAs s c x reason cause waits faddr finfo
    ∃ u, s.saveFrame c x reason cause waits faddr finfo false = (u, v) ∧ Kept s u ∧
      ∃ w : State, w.hbm = s.hbm ∧ u.hbm = (w.kernelWrite c (s.ctx c x).frame.toNat (frameBytes v)).hbm := by
  simp only [State.saveFrame, abortChunk_none h]
  refine ⟨_, rfl, Kept.trans ((Kept.refl s).setCore ?_) (kept_kernelWrite _ c _ _), s.mapCore c (fun k =>
    { k with acceptCount := k.acceptCount + 1 }), rfl, rfl⟩
  exact ⟨rfl, fun y => ⟨(s.core c).ctxs[y].watch, rfl⟩⟩

/-! ### The end of an activation (R142) -/

theorem leaveMisses_hbm (s : State) (g : ClusterId) (w : MissWaiter) : (s.leaveMisses g w).hbm = s.hbm := by
  unfold State.leaveMisses
  dsimp only
  split <;> rfl

theorem leaveMisses_ringWaits (s : State) (g : ClusterId) (w : MissWaiter) : (s.leaveMisses g w).ringWaits = s.ringWaits := by
  unfold State.leaveMisses
  dsimp only
  split <;> rfl

/-- A context waits for no barrier and for no translation any more: no core, no entry of a ring and no device memory changes. -/
theorem leaveWaits_kept (s : State) (c : CoreId) (x : CtxId) :
    let t := (s.dropWaiter (.ctx c x)).leaveMisses (clusterOf c) (.ctx c x)
    CoresKept s t ∧ t.ringWaits = s.ringWaits ∧ t.hbm = s.hbm :=
  ⟨CoresKept.trans (t := s.dropWaiter (.ctx c x)) ⟨rfl, rfl, rfl⟩ (coresKept_leaveMisses _ _ _),
    leaveMisses_ringWaits _ _ _, leaveMisses_hbm _ _ _⟩

theorem ctx_mapCore (s : State) (c : CoreId) {f : Core → Core} (h : (f (s.core c)).ctxs = (s.core c).ctxs) (d : CoreId)
    (x : CtxId) : (s.mapCore c f).ctx d x = s.ctx d x := by
  by_cases hd : d = c
  · subst hd; simp only [State.ctx, State.core_mapCore_self, h]
  · simp only [State.ctx, State.core_mapCore_ne _ _ hd]

theorem ctx_leavePosted (s : State) (c : CoreId) (n : SlotId) (d : CoreId) (x : CtxId) :
    (s.leavePosted c n).ctx d x = s.ctx d x := by
  have hcore : ((s.leavePosted c n).core d).ctxs = (s.core d).ctxs := by
    simp only [State.core, State.leavePosted, tabGet_tabMap]
    cases tabGet s.cores d.val <;> rfl
  simp only [State.ctx, hcore]

theorem ctx_releaseMsg (s : State) (c : CoreId) (a : Activation) (d : CoreId) (x : CtxId) :
    (s.releaseMsg c a).ctx d x = s.ctx d x := by
  unfold State.releaseMsg
  dsimp only
  split
  · rw [ctx_mapCore _ c rfl, State.ctx_mapSlot]
  · rw [State.ctx_mapSlot]

theorem releaseMsg_memory (s : State) (c : CoreId) (a : Activation) :
    (s.releaseMsg c a).hbm = s.hbm ∧ (s.releaseMsg c a).ringWaits = s.ringWaits := by
  unfold State.releaseMsg
  dsimp only
  split <;> exact ⟨rfl, rfl⟩

/-- The actor of a running activation is IDLE after it, and nothing of it is saved. -/
structure Ended (s t : State) (c : CoreId) (n : SlotId) : Prop where
  state : (t.slot c n).state = .idle
  saved : (t.slot c n).saved = none
  ringWaits : t.ringWaits = s.ringWaits
  hbm : t.hbm = s.hbm

theorem leaveSlot_active {a : Activation} (h : (s.slot c a.slot).state = .active) :
    (∀ d x, (s.leaveSlot c a).ctx d x = s.ctx d x) ∧ Ended s (s.leaveSlot c a) c a.slot := by
  obtain ⟨hhbm, hring⟩ := releaseMsg_memory s c a
  have hstate := (state_releaseMsg s c a).trans h
  have hctx := ctx_releaseMsg s c a
  simp only [State.leaveSlot]
  generalize s.releaseMsg c a = u at hhbm hring hstate hctx ⊢
  generalize hv : u.mapSlot c a.slot _ = v
  have hslot : (v.slot c a.slot).state = .idle ∧ (v.slot c a.slot).saved = none := by
    rw [← hv, State.slot_mapSlot_self]
    simp [hstate]
  have himage (f : Word → Word) : v.imageHead c a.slot f = v := by simp only [State.imageHead, hslot.1]
  rw [himage, if_neg (by simp [hslot.1])]
  refine ⟨fun d x => by rw [← hv, State.ctx_mapSlot, hctx], hslot.1, hslot.2, ?_, ?_⟩
  · rw [← hv, State.mapSlot_ringWaits, hring]
  · rw [← hv, State.mapSlot_hbm, hhbm]

/-- A context freed: nobody waits for it any more, and it is as reset left it. -/
def freeCtx (s : State) (c : CoreId) (x : CtxId) : State :=
  ((s.dropWaiter (.ctx c x)).leaveMisses (clusterOf c) (.ctx c x)).mapCore c (fun k =>
    { k with guard := k.guard.leave (s.ctx c x).stack,
             ctxs := k.ctxs.set x { Ctx.reset with issued := (s.ctx c x).issued } })

theorem endActivation_eq {a : Activation} {terminal : Bool} (ha : (s.ctx c x).act = some a)
    (hk : (s.ctx c x).chunk = .none) (hs : (s.ctx c x).stops = []) (hd : a.drain = false) :
    s.endActivation c x terminal = ((freeCtx s c x).leavePosted c a.slot).leaveSlot c a := by
  have hrefuse : s.refusePreempts c (s.ctx c x).stops = s := by rw [hs]; rfl
  simp only [State.endActivation, releaseSerial_none hk, hrefuse, ha, hd, Bool.false_eq_true, if_false]
  rfl

theorem freeCtx_kept (s : State) (c : CoreId) (x : CtxId) :
    (freeCtx s c x).ctx c x = { Ctx.reset with issued := (s.ctx c x).issued } ∧
      (∀ n, (freeCtx s c x).slot c n = s.slot c n) ∧ (freeCtx s c x).ringWaits = s.ringWaits ∧
      (freeCtx s c x).hbm = s.hbm := by
  obtain ⟨hcores, hring, hhbm⟩ := leaveWaits_kept s c x
  refine ⟨?_, fun n => (slot_mapCore _ c c rfl n).trans (hcores.slot c n), hring, hhbm⟩
  rw [freeCtx, State.ctx, State.core_mapCore_self]
  exact Vector.getElem_set_self _

/-- A running activation ends: its context is as reset left it, and its actor IDLE. -/
theorem endActivation_active {a : Activation} {terminal : Bool} (ha : (s.ctx c x).act = some a)
    (hk : (s.ctx c x).chunk = .none) (hs : (s.ctx c x).stops = []) (hd : a.drain = false)
    (hstate : (s.slot c a.slot).state = .active) :
    (s.endActivation c x terminal).ctx c x = { Ctx.reset with issued := (s.ctx c x).issued } ∧
      Ended s (s.endActivation c x terminal) c a.slot := by
  obtain ⟨hctx, hslot, hring, hhbm⟩ := freeCtx_kept s c x
  have hposted := (leavePosted_kept (freeCtx s c x) c a.slot).2 c a.slot
  obtain ⟨hleft, hended⟩ := leaveSlot_active (s := (freeCtx s c x).leavePosted c a.slot) (a := a)
    (by rw [hposted, hslot, hstate])
  rw [endActivation_eq ha hk hs hd]
  exact ⟨by rw [hleft, ctx_leavePosted, hctx], hended.state, hended.saved, hended.ringWaits.trans hring,
    hended.hbm.trans hhbm⟩

end Sys2Proof.Proofs
end

section
/-! The delivery of a fault by its class: a retryable fault suspends the activation, a terminal one ends it or returns to
the caller of its gate (R343, R344, R347). -/

namespace Sys2Proof.Proofs

open Sys2Proof Sys2Proof.Machine Sys2Proof.Claims Sys2Proof.Laws

variable {s t : State} {c : CoreId} {x : CtxId} {a : Activation} {f : FaultInfo}

/-- A context runs an activation, of no drain, of which nothing is ordered and no chunk is open. -/
structure Running (s : State) (c : CoreId) (x : CtxId) (a : Activation) : Prop where
  act : (s.ctx c x).act = some a
  chunk : (s.ctx c x).chunk = .none
  stops : (s.ctx c x).stops = []
  state : (s.slot c a.slot).state = .active
  drain : a.drain = false

theorem Running.told (h : Running s c x a) (ht : Told s t) : Running t c x a := by
  obtain ⟨hact, hchunk, hstops, hstate, hdrain⟩ := h
  exact ⟨by rwa [ht.ctx], by rwa [ht.ctx], by rwa [ht.ctx], by rwa [ht.slot], hdrain⟩

theorem ctx_of_kept (h : Kept s t) (c : CoreId) (x : CtxId) : ∃ w, t.ctx c x = { s.ctx c x with watch := w } := (h.2 c).2 x

theorem slot_of_kept (h : Kept s t) (c : CoreId) (n : SlotId) : t.slot c n = s.slot c n := by
  simp only [State.slot, (h.2 c).1]

theorem Running.kept (h : Running s c x a) (hk : Kept s t) : Running t c x a := by
  obtain ⟨hact, hchunk, hstops, hstate, hdrain⟩ := h
  obtain ⟨w, hw⟩ := ctx_of_kept hk c x
  exact ⟨by rw [hw]; exact hact, by rw [hw]; exact hchunk, by rw [hw]; exact hstops, by rwa [slot_of_kept hk], hdrain⟩

theorem Running.end (h : Running s c x a) (terminal : Bool) :
    (s.endActivation c x terminal).ctx c x = { Ctx.reset with issued := (s.ctx c x).issued } ∧
      Ended s (s.endActivation c x terminal) c a.slot :=
  endActivation_active h.act h.chunk h.stops h.drain h.state

/-- The device memory of a state after a save is that of the state before it, with the frame written. -/
def FrameWritten (s t : State) (c : CoreId) (x : CtxId) (v : Saved) : Prop :=
  ∃ u : State, u.hbm = s.hbm ∧ t.hbm = (u.kernelWrite c (s.ctx c x).frame.toNat (frameBytes v)).hbm

/-! ### A frame that cannot be written (R344) -/

theorem frameLost_running (h : Running s c x a) (hn : NoSession s c a.slot) :
    (s.frameLost c x).ctx c x = { Ctx.reset with issued := (s.ctx c x).issued } ∧
      ((s.frameLost c x).slot c a.slot).state = .idle ∧ ((s.frameLost c x).slot c a.slot).saved = none ∧
      ∃ b, (s.frameLost c x).ringWaits = s.ringWaits ++ [{ ring := (dieOf c).val, entry := b }] ∧ bitsOf b 7 0 = 36 := by
  obtain ⟨htold, b, hb, hcause⟩ := reportFrame_told s c x
  have hlost : s.frameLost c x = (s.reportFrame c x).endActivation c x true := by
    simp only [State.frameLost, h.act, h.chunk, Chunk.none, Bool.false_and, Bool.false_eq_true, if_false,
      abandonSessions_none (hn.told htold)]
  obtain ⟨hctx, hended⟩ := (h.told htold).end true
  rw [hlost]
  exact ⟨by rw [hctx, htold.ctx], hended.state, hended.saved, b, hended.ringWaits.trans hb, hcause⟩

/-! ### A retryable fault (R343, R352) -/

/-- The lowest free token of the die is taken while no fault of the core waits for one and no open token is of the fault's
page. -/
theorem raiseToken_free {e : Entry} {w : TokenWaiter} {n : Nat} (hqueue : (s.core c).faultQueue = [])
    (hopen : e.cause = 3 ∨ (s.die (dieOf c)).faultTokens.all (fun p =>
      !(p.2.domain == e.domain && p.2.cause == e.cause && p.2.page == e.addr.toNat / 65536)) = true)
    (hn : n < 1024) (hfree : tabGet (s.die (dieOf c)).faultTokens (n + 1) = none)
    (htaken : ∀ j < n, (tabGet (s.die (dieOf c)).faultTokens (j + 1)).isSome = true) :
    ∃ t, s.raiseToken c e w = (t, n + 1) ∧ Told s t ∧
      t.ringWaits = s.ringWaits ++ [{ ring := (dieOf c).val, entry := e.bits s.quartz (n + 1) 1 }] := by
  have hnone : (if e.cause = 3 then none else (s.die (dieOf c)).faultTokens.find? (fun p =>
      p.2.domain == e.domain && p.2.cause == e.cause && p.2.page == pageOf e.addr)) = none := by
    split
    · rfl
    · next hc =>
      refine List.find?_eq_none.mpr (fun p hp => ?_)
      have hp := List.all_eq_true.mp (hopen.resolve_left hc) p hp
      simpa only [pageOf, Bool.not_eq_true, Bool.not_eq_true'] using hp
  have hlowest : (List.range 1024).find? (fun i => (tabGet (s.die (dieOf c)).faultTokens (i + 1)).isNone) = some n := by
    refine List.find?_range_eq_some.mpr ⟨by rw [hfree]; rfl, List.mem_range.mpr hn, fun j hj => ?_⟩
    simpa [Option.isSome_iff_ne_none] using htaken j hj
  simp only [State.raiseToken, hqueue, List.isEmpty_nil, if_true, State.takeToken, hnone, hlowest]
  generalize hu : s.mapDie (dieOf c) _ = u
  have htold : Told s u := by rw [← hu]; exact told_mapDie s _ rfl
  have hring : u.ringWaits = s.ringWaits := by rw [← hu]; rfl
  refine ⟨_, rfl, Told.trans (htold.trans ?_) (told_ring _ _ _), ?_⟩
  · split
    · exact (told_garnet _ _ _ _ _ _ _).trans (told_garnet _ _ _ _ _ _ _)
    · exact told_garnet _ _ _ _ _ _ _
  · simp only [State.ring, garnet_ringWaits, apply_ite State.ringWaits, apply_ite State.quartz, State.garnet_quartz, hring,
      htold.quartz, ite_self]

theorem stopsSaved_nil (s : State) (c : CoreId) (n : SlotId) : s.stopsSaved c n [] = s := rfl

/-- A running activation is suspended: saved, its context freed, its actor SUSPENDED. -/
theorem suspend_running {reason cause : Nat} {waits : Cause} {faddr finfo : Word} (h : Running s c x a)
    (hf : s.frameFails c (s.ctx c x).frame.toNat = false) :
    let v := savedAs s c x reason cause waits faddr finfo
    let t := s.suspend c x reason cause waits faddr finfo
    t.ctx c x = { Ctx.reset with issued := (s.ctx c x).issued } ∧ (t.slot c a.slot).state = .suspended ∧
      (t.slot c a.slot).saved = some v ∧ t.ringWaits = s.ringWaits ∧ FrameWritten s t c x v := by
  obtain ⟨u, hu, hkept, w, hw, hhbm⟩ := saveFrame_kept (reason := reason) (cause := cause) (waits := waits)
    (faddr := faddr) (finfo := finfo) h.chunk
  have hstate : (u.slot c a.slot).state = .active := (h.kept hkept).state
  simp only [State.suspend, h.act, hf, h.stops, hu, stopsSaved_nil, Bool.false_eq_true, if_false]
  obtain ⟨hcores, hring, hmem⟩ := leaveWaits_kept u c x
  generalize (u.dropWaiter (.ctx c x)).leaveMisses (clusterOf c) (.ctx c x) = r at hcores hmem hring ⊢
  refine ⟨?_, ?_, ?_, hring.trans hkept.1, w, hw, hmem.trans hhbm⟩
  · rw [State.ctx, State.core_mapCore_self]
    simp [savedAs, Ctx.atSave]
  · rw [slot_mapCore _ c c rfl, State.slot_mapSlot_self, hcores.slot, hstate]
    rfl
  · rw [slot_mapCore _ c c rfl, State.slot_mapSlot_self]

/-- What a delivery leaves of a fault that suspends the activation. -/
theorem deliver_suspends {n : Nat} (h : Running s c x a) (hclass : isRetryable f.cause = true)
    (hf : s.frameFails c (s.ctx c x).frame.toNat = false) (hqueue : (s.core c).faultQueue = [])
    (hopen : f.cause = 3 ∨ (s.die (dieOf c)).faultTokens.all (fun p =>
      !(p.2.domain == (s.ctx c x).domain && p.2.cause == f.cause && p.2.page == f.addr.toNat / 65536)) = true)
    (hn : n < 1024) (hfree : tabGet (s.die (dieOf c)).faultTokens (n + 1) = none)
    (htaken : ∀ j < n, (tabGet (s.die (dieOf c)).faultTokens (j + 1)).isSome = true) :
    let v := savedAs s c x 1 f.cause (.fault (n + 1)) f.addr (finfoWord f (n + 1))
    let t := s.deliver c x f
    t.ctx c x = { Ctx.reset with issued := (s.ctx c x).issued } ∧ (t.slot c a.slot).state = .suspended ∧
      (t.slot c a.slot).saved = some v ∧
      t.ringWaits = s.ringWaits ++
        [{ ring := (dieOf c).val, entry := (coreEntry c (s.ctx c x) f).bits s.quartz (n + 1) 1 }] ∧
      FrameWritten s t c x v := by
  obtain ⟨u, hu, htold, hring⟩ := raiseToken_free (e := coreEntry c (s.ctx c x) f)
    (w := .slot c (((s.ctx c x).act.map (·.slot)).getD 0)) hqueue hopen hn hfree htaken
  obtain ⟨hctx, hstate, hsaved, hwaits, r, hr, hmem⟩ := suspend_running (reason := 1) (cause := f.cause)
    (waits := .fault (n + 1)) (faddr := f.addr) (finfo := finfoWord f (n + 1)) (h.told htold)
    (by rw [htold.ctx, htold.frameFails, hf])
  rw [htold.savedAs] at hsaved hmem
  rw [htold.ctx] at hctx hmem
  simp only [State.deliver, hclass, if_true, State.deliverRetryable, hf, hu, Bool.false_eq_true, if_false]
  exact ⟨hctx, hstate, hsaved, hwaits.trans hring, r, hr.trans htold.hbm, hmem⟩

theorem deliver_frameLost (hclass : isRetryable f.cause = true) (hf : s.frameFails c (s.ctx c x).frame.toNat = true) :
    s.deliver c x f = s.frameLost c x := by
  simp only [State.deliver, hclass, if_true, State.deliverRetryable, hf]

/-! ### A terminal fault (R217, R343) -/

/-- A terminal fault of a running activation is reported, and no session is given up. -/
theorem terminalReport_told (h : Running s c x a) (hn : NoSession s c a.slot) (f : FaultInfo) :
    let u := s.report (dieOf c) (coreEntry c (s.ctx c x) f)
    Told s u ∧ (u.abandonSessions (fun _ => u.openedBy c (((s.ctx c x).act.map (·.slot)).getD 0)) = u) ∧
      ∃ l, u.ringWaits = s.ringWaits ++
        { ring := terminalRing (s.ctx c x).domain, entry := (coreEntry c (s.ctx c x) f).bits s.quartz 0 1 } :: l ∧
        VfEntries s (s.ctx c x).domain ((coreEntry c (s.ctx c x) f).bits s.quartz 0 1) l := by
  obtain ⟨htold, hentries⟩ := report_told s (dieOf c) (coreEntry c (s.ctx c x) f)
  refine ⟨htold, abandonSessions_none ?_, hentries⟩
  rw [h.act]
  exact hn.told htold

theorem chunkClosed_none {y : Ctx} (h : y.chunk = .none) : { y with chunk := { y.chunk with active := y.chunk.serial } } = y := by
  cases y
  cases h
  rfl

/-- A terminal fault at depth 0 whose frame can be written ends the activation. -/
theorem deliver_ends (h : Running s c x a) (hn : NoSession s c a.slot) (hclass : isRetryable f.cause = false)
    (hstack : (s.ctx c x).stack = []) (hf : s.frameFails c (s.ctx c x).frame.toNat = false) :
    let v := savedAs s c x 5 f.cause .untaken f.addr (finfoWord f 0)
    let b := (coreEntry c (s.ctx c x) f).bits s.quartz 0 1
    let t := s.deliver c x f
    t.ctx c x = { Ctx.reset with issued := (s.ctx c x).issued } ∧ (t.slot c a.slot).state = .idle ∧
      (t.slot c a.slot).saved = none ∧ FrameWritten s t c x v ∧
      ∃ l, t.ringWaits = s.ringWaits ++ { ring := terminalRing (s.ctx c x).domain, entry := b } :: l ∧
        VfEntries s (s.ctx c x).domain b l := by
  obtain ⟨hreport, hsessions, l, hl, hentries⟩ := terminalReport_told h hn f
  simp only [State.deliver, hclass, State.deliverTerminal, hsessions, hstack, List.isEmpty_nil, if_true, h.chunk,
    Chunk.none, Bool.false_and, Bool.false_eq_true, if_false]
  generalize s.report (dieOf c) (coreEntry c (s.ctx c x) f) = r at hreport hl ⊢
  generalize hq : r.mapCtx c x _ = q
  have htold : Told s q := by
    rw [← hq]
    refine hreport.trans (told_mapCtx ?_)
    rw [hreport.ctx]
    exact chunkClosed_none h.chunk
  have hwaits : q.ringWaits = r.ringWaits := by rw [← hq]; rfl
  obtain ⟨u, hu, hkept, w, hw, hhbm⟩ := saveFrame_kept (s := q) (c := c) (x := x) (reason := 5) (cause := f.cause)
    (waits := .untaken) (faddr := f.addr) (finfo := finfoWord f 0) (h.told htold).chunk
  obtain ⟨hctx, hended⟩ := ((h.told htold).kept hkept).end true
  rw [htold.frameFails, hf, if_neg Bool.false_ne_true, hu]
  rw [htold.savedAs, htold.ctx] at hhbm
  obtain ⟨o, ho⟩ := ctx_of_kept hkept c x
  refine ⟨?_, hended.state, hended.saved, ⟨w, hw.trans htold.hbm, hended.hbm.trans hhbm⟩, l, ?_, hentries⟩
  · rw [hctx, ho, htold.ctx]
  · rw [hended.ringWaits, hkept.1, hwaits, hl]

theorem popLevel_caller (y : Ctx) (l : Level) (rest : List Level) (keep : Bool) (status : Word) :
    (y.popLevel l rest keep status).act = y.act ∧ (y.popLevel l rest keep status).stack = rest ∧
      (y.popLevel l rest keep status).reg 23 = status := by
  refine ⟨by simp only [Ctx.popLevel], by simp only [Ctx.popLevel], ?_⟩
  simp only [Ctx.popLevel, Ctx.reg]
  rw [if_neg (by decide)]
  exact (Vector.getElem_ofFn _).trans (if_pos rfl)

/-- One level is left: the context goes on as its record says, and no slot changes. -/
theorem unwind_one {l : Level} {rest : List Level} (h : (s.ctx c x).stack = l :: rest) (status : Word) :
    (∃ v, (s.unwind c x 1 status).ctx c x = (s.ctx c x).popLevel v rest false status) ∧
      (∀ n, (s.unwind c x 1 status).slot c n = s.slot c n) ∧ (s.unwind c x 1 status).ringWaits = s.ringWaits := by
  obtain ⟨hcores, hwaits, -⟩ := leaveWaits_kept s c x
  simp only [State.unwind, h, List.take_succ_cons, List.take_zero, List.getLast?_singleton, List.drop_succ_cons, List.drop_zero]
  generalize (s.dropWaiter (.ctx c x)).leaveMisses (clusterOf c) (.ctx c x) = u at hcores hwaits ⊢
  generalize s.levelRecord c (s.ctx c x) _ l = v
  refine ⟨⟨v, ?_⟩, fun n => ?_, hwaits⟩
  · rw [State.ctx, State.core_mapCore_self]
    exact Vector.getElem_set_self _
  · rw [slot_mapCore _ c c rfl, hcores.slot]

/-- A terminal fault inside a gate returns to the caller with −7 in s23. -/
theorem deliver_returns (h : Running s c x a) (hn : NoSession s c a.slot) (hclass : isRetryable f.cause = false)
    {l : Level} {rest : List Level} (hstack : (s.ctx c x).stack = l :: rest) :
    let b := (coreEntry c (s.ctx c x) f).bits s.quartz 0 1
    let t := s.deliver c x f
    (t.ctx c x).act = some a ∧ (t.ctx c x).stack = rest ∧ (t.ctx c x).reg 23 = BitVec.ofInt 64 (-7) ∧
      (t.slot c a.slot).state = .active ∧
      ∃ l, t.ringWaits = s.ringWaits ++ { ring := terminalRing (s.ctx c x).domain, entry := b } :: l ∧
        VfEntries s (s.ctx c x).domain b l := by
  obtain ⟨hreport, hsessions, lw, hl, hentries⟩ := terminalReport_told h hn f
  simp only [State.deliver, hclass, State.deliverTerminal, hsessions, hstack, List.isEmpty_cons, Bool.false_eq_true, if_false]
  generalize s.report (dieOf c) (coreEntry c (s.ctx c x) f) = r at hreport hl ⊢
  have hrun := h.told hreport
  obtain ⟨⟨v, hctx⟩, hslot, hwaits⟩ := unwind_one (s := r) (c := c) (x := x) (by rw [hreport.ctx, hstack])
    (BitVec.ofInt 64 (-7))
  obtain ⟨hact, hrest, hreg⟩ := popLevel_caller (r.ctx c x) v rest false (BitVec.ofInt 64 (-7))
  rw [releaseSerial_none hrun.chunk, hctx]
  exact ⟨hact.trans hrun.act, hrest, hreg, (congrArg Slot.state (hslot a.slot)).trans hrun.state, lw, hwaits.trans hl, hentries⟩

/-! ### The delivery by class (R343) -/

theorem raise_stopped (s : State) (f : FaultInfo) (h : s.here.vStopped = true) :
    raise s f = .next (s.deliver s.focus s.hereX f) := if_pos h

theorem raise_busy (s : State) (f : FaultInfo) (h : s.here.vStopped = false) :
    raise s f = .next (s.mapHere (fun y => { y with wait := .vSettle })) := by
  refine (if_neg ?_).trans rfl
  simp [h]

/-- Settles O22: the entry of a trap, misaligned accesses and faulting ones, the delivery of a fault by its class, and the
frame it saves. -/
theorem trapEntries : Obligations.TrapEntries := by
  refine ⟨fun s code value _ => trap_entry s code value, fun m i s hready h hi => scalar_align hready h hi, vector_align,
    scalar_fault, fun s f a => ?_, frame_layout⟩
  refine ⟨raise_stopped s f, raise_busy s f, fun hact hchunk hstops hstate hdrain hsessions => ?_⟩
  have hrun : Running s s.focus s.hereX a := ⟨hact, hchunk, hstops, hstate, hdrain⟩
  refine ⟨fun hclass hf n => deliver_suspends hrun hclass hf, fun hclass hf => ?_,
    fun hclass => deliver_ends hrun hsessions hclass, fun l rest hclass => deliver_returns hrun hsessions hclass⟩
  rw [deliver_frameLost hclass hf]
  exact frameLost_running hrun hsessions

end Sys2Proof.Proofs
end

section
/-! Messages that reach an actor (R131): the receiver's checks in their order, and what a mailbox that accepts gains. -/

namespace Sys2Proof.Proofs

open Sys2Proof Sys2Proof.Machine Sys2Proof.Claims

variable {s : State} {c f : CoreId} {e : Fin 8} {m : Msg} {b : Mailbox}

/-! ### A message accepted -/

/-- Cores restarted keep the count of their store, and nothing leaves. -/
theorem restartQuad_store (s : State) (d : DieId) (q : Nat) (k : CoreId) :
    ((s.restartQuad d q).core k).storeUsed = (s.core k).storeUsed ∧ (s.restartQuad d q).pending = s.pending := by
  simp only [State.restartQuad]
  generalize (quadCores d q).filter (fun c => (s.core c).stopped) = l
  induction l generalizing s with
  | nil => exact ⟨rfl, rfl⟩
  | cons a r ih =>
    obtain ⟨hstore, hpending⟩ := ih ((s.mapCore a (fun k => { k with stopped := false, restartBy := none })).resyncCore a)
    refine ⟨hstore.trans ?_, hpending⟩
    rw [State.resyncCore, State.mapCore_mapCore, State.core_mapCore]
    split <;> rfl

theorem wakeQuad_store (s : State) (c : CoreId) (n : SlotId) (k : CoreId) :
    ((s.wakeQuad c n).core k).storeUsed = (s.core k).storeUsed ∧ (s.wakeQuad c n).pending = s.pending := by
  simp only [State.wakeQuad]
  split
  · exact ⟨rfl, rfl⟩
  · split
    · exact restartQuad_store s _ _ k
    · refine ⟨?_, rfl⟩
      rw [State.core_mapCore]
      split <;> rfl

/-- A message accepted at an actor without an overflow queue takes a slot of the store, and nothing leaves. -/
theorem acceptMsg_store (ho : (s.slot c (slotOf m.port)).overflow = none) :
    ((s.acceptMsg c m).core c).storeUsed = (s.core c).storeUsed + 1 ∧ (s.acceptMsg c m).pending = s.pending := by
  simp only [State.acceptMsg]
  split
  · next h => rw [ho] at h; cases h
  · obtain ⟨hstore, hpending⟩ := wakeQuad_store (((s.mapCore c (fun k =>
      { k with storeUsed := k.storeUsed + 1, acceptCount := k.acceptCount + 1 })).mapSlot c (slotOf m.port) _)) c
        (slotOf m.port) c
    exact ⟨hstore.trans (by simp only [State.mapSlot, State.core_mapCore_self]), hpending⟩

/-! ### The answer -/

theorem answerTo_sendUnit (hsrc : m.src = .sendUnit f e) (a : Answer) : s.answerTo c m a = withAnswerTo s c f e a := by
  simp only [State.answerTo, hsrc]
  rfl

/-- Nothing holds back a message of a send unit, and its actor's core judges it. -/
theorem messageArrival_atActor (harg : s.arg = .msg m) (hc : coreOf m.core = c) (hsrc : m.src = .sendUnit f e)
    (h1 : 1 ≤ m.port) (h15 : m.port ≤ 15) : exec .messageArrival s = .next (s.arriveAt c m) := by
  have hexec : exec .messageArrival s = execMessageArrival s := rfl
  have hback : heldBack s.backlog m = false := by
    simp [heldBack, sameWay, sameSender, hsrc]
  have hport : m.port ≠ 0 := by omega
  have hc' : coreOf (bitsOf m.dst 35 25) = c := hc
  simp only [hexec, execMessageArrival, harg, withMsg_eq harg, hc', hport, decide_false, Bool.false_and, Bool.false_eq_true,
    if_false, h15, if_true, hback]

theorem arriveAt_refused (hsrc : m.src = .sendUnit f e) {a : Answer} (hj : s.judgeArrival c m = a) (ha : a ≠ .accepted) :
    s.arriveAt c m = withAnswerTo s c f e a := by
  simp only [State.arriveAt, hj, ha, if_false, answerTo_sendUnit hsrc]

theorem arriveAt_accepted (hsrc : m.src = .sendUnit f e) (hj : s.judgeArrival c m = .accepted) :
    s.arriveAt c m = withAnswerTo (s.acceptMsg c m) c f e .accepted := by
  simp only [State.arriveAt, hj, if_true, answerTo_sendUnit hsrc]

/-! ### The checks (R131) -/

/-- The slot holds an actor that is on its core. -/
def Present (sl : Slot) : Prop := sl.state = .idle ∨ sl.state = .active ∨ sl.state = .suspended

theorem judgeArrival_noActor (h : (s.slot c (slotOf m.port)).state = .free ∨ (s.slot c (slotOf m.port)).state = .dying) :
    s.judgeArrival c m = .status 5 := by
  have h' : (s.core c).slots[slotOf m.port].state = .free ∨ (s.core c).slots[slotOf m.port].state = .dying := h
  simp only [State.judgeArrival, Bool.or_eq_true, decide_eq_true_eq, h', if_true]

theorem judgeArrival_moved (h : (s.slot c (slotOf m.port)).state = .moved) :
    s.judgeArrival c m = .moved ((s.slot c (slotOf m.port)).movedTo ||| word (m.mbox * 2 ^ 17)) := by
  have h' : (s.core c).slots[slotOf m.port].state = .moved := h
  simp only [State.judgeArrival, h', reduceCtorEq, decide_false, Bool.or_self, Bool.false_eq_true, if_false, if_true]
  rfl

theorem Present.on_core {sl : Slot} (h : Present sl) :
    sl.state ≠ .free ∧ sl.state ≠ .dying ∧ sl.state ≠ .moved ∧ sl.state ≠ .evicted := by
  obtain h | h | h := h <;> simp [h]

theorem judgeArrival_noMailbox (hp : Present (s.slot c (slotOf m.port)))
    (hb : (s.slot c (slotOf m.port)).mboxes[m.mbox]? = none) : s.judgeArrival c m = .status 6 := by
  obtain ⟨hfree, hdying, hmoved, -⟩ := Present.on_core (sl := (s.core c).slots[slotOf m.port]) hp
  have hb' : (s.core c).slots[slotOf m.port].mboxes[m.mbox]? = none := hb
  simp only [State.judgeArrival, hfree, hdying, hmoved, hb', decide_false, Bool.or_self, Bool.false_eq_true, if_false]

/-- The capabilities that a mailbox's HMASK asks for are checked one by one. -/
theorem capabilities_iff (k : Core) (b : Mailbox) (m : Msg) :
    (List.range 7).all (fun i => !(b.hmask.testBit i) || k.guard.holds m.domain (m.dword i)) = true ↔
      ∀ i < 7, b.hmask.testBit i = true → k.guard.holds m.domain (m.dword i) = true := by
  simp [imp_iff_not_or]

/-- The checks of a mailbox, in their order, for a message of an actor of this device. -/
theorem judgeArrival_mailbox (hp : Present (s.slot c (slotOf m.port)))
    (hb : (s.slot c (slotOf m.port)).mboxes[m.mbox]? = some b) (hsrc : m.src = .sendUnit f e)
    (hn : (slotOf m.port).val ≠ 0) :
    s.judgeArrival c m =
      if (s.core c).guard.admitted m (slotOf m.port) = false then .status 4
      else if m.payload.length ≠ b.plen then .status 7
      else if ¬(b.tagOf = 0 ∨ m.tag.toNat = b.tagOf) then .status 8
      else if (List.range 7).all (fun i => !(b.hmask.testBit i) || (s.core c).guard.holds m.domain (m.dword i)) = false then
        .status 9
      else if (s.slot c (slotOf m.port)).overflow.isSome || fullFor (s.core c) b m.domain then .full
      else .accepted := by
  have hb' : (s.core c).slots[slotOf m.port].mboxes[m.mbox]? = some b := hb
  have htag : (b.tagOf ≠ 0 && m.tag.toNat ≠ b.tagOf) = true ↔ ¬(b.tagOf = 0 ∨ m.tag.toNat = b.tagOf) := by simp
  have ho : (s.slot c (slotOf m.port)).overflow = (s.core c).slots[slotOf m.port].overflow := rfl
  rw [ho]
  obtain h | h | h : Present (s.core c).slots[slotOf m.port] := hp <;>
    cases hov : (s.core c).slots[slotOf m.port].overflow <;>
      simp only [State.judgeArrival, h, hov, hb', hsrc, hn, htag, reduceCtorEq, decide_false, Bool.or_self, Bool.false_eq_true,
        if_false, Bool.false_and, Bool.false_or, Bool.not_eq_true', Option.isSome_none, Option.isSome_some, Bool.true_or, if_true]

/-- Settles O32: the receiver's checks in their order, and what a mailbox that accepts a message gains. -/
theorem messageArrives : Obligations.MessageArrives := by
  intro s c f e m hbrings hsrc h1 h15 n sl refused present
  obtain ⟨harg, hc⟩ := hbrings
  have harrive := messageArrival_atActor harg hc hsrc h1 h15
  have hrefused {a : Answer} (hj : s.judgeArrival c m = a) (ha : a ≠ .accepted) : refused a :=
    harrive.trans (congrArg _ (arriveAt_refused hsrc hj ha))
  have hn : (slotOf m.port).val ≠ 0 := by simp only [slotOf]; omega
  refine ⟨fun h => hrefused (judgeArrival_noActor h) (by simp), fun h => hrefused (judgeArrival_moved h) (by simp),
    fun hp hb => hrefused (judgeArrival_noMailbox hp hb) (by simp), fun b hp hb => ?_⟩
  have hjudge := judgeArrival_mailbox (f := f) (e := e) hp hb hsrc hn
  intro admitted caps tagOk
  have hcaps := capabilities_iff (s.core c) b m
  refine ⟨fun ha => hrefused (a := .status 4) ?_ (by simp), fun ha hl => hrefused (a := .status 7) ?_ (by simp),
    fun ha hl ht => hrefused (a := .status 8) ?_ (by simp), fun ha hl ht hca => hrefused (a := .status 9) ?_ (by simp),
    fun ha hl ht hca ho => ?_⟩
  · rw [hjudge, if_pos ha]
  · rw [hjudge, if_neg ((Bool.not_eq_false _).mpr ha), if_pos hl]
  · rw [hjudge, if_neg ((Bool.not_eq_false _).mpr ha), if_neg (not_not.mpr hl), if_pos ht]
  · rw [hjudge, if_neg ((Bool.not_eq_false _).mpr ha), if_neg (not_not.mpr hl), if_neg (not_not.mpr ht),
      if_pos (Bool.eq_false_iff.mpr (mt hcaps.mp hca))]
  · rw [if_neg ((Bool.not_eq_false _).mpr ha), if_neg (not_not.mpr hl), if_neg (not_not.mpr ht),
      if_neg ((Bool.not_eq_false _).mpr (hcaps.mpr hca)), show (s.slot c (slotOf m.port)).overflow = none from ho,
      Option.isSome_none, Bool.false_or] at hjudge
    refine ⟨fun hf => hrefused (a := .full) (hjudge.trans (if_pos hf)) (by simp), fun hf => ?_⟩
    obtain ⟨order, hslot⟩ := slot_acceptMsg (n := slotOf m.port) rfl ho
    obtain ⟨hstore, hpending⟩ := acceptMsg_store (s := s) ho
    have haccepted := arriveAt_accepted hsrc (hjudge.trans (if_neg ((Bool.not_eq_true _).mpr hf)))
    refine ⟨_, order, harrive.trans (congrArg _ haccepted), ?_, hstore, ?_⟩
    · show ((s.acceptMsg c m).slot c (slotOf m.port)).mboxes[m.mbox]? = _
      rw [hslot, List.getElem?_modify_eq, hb]
      rfl
    · simp only [withAnswerTo, hpending]

end Sys2Proof.Proofs
end

section
/-! What the home slices and the kernel's reads and writes leave alone: of a core everything but its lines and what its WAITAs
watch, of a die everything but its lines and by when a queue that sleeps polls again (R250, R255, R372, R401). -/

namespace Sys2Proof.Proofs

open Sys2Proof Sys2Proof.Machine Sys2Proof.Claims

/-- A core but for its L1 and what its WAITAs watch. -/
def LinesOnly (k j : Core) : Prop :=
  ∃ v l, j = { k with ctxs := v, l1 := l } ∧ ∀ x : CtxId, ∃ w, v[x] = { k.ctxs[x] with watch := w }

theorem LinesOnly.refl (k : Core) : LinesOnly k k := ⟨k.ctxs, k.l1, rfl, fun x => ⟨k.ctxs[x].watch, rfl⟩⟩

theorem LinesOnly.trans {k j i : Core} (h : LinesOnly k j) (g : LinesOnly j i) : LinesOnly k i := by
  obtain ⟨v, l, rfl, hv⟩ := h
  obtain ⟨v', l', rfl, hv'⟩ := g
  refine ⟨v', l', rfl, fun x => ?_⟩
  obtain ⟨w, hw⟩ := hv x
  obtain ⟨w', hw'⟩ := hv' x
  exact ⟨w', by rw [hw', hw]⟩

/-- A queue but for the time by when it polls again. -/
def Called (p q : Queue) : Prop := ∃ w, q = { p with waking := w }

/-- A die but for its lines, its memory time, and by when its queues poll again. -/
def HomesOnly (d e : Die) : Prop :=
  ∃ h r m t q, e = { d with home := h, rdc := r, mts := m, tick := t, queues := q } ∧
    ∀ a, Option.Rel Called (tabGet d.queues a) (tabGet q a)

theorem rel_called_refl (o : Option Queue) : Option.Rel Called o o := by
  cases o with
  | none => exact .none
  | some q => exact .some ⟨q.waking, rfl⟩

theorem HomesOnly.refl (d : Die) : HomesOnly d d := ⟨_, _, _, _, _, rfl, fun _ => rel_called_refl _⟩

theorem rel_called_trans {o p q : Option Queue} (h : Option.Rel Called o p) (g : Option.Rel Called p q) :
    Option.Rel Called o q := by
  cases h with
  | none => exact g
  | some h =>
    cases g with
    | some g =>
      obtain ⟨w, rfl⟩ := h
      obtain ⟨w', rfl⟩ := g
      exact .some ⟨w', rfl⟩

theorem HomesOnly.trans {d e f : Die} (h : HomesOnly d e) (g : HomesOnly e f) : HomesOnly d f := by
  obtain ⟨_, _, _, _, q, rfl, hq⟩ := h
  obtain ⟨_, _, _, _, q', rfl, hq'⟩ := g
  exact ⟨_, _, _, _, _, rfl, fun a => rel_called_trans (hq a) (hq' a)⟩

/-- What the homes and the kernel's writes change of a device. -/
structure AtHomes (s t : State) : Prop where
  rest : ∃ cs ds h p b l, t = { s with cores := cs, dies := ds, hbm := h, pending := p, bars := b, lateWrites := l }
  core : ∀ c, LinesOnly (s.core c) (t.core c)
  die : ∀ d, HomesOnly (s.die d) (t.die d)

namespace AtHomes

variable {s t u : State}

theorem refl (s : State) : AtHomes s s := ⟨⟨_, _, _, _, _, _, rfl⟩, fun _ => .refl _, fun _ => .refl _⟩

theorem trans (h : AtHomes s t) (g : AtHomes t u) : AtHomes s u := by
  obtain ⟨⟨_, _, _, _, _, _, ht⟩, hc, hd⟩ := h
  obtain ⟨⟨_, _, _, _, _, _, hu⟩, gc, gd⟩ := g
  exact ⟨⟨_, _, _, _, _, _, by rw [hu, ht]⟩, fun c => (hc c).trans (gc c), fun d => (hd d).trans (gd d)⟩

/-- A change of memory, of what is on its way, of waiters on barriers or of the late writes alone. -/
theorem apart (s : State) (h : Memory) (p : List Flight) (b : List BarWait) (l : List LateWrite) :
    AtHomes s { s with hbm := h, pending := p, bars := b, lateWrites := l } :=
  ⟨⟨_, _, _, _, _, _, rfl⟩, fun _ => .refl _, fun _ => .refl _⟩

theorem setCore {c : CoreId} {k : Core} (h : LinesOnly (s.core c) k) : AtHomes s (s.setCore c k) := by
  refine ⟨⟨_, _, _, _, _, _, rfl⟩, fun d => ?_, fun _ => .refl _⟩
  by_cases hd : d = c
  · subst hd; rw [State.core_setCore_self]; exact h
  · rw [State.core_setCore_ne _ _ hd]; exact .refl _

theorem mapDie (s : State) (d : DieId) {f : Die → Die} (h : HomesOnly (s.die d) (f (s.die d))) : AtHomes s (s.mapDie d f) := by
  refine ⟨⟨_, _, _, _, _, _, rfl⟩, fun _ => .refl _, fun e => ?_⟩
  by_cases he : e = d
  · subst he; rw [State.die_mapDie_self]; exact h
  · rw [State.die_mapDie_ne _ _ he]; exact .refl _

/-- A change of the lines and times of one die. -/
theorem mapLines (s : State) (d : DieId) (h : Die → Tab DirLine) (r : Die → Tab RdcLine) (m : Die → Tab Nat) (t : Die → Nat) :
    AtHomes s (s.mapDie d (fun k => { k with home := h k, rdc := r k, mts := m k, tick := t k })) :=
  mapDie s d ⟨_, _, _, _, _, rfl, fun _ => rel_called_refl _⟩

theorem foldl {α : Type} (f : State → α → State) (hf : ∀ u a, AtHomes u (f u a)) (l : List α) (s : State) :
    AtHomes s (l.foldl f s) := by
  induction l generalizing s with
  | nil => exact .refl s
  | cons a r ih => exact (hf s a).trans (ih (f s a))

theorem foldl_pair {α β : Type} (f : State × β → α → State × β) (hf : ∀ p a, AtHomes p.1 (f p a).1) (l : List α)
    (p : State × β) : AtHomes p.1 (l.foldl f p).1 := by
  induction l generalizing p with
  | nil => exact .refl p.1
  | cons a r ih => exact (hf p a).trans (ih (f p a))

theorem foldl_option {α : Type} (f : State → α → Option State) (hf : ∀ u a v, f u a = some v → AtHomes u v) (l : List α)
    {o : Option State} (h : ∀ u, o = some u → AtHomes s u) (ht : l.foldl (fun o a => o.bind (fun s => f s a)) o = some t) :
    AtHomes s t := by
  induction l generalizing o with
  | nil => exact h t ht
  | cons a r ih =>
    refine ih (fun v hv => ?_) ht
    obtain ⟨u, hu, hv⟩ := Option.bind_eq_some_iff.mp hv
    exact (h u hu).trans (hf u a v hv)

/-- The same from a state. -/
theorem foldl_some {α : Type} (f : State → α → Option State) (hf : ∀ u a v, f u a = some v → AtHomes u v) (l : List α)
    (ht : l.foldl (fun o a => o.bind (fun s => f s a)) (some s) = some t) : AtHomes s t :=
  foldl_option f hf l (fun u hu => by cases hu; exact .refl s) ht

/-! ### What follows -/

theorem slot (h : AtHomes s t) (c : CoreId) (n : SlotId) : t.slot c n = s.slot c n := by
  obtain ⟨v, l, hk, -⟩ := h.core c
  simp only [State.slot, hk]

theorem spad (h : AtHomes s t) (c : CoreId) : (t.core c).spad = (s.core c).spad := by
  obtain ⟨v, l, hk, -⟩ := h.core c
  rw [hk]

theorem faultQueue (h : AtHomes s t) (c : CoreId) : (t.core c).faultQueue = (s.core c).faultQueue := by
  obtain ⟨v, l, hk, -⟩ := h.core c
  rw [hk]

theorem guard (h : AtHomes s t) (c : CoreId) : (t.core c).guard = (s.core c).guard := by
  obtain ⟨v, l, hk, -⟩ := h.core c
  rw [hk]

theorem ctx (h : AtHomes s t) (c : CoreId) (x : CtxId) : ∃ w, t.ctx c x = { s.ctx c x with watch := w } := by
  obtain ⟨v, l, hk, hv⟩ := h.core c
  obtain ⟨w, hw⟩ := hv x
  exact ⟨w, by rw [State.ctx, hk]; exact hw⟩

theorem faultTokens (h : AtHomes s t) (d : DieId) : (t.die d).faultTokens = (s.die d).faultTokens := by
  obtain ⟨_, _, _, _, q, hk, -⟩ := h.die d
  rw [hk]

theorem queue (h : AtHomes s t) {d : DieId} {a : Nat} {p : Queue} (hp : tabGet (s.die d).queues a = some p) :
    ∃ w, tabGet (t.die d).queues a = some { p with waking := w } := by
  obtain ⟨_, _, _, _, q, hk, hq⟩ := h.die d
  have hrel := hq a
  rw [hp] at hrel
  rw [hk]
  revert hrel
  show Option.Rel Called (some p) (tabGet q a) → ∃ w, tabGet q a = some { p with waking := w }
  intro hrel
  obtain h' | ⟨x, y, hx, hy, w, hw⟩ := rel_cases hrel
  · cases h'.1
  · cases hx
    exact ⟨w, by rw [hy, hw]⟩

theorem arg (h : AtHomes s t) : t.arg = s.arg := by obtain ⟨_, _, _, _, _, _, rfl⟩ := h.rest; rfl

theorem quartz (h : AtHomes s t) : t.quartz = s.quartz := by obtain ⟨_, _, _, _, _, _, rfl⟩ := h.rest; rfl

end AtHomes

/-! ### One line -/

theorem linesOnly_wakeLine (k : Core) (line : Nat) : LinesOnly k (k.wakeLine line) := by
  simp only [Core.wakeLine]
  split
  · refine ⟨_, k.l1, rfl, fun x => ?_⟩
    simp only [Fin.getElem_fin, Vector.getElem_map]
    split
    · exact ⟨none, rfl⟩
    · exact ⟨_, rfl⟩
  · exact .refl k

theorem linesOnly_l1Put (k : Core) (line : Nat) (l : L1Line) : LinesOnly k (k.l1Put line l) :=
  ⟨k.ctxs, _, rfl, fun x => ⟨k.ctxs[x].watch, rfl⟩⟩

theorem linesOnly_l1Inv (k : Core) (line : Nat) : LinesOnly k (k.l1Inv line) := by
  unfold Core.l1Inv
  split
  · exact linesOnly_wakeLine k line
  · exact (linesOnly_l1Put k line _).trans (linesOnly_wakeLine _ line)

theorem atHomes_coreRecall {s : State} {c : CoreId} {line : Nat} {m : BitVec 16} {write : Bool} {p : State × L1Line}
    (h : s.coreRecall c line m write = some p) : AtHomes s p.1 := by
  obtain ⟨q, hq, rfl⟩ := Option.map_eq_some_iff.mp h
  refine .setCore ?_
  unfold Core.l1Recall at hq
  split at hq
  · cases hq
  · split at hq
    · cases hq
    · cases hq; exact (linesOnly_l1Put _ line _).trans (linesOnly_wakeLine _ line)

theorem atHomes_l1Inv (s : State) (c : CoreId) (line : Nat) : AtHomes s (s.setCore c ((s.core c).l1Inv line)) :=
  .setCore (linesOnly_l1Inv _ line)

theorem atHomes_mapRdc (s : State) (d : DieId) (line : Nat) (f : RdcLine → RdcLine) : AtHomes s (s.mapRdc d line f) :=
  .mapLines s d (·.home) (fun k => tabSet k.rdc line (f (s.rdcLine d line))) (·.mts) (·.tick)

theorem atHomes_setDir (s : State) (u : HomeUnit) (line : Nat) (e : DirLine) : AtHomes s (s.setDir u line e) := by
  cases u with
  | slice d => exact .mapLines s d (fun k => tabSet k.home line e) (·.rdc) (·.mts) (·.tick)
  | rdc d => exact atHomes_mapRdc s d line (fun r => { r with dir := e })

theorem atHomes_putHbm (s : State) (line : Nat) (d : BitVec 1024) (m : BitVec 128) (n : Nat) : AtHomes s (s.putHbm line d m n) :=
  .apart s _ s.pending _ s.lateWrites

theorem atHomes_voidGrants (s : State) (src : Nat) (dst : Option Nat) (line : Nat) : AtHomes s (s.voidGrants src dst line) :=
  .apart s s.hbm _ s.bars s.lateWrites

theorem called_ring (now : Nat) (q : Queue) : Called q (q.ring now) := by
  unfold Queue.ring
  split
  · exact ⟨_, rfl⟩
  · exact ⟨q.waking, rfl⟩

/-- A table whose values change one by one. -/
theorem tabGet_map {α β : Type} {g : Nat × α → Nat × β} {f : α → β} (h : ∀ p, g p = (p.1, f p.2)) (t : Tab α) (n : Nat) :
    tabGet (t.map g) n = (tabGet t n).map f := by
  induction t with
  | nil => rfl
  | cons p r ih =>
    obtain ⟨k, v⟩ := p
    rw [List.map_cons, h, tabGet, tabGet]
    split <;> [rfl; exact ih]

/-- What a store to some doorbells makes of a queue. -/
def belled (s : State) (line : Nat) (m : BitVec 128) (q : Queue) : Queue :=
  if q.state == 1 && q.bellPa / 128 == line && m &&& byteMask (q.bellPa % 128) 8 != 0 then q.ring s.quartz else q

theorem called_belled (s : State) (line : Nat) (m : BitVec 128) (q : Queue) : Called q (belled s line m q) := by
  unfold belled
  split
  · exact called_ring _ q
  · exact ⟨q.waking, rfl⟩

theorem atHomes_ringBells (s : State) (line : Nat) (m : BitVec 128) : AtHomes s (s.ringBells line m) := by
  simp only [State.ringBells]
  split
  · refine ⟨⟨_, _, _, _, _, _, rfl⟩, fun _ => .refl _, fun d => ?_⟩
    simp only [State.die, tabGet_tabMap]
    cases tabGet s.dies d.val with
    | none => exact .refl _
    | some k =>
      refine ⟨_, _, _, _, _, rfl, fun a => ?_⟩
      show Option.Rel Called (tabGet k.queues a) (tabGet (k.queues.map _) a)
      rw [tabGet_map (f := belled s line m) (fun p => by unfold belled; split <;> rfl)]
      cases tabGet k.queues a with
      | none => exact .none
      | some q => exact .some (called_belled s line m q)
  · exact .refl s

/-! ### Remote-data caches and slices -/

theorem atHomes_rdcInv (s : State) (d : DieId) (line : Nat) (but : Option Nat) : AtHomes s (s.rdcInv d line but).1 :=
  ((AtHomes.foldl_pair _ (fun p _ => atHomes_l1Inv p.1 _ line) _ (s, 0)).trans (atHomes_setDir _ _ _ _)).trans
    (atHomes_voidGrants _ _ _ _)

theorem atHomes_rdcRecallOne {s v : State} {d : DieId} {line i : Nat} {m : BitVec 16} {write : Bool}
    (h : s.rdcRecallOne d line i m write = some v) : AtHomes s v := by
  simp only [State.rdcRecallOne] at h
  split at h
  · cases h; exact .refl s
  · split at h
    · cases h
    · next hr => cases h; exact (atHomes_coreRecall hr).trans (atHomes_mapRdc _ _ _ _)

theorem atHomes_rdcRecall {s v : State} {d : DieId} {line : Nat} {m : BitVec 16} {write : Bool}
    (h : s.rdcRecall d line m write = some v) : AtHomes s v :=
  AtHomes.foldl_some (fun s i => s.rdcRecallOne d line i m write) (fun _ _ _ hu => atHomes_rdcRecallOne hu) _ h

theorem atHomes_rdcTakeInv (s : State) (d : DieId) (line : Nat) : AtHomes s (s.rdcTakeInv d line).1 := by
  simp only [State.rdcTakeInv]
  split
  · exact .refl s
  · exact (atHomes_rdcInv s d line none).trans (atHomes_mapRdc (s.rdcInv d line none).1 d line
      (fun r => r.setGrant (r.grantMask (· == .tracked)) .none))

theorem atHomes_rdcTakeRecall {s : State} {d : DieId} {line : Nat} {m : BitVec 16} {write : Bool}
    {p : State × BitVec 1024 × Nat × Nat} (h : s.rdcTakeRecall d line m write = some p) : AtHomes s p.1 := by
  simp only [State.rdcTakeRecall] at h
  split at h
  · cases h
  · split at h
    · cases h
    · next hr =>
      cases h
      have hu := atHomes_rdcRecall hr
      dsimp only
      refine AtHomes.trans ?_ (atHomes_mapRdc _ _ _ _)
      split
      · exact hu.trans (atHomes_rdcInv _ d line none)
      · exact hu

theorem atHomes_sliceRecallOne {s v : State} {d : DieId} {line i : Nat} {m : BitVec 16} {write : Bool}
    (h : s.sliceRecallOne d line i m write = some v) : AtHomes s v := by
  simp only [State.sliceRecallOne] at h
  split at h
  · cases h; exact .refl s
  · split at h
    · cases h
    · next hg =>
      cases h
      refine AtHomes.trans (AtHomes.trans ?_ (atHomes_setDir _ _ _ _)) (atHomes_putHbm _ _ _ _ _)
      split at hg
      · obtain ⟨q, hq, he⟩ := Option.map_eq_some_iff.mp hg
        cases he
        exact atHomes_coreRecall hq
      · split at hg
        · exact atHomes_rdcTakeRecall hg
        · cases hg

theorem atHomes_sliceRecall {s v : State} {d : DieId} {line : Nat} {m : BitVec 16} {write : Bool}
    (h : s.sliceRecall d line m write = some v) : AtHomes s v :=
  AtHomes.foldl_some (fun s i => s.sliceRecallOne d line i m write) (fun _ _ _ hu => atHomes_sliceRecallOne hu) _ h

theorem atHomes_sliceInv {s v : State} {d : DieId} {line : Nat} (h : s.sliceInv d line = some v) : AtHomes s v := by
  simp only [State.sliceInv] at h
  split at h
  · cases h; exact .refl s
  · split at h
    · cases h
    · cases h
      refine ((AtHomes.foldl_pair _ (fun p r => ?_) _ (s, _)).trans (atHomes_setDir _ _ _ _)).trans (atHomes_voidGrants _ _ _ _)
      split
      · exact atHomes_l1Inv p.1 _ line
      · exact atHomes_rdcTakeInv p.1 _ line

theorem atHomes_raiseMts (s : State) (d : DieId) (line n : Nat) : AtHomes s (s.raiseMts d line n) :=
  .mapLines s d (·.home) (·.rdc) _ (·.tick)

theorem atHomes_l2Use (s : State) (d : DieId) (line : Nat) : AtHomes s (s.l2Use d line) :=
  (AtHomes.mapLines s d (·.home) (·.rdc) (·.mts) (fun _ => (s.die d).tick + 1)).trans
    (atHomes_setDir _ (.slice d) line { s.dir (.slice d) line with use := (s.die d).tick + 1 })

theorem atHomes_l2Room {s v : State} {d : DieId} {line : Nat} (h : s.l2Room d line = some v) : AtHomes s v := by
  unfold State.l2Room at h
  split at h
  · cases h; exact atHomes_l2Use s d line
  · obtain ⟨l, -, hl⟩ := Option.bind_eq_some_iff.mp h
    obtain ⟨u, hu, rfl⟩ := Option.map_eq_some_iff.mp hl
    obtain ⟨w, hw, hu⟩ := Option.bind_eq_some_iff.mp hu
    have hleft := (atHomes_sliceRecall hw).trans (atHomes_sliceInv hu)
    exact ((hleft.trans (.mapLines u d (fun k => tabDel k.home l) (·.rdc) (·.mts) (·.tick))).trans
      (atHomes_raiseMts _ _ _ _)).trans (atHomes_l2Use _ _ _)

/-! ### Reads and writes -/

theorem atHomes_readyLine {s v : State} {line : Nat} {m : BitVec 16} (h : s.readyLine line m = some v) : AtHomes s v := by
  simp only [State.readyLine] at h
  split at h
  · cases h
  · obtain ⟨u, hu, hv⟩ := Option.bind_eq_some_iff.mp h
    exact (atHomes_l2Room hu).trans (atHomes_sliceRecall hv)

theorem atHomes_readHome {s : State} {pa n : Nat} {p : State × List Byte} (h : s.readHome pa n = some p) : AtHomes s p.1 := by
  obtain ⟨v, hv, rfl⟩ := Option.map_eq_some_iff.mp h
  exact AtHomes.foldl_some (fun s i => s.readyLine (pa / 128 + i) (wordMask (if i = 0 then pa % 128 else 0)
    (min 128 (pa + n - (pa / 128 + i) * 128) - (if i = 0 then pa % 128 else 0)))) (fun _ _ _ hu => atHomes_readyLine hu) _ hv

theorem atHomes_writeNow {s v : State} {line : Nat} {d : BitVec 1024} {m : BitVec 128} (h : s.writeNow line d m = some v) :
    AtHomes s v := by
  have hput (u : State) (t : Nat) : AtHomes u ((u.putHbm line d m t).ringBells line m) :=
    (atHomes_putHbm u _ _ _ _).trans (atHomes_ringBells _ _ _)
  simp only [State.writeNow] at h
  split at h
  · cases h
  · split at h
    · cases h
      exact (atHomes_raiseMts s _ _ _).trans (hput _ _)
    · obtain ⟨u, hu, rfl⟩ := Option.map_eq_some_iff.mp h
      obtain ⟨x, hx, hu⟩ := Option.bind_eq_some_iff.mp hu
      obtain ⟨w, hw, hx⟩ := Option.bind_eq_some_iff.mp hx
      exact ((((atHomes_l2Room hw).trans (atHomes_sliceRecall hx)).trans (atHomes_sliceInv hu)).trans
        (atHomes_setDir _ _ _ _)).trans (hput _ _)

theorem atHomes_writeLine (s : State) (line : Nat) (d : BitVec 1024) (m : BitVec 128) : AtHomes s (s.writeLine line d m) := by
  unfold State.writeLine
  split
  · next u hu =>
    split at hu
    · cases hu
    · exact atHomes_writeNow hu
  · exact .apart s s.hbm s.pending s.bars _

theorem atHomes_writeHome (s : State) (pa : Nat) (bs : List Byte) : AtHomes s (s.writeHome pa bs) :=
  AtHomes.foldl (fun u (p : Nat × BitVec 1024 × BitVec 128) => u.writeLine p.1 p.2.1 p.2.2) (fun u p => atHomes_writeLine u p.1 p.2.1 p.2.2) _ s

/-- A write of the kernel. -/
theorem atHomes_kernelWrite (s : State) (c : CoreId) (va : Nat) (bs : List Byte) : AtHomes s (s.kernelWrite c va bs) :=
  .foldl _ (fun u _ => atHomes_writeHome u _ _) _ s

theorem atHomes_imageHead (s : State) (c : CoreId) (n : SlotId) (f : Word → Word) : AtHomes s (s.imageHead c n f) := by
  unfold State.imageHead
  split
  · exact atHomes_kernelWrite s c _ _
  · exact .refl s

end Sys2Proof.Proofs
end

section
/-! Writes to scratchpads (R227, R229, R289): of a core they change its scratchpad, the errors of its words and what its WAITAs
watch. Regions written with zeros read as zero (R119, R122). -/

namespace Sys2Proof.Proofs

open Sys2Proof Sys2Proof.Machine Sys2Proof.Claims

/-- What a write to a scratchpad changes of a device: scratchpads, their errors, what WAITAs watch, and Garnet's records. -/
structure AtSpads (s t : State) : Prop where
  rest : ∃ cs ds a b, t = { s with cores := cs, dies := ds, garnetA := a, garnetB := b }
  core : ∀ c, ∃ v m e, t.core c = { s.core c with ctxs := v, spad := m, spadErrs := e }

namespace AtSpads

variable {s t u : State}

theorem refl (s : State) : AtSpads s s := ⟨⟨_, _, _, _, rfl⟩, fun _ => ⟨_, _, _, rfl⟩⟩

theorem trans (h : AtSpads s t) (g : AtSpads t u) : AtSpads s u := by
  obtain ⟨⟨_, _, _, _, ht⟩, hc⟩ := h
  obtain ⟨⟨_, _, _, _, hu⟩, gc⟩ := g
  refine ⟨⟨_, _, _, _, by rw [hu, ht]⟩, fun c => ?_⟩
  obtain ⟨_, _, _, hk⟩ := hc c
  obtain ⟨_, _, _, gk⟩ := gc c
  exact ⟨_, _, _, by rw [gk, hk]⟩

theorem foldl {α : Type} (f : State → α → State) (hf : ∀ u a, AtSpads u (f u a)) (l : List α) (s : State) :
    AtSpads s (l.foldl f s) := by
  induction l generalizing s with
  | nil => exact .refl s
  | cons a r ih => exact (hf s a).trans (ih (f s a))

theorem mapCore (s : State) (c : CoreId) {f : Core → Core}
    (h : ∃ v m e, f (s.core c) = { s.core c with ctxs := v, spad := m, spadErrs := e }) : AtSpads s (s.mapCore c f) := by
  refine ⟨⟨_, _, _, _, rfl⟩, fun d => ?_⟩
  by_cases hd : d = c
  · subst hd; rw [State.core_mapCore_self]; exact h
  · rw [State.core_mapCore_ne _ _ hd]; exact ⟨_, _, _, rfl⟩

theorem garnet (s : State) (n e src c d x : Nat) : AtSpads s (s.garnet n e src c d x) := by
  refine ⟨?_, fun k => ⟨_, _, _, State.garnet_core ..⟩⟩
  unfold State.garnet
  split
  · exact ⟨_, _, _, _, rfl⟩
  · split <;> exact ⟨_, _, _, _, rfl⟩

theorem slot (h : AtSpads s t) (c : CoreId) (n : SlotId) : t.slot c n = s.slot c n := by
  obtain ⟨_, _, _, hk⟩ := h.core c
  simp only [State.slot, hk]

theorem launches (h : AtSpads s t) : t.launches = s.launches := by obtain ⟨_, _, _, _, rfl⟩ := h.rest; rfl

end AtSpads

theorem atSpads_scrubWord (s : State) (c : CoreId) (w : Nat) : AtSpads s (s.scrubWord c w) := by
  rw [scrubWord_eq]
  exact .foldl _ (fun u b => (AtSpads.mapCore u c ⟨_, _, _, rfl⟩).trans (.garnet _ _ _ _ _ _ _)) _ s

theorem clearErrs_eq (l : List Nat) (k : Core) : ∃ e, l.foldl Core.clearErr k = { k with spadErrs := e } := by
  induction l generalizing k with
  | nil => exact ⟨_, rfl⟩
  | cons w r ih =>
    obtain ⟨e, he⟩ := ih (k.clearErr w)
    exact ⟨e, he⟩

theorem atSpads_spadWrite (s : State) (c : CoreId) (off : Nat) (bs : List Byte) : AtSpads s (s.spadWrite c off bs) := by
  have hscrub : AtSpads s ((partWords off bs.length).foldl (fun u w => u.scrubWord c w) s) :=
    .foldl _ (fun u w => atSpads_scrubWord u c w) _ s
  have hput (u : State) : AtSpads u (u.mapCore c (fun k => ((spadWords off bs.length).filter (wholeWord off bs.length)).foldl
      Core.clearErr { k with spad := k.spad.setBytes off bs })) := by
    obtain ⟨e, he⟩ := clearErrs_eq ((spadWords off bs.length).filter (wholeWord off bs.length))
      { u.core c with spad := (u.core c).spad.setBytes off bs }
    exact .mapCore u c ⟨_, _, _, he⟩
  have hwritten := hscrub.trans (hput _)
  simp only [State.spadWrite]
  generalize State.mapCore _ c _ = u at hwritten ⊢
  split
  · refine hwritten.trans ⟨⟨_, _, _, _, rfl⟩, fun d => ?_⟩
    simp only [State.core, tabGet_tabMap]
    cases tabGet u.cores d.val <;> exact ⟨_, _, _, rfl⟩
  · exact hwritten

theorem atSpads_zeroRegions (s : State) (c : CoreId) (rs : List Region) : AtSpads s (s.zeroRegions c rs) :=
  .foldl (fun u (r : Region) => u.spadWrite c r.base (List.replicate r.size 0)) (fun u r => atSpads_spadWrite u c r.base _) rs s

/-- A byte of a region written with zeros is zero, and one that was zero stays so. -/
theorem get_zeroRegions {s : State} {c : CoreId} (hwf : (s.core c).spad.wf = true) (rs : List Region) {a : Nat}
    (h : (∃ r ∈ rs, r.base ≤ a ∧ a < r.base + r.size) ∨ (s.core c).spad.get a = 0) :
    ((s.zeroRegions c rs).core c).spad.get a = 0 := by
  induction rs generalizing s with
  | nil => exact h.elim (fun ⟨r, hr, _⟩ => absurd hr List.not_mem_nil) id
  | cons r rest ih =>
    have hspad : ((s.spadWrite c r.base (List.replicate r.size 0)).core c).spad =
        (s.core c).spad.setBytes r.base (List.replicate r.size 0) := by
      rw [((spadWrite_memories s c r.base _).2 c).2, if_pos rfl]
    refine ih (s := s.spadWrite c r.base (List.replicate r.size 0)) (by rw [hspad]; exact Memory.wf_setBytes hwf _ _) ?_
    rw [hspad, Memory.get_setBytes hwf, List.length_replicate]
    by_cases ha : r.base ≤ a ∧ a < r.base + r.size
    · exact .inr (by rw [if_pos ha]; simp)
    · rw [if_neg ha]
      refine h.imp_left (fun ⟨q, hq, hin⟩ => ?_)
      obtain rfl | hq := List.mem_cons.mp hq
      · exact absurd hin ha
      · exact ⟨q, hq, hin⟩

end Sys2Proof.Proofs
end

section
/-! Requests of a system actor (R354) and the replies of the kernel's ports (R129, R239, R354). -/

namespace Sys2Proof.Proofs

open Sys2Proof Sys2Proof.Machine Sys2Proof.Claims

/-! ### Replies -/

/-- A message posted changes what is on its way, here or abroad, and nothing else. -/
theorem post_eq (s : State) (src : Nat) (m : Msg) :
    ∃ p o a n, s.post src m = { s with pending := p, outbox := o, abroad := a, abroadCount := n } := by
  simp only [State.post]
  split
  · simp only [State.postAbroad]
    split <;> exact ⟨_, _, _, _, rfl⟩
  · exact ⟨_, _, _, _, rfl⟩

theorem kernelReply_eq (s : State) (c : CoreId) (port tag : Nat) (ep : Word) (payload : List Word) :
    ∃ p o a n, s.kernelReply c port tag ep payload = { s with pending := p, outbox := o, abroad := a, abroadCount := n } :=
  post_eq s _ _

theorem coresKept_kernelReply (s : State) (c : CoreId) (port tag : Nat) (ep : Word) (payload : List Word) :
    CoresKept s (s.kernelReply c port tag ep payload) := coresKept_post s _ _

theorem replied_kernelReply (s : State) (c : CoreId) (port tag : Nat) {ep : Word} (payload : List Word)
    (hdev : bitsOf ep 47 36 = 0xFFF) : Replied (s.kernelReply c port tag ep payload) ep tag payload :=
  replied_post ((endpoint_device ep).trans hdev) (endpoint_core ep) rfl

/-- A request served by a change of the device and its reply, which changes no core. -/
theorem served_sysReply {i : Instr} {s u : State} {c : CoreId} {ep : Word} {st detail : Nat} {P : State → Prop}
    (hexec : exec i s = .next (u.sysReply c ep st detail)) (hP : ∀ t, CoresKept u t → P t) : Served i s ep st detail P :=
  ⟨_, hexec, hP _ (coresKept_kernelReply u c 0 0x5F ep _), fun hdev => replied_kernelReply u c 0 0x5F _ hdev⟩

/-! ### A request taken -/

section
variable (s : State) (c : CoreId) (mb : Nat)

/-- A request taken leaves of every slot all but its mailboxes. -/
theorem slot_sysTake (d : CoreId) (n : SlotId) : ∃ b, (s.sysTake c mb).slot d n = { s.slot d n with mboxes := b } := by
  have hused (k : SlotId) : (s.mapCore c (fun k => { k with storeUsed := k.storeUsed - 1 })).slot d k = s.slot d k :=
    slot_mapCore s c d rfl k
  by_cases hd : d = c
  · subst hd
    by_cases hn : n = 0
    · subst hn
      exact ⟨_, by rw [State.sysTake, State.slot_mapSlot_self, hused]⟩
    · exact ⟨(s.slot d n).mboxes, by rw [State.sysTake, State.slot_mapSlot_ne _ _ _ hn, hused]⟩
  · refine ⟨(s.slot d n).mboxes, ?_⟩
    simp only [State.slot, State.sysTake, State.mapSlot, State.core_mapCore_ne _ _ hd]

theorem slot_sysTake_ne {n : SlotId} (hn : n ≠ 0) : (s.sysTake c mb).slot c n = s.slot c n := by
  rw [State.sysTake, State.slot_mapSlot_ne _ _ _ hn, slot_mapCore _ c c rfl]

theorem ctx_sysTake (d : CoreId) (x : CtxId) : (s.sysTake c mb).ctx d x = s.ctx d x := by
  rw [State.sysTake, State.ctx_mapSlot, ctx_mapCore _ _ rfl]

theorem core_sysTake : ∃ n v, (s.sysTake c mb).core c = { s.core c with storeUsed := n, slots := (s.core c).slots.set 0 v } ∧
    v.regions = (s.slot c 0).regions := by
  refine ⟨(s.core c).storeUsed - 1, { s.slot c 0 with mboxes := (s.slot c 0).mboxes.modify mb (fun b => { b with waiting := b.waiting.tail }) }, ?_, rfl⟩
  simp only [State.sysTake, State.mapSlot, State.core_mapCore_self]
  rfl

/-- A request taken moves no region. -/
theorem regions_sysTake : ((s.sysTake c mb).core c).regions = (s.core c).regions := by
  obtain ⟨n, v, hk, hv⟩ := core_sysTake s c mb
  have hset : (((s.core c).slots.set 0 v).toList.map (·.regions)) = (s.core c).slots.toList.map (·.regions) := by
    rw [Vector.toList_set, List.map_set, hv]
    apply List.ext_getElem (by simp)
    intro i h1 h2
    rw [List.getElem_set]
    split
    · next h => subst h; simp [State.slot]
    · rfl
  simp only [Core.regions, hk, List.flatMap_def, hset]

end

/-- A request at the head of its mailbox is taken and served. -/
theorem sysOp_head {s : State} {c : CoreId} {m : Msg} {tag : Nat} (g : Msg → State → State) (hhead : s.sysHead c 1 = some m)
    (htag : m.tag.toNat = tag) : sysOp s c tag g = .next (g m (s.sysTake c 1)) := by
  simp only [sysOp, hhead, htag, if_true]

theorem sysOp_requested {s : State} {c : CoreId} {m : Msg} {tag : Nat} (h : Requested s c m tag)
    (g : CoreId → Msg → State → State) :
    withCore s (fun c => sysOp s c tag (g c)) = .next (g c m (s.sysTake c 1)) := by
  obtain ⟨⟨b, harg⟩, hhead, htag⟩ := h
  rw [withCore_eq harg, sysOp_head _ hhead htag]

/-! ### Activations changed -/

/-- The bound activation of a slot changed. -/
theorem ctx_mapActivation {s : State} {c : CoreId} {n : SlotId} {f : Ctx → Ctx} {x : CtxId} {a : Activation}
    (ha : (s.ctx c x).act = some a) (hn : a.slot = n) : (s.mapActivation c n f).ctx c x = f (s.ctx c x) := by
  have ha' : (s.core c).ctxs[x.val].act = some a := ha
  rw [State.mapActivation, State.ctx_mapSlot, State.ctx, State.core_mapCore_self]
  show (Vector.map _ _)[x.val] = _
  rw [Vector.getElem_map, if_pos (show Option.any _ (s.core c).ctxs[x.val].act = true by simp only [ha', Option.any_some, hn, beq_self_eq_true])]
  rfl

theorem slot_mapActivation (s : State) (c : CoreId) (n : SlotId) (f : Ctx → Ctx) :
    (s.mapActivation c n f).slot c n =
      { s.slot c n with saved := (s.slot c n).saved.map (fun v => { v with ctx := f v.ctx }) } := by
  simp only [State.mapActivation, State.slot_mapSlot_self, slot_mapCore s c c (f := fun k => { k with ctxs := k.ctxs.map _ }) rfl]

end Sys2Proof.Proofs
end

section
/-! The life of an actor (R119, R122, R148, R156, R354, R355): PREEMPT, RESUME, DESTROY, CLEAR, CREATE and LAUNCH RECORD. -/

namespace Sys2Proof.Proofs

open Sys2Proof Sys2Proof.Machine Sys2Proof.Claims

/-! ### Slots freed -/

/-- The slot of an actor that is no more. -/
theorem slot_freeSlot (s : State) (c : CoreId) (n : SlotId) :
    (s.freeSlot c n).slot c n = { Slot.free with former := (s.slot c n).domain } := by
  simp only [State.freeSlot]
  generalize State.abandonSessions _ _ = u
  generalize hw : State.mapCore u c _ = w
  have hfreed : (w.releaseClaims c).slot c n = { Slot.free with former := (s.slot c n).domain } := by
    rw [slot_releaseClaims, ← hw]
    simp [State.slot]
  generalize w.releaseClaims c = v at hfreed ⊢
  split
  · exact hfreed
  · split <;> exact hfreed

theorem domain_releaseMsg (s : State) (c : CoreId) (a : Activation) :
    ((s.releaseMsg c a).slot c a.slot).domain = (s.slot c a.slot).domain := by
  simp only [State.releaseMsg]
  split
  · rw [slot_mapCore _ c c rfl, State.slot_mapSlot_self]
  · rw [State.slot_mapSlot_self]

/-- The slot of a DYING actor whose activation has ended. -/
theorem slot_leaveSlot_dying {s : State} {c : CoreId} {a : Activation} (h : (s.slot c a.slot).state = .dying) :
    (s.leaveSlot c a).slot c a.slot = { Slot.free with former := (s.slot c a.slot).domain } := by
  simp only [State.leaveSlot]
  generalize hu : State.imageHead _ c a.slot _ = u
  have hstate : (u.slot c a.slot).state = .dying := by
    rw [← hu, slot_imageHead, State.slot_mapSlot_self]
    simp only [state_releaseMsg, h, decide_true, Bool.true_or, if_true]
  have hdomain : (u.slot c a.slot).domain = (s.slot c a.slot).domain := by
    rw [← hu, slot_imageHead, State.slot_mapSlot_self]
    exact domain_releaseMsg s c a
  rw [if_pos hstate, slot_freeSlot, hdomain]

theorem slot_leaveTokens (s : State) (w : TokenWaiter) (c : CoreId) (n : SlotId) : (s.leaveTokens w).slot c n = s.slot c n := by
  have hcore : ((s.leaveTokens w).core c).slots = (s.core c).slots := by
    simp only [State.core, State.leaveTokens, State.mapWaiters, tabGet_tabMap]
    cases tabGet s.cores c.val <;> rfl
  simp only [State.slot, hcore]

theorem slot_drainStep (s : State) (c d : CoreId) (m : Msg) (terminal : Bool) (n : SlotId) :
    (s.drainStep c m terminal).slot d n = s.slot d n := by
  unfold State.drainStep
  split
  · exact slot_mapCore s c d rfl n
  · rfl

/-- The slot of a DYING actor whose saved activation is discarded. -/
theorem slot_endSaved_dying {s : State} {c : CoreId} {n : SlotId} {v : Saved} {a : Activation}
    (hv : (s.slot c n).saved = some v) (ha : v.ctx.act = some a) (hn : a.slot = n) (h : (s.slot c n).state = .dying) :
    (s.endSaved c n).slot c n = { Slot.free with former := (s.slot c n).domain } := by
  subst hn
  simp only [State.endSaved, hv, ha]
  generalize hu : (s.leaveTokens (.slot c a.slot)).abandonSessions _ = u
  have hslot : u.slot c a.slot = s.slot c a.slot := by
    rw [← hu, (coresKept_abandonSessions _ _).slot, slot_leaveTokens]
  generalize hw : State.mapCore _ c _ = w
  have hw : w.slot c a.slot = s.slot c a.slot := by
    rw [← hw, slot_mapCore _ c c rfl, (show CoresKept u (u.freeSerial c a.slot) from ⟨rfl, rfl, rfl⟩).slot, hslot]
  generalize hx : (if a.drain = true then _ else w) = x
  have hx : x.slot c a.slot = s.slot c a.slot := by
    rw [← hx]
    split
    · rw [slot_drainStep, hw]
    · exact hw
  rw [slot_leaveSlot_dying (by rw [hx]; exact h), hx]

/-! ### The requests, each taken and served -/

section
variable {s : State} {c : CoreId} {m : Msg}

theorem exec_preempt (h : Requested s c m 0x55) :
    exec .preempt s = .next (if ((s.sysTake c 1).slot c (reqSlot m)).state = .active then
      (s.sysTake c 1).mapActivation c (reqSlot m) (fun y => { y with stops := y.stops ++ [.preempt (m.dword 1)] })
    else (s.sysTake c 1).sysReply c (m.dword 1) stBadstate 0) :=
  sysOp_requested h (fun c m s => if (s.slot c (reqSlot m)).state = .active then
      s.mapActivation c (reqSlot m) (fun y => { y with stops := y.stops ++ [.preempt (m.dword 1)] })
    else s.sysReply c (m.dword 1) stBadstate 0)

/-- PREEMPT (R355). -/
theorem preempt_served (h : Requested s c m 0x55) :
    let n := reqSlot m
    ((s.slot c n).state = .active → ∃ t, exec .preempt s = .next t ∧ ∀ (x : CtxId) (a : Activation),
      (s.ctx c x).act = some a → a.slot = n → Stop.preempt (m.dword 1) ∈ (t.ctx c x).stops) ∧
    ((s.slot c n).state ≠ .active →
      Served .preempt s (m.dword 1) 13 0 (fun t => (t.slot c n).state = (s.slot c n).state)) := by
  intro n
  obtain ⟨b, hslot⟩ := slot_sysTake s c 1 c n
  have hexec := exec_preempt h
  constructor
  · intro hst
    refine ⟨_, hexec.trans (by rw [if_pos (by rw [hslot]; exact hst)]), fun x a ha hn => ?_⟩
    rw [ctx_mapActivation (a := a) (by rw [ctx_sysTake]; exact ha) hn]
    exact List.mem_append_right _ (List.mem_singleton_self _)
  · intro hst
    exact served_sysReply (hexec.trans (by rw [if_neg (by rw [hslot]; exact hst)]; rfl)) (fun t ht => by rw [ht.slot, hslot])

theorem exec_resume (h : Requested s c m 0x56) :
    let u := s.sysTake c 1
    let sl := u.slot c (reqSlot m)
    exec .resume s = .next (if (sl.state == .suspended || sl.state == .dying) && sl.saved.any (·.reason == 2) then
      (u.mapSlot c (reqSlot m) (fun sl => { sl with
        saved := sl.saved.map (fun v => { v with resumable := true }) })).sysReply c (m.dword 1) 0 0
    else u.sysReply c (m.dword 1) stBadstate 0) :=
  sysOp_requested h (fun c m s =>
    if ((s.slot c (reqSlot m)).state == .suspended || (s.slot c (reqSlot m)).state == .dying) &&
        (s.slot c (reqSlot m)).saved.any (fun v : Saved => v.reason == 2) then
      (s.mapSlot c (reqSlot m) (fun sl => { sl with
        saved := sl.saved.map (fun v => { v with resumable := true }) })).sysReply c (m.dword 1) 0 0
    else s.sysReply c (m.dword 1) stBadstate 0)

/-- RESUME (R355). -/
theorem resume_served (h : Requested s c m 0x56) :
    let n := reqSlot m
    let sl := s.slot c n
    (∀ v, sl.state = .suspended ∨ sl.state = .dying → sl.saved = some v → v.reason = 2 →
      Served .resume s (m.dword 1) 0 0 (fun t => (t.slot c n).saved = some { v with resumable := true })) ∧
    ((∀ v, sl.saved = some v → v.reason ≠ 2) →
      Served .resume s (m.dword 1) 13 0 (fun t => (t.slot c n).state = sl.state)) := by
  intro n sl
  obtain ⟨b, hslot⟩ := slot_sysTake s c 1 c n
  have hexec := exec_resume h
  constructor
  · intro v hst hv hr
    have hsaved : ((s.sysTake c 1).slot c n).saved = some v := by rw [hslot]; exact hv
    have hstate : ((s.sysTake c 1).slot c n).state = .suspended ∨ ((s.sysTake c 1).slot c n).state = .dying := by
      rw [hslot]; exact hst
    refine served_sysReply (hexec.trans (congrArg _ (if_pos ?_))) (fun t ht => ?_)
    · show ((_ == _ || _ == _) && Option.any _ ((s.sysTake c 1).slot c n).saved) = true
      rw [hsaved, Option.any_some, hr]
      simpa using hstate
    · rw [ht.slot, State.slot_mapSlot_self, hsaved]
      rfl
  · intro hne
    have hsaved : ((s.sysTake c 1).slot c n).saved = sl.saved := by rw [hslot]
    refine served_sysReply (hexec.trans (congrArg _ (if_neg ?_))) (fun t ht => by rw [ht.slot, hslot])
    show ¬ ((_ == _ || _ == _) && Option.any _ ((s.sysTake c 1).slot c n).saved) = true
    rw [hsaved]
    cases hv : sl.saved with
    | none => simp
    | some v => simp [hne v hv]

theorem exec_destroy (h : Requested s c m 0x51) :
    exec .destroy s = .next (((s.sysTake c 1).destroy c (reqSlot m) (bitOf (m.dword 0) 8)).1.sysReply c (m.dword 1)
      ((s.sysTake c 1).destroy c (reqSlot m) (bitOf (m.dword 0) 8)).2 0) :=
  sysOp_requested h (fun c m s => (s.destroy c (reqSlot m) (bitOf (m.dword 0) 8)).1.sysReply c (m.dword 1)
    (s.destroy c (reqSlot m) (bitOf (m.dword 0) 8)).2 0)

/-- A DESTROY served as its change of the actor says. -/
theorem served_destroy (h : Requested s c m 0x51) {u : State} {st : Nat} {P : State → Prop}
    (hd : (s.sysTake c 1).destroy c (reqSlot m) (bitOf (m.dword 0) 8) = (u, st)) (hP : ∀ t, CoresKept u t → P t) :
    Served .destroy s (m.dword 1) st 0 P :=
  served_sysReply ((exec_destroy h).trans (by rw [hd])) hP

/-- A DESTROY with nothing ordered of an eviction, by the state of the slot. -/
theorem destroy_eq {n : SlotId} {kill : Bool} (he : (s.slot c n).evicting = none) :
    s.destroy c n kill = match (s.slot c n).state with
      | .free => (s, stNoact)
      | .moved | .dying => (s, stBadstate)
      | .idle | .evicted => if n.val = 0 then (s, stBadstate) else (s.freeSlot c n, 0)
      | .suspended => if n.val = 0 then (s, stBadstate) else (s.destroySuspended c n kill, 0)
      | .active => if n.val = 0 then (s, stBadstate) else (s.destroyActive c n kill, 0) := by
  simp only [State.destroy, he] <;> rfl

/-- A suspended actor destroyed without a kill: its slot is free. -/
theorem slot_destroySuspended {n : SlotId} {v : Saved} {a : Activation} (hv : (s.slot c n).saved = some v)
    (ha : v.ctx.act = some a) (hn : a.slot = n) :
    (s.destroySuspended c n false).slot c n = { Slot.free with former := (s.slot c n).domain } := by
  simp only [State.destroySuspended, Bool.false_eq_true, if_false]
  rw [slot_endSaved_dying (v := v) (a := a) (by rw [State.slot_mapSlot_self]; exact hv) ha hn
    (by rw [State.slot_mapSlot_self]), State.slot_mapSlot_self]

/-- An active actor destroyed: it is DYING, and a kill is ordered of its activation. -/
theorem destroyActive_kept (s : State) (c : CoreId) (n : SlotId) (kill : Bool) :
    ((s.destroyActive c n kill).slot c n).state = .dying ∧ ∀ (x : CtxId) (a : Activation),
      (s.ctx c x).act = some a → a.slot = n → kill = true →
      Stop.kill (s.slot c n).domain ∈ ((s.destroyActive c n kill).ctx c x).stops := by
  simp only [State.destroyActive]
  constructor
  · split
    · rw [slot_mapActivation, State.slot_mapSlot_self]
    · rw [State.slot_mapSlot_self]
  · intro x a ha hn hk
    rw [if_pos hk, ctx_mapActivation (a := a) (by rw [State.ctx_mapSlot]; exact ha) hn]
    exact List.mem_append_right _ (List.mem_singleton_self _)

/-- DESTROY (R119). -/
theorem destroy_served (h : Requested s c m 0x51) :
    let n := reqSlot m
    let sl := s.slot c n
    let refused (st : Nat) : Prop := Served .destroy s (m.dword 1) st 0 (fun t => (t.slot c n).state = sl.state)
    sl.evicting = none →
      (sl.state = .free → refused 5) ∧
      (sl.state = .moved ∨ sl.state = .dying → refused 13) ∧
      (n ≠ 0 → sl.state = .idle ∨ sl.state = .evicted →
        Served .destroy s (m.dword 1) 0 0 (fun t => t.slot c n = { Slot.free with former := sl.domain })) ∧
      (∀ v a, n ≠ 0 → sl.state = .suspended → sl.saved = some v → v.ctx.act = some a → a.slot = n →
        bitOf (m.dword 0) 8 = false →
        Served .destroy s (m.dword 1) 0 0 (fun t => t.slot c n = { Slot.free with former := sl.domain })) ∧
      (n ≠ 0 → sl.state = .active → Served .destroy s (m.dword 1) 0 0 (fun t => (t.slot c n).state = .dying ∧
        ∀ (x : CtxId) (a : Activation), (s.ctx c x).act = some a → a.slot = n → bitOf (m.dword 0) 8 = true →
          Stop.kill sl.domain ∈ (t.ctx c x).stops)) := by
  intro n sl refused hev
  obtain ⟨b, hslot⟩ := slot_sysTake s c 1 c n
  have hd := destroy_eq (s := s.sysTake c 1) (c := c) (n := n) (kill := bitOf (m.dword 0) 8) (by rw [hslot]; exact hev)
  have hstate : ((s.sysTake c 1).slot c n).state = sl.state := by rw [hslot]
  have hne (hn : n ≠ 0) : ¬ n.val = 0 := fun e => hn (Fin.ext e)
  rw [hstate] at hd
  have hkept (t : State) (ht : CoresKept (s.sysTake c 1) t) : (t.slot c n).state = sl.state := by rw [ht.slot, hstate]
  refine ⟨fun hst => ?_, fun hst => ?_, fun hn hst => ?_, fun v a hn hst hv ha ha' hk => ?_, fun hn hst => ?_⟩
  · exact served_destroy h (hd.trans (by rw [hst]; rfl)) hkept
  · exact served_destroy h (hd.trans (by rcases hst with hst | hst <;> rw [hst] <;> rfl)) hkept
  · refine served_destroy h (u := (s.sysTake c 1).freeSlot c n)
      (hd.trans (by rcases hst with hst | hst <;> rw [hst] <;> exact if_neg (hne hn))) (fun t ht => ?_)
    rw [ht.slot, slot_freeSlot, hslot]
  · refine served_destroy h (hd.trans (by rw [hst]; exact if_neg (hne hn))) (fun t ht => ?_)
    rw [ht.slot, hk, slot_destroySuspended (by rw [hslot]; exact hv) ha ha', hslot]
  · obtain ⟨hdying, hstop⟩ := destroyActive_kept (s.sysTake c 1) c n (bitOf (m.dword 0) 8)
    refine served_destroy h (hd.trans (by rw [hst]; exact if_neg (hne hn))) (fun t ht => ⟨by rw [ht.slot, hdying], ?_⟩)
    intro x a ha ha' hk
    have := hstop x a (by rw [ctx_sysTake]; exact ha) ha' hk
    simp only [hslot] at this
    simpa only [State.ctx, ht.core] using this

theorem exec_clear (h : Requested s c m 0x53) :
    exec .clear s = .next (if ((s.sysTake c 1).slot c (reqSlot m)).state = .moved then
      ((s.sysTake c 1).mapSlot c (reqSlot m) (fun _ => Slot.free)).sysReply c (m.dword 1) 0 0
    else (s.sysTake c 1).sysReply c (m.dword 1) stBadstate 0) :=
  sysOp_requested h (fun c m s => if (s.slot c (reqSlot m)).state = .moved then
      (s.mapSlot c (reqSlot m) (fun _ => Slot.free)).sysReply c (m.dword 1) 0 0
    else s.sysReply c (m.dword 1) stBadstate 0)

/-- CLEAR (R354). -/
theorem clear_served (h : Requested s c m 0x53) :
    let n := reqSlot m
    let sl := s.slot c n
    (sl.state = .moved → Served .clear s (m.dword 1) 0 0 (fun t => t.slot c n = Slot.free)) ∧
    (sl.state ≠ .moved → Served .clear s (m.dword 1) 13 0 (fun t => (t.slot c n).state = sl.state)) := by
  intro n sl
  obtain ⟨b, hslot⟩ := slot_sysTake s c 1 c n
  have hexec := exec_clear h
  constructor
  · intro hst
    refine served_sysReply (hexec.trans (by rw [if_pos (by rw [hslot]; exact hst)])) (fun t ht => ?_)
    rw [ht.slot, State.slot_mapSlot_self]
  · intro hst
    exact served_sysReply (hexec.trans (by rw [if_neg (by rw [hslot]; exact hst)]; rfl)) (fun t ht => by rw [ht.slot, hslot])

end

/-! ### CREATE (R119, R122, R148) -/

section
variable {s : State} {c : CoreId} {slot : Nat} {p : PlanActor} {domain : BitVec 16} {area : Word} {launch : Option Nat}
  {n : SlotId} {rs : List Region}

theorem create_noSlot (h : (s.core c).pickSlot slot = none) : s.create c slot p domain area launch = (s, 1, 0) := by
  simp only [State.create, h]

theorem create_noSpace (h : (s.core c).pickSlot slot = some n) (hr : placeRegions (s.core c).regions (wanted p) = none) :
    s.create c slot p domain area launch = (s, 2, 0) := by
  simp only [wanted] at hr
  simp only [State.create, h, hr]

/-- The state in which a new actor stands in its slot. -/
def created (s : State) (c : CoreId) (n : SlotId) (p : PlanActor) (domain : BitVec 16) (rs : List Region) (area : Word)
    (launch : Option Nat) : State :=
  (({ s with actorCount := s.actorCount + 1 } : State).zeroRegions c rs).mapSlot c n
    (fun _ => p.newSlot domain rs area launch (s.actorCount + 1))

theorem create_placed (h : (s.core c).pickSlot slot = some n)
    (hr : placeRegions (s.core c).regions (wanted p) = some rs) :
    s.create c slot p domain area launch = (created s c n p domain rs area launch, 0, n.val) := by
  simp only [wanted] at hr
  simp only [State.create, h, hr]
  rfl

theorem slot_created : (created s c n p domain rs area launch).slot c n =
    p.newSlot domain rs area launch (s.actorCount + 1) :=
  State.slot_mapSlot_self _ _ _ _

theorem launches_created : (created s c n p domain rs area launch).launches = s.launches :=
  (atSpads_zeroRegions { s with actorCount := s.actorCount + 1 } c rs).launches

theorem spad_created (hwf : (s.core c).spad.wf = true) {r : Region} (hr : r ∈ rs) {j : Nat} (hj : j < r.size) :
    ((created s c n p domain rs area launch).core c).spad.get (r.base + j) = 0 := by
  have hspad : ((created s c n p domain rs area launch).core c).spad =
      ((({ s with actorCount := s.actorCount + 1 } : State).zeroRegions c rs).core c).spad := by
    simp only [created, State.mapSlot, State.core_mapCore_self]
  rw [hspad]
  exact get_zeroRegions (s := { s with actorCount := s.actorCount + 1 }) hwf rs (.inl ⟨r, hr, by omega⟩)

end

/-- The mailboxes of a new actor. -/
theorem mboxes_newSlot (p : PlanActor) (domain : BitVec 16) (rs : List Region) (area : Word) (launch : Option Nat)
    (actor : Nat) :
    (∀ b ∈ (p.newSlot domain rs area launch actor).mboxes, b.waiting = [] ∧ b.enabled = bitOf b.desc1 15) ∧
      (p.newSlot domain rs area launch actor).mboxes.map (fun b => (b.desc0, b.desc1)) = p.mboxes := by
  constructor
  · intro b hb
    obtain ⟨q, -, rfl⟩ := List.mem_map.mp hb
    exact ⟨rfl, rfl⟩
  · simp only [PlanActor.newSlot, List.map_map]
    exact List.map_id _

/-- The actor a CREATE asks for: none where its entry is not valid (R148). -/
def asked (u : State) (c : CoreId) (m : Msg) : Option PlanActor :=
  let rd (p : Word × Nat) : List Byte := u.kernelRead c p.1.toNat p.2
  let e := leWords 8 (rd (m.dword 1, 64))
  let parts := (entryRanges e).map rd
  parseActor e (parts[0]?.getD []) (parts[1]?.getD []) (parts[2]?.getD [])

section
variable {s : State} {c : CoreId} {m : Msg}

/-- A CREATE whose entry is not valid. -/
theorem exec_create_invalid (h : Requested s c m 0x50) (hp : asked (s.sysTake c 1) c m = none) :
    exec .create s = .next ((s.sysTake c 1).sysReply c (m.dword 3) stBaddesc 0) := by
  obtain ⟨⟨b, harg⟩, hhead, htag⟩ := h
  have hexec : exec .create s = execCreate s := rfl
  rw [hexec]
  unfold execCreate
  rw [withCore_eq harg, sysOp_head _ hhead htag]
  extract_lets w domain area rd e parts answer
  have hp : parseActor e (parts[0]?.getD []) (parts[1]?.getD []) (parts[2]?.getD []) = none := hp
  rw [hp]

/-- A CREATE whose request is well formed. -/
theorem exec_create_asked (h : Requested s c m 0x50) {p : PlanActor} (hp : asked (s.sysTake c 1) c m = some p)
    (h1 : bitsOf (m.dword 0) 15 4 = 0) (h2 : bitsOf (m.dword 0) 63 32 = 0)
    (h3 : BitVec.ofNat 16 (bitsOf (m.dword 0) 31 16) ≠ 0xFFFF) (h4 : bitsOf (m.dword 2) 15 0 = 0)
    (h5 : p.cls ≠ 0 ∨ BitVec.ofNat 16 (bitsOf (m.dword 0) 31 16) = 0) {t : State} {st n : Nat}
    (hmade : (s.sysTake c 1).create c (bitsOf (m.dword 0) 3 0) p (BitVec.ofNat 16 (bitsOf (m.dword 0) 31 16)) (m.dword 2) none =
      (t, st, n)) : exec .create s = .next (t.sysReply c (m.dword 3) st n) := by
  have hvalid : ¬ (bitsOf (m.dword 0) 15 4 ≠ 0 || bitsOf (m.dword 0) 63 32 ≠ 0 ||
      BitVec.ofNat 16 (bitsOf (m.dword 0) 31 16) = 0xFFFF || bitsOf (m.dword 2) 15 0 ≠ 0 ||
      (p.cls = 0 && BitVec.ofNat 16 (bitsOf (m.dword 0) 31 16) ≠ 0)) = true := by
    have h3 : ¬ BitVec.ofNat 16 (bitsOf (m.dword 0) 31 16) = 65535#16 := h3
    rcases h5 with h5 | h5
    · simp [h1, h2, h3, h4, h5]
    · simp [h1, h2, h4, h5]
  obtain ⟨⟨b, harg⟩, hhead, htag⟩ := h
  have hexec : exec .create s = execCreate s := rfl
  rw [hexec]
  unfold execCreate
  rw [withCore_eq harg, sysOp_head _ hhead htag]
  extract_lets w domain area rd e parts answer
  have hp : parseActor e (parts[0]?.getD []) (parts[1]?.getD []) (parts[2]?.getD []) = some p := hp
  rw [hp]
  dsimp only
  rw [if_neg hvalid, hmade]

/-- CREATE: the checks in their order, and the actor in its slot. -/
theorem create_served (h : Requested s c m 0x50) :
    let u := s.sysTake c 1
    let domain := BitVec.ofNat 16 (bitsOf (m.dword 0) 31 16)
    let actor := asked u c m
    let slot? := (u.core c).pickSlot (bitsOf (m.dword 0) 3 0)
    (actor = none → Served .create s (m.dword 3) 3 0 (fun t => (t.core c).slots = (u.core c).slots)) ∧
    (∀ p, actor = some p → bitsOf (m.dword 0) 15 4 = 0 → bitsOf (m.dword 0) 63 32 = 0 → domain ≠ 0xFFFF →
      bitsOf (m.dword 2) 15 0 = 0 → p.cls ≠ 0 ∨ domain = 0 →
      (slot? = none → Served .create s (m.dword 3) 1 0 (fun t => (t.core c).slots = (u.core c).slots)) ∧
      (∀ n, slot? = some n →
        (placeRegions (u.core c).regions (wanted p) = none →
          Served .create s (m.dword 3) 2 0 (fun t => (t.core c).slots = (u.core c).slots)) ∧
        (∀ rs, placeRegions (u.core c).regions (wanted p) = some rs →
          Served .create s (m.dword 3) 0 n.val (fun t =>
            (t.slot c n).state = .idle ∧ (t.slot c n).domain = domain ∧ (t.slot c n).tvec = p.tvec ∧
            (t.slot c n).weight = p.weight ∧ (t.slot c n).cls = p.cls ∧ (t.slot c n).regions = rs ∧
            (t.slot c n).area = m.dword 2 ∧ (t.slot c n).seq = 0 ∧
            (∀ b ∈ (t.slot c n).mboxes, b.waiting = [] ∧ b.enabled = bitOf b.desc1 15) ∧
            (t.slot c n).mboxes.map (fun b => (b.desc0, b.desc1)) = p.mboxes ∧
            ((s.core c).spad.wf = true → ∀ r ∈ rs, ∀ j < r.size, (t.core c).spad.get (r.base + j) = 0))))) := by
  intro u domain actor slot?
  have hkept (t : State) (ht : CoresKept u t) : (t.core c).slots = (u.core c).slots := by rw [ht.core]
  refine ⟨fun hnone => served_sysReply (exec_create_invalid h hnone) hkept,
    fun p hp h1 h2 h3 h4 h5 => ?_⟩
  refine ⟨fun hslot => ?_, fun n hslot => ⟨fun hr => ?_, fun rs hr => ?_⟩⟩
  · exact served_sysReply (exec_create_asked h hp h1 h2 h3 h4 h5 (create_noSlot hslot)) hkept
  · exact served_sysReply (exec_create_asked h hp h1 h2 h3 h4 h5 (create_noSpace hslot hr)) hkept
  · refine served_sysReply (exec_create_asked h hp h1 h2 h3 h4 h5 (create_placed hslot hr)) (fun t ht => ?_)
    obtain ⟨hboxes, hdescs⟩ := mboxes_newSlot p domain rs (m.dword 2) none (u.actorCount + 1)
    have hwf : (u.core c).spad = (s.core c).spad := by
      obtain ⟨k, v, hk, -⟩ := core_sysTake s c 1
      rw [hk]
    rw [ht.slot, slot_created]
    refine ⟨rfl, rfl, rfl, rfl, rfl, rfl, rfl, rfl, hboxes, hdescs, fun hs r hr j hj => ?_⟩
    rw [ht.core]
    exact spad_created (by rw [hwf]; exact hs) hr hj

end

/-! ### LAUNCH RECORD (R156) -/

/-- What messages posted change: what is on its way. -/
def Posted (s t : State) : Prop := CoresKept s t ∧ t.launches = s.launches

theorem posted_foldl {α : Type} {f : State → α → State} (hf : ∀ u a, Posted u (f u a)) (l : List α) (s : State) :
    Posted s (l.foldl f s) := by
  induction l generalizing s with
  | nil => exact ⟨.refl s, rfl⟩
  | cons a r ih =>
    obtain ⟨hc, hl⟩ := hf s a
    obtain ⟨hc', hl'⟩ := ih (f s a)
    exact ⟨hc.trans hc', hl'.trans hl⟩

theorem posted_post (s : State) (src : Nat) (m : Msg) : Posted s (s.post src m) := by
  refine ⟨coresKept_post s src m, ?_⟩
  obtain ⟨_, _, _, _, h⟩ := post_eq s src m
  rw [h]

theorem posted_sendInits (s : State) (l : Launch) : Posted s (s.sendInits l) := by
  unfold State.sendInits
  apply posted_foldl
  intro u a
  apply posted_foldl
  intro v i
  apply posted_post

theorem mapLaunch_some {s : State} {n : Nat} {l : Launch} (h : tabGet s.launches n = some l) (f : Launch → Launch) :
    s.mapLaunch n f = { s with launches := tabSet s.launches n (f l) } := by
  simp only [State.mapLaunch, h]

/-- A launch with its actor i created. -/
def Launch.with (l : Launch) (i : Nat) : Launch :=
  { l with actors := l.actors.modify i (fun a => { a with created := true }) }

/-- An actor of a launch created: its launch says so, and runs once that holds of each. -/
theorem createLaunched_made {s u : State} {n i k : Nat} {l : Launch} {a : LaunchActor}
    (hmade : s.create a.core a.slot.val a.plan l.domain (launchArea n i) (some n) = (u, 0, k))
    (hl : tabGet u.launches n = some l) :
    CoresKept u (s.createLaunched n i l a) ∧
      tabGet (s.createLaunched n i l a).launches n = some (if (Launch.with l i).actors.all (·.created) then
        { Launch.with l i with state := .running } else Launch.with l i) := by
  simp only [State.createLaunched, hmade, ne_eq, not_true_eq_false, if_false, mapLaunch_some hl]
  generalize hw : (if l.actors.any (·.created) = true then _ else _) = w
  have hw : CoresKept u w ∧ tabGet w.launches n = some (Launch.with l i) := by
    rw [← hw]
    split <;> exact ⟨⟨rfl, rfl, rfl⟩, tabGet_tabSet_self _ _ _⟩
  obtain ⟨hcores, hget⟩ := hw
  simp only [hget]
  split
  · obtain ⟨hk, hs⟩ := posted_sendInits (w.mapLaunch n (fun l => { l with state := .running })) (Launch.with l i)
    rw [mapLaunch_some hget] at hk hs ⊢
    exact ⟨hcores.trans (CoresKept.trans ⟨rfl, rfl, rfl⟩ hk), by rw [hs]; exact tabGet_tabSet_self _ _ _⟩
  · exact ⟨hcores, hget⟩

/-- LAUNCH RECORD: an actor of a launch in its slot. -/
theorem launchRecord_created {s : State} {c : CoreId} {m : Msg} {l : Launch} {a : LaunchActor} {rs : List Region}
    (harg : ∃ b d, s.arg = .nums c.val b d) (hhead : s.sysHead c 0 = some m) (htag : m.tag = 0x4C)
    (hl : tabGet s.launches (bitsOf (m.dword 1) 31 0) = some l) (hi : l.actors[bitsOf (m.dword 1) 39 32]? = some a)
    (hstate : l.state = .creating) (hcore : a.core = c) (hnew : a.created = false) (hslot : a.slot ≠ 0)
    (hfree : (s.slot c a.slot).state = .free) (hr : placeRegions (s.core c).regions (wanted a.plan) = some rs) :
    ∃ t k, exec .launchRecord s = .next t ∧ (t.slot c a.slot).state = .idle ∧ (t.slot c a.slot).domain = l.domain ∧
      (t.slot c a.slot).regions = rs ∧ (t.slot c a.slot).launch = some (bitsOf (m.dword 1) 31 0) ∧
      tabGet t.launches (bitsOf (m.dword 1) 31 0) = some k ∧
      k.actors[bitsOf (m.dword 1) 39 32]? = some { a with created := true } ∧
      (k.state = .running ↔ ∀ b ∈ k.actors, b.created = true) := by
  obtain ⟨b, d, harg⟩ := harg
  subst hcore
  have hexec : exec .launchRecord s = .next ((s.sysTake a.core 0).createLaunched (bitsOf (m.dword 1) 31 0)
      (bitsOf (m.dword 1) 39 32) l a) := by
    have hlaunches : (s.sysTake a.core 0).launches = s.launches := rfl
    have h : exec .launchRecord s = execLaunchRecord s := rfl
    simp only [h, execLaunchRecord, withCore_eq harg, hhead, htag, ne_eq, not_true_eq_false, if_false, hlaunches, hl, hi, hstate,
      hnew, decide_true, Bool.not_false, Bool.and_self, if_true]
  have hpick : ((s.sysTake a.core 0).core a.core).pickSlot a.slot.val = some a.slot := by
    have hs := slot_sysTake_ne s a.core 0 hslot
    simp only [State.slot] at hs hfree
    simp only [Core.pickSlot, slotOf_val, hs, hfree, if_true]
    exact if_neg (fun e => hslot (Fin.ext e))
  obtain ⟨hkept, hget⟩ := createLaunched_made (i := bitsOf (m.dword 1) 39 32)
    (create_placed hpick (by rw [regions_sysTake]; exact hr)) ((congrArg (tabGet · _) launches_created).trans hl)
  have hplaced := (hkept.slot a.core a.slot).trans slot_created
  refine ⟨_, _, hexec, by rw [hplaced]; rfl, by rw [hplaced]; rfl, by rw [hplaced]; rfl, by rw [hplaced]; rfl, hget, ?_⟩
  have hmade : (Launch.with l (bitsOf (m.dword 1) 39 32)).actors[bitsOf (m.dword 1) 39 32]? =
      some { a with created := true } := by
    simp only [Launch.with, List.getElem?_modify_eq, hi]
    rfl
  split
  · next hall => exact ⟨hmade, iff_of_true rfl (List.all_eq_true.mp hall)⟩
  · next hall =>
    refine ⟨hmade, iff_of_false ?_ (fun h => hall (List.all_eq_true.mpr h))⟩
    simp [Launch.with, hstate]

/-- Settles O39: each request by the state of the slot it names, CREATE and LAUNCH RECORD by the outcome of placement. -/
theorem actorLife : Obligations.ActorLife :=
  ⟨fun _ _ _ => ⟨preempt_served, resume_served, destroy_served, clear_served⟩,
    fun _ _ _ => ⟨create_served, fun _ _ _ => launchRecord_created⟩⟩

end Sys2Proof.Proofs
end

section
/-! EVICT and RESTORE (R143, R144, R311, R356 to R358). -/

namespace Sys2Proof.Proofs

open Sys2Proof Sys2Proof.Machine Sys2Proof.Claims

/-! ### An EVICT taken, and begun -/

section
variable {s : State} {c : CoreId} {m : Msg} {n : SlotId} {r : EvictReq}

theorem exec_evict (h : Requested s c m 0x57) : exec .evict s = .next ((s.sysTake c 1).startEvict c m) := by
  obtain ⟨⟨b, harg⟩, hhead, htag⟩ := h
  have hexec : exec .evict s = execEvict s := rfl
  simp only [hexec, execEvict, withNums_eq harg, coreOf_val]
  exact (if_pos rfl).trans (sysOp_head _ hhead htag)

/-- What a request for an eviction asks. -/
def evictAsked (m : Msg) : EvictReq :=
  { begun := false, accmask := BitVec.ofNat 4 (bitsOf (m.dword 0) 11 8), image := m.dword 1, overflow := m.dword 2,
    quota := bitsOf (m.dword 3) 16 0, reply := m.dword 4 }

/-- A valid request, by the state of the slot. -/
theorem startEvict_valid (hn : reqSlot m = n) (h1 : m.dword 1 &&& 0xFFF = 0) (h2 : 16 ≤ bitsOf (m.dword 3) 16 0)
    (h3 : bitsOf (m.dword 3) 16 0 ≤ 65536) (h0 : n ≠ 0) (he : (s.slot c n).evicting = none)
    {st : SlotState} (hst : (s.slot c n).state = st) :
    s.startEvict c m = match (generalizing := false) st with
      | .free => s.sysReply c (m.dword 4) stNoact 0
      | .idle | .suspended | .active =>
        (s.mapSlot c n (fun sl => { sl with evicting := some (evictAsked m) })).beginEvict c n
      | _ => s.sysReply c (m.dword 4) stBadstate 0 := by
  subst hn hst
  have hvalid : ¬ (m.dword 1 &&& 0xFFF ≠ 0 || bitsOf (m.dword 3) 16 0 < 16 || 65536 < bitsOf (m.dword 3) 16 0) = true := by
    simp only [Bool.or_eq_true, decide_eq_true_eq, not_or]
    exact ⟨⟨not_not.mpr h1, by omega⟩, by omega⟩
  have hslot : ¬ ((reqSlot m).val = 0 || (s.slot c (reqSlot m)).evicting.isSome) = true := by
    simp only [he, Option.isSome_none, Bool.or_false, decide_eq_true_eq]
    exact fun e => h0 (Fin.ext e)
  simp only [State.startEvict]
  rw [if_neg hvalid, if_neg hslot] <;> rfl

theorem beginEvict_drains (hd : (s.core c).drainsTo n = true) : s.beginEvict c n = s := by
  simp only [State.beginEvict, hd, if_true]

/-- An eviction begun is noted, and a running activation is to be saved. -/
theorem beginEvict_begun (he : (s.slot c n).evicting = some r) (hd : (s.core c).drainsTo n = false) :
    ((s.beginEvict c n).slot c n).evicting = some { r with begun := true } ∧
    ((s.slot c n).state = .active → ∀ (x : CtxId) (a : Activation), (s.ctx c x).act = some a → a.slot = n →
      Stop.evict ∈ ((s.beginEvict c n).ctx c x).stops) := by
  simp only [State.beginEvict, hd, Bool.false_eq_true, if_false, State.slot_mapSlot_self]
  constructor
  · split
    · rw [slot_mapActivation, State.slot_mapSlot_self, he]
      rfl
    · rw [State.slot_mapSlot_self, he]
      rfl
  · intro hst x a ha hn
    rw [if_pos hst, ctx_mapActivation (a := a) (by rw [State.ctx_mapSlot]; exact ha) hn]
    exact List.mem_append_right _ (List.mem_singleton_self _)

/-- EVICT of an actor that can be evicted: its request is noted, and it begins unless a drain to it is in progress. -/
theorem askEvict (s : State) (c : CoreId) (n : SlotId) (hr : r.begun = false) :
    let t := (s.mapSlot c n (fun sl => { sl with evicting := some r })).beginEvict c n
    (t.slot c n).evicting = some { r with begun := !(s.core c).drainsTo n } ∧
      ((s.slot c n).state = .active → (s.core c).drainsTo n = false → ∀ (x : CtxId) (a : Activation),
        (s.ctx c x).act = some a → a.slot = n → Stop.evict ∈ (t.ctx c x).stops) := by
  intro t
  have hdrains : ((s.mapSlot c n (fun sl => { sl with evicting := some r })).core c).drainsTo n = (s.core c).drainsTo n := by
    simp only [State.mapSlot, State.core_mapCore_self]
    rfl
  have hev : ((s.mapSlot c n (fun sl => { sl with evicting := some r })).slot c n).evicting = some r := by
    rw [State.slot_mapSlot_self]
  cases hd : (s.core c).drainsTo n with
  | true =>
    refine ⟨?_, fun _ h => nomatch h⟩
    simp only [t, beginEvict_drains (hdrains.trans hd), hev, Bool.not_true, ← hr]
  | false =>
    obtain ⟨hbegun, hstop⟩ := beginEvict_begun hev (hdrains.trans hd)
    refine ⟨hbegun, fun hst _ x a ha hn => hstop ?_ x a ?_ hn⟩
    · rw [State.slot_mapSlot_self]; exact hst
    · rw [State.ctx_mapSlot]; exact ha

/-- EVICT, its request. -/
theorem evict_requested (h : Requested s c m 0x57) (hn : slotOf (bitsOf (m.dword 0) 3 0) = n)
    (h1 : m.dword 1 &&& 0xFFF = 0) (h2 : 16 ≤ bitsOf (m.dword 3) 16 0) (h3 : bitsOf (m.dword 3) 16 0 ≤ 65536) (h0 : n ≠ 0)
    (he : (s.slot c n).evicting = none) :
    let sl := s.slot c n
    (sl.state = .free → Served .evict s (m.dword 4) 5 0 (fun t => t.slot c n = sl)) ∧
    (sl.state = .moved ∨ sl.state = .dying ∨ sl.state = .evicted →
      Served .evict s (m.dword 4) 13 0 (fun t => t.slot c n = sl)) ∧
    (sl.state = .idle ∨ sl.state = .suspended ∨ sl.state = .active →
      ∃ t, exec .evict s = .next t ∧ (t.slot c n).evicting = some
          { begun := !(s.core c).drainsTo n, accmask := BitVec.ofNat 4 (bitsOf (m.dword 0) 11 8), image := m.dword 1,
            overflow := m.dword 2, quota := bitsOf (m.dword 3) 16 0, reply := m.dword 4 } ∧
        (sl.state = .active → (s.core c).drainsTo n = false → ∀ (x : CtxId) (a : Activation),
          (s.ctx c x).act = some a → a.slot = n → Stop.evict ∈ (t.ctx c x).stops)) := by
  intro sl
  have hslot : (s.sysTake c 1).slot c n = sl := slot_sysTake_ne s c 1 h0
  have hexec {st : SlotState} (hst : sl.state = st) := (exec_evict h).trans (congrArg _
    (startEvict_valid (s := s.sysTake c 1) (st := st) hn h1 h2 h3 h0 (by rw [hslot]; exact he) (by rw [hslot]; exact hst)))
  have hkept (t : State) (ht : CoresKept (s.sysTake c 1) t) : t.slot c n = sl := by rw [ht.slot, hslot]
  refine ⟨fun hst => ?_, fun hst => ?_, fun hst => ?_⟩
  · exact served_sysReply (hexec hst) hkept
  · rcases hst with hst | hst | hst <;> exact served_sysReply (hexec hst) hkept
  · obtain ⟨k, v, hk, -⟩ := core_sysTake s c 1
    have hdrains : ((s.sysTake c 1).core c).drainsTo n = (s.core c).drainsTo n := by simp only [hk, Core.drainsTo]
    obtain ⟨hev, hstop⟩ := askEvict (r := evictAsked m) (s.sysTake c 1) c n rfl
    refine ⟨_, by rcases hst with hst | hst | hst <;> exact hexec hst, ?_, fun hact hd x a ha => ?_⟩
    · rw [hev, hdrains]; rfl
    · exact hstop (by rw [hslot]; exact hact) (hdrains.trans hd) x a (by rw [ctx_sysTake]; exact ha)

/-- EVICT of a slot, once nothing drains to it: it begins. -/
theorem exec_evict_begin {b : Nat} (harg : s.arg = .nums c.val n.val b) (h0 : n ≠ 0) (he : (s.slot c n).evicting = some r)
    (hr : r.begun = false) : exec .evict s = .next (s.beginEvict c n) := by
  have hexec : exec .evict s = execEvict s := rfl
  have hne : ¬ n.val = 0 := fun e => h0 (Fin.ext e)
  simp only [hexec, execEvict, withNums_eq harg, coreOf_val, slotOf_val, hne, if_false, he, hr, Bool.not_false, if_true]

/-- EVICT of a slot, once all it waits for has ended: it takes place. -/
theorem exec_evict_ready {b : Nat} (harg : s.arg = .nums c.val n.val b) (h0 : n ≠ 0) (he : (s.slot c n).evicting = some r)
    (hr : r.begun = true) (hst : (s.slot c n).state = .idle ∨ (s.slot c n).state = .suspended)
    (hready : s.evictReady c n r.accmask = true) : exec .evict s = .next (s.finishEvict c n r) := by
  have hexec : exec .evict s = execEvict s := rfl
  have hne : ¬ n.val = 0 := fun e => h0 (Fin.ext e)
  have hcond : (((s.slot c n).state == .idle || (s.slot c n).state == .suspended) && s.evictReady c n r.accmask) = true := by
    rw [hready]
    simpa using hst
  simp only [hexec, execEvict, withNums_eq harg, coreOf_val, slotOf_val, hne, if_false, he, hr, Bool.not_true,
    Bool.false_eq_true, stepIf]
  rw [if_pos hcond]

end

/-! ### The eviction (R357) -/

/-- Changes of one core, one after the other. -/
theorem core_foldl_mapCore {α : Type} (f : α → Core → Core) (l : List α) (s : State) (c : CoreId) :
    (l.foldl (fun s i => s.mapCore c (f i)) s).core c = l.foldl (fun k i => f i k) (s.core c) := by
  induction l generalizing s with
  | nil => rfl
  | cons i r ih => rw [List.foldl_cons, ih, State.core_mapCore_self, List.foldl_cons]

/-- A place freed: the slot has no region, and what they held is zero. -/
theorem freePlace_kept (s : State) (c : CoreId) (n : SlotId) :
    (s.freePlace c n).slot c n = { s.slot c n with regions := [] } ∧ ((s.core c).spad.wf = true →
      ∀ g ∈ (s.slot c n).regions, ∀ j < g.size, ((s.freePlace c n).core c).spad.get (g.base + j) = 0) := by
  have hzero := atSpads_zeroRegions s c (s.slot c n).regions
  have hget (hwf : (s.core c).spad.wf = true) (g : Region) (hg : g ∈ (s.slot c n).regions) (j : Nat) (hj : j < g.size) :=
    get_zeroRegions hwf (s.slot c n).regions (a := g.base + j) (.inl ⟨g, hg, by omega⟩)
  have hplace : s.freePlace c n = ((s.zeroRegions c (s.slot c n).regions).mapCore c (fun k =>
      { k with guard := { k.guard with shares := k.guard.shares.filter (fun p => p.2.slot != n) } })).mapSlot c n
        (fun sl => { sl with regions := [] }) := rfl
  rw [hplace]
  generalize s.zeroRegions c (s.slot c n).regions = u at hzero hget ⊢
  constructor
  · rw [State.slot_mapSlot_self, slot_mapCore _ c c rfl, hzero.slot]
  · intro hwf g hg j hj
    simp only [State.mapSlot, State.core_mapCore_self]
    exact hget hwf g hg j hj

theorem freeAccs_freed (x : Matrix) {mask : BitVec 4} {a : Fin 4} (h : mask.getLsbD a.val = true) :
    (x.freeAccs mask).accs[a] = .free := by
  simp only [Matrix.freeAccs, Fin.getElem_fin, Vector.getElem_ofFn, h, if_true]

/-- What an eviction writes to device memory. -/
def evictWritten (s : State) (c : CoreId) (n : SlotId) (r : EvictReq) : State :=
  let u := s.kernelWrite c r.image.toNat (s.image c n r.accmask)
  (((u.slot c n).overflow.map (·.msgs)).getD []).zipIdx.foldl (fun s p =>
    s.kernelWrite c (r.overflow.toNat + 128 * p.2) (pad 128 (Msg.image p.1.1 ++ wordBytes (word p.1.2)))) u

theorem atHomes_evictWritten (s : State) (c : CoreId) (n : SlotId) (r : EvictReq) : AtHomes s (evictWritten s c n r) :=
  (atHomes_kernelWrite s c r.image.toNat (s.image c n r.accmask)).trans
    (.foldl (fun (u : State) (p : (Msg × Nat) × Nat) =>
      u.kernelWrite c (r.overflow.toNat + 128 * p.2) (pad 128 (Msg.image p.1.1 ++ wordBytes (word p.1.2))))
      (fun u _ => atHomes_kernelWrite u c _ _) _ _)

/-- A place evicted: what stood in it is freed. -/
def evictFreed (u : State) (c : CoreId) (n : SlotId) (r : EvictReq) (slots : List Nat) : State :=
  slots.foldl (fun s i => s.mapCore c (fun k => Core.zeroSlot { k with claims := tabDel k.claims i } i))
    ((u.freePlace c n).mapCore c (fun k => { k with
      storeUsed := k.storeUsed - (u.slot c n).stored, matrix := k.matrix.freeAccs r.accmask }))

theorem evictFreed_kept (u : State) (c : CoreId) (n : SlotId) (r : EvictReq) (slots : List Nat) :
    let t := evictFreed u c n r slots
    t.slot c n = { u.slot c n with regions := [] } ∧ ((u.core c).spad.wf = true →
      ∀ g ∈ (u.slot c n).regions, ∀ j < g.size, (t.core c).spad.get (g.base + j) = 0) ∧
    ∀ a : Fin 4, r.accmask.getLsbD a.val = true → (t.core c).matrix.accs[a] = .free := by
  intro t
  obtain ⟨hslot, hspad⟩ := freePlace_kept u c n
  have hcore : ∃ o cl st, t.core c = { (u.freePlace c n).core c with
      opnd := o, claims := cl, storeUsed := st, matrix := ((u.freePlace c n).core c).matrix.freeAccs r.accmask } := by
    simp only [t, evictFreed, core_foldl_mapCore (fun i k => Core.zeroSlot { k with claims := tabDel k.claims i } i),
      State.core_mapCore_self]
    obtain ⟨o, cl, h⟩ := zeroSlots_eq slots { (u.freePlace c n).core c with
      storeUsed := ((u.freePlace c n).core c).storeUsed - (u.slot c n).stored,
      matrix := ((u.freePlace c n).core c).matrix.freeAccs r.accmask }
    exact ⟨o, cl, _, h⟩
  obtain ⟨o, cl, st, hcore⟩ := hcore
  refine ⟨?_, fun hwf g hg j hj => ?_, fun a ha => ?_⟩
  · rw [← hslot]
    simp only [State.slot, hcore]
  · rw [hcore]
    exact hspad hwf g hg j hj
  · rw [hcore]
    exact freeAccs_freed _ ha

theorem finishEvict_eq (s : State) (c : CoreId) (n : SlotId) (r : EvictReq) :
    ∃ slots, s.finishEvict c n r = (((evictFreed (evictWritten s c n r) c n r slots).mapSlot c n (fun sl => { sl with
      state := .evicted, evicting := none,
      image := some (r.image, ((evictWritten s c n r).slot c n).regions.map (·.align)),
      overflow := some { addr := r.overflow, quota := r.quota,
                         msgs := (((s.kernelWrite c r.image.toNat (s.image c n r.accmask)).slot c n).overflow.map
                           (·.msgs)).getD [] } })).sysReply c r.reply 0 (s.image c n r.accmask).length) :=
  ⟨_, rfl⟩

/-- EVICT of an actor that nothing holds any more. -/
theorem evict_finished {s : State} {c : CoreId} {n : SlotId} {r : EvictReq} {b : Nat} (harg : s.arg = .nums c.val n.val b)
    (h0 : n ≠ 0) (he : (s.slot c n).evicting = some r) (hr : r.begun = true) (hwf : (s.core c).spad.wf = true)
    (hst : (s.slot c n).state = .idle ∨ (s.slot c n).state = .suspended) (hready : s.evictReady c n r.accmask = true) :
    let sl := s.slot c n
    Served .evict s r.reply 0 (s.image c n r.accmask).length (fun t =>
      (t.slot c n).state = .evicted ∧ (t.slot c n).evicting = none ∧ (t.slot c n).regions = [] ∧
      (t.slot c n).image = some (r.image, sl.regions.map (·.align)) ∧
      (t.slot c n).overflow = some { addr := r.overflow, quota := r.quota,
                                     msgs := (sl.overflow.map (·.msgs)).getD [] } ∧
      (t.slot c n).mboxes = sl.mboxes ∧ (t.slot c n).saved = sl.saved ∧
      (∀ g ∈ sl.regions, ∀ j < g.size, (t.core c).spad.get (g.base + j) = 0) ∧
      (∀ a : Fin 4, r.accmask.getLsbD a.val = true → (t.core c).matrix.accs[a] = .free)) := by
  intro sl
  obtain ⟨slots, heq⟩ := finishEvict_eq s c n r
  have hwritten := atHomes_evictWritten s c n r
  have hslot := hwritten.slot c n
  rw [hslot, (atHomes_kernelWrite s c r.image.toNat (s.image c n r.accmask)).slot c n] at heq
  obtain ⟨hfreed, hzero, haccs⟩ := evictFreed_kept (evictWritten s c n r) c n r slots
  rw [hslot] at hfreed hzero
  rw [hwritten.spad] at hzero
  refine served_sysReply ((exec_evict_ready harg h0 he hr hst hready).trans (congrArg _ heq)) (fun t ht => ?_)
  rw [ht.slot, State.slot_mapSlot_self, hfreed, ht.core]
  refine ⟨rfl, rfl, rfl, rfl, rfl, rfl, rfl, ?_, ?_⟩ <;> simp only [State.mapSlot, State.core_mapCore_self]
  · exact hzero hwf
  · exact haccs

/-! ### RESTORE (R144, R358) -/

/-- No slot and no logical clock has changed. -/
def SlotsKept (s t : State) : Prop := ∀ d, (t.core d).slots = (s.core d).slots ∧ (t.core d).lclk = (s.core d).lclk

namespace SlotsKept

variable {s t u : State}

theorem refl (s : State) : SlotsKept s s := fun _ => ⟨rfl, rfl⟩

theorem trans (h : SlotsKept s t) (g : SlotsKept t u) : SlotsKept s u :=
  fun d => ⟨(g d).1.trans (h d).1, (g d).2.trans (h d).2⟩

theorem of_cores (h : CoresKept s t) : SlotsKept s t := fun d => by rw [h.core]; exact ⟨rfl, rfl⟩

theorem mapCore (s : State) (c : CoreId) {f : Core → Core} (hs : (f (s.core c)).slots = (s.core c).slots)
    (hl : (f (s.core c)).lclk = (s.core c).lclk) : SlotsKept s (s.mapCore c f) := by
  intro d
  by_cases hd : d = c
  · subst hd; rw [State.core_mapCore_self]; exact ⟨hs, hl⟩
  · rw [State.core_mapCore_ne _ _ hd]; exact ⟨rfl, rfl⟩

theorem slot (h : SlotsKept s t) (c : CoreId) (n : SlotId) : t.slot c n = s.slot c n := by
  simp only [State.slot, (h c).1]

end SlotsKept

theorem slotsKept_mapWaiters (s : State) (f : TokenWaiter → Option TokenWaiter) : SlotsKept s (s.mapWaiters f) := by
  intro d
  simp only [State.core, State.mapWaiters, tabGet_tabMap]
  cases tabGet s.cores d.val <;> exact ⟨rfl, rfl⟩

theorem slotsKept_mapLaunch (s : State) (n : Nat) (f : Launch → Launch) : SlotsKept s (s.mapLaunch n f) := by
  unfold State.mapLaunch
  split
  · exact .refl s
  · exact .of_cores ⟨rfl, rfl, rfl⟩

theorem slotsKept_moveLaunched (s : State) (sl : Slot) (c0 : CoreId) (n0 : SlotId) (c : CoreId) (n : SlotId) :
    SlotsKept s (s.moveLaunched sl c0 n0 c n) := by
  unfold State.moveLaunched
  split
  · exact .refl s
  · exact slotsKept_mapLaunch s _ _

theorem slotsKept_moveActivation (s : State) (c0 : CoreId) (n0 : SlotId) (c : CoreId) (n : SlotId) (levels : List Level) :
    SlotsKept s (s.moveActivation c0 n0 c n levels) := by
  simp only [State.moveActivation]
  generalize hu : (if c0 = c then s else _) = u
  have hu : SlotsKept s u := by
    rw [← hu]
    split
    · exact .refl s
    · exact (SlotsKept.mapCore s c0 rfl rfl).trans (.mapCore _ c rfl rfl)
  have hw := hu.trans (slotsKept_mapWaiters u (fun w => some (if w = .slot c0 n0 then .slot c n else w)))
  split
  · exact hw
  · exact hw.trans (.of_cores ⟨rfl, rfl, rfl⟩)

theorem accsOf_zero : accsOf 0 = [] := by decide

/-- An image with no operand slot and no accumulator: its regions are loaded. -/
theorem atSpads_loadImage {img : Image} (hc : img.claimed = []) (hm : img.mask = 0) (s : State) (c : CoreId) (n : SlotId)
    (at_ : Nat) (rs : List Region) (actor : Nat) (domain : BitVec 16) :
    AtSpads s (s.loadImage c n img at_ rs actor domain) := by
  have hfold (l : List Region) (p : State × Nat) : AtSpads p.1 (l.foldl (fun (a : State × Nat) r =>
      (a.1.spadWrite c r.base (s.kernelRead c (at_ + a.2) r.size), a.2 + r.size)) p).1 := by
    induction l generalizing p with
    | nil => exact .refl p.1
    | cons r l ih => exact (atSpads_spadWrite p.1 c r.base _).trans (ih (p.1.spadWrite c r.base (s.kernelRead c (at_ + p.2) r.size), p.2 + r.size))
  simp only [State.loadImage, hc, hm, accsOf_zero, List.zipIdx_nil, List.foldl_nil]
  exact hfold rs (s, img.regions)

/-- The slot of a restored actor with nothing saved. -/
def placedSlot (old : Slot) (img : Image) (overflow : Word) (rs : List Region) (start : Nat) : Slot :=
  Slot.reorder { old with
    state := .idle, tvec := img.tvec, seq := img.seq, quota := img.quota, regions := rs, saved := none, image := none,
    evicting := none,
    overflow := (old.overflow.filter (!·.msgs.isEmpty)).map (fun o => { o with addr := overflow }) } start

/-- An actor with nothing saved takes its place. -/
theorem takePlace_idle {s : State} {c : CoreId} {n : SlotId} {img : Image} {at_ : Nat} {overflow : Word} {rs : List Region}
    (hs : (s.slot img.core img.slot).saved = none) :
    let old := s.slot img.core img.slot
    let t := s.takePlace c n img at_ overflow rs
    (t.slot c n).state = .idle ∧ (t.slot c n).regions = rs ∧ (t.slot c n).domain = old.domain ∧
      (t.slot c n).tvec = img.tvec ∧ (t.slot c n).quota = img.quota ∧ (t.slot c n).seq = img.seq ∧
      (t.slot c n).image = none ∧ img.lclk ≤ (t.core c).lclk ∧
      (img.core ≠ c ∨ img.slot ≠ n → (t.slot img.core img.slot).state = .moved ∧
        (t.slot img.core img.slot).movedTo = endpointOf c.val n.val 0) := by
  intro old t
  obtain ⟨sl, hsl⟩ : ∃ sl, sl = placedSlot old img overflow rs (s.core c).acceptCount := ⟨_, rfl⟩
  have hplaced : SlotsKept ((if (img.core = c && img.slot = n) = true then s else s.mapSlot img.core img.slot (fun _ =>
      { Slot.free with state := .moved, former := old.domain, movedTo := endpointOf c.val n.val 0 })).mapCore c
      (fun k => { k with slots := k.slots.set n sl, storeUsed := k.storeUsed + sl.stored,
                         acceptCount := k.acceptCount + sl.stored, lclk := max k.lclk img.lclk })) t := by
    simp only [t, State.takePlace, hs, Option.map_none, Option.isSome_none, Bool.false_eq_true, if_false, hsl, placedSlot, old]
    refine SlotsKept.trans (slotsKept_moveLaunched _ (s.slot img.core img.slot) img.core img.slot c n)
      (SlotsKept.trans ?_ (slotsKept_moveActivation _ _ _ _ _ _))
    generalize State.moveLaunched _ _ _ _ _ _ = v
    split
    · exact .refl _
    · exact .mapCore _ c rfl rfl
  have hslot : t.slot c n = sl := by
    rw [hplaced.slot, State.slot, State.core_mapCore_self]
    exact Vector.getElem_set_self _
  have hlclk : img.lclk ≤ (t.core c).lclk := by
    rw [(hplaced c).2, State.core_mapCore_self]
    exact Nat.le_max_right _ _
  rw [hslot, hsl]
  refine ⟨rfl, rfl, rfl, rfl, rfl, rfl, rfl, hlclk, fun hne => ?_⟩
  have hhome : ¬ (img.core = c && img.slot = n) = true := by
    simp only [Bool.and_eq_true, decide_eq_true_eq, not_and_or]
    exact hne
  have hmoved : t.slot img.core img.slot =
      { Slot.free with state := .moved, former := old.domain, movedTo := endpointOf c.val n.val 0 } := by
    rw [hplaced.slot, if_neg hhome]
    by_cases hcore : img.core = c
    · have hn : n.val ≠ img.slot.val := fun e => hne.elim (fun h => h hcore) (fun h => h (Fin.ext e.symm))
      subst hcore
      simp only [State.slot, State.core_mapCore_self, State.mapSlot, Fin.getElem_fin]
      rw [Vector.getElem_set_ne _ _ hn, Vector.getElem_set_self]
    · rw [State.slot, State.core_mapCore_ne _ _ hcore]
      exact State.slot_mapSlot_self _ _ _ _
  rw [hmoved]
  exact ⟨rfl, rfl⟩

/-! ### RESTORE, its checks -/

section
variable {s : State} {c : CoreId} {m : Msg} {img : Image}

theorem exec_restore (h : Requested s c m 0x58) {t : State} {st : Nat} (hr : (s.sysTake c 1).restore c m = (t, st)) :
    exec .restore s = .next (t.sysReply c (m.dword 3) st 0) := by
  obtain ⟨⟨b, harg⟩, hhead, htag⟩ := h
  have hexec : exec .restore s = execRestore s := rfl
  rw [hexec, execRestore, withCore_eq harg, sysOp_head _ hhead htag, hr]

theorem restore_version (hi : Image.ofBytes (s.kernelRead c (m.dword 1).toNat 0x60) = img) (hv : img.version ≠ 1) :
    s.restore c m = (s, stBaddesc) := by
  simp only [State.restore, hi]
  rw [if_pos hv]

theorem restore_state (hi : Image.ofBytes (s.kernelRead c (m.dword 1).toNat 0x60) = img) (hv : img.version = 1)
    (hst : (s.slot img.core img.slot).state ≠ .evicted) : s.restore c m = (s, stBadstate) := by
  simp only [State.restore, hi]
  rw [if_neg (not_not.mpr hv), if_pos (by simp [hst])]

/-- The checks of a RESTORE of an evicted actor's image. -/
structure Evicted (s : State) (c : CoreId) (m : Msg) (img : Image) (aligns : List Nat) : Prop where
  read : Image.ofBytes (s.kernelRead c (m.dword 1).toNat 0x60) = img
  version : img.version = 1
  state : (s.slot img.core img.slot).state = .evicted
  image : (s.slot img.core img.slot).image = some (m.dword 1, aligns)

variable {aligns : List Nat}

theorem restore_noSlot (h : Evicted s c m img aligns)
    (hs : (s.core c).restoreSlot (img.core = c) img.slot (bitsOf (m.dword 0) 3 0) = none) : s.restore c m = (s, 1) := by
  obtain ⟨hi, hv, hst, himg⟩ := h
  simp only [State.restore, hi]
  rw [if_neg (not_not.mpr hv), if_neg (by simp [hst, himg])]
  simp only [hs]

/-- The regions an image asks for. -/
def imageRegions (s : State) (c : CoreId) (m : Msg) (aligns : List Nat) : List Region :=
  aligns.zipIdx.map (fun p => Region.ofWord (leWord (s.kernelRead c ((m.dword 1).toNat + 0x60 + 8 * p.2) 8)) p.1)

theorem restore_placed {n : SlotId} {rs : List Region} (h : Evicted s c m img aligns)
    (hs : (s.core c).restoreSlot (img.core = c) img.slot (bitsOf (m.dword 0) 3 0) = some n) (hc : img.claimed = [])
    (hm : img.mask = 0)
    (hp : placeSaved (s.core c).regions (imageRegions s c m aligns) (bitOf (m.dword 0) 8) = some rs) :
    let old := s.slot img.core img.slot
    s.restore c m = ((s.loadImage c n img (m.dword 1).toNat rs old.actor old.domain).takePlace c n img (m.dword 1).toNat
      (m.dword 2) rs, 0) := by
  obtain ⟨hi, hv, hst, himg⟩ := h
  simp only [imageRegions] at hp
  simp only [State.restore, hi]
  rw [if_neg (not_not.mpr hv), if_neg (by simp [hst, himg])]
  simp only [hs, himg, Option.map_some, Option.getD_some, hp]
  rw [hc, hm, accsOf_zero]
  exact if_neg Bool.false_ne_true

end

/-- RESTORE: the checks in their order, and the actor in its place. -/
theorem restore_served {s : State} {c : CoreId} {m : Msg} (h : Requested s c m 0x58) :
    let u := s.sysTake c 1
    let at_ := (m.dword 1).toNat
    let img := Image.ofBytes (u.kernelRead c at_ 0x60)
    let old := s.slot img.core img.slot
    let slot? := (u.core c).restoreSlot (img.core = c) img.slot (bitsOf (m.dword 0) 3 0)
    (img.version ≠ 1 → Served .restore s (m.dword 3) 3 0 (fun _ => True)) ∧
    (img.version = 1 → old.state ≠ .evicted → Served .restore s (m.dword 3) 13 0 (fun _ => True)) ∧
    (∀ aligns, img.version = 1 → old.state = .evicted → old.image = some (m.dword 1, aligns) →
      (slot? = none → Served .restore s (m.dword 3) 1 0 (fun t => (t.slot img.core img.slot).state = .evicted)) ∧
      (∀ k rs, slot? = some k → img.claimed = [] → img.mask = 0 → old.saved = none →
        placeSaved (u.core c).regions (aligns.zipIdx.map (fun p =>
          Region.ofWord (leWord (u.kernelRead c (at_ + 0x60 + 8 * p.2) 8)) p.1)) (bitOf (m.dword 0) 8) = some rs →
        Served .restore s (m.dword 3) 0 0 (fun t =>
          (t.slot c k).state = .idle ∧ (t.slot c k).regions = rs ∧ (t.slot c k).domain = old.domain ∧
          (t.slot c k).tvec = img.tvec ∧ (t.slot c k).quota = img.quota ∧ (t.slot c k).seq = img.seq ∧
          (t.slot c k).image = none ∧ img.lclk ≤ (t.core c).lclk ∧
          (img.core ≠ c ∨ img.slot ≠ k → (t.slot img.core img.slot).state = .moved ∧
            (t.slot img.core img.slot).movedTo = endpointOf c.val k.val 0)))) := by
  intro u at_ img old slot?
  obtain ⟨b, hold⟩ : ∃ b, u.slot img.core img.slot = { old with mboxes := b } := slot_sysTake s c 1 _ _
  refine ⟨fun hv => ?_, fun hv hst => ?_, fun aligns hv hst himg => ⟨fun hs => ?_, fun k rs hs hc hm hsaved hp => ?_⟩⟩
  · exact served_sysReply (exec_restore h (restore_version rfl hv)) (fun _ _ => trivial)
  · exact served_sysReply (exec_restore h (restore_state (img := img) rfl hv (by rw [hold]; exact hst))) (fun _ _ => trivial)
  · have hev : Evicted u c m img aligns := ⟨rfl, hv, by rw [hold]; exact hst, by rw [hold]; exact himg⟩
    exact served_sysReply (exec_restore h (restore_noSlot hev hs)) (fun t ht => by rw [ht.slot, hev.state])
  · have hev : Evicted u c m img aligns := ⟨rfl, hv, by rw [hold]; exact hst, by rw [hold]; exact himg⟩
    have hload := atSpads_loadImage hc hm u c k at_ rs (u.slot img.core img.slot).actor (u.slot img.core img.slot).domain
    refine served_sysReply (exec_restore h (restore_placed hev hs hc hm hp)) (fun t ht => ?_)
    have hkept := (hload.slot img.core img.slot).trans hold
    have hplaced := takePlace_idle (c := c) (n := k) (img := img) (at_ := at_) (overflow := m.dword 2) (rs := rs)
      (s := u.loadImage c k img at_ rs (u.slot img.core img.slot).actor (u.slot img.core img.slot).domain)
      (by rw [hkept]; exact hsaved)
    rw [hkept] at hplaced
    rw [ht.slot, ht.slot, ht.core]
    exact hplaced

/-- Settles O38: an EVICT by the state of its slot and of its request, a RESTORE by its checks. -/
theorem evictAndRestore : Obligations.EvictAndRestore := by
  intro s c m n sl
  refine ⟨evict_requested, fun r b harg h0 he hr hd => ?_, fun r b harg h0 he hr hwf hst => ?_, restore_served⟩
  · obtain ⟨hbegun, hstop⟩ := beginEvict_begun he hd
    exact ⟨_, exec_evict_begin harg h0 he hr, hbegun, hstop⟩
  · exact evict_finished harg h0 he hr hwf hst

end Sys2Proof.Proofs
end

section
/-! The other events of a core's scheduler (R134 to R136, R219, R263 to R265, R352). -/

namespace Sys2Proof.Proofs

open Sys2Proof Sys2Proof.Machine Sys2Proof.Claims

/-! ### Facts about the issue of contexts -/

theorem IssueKept.ctx {s t : State} (h : IssueKept s t) (c : CoreId) (x : CtxId) :
    ∃ w, t.ctx c x = { s.ctx c x with watch := w } := (h.2 c).2 x

theorem IssueKept.chunk {s t : State} (h : IssueKept s t) (c : CoreId) (x : CtxId) :
    (t.ctx c x).chunk = (s.ctx c x).chunk := by
  obtain ⟨w, hw⟩ := h.ctx c x
  rw [hw]

/-- The homes and the kernel's writes leave the contexts. -/
theorem AtHomes.issue {s t : State} (h : AtHomes s t) : IssueKept s t := by
  refine ⟨by obtain ⟨_, _, _, _, _, _, rfl⟩ := h.rest; rfl, fun c => ?_⟩
  obtain ⟨v, l, hk, hv⟩ := h.core c
  rw [hk]
  exact ⟨rfl, hv⟩

theorem ctx_mapCore_self (s : State) (c : CoreId) (f : Core → Core) (x : CtxId) :
    (s.mapCore c f).ctx c x = (f (s.core c)).ctxs[x.val] := by
  rw [State.ctx, State.core_mapCore_self]
  rfl

/-- An activation ended leaves its context free. -/
theorem act_endActivation (s : State) (c : CoreId) (x : CtxId) (terminal : Bool) :
    ((s.endActivation c x terminal).ctx c x).act = none := by
  simp only [State.endActivation]
  generalize hu : State.mapCore _ c _ = u
  have hfree : (u.ctx c x).act = none := by
    rw [← hu, ctx_mapCore_self, Vector.getElem_set_self]
    rfl
  have hkept (t : State) (h : IssueKept u t) : (t.ctx c x).act = none := by
    obtain ⟨w, hw⟩ := h.ctx c x
    rw [hw]
    exact hfree
  split
  · exact hfree
  · next a _ =>
    refine hkept _ ((leavePosted_kept u c a.slot).1.trans (IssueKept.trans ?_ (leaveSlot_kept _ c a).1))
    split
    · unfold State.drainStep
      split
      · exact .mapCore _ c (.of_eq rfl rfl)
      · exact .refl _
    · exact .refl _

/-! ### CONTEXT SWITCH (R136) -/

section
variable {s : State} {c : CoreId} {x : CtxId}

/-- A gate transition blocks no activation. -/
theorem unblocked_gateMove (ha : (s.ctx c x).act.isSome = true) (hw : (s.ctx c x).wait = .gateMove) :
    s.unblocked c x = true := by
  simp only [State.unblocked, State.waitOver, ha, hw, Bool.or_true, Bool.and_true]

theorem contextSwitch_blocked (harg : s.arg = .nums c.val 0 0) (hu : s.unblocked c (s.core c).cur = false)
    (hb : s.bestCtx c (fun _ => true) = some x) : exec .contextSwitch s = .next (s.switchTo c x) := by
  have hmove : ¬ ((s.ctx c (s.core c).cur).act.isSome && (s.ctx c (s.core c).cur).wait == .gateMove) = true := by
    intro h
    obtain ⟨ha, hw⟩ := Bool.and_eq_true_iff.mp h
    rw [unblocked_gateMove ha (eq_of_beq hw)] at hu
    cases hu
  have hexec : exec .contextSwitch s = execContextSwitch s := rfl
  simp only [hexec, execContextSwitch, withCore_eq harg]
  rw [if_neg hmove]
  simp only [hu, hb]

theorem contextSwitch_gateMove (harg : s.arg = .nums c.val 0 0) (ha : (s.ctx c (s.core c).cur).act.isSome = true)
    (hw : (s.ctx c (s.core c).cur).wait = .gateMove) (hb : s.bestCtx c (· != (s.core c).cur) = some x) :
    exec .contextSwitch s = .next (s.switchTo c x) := by
  have hexec : exec .contextSwitch s = execContextSwitch s := rfl
  simp only [hexec, execContextSwitch, withCore_eq harg]
  rw [if_pos (by rw [ha, hw]; rfl)]
  simp only [hb]

/-! ### Budgets (R134, R135) -/

theorem periodStart_set {i : Nat} {b : Budget} (harg : s.arg = .nums c.val 0 0) (hi : (s.core c).budgets[i]? = some b)
    (hb : b.index < s.quartz / (b.period * 1000)) :
    ∃ t, exec .periodStart s = .next t ∧
      (t.core c).budgets[i]? = some { b with left := b.allot, index := s.quartz / (b.period * 1000) } := by
  have hexec : exec .periodStart s = execPeriodStart s := rfl
  have hpast : (!((s.core c).budgets.filter (fun b => b.index < s.quartz / (b.period * 1000))).isEmpty) = true := by
    rw [Bool.not_eq_true', List.isEmpty_eq_false_iff_exists_mem]
    exact ⟨b, List.mem_filter.mpr ⟨List.mem_of_getElem? hi, decide_eq_true hb⟩⟩
  simp only [hexec, execPeriodStart, withCore_eq harg, stepIf]
  rw [if_pos hpast]
  refine ⟨_, rfl, ?_⟩
  rw [State.core_mapCore_self]
  simp only [List.getElem?_map, hi, Option.map_some, hb, if_true]

theorem budgetExhaustion_stops (harg : s.arg = .nums c.val 0 0) (ha : (s.ctx c x).act.isSome = true)
    (hl : (s.core c).left (s.ctx c x).payer = some 0) :
    ∃ t, exec .budgetExhaustion s = .next t ∧ Stop.budget ∈ (t.ctx c x).stops := by
  have hexec : exec .budgetExhaustion s = execBudgetExhaustion s := rfl
  have hex : (s.core c).exhausted (s.ctx c x).payer = true := by rw [Core.exhausted, hl]; rfl
  simp only [hexec, execBudgetExhaustion, withCore_eq harg, stepIf]
  refine ⟨_, rfl, ?_⟩
  by_cases hstop : Stop.budget ∈ (s.ctx c x).stops
  · split
    · rw [ctx_mapCore_self, Vector.getElem_map]
      split
      · exact List.mem_append_left _ hstop
      · exact hstop
    · exact hstop
  · have hhit : ((s.ctx c x).act.isSome && (s.core c).exhausted (s.ctx c x).payer && !(s.ctx c x).stops.contains .budget) =
        true := by
      rw [ha, hex]
      simpa using hstop
    have hany : (s.core c).ctxs.toList.any (fun y => y.act.isSome && (s.core c).exhausted y.payer &&
        !y.stops.contains .budget) = true := List.any_eq_true.mpr ⟨s.ctx c x, Vector.mem_toList_iff.mpr (Vector.getElem_mem x.isLt), hhit⟩
    rw [if_pos hany, ctx_mapCore_self, Vector.getElem_map]
    split
    · exact List.mem_append_right _ (List.mem_singleton_self _)
    · next hno => exact absurd hhit hno

end

/-! ### FAULT TOKEN FREED (R352) -/

/-- No slot and no fault that waits for a token has changed. -/
def FaultsKept (s t : State) : Prop := (∀ c n, t.slot c n = s.slot c n) ∧ ∀ c, (t.core c).faultQueue = (s.core c).faultQueue

namespace FaultsKept

variable {s t u : State}

theorem trans (h : FaultsKept s t) (g : FaultsKept t u) : FaultsKept s u :=
  ⟨fun c n => (g.1 c n).trans (h.1 c n), fun c => (g.2 c).trans (h.2 c)⟩

theorem of_cores (h : CoresKept s t) : FaultsKept s t := ⟨h.slot, fun c => by rw [h.core]⟩

theorem of_homes (h : AtHomes s t) : FaultsKept s t := ⟨h.slot, h.faultQueue⟩

end FaultsKept

/-- A token taken, or joined, leaves slots and waiting faults alone. -/
theorem faultsKept_takeToken {s u : State} {die : DieId} {e : Entry} {w : TokenWaiter} {n : Nat}
    (h : s.takeToken die e w = some (u, n)) : FaultsKept s u := by
  simp only [State.takeToken] at h
  have hset (k : Nat) (t : Token) : CoresKept s (s.mapDie die (fun d => { d with faultTokens := tabSet d.faultTokens k t })) :=
    coresKept_mapDie s die _
  have hring (v : State) (r : Nat) (b : BitVec 256) : CoresKept v (v.ring r b) := ⟨rfl, rfl, rfl⟩
  split at h
  · next p k t hopen =>
    have hs := hset k { t with waiters := t.waiters ++ [w] }
    generalize State.mapDie s die _ = v at h hs
    generalize hgarnet : State.garnet (if e.cause = 3 then _ else v) _ _ _ _ _ _ = g at h
    have hg : CoresKept s g := by
      rw [← hgarnet]
      refine CoresKept.trans (hs.trans ?_) (coresKept_garnet _ _ _ _ _ _ _)
      split
      · exact coresKept_garnet _ _ _ _ _ _ _
      · exact .refl v
    split at h
    · cases h
      exact .of_cores (hg.trans ⟨rfl, rfl, rfl⟩)
    · split at h
      · cases h; exact .of_cores (hg.trans (hring g _ _))
      · split at h
        · cases h; exact .of_cores (hg.trans (hring g _ _))
        · cases h
          exact (FaultsKept.of_cores hg).trans (.of_homes (atHomes_kernelWrite _ _ _ _))
  · split at h
    · cases h
    · next i hi =>
      cases h
      have hs := hset (i + 1) { domain := e.domain, cause := e.cause, page := pageOf e.addr, index := 0, waiters := [w] }
      generalize State.mapDie s die _ = v at hs ⊢
      refine .of_cores (CoresKept.trans (CoresKept.trans (hs.trans ?_) (coresKept_garnet _ _ _ _ _ _ _)) (hring _ _ _))
      split
      · exact coresKept_garnet _ _ _ _ _ _ _
      · exact .refl v

theorem faultTokenFreed_given {s u : State} {c : CoreId} {n : SlotId} {f : FaultWait} {r : List FaultWait} {v : Saved}
    {tok : Nat} (harg : s.arg = .nums c.val 0 0) (hq : (s.core c).faultQueue = f :: r) (hw : f.who = .slot c n)
    (hv : (s.slot c n).saved = some v)
    (ht : (s.mapCore c (fun k => { k with faultQueue := r })).takeToken (dieOf c) f.entry f.who = some (u, tok)) :
    ∃ t, exec .faultTokenFreed s = .next t ∧ (t.core c).faultQueue = r ∧
      (t.slot c n).saved.map (·.waits) = some (.fault tok) := by
  have hexec : exec .faultTokenFreed s = execFaultTokenFreed s := rfl
  obtain ⟨hslots, hfaults⟩ := faultsKept_takeToken ht
  have hsaved : (u.slot c n).saved = some v := by rw [hslots, slot_mapCore _ c c rfl, hv]
  have hqueue : (u.core c).faultQueue = r := by rw [hfaults, State.core_mapCore_self]
  have hgiven : exec .faultTokenFreed s = .next (u.giveToken f.who tok) := by
    simp only [hexec, execFaultTokenFreed, withCore_eq harg, hq, ht]
  refine ⟨_, hgiven, ?_⟩
  simp only [hw, State.giveToken, hsaved, State.writeFinfo]
  have hkept := FaultsKept.of_homes (atHomes_kernelWrite (u.mapSlot c n (fun sl => { sl with saved := some { v with
    waits := .fault tok, finfo := (v.finfo &&& ~~~0xFFFF) ||| word (tok % 2 ^ 16) } })) c
    ((u.mapSlot c n (fun sl => { sl with saved := some { v with
      waits := .fault tok, finfo := (v.finfo &&& ~~~0xFFFF) ||| word (tok % 2 ^ 16) } })).frameAt c n { v with
        waits := .fault tok, finfo := (v.finfo &&& ~~~0xFFFF) ||| word (tok % 2 ^ 16) } + 0x20)
    (wordBytes ((v.finfo &&& ~~~0xFFFF) ||| word (tok % 2 ^ 16))))
  constructor
  · rw [hkept.2 c, State.mapSlot, State.core_mapCore_self]
    exact hqueue
  · rw [hkept.1 c n, State.slot_mapSlot_self]
    rfl

/-! ### GRACE PERIOD END (R219) -/

theorem gracePeriodEnd_terminates {s : State} {c : CoreId} {x : CtxId} {n : SlotId} {a : Activation} {g : Nat}
    (harg : s.arg = .nums c.val n.val 0) (ha : (s.ctx c x).act = some a) (hn : a.slot = n)
    (hg : (s.ctx c x).graceEnd = some g) (hend : g ≤ s.quartz) :
    ∃ t x' a', exec .gracePeriodEnd s = .next t ∧ (s.ctx c x').act = some a' ∧ a'.slot = n ∧ (t.ctx c x').act = none := by
  have hexec : exec .gracePeriodEnd s = execGracePeriodEnd s := rfl
  simp only [hexec, execGracePeriodEnd, withNums_eq harg, coreOf_val, slotOf_val]
  split
  · next x' hx =>
    have hpast := List.find?_some hx
    obtain ⟨hact, -⟩ := Bool.and_eq_true_iff.mp hpast
    cases ha' : (s.ctx c x').act with
    | none => rw [ha'] at hact; cases hact
    | some a' =>
      rw [ha', Option.any_some, beq_iff_eq] at hact
      exact ⟨_, x', a', rfl, ha', hact, act_endActivation _ c x' true⟩
  · next hx =>
    have hmem : x ∈ (List.range 4).map ctxOf := List.mem_map.mpr ⟨x.val, List.mem_range.mpr x.isLt, ctxOf_val x⟩
    refine absurd ?_ (List.find?_eq_none.mp hx x hmem)
    rw [ha, hg, Option.any_some, Option.any_some, hn, beq_self_eq_true, decide_eq_true hend]
    rfl

/-! ### SPINEL COMMIT (R263 to R265) -/

section
variable {s u w : State} {c : CoreId} {x : CtxId} {a : Activation} {k : Chunk}

theorem tokenHeld_none (h : s.deviceToken = none) (hd : ∀ d : DieId, (s.die d).token = none) (c : CoreId) (n : SlotId)
    (d : DieId) : s.tokenHeld c n d = false := by
  simp only [State.tokenHeld, h, hd, Option.isSome_none, Bool.false_and, Bool.or_self]

theorem issueKept_option {α : Type} (f : State → α → Option State) (hf : ∀ u a v, f u a = some v → IssueKept u v) (l : List α)
    {o : Option State} (h : ∀ u, o = some u → IssueKept s u)
    (ht : l.foldl (fun o a => o.bind (fun s => f s a)) o = some u) : IssueKept s u := by
  induction l generalizing o with
  | nil => exact h u ht
  | cons a r ih =>
    refine ih (fun v hv => ?_) ht
    obtain ⟨w, hw, hv⟩ := Option.bind_eq_some_iff.mp hv
    exact (h w hw).trans (hf w a v hv)

theorem issueKept_recallNow {line : Nat} {m : BitVec 16} {write : Bool} (h : s.recallNow line m write = some u) :
    IssueKept s u := by
  simp only [State.recallNow] at h
  split at h
  · cases h
  · exact (atHomes_sliceRecall h).issue

theorem issueKept_settleChunk {on : Nat → Bool} (h : s.settleChunk k on = some u) : IssueKept s u :=
  issueKept_option (fun s (b : Buffered) => s.recallNow b.line (wordsOfBytes b.bytes) true)
    (fun _ _ _ => issueKept_recallNow) _
    (fun _ hv => issueKept_option (fun s (p : Nat × BitVec 16) => s.recallNow p.1 p.2 false) (fun _ _ _ => issueKept_recallNow) _
      (o := some s) (fun v hv => by cases hv; exact .refl s) hv) h

theorem issueKept_invChunk (h : s.invChunk k = some u) : IssueKept s u :=
  issueKept_option (fun s (b : Buffered) => s.sliceInv (lineDie b.line) b.line) (fun _ _ _ h => (atHomes_sliceInv h).issue) _
    (o := some s) (fun v hv => by cases hv; exact .refl s) h

/-- The lines of a die reserved: the chunk notes the die. -/
theorem reserved_reserveChunk {n : SlotId} {d : DieId} (h : s.reserveChunk c x n d = some u) :
    (u.ctx c x).chunk.reserved = (s.ctx c x).chunk.reserved ++ [d.val] := by
  obtain ⟨v, hv, rfl⟩ := Option.map_eq_some_iff.mp h
  have hkept : IssueKept s v := by
    refine issueKept_option (fun t l => (if t.l2Full d l then some t else t.l2Room d l).map (fun t =>
      t.reserve c n l ((s.ctx c x).chunk.writes.any (·.line == l)))) (fun t l w hw => ?_) _ (o := some s)
      (fun v hv => by cases hv; exact .refl s) hv
    obtain ⟨w', hw', rfl⟩ := Option.map_eq_some_iff.mp hw
    refine IssueKept.trans ?_ (.of_cores ⟨rfl, rfl, rfl⟩)
    split at hw'
    · cases hw'; exact .refl t
    · exact (atHomes_l2Room hw').issue
  rw [State.ctx_mapCtx_self, hkept.chunk]

/-- What holds a commit up does not hold this one up. -/
structure Commits (s : State) (c : CoreId) (x : CtxId) (a : Activation) : Prop where
  arg : s.arg = .nums c.val x.val 0
  act : (s.ctx c x).act = some a
  deviceToken : s.deviceToken = none
  token : ∀ d : DieId, (s.die d).token = none
  active : (s.ctx c x).chunk.active = true
  committing : (s.ctx c x).chunk.committing = true
  serial : (s.ctx c x).chunk.serial = false

theorem exec_spinelCommit (h : Commits s c x a) :
    let k := (s.ctx c x).chunk
    exec .spinelCommit s = match k.dies.find? (fun d => !k.reserved.contains d.val) with
      | some d =>
        let on (l : Nat) : Bool := lineDie l == d
        if s.tokenHeld c a.slot d then .next s
        else if (s.commitsOn c x d).any k.meets then .next (s.failChunk c x)
        else
          match s.settleChunk k on with
          | none => .next (s.askBack k on)
          | some t =>
            if t.readsStale k on then .next (t.failChunk c x)
            else .next ((t.reserveChunk c x a.slot d).getD (s.askBack k on))
      | none =>
        match (s.settleChunk k (fun _ => true)).bind (·.invChunk k) with
        | none => .next (s.askBack k (fun _ => true))
        | some s =>
          if s.readsStale k (fun _ => true) then .next (s.failChunk c x)
          else
            let rts := k.writes.foldl (fun t b => max t ((s.dir (.slice (lineDie b.line)) b.line).rts + 1)) 0
            let t := max (max (s.lclkNow c) k.t0) rts
            stepIf s (s.timeCame t && (s.core c).timelost.isNone) (s.commitChunk c x t) := by
  obtain ⟨harg, hact, hdev, htok, ha, hc, hs⟩ := h
  have hexec : exec .spinelCommit s = execSpinelCommit s := rfl
  have hgo : ¬ (!((s.ctx c x).chunk.active && (s.ctx c x).chunk.committing && !(s.ctx c x).chunk.serial) ||
      s.tokenHeld c (((s.ctx c x).act.map (·.slot)).getD 0) (dieOf c)) = true := by
    rw [ha, hc, hs, tokenHeld_none hdev htok]
    exact Bool.false_ne_true
  simp only [hexec, execSpinelCommit, withCtx_eq harg]
  rw [if_neg hgo, hact] <;> rfl

theorem readsStale_iff {on : Nat → Bool} :
    s.readsStale k on = true ↔ ∃ p ∈ k.reads, on p.1 = true ∧ k.t0 < (s.dir (.slice (lineDie p.1)) p.1).wts := by
  simp only [State.readsStale, List.any_eq_true, Bool.and_eq_true, decide_eq_true_eq]

/-- One die's lines reserved, or the commit fails. -/
theorem spinelCommit_die (h : Commits s c x a) {d : DieId}
    (hd : (s.ctx c x).chunk.dies.find? (fun d => !(s.ctx c x).chunk.reserved.contains d.val) = some d) :
    let k := (s.ctx c x).chunk
    ((∃ o ∈ s.commitsOn c x d, k.meets o = true) → exec .spinelCommit s = .next (s.failChunk c x)) ∧
    ((∀ o ∈ s.commitsOn c x d, k.meets o = false) → s.settleChunk k (fun l => lineDie l == d) = some u →
      let stale : Prop := ∃ p ∈ k.reads, lineDie p.1 = d ∧ k.t0 < (u.dir (.slice d) p.1).wts
      (stale → exec .spinelCommit s = .next (u.failChunk c x)) ∧
      (∀ w, ¬stale → u.reserveChunk c x a.slot d = some w → exec .spinelCommit s = .next w ∧
        (w.ctx c x).chunk.reserved = k.reserved ++ [d.val])) := by
  intro k
  have hexec := exec_spinelCommit h
  simp only [hd, tokenHeld_none h.deviceToken h.token, Bool.false_eq_true, if_false] at hexec
  refine ⟨fun ⟨o, ho, hm⟩ => hexec.trans (if_pos (List.any_eq_true.mpr ⟨o, ho, hm⟩)), fun hno hu => ?_⟩
  have hmeets : ¬ (s.commitsOn c x d).any k.meets = true := by
    rw [List.any_eq_true]
    exact fun ⟨o, ho, hm⟩ => absurd hm (by rw [hno o ho]; exact Bool.false_ne_true)
  rw [if_neg hmeets] at hexec
  simp only [k] at hu
  simp only [hu] at hexec
  intro stale
  have hstale : u.readsStale k (fun l => lineDie l == d) = true ↔ stale := by
    rw [readsStale_iff]
    refine exists_congr (fun p => and_congr_right (fun _ => ?_))
    rw [beq_iff_eq]
    exact and_congr_right (fun hp => by rw [hp])
  refine ⟨fun hst => hexec.trans (if_pos (hstale.mpr hst)), fun w hst hw => ?_⟩
  rw [if_neg (mt hstale.mp hst), hw] at hexec
  exact ⟨hexec, by rw [reserved_reserveChunk hw, (issueKept_settleChunk hu).chunk]⟩

theorem foldl_max_le {α : Type} (f : α → Nat) (l : List α) {t b : Nat} (ht : t ≤ b) (h : ∀ a ∈ l, f a ≤ b) :
    l.foldl (fun t a => max t (f a)) t ≤ b := by
  induction l generalizing t with
  | nil => exact ht
  | cons a r ih =>
    exact ih (Nat.max_le.mpr ⟨ht, h a List.mem_cons_self⟩) (fun v hv => h v (List.mem_cons_of_mem a hv))

/-- A commit performed: the chunk is over, and the core's logical time no earlier. -/
theorem commitChunk_done (s : State) (c : CoreId) (x : CtxId) (t : Nat) :
    ((s.commitChunk c x t).ctx c x).chunk = { Chunk.none with committing := true, held := (s.ctx c x).chunk.held } ∧
      t ≤ ((s.commitChunk c x t).core c).lclk := by
  simp only [State.commitChunk]
  constructor
  · rw [State.ctx_mapCtx_self]
  · rw [State.mapCtx, State.core_mapCore_self, State.raiseClk, State.core_mapCore_self]
    exact Nat.le_max_right _ _

/-- Every die reserved: the commit fails, or is performed. -/
theorem spinelCommit_all (h : Commits s c x a)
    (hall : ∀ d ∈ (s.ctx c x).chunk.dies, d.val ∈ (s.ctx c x).chunk.reserved)
    (hu : s.settleChunk (s.ctx c x).chunk (fun _ => true) = some u) (hw : u.invChunk (s.ctx c x).chunk = some w) :
    let k := (s.ctx c x).chunk
    let home (l : Nat) : DirLine := w.dir (.slice (lineDie l)) l
    let stale : Prop := ∃ p ∈ k.reads, k.t0 < (home p.1).wts
    (stale → exec .spinelCommit s = .next (w.failChunk c x) ∧
      ((w.failChunk c x).ctx c x).chunk.attempts = (w.ctx c x).chunk.attempts + 1) ∧
    (¬stale → ∀ b : Nat, max (w.lclkNow c) k.t0 ≤ b → (∀ v ∈ k.writes, (home v.line).rts + 1 ≤ b) →
      b ≤ w.quartz + Config.guardNs → (w.core c).timelost = none →
      ∃ t, exec .spinelCommit s = .next t ∧
        (t.ctx c x).chunk = { Chunk.none with committing := true, held := k.held } ∧ k.t0 ≤ (t.core c).lclk) := by
  intro k home stale
  have hfind : k.dies.find? (fun d => !k.reserved.contains d.val) = none := by
    rw [List.find?_eq_none]
    intro d hd
    simpa using hall d hd
  have hexec := exec_spinelCommit h
  simp only [k] at hfind
  simp only [hfind, hu, Option.bind_some, hw] at hexec
  have hstale : w.readsStale k (fun _ => true) = true ↔ stale := by
    rw [readsStale_iff]
    exact exists_congr (fun p => and_congr_right (fun _ => ⟨fun h => h.2, fun h => ⟨rfl, h⟩⟩))
  refine ⟨fun hst => ⟨hexec.trans (if_pos (hstale.mpr hst)), ?_⟩, fun hst b hb hrts htime hlost => ?_⟩
  · simp only [State.failChunk, State.ctx_mapCtx_self]
  · rw [if_neg (mt hstale.mp hst)] at hexec
    obtain ⟨hdone, hlclk⟩ := commitChunk_done w c x (max (max (w.lclkNow c) k.t0)
      (k.writes.foldl (fun t b => max t ((w.dir (.slice (lineDie b.line)) b.line).rts + 1)) 0))
    have hcame : (w.timeCame (max (max (w.lclkNow c) k.t0) (k.writes.foldl (fun t b =>
        max t ((w.dir (.slice (lineDie b.line)) b.line).rts + 1)) 0)) && (w.core c).timelost.isNone) = true := by
      have hle := foldl_max_le (fun v : Buffered => (home v.line).rts + 1) k.writes (Nat.zero_le b) hrts
      rw [hlost]
      simp only [State.timeCame, Option.isNone_none, Bool.and_true, decide_eq_true_eq]
      exact (Nat.max_le.mpr ⟨hb, hle⟩).trans htime
    refine ⟨_, hexec.trans (by rw [stepIf, if_pos hcame]), ?_, ?_⟩
    · rw [hdone, ((issueKept_settleChunk hu).trans (issueKept_invChunk hw)).chunk]
    · exact ((Nat.le_max_right _ _).trans (Nat.le_max_left _ _)).trans hlclk

end

/-- Settles O35, event by event. -/
theorem schedulerEvents : Obligations.SchedulerEvents := by
  intro s c x n
  refine ⟨fun harg => ⟨contextSwitch_blocked harg, contextSwitch_gateMove harg, fun _ _ => periodStart_set harg,
    budgetExhaustion_stops harg, fun _ _ _ _ _ => faultTokenFreed_given harg⟩, fun _ _ => gracePeriodEnd_terminates, ?_⟩
  intro a u harg hact hdev htok k ha hc hs
  have h : Commits s c x a := ⟨harg, hact, hdev, htok, ha, hc, hs⟩
  exact ⟨fun d hd => spinelCommit_die h hd, fun w hall hu hw => spinelCommit_all h hall hu hw⟩

end Sys2Proof.Proofs
end

section
/-! What is on its way apart (R137, R138, R349, R377): messages and answers between agents, what leaves the device, and the bells of
rings. The kernel reads the same whatever is on its way. -/

namespace Sys2Proof.Proofs

open Sys2Proof Sys2Proof.Machine Sys2Proof.Claims

/-- The state t differs from s in what is on its way alone. -/
def Alike (s t : State) : Prop := ∃ p o r, t = { s with pending := p, outbox := o, rings := r }

/-- The same of states with what came of them. -/
def AlikeWith {β : Type} (p q : State × β) : Prop := Alike p.1 q.1 ∧ q.2 = p.2

theorem AlikeWith.mk {β : Type} {s t : State} (h : Alike s t) (v : β) : AlikeWith (s, v) (t, v) := ⟨h, rfl⟩

namespace Alike

variable {s t : State}

theorem refl (s : State) : Alike s s := ⟨_, _, _, rfl⟩

theorem core (h : Alike s t) (c : CoreId) : t.core c = s.core c := by obtain ⟨_, _, _, rfl⟩ := h; rfl
theorem die (h : Alike s t) (d : DieId) : t.die d = s.die d := by obtain ⟨_, _, _, rfl⟩ := h; rfl
theorem dies (h : Alike s t) : t.dies = s.dies := by obtain ⟨_, _, _, rfl⟩ := h; rfl
theorem cores (h : Alike s t) : t.cores = s.cores := by obtain ⟨_, _, _, rfl⟩ := h; rfl
theorem hbm (h : Alike s t) : t.hbm = s.hbm := by obtain ⟨_, _, _, rfl⟩ := h; rfl
theorem quartz (h : Alike s t) : t.quartz = s.quartz := by obtain ⟨_, _, _, rfl⟩ := h; rfl
theorem windows (h : Alike s t) : t.windows = s.windows := by obtain ⟨_, _, _, rfl⟩ := h; rfl
theorem slot (h : Alike s t) (c : CoreId) (n : SlotId) : t.slot c n = s.slot c n := by obtain ⟨_, _, _, rfl⟩ := h; rfl
theorem dir (h : Alike s t) (u : HomeUnit) (line : Nat) : t.dir u line = s.dir u line := by obtain ⟨_, _, _, rfl⟩ := h; rfl
theorem rdcLine (h : Alike s t) (d : DieId) (line : Nat) : t.rdcLine d line = s.rdcLine d line := by
  obtain ⟨_, _, _, rfl⟩ := h; rfl

/-- An operation that neither reads nor changes what is on its way. -/
theorem apart (h : Alike s t) (f : State → State)
    (hf : ∀ u p o r, f { u with pending := p, outbox := o, rings := r } = { f u with pending := p, outbox := o, rings := r }) :
    Alike (f s) (f t) := by
  obtain ⟨p, o, r, rfl⟩ := h
  exact ⟨p, o, r, hf s p o r⟩

theorem foldl_with {α β : Type} (f : State × β → α → State × β) (hf : ∀ p q a, AlikeWith p q → AlikeWith (f p a) (f q a))
    (l : List α) {p q : State × β} (h : AlikeWith p q) : AlikeWith (l.foldl f p) (l.foldl f q) := by
  induction l generalizing p q with
  | nil => exact h
  | cons a r ih => exact ih (hf p q a h)

theorem foldl_option {α : Type} (f : State → α → Option State)
    (hf : ∀ u v a, Alike u v → Option.Rel Alike (f u a) (f v a)) (l : List α) {o p : Option State} (h : Option.Rel Alike o p) :
    Option.Rel Alike (l.foldl (fun o a => o.bind (fun s => f s a)) o) (l.foldl (fun o a => o.bind (fun s => f s a)) p) := by
  induction l generalizing o p with
  | nil => exact h
  | cons a r ih => exact ih (rel_bind h (fun u v huv => hf u v a huv))

theorem setCore (h : Alike s t) (c : CoreId) (k : Core) : Alike (s.setCore c k) (t.setCore c k) :=
  h.apart (·.setCore c k) (fun _ _ _ _ => rfl)

theorem mapRdc (h : Alike s t) (d : DieId) (line : Nat) (f : RdcLine → RdcLine) : Alike (s.mapRdc d line f) (t.mapRdc d line f) :=
  h.apart (·.mapRdc d line f) (fun _ _ _ _ => rfl)

theorem setDir (h : Alike s t) (u : HomeUnit) (line : Nat) (e : DirLine) : Alike (s.setDir u line e) (t.setDir u line e) := by
  cases u with
  | slice d => exact h.apart (·.setDir (.slice d) line e) (fun _ _ _ _ => rfl)
  | rdc d => exact h.apart (·.setDir (.rdc d) line e) (fun _ _ _ _ => rfl)

theorem putHbm (h : Alike s t) (line : Nat) (d : BitVec 1024) (m : BitVec 128) (n : Nat) :
    Alike (s.putHbm line d m n) (t.putHbm line d m n) := by
  simp only [State.putHbm, h.hbm]
  generalize List.foldl _ s.hbm _ = b
  exact h.apart (fun u => State.evalWaiters { u with hbm := b } line n) (fun _ _ _ _ => rfl)

/-- Grants of a line recalled leave what is on its way. -/
theorem voidGrants (h : Alike s t) (src : Nat) (dst : Option Nat) (line : Nat) :
    Alike (s.voidGrants src dst line) (t.voidGrants src dst line) := by
  obtain ⟨p, o, r, rfl⟩ := h
  exact ⟨_, o, r, rfl⟩

end Alike

/-! ### The home slices read alike -/

section
variable {s t : State}

theorem alike_coreRecall (h : Alike s t) (c : CoreId) (line : Nat) (m : BitVec 16) (write : Bool) :
    Option.Rel AlikeWith (s.coreRecall c line m write) (t.coreRecall c line m write) := by
  simp only [State.coreRecall, h.core]
  cases (s.core c).l1Recall line m write with
  | none => exact .none
  | some p => exact .some ⟨h.setCore c p.1, rfl⟩

theorem alike_rdcInv (h : Alike s t) (d : DieId) (line : Nat) (but : Option Nat) :
    AlikeWith (s.rdcInv d line but) (t.rdcInv d line but) := by
  obtain ⟨hst, hhi⟩ := Alike.foldl_with (fun (p : State × Nat) r =>
    (p.1.setCore (dieCore d r) ((p.1.core (dieCore d r)).l1Inv line), max p.2 (p.1.core (dieCore d r)).lclk))
    (fun p q r hp => ⟨by rw [hp.1.core]; exact hp.1.setCore _ _, by rw [hp.2, hp.1.core]⟩)
    ((s.dir (.rdc d) line).sharers.filter (fun r => some r != but)) (p := (s, 0)) (q := (t, 0)) ⟨h, rfl⟩
  simp only [State.rdcInv, h.dir]
  refine ⟨?_, hhi⟩
  simp only [hhi]
  exact (hst.setDir _ _ _).voidGrants _ _ _

theorem alike_rdcRecallOne (h : Alike s t) (d : DieId) (line i : Nat) (m : BitVec 16) (write : Bool) :
    Option.Rel Alike (s.rdcRecallOne d line i m write) (t.rdcRecallOne d line i m write) := by
  simp only [State.rdcRecallOne, h.dir]
  cases (s.dir (.rdc d) line).owner i with
  | none => exact .some h
  | some o =>
    obtain ⟨hn, hm⟩ | ⟨p, q, hp, hq, hst, hl⟩ :=
      rel_cases (alike_coreRecall h (dieCore d o.id) line ((s.dir (.rdc d) line).ownerMask i &&& m) write)
    · simp only [hn, hm]; exact .none
    · simp only [hp, hq, hl]; exact .some (hst.mapRdc d line _)

theorem alike_rdcRecall (h : Alike s t) (d : DieId) (line : Nat) (m : BitVec 16) (write : Bool) :
    Option.Rel Alike (s.rdcRecall d line m write) (t.rdcRecall d line m write) := by
  simp only [State.rdcRecall, h.dir]
  exact Alike.foldl_option (fun s i => s.rdcRecallOne d line i m write)
    (fun _ _ i hu => alike_rdcRecallOne hu d line i m write) _ (.some h)

theorem alike_rdcTakeInv (h : Alike s t) (d : DieId) (line : Nat) : AlikeWith (s.rdcTakeInv d line) (t.rdcTakeInv d line) := by
  obtain ⟨hst, hhi⟩ := alike_rdcInv h d line none
  simp only [State.rdcTakeInv, h.die]
  split
  · exact ⟨h, rfl⟩
  · simp only [hst.rdcLine, hhi]
    exact .mk (hst.mapRdc d line _) _

theorem alike_rdcTakeRecall (h : Alike s t) (d : DieId) (line : Nat) (m : BitVec 16) (write : Bool) :
    Option.Rel AlikeWith (s.rdcTakeRecall d line m write) (t.rdcTakeRecall d line m write) := by
  simp only [State.rdcTakeRecall, h.rdcLine]
  split
  · exact .none
  · obtain ⟨hn, hm⟩ | ⟨u, v, hp, hq, hu⟩ := rel_cases (alike_rdcRecall h d line m write)
    · simp only [hn, hm]; exact .none
    · obtain ⟨hst, hhi⟩ := alike_rdcInv hu d line none
      simp only [hp, hq]
      cases write with
      | true =>
        simp only [if_true, hst.rdcLine, hhi]
        exact .some (.mk (hst.mapRdc d line _) _)
      | false =>
        simp only [Bool.false_eq_true, if_false, hu.rdcLine]
        exact .some (.mk (hu.mapRdc d line _) _)

theorem alike_ownerAnswer (h : Alike s t) (d : DieId) (line id : Nat) (m : BitVec 16) (write : Bool) :
    Option.Rel AlikeWith (ownerAnswer s d line id m write) (ownerAnswer t d line id m write) := by
  unfold ownerAnswer
  split
  · exact rel_map (alike_coreRecall h _ line m write) (fun _ _ hp => ⟨hp.1, by rw [hp.2]⟩)
  · split
    · exact alike_rdcTakeRecall h _ line m write
    · exact .none

theorem alike_sliceRecallOne (h : Alike s t) (d : DieId) (line i : Nat) (m : BitVec 16) (write : Bool) :
    Option.Rel Alike (s.sliceRecallOne d line i m write) (t.sliceRecallOne d line i m write) := by
  simp only [State.sliceRecallOne, h.dir]
  cases (s.dir (.slice d) line).owner i with
  | none => exact .some h
  | some o =>
    obtain ⟨hn, hm⟩ | ⟨p, q, hp, hq, hst, hl⟩ :=
      rel_cases (alike_ownerAnswer h d line o.id ((s.dir (.slice d) line).ownerMask i &&& m) write)
    · simp only [ownerAnswer] at hn hm
      simp only [hn, hm]
      exact .none
    · simp only [ownerAnswer] at hp hq
      simp only [hp, hq, hl]
      exact .some ((hst.setDir _ _ _).putHbm _ _ _ _)

theorem alike_sliceRecall (h : Alike s t) (d : DieId) (line : Nat) (m : BitVec 16) (write : Bool) :
    Option.Rel Alike (s.sliceRecall d line m write) (t.sliceRecall d line m write) := by
  simp only [State.sliceRecall, h.dir]
  exact Alike.foldl_option (fun s i => s.sliceRecallOne d line i m write)
    (fun _ _ i hu => alike_sliceRecallOne hu d line i m write) _ (.some h)

theorem alike_copyInv (d : DieId) (line : Nat) {p q : State × Nat} (h : AlikeWith p q) (r : Nat) :
    AlikeWith (copyInv d line p r) (copyInv d line q r) := by
  obtain ⟨hst, hhi⟩ := h
  unfold copyInv
  split
  · exact ⟨by rw [hst.core]; exact hst.setCore _ _, by rw [hhi, hst.core]⟩
  · obtain ⟨hi, hl⟩ := alike_rdcTakeInv hst (dieNum (r - 256)) line
    exact ⟨hi, by rw [hhi, hl]⟩

theorem alike_sliceInv (h : Alike s t) (d : DieId) (line : Nat) : Option.Rel Alike (s.sliceInv d line) (t.sliceInv d line) := by
  obtain ⟨hst, hhi⟩ := Alike.foldl_with (copyInv d line) (fun p q r hp => alike_copyInv d line hp r)
    (s.dir (.slice d) line).sharers (p := (s, (s.dir (.slice d) line).rts)) (q := (t, (s.dir (.slice d) line).rts)) ⟨h, rfl⟩
  simp only [sliceInv_eq, h.dir, h.die]
  split
  · exact .some h
  · split
    · exact .none
    · rw [hhi]
      exact .some ((hst.setDir _ _ _).voidGrants _ _ _)

theorem alike_l2Room (h : Alike s t) (d : DieId) (line : Nat) : Option.Rel Alike (s.l2Room d line) (t.l2Room d line) := by
  have hvictim : t.l2Victim d line = s.l2Victim d line := by obtain ⟨_, _, _, rfl⟩ := h; rfl
  have hways : t.l2Ways d line = s.l2Ways d line := by obtain ⟨_, _, _, rfl⟩ := h; rfl
  rw [State.l2Room, State.l2Room, h.die, hways, hvictim]
  split
  · exact .some (h.apart (·.l2Use d line) (fun _ _ _ _ => rfl))
  · cases s.l2Victim d line with
    | none => exact .none
    | some v =>
      simp only [Option.bind_some]
      refine rel_map (rel_bind (alike_sliceRecall h d v _ true) (fun _ _ hu => alike_sliceInv hu d v)) (fun u w hu => ?_)
      simp only [hu.dir]
      exact hu.apart (fun u' => (State.raiseMts (u'.mapDie d (fun k => { k with home := tabDel k.home v })) d v _).l2Use d line)
        (fun _ _ _ _ => rfl)

theorem alike_readyLine (h : Alike s t) (line : Nat) (m : BitVec 16) :
    Option.Rel Alike (s.readyLine line m) (t.readyLine line m) := by
  simp only [State.readyLine, h.dir]
  split
  · exact .none
  · exact rel_bind (alike_l2Room h _ line) (fun _ _ hu => alike_sliceRecall hu _ line m false)

theorem alike_readHome (h : Alike s t) (pa n : Nat) : Option.Rel AlikeWith (s.readHome pa n) (t.readHome pa n) := by
  have hfold := Alike.foldl_option (fun s i => s.readyLine (pa / 128 + i)
      (wordMask (if i = 0 then pa % 128 else 0)
        (min 128 (pa + n - (pa / 128 + i) * 128) - if i = 0 then pa % 128 else 0)))
    (fun _ _ _ hu => alike_readyLine hu _ _) (List.range ((pa % 128 + n + 127) / 128)) (.some h)
  exact rel_map hfold (fun u v hu => ⟨hu, by rw [hu.hbm]⟩)

theorem Alike.peek (h : Alike s t) (pa n : Nat) : t.peek pa n = s.peek pa n := by
  have hlate : t.lateWrites = s.lateWrites := by obtain ⟨_, _, _, rfl⟩ := h; rfl
  simp only [State.peek, State.withLate, hlate]
  obtain ⟨hn, hm⟩ | ⟨p, q, hp, hq, -, he⟩ := rel_cases (alike_readHome h pa n)
  · simp only [hn, hm, h.hbm]
  · simp only [hp, hq, he]

/-- What the kernel reads does not depend on what is on its way. -/
theorem Alike.kernelRead (h : Alike s t) (c : CoreId) (va n : Nat) : t.kernelRead c va n = s.kernelRead c va n := by
  have hpa (a : Nat) : t.kernelPa c a = s.kernelPa c a := by obtain ⟨_, _, _, rfl⟩ := h; rfl
  simp only [State.kernelRead, hpa, h.peek]

/-- Nor does a queue as its front end knows it. -/
theorem Alike.queueOf (h : Alike s t) (d : DieId) (addr : Nat) : t.queueOf d addr = s.queueOf d addr := by
  have hfrozen (v : Nat) : t.frozen v = s.frozen v := by obtain ⟨_, _, _, rfl⟩ := h; rfl
  have hbell (a : Nat) : t.bellPlace d a = s.bellPlace d a := by obtain ⟨_, _, _, rfl⟩ := h; rfl
  simp only [State.queueOf, h.kernelRead, h.die, h.quartz, hfrozen, hbell]

/-- A message accepted is answered, and nothing else changes. -/
theorem alike_answerTo (s : State) (c : CoreId) (m : Msg) : Alike s (s.answerTo c m .accepted) := by
  simp only [State.answerTo]
  split
  · exact ⟨_, _, _, rfl⟩
  · exact ⟨_, _, _, rfl⟩
  · rw [if_neg (by decide)]
    simp only [State.sentEnd, Bool.false_and, Bool.false_eq_true, if_false]
    split
    · exact .refl s
    · exact .refl s
    · exact .refl s
    · exact ⟨_, _, _, rfl⟩
    · exact .refl s

end

end Sys2Proof.Proofs
end

section
/-! Guard control (R129): what every command does, and the commands that change the guard of one core. -/

namespace Sys2Proof.Proofs

open Sys2Proof Sys2Proof.Machine Sys2Proof.Claims

section
variable {i : Instr} {s u v : State} {c : CoreId} {m : Msg} {st detail plen : Nat} {P : Guard → Prop} {served : CoreId → Bool}
  {g : CoreId → Msg → State → State × Nat × Nat}

/-- A message of a kernel actor to guard control, with its reply endpoint on this device. -/
abbrev ToGuard (s : State) (c : CoreId) (m : Msg) (len : Nat) : Prop := Asked s c m 21 len (m.payload.getLastD 0)

theorem guardReply_eq (hp : m.payload ≠ []) (s : State) (c : CoreId) (st detail : Nat) :
    s.guardReply c m st detail = s.kernelReply c 21 0x5D (m.payload.getLastD 0) [word st, word detail] := by
  rw [State.guardReply, if_neg (by simpa using hp)]

/-- A reply of guard control changes what is on its way, and it is there. -/
theorem guardAnswer_guardReply (hp : m.payload ≠ []) (hdev : bitsOf (m.payload.getLastD 0) 47 36 = 0xFFF) (s : State)
    (c : CoreId) (st detail : Nat) : GuardAnswer (s.guardReply c m st detail) m st detail := by
  rw [guardReply_eq hp]
  exact replied_kernelReply s c 21 0x5D _ hdev

theorem guardReply_kept (s : State) (c : CoreId) (m : Msg) (st detail : Nat) :
    ∃ p o a n, s.guardReply c m st detail = { s with pending := p, outbox := o, abroad := a, abroadCount := n } := by
  unfold State.guardReply
  split
  · exact ⟨_, _, _, _, rfl⟩
  · exact kernelReply_eq s c _ _ _ _

/-- A command is answered, and of the device only one core's guard changes. -/
structure GuardOnly (s v : State) (c : CoreId) : Prop where
  core : v.core c = { s.core c with guard := (v.core c).guard }
  others : ∀ c', c' ≠ c → v.core c' = s.core c'
  hbm : v.hbm = s.hbm
  dies : v.dies = s.dies

theorem GuardOnly.alike (h : Alike s u) : GuardOnly s u c :=
  ⟨by rw [h.core], fun c' _ => h.core c', h.hbm, h.dies⟩

theorem GuardOnly.mapGuard (h : Alike s u) (f : Guard → Guard) : GuardOnly s (u.mapGuard c f) c := by
  refine ⟨?_, fun c' hc => ?_, h.hbm, h.dies⟩
  · rw [State.mapGuard, State.core_mapCore_self, h.core]
  · rw [State.mapGuard, State.core_mapCore_ne _ _ hc, h.core]

/-- A command that answers from a state in which only the guard changed. -/
theorem guarded_reply {len : Nat} (ha : ToGuard s c m len) (hp : m.payload ≠ [])
    (hexec : exec i s = .next (v.guardReply c m st detail)) (hv : GuardOnly s v c) (hP : P (v.core c).guard) :
    Guarded i s c m st detail P := by
  obtain ⟨-, -, -, -, -, hdev⟩ := ha
  obtain ⟨_, _, _, _, ht⟩ := guardReply_kept v c m st detail
  have hcore (d : CoreId) : (v.guardReply c m st detail).core d = v.core d := by rw [ht]; rfl
  refine ⟨_, hexec, guardAnswer_guardReply hp hdev v c st detail, ?_, ?_, fun c' hc => ?_, ?_, ?_⟩
  · rw [hcore]; exact hv.core
  · rw [hcore]; exact hP
  · rw [hcore]; exact hv.others c' hc
  · rw [ht]; exact hv.hbm
  · rw [ht]; exact hv.dies

/-! ### What every command does -/

theorem asked_core {len : Nat} (ha : ToGuard s c m len) : coreOf (bitsOf m.dst 35 25) = c := by
  obtain ⟨-, hc, -⟩ := ha
  exact hc

theorem asked_length {len : Nat} (ha : ToGuard s c m len) : m.payload.length = len := by
  obtain ⟨-, -, -, -, hlen, -⟩ := ha
  exact hlen

theorem payload_ne_nil (ha : ToGuard s c m plen) (h0 : plen ≠ 0) : m.payload ≠ [] := by
  obtain ⟨-, -, -, -, hlen, -⟩ := ha
  exact fun e => h0 (by rw [← hlen, e]; rfl)

/-- A command that is not empty is answered. -/
theorem guardAnswer_asked (ha : ToGuard s c m plen) (h0 : plen ≠ 0) (u : State) (st detail : Nat) :
    GuardAnswer (u.guardReply c m st detail) m st detail := by
  have hp := payload_ne_nil ha h0
  obtain ⟨-, -, -, -, -, hdev⟩ := ha
  exact guardAnswer_guardReply hp hdev u c st detail

theorem guardOp_asked {len : Nat} (ha : ToGuard s c m len) :
    guardOp s plen served g = if !served c then .next ((s.answerTo c m .accepted).guardReply c m gcBadport 0)
      else if m.payload.length ≠ plen then .next ((s.answerTo c m .accepted).guardReply c m gcBaddesc 0)
      else .next ((g c m (s.answerTo c m .accepted)).1.guardReply c m (g c m (s.answerTo c m .accepted)).2.1
        (g c m (s.answerTo c m .accepted)).2.2) := by
  obtain ⟨harg, hc, hdom, hport, -, -⟩ := ha
  have hc' : coreOf (bitsOf m.dst 35 25) = c := hc
  have hno : ¬ (m.domain ≠ 0 || m.port ≠ 21) = true := by simp [hdom, hport]
  simp only [guardOp, withMsg_eq harg, hc']
  rw [if_neg hno]

/-- A core that does not serve the command. -/
theorem guarded_badport {len : Nat} (ha : ToGuard s c m len) (hp : m.payload ≠ []) (hexec : exec i s = guardOp s plen served g)
    (hs : served c = false) : Guarded i s c m 2 0 (· = (s.core c).guard) :=
  have halike := alike_answerTo s c m
  guarded_reply ha hp (hexec.trans ((guardOp_asked ha).trans (if_pos (by rw [hs]; rfl)))) (.alike halike)
    (by rw [halike.core])

/-- A wrong length. -/
theorem guarded_baddesc {len : Nat} (ha : ToGuard s c m len) (hp : m.payload ≠ []) (hexec : exec i s = guardOp s plen served g)
    (hs : served c = true) (hl : m.payload.length ≠ plen) : Guarded i s c m 3 0 (· = (s.core c).guard) :=
  have halike := alike_answerTo s c m
  guarded_reply ha hp (hexec.trans ((guardOp_asked ha).trans ((if_neg (by rw [hs]; exact Bool.false_ne_true)).trans
    (if_pos hl)))) (.alike halike) (by rw [halike.core])

/-- A command of the right length is carried out after its acceptance. -/
theorem guardOp_done (ha : ToGuard s c m plen) (hs : served c = true) (hg : g c m (s.answerTo c m .accepted) = (v, st, detail)) :
    guardOp s plen served g = .next (v.guardReply c m st detail) := by
  rw [guardOp_asked ha, if_neg (by rw [hs]; exact Bool.false_ne_true), if_neg (not_not.mpr (asked_length ha)), hg]

theorem exec_guardOp (ha : ToGuard s c m plen) (hexec : exec i s = guardOp s plen served g) (hs : served c = true)
    (hg : g c m (s.answerTo c m .accepted) = (v, st, detail)) : exec i s = .next (v.guardReply c m st detail) :=
  hexec.trans (guardOp_done ha hs hg)

/-- A command that changes nothing. -/
theorem guarded_same (ha : ToGuard s c m plen) (h0 : plen ≠ 0) (hexec : exec i s = guardOp s plen served g)
    (hs : served c = true) (hg : ∀ u, Alike s u → g c m u = (u, st, detail)) (hP : P (s.core c).guard) :
    Guarded i s c m st detail P :=
  have halike := alike_answerTo s c m
  guarded_reply ha (payload_ne_nil ha h0) (exec_guardOp ha hexec hs (hg _ halike)) (.alike halike) (by rw [halike.core]; exact hP)

/-- A command that changes the guard. -/
theorem guarded_mapGuard (ha : ToGuard s c m plen) (h0 : plen ≠ 0) (hexec : exec i s = guardOp s plen served g)
    (hs : served c = true) {f : Guard → Guard} (hg : ∀ u, Alike s u → g c m u = (u.mapGuard c f, st, detail))
    (hP : P (f (s.core c).guard)) : Guarded i s c m st detail P := by
  have halike := alike_answerTo s c m
  refine guarded_reply ha (payload_ne_nil ha h0) (exec_guardOp ha hexec hs (hg _ halike)) (.mapGuard halike f) ?_
  rw [State.mapGuard, State.core_mapCore_self, halike.core]
  exact hP

end

/-! ### RIGHTS (R116, R408) -/

section
variable {s : State} {c : CoreId} {m : Msg}

/-- A rights record loaded. -/
def loadRights (d : BitVec 16) (g : Guard) : Guard :=
  { g with rights := if d = 0 then g.rights else d :: g.rights.filter (· != d), withdrawn := g.withdrawn.filter (· != d),
           killed := g.killed.filter (· != d) }

/-- A rights record withdrawn. -/
def dropRights (d : BitVec 16) (g : Guard) : Guard :=
  if d = 0 then g
  else { g with rights := g.rights.filter (· != d), withdrawn := d :: g.withdrawn.filter (· != d) }

/-- RIGHTS of a domain loads its record or withdraws it. -/
theorem guarded_rights (ha : ToGuard s c m 2) (h1 : bitsOf (m.dword 0) 63 17 = 0)
    (hd : BitVec.ofNat 16 (bitsOf (m.dword 0) 15 0) ≠ 0xFFFF) {P : Guard → Prop}
    (hP : P ((if bitOf (m.dword 0) 16 then loadRights else dropRights) (BitVec.ofNat 16 (bitsOf (m.dword 0) 15 0))
      (s.core c).guard)) : Guarded .rights s c m 0 0 P := by
  have hvalid : ¬ (bitsOf (m.dword 0) 63 17 ≠ 0 || domainField (m.dword 0) = noDomain) = true := by
    simp only [Bool.or_eq_true, decide_eq_true_eq, not_or, not_not]
    exact ⟨h1, hd⟩
  refine guarded_mapGuard ha (by decide) (served := anyCore) (Eq.trans (b := execRights s) rfl rfl) rfl
    (f := (if bitOf (m.dword 0) 16 then loadRights else dropRights) (BitVec.ofNat 16 (bitsOf (m.dword 0) 15 0))) (fun u _ => ?_) hP
  refine (if_neg hvalid).trans (congrArg (fun f => (State.mapGuard u c f, 0, 0)) ?_)
  cases bitOf (m.dword 0) 16 <;> rfl

theorem rights_builtin (ha : ToGuard s c m 2) (h1 : bitsOf (m.dword 0) 63 17 = 0)
    (hd : BitVec.ofNat 16 (bitsOf (m.dword 0) 15 0) = 0) :
    let g := (s.core c).guard
    (bitOf (m.dword 0) 16 = true → Guarded .rights s c m 0 0 (fun h => h.rights = g.rights ∧ 0 ∉ h.withdrawn ∧ 0 ∉ h.killed)) ∧
    (bitOf (m.dword 0) 16 = false → Guarded .rights s c m 0 0 (· = g)) := by
  have hno : BitVec.ofNat 16 (bitsOf (m.dword 0) 15 0) ≠ 0xFFFF := by rw [hd]; decide
  refine ⟨fun hload => guarded_rights ha h1 hno ?_, fun hdrop => guarded_rights ha h1 hno ?_⟩
  · rw [hload, hd]
    simp [loadRights]
  · rw [hdrop, hd]
    rfl

theorem rights_record (ha : ToGuard s c m 2) (h1 : bitsOf (m.dword 0) 63 17 = 0)
    (h0 : BitVec.ofNat 16 (bitsOf (m.dword 0) 15 0) ≠ 0) (hd : BitVec.ofNat 16 (bitsOf (m.dword 0) 15 0) ≠ 0xFFFF) :
    let g := (s.core c).guard
    let d := BitVec.ofNat 16 (bitsOf (m.dword 0) 15 0)
    (bitOf (m.dword 0) 16 = true → Guarded .rights s c m 0 0 (fun h =>
      (∀ e, e ∈ h.rights ↔ e = d ∨ e ∈ g.rights) ∧ d ∉ h.withdrawn ∧ d ∉ h.killed)) ∧
    (bitOf (m.dword 0) 16 = false → Guarded .rights s c m 0 0 (fun h =>
      (∀ e, e ∈ h.rights ↔ e ≠ d ∧ e ∈ g.rights) ∧ d ∈ h.withdrawn)) := by
  intro g d
  refine ⟨fun hload => guarded_rights ha h1 hd ?_, fun hdrop => guarded_rights ha h1 hd ?_⟩
  · rw [hload, if_pos rfl, loadRights, if_neg h0]
    refine ⟨fun e => ?_, by simp [d], by simp [d]⟩
    by_cases he : e = d
    · exact iff_of_true (List.mem_cons.mpr (.inl he)) (.inl he)
    · simp only [List.mem_cons, List.mem_filter, bne_iff_ne]
      exact or_congr Iff.rfl (and_iff_left he)
  · rw [hdrop, if_neg Bool.false_ne_true, dropRights, if_neg h0]
    refine ⟨fun e => ?_, List.mem_cons_self⟩
    simp only [List.mem_filter, bne_iff_ne, ne_eq]
    exact and_comm

/-! ### Shares (R123) -/

theorem share_region {r : Region} (ha : ToGuard s c m 2)
    (hr : (s.slot c (slotOf (bitsOf (m.dword 0) 3 0))).regions[bitsOf (m.dword 0) 6 4]? = some r) :
    let w := m.dword 0
    let g := (s.core c).guard
    (r.stack = true ∨ bitsOf w 31 16 = 0xFFFF → Guarded .share s c m 3 0 (· = g)) ∧
    (r.stack = false → bitsOf w 31 16 ≠ 0xFFFF → bitsOf w 15 7 = 0 → bitsOf w 63 33 = 0 →
      (tabFree g.shares 32 = none → Guarded .share s c m 1 0 (· = g)) ∧
      (∀ e, tabFree g.shares 32 = some e → Guarded .share s c m 0 e (fun h =>
        tabGet h.shares e = some { slot := slotOf (bitsOf w 3 0), region := bitsOf w 6 4,
                                   domain := BitVec.ofNat 16 (bitsOf w 31 16), write := bitOf w 32 } ∧
        (∀ j, j ≠ e → tabGet h.shares j = tabGet g.shares j)))) := by
  intro w g
  have hregion (u : State) (hu : Alike s u) :
      (u.slot c (slotOf (bitsOf (m.dword 0) 3 0))).regions[bitsOf (m.dword 0) 6 4]? = some r := by
    rw [hu.slot]; exact hr
  refine ⟨fun hbad => ?_, fun hs hd h1 h2 => ⟨fun hfull => ?_, fun e he => ?_⟩⟩
  · refine guarded_same ha (by decide) (served := anyCore) (Eq.trans (b := execShare s) rfl rfl) rfl (fun u hu => ?_) rfl
    simp only [hregion u hu]
    refine if_pos ?_
    simp only [Bool.or_eq_true, decide_eq_true_eq]
    exact hbad.elim .inr (fun h => .inl (.inr h))
  all_goals
    have hvalid : ¬ (bitsOf w 15 7 ≠ 0 || bitsOf w 63 33 ≠ 0 || bitsOf w 31 16 = noDomain.toNat || r.stack) = true := by
      simp only [h1, h2, hs, decide_eq_true_eq, ne_eq, not_true_eq_false, decide_false, Bool.or_false,
        Bool.false_or]
      exact hd
  · refine guarded_same ha (by decide) (served := anyCore) (Eq.trans (b := execShare s) rfl rfl) rfl (fun u hu => ?_) rfl
    simp only [hregion u hu]
    rw [if_neg hvalid]
    simp only [hu.core, show tabFree (s.core c).guard.shares 32 = none from hfull]
    rfl
  · refine guarded_mapGuard ha (by decide) (served := anyCore) (Eq.trans (b := execShare s) rfl rfl) rfl
      (f := fun g => { g with shares := tabSet g.shares e { slot := slotOf (bitsOf w 3 0), region := bitsOf w 6 4,
                                                            domain := BitVec.ofNat 16 (bitsOf w 31 16), write := bitOf w 32 } })
      (fun u hu => ?_) ⟨tabGet_tabSet_self _ _ _, fun j hj => tabGet_tabSet_ne _ _ hj⟩
    simp only [hregion u hu]
    rw [if_neg hvalid]
    simp only [hu.core, show tabFree (s.core c).guard.shares 32 = some e from he]
    rfl

theorem unshare_entry (ha : ToGuard s c m 2) (h1 : bitsOf (m.dword 0) 63 5 = 0) :
    Guarded .unshare s c m 0 0 (fun h => tabGet h.shares (bitsOf (m.dword 0) 4 0) = none ∧
      ∀ j, j ≠ bitsOf (m.dword 0) 4 0 → tabGet h.shares j = tabGet (s.core c).guard.shares j) :=
  guarded_mapGuard ha (by decide) (served := anyCore) (Eq.trans (b := execUnshare s) rfl rfl) rfl (fun _ _ => if_neg (not_not.mpr h1))
    ⟨tabGet_tabDel_self _ _, fun _ hj => tabGet_tabDel_ne _ hj⟩

/-! ### Capabilities (R295) -/

theorem isCapability_false {w : Word} (h : bitsOf w 63 48 = 0xFFFF ∨ bitsOf w 47 44 = 0 ∨ 5 < bitsOf w 47 44) :
    isCapability w = false := by
  unfold isCapability
  rcases h with h | h | h
  · rw [h]; rfl
  · rw [h]; exact Bool.and_false _
  · split
    case h_6 => exact Bool.and_false _
    all_goals omega

theorem capload_invalid (ha : ToGuard s c m 2)
    (h : bitsOf (m.dword 0) 63 48 = 0xFFFF ∨ bitsOf (m.dword 0) 47 44 = 0 ∨ 5 < bitsOf (m.dword 0) 47 44) :
    Guarded .capload s c m 3 0 (· = (s.core c).guard) :=
  guarded_same ha (by decide) (served := anyCore) (Eq.trans (b := execCapload s) rfl rfl) rfl
    (fun _ _ => if_pos (by rw [isCapability_false h]; rfl)) rfl

theorem capload_valid (ha : ToGuard s c m 2) (hw : isCapability (m.dword 0) = true) :
    let w := m.dword 0
    let g := (s.core c).guard
    (w ∉ g.caps → 256 ≤ g.caps.length → Guarded .capload s c m 1 0 (· = g)) ∧
    (w ∈ g.caps ∨ g.caps.length < 256 → Guarded .capload s c m 0 0 (fun h => ∀ v, v ∈ h.caps ↔ v = w ∨ v ∈ g.caps)) := by
  intro w g
  have hcap : ¬ (!isCapability w) = true := by rw [hw]; exact Bool.false_ne_true
  have hheld {u : State} (hu : Alike s u) : (u.core c).guard.caps.contains w = true ↔ w ∈ g.caps := by
    rw [hu.core, List.contains_iff_mem]
  have hlen {u : State} (hu : Alike s u) : (u.core c).guard.caps.length = g.caps.length := by rw [hu.core]
  refine ⟨fun hno hfull => ?_, fun h => ?_⟩
  · refine guarded_same ha (by decide) (served := anyCore) (Eq.trans (b := execCapload s) rfl rfl) rfl (fun u hu => ?_) rfl
    exact (if_neg hcap).trans ((if_neg (mt (hheld hu).mp hno)).trans (if_pos (by rw [hlen hu]; exact hfull)))
  · by_cases hin : w ∈ g.caps
    · refine guarded_same ha (by decide) (served := anyCore) (Eq.trans (b := execCapload s) rfl rfl) rfl
        (fun u hu => ?_) (fun v => ?_)
      · exact (if_neg hcap).trans (if_pos ((hheld hu).mpr hin))
      · exact ⟨.inr, fun hv => hv.elim (fun e => e ▸ hin) id⟩
    · have hroom : g.caps.length < 256 := h.resolve_left hin
      refine guarded_mapGuard ha (by decide) (served := anyCore) (Eq.trans (b := execCapload s) rfl rfl) rfl
        (f := fun g => { g with caps := g.caps ++ [w] }) (fun u hu => ?_) (fun v => ?_)
      · exact (if_neg hcap).trans ((if_neg (mt (hheld hu).mp hin)).trans (if_neg (by rw [hlen hu]; omega)))
      · rw [List.mem_append, List.mem_singleton]
        exact or_comm

theorem caprevoke_value (ha : ToGuard s c m 2) :
    let w := m.dword 0
    let g := (s.core c).guard
    Guarded .caprevoke s c m 0 (if w ∈ g.caps then 1 else 0) (fun h => ∀ v, v ∈ h.caps ↔ v ∈ g.caps ∧ v ≠ w) := by
  intro w g
  refine guarded_mapGuard ha (by decide) (served := anyCore) (Eq.trans (b := execCaprevoke s) rfl rfl) rfl
    (f := fun g => { g with caps := g.caps.filter (· != w) }) (fun u hu => ?_) (fun v => ?_)
  · simp only [hu.core, List.contains_iff_mem]
    rfl
  · simp only [List.mem_filter, bne_iff_ne]
    rfl

/-! ### Send rights and who may send from other devices (R129) -/

theorem tabIndex_none {α : Type} [DecidableEq α] {t : Tab α} {v : α} (h : ∀ p ∈ t, p.2 ≠ v) : tabIndex t v = none := by
  rw [tabIndex, Option.map_eq_none_iff, List.find?_eq_none]
  exact fun p hp => by simpa using h p hp

/-- A table edited as a command asks: what follows of its answer and of its entries. -/
theorem editTable_cases {α : Type} [DecidableEq α] (t : Tab α) (size : Nat) (v : α) :
    (∀ e, tabIndex t v = some e → editTable t size v true = (t, 0, e) ∧ editTable t size v false = (tabDel t e, 0, e)) ∧
    ((∀ p ∈ t, p.2 ≠ v) → editTable t size v false = (t, 0, 0) ∧
      (tabFree t size = none → editTable t size v true = (t, 1, 0)) ∧
      (∀ e, tabFree t size = some e → editTable t size v true = (tabSet t e v, 0, e))) := by
  refine ⟨fun e he => ?_, fun hno => ?_⟩
  · simp only [editTable, he, and_self]
  · have hnone := tabIndex_none hno
    refine ⟨?_, fun hf => ?_, fun e he => ?_⟩
    · simp only [editTable, hnone]
    · simp only [editTable, hnone, hf]; rfl
    · simp only [editTable, hnone, he]

/-- A table of a guard that a command edits: get reads it, put writes it. -/
structure Table {α : Type} (get : Guard → Tab α) (put : Tab α → Guard → Guard) : Prop where
  get_put : ∀ t g, get (put t g) = t
  put_get : ∀ g, put (get g) g = g

/-- A command that edits a table: each of its answers, and the table after it. -/
theorem guarded_edit {α : Type} [DecidableEq α] {get : Guard → Tab α} {put : Tab α → Guard → Guard} (ht : Table get put)
    {i : Instr} {plen size : Nat} {v : α} {add : Bool} (ha : ToGuard s c m plen) (h0 : plen ≠ 0)
    {op : CoreId → Msg → State → State × Nat × Nat} (hexec : exec i s = guardOp s plen anyCore op)
    (hop : ∀ u, Alike s u → op c m u = (u.mapGuard c (put (editTable (get (s.core c).guard) size v add).1),
      (editTable (get (s.core c).guard) size v add).2.1, (editTable (get (s.core c).guard) size v add).2.2)) :
    let g := (s.core c).guard
    (add = true → (∀ p ∈ get g, p.2 ≠ v) →
      (tabFree (get g) size = none → Guarded i s c m 1 0 (· = g)) ∧
      (∀ e, tabFree (get g) size = some e → Guarded i s c m 0 e (fun h =>
        tabGet (get h) e = some v ∧ ∀ j, j ≠ e → tabGet (get h) j = tabGet (get g) j))) ∧
    (∀ e, add = true → tabIndex (get g) v = some e → Guarded i s c m 0 e (· = g)) ∧
    (add = false → (∀ p ∈ get g, p.2 ≠ v) → Guarded i s c m 0 0 (· = g)) ∧
    (∀ e, add = false → tabIndex (get g) v = some e → Guarded i s c m 0 e (fun h =>
      tabGet (get h) e = none ∧ ∀ j, j ≠ e → tabGet (get h) j = tabGet (get g) j)) := by
  intro g
  obtain ⟨hfound, hno⟩ := editTable_cases (get g) size v
  have hedit {t : Tab α} {st detail : Nat} (he : editTable (get g) size v add = (t, st, detail)) {P : Guard → Prop}
      (hP : P (put t g)) : Guarded i s c m st detail P :=
    guarded_mapGuard ha h0 hexec rfl (fun u hu => (hop u hu).trans (by simp only [g] at he; rw [he])) hP
  refine ⟨fun hadd hp => ⟨fun hf => ?_, fun e he => ?_⟩, fun e hadd he => ?_, fun hadd hp => ?_, fun e hadd he => ?_⟩
  · exact hedit (hadd ▸ (hno hp).2.1 hf) (ht.put_get g)
  · refine hedit (hadd ▸ (hno hp).2.2 e he) ?_
    rw [ht.get_put]
    exact ⟨tabGet_tabSet_self _ _ _, fun j hj => tabGet_tabSet_ne _ _ hj⟩
  · exact hedit (hadd ▸ (hfound e he).1) (ht.put_get g)
  · exact hedit (hadd ▸ (hno hp).1) (ht.put_get g)
  · refine hedit (hadd ▸ (hfound e he).2) ?_
    rw [ht.get_put]
    exact ⟨tabGet_tabDel_self _ _, fun j hj => tabGet_tabDel_ne _ hj⟩

theorem sendright_entry (ha : ToGuard s c m 4) (h1 : bitsOf (m.dword 0) 63 17 = 0)
    (hd : BitVec.ofNat 16 (bitsOf (m.dword 0) 15 0) ≠ 0xFFFF) :
    let w := m.dword 0
    let g := (s.core c).guard
    let v : SendRight := { domain := BitVec.ofNat 16 (bitsOf w 15 0), pattern := m.dword 1, mask := m.dword 2 }
    (bitOf w 16 = true → (∀ p ∈ g.sendRights, p.2 ≠ v) →
      (tabFree g.sendRights 64 = none → Guarded .sendright s c m 1 0 (· = g)) ∧
      (∀ e, tabFree g.sendRights 64 = some e → Guarded .sendright s c m 0 e (fun h =>
        tabGet h.sendRights e = some v ∧ ∀ j, j ≠ e → tabGet h.sendRights j = tabGet g.sendRights j))) ∧
    (∀ e, bitOf w 16 = true → tabIndex g.sendRights v = some e → Guarded .sendright s c m 0 e (· = g)) ∧
    (bitOf w 16 = false → (∀ p ∈ g.sendRights, p.2 ≠ v) → Guarded .sendright s c m 0 0 (· = g)) ∧
    (∀ e, bitOf w 16 = false → tabIndex g.sendRights v = some e → Guarded .sendright s c m 0 e (fun h =>
      tabGet h.sendRights e = none ∧ ∀ j, j ≠ e → tabGet h.sendRights j = tabGet g.sendRights j)) := by
  intro w g v
  have hvalid : ¬ (bitsOf w 63 17 ≠ 0 || domainField w = noDomain) = true := by
    simp only [Bool.or_eq_true, decide_eq_true_eq, not_or, not_not]
    exact ⟨h1, hd⟩
  refine guarded_edit (get := (·.sendRights)) (put := fun t g => { g with sendRights := t }) (v := v) ⟨fun _ _ => rfl, fun _ => rfl⟩
    ha (by decide) (Eq.trans (b := execSendright s) rfl rfl) (fun u hu => ?_)
  refine (if_neg hvalid).trans ?_
  simp only [hu.core]
  rfl

theorem admitEntry_entry (ha : ToGuard s c m 3) (h1 : bitsOf (m.dword 0) 31 28 = 0) (h2 : bitsOf (m.dword 0) 63 33 = 0)
    (h3 : bitsOf (m.dword 1) 63 16 = 0) (hd : BitVec.ofNat 16 (bitsOf (m.dword 0) 15 0) ≠ 0xFFFF) :
    let w := m.dword 0
    let g := (s.core c).guard
    let v : Admit := { domain := BitVec.ofNat 16 (bitsOf w 15 0), device := BitVec.ofNat 12 (bitsOf w 27 16),
                       slots := BitVec.ofNat 16 (bitsOf (m.dword 1) 15 0) }
    (bitOf w 32 = true → (∀ p ∈ g.admits, p.2 ≠ v) →
      (tabFree g.admits 64 = none → Guarded .admitEntry s c m 1 0 (· = g)) ∧
      (∀ e, tabFree g.admits 64 = some e → Guarded .admitEntry s c m 0 e (fun h =>
        tabGet h.admits e = some v ∧ ∀ j, j ≠ e → tabGet h.admits j = tabGet g.admits j))) ∧
    (∀ e, bitOf w 32 = true → tabIndex g.admits v = some e → Guarded .admitEntry s c m 0 e (· = g)) ∧
    (bitOf w 32 = false → (∀ p ∈ g.admits, p.2 ≠ v) → Guarded .admitEntry s c m 0 0 (· = g)) ∧
    (∀ e, bitOf w 32 = false → tabIndex g.admits v = some e → Guarded .admitEntry s c m 0 e (fun h =>
      tabGet h.admits e = none ∧ ∀ j, j ≠ e → tabGet h.admits j = tabGet g.admits j)) := by
  intro w g v
  have hvalid : ¬ (bitsOf w 31 28 ≠ 0 || bitsOf w 63 33 ≠ 0 || bitsOf (m.dword 1) 63 16 ≠ 0 || domainField w = noDomain) = true := by
    simp only [Bool.or_eq_true, decide_eq_true_eq, not_or, not_not]
    exact ⟨⟨⟨h1, h2⟩, h3⟩, hd⟩
  refine guarded_edit (get := (·.admits)) (put := fun t g => { g with admits := t }) (v := v) ⟨fun _ _ => rfl, fun _ => rfl⟩
    ha (by decide) (Eq.trans (b := execAdmitEntry s) rfl rfl) (fun u hu => ?_)
  refine (if_neg hvalid).trans ?_
  simp only [hu.core]
  rfl

/-! ### Gates and allotments (R134, R208) -/

theorem toNat_domain (w : Word) : (BitVec.ofNat 16 (bitsOf w 15 0)).toNat = bitsOf w 15 0 := by
  rw [BitVec.toNat_ofNat]
  exact Nat.mod_eq_of_lt (by unfold bitsOf; omega)

theorem gateinv_gate (ha : ToGuard s c m 2) (h1 : bitsOf (m.dword 0) 63 16 = 0) :
    let g := (s.core c).guard
    let d := BitVec.ofNat 16 (bitsOf (m.dword 0) 15 0)
    Guarded .gateinv s c m 0 ((tabGet g.gateCounts d.toNat).getD 0) (fun h => ∀ e, e ∈ h.gates ↔ e ∈ g.gates ∧ e.id ≠ d.toNat) := by
  intro g d
  refine guarded_mapGuard ha (by decide) (served := anyCore) (Eq.trans (b := execGateinv s) rfl rfl) rfl
    (f := fun g => { g with gates := g.gates.filter (·.id != bitsOf (m.dword 0) 15 0) }) (fun u hu => ?_) (fun e => ?_)
  · refine (if_neg (not_not.mpr h1)).trans ?_
    rw [hu.core, toNat_domain]
  · rw [toNat_domain, List.mem_filter, bne_iff_ne]

/-- The budget that ALLOT gives. -/
def allotted (s : State) (m : Msg) : Budget :=
  { domain := domainField (m.dword 0), period := (m.dword 1).toNat, allot := (m.dword 2).toNat, left := (m.dword 2).toNat,
    index := s.quartz / ((m.dword 1).toNat * 1000) }

/-- A core with a domain's budget in place of the one it had. -/
def withBudget (b : Budget) (k : Core) : Core := { k with budgets := k.budgets.filter (·.domain != b.domain) ++ [b] }

theorem mem_withBudget {b e : Budget} (k : Core) (he : e.domain ≠ b.domain) :
    e ∈ (withBudget b k).budgets ↔ e ∈ k.budgets := by
  have hne : e ≠ b := fun h => he (by rw [h])
  simp only [withBudget, List.mem_append, List.mem_filter, List.mem_singleton, bne_iff_ne, hne, or_false]
  exact and_iff_left he

theorem allot_budget (ha : ToGuard s c m 4) (h1 : bitsOf (m.dword 0) 63 16 = 0)
    (h0 : BitVec.ofNat 16 (bitsOf (m.dword 0) 15 0) ≠ 0) (hd : BitVec.ofNat 16 (bitsOf (m.dword 0) 15 0) ≠ 0xFFFF)
    (hp : 10 ≤ (m.dword 1).toNat) (hp' : (m.dword 1).toNat ≤ 100000) (hl : (m.dword 2).toNat ≤ 4 * (m.dword 1).toNat * 1000) :
    ∃ t b, exec .allot s = .next t ∧ GuardAnswer t m 0 0 ∧ b ∈ (t.core c).budgets ∧
      b.domain = BitVec.ofNat 16 (bitsOf (m.dword 0) 15 0) ∧
      b.period = (m.dword 1).toNat ∧ b.allot = (m.dword 2).toNat ∧ b.left = b.allot ∧
      (∀ e, e.domain ≠ BitVec.ofNat 16 (bitsOf (m.dword 0) 15 0) → (e ∈ (t.core c).budgets ↔ e ∈ (s.core c).budgets)) ∧
      (t.core c).guard = (s.core c).guard := by
  have hvalid : ¬ (bitsOf (m.dword 0) 63 16 ≠ 0 || (m.dword 1).toNat < 10 || 100000 < (m.dword 1).toNat ||
      4 * (m.dword 1).toNat * 1000 < (m.dword 2).toNat || domainField (m.dword 0) = 0 || domainField (m.dword 0) = noDomain) =
        true := by
    simp only [Bool.or_eq_true, decide_eq_true_eq, not_or, not_not]
    exact ⟨⟨⟨⟨⟨h1, by omega⟩, by omega⟩, by omega⟩, h0⟩, hd⟩
  have halike := alike_answerTo s c m
  have hexec : exec .allot s = .next (State.guardReply ((s.answerTo c m .accepted).mapCore c
      (withBudget (allotted (s.answerTo c m .accepted) m))) c m 0 0) :=
    exec_guardOp ha (served := anyCore) (Eq.trans (b := execAllot s) rfl rfl) rfl (if_neg hvalid)
  obtain ⟨_, _, _, _, ht⟩ := guardReply_kept ((s.answerTo c m .accepted).mapCore c
    (withBudget (allotted (s.answerTo c m .accepted) m))) c m 0 0
  refine ⟨_, allotted (s.answerTo c m .accepted) m, hexec,
    guardAnswer_asked ha (by decide) _ 0 0, ?_⟩
  have hcore : (State.guardReply ((s.answerTo c m .accepted).mapCore c
      (withBudget (allotted (s.answerTo c m .accepted) m))) c m 0 0).core c =
      withBudget (allotted (s.answerTo c m .accepted) m) (s.core c) := by
    rw [ht, ← halike.core c]
    exact State.core_mapCore_self _ _ _
  rw [hcore]
  exact ⟨List.mem_append_right _ (List.mem_singleton_self _), rfl, rfl, rfl, rfl, fun e he => mem_withBudget _ he, rfl⟩

end

end Sys2Proof.Proofs
end

section
/-! KILL (R218, R294): the kill is ordered of every bound activation that it touches, and what the command does after that
leaves every order standing. -/

namespace Sys2Proof.Proofs

open Sys2Proof Sys2Proof.Machine Sys2Proof.Claims

/-! ### The frames of suspended activations -/

/-- No order given to an activation has changed. -/
def OrdersKept (s t : State) : Prop := ∀ c x, (t.ctx c x).stops = (s.ctx c x).stops

namespace OrdersKept

variable {s t u : State}

theorem refl (s : State) : OrdersKept s s := fun _ _ => rfl

theorem trans (h : OrdersKept s t) (g : OrdersKept t u) : OrdersKept s u := fun c x => (g c x).trans (h c x)

theorem of_issue (h : IssueKept s t) : OrdersKept s t := fun c x => by
  obtain ⟨w, hw⟩ := h.ctx c x
  rw [hw]

theorem foldl_pair {α β : Type} (f : State × β → α → State × β) (hf : ∀ p a, OrdersKept p.1 (f p a).1) (l : List α)
    (p : State × β) : OrdersKept p.1 (l.foldl f p).1 := by
  induction l generalizing p with
  | nil => exact .refl p.1
  | cons a r ih => exact (hf p a).trans (ih (f p a))

end OrdersKept

/-- A grace period given orders nothing. -/
theorem ordersKept_giveGrace (s : State) (c : CoreId) (n : SlotId) : OrdersKept s (s.giveGrace c n) := by
  intro d x
  simp only [State.giveGrace, State.mapActivation, State.ctx_mapSlot]
  by_cases hd : d = c
  · subst hd
    rw [ctx_mapCore_self, Vector.getElem_map]
    split <;> rfl
  · simp only [State.ctx, State.core_mapCore_ne _ _ hd]

theorem issueKept_guard (s : State) (c : CoreId) (f : Guard → Guard) :
    IssueKept s (s.mapCore c (fun k => { k with guard := f k.guard })) :=
  .mapCore s c (.of_eq rfl rfl)

theorem issueKept_mapGuard (s : State) (c : CoreId) (f : Guard → Guard) : IssueKept s (s.mapGuard c f) := issueKept_guard s c f

theorem issueKept_unwindSaved (s : State) (c : CoreId) (n : SlotId) (levels : Nat) (status : Word) :
    IssueKept s (s.unwindSaved c n levels status) := by
  unfold State.unwindSaved
  split
  · exact .refl s
  · extract_lets gone
    split
    · exact .refl s
    · exact ((((issueKept_leaveTokens s _).trans (issueKept_guard _ c (·.leave gone))).trans (.mapSlot _ c n _)).trans
        (issueKept_kernelWrite _ c _ _)).trans (issueKept_imageHead _ c n _)

theorem issueKept_drainStep (s : State) (c : CoreId) (m : Msg) (terminal : Bool) : IssueKept s (s.drainStep c m terminal) := by
  unfold State.drainStep
  split
  · exact .mapCore s c (.of_eq rfl rfl)
  · exact .refl s

theorem coresKept_freeSerial (s : State) (c : CoreId) (n : SlotId) : CoresKept s (s.freeSerial c n) := ⟨rfl, rfl, rfl⟩

theorem issueKept_endSaved (s : State) (c : CoreId) (n : SlotId) : IssueKept s (s.endSaved c n) := by
  unfold State.endSaved
  split
  · exact .refl s
  · next v _ =>
    have hleft := (((issueKept_leaveTokens s (.slot c n)).trans (.of_cores (coresKept_abandonSessions _
      (fun _ => (s.leaveTokens (.slot c n)).openedBy c n)))).trans (.of_cores (coresKept_freeSerial _ c n))).trans
      (issueKept_guard _ c (·.leave v.ctx.stack))
    extract_lets s1 s2 s3 s4
    split
    · exact hleft
    · next a _ =>
      extract_lets s5
      refine hleft.trans (IssueKept.trans (t := s5) ?_ (leaveSlot_kept s5 c a).1)
      simp only [s5]
      split
      · exact issueKept_drainStep s4 c a.msg true
      · exact .refl s4

/-- A kill of a saved activation orders nothing of a bound one. -/
theorem ordersKept_killSaved (s : State) (c : CoreId) (n : SlotId) (d : BitVec 16) : OrdersKept s (s.killSaved c n d) := by
  unfold State.killSaved
  split
  · exact .refl s
  · extract_lets dead grace
    have hgrace (u : State) : OrdersKept u (grace u) := by
      simp only [grace]
      split
      · split
        · exact (OrdersKept.of_issue ((issueKept_leaveTokens u _).trans (.mapSlot _ c n _))).trans (ordersKept_giveGrace _ c n)
        · exact .refl u
      · exact .refl u
    split
    · exact .refl s
    · exact hgrace s
    · exact .of_issue (issueKept_endSaved s c n)
    · exact (OrdersKept.of_issue (issueKept_unwindSaved s c n _ _)).trans (hgrace _)

theorem ordersKept_killFrames (s : State) (c : CoreId) (d : BitVec 16) : OrdersKept s (s.killFrames c d).1 := by
  refine OrdersKept.foldl_pair _ (fun p i => ?_) _ (s, 0)
  simp only
  split
  · exact .refl p.1
  · split
    · exact ordersKept_killSaved p.1 c _ d
    · exact .refl p.1

/-! ### The engines -/

/-- Neither an activation's issue nor a guard has changed. -/
structure EnginesOnly (s t : State) : Prop where
  issue : IssueKept s t
  guard : ∀ c, (t.core c).guard = (s.core c).guard

namespace EnginesOnly

variable {s t u : State}

theorem refl (s : State) : EnginesOnly s s := ⟨.refl s, fun _ => rfl⟩

theorem trans (h : EnginesOnly s t) (g : EnginesOnly t u) : EnginesOnly s u :=
  ⟨h.issue.trans g.issue, fun c => (g.guard c).trans (h.guard c)⟩

theorem of_cores (h : CoresKept s t) : EnginesOnly s t := ⟨.of_cores h, fun c => by rw [h.core]⟩

theorem mapCore (s : State) (c : CoreId) {f : Core → Core} (hc : CtxsKept (s.core c) (f (s.core c)))
    (hg : (f (s.core c)).guard = (s.core c).guard) : EnginesOnly s (s.mapCore c f) := by
  refine ⟨.mapCore s c hc, fun d => ?_⟩
  by_cases hd : d = c
  · subst hd; rw [State.core_mapCore_self]; exact hg
  · rw [State.core_mapCore_ne _ _ hd]

theorem foldl {α : Type} (f : State → α → State) (hf : ∀ u a, EnginesOnly u (f u a)) (l : List α) (s : State) :
    EnginesOnly s (l.foldl f s) := by
  induction l generalizing s with
  | nil => exact .refl s
  | cons a r ih => exact (hf s a).trans (ih (f s a))

theorem leaveTokens (s : State) (w : TokenWaiter) : EnginesOnly s (s.leaveTokens w) := by
  refine ⟨issueKept_leaveTokens s w, fun c => ?_⟩
  simp only [State.leaveTokens, State.mapWaiters, State.core, tabGet_tabMap]
  cases tabGet s.cores c.val <;> rfl

theorem releaseClaims (s : State) (c : CoreId) : EnginesOnly s (s.releaseClaims c) := by
  obtain h | ⟨o, cl, h⟩ := releaseClaims_eq s c
  · rw [h]; exact .refl s
  · rw [h]; exact .mapCore s c (.of_eq rfl rfl) rfl

end EnginesOnly

theorem coresKept_mapCluster (s : State) (g : ClusterId) (f : Cluster → Cluster) : CoresKept s (s.mapCluster g f) := ⟨rfl, rfl, rfl⟩

theorem coresKept_dropWaiter (s : State) (w : BarWaiter) : CoresKept s (s.dropWaiter w) := ⟨rfl, rfl, rfl⟩

theorem coresKept_farClear (s : State) (q : Eng) : CoresKept s (s.farClear q) := coresKept_leaveMisses s _ _

theorem coresKept_report (s : State) (die : DieId) (e : Entry) : CoresKept s (s.report die e) := by
  have hring (v : State) (r : Nat) (b : BitVec 256) : CoresKept v (v.ring r b) := ⟨rfl, rfl, rfl⟩
  simp only [State.report]
  refine ((hring s _ _).trans (CoresKept.foldl _ (fun u v => ?_) _ _)).trans (coresKept_garnet _ _ _ _ _ _ _)
  split
  · exact hring u _ _
  · exact .refl u

theorem coresKept_reportFail (s : State) (q : Eng) (status : Nat) (addr : Word) (kind detail : Nat) :
    CoresKept s (s.reportFail q status addr kind detail) := by
  unfold State.reportFail
  split
  · exact coresKept_report s _ _
  · exact .refl s

/-! #### Copies and the matrix unit -/

theorem enginesOnly_setCopy (s : State) (c : CoreId) (e : Fin 128) (f : Copy → Copy) : EnginesOnly s (s.setCopy c e f) :=
  .mapCore s c (.of_eq rfl rfl) rfl

theorem enginesOnly_failCopy (s : State) (c : CoreId) (e : Fin 128) (status : Nat) (addr : Word) (kind : Nat) :
    EnginesOnly s (s.failCopy c e status addr kind) := by
  unfold State.failCopy
  split
  · exact .refl s
  · exact (EnginesOnly.of_cores ((coresKept_reportFail s _ status addr kind _).trans (coresKept_farClear _ _))).trans
      (enginesOnly_setCopy _ c e _)

theorem enginesOnly_killCopy (s : State) (c : CoreId) (e : Fin 128) : EnginesOnly s (s.killCopy c e) := by
  unfold State.killCopy
  split
  · exact .refl s
  · split
    · exact (EnginesOnly.leaveTokens s _).trans (enginesOnly_failCopy _ c e 6 0 0)
    · exact (EnginesOnly.leaveTokens s _).trans (enginesOnly_failCopy _ c e 6 0 0)
    · exact enginesOnly_setCopy s c e _
    · exact enginesOnly_setCopy s c e _
    · exact .refl s

theorem enginesOnly_killCopies (s : State) (c : CoreId) (d : BitVec 16) : EnginesOnly s (s.killCopies c d) := by
  refine EnginesOnly.foldl _ (fun u i => ?_) _ s
  simp only
  split
  · exact enginesOnly_killCopy u c _
  · exact .refl u

theorem enginesOnly_matrixReply (s : State) (c : CoreId) (cmd : Command) (status steps rows : Nat) :
    EnginesOnly s (s.matrixReply c cmd status steps rows) :=
  (EnginesOnly.of_cores (coresKept_engineReply s _ _ _ _ _ _ _ _ _ _ _ _)).trans (.releaseClaims _ c)

theorem enginesOnly_mapMatrix (s : State) (c : CoreId) (f : Matrix → Matrix) : EnginesOnly s (s.mapMatrix c f) :=
  .mapCore s c (.of_eq rfl rfl) rfl

theorem enginesOnly_killMatrix (s : State) (c : CoreId) (d : BitVec 16) : EnginesOnly s (s.killMatrix c d) := by
  simp only [State.killMatrix]
  refine EnginesOnly.trans (EnginesOnly.trans (EnginesOnly.trans (enginesOnly_mapMatrix s c _)
    (.foldl _ (fun u q => ?_) _ _)) (.foldl _ (fun u r => ?_) _ _)) (.foldl _ (fun u q => ?_) _ _)
  · exact (((EnginesOnly.of_cores (coresKept_dropWaiter u _)).trans (.leaveTokens _ _)).trans
      (.of_cores (coresKept_leaveMisses _ _ _))).trans (enginesOnly_matrixReply _ c q 6 0 0)
  · exact enginesOnly_matrixReply u c r.cmd 6 r.step 0
  · exact enginesOnly_matrixReply u c q.cmd 6 q.steps q.row

/-! #### The engines of clusters and dies -/

theorem coresKept_failGather (s : State) (g : ClusterId) (v : Gather) (status : Nat) (addr : Word) (kind : Nat) :
    CoresKept s (s.failGather g v status addr kind) :=
  ((coresKept_reportFail s _ status addr kind 0).trans (coresKept_farClear _ _)).trans (coresKept_mapCluster _ g _)

theorem coresKept_setGatherQueue (s : State) (g : ClusterId) (q : List Command) : CoresKept s (s.setGatherQueue g q) :=
  coresKept_mapCluster s g _

theorem enginesOnly_killGathers (s : State) (g : ClusterId) (d : BitVec 16) : EnginesOnly s (s.killGathers g d) := by
  simp only [State.killGathers]
  refine EnginesOnly.trans (EnginesOnly.trans (.foldl _ (fun u q => ?_) _ s) (.of_cores (coresKept_setGatherQueue _ g _)))
    (.foldl _ (fun u v => ?_) _ _)
  · exact ((EnginesOnly.of_cores (coresKept_dropWaiter u _)).trans (.leaveTokens _ _)).trans
      (.of_cores ((coresKept_farClear _ _).trans (coresKept_engineReply _ _ _ _ _ _ _ _ _ _ _ _ _)))
  · exact (EnginesOnly.leaveTokens u _).trans (.of_cores (coresKept_failGather _ g v 6 0 0))

theorem coresKept_endCollCmd (s : State) (d : DieId) (q : Command) (status : Nat) : CoresKept s (s.endCollCmd d q status) := by
  have hdrop := (coresKept_mapDie s d (fun k => { k with collQueue := k.collQueue.filter (·.id != q.id) })).trans
    (coresKept_farClear _ (q.collEng d))
  simp only [State.endCollCmd]
  split
  · exact hdrop.trans (coresKept_mapDie _ d _)
  · exact hdrop.trans (coresKept_engineReply _ _ _ _ _ _ _ _ _ _ _ _ _)

theorem coresKept_endParts (s : State) (ps : List Contribution) (status : Nat) (result : List Byte) :
    CoresKept s (s.endParts ps status result) :=
  CoresKept.foldl _ (fun u (p : Contribution) => coresKept_mapDie u p.die _) _ s

theorem coresKept_collectives (s : State) (l : List Collective) : CoresKept s { s with collectives := l } := ⟨rfl, rfl, rfl⟩

theorem enginesOnly_killCollective (s : State) (e : DieId) (d : BitVec 16) : EnginesOnly s (s.killCollective e d) := by
  simp only [State.killCollective]
  refine EnginesOnly.trans (EnginesOnly.trans (EnginesOnly.trans (.foldl _ (fun u q => ?_) _ s)
    (.of_cores (coresKept_collectives _ _))) (.of_cores (coresKept_endParts _ _ 6 []))) (.foldl _ (fun u v => ?_) _ _)
  · exact ((EnginesOnly.of_cores (coresKept_dropWaiter u _)).trans (.leaveTokens _ _)).trans
      (.of_cores (coresKept_endCollCmd _ e q 6))
  · exact (EnginesOnly.leaveTokens u _).trans (.of_cores (coresKept_mapDie _ e _))

theorem coresKept_killSeal (s : State) (e : DieId) (d : BitVec 16) : CoresKept s (s.killSeal e d) :=
  CoresKept.foldl _ (fun u _ => ((coresKept_mapDie u e _).trans (coresKept_farClear _ _)).trans
    (coresKept_engineReply _ _ _ _ _ _ _ _ _ _ _ _ _)) _ s

theorem enginesOnly_killEngines (s : State) (c : CoreId) (d : BitVec 16) : EnginesOnly s (s.killEngines c d) := by
  have hcore := (enginesOnly_killCopies s c d).trans (enginesOnly_killMatrix _ c d)
  simp only [State.killEngines]
  generalize (s.killCopies c d).killMatrix c d = u at hcore ⊢
  have hcluster : EnginesOnly s (if c.val % 32 = 0 then u.killGathers (clusterOf c) d else u) := by
    split
    · exact hcore.trans (enginesOnly_killGathers u _ d)
    · exact hcore
  generalize (if c.val % 32 = 0 then u.killGathers (clusterOf c) d else u) = v at hcluster ⊢
  split
  · exact ((hcluster.trans (enginesOnly_killCollective v _ d)).trans (.of_cores (coresKept_abandonSessions _ _))).trans
      (.of_cores (coresKept_killSeal _ _ d))
  · exact hcluster

/-! ### The command -/

/-- The state of a core after a kill. -/
def killedBy (s : State) (c : CoreId) (d : BitVec 16) : State :=
  (((s.killBound c d).1.killFrames c d).1.mapGuard c (fun g => { g with killed := d :: g.killed.filter (· != d) })).killEngines c d

theorem stops_killBound {s : State} {c : CoreId} {d : BitVec 16} {x : CtxId} (ha : (s.ctx c x).act.isSome = true)
    (ht : killTouches (s.dead c d) (s.ctx c x) = true) : Stop.kill d ∈ ((s.killBound c d).1.ctx c x).stops := by
  have hhit : ((s.core c).ctxs[x.val].act.isSome && killTouches (s.dead c d) (s.core c).ctxs[x.val]) = true :=
    Bool.and_eq_true_iff.mpr ⟨ha, ht⟩
  simp only [State.killBound]
  rw [ctx_mapCore_self, Vector.getElem_map, if_pos hhit]
  exact List.mem_append_right _ (List.mem_singleton_self _)

theorem killedBy_marked (s : State) (c : CoreId) (d : BitVec 16) : d ∈ ((killedBy s c d).core c).guard.killed := by
  rw [killedBy, (enginesOnly_killEngines _ c d).guard, State.mapGuard, State.core_mapCore_self]
  exact List.mem_cons_self

theorem killedBy_ordered {s : State} {c : CoreId} {d : BitVec 16} {x : CtxId} (ha : (s.ctx c x).act.isSome = true)
    (ht : killTouches (s.dead c d) (s.ctx c x) = true) : Stop.kill d ∈ ((killedBy s c d).ctx c x).stops := by
  have hkept : OrdersKept (s.killBound c d).1 (killedBy s c d) :=
    (ordersKept_killFrames _ c d).trans (.trans (.of_issue (issueKept_mapGuard _ c _))
      (.of_issue (enginesOnly_killEngines _ c d).issue))
  rw [hkept c x]
  exact stops_killBound ha ht

/-- How many activations a kill touches. -/
def killCount (s : State) (c : CoreId) (d : BitVec 16) : Nat :=
  (s.killBound c d).2 + ((s.killBound c d).1.killFrames c d).2

theorem exec_kill {s : State} {c : CoreId} {m : Msg} (ha : ToGuard s c m 2) (h1 : bitsOf (m.dword 0) 63 16 = 0)
    (hd : domainField (m.dword 0) ≠ noDomain) :
    exec .kill s = .next ((killedBy (s.answerTo c m .accepted) c (domainField (m.dword 0))).guardReply c m 0
      (killCount (s.answerTo c m .accepted) c (domainField (m.dword 0)))) := by
  have hvalid : ¬ (bitsOf (m.dword 0) 63 16 ≠ 0 || domainField (m.dword 0) = noDomain) = true := by
    simp only [Bool.or_eq_true, decide_eq_true_eq, not_or, not_not]
    exact ⟨h1, hd⟩
  refine exec_guardOp ha (served := anyCore) (Eq.trans (b := execKill s) rfl rfl) rfl ((if_neg hvalid).trans ?_)
  rw [killedBy, killCount]

theorem kill_ordered {s : State} {c : CoreId} {m : Msg} (ha : ToGuard s c m 2) (h1 : bitsOf (m.dword 0) 63 16 = 0)
    (hd : BitVec.ofNat 16 (bitsOf (m.dword 0) 15 0) ≠ 0xFFFF) :
    let d := BitVec.ofNat 16 (bitsOf (m.dword 0) 15 0)
    ∃ t n, exec .kill s = .next t ∧ GuardAnswer t m 0 n ∧ d ∈ (t.core c).guard.killed ∧
      ∀ x : CtxId, (s.ctx c x).act.isSome = true → killTouches (s.dead c d) (s.ctx c x) = true →
        Stop.kill d ∈ (t.ctx c x).stops := by
  intro d
  have halike := alike_answerTo s c m
  have hctx (x : CtxId) : (s.answerTo c m .accepted).ctx c x = s.ctx c x := by rw [State.ctx, halike.core]; rfl
  have hdead : (s.answerTo c m .accepted).dead c d = s.dead c d := by
    funext e
    rw [State.dead, State.killed, halike.core]
    rfl
  obtain ⟨_, _, _, _, ht⟩ := guardReply_kept (killedBy (s.answerTo c m .accepted) c d) c m 0 (killCount (s.answerTo c m .accepted) c d)
  have hcore : (State.guardReply (killedBy (s.answerTo c m .accepted) c d) c m 0
      (killCount (s.answerTo c m .accepted) c d)).core c = (killedBy (s.answerTo c m .accepted) c d).core c := by rw [ht]; rfl
  refine ⟨_, _, exec_kill ha h1 hd, guardAnswer_asked ha (by decide) _ 0 _, ?_,
    fun x hact htouch => ?_⟩
  · exact Eq.mpr (congrArg (fun k : Core => d ∈ k.guard.killed) hcore) (killedBy_marked _ c d)
  · refine Eq.mpr (congrArg (fun k : Core => Stop.kill d ∈ k.ctxs[x].stops) hcore) ?_
    exact killedBy_ordered (by rw [hctx]; exact hact) (by rw [hctx, hdead]; exact htouch)

end Sys2Proof.Proofs
end

section
/-! QREPAIR (R129, R400): whether a read index is in range, and what becomes of the queue. -/

namespace Sys2Proof.Proofs

open Sys2Proof Sys2Proof.Machine Sys2Proof.Claims

/-! ### The range -/

/-- Is the packet that the ring holds at an index published under it (R398)? -/
def Stands (mem : Word → List Byte) (q : Queue) (i : Nat) : Prop :=
  bitsOf (word (leNat (mem (word (q.base + 64 * (i % 2 ^ q.logn)))))) 39 32 ≠ 0 ∧
    bitsOf (word (leNat (mem (word (q.base + 64 * (i % 2 ^ q.logn)))))) 31 0 = i % 2 ^ 32

theorem published_got {rd : Reader} {mem : Word → List Byte} (hrd : ∀ v a, rd v a 8 = .got v (mem a)) (q : Queue)
    (l : List Nat) (s : State) : ∃ ok : Bool, published rd q l s = .got s ok ∧ (ok = true ↔ ∃ i ∈ l, Stands mem q i) := by
  induction l with
  | nil => exact ⟨false, rfl, by simp⟩
  | cons i r ih =>
    simp only [published, hrd, Got.then]
    split
    · next h =>
      have hstands : Stands mem q i := by
        obtain ⟨h1, h2⟩ := Bool.and_eq_true_iff.mp h
        exact ⟨bne_iff_ne.mp h1, eq_of_beq h2⟩
      exact ⟨true, rfl, iff_of_true rfl ⟨i, List.mem_cons_self, hstands⟩⟩
    · next h =>
      have hnot : ¬ Stands mem q i := fun hs => h (Bool.and_eq_true_iff.mpr ⟨bne_iff_ne.mpr hs.1, beq_iff_eq.mpr hs.2⟩)
      obtain ⟨ok, hok, hiff⟩ := ih
      refine ⟨ok, hok, hiff.trans ⟨fun ⟨j, hj, hs⟩ => ⟨j, List.mem_cons_of_mem i hj, hs⟩, fun ⟨j, hj, hs⟩ => ?_⟩⟩
      obtain rfl | hj := List.mem_cons.mp hj
      · exact absurd hs hnot
      · exact ⟨j, hj, hs⟩

/-- The indexes that are looked at begin before the new one and end with the last that the ring can hold. -/
theorem mem_looked {q : Queue} {ri i : Nat} (h : ¬ ri ≤ q.ri) :
    i ∈ (List.range (q.ri + 2 ^ q.logn + 1 - ri)).map (ri - 1 + ·) ↔ ri ≤ i + 1 ∧ i < q.ri + 2 ^ q.logn := by
  simp only [List.mem_map, List.mem_range]
  constructor
  · rintro ⟨j, hj, rfl⟩
    omega
  · rintro ⟨h1, h2⟩
    exact ⟨i - (ri - 1), by omega, by omega⟩

theorem repairs_got {rd : Reader} {mem : Word → List Byte} (hrd : ∀ v a, rd v a 8 = .got v (mem a)) (q : Queue) (ri : Nat)
    (s : State) : ∃ ok : Bool, repairs rd q ri s = .got s ok ∧
      (ok = true ↔ ri ≤ q.ri ∨ ∃ i, ri ≤ i + 1 ∧ i < q.ri + 2 ^ q.logn ∧ Stands mem q i) := by
  by_cases h : ri ≤ q.ri
  · exact ⟨true, if_pos h, iff_of_true rfl (.inl h)⟩
  · obtain ⟨ok, hok, hiff⟩ := published_got hrd q ((List.range (q.ri + 2 ^ q.logn + 1 - ri)).map (ri - 1 + ·)) s
    refine ⟨ok, (if_neg h).trans hok, hiff.trans ?_⟩
    simp only [mem_looked h, h, false_or, and_assoc]

/-! ### What the front end reads -/

theorem spadScrub_arg (s : State) (c : CoreId) (off n : Nat) : (s.spadScrub c off n).arg = s.arg := by
  have h : AtSpads s (s.spadScrub c off n) := .foldl _ (fun u w => atSpads_scrubWord u c w) _ s
  obtain ⟨_, _, _, _, hrest⟩ := h.rest
  rw [hrest]

theorem farRead_got {s v : State} {q : Eng} {home : HomeKind} {addr : Word} {pa n : Nat} {bs : List Byte}
    (h : s.farRead q home addr pa n = .got v bs) : v = s := by
  simp only [State.farRead] at h
  split at h
  · cases h
  · split at h
    · cases h; rfl
    · cases h

theorem readPlace_arg {s v : State} {q : Eng} {addr : Word} {p : Place} {n : Nat} {bs : List Byte}
    (h : s.readPlace q addr p n = .got v bs) : v.arg = s.arg := by
  unfold State.readPlace at h
  split at h
  · cases h; exact spadScrub_arg s _ _ n
  · cases h
  · rw [farRead_got h]
  · rw [farRead_got h]
  · split at h
    · next hr =>
      cases h
      split at hr
      · exact (atHomes_readHome hr).arg
      · cases hr
    · rw [farRead_got h]

theorem readPieces_arg {q : Eng} {pins : Pins} (l : List (Word × Nat)) {s v : State} {bs : List Byte}
    (h : s.readPieces q pins l = .got v bs) : v.arg = s.arg := by
  induction l generalizing s v bs with
  | nil => cases h; rfl
  | cons p r ih =>
    obtain ⟨a, n⟩ := p
    simp only [State.readPieces] at h
    split at h
    · cases h
    · cases h
    · split at h
      · next hu =>
        split at h
        · next hw => cases h; exact (ih hw).trans (readPlace_arg hu)
        · next hno => exact absurd h (hno _ _)
      · next hno => exact absurd h (hno _ _)

theorem frontRead_arg {d : DieId} {addr n : Nat} {domain : BitVec 16} {a : Word} {s v : State} {bs : List Byte}
    (h : frontRead d addr domain s a n = .got v bs) : v.arg = s.arg := by
  simp only [frontRead] at h
  split at h
  · cases h; rfl
  · split at h
    · cases h
    · split at h
      · next hr => cases h; exact readPieces_arg _ hr
      · cases h
      · cases h
      · cases h

theorem published_arg {d : DieId} {addr : Nat} {q : Queue} (l : List Nat) {s v : State} {ok : Bool}
    (h : published (frontRead d addr 0) q l s = .got v ok) : v.arg = s.arg := by
  induction l generalizing s with
  | nil => cases h; rfl
  | cons i r ih =>
    simp only [published] at h
    cases hu : frontRead d addr 0 s (word (q.base + 64 * (i % 2 ^ q.logn))) 8 with
    | wait u => simp only [hu, Got.then] at h; cases h
    | bad u => simp only [hu, Got.then] at h; cases h
    | got u bs =>
      have hkept := frontRead_arg hu
      simp only [hu, Got.then] at h
      split at h
      · cases h; exact hkept
      · exact (ih h).trans hkept

theorem repairs_arg {d : DieId} {addr ri : Nat} {q : Queue} {s v : State} {ok : Bool}
    (h : repairs (frontRead d addr 0) q ri s = .got v ok) : v.arg = s.arg := by
  unfold repairs at h
  split at h
  · cases h; rfl
  · exact published_arg _ h

/-! ### The queue -/

/-- A queue has a read index and STATE 0. -/
def Repaired (t : State) (d : DieId) (addr ri : Nat) : Prop :=
  ∃ p, tabGet (t.die d).queues addr = some p ∧ p.ri = ri ∧ p.state = 0

section
variable {s t : State} {d : DieId} {addr ri : Nat}

theorem Repaired.of_dies (h : Repaired s d addr ri) (hd : t.dies = s.dies) : Repaired t d addr ri := by
  simpa only [Repaired, State.die, hd] using h

theorem Repaired.of_homes (h : Repaired s d addr ri) (hh : AtHomes s t) : Repaired t d addr ri := by
  obtain ⟨p, hp, hri, hst⟩ := h
  obtain ⟨w, hw⟩ := hh.queue hp
  exact ⟨_, hw, hri, hst⟩

theorem repaired_putQueue (s : State) (d : DieId) (addr : Nat) {q : Queue} (hri : q.ri = ri) (hst : q.state = 0) :
    Repaired (s.putQueue d addr q) d addr ri := by
  refine ⟨q, ?_, hri, hst⟩
  rw [State.putQueue, State.die_mapDie_self]
  exact tabGet_tabSet_self _ _ _

theorem dies_recordMissAt (s : State) (c : CoreId) (w : Who) (a : Word) (kind : Nat) (pol : Pol) (path : PathClass)
    (who : MissWaiter) : (s.recordMissAt c w a kind pol path who).dies = s.dies := by
  simp only [State.recordMissAt]
  split
  · split <;> rfl
  · split
    · rfl
    · obtain ⟨_, _, _, _, hpost⟩ := post_eq (s.mapCluster (clusterOf c) _) (agentFront (clusterDie (clusterOf c))) _
      rw [hpost]
      rfl

theorem dies_engDest {q : Eng} {pins : Pins} (l : List (Word × Nat)) {s v : State} {kind : Nat}
    (h : s.placePieces q pins kind l = .miss v) : v.dies = s.dies := by
  induction l with
  | nil => cases h
  | cons p r ih =>
    obtain ⟨a, n⟩ := p
    simp only [State.placePieces] at h
    split at h
    · cases h
    · cases h; exact dies_recordMissAt s _ _ _ _ _ _ _
    · split at h
      · cases h
      · exact ih h

/-- A fold that leaves the dies. -/
theorem dies_foldl {α : Type} {f : State → α → State} (hf : ∀ u a, (f u a).dies = u.dies) (l : List α) (s : State) :
    (l.foldl f s).dies = s.dies := by
  induction l generalizing s with
  | nil => rfl
  | cons a r ih => exact (ih (f s a)).trans (hf s a)

theorem dies_farWrite (s : State) (q : Eng) (home : HomeKind) (a : Word) (pa : Nat) (bs : List Byte) :
    (s.farWrite q home a pa bs).dies = s.dies := by
  simp only [State.farWrite]
  split <;>
  · refine dies_foldl (fun u p => ?_) _ _
    rfl

theorem dies_writePlace (s : State) (q : Eng) (a : Word) (p : Place) (bs : List Byte) : (s.writePlace q a p bs).dies = s.dies := by
  unfold State.writePlace
  split
  · rfl
  · rfl
  · exact dies_farWrite s _ _ _ _ _
  · exact dies_farWrite s _ _ _ _ _
  · refine dies_foldl (fun u p => ?_) _ s
    rfl

/-- A read index published stays, and so does the STATE of its queue. -/
theorem repaired_publish (h : Repaired s d addr ri) : Repaired (s.publish d addr) d addr ri := by
  obtain ⟨q, hq, hri, hst⟩ := h
  have hpaid : Repaired (s.putQueue d addr { q with owed := false }) d addr ri := repaired_putQueue s d addr hri hst
  simp only [State.publish, hq]
  split
  · exact ⟨q, hq, hri, hst⟩
  · split
    · exact hpaid
    · split
      · next ps _ =>
        clear * - hpaid
        generalize s.putQueue d addr { q with owed := false } = u at hpaid ⊢
        induction ps generalizing u with
        | nil => exact hpaid
        | cons p r ih =>
          rw [List.foldl_cons]
          refine ih _ ?_
          split
          · exact hpaid.of_homes (atHomes_writeHome u _ _)
          · exact hpaid.of_homes (atHomes_writeHome u _ _)
          · exact hpaid.of_dies (dies_writePlace u _ _ _ _)
      · next hm => exact Repaired.of_dies ⟨q, hq, hri, hst⟩ (dies_engDest _ hm)
      · exact hpaid

theorem dies_farClear (s : State) (q : Eng) : (s.farClear q).dies = s.dies := by
  simp only [State.farClear, State.leaveMisses]
  split <;> rfl

end

/-! ### The command -/

theorem dies_guardReply (s : State) (c : CoreId) (m : Msg) (st detail : Nat) : (s.guardReply c m st detail).dies = s.dies := by
  obtain ⟨_, _, _, _, ht⟩ := guardReply_kept s c m st detail
  rw [ht]

/-- A queue as its repair enters it. -/
def mended (s : State) (d : DieId) (addr ri : Nat) : Queue :=
  { s.queueOf d addr with ri, owed := true, idleSince := s.quartz, waking := none, plan := none, held := false, homes := [] }

/-- What QREPAIR does with a queue, once it is known whether the index is in range. -/
def repairQueue (d : DieId) (addr ri : Nat) (ok : Bool) (s : State) : State × Nat × Nat :=
  if (s.queueOf d addr).die ≠ d.val then (s, gcBadport, 0)
  else if !ok then (s.farClear (frontEng d addr 0), gcBaddesc, 0)
  else (((s.enterState d addr (mended s d addr ri) 0).farClear (frontEng d addr 0)).publish d addr, 0, ri)

section
variable {s v : State} {c : CoreId} {m : Msg} {len : Nat}

/-- A repair of a queue that a message asks for. -/
abbrev repairOf (c : CoreId) (m : Msg) (ok : Bool) : CoreId → Msg → State → State × Nat × Nat :=
  fun _ _ => repairQueue (dieOf c) (m.dword 0).toNat (m.dword 1).toNat ok

/-- What reading tells about the index that a message asks for. -/
abbrev indexInRange (s : State) (c : CoreId) (m : Msg) : Got Bool :=
  repairs (frontRead (dieOf c) (m.dword 0).toNat 0) (s.queueOf (dieOf c) (m.dword 0).toNat) (m.dword 1).toNat s

theorem qrepair_formed (ha : ToGuard s c m len) :
    (m.domain = 0 && m.port = 21 && isKernelCore c && m.payload.length = 3) = (isKernelCore c && len = 3) := by
  obtain ⟨-, -, hdom, hport, hlen, -⟩ := ha
  simp [hdom, hport, hlen]

/-- Where the command is not well formed, nothing is read first. -/
theorem exec_qrepair_direct (ha : ToGuard s c m len) (h : ¬ (isKernelCore c = true ∧ len = 3) ∨
    (s.queueOf (dieOf c) (m.dword 0).toNat).die ≠ (dieOf c).val) :
    exec .qrepair s = guardOp s 3 isKernelCore (repairOf c m true) := by
  have hexec : exec .qrepair s = execQrepair s := rfl
  have hskip : (!(isKernelCore c && decide (len = 3)) ||
      decide ((s.queueOf (dieOf c) (m.dword 0).toNat).die ≠ (dieOf c).val)) = true := by
    rcases h with h | h
    · rw [Bool.or_eq_true, Bool.not_eq_true']
      exact .inl (Bool.eq_false_iff.mpr (by simpa using h))
    · rw [Bool.or_eq_true]
      exact .inr (decide_eq_true h)
  simp only [hexec, execQrepair, withMsg_eq ha.1, asked_core ha, qrepair_formed ha]
  rw [if_pos hskip]
  rfl

theorem exec_qrepair_read (ha : ToGuard s c m 3) (hk : isKernelCore c = true)
    (hq : (s.queueOf (dieOf c) (m.dword 0).toNat).die = (dieOf c).val) :
    (∀ ok, indexInRange s c m = .got v ok →
      exec .qrepair s = guardOp v 3 isKernelCore (repairOf c m ok)) ∧
    (indexInRange s c m = .wait v →
      exec .qrepair s = .next ((v.answerTo c m .accepted).send (agentFront (dieOf c)) (agentFront (dieOf c)) .qrepair
        (.msg { m with src := .outside }))) := by
  have hexec : exec .qrepair s = execQrepair s := rfl
  have hread : ¬ (!(isKernelCore c && decide True) ||
      decide ((s.queueOf (dieOf c) (m.dword 0).toNat).die ≠ (dieOf c).val)) = true := by
    rw [hk, hq]
    simp
  constructor
  · intro ok hr
    unfold indexInRange at hr
    simp only [hexec, execQrepair, withMsg_eq ha.1, asked_core ha, qrepair_formed ha]
    rw [if_neg hread, hr]
    rfl
  · intro hr
    unfold indexInRange at hr
    simp only [hexec, execQrepair, withMsg_eq ha.1, asked_core ha, qrepair_formed ha]
    rw [if_neg hread, hr]

theorem toGuard_read {ok : Bool} {q : Queue} {d : DieId} {addr ri : Nat} (ha : ToGuard s c m len)
    (hr : repairs (frontRead d addr 0) q ri s = .got v ok) : ToGuard v c m len :=
  ⟨(repairs_arg hr).trans ha.1, ha.2⟩

/-- The queue is not one of the core's die. -/
theorem qrepair_elsewhere (ha : ToGuard s c m 3) (hk : isKernelCore c = true)
    (hq : (s.queueOf (dieOf c) (m.dword 0).toNat).die ≠ (dieOf c).val) :
    ∃ t, exec .qrepair s = .next t ∧ GuardAnswer t m 2 0 ∧ t.dies = s.dies := by
  have halike := alike_answerTo s c m
  refine ⟨_, exec_guardOp ha (exec_qrepair_direct ha (.inr hq)) hk (if_pos (by rw [halike.queueOf]; exact hq)),
    guardAnswer_asked ha (by decide) _ 2 0, ?_⟩
  exact (dies_guardReply _ c m 2 0).trans halike.dies

/-- An index out of range leaves the queues. -/
theorem qrepair_outside (ha : ToGuard s c m 3) (hk : isKernelCore c = true)
    (hq : (s.queueOf (dieOf c) (m.dword 0).toNat).die = (dieOf c).val)
    (hr : indexInRange s c m = .got v false)
    (hv : (v.queueOf (dieOf c) (m.dword 0).toNat).die = (dieOf c).val) :
    ∃ t, exec .qrepair s = .next t ∧ GuardAnswer t m 3 0 ∧ (t.die (dieOf c)).queues = (v.die (dieOf c)).queues := by
  have halike := alike_answerTo v c m
  have hclear := dies_farClear (v.answerTo c m .accepted) (frontEng (dieOf c) (m.dword 0).toNat 0)
  refine ⟨_, ((exec_qrepair_read ha hk hq).1 false hr).trans (guardOp_done (toGuard_read ha hr) hk
    ((if_neg (not_not.mpr (by rw [halike.queueOf]; exact hv))).trans (if_pos rfl))),
    guardAnswer_asked ha (by decide) _ 3 0, ?_⟩
  have hdies := (dies_guardReply ((v.answerTo c m .accepted).farClear (frontEng (dieOf c) (m.dword 0).toNat 0)) c m 3 0).trans (hclear.trans halike.dies)
  exact congrArg (fun l : Tab Die => ((tabGet l (dieOf c).val).getD .reset).queues) hdies

/-- An index in range is the queue's. -/
theorem qrepair_inside (ha : ToGuard s c m 3) (hk : isKernelCore c = true)
    (hq : (s.queueOf (dieOf c) (m.dword 0).toNat).die = (dieOf c).val)
    (hr : indexInRange s c m = .got v true)
    (hv : (v.queueOf (dieOf c) (m.dword 0).toNat).die = (dieOf c).val) :
    ∃ t p, exec .qrepair s = .next t ∧ GuardAnswer t m 0 (m.dword 1).toNat ∧
      tabGet (t.die (dieOf c)).queues (m.dword 0).toNat = some p ∧ p.ri = (m.dword 1).toNat ∧ p.state = 0 := by
  have halike := alike_answerTo v c m
  have hexec := ((exec_qrepair_read ha hk hq).1 true hr).trans (guardOp_done (toGuard_read ha hr) hk
    ((if_neg (not_not.mpr (by rw [halike.queueOf]; exact hv))).trans (if_neg Bool.false_ne_true)))
  generalize v.answerTo c m .accepted = u at hexec
  have hentered : Repaired (u.enterState (dieOf c) (m.dword 0).toNat (mended u (dieOf c) (m.dword 0).toNat (m.dword 1).toNat) 0)
      (dieOf c) (m.dword 0).toNat (m.dword 1).toNat := repaired_putQueue _ _ _ rfl rfl
  obtain ⟨p, hp⟩ := (repaired_publish (hentered.of_dies (dies_farClear _ (frontEng (dieOf c) (m.dword 0).toNat 0)))).of_dies
    (dies_guardReply _ c m 0 (m.dword 1).toNat)
  exact ⟨_, p, hexec, guardAnswer_asked ha (by decide) _ 0 _, hp⟩

end

end Sys2Proof.Proofs
end

section
/-! The commands of guard control all together (R116, R129): which core serves them, their length, the domain 0xFFFF, an unknown tag;
and those of a kernel core that set a collective group (R316), a peer window (R379), and Garnet (R369). -/

namespace Sys2Proof.Proofs

open Sys2Proof Sys2Proof.Machine Sys2Proof.Claims

section
variable {s u : State} {c : CoreId} {m : Msg}

/-! ### What every command refuses -/

/-- Every command but QREPAIR is carried out as it arrives, at a kernel core when only that serves it. -/
theorem guardCommands_op {i : Instr} {n : Nat} {k : Bool} (h : (i, n, k) ∈ guardCommands) (hi : i ≠ .qrepair) :
    ∃ g, ∀ s, exec i s = guardOp s n (if k then isKernelCore else anyCore) g := by
  simp only [guardCommands, List.mem_cons, Prod.mk.injEq, List.not_mem_nil, or_false] at h
  obtain ⟨rfl, rfl, rfl⟩ | ⟨rfl, rfl, rfl⟩ | ⟨rfl, rfl, rfl⟩ | ⟨rfl, rfl, rfl⟩ | ⟨rfl, rfl, rfl⟩ | ⟨rfl, rfl, rfl⟩ |
    ⟨rfl, rfl, rfl⟩ | ⟨rfl, rfl, rfl⟩ | ⟨rfl, rfl, rfl⟩ | ⟨rfl, rfl, rfl⟩ | ⟨rfl, rfl, rfl⟩ | ⟨rfl, rfl, rfl⟩ |
    ⟨rfl, rfl, rfl⟩ := h
  · exact ⟨_, fun s => Eq.trans (b := execRights s) rfl rfl⟩
  · exact ⟨_, fun s => Eq.trans (b := execShare s) rfl rfl⟩
  · exact ⟨_, fun s => Eq.trans (b := execUnshare s) rfl rfl⟩
  · exact ⟨_, fun s => Eq.trans (b := execCapload s) rfl rfl⟩
  · exact ⟨_, fun s => Eq.trans (b := execCaprevoke s) rfl rfl⟩
  · exact ⟨_, fun s => Eq.trans (b := execSendright s) rfl rfl⟩
  · exact ⟨_, fun s => Eq.trans (b := execAdmitEntry s) rfl rfl⟩
  · exact ⟨_, fun s => Eq.trans (b := execKill s) rfl rfl⟩
  · exact ⟨_, fun s => Eq.trans (b := execGateinv s) rfl rfl⟩
  · exact ⟨_, fun s => Eq.trans (b := execAllot s) rfl rfl⟩
  · exact ⟨_, fun s => Eq.trans (b := execCollgrp s) rfl rfl⟩
  · exact absurd rfl hi
  · exact ⟨_, fun s => Eq.trans (b := execUnfreeze s) rfl rfl⟩

theorem isKernelCore_iff : isKernelCore c = true ↔ c.val % 256 = 0 := beq_iff_eq

/-- A kernel core's command at another core, and a command of a wrong length. -/
theorem guardCommands_refused {i : Instr} {n : Nat} {k : Bool} (hmem : (i, n, k) ∈ guardCommands)
    (ha : ToGuard s c m m.payload.length) (hp : m.payload ≠ []) :
    (k = true → c.val % 256 ≠ 0 → Guarded i s c m 2 0 (· = (s.core c).guard)) ∧
    ((k = true → c.val % 256 = 0) → m.payload.length ≠ n → Guarded i s c m 3 0 (· = (s.core c).guard)) := by
  have hop : (¬ (isKernelCore c = true ∧ m.payload.length = 3) ∨ i ≠ .qrepair) →
      ∃ g, exec i s = guardOp s n (if k then isKernelCore else anyCore) g := by
    intro h
    by_cases hi : i = .qrepair
    · subst hi
      have hrow : n = 3 ∧ k = true := by simpa [guardCommands] using hmem
      obtain ⟨rfl, rfl⟩ := hrow
      exact ⟨_, exec_qrepair_direct ha (.inl (h.resolve_right (fun h => h rfl)))⟩
    · obtain ⟨g, hg⟩ := guardCommands_op hmem hi
      exact ⟨g, hg s⟩
  refine ⟨fun hk hc => ?_, fun hc hl => ?_⟩
  · subst hk
    have hno : isKernelCore c = false := Bool.eq_false_iff.mpr (mt isKernelCore_iff.mp hc)
    obtain ⟨g, hg⟩ := hop (.inl (fun h => hc (isKernelCore_iff.mp h.1)))
    exact guarded_badport ha hp hg hno
  · have hserved : (if k then isKernelCore else anyCore) c = true := by
      cases k with
      | true => exact isKernelCore_iff.mpr (hc rfl)
      | false => rfl
    have hplain : ¬ (isKernelCore c = true ∧ m.payload.length = 3) ∨ i ≠ .qrepair := by
      by_cases hi : i = .qrepair
      · subst hi
        have hrow : n = 3 ∧ k = true := by simpa [guardCommands] using hmem
        exact .inl (fun h => hl (h.2.trans hrow.1.symm))
      · exact .inr hi
    obtain ⟨g, hg⟩ := hop hplain
    exact guarded_baddesc ha hp hg hserved hl

theorem peerwin_refused (ha : ToGuard s c m m.payload.length) (hp : m.payload ≠ []) :
    (c ≠ 0 → Guarded .peerwin s c m 2 0 (· = (s.core c).guard)) ∧
    (c = 0 → m.payload.length ≠ 4 → Guarded .peerwin s c m 3 0 (· = (s.core c).guard)) := by
  refine ⟨fun hc => ?_, fun hc hl => ?_⟩
  · have hno : (c.val == 0) = false := beq_eq_false_iff_ne.mpr (fun h => hc (Fin.ext h))
    exact guarded_badport ha hp (served := fun c => c.val == 0) (Eq.trans (b := execPeerwin s) rfl rfl) hno
  · subst hc
    exact guarded_baddesc ha hp (served := fun c => c.val == 0) (Eq.trans (b := execPeerwin s) rfl rfl) rfl hl

/-- No command names the domain 0xFFFF. -/
theorem guardCommands_noDomain {i : Instr} {n : Nat}
    (hmem : (i, n) ∈ ([(.rights, 2), (.kill, 2), (.sendright, 4), (.admitEntry, 3), (.allot, 4)] : List (Instr × Nat)))
    (ha : ToGuard s c m n) (hd : BitVec.ofNat 16 (bitsOf (m.dword 0) 15 0) = 0xFFFF) :
    Guarded i s c m 3 0 (· = (s.core c).guard) := by
  have hno : decide (domainField (m.dword 0) = noDomain) = true := decide_eq_true hd
  simp only [List.mem_cons, Prod.mk.injEq, List.not_mem_nil, or_false] at hmem
  obtain ⟨rfl, rfl⟩ | ⟨rfl, rfl⟩ | ⟨rfl, rfl⟩ | ⟨rfl, rfl⟩ | ⟨rfl, rfl⟩ := hmem
  · exact guarded_same ha (by decide) (served := anyCore) (Eq.trans (b := execRights s) rfl rfl) rfl
      (fun u _ => if_pos (by rw [hno]; exact Bool.or_true _)) rfl
  · exact guarded_same ha (by decide) (served := anyCore) (Eq.trans (b := execKill s) rfl rfl) rfl
      (fun u _ => if_pos (by rw [hno]; exact Bool.or_true _)) rfl
  · exact guarded_same ha (by decide) (served := anyCore) (Eq.trans (b := execSendright s) rfl rfl) rfl
      (fun u _ => if_pos (by rw [hno]; exact Bool.or_true _)) rfl
  · exact guarded_same ha (by decide) (served := anyCore) (Eq.trans (b := execAdmitEntry s) rfl rfl) rfl
      (fun u _ => if_pos (by rw [hno]; exact Bool.or_true _)) rfl
  · exact guarded_same ha (by decide) (served := anyCore) (Eq.trans (b := execAllot s) rfl rfl) rfl
      (fun u _ => if_pos (by rw [hno]; exact Bool.or_true _)) rfl

/-- An unknown tag. -/
theorem guardControl_badop (ha : ToGuard s c m m.payload.length) (hp : m.payload ≠ []) (hsrc : ∀ a, m.src ≠ .remote a) :
    Guarded .messageArrival s c m 12 0 (· = (s.core c).guard) := by
  have halike := alike_answerTo s c m
  have hexec : exec .messageArrival s = .next ((s.answerTo c m .accepted).guardReply c m 12 0) := by
    obtain ⟨harg, hc, -, hport, -, -⟩ := ha
    have hc' : coreOf (bitsOf m.dst 35 25) = c := hc
    have h : exec .messageArrival s = execMessageArrival s := rfl
    simp only [h, execMessageArrival, harg, withMsg_eq harg, hc', hport]
    cases hm : m.src with
    | remote a => exact absurd hm (hsrc a)
    | _ => rfl
  exact guarded_reply ha hp hexec (.alike halike) (by rw [halike.core])

/-! ### Groups, windows, Garnet (R316, R369, R379) -/

/-- A command that changes a die. -/
theorem answered_mapDie {i : Instr} {n : Nat} {g : CoreId → Msg → State → State × Nat × Nat} {f : Die → Die} (ha : ToGuard s c m n)
    (h0 : n ≠ 0) (hk : c.val % 256 = 0) (hexec : exec i s = guardOp s n isKernelCore g)
    (hg : g c m (s.answerTo c m .accepted) = ((s.answerTo c m .accepted).mapDie (dieOf c) f, 0, 0)) :
    ∃ t, exec i s = .next t ∧ GuardAnswer t m 0 0 ∧ t.die (dieOf c) = f (s.die (dieOf c)) := by
  refine ⟨_, exec_guardOp ha hexec (isKernelCore_iff.mpr hk) hg, guardAnswer_asked ha h0 _ 0 0, ?_⟩
  have hdies := dies_guardReply ((s.answerTo c m .accepted).mapDie (dieOf c) f) c m 0 0
  rw [State.die, hdies, ← (alike_answerTo s c m).die]
  exact State.die_mapDie_self _ _ _

/-- A die with a group set. -/
def withGroup (id : Nat) (g : Group) (d : Die) : Die := { d with groups := tabSet d.groups id g }

theorem collgrp_group (hk : c.val % 256 = 0) (ha : ToGuard s c m 4) (h1 : bitsOf (m.dword 0) 63 21 = 0) :
    let id := bitsOf (m.dword 0) 7 0
    let n := bitsOf (m.dword 0) 19 8 + 1
    let at_ (i : Nat) : Nat := leNat ((s.answerTo c m .accepted).kernelRead c ((m.dword 1).toNat + 4 * i) 4)
    (bitOf (m.dword 0) 20 = false → ∃ t, exec .collgrp s = .next t ∧ GuardAnswer t m 0 0 ∧
      tabGet (t.die (dieOf c)).groups id = none) ∧
    (bitOf (m.dword 0) 20 = true → 2 ≤ n → 1000 ≤ (m.dword 2).toNat → (m.dword 2).toNat ≤ 10000000 →
      (∀ i < n, at_ i < 2 ^ 23) →
      ∃ t, exec .collgrp s = .next t ∧ GuardAnswer t m 0 0 ∧
        tabGet (t.die (dieOf c)).groups id = some
          { members := (List.range n).map (fun i => (at_ i / 2048, at_ i % 2048)), timeout := (m.dword 2).toNat }) := by
  intro id n at_
  have hvalid : ¬ bitsOf (m.dword 0) 63 21 ≠ 0 := not_not.mpr h1
  refine ⟨fun hdel => ?_, fun hset h2 ht1 ht2 hm => ?_⟩
  · obtain ⟨t, hexec, hans, hdie⟩ := answered_mapDie (i := .collgrp) (f := fun d => { d with groups := tabDel d.groups id }) ha (by decide) hk
      (Eq.trans (b := execCollgrp s) rfl rfl) ((if_neg hvalid).trans (if_pos (by rw [hdel]; rfl)))
    exact ⟨t, hexec, hans, by rw [hdie]; exact tabGet_tabDel_self _ _⟩
  · have hmembers : ¬ (n < 2 || (m.dword 2).toNat < 1000 || 10000000 < (m.dword 2).toNat ||
        ((List.range n).map at_).any (2 ^ 23 ≤ ·)) = true := by
      simp only [Bool.or_eq_true, decide_eq_true_eq, List.any_eq_true, List.mem_map, List.mem_range, not_or]
      refine ⟨⟨⟨by omega, by omega⟩, by omega⟩, ?_⟩
      rintro ⟨_, ⟨i, hi, rfl⟩, hbig⟩
      exact absurd (hm i hi) (not_lt.mpr hbig)
    obtain ⟨t, hexec, hans, hdie⟩ := answered_mapDie (i := .collgrp) (f := withGroup id
      ⟨((List.range n).map at_).map (fun v => (v / 2048, v % 2048)), (m.dword 2).toNat⟩) ha (by decide) hk
      (Eq.trans (b := execCollgrp s) rfl rfl)
      ((if_neg hvalid).trans ((if_neg (by rw [hset]; exact Bool.false_ne_true)).trans (if_neg hmembers)))
    refine ⟨t, hexec, hans, ?_⟩
    rw [hdie]
    exact (tabGet_tabSet_self _ _ _).trans (by rw [List.map_map]; rfl)

theorem unfreeze_records (hk : c.val % 256 = 0) (ha : ToGuard s c m 1) :
    ∃ t, exec .unfreeze s = .next t ∧ GuardAnswer t m 0 0 ∧ (t.die (dieOf c)).garnet.frozen = false ∧
      (t.die (dieOf c)).garnet.records = (s.die (dieOf c)).garnet.records := by
  obtain ⟨t, hexec, hans, hdie⟩ := answered_mapDie (i := .unfreeze) (f := fun d => { d with garnet := { d.garnet with frozen := false } }) ha
    (by decide) hk (Eq.trans (b := execUnfreeze s) rfl rfl) rfl
  exact ⟨t, hexec, hans, by rw [hdie], by rw [hdie]⟩

theorem windows_guardReply (s : State) (c : CoreId) (m : Msg) (st detail : Nat) :
    (s.guardReply c m st detail).windows = s.windows := by
  obtain ⟨_, _, _, _, ht⟩ := guardReply_kept s c m st detail
  rw [ht]

/-- The window that PEERWIN describes. -/
def askedWindow (m : Msg) : PeerWindow :=
  { device := BitVec.ofNat 12 (bitsOf (m.dword 0) 17 6), r := bitOf (m.dword 0) 18, w := bitOf (m.dword 0) 19,
    key := bitsOf (m.dword 0) 31 20, base := (m.dword 1).toNat, length := 65536 * (m.dword 2).toNat }

theorem peerwin_window (hc : c = 0) (ha : ToGuard s c m 4) (h1 : bitsOf (m.dword 0) 63 33 = 0)
    (h2 : (m.dword 1).toNat % 65536 = 0) (h3 : (m.dword 1).toNat + 65536 * (m.dword 2).toNat ≤ Config.hbmEnd) :
    ∃ t, exec .peerwin s = .next t ∧ GuardAnswer t m 0 0 ∧
      tabGet t.windows (bitsOf (m.dword 0) 5 0) = (if bitOf (m.dword 0) 32 then some (askedWindow m) else none) ∧
      (∀ j, j ≠ bitsOf (m.dword 0) 5 0 → tabGet t.windows j = tabGet s.windows j) := by
  have hvalid : ¬ (bitsOf (m.dword 0) 63 33 ≠ 0 || (m.dword 1).toNat % 65536 ≠ 0 ||
      Config.hbmEnd < (m.dword 1).toNat + 65536 * (m.dword 2).toNat) = true := by
    simp only [Bool.or_eq_true, decide_eq_true_eq, not_or, not_not, not_lt]
    exact ⟨⟨h1, h2⟩, h3⟩
  have hserved : (c.val == 0) = true := by rw [hc]; rfl
  have hwindows := (alike_answerTo s c m).windows
  have hdone {u : State} (hu : (if !bitOf (m.dword 0) 32 then
      ({ s.answerTo c m .accepted with windows := tabDel (s.answerTo c m .accepted).windows (bitsOf (m.dword 0) 5 0) }, 0, 0)
      else ({ s.answerTo c m .accepted with
        windows := tabSet (s.answerTo c m .accepted).windows (bitsOf (m.dword 0) 5 0) (askedWindow m) }, 0, 0)) = (u, 0, 0)) :
      exec .peerwin s = .next (u.guardReply c m 0 0) :=
    exec_guardOp ha (served := fun c => c.val == 0) (Eq.trans (b := execPeerwin s) rfl rfl) hserved ((if_neg hvalid).trans hu)
  have hans (u : State) := guardAnswer_asked ha (by decide) u 0 0
  cases hv : bitOf (m.dword 0) 32 with
  | false =>
    refine ⟨_, hdone (if_pos (by rw [hv]; rfl)), hans _, ?_, fun j hj => ?_⟩
    · rw [windows_guardReply]
      exact tabGet_tabDel_self _ _
    · rw [windows_guardReply, ← hwindows]
      exact tabGet_tabDel_ne _ hj
  | true =>
    refine ⟨_, hdone (if_neg (by rw [hv]; exact Bool.false_ne_true)), hans _, ?_, fun j hj => ?_⟩
    · rw [windows_guardReply]
      exact tabGet_tabSet_self _ _ _
    · rw [windows_guardReply, ← hwindows]
      exact tabGet_tabSet_ne _ _ hj

end

end Sys2Proof.Proofs
end

section
/-! RESOLVE (R353): a token's waiters retry or fail, and the token is free. -/

namespace Sys2Proof.Proofs

open Sys2Proof Sys2Proof.Machine Sys2Proof.Claims

section
variable {s u : State} {c : CoreId} {m : Msg} {len : Nat}

/-! ### The reply -/

theorem resolveReply_eq (hp : m.payload ≠ []) (s : State) (c : CoreId) (st n : Nat) :
    s.resolveReply c m st n = s.kernelReply c 21 0x5B (m.payload.getLastD 0) [word (st + n % 2 ^ 24 * 256)] := by
  rw [State.resolveReply, if_neg (by simpa using hp)]

theorem replied_resolveReply (ha : ToGuard s c m len) (hp : m.payload ≠ []) (u : State) (st n : Nat) :
    Replied (u.resolveReply c m st n) (m.payload.getLastD 0) 0x5B [word (st + n % 2 ^ 24 * 256)] := by
  obtain ⟨-, -, -, -, -, hdev⟩ := ha
  rw [resolveReply_eq hp]
  exact replied_kernelReply u c 21 0x5B _ hdev

theorem resolveReply_kept (hp : m.payload ≠ []) (s : State) (c : CoreId) (st n : Nat) :
    (s.resolveReply c m st n).dies = s.dies ∧ CoresKept s (s.resolveReply c m st n) := by
  rw [resolveReply_eq hp]
  obtain ⟨_, _, _, _, ht⟩ := kernelReply_eq s c 21 0x5B (m.payload.getLastD 0) [word (st + n % 2 ^ 24 * 256)]
  rw [ht]
  exact ⟨rfl, rfl, rfl, rfl⟩

/-- A reply with a status and nothing else. -/
theorem resolve_refused {st : Nat} (ha : ToGuard s c m len) (hp : m.payload ≠ [])
    (hexec : exec .resolve s = .next ((s.answerTo c m .accepted).resolveReply c m st 0)) :
    ∃ t, exec .resolve s = .next t ∧ Replied t (m.payload.getLastD 0) 0x5B [word (st + 0 % 2 ^ 24 * 256)] ∧
      t.dies = s.dies ∧ t.cores = s.cores := by
  have halike := alike_answerTo s c m
  obtain ⟨hdies, hcores, -, -⟩ := resolveReply_kept hp (s.answerTo c m .accepted) c st 0
  exact ⟨_, hexec, replied_resolveReply ha hp _ st 0, hdies.trans halike.dies, hcores.trans halike.cores⟩

/-! ### The command -/

/-- What RESOLVE does with a token. -/
def releaseToken (s : State) (d : DieId) (t : Nat) (k : Token) (retry : Bool) (cause : Nat) : State :=
  k.waiters.foldl (fun s v => s.releaseWaiter retry cause v) (s.mapDie d (fun d => { d with faultTokens := tabDel d.faultTokens t }))

theorem exec_resolve (ha : ToGuard s c m len) : exec .resolve s = execResolve s ∧ ¬ (m.domain ≠ 0 || m.port ≠ 21) = true := by
  obtain ⟨-, -, hdom, hport, -, -⟩ := ha
  exact ⟨rfl, by simp [hdom, hport]⟩

theorem exec_resolve_badport (ha : ToGuard s c m len) (hk : c.val % 256 ≠ 0) :
    exec .resolve s = .next ((s.answerTo c m .accepted).resolveReply c m 2 0) := by
  obtain ⟨hexec, hno⟩ := exec_resolve ha
  have hkernel : (!isKernelCore c) = true := by rw [Bool.not_eq_true']; exact Bool.eq_false_iff.mpr (mt isKernelCore_iff.mp hk)
  simp only [hexec, execResolve, withMsg_eq ha.1, asked_core ha]
  rw [if_neg hno, if_pos hkernel]
  rfl

theorem exec_resolve_baddesc (ha : ToGuard s c m len) (hk : c.val % 256 = 0) (hl : len ≠ 2) :
    exec .resolve s = .next ((s.answerTo c m .accepted).resolveReply c m 3 0) := by
  obtain ⟨hexec, hno⟩ := exec_resolve ha
  have hkernel : ¬ (!isKernelCore c) = true := by rw [isKernelCore_iff.mpr hk]; exact Bool.false_ne_true
  simp only [hexec, execResolve, withMsg_eq ha.1, asked_core ha]
  rw [if_neg hno, if_neg hkernel, if_pos ((asked_length ha).trans_ne hl)]
  rfl

theorem exec_resolve_badmode (ha : ToGuard s c m 2) (hk : c.val % 256 = 0)
    (h : (1 < bitsOf (m.dword 0) 19 16 || bitsOf (m.dword 0) 63 28 ≠ 0 ||
      (bitsOf (m.dword 0) 19 16 = 1 && !failCause (bitsOf (m.dword 0) 27 20))) = true) :
    exec .resolve s = .next ((s.answerTo c m .accepted).resolveReply c m 2 0) := by
  obtain ⟨hexec, hno⟩ := exec_resolve ha
  have hkernel : ¬ (!isKernelCore c) = true := by rw [isKernelCore_iff.mpr hk]; exact Bool.false_ne_true
  simp only [hexec, execResolve, withMsg_eq ha.1, asked_core ha]
  rw [if_neg hno, if_neg hkernel, if_neg (not_not.mpr (asked_length ha)), if_pos h]

/-- A command that is well formed, by the token it names. -/
theorem exec_resolve_token (ha : ToGuard s c m 2) (hk : c.val % 256 = 0)
    (h : ¬ (1 < bitsOf (m.dword 0) 19 16 || bitsOf (m.dword 0) 63 28 ≠ 0 ||
      (bitsOf (m.dword 0) 19 16 = 1 && !failCause (bitsOf (m.dword 0) 27 20))) = true) :
    (tabGet (s.die (dieOf c)).faultTokens (bitsOf (m.dword 0) 15 0) = none →
      exec .resolve s = .next ((s.answerTo c m .accepted).resolveReply c m 1 0)) ∧
    (∀ k, tabGet (s.die (dieOf c)).faultTokens (bitsOf (m.dword 0) 15 0) = some k →
      exec .resolve s = .next ((releaseToken (s.answerTo c m .accepted) (dieOf c) (bitsOf (m.dword 0) 15 0) k
        (bitsOf (m.dword 0) 19 16 = 0) (bitsOf (m.dword 0) 27 20)).resolveReply c m 0 k.waiters.length)) := by
  obtain ⟨hexec, hno⟩ := exec_resolve ha
  have hkernel : ¬ (!isKernelCore c) = true := by rw [isKernelCore_iff.mpr hk]; exact Bool.false_ne_true
  have hdie := (alike_answerTo s c m).die (dieOf c)
  constructor
  · intro ht
    simp only [hexec, execResolve, withMsg_eq ha.1, asked_core ha]
    rw [if_neg hno, if_neg hkernel, if_neg (not_not.mpr (asked_length ha)), if_neg h, hdie, ht]
  · intro k ht
    simp only [hexec, execResolve, withMsg_eq ha.1, asked_core ha]
    rw [if_neg hno, if_neg hkernel, if_neg (not_not.mpr (asked_length ha)), if_neg h, hdie, ht]
    rfl

/-! ### Waiters that retry -/

/-- A saved context whose fault has been resolved. -/
def retried (v : Saved) : Saved := { v with resumable := true, waits := .untaken }

theorem retrySlot_saved (s : State) (c d : CoreId) (n k : SlotId) :
    ((s.retrySlot c n).slot d k).saved =
      if TokenWaiter.slot d k = .slot c n then (s.slot d k).saved.map retried else (s.slot d k).saved := by
  rw [State.retrySlot, slot_imageHead]
  by_cases hd : d = c
  · subst hd
    by_cases hk : k = n
    · subst hk
      rw [if_pos rfl, State.slot_mapSlot_self]
      rfl
    · rw [if_neg (by simp [hk]), State.slot_mapSlot_ne _ _ _ hk]
  · rw [if_neg (by simp [hd])]
    simp only [State.slot, State.mapSlot, State.core_mapCore_ne _ _ hd]

/-- Every activation that waits in a slot tries again, once or more. -/
theorem retryAll_saved (l : List TokenWaiter) (hl : ∀ v ∈ l, ∃ c n, v = .slot c n) (cause : Nat) (s : State) (d : CoreId)
    (k : SlotId) :
    ((l.foldl (fun s v => s.releaseWaiter true cause v) s).slot d k).saved =
      if TokenWaiter.slot d k ∈ l then (s.slot d k).saved.map retried else (s.slot d k).saved := by
  induction l generalizing s with
  | nil => rfl
  | cons v r ih =>
    obtain ⟨c, n, rfl⟩ := hl v List.mem_cons_self
    have hfirst : s.releaseWaiter true cause (.slot c n) = s.retrySlot c n := rfl
    have htwice (o : Option Saved) : (o.map retried).map retried = o.map retried := by cases o <;> rfl
    rw [List.foldl_cons, hfirst, ih (fun w hw => hl w (List.mem_cons_of_mem _ hw)), retrySlot_saved]
    simp only [List.mem_cons]
    by_cases hv : TokenWaiter.slot d k = .slot c n
    · simp only [hv, true_or, if_true, htwice, ite_self]
    · simp only [hv, false_or, if_false]

theorem retrySlot_tokens (s : State) (c : CoreId) (n : SlotId) (d : DieId) :
    ((s.retrySlot c n).die d).faultTokens = (s.die d).faultTokens := by
  rw [State.retrySlot, (atHomes_imageHead _ c n _).faultTokens]
  rfl

theorem retryAll_tokens (l : List TokenWaiter) (hl : ∀ v ∈ l, ∃ c n, v = .slot c n) (cause : Nat) (s : State) (d : DieId) :
    ((l.foldl (fun s v => s.releaseWaiter true cause v) s).die d).faultTokens = (s.die d).faultTokens := by
  induction l generalizing s with
  | nil => rfl
  | cons v r ih =>
    obtain ⟨c, n, rfl⟩ := hl v List.mem_cons_self
    rw [List.foldl_cons, ih (fun w hw => hl w (List.mem_cons_of_mem _ hw))]
    exact retrySlot_tokens s c n d

theorem releaseToken_retried {k : Token} (hl : ∀ v ∈ k.waiters, ∃ c n, v = .slot c n) (s : State) (d : DieId) (t cause : Nat) :
    tabGet ((releaseToken s d t k true cause).die d).faultTokens t = none ∧
    ∀ c n v, TokenWaiter.slot c n ∈ k.waiters → (s.slot c n).saved = some v →
      ((releaseToken s d t k true cause).slot c n).saved = some (retried v) := by
  refine ⟨?_, fun c n v hmem hv => ?_⟩
  · rw [releaseToken, retryAll_tokens _ hl, State.die_mapDie_self]
    exact tabGet_tabDel_self _ _
  · have hslot := (coresKept_mapDie s d (fun d => { d with faultTokens := tabDel d.faultTokens t })).slot c n
    rw [releaseToken, retryAll_saved _ hl, if_pos hmem, hslot, hv]
    rfl

/-! ### Its answers -/

theorem resolve_misdirected (ha : ToGuard s c m m.payload.length) (hp : m.payload ≠ []) :
    let reply (t : State) (st n : Nat) : Prop := Replied t (m.payload.getLastD 0) 0x5B [word (st + n % 2 ^ 24 * 256)]
    (c.val % 256 ≠ 0 → ∃ t, exec .resolve s = .next t ∧ reply t 2 0 ∧ t.dies = s.dies ∧ t.cores = s.cores) ∧
    (c.val % 256 = 0 → m.payload.length ≠ 2 →
      ∃ t, exec .resolve s = .next t ∧ reply t 3 0 ∧ t.dies = s.dies ∧ t.cores = s.cores) :=
  ⟨fun hk => resolve_refused ha hp (exec_resolve_badport ha hk),
    fun hk hl => resolve_refused ha hp (exec_resolve_baddesc ha hk hl)⟩

theorem resolve_token (hk : c.val % 256 = 0) (ha : ToGuard s c m 2) :
    let mode := bitsOf (m.dword 0) 19 16
    let cause := bitsOf (m.dword 0) 27 20
    let reply (t : State) (st n : Nat) : Prop := Replied t (m.payload.getLastD 0) 0x5B [word (st + n % 2 ^ 24 * 256)]
    let tok := tabGet (s.die (dieOf c)).faultTokens (bitsOf (m.dword 0) 15 0)
    (1 < mode ∨ bitsOf (m.dword 0) 63 28 ≠ 0 ∨ (mode = 1 ∧ failCause cause = false) →
      ∃ t, exec .resolve s = .next t ∧ reply t 2 0 ∧ t.dies = s.dies ∧ t.cores = s.cores) ∧
    (mode = 0 ∨ (mode = 1 ∧ failCause cause = true) → bitsOf (m.dword 0) 63 28 = 0 →
      (tok = none → ∃ t, exec .resolve s = .next t ∧ reply t 1 0 ∧ t.dies = s.dies ∧ t.cores = s.cores) ∧
      (∀ k, tok = some k → ∃ t, exec .resolve s = .next t ∧ reply t 0 k.waiters.length ∧
        (mode = 0 → (∀ v ∈ k.waiters, ∃ c' n, v = .slot c' n) →
          tabGet (t.die (dieOf c)).faultTokens (bitsOf (m.dword 0) 15 0) = none ∧
          ∀ c' n sv, TokenWaiter.slot c' n ∈ k.waiters → (s.slot c' n).saved = some sv →
            (t.slot c' n).saved = some { sv with resumable := true, waits := .untaken }))) := by
  intro mode cause reply tok
  have hp := payload_ne_nil ha (by decide)
  refine ⟨fun h => resolve_refused ha hp (exec_resolve_badmode ha hk ?_), fun h h0 => ?_⟩
  · simp only [Bool.or_eq_true, Bool.and_eq_true, decide_eq_true_eq, Bool.not_eq_true', or_assoc]
    exact h
  have hmode : ¬ (1 < mode || bitsOf (m.dword 0) 63 28 ≠ 0 || (mode = 1 && !failCause cause)) = true := by
    simp only [Bool.or_eq_true, Bool.and_eq_true, decide_eq_true_eq, Bool.not_eq_true', not_or, not_and, not_not]
    rcases h with h | ⟨h, hf⟩
    · exact ⟨⟨by omega, h0⟩, fun h1 => by omega⟩
    · exact ⟨⟨by omega, h0⟩, fun _ => by rw [hf]; decide⟩
  obtain ⟨hnone, hsome⟩ := exec_resolve_token ha hk hmode
  refine ⟨fun ht => resolve_refused ha hp (hnone ht), fun k ht => ?_⟩
  have halike := alike_answerTo s c m
  refine ⟨_, hsome k ht, replied_resolveReply ha hp _ 0 _, fun h0 hl => ?_⟩
  have hretry : decide (bitsOf (m.dword 0) 19 16 = 0) = true := decide_eq_true h0
  rw [hretry]
  obtain ⟨htok, hslots⟩ := releaseToken_retried hl (s.answerTo c m .accepted) (dieOf c) (bitsOf (m.dword 0) 15 0) cause
  generalize releaseToken (s.answerTo c m .accepted) (dieOf c) (bitsOf (m.dword 0) 15 0) k true cause = v at htok hslots
  obtain ⟨hdies, hcores⟩ := resolveReply_kept hp v c 0 k.waiters.length
  refine ⟨?_, fun c' n sv hmem hv => ?_⟩
  · rw [State.die, hdies]
    exact htok
  · rw [hcores.slot]
    exact hslots c' n sv hmem (by rw [halike.slot]; exact hv)

end

end Sys2Proof.Proofs
end

section
/-! The commands of guard control and RESOLVE together. -/

namespace Sys2Proof.Proofs

open Sys2Proof Sys2Proof.Machine Sys2Proof.Claims

/-- QREPAIR by where the queue is, and by whether the index is in range. -/
theorem qrepair_queue {s : State} {c : CoreId} {m : Msg} (hk : c.val % 256 = 0) (ha : ToGuard s c m 3) :
    let e := dieOf c
    let w := m.dword 0
    let ri := (m.dword 1).toNat
    let q := s.queueOf e w.toNat
    let done : Prop := ∃ t p, exec .qrepair s = .next t ∧ GuardAnswer t m 0 ri ∧
      tabGet (t.die e).queues w.toNat = some p ∧ p.ri = ri ∧ p.state = 0
    (q.die ≠ e.val → ∃ t, exec .qrepair s = .next t ∧ GuardAnswer t m 2 0 ∧ t.dies = s.dies) ∧
    (q.die = e.val →
      (ri ≤ q.ri → done) ∧
      (∀ v, repairs (frontRead e w.toNat 0) q ri s = .got v true → (v.queueOf e w.toNat).die = e.val → done) ∧
      (∀ v, repairs (frontRead e w.toNat 0) q ri s = .got v false → (v.queueOf e w.toNat).die = e.val →
        ∃ t, exec .qrepair s = .next t ∧ GuardAnswer t m 3 0 ∧ (t.die e).queues = (v.die e).queues) ∧
      (∀ v, repairs (frontRead e w.toNat 0) q ri s = .wait v → exec .qrepair s = .next
        ((v.answerTo c m .accepted).send (agentFront e) (agentFront e) .qrepair (.msg { m with src := .outside })))) := by
  have hkernel := isKernelCore_iff.mpr hk
  refine ⟨fun hq => qrepair_elsewhere ha hkernel hq, fun hq => ⟨fun hri => ?_, fun v hr hv => ?_, fun v hr hv => ?_, fun v hr => ?_⟩⟩
  · exact qrepair_inside ha hkernel hq (if_pos hri) hq
  · exact qrepair_inside ha hkernel hq hr hv
  · exact qrepair_outside ha hkernel hq hr hv
  · exact (exec_qrepair_read ha hkernel hq).2 hr

/-- Settles O36: every command is an acceptance, which changes only what is on its way, then the change of the guard, die, windows or
queue that it asks for, then its reply; what KILL does to frames and engines leaves the orders that it has given standing, and a
slot whose fault is resolved is ready, however often its token names it. -/
theorem guardControl : Obligations.GuardControl := by
  unfold Obligations.GuardControl
  refine ⟨fun rd q ri s mem hrd => repairs_got hrd q ri s, fun s c m => ?_, fun s c m => ?_⟩
  · extract_lets ep cmd w g d
    refine ⟨fun i n k hmem ha hp => guardCommands_refused hmem ha hp, fun ha hp => peerwin_refused ha hp,
      fun i n hmem ha hd => guardCommands_noDomain hmem ha hd, fun ha hp hsrc => guardControl_badop ha hp hsrc,
      fun ha h1 hd => rights_builtin ha h1 hd, fun ha h1 h0 hd => rights_record ha h1 h0 hd,
      fun r ha hr => share_region ha hr, fun ha h1 => unshare_entry ha h1, fun ha h => capload_invalid ha h,
      fun ha hw => capload_valid ha hw, fun ha => caprevoke_value ha, fun ha h1 hd => sendright_entry ha h1 hd,
      fun ha h1 h2 h3 hd => admitEntry_entry ha h1 h2 h3 hd, fun ha h1 => gateinv_gate ha h1,
      fun ha h1 h0 hd hp hp' hl => allot_budget ha h1 h0 hd hp hp' hl⟩
  · extract_lets ep cmd w u
    exact ⟨fun ha h1 hd => kill_ordered ha h1 hd, fun hk ha h1 => collgrp_group hk ha h1,
      fun hc ha h1 h2 h3 => peerwin_window hc ha h1 h2 h3, fun hk ha => qrepair_queue hk ha, fun hk ha => unfreeze_records hk ha,
      fun ha hp => resolve_misdirected ha hp, fun hk ha => resolve_token hk ha⟩

end Sys2Proof.Proofs
end
